-- ==== Sys2Proof/Word.lean ====
section
/-! DEFINITION. Words, masks and the one table type of the model.

Every sparse store of the machine (memory, register files, tables of records) is a `Tbl`: a list of
key and value pairs with strictly rising keys. Its operations stand in `Machine/Table.lean`. -/

namespace Sys2Proof

/-- One byte of a memory. -/
abbrev Byte := BitVec 8

/-- One vector element (R115). -/
abbrev W32 := BitVec 32

/-- A scalar register, a system register or a code word (R77, R115). -/
abbrev W64 := BitVec 64

/-- A mask of a wave: bit `i` belongs to lane `i`; bits at or above the width are zero (R111). -/
abbrev Mask := BitVec 1024

/-- A sparse store: pairs of a key and a value, keys strictly rising. -/
abbrev Tbl (β : Type) := List (Nat × β)

/-- A run of bytes, lowest address first. -/
abbrev Bytes := List Byte

end Sys2Proof
end

