-- ==== Sys2Proof/Config.lean ====
section
/-! DEFINITION. What the spec leaves open: constants without a body, so that nothing can be proved of their values.

A value that differs from use to use takes the plain counter `State.free` as its argument. -/

namespace Sys2Proof.Config

/-- Set of the L1 that a superblock belongs to: R258 gives no index function. -/
opaque l1Set : Nat → Nat

/-- The free way of a set that a fill takes: R258 does not say which. -/
opaque l1Way : Nat → Nat

/-- Whether a walk cache still holds an entry that it has read: its size and its replacement are open (R429). -/
opaque walkHeld : Nat → Bool

/-- Position of the TLB entry that a new one replaces; the order is open (R429). -/
opaque tlbVictim : Nat → Nat

/-- Cycles until the bytes of a load have returned; the spec gives no number (R298). -/
opaque loadCycles : Nat → Nat

/-- Whether a byte of a copy whose token is set already reads as its copied value (R272): the copy, the byte's place in it,
the use. -/
opaque copySeen : Nat → Nat → Nat → Bool

/-- Whether a byte that is written while a pass occupies the array is read by the pass as it stood before (R341): the use, the
write's place among those of the pass. -/
opaque passOld : Nat → Nat → Bool

/-- Cycles by which a copy completes after its promise (R274). -/
opaque copyLate : Nat → Nat

/-- The byte that a context reads from a line last written under another context's key, from the line's
address, the two keys and the plain byte (R495, R533). -/
opaque otherKeyByte : Nat → Nat → Nat → Byte → Byte

/-- The line within a channel's 2^25 that a canopy slice holds where its scrubber reads, if any: replacement is open (R400,
R434). -/
opaque canopyLine : Nat → Option Nat

/-- CAUSE of the freeze notice of a peer port that sent a request without a grant: R532 names none. -/
opaque grantCause : BitVec 4

/-- The 256-bit key that the random source gives at its n-th draw (R533). -/
opaque randomKey : Nat → BitVec 256

/-- Byte of an encrypted save image: the draw, the byte's number (R493). -/
opaque saveByte : Nat → Nat → Byte

/-- Size of a save image in 4 KiB units (R492: SAVESZ). -/
opaque saveUnits : Nat → Nat

/-- ML-DSA-44 signature check of an image against the fused public key (R529): image bytes, signature. -/
opaque imageSigned : Bytes → Bytes → Bool

/-- ML-DSA-44 signature of an attestation report by the device's key (R531), 2,420 bytes. -/
opaque attestSign : Bytes → Bytes

/-- The device serial number, 16 bytes (R531). -/
opaque serial : BitVec 128

/-- The security processor's MEAS status word 0 after a boot in which the images flagged failed (R529 gives no layout). -/
opaque bootStatus : List Bool → W64

/-- The value that a lane's register takes in a case the spec gives no value for: the use, the lane. -/
opaque freeWord : Nat → Nat → W64

end Sys2Proof.Config
end

