-- ==== Sys2Proof/Machine/Table.lean ====
section
/-! DEFINITION. Operations of the one table type: memory, register files and tables of records are all `Tbl`s.

A table lists keys in strictly rising order; `canon d` adds that no entry equals `d`, what an unlisted key reads as. -/

namespace Sys2Proof

variable {β : Type}

/-- The entry at key `k`. -/
def Tbl.find : Tbl β → Nat → Option β
  | [], _ => none
  | (j, x) :: t, k => if j = k then some x else Tbl.find t k

/-- The value at key `k`, `d` where nothing is listed. -/
def Tbl.get (t : Tbl β) (k : Nat) (d : β) : β := (Tbl.find t k).getD d

/-- Whether key `k` is listed. -/
def Tbl.mem (t : Tbl β) (k : Nat) : Bool := (Tbl.find t k).isSome

/-- List `x` at key `k`. -/
def Tbl.put : Tbl β → Nat → β → Tbl β
  | [], k, x => [(k, x)]
  | (j, y) :: t, k, x =>
    if k < j then (k, x) :: (j, y) :: t else if k = j then (k, x) :: t else (j, y) :: Tbl.put t k x

/-- Remove key `k`. -/
def Tbl.del : Tbl β → Nat → Tbl β
  | [], _ => []
  | (j, y) :: t, k => if j = k then Tbl.del t k else (j, y) :: Tbl.del t k

/-- Write `x` at key `k` of a table whose unlisted keys read as `d`. -/
def Tbl.set [DecidableEq β] (d : β) (t : Tbl β) (k : Nat) (x : β) : Tbl β :=
  if x = d then Tbl.del t k else Tbl.put t k x

/-- Rewrite the entry at key `k`, where there is one. -/
def Tbl.upd (t : Tbl β) (k : Nat) (f : β → β) : Tbl β :=
  match Tbl.find t k with
  | some x => Tbl.put t k (f x)
  | none => t

/-- Keep the entries that satisfy `p`. -/
def Tbl.keep (p : Nat → β → Bool) : Tbl β → Tbl β
  | [] => []
  | (k, x) :: t => if p k x then (k, x) :: Tbl.keep p t else Tbl.keep p t

/-- Rewrite every value. -/
def Tbl.mapv (f : Nat → β → β) : Tbl β → Tbl β
  | [] => []
  | (k, x) :: t => (k, f k x) :: Tbl.mapv f t

/-- The listed keys. -/
def Tbl.keys (t : Tbl β) : List Nat := t.map (·.1)

/-- The first entry that satisfies `p`. -/
def Tbl.findWhere (p : Nat → β → Bool) : Tbl β → Option (Nat × β)
  | [] => none
  | (k, x) :: t => if p k x then some (k, x) else Tbl.findWhere p t

/-- Keys at or above `n`, strictly rising. -/
def Tbl.wfFrom : Nat → Tbl β → Bool
  | _, [] => true
  | n, (k, _) :: t => decide (n ≤ k) && Tbl.wfFrom (k + 1) t

/-- Keys strictly rising. -/
def Tbl.wf (t : Tbl β) : Bool := Tbl.wfFrom 0 t

/-- The canonical form of a table whose unlisted keys read as `d`. -/
def Tbl.canon [DecidableEq β] (d : β) (t : Tbl β) : Bool := Tbl.wf t && t.all fun p => decide (p.2 ≠ d)

end Sys2Proof

namespace Sys2Proof.Machine

/-- What a byte of memory that nothing has written reads as (assumption 1). -/
def Memory.unlisted : Byte := 0

/-- The canonical form of a byte memory. -/
def Memory.wf (m : Tbl Byte) : Bool := Tbl.canon Memory.unlisted m

/-- The byte at an address. -/
def Memory.read (m : Tbl Byte) (a : Nat) : Byte := Tbl.get m a Memory.unlisted

/-- Write one byte. -/
def Memory.write (m : Tbl Byte) (a : Nat) (b : Byte) : Tbl Byte := Tbl.set Memory.unlisted m a b

/-- Write a run of bytes, lowest address first. -/
def Memory.writes : Tbl Byte → Nat → Bytes → Tbl Byte
  | m, _, [] => m
  | m, a, b :: bs => Memory.writes (Memory.write m a b) (a + 1) bs

/-- Read `n` bytes from address `a`. -/
def Memory.reads (m : Tbl Byte) (a n : Nat) : Bytes := (List.range n).map fun i => Memory.read m (a + i)

/-! ### Sorting -/

/-- Put an element in its place. -/
def sortInsert {α : Type} (before : α → α → Bool) (x : α) : List α → List α
  | [] => [x]
  | y :: ys => if before y x then y :: sortInsert before x ys else x :: y :: ys

/-- A list in an order; elements that the order does not tell apart keep theirs. -/
def sortBy {α : Type} (before : α → α → Bool) (l : List α) : List α := l.foldr (sortInsert before) []

end Sys2Proof.Machine
end

