-- ==== Sys2Proof/Machine/Bits.lean ====
section
/-! DEFINITION. Bit fields, byte order, integer encodings and masks; the type codes (R89). -/

namespace Sys2Proof.Machine

/-- Bits `hi` down to `lo` of a number. -/
def bits (x hi lo : Nat) : Nat := (x >>> lo) % 2 ^ (hi + 1 - lo)

/-- Bit `i` of a number. -/
def bit (x i : Nat) : Bool := x.testBit i

/-- `b` as 0 or 1. -/
def ofBool (b : Bool) : Nat := if b then 1 else 0

/-- A number with bits `hi` to `lo` replaced. -/
def setBits (x hi lo v : Nat) : Nat :=
  let n := 2 ^ (hi + 1 - lo)
  x - (bits x hi lo <<< lo) + ((v % n) <<< lo)

/-- Two's-complement value of the low `n` bits of `x` (R40). -/
def toSigned (n x : Nat) : Int :=
  let y := x % 2 ^ n
  if y < 2 ^ (n - 1) then (y : Int) else (y : Int) - 2 ^ n

/-- An integer modulo 2^n, as an encoding. -/
def wrap (n : Nat) (x : Int) : Nat := (x % (2 ^ n : Nat)).toNat

/-- The low `n` bits of `x`, sign-extended to `m` bits. -/
def signExt (n m x : Nat) : Nat := wrap m (toSigned n x)

/-- `n` bytes of a number, little-endian (R77). -/
def leBytes : Nat → Nat → Bytes
  | 0, _ => []
  | n + 1, x => BitVec.ofNat 8 x :: leBytes n (x / 256)

/-- The number that bytes spell, little-endian. -/
def ofLE : Bytes → Nat
  | [] => 0
  | b :: bs => b.toNat + 256 * ofLE bs

/-- Round `a` down to a multiple of `n`. -/
def alignDown (a n : Nat) : Nat := a / n * n

/-- Round `a` up to a multiple of `n`. -/
def alignUp (a n : Nat) : Nat := (a + n - 1) / n * n

/-- Least integer at or above a / b. -/
def ceilDiv (a b : Nat) : Nat := (a + b - 1) / b

/-- Greatest `r` below 2^k with r^2 ≤ n. -/
def isqrtFrom (n : Nat) : Nat → Nat → Nat
  | 0, r => r
  | k + 1, r => let q := r + 2 ^ k; if q * q ≤ n then isqrtFrom n k q else isqrtFrom n k r

/-- Integer square root. -/
def isqrt (n : Nat) : Nat := isqrtFrom n (n.log2 / 2 + 1) 0

/-- Number of 1 bits among the low `n` bits. -/
def popCount : Nat → Nat → Nat
  | 0, _ => 0
  | n + 1, x => x % 2 + popCount n (x / 2)

/-- Bit reversal of `n` bits. -/
def revBits : Nat → Nat → Nat
  | 0, _ => 0
  | n + 1, x => (x % 2) * 2 ^ n + revBits n (x / 2)

/-! ### Masks (R111) -/

/-- The lanes of a mask below width `W`, ascending. -/
def lanesOf (W : Nat) (m : Mask) : List Nat := (List.range W).filter fun i => m.getLsbD i

/-- The mask with the listed lanes. -/
def maskOf (l : List Nat) : Mask := l.foldl (fun m i => m ||| BitVec.ofNat 1024 (1 <<< i)) 0

/-- The mask of all lanes of a wave. -/
def fullMask (W : Nat) : Mask := BitVec.ofNat 1024 (2 ^ W - 1)

/-- Word `j` of a mask: lanes 32j to 32j + 31. -/
def maskWord (m : Mask) (j : Nat) : Nat := bits m.toNat (32 * j + 31) (32 * j)

/-- A mask with word `j` replaced. -/
def setMaskWord (m : Mask) (j x : Nat) : Mask := BitVec.ofNat 1024 (setBits m.toNat (32 * j + 31) (32 * j) x)

/-- Passes that issue for an active mask: words that are not zero (R112). -/
def passCount (W : Nat) (m : Mask) : Nat := ((List.range (ceilDiv W 32)).filter fun j => maskWord m j ≠ 0).length

/-- Number of lanes set. -/
def laneCount (m : Mask) : Nat := popCount 1024 m.toNat

/-! ### Type codes (R89) -/

/-- The operand types. -/
inductive Ty where
  | b32 | i8 | i16 | i32 | i64 | n8 | n16 | n32 | n64 | b64 | f16 | bf16 | f32 | f16x2 | bf16x2 | e4m3 | e5m2
  | ds8 | ds6 | p6 | e8
deriving DecidableEq, Repr

/-- The types in the order of their codes. -/
def tyList : List Ty :=
  [.b32, .i8, .i16, .i32, .i64, .n8, .n16, .n32, .n64, .b64, .f16, .bf16, .f32, .f16x2, .bf16x2, .e4m3, .e5m2,
   .ds8, .ds6, .p6, .e8]

/-- The type of a code; codes 21-31 have none. -/
def tyOf (code : Nat) : Option Ty := tyList[code]?

/-- Width in bits. DS6, P6 and E8 values stand in a byte (R41, R56, R58). -/
def tyBits : Ty → Nat
  | .i8 | .n8 | .e4m3 | .e5m2 | .ds8 | .ds6 | .p6 | .e8 => 8
  | .i16 | .n16 | .f16 | .bf16 => 16
  | .b32 | .i32 | .n32 | .f32 | .f16x2 | .bf16x2 => 32
  | .i64 | .n64 | .b64 => 64

/-- A 64-bit type. -/
def tyWide (t : Ty) : Bool := tyBits t == 64

/-- A signed integer type. -/
def tySigned : Ty → Bool
  | .i8 | .i16 | .i32 | .i64 => true
  | _ => false

/-- An integer type. -/
def tyIsInt : Ty → Bool
  | .i8 | .i16 | .i32 | .i64 | .n8 | .n16 | .n32 | .n64 => true
  | _ => false

/-- A binary floating-point type of one element (R42). -/
def tyIsFloat : Ty → Bool
  | .f16 | .bf16 | .f32 | .e4m3 | .e5m2 => true
  | _ => false

/-- The narrow formats for which every inline constant is ILLEGAL (R86). -/
def tyNoInline : Ty → Bool
  | .ds8 | .ds6 | .p6 | .e8 => true
  | _ => false

/-- Least value of an integer type. -/
def minOf (t : Ty) : Int := if tySigned t then -(2 ^ (tyBits t - 1) : Nat) else 0

/-- Greatest value of an integer type. -/
def maxOf (t : Ty) : Int := if tySigned t then (2 ^ (tyBits t - 1) : Nat) - 1 else (2 ^ tyBits t : Nat) - 1

/-- The integer that an encoding of the type stands for. -/
def intVal (t : Ty) (x : Nat) : Int :=
  if tySigned t then toSigned (tyBits t) x else ((x % 2 ^ tyBits t : Nat) : Int)

/-- Place a result of the type in a 32-bit lane (R41). -/
def place32 (t : Ty) (x : Nat) : Nat := if tySigned t then signExt (tyBits t) 32 x else x % 2 ^ tyBits t

/-- Place a result of the type in a scalar register (R41). -/
def place64 (t : Ty) (x : Nat) : Nat := if tySigned t then signExt (tyBits t) 64 x else x % 2 ^ tyBits t

end Sys2Proof.Machine
end

