-- ==== Sys2Proof/Machine/Flags.lean ====
section
/-! DEFINITION. The floating-point exception bits (R63, R64), the control register FPCTL (R62) and PEXPUF (R75). -/

namespace Sys2Proof.Machine

/-- Exception bits in the order of FPFLAGS[4:0]. -/
abbrev FFlags := BitVec 5

/-- Nothing raised. -/
def noFlags : FFlags := 0

/-- Invalid. -/
def flagNV : FFlags := 1

/-- Divide-by-zero. -/
def flagDZ : FFlags := 2

/-- Overflow. -/
def flagOF : FFlags := 4

/-- Underflow. -/
def flagUF : FFlags := 8

/-- Inexact. -/
def flagNX : FFlags := 16

/-- The flag when the condition holds. -/
def flagIf (c : Bool) (f : FFlags) : FFlags := if c then f else noFlags

/-- The bits of all elements together (R64). -/
def mergeFlags (l : List FFlags) : FFlags := l.foldl (· ||| ·) noFlags

/-- FPFLAGS after an instruction raised `f`: sticky bits (R63). -/
def fpflagsAfter (old : W64) (f : FFlags) : W64 := old ||| f.setWidth 64

/-- The exceptions of `f` whose trap is enabled in FPCTL[12:8] (R62, R65). -/
def trappedFlags (fpctl : W64) (f : FFlags) : FFlags := f &&& BitVec.ofNat 5 (bits fpctl.toNat 12 8)

/-- A write of FPCTL: only [12:8] and [2:0] are writable, and RM keeps its value for 5, 6 and 7 (R62). -/
def fpctlWrite (old v : W64) : W64 :=
  let rm := bits v.toNat 2 0
  BitVec.ofNat 64 (bits v.toNat 12 8 * 256 + (if rm < 5 then rm else bits old.toNat 2 0))

/-- A write of FPFLAGS: each written 1 clears its bit (R10, R63). -/
def fpflagsWrite (old v : W64) : W64 := old &&& ~~~(v &&& 0x1F)

/-- PEXPUF after `n` more dropped terms: the count saturates (R75). -/
def pexpufAfter (old : W32) (n : Nat) : W32 := BitVec.ofNat 32 (min (old.toNat + n) 0xFFFFFFFF)

/-- Rounding modes (R61). -/
inductive RM where
  | rne | rtz | rdn | rup | rna
deriving DecidableEq, Repr

/-- The mode of a rounding code; code 5 takes FPCTL.RM at issue (R61). -/
def rmOf (fpctl : W64) (code : Nat) : RM :=
  match if code = 5 then bits fpctl.toNat 2 0 else code with
  | 0 => .rne
  | 1 => .rtz
  | 2 => .rdn
  | 3 => .rup
  | _ => .rna

end Sys2Proof.Machine
end

