-- ==== Sys2Proof/Machine/Float.lean ====
section
/-! DEFINITION. Exact values, the binary floating-point formats, rounding, and the correctly rounded functions.

Every operation computes its exact result as an integer ratio times a power of two and rounds once (R42 to R48, R61,
R64, R142, R162 to R172). -/

namespace Sys2Proof.Machine

/-- A decoded value. -/
inductive Val where
  | nan (signalling : Bool)
  | inf (neg : Bool)
  /-- (−1)^neg · n/d · 2^e with d > 0; zero keeps its sign. -/
  | num (neg : Bool) (n d : Nat) (e : Int)
deriving DecidableEq, Repr

/-- A binary floating-point format (R42). -/
structure Fmt where
  ebits : Nat
  fbits : Nat
  bias : Nat
  /-- E4M3 has no infinity and NaN only at all ones (R43). -/
  noInf : Bool
deriving DecidableEq, Repr

def fmtF32 : Fmt := { ebits := 8, fbits := 23, bias := 127, noInf := false }
def fmtF16 : Fmt := { ebits := 5, fbits := 10, bias := 15, noInf := false }
def fmtBF16 : Fmt := { ebits := 8, fbits := 7, bias := 127, noInf := false }
def fmtE4M3 : Fmt := { ebits := 4, fbits := 3, bias := 7, noInf := true }
def fmtE5M2 : Fmt := { ebits := 5, fbits := 2, bias := 15, noInf := false }

/-- The format of a floating-point type, of one element for the packed types. -/
def fmtOf : Ty → Fmt
  | .f16 | .f16x2 => fmtF16
  | .bf16 | .bf16x2 => fmtBF16
  | .e4m3 => fmtE4M3
  | .e5m2 => fmtE5M2
  | _ => fmtF32

/-- Width of a format's encoding. -/
def Fmt.width (f : Fmt) : Nat := 1 + f.ebits + f.fbits

/-- Encoding of +infinity; for E4M3 the NaN code stands there. -/
def Fmt.infCode (f : Fmt) : Nat := if f.noInf then 0x7F else (2 ^ f.ebits - 1) * 2 ^ f.fbits

/-- Encoding of the largest finite value. -/
def Fmt.maxCode (f : Fmt) : Nat := f.infCode - 1

/-- The canonical quiet NaN (R45). -/
def Fmt.nanCode (f : Fmt) : Nat := if f.noInf then 0x7F else f.infCode + 2 ^ (f.fbits - 1)

/-- An encoding with its sign. -/
def Fmt.signed (f : Fmt) (neg : Bool) (code : Nat) : Nat := if neg then 2 ^ (f.ebits + f.fbits) + code else code

/-- The value of an encoding (R42, R43). -/
def Fmt.decode (f : Fmt) (x : Nat) : Val :=
  let neg := bit x (f.ebits + f.fbits)
  let e := bits x (f.ebits + f.fbits - 1) f.fbits
  let m := x % 2 ^ f.fbits
  if e = 2 ^ f.ebits - 1 ∧ f.noInf = false then
    if m = 0 then .inf neg else .nan (!(bit m (f.fbits - 1)))
  else if f.noInf ∧ e = 2 ^ f.ebits - 1 ∧ m = 2 ^ f.fbits - 1 then .nan false
  else if e = 0 then .num neg m 1 (1 - (f.bias : Int) - f.fbits)
  else .num neg (2 ^ f.fbits + m) 1 ((e : Int) - f.bias - f.fbits)

/-- Decode an encoding of a floating-point type. -/
def fval (t : Ty) (x : Nat) : Val := (fmtOf t).decode (x % 2 ^ (fmtOf t).width)

/-! ### Rounding -/

/-- Whether a magnitude with quotient `q` and remainder `r` of `d` rounds away from zero. -/
def roundsUp (m : RM) (neg : Bool) (q r d : Nat) : Bool :=
  match m with
  | .rne => 2 * r > d || (2 * r == d && q % 2 == 1)
  | .rtz => false
  | .rdn => neg && r != 0
  | .rup => !neg && r != 0
  | .rna => 2 * r ≥ d

/-- Round n/d · 2^e to a multiple of 2^q: the multiple and whether it is inexact. -/
def roundAt (m : RM) (neg : Bool) (n d : Nat) (e q : Int) : Nat × Bool :=
  let sh := e - q
  let n' := if sh ≥ 0 then n <<< sh.toNat else n
  let d' := if sh ≥ 0 then d else d <<< (-sh).toNat
  let t := n' / d'
  let r := n' % d'
  (if roundsUp m neg t r d' then t + 1 else t, r != 0)

/-- floor(log2(n/d · 2^e)) for n, d > 0. -/
def log2Floor (n d : Nat) (e : Int) : Int :=
  let k : Int := (n.log2 : Int) - d.log2
  let below := if k ≥ 0 then n < d <<< k.toNat else n <<< (-k).toNat < d
  (if below then k - 1 else k) + e

/-- The result of an overflow: infinity, or the largest finite value, by the mode (R47). -/
def overflowCode (f : Fmt) (m : RM) (neg : Bool) : Nat :=
  match m with
  | .rne | .rna => f.infCode
  | .rtz => f.maxCode
  | .rdn => if neg then f.infCode else f.maxCode
  | .rup => if neg then f.maxCode else f.infCode

/-- Round a finite magnitude to the format, with the exceptions of R64 and, for E4M3, R46. -/
def roundNum (f : Fmt) (m : RM) (sat : Bool) (neg : Bool) (n d : Nat) (e : Int) : Nat × FFlags :=
  if n = 0 then (f.signed neg 0, noFlags)
  else
    let ex := log2Floor n d e
    let emin : Int := 1 - (f.bias : Int)
    let q := (if ex < emin then emin else ex) - f.fbits
    let (t, inexact) := roundAt m neg n d e q
    let biased := ((if ex < emin then emin else ex) + f.bias).toNat
    let code := (biased - 1) * 2 ^ f.fbits + t
    if code ≥ f.infCode then
      let c := if sat then f.signed neg f.maxCode else if f.noInf then f.nanCode else f.signed neg (overflowCode f m neg)
      (c, flagOF ||| flagNX)
    else
      let tiny := decide (ex < emin) &&
        ((roundAt m neg n d e (ex - f.fbits)).1 != 2 ^ (f.fbits + 1) || decide (ex + 1 < emin))
      (f.signed neg code, flagIf (inexact && tiny) flagUF ||| flagIf inexact flagNX)

/-- Deliver a value in a format: one rounding; every NaN is canonical and a signalling one raises invalid (R45). -/
def roundVal (f : Fmt) (m : RM) (v : Val) : Nat × FFlags :=
  match v with
  | .nan s => (f.nanCode, flagIf s flagNV)
  | .inf neg => if f.noInf then (f.nanCode, flagNV) else (f.signed neg f.infCode, noFlags)
  | .num neg n d e => roundNum f m false neg n d e

/-! ### Exact arithmetic -/

/-- Negate a value (a sign bit). -/
def Val.neg : Val → Val
  | .nan s => .nan s
  | .inf b => .inf (!b)
  | .num b n d e => .num (!b) n d e

/-- Whether a value is a NaN. -/
def Val.isNan : Val → Bool
  | .nan _ => true
  | _ => false

/-- Whether a value is a signalling NaN. -/
def Val.isSnan : Val → Bool
  | .nan s => s
  | _ => false

/-- Whether a value is infinite. -/
def Val.isInf : Val → Bool
  | .inf _ => true
  | _ => false

/-- Whether a value is a zero. -/
def Val.isZero : Val → Bool
  | .num _ n _ _ => n == 0
  | _ => false

/-- Whether a value is finite. -/
def Val.isFin : Val → Bool
  | .num _ _ _ _ => true
  | _ => false

/-- The sign bit; a NaN has none. -/
def Val.sign : Val → Bool
  | .nan _ => false
  | .inf b => b
  | .num b _ _ _ => b

/-- The signed numerator. -/
def sgn (neg : Bool) (n : Nat) : Int := if neg then -(n : Int) else n

/-- An integer as an exact value. -/
def Val.ofInt (x : Int) : Val := .num (decide (x < 0)) x.natAbs 1 0

/-- A dyadic number as an exact value. -/
def Val.ofDyadic (x : Int) (e : Int) : Val := .num (decide (x < 0)) x.natAbs 1 e

/-- The product of finite values. -/
def mulNum (a b : Val) : Val :=
  match a, b with
  | .num s n d e, .num s' n' d' e' => .num (s != s') (n * n') (d * d') (e + e')
  | a, _ => a

/-- Exact sum of finite values: the integer numerator over d·d' at the lower exponent. -/
def addNum (a b : Val) : Int × Nat × Int :=
  match a, b with
  | .num s n d e, .num s' n' d' e' =>
    let q := if e < e' then e else e'
    let x := sgn s ((n <<< (e - q).toNat) * d')
    let y := sgn s' ((n' <<< (e' - q).toNat) * d)
    (x + y, d * d', q)
  | _, _ => (0, 1, 0)

/-- Sum of two finite values; an exact zero of unlike signs takes its sign from the mode (R162). -/
def addFin (m : RM) (a b : Val) : Val :=
  let (x, d, q) := addNum a b
  if x = 0 then .num (if a.sign == b.sign then a.sign else m == .rdn) 0 1 0
  else .num (decide (x < 0)) x.natAbs d q

/-- Compare finite or infinite values: -1, 0, 1. -/
def cmpVal (a b : Val) : Int :=
  match a, b with
  | .inf s, .inf s' => if s == s' then 0 else if s then -1 else 1
  | .inf s, _ => if s then -1 else 1
  | _, .inf s => if s then 1 else -1
  | a, b => let (x, _, _) := addNum a (Val.neg b); if x < 0 then -1 else if x = 0 then 0 else 1

/-- Sum with the special cases of IEEE 754-2019: the value and the invalid exception. -/
def addVal (m : RM) (a b : Val) : Val × FFlags :=
  if a.isNan || b.isNan then (.nan false, flagIf (a.isSnan || b.isSnan) flagNV)
  else match a, b with
    | .inf s, .inf s' => if s == s' then (.inf s, noFlags) else (.nan false, flagNV)
    | .inf s, _ => (.inf s, noFlags)
    | _, .inf s => (.inf s, noFlags)
    | a, b => (addFin m a b, noFlags)

/-- Product with the special cases of IEEE 754-2019. -/
def mulVal (a b : Val) : Val × FFlags :=
  if a.isNan || b.isNan then (.nan false, flagIf (a.isSnan || b.isSnan) flagNV)
  else if a.isInf || b.isInf then
    if a.isZero || b.isZero then (.nan false, flagNV) else (.inf (a.sign != b.sign), noFlags)
  else (mulNum a b, noFlags)

/-- a × b + c before the rounding; 0 × ±inf is invalid also when c is a quiet NaN (R162). -/
def fmaVal (m : RM) (a b c : Val) : Val × FFlags :=
  let (p, f) := mulVal a b
  if p.isNan || c.isNan then (.nan false, f ||| flagIf c.isSnan flagNV)
  else let (r, g) := addVal m p c; (r, f ||| g)

/-- Quotient of finite values with a nonzero divisor. -/
def divNum (a b : Val) : Val :=
  match a, b with
  | .num s n d e, .num s' n' d' e' => .num (s != s') (n * d') (d * n') (e - e')
  | a, _ => a

/-- Quotient with the special cases of R168. -/
def divVal (a b : Val) : Val × FFlags :=
  if a.isNan || b.isNan then (.nan false, flagIf (a.isSnan || b.isSnan) flagNV)
  else if a.isInf then if b.isInf then (.nan false, flagNV) else (.inf (a.sign != b.sign), noFlags)
  else if b.isInf then (.num (a.sign != b.sign) 0 1 0, noFlags)
  else if b.isZero then
    if a.isZero then (.nan false, flagNV) else (.inf (a.sign != b.sign), flagDZ)
  else (divNum a b, noFlags)

/-- Deliver the value of an operation in its format. -/
def deliver (f : Fmt) (m : RM) (r : Val × FFlags) : Nat × FFlags :=
  let (c, g) := roundVal f m r.1
  (c, g ||| r.2)

/-- minimumNumber and maximumNumber (R163). -/
def minMaxVal (isMax : Bool) (a b : Val) : Val × FFlags :=
  let inv := flagIf (a.isSnan || b.isSnan) flagNV
  if a.isNan then if b.isNan then (.nan false, inv) else (b, inv)
  else if b.isNan then (a, inv)
  else
    let c := cmpVal a b
    let aLess := if c = 0 then a.sign && !b.sign else c < 0
    (if aLess != isMax then a else b, inv)

/-! ### Square root -/

/-- √a before the rounding, with a sticky bit below 2^-(k) of the leading bit (R168). -/
def sqrtVal (a : Val) : Val × FFlags :=
  match a with
  | .nan s => (.nan false, flagIf s flagNV)
  | .inf s => if s then (.nan false, flagNV) else (.inf false, noFlags)
  | .num s n d e =>
    if n = 0 then (.num s 0 1 0, noFlags)
    else if s then (.nan false, flagNV)
    else
      let odd := e % 2 = 1
      let n' := if odd then 2 * n else n
      let e' := (if odd then e - 1 else e) / 2
      let k := 64 + d.log2
      let w := (n' <<< (2 * k)) / d
      let r := isqrt w
      let exact := decide (r * r = w) && decide ((n' <<< (2 * k)) % d = 0)
      (.num false (2 * r + ofBool (!exact)) 1 (e' - k - 1), noFlags)

/-- 1/√a before the rounding (R168). -/
def rsqrtVal (a : Val) : Val × FFlags :=
  match a with
  | .nan s => (.nan false, flagIf s flagNV)
  | .inf s => if s then (.nan false, flagNV) else (.num false 0 1 0, noFlags)
  | .num s n d e =>
    if n = 0 then (.inf s, flagDZ)
    else if s then (.nan false, flagNV)
    else sqrtVal (.num false d n (-e))

/-! ### Functions that need approximation

Each is evaluated in fixed point with `p` fraction bits and an error bound; the precision grows until both ends of
the enclosure round alike. -/

/-- ln 2 · 2^640, rounded down. -/
def ln2Bits : Nat :=
  0xb17217f7d1cf79abc9e3b39803f2f6af40f343267298b62d8a0d175b8baafa2be7b876206debac98559552fb4afa1b10ed2eae35c138214427573b291169b8253e96ca16224ae8c51acbda11317c387e

/-- π · 2^640, rounded down. -/
def piBits : Nat :=
  0x3243f6a8885a308d313198a2e03707344a4093822299f31d0082efa98ec4e6c89452821e638d01377be5466cf34e90c6cc0ac29b7c97c50dd3f84d5b5b54709179216d5d98979fb1bd1310ba698dfb5ac

/-- A constant of 640 fraction bits at `p` fraction bits. -/
def atPrec (c p : Nat) : Nat := c >>> (640 - p)

/-- Σ y^k/k! from the term `t` on; `k` is the index of the next term. -/
def expTail (p y : Nat) : Nat → Nat → Nat → Nat
  | 0, _, _ => 0
  | fuel + 1, k, t => if t = 0 then 0 else t + expTail p y fuel (k + 1) (((t * y) >>> p) / k)

/-- Enclosure of 2^f at `p` fraction bits, for f = n · 2^-s in [0, 1). -/
def exp2Frac (n s p : Nat) : Nat × Nat :=
  let y := (n * ln2Bits) >>> (s + (640 - p))
  let v := expTail p y p 1 (2 ^ p)
  (v - 1, v + 8 * p)

/-- Σ (−1)^j θ^(i+2j)/(i+2j)! from the term `t` on, with θ² = `q`. -/
def trigTail (p q : Nat) : Nat → Nat → Bool → Nat → Int
  | 0, _, _, _ => 0
  | fuel + 1, i, neg, t =>
    if t = 0 then 0
    else sgn neg t + trigTail p q fuel (i + 2) (!neg) (((t * q) >>> p) / ((i + 1) * (i + 2)))

/-- Enclosure of sin(π n/2^s) at `p` fraction bits, for 0 < n/2^s ≤ 1/4. -/
def sinPiSmall (n s p : Nat) : Nat × Nat :=
  let th := (n * piBits) >>> (s + (640 - p))
  let v := (trigTail p ((th * th) >>> p) p 1 false th).toNat
  (v - 4 * p, v + 4 * p)

/-- Enclosure of cos(π n/2^s) at `p` fraction bits, for 0 < n/2^s ≤ 1/4. -/
def cosPiSmall (n s p : Nat) : Nat × Nat :=
  let th := (n * piBits) >>> (s + (640 - p))
  let v := (trigTail p ((th * th) >>> p) p 0 false (2 ^ p)).toNat
  (v - 4 * p, min (v + 4 * p) (2 ^ p - 1))

/-- Σ z^(i+2j)/(i+2j) from the power `t` on, with z² = `q`. -/
def atanhTail (p q : Nat) : Nat → Nat → Nat → Nat
  | 0, _, _ => 0
  | fuel + 1, i, t => if t = 0 then 0 else t / i + atanhTail p q fuel (i + 2) ((t * q) >>> p)

/-- Enclosure of log2(n/d) at `p` fraction bits, for 1 < n/d < 2. -/
def log2Frac (n d p : Nat) : Nat × Nat :=
  let z := ((n - d) <<< p) / (n + d)
  let a := atanhTail p ((z * z) >>> p) p 1 z
  let v := ((2 * a) <<< p) / atPrec ln2Bits p
  (v - 1, v + 16 * p)

/-- The precisions tried. -/
def precisions : List Nat := [96, 224, 480, 632]

/-- Round the irrational value whose magnitude times 2^-sh the function encloses. -/
def settle (f : Fmt) (m : RM) (neg : Bool) (sh : Int) (g : Nat → Nat × Nat) : List Nat → Nat × FFlags
  | [] => (0, noFlags)
  | p :: ps =>
    let (lo, hi) := g p
    let a := roundNum f m false neg (2 * lo + 1) 1 (sh - p - 1)
    let b := roundNum f m false neg (2 * hi + 1) 1 (sh - p - 1)
    if a = b ∨ ps = [] then a else settle f m neg sh g ps

/-- 2^(x · 2^e) rounded to a format: exact for an integer exponent (R167). -/
def exp2Round (f : Fmt) (m : RM) (x : Int) (e : Int) : Nat × FFlags :=
  if e ≥ 0 then
    let big := decide (x ≠ 0) && decide (e > 20)
    let k : Int := if big then (if x < 0 then -100000 else 100000) else x * (2 ^ e.toNat : Nat)
    let k := if k > 100000 then 100000 else if k < -100000 then -100000 else k
    roundNum f m false false 1 1 k
  else
    let s := (-e).toNat
    let ip := x / (2 ^ s : Nat)
    let fr := (x % (2 ^ s : Nat)).toNat
    let ip := if ip > 100000 then 100000 else if ip < -100000 then -100000 else ip
    if fr = 0 then roundNum f m false false 1 1 ip
    else settle f m false ip (exp2Frac fr s) precisions

/-- FEXP2 (R167, R168). -/
def fexp2 (f : Fmt) (m : RM) (a : Val) : Nat × FFlags :=
  match a with
  | .nan s => (f.nanCode, flagIf s flagNV)
  | .inf true => (0, noFlags)
  | .inf false => (f.infCode, noFlags)
  | .num s n _ e => exp2Round f m (sgn s n) e

/-- log2(n/d · 2^e) of a positive value, rounded to a format (R167). -/
def log2Round (f : Fmt) (m : RM) (n d : Nat) (e : Int) : Nat × FFlags :=
  let ex := log2Floor n d e
  let k := ex - e
  let n' := if k ≥ 0 then n else n <<< (-k).toNat
  let d' := if k ≥ 0 then d <<< k.toNat else d
  if n' = d' then roundNum f m false (decide (ex < 0)) ex.natAbs 1 0
  else
    settle f m (decide (ex < 0)) 0
      (fun p =>
        let (lo, hi) := log2Frac n' d' p
        if ex ≥ 0 then ((ex.toNat <<< p) + lo, (ex.toNat <<< p) + hi)
        else ((ex.natAbs <<< p) - hi - 1, (ex.natAbs <<< p) - lo - 1))
      precisions

/-- FLOG2 (R167, R168). -/
def flog2 (f : Fmt) (m : RM) (a : Val) : Nat × FFlags :=
  match a with
  | .nan s => (f.nanCode, flagIf s flagNV)
  | .inf s => if s then (f.nanCode, flagNV) else (f.infCode, noFlags)
  | .num s n d e =>
    if n = 0 then (f.signed true f.infCode, flagDZ)
    else if s then (f.nanCode, flagNV)
    else log2Round f m n d e

/-- sin(π x/2^s) or cos(π x/2^s) with 0 < x < 2^s/2, as a rounded magnitude. -/
def quarterWave (f : Fmt) (m : RM) (neg cosine : Bool) (x s : Nat) : Nat × FFlags :=
  if 4 * x ≤ 2 ^ s then settle f m neg 0 (if cosine then cosPiSmall x s else sinPiSmall x s) precisions
  else
    let y := 2 ^ s - 2 * x
    settle f m neg 0 (if cosine then sinPiSmall y (s + 1) else cosPiSmall y (s + 1)) precisions

/-- FSINPI (R167, R168). -/
def fsinpi (f : Fmt) (m : RM) (a : Val) : Nat × FFlags :=
  match a with
  | .nan s => (f.nanCode, flagIf s flagNV)
  | .inf _ => (f.nanCode, flagNV)
  | .num neg n _ e =>
    if n = 0 ∨ e ≥ 0 then (f.signed neg 0, noFlags)
    else
      let s := (-e).toNat
      let x := n % 2 ^ (s + 1)
      let flip := decide (x > 2 ^ s)
      let y := if flip then x - 2 ^ s else x
      if x = 0 ∨ x = 2 ^ s then (f.signed neg 0, noFlags)
      else
        let y := if 2 * y > 2 ^ s then 2 ^ s - y else y
        if 2 * y = 2 ^ s then roundNum f m false (neg != flip) 1 1 0
        else quarterWave f m (neg != flip) false y s

/-- FCOSPI (R167, R168). -/
def fcospi (f : Fmt) (m : RM) (a : Val) : Nat × FFlags :=
  match a with
  | .nan s => (f.nanCode, flagIf s flagNV)
  | .inf _ => (f.nanCode, flagNV)
  | .num _ n _ e =>
    let s := (-e).toNat
    let n := if e > 0 then n <<< e.toNat else n
    let x := n % 2 ^ (s + 1)
    let x := if x > 2 ^ s then 2 ^ (s + 1) - x else x
    let neg := decide (2 * x > 2 ^ s)
    let y := if neg then 2 ^ s - x else x
    if y = 0 then roundNum f m false neg 1 1 0
    else if 2 * y = 2 ^ s then (0, noFlags)
    else quarterWave f m neg true y s

/-! ### Integral rounding and the parts of a float -/

/-- Round a finite value to an integer (R48, R166): its magnitude and whether it was not an integer. -/
def roundInt (m : RM) (v : Val) : Nat × Bool :=
  match v with
  | .num s n d e => roundAt m s n d e 0
  | _ => (0, false)

/-- FRND (R166). -/
def frnd (f : Fmt) (m : RM) (a : Val) : Nat × FFlags :=
  match a with
  | .nan s => (f.nanCode, flagIf s flagNV)
  | .inf s => (f.signed s f.infCode, noFlags)
  | .num s _ _ _ => ((roundNum f m false s (roundInt m a).1 1 0).1, noFlags)

/-- FSCALE: a · 2^b, rounded once (R169). -/
def fscale (f : Fmt) (m : RM) (a : Val) (b : Int) : Nat × FFlags :=
  match a with
  | .num s n d e =>
    let b := if b > 10000 then 10000 else if b < -10000 then -10000 else b
    roundNum f m false s n d (e + b)
  | v => roundVal f m v

/-- FGETX (R169). -/
def fgetx (a : Val) : Int × FFlags :=
  match a with
  | .nan _ => (-2147483648, flagNV)
  | .inf _ => (2147483647, noFlags)
  | .num _ n d e => if n = 0 then (-2147483648, noFlags) else (log2Floor n d e, noFlags)

/-- FGETM (R169). -/
def fgetm (f : Fmt) (a : Val) : Nat × FFlags :=
  match a with
  | .num s n d e =>
    if n = 0 then (f.signed s 0, noFlags) else roundNum f .rne false s n d (e - log2Floor n d e)
  | v => roundVal f .rne v

/-- FCLASS (R165). -/
def fclass (f : Fmt) (x : Nat) : Nat :=
  let sub := bits x (f.ebits + f.fbits - 1) f.fbits = 0
  match f.decode x with
  | .nan s => if s then 256 else 512
  | .inf s => if s then 1 else 128
  | .num s n _ _ =>
    if n = 0 then (if s then 8 else 16)
    else if sub then (if s then 4 else 32)
    else if s then 2 else 64

/-- FCMP: the condition and the invalid exception (R164). -/
def fcmp (cond : Nat) (a b : Val) : Bool × FFlags :=
  let un := a.isNan || b.isNan
  let c := cmpVal a b
  let r := match cond with
    | 0 => !un && c == 0
    | 1 => un || c != 0
    | 2 => !un && c < 0
    | 3 => !un && c ≤ 0
    | 4 => !un && c > 0
    | 5 => !un && c ≥ 0
    | 6 => un
    | _ => !un
  (r, flagIf (if 2 ≤ cond ∧ cond ≤ 5 then un else a.isSnan || b.isSnan) flagNV)

/-! ### Sums of products and pairs -/

/-- Exact sum of finite terms: numerator, denominator 1, exponent; 0 for none. -/
def sumFin (l : List Val) : Val :=
  l.foldl (fun acc v => let (x, d, q) := addNum acc v; .num (decide (x < 0)) x.natAbs d q) (.num false 0 1 0)

/-- FDOT2's exact sum with its special cases (R170); `m` gives the sign of an exact zero. -/
def dot2Val (m : RM) (a0 b0 a1 b1 c : Val) : Val × FFlags :=
  let snan := a0.isSnan || b0.isSnan || a1.isSnan || b1.isSnan || c.isSnan
  let bad (x y : Val) := (x.isZero && y.isInf) || (x.isInf && y.isZero)
  let p0 := (mulVal a0 b0).1
  let p1 := (mulVal a1 b1).1
  let infs := ([p0, p1, c].filter Val.isInf).map Val.sign
  let opposed := infs.contains true && infs.contains false
  let inv := snan || bad a0 b0 || bad a1 b1 || opposed
  if p0.isNan || p1.isNan || c.isNan || opposed then (.nan false, flagIf inv flagNV)
  else match infs with
    | s :: _ => (.inf s, flagIf inv flagNV)
    | [] => (match sumFin [p0, p1, c] with
      | .num s n d e => if n = 0 then addFin m (addFin m p0 p1) c else .num s n d e
      | v => v, flagIf inv flagNV)

/-- SUMC: the exact two-sum (R72): the new hi and lo codes and the exceptions. -/
def sumc (hi lo x : Nat) : (Nat × Nat) × FFlags :=
  let f := fmtF32
  let vh := f.decode hi
  let vl := f.decode lo
  let vx := f.decode x
  let snan := flagIf (vh.isSnan || vl.isSnan || vx.isSnan) flagNV
  let (s, inv) := addVal .rne vh vx
  let (h, g) := roundVal f .rne s
  let vh' := f.decode h
  if !vh'.isFin then ((h, 0), snan ||| inv ||| (g &&& flagOF) ||| flagIf (g &&& flagOF != 0) flagNX)
  else
    let e := addFin .rne s (Val.neg vh')
    let (w, inv2) := addVal .rne vl e
    let (l, g2) := roundVal f .rne w
    ((h, l), snan ||| inv2 ||| g2)

end Sys2Proof.Machine
end

