-- ==== Sys2Proof/Machine/Narrow.lean ====
section
/-! DEFINITION. DS8, DS6, P6 and E8 (R49 to R60), and every conversion between the numeric types (R46 to R48, R67, R173
to R177). -/

namespace Sys2Proof.Machine

/-! ### DS8 and DS6 -/

/-- Value of a DS8 byte in units of 2^-7 (R49). -/
def ds8Val (x : Nat) : Int :=
  sgn (bit x 7) (2 ^ (7 - bits x 6 4)) + sgn (bit x 3) (2 ^ (7 - bits x 2 0))

/-- Value of a DS6 code in units of 2^-7 (R52). -/
def ds6Val (x : Nat) : Int :=
  let ea := bits x 4 2
  let db := bits x 0 0
  let eb := ea + 1 + db
  let first := sgn (bit x 5) (2 ^ (7 - ea))
  if ea = 7 ∧ db = 1 then 0 else if eb ≤ 7 then first + sgn (bit x 1) (2 ^ (7 - eb)) else first

/-- The canonical DS8 encoding of a value in units of 2^-7: the smallest Ea that some Sb and Eb ≥ Ea complete (R50). -/
def ds8Canon (v : Int) : Nat :=
  let cands := (List.range 8).flatMap fun ea => [0, 8].flatMap fun sb => (List.range 8).filterMap fun eb =>
    let c := 16 * ea + sb + eb
    if ea ≤ eb ∧ ds8Val c = v.natAbs then some c else none
  let c := cands.headD 0x08
  if v < 0 then c ^^^ 0x88 else c

/-- The canonical DS6 encoding of a value (R55). -/
def ds6Canon (v : Int) : Nat :=
  if v = 0 then 0x1D
  else
    let c := ((List.range 64).filter fun c => decide (ds6Val c = v.natAbs)).headD 0x1D
    if v < 0 then c ^^^ 0x22 else c

/-- Magnitudes of the DS8 values in units of 2^-7, ascending. -/
def ds8Mags : List Nat := (List.range 257).filter fun v => (List.range 256).any fun c => ds8Val c == (v : Int)

/-- Magnitudes of the DS6 values in units of 2^-7, ascending. -/
def ds6Mags : List Nat := (List.range 193).filter fun v => (List.range 64).any fun c => ds6Val c == (v : Int)

/-- The listed magnitude nearest n/d; on a tie the smaller. The list ascends from its first entry `best`. -/
def nearestFrom (n d : Nat) : Nat → List Nat → Nat
  | best, [] => best
  | best, v :: vs => if (d * v - n) + (n - d * v) < (d * best - n) + (n - d * best)
      then nearestFrom n d v vs else nearestFrom n d best vs

/-- A conversion to a double-shift set (R51, R55): the value in units of 2^-7 and the exceptions. -/
def toShift (mags : List Nat) (top : Nat) (v : Val) : Int × FFlags :=
  match v with
  | .nan _ => (0, flagNV)
  | .inf s => (sgn s top, flagNV)
  | .num s n d e =>
    let n' := if e + 7 ≥ 0 then n <<< (e + 7).toNat else n
    let d' := if e + 7 ≥ 0 then d else d <<< (-(e + 7)).toNat
    let w := nearestFrom n' d' 0 mags
    (sgn s w, flagIf (n' > top * d') flagOF ||| flagIf (n' ≠ w * d') flagNX ||| flagIf (w == 0 && n != 0) flagUF)

/-- Conversion to DS8 (R51). -/
def toDS8 (v : Val) : Nat × FFlags := let (w, f) := toShift ds8Mags 256 v; (ds8Canon w, f)

/-- Conversion to DS6 (R55). -/
def toDS6 (v : Val) : Nat × FFlags := let (w, f) := toShift ds6Mags 192 v; (ds6Canon w, f)

/-- The expansion of a DS6 code to DS8 (R54). -/
def ds6ToDs8 (x : Nat) : Nat := ds8Canon (ds6Val (x % 64))

/-! ### P6 and E8 -/

/-- The value of a P6 code (R56). -/
def p6Val (x : Nat) : Val :=
  let e := bits x 5 2
  if e = 15 then .num false 0 1 0 else .num false (4 + x % 4) 1 (-(e : Int) - 2)

/-- Conversion to P6 (R57). -/
def toP6 (v : Val) : Nat × FFlags :=
  match v with
  | .nan _ => (0x3C, flagNV)
  | .inf s => if s then (0x3C, flagNV) else (0x03, flagOF ||| flagNX)
  | .num s n d e =>
    if n = 0 then (0x3C, noFlags)
    else if s then (0x3C, flagNV)
    else
      let x := log2Floor n d e
      if x < -14 then (0x3C, flagNX)
      else if x > 0 then (0x03, flagOF ||| flagNX)
      else
        let (t, inexact) := roundAt .rne false n d e (x - 2)
        let (t, x) := if t = 8 then (4, x + 1) else (t, x)
        if x > 0 then (0x03, flagOF ||| flagNX)
        else (4 * (-x).toNat + (t - 4), flagIf inexact flagNX)

/-- The value of an E8 code; the reserved 0xFF decodes as a NaN (R58, R173). -/
def e8Val (x : Nat) : Val := if x % 256 = 255 then .nan true else .num false 1 1 (((x % 256 : Nat) : Int) - 127)

/-- Conversion to E8 (R60). -/
def toE8 (v : Val) : Nat × FFlags :=
  match v with
  | .num false n d e =>
    if n = 0 then (0x7F, flagNV)
    else
      let x := log2Floor n d e
      if x < -127 then (0, flagUF ||| flagNX)
      else if x > 127 then (0xFE, flagOF ||| flagNX)
      else ((x + 127).toNat, flagIf (cmpVal (.num false n d e) (.num false 1 1 x) != 0) flagNX)
  | _ => (0x7F, flagNV)

/-! ### Conversions -/

/-- The exact value of an encoding of a numeric type (R173). -/
def valOf (t : Ty) (x : Nat) : Val :=
  match t with
  | .ds8 => .ofDyadic (ds8Val (x % 256)) (-7)
  | .ds6 => .ofDyadic (ds6Val (x % 64)) (-7)
  | .p6 => p6Val (x % 64)
  | .e8 => e8Val x
  | .f16 | .bf16 | .f32 | .e4m3 | .e5m2 => fval t x
  | t => .ofInt (intVal t x)

/-- Conversion of a floating-point value to an integer type (R48). -/
def toIntTy (t : Ty) (m : RM) (v : Val) : Nat × FFlags :=
  match v with
  | .nan _ => (0, flagNV)
  | .inf s => (wrap (tyBits t) (if s then minOf t else maxOf t), flagNV)
  | .num s _ _ _ =>
    let (k, inexact) := roundInt m v
    let x := sgn s k
    if x < minOf t then (wrap (tyBits t) (minOf t), flagNV)
    else if x > maxOf t then (wrap (tyBits t) (maxOf t), flagNV)
    else (wrap (tyBits t) x, flagIf inexact flagNX)

/-- Conversion to E4M3 and E5M2, whose `.sat` also bounds an infinite input (R46, R47). -/
def toNarrowFloat (f : Fmt) (m : RM) (sat : Bool) (v : Val) : Nat × FFlags :=
  match v with
  | .num s n d e => roundNum f m sat s n d e
  | .inf s => if sat then (f.signed s f.maxCode, noFlags) else roundVal f m v
  | v => roundVal f m v

/-- Convert an exact value to a destination type, once (R173). -/
def convertVal (t : Ty) (m : RM) (sat : Bool) (v : Val) : Nat × FFlags :=
  match t with
  | .ds8 => toDS8 v
  | .ds6 => toDS6 v
  | .p6 => toP6 v
  | .e8 => toE8 v
  | .e4m3 | .e5m2 => toNarrowFloat (fmtOf t) m sat v
  | .f16 | .bf16 | .f32 => roundVal (fmtOf t) m v
  | t => toIntTy t m v

/-- Fit an exact integer to an integer type: wrap, or clamp with SAT (R141). -/
def fitInt (t : Ty) (sat : Bool) (x : Int) : Nat :=
  wrap (tyBits t) (if sat then (if x < minOf t then minOf t else if x > maxOf t then maxOf t else x) else x)

/-- CVT (R173). -/
def cvt (dt st : Ty) (m : RM) (sat : Bool) (x : Nat) : Nat × FFlags :=
  if tyIsInt dt && tyIsInt st then (fitInt dt sat (intVal st x), noFlags) else convertVal dt m sat (valOf st x)

/-- The result of converting a NaN in QNT: the target's own NaN or zero, no exception of its own (R67). -/
def nanResult (t : Ty) : Nat :=
  match t with
  | .ds8 => 0x08
  | .ds6 => 0x1D
  | .p6 => 0x3C
  | .e8 => 0x7F
  | .f16 | .bf16 | .f32 | .e4m3 | .e5m2 => (fmtOf t).nanCode
  | _ => 0

/-- Whether converting any NaN to the target raises invalid (R48, R51, R55, R57, R60); a float target keeps R45. -/
def nanInvalid (t : Ty) : Bool := !tyIsFloat t

/-- CanonicalZero (R67). -/
def zeroResult (t : Ty) (neg : Bool) : Nat :=
  match t with
  | .ds8 => 0x08
  | .ds6 => 0x1D
  | .p6 => 0x3C
  | .f16 | .bf16 | .f32 | .e4m3 | .e5m2 => (fmtOf t).signed neg 0
  | _ => 0

/-- Quantise (R67). -/
def quantise (t : Ty) (m : RM) (sat : Bool) (x s : Val) : Nat × FFlags :=
  if x.isNan || s.isNan then (nanResult t, flagIf (nanInvalid t || x.isSnan || s.isSnan) flagNV)
  else if s.isZero then (if x.isFin then zeroResult t false else nanResult t, flagNV)
  else if x.isInf then
    if s.isInf then (nanResult t, flagNV) else convertVal t m sat (.inf (x.sign != s.sign))
  else if s.isInf then (zeroResult t (x.sign != s.sign), noFlags)
  else convertVal t m sat (divNum x s)

/-- DQNT (R175). -/
def dequantise (dt st : Ty) (m : RM) (x : Nat) (b : Nat) : Nat × FFlags :=
  deliver (fmtOf dt) m (mulVal (valOf st x) (fval .f32 b))

end Sys2Proof.Machine
end

