-- ==== Sys2Proof/Syntax.lean ====
section
/-! DEFINITION. The syntax of the machine's steps: one constructor of `Instr` for each row of the spec's table.

A row that is an instruction word carries the fields of its word (R82, R84) or its two halves (R95). A row
that is an event carries the unit that acts, or what the outside world sent. -/

namespace Sys2Proof

/-- The fields of an S-layout word (R82), with the extension word of an E-form instruction (R84). -/
structure Fields where
  /-- The extension word; `none` in S form. -/
  ext : Option W64
  /-- Lookahead, R92. -/
  la : BitVec 4
  /-- Predicate register, R83. -/
  k : BitVec 3
  /-- Invert the predicate, R83. -/
  kn : Bool
  d : BitVec 8
  a : BitVec 8
  b : BitVec 8
  c : BitVec 8
  /-- Function field, R88. -/
  f : BitVec 14
deriving DecidableEq, Repr

/-- One half of a P-form word (R95). -/
structure Half where
  op7 : BitVec 7
  d : BitVec 8
  a : BitVec 8
  b : BitVec 8
deriving DecidableEq, Repr

/-- Who writes a register of a control page: a host function (0 is the physical function) or the dispatch
hart of a die (R435, R491). -/
inductive Master where
  | fn (n : Nat)
  | hart (die : Nat)
deriving DecidableEq, Repr

/-- The registers with no behaviour of their own, which REGISTER_WRITE updates by their access codes (R10). -/
inductive PlainReg where
  | rwsel (die : Nat)
  | pwsel (die : Nat)
  | ptsel (die : Nat)
  | popsel
  | saveaddr (core : Nat)
  | peergrant (port idx : Nat)
  /-- Any offset that is read-only or not listed: the write is ignored (R10, R435, R492). -/
  | readOnly
deriving DecidableEq, Repr

/-- QBASE and QCTL (R478). -/
inductive QueueReg where
  | qbase
  | qctl
deriving DecidableEq, Repr

/-- The AtomicOps that the part completes (R542, R546). -/
inductive HostAtom where
  | fetchAdd
  | swap
deriving DecidableEq, Repr

/-- What the ECC finds in the line a scrubber reads (R432, R434). -/
inductive EccRead where
  | clean
  | corrected
  | uncorrectable
deriving DecidableEq, Repr

/-- A firmware image as the security processor receives it (R529). -/
structure Image where
  bytes : Bytes
  signature : Bytes
  version : Byte
deriving DecidableEq, Repr

/-- A row of a swath: its lane and its 32 FP32 elements (R387). -/
structure SwathRow where
  lane : Nat
  elems : List W32
deriving DecidableEq, Repr

/-- A request that arrives on a peer port (R550, R551); addresses are remote virtual addresses of `rctx`. -/
inductive PeerReq where
  | read (rctx va len : Nat)
  | copyWrite (rctx va : Nat) (data : Bytes)
  | atomic (rctx va : Nat) (op ty : Nat) (val : W64) (ret : Bool)
deriving DecidableEq, Repr

/-- The steps of the part: one constructor for each row of the table of operations and events. -/
inductive Instr where
  /-- DIE_RESET (R124): A die leaves reset; its cores' cycle counters start from zero and begin counting. -/
  | dieReset (die : Nat)
  /-- SECURE_BOOT (R529): The security processor starts from ROM and verifies each firmware image's ML-DSA-44 signature before that image may run. -/
  | secureBoot (images : List Image)
  /-- ATTESTATION_REQUEST (R531): On host request the security processor signs an attestation report over the nonce and measurements. -/
  | attestationRequest (nonce : BitVec 256)
  /-- ISSUE_CYCLE (R133): Each core cycle the core ranks its ready fragments, picks up to two, resolves port conflicts and updates ageing counters. -/
  | issueCycle (core : Nat)
  /-- CLAUSE_START (R100): A fragment reaches a clause header, the whole clause is fetched, and the clause begins once its TW and WL waits are met. -/
  | clauseStart (wid rec : Nat)
  /-- HELD_LANES_DETACH (R129): Lanes held at a header are detached into a fragment record once a record becomes free. -/
  | heldLanesDetach (wid rec : Nat)
  /-- DIVERGE_RETRY (R127): A divergent branch that found no record and a used deferred entry completes once a fragment record frees. -/
  | divergeRetry (wid rec : Nat)
  /-- RESULT_LAND (R143): A pending register result lands after its latency, releasing waiting words and taking any deferred report trap. -/
  | resultLand (wid idx : Nat)
  /-- ABORT_REDIRECT (R226): An affected wave at its next clause boundary or TRET empties its WSB and read log, closes spans and resumes at the abort target. -/
  | abortRedirect (wid : Nat)
  /-- WAVE_END (R201): A wave whose lanes have all exited waits for its loads and tokens, commits its WSB to the block and frees its slot, carrying block and crew buffers as last members end. -/
  | waveEnd (wid : Nat)
  /-- SLEEP_EXPIRE (R203): A sleeping fragment becomes ready when the core counter reaches its wake cycle. -/
  | sleepExpire (wid rec : Nat)
  /-- COPY_COMPLETE (R272): The copy engine writes the last byte of a copy at its destination and the copy's token clears. -/
  | copyComplete (core id : Nat)
  /-- COPY_PIECE_FAULT (R275): A copy piece faults and is held while the fault goes to the dispatch hart; an unresolved fault ends the copy and is held on its token. -/
  | copyPieceFault (core id : Nat)
  /-- LAZY_COPY_COMPLETE (R276): A lazy window's copy completes, the window becomes present and waiting accesses proceed. -/
  | lazyCopyComplete (blk win : Nat)
  /-- TWIN_COMPARE (R280): When the shadow reaches a compare point the leader waits at, the two wave signatures are compared and the action is released or rolled back. -/
  | twinCompare (wid : Nat)
  /-- MMQ_COLLECTOR_CLOSE (R354): An open quarter-operation collector closes when full, at the end of its fourth cycle, or when a non-matching operation arrives. -/
  | mmqCollectorClose (core : Nat)
  /-- MATRIX_PASS_START (R355): A closed collector starts its pass once the array is free, and its results land in every member's tiles after the pass. -/
  | matrixPassStart (core : Nat)
  /-- SWATH_CONTRIBUTION_ACCEPT (R389): A DRNS contribution is accepted into swath storage when room is free, and the DRNS token clears. -/
  | swathContributionAccept (id : Nat)
  /-- SWATH_ROUND_COMPLETE (R386): A swath round completes when NPART contributions are accepted; rows are folded and delivered to receiving SWRs. -/
  | swathRoundComplete (lid sid : Nat)
  /-- PEER_SWATH_RESULT (R554): A package swath result arrives over a peer port and is folded by the root or delivered to the contributor's receivers. -/
  | peerSwathResult (lid sid : Nat) (rows : List SwathRow)
  /-- ENGINE_REQUEST_COMPLETE (R444): An engine finishes a request for all active lanes; register results land and its token clears. -/
  | engineRequestComplete (id : Nat)
  /-- U_LINE_EVICT (R408): An update-only line evicted from L1 sends its partial results home to be combined. -/
  | uLineEvict (core line : Nat)
  /-- REGION_PHASE_COMPLETE (R416): The counter home finds ARRIVED at or above EXPECTED, advances the phase, re-arms and fires the region's action. -/
  | regionPhaseComplete (rid : Nat)
  /-- AWAIT_LIMIT_EXPIRE (R422): An AWAIT limit expires at the counter home and the waiter is answered TIMEOUT unless the phase passed. -/
  | awaitLimitExpire (wid rec : Nat)
  /-- TLB_MISS_WALK (R429): A TLB miss starts a merged page walk whose resolved lanes are replayed by hardware. -/
  | tlbMissWalk (die : Nat)
  /-- FAULT_ANSWER (R430): The dispatch hart answers a fault record with retry, running the walk again, or fail, raising PAGE. -/
  | faultAnswer (die idx : Nat) (retry : Bool)
  /-- INVALIDATION (R431): A posted translation invalidation drops affected TLB and walk-cache entries and completes when accesses using them have completed. -/
  | invalidation (ctx lo hi : Nat)
  /-- SCRUB_STEP (R434): A scrubber reads the next line in ascending offset, corrects it and writes back any correction. -/
  | scrubStep (die : Nat) (canopy : Bool) (unit : Nat) (found : EccRead)
  /-- CANCFG_WRITE (R399): A write to CANCFG re-carves every canopy slice of the die after LLC writeback, unless ignored. -/
  | cancfgWrite (m : Master) (die : Nat) (val : W64)
  /-- SCRUBPER_WRITE (R435): A write to SCRUBPER sets the scrub periods for the next pass, ignoring out-of-range values. -/
  | scrubperWrite (m : Master) (die : Nat) (val : W64)
  /-- ERRCLR (R435): Writing 1 to ERRCLR.CLR zeroes ERRLOG0 and ERRLOG1. -/
  | errclr (m : Master) (die : Nat) (val : W64)
  /-- REGION_WINDOW_WRITE (R413): A write through the region window sets an entry's RW fields, subject to ARMED and ownership. -/
  | regionWindowWrite (m : Master) (die word : Nat) (val : W64)
  /-- POOL_WINDOW_WRITE (R449): A write through the pool window configures a page pool, filling its free list when VALID is set. -/
  | poolWindowWrite (m : Master) (die word : Nat) (val : W64)
  /-- PARTICLE_WINDOW_WRITE (R502): A write through the particle window creates, frees or edits a particle record, subject to state and ownership. -/
  | particleWindowWrite (m : Master) (die word : Nat) (val : W64)
  /-- POPULATION_WINDOW_WRITE (R501): A write through the population window creates or configures a population, ignored while its launch is live. -/
  | populationWindowWrite (fn word : Nat) (val : W64)
  /-- POPFIX_WRITE (R540): A write of POPFIX arms a fixed uniform for the next resampling with nonzero mass. -/
  | popfixWrite (fn : Nat) (val : W64)
  /-- REGISTER_WRITE (R10): A write to a register with no behaviour of its own updates its fields by their access codes. -/
  | registerWrite (m : Master) (reg : PlainReg) (val : W64)
  /-- CTXFN_WRITE (R561): Physical function 0 assigns a context to a function, ignored while the context is VALID. -/
  | ctxfnWrite (fn ctx : Nat) (val : W64)
  /-- CONTEXT_CREATE (R561): The holding function writes a context descriptor with VALID 1 and the security processor draws its key. -/
  | contextCreate (fn ctx : Nat) (val : W64)
  /-- CONTEXT_TEARDOWN (R533): Writing VALID 0 with no live launch erases the context key, drops its lines and frees its retention entries. -/
  | contextTeardown (fn ctx : Nat) (val : W64)
  /-- CONTEXT_DESCRIPTOR_WRITE (R477): A write to words 0 to 2 of a context descriptor, ignored for words 0 and 1 while a launch is live. -/
  | contextDescriptorWrite (fn ctx word : Nat) (val : W64)
  /-- EVHEAD_WRITE (R477): The host advances the event doorbell, freeing ring entries and letting held events be posted. -/
  | evheadWrite (fn ctx : Nat) (val : W64)
  /-- QUEUE_CONFIG_WRITE (R478): A write of QBASE or QCTL, taken only when the queue is empty. -/
  | queueConfigWrite (fn ctx q : Nat) (reg : QueueReg) (val : W64)
  /-- QTAIL_WRITE (R478): The host advances QTAIL and the launch front reads the new records in slot order. -/
  | qtailWrite (fn ctx q : Nat) (val : W64)
  /-- LAUNCH_START (R485): The launch front starts a ready launch, assigns its LAUNCHID and offers its crews. -/
  | launchStart (slot : Nat)
  /-- CREW_OFFER (R486): A crew is offered to the dispatch harts of the launch's scope and goes to the first claim. -/
  | crewOffer (lid die : Nat)
  /-- LAUNCH_COMPLETE (R485): When all blocks have ended and carries and holds are released, the launch completes, running its action, edges and event. -/
  | launchComplete (lid : Nat)
  /-- SLOTWR (R489): The dispatch hart writes one bind record, which the slot table checks against the safety limits. -/
  | slotwr (core : Nat) (w0 w1 w2 w3 : W64)
  /-- GANG_START (R488): After the GLAST record (and the whole crew or twin pair) is accepted, slots are initialised, shares zeroed and role waves start together. -/
  | gangStart (lid crew : Nat)
  /-- PREEMPT (R493): A write to PREEMPT stops a block or crew at clause boundaries, or refuses if the slot or save area is unusable. -/
  | preempt (core : Nat) (val : W64)
  /-- PREEMPT_SAVE_COMPLETE (R493): After drains, the block's state is saved encrypted, its shares freed and it returns to its launch. -/
  | preemptSaveComplete (lid crew : Nat)
  /-- LAUNCH_KILL (R496): A launch is killed: its slots stop, its buffers are discarded and pending copies and requests finish. -/
  | launchKill (slot : Nat)
  /-- DET_GROUP_APPLY (R522): The ticket unit applies a closed DET group at home atomically once its block holds the ticket. -/
  | detGroupApply (lid : Nat)
  /-- ROUND_OPEN (R505): A particle round opens, launching each ready particle as one block. -/
  | roundOpen (lid : Nat)
  /-- PARTICLE_ARRIVAL (R507): An arrival reaches the combiner after its carries, closing the round when the K-th arrives. -/
  | particleArrival (lid : Nat)
  /-- CLONE_RETRY (R511): A stalled clone is retried when the die frees a head, page or record, opening the next round once all succeed. -/
  | cloneRetry (lid : Nat)
  /-- BORROW_GRANT (R453): A lender die receives a borrow request and grants or refuses a batch from its free list. -/
  | borrowGrant (die pool : Nat)
  /-- HWIN_WRITE (R544): A write of HWIN selects and opens the BAR2 window, ignored for a context the function does not hold. -/
  | hwinWrite (fn : Nat) (val : W64)
  /-- HOST_WINDOW_READ (R545): A host read through BAR2 is translated and returns the value at home or Completer Abort. -/
  | hostWindowRead (fn off len : Nat)
  /-- HOST_WINDOW_WRITE (R545): A posted host write through BAR2 is applied at home as a sys write and counted in SRCHOST regions. -/
  | hostWindowWrite (fn off : Nat) (data : Bytes)
  /-- HOST_ATOMIC (R546): A host FetchAdd or Swap through BAR2 is performed at home like ATOM.sys. -/
  | hostAtomic (fn off : Nat) (op : HostAtom) (wide : Bool) (val : W64)
  /-- HOST_CAS_REQUEST (R542): A CAS AtomicOp is completed as Unsupported Request. -/
  | hostCasRequest (fn off : Nat)
  /-- APERTURE_WRITE (R549): Physical function 0 writes an aperture entry, ignored while valid with a live launch of its context. -/
  | apertureWrite (fn idx word : Nat) (val : W64)
  /-- PEER_REQUEST (R550): A request arrives on a peer port and is accepted if granted, or freezes the port otherwise. -/
  | peerRequest (port : Nat) (req : PeerReq)
  /-- PEER_COMMIT_UNIT (R551): The remote home applies one commit unit from a port as an atomic commit and acknowledges it. A unit has
  at least one byte; each comes with its RCTX and its remote address. -/
  | peerCommitUnit (port : Nat) (first : Nat × Nat × Byte) (rest : List (Nat × Nat × Byte))
  /-- PEER_ACK (R551): Acknowledgement of every unit or piece lets a peer CMT complete or a peer copy's token clear. -/
  | peerAck (id : Nat) (ok : Bool) (data : Bytes)
  /-- PEER_PORT_DOWN (R552): A port going down kills launches with commits, copies or atomics in flight on it. -/
  | peerPortDown (port : Nat)
  /-- PEERSTAT_WRITE (R553): Writing 1 to PEERSTAT.FROZEN clears a port's freeze. -/
  | peerstatWrite (fn port : Nat) (val : W64)
  /-- PAIR_WORD (R95): A P-form word issues two halves on both vector pipes, reading all sources before writing. -/
  | pairWord (a b : Half)
  /-- NOP (R195): No operation. -/
  | nop (w : Fields)
  /-- BRA (R197): Predicated relative branch that may diverge and push a reconvergence token. -/
  | bra (w : Fields)
  /-- BRU (R198): Unconditional relative branch of the whole fragment. -/
  | bru (w : Fields)
  /-- BRX (R198): Branch to a register address plus displacement. -/
  | brx (w : Fields)
  /-- CALL (R199): Write the return header address and branch relatively or through a register. -/
  | call (w : Fields)
  /-- RETN (R199): Move the fragment to the address held in a scalar. -/
  | retn (w : Fields)
  /-- EXIT (R200): Retire the active lanes of the fragment. -/
  | exit (w : Fields)
  /-- TRAP (R242): Raise the SOFT report trap with a code. -/
  | trap (w : Fields)
  /-- TRET (R241): Leave handler mode, replaying the trapping instruction or continuing at TRAPPC. -/
  | tret (w : Fields)
  /-- TRET_SKIP (R241): Leave handler mode and continue after the trapping instruction. -/
  | tretSkip (w : Fields)
  /-- YIELD (R202): Give up the fragment's issue turn and reset its age. -/
  | yield (w : Fields)
  /-- SLEEP (R203): Make the fragment not ready for a number of cycles. -/
  | sleep (w : Fields)
  /-- CYC (R204): Read the core's cycle counter into a scalar. -/
  | cyc (w : Fields)
  /-- SRRD (R205): Read a system register into a scalar after earlier writers land. -/
  | srrd (w : Fields)
  /-- SRWR (R206): Write a system register by its access code. -/
  | srwr (w : Fields)
  /-- IADD (R144): Integer add. -/
  | iadd (w : Fields)
  /-- ISUB (R144): Integer subtract. -/
  | isub (w : Fields)
  /-- IMUL (R144): Integer multiply, low half. -/
  | imul (w : Fields)
  /-- IMULH (R145): Integer multiply, high half. -/
  | imulh (w : Fields)
  /-- IMAD (R144): Integer multiply-add. -/
  | imad (w : Fields)
  /-- IMADW (R145): 32-bit multiply-add into a 64-bit result. -/
  | imadw (w : Fields)
  /-- IDIV (R146): Integer divide truncating toward zero. -/
  | idiv (w : Fields)
  /-- IREM (R146): Integer remainder with the dividend's sign. -/
  | irem (w : Fields)
  /-- IMIN (R144): Integer minimum. -/
  | imin (w : Fields)
  /-- IMAX (R144): Integer maximum. -/
  | imax (w : Fields)
  /-- IABS (R144): Integer absolute value. -/
  | iabs (w : Fields)
  /-- INEG (R144): Integer negation. -/
  | ineg (w : Fields)
  /-- ISAD (R144): Sum of absolute difference. -/
  | isad (w : Fields)
  /-- IDOT4 (R147): Four-byte dot product plus accumulator. -/
  | idot4 (w : Fields)
  /-- ICMP (R148): Integer compare into a k register. -/
  | icmp (w : Fields)
  /-- SHL (R149): Shift left. -/
  | shl (w : Fields)
  /-- SHR (R149): Logical shift right. -/
  | shr (w : Fields)
  /-- SAR (R149): Arithmetic shift right. -/
  | sar (w : Fields)
  /-- ROT (R149): Rotate left. -/
  | rot (w : Fields)
  /-- AND (R150): Bitwise AND. -/
  | and (w : Fields)
  /-- OR (R150): Bitwise OR. -/
  | or (w : Fields)
  /-- XOR (R150): Bitwise XOR. -/
  | xor (w : Fields)
  /-- NOT (R150): Bitwise NOT. -/
  | not (w : Fields)
  /-- LOP3 (R151): Any three-input bit function by truth table. -/
  | lop3 (w : Fields)
  /-- LEA (R152): Form a 64-bit address from base and shifted index. -/
  | lea (w : Fields)
  /-- SEL (R153): Select between two sources by a k register. -/
  | sel (w : Fields)
  /-- MOV (R150): Move a value. -/
  | mov (w : Fields)
  /-- MOVI (R154): Move a 16-bit constant held in the B and C fields. -/
  | movi (w : Fields)
  /-- IADDS (R155): Saturating integer add. -/
  | iadds (w : Fields)
  /-- CLAMP (R155): Clamp a value between bounds. -/
  | clamp (w : Fields)
  /-- KOP (R157): Combine two k registers by a logical operation. -/
  | kop (w : Fields)
  /-- KMOV (R158): Copy a k register's active-lane bits. -/
  | kmov (w : Fields)
  /-- KMOV_FROMW (R158): Write one 32-bit word of a k register from a scalar. -/
  | kmovFromw (w : Fields)
  /-- KMOV_TOW (R158): Read one word of a k register into a scalar. -/
  | kmovTow (w : Fields)
  /-- KMOV_FROMV (R158): Set k bits where a vector register is nonzero. -/
  | kmovFromv (w : Fields)
  /-- KMOV_TOV (R158): Write k bits into a vector register. -/
  | kmovTov (w : Fields)
  /-- KSET_ALL (R159): Set k bits of active lanes. -/
  | ksetAll (w : Fields)
  /-- KSET_NONE (R159): Clear k bits of active lanes. -/
  | ksetNone (w : Fields)
  /-- KSET_BELOW (R159): Set k bits of active lanes below a bound. -/
  | ksetBelow (w : Fields)
  /-- KCNT (R159): Count set active bits of a k register. -/
  | kcnt (w : Fields)
  /-- KFIND_FIRST (R159): Find the lowest active set lane. -/
  | kfindFirst (w : Fields)
  /-- KFIND_LAST (R159): Find the highest active set lane. -/
  | kfindLast (w : Fields)
  /-- POPC (R160): Population count. -/
  | popc (w : Fields)
  /-- CLZ (R160): Count leading zeros. -/
  | clz (w : Fields)
  /-- CTZ (R160): Count trailing zeros. -/
  | ctz (w : Fields)
  /-- FNS (R160): Position of the (b+1)-th set bit. -/
  | fns (w : Fields)
  /-- BREV (R160): Reverse bits. -/
  | brev (w : Fields)
  /-- BFX (R161): Extract a bit field. -/
  | bfx (w : Fields)
  /-- BFI (R161): Insert a bit field. -/
  | bfi (w : Fields)
  /-- BMSK (R161): Build a bit mask. -/
  | bmsk (w : Fields)
  /-- FADD (R162): Floating add. -/
  | fadd (w : Fields)
  /-- FSUB (R162): Floating subtract. -/
  | fsub (w : Fields)
  /-- FMUL (R162): Floating multiply. -/
  | fmul (w : Fields)
  /-- FFMA (R162): Fused floating multiply-add. -/
  | ffma (w : Fields)
  /-- FMIN (R163): IEEE minimumNumber. -/
  | fmin (w : Fields)
  /-- FMAX (R163): IEEE maximumNumber. -/
  | fmax (w : Fields)
  /-- FCMP (R164): Floating compare into a k register. -/
  | fcmp (w : Fields)
  /-- FCLASS (R165): Classify a float into a one-hot mask. -/
  | fclass (w : Fields)
  /-- FRND (R166): Round to integral value in the same format. -/
  | frnd (w : Fields)
  /-- FDIV (R167): Correctly rounded division. -/
  | fdiv (w : Fields)
  /-- FSQRT (R167): Correctly rounded square root. -/
  | fsqrt (w : Fields)
  /-- FRCP (R167): Correctly rounded reciprocal. -/
  | frcp (w : Fields)
  /-- FRSQ (R167): Correctly rounded reciprocal square root. -/
  | frsq (w : Fields)
  /-- FEXP2 (R167): Correctly rounded power of two. -/
  | fexp2 (w : Fields)
  /-- FLOG2 (R167): Correctly rounded base-2 logarithm. -/
  | flog2 (w : Fields)
  /-- FSINPI (R167): Correctly rounded sin(πa). -/
  | fsinpi (w : Fields)
  /-- FCOSPI (R167): Correctly rounded cos(πa). -/
  | fcospi (w : Fields)
  /-- FSCALE (R169): Multiply by a power of two with one rounding. -/
  | fscale (w : Fields)
  /-- FGETX (R169): Extract the exponent as i32. -/
  | fgetx (w : Fields)
  /-- FGETM (R169): Extract the significand in [1, 2). -/
  | fgetm (w : Fields)
  /-- FDOT2 (R170): Two-term packed dot product plus f32 with one rounding. -/
  | fdot2 (w : Fields)
  /-- SUMC (R171): Exact two-sum of a value into a (hi, lo) pair. -/
  | sumc (w : Fields)
  /-- CVT (R173): Convert between numeric types. -/
  | cvt (w : Fields)
  /-- QNT (R174): Quantise by a scale with one rounding. -/
  | qnt (w : Fields)
  /-- DQNT (R175): Dequantise by a scale with one rounding. -/
  | dqnt (w : Fields)
  /-- PKN (R176): Convert two f32 values and pack them into part of D. -/
  | pkn (w : Fields)
  /-- UPKN (R177): Extract and widen one packed element to f32. -/
  | upkn (w : Fields)
  /-- PEXP (R474): Compute 2^(x·c − M) in P6. -/
  | pexp (w : Fields)
  /-- MAXE (R473): Fold a score into a running integer maximum exponent. -/
  | maxe (w : Fields)
  /-- RND (R178): Write four thresh random words per active lane and advance Draw. -/
  | rnd (w : Fields)
  /-- SHFL (R184): Move values between lanes of a segment. -/
  | shfl (w : Fields)
  /-- BCST (R185): Broadcast one lane of a segment by position. -/
  | bcst (w : Fields)
  /-- BCST_FIRST (R185): Broadcast the lowest active lane of a segment. -/
  | bcstFirst (w : Fields)
  /-- VOTE (R186): Per-segment any, all or equal vote into a k register. -/
  | vote (w : Fields)
  /-- REDX (R187): Per-segment fixed-tree reduction. -/
  | redx (w : Fields)
  /-- SCANX (R188): Per-segment serial prefix scan. -/
  | scanx (w : Fields)
  /-- MATCH (R189): Set of active lanes with equal values. -/
  | matchEq (w : Fields)
  /-- REDW (R190): Whole-wave fixed-tree reduction into a scalar. -/
  | redw (w : Fields)
  /-- ELECT (R191): Index of the lowest active lane of the wave. -/
  | elect (w : Fields)
  /-- ELECT_K (R191): Mark the lowest active lane of each segment in a k register. -/
  | electK (w : Fields)
  /-- LD (R298): Load one element per active lane by the search of R209. -/
  | ld (w : Fields)
  /-- ST (R299): Store one element per active lane into the WSB. -/
  | st (w : Fields)
  /-- LDU (R300): Uniform load into a scalar. -/
  | ldu (w : Fields)
  /-- STU (R300): Uniform store of a scalar into the WSB. -/
  | stu (w : Fields)
  /-- LDS (R301): Load from the block's scratchpad. -/
  | lds (w : Fields)
  /-- STS (R301): Store to the block's scratchpad. -/
  | sts (w : Fields)
  /-- ATOM (R307): Fetch atomic read-modify-write at a level, returning the old value. -/
  | atom (w : Fields)
  /-- RED (R310): Reduction at a level without return value. -/
  | red (w : Fields)
  /-- PRF (R302): Prefetch lines into L1. -/
  | prf (w : Fields)
  /-- PIN (R403): Pin a virtual range in the LLC and return a status. -/
  | pin (w : Fields)
  /-- UNPIN (R403): Free a retention entry. -/
  | unpin (w : Fields)
  /-- XBEG (R214): Open an unchecked span at a level. -/
  | xbeg (w : Fields)
  /-- XBEG_CHK (R214): Open a checked span, waiting for the exclusive grant after 8 failures. -/
  | xbegChk (w : Fields)
  /-- CMT (R217): Commit up to a level as one atomic act, closing spans. -/
  | cmt (w : Fields)
  /-- ABT (R225): Abort at a level. -/
  | abt (w : Fields)
  /-- PUL (R230): Self-invalidate cached copies at a level and above. -/
  | pul (w : Fields)
  /-- XSTAT (R231): Read span state at a level. -/
  | xstat (w : Fields)
  /-- CPY (R316): Linear copy by the copy engine on a token. -/
  | cpy (w : Fields)
  /-- CPYT (R318): Tensor box copy between device memory and a local tile. -/
  | cpyt (w : Fields)
  /-- CPYX (R320): Copy expanding packed DS6 into DS8. -/
  | cpyx (w : Fields)
  /-- WAITK (R321): Wait until a token clears, raising any held copy fault. -/
  | waitk (w : Fields)
  /-- WPRM (R322): Wait until a token's promise, raising PROMISE if still set. -/
  | wprm (w : Fields)
  /-- WPRM_READ (R323): Read a token's promise into a scalar without waiting. -/
  | wprmRead (w : Fields)
  /-- LAZY (R324): Bind a scratchpad window to a lazy tile copy. -/
  | lazy (w : Fields)
  /-- LAZYC (R325): Unbind a lazy window after any in-flight copy. -/
  | lazyc (w : Fields)
  /-- AARM (R421): Arm or re-arm a region counter. -/
  | aarm (w : Fields)
  /-- AEXP (R421): Add bytes to a region's expectation. -/
  | aexp (w : Fields)
  /-- AADD (R421): Add bytes to a region's arrivals. -/
  | aadd (w : Fields)
  /-- AWAIT (R422): Wait for a region phase to pass, with a cycle limit. -/
  | await (w : Fields)
  /-- AREAD (R423): Read a snapshot field of a region. -/
  | aread (w : Fields)
  /-- ADIS (R421): Disarm a region and answer its waiters DISARMED. -/
  | adis (w : Fields)
  /-- OBR (R345): Create an operand-buffer record. -/
  | obr (w : Fields)
  /-- OBF (R346): Free an operand-buffer record. -/
  | obf (w : Fields)
  /-- OBW (R347): Write elements into a record's bytes. -/
  | obw (w : Fields)
  /-- OBL (R347): Load elements from a record's bytes. -/
  | obl (w : Fields)
  /-- STB (R342): Select the wave's stand tile. -/
  | stb (w : Fields)
  /-- MMQ (R352): Unscaled quarter matrix operation into accumulator tiles. -/
  | mmq (w : Fields)
  /-- MMQS (R352): Block-scaled quarter matrix operation. -/
  | mmqs (w : Fields)
  /-- MMQP (R352): P6 by BF16 quarter matrix operation. -/
  | mmqp (w : Fields)
  /-- ACZ (R359): Zero owned accumulator rows. -/
  | acz (w : Fields)
  /-- ACR (R361): Read accumulator columns into vector registers. -/
  | acr (w : Fields)
  /-- DRN (R362): Drain owned rows to scratchpad with conversion. -/
  | drn (w : Fields)
  /-- DRNS (R363): Send owned rows into a swath round. -/
  | drns (w : Fields)
  /-- MMSK (R357): Load the wave's attention mask state. -/
  | mmsk (w : Fields)
  /-- ACS (R360): Scale owned rows by exact powers of two. -/
  | acs (w : Fields)
  /-- SWR (R364): Receive a swath result into owned rows. -/
  | swr (w : Fields)
  /-- BARB (R264): Arrive at a named block barrier and wait for its phase. -/
  | barb (w : Fields)
  /-- BARC (R379): Arrive at a crew barrier and wait, performing PUL.crew on release. -/
  | barc (w : Fields)
  /-- SPAWN (R328): Create waves from the block's spawn pool. -/
  | spawn (w : Fields)
  /-- TWIN_CKPT (R329): Compare point that takes a checkpoint on match. -/
  | twinCkpt (w : Fields)
  /-- TWIN_CMP (R329): Compare point without checkpoint. -/
  | twinCmp (w : Fields)
  /-- DETF (R523): Close the block's open DET group. -/
  | detf (w : Fields)
  /-- KVT (R456): Translate a sequence position to a slot address. -/
  | kvt (w : Fields)
  /-- KVA_NEW (R456): Allocate a new empty sequence. -/
  | kvaNew (w : Fields)
  /-- KVA_APP (R456): Append positions to a sequence, copying a shared last page on write. -/
  | kvaApp (w : Fields)
  /-- KVC (R456): Clone a sequence sharing its pages. -/
  | kvc (w : Fields)
  /-- KVF (R456): Free a sequence, dropping page references. -/
  | kvf (w : Fields)
  /-- WNW (R460): Winnow keys whose exact score passes a threshold or top-k. -/
  | wnw (w : Fields)
  /-- GMK (R466): Write each lane's legal-token mask. -/
  | gmk (w : Fields)
  /-- GSTP (R466): Advance each lane's grammar automaton by one token. -/
  | gstp (w : Fields)
  /-- SMPL (R469): Draw one token per lane by Gumbel-max, optionally killing particles with no legal token. -/
  | smpl (w : Fields)
  /-- PWADD (R516): Add to a particle's log2-weight. -/
  | pwadd (w : Fields)
  /-- PWSET (R516): Set a particle's log2-weight. -/
  | pwset (w : Fields)
  /-- RSB (R517): End the step, retiring the wave and making the particle an arrival. -/
  | rsb (w : Fields)
  /-- POPR (R518): Read a population or particle register. -/
  | popr (w : Fields)
  /-- PKILL (R516): Set a particle's weight to −inf. -/
  | pkill (w : Fields)
  /-- PEER_LINK_UP (R553): A peer port's link comes up and PEERSTAT.UP is set. -/
  | peerLinkUp (port : Nat) (serial : BitVec 16)
  /-- PEER_FLIT_REPLAY (R548): A peer flit that fails its CRC is replayed by the link layer, and PEERSTAT.ERRORS counts the replay. -/
  | peerFlitReplay (port : Nat)
  /-- HOST_FUNCTION_RESET (R532): The physical function resets a frozen host function, ending the error completion of its requests. -/
  | hostFunctionReset (fn : Nat)
  /-- DISPATCH_HART_RELOAD (R490): The host reloads and restarts a dispatch hart's image, which is verified and measured into MEAS2 to MEAS5, and the die binds again. -/
  | dispatchHartReload (die : Nat) (image : Image)
  /-- POLICY_CONFIGURATION_WRITE (R530): The host writes the policy configuration, which the security processor measures into MEAS6. -/
  | policyConfigurationWrite (config : Bytes)
deriving DecidableEq, Repr

end Sys2Proof
end

