-- ==== Sys2Proof/Machine/State.lean ====
section
/-! DEFINITION. The state of one F940 package, as plain data, and the machine right after reset.

Units are named by numbers: core `cid = 64*die + 8*cluster + core` (R396's slice index inside the die), wave
slot `wid = 32*cid + slot`, block slot `bid = 8*cid + bslot`, crew `lid*2^32 + crew`, launch-front slot
`sk = 65536*ctx + 1024*queue + slot`, region id as R420, particle `65536*die + rec`, pool `16*die + pool`. -/

namespace Sys2Proof.Machine

/-- Why the machine stops. -/
inductive Fault where
  /-- Raised by an event step that names a unit the part does not have (a die above 3, a core above 255). Safe: no
  such unit acts in hardware. -/
  | noSuchUnit
deriving DecidableEq, Repr

/-- Why a step has no meaning. -/
inductive Refusal where
  /-- Raised by an arm of `exec` that has no meaning yet. Safe. -/
  | notModelled (mnemonic : String)
  /-- Raised by a word step when no fragment is issuing (`State.cur` names none). Safe: a word never acts alone. -/
  | noFragment
  /-- Raised by an event step that cannot happen in this state: what it would complete is not there. Safe. -/
  | notEnabled (mnemonic : String)
deriving DecidableEq, Repr

/-! ### Bytes on the commit ladder -/

/-- Where a byte lives at dev level: device memory (R396), host memory behind a SYS page (R398), or a peer (R549). -/
inductive Loc where
  | dev (pa : Nat)
  | host (ha : Nat)
  | peer (port rctx rva : Nat)
deriving DecidableEq, Repr

/-- A byte of a block or crew commit buffer (R261, R374). -/
structure BufByte where
  val : Byte
  loc : Loc
deriving DecidableEq, Repr

/-- A byte of a wave store buffer, with the lane that last wrote it (R207) and every lane that has stored it in the span
(R215, R218). -/
structure WsbByte where
  val : Byte
  loc : Loc
  writer : Nat
  lanes : Mask
deriving DecidableEq, Repr

/-- A byte that a lane read in a checked span (R215). -/
structure LogByte where
  lane : Nat
  va : Nat
  loc : Loc
  val : Byte
deriving DecidableEq, Repr

/-! ### Fragments -/

/-- A register that an instruction reads or writes (R93, R118). -/
inductive RegId where
  | v (n : Nat)
  | s (n : Nat)
  | k (n : Nat)
deriving DecidableEq, Repr

/-- One register write of an instruction: an element of a vector register, a scalar, or a whole mask register. -/
inductive RegWrite where
  | v (n lane : Nat) (x : W32)
  | s (n : Nat) (x : W64)
  | k (n : Nat) (m : Mask)
deriving DecidableEq, Repr

/-- Mask, program counter and token stack (top first): a deferred entry, or lanes held at a header (R126, R129). -/
structure LaneGroup where
  mask : Mask
  pc : W64
  stack : List Nat
deriving DecidableEq, Repr

/-- A clause that a fragment runs: its header, its fetched body words, and the word that issues next (R77, R78). -/
structure Clause where
  addr : W64
  hdr : W64
  words : List W64
  idx : Nat
  /-- Passes of the word at `idx` still to issue; 0 before its first pass (R112). -/
  passes : Nat
  /-- The fragment holds an issue lane of its core (R134). -/
  lane : Bool := false
deriving DecidableEq, Repr

/-- What a fragment waits for (R132). -/
inductive Wait where
  /-- a token that is set (R117, R321) -/
  | token (t : Nat)
  /-- a token's promise (R322) -/
  | promise (t : Nat) (wake : Nat)
  /-- every pending result (R205) -/
  | allResults
  /-- the cycle counter (R203) -/
  | sleep (wake : Nat)
  /-- one cycle after YIELD (R202) -/
  | yielded (wake : Nat)
  /-- a block barrier's phase (R264) -/
  | barb (n : Nat)
  /-- a crew barrier's phase (R379) -/
  | barc (n : Nat)
  /-- room in the engine `e` (R444) -/
  | engine (e : Nat)
  /-- a copy engine entry (R271) -/
  | copyRoom
  /-- the exclusive grant with this key (R222) -/
  | grant (key : Nat)
  /-- a page walk (R430) -/
  | walk
  /-- a region's phase (R422): region id, phase, cycle of the limit (none: no limit) -/
  | region (rid phase : Nat) (limit : Option Nat)
  /-- a fragment record for a divergent branch (R127 step 5) -/
  | record
  /-- a lazy window's copy (R276) -/
  | lazyWin (bid win : Nat)
  /-- the array, for tiles that an earlier quarter operation writes (R353) -/
  | array
  /-- the other side of a twin (R278, R280, R284) -/
  | twin
  /-- room in the staging store (R520) -/
  | staging
  /-- room in the replay store (R528) -/
  | replayRoom
  /-- the ticket (R523) -/
  | ticket
  /-- the answers of the peers to the operations of a group (R551) -/
  | peer (grp : Nat)
deriving DecidableEq, Repr

/-- A divergent branch that found no record (R127 step 5). -/
structure Divergence where
  taken : LaneGroup
  fall : LaneGroup
  token : Nat
deriving DecidableEq, Repr

/-- A fragment record in use (R126). -/
structure Frag where
  /-- k0 of the fragment. -/
  mask : Mask
  /-- Address of the header to run next, while `clause` is none. -/
  pc : W64
  stack : List Nat
  age : Nat
  deferred : Option LaneGroup
  /-- Lanes held at their header while the deferred lanes run (R129). -/
  held : Option LaneGroup
  clause : Option Clause
  /-- The fragment is parked at `pc` (R128). -/
  parked : Option Nat
  wait : Option Wait
  /-- Lanes for which the next word is issued again after TRET (R241). -/
  replay : Option Mask
  /-- The word to go on with after the replayed one (R237). -/
  resume : Option Nat
  /-- Pages whose walk was answered with fail, for the word at hand (R430). -/
  failed : List Nat
  /-- A branch waiting for a record. -/
  diverge : Option Divergence
  /-- The fragment gave up its turn before this clause (R100: YP = 2). -/
  yieldedAt : Option W64
  /-- The answers of peers for the word at hand, by local address (R551): success and bytes, or failure and cause. -/
  answers : Tbl (Bool × Bytes)
  /-- The answer of the counter home for the AWAIT at hand (R422): the status. -/
  awaitAns : Option W64
deriving DecidableEq, Repr

/-! ### Traps and pending results -/

/-- What a trap records (R232 to R237). -/
structure TrapRec where
  fault : Bool
  cause : Nat
  info : W64
  addr : W64
  lanes : Mask
deriving DecidableEq, Repr

/-- A trap of another fragment that waits for TRET (R239, R243): the record, the trap, and where it was raised. -/
structure HeldTrap where
  frag : Nat
  trap : TrapRec
  pc : W64
  fba : W64
  /-- The word to go on with after the one TRAPPC names (R237). -/
  resume : Option Nat
deriving DecidableEq, Repr

/-- Handler mode (R238). -/
structure Handler where
  frag : Nat
  stack : List Nat
  fault : Bool
  /-- The value that the trap wrote to TRAPPC (R241). -/
  pc : W64
  /-- The clause that the trap interrupted, with `idx` at the word TRAPPC names. -/
  clause : Option Clause
  /-- The word to go on with after the one TRAPPC names (R237). -/
  resume : Option Nat
  /-- The fragment stood at a header (R79, R101, R103). -/
  atHeader : Bool
deriving DecidableEq, Repr

/-- A result that has not landed (R93, R143). -/
structure Pending where
  frag : Nat
  regs : List RegId
  /-- The lanes whose vector registers it writes. -/
  lanes : Mask
  /-- What the vector elements hold until it lands (R183). -/
  old : List RegWrite
  /-- Cycle from which it may land; the request or copy it stands for must be done first. -/
  due : Nat
  load : Bool
  /-- The clause of the word, at the word, and the end of its lookahead window (R92); 0 once the clause has ended. -/
  cl : Clause
  winEnd : Nat
  /-- Engine request that must complete first. -/
  req : Option Nat
  /-- Trap to take when it lands (R237). -/
  trap : Option TrapRec
deriving DecidableEq, Repr

/-- A fault of a copy or an engine request held on its token (R275, R462). -/
structure HeldFault where
  cause : Nat
  info : W64
  addr : W64
deriving DecidableEq, Repr

/-- A span record (R213). -/
structure Span where
  isOpen : Bool
  checked : Bool
  target : W64
  mask : Mask
  stack : List Nat
  fails : Nat
  /-- The span holds its exclusive grant (R222). -/
  granted : Bool
deriving DecidableEq, Repr

/-- A stand tile setting (R342). -/
structure StandTile where
  sb : Nat
  kt : Nat
  fmt : Nat
deriving DecidableEq, Repr

/-- The mask state of a wave (R357). -/
structure MaskState where
  mode : Nat
  row0 : Int
  col0 : Int
  bitmap : List W32
deriving DecidableEq, Repr

/-- The twin state of one wave on one side (R280, R284). -/
structure TwinWave where
  sig : W64
  /-- On the leader: the steps of its fragments that the shadow has still to take, in order (R278, R284). A word of record
  `r` is `r`; 100 is the landing of a result with a trap; 200 + 8*level + cause is a redirect; 300 + `r` is a clause start,
  400 + `r` a retried divergence, 500 + `r` a detaching of held lanes. -/
  order : List Nat
  /-- The compare point at which the wave waits: record, clause address and word index; none: not waiting. -/
  atPoint : Option (Nat × W64 × Nat)
  /-- The point has matched and the word may act. -/
  released : Bool
  /-- On the leader: a checkpoint follows the action (R281). -/
  owed : Bool
  /-- Issues of the TWINTEST opcode since bind (R286). -/
  issues : Nat
deriving DecidableEq, Repr

/-- Why a wave performs nothing more. -/
inductive Frozen where
  | double
  | intrusion
  | uncorrectable
  | killed
deriving DecidableEq, Repr

/-- The fields of a swath handle (R385). -/
structure SwathHandle where
  sid : Nat
  npart : Nat
  nrecv : Nat
  peer : Nat
deriving DecidableEq, Repr

/-- A DRNS whose rows are not accepted yet (R389), with the round it belongs to (R386). -/
structure SwathSend where
  id : Nat
  handle : SwathHandle
  round : Nat
  tok : Nat
  rows : List SwathRow
deriving DecidableEq, Repr

/-- A pending SWR (R364), with the round it belongs to (R386). -/
structure SwathRecv where
  handle : SwathHandle
  round : Nat
  tok : Nat
  /-- Lane, tile, row. -/
  targets : List (Nat × Nat × Nat)
deriving DecidableEq, Repr

/-- An access of a matrix instruction to accumulator tiles, in the order in which the array reaches it (R353): a quarter operation;
ACZ, ACS, ACR, DRN and DRNS behind one, with their base and what they read at issue. -/
inductive ArrayOp where
  | quarter (op : Nat) (tiles : List Nat)
  | zero (b : Nat) (lanes : List Nat)
  | scale (b : Nat) (by_ : List (Nat × Int))
  /-- ACR: the request that its pending result names, first register, first column, registers; the bit that TWINTEST flips. -/
  | fetch (id b d c n : Nat) (lanes : List Nat) (flip : Option (W64 × Mask))
  /-- DRN: the fragment, the type with saturation, each lane with its offset. -/
  | drain (frag b ty : Nat) (sat : Bool) (at_ : List (Nat × Nat))
  /-- DRNS: the contribution that takes the rows. -/
  | send (id b : Nat) (lanes : List Nat)
deriving DecidableEq, Repr

/-- A bound wave. -/
structure Wave where
  lid : Nat
  ctx : Nat
  bslot : Nat
  waveIdx : Nat
  role : Nat
  width : Nat
  cross : Nat
  vregs : Nat
  accs : Nat
  blocklin : Nat
  crew : Nat
  part : W32
  prio : Nat
  shadow : Bool
  /-- First granule of the register allotment and first tile (R487). -/
  vbase : Nat
  accbase : Nat
  /-- The role waves of a gang have started (R488). -/
  started : Bool
  /-- Element of register n in lane i at key 1024*n + i. -/
  v : Tbl W32
  s : Tbl W64
  k : Tbl Mask
  /-- Element (row, column) of tile t at key 256*t + 32*row + column. -/
  acc : Tbl W32
  tok : BitVec 8
  /-- Tokens that clear in the next cycle (R316). -/
  fading : BitVec 8
  promise : Tbl Nat
  heldFaults : Tbl HeldFault
  frags : Tbl Frag
  tvec : W64
  trappc : W64
  trapcause : W64
  trapinfo : W64
  trapaddr : W64
  trapfba : W64
  traplanes : Mask
  handler : Option Handler
  /-- Traps of sibling fragments held until TRET (R239, R243). -/
  heldTraps : List HeldTrap
  fpctl : W64
  fpflags : W64
  pexpuf : W32
  xcause : W64
  draw : Tbl W32
  spans : Tbl Span
  /-- A pending redirect: level and cause (R226). -/
  aborting : Option (Nat × Nat)
  wsb : Tbl WsbByte
  readLog : List LogByte
  tile : Option StandTile
  maskState : MaskState
  /-- DRNS contributions not accepted, and pending SWRs (R363, R364). -/
  sends : List SwathSend
  recvs : List SwathRecv
  /-- Accesses to its tiles that the array has not reached, in the order of issue (R353). -/
  arrayQ : List ArrayOp
  pending : List Pending
  frozen : Option Frozen
  twin : TwinWave
  /-- The wave ends by RSB (R517). -/
  rsb : Bool
  /-- The wave is at its end and waits for a twin compare there (R280). -/
  ending : Bool
deriving DecidableEq, Repr

/-! ### Blocks and crews -/

/-- An operand-buffer record (R344). -/
structure ObRec where
  base : Nat
  size : Nat
  pitch : Nat
  fmt : Nat
  blk : Nat
  bf16Scale : Bool
  aoff : Nat
  boff : Nat
deriving DecidableEq, Repr

/-- A named barrier (R263, R377). -/
structure Barrier where
  phase : Nat
  latched : Nat
  count : Nat
  /-- Waves that have arrived, as 16·BLOCK + WAVE. -/
  arrived : List Nat
deriving DecidableEq, Repr

/-- One byte that a copy writes: at a scratchpad, operand-buffer or stand offset, or at a device address (R313). -/
inductive CopyDst where
  | sp (off : Nat)
  | ob (off : Nat)
  | stand (off : Nat)
  | mem (va : Nat)
deriving DecidableEq, Repr

/-- Where the byte of a copy comes from: a byte already read, a device byte, or element `j` of the DS6 group at `va`. -/
inductive CopySrc where
  | byte (b : Byte)
  | mem (va : Nat)
  | ds6 (va j : Nat)
deriving DecidableEq, Repr

/-- A lazy window (R276, R324). -/
structure LazyWin where
  off : Nat
  len : Nat
  /-- What the window's copy will move. -/
  moves : List (CopyDst × CopySrc)
  present : Bool
  /-- The bytes of a copy in flight. -/
  inflight : Option (List (CopyDst × Byte))
deriving DecidableEq, Repr

/-- A spawn-pool reservation (R270, R487). -/
structure PoolSlot where
  slot : Nat
  vbase : Nat
  accbase : Nat
  accs : Nat
deriving DecidableEq, Repr

/-- What a wave slot in use takes of its core (R251): its slot and context, granules and tiles as first and count. -/
structure Resident where
  slot : Nat
  ctx : Nat
  v : Nat × Nat
  acc : Nat × Nat
deriving DecidableEq, Repr

/-- What the leader passes to the shadow for one word (R278, R560): the wave, its register writes, the trap the word took,
and for a CMT the span records and XCAUSE it left and whether it emptied the WSB and the read log. -/
structure LvqItem where
  waveIdx : Nat
  /-- The engine request whose results the item will hold (R446). -/
  req : Option Nat
  /-- Bytes that it takes in the queue, those of results still under way included. -/
  size : Nat
  writes : List RegWrite
  trap : Option TrapRec
  spans : Tbl Span
  xcause : W64
  emptied : Bool
  /-- Of an SWR, its token; and the rows it has received (R366). -/
  swr : Option Nat := none
  rows : Option (List SwathRow) := none
deriving DecidableEq, Repr

/-- An atomic or an engine request performed since the last checkpoint (R283, R446): the wave, the word, the register writes. -/
structure AtomicEntry where
  waveIdx : Nat
  clause : W64
  idx : Nat
  writes : List RegWrite
  trap : Option TrapRec
  /-- The engine request that has still to complete. -/
  req : Option Nat := none
  /-- The fault that its token holds, and the scratchpad bytes it has written. -/
  held : Option HeldFault := none
  scratch : List (Nat × Bytes) := []
deriving DecidableEq, Repr

/-- What a checkpoint holds of the block itself (R281, R559). -/
structure BlockCkpt where
  scratch : Tbl Byte
  obuf : Tbl Byte
  stand : Tbl Byte
  recs : Tbl ObRec
  bars : Tbl Barrier
  lazyWins : Tbl LazyWin
  waves : List (Nat × Wave)
deriving DecidableEq, Repr

/-- The twin state of a block (R277 to R287). -/
structure TwinBlock where
  mismatches : Nat
  retries : Nat
  fired : Bool
  atCkpt : Nat
  test : W64
  /-- Issues of the TWINTEST opcode on the named side so far, and the furthest issue of each wave (R286). -/
  hits : Nat
  seen : Tbl Nat
  slack : Nat
  lvq : List LvqItem
  log : List AtomicEntry
  /-- Atomics already replayed from the log since the last rollback, by wave. -/
  replayed : Tbl Nat
  ckpt : Option BlockCkpt
  /-- A checkpoint is due after the compare point of this wave's index (R281, R559). -/
  due : Option Nat
deriving DecidableEq, Repr

/-- A bound block. -/
structure Block where
  lid : Nat
  ctx : Nat
  blocklin : Nat
  crew : Nat
  shadow : Bool
  ways : Nat
  /-- The L1 ways lent to its commit buffer (R260). -/
  lent : List Nat
  scratchSize : Nat
  obufSize : Nat
  standSize : Nat
  spbase : Nat
  obbase : Nat
  stbase : Nat
  nwaves : Nat
  /-- NBLOCKS of its waves (R120, R505). -/
  nblocks : Nat
  scratch : Tbl Byte
  obuf : Tbl Byte
  stand : Tbl Byte
  recs : Tbl ObRec
  buf : Tbl BufByte
  bars : Tbl Barrier
  lazyWins : Tbl LazyWin
  pool : List PoolSlot
  poolV : Nat
  /-- The shares of role waves that have ended: the block keeps them until it ends (R251). -/
  gone : List Resident
  twin : TwinBlock
  detGroups : Nat
  round : Nat
  started : Bool
  /-- A pre-emption has been asked for (R493). -/
  stopping : Bool
deriving DecidableEq, Repr

/-- A bound crew (R372, R374, R377). -/
structure Crew where
  lid : Nat
  ctx : Nat
  idx : Nat
  die : Nat
  cluster : Nat
  size : Nat
  share : Nat
  buf : Tbl BufByte
  bars : Tbl Barrier
  /-- Blocks of the crew that have ended. -/
  ended : Nat
deriving DecidableEq, Repr

/-! ### Cores -/

/-- A line copy in L1 (R258): of device data, or of a crew buffer's bytes. -/
structure L1Line where
  crew : Bool
  bytes : Tbl Byte
deriving DecidableEq, Repr

/-- The tag of a superblock in a set of the L1 (R258): the way it stands in, and whether hint 2 protects it (R259). -/
structure L1Tag where
  sb : Nat
  way : Nat
  kept : Bool
deriving DecidableEq, Repr

/-- An update-only line (R407): op, type and the partial result of each element, by byte offset. -/
structure ULine where
  op : Nat
  ty : Nat
  lid : Nat
  ctx : Nat
  elems : Tbl W64
deriving DecidableEq, Repr

/-- A translated page (R428): virtual base, size, address, permissions. -/
structure Page where
  vbase : Nat
  size : Nat
  pbase : Nat
  sys : Bool
  x : Bool
  w : Bool
  r : Bool
deriving DecidableEq, Repr

/-- A copy held by a copy engine (R271 to R275). -/
structure Copy where
  id : Nat
  wid : Nat
  lid : Nat
  tok : Nat
  /-- Cycle of its promise. -/
  promise : Nat
  /-- Bytes read at issue. -/
  writes : List (CopyDst × Byte)
  /-- Bytes whose source page did not translate, or that a peer has still to answer. -/
  todo : List (CopyDst × CopySrc)
  /-- Bytes that peers have answered, by local address (R551). -/
  got : Tbl Byte
  /-- The fault of a piece: cause, address, whether it is a write; whether the hart has it. -/
  bad : Option (HeldFault × Bool)
  /-- Values that copies issued later have given bytes still to be read (R315). -/
  fixed : List (CopyDst × Byte)
  /-- Unwritten box bytes to count, at the region that holds this address (R319). -/
  extra : Option (Nat × Nat)
  /-- Peer pieces not acknowledged (R551). -/
  unacked : Nat
deriving DecidableEq, Repr

/-- One quarter of a quarter operation, with what it read at issue (R350, R354). `op`: its place in its wave's array queue. -/
structure Quarter where
  wid : Nat
  op : Nat
  tile : Nat
  q : Nat
  /-- Row within the tile, row ρ of the record. -/
  rows : List (Nat × Nat)
  record : ObRec
deriving DecidableEq, Repr

/-- What the members of a collector share (R354), and the mask state of each. -/
structure Collector where
  kind : Nat
  atype : Nat
  tile : StandTile
  bid : Nat
  k0 : Nat
  kk : Nat
  opened : Nat
  members : List (Quarter × Option MaskState)
deriving DecidableEq, Repr

/-- A byte of the operand buffer or the stand that has been written since a pass started: what it was, and whether the pass still
occupied the array (R341). -/
structure Overwrite where
  dst : CopyDst
  old : Byte
  during : Bool
deriving DecidableEq, Repr

/-- A pass that has started (R355): the cycle after the last in which it occupies the array, that in which its results land. -/
structure ArrayPass where
  col : Collector
  until_ : Nat
  lands : Nat
  wrote : List Overwrite
deriving DecidableEq, Repr

/-- A bind record that has been accepted for a gang not yet bound (R487, R488). -/
structure BindRec where
  core : Nat
  w0 : W64
  w1 : W64
  w2 : W64
  w3 : W64
deriving DecidableEq, Repr

/-- A core. -/
structure Core where
  cyc : Nat
  l1 : Tbl L1Line
  u : Tbl ULine
  /-- The tags of each set, most recently used first (R258, R259). -/
  tags : Tbl (List L1Tag)
  copies : List Copy
  tlb : Tbl Page
  coll : Option Collector
  closed : List Collector
  passes : List ArrayPass
  arrayFree : Nat
  saveaddr : W64
  /-- Save areas of the pre-emptions under way, by block slot (R492). -/
  saveArea : Tbl Nat
  prRefused : BitVec 8
  prDone : BitVec 8
  prBusy : BitVec 8
  slotRefused : Bool
deriving DecidableEq, Repr

/-! ### Dies -/

/-- Who waits for the answer to a fault record (R430). -/
inductive Waiter where
  | frag (wid rec : Nat)
  | copy (core id : Nat)
  | req (id : Nat)
  | clone (lid : Nat)
deriving DecidableEq, Repr

/-- The kind of an access: read, write, code fetch. -/
inductive Need where
  | read
  | write
  | fetch
deriving DecidableEq, Repr

/-- A page walk that a miss asks for (R429). -/
structure WalkReq where
  wid : Nat
  frag : Nat
  ctx : Nat
  va : Nat
  need : Need
deriving DecidableEq, Repr

/-- A fault record at a dispatch hart (R430): the context, the address, the access. -/
structure FaultRec where
  ctx : Nat
  va : Nat
  need : Need
  who : List Waiter
deriving DecidableEq, Repr

/-- A word that an ECC-protected array holds with an error (R432): a line at home, a line copy in an L1, 64 bytes of a
block's scratchpad. -/
inductive SoftAt where
  | home (line : Nat)
  | l1 (core key : Nat)
  | scratch (bid unit : Nat)
deriving DecidableEq, Repr

/-- A die. -/
structure Die where
  inReset : Bool
  cancfg : W64
  scrubper : W64
  errCorr : Nat
  errUncorr : Nat
  errLast : Option Nat
  rwsel : BitVec 12
  pwsel : BitVec 4
  ptsel : BitVec 16
  hartFrozen : Bool
  walks : List WalkReq
  /-- The walk caches: entries of the tables of levels 4 to 1, by context, level and address prefix (R429). -/
  walkCache : Tbl W64
  faults : List FaultRec
  /-- Position of each scrubber: channels 0-63, slices 64-127 (R434), and the period in force. -/
  scrub : Tbl Nat
  scrubPeriod : Tbl Nat
deriving DecidableEq, Repr

/-- A region entry (R413). -/
structure Region where
  owner : Nat
  chome : Nat
  srcHost : Bool
  srcPeer : Bool
  srcCopy : Bool
  srcCmt : Bool
  act : Nat
  armed : Bool
  valid : Bool
  ovf : Bool
  pbase : Nat
  log2sz : Nat
  phase : Nat
  expected : Nat
  arrived : Nat
  task : Nat
  rearm : Nat
deriving DecidableEq, Repr

/-- A page pool (R449, R453). -/
structure Pool where
  owner : Nat
  valid : Bool
  borrow : Bool
  log2ps : Nat
  lowat : Nat
  npages : Nat
  vbase : W64
  /-- The first page that has never been taken. -/
  fresh : Nat
  /-- Local pages freed, the next to be taken first. -/
  freeLocal : List Nat
  /-- Borrowed free pages, the next to be taken first. -/
  freeBorrowed : List Nat
  /-- The outstanding borrow request: the dies still to ask (R453). -/
  asking : Option (List Nat)
deriving DecidableEq, Repr

/-- A batch of borrowed pages: the dies, the pool, the page ids not returned (R453, R454). -/
structure Batch where
  lender : Nat
  borrower : Nat
  pool : Nat
  left : List Nat
deriving DecidableEq, Repr

/-- A live sequence (R450). -/
structure Seq where
  owner : Nat
  len : Nat
  pages : List Nat
deriving DecidableEq, Repr

/-- A retention entry (R401). -/
structure Retained where
  owner : Nat
  vbase : Nat
  units : Nat
  remote : Bool
  lines : Nat
  /-- Physical lines pinned. -/
  pinned : List Nat
deriving DecidableEq, Repr

/-- A particle record (R502). -/
structure Particle where
  w : W32
  pop : Nat
  st : Nat
  done : Bool
  parent : W32
  seq : W32
  gstate : W64
  index : Nat
deriving DecidableEq, Repr

/-- A population (R501, R513, R540). -/
structure Pop where
  owner : Nat
  valid : Bool
  gbase : Tbl W64
  status : BitVec 4
  count : Nat
  arrived : Nat
  strag : Nat
  round : Nat
  maxw : W32
  meanw : W32
  ess : W32
  popfix : W64
deriving DecidableEq, Repr

/-! ### Engines, swath, determinism, replay -/

/-- The work of an engine request, with the operands it read at issue (R444). -/
inductive EngOp where
  | kvt (items : List (Nat × Nat × Nat)) (d k : Nat)
  | kvaNew (lanes : List Nat) (pool d : Nat)
  | kvaApp (items : List (Nat × Nat × Nat)) (d : Nat)
  | kvc (items : List (Nat × Nat)) (d : Nat)
  | kvf (items : List (Nat × Nat))
  | wnw (keys pitch nkeys pos0 dim qoff : Nat) (thr : Int) (topk : Bool) (kcap outoff blk : Nat)
  | gmk (off desc pitch : Nat) (items : List (Nat × Nat))
  | gstp (desc : Nat) (items : List (Nat × Nat × Nat)) (d : Nat) (trp : Bool)
  | smpl (off d : Nat) (items : List (Nat × Nat × Nat)) (given kill : Bool)
deriving DecidableEq, Repr

/-- A request held by an engine (R444): engines 0-3 key-value, 4-7 grammar, 8-39 winnow. -/
structure EngReq where
  id : Nat
  /-- The engines it stands in: one, or the key-value engines of every die that holds a named sequence (R452). -/
  engines : List Nat
  wid : Nat
  frag : Nat
  ctx : Nat
  lid : Nat
  op : EngOp
  tok : Option Nat
  /-- Register writes of the lanes already performed, and their faults: lane, reason, TRAPADDR. -/
  got : List RegWrite
  bad : List (Nat × Nat × Nat)
  /-- Pages whose walk was answered with fail (R430). -/
  failed : List Nat
  /-- TWINTEST has fired on its word: the register and the active lanes, for the leader's results (R334). -/
  flip : Option (W64 × Mask) := none
  /-- The trap of lanes that failed at issue: the word takes one trap, when the request of its other lanes lands (R236, R465). -/
  early : Option TrapRec := none
  /-- The request waits for the answer to a fault record, or has been stopped with its launch. -/
  blocked : Bool
deriving DecidableEq, Repr

/-- A contribution of DRNS (R387): its place, its owner, its rows. -/
structure Contribution where
  cid : Nat
  blocklin : Nat
  waveIdx : Nat
  rows : List SwathRow
deriving DecidableEq, Repr

/-- The open round of a swath (R386). -/
structure Swath where
  round : Nat
  /-- The values that the round latched (R386); none before an operation of the round has been taken. -/
  latch : Option SwathHandle
  contribs : List Contribution
  /-- The result that receivers take, once formed (R387). -/
  result : Option (List SwathRow)
  /-- Receptions that have taken the result. -/
  taken : Nat
  /-- The package result, while the peer's part is awaited (R554). -/
  awaitPeer : Option (List SwathRow)
  /-- Results of the peer that came before the package's own (R554). -/
  fromPeer : List (List SwathRow)
deriving DecidableEq, Repr

/-- A staged reduction of a DET launch (R522). -/
structure DetRed where
  waveIdx : Nat
  lane : Nat
  seq : Nat
  loc : Loc
  op : Nat
  ty : Nat
  val : W64
deriving DecidableEq, Repr

/-- A group of staged effects (R522): commits in order, then reductions. -/
structure DetGroup where
  /-- Staged commits: whether CMT.sys or the end of the launch made it, and the bytes. -/
  commits : List (Bool × List (Nat × BufByte))
  reds : List DetRed
deriving DecidableEq, Repr

/-- The stream of groups of one block of a DET launch (R522). -/
structure DetBlock where
  opened : DetGroup
  closed : List DetGroup
  ended : Bool
  seq : Nat
deriving DecidableEq, Repr

/-- A granule in the replay store (R527): its launch, its bytes, the keys of its lines. -/
structure Granule where
  lid : Nat
  bytes : Tbl Byte
  keys : Tbl Nat
deriving DecidableEq, Repr

/-- Bytes for host memory held at the host port (R398): the launch and crew, the bytes of one commit. -/
structure HeldCommit where
  lid : Nat
  crew : Nat
  bytes : List (Nat × Byte)
deriving DecidableEq, Repr

/-- The party recorded by a scope entry (R410). -/
inductive Party where
  | wave (lid crew blocklin core : Nat)
  | outside
deriving DecidableEq, Repr

/-- A scope entry (R382, R410). -/
structure ScopeEntry where
  level : Nat
  party : Party
  /-- Counter of its last use, for replacement. -/
  used : Nat
deriving DecidableEq, Repr

/-! ### Launch front -/

/-- A context descriptor (R477) with the events that wait for its ring (R479) and its key (R533). -/
structure Context where
  word0 : W64
  word1 : W64
  word2 : W64
  word3 : W64
  key : Option Nat
  heldEvents : List (W64 × W64)
deriving DecidableEq, Repr

/-- The registers of a launch queue (R478). -/
structure Queue where
  qbase : W64
  log2n : Nat
  head : Nat
  tail : Nat
  /-- Slots retired but not yet passed by QHEAD. -/
  retired : List Nat
deriving DecidableEq, Repr

/-- An edge of a record that has been read (R480, R483). -/
structure Edge where
  pred : Nat
  satisfied : Bool
  regions : List Nat
deriving DecidableEq, Repr

/-- A record that has been read and has not started (R483, R484). -/
structure LSlot where
  words : List W64
  edges : List Edge
  /-- Order in which it became ready; none: not ready. -/
  readyAt : Option Nat
  /-- LAUNCHID once started. -/
  lid : Option Nat
deriving DecidableEq, Repr

/-- A clone that waits (R511): its parent's key; whether the copy of its grammar record waits for the answer to a fault
record, and whether that answer was fail. -/
structure CloneJob where
  parent : Nat
  waiting : Bool
  failed : Bool
deriving DecidableEq, Repr

/-- A particle launched in a round and not yet bound: its handle, the round and its NBLOCKS (R505, R506). -/
structure Born where
  handle : Nat
  round : Nat
  nblocks : Nat
deriving DecidableEq, Repr

/-- The round of a PARTICLE launch (R505 to R511). -/
structure RoundState where
  pop : Nat
  quorum : Bool
  q : Nat
  maxRound : Nat
  /-- Particles launched and not yet bound. -/
  unbound : List Born
  /-- Handles whose wave has ended by RSB and whose carries wait or are done, in the combiner's order (R507); `today`: those of
  the current cycle, lower die first, then lower REC. -/
  sent : List Nat
  today : List Nat
  /-- Arrivals of the open round. -/
  arrived : List Nat
  /-- Handles that the open round counts and that have not arrived. -/
  members : List Nat
  clones : List CloneJob
  /-- A new round is due. -/
  toOpen : Bool
  extinct : Bool
deriving DecidableEq, Repr

/-- A live, started launch. -/
structure Launch where
  sk : Nat
  ctx : Nat
  words : List W64
  nblocks : Nat
  /-- Next crew to offer; crews returned by pre-emption; the die that claimed each crew. -/
  offered : Nat
  returned : List Nat
  crewDie : Tbl Nat
  ended : List Nat
  /-- A kill waits to be done: the cause. -/
  killReq : Option Nat
  kills : Nat
  ticket : Nat
  round : Option RoundState
deriving DecidableEq, Repr

/-- Bind records of one block that have been accepted (R488). -/
structure Gang where
  core : Nat
  bslot : Nat
  lid : Nat
  blocklin : Nat
  shadow : Bool
  resume : Bool
  glast : Bool
  recs : List BindRec
deriving DecidableEq, Repr

/-- A saved crew (R493, R494): its blocks and their waves by block index and slot order, and the crew. -/
structure SaveImage where
  crew : Crew
  blocks : List (Nat × Block)
  waves : List (Nat × Wave)
  hub : List (Nat × ScopeEntry)
deriving DecidableEq, Repr

/-! ### Fabric and security -/

/-- A host function (R542 to R546). -/
structure HostFn where
  hwin : W64
  frozen : Bool
  errors : Nat
deriving DecidableEq, Repr

/-- A peer port (R550, R553). -/
structure Port where
  grant : Tbl W64
  frozen : Bool
  remote : BitVec 16
  errors : Nat
  up : Bool
deriving DecidableEq, Repr

/-- What a peer operation in flight stands for (R551). -/
inductive PeerKind where
  /-- a load: its answer goes to the fragment -/
  | read
  /-- a load that a rollback has overtaken (R333): its answer goes nowhere -/
  | stale
  | unit
  | piece (core copy : Nat)
  /-- ATOM.sys, with op and type: its answer goes to the fragment -/
  | atom (op ty : Nat)
  /-- RED.sys, with op and type -/
  | red (op ty : Nat)
  | swath
deriving DecidableEq, Repr

/-- A request sent over a port and not answered. -/
structure PeerOp where
  id : Nat
  /-- The first operation of the same word: the word waits for all of them (R551). -/
  grp : Nat
  port : Nat
  kind : PeerKind
  lid : Nat
  wid : Nat
  frag : Nat
  /-- Remote context, remote address and byte. -/
  bytes : List (Nat × Nat × Byte)
  /-- Local address, for a trap (R552). -/
  va : Nat
deriving DecidableEq, Repr

/-- What the outside sees (R532, R542 to R547). -/
inductive HostOut where
  | completion (fn : Nat) (ok : Bool) (data : Bytes)
  | unsupported (fn : Nat)
  | poisoned (fn : Nat)
  | interrupt (fn vec : Nat)
  | posted (ha : Nat) (data : Bytes)
  | peerReply (port : Nat) (ok : Bool) (data : Bytes)
deriving DecidableEq, Repr

/-- The security processor (R529 to R533). -/
structure Security where
  booted : Bool
  meas : Tbl (BitVec 256)
  status : W64
  /-- Images that run: 0 security, 1 launch front, 2-5 dispatch harts. -/
  running : List Nat
  versions : Tbl Byte
  freezes : Nat
  mailbox : List W64
  policy : Bytes
  keysDrawn : Nat
  reports : List Bytes
deriving DecidableEq, Repr

/-! ### The package -/

/-- The state of one F940 package and its host memory. -/
structure State where
  /-- Who moves next: an event, or `none` for the part's own next step. Empty: the part's own. -/
  agenda : List (Option Instr)
  /-- Words picked by the last issue cycle and not yet run. -/
  picked : List (Nat × Nat)
  /-- The fragment whose word issues. -/
  cur : Option (Nat × Nat)
  /-- Counter for free values and identities. -/
  free : Nat
  mem : Tbl Byte
  lineKey : Tbl Nat
  hostMem : Tbl Byte
  poison : List Nat
  /-- Soft errors that have struck and that no read has met: from outside, as the agenda is (R432). -/
  soft : List (SoftAt × EccRead)
  /-- Host addresses whose next record read the host link answers with an error: from outside (R482 code 9). -/
  linkErrs : List Nat
  scope : Tbl ScopeEntry
  hubScope : Tbl ScopeEntry
  grants : Tbl Nat
  cores : Tbl Core
  dies : Tbl Die
  waves : Tbl Wave
  blocks : Tbl Block
  crews : Tbl Crew
  regions : Tbl Region
  pools : Tbl Pool
  batches : List Batch
  seqs : Tbl Seq
  refs : Tbl Nat
  retention : Tbl Retained
  particles : Tbl Particle
  pops : Tbl Pop
  popsel : BitVec 8
  ctxs : Tbl Context
  ctxfn : Tbl (BitVec 6)
  queues : Tbl Queue
  slots : Tbl LSlot
  /-- Slots whose last launch failed (R483). -/
  failedSlots : List Nat
  /-- Counter satisfactions per slot (R484). -/
  satisfied : Tbl Nat
  launches : Tbl Launch
  gangs : List Gang
  saves : Tbl SaveImage
  reqs : List EngReq
  /-- Engines frozen by R532. -/
  frozenEngines : List Nat
  swaths : Tbl Swath
  det : Tbl DetBlock
  replay : Tbl Granule
  heldSys : List HeldCommit
  fns : Tbl HostFn
  apertures : Tbl (W64 × W64)
  ports : Tbl Port
  peerOps : List PeerOp
  hostOut : List HostOut
  sec : Security
deriving DecidableEq, Repr

/-! ### Reset -/

/-- A core when its die leaves reset (R124); nothing is held in its engines and caches (R400). -/
def Core.reset : Core :=
  { cyc := 0, l1 := [], u := [], tags := [], copies := [], tlb := [], coll := none, closed := [], passes := [],
    arrayFree := 0, saveaddr := 0, saveArea := [], prRefused := 0, prDone := 0, prBusy := 0, slotRefused := false }

/-- A die at reset: CANCFG.STANDMB 8 (R399), SCRUBPER 34 and 37 (R435), every selector 0. -/
def Die.reset : Die :=
  { inReset := true, cancfg := 8, scrubper := 0x2225, errCorr := 0, errUncorr := 0, errLast := none, rwsel := 0,
    pwsel := 0, ptsel := 0, hartFrozen := false, walks := [], walkCache := [], faults := [], scrub := [], scrubPeriod := [] }

/-- A region entry at reset (R413). -/
def Region.reset : Region :=
  { owner := 0, chome := 0, srcHost := false, srcPeer := false, srcCopy := false, srcCmt := false, act := 0,
    armed := false, valid := false, ovf := false, pbase := 0, log2sz := 0, phase := 0, expected := 0, arrived := 0,
    task := 0, rearm := 0 }

/-- A page pool at reset (R449). -/
def Pool.reset : Pool :=
  { owner := 0, valid := false, borrow := false, log2ps := 0, lowat := 0, npages := 0, vbase := 0, fresh := 0,
    freeLocal := [], freeBorrowed := [], asking := none }

/-- A particle record at reset: free (R502). -/
def Particle.reset : Particle :=
  { w := 0, pop := 0, st := 0, done := false, parent := 0, seq := 0, gstate := 0, index := 0 }

/-- A population at reset (R501, R540). -/
def Pop.reset : Pop :=
  { owner := 0, valid := false, gbase := [], status := 0, count := 0, arrived := 0, strag := 0, round := 0, maxw := 0,
    meanw := 0, ess := 0, popfix := 0 }

/-- A context descriptor at reset (R477). -/
def Context.reset : Context :=
  { word0 := 0, word1 := 0, word2 := 0, word3 := 0, key := none, heldEvents := [] }

/-- A launch queue at reset (R478). -/
def Queue.reset : Queue := { qbase := 0, log2n := 0, head := 0, tail := 0, retired := [] }

/-- A host function at reset (R544). -/
def HostFn.reset : HostFn := { hwin := 0, frozen := false, errors := 0 }

/-- A peer port at reset (R550, R553). -/
def Port.reset : Port := { grant := [], frozen := false, remote := 0, errors := 0, up := false }

/-- A barrier at bind (R263, R377). -/
def Barrier.reset : Barrier := { phase := 0, latched := 0, count := 0, arrived := [] }

/-- A closed span record (R213). -/
def Span.closed : Span := { isOpen := false, checked := false, target := 0, mask := 0, stack := [], fails := 0,
                            granted := false }

/-- The security processor at reset (R530, R531). -/
def Security.reset : Security :=
  { booted := false, meas := [], status := 0, running := [], versions := [], freezes := 0, mailbox := [], policy := [],
    keysDrawn := 0, reports := [] }

/-- The machine right after reset: no context, no launch, no wave; every register at its reset value; a table lists
nothing that holds its reset value. -/
def State.reset : State :=
  { agenda := [], picked := [], cur := none, free := 0, mem := [], lineKey := [], hostMem := [], poison := [],
    soft := [], linkErrs := [], scope := [], hubScope := [], grants := [], cores := [], dies := [], waves := [], blocks := [], crews := [],
    regions := [], pools := [], batches := [], seqs := [], refs := [], retention := [], particles := [], pops := [], popsel := 0,
    ctxs := [], ctxfn := [], queues := [], slots := [], failedSlots := [], satisfied := [], launches := [], gangs := [],
    saves := [], reqs := [], frozenEngines := [], swaths := [], det := [], replay := [], heldSys := [], fns := [],
    apertures := [], ports := [], peerOps := [], hostOut := [], sec := Security.reset }

end Sys2Proof.Machine
end

