-- ==== Sys2Proof/Machine/Shape.lean ====
section
/-! DEFINITION. What the fields of an instruction word may hold, and which registers they name (R82 to R90, R95 to R97,
R115, R118). A word's `Shape` is the reading of its own entry; the checks here are the general rules. -/

namespace Sys2Proof.Machine

/-- A wave's allotment and widths: the limits that R109 and R115 set. -/
structure Allot where
  vregs : Nat
  width : Nat
  cross : Nat
deriving DecidableEq, Repr

/-- The largest allotment: what is legal in some wave. -/
def Allot.top : Allot := { vregs := 128, width := 1024, cross := 32 }

/-- Operand codes that a source field takes (R85). -/
structure Codes where
  vec : Bool
  lane : Bool
  /-- WIDTH to ARGS. -/
  special : Bool
  part : Bool
  scal : Bool
  inl : Bool
  ext : Bool
deriving DecidableEq, Repr

/-- Every source code. -/
def codesAny : Codes :=
  { vec := true, lane := true, special := true, part := true, scal := true, inl := true, ext := true }

/-- The codes that are uniform over the wave. -/
def codesUniform : Codes := { codesAny with vec := false, lane := false }

/-- A scalar, an inline constant or the extension word. -/
def codesSIX : Codes := { codesUniform with special := false, part := false }

/-- A register: vector or scalar (R145). -/
def codesReg : Codes := { codesAny with lane := false, special := false, part := false, inl := false, ext := false }

/-- A register, an inline code or the extension word (R305). -/
def codesData : Codes := { codesAny with lane := false, special := false, part := false }

/-- What a field holds. -/
inductive FieldKind where
  /-- not used: 0xE0 (R85) -/
  | unused
  /-- a vector or scalar register that takes a result of the type -/
  | dst (t : Ty)
  /-- a vector register that takes a result of the type -/
  | dstV (t : Ty)
  /-- a scalar register that takes a result -/
  | dstS
  /-- `n` vector registers from a multiple of `al` -/
  | dstRun (n al : Nat)
  /-- MATCH's D: a pair when C = 64 (R189) -/
  | dstMatch
  /-- a source of the type -/
  | src (c : Codes) (t : Ty)
  /-- a source, or 0xE0 for none -/
  | opt (c : Codes) (t : Ty)
  /-- a vector register that is read -/
  | srcV (t : Ty)
  /-- a scalar register that is read -/
  | srcS
  /-- `n` consecutive scalar registers that are read -/
  | srcSRun (n : Nat)
  /-- a vector or scalar register that is read (the data of a store) -/
  | data (t : Ty)
  /-- the base of an address: a scalar, or 0xE0 for none (R294) -/
  | base
  /-- the index of an address: a vector, or 0xE0 for none (R294) -/
  | index
  /-- the offset of an address: an inline constant or the extension word (R294) -/
  | offset
  /-- a k register that is written: 1-7 as a plain number (R114) -/
  | kdst
  /-- a k register that is read, from index `lo` -/
  | ksrc (lo : Nat)
  /-- a plain number from `lo` to `hi` -/
  | num (lo hi : Nat)
  /-- bits -/
  | raw
deriving DecidableEq, Repr

/-- How an instruction uses its word. -/
structure Shape where
  d : FieldKind := .unused
  a : FieldKind := .unused
  b : FieldKind := .unused
  c : FieldKind := .unused
  /-- The entry takes a predicate (R83). -/
  pred : Bool := true
  /-- LA may be nonzero (R92). -/
  la : Bool := false
  /-- A scalar destination admits only uniform sources (R87). -/
  uniform : Bool := true
  /-- D is read as well as written. -/
  dRead : Bool := false
deriving DecidableEq, Repr

/-- A register code of `n` registers with its alignment, in the vector file of the wave (R41, R115). -/
def vecOk (al : Allot) (n align code : Nat) : Bool := code + n ≤ al.vregs && code % align == 0

/-- Registers that a value of the type takes in the vector file. -/
def tyRegs (t : Ty) : Nat := if tyWide t then 2 else 1

/-- A source code is legal for the type (R85, R86). -/
def srcOk (al : Allot) (c : Codes) (t : Ty) (code : Nat) : Bool :=
  if code < 0x80 then c.vec && vecOk al (tyRegs t) (tyRegs t) code
  else if code < 0xC0 then c.scal
  else if code = 0xC0 then c.lane
  else if code < 0xC9 then c.special
  else if code = 0xC9 then c.part
  else if code < 0xE0 then false
  else if code < 0xFF then
    c.inl && !tyNoInline t &&
      (!(tyIsFloat t || t == .f16x2 || t == .bf16x2) || code ≤ 0xEB)
  else c.ext

/-- A field's code is legal (R85 to R87, R114, R115). -/
def fieldOk (al : Allot) (k : FieldKind) (code : Nat) : Bool :=
  match k with
  | .unused => code == 0xE0
  | .dst t => if code < 0x80 then vecOk al (tyRegs t) (tyRegs t) code else code < 0xC0
  | .dstV t | .srcV t => code < 0x80 && vecOk al (tyRegs t) (tyRegs t) code
  | .dstS | .srcS => 0x80 ≤ code && code < 0xC0
  | .dstRun n al' => code < 0x80 && vecOk al n al' code
  | .dstMatch => code < 0x80 && (if al.cross = 64 then vecOk al 2 2 code else vecOk al 1 1 code)
  | .src c t => srcOk al c t code
  | .opt c t => code == 0xE0 || srcOk al c t code
  | .srcSRun n => 0x80 ≤ code && code + n ≤ 0xC0
  | .data t => if code < 0x80 then vecOk al (tyRegs t) (tyRegs t) code else code < 0xC0
  | .base => code == 0xE0 || (0x80 ≤ code && code < 0xC0)
  | .index => code == 0xE0 || (code < 0x80 && vecOk al 1 1 code)
  | .offset => 0xE0 ≤ code
  | .kdst => 1 ≤ code && code ≤ 7
  | .ksrc lo => lo ≤ code && code ≤ 7
  | .num lo hi => lo ≤ code && code ≤ hi
  | .raw => true

/-- The field reads the extension word (R84). -/
def fieldExt (k : FieldKind) (code : Nat) : Bool :=
  match k with
  | .src _ _ | .opt _ _ | .offset => code == 0xFF
  | _ => false

/-- The field is a source that differs from lane to lane (R87). -/
def fieldPerLane (k : FieldKind) (code : Nat) : Bool :=
  match k with
  | .src _ _ | .opt _ _ | .srcV _ | .data _ | .index => code < 0x80 || code == 0xC0
  | _ => false

/-- Registers at an operand code: `n` of them in the vector file, one scalar. -/
def regsAt (n code : Nat) : List RegId :=
  if code < 0x80 then (List.range n).map fun i => .v (code + i)
  else if code < 0xC0 then [.s (code - 0x80)] else []

/-- Registers that a source field reads. -/
def fieldReads (k : FieldKind) (code : Nat) : List RegId :=
  match k with
  | .src _ t | .srcV t | .data t => regsAt (tyRegs t) code
  | .opt _ t => regsAt (tyRegs t) code
  | .srcS | .base | .index => regsAt 1 code
  | .srcSRun n => (List.range n).map fun i => .s (code - 0x80 + i)
  | .ksrc _ => if code = 0 then [] else [.k code]
  | _ => []

/-- Registers that a destination field writes. -/
def fieldWrites (al : Allot) (k : FieldKind) (code : Nat) : List RegId :=
  match k with
  | .dst t | .dstV t => regsAt (tyRegs t) code
  | .dstS => regsAt 1 code
  | .dstRun n _ => regsAt n code
  | .dstMatch => regsAt (if al.cross = 64 then 2 else 1) code
  | .kdst => [.k code]
  | _ => []

/-- The general checks on a word of the shape (R83 to R87, R92). -/
def fieldsOk (al : Allot) (sh : Shape) (w : Fields) : Bool :=
  let d := w.d.toNat
  let a := w.a.toNat
  let b := w.b.toNat
  let c := w.c.toNat
  let exts := ofBool (fieldExt sh.a a) + ofBool (fieldExt sh.b b) + ofBool (fieldExt sh.c c) + ofBool (fieldExt sh.d d)
  let scalarDst := match sh.d with
    | .dst _ => decide (0x80 ≤ d)
    | .dstS => true
    | _ => false
  fieldOk al sh.d d && fieldOk al sh.a a && fieldOk al sh.b b && fieldOk al sh.c c &&
  (if w.k = 0 then !w.kn else sh.pred) &&
  (sh.la || w.la == 0) &&
  exts == ofBool w.ext.isSome &&
  !(sh.uniform && scalarDst && (fieldPerLane sh.a a || fieldPerLane sh.b b || fieldPerLane sh.c c))

/-- Registers that a word reads. -/
def shapeReads (al : Allot) (sh : Shape) (w : Fields) : List RegId :=
  fieldReads sh.a w.a.toNat ++ fieldReads sh.b w.b.toNat ++ fieldReads sh.c w.c.toNat ++ fieldReads sh.d w.d.toNat ++
  (if sh.dRead then fieldWrites al sh.d w.d.toNat else []) ++ (if w.k = 0 then [] else [.k w.k.toNat])

/-- Registers that a word writes. -/
def shapeWrites (al : Allot) (sh : Shape) (w : Fields) : List RegId :=
  fieldWrites al sh.d w.d.toNat ++ fieldWrites al sh.c w.c.toNat

/-! ### Pairs (R95 to R98) -/

/-- What a half computes: the type of its sources and of its destination, and which sources it uses. -/
structure HalfShape where
  dt : Ty
  st : Ty
  usesA : Bool
  usesB : Bool
  readsD : Bool
deriving DecidableEq, Repr

/-- The pair table (R96); none for a reserved op7. -/
def halfShape (op7 : Nat) : Option HalfShape :=
  let two (t : Ty) : HalfShape := { dt := t, st := t, usesA := true, usesB := true, readsD := false }
  let one (dt st : Ty) : HalfShape := { dt := dt, st := st, usesA := true, usesB := false, readsD := false }
  let fmac (t : Ty) : HalfShape := { two t with readsD := true }
  ([{ two .b32 with usesA := false, usesB := false },
    two .i32, two .i32, two .i32, two .i32, two .i32, two .n32, two .n32,
    two .b32, two .b32, two .b32, two .b32, two .b32, two .b32, one .b32 .b32, one .b32 .b32,
    one .b32 .b32, one .b32 .b32, two .f32, two .f32, two .f32, fmac .f32, two .f32, two .f32,
    one .f32 .i32, one .i32 .f32, two .f16x2, two .f16x2, two .bf16x2, two .bf16x2, fmac .f16x2, two .i32] :
    List HalfShape)[op7]?

/-- The operands of a half (R97, R115). -/
def halfOk (al : Allot) (h : Half) : Bool :=
  match halfShape h.op7.toNat with
  | none => false
  | some sh =>
    let d := h.d.toNat
    let a := h.a.toNat
    let b := h.b.toNat
    let src (used : Bool) (x : Nat) := if used then srcOk al { codesAny with ext := false } sh.st x else x == 0xE0
    let perLane (x : Nat) := x < 0x80 || x == 0xC0
    if !sh.usesA then d == 0xE0 && a == 0xE0 && b == 0xE0
    else
      (if d < 0x80 then vecOk al 1 1 d else d < 0xC0) && src true a && src sh.usesB b &&
      !(0x80 ≤ d && (perLane a || (sh.usesB && perLane b)))

/-- Registers that a half reads. -/
def halfReads (h : Half) : List RegId :=
  match halfShape h.op7.toNat with
  | none => []
  | some sh =>
    if !sh.usesA then []
    else
      regsAt 1 h.a.toNat ++ (if sh.usesB then regsAt 1 h.b.toNat else []) ++
        (if sh.readsD then regsAt 1 h.d.toNat else [])

/-- Registers that a half writes. -/
def halfWrites (h : Half) : List RegId := if h.op7 = 0 then [] else regsAt 1 h.d.toNat

/-- Bank of a register (R98). -/
def bankOf : RegId → Nat
  | .v n => n % 4
  | .s _ => 4
  | .k _ => 5

/-- The list without repeats. -/
def dedup {α : Type} [DecidableEq α] : List α → List α
  | [] => []
  | x :: xs => if xs.contains x then dedup xs else x :: dedup xs

/-- The four pair rules (R98). -/
def pairRulesOk (a b : Half) : Bool :=
  let reads := dedup (halfReads a ++ halfReads b)
  let wa := halfWrites a
  let wb := halfWrites b
  !(wa.any fun x => wb.any fun y => bankOf x == bankOf y) &&
  ((List.range 5).all fun n => (reads.filter fun r => bankOf r == n).length ≤ 2) &&
  !(wa.any fun x => (halfReads b).contains x) &&
  !(a.op7 == 0x03 && b.op7 == 0x03)

end Sys2Proof.Machine
end

