-- ==== Sys2Proof/Machine/Shapes.lean ====
section
/-! DEFINITION. The shape of every instruction word, from its own entry: legal function fields, types and operands. -/

namespace Sys2Proof.Machine

/-- The integer types. -/
def tysInt : List Ty := [.i8, .i16, .i32, .i64, .n8, .n16, .n32, .n64]

/-- The signed integer types. -/
def tysSigned : List Ty := [.i8, .i16, .i32, .i64]

/-- b32 and b64. -/
def tysBits : List Ty := [.b32, .b64]

/-- f32, f16, bf16. -/
def tysFloat : List Ty := [.f32, .f16, .bf16]

/-- The types of FADD (R162). -/
def tysFAll : List Ty := [.f32, .f16, .bf16, .f16x2, .bf16x2]

/-- The numeric types of CVT (R173). -/
def tysNum : List Ty :=
  tysInt ++ [.f16, .bf16, .f32, .e4m3, .e5m2, .ds8, .ds6, .p6, .e8]

/-- Destination types of QNT (R174). -/
def tysQnt : List Ty := [.i8, .n8, .i16, .n16, .i32, .n32, .f16, .bf16, .e4m3, .e5m2, .ds8, .ds6, .p6]

/-- Source types of DQNT (R175). -/
def tysDqnt : List Ty := [.i8, .n8, .i16, .n16, .i32, .e4m3, .e5m2, .ds8, .ds6, .p6]

/-- Byte types of PKN (R176). -/
def tysPkn8 : List Ty := [.i8, .n8, .e4m3, .e5m2, .ds8, .ds6, .p6]

/-- Halfword types of PKN (R176). -/
def tysPkn16 : List Ty := [.i16, .n16, .f16, .bf16]

/-- The types of loads and stores (R296): all but ds6. -/
def tysMem : List Ty :=
  [.b32, .i8, .i16, .i32, .i64, .n8, .n16, .n32, .n64, .b64, .f16, .bf16, .f32, .f16x2, .bf16x2, .e4m3, .e5m2,
   .ds8, .p6, .e8]

/-- The types of the arithmetic reductions and atomics (R187, R306). -/
def tysArith : List Ty := [.i32, .n32, .i64, .n64, .f32]

/-- The shape, where the condition holds. -/
def shapeIf (c : Bool) (sh : Shape) : Option Shape := if c then some sh else none

/-- Bits `hi` to `lo` of a function field. -/
def fb (w : Fields) (hi lo : Nat) : Nat := bits w.f.toNat hi lo

/-- The type of the arithmetic layout's F[10:6], where it is one of the listed (R88 to R90). -/
def tyIn (w : Fields) (tys : List Ty) : Option Ty :=
  match tyOf (fb w 10 6) with
  | some t => if tys.contains t then some t else none
  | none => none

/-- The arithmetic layout (R88, R90): the type, the rounding codes up to `rnd`, SAT, and the mask of N/A bits. -/
def arith (w : Fields) (tys : List Ty) (rnd : Nat) (sat : Bool) (na : Nat) : Option Ty :=
  if fb w 13 11 ≤ rnd ∧ (sat ∨ fb w 5 5 = 0) ∧ fb w 4 0 &&& na = fb w 4 0 then tyIn w tys else none

/-- D, A of the type. -/
def shape2 (t : Ty) : Shape := { d := .dst t, a := .src codesAny t }

/-- D, A, B of the type. -/
def shape3 (t : Ty) : Shape := { shape2 t with b := .src codesAny t }

/-- D, A, B, C of the type. -/
def shape4 (t : Ty) : Shape := { shape3 t with c := .src codesAny t }

/-- A shift: B is an n32 count (R149). -/
def shapeShift (w : Fields) : Option Shape :=
  (arith w tysBits 0 false 0).map fun t => { shape2 t with b := .src codesAny .n32 }

/-- The predicate layout with sub-operation `sub` (R156). -/
def predSub (w : Fields) (sub : Nat) (sh : Shape) : Option Shape := shapeIf (w.f.toNat = sub) sh

/-- The conversion layout's source type (R172). -/
def stIn (w : Fields) (tys : List Ty) : Option Ty :=
  match tyOf (fb w 4 0) with
  | some t => if tys.contains t then some t else none
  | none => none

/-- SAT in a conversion: integer to integer, or to E4M3 and E5M2 (R173). -/
def satOk (w : Fields) (dt st : Ty) : Bool :=
  fb w 5 5 == 0 || (tyIsInt dt && tyIsInt st) || dt == .e4m3 || dt == .e5m2

/-- The cross-lane layout with sub-operation `sub`, no rounding (R182). -/
def xlane (w : Fields) (tys : List Ty) (sub : Nat) : Option Ty :=
  if fb w 13 11 = 0 ∧ fb w 5 0 = sub then tyIn w tys else none

/-- The cross-lane layout of a reduction: op in SUB[2:0] (R187, R188). -/
def xreduce (w : Fields) (excl : Bool) : Option Ty :=
  let op := fb w 2 0
  if fb w 5 4 = 0 ∧ (excl ∨ fb w 3 3 = 0) ∧ op ≤ 5 then
    match tyIn w (if op ≤ 2 then tysArith else tysBits) with
    | some t => if fb w 13 11 ≤ (if op = 0 ∧ t = .f32 then 5 else 0) then some t else none
    | none => none
  else none

/-- The memory layout of a load or store (R297). -/
def memTy (w : Fields) (hint index : Bool) : Option Ty :=
  if fb w 13 11 = 0 ∧ (hint ∨ fb w 5 4 = 0) ∧ fb w 3 0 ≤ (if index then 3 else 0) then tyIn w tysMem else none

/-- The memory layout of ATOM and RED (R304, R306). -/
def atomTy (w : Fields) (top : Nat) : Option Ty :=
  let op := fb w 3 0
  if 1 ≤ fb w 13 11 ∧ fb w 13 11 ≤ 4 ∧ op ≤ top then tyIn w (if op ≤ 2 then tysArith else tysBits) else none

/-- A commit level in F[13:11] with F[10:0] among the bits of `m` (R212). -/
def levelIn (w : Fields) (m : Nat) : Bool :=
  1 ≤ fb w 13 11 && fb w 13 11 ≤ 4 && fb w 10 0 &&& m == fb w 10 0

/-- The system register identifiers (R121); every other identifier is reserved. -/
def sysIdOk (id : Nat) : Bool :=
  id ≤ 5 || (0x10 ≤ id && id ≤ 0x31) || id == 0x40 || id == 0x41 || (0x50 ≤ id && id ≤ 0x59) ||
  (0x60 ≤ id && id ≤ 0x62) || id == 0x70 || id == 0x80

/-- No predicate, no operands. -/
def shapeBare : Shape := { pred := false }

/-- The control and system words 0x00 to 0x0E (R195). -/
def shapeControl (i : Instr) : Option Shape :=
  match i with
  | .nop w | .yield w => shapeIf (w.f = 0) shapeBare
  | .bra _ => some { c := .num 0 255 }
  | .bru _ => some shapeBare
  | .brx _ => some { pred := false, a := .src { codesSIX with inl := false } .b64 }
  | .call w => some { pred := false, d := .dstS, a := if w.a = 0xE0 then .unused else .srcS }
  | .retn w => shapeIf (w.f = 0) { pred := false, a := .srcS }
  | .exit w => shapeIf (w.f = 0) {}
  | .trap _ => some {}
  | .tret w => shapeIf (w.f = 0) shapeBare
  | .tretSkip w => shapeIf (w.f = 1) shapeBare
  | .sleep w => shapeIf (w.f = 0) { pred := false, a := .src codesSIX .n32 }
  | .cyc w => shapeIf (w.f = 0) { pred := false, d := .dstS }
  | .srrd w => shapeIf (sysIdOk w.f.toNat) { pred := false, d := .dstS }
  | .srwr w => shapeIf (sysIdOk w.f.toNat) { pred := false, a := .src codesSIX .b64 }
  | _ => none

/-- Integer arithmetic, shifts, logic, moves, predicates and bits, 0x10 to 0x3F (R144 to R161). -/
def shapeInteger (i : Instr) : Option Shape :=
  match i with
  | .iadd w | .isub w | .imul w => (arith w tysInt 0 true 0x1E).map shape3
  | .imulh w | .idiv w | .irem w =>
    (arith w tysInt 0 false 0).map fun t => { shape3 t with la := match i with | .imulh _ => false | _ => true }
  | .imad w => (arith w tysInt 0 true 0x1F).map shape4
  | .imadw w => (arith w [.i32, .n32] 0 true 0).map fun t =>
      { shape3 t with d := .dst .b64, c := .src codesReg (if t = .i32 then .i64 else .n64) }
  | .imin w | .imax w => (arith w tysInt 0 false 0x1E).map shape3
  | .iabs w | .ineg w => (arith w tysSigned 0 true 0).map shape2
  | .isad w => (arith w tysInt 0 true 0).map shape4
  | .idot4 w => (arith w [.i8, .n8] 0 true 0).map fun t =>
      let t32 : Ty := if t = .i8 then .i32 else .n32
      { d := .dst t32, a := .src codesAny .b32, b := .src codesAny .b32, c := .src codesAny t32 }
  | .icmp w => (arith w (tysInt ++ tysBits) 5 false 0x1E).bind fun t =>
      shapeIf (tyIsInt t || fb w 13 11 ≤ 1) { shape3 t with d := .kdst }
  | .shl w | .shr w | .sar w | .rot w => shapeShift w
  | .and w | .or w | .xor w => (arith w tysBits 0 false 0).map shape3
  | .not w | .mov w => (arith w tysBits 0 false 0).map shape2
  | .lop3 w => shapeIf (fb w 4 0 = 0) (shape4 (if fb w 5 5 = 1 then .b64 else .b32))
  | .lea w =>
    if fb w 13 11 = 0 ∧ fb w 5 3 = 0 ∧ fb w 2 0 ≤ 4 then
      (tyIn w [.i32, .n32, .i64, .n64]).map fun t =>
        { d := .dst .b64, a := .src codesAny .b64, b := .src codesAny t }
    else none
  | .sel w => (arith w tysBits 0 false 0).map fun t =>
      { shape3 t with d := .dstV t, c := .ksrc 1 }
  | .movi w => (arith w [.b32, .i32, .n32, .b64, .i64, .n64] 0 false 0).map fun t =>
      { d := .dst t, b := .raw, c := .raw }
  | .iadds w => (arith w tysInt 0 false 0).map shape3
  | .clamp w => (arith w tysInt 0 false 0).map shape4
  | .kop w => shapeIf (w.f.toNat ≤ 7) { d := .kdst, a := .ksrc 0, b := .ksrc 0 }
  | .kmov w => predSub w 0 { d := .kdst, a := .ksrc 0 }
  | .kmovFromw w => predSub w 1 { pred := false, d := .kdst, a := .srcS, b := .src codesSIX .n32 }
  | .kmovTow w => predSub w 2 { pred := false, d := .dstS, a := .ksrc 0, b := .src codesSIX .n32 }
  | .kmovFromv w => predSub w 3 { d := .kdst, a := .srcV .b32 }
  | .kmovTov w => predSub w 4 { d := .dstV .b32, a := .ksrc 0 }
  | .ksetAll w => predSub w 0 { d := .kdst }
  | .ksetNone w => predSub w 1 { d := .kdst }
  | .ksetBelow w => predSub w 2 { d := .kdst, a := .src codesUniform .n32 }
  | .kcnt w => predSub w 0 { d := .dstS, a := .ksrc 0 }
  | .kfindFirst w => predSub w 0 { d := .dstS, a := .ksrc 0 }
  | .kfindLast w => predSub w 1 { d := .dstS, a := .ksrc 0 }
  | .popc w | .clz w | .ctz w | .brev w => (arith w tysBits 0 false 0).map shape2
  | .fns w => shapeShift w
  | .bfx w => (arith w [.b32, .b64, .i32, .i64] 0 false 0).map fun t =>
      { shape2 t with b := .src codesAny .n32, c := .src codesAny .n32 }
  | .bfi w => (arith w tysBits 0 false 0).map fun t => { shape3 t with c := .src codesAny .n32 }
  | .bmsk w => (arith w tysBits 0 false 0).map fun t =>
      { shape2 t with b := .src codesAny .n32 }
  | _ => none

/-- Floating point and conversions, 0x40 to 0x66 (R162 to R177, R472). -/
def shapeFloat (i : Instr) : Option Shape :=
  match i with
  | .fadd w | .fsub w | .fmul w => (arith w tysFAll 5 false 0x1E).map shape3
  | .ffma w => (arith w tysFAll 5 false 0x1F).map shape4
  | .fmin w | .fmax w => (arith w tysFAll 0 false 0x1E).map shape3
  | .fcmp w => (arith w tysFloat 7 false 0x1E).map fun t => { shape3 t with d := .kdst }
  | .fclass w => (arith w tysFloat 0 false 0).map fun t => { shape2 t with d := .dst .n32 }
  | .frnd w => (arith w tysFloat 5 false 0).map shape2
  | .fdiv w => (arith w tysFloat 5 false 0x1E).map fun t => { shape3 t with la := true }
  | .fsqrt w | .frcp w | .frsq w | .fexp2 w | .flog2 w | .fsinpi w | .fcospi w =>
    (arith w tysFloat 5 false 0x18).map fun t => { shape2 t with la := true }
  | .fscale w => (arith w tysFloat 5 false 0).map fun t => { shape2 t with b := .src codesAny .i32 }
  | .fgetx w => (arith w tysFloat 0 false 0).map fun t => { shape2 t with d := .dst .i32 }
  | .fgetm w => (arith w tysFloat 0 false 0).map shape2
  | .fdot2 w => (arith w [.f16x2, .bf16x2] 5 false 0x1F).map fun t =>
      { d := .dst .f32, a := .src codesAny t, b := .src codesAny t, c := .src codesAny .f32 }
  | .sumc w => (arith w [.f32] 0 false 0x18).map fun t => { d := .dst .b64, a := .src codesAny t, dRead := true }
  | .cvt w => (tyIn w tysNum).bind fun dt => (stIn w tysNum).bind fun st =>
      shapeIf (fb w 13 11 ≤ 5 && dt != st && satOk w dt st) { d := .dst dt, a := .src codesAny st }
  | .qnt w => (tyIn w tysQnt).bind fun dt => (stIn w tysFloat).bind fun st =>
      shapeIf (fb w 13 11 ≤ 5 && satOk w dt st) { d := .dst dt, a := .src codesAny st, b := .src codesAny st }
  | .dqnt w => (tyIn w tysFloat).bind fun dt => (stIn w tysDqnt).bind fun st =>
      shapeIf (fb w 13 11 ≤ 5 && fb w 5 5 == 0) { d := .dst dt, a := .src codesAny st, b := .src codesAny .f32 }
  | .pkn w => (tyIn w (tysPkn8 ++ tysPkn16)).bind fun dt => (stIn w [.f32]).bind fun st =>
      shapeIf (fb w 13 11 ≤ 5 && satOk w dt st)
        { d := .dst .b32, a := .src codesAny st, b := .src codesAny st,
          c := .num 0xE0 (if tysPkn8.contains dt then 0xE1 else 0xE0), dRead := true }
  | .upkn w => (tyIn w [.f32]).bind fun _ => (stIn w (tysPkn8 ++ [.e8] ++ tysPkn16)).bind fun st =>
      shapeIf (fb w 13 11 ≤ 5 && fb w 5 5 == 0)
        { d := .dst .f32, a := .src codesAny .b32,
          c := .num 0xE0 (if tysPkn16.contains st then 0xE1 else 0xE3) }
  | _ => none

/-- RND and the cross-lane group, 0x67 to 0x6F (R178, R182 to R191). -/
def shapeCross (i : Instr) : Option Shape :=
  match i with
  | .rnd w => shapeIf (w.f = 0) { d := .dstRun 4 4 }
  | .shfl w => (if fb w 3 0 ≤ 3 then xlane w tysBits (fb w 3 0) else none).map fun t =>
      { d := .dstV t, a := .src codesAny t, b := .src codesAny .n32 }
  | .bcst w => (xlane w tysBits 0).map fun t => { d := .dstV t, a := .src codesAny t, b := .src codesUniform .n32 }
  | .bcstFirst w => (xlane w tysBits 1).map fun t => { d := .dstV t, a := .src codesAny t }
  | .vote w => (if fb w 3 0 ≤ 2 then xlane w tysBits (fb w 3 0) else none).map fun t =>
      { d := .kdst, a := .src codesAny t }
  | .redx w => (xreduce w false).map fun t => { d := .dstV t, a := .src codesAny t }
  | .scanx w => (xreduce w true).map fun t => { d := .dstV t, a := .src codesAny t }
  | .matchEq w => (xlane w tysBits 0).map fun t => { d := .dstMatch, a := .src codesAny t }
  | .redw w => (xreduce w false).map fun t =>
      { d := .dstS, a := .src codesAny t, la := true, uniform := false }
  | .elect w => shapeIf (w.f = 0) { d := .dstS, uniform := false }
  | .electK w => shapeIf (w.f = 1) { d := .kdst }
  | _ => none

/-- Loads, stores, atomics, spans, copies, windows, barriers, SPAWN and TWIN (R214 to R231, R294 to R329). -/
def shapeMemory (i : Instr) : Option Shape :=
  let mem (d : FieldKind) : Shape := { d := d, a := .base, b := .index, c := .offset, uniform := false }
  let span (w : Fields) (chk : Nat) : Option Shape :=
    shapeIf (levelIn w 1024 && fb w 10 10 == chk) { pred := false, b := .raw, c := .raw }
  match i with
  | .ld w => (memTy w true true).map fun t => { mem (.dstV t) with la := true }
  | .st w => (memTy w true true).map fun t => mem (.data t)
  | .ldu w => (memTy w true false).map fun _ => { mem .dstS with b := .unused, la := true }
  | .stu w => (memTy w true false).map fun _ => { mem .srcS with b := .unused }
  | .lds w => (memTy w false true).map fun t => { mem (.dstV t) with la := true }
  | .sts w => (memTy w false true).map fun t => mem (.data t)
  | .prf w => (memTy w true true).map fun _ => mem .unused
  | .atom w => (atomTy w 6).map fun t => { mem (.dstV t) with c := .src codesData t, la := true }
  | .red w => (atomTy w 5).map fun t => { mem .unused with c := .src codesData t }
  | .xbeg w => span w 0
  | .xbegChk w => span w 1
  | .cmt w => shapeIf (levelIn w 1024) { pred := false, d := if w.d = 0 then .num 0 0 else .kdst }
  | .abt w | .pul w => shapeIf (levelIn w 0) shapeBare
  | .xstat w => shapeIf (levelIn w 0) { pred := false, d := .dstS, la := true }
  | .cpy w => shapeIf (fb w 10 4 = 0 && fb w 3 2 ≤ 2 && fb w 1 0 ≤ 1)
      { pred := false, d := .srcS, a := .srcS, b := .src codesSIX .n32 }
  | .cpyt w => shapeIf (fb w 10 4 = 0 && ((fb w 3 2 != 0 && fb w 1 0 == 0) || (fb w 3 2 == 0 && fb w 1 0 == 1)))
      { pred := false, d := .srcS, a := .srcS, b := .srcSRun 3 }
  | .cpyx w => shapeIf (fb w 10 4 = 0 && fb w 3 2 ≥ 1 && fb w 1 0 = 0)
      { pred := false, d := .srcS, a := .srcS, b := .src codesUniform .n32 }
  | .waitk w => shapeIf (fb w 10 0 = 0) shapeBare
  | .wprm w => shapeIf (fb w 10 0 = 0) shapeBare
  | .wprmRead w => shapeIf (fb w 10 0 = 1) { pred := false, d := .dstS }
  | .lazy w => shapeIf (w.f = 0) { pred := false, d := .num 0 15, a := .srcS, b := .srcSRun 3, c := .srcS }
  | .lazyc w => shapeIf (w.f = 0) { pred := false, d := .num 0 15 }
  | .barb w | .barc w => shapeIf (w.f = 0) { pred := false, a := .src codesUniform .n32, b := .src codesUniform .n32 }
  | .spawn w => some { pred := false, d := if w.d = 0xE0 then .unused else .dstS,
                       a := .src codesUniform .n32, b := .opt codesUniform .b64 }
  | .twinCkpt w => shapeIf (w.f = 0) shapeBare
  | .twinCmp w => shapeIf (w.f = 1) shapeBare
  | .detf w => shapeIf (w.f = 0) shapeBare
  | _ => none

/-- PIN, UNPIN and the counter instructions (R403, R419). -/
def shapeCounter (i : Instr) : Option Shape :=
  let u : FieldKind := .src codesSIX .n64
  match i with
  | .pin w => shapeIf (w.f = 0x1800) { pred := false, d := .dstS, a := .srcS, b := .src codesUniform .n32 }
  | .unpin w => shapeIf (w.f = 0x1800) { pred := false, a := .src codesUniform .n32 }
  | .aarm w => shapeIf (fb w 13 2 = 0)
      { pred := false, d := if w.d = 0xE0 then .unused else .srcS, a := .srcS, b := u, c := u }
  | .aexp w | .aadd w => shapeIf (w.f = 0) { pred := false, a := .srcS, b := u }
  | .await w => shapeIf (w.f = 0) { pred := false, d := .dstS, a := .srcS, b := u, c := u }
  | .aread w => shapeIf (fb w 13 2 = 0) { pred := false, d := .dstS, a := .srcS }
  | .adis w => shapeIf (w.f = 0) { pred := false, a := .srcS }
  | _ => none

/-- A lane operand of the matrix group: a vector register, LANE, a scalar, an inline code or 0xFF (R347, R350). -/
def codesRow : Codes := { codesSIX with vec := true, lane := true }

/-- A type code that is one of the listed. -/
def codeIn (code : Nat) (tys : List Ty) : Bool :=
  match tyOf code with
  | some t => tys.contains t
  | none => false

/-- The matrix instructions, 0x90 to 0x9E (R342 to R364). -/
def shapeMatrix (i : Instr) : Option Shape :=
  let quarter (w : Fields) (tys : List Ty) : Option Shape :=
    shapeIf (fb w 3 0 = 0 && codeIn (fb w 9 5) tys)
      { d := .num 0 63, a := .num 0 15, b := .src codesRow .n32, c := .src codesSIX .n32, la := true, uniform := false }
  let obTy (w : Fields) : Option Ty :=
    if fb w 13 11 = 0 ∧ fb w 5 0 = 0 then tyIn w (tysMem.filter fun t => tyBits t ≤ 32) else none
  match i with
  | .obr w => shapeIf (w.f = 0) { pred := false, d := .num 0 15, a := .srcS, b := .srcS }
  | .obf w => shapeIf (w.f = 0) { pred := false, d := .num 0 15 }
  | .obw w => (obTy w).map fun t => { a := .num 0 15, b := .src codesRow .n32, d := .data t, uniform := false }
  | .obl w => (obTy w).map fun t => { a := .num 0 15, b := .src codesRow .n32, d := .dstV t }
  | .stb w => shapeIf (fb w 13 11 = 0 && fb w 5 0 = 0 && codeIn (fb w 10 6) [.ds8, .i8, .e4m3, .e5m2, .bf16, .f16])
      { pred := false, a := .srcS, b := .src codesSIX .n32 }
  | .mmq w => quarter w [.ds8, .i8, .e4m3, .e5m2, .bf16, .f16]
  | .mmqs w => quarter w [.ds8, .i8, .e4m3, .e5m2]
  | .mmqp w => quarter w [.p6]
  | .acz w => shapeIf (w.f = 0) { d := .num 0 63 }
  | .acs w => shapeIf (w.f = 0) { d := .num 0 63, a := .src { codesSIX with vec := true } .i32, uniform := false }
  | .acr w => shapeIf (fb w 13 3 = 0 && fb w 2 0 ≤ 5)
      { d := .dstRun (2 ^ fb w 2 0) 1, a := .num 0 63, c := .src codesUniform .n32, la := true }
  | .drn w => shapeIf (fb w 13 11 = 0 && fb w 4 0 = 0 && codeIn (fb w 10 6) [.f32, .f16, .bf16, .e4m3, .e5m2, .ds8] &&
        (fb w 5 5 = 0 || codeIn (fb w 10 6) [.e4m3, .e5m2]))
      { d := .srcS, a := .num 0 63, b := .src codesUniform .n32, la := true }
  | .drns w => shapeIf (fb w 10 0 = 0x300) { a := .num 0 63, b := .srcS }
  | .mmsk w => shapeIf (w.f = 0) { pred := false, a := .srcS }
  | .swr w => shapeIf (fb w 10 0 = 0x300) { d := .num 0 63, a := .srcS }
  | _ => none

/-- A lane operand of the engines: a vector register, LANE, PART, a scalar, an inline code or 0xFF (R455). -/
def codesEngine : Codes := { codesAny with special := false }

/-- A particle handle: a vector, PART, a scalar or 0xFF (R514). -/
def codesHandle : Codes := { codesEngine with lane := false, inl := false }

/-- PEXP, MAXE and the engine and particle instructions, 0xB0 to 0xC4 (R455, R459, R465, R468, R472, R514). -/
def shapeEngine (i : Instr) : Option Shape :=
  let sid : FieldKind := .src codesEngine .n32
  let handle : FieldKind := .src codesHandle .n32
  match i with
  | .pexp w => (arith w [.f32] 0 false 0).map fun t =>
      { d := .dst .b32, a := .src codesAny t, b := .src codesAny .i32 }
  | .maxe w => (arith w [.f32] 0 false 0).map fun t =>
      { d := .dst .i32, a := .src codesAny t, b := .src codesAny .i32 }
  | .kvt w => shapeIf (w.f = 0) { d := .dstV .b64, a := sid, b := sid, c := .kdst, la := true }
  | .kvaNew w => shapeIf (w.f = 0)
      { d := .dstV .n32, b := .src { codesEngine with vec := false, lane := false } .n32, la := true }
  | .kvaApp w => shapeIf (w.f = 1) { d := .dstV .n32, a := sid, b := sid, la := true }
  | .kvc w => shapeIf (w.f = 0) { d := .dstV .n32, a := sid, la := true }
  | .kvf w => shapeIf (w.f = 0) { a := sid, la := true }
  | .wnw w => shapeIf (fb w 10 0 = 0) { pred := false, a := .srcS, la := true }
  | .gmk w => shapeIf (fb w 10 0 = 0)
      { d := .srcS, a := .srcS, b := .srcV .b64, c := .src codesUniform .n32, la := true }
  | .gstp w => shapeIf (fb w 13 1 = 0)
      { d := .dstV .b64, a := .srcS, b := .srcV .b64, c := .src codesAny .n32, la := true }
  | .smpl w => shapeIf (fb w 13 2 = 0)
      { d := .dstV .b64, a := .srcS, c := if fb w 1 1 = 1 then handle else .unused, la := true }
  | .pwadd w | .pwset w => shapeIf (w.f = 0)
      { a := handle, b := .src { codesSIX with vec := true } .f32, la := true }
  | .rsb w => shapeIf (w.f = 0) { pred := false, la := true }
  | .popr w => shapeIf (w.f.toNat ≤ 13)
      { pred := false, d := .dstS, a := .opt { codesHandle with vec := false } .n32, la := true }
  | .pkill w => shapeIf (w.f = 0) { a := handle, la := true }
  | _ => none

/-- The shape of an instruction word; none for a word whose function field is not legal, and for what is no word. -/
def shapeOf (i : Instr) : Option Shape :=
  (shapeControl i).orElse fun _ => (shapeInteger i).orElse fun _ => (shapeFloat i).orElse fun _ =>
  (shapeCross i).orElse fun _ => (shapeMemory i).orElse fun _ => (shapeCounter i).orElse fun _ =>
  (shapeMatrix i).orElse fun _ => shapeEngine i

end Sys2Proof.Machine
end

