-- ==== Sys2Proof/Machine/Opcodes.lean ====
section
/-! DEFINITION. The opcode map (R106, R107) and the clause classes (R102). -/

namespace Sys2Proof.Machine

/-- The major opcode and the fields of an instruction word (R106). -/
def opcodeOf (i : Instr) : Option (Nat × Fields) :=
  match i with
  | .nop w => some (0x00, w)
  | .bra w => some (0x01, w)
  | .bru w => some (0x02, w)
  | .brx w => some (0x03, w)
  | .call w => some (0x04, w)
  | .retn w => some (0x05, w)
  | .exit w => some (0x06, w)
  | .trap w => some (0x07, w)
  | .tret w => some (0x08, w)
  | .tretSkip w => some (0x08, w)
  | .yield w => some (0x09, w)
  | .sleep w => some (0x0A, w)
  | .cyc w => some (0x0C, w)
  | .srrd w => some (0x0D, w)
  | .srwr w => some (0x0E, w)
  | .iadd w => some (0x10, w)
  | .isub w => some (0x11, w)
  | .imul w => some (0x12, w)
  | .imulh w => some (0x13, w)
  | .imad w => some (0x14, w)
  | .imadw w => some (0x15, w)
  | .idiv w => some (0x16, w)
  | .irem w => some (0x17, w)
  | .imin w => some (0x18, w)
  | .imax w => some (0x19, w)
  | .iabs w => some (0x1A, w)
  | .ineg w => some (0x1B, w)
  | .isad w => some (0x1C, w)
  | .idot4 w => some (0x1D, w)
  | .icmp w => some (0x1E, w)
  | .shl w => some (0x20, w)
  | .shr w => some (0x21, w)
  | .sar w => some (0x22, w)
  | .rot w => some (0x23, w)
  | .and w => some (0x24, w)
  | .or w => some (0x25, w)
  | .xor w => some (0x26, w)
  | .not w => some (0x27, w)
  | .lop3 w => some (0x28, w)
  | .lea w => some (0x29, w)
  | .sel w => some (0x2A, w)
  | .mov w => some (0x2B, w)
  | .movi w => some (0x2C, w)
  | .iadds w => some (0x2D, w)
  | .clamp w => some (0x2E, w)
  | .kop w => some (0x30, w)
  | .kmov w => some (0x31, w)
  | .kmovFromw w => some (0x31, w)
  | .kmovTow w => some (0x31, w)
  | .kmovFromv w => some (0x31, w)
  | .kmovTov w => some (0x31, w)
  | .ksetAll w => some (0x32, w)
  | .ksetNone w => some (0x32, w)
  | .ksetBelow w => some (0x32, w)
  | .kcnt w => some (0x33, w)
  | .kfindFirst w => some (0x34, w)
  | .kfindLast w => some (0x34, w)
  | .popc w => some (0x38, w)
  | .clz w => some (0x39, w)
  | .ctz w => some (0x3A, w)
  | .fns w => some (0x3B, w)
  | .brev w => some (0x3C, w)
  | .bfx w => some (0x3D, w)
  | .bfi w => some (0x3E, w)
  | .bmsk w => some (0x3F, w)
  | .fadd w => some (0x40, w)
  | .fsub w => some (0x41, w)
  | .fmul w => some (0x42, w)
  | .ffma w => some (0x43, w)
  | .fmin w => some (0x44, w)
  | .fmax w => some (0x45, w)
  | .fcmp w => some (0x46, w)
  | .fclass w => some (0x47, w)
  | .frnd w => some (0x48, w)
  | .fdiv w => some (0x49, w)
  | .fsqrt w => some (0x4A, w)
  | .frcp w => some (0x4B, w)
  | .frsq w => some (0x4C, w)
  | .fexp2 w => some (0x4D, w)
  | .flog2 w => some (0x4E, w)
  | .fsinpi w => some (0x4F, w)
  | .fcospi w => some (0x50, w)
  | .fscale w => some (0x51, w)
  | .fgetx w => some (0x52, w)
  | .fgetm w => some (0x53, w)
  | .fdot2 w => some (0x54, w)
  | .sumc w => some (0x55, w)
  | .cvt w => some (0x60, w)
  | .qnt w => some (0x61, w)
  | .dqnt w => some (0x62, w)
  | .pkn w => some (0x63, w)
  | .upkn w => some (0x64, w)
  | .pexp w => some (0x65, w)
  | .maxe w => some (0x66, w)
  | .rnd w => some (0x67, w)
  | .shfl w => some (0x68, w)
  | .bcst w => some (0x69, w)
  | .bcstFirst w => some (0x69, w)
  | .vote w => some (0x6A, w)
  | .redx w => some (0x6B, w)
  | .scanx w => some (0x6C, w)
  | .matchEq w => some (0x6D, w)
  | .redw w => some (0x6E, w)
  | .elect w => some (0x6F, w)
  | .electK w => some (0x6F, w)
  | .ld w => some (0x70, w)
  | .st w => some (0x71, w)
  | .ldu w => some (0x72, w)
  | .stu w => some (0x73, w)
  | .lds w => some (0x74, w)
  | .sts w => some (0x75, w)
  | .atom w => some (0x76, w)
  | .red w => some (0x77, w)
  | .prf w => some (0x78, w)
  | .pin w => some (0x79, w)
  | .unpin w => some (0x7A, w)
  | .xbeg w => some (0x7B, w)
  | .xbegChk w => some (0x7B, w)
  | .cmt w => some (0x7C, w)
  | .abt w => some (0x7D, w)
  | .pul w => some (0x7E, w)
  | .xstat w => some (0x7F, w)
  | .cpy w => some (0x80, w)
  | .cpyt w => some (0x81, w)
  | .cpyx w => some (0x82, w)
  | .waitk w => some (0x83, w)
  | .wprm w => some (0x84, w)
  | .wprmRead w => some (0x84, w)
  | .lazy w => some (0x85, w)
  | .lazyc w => some (0x86, w)
  | .aarm w => some (0x88, w)
  | .aexp w => some (0x89, w)
  | .aadd w => some (0x8A, w)
  | .await w => some (0x8B, w)
  | .aread w => some (0x8C, w)
  | .adis w => some (0x8D, w)
  | .obr w => some (0x90, w)
  | .obf w => some (0x91, w)
  | .obw w => some (0x92, w)
  | .obl w => some (0x93, w)
  | .stb w => some (0x94, w)
  | .mmq w => some (0x95, w)
  | .mmqs w => some (0x96, w)
  | .mmqp w => some (0x97, w)
  | .acz w => some (0x98, w)
  | .acr w => some (0x99, w)
  | .drn w => some (0x9A, w)
  | .drns w => some (0x9B, w)
  | .mmsk w => some (0x9C, w)
  | .acs w => some (0x9D, w)
  | .swr w => some (0x9E, w)
  | .barb w => some (0xA0, w)
  | .barc w => some (0xA1, w)
  | .spawn w => some (0xA2, w)
  | .twinCkpt w => some (0xA3, w)
  | .twinCmp w => some (0xA3, w)
  | .detf w => some (0xA4, w)
  | .kvt w => some (0xB0, w)
  | .kvaNew w => some (0xB1, w)
  | .kvaApp w => some (0xB1, w)
  | .kvc w => some (0xB2, w)
  | .kvf w => some (0xB3, w)
  | .wnw w => some (0xB4, w)
  | .gmk w => some (0xB5, w)
  | .gstp w => some (0xB6, w)
  | .smpl w => some (0xB7, w)
  | .pwadd w => some (0xC0, w)
  | .pwset w => some (0xC1, w)
  | .rsb w => some (0xC2, w)
  | .popr w => some (0xC3, w)
  | .pkill w => some (0xC4, w)
  | .dieReset _ => none
  | .secureBoot _ => none
  | .attestationRequest _ => none
  | .issueCycle _ => none
  | .clauseStart _ _ => none
  | .heldLanesDetach _ _ => none
  | .divergeRetry _ _ => none
  | .resultLand _ _ => none
  | .abortRedirect _ => none
  | .waveEnd _ => none
  | .sleepExpire _ _ => none
  | .copyComplete _ _ => none
  | .copyPieceFault _ _ => none
  | .lazyCopyComplete _ _ => none
  | .twinCompare _ => none
  | .mmqCollectorClose _ => none
  | .matrixPassStart _ => none
  | .swathContributionAccept _ => none
  | .swathRoundComplete _ _ => none
  | .peerSwathResult _ _ _ => none
  | .engineRequestComplete _ => none
  | .uLineEvict _ _ => none
  | .regionPhaseComplete _ => none
  | .awaitLimitExpire _ _ => none
  | .tlbMissWalk _ => none
  | .faultAnswer _ _ _ => none
  | .invalidation _ _ _ => none
  | .scrubStep _ _ _ _ => none
  | .cancfgWrite _ _ _ => none
  | .scrubperWrite _ _ _ => none
  | .errclr _ _ _ => none
  | .regionWindowWrite _ _ _ _ => none
  | .poolWindowWrite _ _ _ _ => none
  | .particleWindowWrite _ _ _ _ => none
  | .populationWindowWrite _ _ _ => none
  | .popfixWrite _ _ => none
  | .registerWrite _ _ _ => none
  | .ctxfnWrite _ _ _ => none
  | .contextCreate _ _ _ => none
  | .contextTeardown _ _ _ => none
  | .contextDescriptorWrite _ _ _ _ => none
  | .evheadWrite _ _ _ => none
  | .queueConfigWrite _ _ _ _ _ => none
  | .qtailWrite _ _ _ _ => none
  | .launchStart _ => none
  | .crewOffer _ _ => none
  | .launchComplete _ => none
  | .slotwr _ _ _ _ _ => none
  | .gangStart _ _ => none
  | .preempt _ _ => none
  | .preemptSaveComplete _ _ => none
  | .launchKill _ => none
  | .detGroupApply _ => none
  | .roundOpen _ => none
  | .particleArrival _ => none
  | .cloneRetry _ => none
  | .borrowGrant _ _ => none
  | .hwinWrite _ _ => none
  | .hostWindowRead _ _ _ => none
  | .hostWindowWrite _ _ _ => none
  | .hostAtomic _ _ _ _ _ => none
  | .hostCasRequest _ _ => none
  | .apertureWrite _ _ _ _ => none
  | .peerRequest _ _ => none
  | .peerCommitUnit _ _ _ => none
  | .peerAck _ _ _ => none
  | .peerPortDown _ => none
  | .peerstatWrite _ _ _ => none
  | .pairWord _ _ => none
  | .peerLinkUp _ _ => none
  | .peerFlitReplay _ => none
  | .hostFunctionReset _ => none
  | .dispatchHartReload _ _ => none
  | .policyConfigurationWrite _ => none

/-- The instruction of an opcode, by the sub-operation bits of its entry; none for a reserved opcode (R107), and for a
sub-operation that the entry does not define. -/
def instrOf (op : Nat) (w : Fields) : Option Instr :=
  match op with
  | 0x00 => some (.nop w)
  | 0x01 => some (.bra w)
  | 0x02 => some (.bru w)
  | 0x03 => some (.brx w)
  | 0x04 => some (.call w)
  | 0x05 => some (.retn w)
  | 0x06 => some (.exit w)
  | 0x07 => some (.trap w)
  | 0x08 => if fb w 0 0 = 1 then some (.tretSkip w) else some (.tret w)
  | 0x09 => some (.yield w)
  | 0x0A => some (.sleep w)
  | 0x0C => some (.cyc w)
  | 0x0D => some (.srrd w)
  | 0x0E => some (.srwr w)
  | 0x10 => some (.iadd w)
  | 0x11 => some (.isub w)
  | 0x12 => some (.imul w)
  | 0x13 => some (.imulh w)
  | 0x14 => some (.imad w)
  | 0x15 => some (.imadw w)
  | 0x16 => some (.idiv w)
  | 0x17 => some (.irem w)
  | 0x18 => some (.imin w)
  | 0x19 => some (.imax w)
  | 0x1A => some (.iabs w)
  | 0x1B => some (.ineg w)
  | 0x1C => some (.isad w)
  | 0x1D => some (.idot4 w)
  | 0x1E => some (.icmp w)
  | 0x20 => some (.shl w)
  | 0x21 => some (.shr w)
  | 0x22 => some (.sar w)
  | 0x23 => some (.rot w)
  | 0x24 => some (.and w)
  | 0x25 => some (.or w)
  | 0x26 => some (.xor w)
  | 0x27 => some (.not w)
  | 0x28 => some (.lop3 w)
  | 0x29 => some (.lea w)
  | 0x2A => some (.sel w)
  | 0x2B => some (.mov w)
  | 0x2C => some (.movi w)
  | 0x2D => some (.iadds w)
  | 0x2E => some (.clamp w)
  | 0x30 => some (.kop w)
  | 0x31 => match w.f.toNat with
    | 0 => some (.kmov w)
    | 1 => some (.kmovFromw w)
    | 2 => some (.kmovTow w)
    | 3 => some (.kmovFromv w)
    | 4 => some (.kmovTov w)
    | _ => none
  | 0x32 => match w.f.toNat with
    | 0 => some (.ksetAll w)
    | 1 => some (.ksetNone w)
    | 2 => some (.ksetBelow w)
    | _ => none
  | 0x33 => some (.kcnt w)
  | 0x34 => match w.f.toNat with
    | 0 => some (.kfindFirst w)
    | 1 => some (.kfindLast w)
    | _ => none
  | 0x38 => some (.popc w)
  | 0x39 => some (.clz w)
  | 0x3A => some (.ctz w)
  | 0x3B => some (.fns w)
  | 0x3C => some (.brev w)
  | 0x3D => some (.bfx w)
  | 0x3E => some (.bfi w)
  | 0x3F => some (.bmsk w)
  | 0x40 => some (.fadd w)
  | 0x41 => some (.fsub w)
  | 0x42 => some (.fmul w)
  | 0x43 => some (.ffma w)
  | 0x44 => some (.fmin w)
  | 0x45 => some (.fmax w)
  | 0x46 => some (.fcmp w)
  | 0x47 => some (.fclass w)
  | 0x48 => some (.frnd w)
  | 0x49 => some (.fdiv w)
  | 0x4A => some (.fsqrt w)
  | 0x4B => some (.frcp w)
  | 0x4C => some (.frsq w)
  | 0x4D => some (.fexp2 w)
  | 0x4E => some (.flog2 w)
  | 0x4F => some (.fsinpi w)
  | 0x50 => some (.fcospi w)
  | 0x51 => some (.fscale w)
  | 0x52 => some (.fgetx w)
  | 0x53 => some (.fgetm w)
  | 0x54 => some (.fdot2 w)
  | 0x55 => some (.sumc w)
  | 0x60 => some (.cvt w)
  | 0x61 => some (.qnt w)
  | 0x62 => some (.dqnt w)
  | 0x63 => some (.pkn w)
  | 0x64 => some (.upkn w)
  | 0x65 => some (.pexp w)
  | 0x66 => some (.maxe w)
  | 0x67 => some (.rnd w)
  | 0x68 => some (.shfl w)
  | 0x69 => if fb w 3 0 = 1 then some (.bcstFirst w) else some (.bcst w)
  | 0x6A => some (.vote w)
  | 0x6B => some (.redx w)
  | 0x6C => some (.scanx w)
  | 0x6D => some (.matchEq w)
  | 0x6E => some (.redw w)
  | 0x6F => if w.f = 1 then some (.electK w) else some (.elect w)
  | 0x70 => some (.ld w)
  | 0x71 => some (.st w)
  | 0x72 => some (.ldu w)
  | 0x73 => some (.stu w)
  | 0x74 => some (.lds w)
  | 0x75 => some (.sts w)
  | 0x76 => some (.atom w)
  | 0x77 => some (.red w)
  | 0x78 => some (.prf w)
  | 0x79 => some (.pin w)
  | 0x7A => some (.unpin w)
  | 0x7B => if fb w 10 10 = 1 then some (.xbegChk w) else some (.xbeg w)
  | 0x7C => some (.cmt w)
  | 0x7D => some (.abt w)
  | 0x7E => some (.pul w)
  | 0x7F => some (.xstat w)
  | 0x80 => some (.cpy w)
  | 0x81 => some (.cpyt w)
  | 0x82 => some (.cpyx w)
  | 0x83 => some (.waitk w)
  | 0x84 => if fb w 1 0 = 1 then some (.wprmRead w) else some (.wprm w)
  | 0x85 => some (.lazy w)
  | 0x86 => some (.lazyc w)
  | 0x88 => some (.aarm w)
  | 0x89 => some (.aexp w)
  | 0x8A => some (.aadd w)
  | 0x8B => some (.await w)
  | 0x8C => some (.aread w)
  | 0x8D => some (.adis w)
  | 0x90 => some (.obr w)
  | 0x91 => some (.obf w)
  | 0x92 => some (.obw w)
  | 0x93 => some (.obl w)
  | 0x94 => some (.stb w)
  | 0x95 => some (.mmq w)
  | 0x96 => some (.mmqs w)
  | 0x97 => some (.mmqp w)
  | 0x98 => some (.acz w)
  | 0x99 => some (.acr w)
  | 0x9A => some (.drn w)
  | 0x9B => some (.drns w)
  | 0x9C => some (.mmsk w)
  | 0x9D => some (.acs w)
  | 0x9E => some (.swr w)
  | 0xA0 => some (.barb w)
  | 0xA1 => some (.barc w)
  | 0xA2 => some (.spawn w)
  | 0xA3 => if fb w 3 0 = 1 then some (.twinCmp w) else some (.twinCkpt w)
  | 0xA4 => some (.detf w)
  | 0xB0 => some (.kvt w)
  | 0xB1 => if fb w 0 0 = 1 then some (.kvaApp w) else some (.kvaNew w)
  | 0xB2 => some (.kvc w)
  | 0xB3 => some (.kvf w)
  | 0xB4 => some (.wnw w)
  | 0xB5 => some (.gmk w)
  | 0xB6 => some (.gstp w)
  | 0xB7 => some (.smpl w)
  | 0xC0 => some (.pwadd w)
  | 0xC1 => some (.pwset w)
  | 0xC2 => some (.rsb w)
  | 0xC3 => some (.popr w)
  | 0xC4 => some (.pkill w)
  | _ => none

/-- A reserved major opcode (R107). -/
def opReserved (op : Nat) : Bool :=
  op == 0x0B || op == 0x0F || op == 0x1F || op == 0x2F || (0x35 ≤ op && op ≤ 0x37) || (0x56 ≤ op && op ≤ 0x5F) ||
  op == 0x87 || op == 0x8E || op == 0x8F || op == 0x9F || (0xA5 ≤ op && op ≤ 0xAF) || (0xB8 ≤ op && op ≤ 0xBF) ||
  0xC5 ≤ op

/-- Whether a clause of class `cls` admits the opcode at a body word, last or not (R102). -/
def classAdmits (cls op : Nat) (last : Bool) : Bool :=
  let alu := 0x10 ≤ op && op ≤ 0x6F
  let ctl := 0x01 ≤ op && op ≤ 0x08
  if op = 0 then !(cls == 4 && last)
  else if ctl then cls == 4 && last
  else if cls = 4 then alu && !last
  else match cls with
    | 0 => alu
    | 1 => 0x70 ≤ op && op ≤ 0x8D
    | 2 => 0x90 ≤ op && op ≤ 0x9E
    | 3 => 0xB0 ≤ op && op ≤ 0xC4
    | _ => (0x09 ≤ op && op ≤ 0x0E) || (0xA0 ≤ op && op ≤ 0xA4)

/-- Whether a clause of class `cls` admits a P-form word (R102). -/
def classAdmitsPair (cls : Nat) (last : Bool) : Bool := cls == 0 || (cls == 4 && !last)

end Sys2Proof.Machine
end

