-- ==== Sys2Proof/WellFormed.lean ====
section
/-! DEFINITION. Which instructions the spec admits in some wave: the checks of R82 to R98 on a word, and the ranges of an
event's units. -/

namespace Sys2Proof

open Sys2Proof.Machine

/-- An instruction word passes the checks of its entry and the general ones, for an allotment (R83 to R92, R115). -/
def wordOk (al : Allot) (i : Instr) (w : Fields) : Bool :=
  match shapeOf i with
  | some sh => fieldsOk al sh w
  | none => false

/-- A pair passes R96 to R98 for an allotment. -/
def pairOk (al : Allot) (a b : Half) : Bool := halfOk al a && halfOk al b && pairRulesOk a b

/-- Who writes a window: a host function 0-63 or the hart of one of four dies. -/
def masterOk (m : Master) : Bool :=
  match m with
  | .fn n => n < 64
  | .hart d => d < 4

/-- The spec admits the instruction: a word that some wave may run, or an event of a unit that the part has. -/
def WellFormed (i : Instr) : Bool :=
  match i with
  | .pairWord a b => pairOk Allot.top a b
  | .dieReset die | .tlbMissWalk die | .dispatchHartReload die _ => die < 4
  | .issueCycle core | .mmqCollectorClose core | .matrixPassStart core => core < 256
  | .copyComplete core _ | .copyPieceFault core _ | .uLineEvict core _ | .preempt core _ => core < 256
  | .slotwr core _ _ _ _ => core < 256
  | .clauseStart wid _ | .heldLanesDetach wid _ | .divergeRetry wid _ | .resultLand wid _ | .abortRedirect wid
  | .waveEnd wid | .sleepExpire wid _ | .twinCompare wid | .awaitLimitExpire wid _ => wid < 8192
  | .lazyCopyComplete blk win => blk < 2048 && win < 16
  | .faultAnswer die _ _ => die < 4
  | .scrubStep die canopy unit _ => die < 4 && unit < 64 && (canopy || unit < 64)
  | .cancfgWrite m die _ | .scrubperWrite m die _ | .errclr m die _ => masterOk m && die < 4
  | .regionWindowWrite m die word _ | .particleWindowWrite m die word _ => masterOk m && die < 4 && word < 4
  | .poolWindowWrite m die word _ => masterOk m && die < 4 && word < 3
  | .populationWindowWrite fn word _ => fn < 64 && word < 8
  | .popfixWrite fn _ | .hwinWrite fn _ => fn < 64
  | .registerWrite m _ _ => masterOk m
  | .ctxfnWrite fn ctx _ | .contextCreate fn ctx _ | .contextTeardown fn ctx _ | .evheadWrite fn ctx _ =>
    fn < 64 && ctx < 256
  | .contextDescriptorWrite fn ctx word _ => fn < 64 && ctx < 256 && word < 4
  | .queueConfigWrite fn ctx q _ _ | .qtailWrite fn ctx q _ => fn < 64 && ctx < 256 && q < 64
  | .crewOffer _ die | .borrowGrant die _ => die < 4
  | .hostWindowRead fn _ _ | .hostWindowWrite fn _ _ | .hostAtomic fn _ _ _ _ | .hostCasRequest fn _
  | .hostFunctionReset fn => fn < 64
  | .apertureWrite fn idx word _ => fn < 64 && idx < 256 && word < 2
  | .peerRequest port _ | .peerCommitUnit port _ _ | .peerPortDown port | .peerLinkUp port _
  | .peerFlitReplay port => port < 16
  | .peerstatWrite fn port _ => fn < 64 && port < 16
  | .secureBoot _ | .attestationRequest _ | .swathContributionAccept _ | .swathRoundComplete _ _
  | .peerSwathResult _ _ _ | .engineRequestComplete _ | .regionPhaseComplete _ | .invalidation _ _ _
  | .launchStart _ | .launchComplete _ | .gangStart _ _ | .preemptSaveComplete _ _ | .launchKill _
  | .detGroupApply _ | .roundOpen _ | .particleArrival _ | .cloneRetry _ | .peerAck _ _ _
  | .policyConfigurationWrite _ => true
  | i => match opcodeOf i with
    | some (_, w) => wordOk Allot.top i w
    | none => false

end Sys2Proof
end

