-- ==== Sys2Proof/Decode.lean ====
section
/-! DEFINITION. From code words to instructions and back (R77, R81 to R84, R95, R99 to R104). -/

namespace Sys2Proof

open Sys2Proof.Machine

/-- Why a word is no instruction. -/
inductive DecodeError where
  /-- bytes or words are missing -/
  | truncated
  /-- form 0b11: a clause header (R81) -/
  | header
  /-- a reserved opcode or op7 (R107) -/
  | reserved
  /-- a field, operand or predicate error (R104 step 3) -/
  | illegal
  /-- a pair rule error (R104 step 4) -/
  | illegalPair
deriving DecidableEq, Repr

/-- Form of a word: 0 S, 1 P, 2 E, 3 H (R81). -/
def formOf (x : W64) : Nat := bits x.toNat 63 62

/-- Major opcode of an S or E word (R82). -/
def opBits (x : W64) : Nat := bits x.toNat 61 54

/-- The fields of an S-layout word (R82). -/
def unpack (x : W64) (ext : Option W64) : Fields :=
  { ext := ext, la := x.extractLsb' 50 4, k := x.extractLsb' 47 3, kn := x.getLsbD 46, d := x.extractLsb' 38 8,
    a := x.extractLsb' 30 8, b := x.extractLsb' 22 8, c := x.extractLsb' 14 8, f := x.extractLsb' 0 14 }

/-- One half of a P-form word (R95). -/
def unpackHalf (x : W64) (lo : Nat) : Half :=
  { op7 := x.extractLsb' (lo + 24) 7, d := x.extractLsb' (lo + 16) 8, a := x.extractLsb' (lo + 8) 8,
    b := x.extractLsb' lo 8 }

/-- The words of an instruction: one, or two in E form. The checks are those that some wave's allotment passes. -/
def decodeWord (x : W64) (ext : Option W64) : Except DecodeError Instr :=
  match formOf x with
  | 3 => .error .header
  | 1 =>
    let a := unpackHalf x 31
    let b := unpackHalf x 0
    if 0x20 ≤ a.op7.toNat ∨ 0x20 ≤ b.op7.toNat then .error .reserved
    else if !(halfOk Allot.top a && halfOk Allot.top b) then .error .illegal
    else if !pairRulesOk a b then .error .illegalPair
    else .ok (.pairWord a b)
  | _ =>
    if opReserved (opBits x) then .error .reserved
    else
      let w := unpack x ext
      match instrOf (opBits x) w with
      | none => .error .illegal
      | some i => if wordOk Allot.top i w then .ok i else .error .illegal

/-- The first instruction of a list of code words, and the rest. -/
def decode (l : List W64) : Except DecodeError (Instr × List W64) :=
  match l with
  | [] => .error .truncated
  | x :: rest =>
    if formOf x = 2 then
      match rest with
      | [] => .error .truncated
      | e :: rest => (decodeWord x (some e)).map fun i => (i, rest)
    else (decodeWord x none).map fun i => (i, rest)

/-- The code words that bytes hold, each little-endian (R77). -/
def wordsOf : Bytes → List W64
  | b0 :: b1 :: b2 :: b3 :: b4 :: b5 :: b6 :: b7 :: rest =>
    BitVec.ofNat 64 (ofLE [b0, b1, b2, b3, b4, b5, b6, b7]) :: wordsOf rest
  | _ => []

/-- The first instruction of a run of bytes. -/
def decodeBytes (l : Bytes) : Except DecodeError Instr := (decode (wordsOf l)).map (·.1)

/-! ### The encoder -/

/-- An S-layout word of the form, opcode and fields (R82). -/
def pack (op : Nat) (w : Fields) : W64 :=
  (if w.ext.isSome then 2#2 else 0#2) ++ BitVec.ofNat 8 op ++ w.la ++ w.k ++ BitVec.ofBool w.kn ++ w.d ++ w.a ++ w.b ++
    w.c ++ w.f

/-- A half of a pair (R95). -/
def packHalf (h : Half) : BitVec 31 := h.op7 ++ h.d ++ h.a ++ h.b

/-- The code words of an instruction; none for an event. -/
def encode (i : Instr) : List W64 :=
  match i with
  | .pairWord a b => [1#2 ++ packHalf a ++ packHalf b]
  | i => match opcodeOf i with
    | some (op, w) => pack op w :: w.ext.toList
    | none => []

/-- The bytes of an instruction in memory. -/
def encodeBytes (i : Instr) : Bytes := (encode i).flatMap fun x => leBytes 8 x.toNat

/-! ### Clause headers (R99) -/

/-- A clause header. -/
structure Header where
  cls : Nat
  /-- Body words. -/
  count : Nat
  tw : BitVec 8
  wl : Bool
  yp : Nat
  rcv : Bool
  rtok : Nat
deriving DecidableEq, Repr

/-- The fields of a header word (R99). -/
def headerOf (x : W64) : Header :=
  let n := x.toNat
  { cls := bits n 61 58, count := bits n 57 54 + 1, tw := x.extractLsb' 46 8, wl := bit n 45, yp := bits n 44 43,
    rcv := bit n 42, rtok := bits n 41 34 }

/-- The last E-form word of a body would place its extension word after the last body word (R101). -/
def extPastEnd : List W64 → Bool
  | [] => false
  | [x] => formOf x == 2
  | x :: y :: rest => if formOf x = 2 then extPastEnd rest else extPastEnd (y :: rest)

/-- A word that no clause may start with, or a header that R101 refuses. -/
def headerBad (x : W64) (body : List W64) : Bool :=
  formOf x != 3 || 6 ≤ bits x.toNat 61 58 || bits x.toNat 44 43 == 3 ||
  (!bit x.toNat 42 && bits x.toNat 41 34 != 0) || bits x.toNat 33 0 != 0 || extPastEnd body

/-- The instruction of a row of the opcode table (host interface): the first word is bits 63 to 0 of `w`, the
extension word bits 127 to 64. -/
def decodeTableWord (nbits w : Nat) : Option Instr :=
  let v := w % 2 ^ nbits
  match decodeBytes (leBytes 16 v) with
  | .ok i => some i
  | .error _ => none

end Sys2Proof
end

