-- ==== Sys2Proof/Machine/Ops.lean ====
section
/-! DEFINITION. Named operations on the state: units and their numbers, updates of one part, the launch record's fields,
taking a trap and returning from one (R232 to R243), and the system registers (R121). -/

namespace Sys2Proof.Machine

/-! ### Units -/

/-- Core of a wave slot. -/
def coreOfWave (wid : Nat) : Nat := wid / 32

/-- Die of a core. -/
def dieOfCore (core : Nat) : Nat := core / 64

/-- Cluster of a core within its die. -/
def clusterOfCore (core : Nat) : Nat := core / 8 % 8

/-- Key of a crew. -/
def crewKey (lid crew : Nat) : Nat := lid * 2 ^ 32 + crew

/-- Key of a block slot. -/
def blockKey (core bslot : Nat) : Nat := 8 * core + bslot

/-- Key of the block of a wave. -/
def Wave.bid (w : Wave) (wid : Nat) : Nat := blockKey (coreOfWave wid) w.bslot

/-- Key of the crew of a wave. -/
def Wave.ckey (w : Wave) : Nat := crewKey w.lid w.crew

/-- The allotment of a wave. -/
def Wave.allot (w : Wave) : Allot := { vregs := w.vregs, width := w.width, cross := w.cross }

/-- Words of 32 lanes. -/
def Wave.maskWords (w : Wave) : Nat := ceilDiv w.width 32

/-! ### Reading and updating one part -/

def State.core (s : State) (c : Nat) : Core := Tbl.get s.cores c Core.reset
def State.modCore (s : State) (c : Nat) (f : Core → Core) : State :=
  { s with cores := Tbl.set Core.reset s.cores c (f (s.core c)) }
def State.die (s : State) (d : Nat) : Die := Tbl.get s.dies d Die.reset
def State.modDie (s : State) (d : Nat) (f : Die → Die) : State :=
  { s with dies := Tbl.set Die.reset s.dies d (f (s.die d)) }
def State.wave (s : State) (wid : Nat) : Option Wave := Tbl.find s.waves wid
def State.modWave (s : State) (wid : Nat) (f : Wave → Wave) : State := { s with waves := Tbl.upd s.waves wid f }
def State.block (s : State) (bid : Nat) : Option Block := Tbl.find s.blocks bid
def State.modBlock (s : State) (bid : Nat) (f : Block → Block) : State := { s with blocks := Tbl.upd s.blocks bid f }
def State.crew (s : State) (key : Nat) : Option Crew := Tbl.find s.crews key
def State.modCrew (s : State) (key : Nat) (f : Crew → Crew) : State := { s with crews := Tbl.upd s.crews key f }
def State.launch (s : State) (lid : Nat) : Option Launch := Tbl.find s.launches lid
def State.modLaunch (s : State) (lid : Nat) (f : Launch → Launch) : State :=
  { s with launches := Tbl.upd s.launches lid f }
def State.region (s : State) (rid : Nat) : Region := Tbl.get s.regions rid Region.reset
def State.setRegion (s : State) (rid : Nat) (r : Region) : State :=
  { s with regions := Tbl.set Region.reset s.regions rid r }
def State.ctx (s : State) (c : Nat) : Context := Tbl.get s.ctxs c Context.reset
def State.modCtx (s : State) (c : Nat) (f : Context → Context) : State :=
  { s with ctxs := Tbl.set Context.reset s.ctxs c (f (s.ctx c)) }

/-- Rewrite a fragment record of a wave. -/
def Wave.modFrag (w : Wave) (fr : Nat) (f : Frag → Frag) : Wave := { w with frags := Tbl.upd w.frags fr f }

/-- Rewrite a fragment record. -/
def State.modFrag (s : State) (wid fr : Nat) (f : Frag → Frag) : State := s.modWave wid fun w => w.modFrag fr f

/-- A fresh value of the model's counter, and the state that has used it. -/
def State.fresh (s : State) : Nat × State := (s.free, { s with free := s.free + 1 })

/-- The cycle counter of a wave's core (R124). -/
def State.cycOf (s : State) (wid : Nat) : Nat := (s.core (coreOfWave wid)).cyc

/-! ### Launch records (R480) -/

/-- Word at byte offset `off` of a record. -/
def recWord (words : List W64) (off : Nat) : Nat := (words.getD (off / 8) 0).toNat

/-- A field of a record's word. -/
def recField (words : List W64) (off hi lo : Nat) : Nat := bits (recWord words off) hi lo

/-- The record of a live launch; all zero where there is none. -/
def State.record (s : State) (lid : Nat) : List W64 :=
  match s.launch lid with
  | some l => l.words
  | none => []

/-- A FLAGS bit of a launch: 45 DET, 46 TWIN, 47 REPLAY, 48 PARTICLE. -/
def State.flag (s : State) (lid n : Nat) : Bool := bit (recWord (s.record lid) 0x18) n

def State.isDet (s : State) (lid : Nat) : Bool := s.flag lid 45
def State.isTwin (s : State) (lid : Nat) : Bool := s.flag lid 46
def State.isReplay (s : State) (lid : Nat) : Bool := s.flag lid 47
def State.isParticle (s : State) (lid : Nat) : Bool := s.flag lid 48

/-! ### Fragments -/

/-- CREW of a wave (R120); a PARTICLE launch has crews of one block (R504), which the model tells apart by PART. -/
def State.crewOf (s : State) (w : Wave) : Nat := if s.isParticle w.lid then w.blocklin else w.crew

/-- A fragment just started at an address with lanes and a token stack. -/
def Frag.start (mask : Mask) (pc : W64) (stack : List Nat) : Frag :=
  { mask := mask, pc := pc, stack := stack, age := 0, deferred := none, held := none, clause := none, parked := none,
    wait := none, replay := none, resume := none, failed := [], diverge := none, yieldedAt := none, answers := [],
    awaitAns := none }

/-- The lowest free fragment record of a wave (R127). -/
def Wave.freeRecord (w : Wave) : Option Nat := (List.range 32).find? fun r => !Tbl.mem w.frags r

/-- A wave has one fragment and no deferred entry in use. -/
def Wave.whole (w : Wave) : Bool :=
  w.frags.length == 1 && w.frags.all fun p => p.2.deferred.isNone && p.2.held.isNone

/-- Some span of the wave is open (R213). -/
def Wave.spanOpen (w : Wave) : Bool := (List.range 5).any fun l => (Tbl.get w.spans l Span.closed).isOpen

/-- The span record of a level. -/
def Wave.span (w : Wave) (l : Nat) : Span := Tbl.get w.spans l Span.closed

/-- Replace the span record of a level. -/
def Wave.setSpan (w : Wave) (l : Nat) (x : Span) : Wave := { w with spans := Tbl.set Span.closed w.spans l x }

/-- The level of the open checked span, if any (R214). -/
def Wave.checkedLevel (w : Wave) : Option Nat := [1, 2, 3, 4].find? fun l => (w.span l).isOpen && (w.span l).checked

/-- Leave the clause and go to a header. -/
def Frag.goTo (f : Frag) (pc : W64) : Frag :=
  { f with clause := none, pc := pc, wait := none, replay := none, resume := none, failed := [], answers := [],
           awaitAns := none, diverge := none }

/-! ### Clause positions -/

/-- Address of the body word at index `i` of a clause. -/
def Clause.wordAddr (c : Clause) (i : Nat) : W64 := c.addr + BitVec.ofNat 64 (8 * (i + 1))

/-- Address of the word after the last body word (R196). -/
def Clause.next (c : Clause) : W64 := c.addr + BitVec.ofNat 64 (8 * (c.words.length + 1))

/-- Body words of the instruction at index `i`. -/
def Clause.sizeAt (c : Clause) (i : Nat) : Nat := if formOf (c.words.getD i 0) = 2 then 2 else 1

/-- Give up the issue turn after a clause with YP = 1: not ready in the next cycle (R100, R202). -/
def yieldWait (hdr : W64) : Option Wait := if bits hdr.toNat 44 43 = 1 then some (.yielded 0) else none

/-- Leave a clause for another header. -/
def Frag.leave (f : Frag) (c : Clause) (pc : W64) : Frag :=
  { f.goTo pc with wait := yieldWait c.hdr, age := if bits c.hdr.toNat 44 43 = 1 then 0 else f.age }

/-- The fragment after its word at index `i` - 1: on at index `i`, or past the clause (R100). -/
def Frag.advanceTo (f : Frag) (c : Clause) (i : Nat) : Frag :=
  let f := { f with wait := none, replay := none, resume := none, failed := [], answers := [], awaitAns := none }
  if i < c.words.length then { f with clause := some { c with idx := i, passes := 0 } }
  else f.leave c c.next

/-! ### Traps (R232 to R240) -/

/-- Cause codes (R233). -/
def cILLEGAL : Nat := 0x01
def cILLEGAL_PAIR : Nat := 0x02
def cILLEGAL_CLAUSE : Nat := 0x03
def cLA_VIOLATION : Nat := 0x04
def cIFETCH : Nat := 0x05
def cALIGN : Nat := 0x06
def cPAGE : Nat := 0x07
def cPROT : Nat := 0x08
def cSAMEADDR : Nat := 0x09
def cFP : Nat := 0x0A
def cSOFT : Nat := 0x0B
def cBARRIER : Nat := 0x0C
def cPROMISE : Nat := 0x0D
def cSCOPE : Nat := 0x0E
def cDET_INTRUSION : Nat := 0x0F
def cDET_FORBIDDEN : Nat := 0x10
def cABORT_UNHANDLED : Nat := 0x11
def cOB_RECORD : Nat := 0x12
def cKV : Nat := 0x13
def cGRAMMAR : Nat := 0x14
def cPOP : Nat := 0x15
def cUNCORRECTABLE : Nat := 0x17
def cDOUBLE : Nat := 0x18

/-- A fault trap's record. -/
def faultRec (cause : Nat) (info addr : W64) (lanes : Mask) : TrapRec :=
  { fault := true, cause := cause, info := info, addr := addr, lanes := lanes }

/-- A report trap's record. -/
def reportRec (cause : Nat) (info : W64) (lanes : Mask) : TrapRec :=
  { fault := false, cause := cause, info := info, addr := 0, lanes := lanes }

/-- Ask for a kill of a launch with a cause; an earlier request stands (R240, R433). -/
def State.askKill (s : State) (lid cause : Nat) : State :=
  s.modLaunch lid fun l => { l with killReq := some (l.killReq.getD cause) }

/-- Freeze a wave with cause DOUBLE; its launch will be killed or replayed (R240). -/
def State.doubleTrap (s : State) (wid : Nat) : State :=
  match s.wave wid with
  | some w => (s.modWave wid fun w => { w with frozen := some .double }).askKill w.lid cDOUBLE
  | none => s

/-- The trap registers and handler mode that a trap sets (R238). -/
def Wave.enterHandler (w : Wave) (fr : Nat) (f : Frag) (t : TrapRec) (pc fba : W64) (resume : Option Nat)
    (atHeader : Bool) : Wave :=
  { w with
    trappc := pc, trapcause := BitVec.ofNat 64 (256 * ofBool t.fault + t.cause), trapinfo := t.info, trapaddr := t.addr,
    trapfba := fba, traplanes := t.lanes,
    handler := some { frag := fr, stack := f.stack, fault := t.fault, pc := pc, clause := f.clause, resume := resume,
                      atHeader := atHeader },
    frags := Tbl.put w.frags fr { f.goTo w.tvec with stack := [], yieldedAt := none } }

/-- TAKING A TRAP. The fragment stands where it must go on (its clause's `idx` at the word TRAPPC names, or past its clause).
A fault in handler mode is a double trap, a report there is not taken; a second fragment's trap waits for TRET; without a
handler the wave freezes (R238, R239, R240). -/
def State.takeTrap (s : State) (wid fr : Nat) (t : TrapRec) (pc fba : W64) (resume : Option Nat) (atHeader : Bool) :
    State :=
  match s.wave wid with
  | none => s
  | some w =>
    match w.handler with
    | some h =>
      if h.frag = fr then if t.fault then s.doubleTrap wid else s
      else s.modWave wid fun w => { w with heldTraps := w.heldTraps ++ [{ frag := fr, trap := t, pc := pc, fba := fba, resume := resume }] }
    | none =>
      if w.tvec = 0 then s.doubleTrap wid
      else match Tbl.find w.frags fr with
        | none => s
        | some f => s.modWave wid fun w => w.enterHandler fr f t pc fba resume atHeader

/-- The trap registers name the word the fragment stands at: in its clause, or the next header. -/
def State.takeTrapHere (s : State) (wid fr : Nat) (t : TrapRec) : State :=
  match (s.wave wid).bind fun w => Tbl.find w.frags fr with
  | none => s
  | some f =>
    let pc := match f.clause with
      | some c => c.wordAddr c.idx
      | none => f.pc
    s.takeTrap wid fr t pc pc none false

/-- Take the traps of other fragments that waited for TRET: the first of the lowest record (R239, R243). -/
def State.takeHeld (s : State) (wid : Nat) : State :=
  match s.wave wid with
  | none => s
  | some w =>
    match w.heldTraps with
    | [] => s
    | x :: xs =>
      let y := xs.foldl (fun m z => if z.frag < m.frag then z else m) x
      let s := s.modWave wid fun w => { w with heldTraps := w.heldTraps.erase y }
      s.takeTrap wid y.frag y.trap y.pc y.fba y.resume false

/-! ### The two sides of a TWIN block (R277) -/

/-- The other core of a twin pair (R277). -/
def twinCore (core : Nat) : Nat := core ^^^ 1

/-- Key of the block of `b` on the core `core`, if bound: same launch and block index (R277). -/
def State.twinBid (s : State) (core : Nat) (b : Block) : Option Nat :=
  ((List.range 8).map (blockKey core)).find? fun k => match s.block k with
    | some x => x.lid == b.lid && x.crew == b.crew && x.blocklin == b.blocklin && x.shadow != b.shadow
    | none => false

/-- The slot of the wave with the same index on the other side. -/
def State.twinWid (s : State) (wid : Nat) (w : Wave) : Option Nat :=
  let core := twinCore (coreOfWave wid)
  ((List.range 32).map fun i => 32 * core + i).find? fun k => match s.wave k with
    | some x => x.lid == w.lid && x.crew == w.crew && x.blocklin == w.blocklin && x.waveIdx == w.waveIdx &&
        x.shadow != w.shadow
    | none => false

/-- The wave runs in a TWIN launch. -/
def State.twinned (s : State) (w : Wave) : Bool := s.isTwin w.lid

/-- Slot of the leader of a wave: itself, or the other side's wave. -/
def State.leaderOf (s : State) (wid : Nat) (w : Wave) : Nat :=
  if s.twinned w && w.shadow then (s.twinWid wid w).getD wid else wid

/-- The block that holds the twin registers, the queue and the log: the leader's. -/
def State.leaderBid (s : State) (wid : Nat) (w : Wave) : Nat :=
  if s.twinned w && w.shadow then
    match s.block (w.bid wid) with
    | some b => (s.twinBid (twinCore (coreOfWave wid)) b).getD (w.bid wid)
    | none => w.bid wid
  else w.bid wid

/-- Note a step of a wave of a TWIN launch that was taken from the wave `w`: the leader adds it to the order, before what the
step itself has added, and the shadow takes it off; a compare point of the fragment is past, and a checkpoint that follows it
is due (R278, R280, R281, R284). -/
def State.twinStep (s : State) (wid : Nat) (w : Wave) (code : Nat) : State :=
  if !s.twinned w then s
  else
    let here (t : TwinWave) : Bool := t.atPoint.map (·.1) == some code
    let past (t : TwinWave) : TwinWave :=
      if here t then { t with atPoint := none, released := false, owed := false } else t
    let due (t : TwinBlock) : TwinBlock := if here w.twin && w.twin.owed then { t with due := some w.waveIdx } else t
    let s := s.modWave wid fun w => { w with twin := past w.twin }
    let s := s.modBlock (w.bid wid) fun b => { b with twin := due b.twin }
    if w.shadow then
      s.modWave (s.leaderOf wid w) fun w => { w with twin := { w.twin with order := w.twin.order.drop 1 } }
    else
      let n := w.twin.order.length
      s.modWave wid fun w =>
        { w with twin := { w.twin with order := w.twin.order.take n ++ [code] ++ w.twin.order.drop n } }

/-! ### Redirects (R226) -/

/-- Whether the wave holds the exclusive grant of a level: block, crew, or the package (R222). -/
def grantKey (w : Wave) (wid l : Nat) : Nat :=
  if l = 1 then 4 * w.bid wid + 1 else if l = 2 then 4 * w.ckey + 2 else 3

/-- The wave holds the grant of a level. -/
def State.holdsGrant (s : State) (wid : Nat) (w : Wave) (l : Nat) : Bool :=
  Tbl.find s.grants (grantKey w wid l) == some wid

/-- The open checked span at a level holds its grant (R222). -/
def Span.holds (sp : Span) : Bool := sp.isOpen && sp.granted

/-- The wave holds some grant. -/
def Wave.holdsAny (w : Wave) : Bool := [1, 2, 3, 4].any fun l => (w.span l).holds

/-- Release every grant a wave holds. -/
def State.releaseGrants (s : State) (wid : Nat) : State :=
  { s with grants := Tbl.keep (fun _ h => h != wid) s.grants }

/-- Close the spans of a wave at levels up to `l`; a released grant's failure count becomes zero (R222). -/
def Wave.closeSpans (w : Wave) (l : Nat) : Wave :=
  (List.range (l + 1)).foldl (fun w i =>
    let sp := w.span i
    w.setSpan i { Span.closed with fails := if sp.holds then 0 else sp.fails }) w

/-- Redirect a wave for an abort at a level (R226): one fragment at the target of the highest open level at or below it. -/
def State.redirectTo (s : State) (wid : Nat) (w : Wave) (l cause : Nat) : State :=
  match ((List.range (l + 1)).reverse.find? fun i => (w.span i).isOpen) with
  | none => s.modWave wid fun w => { w with aborting := none }
  | some i =>
    let sp := w.span i
    let s := s.releaseGrants wid
    let s := s.modWave wid fun w =>
      { w.closeSpans l with
        pending := w.pending.filter (fun p => p.req.isSome), wsb := [], readLog := [], aborting := none, heldTraps := [],
        frags := [(0, Frag.start sp.mask sp.target sp.stack)], xcause := BitVec.ofNat 64 (256 + 16 * l + cause) }
    s.twinStep wid w (200 + 8 * l + cause)

/-- The redirect of a wave that an abort has affected. -/
def State.redirect (s : State) (wid : Nat) : State :=
  match s.wave wid with
  | none => s
  | some w =>
    match w.aborting with
    | none => s
    | some (l, cause) => s.redirectTo wid w l cause

/-- RETURN FROM A TRAP (R241): where the trapping fragment goes on. -/
def Wave.leaveHandler (w : Wave) (h : Handler) (f : Frag) (skip : Bool) : Wave :=
  let f := { f.goTo w.trappc with stack := h.stack }
  let f := if w.trappc ≠ h.pc ∨ h.atHeader then f
    else match h.clause with
      | none => f
      | some c =>
        if skip then f.advanceTo { c with lane := false } (h.resume.getD (c.idx + c.sizeAt c.idx))
        else if h.fault then { f with clause := some { c with passes := 0, lane := false }, replay := some w.traplanes, resume := h.resume }
        else { f with clause := some { c with passes := 0, lane := false } }
  { w with handler := none, frags := Tbl.put w.frags h.frag f }

/-- TRET's effect: leave handler mode, make a waiting redirect, take a waiting trap (R226, R239, R241). -/
def State.trapReturn (s : State) (wid : Nat) (skip : Bool) : State :=
  match s.wave wid with
  | none => s
  | some w =>
    match w.handler with
    | none => s
    | some h =>
      match Tbl.find w.frags h.frag with
      | none => s
      | some f =>
        let s := s.modWave wid fun w => w.leaveHandler h f skip
        if w.aborting.isSome then s.redirect wid else s.takeHeld wid

/-! ### System registers (R121, R205, R206) -/

/-- TWINSTAT (R285). -/
def twinstat (t : TwinBlock) : Nat :=
  t.mismatches + t.retries * 2 ^ 16 + ofBool t.fired * 2 ^ 48 + t.atCkpt * 2 ^ 49

/-- XLEVELS (R229). -/
def xlevels (w : Wave) : Nat :=
  ([1, 2, 3, 4].map fun l =>
    let sp := w.span l
    (if sp.isOpen then 2 ^ (l - 1) + (if sp.checked then 2 ^ (l + 3) else 0) else 0)).sum +
  256 * ofBool w.holdsAny + 512 * ofBool w.aborting.isSome

/-- Every block of the launch below `b` has ended and has its groups applied (R522). -/
def State.holdsTicket (s : State) (lid b : Nat) : Bool :=
  match s.launch lid with
  | some l => l.ticket == b
  | none => false

/-- Key of a DET block's stream. -/
def detKey (lid b : Nat) : Nat := lid * 2 ^ 32 + b

/-- DETSTAT (R524). -/
def detstat (s : State) (b : Block) : Nat :=
  if s.isDet b.lid then
    let pending := match Tbl.find s.det (detKey b.lid b.blocklin) with
      | some d => d.closed.length
      | none => 0
    b.detGroups % 2 ^ 16 + pending % 2 ^ 16 * 2 ^ 16 + 2 ^ 32 + 2 ^ 33 * ofBool (s.holdsTicket b.lid b.blocklin)
  else b.detGroups % 2 ^ 16

/-- SRRD's value (R121 to R123, R205). -/
def sysRead (s : State) (wid : Nat) (w : Wave) (id : Nat) : Nat :=
  let blk (f : Block → Nat) : Nat := match s.block (s.leaderBid wid w) with
    | some b => f b
    | none => 0
  let core := coreOfWave wid
  let seed := recWord (s.record w.lid) 0x10
  if 0x10 ≤ id ∧ id ≤ 0x2F then if id - 0x10 < w.maskWords then maskWord w.traplanes (id - 0x10) else 0
  else match id with
    | 0x000 => w.tvec.toNat
    | 0x001 => w.trappc.toNat
    | 0x002 => w.trapcause.toNat
    | 0x003 => w.trapinfo.toNat
    | 0x004 => w.trapaddr.toNat
    | 0x005 => w.trapfba.toNat
    | 0x030 => w.fpctl.toNat
    | 0x031 => w.fpflags.toNat
    | 0x040 => w.xcause.toNat
    | 0x041 => xlevels w
    | 0x050 => w.lid % 2 ^ 32
    | 0x051 => seed % 2 ^ 32
    | 0x052 => seed / 2 ^ 32
    | 0x053 => w.blocklin
    | 0x054 => s.crewOf w
    | 0x055 => w.role
    | 0x056 => w.waveIdx
    | 0x057 => clusterOfCore core
    | 0x058 => dieOfCore core
    | 0x059 => core % 8
    | 0x060 => blk fun b => twinstat b.twin
    | 0x061 => blk fun b => b.twin.test.toNat
    | 0x062 => blk fun b => b.twin.slack
    | 0x070 => blk fun b => detstat s b
    | 0x080 => w.pexpuf.toNat
    | _ => 0

/-- SRWR's effect: by the register's access code; a write of a read-only register is ignored (R10, R206). -/
def sysWrite (s : State) (wid : Nat) (w : Wave) (id : Nat) (v : W64) : State :=
  let set (f : Wave → Wave) := s.modWave wid f
  if 0x10 ≤ id ∧ id ≤ 0x2F then
    if id - 0x10 < w.maskWords then
      set fun w => { w with traplanes := setMaskWord w.traplanes (id - 0x10) v.toNat &&& fullMask w.width }
    else s
  else match id with
    | 0x000 => set fun w => { w with tvec := v }
    | 0x001 => set fun w => { w with trappc := v }
    | 0x030 => set fun w => { w with fpctl := fpctlWrite w.fpctl v }
    | 0x031 => set fun w => { w with fpflags := fpflagsWrite w.fpflags v }
    | 0x062 =>
      let n := bits v.toNat 10 0
      s.modBlock (s.leaderBid wid w) fun b =>
        { b with twin := { b.twin with slack := if n < 64 then 64 else if n > 1024 then 1024 else n } }
    | 0x080 => set fun w => { w with pexpuf := v.setWidth 32 }
    | _ => s

end Sys2Proof.Machine
end

