-- ==== Sys2Proof/Machine/Operands.lean ====
section
/-! DEFINITION. Every operand form (R82 to R90, R111, R120), the destinations (R41, R114), and how a word completes:
its register writes, flags, traps and the advance of its fragment (R93, R100, R113, R232 to R237). -/

namespace Sys2Proof.Machine

/-- What a word sees when it issues. -/
structure Env where
  s : State
  wid : Nat
  fr : Nat
  wv : Wave
  frag : Frag
  cl : Clause
  w : Fields
  /-- The active lanes (R83), within the lanes that a replay keeps (R241). -/
  act : Mask
  /-- The same lanes, ascending. -/
  lanes : List Nat
deriving DecidableEq, Repr

/-! ### Sources -/

/-- FP32 code of an inline constant in a floating-point operand (R86). -/
def inlineF32 (code : Nat) : Nat :=
  ([0, 0x3F000000, 0x3F800000, 0x40000000, 0x40800000, 0xBF000000, 0xBF800000, 0xC0000000, 0x7F800000, 0xFF800000,
    0x3FB8AA3B, 0x3F317218] : List Nat).getD (code - 0xE0) 0

/-- The bits that an inline constant reads in an operand of the type (R86). -/
def inlineBits (t : Ty) (code : Nat) : Nat :=
  if tyIsFloat t then (roundVal (fmtOf t) .rne (fval .f32 (inlineF32 code))).1
  else if t = .f16x2 ∨ t = .bf16x2 then
    let x := (roundVal (fmtOf t) .rne (fval .f32 (inlineF32 code))).1
    x + x * 2 ^ 16
  else wrap (tyBits t) (if code < 0xF0 then (code : Int) - 0xE0 else (code : Int) - 0xFF)

/-- A special operand of a wave (R120). -/
def specialVal (s : State) (wid : Nat) (w : Wave) (lane code : Nat) : Nat :=
  match code with
  | 0xC0 => lane
  | 0xC1 => w.width
  | 0xC2 => w.waveIdx
  | 0xC3 => w.blocklin
  | 0xC4 => s.crewOf w
  | 0xC5 => w.role
  | 0xC6 => match s.block (w.bid wid) with
    | some b => b.nwaves
    | none => 0
  | 0xC7 => match s.block (w.bid wid) with
    | some b => b.nblocks
    | none => 0
  | 0xC8 => recWord (s.record w.lid) 0x08
  | 0xC9 => w.part.toNat
  | _ => 0

/-- Element of a vector register. -/
def Wave.vget (w : Wave) (n lane : Nat) : Nat := (Tbl.get w.v (1024 * n + lane) 0).toNat

/-- A scalar register. -/
def Wave.sget (w : Wave) (n : Nat) : Nat := (Tbl.get w.s n 0).toNat

/-- A mask register of a fragment: k0 is the fragment's own mask (R115). -/
def Wave.kget (w : Wave) (f : Frag) (n : Nat) : Mask := if n = 0 then f.mask else Tbl.get w.k n 0

/-- The value of an operand code in the type, in a lane, as an encoding of the type's width (R84 to R86, R41). -/
def Env.src (e : Env) (code : Nat) (t : Ty) (lane : Nat) : Nat :=
  let x :=
    if code < 0x80 then
      if tyWide t then e.wv.vget code lane + e.wv.vget (code + 1) lane * 2 ^ 32 else e.wv.vget code lane
    else if code < 0xC0 then e.wv.sget (code - 0x80)
    else if code < 0xE0 then specialVal e.s e.wid e.wv lane code
    else if code < 0xFF then inlineBits t code
    else (e.w.ext.getD 0).toNat
  x % 2 ^ tyBits t

/-- A source in a type whose value takes the whole 32-bit or 64-bit register where the type is narrower (b32, b64). -/
def Env.a (e : Env) (t : Ty) (lane : Nat) : Nat := e.src e.w.a.toNat t lane
def Env.b (e : Env) (t : Ty) (lane : Nat) : Nat := e.src e.w.b.toNat t lane
def Env.c (e : Env) (t : Ty) (lane : Nat) : Nat := e.src e.w.c.toNat t lane

/-- A source whose field is 0xE0 when left out (R455, R514). -/
def Env.uni (e : Env) (code : Nat) (t : Ty) : Nat := e.src code t 0

/-- The lowest active lane; 0 when there is none. -/
def Env.first (e : Env) : Nat := e.lanes.headD 0

/-- Bit `i` of F. -/
def Env.fbit (e : Env) (i : Nat) : Bool := e.w.f.getLsbD i

/-- F[hi:lo]. -/
def Env.f (e : Env) (hi lo : Nat) : Nat := fb e.w hi lo

/-- The type in F[10:6]. -/
def Env.ty (e : Env) : Ty := (tyOf (e.f 10 6)).getD .b32

/-- The rounding mode in F[13:11] (R61). -/
def Env.rm (e : Env) : RM := rmOf e.wv.fpctl (e.f 13 11)

/-- The level in F[13:11]. -/
def Env.level (e : Env) : Nat := e.f 13 11

/-- The token in F[13:11]. -/
def Env.token (e : Env) : Nat := e.f 13 11

/-- ABS, then NEG, on an integer encoding: two's-complement operations that wrap (R90). -/
def absNegInt (t : Ty) (ab ng : Bool) (x : Nat) : Nat :=
  let n := tyBits t
  let y := if ab then wrap n (toSigned n x).natAbs else x
  if ng then wrap n (-(y : Int)) else y

/-- ABS, then NEG, on the sign bits of a float encoding, of both elements of a packed type (R90). -/
def absNegFloat (t : Ty) (ab ng : Bool) (x : Nat) : Nat :=
  let m := if t = .f16x2 ∨ t = .bf16x2 then 0x80008000 else 2 ^ (tyBits t - 1)
  let y := if ab then x - (x &&& m) else x
  if ng then y ^^^ m else y

/-- ABS, then NEG, for the type. -/
def absNeg (t : Ty) (ab ng : Bool) (x : Nat) : Nat :=
  if tyIsFloat t || t == .f16x2 || t == .bf16x2 then absNegFloat t ab ng x else absNegInt t ab ng x

/-- A, B and C with the word's N/A bits in the arithmetic layout (R88, R90). -/
def Env.na (e : Env) (t : Ty) (lane : Nat) : Nat := absNeg t (e.fbit 3) (e.fbit 4) (e.a t lane)
def Env.nb (e : Env) (t : Ty) (lane : Nat) : Nat := absNeg t (e.fbit 1) (e.fbit 2) (e.b t lane)
def Env.nc (e : Env) (t : Ty) (lane : Nat) : Nat := absNeg t false (e.fbit 0) (e.c t lane)

/-! ### Destinations -/

/-- Writes of one element of the type at a register code (R41). -/
def putAt (code : Nat) (t : Ty) (lane x : Nat) : List RegWrite :=
  if code < 0x80 then
    if tyWide t then
      [.v code lane (BitVec.ofNat 32 x), .v (code + 1) lane (BitVec.ofNat 32 (x / 2 ^ 32))]
    else [.v code lane (BitVec.ofNat 32 (place32 t x))]
  else [.s (code - 0x80) (BitVec.ofNat 64 (place64 t x))]

/-- Element results into D: one per active lane, or one into a scalar when some lane is active (R112, R114). -/
def Env.putD (e : Env) (t : Ty) (f : Nat → Nat) : List RegWrite :=
  let d := e.w.d.toNat
  if d < 0x80 then e.lanes.flatMap fun i => putAt d t i (f i)
  else match e.lanes with
    | [] => []
    | i :: _ => putAt d t i (f i)

/-- A scalar into the register named in D. -/
def Env.putS (e : Env) (x : Nat) : List RegWrite := [.s (e.w.d.toNat - 0x80) (BitVec.ofNat 64 x)]

/-- The bits of the active lanes into mask register `n`; the other lanes keep theirs (R114). -/
def Env.putK (e : Env) (n : Nat) (f : Nat → Bool) : List RegWrite :=
  let old := Tbl.get e.wv.k n 0
  let set := maskOf (e.lanes.filter f)
  [.k n ((old &&& ~~~e.act) ||| set)]

/-- Apply one register write. -/
def Wave.write (w : Wave) : RegWrite → Wave
  | .v n lane x => { w with v := Tbl.set 0 w.v (1024 * n + lane) x }
  | .s n x => { w with s := Tbl.set 0 w.s n x }
  | .k n m => if n = 0 then w else { w with k := Tbl.set 0 w.k n (m &&& fullMask w.width) }

/-- Apply register writes in order. -/
def Wave.writes (w : Wave) (l : List RegWrite) : Wave := l.foldl Wave.write w

/-- The register of a write. -/
def RegWrite.reg : RegWrite → RegId
  | .v n _ _ => .v n
  | .s n _ => .s n
  | .k n _ => .k n

/-! ### Completion -/

/-- What a word that completes leaves behind. -/
structure Done where
  s : State
  ws : List RegWrite := []
  /-- Floating-point exceptions by lane (R64, R250). -/
  fl : List (Nat × FFlags) := []
  /-- Destination code for TRAPINFO (R233). -/
  dcode : Nat := 0
  lat : Nat := 4
  /-- The results of a pair's halves, each with its latency (R193); none: one result, with `lat`. -/
  halves : List (List RegId × Nat) := []
  load : Bool := false
  req : Option Nat := none
  /-- Registers that the request will write. -/
  later : List RegId := []
  /-- A trap to take when the result lands. -/
  late : Option TrapRec := none
  /-- No later word issues before the result lands, whatever the lookahead: the word's trap is known (R236). -/
  alone : Bool := false
  /-- A fault of some lanes: the others have completed (R232). -/
  fault : Option TrapRec := none
  report : Option TrapRec := none
  /-- The fragment goes on only when this has passed. -/
  hold : Option Wait := none
deriving DecidableEq, Repr

/-- The answer of a word's meaning. -/
inductive WRes where
  | done (d : Done)
  /-- The word has not completed and waits. -/
  | wait (s : State) (r : Wait)
  /-- The word has issued and its meaning has placed the fragment; register writes are left. -/
  | placed (s : State) (ws : List RegWrite)
  /-- The wave stops, or the word takes a step and is issued again. -/
  | raw (s : State)
deriving DecidableEq, Repr

/-- A fault trap on lanes with nothing completed. -/
def Env.trapNow (e : Env) (cause : Nat) (info addr : W64) (lanes : Mask) : WRes :=
  .done { s := e.s, fault := some (faultRec cause info addr lanes) }

/-- ILLEGAL: TRAPINFO is the word, TRAPLANES k0 (R105). -/
def Env.illegal (e : Env) : WRes := e.trapNow cILLEGAL (e.cl.words.getD e.cl.idx 0) 0 e.frag.mask

/-- The merged exceptions, and those whose trap is enabled outside handler mode, with their lanes (R64, R65, R239, R250). -/
def trappedLanes (w : Wave) (fl : List (Nat × FFlags)) : FFlags × List Nat :=
  if w.handler.isSome then (noFlags, [])
  else
    let on := fl.filter fun p => trappedFlags w.fpctl p.2 != 0
    (mergeFlags (on.map fun p => trappedFlags w.fpctl p.2), on.map (·.1))

/-- The FP report trap of an instruction, if any (R65, R233). TRAPINFO carries the exception bits raised. -/
def fpTrap (w : Wave) (fl : List (Nat × FFlags)) (dcode : Nat) : Option TrapRec :=
  let (t, lanes) := trappedLanes w fl
  if t = 0 then none
  else some (reportRec cFP (BitVec.ofNat 64 ((mergeFlags (fl.map (·.2))).toNat + 256 * dcode)) (maskOf lanes))

/-- TWINTEST: whether this issue of `op` fires the injection, and the block's new counts (R286). -/
def twinFire (t : TwinBlock) (shadow : Bool) (waveKey op issues : Nat) : Bool × TwinBlock :=
  let n := t.test.toNat
  if bits n 61 54 = op ∧ bit n 62 = shadow ∧ Tbl.get t.seen waveKey 0 < issues then
    let hits := t.hits + 1
    let t := { t with hits := hits, seen := Tbl.set 0 t.seen waveKey issues }
    if bit n 63 ∧ hits = bits n 49 32 then
      (true, { t with fired := true, test := t.test &&& ~~~(1#64 <<< 63) })
    else (false, t)
  else (false, t)

/-- The flip of an injection on the named side's register writes (R286, R334). -/
def twinFlip (test : W64) (act : Mask) (ws : List RegWrite) : List RegWrite :=
  let n := test.toNat
  let lane := bits n 25 16
  let b := bits n 5 0 % 32
  if !act.getLsbD lane then ws
  else match ws with
    | [] => []
    | .v r _ _ :: _ => ws.map fun x => match x with
      | .v r' l y => if r' = r ∧ l = lane then .v r' l (y ^^^ (1#32 <<< b)) else x
      | x => x
    | .s r y :: rest => .s r (y ^^^ (1#64 <<< b)) :: rest
    | .k r m :: rest => .k r (m ^^^ BitVec.ofNat 1024 (1 <<< lane)) :: rest

/-- An access of the array is a DRN; it fills the rows of a contribution. -/
def ArrayOp.drains : ArrayOp → Bool
  | .drain .. => true
  | _ => false
def ArrayOp.fills (id : Nat) : ArrayOp → Bool
  | .send i _ _ => i == id
  | _ => false

/-- The access gives the registers of a pending ACR. -/
def ArrayOp.gives (id : Nat) : ArrayOp → Bool
  | .fetch i _ _ _ _ _ _ => i == id
  | _ => false

/-- An ACR's results are flipped when it is reached. -/
def ArrayOp.flipped (id : Nat) (x : W64 × Mask) : ArrayOp → ArrayOp
  | .fetch i b d c n lanes f => .fetch i b d c n lanes (if i = id then some x else f)
  | q => q

/-- A request of whose later results TWINTEST flips a bit: of an engine, on the leader, or of the array (R334). -/
def State.flipReq (s : State) (wid id : Nat) (x : W64 × Mask) : State :=
  let one (r : EngReq) : EngReq := if r.id = id then { r with flip := some x } else r
  State.modWave { s with reqs := s.reqs.map one } wid fun w =>
    { w with arrayQ := w.arrayQ.map (ArrayOp.flipped id x) }

/-- Apply TWINTEST to the writes of the word that issues, or to those that its request `req` will make (R286, R334). -/
def twinInject (e : Env) (s : State) (req : Option Nat) (ws : List RegWrite) : State × List RegWrite :=
  if !s.isTwin e.wv.lid then (s, ws)
  else match s.block (s.leaderBid e.wid e.wv) with
    | none => (s, ws)
    | some b =>
      let op := opBits (e.cl.words.getD e.cl.idx 0)
      if formOf (e.cl.words.getD e.cl.idx 0) = 1 ∨ bits b.twin.test.toNat 61 54 ≠ op then (s, ws)
      else
        let issues := e.wv.twin.issues + 1
        let s := s.modWave e.wid fun w => { w with twin := { w.twin with issues := issues } }
        let (fire, t) := twinFire b.twin e.wv.shadow (e.wv.waveIdx + 16 * ofBool e.wv.shadow) op issues
        let s := s.modBlock (s.leaderBid e.wid e.wv) fun b => { b with twin := t }
        if !fire then (s, ws)
        else match req with
          | some id => (s.flipReq e.wid id (b.twin.test, e.act), twinFlip b.twin.test e.act ws)
          | none => (s, twinFlip b.twin.test e.act ws)

/-- The vector elements that writes replace, as they stand (R183). -/
def Wave.oldOf (w : Wave) (ws : List RegWrite) : List RegWrite :=
  ws.filterMap fun x => match x with
    | .v n l _ => some (.v n l (Tbl.get w.v (1024 * n + l) 0))
    | _ => none

/-- A pending result: its registers, when it may land, and what it holds back (R93, R118, R143). -/
def pendingOf (e : Env) (d : Done) (trap : Option TrapRec) : Pending :=
  { frag := e.fr, regs := dedup (d.ws.map RegWrite.reg ++ d.later), lanes := e.act, old := e.wv.oldOf d.ws,
    due := e.s.cycOf e.wid + d.lat, load := d.load, cl := e.cl, winEnd := e.cl.idx + e.cl.sizeAt e.cl.idx + (if d.alone then 0 else e.w.la.toNat),
    req := d.req, trap := trap }

/-- The pending results of a word: one, or one for each half of a pair (R143, R193). -/
def pendingsOf (e : Env) (d : Done) (trap : Option TrapRec) : List Pending :=
  let p := pendingOf e d trap
  if d.halves.isEmpty then [p]
  else d.halves.map fun h =>
    { p with regs := h.1, old := e.wv.oldOf (d.ws.filter fun x => h.1.contains x.reg), due := e.s.cycOf e.wid + h.2 }

/-- Complete a word: its writes, its flags, the advance, and the trap it raises. A report trap of a word with lookahead
waits until the result lands (R237). -/
def finish (e : Env) (d : Done) : State :=
  let (s, ws) := twinInject e d.s d.req d.ws
  let flags := mergeFlags (d.fl.map (·.2))
  let s := s.modWave e.wid fun w =>
    let w := w.writes ws
    { w with fpflags := fpflagsAfter w.fpflags flags }
  let report := if d.fault.isSome then none else match fpTrap e.wv d.fl d.dcode with
    | some t => some t
    | none => d.report
  let late := e.w.la != 0 && report.isSome
  let s := if d.ws.isEmpty && d.req.isNone && !late && d.late.isNone then s
    else s.modWave e.wid fun w =>
      { w with pending := w.pending ++ pendingsOf e d (if late then report else d.late) }
  match d.fault with
  | some t =>
    let pc := e.cl.wordAddr e.cl.idx
    (s.modFrag e.wid e.fr fun f =>
      { f with wait := none, replay := none, failed := [], answers := [], awaitAns := none,
               clause := some { e.cl with passes := 0 } }).takeTrap e.wid e.fr t pc pc e.frag.resume false
  | none =>
    let next := e.frag.resume.getD (e.cl.idx + e.cl.sizeAt e.cl.idx)
    let s := s.modFrag e.wid e.fr fun f =>
      let f := f.advanceTo e.cl next
      { f with wait := d.hold.orElse fun _ => f.wait }
    if late then s else match report with
      | some t => s.takeTrapHere e.wid e.fr t
      | none => s

/-- The wave as a word of one of its fragments sees it: a handler that another fragment has entered in the same cycle is not
its own (R243). -/
def Wave.seenBy (w : Wave) (fr : Nat) : Wave :=
  match w.handler with
  | some h => if h.frag = fr then w else { w with handler := none }
  | none => w

/-- The environment of the word that issues; none when no live fragment issues. -/
def wordEnv (w : Fields) (s : State) : Option Env :=
  match s.cur with
  | none => none
  | some (wid, fr) =>
    match (s.wave wid).map fun w => w.seenBy fr with
    | none => none
    | some wv =>
      match Tbl.find wv.frags fr with
      | none => none
      | some f =>
        match f.clause with
        | none => none
        | some c =>
          let k := wv.kget f w.k.toNat
          let m := if w.k = 0 then f.mask else if w.kn then f.mask &&& ~~~k else f.mask &&& k
          let m := match f.replay with
            | some r => m &&& r
            | none => m
          some { s := s, wid := wid, fr := fr, wv := wv, frag := f, cl := c, w := w, act := m,
                 lanes := lanesOf wv.width m }

/-- The word has issued though it waits: an arrival at a barrier, a branch without a record (R127, R265). -/
def Wait.issued : Wait → Bool
  | .barb _ | .barc _ | .record => true
  | _ => false

/-- A word that waits: its first wait after it has issued counts as its issue (R286). -/
def countWait (e : Env) (s : State) (r : Wait) : State :=
  if r.issued && e.frag.wait != some r then (twinInject e s none []).1 else s

/-- A word that has placed its fragment: its issue counts, and its registers are written (R286, R334). -/
def settlePlaced (e : Env) (s : State) (ws : List RegWrite) : State :=
  let (s, ws) := twinInject e s none ws
  if ws.isEmpty then s else s.modWave e.wid fun w => w.writes ws

/-- Settle a word's answer. -/
def settleWord (e : Env) (r : WRes) : State :=
  match r with
  | .done d => (finish e d).twinStep e.wid e.wv e.fr
  | .wait s r => (countWait e s r).modFrag e.wid e.fr fun f => { f with wait := some r }
  | .placed s ws => (settlePlaced e s ws).twinStep e.wid e.wv e.fr
  | .raw s => s.twinStep e.wid e.wv e.fr

/-- Run a word's meaning on the fragment that issues. -/
def onWord (w : Fields) (s : State) (body : Env → WRes) : Host.Outcome State Fault Refusal :=
  match wordEnv w s with
  | none => .refused .noFragment
  | some e => .next (settleWord e (body e))

/-- A word that writes elements of type `t` into D from a function of the lane. -/
def Env.elems (e : Env) (t : Ty) (lat : Nat) (f : Nat → Nat) : WRes :=
  .done { s := e.s, ws := e.putD t f, lat := lat }

/-- A word that writes elements of type `t` and raises exceptions by lane (R142). -/
def Env.felems (e : Env) (t : Ty) (lat : Nat) (f : Nat → Nat × FFlags) : WRes :=
  let rs := e.lanes.map fun i => (i, f i)
  let look (i : Nat) : Nat := match rs.find? fun p => p.1 == i with
    | some p => p.2.1
    | none => 0
  .done { s := e.s, ws := e.putD t look, fl := rs.map fun p => (p.1, p.2.2), dcode := e.w.d.toNat, lat := lat }

end Sys2Proof.Machine
end

