-- ==== Sys2Proof/Machine/CrossLane.lean ====
section
/-! DEFINITION. RND and the cross-lane group, 0x67 to 0x6F (R178 to R191). -/

namespace Sys2Proof.Machine

/-! ### RND (R178 to R180) -/

/-- Rotate a 32-bit word left. -/
def rotl32 (x : W32) (n : Nat) : W32 := x.rotateLeft n

/-- The rotations of round n mod 4 (R179). -/
def rotPair (n : Nat) : Nat × Nat :=
  match n % 4 with
  | 0 => (16, 12)
  | 1 => (8, 7)
  | 2 => (13, 19)
  | _ => (24, 5)

/-- One round of Thresh (R179). -/
def threshRound (k0 k1 k2 : W32) (n : Nat) (x : W32 × W32 × W32 × W32) : W32 × W32 × W32 × W32 :=
  let (x0, x1, x2, x3) := x
  let (a, b) := rotPair n
  let x0 := x0 + x1
  let x3 := rotl32 (x3 ^^^ x0) a
  let x2 := x2 + x3
  let x1 := rotl32 (x1 ^^^ x2) b
  let k := match (n + 1) % 3 with
    | 0 => k0
    | 1 => k1
    | _ => k2
  (x0 + k + BitVec.ofNat 32 ((n + 1) * 0x9E3779B9), x1, x2, x3)

/-- Thresh: the 12-round permutation (R179). -/
def thresh (key : W64) (c0 c1 c2 c3 : W32) : W32 × W32 × W32 × W32 :=
  let k0 := key.setWidth 32
  let k1 := (key >>> 32).setWidth 32
  let k2 := k0 ^^^ k1 ^^^ 0x1BD11BDA
  (List.range 12).foldl (fun x n => threshRound k0 k1 k2 n x) (c0 + k0, c1 + k1, c2 + k2, c3)

/-- The key and the second counter word of a wave's draws (R178, R506). -/
def drawKey (s : State) (wid : Nat) (w : Wave) : W64 × W32 :=
  let seed := BitVec.ofNat 64 (recWord (s.record w.lid) 0x10)
  if s.isParticle w.lid then
    let r := match s.block (w.bid wid) with
      | some b => b.round
      | none => 0
    (seed ^^^ (BitVec.ofNat 64 r * 0x9E3779B97F4A7C15), w.part)
  else (seed, BitVec.ofNat 32 w.blocklin)

/-- A draw of SMPL that has not been made yet (R470). -/
def State.drawing (s : State) (wid : Nat) : Bool :=
  s.reqs.any fun r => r.wid == wid && match r.op with
    | .smpl _ _ _ given _ => !given
    | _ => false

/-- RND (R178, R180): it waits while an earlier SMPL of the wave has still to count its draws. -/
def execRnd (w : Fields) (s : State) : Host.Outcome State Fault Refusal :=
  onWord w s fun e =>
    if e.s.drawing e.wid then .wait e.s .allResults else
    let (key, c1) := drawKey e.s e.wid e.wv
    let d := e.w.d.toNat
    let draw (i : Nat) : W32 := Tbl.get e.wv.draw i 0
    let ws := e.lanes.flatMap fun i =>
      let (x0, x1, x2, x3) :=
        thresh key (BitVec.ofNat 32 e.wv.lid) c1 (BitVec.ofNat 32 (e.wv.waveIdx * 1024 + i)) (draw i)
      [.v d i x0, .v (d + 1) i x1, .v (d + 2) i x2, .v (d + 3) i x3]
    let s := e.s.modWave e.wid fun w =>
      { w with draw := e.lanes.foldl (fun t i => Tbl.set 0 t i (draw i + 1)) w.draw }
    .done { s := s, ws := ws, lat := 8 }

/-! ### Segments (R110, R182) -/

/-- First lane of a lane's segment. -/
def Env.segBase (e : Env) (i : Nat) : Nat := i / e.wv.cross * e.wv.cross

/-- Position of a lane in its segment. -/
def Env.pos (e : Env) (i : Nat) : Nat := i % e.wv.cross

/-- The active lanes of the segment that begins at lane `base`. -/
def Env.segLanes (e : Env) (base : Nat) : List Nat := e.lanes.filter fun i => e.segBase i == base

/-- The segments with an active lane. -/
def Env.segs (e : Env) : List Nat := dedup (e.lanes.map e.segBase)

/-- The source position of SHFL (R184). -/
def shflPos (mode c p b : Nat) : Nat :=
  match mode with
  | 0 => b % c
  | 1 => if b ≤ p then p - b else p
  | 2 => if p + b < c then p + b else p
  | _ => p ^^^ (b % c)

/-- The value that A holds at this moment in a source lane: what a pending result of another fragment writes there has not come yet
(R183). -/
def Env.held (e : Env) (t : Ty) (lane : Nat) : Nat :=
  let late := (e.wv.pending.filter fun p => p.frag != e.fr).flatMap (·.old)
  let e : Env := { e with wv := e.wv.writes late }
  e.a t lane

/-- SHFL (R184): the source lane is read whether or not it is active (R183). -/
def execShfl (w : Fields) (s : State) : Host.Outcome State Fault Refusal :=
  onWord w s fun e =>
    let t := e.ty
    e.elems t 6 fun i => e.held t (e.segBase i + shflPos (e.f 3 0) e.wv.cross (e.pos i) (e.b .n32 i))

/-- BCST (R185). -/
def execBcst (w : Fields) (s : State) : Host.Outcome State Fault Refusal :=
  onWord w s fun e =>
    let t := e.ty
    e.elems t 6 fun i => e.held t (e.segBase i + e.uni e.w.b.toNat .n32 % e.wv.cross)

/-- BCST.first (R185). -/
def execBcstFirst (w : Fields) (s : State) : Host.Outcome State Fault Refusal :=
  onWord w s fun e =>
    let t := e.ty
    e.elems t 6 fun i => e.a t ((e.segLanes (e.segBase i)).headD 0)

/-- VOTE's result over the active values of a segment (R186). -/
def voteVal (mode : Nat) (l : List Nat) : Bool :=
  match mode with
  | 0 => l.any (· != 0)
  | 1 => l.all (· != 0)
  | _ => l.all (· == l.headD 0)

/-- VOTE (R186). -/
def execVote (w : Fields) (s : State) : Host.Outcome State Fault Refusal :=
  onWord w s fun e =>
    let t := e.ty
    let res := e.segs.map fun b => (b, voteVal (e.f 3 0) ((e.segLanes b).map (e.a t)))
    .done { s := e.s, ws := e.putK e.w.d.toNat fun i => res.contains (e.segBase i, true), lat := 6 }

/-- Combine of a reduction or an atomic (R187, R306, R311): the value and the exceptions. -/
def combine (op : Nat) (t : Ty) (m : RM) (x y : Nat) : Nat × FFlags :=
  match op with
  | 0 => if t = .f32 then deliver fmtF32 m (addVal m (fval t x) (fval t y))
         else (wrap (tyBits t) (intVal t x + intVal t y), noFlags)
  | 1 => if t = .f32 then deliver fmtF32 .rne (minMaxVal false (fval t x) (fval t y))
         else (if intVal t x ≤ intVal t y then x else y, noFlags)
  | 2 => if t = .f32 then deliver fmtF32 .rne (minMaxVal true (fval t x) (fval t y))
         else (if intVal t x ≥ intVal t y then x else y, noFlags)
  | 3 => (x &&& y, noFlags)
  | 4 => (x ||| y, noFlags)
  | 5 => (x ^^^ y, noFlags)
  | _ => (y, noFlags)

/-- A node of the tree: its value, if any lane below is active, the lanes below, and the exceptions by lane (R187, R250). -/
structure Node where
  val : Option Nat
  lanes : List Nat
  fl : List (Nat × FFlags)
deriving DecidableEq, Repr

/-- Join of two nodes (R187). -/
def joinNode (op : Nat) (t : Ty) (m : RM) (x y : Node) : Node :=
  match x.val, y.val with
  | some a, some b =>
    let (r, f) := combine op t m a b
    let lanes := x.lanes ++ y.lanes
    { val := some r, lanes := lanes,
      fl := x.fl ++ y.fl ++ (if f = 0 then [] else lanes.map fun i => (i, f)) }
  | some _, none => x
  | none, _ => y

/-- One level of the tree. -/
def joinLevel (op : Nat) (t : Ty) (m : RM) : List Node → List Node
  | x :: y :: rest => joinNode op t m x y :: joinLevel op t m rest
  | l => l

/-- The tree over a power of two of positions; `n` levels (R187). -/
def treeReduce (op : Nat) (t : Ty) (m : RM) : Nat → List Node → Node
  | 0, l => l.headD { val := none, lanes := [], fl := [] }
  | n + 1, l => treeReduce op t m n (joinLevel op t m l)

/-- The leaves of `n` lanes from `base` (R187). -/
def Env.leaves (e : Env) (t : Ty) (base n : Nat) : List Node :=
  (List.range n).map fun p =>
    if e.act.getLsbD (base + p) then { val := some (e.a t (base + p)), lanes := [base + p], fl := [] }
    else { val := none, lanes := [], fl := [] }

/-- Merge the exceptions of each lane. -/
def flagsByLane (lanes : List Nat) (fl : List (Nat × FFlags)) : List (Nat × FFlags) :=
  lanes.map fun i => (i, mergeFlags ((fl.filter fun p => p.1 == i).map (·.2)))

/-- REDX (R187). -/
def execRedx (w : Fields) (s : State) : Host.Outcome State Fault Refusal :=
  onWord w s fun e =>
    let t := e.ty
    let res := e.segs.map fun b => (b, treeReduce (e.f 2 0) t e.rm e.wv.cross.log2 (e.leaves t b e.wv.cross))
    let look (i : Nat) : Nat := match res.find? fun p => p.1 == e.segBase i with
      | some p => p.2.val.getD 0
      | none => 0
    .done { s := e.s, ws := e.putD t look, fl := flagsByLane e.lanes (res.flatMap fun p => p.2.fl),
            dcode := e.w.d.toNat, lat := 6 }

/-- Identity(op) of an exclusive scan (R188). -/
def scanIdentity (op : Nat) (t : Ty) : Nat :=
  match op with
  | 0 | 4 | 5 => 0
  | 1 => if t = .f32 then 0x7F800000 else wrap (tyBits t) (maxOf t)
  | 2 => if t = .f32 then 0xFF800000 else wrap (tyBits t) (minOf t)
  | _ => 2 ^ tyBits t - 1

/-- The serial scan over the active lanes of a segment: lane, result, exceptions (R188, R250). -/
def scanFrom (op : Nat) (t : Ty) (m : RM) (excl : Bool) (a : Nat → Nat) :
    Option Nat → List Nat → List (Nat × Nat × FFlags)
  | _, [] => []
  | none, i :: is =>
    (i, if excl then scanIdentity op t else a i, noFlags) :: scanFrom op t m excl a (some (a i)) is
  | some r, i :: is =>
    let (x, f) := combine op t m r (a i)
    (i, if excl then r else x, f) :: scanFrom op t m excl a (some x) is

/-- SCANX (R188). -/
def execScanx (w : Fields) (s : State) : Host.Outcome State Fault Refusal :=
  onWord w s fun e =>
    let t := e.ty
    let res := e.segs.flatMap fun b => scanFrom (e.f 2 0) t e.rm (e.fbit 3) (e.a t) none (e.segLanes b)
    let look (i : Nat) : Nat := match res.find? fun p => p.1 == i with
      | some p => p.2.1
      | none => 0
    .done { s := e.s, ws := e.putD t look, fl := res.map fun p => (p.1, p.2.2), dcode := e.w.d.toNat, lat := 6 }

/-- MATCH (R189). -/
def execMatchEq (w : Fields) (s : State) : Host.Outcome State Fault Refusal :=
  onWord w s fun e =>
    let t := e.ty
    e.elems (if e.wv.cross = 64 then .b64 else .b32) 6 fun i =>
      ((e.segLanes (e.segBase i)).filter fun j => e.a t j == e.a t i).foldl (fun m j => m + 2 ^ e.pos j) 0

/-- REDW: the tree over the whole wave; sD keeps its value when no lane is active (R190). -/
def execRedw (w : Fields) (s : State) : Host.Outcome State Fault Refusal :=
  onWord w s fun e =>
    let t := e.ty
    let r := treeReduce (e.f 2 0) t e.rm e.wv.width.log2 (e.leaves t 0 e.wv.width)
    let ws := match r.val with
      | some x => e.putS (place64 t x)
      | none => []
    .done { s := e.s, ws := ws, fl := flagsByLane e.lanes r.fl, dcode := e.w.d.toNat,
            lat := 8 + 2 * (e.wv.width / 16).log2 }

/-- ELECT: the lowest active lane of the wave; sD keeps its value when there is none (R191). -/
def execElect (w : Fields) (s : State) : Host.Outcome State Fault Refusal :=
  onWord w s fun e => .done { s := e.s, ws := if e.lanes.isEmpty then [] else e.putS e.first, lat := 6 }

/-- ELECT.k: the lowest active lane of each segment (R191). -/
def execElectK (w : Fields) (s : State) : Host.Outcome State Fault Refusal :=
  onWord w s fun e =>
    .done { s := e.s, ws := e.putK e.w.d.toNat fun i => (e.segLanes (e.segBase i)).headD 0 == i, lat := 6 }

end Sys2Proof.Machine
end

