-- ==== Sys2Proof/Machine/Twin.lean ====
section
/-! DEFINITION. The two sides of a TWIN block: the load-value queue, the store signatures and the compare points (R277 to
R287, R332 to R335, R559, R560). -/

namespace Sys2Proof.Machine

/-! ### Signatures (R280) -/

/-- One step of the CRC over a bit. -/
def crcBit (x : W64) : W64 := if x.msb then (x <<< 1) ^^^ 0x42F0E1EBA9EA3693 else x <<< 1

/-- Fold a byte into a CRC-64 (R280). -/
def crcByte (x : W64) (b : Byte) : W64 :=
  let y := x ^^^ (b.setWidth 64 <<< 56)
  crcBit (crcBit (crcBit (crcBit (crcBit (crcBit (crcBit (crcBit y)))))))

/-- Fold bytes into a signature. -/
def crcBytes (x : W64) (l : Bytes) : W64 := l.foldl crcByte x

/-- Fold bytes into the signature of a wave of a TWIN launch. -/
def State.foldSig (s : State) (wid : Nat) (l : Bytes) : State :=
  match s.wave wid with
  | some w =>
    if s.twinned w then
      s.modWave wid fun w => { w with twin := { w.twin with sig := crcBytes w.twin.sig l } }
    else s
  | none => s

/-! ### Compare points (R280) -/

/-- Run a word at a compare point: it waits, with its operands folded into the signature, until TWIN_COMPARE releases it
(R280, R335). -/
def atCompare (e : Env) (operands : Bytes) (body : Env → WRes) : WRes :=
  if !e.s.twinned e.wv then body e
  else
    let here := (e.fr, e.cl.addr, e.cl.idx)
    if e.wv.twin.atPoint = some here then
      if e.wv.twin.released then body e else .wait e.s .twin
    else if e.wv.twin.atPoint.isSome then .wait e.s .twin
    else
      .wait ((e.s.foldSig e.wid operands).modWave e.wid fun w =>
        { w with twin := { w.twin with atPoint := some here, released := false } }) .twin

/-- Whether the word acts for the block: not the shadow's side (R279, R280, R283). -/
def Env.acts (e : Env) : Bool := !(e.s.twinned e.wv && e.wv.shadow)

/-! ### The load-value queue (R278) -/

/-- Bytes that a register write takes in the queue. -/
def lvqBytes (width : Nat) : RegWrite → Nat
  | .v _ _ _ => 4
  | .s _ _ => 8
  | .k _ _ => width / 8

/-- Bytes of the queue in use. -/
def lvqUsed (l : List LvqItem) : Nat := (l.map (·.size)).sum

/-- An item with writes and a trap. -/
def lvqItem (w : Wave) (ws : List RegWrite) (trap : Option TrapRec) : LvqItem :=
  { waveIdx := w.waveIdx, req := none, size := (ws.map (lvqBytes w.width)).sum, writes := ws, trap := trap, spans := [], xcause := 0,
    emptied := false }

/-- The leader passes an item. -/
def State.pushLvq (s : State) (wid : Nat) (w : Wave) (x : LvqItem) : State :=
  if s.twinned w && !w.shadow then
    s.modBlock (w.bid wid) fun b => { b with twin := { b.twin with lvq := b.twin.lvq ++ [x] } }
  else s

/-- The shadow's next item for its wave, once it holds its results. -/
def State.peekLvq (s : State) (wid : Nat) (w : Wave) : Option LvqItem :=
  match s.block (s.leaderBid wid w) with
  | some b => (b.twin.lvq.find? fun x => x.waveIdx == w.waveIdx).filter fun x => x.req.isNone
  | none => none

/-- Take the item out. -/
def State.popLvq (s : State) (wid : Nat) (w : Wave) (x : LvqItem) : State :=
  s.modBlock (s.leaderBid wid w) fun b => { b with twin := { b.twin with lvq := b.twin.lvq.erase x } }

/-- An item would overflow the leader's queue of 64 KiB (R278). -/
def State.lvqFull (s : State) (wid : Nat) (w : Wave) (x : LvqItem) : Bool :=
  s.twinned w && !w.shadow && match s.block (w.bid wid) with
    | some b => decide (lvqUsed b.twin.lvq + x.size > 65536)
    | none => false

/-- The trap of a completed word, of either kind. -/
def Done.trap (d : Done) : Option TrapRec := d.fault.orElse fun _ => d.report

/-- Run a word whose result enters the block from outside: the leader passes it, the shadow takes it (R278). `effect` is
what the shadow does beside the register writes. -/
def passed (e : Env) (body : Env → WRes) (effect : Env → LvqItem → State) : WRes :=
  if !e.s.twinned e.wv then body e
  else if e.wv.shadow then
    match e.s.peekLvq e.wid e.wv with
    | none => .wait e.s .twin
    | some x =>
      let s := effect { e with s := e.s.popLvq e.wid e.wv x } x
      .done { s := s, ws := x.writes,
              fault := x.trap.filter fun t => t.fault, report := x.trap.filter fun t => !t.fault }
  else match body e with
    | .done d =>
      if e.s.lvqFull e.wid e.wv (lvqItem e.wv d.ws d.trap) then .wait e.s .twin
      else .done { d with s := d.s.pushLvq e.wid e.wv (lvqItem e.wv d.ws d.trap) }
    | r => r

/-! ### The atomic log (R283) -/

/-- The log's answer to a word that a rollback runs again: the next of the wave's entries that has not been answered. -/
def loggedAt (e : Env) : Option AtomicEntry :=
  if !e.s.twinned e.wv then none
  else (e.s.block (e.wv.bid e.wid)).bind fun b =>
    (b.twin.log.filter fun x => x.waveIdx == e.wv.waveIdx)[Tbl.get b.twin.replayed e.wv.waveIdx 0]?

/-- One more entry of the wave has been performed or answered since the last rollback. -/
def countLog (e : Env) (s : State) : State :=
  s.modBlock (e.wv.bid e.wid) fun b =>
    let n := Tbl.get b.twin.replayed e.wv.waveIdx 0
    { b with twin := { b.twin with replayed := Tbl.set 0 b.twin.replayed e.wv.waveIdx (n + 1) } }

/-- Enter what a word of a TWIN block has performed: its writes and its trap, or the request that will give them. -/
def pushLog (e : Env) (s : State) (ws : List RegWrite) (trap : Option TrapRec) (req : Option Nat) : State :=
  if !e.s.twinned e.wv then s
  else
    let x : AtomicEntry := { waveIdx := e.wv.waveIdx, clause := e.cl.addr, idx := e.cl.idx, writes := ws, trap := trap, req := req }
    countLog e (s.modBlock (e.wv.bid e.wid) fun b => { b with twin := { b.twin with log := b.twin.log ++ [x] } })

/-- Perform an atomic of a TWIN block once: the log answers a word that a rollback runs again (R283). -/
def onceLogged (e : Env) (body : Env → WRes) : WRes :=
  match loggedAt e with
  | some x =>
    .done { s := countLog e e.s, ws := x.writes, fault := x.trap.filter fun t => t.fault, report := x.trap.filter fun t => !t.fault }
  | none =>
    match body e with
    | .done d => .done { d with s := pushLog e d.s d.ws d.trap none }
    | r => r

/-- A word that the leader alone performs, once, at a compare point (R280, R283, R425, R446, R519). -/
def leaderOnce (e : Env) (operands : Bytes) (body : Env → WRes) : WRes :=
  atCompare e operands fun e => passed e (fun e => onceLogged e body) fun e _ => e.s

/-- A passed word with no other effect on the shadow's side. -/
def onPassed (w : Fields) (s : State) (body : Env → WRes) : Host.Outcome State Fault Refusal :=
  onWord w s fun e => passed e body fun e _ => e.s

end Sys2Proof.Machine
end

