-- ==== Sys2Proof/Machine/Access.lean ====
section
/-! DEFINITION. Translation (R427 to R430, R549), the homes of bytes and their keys (R396 to R398, R495, R533), update-only
lines (R407, R408), the scope tables (R382, R383, R410, R411), region counts (R414 to R417), and the host port and the peer
ports as a home (R398, R547, R551). -/

namespace Sys2Proof.Machine

/-! ### Sizes and lines -/

/-- Bytes of an element (R296). -/
def elemBytes (t : Ty) : Nat := tyBits t / 8

/-- Line of an address. -/
def lineOf (a : Nat) : Nat := a / 64

/-- Lines of a byte table, whose keys rise. -/
def lineCount {β : Type} : Tbl β → Nat
  | [] => 0
  | [_] => 1
  | (a, _) :: (b, y) :: t => (if a / 64 = b / 64 then 0 else 1) + lineCount ((b, y) :: t)

/-- An address is a sign-extended 57-bit address (R295 step 2). -/
def vaSigned (va : Nat) : Bool := bits va 63 57 == (if bit va 56 then 127 else 0)

/-- Slice of a device address within its die (R396). -/
def sliceOf (pa : Nat) : Nat :=
  (bits pa 17 12) ^^^ (bits pa 23 18) ^^^ (bits pa 29 24) ^^^ (bits pa 35 30) ^^^ (bits pa 36 36)

/-- Die of a device address (R396). -/
def dieOfPa (pa : Nat) : Nat := bits pa 38 37

/-! ### Keys and bytes at home (R397, R533) -/

/-- The key of a context, as a number above zero. -/
def State.keyOf (s : State) (ctx : Nat) : Nat :=
  match (s.ctx ctx).key with
  | some k => k + 1
  | none => 0

/-- What a byte of a device line reads as under a context's key (R495, R533). -/
def State.underKey (s : State) (ctx pa : Nat) (b : Byte) : Byte :=
  let k := Tbl.get s.lineKey (lineOf pa) 0
  if k = 0 ∨ k = s.keyOf ctx then b else Config.otherKeyByte pa k (s.keyOf ctx) b

/-- The byte that host memory will hold once every held commit is released (R398). -/
def State.hostByte (s : State) (ha : Nat) : Byte :=
  s.heldSys.foldl (fun b h => h.bytes.foldl (fun b p => if p.1 = ha then p.2 else b) b) (Memory.read s.hostMem ha)

/-- The byte at dev level (R397, R398). A peer's byte is not here. -/
def State.homeByte (s : State) (ctx : Nat) : Loc → Byte
  | .dev pa => s.underKey ctx pa (Memory.read s.mem pa)
  | .host ha => s.hostByte ha
  | .peer _ _ _ => 0

/-- Turn a line over to a context's key: the bytes it does not write become what its key makes of them (R533). -/
def State.takeLine (s : State) (ctx pa : Nat) : State :=
  let line := lineOf pa
  let k := Tbl.get s.lineKey line 0
  let me := s.keyOf ctx
  if k = me then s
  else
    let old := (List.range 64).map fun i => s.underKey ctx (64 * line + i) (Memory.read s.mem (64 * line + i))
    let mem := if k = 0 then s.mem else Memory.writes s.mem (64 * line) old
    { s with mem := mem, lineKey := Tbl.set 0 s.lineKey line me }

/-- Granule of a device address and its key in the replay store (R527). -/
def granuleKey (lid pa : Nat) : Nat := lid * 2 ^ 27 + pa / 4096

/-- Copy a granule before the launch's first write to it (R527). -/
def State.protect (s : State) (lid pa : Nat) : State :=
  if !s.isReplay lid || Tbl.mem s.replay (granuleKey lid pa) then s
  else
    let base := alignDown pa 4096
    let bytes := s.mem.filter fun p => base ≤ p.1 && p.1 < base + 4096
    let keys := s.lineKey.filter fun p => base / 64 ≤ p.1 && p.1 < base / 64 + 64
    { s with replay := Tbl.put s.replay (granuleKey lid pa) { lid := lid, bytes := bytes, keys := keys } }

/-- The replay store has room for granules with these keys: 256 MiB of granules of 4 KiB (R527, R528). -/
def State.roomFor_ (s : State) (keys : List Nat) : Bool :=
  let n := ((dedup keys).filter fun k => !Tbl.mem s.replay k).length
  n == 0 || decide (s.replay.length + n ≤ 65536)

/-- Granules that the update-only copies of lines write when they go home, by the launch that gathered them. -/
def State.uKeys (s : State) (lines : List Nat) : List Nat :=
  s.cores.flatMap fun c => c.2.u.filterMap fun u =>
    if lines.contains u.1 && s.isReplay u.2.lid then some (granuleKey u.2.lid (64 * u.1)) else none

/-- The replay store has room for a launch's writes, and for the update-only copies that they recall (R408, R528). -/
def State.replayRoom (s : State) (lid : Nat) (pas : List Nat) : Bool :=
  s.roomFor_ ((if s.isReplay lid then pas.map (granuleKey lid) else []) ++ s.uKeys (dedup (pas.map lineOf)))

/-- A write of a launch finds the replay store full: it waits while another REPLAY launch may free room, and otherwise its
launch is killed without replay (R528). -/
def State.starveStep (s : State) (lid : Nat) : Option State :=
  if s.launches.any fun l => l.1 != lid && s.isReplay l.1 then none
  else if (s.launch lid).all fun l => l.killReq.isSome then none
  else some (s.modLaunch lid fun l => { l with killReq := some 0, kills := 2 })
def State.starve (s : State) (lid : Nat) : State := (s.starveStep lid).getD s

/-- Write one byte of device memory under a context's key (R397). -/
def State.putDev (s : State) (ctx lid pa : Nat) (b : Byte) : State :=
  let s := s.protect lid pa
  let s := s.takeLine ctx pa
  { s with mem := Memory.write s.mem pa b }

/-- Clear the poison of every line that the list writes whole (R433). -/
def State.unpoison (s : State) (pas : List Nat) : State :=
  { s with poison := s.poison.filter fun l => (pas.filter fun a => lineOf a == l).length < 64 }

/-! ### Update-only lines (R407, R408) -/

/-- Combine one core's partial of one element into home (R408). -/
def combineHome (s : State) (u : ULine) (pa : Nat) (part : W64) : State :=
  let t := (tyOf u.ty).getD .b32
  let n := elemBytes t
  let old := ofLE ((List.range n).map fun i => s.homeByte u.ctx (.dev (pa + i)))
  let x := (combine u.op t .rne old part.toNat).1
  ((List.range n).zip (leBytes n x)).foldl (fun s p => s.putDev u.ctx u.lid (pa + p.1) p.2) s

/-- Send one core's update-only copy of a line home. -/
def State.sendU (s : State) (core line : Nat) : State :=
  match Tbl.find (s.core core).u line with
  | none => s
  | some u =>
    let s := u.elems.foldl (fun s p => combineHome s u (64 * line + p.1) p.2) s
    s.modCore core fun c => { c with u := Tbl.del c.u line }

/-- Recall every update-only copy of a line, in ascending package core index (R408). -/
def State.recall (s : State) (line : Nat) : State :=
  (s.cores.filter fun c => Tbl.mem c.2.u line).foldl (fun s c => s.sendU c.1 line) s

/-- The lines of device places. -/
def devLines (ls : List Loc) : List Nat := dedup (ls.filterMap fun l => match l with | .dev pa => some (lineOf pa) | _ => none)

/-- Recall the lines of device places. -/
def State.recallLocs (s : State) (ls : List Loc) : State := (devLines ls).foldl State.recall s

/-- The replay store has room for what the recall of device places writes (R408, R528). -/
def State.recallRoom (s : State) (ls : List Loc) : Bool := s.roomFor_ (s.uKeys (devLines ls))

/-- A recall finds the replay store full. -/
def State.starveAtStep (s : State) (ls : List Loc) : Option State :=
  (dedup ((s.uKeys (devLines ls)).map (· / 2 ^ 27))).findSome? s.starveStep
def State.starveAt (s : State) (ls : List Loc) : State := (s.starveAtStep ls).getD s

/-! ### Lines that a DET launch holds open (R525), poison (R433) -/

/-- The line of a place is open to a DET launch other than `lid`. -/
def State.openTo (s : State) (lid : Option Nat) (l : Loc) : Bool :=
  match l with
  | .dev pa =>
    s.det.any fun d => some (d.1 / 2 ^ 32) != lid && (d.2.opened :: d.2.closed).any fun g =>
      g.reds.any fun r => match r.loc with | .dev x => lineOf x == lineOf pa | _ => false
  | _ => false

/-- The line of a place is poisoned. -/
def State.poisoned (s : State) (l : Loc) : Bool :=
  match l with
  | .dev pa => s.poison.contains (lineOf pa)
  | _ => false

/-- The error that a read of an array meets (R432): counted at the die; an uncorrectable line at home is poisoned, and its
address recorded. -/
def State.foundError (s : State) (die : Nat) (pa : Option Nat) (found : EccRead) : State :=
  match found with
  | .clean => s
  | .corrected => s.modDie die fun d => { d with errCorr := min 0xFFFFFFFF (d.errCorr + 1) }
  | .uncorrectable =>
    let s := s.modDie die fun d => { d with errUncorr := min 0xFFFFFFFF (d.errUncorr + 1) }
    match pa with
    | none => s
    | some a =>
      let s := s.modDie die fun d => { d with errLast := some a }
      if s.poison.contains (lineOf a) then s else { s with poison := s.poison ++ [lineOf a] }

/-- The die and the physical address of a word with an error. -/
def SoftAt.place : SoftAt → Nat × Option Nat
  | .home line => (dieOfPa (64 * line), some (64 * line))
  | .l1 core key => (dieOfCore core, if key % 2 = 0 then some (64 * (key / 2 % 2 ^ 33)) else none)
  | .scratch bid _ => (dieOfCore (bid / 8), none)

/-- A demand read meets the errors of the words it reads (R432). -/
def State.meetErrors (s : State) (reads : SoftAt → Bool) : State :=
  let mine := s.soft.filter fun x => reads x.1
  mine.foldl (fun s x => s.foundError x.1.place.1 x.1.place.2 x.2) { s with soft := s.soft.filter fun x => !reads x.1 }

/-- A demand read of places at home. -/
def State.meetHome (s : State) (ls : List Loc) : State :=
  if s.soft.isEmpty then s
  else s.meetErrors fun x => match x with
    | .home line => ls.any fun l => match l with | .dev pa => lineOf pa == line | _ => false
    | _ => false

/-- A freeze notice (R532). -/
def freezeNotice (kind cause ctx loc lid : Nat) : W64 :=
  BitVec.ofNat 64 (kind * 2 ^ 60 + cause * 2 ^ 56 + ctx % 256 * 2 ^ 48 + loc % 65536 * 2 ^ 32 + lid % 2 ^ 32)

/-- Post a freeze notice to the physical function's mailbox (R532). -/
def State.notice (s : State) (n : W64) : State :=
  { s with sec := { s.sec with mailbox := s.sec.mailbox ++ [n], freezes := s.sec.freezes + 1 } }

/-- WHERE of a wave or an engine on a core: die in [47:46], core in [45:40] (R532). -/
def whereOf (core : Nat) : Nat := dieOfCore core * 2 ^ 14 + core % 64 * 2 ^ 8

/-- Freeze a wave with DET_INTRUSION (R525, R532). -/
def State.intrude (s : State) (wid : Nat) : State :=
  match s.wave wid with
  | none => s
  | some w =>
    (s.modWave wid fun w => { w with frozen := some .intrusion }).notice
      (freezeNotice 1 2 w.ctx (whereOf (coreOfWave wid)) w.lid)

/-- A wave consumes a poisoned line: UNCORRECTABLE (R433). -/
def State.uncorrectable (s : State) (wid : Nat) : State :=
  match s.wave wid with
  | none => s
  | some w => (s.modWave wid fun w => { w with frozen := some .uncorrectable }).askKill w.lid cUNCORRECTABLE

/-- A wave's access to lines at home: none when it may go on, else the state in which it stops (R433, R525). -/
def State.homeStop (s : State) (wid lid : Nat) (ls : List Loc) : Option State :=
  if ls.any fun l => s.openTo (some lid) l then some (s.intrude wid)
  else if ls.any s.poisoned then some (s.uncorrectable wid)
  else none

/-! ### Translation (R427 to R430) -/

/-- Bytes of a page at each leaf level. -/
def pageSize (level : Nat) : Nat := match level with | 0 => 2 ^ 16 | 1 => 2 ^ 21 | _ => 2 ^ 30

/-- What an entry of a table is (R428). -/
inductive Entry where
  | bad
  | leaf (p : Page)
  | table (addr : Nat)
deriving DecidableEq, Repr

/-- Read an entry of a table of level `l` on the way to an address (R428). -/
def entryOf (v l e : Nat) : Entry :=
  let addr := bits e 63 8 * 256
  if !bit e 0 || bit e 7 || bit e 5 then .bad
  else if bit e 1 then
    if l ≥ 3 ∨ addr % pageSize l ≠ 0 ∨ (!bit e 6 ∧ addr ≥ 2 ^ 39) then .bad
    else .leaf { vbase := alignDown v (pageSize l), size := pageSize l, pbase := addr, sys := bit e 6, x := bit e 4, w := bit e 3,
                 r := bit e 2 }
  else if l = 0 ∨ bit e 6 ∨ addr % (if l = 1 then 256 else 4096) ≠ 0 ∨ addr ≥ 2 ^ 39 then .bad
  else .table addr

/-- The walk from a table at a level one below `n` (R427, R428). -/
def walkFrom (s : State) (ctx v : Nat) : Nat → Nat → Option Page
  | 0, _ => none
  | l + 1, table =>
    let idx := if l = 0 then bits v 20 16 else bits v (9 * l + 20) (9 * l + 12)
    let e := ofLE ((List.range 8).map fun i => s.homeByte ctx (.dev (table + 8 * idx + i)))
    match entryOf v l e with
    | .bad => none
    | .leaf p => some p
    | .table a => walkFrom s ctx v l a

/-- The page of an address, by the context's tables (R427). -/
def State.walk (s : State) (ctx va : Nat) : Option Page :=
  walkFrom s ctx (va % 2 ^ 57) 5 (bits (s.ctx ctx).word0.toNat 63 12 * 4096)

/-- Key of a walk cache's entry: the context, the address bits that the level and those above it translate, and the level
(R427, R429). -/
def walkKey (ctx v l : Nat) : Nat := ctx * 2 ^ 41 + bits v 56 (9 * l + 12) * 8 + l

/-- Read an entry of a table of a level in 4 to 1 by the die's walk cache, which holds what it has read of valid entries until
an invalidation or a replacement, whose order is open (R429). -/
def State.cachedEntry (s : State) (die ctx v l at_ : Nat) : State × Nat :=
  let read := ofLE ((List.range 8).map fun i => s.homeByte ctx (.dev (at_ + i)))
  match Tbl.find (s.die die).walkCache (walkKey ctx v l) with
  | some e =>
    let (n, s) := s.fresh
    if Config.walkHeld n then (s, e.toNat) else (s, read)
  | none => (s, read)

/-- The walk as a die makes it for its cores (R427 to R429): as `walkFrom`, with the entries of levels 4 to 1 by the cache. -/
def walkCached (ctx v die : Nat) : State → Nat → Nat → State × Option Page
  | s, 0, _ => (s, none)
  | s, l + 1, table =>
    if l = 0 then (s, walkFrom s ctx v 1 table)
    else
      let at_ := table + 8 * bits v (9 * l + 20) (9 * l + 12)
      let (s, e) := s.cachedEntry die ctx v l at_
      let keep (s : State) : State := s.modDie die fun d => { d with walkCache := Tbl.put d.walkCache (walkKey ctx v l) (BitVec.ofNat 64 e) }
      match entryOf v l e with
      | .bad => (s, none)
      | .leaf p => (keep s, some p)
      | .table a => walkCached ctx v die (keep s) l a

/-- The page of an address, by the walk of a die. -/
def State.walkOnDie (s : State) (die ctx va : Nat) : State × Option Page :=
  walkCached ctx (va % 2 ^ 57) die s 5 (bits (s.ctx ctx).word0.toNat 63 12 * 4096)

/-- Key of a TLB entry: tagged by context (R429). -/
def tlbKey (ctx vbase : Nat) : Nat := ctx * 2 ^ 41 + vbase / 2 ^ 16

/-- The TLB entry that covers an address. -/
def tlbFind (t : Tbl Page) (ctx va : Nat) : Option Page :=
  let v := va % 2 ^ 57
  [2 ^ 16, 2 ^ 21, 2 ^ 30].findSome? fun n =>
    match Tbl.find t (tlbKey ctx (alignDown v n)) with
    | some p => if p.size = n then some p else none
    | none => none

/-- Put a page into a core's TLB of 1,024 entries (R429). -/
def State.tlbFill (s : State) (core ctx : Nat) (p : Page) : State :=
  let t := (s.core core).tlb
  if t.length < 1024 then s.modCore core fun c => { c with tlb := Tbl.put c.tlb (tlbKey ctx p.vbase) p }
  else
    let (n, s) := s.fresh
    s.modCore core fun c =>
      { c with tlb := Tbl.put (c.tlb.eraseIdx (Config.tlbVictim n % 1024)) (tlbKey ctx p.vbase) p }

/-- The permission of a page. -/
def Page.allows (p : Page) : Need → Bool
  | .read => p.r
  | .write => p.w
  | .fetch => p.x

/-- The place of an address within its page. -/
def Page.loc (p : Page) (va : Nat) : Loc :=
  let a := p.pbase + va % 2 ^ 57 % p.size
  if p.sys then .host a else .dev a

/-- What becomes of an address. -/
inductive Resolved where
  | ok (l : Loc)
  | miss
  | bad (cause : Nat)
deriving DecidableEq, Repr

/-- The aperture of a context that holds an address (R549). -/
def State.aperture (s : State) (ctx va : Nat) : Option (W64 × W64) :=
  let v := va % 2 ^ 57
  (s.apertures.find? fun p =>
    let n := p.2.1.toNat
    let size := 2 ^ bits n 49 45
    bits n 63 56 == ctx && bit n 55 && decide (16 ≤ bits n 49 45 ∧ bits n 49 45 ≤ 40) &&
      alignDown (bits n 40 0 * 2 ^ 16) size == alignDown v size).map (·.2)

/-- The place that an aperture gives an address, or PROT (R549, R552). -/
def State.peerLoc (s : State) (e : W64 × W64) (va : Nat) (need : Need) : Resolved :=
  let n := e.1.toNat
  let size := 2 ^ bits n 49 45
  let port := bits n 53 50
  if (need == .write && !bit n 54) || need == .fetch || !(Tbl.get s.ports port Port.reset).up then .bad cPROT
  else .ok (.peer port (bits e.2.toNat 63 56) (bits e.2.toNat 40 0 * 2 ^ 16 + va % 2 ^ 57 % size))

/-- Steps 2 and 3 of R295 with a page found by `find`. -/
def State.resolveWith (s : State) (ctx va : Nat) (need : Need) (find : Option Page) (none_ : Resolved) : Resolved :=
  if !vaSigned va then .bad cPROT
  else match s.aperture ctx va with
    | some e => s.peerLoc e va need
    | none =>
      match find with
      | some p => if p.allows need then .ok (p.loc va) else .bad cPROT
      | none => none_

/-- An access of a wave: by its core's TLB; a page that was answered with fail raises PAGE (R295, R429, R430). -/
def State.resolve (s : State) (core ctx : Nat) (failed : List Nat) (va : Nat) (need : Need) : Resolved :=
  s.resolveWith ctx va need (tlbFind (s.core core).tlb ctx va)
    (if failed.contains (va % 2 ^ 57 / 2 ^ 16) then .bad cPAGE else .miss)

/-- An access of a unit that walks for itself: a copy engine, an engine, the launch front, the host window. -/
def State.resolveNow (s : State) (ctx va : Nat) (need : Need) : Resolved :=
  s.resolveWith ctx va need (s.walk ctx va) .miss

/-- Ask for a walk for a fragment's word (R429): misses of one page are merged when the walk is made. -/
def State.askWalk (s : State) (wid fr ctx va : Nat) (need : Need) : State :=
  s.modDie (dieOfCore (coreOfWave wid)) fun d =>
    { d with walks := d.walks ++ [{ wid := wid, frag := fr, ctx := ctx, va := va, need := need }] }

/-! ### Regions (R414 to R417) -/

/-- The sources that regions count. -/
inductive Src where
  | host
  | peer
  | copy
  | cmt
deriving DecidableEq, Repr

/-- A region counts a source. -/
def Region.counts (r : Region) : Src → Bool
  | .host => r.srcHost
  | .peer => r.srcPeer
  | .copy => r.srcCopy
  | .cmt => r.srcCmt

/-- Greatest byte count (R417). -/
def satMax : Nat := 2 ^ 48 - 1

/-- Add an arrival (R416 step 1, R417). -/
def Region.arrive (r : Region) (n : Nat) : Region :=
  if n = 0 then r
  else { r with arrived := min satMax (r.arrived + n), ovf := r.ovf || decide (r.arrived + n > satMax) }

/-- The region's range holds a device address (R413). -/
def Region.holds (r : Region) (pa : Nat) : Bool :=
  let size := 2 ^ r.log2sz
  let base := alignDown r.pbase size
  decide (base ≤ pa) && decide (pa < base + size)

/-- Count written bytes in every armed region of the owner context (R414). -/
def State.countArrivals (s : State) (ctx : Nat) (src : Src) (pas : List Nat) : State :=
  let count (_ : Nat) (r : Region) : Region :=
    if r.armed && r.valid && r.owner == ctx && r.counts src then r.arrive (pas.filter r.holds).length else r
  { s with regions := Tbl.mapv count s.regions }

/-! ### Scope tables (R382, R383, R410, R411) -/

/-- The party of a wave. -/
def partyOf (wid : Nat) (w : Wave) : Party := .wave w.lid w.crew w.blocklin (coreOfWave wid)

/-- Level `l` of party `p` includes party `q` (R411). -/
def includes (l : Nat) (p q : Party) : Bool :=
  match l, p, q with
  | 4, _, _ => true
  | 3, _, .wave _ _ _ _ => true
  | 2, .wave a c _ _, .wave b d _ _ => a == b && c == d
  | 1, .wave a u c _, .wave b v d _ => a == b && u == v && c == d
  | _, _, _ => false

/-- Put an entry into a scope table; `same` says which entries share the unit's 4,096 (R382, R410). -/
def scopePut (t : Tbl ScopeEntry) (same : Nat → Bool) (key : Nat) (e : ScopeEntry) : Tbl ScopeEntry :=
  if Tbl.mem t key then Tbl.put t key e
  else
    let mine := t.filter fun p => same p.1
    if mine.length < 4096 then Tbl.put t key e
    else match mine with
      | [] => Tbl.put t key e
      | m :: ms =>
        let old := ms.foldl (fun a b => if b.2.used < a.2.used then b else a) m
        Tbl.put (Tbl.del t old.1) key e

/-- Rewrite the home entry of a line. -/
def State.scopeHome (s : State) (line l : Nat) (p : Party) : State :=
  let (n, s) := s.fresh
  let slice (x : Nat) : Nat × Nat := (dieOfPa (64 * x), sliceOf (64 * x))
  { s with scope := scopePut s.scope (fun x => slice x == slice line) line { level := l, party := p, used := n } }

/-- Hub of a core. -/
def hubOf (core : Nat) : Nat := core / 8

/-- Key of a line in a hub's table. -/
def hubKey (hub line : Nat) : Nat := hub * 2 ^ 33 + line

/-- Rewrite the hub entry of a line. -/
def State.scopeHub (s : State) (core line l : Nat) (p : Party) : State :=
  let (n, s) := s.fresh
  let hub := hubOf core
  let e : ScopeEntry := { level := l, party := p, used := n }
  { s with hubScope := scopePut s.hubScope (fun x => x / 2 ^ 33 == hub) (hubKey hub line) e }

/-- TRAPINFO of a home's SCOPE (R411). -/
def scopeInfoHome (s : State) (e : ScopeEntry) : Nat :=
  match e.party with
  | .wave lid crew blk _ => e.level + 0x40 + (if s.isParticle lid then blk else crew) % 65536 * 2 ^ 16 + lid % 65536 * 2 ^ 32
  | .outside => e.level + 8 + 0x40

/-- TRAPINFO of a hub's SCOPE (R383). -/
def scopeInfoHub (e : ScopeEntry) : Nat :=
  match e.party with
  | .wave _ _ blk core => e.level + core % 8 * 2 ^ 8 + blk % 65536 * 2 ^ 16
  | .outside => e.level

/-- The check at home: the state with the entry rewritten, or TRAPINFO (R411). -/
def State.checkHome (s : State) (line l : Nat) (p : Party) : Except Nat State :=
  match Tbl.find s.scope line with
  | none => .ok (s.scopeHome line l p)
  | some e =>
    if includes l p e.party && includes e.level e.party p then .ok (s.scopeHome line l p) else .error (scopeInfoHome s e)

/-- The check at the hub for block and crew level; a miss registers at home (R382, R383, R410). -/
def State.checkHub (s : State) (core line l : Nat) (p : Party) : Except Nat State :=
  match Tbl.find s.hubScope (hubKey (hubOf core) line) with
  | some e => if includes l p e.party then .ok (s.scopeHub core line l p) else .error (scopeInfoHub e)
  | none =>
    match s.checkHome line l p with
    | .ok s => .ok (s.scopeHub core line l p)
    | .error n => .error n

/-- The scope check of an atomic at a level. -/
def State.checkScope (s : State) (core line l : Nat) (p : Party) : Except Nat State :=
  if l ≤ 2 then s.checkHub core line l p else s.checkHome line l p

/-- Drop the entries that name a crew (R384, R412). -/
def State.scopeDropCrew (s : State) (lid crew : Nat) : State :=
  let keep (_ : Nat) (e : ScopeEntry) : Bool := match e.party with
    | .wave a c _ _ => !(a == lid && c == crew)
    | .outside => true
  { s with scope := Tbl.keep keep s.scope, hubScope := Tbl.keep keep s.hubScope }

/-- Drop the entries that name a launch (R412). -/
def State.scopeDropLaunch (s : State) (lid : Nat) : State :=
  let keep (_ : Nat) (e : ScopeEntry) : Bool := match e.party with
    | .wave a _ _ _ => a != lid
    | .outside => true
  { s with scope := Tbl.keep keep s.scope, hubScope := Tbl.keep keep s.hubScope }

/-! ### Writes at home -/

/-- The runs of consecutive addresses in ascending order, each of at most 256 bytes (R547). -/
def postedRuns : List (Nat × Byte) → List (Nat × Bytes)
  | [] => []
  | (a, b) :: t =>
    match postedRuns t with
    | (c, bs) :: rest => if c = a + 1 ∧ bs.length < 256 then (a, b :: bs) :: rest else (a, [b]) :: (c, bs) :: rest
    | [] => [(a, [b])]

/-- Ascending order by address; of equal addresses the later one stays. -/
def sortBytes (l : List (Nat × Byte)) : Tbl Byte := l.foldl (fun t p => Tbl.put t p.1 p.2) []

/-- Release one held commit to host memory as posted writes (R547). -/
def State.releaseHeld (s : State) (h : HeldCommit) : State :=
  let runs := postedRuns (sortBytes h.bytes)
  { s with hostMem := runs.foldl (fun m r => Memory.writes m r.1 r.2) s.hostMem,
           hostOut := s.hostOut ++ runs.map fun r => .posted r.1 r.2 }

/-- Release the held commits that satisfy `p`, in their order (R398, R547). -/
def State.releaseWhere (s : State) (p : HeldCommit → Bool) : State :=
  let go := s.heldSys.filter p
  go.foldl State.releaseHeld { s with heldSys := s.heldSys.filter fun h => !p h }

/-- Split bytes by where they live. -/
def devBytes (l : List (Loc × Byte)) : List (Nat × Byte) :=
  l.filterMap fun p => match p.1 with | .dev a => some (a, p.2) | _ => none
def hostBytes (l : List (Loc × Byte)) : List (Nat × Byte) :=
  l.filterMap fun p => match p.1 with | .host a => some (a, p.2) | _ => none
/-- Bytes for peers: port, remote context, remote address, byte. -/
def peerBytes (l : List (Loc × Byte)) : List (Nat × Nat × Nat × Byte) :=
  l.filterMap fun p => match p.1 with | .peer q c a => some (q, c, a, p.2) | _ => none

/-- Drop the L1 copies of device lines in a core, for one context. -/
def devLineKey (ctx line : Nat) : Nat := 2 * (ctx * 2 ^ 33 + line)

/-- Key of the L1 copy of a crew-buffer line. -/
def crewLineKey (ck line : Nat) : Nat := 2 * (ck * 2 ^ 58 + line) + 1

/-- Drop L1 copies of a core by key. -/
def State.dropCopies (s : State) (core : Nat) (keys : List Nat) : State :=
  s.modCore core fun c => { c with l1 := Tbl.keep (fun k _ => !keys.contains k) c.l1 }

/-- Write device bytes at home and count them (R397, R408, R414, R415). -/
def State.writeDev (s : State) (ctx lid : Nat) (src : Option Src) (l : List (Nat × Byte)) : State :=
  let s := (dedup (l.map fun p => lineOf p.1)).foldl State.recall s
  let s := l.foldl (fun s p => s.putDev ctx lid p.1 p.2) s
  let s := s.unpoison (l.map (·.1))
  match src with
  | some x => s.countArrivals ctx x (l.map (·.1))
  | none => s

/-- Send operations over ports as one group: of each, its port, its kind, its remote bytes and its local address (R551). -/
def State.sendOps (s : State) (lid wid fr : Nat) (l : List (Nat × PeerKind × List (Nat × Nat × Byte) × Nat)) : State :=
  let grp := s.free
  l.foldl (fun s x =>
    let (n, s) := s.fresh
    let op : PeerOp := { id := n, grp := grp, port := x.1, kind := x.2.1, lid := lid, wid := wid, frag := fr, bytes := x.2.2.1,
                         va := x.2.2.2 }
    { s with peerOps := s.peerOps ++ [op] }) s

/-- Send the bytes of one commit to the peers, one unit for each port (R551). -/
def State.sendUnits (s : State) (lid wid fr : Nat) (l : List (Nat × Nat × Nat × Byte)) : State :=
  s.sendOps lid wid fr ((dedup (l.map (·.1))).map fun q => (q, .unit, (l.filter fun p => p.1 == q).map (·.2), 0))

/-- Hold bytes for host memory at the host port (R398). -/
def State.holdBytes (s : State) (lid crew : Nat) (l : List (Nat × Byte)) : State :=
  if l.isEmpty then s else { s with heldSys := s.heldSys ++ [{ lid := lid, crew := crew, bytes := l }] }

/-- Apply a commit or a carry at home: device bytes now, host bytes to the host port, peer bytes to the ports (R217, R397,
R398, R551). `sys`: CMT.sys or the end of the launch, which also releases the held bytes of the unit. -/
def State.commitHome (s : State) (ctx lid crew wid fr : Nat) (sys : Bool) (l : List (Loc × Byte)) : State :=
  let s := s.writeDev ctx lid (some .cmt) (devBytes l)
  let s := s.holdBytes lid crew (hostBytes l)
  let s := s.sendUnits lid wid fr (peerBytes l)
  if sys && !s.isReplay lid then s.releaseWhere fun h => h.lid == lid && h.crew == crew else s

end Sys2Proof.Machine
end

