-- ==== Sys2Proof/Machine/Cache.lean ====
section
/-! DEFINITION. The tags of the L1 (R258 to R260): sets of superblocks of four lines in 32 ways, the position and protection
that a hint gives, the replacement of a whole superblock, and the ways lent to block commit buffers. -/

namespace Sys2Proof.Machine

/-- The superblock of an L1 key: four aligned lines of one context's device data, or of one crew's buffer. -/
def sbOf (key : Nat) : Nat := key / 8 * 2 + key % 2

/-- The set of a superblock among 256; the spec gives no index function. -/
def setOf (sb : Nat) : Nat := Config.l1Set sb % 256

/-- Hint 2: the superblock is protected (R259). -/
def hintRetain : Nat := 2

/-- Some line of a superblock is valid: a copy, or an update-only line (R258). -/
def Core.holdsSb (c : Core) (sb : Nat) : Bool :=
  c.l1.any (fun p => sbOf p.1 == sb) || c.u.any fun p => sbOf (devLineKey p.2.ctx p.1) == sb

/-- The tags of a set with a valid line, most recently used first. -/
def Core.liveTags (c : Core) (set : Nat) : List L1Tag := (Tbl.get c.tags set []).filter fun t => c.holdsSb t.sb

/-- Write the tags of a set. -/
def Core.putTags (c : Core) (set : Nat) (l : List L1Tag) : Core := { c with tags := Tbl.set [] c.tags set l }

/-- Ways of a core that are lent to its blocks (R260). -/
def State.lentWays (s : State) (core : Nat) : List Nat := (s.blocks.filter fun b => b.1 / 8 == core).flatMap (·.2.lent)

/-- Ways that a core's cache keeps. -/
def State.cacheWays (s : State) (core : Nat) : List Nat := (List.range 32).filter fun w => !(s.lentWays core).contains w

/-- The update-only lines of a core in a superblock. -/
def Core.uOf (c : Core) (sb : Nat) : List Nat := (c.u.filter fun p => sbOf (devLineKey p.2.ctx p.1) == sb).map (·.1)

/-- Evict a whole superblock: its clean lines are dropped, its update-only lines are sent home (R258). -/
def State.evictSb (s : State) (core sb : Nat) : State :=
  let s := ((s.core core).uOf sb).foldl (fun s n => s.sendU core n) s
  s.modCore core fun c => { c with l1 := Tbl.keep (fun k _ => sbOf k != sb) c.l1 }

/-- The superblock that a fill replaces: the least recently used, and for a normal or evict-first fill the least recently used
that is not protected, while no more than half of the set is (R259). -/
def victim (tags : List L1Tag) (ways hint : Nat) : Option L1Tag :=
  let free := tags.filter fun t => !t.kept
  if hint ≠ hintRetain ∧ 2 * (tags.length - free.length) ≤ ways ∧ !free.isEmpty then free.getLast? else tags.getLast?

/-- Put a tag at the position that the hint gives (R259). -/
def placeTag (tags : List L1Tag) (t : L1Tag) (hint : Nat) : List L1Tag :=
  if hint = 1 then tags ++ [t] else t :: tags

/-- The victim of a fill of a line: none where its superblock has a tag, or a way is free. -/
def State.fillVictim (s : State) (core key hint : Nat) : Option Nat :=
  let c := s.core core
  let tags := c.liveTags (setOf (sbOf key))
  let ways := s.cacheWays core
  if (tags.any fun t => t.sb == sbOf key) || tags.length < ways.length then none else (victim tags ways.length hint).map (·.sb)

/-- The fill of a line may go on: the update-only lines that it sends home find room in the replay store (R528), and the cache
has a way. -/
def State.fillRoom (s : State) (core key hint : Nat) : Bool :=
  !(s.cacheWays core).isEmpty && match s.fillVictim core key hint with
    | some sb => s.roomFor_ (s.uKeys ((s.core core).uOf sb))
    | none => true

/-- Make room for a line that is filled, and place its tag: a new superblock takes a free way, or the way of the superblock
that it replaces (R258, R259). -/
def State.placeLine (s : State) (core key hint : Nat) : State :=
  let sb := sbOf key
  let set := setOf sb
  let tags := (s.core core).liveTags set
  match tags.find? fun t => t.sb == sb with
  | some t =>
    let t := { t with kept := t.kept || hint == hintRetain }
    s.modCore core fun c => c.putTags set (placeTag (tags.filter fun x => x.sb != sb) t hint)
  | none =>
    let ways := s.cacheWays core
    if tags.length < ways.length then
      let open_ := ways.filter fun w => !(tags.any fun t => t.way == w)
      let (n, s) := s.fresh
      let t : L1Tag := { sb := sb, way := open_.getD (Config.l1Way n % open_.length) 0, kept := hint == hintRetain }
      s.modCore core fun c => c.putTags set (placeTag tags t hint)
    else match victim tags ways.length hint with
      | none => s
      | some v =>
        let s := s.evictSb core v.sb
        let t : L1Tag := { sb := sb, way := v.way, kept := hint == hintRetain }
        s.modCore core fun c => c.putTags set (placeTag (tags.filter fun x => x.sb != v.sb) t hint)

/-- A hit makes the superblock of a line the most recently used. -/
def State.touchLine (s : State) (core key : Nat) : State :=
  let sb := sbOf key
  s.modCore core fun c =>
    let tags := Tbl.get c.tags (setOf sb) []
    match tags.find? fun t => t.sb == sb with
    | some t => c.putTags (setOf sb) (t :: tags.filter fun x => x.sb != sb)
    | none => c

/-- Ways for a block of a core, from way 31 downwards (R260). -/
def State.pickWays (s : State) (core n : Nat) : List Nat := ((s.cacheWays core).reverse).take n

/-- The superblocks that stand in ways of a core. -/
def Core.inWays (c : Core) (ways : List Nat) : List Nat :=
  c.tags.flatMap fun p => (p.2.filter fun t => ways.contains t.way && c.holdsSb t.sb).map (·.sb)

/-- The update-only lines that lending ways sends home find room in the replay store (R528). -/
def State.lendRoom (s : State) (core n : Nat) : Bool :=
  let c := s.core core
  s.roomFor_ (s.uKeys ((c.inWays (s.pickWays core n)).flatMap c.uOf))

/-- Lend ways: their clean lines are dropped and their dirty lines are sent home (R260). -/
def State.lendWays (s : State) (core n : Nat) : State :=
  ((s.core core).inWays (s.pickWays core n)).foldl (fun s sb => s.evictSb core sb) s

end Sys2Proof.Machine
end

