-- ==== Sys2Proof/Machine/Ladder.lean ====
section
/-! DEFINITION. The commit ladder: wave store buffers, block and crew buffers, carries, commits, aborts and exclusive grants
(R207 to R227, R261, R262, R374 to R376, R520, R521, R527), and the order in which a load searches (R209). -/

namespace Sys2Proof.Machine

/-! ### Units -/

/-- Who writes: the wave's context, launch, crew, block index, slot and fragment. -/
structure Who where
  ctx : Nat
  lid : Nat
  crew : Nat
  blk : Nat
  wid : Nat
  fr : Nat
deriving DecidableEq, Repr

/-- The writer of a wave. -/
def whoOf (w : Wave) (wid fr : Nat) : Who :=
  { ctx := w.ctx, lid := w.lid, crew := w.crew, blk := w.blocklin, wid := wid, fr := fr }

/-- The waves of a block slot. -/
def State.blockWaves (s : State) (bid : Nat) : List (Nat × Wave) := s.waves.filter fun p => p.2.bid p.1 == bid

/-- The waves of a crew; shadows have no part in its buffers (R280). -/
def State.crewWaves (s : State) (lid crew : Nat) : List (Nat × Wave) :=
  s.waves.filter fun p => p.2.lid == lid && p.2.crew == crew && !p.2.shadow

/-- The cores that run blocks of a crew. -/
def State.crewCores (s : State) (lid crew : Nat) : List Nat :=
  dedup ((s.blocks.filter fun b => b.2.lid == lid && b.2.crew == crew && !b.2.shadow).map fun b => b.1 / 8)

/-- Levels of the open spans of a wave, ascending. -/
def Wave.openLevels (w : Wave) : List Nat := [1, 2, 3, 4].filter fun l => (w.span l).isOpen

/-- Some span is open at or above a level. -/
def Wave.openFrom (w : Wave) (l : Nat) : Bool := w.openLevels.any fun x => decide (l ≤ x)

/-- Some span is open at or below a level. -/
def Wave.openTo (w : Wave) (l : Nat) : Bool := w.openLevels.any fun x => decide (x ≤ l)

/-- Highest level at which some of the waves has a span open; 0 for none. -/
def topOpen (ws : List (Nat × Wave)) : Nat := ws.foldl (fun m p => max m (p.2.openLevels.foldl max 0)) 0

/-! ### Grants (R222) -/

/-- The line of a place. -/
def locLine : Loc → Loc
  | .dev a => .dev (a / 64)
  | .host a => .host (a / 64)
  | .peer p c a => .peer p c (a / 64)

/-- No wave has this number. -/
def noWave : Nat := 8192

/-- The grant whose holder, another wave, has read a line that is to be written (R222). -/
def State.grantOnLines (s : State) (wid : Nat) (ls : List Loc) : Option Nat :=
  (s.grants.find? fun g => g.2 != wid && match s.wave g.2 with
    | some w => w.readLog.any fun r => ls.any fun l => locLine l == locLine r.loc
    | none => false).map (·.1)

/-- The grant that another wave holds of a level in the wave's unit. -/
def State.grantOfOther (s : State) (wid : Nat) (w : Wave) (l : Nat) : Option Nat :=
  match Tbl.find s.grants (grantKey w wid l) with
  | some h => if h = wid then none else some (grantKey w wid l)
  | none => none

/-! ### What stops a move up the ladder -/

/-- Why bytes cannot move: a line that the holder of a grant has read (R222), a full staging store (R520), a full replay
store (R528), or an open line (R525). -/
inductive Halt where
  | grant (key : Nat)
  | staging
  | replay
  | intrusion
deriving DecidableEq, Repr

/-- Why a buffer does not take bytes: as above, or an overflow, of the crew's buffer or the block's, whose carry a span
forbids (R262, R376). -/
inductive Stop where
  | halt (h : Halt)
  | over_ (ofCrew : Bool)
deriving DecidableEq, Repr

/-- A move home as a move that a buffer asks for. -/
def asStop (r : Except Halt State) : Except Stop State :=
  match r with
  | .ok s => .ok s
  | .error h => .error (.halt h)

/-- Put bytes over a buffer. -/
def bufPut (t u : Tbl BufByte) : Tbl BufByte := u.foldl (fun t p => Tbl.put t p.1 p.2) t

/-- Places and bytes of a buffer. -/
def bufLocs (t : Tbl BufByte) : List (Loc × Byte) := t.map fun p => (p.2.loc, p.2.val)

/-- Bytes staged by DET launches (R520): commits, and 8 bytes for each reduction. -/
def State.stagedBytes (s : State) : Nat :=
  (s.det.map fun d => ((d.2.opened :: d.2.closed).map fun g =>
    (g.commits.map fun c => c.2.length).sum + 8 * g.reds.length).sum).sum

/-- A block's stream with nothing in it (R522). -/
def DetBlock.empty : DetBlock := { opened := { commits := [], reds := [] }, closed := [], ended := false, seq := 0 }

/-- The stream of a block of a DET launch. -/
def State.detBlock (s : State) (lid b : Nat) : DetBlock := Tbl.get s.det (detKey lid b) DetBlock.empty

/-- Stage a commit in the block's open group (R521). -/
def State.stageCommit (s : State) (q : Who) (sys : Bool) (l : Tbl BufByte) : State :=
  let d := s.detBlock q.lid q.blk
  { s with det := Tbl.put s.det (detKey q.lid q.blk) { d with opened := { d.opened with commits := d.opened.commits ++ [(sys, l)] } } }

/-- Step 3 of R217: the crew buffer goes home, or is staged and stays (R521). The L1 copies of its lines in the crew's cores
are dropped, so that a fragment's later load finds its own store (R210). -/
def State.crewHome (s : State) (q : Who) (sys : Bool) : Except Halt State :=
  let ck := crewKey q.lid q.crew
  match s.crew ck with
  | none => .ok s
  | some c =>
    if s.isDet q.lid then
      if s.stagedBytes + c.buf.length > 2 ^ 26 then .error .staging else .ok (s.stageCommit q sys c.buf)
    else
      let l := bufLocs c.buf
      let pas := (devBytes l).map (·.1)
      match s.grantOnLines q.wid (l.map (·.1)) with
      | some g => .error (.grant g)
      | none =>
        if l.any fun p => s.openTo (some q.lid) p.1 then .error .intrusion
        else if !s.replayRoom q.lid pas then .error .replay
        else
          let s := s.commitHome q.ctx q.lid q.crew q.wid q.fr sys l
          let s := s.modCrew ck fun c => { c with buf := [] }
          let keys := dedup (pas.map fun a => devLineKey q.ctx (lineOf a))
          .ok ((s.crewCores q.lid q.crew).foldl (fun s c => s.dropCopies c keys) s)

/-- Write bytes into the crew buffer; overflow carries it home first unless a span forbids that (R374, R376). -/
def State.putCrew (s : State) (q : Who) (l : Tbl BufByte) : Except Stop State :=
  let ck := crewKey q.lid q.crew
  match s.crew ck with
  | none => .ok s
  | some c =>
    let room := c.share * 1024
    let drop (s : State) : State :=
      s.dropCopies (coreOfWave q.wid) (dedup (l.map fun p => crewLineKey ck (lineOf p.1)))
    let put (s : State) : State := drop (s.modCrew ck fun c => { c with buf := bufPut c.buf l })
    match s.grantOnLines q.wid (l.map fun p => p.2.loc) with
    | some g => .error (.halt (.grant g))
    | none =>
      if lineCount (bufPut c.buf l) ≤ room then .ok (put s)
      else if (s.crewWaves q.lid q.crew).any fun p => p.2.openFrom 2 then .error (.over_ true)
      else match asStop (s.crewHome q false) with
        | .error h => .error h
        | .ok s => if lineCount l ≤ room then .ok (put s) else asStop ((put s).crewHome q false)

/-- Step 2 of R217: the block buffer goes into the crew buffer. -/
def State.blockUp (s : State) (q : Who) (bid : Nat) : Except Stop State :=
  match s.block bid with
  | none => .ok s
  | some b =>
    match s.putCrew q b.buf with
    | .error h => .error h
    | .ok s => .ok (s.modBlock bid fun b => { b with buf := [] })

/-- Write bytes into the block buffer; overflow carries it to the crew buffer first unless a span forbids that (R261, R262). -/
def State.putBlock (s : State) (q : Who) (bid : Nat) (l : Tbl BufByte) : Except Stop State :=
  match s.block bid with
  | none => .ok s
  | some b =>
    let put (s : State) : State := s.modBlock bid fun b => { b with buf := bufPut b.buf l }
    match s.grantOnLines q.wid (l.map fun p => p.2.loc) with
    | some g => .error (.halt (.grant g))
    | none =>
      if lineCount (bufPut b.buf l) ≤ b.ways * 1024 then .ok (put s)
      else if (s.blockWaves bid).any fun p => p.2.spanOpen then .error (.over_ false)
      else match s.blockUp q bid with
        | .error h => .error h
        | .ok s => .ok (put s)

/-- The bytes of a wave store buffer, as they stand in a commit buffer. -/
def wsbBytes (t : Tbl WsbByte) : Tbl BufByte := t.map fun p => (p.1, { val := p.2.val, loc := p.2.loc })

/-! ### Aborts (R224 to R226) -/

/-- Mark a wave as affected by an abort; a higher one stands. -/
def Wave.affect (w : Wave) (l cause : Nat) : Wave :=
  match w.aborting with
  | some (m, _) => if l ≤ m then w else { w with aborting := some (l, cause) }
  | none => { w with aborting := some (l, cause) }

/-- An abort at a level in the unit of a wave (R225). -/
def State.abortUnit (s : State) (q : Who) (bid l cause : Nat) : State :=
  let mark (s : State) (ws : List (Nat × Wave)) : State :=
    ws.foldl (fun s p =>
      if p.2.openTo l then s.modWave p.1 fun w => w.affect l (if p.1 = q.wid then cause else 5) else s) s
  if l = 1 then mark (s.modBlock bid fun b => { b with buf := [] }) (s.blockWaves bid)
  else
    let mine (b : Block) : Bool := b.lid == q.lid && b.crew == q.crew && !b.shadow
    let s := { s with blocks := Tbl.mapv (fun _ b => if mine b then { b with buf := [] } else b) s.blocks }
    mark (s.modCrew (crewKey q.lid q.crew) fun c => { c with buf := [] }) (s.crewWaves q.lid q.crew)

/-- An overflow abort of a block or crew buffer (R224). -/
def State.overAbort (s : State) (q : Who) (bid : Nat) (ofCrew : Bool) : State :=
  s.abortUnit q bid (topOpen (if ofCrew then s.crewWaves q.lid q.crew else s.blockWaves bid)) 3

/-- A move whose overflow has aborted the spans of the unit, where that is what stopped it: the bytes are discarded with the
buffer (R224). -/
def absorb (s : State) (q : Who) (bid : Nat) (r : Except Stop State) : Except Halt State :=
  match r with
  | .ok s => .ok s
  | .error (.over_ ofCrew) => .ok (s.overAbort q bid ofCrew)
  | .error (.halt h) => .error h

/-- An abort has reached the wave. -/
def State.aborted (s : State) (wid : Nat) : Bool :=
  match s.wave wid with
  | some w => w.aborting.isSome
  | none => false

/-- The three steps of R217 for bytes `l` of the wave's store buffer. An overflow aborts the spans of the unit; the wave that
the abort does not reach goes on with the steps that are left (R224). -/
def State.commitUp (s : State) (q : Who) (bid l : Nat) (bytes : Tbl BufByte) : Except Halt State :=
  match absorb s q bid (s.putBlock q bid bytes) with
  | .error h => .error h
  | .ok s =>
    if l < 2 || s.aborted q.wid then .ok s
    else match absorb s q bid (s.blockUp q bid) with
      | .error h => .error h
      | .ok s => if l < 3 || s.aborted q.wid then .ok s else s.crewHome q (l == 4)

/-- Settle a move that cannot be made: waits for a grant or for room, or an intrusion (R222, R520, R525, R528). -/
def haltRes (e : Env) (h : Halt) : WRes :=
  match h with
  | .grant g => .wait e.s (.grant g)
  | .staging => .wait e.s .staging
  | .replay => .wait (e.s.starve e.wv.lid) .replayRoom
  | .intrusion => .raw (e.s.intrude e.wid)

/-! ### The search of a load (R209) -/

/-- Where a byte was found: 0 the WSB, 1 the block buffer, 2 the crew buffer, 3 an L1 copy, 4 home. -/
structure Found where
  va : Nat
  loc : Loc
  val : Byte
  place : Nat
deriving DecidableEq, Repr

/-- L1 key of a place as device data of a context; host and peer bytes have no copy (R398, R551). -/
def l1Dev (ctx : Nat) : Loc → Option Nat
  | .dev pa => some (devLineKey ctx (lineOf pa))
  | _ => none

/-- A byte at home as a load finds it: until a copy's token clears, each byte it writes reads as its old or its copied value
(R272). -/
def flyByte (s : State) (ctx : Nat) (loc : Loc) : Byte :=
  s.cores.foldl (fun x c => c.2.copies.foldl (fun x y => match s.wave y.wid with
    | none => x
    | some w =>
      let hit (d : CopyDst) : Bool := match d with
        | .mem va => s.resolveNow w.ctx va .write == .ok loc
        | _ => false
      match y.writes.zipIdx.find? fun p => hit p.1.1 with
      | some (p, i) => if Config.copySeen y.id i s.free then p.2 else x
      | none => x) x) (s.homeByte ctx loc)

/-- The byte at step 4 or 5 of R209. -/
def seekDev (s : State) (core ctx va : Nat) (loc : Loc) : Found :=
  match (l1Dev ctx loc).bind fun k => Tbl.find (s.core core).l1 k with
  | some c => { va := va, loc := loc, val := Tbl.get c.bytes (va % 64) 0, place := 3 }
  | none => { va := va, loc := loc, val := flyByte s ctx loc, place := 4 }

/-- The byte from step 3 of R209 on. -/
def seekCrew (s : State) (core ctx ck va : Nat) (loc : Loc) : Found :=
  match Tbl.find (s.core core).l1 (crewLineKey ck (lineOf va)) with
  | some c =>
    match Tbl.find c.bytes (va % 64) with
    | some b => { va := va, loc := loc, val := b, place := 3 }
    | none => seekDev s core ctx va loc
  | none =>
    match (s.crew ck).bind fun c => Tbl.find c.buf va with
    | some b => { va := va, loc := loc, val := b.val, place := 2 }
    | none => seekDev s core ctx va loc

/-- The byte that a load of the wave takes (R209). -/
def seek (s : State) (wid : Nat) (w : Wave) (va : Nat) (loc : Loc) : Found :=
  match Tbl.find w.wsb va with
  | some b => { va := va, loc := loc, val := b.val, place := 0 }
  | none =>
    match (s.block (w.bid wid)).bind fun b => Tbl.find b.buf va with
    | some b => { va := va, loc := loc, val := b.val, place := 1 }
    | none => seekCrew s (coreOfWave wid) w.ctx w.ckey va loc

/-- Put a line into a core's L1 at the place its hint gives; a line that finds no room is served without a fill. -/
def State.fillLine (s : State) (core hint key : Nat) (x : L1Line) : State :=
  if !s.fillRoom core key hint then s
  else (s.placeLine core key hint).modCore core fun c => { c with l1 := Tbl.put c.l1 key x }

/-- The copy of a line of the crew buffer. -/
def State.crewCopy (s : State) (ck n : Nat) : L1Line :=
  { crew := true, bytes := match s.crew ck with
      | some c => (c.buf.filter fun p => lineOf p.1 == n).map fun p => (p.1 % 64, p.2.val)
      | none => [] }

/-- The copy of a line of device data. -/
def State.devCopy (s : State) (ctx n : Nat) : L1Line :=
  { crew := false, bytes := (List.range 64).map fun i => (i, s.homeByte ctx (.dev (64 * n + i))) }

/-- Fill L1 with the lines of bytes that came from the crew buffer or from device memory at home, and make the lines that were
hit the most recently used (R258, R259, R375). -/
def State.fillL1 (s : State) (wid : Nat) (w : Wave) (hint : Nat) (l : List Found) : State :=
  let core := coreOfWave wid
  let at_ (place : Nat) : List Found := l.filter fun f => f.place == place
  let hits := dedup ((at_ 3).flatMap fun f => crewLineKey w.ckey (lineOf f.va) :: (l1Dev w.ctx f.loc).toList)
  let s := hits.foldl (fun s k => s.touchLine core k) s
  if hint = 3 then s
  else
    let s := (dedup ((at_ 2).map fun f => lineOf f.va)).foldl (fun s n =>
      s.fillLine core hint (crewLineKey w.ckey n) (s.crewCopy w.ckey n)) s
    (devLines ((at_ 4).map (·.loc))).foldl (fun s n => s.fillLine core hint (devLineKey w.ctx n) (s.devCopy w.ctx n)) s

/-! ### Access at home -/

/-- A word's access to places at home, once their update-only copies have been recalled; it may stop the wave, or wait for the
replay store (R408, R433, R525, R528). -/
def homeFirst (e : Env) (s : State) (ls : List Loc) (body : State → WRes) : WRes :=
  let s := s.meetHome ls
  match s.homeStop e.wid e.wv.lid ls with
  | some t => .raw t
  | none => if s.recallRoom ls then body (s.recallLocs ls) else .wait (s.starveAt ls) .replayRoom

/-! ### The read log (R215) -/

/-- Lines of a read log. -/
def logLines (l : List LogByte) : Nat := (dedup (l.map fun r => lineOf r.va)).length

/-- Log the bytes that lanes read and have not themselves written (R215). -/
def logReads (w : Wave) (l : List (Nat × Found)) : List LogByte :=
  l.foldl (fun t p =>
    let own := match Tbl.find w.wsb p.2.va with
      | some b => b.lanes.getLsbD p.1
      | none => false
    let x : LogByte := { lane := p.1, va := p.2.va, loc := p.2.loc, val := p.2.val }
    if own || t.contains x then t else t ++ [x]) w.readLog

/-- Log reads of a wave in a checked span; more than 64 lines abort it at the innermost open level (R215, R224). -/
def State.logSpan (s : State) (q : Who) (bid : Nat) (w : Wave) (l : List (Nat × Found)) : State :=
  match w.checkedLevel with
  | none => s
  | some c =>
    let t := logReads w l
    if logLines t ≤ 64 then s.modWave q.wid fun w => { w with readLog := t }
    else s.abortUnit q bid c 3

/-! ### Stores into the WSB (R207, R208, R211) -/

/-- One byte to store. -/
structure StoreByte where
  va : Nat
  loc : Loc
  val : Byte
  lane : Nat
deriving DecidableEq, Repr

/-- The lanes that have stored a byte that a WSB holds. -/
def wsbLanes (t : Tbl WsbByte) (va : Nat) : Mask :=
  match Tbl.find t va with
  | some b => b.lanes
  | none => 0

/-- The bytes enter a WSB. -/
def wsbPut (t : Tbl WsbByte) (l : List StoreByte) : Tbl WsbByte :=
  l.foldl (fun t x => Tbl.put t x.va
    { val := x.val, loc := x.loc, writer := x.lane, lanes := wsbLanes t x.va ||| maskOf [x.lane] }) t

/-- A full WSB drains into the block buffer (R211); an overflow there discards the drained bytes with the buffer (R224). -/
def State.drain (s : State) (q : Who) (bid : Nat) (w : Wave) : Except Halt State :=
  let r : Except Halt State := if w.shadow then .ok s else absorb s q bid (s.putBlock q bid (wsbBytes w.wsb))
  match r with
  | .ok s => .ok (s.modWave q.wid fun w => { w with wsb := [] })
  | r => r

/-- Store elements in ascending lane order. A full WSB first drains into the block buffer when no span is open, and aborts
the innermost span otherwise (R211, R224). -/
def State.storeAll (q : Who) (bid : Nat) : State → List (List StoreByte) → Except Halt State
  | s, [] => .ok s
  | s, x :: xs =>
    match s.wave q.wid with
    | none => .ok s
    | some w =>
      let t := wsbPut w.wsb x
      if lineCount t ≤ 128 then State.storeAll q bid (s.modWave q.wid fun w => { w with wsb := t }) xs
      else match w.openLevels with
        | l :: _ => .ok (s.abortUnit q bid l 3)
        | [] =>
          match s.drain q bid w with
          | .error h => .error h
          | .ok s => State.storeAll q bid (s.modWave q.wid fun w => { w with wsb := wsbPut [] x }) xs

/-- The store would find the WSB full with no span open: in a TWIN launch a compare point (R335). -/
def drains (w : Wave) (l : List (List StoreByte)) : Bool :=
  w.openLevels.isEmpty && decide (lineCount (l.foldl wsbPut w.wsb) > 128)

/-- How many of the elements, from the first, a WSB holds beside what stands in it. -/
def wsbFits : Tbl WsbByte → List (List StoreByte) → Nat
  | _, [] => 0
  | t, x :: xs =>
    let t := wsbPut t x
    if lineCount t ≤ 128 then wsbFits t xs + 1 else 0

/-! ### PUL (R230) -/

/-- Drop the L1 copies of a core that PUL at a level drops (R230): the device copies of the wave's context; at block and crew
level all crew-buffer copies of the wave's crew, and above only those with bytes that the crew buffer no longer holds. -/
def State.pul (s : State) (wid : Nat) (w : Wave) (l : Nat) : State :=
  let buf := match s.crew w.ckey with
    | some c => c.buf
    | none => []
  s.modCore (coreOfWave wid) fun c =>
    let keep (k : Nat) (x : L1Line) : Bool :=
      if x.crew then
        k / 2 / 2 ^ 58 != w.ckey ||
          (decide (l > 2) && x.bytes.all fun b => Tbl.mem buf (64 * (k / 2 % 2 ^ 58) + b.1))
      else k / 2 / 2 ^ 33 != w.ctx
    { c with l1 := Tbl.keep keep c.l1 }

end Sys2Proof.Machine
end

