-- ==== Sys2Proof/Machine/Local.lean ====
section
/-! DEFINITION. A block's own memories: scratchpad, operand buffer and stand bytes, and the lazy windows (R256, R257, R276,
R324); fault records to the dispatch hart (R275, R430). -/

namespace Sys2Proof.Machine

/-- Post a fault record at a die's dispatch hart (R430). -/
def State.postFault (s : State) (die : Nat) (r : FaultRec) : State :=
  s.modDie die fun d => { d with faults := d.faults ++ [r] }

/-! ### Lazy windows (R276) -/

/-- Two ranges of bytes meet. -/
def meets (a n b m : Nat) : Bool := decide (a < b + m) && decide (b < a + n)

/-- The first absent window that meets one of the ranges. -/
def Block.absentAt (b : Block) (ranges : List (Nat × Nat)) : Option Nat :=
  (b.lazyWins.find? fun w => !w.2.present && ranges.any fun r => meets w.2.off w.2.len r.1 r.2).map (·.1)

/-- The 64 KiB units of addresses, once each. -/
def unitsOf (vas : List Nat) : List Nat :=
  vas.foldl (fun l v => if l.head? = some (v / 2 ^ 16) || l.contains (v / 2 ^ 16) then l else v / 2 ^ 16 :: l) []

/-- The translation of each 64 KiB unit of some addresses: a page is never smaller (R427, R549). -/
def unitMap (s : State) (ctx : Nat) (need : Need) (vas : List Nat) : List (Nat × Resolved) :=
  (unitsOf vas).map fun u => (u, s.resolveNow ctx (u * 2 ^ 16) need)

/-- The place of an address within a place. -/
def locPlus (l : Loc) (i : Nat) : Loc :=
  match l with
  | .dev a => .dev (a + i)
  | .host a => .host (a + i)
  | .peer p c a => .peer p c (a + i)

/-- The place of an address by a unit map; PAGE where its unit is not mapped. -/
def unitLoc (m : List (Nat × Resolved)) (va : Nat) : Except Nat Loc :=
  match m.find? fun p => p.1 == va / 2 ^ 16 with
  | some (_, .ok l) => .ok (locPlus l (va % 2 ^ 16))
  | some (_, .bad c) => .error c
  | _ => .error cPAGE

/-- Device addresses that a source reads. -/
def CopySrc.vas : CopySrc → List Nat
  | .byte _ => []
  | .mem va => [va % 2 ^ 64]
  | .ds6 va _ => [va % 2 ^ 64, (va + 1) % 2 ^ 64, (va + 2) % 2 ^ 64]

/-- The byte that a source gives (R54, R273, R320); none when a place is not the package's. `got`: bytes that peers gave. -/
def CopySrc.value (s : State) (ctx : Nat) (got : Tbl Byte) (m : List (Nat × Resolved)) (x : CopySrc) : Option Byte :=
  let at_ (va : Nat) : Option Byte :=
    match Tbl.find got va, unitLoc m va with
    | some b, _ => some b
    | none, .ok (.peer _ _ _) => none
    | none, .ok l => some (s.homeByte ctx l)
    | none, .error _ => none
  match x, x.vas.map at_ with
  | .byte b, _ => some b
  | .mem _, [some b] => some b
  | .ds6 _ j, [some a, some b, some c] =>
    some (BitVec.ofNat 8 (ds6ToDs8 (bits (a.toNat + 256 * b.toNat + 65536 * c.toNat) (6 * j + 5) (6 * j))))
  | _, _ => none

/-- The first address of the sources that does not translate for a read, with its cause. -/
def firstBad (m : List (Nat × Resolved)) (l : List CopySrc) : Option (Nat × Nat) :=
  l.findSome? fun x => x.vas.findSome? fun va => match unitLoc m va with
    | .error c => some (va, c)
    | .ok _ => none

/-- Places that sources read at home. -/
def srcLocs (m : List (Nat × Resolved)) (l : List CopySrc) : List Loc :=
  (l.flatMap CopySrc.vas).filterMap fun va => match unitLoc m va with
    | .ok l => some l
    | .error _ => none

/-- Read what can be read now of a copy's moves: the bytes, and the moves left (R273). -/
def readMoves (s : State) (ctx : Nat) (known : Tbl Byte) (m : List (Nat × Resolved)) (l : List (CopyDst × CopySrc)) :
    List (CopyDst × Byte) × List (CopyDst × CopySrc) :=
  l.foldr (fun x acc => match x.2.value s ctx known m with
    | some b => ((x.1, b) :: acc.1, acc.2)
    | none => (acc.1, x :: acc.2)) ([], [])

/-- Places at home that the copy of a window reads. -/
def State.windowLocs (s : State) (ctx : Nat) (w : LazyWin) : List Loc :=
  if w.inflight.isSome then []
  else
    let srcs := w.moves.map (·.2)
    srcLocs (unitMap s ctx .read (srcs.flatMap CopySrc.vas)) srcs

/-- Start the copy of a window on first touch (R276, R324): its bytes are read at dev level now. A place on a peer counts as
one without permission. -/
def State.startWindow (s : State) (ctx bid win : Nat) (w : LazyWin) : Except (Nat × Nat) State :=
  match w.inflight with
  | some _ => .ok s
  | none =>
    let srcs := w.moves.map (·.2)
    let m := unitMap s ctx .read (srcs.flatMap CopySrc.vas)
    match firstBad m srcs with
    | some x => .error x
    | none =>
      match readMoves s ctx [] m w.moves with
      | (l, []) =>
        .ok (s.modBlock bid fun b => { b with lazyWins := Tbl.upd b.lazyWins win fun w => { w with inflight := some l } })
      | (_, x :: _) => .error (x.2.vas.headD 0, cPROT)

/-- A DRN of the fragment has still to be performed. -/
def Wave.draining (w : Wave) (fr : Nat) : Bool := w.arrayQ.any fun x => match x with
  | .drain f _ _ _ _ => f == fr
  | _ => false

/-- Run a word that reads or writes ranges of the scratchpad: absent windows are copied first (R276). A page that the copy
misses goes to the hart; a fail answer raises PAGE or PROT on `lanes` (R324). -/
def windowsFirst (e : Env) (lanes : Mask) (ranges : List (Nat × Nat)) (body : Env → WRes) : WRes :=
  let bid := e.wv.bid e.wid
  match e.s.block bid with
  | none => body e
  | some b =>
    match b.absentAt ranges with
    | none => body e
    | some n =>
      if !e.acts then .wait e.s (.lazyWin bid n)
      else match Tbl.find b.lazyWins n with
        | none => body e
        | some w =>
          homeFirst e e.s (e.s.windowLocs e.wv.ctx w) fun s => match s.startWindow e.wv.ctx bid n w with
          | .ok s => .wait s (.lazyWin bid n)
          | .error (va, c) =>
            if e.frag.failed.contains (va % 2 ^ 57 / 2 ^ 16) then e.trapNow c 0 (BitVec.ofNat 64 va) lanes
            else
              .wait (s.postFault (dieOfCore (coreOfWave e.wid))
                { ctx := e.wv.ctx, va := va, need := .read, who := [.frag e.wid e.fr] }) .walk

/-- As `windowsFirst`, for a word that follows the fragment's DRNs: it sees what they write (R348). -/
def withScratch (e : Env) (lanes : Mask) (ranges : List (Nat × Nat)) (body : Env → WRes) : WRes :=
  if e.wv.draining e.fr && !ranges.isEmpty then .wait e.s .array else windowsFirst e lanes ranges body

/-! ### Bytes of the shares -/

/-- Copies in flight of a block's waves on a core. -/
def flying (s : State) (bid : Nat) : List Copy :=
  (s.core (bid / 8)).copies.filter fun c => match s.wave c.wid with
    | some w => w.bid c.wid == bid
    | none => false

/-- A byte of a block's own memory as a reader finds it: until a copy's token clears, each byte it writes reads as its old or
its copied value (R272). -/
def shareByte (s : State) (bid : Nat) (d : CopyDst) (old : Byte) : Byte :=
  (flying s bid).foldl (fun x c =>
    match (c.writes.zipIdx.find? fun p => p.1.1 == d) with
    | some (w, i) => if Config.copySeen c.id i s.free then w.2 else x
    | none => x) old

/-- Read scratchpad bytes of a block (R256). -/
def scratchBytes (s : State) (bid off n : Nat) : Bytes :=
  match s.block bid with
  | some b => (List.range n).map fun i => shareByte s bid (.sp (off + i)) (Memory.read b.scratch (off + i))
  | none => []

/-- Read operand-buffer bytes of a block. -/
def obufBytes (s : State) (bid off n : Nat) : Bytes :=
  match s.block bid with
  | some b => (List.range n).map fun i => shareByte s bid (.ob (off + i)) (Memory.read b.obuf (off + i))
  | none => []

/-- Read stand bytes of a block. -/
def standBytes (s : State) (bid off n : Nat) : Bytes :=
  match s.block bid with
  | some b => (List.range n).map fun i => shareByte s bid (.stand (off + i)) (Memory.read b.stand (off + i))
  | none => []

/-- Write scratchpad bytes of a block. -/
def Block.putScratch (b : Block) (off : Nat) (l : Bytes) : Block := { b with scratch := Memory.writes b.scratch off l }

/-- A write of a block's own bytes meets the copies in flight (R315): a byte of a copy that has arrived is overwritten, and one
that has not will overwrite. -/
def State.settleCopies (s : State) (bid : Nat) (hit : CopyDst → Bool) : State :=
  let mine := (flying s bid).filter fun c => c.writes.any fun p => hit p.1
  if mine.isEmpty then s
  else
    let (use, s) := s.fresh
    let left (c : Copy) : List (CopyDst × Byte) :=
      (c.writes.zipIdx.filter fun p => !(hit p.1.1 && Config.copySeen c.id p.2 use)).map (·.1)
    s.modCore (bid / 8) fun k =>
      { k with copies := k.copies.map fun c => if mine.any fun x => x.id == c.id then { c with writes := left c } else c }

/-- Write scratchpad bytes of a block at offsets, in order: STS, drains, engines (R257, R315). -/
def State.writeScratch (s : State) (bid : Nat) (l : List (Nat × Bytes)) : State :=
  (s.settleCopies bid fun d => match d with
    | .sp o => l.any fun x => decide (x.1 ≤ o) && decide (o < x.1 + x.2.length)
    | _ => false).modBlock bid fun b => l.foldl (fun b x => b.putScratch x.1 x.2) b

/-- Bytes of the operand buffer or the stand are about to be written: the passes that read the block's bytes note what they were
(R341). -/
def State.noteOld (s : State) (bid : Nat) (l : List CopyDst) : State :=
  let k := s.core (bid / 8)
  match s.block bid with
  | none => s
  | some b =>
    if k.passes.all fun p => p.col.bid != bid then s
    else
      let old (d : CopyDst) : Option (CopyDst × Byte) := match d with
        | .ob o => some (d, Memory.read b.obuf o)
        | .stand o => some (d, Memory.read b.stand o)
        | _ => none
      let olds := l.filterMap old
      let note (p : ArrayPass) : ArrayPass := if p.col.bid = bid then
          { p with wrote := p.wrote ++ olds.map fun x => { dst := x.1, old := x.2, during := decide (k.cyc < p.until_) } } else p
      s.modCore (bid / 8) fun k => { k with passes := k.passes.map note }

/-- Write operand-buffer bytes of a block at offsets, in order. -/
def State.writeObuf (s : State) (bid : Nat) (l : List (Nat × Bytes)) : State :=
  let s := s.noteOld bid (l.flatMap fun x => (List.range x.2.length).map fun i => .ob (x.1 + i))
  (s.settleCopies bid fun d => match d with
    | .ob o => l.any fun x => decide (x.1 ≤ o) && decide (o < x.1 + x.2.length)
    | _ => false).modBlock bid fun b => { b with obuf := l.foldl (fun m x => Memory.writes m x.1 x.2) b.obuf }

/-- The destinations of a copy's bytes in a block's own memories. -/
def Block.putCopy (b : Block) (l : List (CopyDst × Byte)) : Block :=
  l.foldl (fun b p => match p.1 with
    | .sp o => { b with scratch := Memory.write b.scratch o p.2 }
    | .ob o => { b with obuf := Memory.write b.obuf o p.2 }
    | .stand o => { b with stand := Memory.write b.stand o p.2 }
    | .mem _ => b) b

/-- A copy's bytes reach a block's own memories. -/
def State.landCopy (s : State) (bid : Nat) (l : List (CopyDst × Byte)) : State :=
  (s.noteOld bid (l.map (·.1))).modBlock bid fun b => b.putCopy l

end Sys2Proof.Machine
end

