-- ==== Sys2Proof/Machine/Memory.lean ====
section
/-! DEFINITION. LD, ST, LDU, STU, LDS, STS and PRF, 0x70 to 0x75 and 0x78 (R294 to R303). -/

namespace Sys2Proof.Machine

/-! ### Addresses and checks (R294, R295) -/

/-- EA of a lane with an index scale and an offset code (R294). -/
def Env.ea (e : Env) (scale : Nat) (offset : Bool) (lane : Nat) : Nat :=
  let a := e.uni e.w.a.toNat .b64
  let b := toSigned 32 (e.src e.w.b.toNat .i32 lane) * 2 ^ scale
  let c := if offset then e.uni e.w.c.toNat .i64 else 0
  wrap 64 ((a : Int) + b + c)

/-- An access of one lane that passed its checks. -/
structure Access where
  lane : Nat
  va : Nat
  loc : Loc
deriving DecidableEq, Repr

/-- A lane that failed. -/
structure LaneFault where
  lane : Nat
  cause : Nat
  info : Nat
  va : Nat
deriving DecidableEq, Repr

/-- The outcome of the checks of R295: lanes that pass, lanes that fail, addresses whose page the TLB misses. -/
structure Checks where
  good : List Access
  bad : List LaneFault
  miss : List Nat
deriving DecidableEq, Repr

/-- TRAPINFO of a PAGE or PROT fault (R233). -/
def needInfo : Need → Nat
  | .write => 1
  | _ => 0

/-- The checks of R295 on the lanes' device addresses. -/
def checkLanes (e : Env) (size : Nat) (need : Need) (l : List (Nat × Nat)) : Checks :=
  l.foldr (fun p c =>
    if p.2 % size ≠ 0 then { c with bad := { lane := p.1, cause := cALIGN, info := 0, va := p.2 } :: c.bad }
    else match e.s.resolve (coreOfWave e.wid) e.wv.ctx e.frag.failed p.2 need with
      | .ok loc => { c with good := { lane := p.1, va := p.2, loc := loc } :: c.good }
      | .miss => { c with miss := p.2 :: c.miss }
      | .bad x => { c with bad := { lane := p.1, cause := x, info := needInfo need, va := p.2 } :: c.bad })
    { good := [], bad := [], miss := [] }

/-- The fault trap of lanes that failed: the lowest cause, every failing lane, the lowest address of that cause (R233, R236). -/
def laneTrap (l : List LaneFault) : Option TrapRec :=
  match l with
  | [] => none
  | x :: xs =>
    let c := xs.foldl (fun m y => min m y.cause) x.cause
    let same := l.filter fun y => y.cause == c
    let va := same.foldl (fun m y => min m y.va) (2 ^ 64 - 1)
    let info := match same.find? fun y => y.va == va with
      | some y => y.info
      | none => 0
    let addr := if c = cSAMEADDR ∨ c = cALIGN ∨ c = cPAGE ∨ c = cPROT ∨ c = cSCOPE then va else 0
    some (faultRec c (BitVec.ofNat 64 info) (BitVec.ofNat 64 addr) (maskOf (l.map (·.lane))))

/-- A fault of the whole access on every active lane (R300). -/
def wholeTrap (e : Env) (l : List LaneFault) : Option TrapRec :=
  (laneTrap l).map fun t => { t with lanes := e.act }

/-- Wait for the walks of missed pages, each asked for once (R429). -/
def waitWalk (e : Env) (need : Need) (vas : List Nat) : WRes :=
  let firsts := vas.foldl (fun l v => if l.any fun x => x / 2 ^ 16 == v / 2 ^ 16 then l else l ++ [v]) []
  .wait (firsts.foldl (fun s v => s.askWalk e.wid e.fr e.wv.ctx v need) e.s) .walk

/-- Run a word on lanes whose checks are made. The lanes whose pages are found complete; the others are held in the word's
replay mask until their walks have ended, those that fail with them (R295, R429, R430). In a TWIN block every lane waits. -/
def withMisses (e : Env) (need : Need) (c : Checks) (run : Env → Checks → WRes) : WRes :=
  if c.miss.isEmpty then run e c
  else if c.good.isEmpty || e.s.twinned e.wv then waitWalk e need c.miss
  else match run e { good := c.good, bad := [], miss := [] } with
    | .done d =>
      let failed : Mask := match d.fault with
        | some t => t.lanes
        | none => 0
      let rest := e.act &&& ~~~(maskOf (c.good.map (·.lane)) &&& ~~~failed)
      let s := (d.s.modWave e.wid fun w => w.writes d.ws).modFrag e.wid e.fr fun f => { f with replay := some rest, answers := [] }
      waitWalk { e with s := s } need c.miss
    | r => r

/-! ### Peers (R551) -/

/-- Ask the peers for elements, each an address, its place and a size; the word waits for every answer (R551). -/
def askPeers (e : Env) (s : State) (l : List (Nat × Loc × Nat)) : WRes :=
  .wait (s.sendOps e.wv.lid e.wid e.fr (l.filterMap fun x => match x.2.1 with
    | .peer port rctx rva => some (port, .read, (List.range x.2.2).map fun i => (rctx, rva + i, 0), x.1)
    | _ => none)) (.peer s.free)

/-! ### Device loads (R298, R300) -/

/-- A lane's element as found bytes. -/
structure Loaded where
  acc : Access
  bytes : List Found
deriving DecidableEq, Repr

/-- The bytes of an access. -/
def accBytes (size : Nat) (a : Access) : List (Nat × Loc) := (List.range size).map fun i => (a.va + i, locPlus a.loc i)

/-- Find every byte of the accesses (R209). -/
def findAll (s : State) (wid : Nat) (w : Wave) (size : Nat) (l : List Access) : List Loaded :=
  l.map fun a => { acc := a, bytes := (accBytes size a).map fun p => seek s wid w p.1 p.2 }

/-- Bytes that come from home. -/
def homeLocs (l : List Loaded) : List Loc := (l.flatMap fun x => x.bytes).filterMap fun f =>
  if f.place = 4 then some f.loc else none

/-- An element that a peer holds, at least in part. -/
def Loaded.remote (x : Loaded) : Bool := x.bytes.any fun f => f.place == 4 && match f.loc with
  | .peer _ _ _ => true
  | _ => false

/-- Put a peer's answer into the element's bytes that were not found here. -/
def Loaded.answered (x : Loaded) (data : Bytes) : Loaded :=
  { x with bytes := (x.bytes.zip ((List.range x.bytes.length).map fun i => data.getD i 0)).map fun p =>
      if p.1.place = 4 then { p.1 with val := p.2 } else p.1 }

/-- Places whose bytes an L1 copy gives. -/
def copyLocs (l : List Loaded) : List Loc := (l.flatMap fun x => x.bytes).filterMap fun f =>
  if f.place = 3 then some f.loc else none

/-- A load meets the errors of the L1 copies it hits (R432); one that cannot be corrected poisons the line. -/
def State.meetCopies (s : State) (core ctx : Nat) (ls : List Loc) : State :=
  if s.soft.isEmpty then s
  else s.meetErrors fun x => match x with
    | .l1 c key => c == core && (ls.filterMap (l1Dev ctx)).contains key
    | _ => false

/-- Places that a load consumes: those it reads at home, and the L1 copies in which it meets an error. -/
def consumed (e : Env) (l : List Loaded) : List Loc :=
  if e.s.soft.isEmpty then homeLocs l
  else homeLocs l ++ (copyLocs l).filter fun x => match l1Dev e.wv.ctx x with
    | some k => e.s.soft.any fun y => y.1 == .l1 (coreOfWave e.wid) k
    | none => false

/-- Do the device loads of some accesses, with a hint, then go on with their elements and the lanes that failed. -/
def deviceLoad (e : Env) (size hint : Nat) (c : Checks)
    (body : Env → List Loaded → List LaneFault → WRes) : WRes :=
  withMisses e .read c fun e c =>
    let found := findAll e.s e.wid e.wv size c.good
    let s := e.s.meetCopies (coreOfWave e.wid) e.wv.ctx (copyLocs found)
    homeFirst e s (consumed e found) fun s =>
      let found := findAll s e.wid e.wv size c.good
      let need := found.filter fun x => x.remote && !Tbl.mem e.frag.answers x.acc.va
      if !need.isEmpty then askPeers e s (need.map fun x => (x.acc.va, x.acc.loc, size))
      else
        let (ok, no) := found.foldr (fun x (acc : List Loaded × List LaneFault) =>
          if !x.remote then (x :: acc.1, acc.2)
          else match Tbl.find e.frag.answers x.acc.va with
            | some (true, data) => (x.answered data :: acc.1, acc.2)
            | some (false, data) =>
              (acc.1, { lane := x.acc.lane, cause := (data.headD 7).toNat, info := 0, va := x.acc.va } :: acc.2)
            | none => acc) ([], [])
        body { e with s := s.fillL1 e.wid e.wv hint (ok.flatMap fun x => x.bytes) } ok (c.bad ++ no)

/-- The value of a loaded element. -/
def Loaded.value (x : Loaded) : Nat := ofLE (x.bytes.map (·.val))

/-- The bytes of an element's register that the log takes (R215). -/
def logOf (l : List Loaded) (lane : Loaded → Nat) : List (Nat × Found) :=
  l.flatMap fun x => x.bytes.map fun f => (lane x, f)

/-- A shadow's log: it logs the same bytes of its own lanes (R560). -/
def shadowLog (e : Env) (size : Nat) (l : List (Nat × Nat)) (done : Mask) : State :=
  let found := l.flatMap fun p =>
    if done.getLsbD p.1 then (List.range size).map fun i =>
      (p.1, ({ va := p.2 + i, loc := .dev 0, val := 0, place := 0 } : Found))
    else []
  e.s.logSpan (whoOf e.wv e.wid e.fr) (e.wv.bid e.wid) e.wv found

/-- Lanes that an item's fault leaves complete. -/
def doneLanes (e : Env) (x : LvqItem) : Mask :=
  match x.trap with
  | some t => if t.fault then e.act &&& ~~~t.lanes else e.act
  | none => e.act

/-- LD (R298). -/
def execLd (w : Fields) (s : State) : Host.Outcome State Fault Refusal :=
  onWord w s fun e =>
    let t := e.ty
    let size := elemBytes t
    let addrs := e.lanes.map fun i => (i, e.ea (e.f 3 0) true i)
    passed e (fun e =>
      deviceLoad e size (e.f 5 4) (checkLanes e size .read addrs) fun e ok bad =>
        let s := e.s.logSpan (whoOf e.wv e.wid e.fr) (e.wv.bid e.wid) e.wv (logOf ok fun x => x.acc.lane)
        let (n, s) := s.fresh
        .done { s := s, ws := ok.flatMap fun x => putAt e.w.d.toNat t x.acc.lane x.value,
                lat := Config.loadCycles n, load := true, fault := laneTrap bad })
      fun e x => shadowLog e size addrs (doneLanes e x)

/-- LDU (R300). -/
def execLdu (w : Fields) (s : State) : Host.Outcome State Fault Refusal :=
  onWord w s fun e =>
    if e.lanes.isEmpty then .done { s := e.s }
    else
      let t := e.ty
      let size := elemBytes t
      let addrs := [(e.first, e.ea 0 true 0)]
      passed e (fun e =>
        deviceLoad e size (e.f 5 4) (checkLanes e size .read addrs) fun e ok bad =>
          let s := e.s.logSpan (whoOf e.wv e.wid e.fr) (e.wv.bid e.wid) e.wv (logOf ok fun _ => e.first)
          let (n, s) := s.fresh
          .done { s := s, ws := ok.flatMap fun x => e.putS (place64 t x.value),
                  lat := Config.loadCycles n, load := true, fault := wholeTrap e bad })
        fun e x => shadowLog e size addrs (doneLanes e x)

/-! ### Device stores (R299, R300) -/

/-- The bytes of a lane's element to store. -/
def storeElem (a : Access) (size x : Nat) : List StoreByte :=
  ((List.range size).zip (leBytes size x)).map fun p =>
    { va := a.va + p.1, loc := locPlus a.loc p.1, val := p.2, lane := a.lane }

/-- What a stored element folds into the signature: address, byte mask, data (R280). -/
def foldStore (size : Nat) (va x : Nat) : Bytes := leBytes 8 va ++ leBytes 1 (2 ^ size - 1) ++ leBytes size x

/-- Store elements of checked lanes into the WSB. -/
def storeNow (e : Env) (size : Nat) (good : List Access) (val : Nat → Nat) : Except Halt State :=
  State.storeAll (whoOf e.wv e.wid e.fr) (e.wv.bid e.wid)
    (e.s.foldSig e.wid (good.flatMap fun a => foldStore size a.va (val a.lane)))
    (good.map fun a => storeElem a size (val a.lane))

/-- A store of a TWIN block that finds the WSB full with no span open goes on in steps (R335): the lanes that still fit enter the
WSB; then the full WSB drains at a compare point; then the word issues again for the lanes that are left. -/
def twinDrain (e : Env) (size : Nat) (good : List Access) (val : Nat → Nat) : WRes :=
  let q := whoOf e.wv e.wid e.fr
  let n := wsbFits e.wv.wsb (good.map fun a => storeElem a size (val a.lane))
  if 0 < n then
    let now := good.take n
    let rest := e.act &&& ~~~maskOf (now.map (·.lane))
    match storeNow e size now val with
    | .ok s => .raw (s.modFrag e.wid e.fr fun f => { f with replay := some rest })
    | .error h => haltRes e h
  else
    atCompare e [] fun e =>
      match e.s.drain q (e.wv.bid e.wid) e.wv with
      | .ok s => .raw s
      | .error h => haltRes e h

/-- Store elements into the WSB (R208, R211, R224, R299). -/
def deviceStore (e : Env) (size : Nat) (c : Checks) (val : Nat → Nat) (trap : List LaneFault → Option TrapRec) : WRes :=
  withMisses e .write c fun e c =>
    let store (e : Env) : WRes :=
      match storeNow e size c.good val with
      | .ok s => .done { s := s, fault := trap c.bad }
      | .error h => haltRes e h
    if !drains e.wv (c.good.map fun a => storeElem a size (val a.lane)) then store e
    else match e.s.grantOfOther e.wid e.wv 1 with
      | some g => .wait e.s (.grant g)
      | none => if e.s.twinned e.wv then twinDrain e size c.good val else store e

/-- ST (R299). -/
def execSt (w : Fields) (s : State) : Host.Outcome State Fault Refusal :=
  onWord w s fun e =>
    let t := e.ty
    let size := elemBytes t
    let c := checkLanes e size .write (e.lanes.map fun i => (i, e.ea (e.f 3 0) true i))
    deviceStore e size c (fun i => e.src e.w.d.toNat t i) laneTrap

/-- STU (R300). -/
def execStu (w : Fields) (s : State) : Host.Outcome State Fault Refusal :=
  onWord w s fun e =>
    if e.lanes.isEmpty then .done { s := e.s }
    else
      let t := e.ty
      let size := elemBytes t
      let c := checkLanes e size .write [(e.first, e.ea 0 true 0)]
      deviceStore e size c (fun i => e.src e.w.d.toNat t i) (wholeTrap e)

/-! ### Scratchpad (R256, R257, R301) -/

/-- The checks of a scratchpad access: alignment, then the share limit (R256, R301). -/
def checkScratch (share size : Nat) (l : List (Nat × Nat)) : List (Nat × Nat) × List LaneFault :=
  l.foldr (fun p c =>
    if p.2 % size ≠ 0 then (c.1, { lane := p.1, cause := cALIGN, info := 0, va := p.2 } :: c.2)
    else if p.2 + size > share then (c.1, { lane := p.1, cause := cPROT, info := 0, va := p.2 } :: c.2)
    else (p :: c.1, c.2)) ([], [])

/-- The scratchpad share of the wave's block. -/
def Env.scratchSize (e : Env) : Nat :=
  match e.s.block (e.wv.bid e.wid) with
  | some b => b.scratchSize
  | none => 0

/-- A read of scratchpad ranges meets the errors of the 64-byte units it reads (R432). -/
def State.meetScratch (s : State) (bid : Nat) (ranges : List (Nat × Nat)) : State :=
  if s.soft.isEmpty then s
  else s.meetErrors fun x => match x with
    | .scratch b unit => b == bid && ranges.any fun r => decide (r.1 < 64 * unit + 64) && decide (64 * unit < r.1 + r.2)
    | _ => false

/-- LDS (R301). -/
def execLds (w : Fields) (s : State) : Host.Outcome State Fault Refusal :=
  onWord w s fun e =>
    let t := e.ty
    let size := elemBytes t
    let (ok, bad) := checkScratch e.scratchSize size (e.lanes.map fun i => (i, e.ea (e.f 3 0) true i))
    withScratch e e.act (ok.map fun p => (p.2, size)) fun e =>
      let read (off : Nat) : Nat := ofLE (scratchBytes e.s (e.wv.bid e.wid) off size)
      .done { s := e.s.meetScratch (e.wv.bid e.wid) (ok.map fun p => (p.2, size)), ws := ok.flatMap fun p => putAt e.w.d.toNat t p.1 (read p.2), load := true, fault := laneTrap bad }

/-- STS (R257, R301): of two lanes the higher one's byte is kept. A write fault has TRAPINFO 1 (R233). -/
def execSts (w : Fields) (s : State) : Host.Outcome State Fault Refusal :=
  onWord w s fun e =>
    let t := e.ty
    let size := elemBytes t
    let (ok, bad) := checkScratch e.scratchSize size (e.lanes.map fun i => (i, e.ea (e.f 3 0) true i))
    let bad := bad.map fun x => if x.cause = cPROT then { x with info := 1 } else x
    withScratch e e.act (ok.map fun p => (p.2, size)) fun e =>
      let s := e.s.writeScratch (e.wv.bid e.wid) (ok.map fun p => (p.2, leBytes size (e.src e.w.d.toNat t p.1)))
      .done { s := s, fault := laneTrap bad }

/-- PRF (R302): lines that are not in L1 are filled; a lane that would fail is dropped; hint 3 has no effect. -/
def execPrf (w : Fields) (s : State) : Host.Outcome State Fault Refusal :=
  onWord w s fun e =>
    if e.f 5 4 = 3 || !e.acts then .done { s := e.s }
    else
      let size := elemBytes e.ty
      let addrs := (e.lanes.map fun i => e.ea (e.f 3 0) true i).filter fun a => a % size == 0
      let found := addrs.filterMap fun a => match e.s.resolveNow e.wv.ctx a .read with
        | .ok (.dev pa) => some (seekCrew e.s (coreOfWave e.wid) e.wv.ctx e.wv.ckey a (.dev pa))
        | _ => none
      let found := found.filter fun f => !(e.s.openTo (some e.wv.lid) f.loc || e.s.poisoned f.loc)
      let home := found.filterMap fun f => if f.place = 4 then some f.loc else none
      if !e.s.recallRoom home then .done { s := e.s }
      else .done { s := (e.s.recallLocs home).fillL1 e.wid e.wv (e.f 5 4) found }

end Sys2Proof.Machine
end

