-- ==== Sys2Proof/Machine/Atomic.lean ====
section
/-! DEFINITION. ATOM and RED, 0x76 and 0x77 (R304 to R312, R405 to R411, R521, R551). -/

namespace Sys2Proof.Machine

/-- SAMEADDR: lanes whose address another lane shares (R309). -/
def sameAddr (l : List Access) : List Access × List LaneFault :=
  let twice (a : Access) : Bool := l.any fun b => b.va == a.va && b.lane != a.lane
  (l.filter fun a => !twice a,
   (l.filter twice).map fun a => { lane := a.lane, cause := cSAMEADDR, info := 0, va := a.va })

/-- Host pages raise PROT, and so do apertures below sys (R406, R551). -/
def atomPlaces (level : Nat) (l : List Access) : List Access × List LaneFault :=
  let ok (a : Access) : Bool := match a.loc with
    | .dev _ => true
    | .host _ => false
    | .peer _ _ _ => level == 4
  (l.filter ok, (l.filter fun a => !ok a).map fun a => { lane := a.lane, cause := cPROT, info := 1, va := a.va })

/-- The device line of an access. -/
def Access.line (a : Access) : Option Nat := match a.loc with | .dev pa => some (lineOf pa) | _ => none

/-- Scope checks lane by lane; a lane that passes has rewritten its entry (R383, R411). -/
def scopeLanes (e : Env) (level : Nat) (l : List Access) : State × List Access × List LaneFault :=
  l.foldl (fun acc a =>
    let (s, ok, bad) := acc
    match a.line with
    | none => (s, ok ++ [a], bad)
    | some n =>
      match s.checkScope (coreOfWave e.wid) n level (partyOf e.wid e.wv) with
      | .ok s => (s, ok ++ [a], bad)
      | .error info => (s, ok, bad ++ [{ lane := a.lane, cause := cSCOPE, info := info, va := a.va }]))
    (e.s, [], [])

/-- The byte that level `l` holds (R218: Current). -/
def currentByte (s : State) (w : Wave) (wid l va : Nat) (loc : Loc) : Byte :=
  let crew : Option Byte := if l ≤ 2 then ((s.crew w.ckey).bind fun c => Tbl.find c.buf va).map (·.val) else none
  let blk : Option Byte := if l = 1 then ((s.block (w.bid wid)).bind fun b => Tbl.find b.buf va).map (·.val) else none
  (blk.orElse fun _ => crew).getD (s.homeByte w.ctx loc)

/-- The element that level `l` holds. -/
def currentElem (s : State) (w : Wave) (wid l size : Nat) (a : Access) : Nat :=
  ofLE ((accBytes size a).map fun p => currentByte s w wid l p.1 p.2)

/-- The bytes of the new values, as they stand in a buffer. -/
def newBytes (size : Nat) (l : List (Access × Nat)) : Tbl BufByte :=
  l.foldl (fun t p => (storeElem p.1 size p.2).foldl (fun t b => Tbl.put t b.va { val := b.val, loc := b.loc }) t) []

/-- The new values written at the level, or why they cannot be (R307, R405). -/
def atomOut (e : Env) (s : State) (level size : Nat) (l : List (Access × Nat)) : Except Halt State :=
  let q := whoOf e.wv e.wid e.fr
  let bid := e.wv.bid e.wid
  let bytes := newBytes size l
  if level = 1 then absorb s q bid (s.putBlock q bid bytes)
  else if level = 2 then absorb s q bid (s.putCrew q bytes)
  else
    let dev := devBytes (bufLocs bytes)
    if s.replayRoom q.lid (dev.map (·.1)) then .ok (s.writeDev q.ctx q.lid none dev) else .error .replay

/-- Write the new values at the level. -/
def atomWrite (e : Env) (s : State) (level size : Nat) (l : List (Access × Nat)) (body : State → WRes) : WRes :=
  match atomOut e s level size l with
  | .ok s => body s
  | .error h => haltRes e h

/-- The lanes of an atomic after every check, or the way it waits or stops. `atHome`: the update-only copies of its lines are
recalled first (R408); RED.dev and a staged RED join or wait beside them. -/
def atomChecks (e : Env) (level size : Nat) (atHome : Bool) (body : Env → List Access → List LaneFault → WRes) : WRes :=
  withMisses e .write (checkLanes e size .write (e.lanes.map fun i => (i, e.ea (e.f 5 4) false i))) fun e c =>
    let (l, badPlace) := atomPlaces level c.good
    let (l, badSame) := sameAddr l
    let locs := l.map (·.loc)
    match e.s.grantOnLines e.wid locs with
    | some g => .wait e.s (.grant g)
    | none =>
      let go (s : State) : WRes := body { e with s := s } l (c.bad ++ badPlace ++ badSame)
      if atHome then homeFirst e e.s locs go
      else match e.s.homeStop e.wid e.wv.lid locs with
        | some t => .raw t
        | none => go e.s

/-- The operands that an atomic folds into the signature (R280). -/
def atomFold (e : Env) (t : Ty) : Bytes :=
  e.lanes.flatMap fun i => leBytes 8 (e.ea (e.f 5 4) false i) ++ leBytes (elemBytes t) (e.c t i)

/-- Peer lanes without an answer yet. -/
def unanswered (e : Env) (l : List Access) : List Access := l.filter fun a => match a.loc with
  | .peer _ _ _ => !Tbl.mem e.frag.answers a.va
  | _ => false

/-- A peer atomic, to be sent: its port, its kind, the element's remote bytes with the data, its local address (R551). -/
def farAtomic (size : Nat) (loc : Loc) (kind : PeerKind) (data va : Nat) : Option (Nat × PeerKind × List (Nat × Nat × Byte) × Nat) :=
  match loc with
  | .peer port rctx rva =>
    some (port, kind, ((List.range size).zip (leBytes size data)).map fun p => (rctx, rva + p.1, p.2), va)
  | _ => none

/-- Send peer atomics (R551). -/
def sendAtomics (e : Env) (s : State) (size : Nat) (l : List Access) (data : Nat → Nat) (kind : PeerKind) : State :=
  s.sendOps e.wv.lid e.wid e.fr (l.filterMap fun a => farAtomic size a.loc kind (data a.lane) a.va)

/-- A place on a peer. -/
def Access.isPeer (a : Access) : Bool := match a.loc with | .peer _ _ _ => true | _ => false

/-- ATOM (R307). -/
def execAtom (w : Fields) (s : State) : Host.Outcome State Fault Refusal :=
  onWord w s fun e =>
    let t := e.ty
    let size := elemBytes t
    let level := e.level
    let op := e.f 3 0
    if e.wv.checkedLevel.isSome then e.illegal
    else if level ≥ 3 && e.s.isDet e.wv.lid && !e.lanes.isEmpty then e.trapNow cDET_FORBIDDEN 0 0 e.act
    else
      leaderOnce e (atomFold e t) fun e =>
        atomChecks e level size true fun e l bad =>
          let ask := unanswered e l
          if !ask.isEmpty then
            .wait (sendAtomics e e.s size ask (fun i => e.c t i) (.atom op (e.f 10 6))) (.peer e.s.free)
          else
            let (s, ok, badScope) := scopeLanes e level l
            let here := ok.filter fun a => !a.isPeer
            let old (a : Access) : Nat := currentElem s e.wv e.wid level size a
            let olds := here.map fun a => (a, old a)
            let news := olds.map fun p => (p.1, (combine op t .rne p.2 (e.c t p.1.lane)).1)
            let far := (ok.filter Access.isPeer).map fun a => (a, ofLE (((Tbl.find e.frag.answers a.va).map (·.2)).getD []))
            let ws := (olds ++ far).flatMap fun p => putAt e.w.d.toNat t p.1.lane p.2
            atomWrite e s level size news fun s =>
              let (n, s) := s.fresh
              .done { s := s, ws := ws, lat := Config.loadCycles n, load := true, fault := laneTrap (bad ++ badScope) }

/-- The core holds the line for the op and type already (R407). -/
def holdsU (s : State) (core ctx op ty line : Nat) : Bool :=
  match Tbl.find (s.core core).u line with
  | some u => u.op == op && u.ty == ty && u.ctx == ctx
  | none => false

/-- Join a contribution into an update-only line that the core holds (R407). -/
def joinU (s : State) (core ctx lid op : Nat) (t : Ty) (ty pa data : Nat) : State :=
  let line := lineOf pa
  s.modCore core fun c =>
    let u := Tbl.get c.u line { op := op, ty := ty, lid := lid, ctx := ctx, elems := [] }
    let x := match Tbl.find u.elems (pa % 64) with
      | some old => (combine op t .rne old.toNat data).1
      | none => data
    { c with u := Tbl.put c.u line { u with elems := Tbl.put u.elems (pa % 64) (BitVec.ofNat 64 x) } }

/-- Take a line in the update-only state: partials of another op or type are sent home first, the copy of its data is dropped,
and it stands in the L1 like any line (R258, R407); none where what is sent home finds the replay store full (R528). -/
def takeU (s : State) (core ctx line : Nat) : Option State :=
  let key := devLineKey ctx line
  let sent : Option State := if !Tbl.mem (s.core core).u line then some s
    else if s.roomFor_ (s.uKeys [line]) then some (s.sendU core line) else none
  sent.bind fun s =>
    let s := s.dropCopies core [key]
    if s.fillRoom core key 0 then some (s.placeLine core key 0) else none

/-- RED.dev outside DET, lane by lane: the first contribution to a line is checked at home (R407, R411). -/
def redDev (e : Env) (op : Nat) (t : Ty) (l : List Access) : Option (State × List LaneFault) :=
  let core := coreOfWave e.wid
  let ty := e.f 10 6
  l.foldl (fun acc a => match acc, a.loc with
    | some (s, bad), .dev pa =>
      let join (s : State) : State := joinU s core e.wv.ctx e.wv.lid op t ty pa (e.c t a.lane)
      if holdsU s core e.wv.ctx op ty (lineOf pa) then some (join s, bad)
      else match s.checkHome (lineOf pa) 3 (partyOf e.wid e.wv) with
        | .ok s => (takeU s core e.wv.ctx (lineOf pa)).map fun s => (join s, bad)
        | .error info => some (s, bad ++ [{ lane := a.lane, cause := cSCOPE, info := info, va := a.va }])
    | _, _ => acc) (some (e.s, []))

/-- RED at dev and sys of a DET launch enters the block's open group (R521). -/
def redStage (e : Env) (op : Nat) (l : List Access) : State :=
  let key := detKey e.wv.lid e.wv.blocklin
  l.foldl (fun s a =>
    let d := s.detBlock e.wv.lid e.wv.blocklin
    let r : DetRed := { waveIdx := e.wv.waveIdx, lane := a.lane, seq := d.seq, loc := a.loc, op := op, ty := e.f 10 6,
                        val := BitVec.ofNat 64 (e.c e.ty a.lane) }
    { s with det := Tbl.put s.det key { d with opened := { d.opened with reds := d.opened.reds ++ [r] }, seq := d.seq + 1 } }) e.s

/-- RED (R310, R407, R409, R521). -/
def execRed (w : Fields) (s : State) : Host.Outcome State Fault Refusal :=
  onWord w s fun e =>
    let t := e.ty
    let size := elemBytes t
    let level := e.level
    let op := e.f 3 0
    if e.wv.checkedLevel.isSome then e.illegal
    else
      leaderOnce e (atomFold e t) fun e =>
        atomChecks e level size (level != 3 && !(level ≥ 3 && e.s.isDet e.wv.lid)) fun e l bad =>
          if level ≥ 3 && e.s.isDet e.wv.lid then
            if e.s.stagedBytes + 8 * l.length > 2 ^ 26 then .wait e.s .staging
            else
              let (s, ok, badScope) := scopeLanes e level l
              let s := redStage { e with s := s } op ok
              .done { s := s, fault := laneTrap (bad ++ badScope) }
          else if level = 3 then
            match redDev e op t l with
            | some (s, badScope) => .done { s := s, fault := laneTrap (bad ++ badScope) }
            | none => .wait (e.s.starveAt (((e.s.core (coreOfWave e.wid)).u.map fun p => .dev (64 * p.1)) ++ l.map (·.loc))) .replayRoom
          else
            let (s, ok, badScope) := scopeLanes e level l
            let here := ok.filter fun a => !a.isPeer
            let news := here.map fun a => (a, (combine op t .rne (currentElem s e.wv e.wid level size a) (e.c t a.lane)).1)
            let s := sendAtomics e s size (ok.filter Access.isPeer) (fun i => e.c t i) (.red op (e.f 10 6))
            atomWrite e s level size news fun s => .done { s := s, fault := laneTrap (bad ++ badScope) }

end Sys2Proof.Machine
end

