-- ==== Sys2Proof/Machine/Commit.lean ====
section
/-! DEFINITION. Spans and commits: XBEG, CMT, ABT, PUL and XSTAT, 0x7B to 0x7F (R212 to R231, R441, R551, R560). -/

namespace Sys2Proof.Machine

/-- Empty the WSB and the read log of a wave. -/
def Wave.emptied (w : Wave) : Wave := { w with wsb := [], readLog := [] }

/-- Open a span (R214). -/
def Wave.openSpan (w : Wave) (f : Frag) (l : Nat) (chk : Bool) (target : W64) : Wave :=
  let n := (w.span l).fails
  { w.setSpan l { isOpen := true, checked := chk, target := target, mask := f.mask, stack := f.stack, fails := n,
                  granted := chk && n == 8 }
    with wsb := [], readLog := if chk then [] else w.readLog }

/-- XBEG's target: B and C hold a signed 16-bit word offset from the header (R214). -/
def Env.xbegTarget (e : Env) : W64 :=
  e.cl.addr + BitVec.ofInt 64 (8 * toSigned 16 (256 * e.w.b.toNat + e.w.c.toNat))

/-- XBEG and XBEG.chk (R214). -/
def xbegOp (e : Env) (chk : Bool) : WRes :=
  let l := e.level
  if !e.wv.whole || e.wv.openTo l || e.wv.checkedLevel.isSome then e.illegal
  else
    let key := grantKey e.wv e.wid l
    let needs := chk && (e.wv.span l).fails == 8
    if needs && e.acts && (e.s.grantOfOther e.wid e.wv l).isSome then .wait e.s (.grant key)
    else
      atCompare e [] fun e =>
        let bytes := wsbBytes e.wv.wsb
        let start (s : State) : WRes :=
          let s := if needs && e.acts then { s with grants := Tbl.put s.grants key e.wid } else s
          .done { s := s.modWave e.wid fun w => w.openSpan e.frag l chk e.xbegTarget }
        if bytes.isEmpty || e.wv.aborting.isSome || !e.acts then start e.s
        else
          let q := whoOf e.wv e.wid e.fr
          let bid := e.wv.bid e.wid
          match e.s.grantOfOther e.wid e.wv 1 with
          | some g => .wait e.s (.grant g)
          | none =>
            match e.s.commitUp q bid 1 bytes with
            | .ok s => start s
            | .error h => haltRes e h

/-- XBEG (R214). -/
def execXbeg (w : Fields) (s : State) : Host.Outcome State Fault Refusal := onWord w s fun e => xbegOp e false

/-- XBEG.chk (R214, R222). -/
def execXbegChk (w : Fields) (s : State) : Host.Outcome State Fault Refusal := onWord w s fun e => xbegOp e true

/-! ### Resolution of a checked commit (R218) -/

/-- Addresses that a lane read, and wrote, in the span. -/
def readsOf (w : Wave) (i : Nat) : List Nat := (w.readLog.filter fun r => r.lane == i).map (·.va)
def writesOf (w : Wave) (i : Nat) : List Nat := (w.wsb.filter fun p => p.2.lanes.getLsbD i).map (·.1)

/-- Two address lists share an address. -/
def overlap (a b : List Nat) : Bool := a.any fun x => b.contains x

/-- Step 1: the survivors of the lanes in ascending order (R218). -/
def stepOne (w : Wave) (lanes : List Nat) : List Nat :=
  lanes.foldl (fun surv i =>
    let bad := surv.any fun j =>
      overlap (readsOf w i) (writesOf w j) || overlap (writesOf w i) (writesOf w j) || overlap (writesOf w i) (readsOf w j)
    if bad then surv else surv ++ [i]) []

/-- The value that a load would take now at a level (R218); a peer's byte is its answer. -/
def currentAt (e : Env) (l : Nat) (r : LogByte) : Byte :=
  match r.loc, Tbl.find e.frag.answers r.va with
  | .peer _ _ _, some (ok, data) => if ok then data.headD 0 else ~~~r.val
  | _, _ => currentByte e.s e.wv e.wid l r.va r.loc

/-- Step 2: whether every byte that a lane logged is unchanged at the level (R218). -/
def valid (e : Env) (l i : Nat) : Bool := (e.wv.readLog.filter fun r => r.lane == i).all fun r => currentAt e l r == r.val

/-- The outcome of a checked commit's lanes. -/
structure Verdict where
  surv : List Nat
  conflict : Bool
  invalid : Bool
deriving DecidableEq, Repr

/-- Resolve the lanes of a checked commit (R218). -/
def resolve (e : Env) (l : Nat) : Verdict :=
  let lanes := lanesOf e.wv.width e.frag.mask
  let one := stepOne e.wv lanes
  let two := one.filter (valid e l)
  { surv := two, conflict := decide (one.length < lanes.length), invalid := decide (two.length < one.length) }

/-- CAUSE of a checked commit (R219). -/
def Verdict.cause (v : Verdict) : Nat := if v.invalid then 2 else if v.conflict then 1 else 0

/-! ### CMT -/

/-- The pieces of CMT that follow the move: peers still to acknowledge hold the fragment and kD (R216, R551). -/
def commitDone (e : Env) (s : State) (ws : List RegWrite) : WRes :=
  let new (p : PeerOp) : Bool :=
    p.wid == e.wid && p.frag == e.fr && p.kind == .unit && !(e.s.peerOps.any fun q => q.grp == p.grp)
  match s.peerOps.find? new with
  | none => .done { s := s, ws := ws }
  | some p => .done { s := s, ws := ws, req := some p.grp, hold := some (.peer p.grp) }

/-- An unchecked CMT (R217). -/
def commitPlain (e : Env) (l : Nat) : WRes :=
  let q := whoOf e.wv e.wid e.fr
  let bid := e.wv.bid e.wid
  let d := e.w.d.toNat
  let ws : List RegWrite := if d = 0 then [] else [.k d e.frag.mask]
  match e.s.commitUp q bid l (wsbBytes e.wv.wsb) with
  | .error h => haltRes e h
  | .ok s =>
    if s.aborted e.wid then .done { s := s }
    else commitDone e (s.modWave e.wid fun w => (w.closeSpans l).emptied) ws

/-- The failure count after a checked commit (R221, R222). -/
def Verdict.failsAfter (v : Verdict) (sp : Span) : Nat := if sp.holds then 0 else if v.invalid then min 8 (sp.fails + 1) else 0

/-- A level's failure count and XCAUSE after a checked commit (R219, R221). -/
def Wave.noteCommit (w : Wave) (l fails cause : Nat) : Wave :=
  { w.setSpan l { w.span l with fails := fails } with xcause := BitVec.ofNat 64 (16 * l + cause) }

/-- A checked CMT after its peers' bytes have been asked for (R218, R219, R221). -/
def commitChecked (e : Env) (l : Nat) (all : Bool) : WRes :=
  let q := whoOf e.wv e.wid e.fr
  let bid := e.wv.bid e.wid
  let v := resolve e l
  let sp := e.wv.span l
  let note (w : Wave) : Wave := w.noteCommit l (v.failsAfter sp) v.cause
  if all && v.cause ≠ 0 then
    let s := (e.s.modWave e.wid fun w => { w with xcause := BitVec.ofNat 64 (16 * l + v.cause) }).abortUnit q bid l v.cause
    .done { s := if sp.holds then s else s.modWave e.wid note }
  else
    let keep := e.wv.wsb.filter fun p => v.surv.contains p.2.writer || !e.frag.mask.getLsbD p.2.writer
    let d := e.w.d.toNat
    let ws : List RegWrite := if d = 0 then [] else [.k d (maskOf v.surv)]
    match e.s.commitUp q bid l (wsbBytes keep) with
    | .error h => haltRes e h
    | .ok s =>
      if s.aborted e.wid then .done { s := s.modWave e.wid note }
      else commitDone e ((s.modWave e.wid fun w => (note (w.closeSpans l)).emptied).releaseGrants e.wid) ws

/-- The places that validation reads at home are recalled first, and may stop the wave (R408, R433, R525). -/
def validateFirst (e : Env) (body : Env → WRes) : WRes :=
  let locs := e.wv.readLog.map (·.loc)
  let ask := (e.wv.readLog.filter fun r => match r.loc with
    | .peer _ _ _ => !Tbl.mem e.frag.answers r.va
    | _ => false).map fun r => (r.va, r.loc, 1)
  homeFirst e e.s locs fun s => if !ask.isEmpty then askPeers e e.s (dedup ask) else body { e with s := s }

/-- The leader's CMT passes what it did to the shadow, and the shadow does the same (R560). -/
def passedCommit (e : Env) (body : Env → WRes) : WRes :=
  if !e.s.twinned e.wv then body e
  else if e.wv.shadow then
    match e.s.peekLvq e.wid e.wv with
    | none => .wait e.s .twin
    | some x =>
      let s := (e.s.popLvq e.wid e.wv x).modWave e.wid fun w =>
        let w := { w with spans := x.spans, xcause := x.xcause }
        if x.emptied then w.emptied else w
      .done { s := s, ws := x.writes, fault := x.trap.filter fun t => t.fault }
  else match body e with
    | .done d =>
      let item := match d.s.wave e.wid with
        | some w => { lvqItem e.wv d.ws d.trap with spans := w.spans, xcause := w.xcause, emptied := w.wsb.isEmpty }
        | none => lvqItem e.wv d.ws d.trap
      if e.s.lvqFull e.wid e.wv item then .wait e.s .twin else .done { d with s := d.s.pushLvq e.wid e.wv item }
    | r => r

/-- CMT (R216 to R219). -/
def execCmt (w : Fields) (s : State) : Host.Outcome State Fault Refusal :=
  onWord w s fun e =>
    let l := e.level
    let all := e.fbit 10
    let chk := e.wv.checkedLevel
    if (chk.isSome && chk != some l) || (all && chk != some l) || (chk.isSome && !e.wv.whole) then e.illegal
    else
      let fold : Bytes :=
        if chk.isSome then leBytes (e.wv.width / 8) (maskOf (stepOne e.wv (lanesOf e.wv.width e.frag.mask))).toNat else []
      atCompare e fold fun e => passedCommit e fun e =>
        if e.wv.aborting.isSome then .done { s := e.s }
        else match e.s.grantOfOther e.wid e.wv l with
          | some g => .wait e.s (.grant g)
          | none =>
            if chk.isSome then validateFirst e fun e => commitChecked e l all else commitPlain e l

/-- ABT (R225, R227). -/
def execAbt (w : Fields) (s : State) : Host.Outcome State Fault Refusal :=
  onWord w s fun e =>
    let l := e.level
    if !e.wv.openTo l then e.trapNow cABORT_UNHANDLED (BitVec.ofNat 64 l) 0 e.frag.mask
    else if e.acts then .done { s := e.s.abortUnit (whoOf e.wv e.wid e.fr) (e.wv.bid e.wid) l 4 }
    else .done { s := e.s }

/-- PUL (R230). -/
def execPul (w : Fields) (s : State) : Host.Outcome State Fault Refusal :=
  onWord w s fun e => .done { s := if e.acts then e.s.pul e.wid e.wv e.level else e.s }

/-- XSTAT's word (R231). -/
def xstatWord (s : State) (wid : Nat) (w : Wave) (l : Nat) : Nat :=
  let sp := w.span l
  sp.fails + 16 * ofBool (sp.fails == 8) + 32 * ofBool (s.holdsGrant wid w l) + 64 * ofBool sp.isOpen +
    128 * ofBool (sp.isOpen && sp.checked) + 2 ^ 8 * lineCount w.wsb + 2 ^ 16 * logLines w.readLog

/-- XSTAT (R231). A shadow takes the word from its leader (R560). -/
def execXstat (w : Fields) (s : State) : Host.Outcome State Fault Refusal :=
  onPassed w s fun e => .done { s := e.s, ws := e.putS (xstatWord e.s e.wid e.wv e.level) }

end Sys2Proof.Machine
end

