-- ==== Sys2Proof/Machine/Copy.lean ====
section
/-! DEFINITION. The copy group: CPY, CPYT, CPYX, WAITK, WPRM, LAZY and LAZYC, 0x80 to 0x86 (R271 to R276, R313 to R326). -/

namespace Sys2Proof.Machine

/-! ### Issue of a copy (R314) -/

/-- What a copy instruction asks of the engine after its checks. -/
structure CopyPlan where
  moves : List (CopyDst × CopySrc)
  /-- Lat of R274. -/
  lat : Nat
  /-- Bytes of the promise (R274). -/
  size : Nat
  /-- Bytes that only count, and BASE (R319). -/
  extra : Option (Nat × Nat)
  /-- Scratchpad ranges that it reads or writes (R276). -/
  ranges : List (Nat × Nat)
deriving DecidableEq, Repr

/-- A token of a wave is set. -/
def Wave.tokSet (w : Wave) (t : Nat) : Bool := w.tok.getLsbD t

/-- Set a token, with a promise (R314 step 3). -/
def Wave.setTok (w : Wave) (t promise : Nat) : Wave :=
  { w with tok := w.tok ||| (1#8 <<< t), promise := Tbl.set 0 w.promise t promise }

/-- Set a token without a promise. -/
def Wave.raiseTok (w : Wave) (t : Nat) : Wave := { w with tok := w.tok ||| (1#8 <<< t) }

/-- Clear a token. -/
def Wave.clearTok (w : Wave) (t : Nat) : Wave := { w with tok := w.tok &&& ~~~(1#8 <<< t) }

/-- Send the reads of a copy's pieces that lie on peers (R551): one request for each 64 KiB unit. -/
def sendPieces (s : State) (core wid lid fr id : Nat) (m : List (Nat × Resolved)) (todo : List (CopyDst × CopySrc)) :
    State × Nat :=
  let vas := todo.flatMap fun x => x.2.vas
  let ops : List (Nat × PeerKind × List (Nat × Nat × Byte) × Nat) := (unitsOf vas).filterMap fun u => match m.find? fun p => p.1 == u with
    | some (_, .ok (.peer port rctx rva)) =>
      let mine := vas.filter fun v => v / 2 ^ 16 == u
      some (port, .piece core id, mine.map fun v => (rctx, rva + v % 2 ^ 16, 0), u * 2 ^ 16)
    | _ => none
  (s.sendOps lid wid fr ops, ops.length)

/-- Hand a copy to the engine (R273, R274, R314). -/
def launchCopy (e : Env) (p : CopyPlan) : WRes :=
  let core := coreOfWave e.wid
  let srcs := p.moves.map (·.2)
  let m := unitMap e.s e.wv.ctx .read (srcs.flatMap CopySrc.vas)
  let locs := srcLocs m srcs
  homeFirst e e.s locs fun s =>
    let (got, todo) := readMoves s e.wv.ctx [] m p.moves
    let cyc := e.s.cycOf e.wid
    let q := match (s.core core).copies.getLast? with
      | some c => c.promise
      | none => 0
    let promise := max cyc q + p.lat + ceilDiv p.size 512
    let (id, s) := s.fresh
    let (s, n) := sendPieces s core e.wid e.wv.lid e.fr id m todo
    let c : Copy := { id := id, wid := e.wid, lid := e.wv.lid, tok := e.token, promise := promise, writes := got,
                      todo := todo, got := [], bad := none, fixed := [], extra := p.extra, unacked := n }
    let s := s.modCore core fun k => { k with copies := k.copies ++ [c] }
    .done { s := s.modWave e.wid fun w => w.setTok e.token promise }

/-- A copy of no bytes (R316): no transfer; the token is set and clears in the next cycle, its promise is the issue cycle. -/
def noTransfer (e : Env) : WRes :=
  let t := e.token
  .done { s := e.s.modWave e.wid fun w => { w.setTok t (e.s.cycOf e.wid) with fading := w.fading ||| (1#8 <<< t) } }

/-- The shadow records the promise of its leader's copy, and its token stands as the leader's does: the two clear together
(R279). -/
def Wave.followTok (w l : Wave) (t promise : Nat) : Wave :=
  let w := { w with promise := Tbl.set 0 w.promise t promise, fading := w.fading ||| (l.fading &&& (1#8 <<< t)) }
  if l.tokSet t then w.raiseTok t else w

/-- The four steps of R314. In a TWIN launch the leader alone hands the copy over, and its promise passes to the shadow
(R279, R280). -/
def copyOp (e : Env) (operands : Bytes) (plan : Env → (Env → CopyPlan → WRes) → WRes) : WRes :=
  if e.wv.tokSet e.token then .wait e.s (.token e.token)
  else if e.acts && (e.s.core (coreOfWave e.wid)).copies.length ≥ 32 then .wait e.s .copyRoom
  else
    atCompare e operands fun e =>
      let run (e : Env) : WRes := plan e fun e p => withScratch e e.act p.ranges fun e => launchCopy e p
      if !e.s.twinned e.wv then run e
      else if e.wv.shadow then
        match e.s.peekLvq e.wid e.wv with
        | none => .wait e.s .twin
        | some x =>
          let s := e.s.popLvq e.wid e.wv x
          let follow (w : Wave) : Wave := match s.wave (s.leaderOf e.wid e.wv) with
            | some l => w.followTok l e.token x.xcause.toNat
            | none => w
          .done { s := if x.trap.isSome then s else s.modWave e.wid follow, fault := x.trap }
      else match run e with
        | .done d =>
          let promise := match d.s.wave e.wid with
            | some w => Tbl.get w.promise e.token 0
            | none => 0
          .done { d with s := d.s.pushLvq e.wid e.wv { lvqItem e.wv [] d.trap with xcause := BitVec.ofNat 64 promise } }
        | r => r

/-- ALIGN on the first misaligned value of a list (R316, R318, R320). -/
def alignFault (e : Env) (l : List (Nat × Nat)) (body : WRes) : WRes :=
  match l.find? fun p => p.1 % p.2 != 0 with
  | some p => e.trapNow cALIGN 0 (BitVec.ofNat 64 p.1) e.act
  | none => body

/-- The byte limit of a local space (R313): 1 scratchpad, 2 operand buffer, 3 stand. -/
def spaceSize (e : Env) (space : Nat) : Nat :=
  match e.s.block (e.wv.bid e.wid) with
  | some b => if space = 1 then b.scratchSize else if space = 2 then b.obufSize else b.standSize
  | none => 0

/-- PROT on the first range that passes its space's limit (R313, R233). -/
def limitFault (e : Env) (l : List (Nat × Nat × Nat)) (body : WRes) : WRes :=
  match l.find? fun p => p.1 != 0 && decide (p.2.1 + p.2.2 > spaceSize e p.1) with
  | some p => e.trapNow cPROT 2 (BitVec.ofNat 64 p.2.1) e.act
  | none => body

/-- A destination in a space. -/
def dstAt (space a : Nat) : CopyDst :=
  match space with
  | 1 => .sp a
  | 2 => .ob a
  | 3 => .stand a
  | _ => .mem (a % 2 ^ 64)

/-- DS and SS (R313). -/
def Env.ds (e : Env) : Nat := e.f 3 2
def Env.ss (e : Env) : Nat := e.f 1 0

/-- Operands of a copy in its signature (R280). -/
def copyFold (l : List Nat) : Bytes := l.flatMap (leBytes 8)

/-- CPY (R316). -/
def execCpy (w : Fields) (s : State) : Host.Outcome State Fault Refusal :=
  onWord w s fun e =>
    let dst := e.uni e.w.d.toNat .b64
    let src := e.uni e.w.a.toNat .b64
    let n := e.uni e.w.b.toNat .n32
    copyOp e (copyFold [dst, src, n]) fun e body =>
      alignFault e [(dst, 16), (src, 16), (n, 16)] <|
        limitFault e [(e.ds, dst, n), (e.ss, src, n)] <|
          let range (sp a : Nat) : List (Nat × Nat) := if sp = 1 && n > 0 then [(a, n)] else []
          let from_ (i : Nat) : CopySrc :=
            if e.ss = 0 then .mem ((src + i) % 2 ^ 64)
            else .byte ((scratchBytes e.s (e.wv.bid e.wid) (src + i) 1).headD 0)
          if n = 0 then noTransfer e
          else body e { moves := (List.range n).map fun i => (dstAt e.ds (dst + i), from_ i), lat := if e.ss = 0 then 600 else 24,
                        size := n, extra := none, ranges := range e.ds dst ++ range e.ss src }

/-! ### Tensors (R317, R318) -/

/-- A tensor descriptor (R317). -/
structure Tensor where
  base : Nat
  rank : Nat
  esz : Nat
  dims : List Nat
  strides : List Nat
  boxes : List Nat
deriving DecidableEq, Repr

/-- Read a descriptor's 64 bytes; none where it breaks a rule (R317). -/
def tensorOf (raw : Bytes) : Option Tensor :=
  let q (o n : Nat) : Nat := ofLE ((raw.drop o).take n)
  let w1c := q 0x1C 4
  let w38 := q 0x38 8
  let rank := bits w1c 4 2
  let dims := (List.range 5).map fun d => q (8 + 4 * d) 4
  let strides := 0 :: (List.range 4).map fun d => q (0x20 + 6 * d) 6
  let boxes := (List.range 5).map fun d => bits w38 (8 * d + 7) (8 * d)
  let dimOk (d : Nat) : Bool := if d < rank then decide (1 ≤ dims.getD d 0) else dims.getD d 0 == 0
  let strideOk (d : Nat) : Bool := strides.getD d 0 % 16 == 0 && (decide (d < rank) || strides.getD d 0 == 0)
  let boxOk (d : Nat) : Bool := decide (d < rank) || boxes.getD d 0 == 0
  let row := (boxes.getD 0 0 + 1) * 2 ^ bits w1c 1 0
  if bits w1c 31 5 = 0 && bits w38 63 40 = 0 && decide (1 ≤ rank ∧ rank ≤ 5) && q 0 8 % 16 = 0 && row % 16 = 0 &&
      (List.range 5).all fun d => dimOk d && (d == 0 || strideOk d) && boxOk d then
    some { base := q 0 8, rank := rank, esz := bits w1c 1 0, dims := dims, strides := strides,
           boxes := boxes.map (· + 1) }
  else none

/-- Read a wave's parameter bytes at dev level when a word issues (R317, R459, R463): the page may miss, fault, or lie on a
peer (PROT). -/
def readParams (e : Env) (va n : Nat) (body : Env → Bytes → WRes) : WRes :=
  match e.s.resolve (coreOfWave e.wid) e.wv.ctx e.frag.failed va .read with
  | .miss => waitWalk e .read [va]
  | .bad c => e.trapNow c 0 (BitVec.ofNat 64 va) e.act
  | .ok (.peer _ _ _) => e.trapNow cPROT 0 (BitVec.ofNat 64 va) e.act
  | .ok l =>
    let locs := (List.range n).map (locPlus l)
    homeFirst e e.s locs fun s => body { e with s := s } (locs.map (s.homeByte e.wv.ctx))

/-- Read and check a tensor descriptor (R317). -/
def withTensor (e : Env) (va : Nat) (body : Env → Tensor → WRes) : WRes :=
  if va % 64 ≠ 0 then e.trapNow cPROT 2 (BitVec.ofNat 64 va) e.act
  else readParams e va 64 fun e raw =>
    match tensorOf raw with
    | some t => body e t
    | none => e.trapNow cPROT 2 (BitVec.ofNat 64 va) e.act

/-- The coordinates in three scalars from the one in B (R318). -/
def Env.coords (e : Env) : List Int :=
  let n := e.w.b.toNat - 0x80
  [toSigned 32 (e.wv.sget n), toSigned 32 (e.wv.sget n / 2 ^ 32), toSigned 32 (e.wv.sget (n + 1)),
   toSigned 32 (e.wv.sget (n + 1) / 2 ^ 32), toSigned 32 (e.wv.sget (n + 2))]

/-- Bytes of a box. -/
def Tensor.boxBytes (t : Tensor) : Nat := t.boxes.foldl (· * ·) (2 ^ t.esz)

/-- Box coordinates of element `i` of the tile, dimension 0 first (R318). -/
def Tensor.coordsOf (t : Tensor) (i : Nat) : List Nat :=
  (t.boxes.foldl (fun (acc : List Nat × Nat) b => (acc.1 ++ [acc.2 % b], acc.2 / b)) ([], i)).1

/-- The device address of a tile element, or none outside the tensor (R318). -/
def Tensor.devAt (t : Tensor) (c : List Int) (j : List Nat) : Option Nat :=
  let x (d : Nat) : Int := c.getD d 0 + (j.getD d 0 : Nat)
  let inside := (List.range t.rank).all fun d => decide (0 ≤ x d ∧ x d < (t.dims.getD d 0 : Nat))
  let off : Int := 2 ^ t.esz * x 0 + ((List.range t.rank).map fun d => (t.strides.getD d 0 : Int) * (if d = 0 then 0 else x d)).sum
  if inside then some (wrap 64 (t.base + off)) else none

/-- The moves of a box from a tensor into a local tile: outside elements are zero (R318). -/
def Tensor.toLocal (t : Tensor) (c : List Int) (space off : Nat) : List (CopyDst × CopySrc) :=
  let n := 2 ^ t.esz
  (List.range (t.boxBytes / n)).flatMap fun i =>
    let dev := t.devAt c (t.coordsOf i)
    (List.range n).map fun b =>
      (dstAt space (off + n * i + b), match dev with | some a => .mem ((a + b) % 2 ^ 64) | none => .byte 0)

/-- The moves of a local tile to a tensor, and how many bytes are left out (R318, R319). -/
def Tensor.toMem (t : Tensor) (c : List Int) (raw : Bytes) : List (CopyDst × CopySrc) × Nat :=
  let n := 2 ^ t.esz
  (List.range (t.boxBytes / n)).foldl (fun acc i =>
    match t.devAt c (t.coordsOf i) with
    | some a => (acc.1 ++ (List.range n).map fun b => (dstAt 0 (a + b), .byte (raw.getD (n * i + b) 0)), acc.2)
    | none => (acc.1, acc.2 + n)) ([], 0)

/-- CPYT (R318, R319). -/
def execCpyt (w : Fields) (s : State) : Host.Outcome State Fault Refusal :=
  onWord w s fun e =>
    let off := e.uni e.w.d.toNat .b64
    let desc := e.uni e.w.a.toNat .b64
    let n := e.w.b.toNat - 0x80
    copyOp e (copyFold [off, desc, e.wv.sget n, e.wv.sget (n + 1), e.wv.sget (n + 2)]) fun e body =>
      alignFault e [(off, 16)] <|
        withTensor e desc fun e t =>
          let space := if e.ds = 0 then e.ss else e.ds
          let size := t.boxBytes
          limitFault e [(space, off, size)] <|
            let ranges := if space = 1 then [(off, size)] else []
            if e.ds = 0 then
              let (moves, out) := t.toMem e.coords (scratchBytes e.s (e.wv.bid e.wid) off size)
              body e { moves := moves, lat := 24, size := moves.length, extra := some (out, t.base), ranges := ranges }
            else
              body e { moves := t.toLocal e.coords space off, lat := 600, size := size, extra := none, ranges := ranges }

/-- CPYX (R320). -/
def execCpyx (w : Fields) (s : State) : Host.Outcome State Fault Refusal :=
  onWord w s fun e =>
    let dst := e.uni e.w.d.toNat .b64
    let src := e.uni e.w.a.toNat .b64
    let n := e.uni e.w.b.toNat .n32
    copyOp e (copyFold [dst, src, n]) fun e body =>
      alignFault e [(dst, 16), (src, 16), (n, 64)] <|
        limitFault e [(e.ds, dst, n)] <|
          body e { moves := (List.range n).map fun i => (dstAt e.ds (dst + i), .ds6 ((src + 3 * (i / 4)) % 2 ^ 64) (i % 4)),
                   lat := 600, size := n, extra := none, ranges := if e.ds = 1 && n > 0 then [(dst, n)] else [] }

/-! ### Waiting (R321 to R323) -/

/-- A fault held on a token, taken off (R275). -/
def heldFault (e : Env) (t : Nat) : Option WRes :=
  (Tbl.find e.wv.heldFaults t).map fun h =>
    .done { s := e.s.modWave e.wid fun w => { w with heldFaults := Tbl.del w.heldFaults t },
            fault := some (faultRec h.cause h.info h.addr e.frag.mask) }

/-- WAITK (R321): ILLEGAL while the wave holds a grant (R223). -/
def execWaitk (w : Fields) (s : State) : Host.Outcome State Fault Refusal :=
  onWord w s fun e =>
    let t := e.token
    if e.wv.holdsAny then e.illegal
    else if e.wv.tokSet t then .wait e.s (.token t)
    else (heldFault e t).getD (.done { s := e.s })

/-- What WPRM does on a core that keeps time for its block (R322). Outside handler mode a fault held on the token is raised in
place of PROMISE; in handler mode it stays held. -/
def wprmOp (e : Env) : WRes :=
  let t := e.token
  let p := Tbl.get e.wv.promise t 0
  if e.wv.holdsAny then e.illegal
  else if e.wv.handler.isSome then if e.wv.tokSet t then .wait e.s (.token t) else .done { s := e.s }
  else if e.wv.tokSet t then
    if e.s.cycOf e.wid < p then .wait e.s (.promise t p)
    else (heldFault e t).getD (.done { s := e.s, report := some (reportRec cPROMISE (BitVec.ofNat 64 t) e.frag.mask) })
  else (heldFault e t).getD (.done { s := e.s })

/-- WPRM (R322). The shadow takes the outcome from its leader: of a fault, it takes its own held one off. -/
def execWprm (w : Fields) (s : State) : Host.Outcome State Fault Refusal :=
  onWord w s fun e => passed e wprmOp fun e x =>
    if x.trap.any (·.fault) then e.s.modWave e.wid fun w => { w with heldFaults := Tbl.del w.heldFaults e.token } else e.s

/-- WPRM.read (R323). -/
def execWprmRead (w : Fields) (s : State) : Host.Outcome State Fault Refusal :=
  onWord w s fun e =>
    if e.wv.holdsAny then e.illegal
    else .done { s := e.s, ws := e.putS (Tbl.get e.wv.promise e.token 0) }

/-! ### Lazy windows (R324, R325) -/

/-- The shadow binds the window that its leader has bound. -/
def shadowLazy (e : Env) (win : Nat) (x : LvqItem) : State :=
  if x.trap.isSome then e.s
  else match (e.s.block (e.s.leaderBid e.wid e.wv)).bind fun b => Tbl.find b.lazyWins win with
    | some v => e.s.modBlock (e.wv.bid e.wid) fun b => { b with lazyWins := Tbl.put b.lazyWins win v }
    | none => e.s

/-- LAZY (R324). -/
def execLazy (w : Fields) (s : State) : Host.Outcome State Fault Refusal :=
  onWord w s fun e =>
    let win := e.w.d.toNat
    let off := e.uni e.w.c.toNat .b64
    passed e (fun e =>
      match e.s.block (e.wv.bid e.wid) with
      | none => .done { s := e.s }
      | some b =>
        if Tbl.mem b.lazyWins win then e.illegal
        else
          alignFault e [(off, 16)] <|
            withTensor e (e.uni e.w.a.toNat .b64) fun e t =>
              limitFault e [(1, off, t.boxBytes)] <|
                if b.lazyWins.any fun v => meets v.2.off v.2.len off t.boxBytes then e.illegal
                else
                  let v : LazyWin := { off := off, len := t.boxBytes, moves := t.toLocal e.coords 1 off, present := false,
                                       inflight := none }
                  .done { s := e.s.modBlock (e.wv.bid e.wid) fun b => { b with lazyWins := Tbl.put b.lazyWins win v } })
      fun e x => shadowLazy e win x

/-- LAZYC (R325). -/
def execLazyc (w : Fields) (s : State) : Host.Outcome State Fault Refusal :=
  onWord w s fun e =>
    let win := e.w.d.toNat
    let bid := e.wv.bid e.wid
    let busy := match (e.s.block bid).bind fun b => Tbl.find b.lazyWins win with
      | some v => v.inflight.isSome
      | none => false
    if busy then .wait e.s (.lazyWin bid win)
    else .done { s := e.s.modBlock bid fun b => { b with lazyWins := Tbl.del b.lazyWins win } }

end Sys2Proof.Machine
end

