-- ==== Sys2Proof/Machine/Matrix.lean ====
section
/-! DEFINITION. The matrix group, 0x90 to 0x9E: operand-buffer records, the stand tile, quarter operations, masks and the
accumulator instructions (R336 to R368), and the swath at issue (R385, R386). -/

namespace Sys2Proof.Machine

/-! ### Accumulator tiles (R337, R338) -/

/-- Element of an accumulator tile. -/
def Wave.aget (w : Wave) (tile row col : Nat) : Nat := (Tbl.get w.acc (256 * tile + 32 * row + col) 0).toNat

/-- Write one element of an accumulator tile. -/
def Wave.aset (w : Wave) (tile row col x : Nat) : Wave :=
  { w with acc := Tbl.set 0 w.acc (256 * tile + 32 * row + col) (BitVec.ofNat 32 x) }

/-- Write a row of an accumulator tile. -/
def Wave.rowSet (w : Wave) (tile row : Nat) (f : Nat → Nat) : Wave :=
  (List.range 32).foldl (fun w j => w.aset tile row j (f j)) w

/-- The tile that base `b` names for the quarter of a lane, and the lane's row in it. -/
def tileOf (b lane : Nat) : Nat := b + lane / 8
def rowOf (lane : Nat) : Nat := lane % 8

/-- The tiles that an access names. -/
def ArrayOp.tiles : ArrayOp → List Nat
  | .quarter _ l => l
  | .zero b l | .fetch _ b _ _ _ l _ | .send _ b l => l.map (tileOf b)
  | .scale b l => l.map fun x => tileOf b x.1
  | .drain _ b _ _ l => l.map fun x => tileOf b x.1

/-- The array has still to reach an access to one of the tiles (R353). -/
def Wave.queued (w : Wave) (tiles : List Nat) : Bool := w.arrayQ.any fun x => x.tiles.any tiles.contains

/-- A pending SWR that writes one of the tiles (R365). -/
def Wave.receives (w : Wave) (tiles : List Nat) : Option Nat :=
  (w.recvs.find? fun r => r.targets.any fun t => tiles.contains t.2.1).map (·.tok)

/-- Run a matrix instruction on the tiles from base `b`: ILLEGAL past the allotment (R338); it waits for a pending SWR of a
tile (R365). -/
def withTiles (e : Env) (b : Nat) (body : Env → WRes) : WRes :=
  let tiles := e.lanes.map (tileOf b)
  if tiles.any fun t => e.wv.accs ≤ t then e.illegal
  else match e.wv.receives tiles with
    | some t => .wait e.s (.token t)
    | none => body e

/-- An access joins its wave's array queue. -/
def Env.enqueue (e : Env) (s : State) (x : ArrayOp) : State := s.modWave e.wid fun w => { w with arrayQ := w.arrayQ ++ [x] }

/-- Run an accumulator instruction in the order of the array (R353): behind an earlier access to its tiles it is `late`, and does
not wait at issue. -/
def inOrder (e : Env) (b : Nat) (late body : Env → WRes) : WRes :=
  withTiles e b fun e => if e.wv.queued (e.lanes.map (tileOf b)) then late e else body e

/-! ### Records (R344 to R346) -/

/-- Element size of a record's format. -/
def fmtBytes (fmt : Nat) : Nat := if fmt = 4 ∨ fmt = 5 then 2 else 1

/-- The type of a record's format (R344). -/
def fmtTy (fmt : Nat) : Ty := ([.ds8, .e4m3, .e5m2, .i8, .bf16, .f16, .p6] : List Ty).getD fmt .ds8

/-- Block length of BLK; 0 for none. -/
def blkLen (blk : Nat) : Nat := ([0, 16, 32, 64] : List Nat).getD blk 0

/-- Scale size. -/
def ObRec.scaleBytes (r : ObRec) : Nat := if r.bf16Scale then 2 else 1

/-- Scale blocks in a row. -/
def ObRec.nb (r : ObRec) : Nat := r.pitch * 16 / (blkLen r.blk * fmtBytes r.fmt)

/-- Offset of a row. -/
def ObRec.rowAt (r : ObRec) (row : Nat) : Nat := r.base * 256 + row * r.pitch * 16

/-- Offset of the A scale of a row and block. -/
def ObRec.aScaleAt (r : ObRec) (row blk : Nat) : Nat := r.aoff * 16 + (row * r.nb + blk) * r.scaleBytes

/-- Offset of the B scale of a block and column. -/
def ObRec.bScaleAt (r : ObRec) (blk col : Nat) : Nat := r.boff * 16 + (blk * 32 + col) * r.scaleBytes

/-- The record that two words make, in a share of `share` bytes (R344, R345). -/
def recordOf (x y share : Nat) : Option ObRec :=
  let r : ObRec := { base := bits x 9 0, size := (bits x 25 16 + 1) * 256, pitch := bits x 43 32, fmt := bits y 3 0,
                     blk := bits y 5 4, bf16Scale := bit y 6, aoff := bits y 31 16, boff := bits y 47 32 }
  let reserved := bits x 63 44 ≠ 0 || bits x 31 26 ≠ 0 || bits x 15 10 ≠ 0 || bits y 63 48 ≠ 0 || bits y 15 7 ≠ 0 ||
    decide (7 ≤ r.fmt)
  if reserved || r.pitch = 0 || decide (r.base * 256 + r.size > share) then none
  else if r.blk ≠ 0 && (decide (4 ≤ r.fmt) || r.pitch * 16 % (blkLen r.blk * fmtBytes r.fmt) != 0) then none
  else some r

/-- The lanes that a check of R349 fails: reason, offending offset. -/
structure ObFault where
  lane : Nat
  reason : Nat
  off : Nat
deriving DecidableEq, Repr

/-- The OB_RECORD trap of failing lanes: the lowest reason, the record, the lowest offset of that reason (R349). -/
def obTrap (rec : Nat) (l : List ObFault) : Option TrapRec :=
  match l with
  | [] => none
  | x :: xs =>
    let reason := xs.foldl (fun m y => min m y.reason) x.reason
    let same := (l.filter fun y => y.reason == reason).map (·.off)
    some (faultRec cOB_RECORD (BitVec.ofNat 64 (reason + 256 * rec)) (BitVec.ofNat 64 (same.tail.foldl min (same.headD 0)))
      (maskOf (l.map (·.lane))))

/-- OB_RECORD on every active lane. -/
def Env.obAll (e : Env) (rec reason : Nat) : WRes :=
  .done { s := e.s, fault := obTrap rec (e.lanes.map fun i => { lane := i, reason := reason, off := 0 }) }

/-- The record of an index in the wave's block. -/
def Env.record (e : Env) (n : Nat) : Option ObRec := (e.s.block (e.wv.bid e.wid)).bind fun b => Tbl.find b.recs n

/-- OBR (R345). -/
def execObr (w : Fields) (s : State) : Host.Outcome State Fault Refusal :=
  onWord w s fun e =>
    let n := e.w.d.toNat
    match recordOf (e.uni e.w.a.toNat .b64) (e.uni e.w.b.toNat .b64) (spaceSize e 2) with
    | none => e.obAll n 7
    | some r => .done { s := e.s.modBlock (e.wv.bid e.wid) fun b => { b with recs := Tbl.put b.recs n r } }

/-- OBF (R346). -/
def execObf (w : Fields) (s : State) : Host.Outcome State Fault Refusal :=
  onWord w s fun e =>
    .done { s := e.s.modBlock (e.wv.bid e.wid) fun b => { b with recs := Tbl.del b.recs e.w.d.toNat } }

/-! ### Lane access (R347, R348) -/

/-- The lanes of OBW and OBL that pass, with their share offsets; the lanes that are misaligned; the lanes past the record. -/
def obLanes (e : Env) (r : ObRec) (size : Nat) : List (Nat × Nat) × List LaneFault × List ObFault :=
  e.lanes.foldr (fun i acc =>
    let o := e.src e.w.b.toNat .n32 i
    if o % size ≠ 0 then (acc.1, { lane := i, cause := cALIGN, info := 0, va := o } :: acc.2.1, acc.2.2)
    else if o + size > r.size then (acc.1, acc.2.1, { lane := i, reason := 6, off := r.base * 256 + o } :: acc.2.2)
    else ((i, r.base * 256 + o) :: acc.1, acc.2)) ([], [], [])

/-- The trap of OBW and OBL: ALIGN has the lower code, TRAPLANES holds every failing lane (R236). -/
def obLaneTrap (rec : Nat) (al : List LaneFault) (ob : List ObFault) : Option TrapRec :=
  match laneTrap al, obTrap rec ob with
  | some x, some y => some { x with lanes := x.lanes ||| y.lanes }
  | some x, none => some x
  | none, y => y

/-- OBW (R347): of two lanes the higher one's byte is kept. -/
def execObw (w : Fields) (s : State) : Host.Outcome State Fault Refusal :=
  onWord w s fun e =>
    let n := e.w.a.toNat
    match e.record n with
    | none => e.obAll n 1
    | some r =>
      let size := tyBits e.ty / 8
      let (ok, al, ob) := obLanes e r size
      .done { s := e.s.writeObuf (e.wv.bid e.wid) (ok.map fun p => (p.2, leBytes size (e.src e.w.d.toNat e.ty p.1))),
              fault := obLaneTrap n al ob }

/-- OBL (R347). -/
def execObl (w : Fields) (s : State) : Host.Outcome State Fault Refusal :=
  onWord w s fun e =>
    let n := e.w.a.toNat
    match e.record n with
    | none => e.obAll n 1
    | some r =>
      let size := tyBits e.ty / 8
      let (ok, al, ob) := obLanes e r size
      .done { s := e.s,
              ws := ok.flatMap fun p => putAt e.w.d.toNat e.ty p.1 (ofLE (obufBytes e.s (e.wv.bid e.wid) p.2 size)),
              lat := 6, fault := obLaneTrap n al ob }

/-! ### The stand tile and the mask state (R342, R357) -/

/-- STB (R342). -/
def execStb (w : Fields) (s : State) : Host.Outcome State Fault Refusal :=
  onWord w s fun e =>
    let sb := e.uni e.w.a.toNat .b64
    let kt := e.uni e.w.b.toNat .n32
    let size := tyBits e.ty / 8
    if sb % 1024 ≠ 0 then e.trapNow cALIGN 0 (BitVec.ofNat 64 sb) e.act
    else if kt = 0 || kt % 32 != 0 || decide (sb + kt * 32 * size > spaceSize e 3) then
      e.trapNow cPROT 2 (BitVec.ofNat 64 sb) e.act
    else .done { s := e.s.modWave e.wid fun w => { w with tile := some { sb := sb, kt := kt, fmt := e.f 10 6 } } }

/-- MMSK (R357). -/
def execMmsk (w : Fields) (s : State) : Host.Outcome State Fault Refusal :=
  onWord w s fun e =>
    let a := e.uni e.w.a.toNat .b64
    let bid := e.wv.bid e.wid
    let share := spaceSize e 1
    if a % 16 ≠ 0 then e.trapNow cALIGN 0 (BitVec.ofNat 64 a) e.act
    else if a + 16 > share then e.obAll 0 9
    else withScratch e e.act [(a, 16)] fun e =>
      let q (o : Nat) : Nat := ofLE (scratchBytes e.s bid (a + o) 4)
      let mode := q 0
      let bm := q 12
      if 2 < mode then e.obAll 0 9
      else if mode = 2 && (bm % 16 != 0 || decide (bm + 128 > share)) then e.obAll 0 9
      else withScratch e e.act (if mode = 2 then [(bm, 128)] else []) fun e =>
        let map := if mode = 2 then
            (List.range 32).map fun i => BitVec.ofNat 32 (ofLE (scratchBytes e.s bid (bm + 4 * i) 4))
          else []
        let m : MaskState := { mode := mode, row0 := toSigned 32 (q 4), col0 := toSigned 32 (q 8), bitmap := map }
        .done { s := e.s.modWave e.wid fun w => { w with maskState := m } }

/-- Masked (R358), for the row of a lane. -/
def MaskState.masks (m : MaskState) (lane j : Nat) : Bool :=
  match m.mode with
  | 1 => decide (m.col0 + j > m.row0 + lane)
  | 2 => (m.bitmap.getD (lane % 32) 0).getLsbD j
  | _ => false

/-! ### Quarter operations: the checks (R351) -/

/-- The pairs of formats of R336: A's and the stand's. -/
def pairOk (a b : Ty) : Bool :=
  ([(.ds8, .ds8), (.i8, .i8), (.e4m3, .e4m3), (.e4m3, .e5m2), (.e5m2, .e4m3), (.e5m2, .e5m2), (.p6, .bf16), (.bf16, .bf16),
    (.f16, .f16)] : List (Ty × Ty)).contains (a, b)

/-- Cycles that the array spends on one group (R336). -/
def groupCycles (a : Ty) : Nat :=
  match a with
  | .ds8 => 1
  | .bf16 | .f16 => 4
  | _ => 2

/-- A type of a code that the word's checks have accepted. -/
def tyAt (code : Nat) : Ty := (tyOf code).getD .b32

/-- The reason that fails the whole instruction (R349, R351 step 2). -/
def wholeReason (r : Option ObRec) (at_ : Ty) (scaled : Bool) (t : Option StandTile) (k0 kk : Nat) : Option Nat :=
  match r with
  | none => some 1
  | some r =>
    if fmtTy r.fmt ≠ at_ || (r.blk != 0) != scaled then some 2
    else match t with
      | none => some 3
      | some t =>
        if !pairOk at_ (tyAt t.fmt) then some 3
        else if k0 % 32 ≠ 0 || decide (k0 + kk > t.kt) || decide ((k0 + kk) * fmtBytes r.fmt > r.pitch * 16) then some 8
        else none

/-- What is wrong with a scale at an offset of the share (R349 reasons 4 to 6). -/
def scaleReason (e : Env) (r : ObRec) (off : Nat) : Option Nat :=
  if off + r.scaleBytes > spaceSize e 2 then some 6
  else
    let x := ofLE (obufBytes e.s (e.wv.bid e.wid) off r.scaleBytes)
    if r.bf16Scale then if (fval .bf16 x).isFin then none else some 5
    else if x = 255 then some 4 else none

/-- Scale blocks that a range of k touches. -/
def blocksOf (r : ObRec) (k0 kk : Nat) : List Nat :=
  let n := blkLen r.blk
  if n = 0 then [] else (List.range ((k0 + kk - 1) / n + 1)).filter fun b => decide (k0 / n ≤ b)

/-- The first failing scale of a list of offsets, of the lowest reason. -/
def firstScale (e : Env) (r : ObRec) (offs : List Nat) : Option (Nat × Nat) :=
  (offs.filterMap fun o => (scaleReason e r o).map fun x => (x, o)).foldl (fun m y => match m with
    | none => some y
    | some z => if y.1 < z.1 then some y else some z) none

/-- The lanes that pass steps 3 and 4 of R351 with their rows, and the lanes that fail. -/
def quarterLanes (e : Env) (r : ObRec) (k0 kk : Nat) : List (Nat × Nat) × List ObFault :=
  let rows := e.lanes.map fun i => (i, e.src e.w.b.toNat .n32 i)
  let blocks := blocksOf r k0 kk
  let out (p : Nat × Nat) : Bool := decide (p.2 * r.pitch * 16 + (k0 + kk) * fmtBytes r.fmt > r.size)
  let (ok, bad) := rows.foldr (fun p acc =>
    if out p then (acc.1, { lane := p.1, reason := 6, off := r.rowAt p.2 } :: acc.2)
    else match firstScale e r (blocks.map (r.aScaleAt p.2)) with
      | some (x, o) => (acc.1, { lane := p.1, reason := x, off := o } :: acc.2)
      | none => (p :: acc.1, acc.2)) (([], []) : List (Nat × Nat) × List ObFault)
  if rows.all out then (ok, bad)
  else match firstScale e r (blocks.flatMap fun b => (List.range 32).map (r.bScaleAt b)) with
    | some (x, o) => ([], bad ++ e.lanes.map fun i => { lane := i, reason := x, off := o })
    | none => (ok, bad)

/-! ### The collector (R354) -/

/-- The collector takes more members from the operation: it is open, matches, and has room. -/
def Collector.takes (c : Collector) (x : Collector) (cyc : Nat) : Bool :=
  decide (cyc ≤ c.opened + 3) && c.kind == x.kind && c.atype == x.atype && c.bid == x.bid && c.tile.sb == x.tile.sb &&
  c.tile.fmt == x.tile.fmt && c.k0 == x.k0 && c.kk == x.kk && decide (c.members.length + x.members.length ≤ 4)

/-- Hand the members of one pass to the core's collector. -/
def Core.collect (c : Core) (x : Collector) : Core :=
  match c.coll with
  | none => { c with coll := some x }
  | some y =>
    if y.takes x c.cyc then { c with coll := some { y with members := y.members ++ x.members } }
    else { c with closed := c.closed ++ [y], coll := some x }

/-- The quarters of a list of lanes, each with its rows. -/
def quartersOf (wid op b : Nat) (r : ObRec) (m : Option MaskState) (ok : List (Nat × Nat)) (pass : Nat) :
    List (Quarter × Option MaskState) :=
  (List.range 4).filterMap fun j =>
    let q := 4 * pass + j
    match ok.filter fun p => p.1 / 8 == q with
    | [] => none
    | l => some ({ wid := wid, op := op, tile := b + q, q := q, rows := l.map fun p => (rowOf p.1, p.2), record := r }, m)

/-- The access of a pass's members to their tiles. -/
def arrayPassOf (l : List (Quarter × Option MaskState)) : ArrayOp :=
  .quarter ((l.head?.map (·.1.op)).getD 0) (l.map fun m => m.1.tile)

/-- A quarter operation (R350 to R354). -/
def quarterOp (e : Env) (kind : Nat) (scaled : Bool) : WRes :=
  let n := e.w.a.toNat
  let b := e.w.d.toNat
  let at_ := tyAt (e.f 9 5)
  let k0 := e.uni e.w.c.toNat .n32
  let kk := 32 * (e.f 13 10 + 1)
  withTiles e b fun e =>
    match wholeReason (e.record n) at_ scaled e.wv.tile k0 kk, e.record n, e.wv.tile with
    | none, some r, some t =>
      let (ok, bad) := quarterLanes e r k0 kk
      let core := coreOfWave e.wid
      let mask := if e.fbit 4 then some e.wv.maskState else none
      let (op, s) := e.s.fresh
      let passes := (List.range e.wv.maskWords).filterMap fun j =>
        match quartersOf e.wid (32 * op + j) b r mask ok j with
        | [] => none
        | l => some l
      if passes.isEmpty then .done { s := e.s, fault := obTrap n bad }
      else
        let s := passes.foldl (fun s l => s.modCore core fun c => c.collect
          { kind := kind, atype := e.f 9 5, tile := t, bid := e.wv.bid e.wid, k0 := k0, kk := kk, opened := c.cyc, members := l }) s
        .done { s := s.modWave e.wid fun w => { w with arrayQ := w.arrayQ ++ passes.map arrayPassOf }, fault := obTrap n bad }
    | some x, _, _ => e.obAll n x
    | none, _, _ => e.obAll n 1

/-- MMQ (R350). -/
def execMmq (w : Fields) (s : State) : Host.Outcome State Fault Refusal := onWord w s fun e => quarterOp e 0 false

/-- MMQS (R350). -/
def execMmqs (w : Fields) (s : State) : Host.Outcome State Fault Refusal := onWord w s fun e => quarterOp e 1 true

/-- MMQP (R350). -/
def execMmqp (w : Fields) (s : State) : Host.Outcome State Fault Refusal := onWord w s fun e => quarterOp e 2 false

/-! ### The operation (R68, R69, R352) -/

/-- One product of a group, with the scale of its blocks. -/
structure Product where
  a : Val
  b : Val
  scale : Val
deriving DecidableEq, Repr

/-- The scaled product: an exact zero for a zero scale (R59). -/
def Product.value (p : Product) : Val :=
  if p.scale.isZero then .num false 0 1 0
  else match (mulVal p.a p.b).1 with
    | .nan _ => .nan false
    | .inf s => .inf (s != p.scale.sign)
    | v => mulNum v p.scale

/-- The group sum G (R68, R69). The product of two infinities is an infinity, by IEEE 754 (R44). -/
def groupSum (l : List Product) : Val :=
  let vs := l.map Product.value
  let signs := vs.filterMap fun v => match v with
    | .inf s => some s
    | _ => none
  if vs.any Val.isNan then .nan false
  else if signs.contains true && signs.contains false then .nan false
  else match signs with
    | s :: _ => .inf s
    | [] => sumFin vs

/-- The accumulation step: two roundings (R68). -/
def accStep (acc : Nat) (g : Val) : Nat :=
  (roundVal fmtF32 .rne (addVal .rne (fval .f32 acc) (fval .f32 (roundVal fmtF32 .rne g).1)).1).1

/-- A byte as the pass has read it: one that was written while it occupied the array may be read as it was, and one written later
is (R341). -/
def ArrayPass.seen (p : ArrayPass) (use : Nat) (d : CopyDst) (now : Byte) : Byte :=
  match (p.wrote.zipIdx.filter fun x => x.1.dst == d).find? fun x => !x.1.during || Config.passOld use x.2 with
  | some x => x.1.old
  | none => now

/-- Operand-buffer and stand bytes as a pass has read them. -/
def ArrayPass.obuf (p : ArrayPass) (s : State) (off n : Nat) : Bytes :=
  (obufBytes s p.col.bid off n).zipIdx.map fun x => p.seen s.free (.ob (off + x.2)) x.1
def ArrayPass.stand (p : ArrayPass) (s : State) (off n : Nat) : Bytes :=
  (standBytes s p.col.bid off n).zipIdx.map fun x => p.seen s.free (.stand (off + x.2)) x.1

/-- The scale at an offset: none where the code has none (R58, R59). -/
def scaleAt (s : State) (p : ArrayPass) (r : ObRec) (off : Nat) : Option Val :=
  let x := ofLE (p.obuf s off r.scaleBytes)
  if r.bf16Scale then if (fval .bf16 x).isFin then some (fval .bf16 x) else none
  else if x = 255 then none else some (e8Val x)

/-- Element k of a row of a record (R344). -/
def aElem (s : State) (p : ArrayPass) (r : ObRec) (row k : Nat) : Val :=
  let n := fmtBytes r.fmt
  valOf (fmtTy r.fmt) (ofLE (p.obuf s (r.rowAt row + k * n) n))

/-- Element (k, j) of the pass's stand tile (R340). -/
def bElem (s : State) (p : ArrayPass) (k j : Nat) : Val :=
  let t := p.col.tile
  let ty := tyAt t.fmt
  let n := tyBits ty / 8
  valOf ty (ofLE (p.stand s (t.sb + k / 32 * 1024 * n + j * 32 * n + k % 32 * n) n))

/-- The scale of a product: one where the record has no block length. None: a code without a value. -/
def pairScale (s : State) (p : ArrayPass) (r : ObRec) (row k j : Nat) : Option Val :=
  if r.blk = 0 then some (.num false 1 1 0)
  else match scaleAt s p r (r.aScaleAt row (k / blkLen r.blk)), scaleAt s p r (r.bScaleAt (k / blkLen r.blk) j) with
    | some x, some y => some (mulNum x y)
    | _, _ => none

/-- G of group `g` for a row and a column; a scale that lost its value after its check leaves G open. -/
def groupVal (s : State) (p : ArrayPass) (r : ObRec) (row j g use : Nat) : Val :=
  let ks := (List.range 32).map fun i => 32 * g + i
  let ps := ks.map fun k => (pairScale s p r row k j).map fun sc =>
    ({ a := aElem s p r row k, b := bElem s p k j, scale := sc } : Product)
  if ps.any Option.isNone then fval .f32 (Config.freeWord use j).toNat else groupSum (ps.filterMap id)

/-- A row of a member: every element through its groups in order, then the mask (R352, R358). -/
def quarterRow (s : State) (p : ArrayPass) (m : Option MaskState) (q : Quarter) (row ro j : Nat) : Nat :=
  let c := p.col
  let acc := match s.wave q.wid with
    | some w => w.aget q.tile row j
    | none => 0
  let x := (List.range (c.kk / 32)).foldl (fun acc g =>
    accStep acc (groupVal s p q.record ro j (c.k0 / 32 + g) (s.free + g))) acc
  match m with
  | some m => if m.masks (8 * q.q + row) j then 0xFF800000 else x
  | none => x

/-- The effect of one member of a pass on its tile. -/
def State.runQuarter (s : State) (p : ArrayPass) (m : Quarter × Option MaskState) : State :=
  let q := m.1
  let s' := s.modWave q.wid fun w =>
    q.rows.foldl (fun w x => w.rowSet q.tile x.1 fun j => quarterRow s p m.2 q x.1 x.2 j) w
  { s' with free := s.free + 16 }

/-! ### Accesses in the order of the array (R353) -/

/-- Zero the owned rows of lanes (R359). -/
def Wave.zeroRows (w : Wave) (b : Nat) (lanes : List Nat) : Wave :=
  lanes.foldl (fun w i => w.rowSet (tileOf b i) (rowOf i) fun _ => 0) w

/-- Scale the owned rows of lanes (R360). -/
def Wave.scaleRows (w : Wave) (b : Nat) (l : List (Nat × Int)) : Wave :=
  l.foldl (fun v x => v.rowSet (tileOf b x.1) (rowOf x.1) fun j =>
    (fscale fmtF32 .rne (fval .f32 (w.aget (tileOf b x.1) (rowOf x.1) j)) x.2).1) w

/-- The register writes of an ACR (R361). -/
def Wave.columns (w : Wave) (b d c n : Nat) (lanes : List Nat) : List RegWrite :=
  (List.range n).flatMap fun m => lanes.map fun i =>
    .v (d + m) i (BitVec.ofNat 32 (w.aget (tileOf b i) (rowOf i) ((c + m) % 32)))

/-- The bytes that a DRN writes, by offset (R362). -/
def Wave.drained (w : Wave) (b ty : Nat) (sat : Bool) (l : List (Nat × Nat)) : List (Nat × Bytes) :=
  let t := (tyOf ty).getD .b32
  l.map fun x => (x.2, (List.range 32).flatMap fun j =>
    leBytes (tyBits t / 8) (convertVal t .rne sat (fval .f32 (w.aget (tileOf b x.1) (rowOf x.1) j))).1)

/-- The rows that a DRNS sends (R363). -/
def Wave.swathRows (w : Wave) (b : Nat) (lanes : List Nat) : List SwathRow :=
  lanes.map fun i => { lane := i, elems := (List.range 32).map fun j => BitVec.ofNat 32 (w.aget (tileOf b i) (rowOf i) j) }

/-- The array reaches an accumulator instruction (R353, R367). -/
def State.reach (s : State) (wid : Nat) (w : Wave) : ArrayOp → State
  | .quarter _ _ => s
  | .zero b lanes => s.modWave wid fun w => w.zeroRows b lanes
  | .scale b l => s.modWave wid fun w => w.scaleRows b l
  | .fetch id b d c n lanes flip =>
    let ws := w.columns b d c n lanes
    let ws := match flip with
      | some x => twinFlip x.1 x.2 ws
      | none => ws
    let due := s.cycOf wid + 9
    let land (p : Pending) : Pending := if p.req = some id then { p with due := max p.due due } else p
    s.modWave wid fun w => { w.writes ws with pending := w.pending.map land }
  | .drain _ b ty sat l => s.writeScratch (w.bid wid) (w.drained b ty sat l)
  | .send id b lanes =>
    let rows := w.swathRows b lanes
    s.modWave wid fun w => { w with sends := w.sends.map fun x => if x.id = id then { x with rows := rows } else x }

/-- The array goes through a wave's queue, as far as the pass that lands takes it. -/
def State.runQueue (p : ArrayPass) (wid : Nat) : Nat → State → State
  | 0, s => s
  | n + 1, s => match s.wave wid with
    | none => s
    | some w => match w.arrayQ with
      | [] => s
      | x :: rest =>
        let pop (s : State) : State := s.modWave wid fun w => { w with arrayQ := rest }
        match x with
        | .quarter op _ =>
          let mine := p.col.members.filter fun m => m.1.wid == wid && m.1.op == op
          if mine.isEmpty then s else State.runQueue p wid n (pop (mine.foldl (fun s m => s.runQuarter p m) s))
        | x => State.runQueue p wid n (pop (s.reach wid w x))

/-- The oldest pass of a core lands where its cycle has come (R355). -/
def State.landPass (s : State) (core : Nat) : State :=
  let k := s.core core
  match k.passes with
  | [] => s
  | p :: rest =>
    if k.cyc + 1 < p.lands then s
    else
      let s := s.modCore core fun k => { k with passes := rest }
      (dedup (p.col.members.map fun m => m.1.wid)).foldl (fun s wid =>
        State.runQueue p wid (((s.wave wid).map fun w => w.arrayQ.length).getD 0) s) s

/-- The passes that land in the next cycle. -/
def State.landPasses (s : State) : State :=
  (s.cores.filter fun c => !c.2.passes.isEmpty).foldl (fun s c => s.landPass c.1) s

/-! ### Accumulator instructions (R359 to R364) -/

/-- ACZ (R359). -/
def execAcz (w : Fields) (s : State) : Host.Outcome State Fault Refusal :=
  onWord w s fun e =>
    let b := e.w.d.toNat
    inOrder e b (fun e => .done { s := e.enqueue e.s (.zero b e.lanes) }) fun e =>
      .done { s := e.s.modWave e.wid fun w => w.zeroRows b e.lanes }

/-- ACS (R360). -/
def execAcs (w : Fields) (s : State) : Host.Outcome State Fault Refusal :=
  onWord w s fun e =>
    let b := e.w.d.toNat
    let l := e.lanes.map fun i => (i, toSigned 32 (e.a .i32 i))
    inOrder e b (fun e => .done { s := e.enqueue e.s (.scale b l) }) fun e =>
      .done { s := e.s.modWave e.wid fun w => w.scaleRows b l }

/-- ACR (R361). -/
def execAcr (w : Fields) (s : State) : Host.Outcome State Fault Refusal :=
  onWord w s fun e =>
    let b := e.w.a.toNat
    let c := e.uni e.w.c.toNat .n32
    let n := 2 ^ e.f 2 0
    let d := e.w.d.toNat
    inOrder e b (fun e =>
        let (id, s) := e.s.fresh
        .done { s := e.enqueue s (.fetch id b d c n e.lanes none), req := some id,
                later := (List.range n).map fun m => .v (d + m), lat := 8 }) fun e =>
      .done { s := e.s, lat := 8, ws := e.wv.columns b d c n e.lanes }

/-- DRN (R362): where rows overlap the higher lane's bytes are kept. -/
def execDrn (w : Fields) (s : State) : Host.Outcome State Fault Refusal :=
  onWord w s fun e =>
    let b := e.w.a.toNat
    let o := e.uni e.w.d.toNat .b64
    let p := e.uni e.w.b.toNat .n32
    let size := tyBits e.ty / 8
    if e.lanes.isEmpty then .done { s := e.s }
    else withTiles e b fun e =>
      alignFault e [(o, 16), (p, 16)] <|
        let (ok, bad) := e.lanes.foldr (fun i acc =>
          if o + i * p + 32 * size > spaceSize e 1 then
            (acc.1, ({ lane := i, cause := cPROT, info := 1, va := o + i * p } : LaneFault) :: acc.2)
          else (i :: acc.1, acc.2)) (([], []) : List Nat × List LaneFault)
        windowsFirst e e.act (ok.map fun i => (o + i * p, 32 * size)) fun e =>
          let l := ok.map fun i => (i, o + i * p)
          if e.wv.draining e.fr || e.wv.queued (e.lanes.map (tileOf b)) then
            .done { s := e.enqueue e.s (.drain e.fr b (e.f 10 6) (e.fbit 5) l), fault := laneTrap bad }
          else
            .done { s := e.s.writeScratch (e.wv.bid e.wid) (e.wv.drained b (e.f 10 6) (e.fbit 5) l), fault := laneTrap bad }

/-! ### The swath at issue (R385, R386, R363, R364) -/

/-- Key of a launch's swath. -/
def swathKey (lid sid : Nat) : Nat := 256 * lid + sid

/-- A swath whose first round is open. -/
def Swath.fresh : Swath :=
  { round := 0, latch := none, contribs := [], result := none, taken := 0, awaitPeer := none, fromPeer := [] }

/-- The swath of a launch. -/
def State.swath (s : State) (lid sid : Nat) : Swath := Tbl.get s.swaths (swathKey lid sid) Swath.fresh

/-- A handle's fields, or none where the handle is not legal (R385, R554). -/
def handleOf (x : Nat) : Option SwathHandle :=
  let peer := bits x 63 56
  let h : SwathHandle := { sid := bits x 7 0, npart := bits x 19 8, nrecv := bits x 39 32, peer := peer }
  if bits x 55 40 ≠ 0 || bits x 31 20 ≠ 0 || h.npart = 0 || h.nrecv = 0 || bits peer 5 4 ≠ 0 || (!bit peer 7 && peer != 0)
  then none else some h

/-- The sends and receptions of a launch's swath that wait, on the leaders. -/
def State.swathSends (s : State) (lid sid : Nat) : List (Nat × SwathSend) :=
  s.waves.flatMap fun p => if p.2.lid = lid then (p.2.sends.filter fun x => x.handle.sid == sid).map fun x => (p.1, x) else []
def State.swathRecvs (s : State) (lid sid : Nat) : List (Nat × SwathRecv) :=
  s.waves.flatMap fun p => if p.2.lid = lid && !p.2.shadow then
    (p.2.recvs.filter fun x => x.handle.sid == sid).map fun x => (p.1, x) else []

/-- What a round has latched: its first operation's values (R386). -/
def State.roundLatch (s : State) (lid sid r : Nat) : Option SwathHandle :=
  let sw := s.swath lid sid
  let own := if r = sw.round then sw.latch else none
  own.orElse fun _ =>
    (((s.swathSends lid sid).find? fun x => x.2.round == r).map fun x => x.2.handle).orElse fun _ =>
      ((s.swathRecvs lid sid).find? fun x => x.2.round == r).map fun x => x.2.handle

/-- Operations that a round has. -/
def State.roundCount (s : State) (lid sid r : Nat) (send : Bool) : Nat :=
  let sw := s.swath lid sid
  if send then
    (if r = sw.round then sw.contribs.length else 0) + ((s.swathSends lid sid).filter fun x => x.2.round == r).length
  else (if r = sw.round then sw.taken else 0) + ((s.swathRecvs lid sid).filter fun x => x.2.round == r).length

/-- The round that a new operation belongs to: the first that is not full (R386). -/
def State.roundFor (s : State) (lid sid : Nat) (send : Bool) : Nat → Nat → Nat
  | 0, r => r
  | n + 1, r => match s.roundLatch lid sid r with
    | none => r
    | some h =>
      if s.roundCount lid sid r send < (if send then h.npart else h.nrecv) then r else s.roundFor lid sid send n (r + 1)

/-- The round of a new operation, or none where its handle names other values than the round has latched (R386). -/
def State.joinRound (s : State) (lid : Nat) (h : SwathHandle) (send : Bool) : Option Nat :=
  let fuel := (s.swathSends lid h.sid).length + (s.swathRecvs lid h.sid).length + 2
  let r := s.roundFor lid h.sid send fuel (s.swath lid h.sid).round
  match s.roundLatch lid h.sid r with
  | none => some r
  | some k => if k.npart = h.npart && k.nrecv = h.nrecv then some r else none

/-- BARRIER_MISMATCH of a swath (R386). -/
def swathMismatch (e : Env) (sid : Nat) : WRes := e.trapNow cBARRIER (BitVec.ofNat 64 (sid + 2 * 2 ^ 30)) 0 e.act

/-- Act on the leader and set the token on both sides; a trap of the leader passes to the shadow (R279, R446). `shadow` is
what the shadow does beside setting its token. -/
def leaderToken (e : Env) (run : Env → WRes) (shadow : Env → State) : WRes :=
  if !e.s.twinned e.wv then run e
  else if e.wv.shadow then
    match e.s.peekLvq e.wid e.wv with
    | none => .wait e.s .twin
    | some x =>
      let e := { e with s := e.s.popLvq e.wid e.wv x }
      .done { s := if x.trap.isSome then e.s else shadow e, fault := x.trap }
  else match run e with
    | .done d => .done { d with s := d.s.pushLvq e.wid e.wv (lvqItem e.wv [] d.trap) }
    | r => r

/-- What a row folds into the signature. -/
def foldRow (r : SwathRow) : Bytes := leBytes 2 r.lane ++ r.elems.flatMap fun x => leBytes 4 x.toNat

/-- DRNS (R363, R366). In a TWIN launch it is a compare point that compares the rows, and so stands there until they are formed. -/
def execDrns (w : Fields) (s : State) : Host.Outcome State Fault Refusal :=
  onWord w s fun e =>
    let b := e.w.a.toNat
    let tok := e.token
    if e.lanes.isEmpty then .done { s := e.s }
    else if e.wv.tokSet tok then .wait e.s (.token tok)
    else withTiles e b fun e =>
      match handleOf (e.uni e.w.b.toNat .b64) with
      | none => e.trapNow cILLEGAL (e.cl.words.getD e.cl.idx 0) 0 e.act
      | some h =>
        let late := e.wv.queued (e.lanes.map (tileOf b))
        let rows := if late then [] else e.wv.swathRows b e.lanes
        if late && e.s.twinned e.wv then .wait e.s .array
        else atCompare e (rows.flatMap foldRow) fun e => leaderToken e (fun e =>
          match e.s.joinRound e.wv.lid h true with
          | none => swathMismatch e h.sid
          | some r =>
            let (id, s) := e.s.fresh
            let x : SwathSend := { id := id, handle := h, round := r, tok := tok, rows := rows }
            let s := s.modWave e.wid fun w => { w.raiseTok tok with sends := w.sends ++ [x] }
            .done { s := if late then e.enqueue s (.send id b e.lanes) else s })
          fun e => e.s.modWave e.wid fun w => w.raiseTok tok

/-- The rows of a result into a reception's tiles; a row that nobody sent is +0 (R364, R387). -/
def Wave.receive (w : Wave) (x : SwathRecv) (rows : List SwathRow) : Wave :=
  x.targets.foldl (fun w t =>
    let elems := match rows.find? fun r => r.lane == t.1 with
      | some r => r.elems
      | none => []
    w.rowSet t.2.1 t.2.2 fun j => (elems.getD j 0).toNat) w

/-- The shadow's SWR (R366): its result waits in the load-value queue, or is still to come. -/
def shadowSwr (e : Env) (x : LvqItem) (r : SwathRecv) : WRes :=
  let s := e.s.popLvq e.wid e.wv x
  match x.trap, x.rows with
  | some t, _ => .done { s := s, fault := some t }
  | none, some rows => .done { s := s.modWave e.wid fun w => ((w.raiseTok r.tok).receive r rows).clearTok r.tok }
  | none, none => .done { s := s.modWave e.wid fun w => { w.raiseTok r.tok with recvs := w.recvs ++ [r] } }

/-- SWR (R364, R366): the leader joins the swath's round, and passes an item that its result will fill. -/
def execSwr (w : Fields) (s : State) : Host.Outcome State Fault Refusal :=
  onWord w s fun e =>
    let b := e.w.d.toNat
    let tok := e.token
    if e.lanes.isEmpty then .done { s := e.s }
    else if e.wv.tokSet tok then .wait e.s (.token tok)
    else withTiles e b fun e =>
      match handleOf (e.uni e.w.a.toNat .b64) with
      | none => e.trapNow cILLEGAL (e.cl.words.getD e.cl.idx 0) 0 e.act
      | some h =>
        let recv : SwathRecv := { handle := h, round := 0, tok := tok, targets := e.lanes.map fun i => (i, tileOf b i, rowOf i) }
        let item : LvqItem := { lvqItem e.wv [] none with swr := some tok, size := 128 * e.lanes.length }
        if !e.acts then match e.s.peekLvq e.wid e.wv with
          | none => .wait e.s .twin
          | some x => shadowSwr e x recv
        else if e.s.lvqFull e.wid e.wv item then .wait e.s .twin
        else match e.s.joinRound e.wv.lid h false with
          | none =>
            let t := faultRec cBARRIER (BitVec.ofNat 64 (h.sid + 2 * 2 ^ 30)) 0 e.act
            .done { s := e.s.pushLvq e.wid e.wv (lvqItem e.wv [] (some t)), fault := some t }
          | some r =>
            let s := e.s.modWave e.wid fun w => { w.raiseTok tok with recvs := w.recvs ++ [{ recv with round := r }] }
            .done { s := s.pushLvq e.wid e.wv item }

end Sys2Proof.Machine
end

