-- ==== Sys2Proof/Machine/Front.lean ====
section
/-! DEFINITION. The launch front's shared operations: event records (R479, R547), satisfaction of dependences (R483, R484),
and a region's completion with its action (R416, R418). -/

namespace Sys2Proof.Machine

/-! ### Event records (R479) -/

/-- Bytes of one record. -/
def eventBytes (r : W64 × W64) : Bytes := leBytes 8 r.1.toNat ++ leBytes 8 r.2.toNat

/-- Function that holds a context (R561). -/
def State.holder (s : State) (ctx : Nat) : Nat := (Tbl.get s.ctxfn ctx 0).toNat

/-- Write the oldest held event of a context, if the ring has room and its entry translates (R479). -/
def State.postOne (s : State) (ctx : Nat) : Option State :=
  let c := s.ctx ctx
  match c.heldEvents with
  | [] => none
  | r :: rest =>
    let n := 2 ^ bits c.word1.toNat 5 0
    let w3 := c.word3.toNat
    let head := bits w3 15 0 % n
    let tail := bits w3 31 16 % n
    if (tail + 1) % n = head then none
    else
      let va := bits c.word1.toNat 63 6 * 64 + 16 * tail
      let write : Option State := match s.resolveNow ctx va .write with
        | .ok (.dev pa) => some (s.writeDev ctx 0 none ((List.range 16).map fun i => (pa + i, (eventBytes r).getD i 0)))
        | .ok (.host ha) =>
          some { s with hostMem := Memory.writes s.hostMem ha (eventBytes r),
                        hostOut := s.hostOut ++ [.posted ha (eventBytes r)] }
        | _ => none
      write.map fun s =>
        let s := s.modCtx ctx fun c =>
          { c with heldEvents := rest, word3 := BitVec.ofNat 64 (setBits w3 31 16 ((tail + 1) % n)) }
        if bit w3 43 then { s with hostOut := s.hostOut ++ [.interrupt (s.holder ctx) (bits w3 51 44)] } else s

/-- Write held events until one cannot be written. -/
def State.flushFrom (ctx : Nat) : Nat → State → State
  | 0, s => s
  | n + 1, s => match s.postOne ctx with
    | some s => State.flushFrom ctx n s
    | none => s

/-- Try the held events of a context (R479). -/
def State.flushEvents (s : State) (ctx : Nat) : State := State.flushFrom ctx (s.ctx ctx).heldEvents.length s

/-- Post an event record (R479): behind held events it is held too; they are tried again when the host writes EVHEAD and after an
invalidation. -/
def State.postEvent (s : State) (ctx : Nat) (w0 w1 : Nat) : State :=
  let held := (s.ctx ctx).heldEvents
  let s := s.modCtx ctx fun c => { c with heldEvents := held ++ [(BitVec.ofNat 64 w0, BitVec.ofNat 64 w1)] }
  if held.isEmpty then s.flushEvents ctx else s

/-- Key of a launch-front slot. -/
def slotKey (ctx q slot : Nat) : Nat := 65536 * ctx + 1024 * q + slot

/-- Context, queue and slot of a key. -/
def ctxOfSlot (sk : Nat) : Nat := sk / 65536
def queueOfSlot (sk : Nat) : Nat := sk / 1024 % 64
def indexOfSlot (sk : Nat) : Nat := sk % 1024

/-- Word 0 of a launch's event (R479). -/
def launchEvent (type sk code lid : Nat) : Nat :=
  type * 2 ^ 56 + queueOfSlot sk * 2 ^ 50 + indexOfSlot sk * 2 ^ 40 + code * 2 ^ 32 + lid % 2 ^ 32

/-! ### Satisfaction (R483, R484) -/

/-- NCDEP of a record (R480). -/
def ncdepOf (words : List W64) : Nat := recField words 0xE0 3 0

/-- A read slot becomes ready when every edge is satisfied and the count has reached NCDEP (R484). -/
def State.refreshReady (s : State) (sk : Nat) : State :=
  match Tbl.find s.slots sk with
  | none => s
  | some l =>
    if l.readyAt.isNone && l.edges.all (·.satisfied) && decide (ncdepOf l.words ≤ Tbl.get s.satisfied sk 0) then
      let (n, s) := s.fresh
      { s with slots := Tbl.upd s.slots sk fun l => { l with readyAt := some n } }
    else s

/-- Add one satisfaction to a slot (R484): ignored once the count has reached the NCDEP of a record that has been read. -/
def State.satisfySlot (s : State) (sk : Nat) : State :=
  let n := Tbl.get s.satisfied sk 0
  let full := match Tbl.find s.slots sk with
    | some l => decide (ncdepOf l.words ≤ n)
    | none => false
  if full then s else State.refreshReady { s with satisfied := Tbl.set 0 s.satisfied sk (n + 1) } sk

/-! ### Regions (R416, R418, R422) -/

/-- The phase has passed p (R422). -/
def phasePassed (phase p : Nat) : Bool :=
  let d := (phase + 65536 - p % 65536) % 65536
  decide (1 ≤ d ∧ d ≤ 32767)

/-- Answer the waiters of a region: COMPLETE or DISARMED (R416 step 4, R422). -/
def State.answerWaiters (s : State) (rid : Nat) : State :=
  let r := s.region rid
  let answer (f : Frag) : Frag :=
    match f.wait with
    | some (.region q p _) =>
      if q ≠ rid then f
      else if phasePassed r.phase p then
        { f with wait := none, awaitAns := some (BitVec.ofNat 64 (r.phase * 2 ^ 48)) }
      else if !r.armed then { f with wait := none, awaitAns := some (BitVec.ofNat 64 (r.phase * 2 ^ 48 + 2)) }
      else f
    | _ => f
  { s with waves := Tbl.mapv (fun _ w => { w with frags := Tbl.mapv (fun _ f => answer f) w.frags }) s.waves }

/-- A phase completes (R416 step 2). -/
def Region.completes (r : Region) : Bool := r.armed && decide (0 < r.expected) && decide (r.expected ≤ r.arrived)

/-- The completion of one phase, and its action (R416, R418). -/
def State.completePhase (s : State) (rid : Nat) : State :=
  let r := s.region rid
  let phase := (r.phase + 1) % 65536
  let s := s.setRegion rid { r with arrived := r.arrived - r.expected, phase := phase, expected := r.rearm }
  let s := if r.act = 1 ∨ r.act = 3 then s.postEvent r.owner (3 * 2 ^ 56) (phase * 2 ^ 48 + rid) else s
  let s := if r.act = 2 ∨ r.act = 3 then s.satisfySlot (slotKey r.owner (r.task / 1024) (r.task % 1024)) else s
  s.answerWaiters rid

/-- The counter home's check of a region: at most one completion (R416). -/
def State.regionStep (s : State) (rid : Nat) : State := if (s.region rid).completes then s.completePhase rid else s

end Sys2Proof.Machine
end

