-- ==== Sys2Proof/Machine/Control.lean ====
section
/-! DEFINITION. Control and system words, 0x00 to 0x0E (R194 to R206, R241, R242), and how fragments divide, park, merge
and exit (R127 to R130). -/

namespace Sys2Proof.Machine

/-! ### Fragments (R127 to R130) -/

/-- Push a token unless it is the top; a ninth entry discards the bottom (R127 step 2). -/
def pushToken (stack : List Nat) (t : Nat) : List Nat :=
  if stack.head? = some t then stack else (t :: stack).take 8

/-- Divide a fragment (R127): the minority goes to the lowest free record, or into the deferred entry; none when neither is
free. -/
def Wave.diverge (w : Wave) (fr : Nat) (f : Frag) (hdr : W64) (d : Divergence) : Option Wave :=
  let stack := pushToken f.stack d.token
  let tiny := laneCount d.taken.mask < laneCount d.fall.mask
  let minor := if tiny then d.taken else d.fall
  let major := if tiny then d.fall else d.taken
  let stay := { f.goTo major.pc with mask := major.mask, stack := stack, wait := yieldWait hdr }
  match w.freeRecord with
  | some r => some { w with frags := Tbl.put (Tbl.put w.frags fr stay) r (Frag.start minor.mask minor.pc stack) }
  | none =>
    let late := { stay with deferred := some { mask := minor.mask, pc := minor.pc, stack := stack } }
    if f.deferred.isNone && f.held.isNone then some { w with frags := Tbl.put w.frags fr late } else none

/-- The running lanes of a fragment have parked or exited: its deferred entry runs next (R129). -/
def Frag.runDeferred (d : LaneGroup) (held : Option LaneGroup) : Frag :=
  { Frag.start d.mask d.pc d.stack with held := held }

/-- A fragment whose lanes have all exited: the deferred entry runs, or its held lanes stand alone, or the record frees
(R129, R130). -/
def Wave.fragDone (w : Wave) (fr : Nat) (f : Frag) : Wave :=
  match f.deferred with
  | some d => { w with frags := Tbl.put w.frags fr (Frag.runDeferred d none) }
  | none =>
    match f.held with
    | some h =>
      let alone := { Frag.start h.mask h.pc h.stack with parked := h.stack.head? }
      { w with frags := Tbl.put w.frags fr alone }
    | none => { w with frags := Tbl.del w.frags fr }

/-- Tokens that some fragment of the wave holds. -/
def Wave.tokens (w : Wave) : List Nat :=
  dedup (w.frags.flatMap fun p => p.2.stack ++
    (match p.2.deferred with | some d => d.stack | none => []) ++ (match p.2.held with | some d => d.stack | none => []))

/-- Members of a merge group: fragments with the token on their stack or on that of their deferred or held lanes (R130). -/
def Wave.group (w : Wave) (t : Nat) : List (Nat × Frag) :=
  w.frags.filter fun p => p.2.stack.contains t ||
    (match p.2.deferred with | some d => d.stack.contains t | none => false) ||
    (match p.2.held with | some d => d.stack.contains t | none => false)

/-- Every member of the group has parked with the token (R130): none has a deferred entry or held lanes. -/
def Wave.groupReady (w : Wave) (t : Nat) : Bool :=
  let g := w.group t
  !g.isEmpty && g.all fun p => p.2.parked == some t && p.2.deferred.isNone && p.2.held.isNone

/-- The part of a stack below a token. -/
def stackBelow (t : Nat) : List Nat → List Nat
  | [] => []
  | x :: xs => if x = t then xs else stackBelow t xs

/-- Merge the group of a token: one fragment per header, in the lowest record of its members (R130). -/
def Wave.mergeGroup (w : Wave) (t : Nat) : Wave :=
  let g := w.group t
  let pcs := dedup (g.map fun p => p.2.pc)
  pcs.foldl (fun w pc =>
    let here := g.filter fun p => p.2.pc == pc
    match here with
    | [] => w
    | p :: ps =>
      let mask := ps.foldl (fun m q => m ||| q.2.mask) p.2.mask
      let frags := ps.foldl (fun t q => Tbl.del t q.1) w.frags
      { w with frags := Tbl.put frags p.1 (Frag.start mask pc (stackBelow t p.2.stack)) }) w

/-- Merge every group that is complete; the inner tokens come first (R130). -/
def Wave.merge (w : Wave) : Wave :=
  w.tokens.foldl (fun w t => if w.groupReady t then w.mergeGroup t else w) w

/-- The lanes of `m` exit; the rest of the fragment goes on at `next` (R200). -/
def Wave.exitLanes (w : Wave) (fr : Nat) (f : Frag) (m : Mask) (c : Clause) : Wave :=
  let rest := f.mask &&& ~~~m
  if rest = 0 then (w.fragDone fr f).merge
  else { w with frags := Tbl.put w.frags fr { f.leave c c.next with mask := rest } }

/-- A fragment reaches a reconvergence header whose token is on its stack: it parks there, and its deferred lanes run
first (R128, R129). -/
def Wave.park (w : Wave) (fr : Nat) (f : Frag) (t : Nat) : Wave :=
  let stack := t :: stackBelow t f.stack
  match f.deferred with
  | some d =>
    { w with frags := Tbl.put w.frags fr (Frag.runDeferred d (some { mask := f.mask, pc := f.pc, stack := stack })) }
  | none =>
    match f.held with
    | some h =>
      if h.pc = f.pc ∧ h.stack.head? = some t then
        let joined := { Frag.start (f.mask ||| h.mask) f.pc stack with parked := some t }
        ({ w with frags := Tbl.put w.frags fr joined }).merge
      else { w with frags := Tbl.put w.frags fr { f with stack := stack, parked := some t, clause := none } }
    | none =>
      ({ w with frags := Tbl.put w.frags fr { f with stack := stack, parked := some t, clause := none } }).merge

/-! ### Control words -/

/-- The signed word offset in F (R91, R196). -/
def Env.off (e : Env) : W64 := (e.w.f.signExtend 64) * 8

/-- Address of the header of the clause (R196). -/
def Env.header (e : Env) : W64 := e.cl.addr

/-- Move the whole fragment, after register writes; a target that is not a multiple of 8 raises ALIGN (R80, R196). -/
def Env.jump (e : Env) (target : W64) (ws : List RegWrite) : WRes :=
  if target.toNat % 8 ≠ 0 then e.trapNow cALIGN 0 target e.frag.mask
  else
    .placed (e.s.modFrag e.wid e.fr fun f => f.leave e.cl target) ws

/-- NOP (R195). -/
def execNop (w : Fields) (s : State) : Host.Outcome State Fault Refusal := onWord w s fun e => .done { s := e.s }

/-- BRA (R127, R197). -/
def execBra (w : Fields) (s : State) : Host.Outcome State Fault Refusal :=
  onWord w s fun e =>
    let n := e.frag.mask &&& ~~~e.act
    let target := e.header + e.off
    if n = 0 then e.jump target []
    else if e.act = 0 then e.jump e.cl.next []
    else
      let d : Divergence :=
        { taken := { mask := e.act, pc := target, stack := [] }, fall := { mask := n, pc := e.cl.next, stack := [] },
          token := e.w.c.toNat }
      match e.wv.diverge e.fr e.frag e.cl.hdr d with
      | some w => .placed (e.s.modWave e.wid fun v => { w with handler := v.handler }) []
      | none => .wait (e.s.modFrag e.wid e.fr fun f => { f with diverge := some d }) .record

/-- BRU (R198). -/
def execBru (w : Fields) (s : State) : Host.Outcome State Fault Refusal :=
  onWord w s fun e => e.jump (e.header + e.off) []

/-- BRX (R198). -/
def execBrx (w : Fields) (s : State) : Host.Outcome State Fault Refusal :=
  onWord w s fun e => e.jump (BitVec.ofNat 64 (e.uni e.w.a.toNat .b64) + e.off) []

/-- CALL (R199): a CALL that raises ALIGN writes no scalar (R196). -/
def execCall (w : Fields) (s : State) : Host.Outcome State Fault Refusal :=
  onWord w s fun e =>
    let base := if e.w.a = 0xE0 then e.header else BitVec.ofNat 64 (e.uni e.w.a.toNat .b64)
    e.jump (base + e.off) (e.putS e.cl.next.toNat)

/-- RETN (R199). -/
def execRetn (w : Fields) (s : State) : Host.Outcome State Fault Refusal :=
  onWord w s fun e => e.jump (BitVec.ofNat 64 (e.uni e.w.a.toNat .b64)) []

/-- EXIT (R200): ILLEGAL with a span open and in handler mode. -/
def execExit (w : Fields) (s : State) : Host.Outcome State Fault Refusal :=
  onWord w s fun e =>
    if e.wv.spanOpen || e.wv.handler.isSome then e.illegal
    else .placed (e.s.modWave e.wid fun w => w.exitLanes e.fr e.frag e.act e.cl) []

/-- TRAP (R242): SOFT on the active lanes; no effect without them. -/
def execTrap (w : Fields) (s : State) : Host.Outcome State Fault Refusal :=
  onWord w s fun e =>
    .done { s := e.s, report := if e.act = 0 then none else some (reportRec cSOFT (e.w.f.setWidth 64) e.act) }

/-- TRET and TRET.skip (R241): ILLEGAL outside handler mode; a TRAPPC that the handler wrote must be a multiple of 8
(R80). -/
def tretOp (e : Env) (skip : Bool) : WRes :=
  match e.wv.handler with
  | none => e.illegal
  | some h =>
    if e.wv.trappc ≠ h.pc ∧ e.wv.trappc.toNat % 8 ≠ 0 then e.trapNow cALIGN 0 e.wv.trappc e.frag.mask
    else .placed (e.s.trapReturn e.wid skip) []

/-- TRET (R241). -/
def execTret (w : Fields) (s : State) : Host.Outcome State Fault Refusal := onWord w s fun e => tretOp e false

/-- TRET.skip (R241). -/
def execTretSkip (w : Fields) (s : State) : Host.Outcome State Fault Refusal := onWord w s fun e => tretOp e true

/-- The fragment goes on after its word, but is not ready until a cycle (R202, R203). -/
def Env.pause (e : Env) (r : Wait) : WRes :=
  .placed (e.s.modFrag e.wid e.fr fun f =>
    { f.advanceTo e.cl (e.frag.resume.getD (e.cl.idx + e.cl.sizeAt e.cl.idx)) with wait := some r, age := 0 }) []

/-- The fragment's turn ends: after its clause it is not ready for one cycle, as with YP = 1 (R100, R202). -/
def Env.yield (e : Env) : WRes :=
  .placed (e.s.modFrag e.wid e.fr fun f =>
    let hdr := (e.cl.hdr &&& ~~~(3#64 <<< 43)) ||| (1#64 <<< 43)
    { f.advanceTo { e.cl with hdr := hdr } (e.frag.resume.getD (e.cl.idx + e.cl.sizeAt e.cl.idx)) with age := 0 }) []

/-- YIELD (R202). -/
def execYield (w : Fields) (s : State) : Host.Outcome State Fault Refusal := onWord w s fun e => e.yield

/-- SLEEP (R203): ILLEGAL while the wave holds a grant (R223); 0 acts as YIELD. -/
def execSleep (w : Fields) (s : State) : Host.Outcome State Fault Refusal :=
  onWord w s fun e =>
    let n := e.uni e.w.a.toNat .n32
    if e.wv.holdsAny then e.illegal
    else if n = 0 then e.yield
    else e.pause (.sleep (e.s.cycOf e.wid + n))

/-- CYC (R204). -/
def execCyc (w : Fields) (s : State) : Host.Outcome State Fault Refusal :=
  onPassed w s fun e => .done { s := e.s, ws := e.putS (e.s.cycOf e.wid) }

/-- SRRD (R205): it waits for every earlier result of the wave that writes the register. A shadow takes the placement
registers (R278) and XLEVELS (R560) from its leader. -/
def execSrrd (w : Fields) (s : State) : Host.Outcome State Fault Refusal :=
  let read (e : Env) : WRes := .done { s := e.s, ws := e.putS (sysRead e.s e.wid e.wv e.w.f.toNat) }
  if (0x57 ≤ w.f.toNat ∧ w.f.toNat ≤ 0x59) ∨ w.f.toNat = 0x41 then onPassed w s read else onWord w s read

/-- SRWR (R206). A value for TVEC or TRAPPC, which hold code addresses, must be a multiple of 8 (R80). -/
def execSrwr (w : Fields) (s : State) : Host.Outcome State Fault Refusal :=
  onWord w s fun e =>
    let v := BitVec.ofNat 64 (e.uni e.w.a.toNat .b64)
    if e.w.f.toNat ≤ 1 ∧ v.toNat % 8 ≠ 0 then e.trapNow cALIGN 0 v e.frag.mask
    else .done { s := sysWrite e.s e.wid e.wv e.w.f.toNat v }

end Sys2Proof.Machine
end

