-- ==== Sys2Proof/Machine/Counter.lean ====
section
/-! DEFINITION. PIN and UNPIN, 0x79 and 0x7A (R401 to R403), and the counter group, 0x88 to 0x8D (R419 to R425). -/

namespace Sys2Proof.Machine

/-! ### Retention (R401 to R403) -/

/-- Key of a retention entry. -/
def retKey (die i : Nat) : Nat := 64 * die + i

/-- Entries of a die. -/
def State.retained (s : State) (die : Nat) : List (Nat × Retained) := s.retention.filter fun p => p.1 / 64 == die

/-- Lines of a slice's LLC part (R399). -/
def llcLines (d : Die) : Nat := (16 - bits d.cancfg.toNat 3 0 - bits d.cancfg.toNat 11 8) * 16384

/-- Some slice would hold more pinned lines than half of its LLC part (R402). A granule of 64 lines has one home. -/
def overHalf (d : Die) (grans : List Nat) : Bool :=
  (List.range 64).any fun k => decide (2 * (64 * (grans.filter fun g => sliceOf (4096 * g) == k).length) > llcLines d)

/-- The status word of PIN (R403). -/
def pinStatus (status entry lines : Nat) (remote : Bool) : Nat :=
  if status = 0 then entry * 2 ^ 8 + ofBool remote * 2 ^ 14 + lines * 2 ^ 16 else status

/-- PIN after its range has been translated (R403). -/
def pinRange (e : Env) (base units : Nat) (grans : List Nat) : WRes :=
  let die := dieOfCore (coreOfWave e.wid)
  let d := e.s.die die
  let mine := grans.filter fun g => dieOfPa (4096 * g) == die
  let remote := decide (mine.length < grans.length)
  let all := e.s.retained die
  let own := all.filter fun p => p.2.owner == e.wv.ctx
  let quota := (e.s.ctx e.wv.ctx).word2.toNat
  let lines := 64 * mine.length
  let out (status entry : Nat) (s : State) : WRes := .done { s := s, ws := e.putS (pinStatus status entry lines remote) }
  match (List.range 64).find? fun i => !Tbl.mem e.s.retention (retKey die i) with
  | none => out 1 0 e.s
  | some i =>
    if overHalf d (dedup (all.flatMap (fun p => p.2.pinned) ++ mine)) then out 2 0 e.s
    else if own.length ≥ bits quota 63 56 ∨ (own.map fun p => p.2.lines).sum + lines > bits quota 55 32 * 1024 then
      out 3 0 e.s
    else
      let x : Retained := { owner := e.wv.ctx, vbase := base, units := units, remote := remote, lines := lines, pinned := mine }
      out 0 i { e.s with retention := Tbl.put e.s.retention (retKey die i) x }

/-- PIN (R403). An address in an aperture raises PROT (R551). -/
def execPin (w : Fields) (s : State) : Host.Outcome State Fault Refusal :=
  onPassed w s fun e =>
    let base := e.uni e.w.a.toNat .b64
    let units := e.uni e.w.b.toNat .n32
    if base % 4096 ≠ 0 then e.trapNow cALIGN 0 (BitVec.ofNat 64 base) e.frag.mask
    else if units = 0 ∨ units > 262144 then e.illegal
    else
      let pages := (List.range units).map fun i => (base + 4096 * i) % 2 ^ 64
      let m := unitMap e.s e.wv.ctx .read pages
      let bad := pages.findSome? fun va => match unitLoc m va with
        | .ok (.peer _ _ _) => some (va, cPROT)
        | .ok _ => none
        | .error c => some (va, c)
      match bad with
      | some (va, c) =>
        if c = cPAGE && !e.frag.failed.contains (va % 2 ^ 57 / 2 ^ 16) then waitWalk e .read [va]
        else e.trapNow c 0 (BitVec.ofNat 64 va) e.frag.mask
      | none =>
        pinRange e base units (pages.filterMap fun va => match unitLoc m va with
          | .ok (.dev pa) => some (pa / 4096)
          | _ => none)

/-- UNPIN (R403): no effect on a free entry, another context's, or an index above 63. -/
def execUnpin (w : Fields) (s : State) : Host.Outcome State Fault Refusal :=
  onWord w s fun e =>
    let i := e.uni e.w.a.toNat .n32
    let key := retKey (dieOfCore (coreOfWave e.wid)) i
    let mine := match Tbl.find e.s.retention key with
      | some x => x.owner == e.wv.ctx
      | none => false
    .done { s := if e.acts && decide (i < 64) && mine then { e.s with retention := Tbl.del e.s.retention key } else e.s }

/-! ### The counter group -/

/-- The region id of a counter word. -/
def Env.rid (e : Env) : Nat := e.uni e.w.a.toNat .b64

/-- A byte value with its saturation (R417, R420). -/
def satBytes (n : Nat) : Nat × Bool := (min satMax n, decide (n > satMax))

/-- Go on with the region that a word names, if the wave may use it (R420). -/
def usingRegion (e : Env) (body : Env → Nat → WRes) : WRes :=
  let id := e.rid
  let r := e.s.region id
  if id ≥ 2 ^ 14 ∨ !r.valid ∨ r.owner ≠ e.wv.ctx then e.trapNow cPROT 2 (BitVec.ofNat 64 id) e.frag.mask
  else body e id

/-- Run a counter operation on a region the wave may use (R420), once, by the leader (R425). -/
def onRegion (e : Env) (operands : List Nat) (body : Env → Nat → WRes) : WRes :=
  leaderOnce e (copyFold (e.rid :: operands)) fun e => usingRegion e body

/-- A uniform n64 operand. -/
def Env.n64 (e : Env) (code : BitVec 8) : Nat := e.uni code.toNat .n64

/-- AARM (R421), after the cycle's completion check (R416). -/
def execAarm (w : Fields) (s : State) : Host.Outcome State Fault Refusal :=
  onWord w s fun e =>
    let (total, o1) := satBytes (e.n64 e.w.b)
    let (rearm, o2) := satBytes (e.n64 e.w.c)
    onRegion e [e.n64 e.w.b, e.n64 e.w.c, e.n64 e.w.d] fun e id =>
      let s := e.s.regionStep id
      let r := s.region id
      let r := { r with expected := total, rearm := rearm, act := e.f 1 0, task := e.n64 e.w.d % 65536,
                        ovf := r.ovf || o1 || o2 }
      .done { s := s.setRegion id (if r.armed then r else { r with arrived := 0, armed := true }) }

/-- AEXP (R421). -/
def execAexp (w : Fields) (s : State) : Host.Outcome State Fault Refusal :=
  onWord w s fun e =>
    let (n, o) := satBytes (e.n64 e.w.b)
    onRegion e [e.n64 e.w.b] fun e id =>
      let s := e.s.regionStep id
      let r := s.region id
      let x := r.expected + n
      .done { s := if r.armed then s.setRegion id { r with expected := min satMax x, ovf := r.ovf || o || decide (x > satMax) }
                   else s }

/-- AADD (R421): an arrival of step 1 of R416. -/
def execAadd (w : Fields) (s : State) : Host.Outcome State Fault Refusal :=
  onWord w s fun e =>
    let (n, o) := satBytes (e.n64 e.w.b)
    onRegion e [e.n64 e.w.b] fun e id =>
      let r := e.s.region id
      .done { s := if r.armed then (e.s.setRegion id { r.arrive n with ovf := (r.arrive n).ovf || o }).regionStep id else e.s }

/-- ADIS (R421): after the completion check; every waiter is answered DISARMED. -/
def execAdis (w : Fields) (s : State) : Host.Outcome State Fault Refusal :=
  onWord w s fun e =>
    onRegion e [] fun e id =>
      let s := e.s.regionStep id
      let s := s.setRegion id { s.region id with armed := false, expected := 0, arrived := 0 }
      .done { s := s.answerWaiters id }

/-- AREAD (R423): a snapshot after the cycle's completion check. -/
def execAread (w : Fields) (s : State) : Host.Outcome State Fault Refusal :=
  onWord w s fun e =>
    onRegion e [] fun e id =>
      let s := e.s.regionStep id
      let r := s.region id
      let x := match e.f 1 0 with
        | 0 => r.phase * 2 ^ 48 + ofBool r.armed * 2 ^ 47 + ofBool r.ovf * 2 ^ 46 + r.act * 2 ^ 44
        | 1 => r.expected
        | 2 => r.arrived
        | _ => r.rearm
      .done { s := s, ws := e.putS x }

/-- AWAIT's end: PUL.dev before sD is written, if COMPLETE (R422). -/
def awaitDone (e : Env) (s : State) (ans : Nat) : WRes :=
  .done { s := if ans % 4 = 0 then s.pul e.wid e.wv 3 else s, ws := e.putS ans }

/-- AWAIT (R422): ILLEGAL while the wave holds a grant (R223). An answer that it has been given stands, whatever becomes of the
entry. -/
def execAwait (w : Fields) (s : State) : Host.Outcome State Fault Refusal :=
  onWord w s fun e =>
    let p := e.n64 e.w.b % 65536
    let limit := e.n64 e.w.c
    if e.wv.holdsAny && e.frag.awaitAns.isNone then e.illegal
    else leaderOnce e (copyFold [e.rid, e.n64 e.w.b, limit]) fun e =>
      match e.frag.awaitAns with
      | some x => awaitDone e e.s x.toNat
      | none => usingRegion e fun e id =>
        let s := e.s.regionStep id
        let r := s.region id
        let at_ := r.phase * 2 ^ 48
        if phasePassed r.phase p then awaitDone e s at_
        else if !r.armed then awaitDone e s (at_ + 2)
        else if limit = 0 then awaitDone e s (at_ + 1)
        else .wait s (.region id p (if limit = 2 ^ 64 - 1 then none else some (e.s.cycOf e.wid + limit)))

end Sys2Proof.Machine
end

