-- ==== Sys2Proof/Machine/Engine.lean ====
section
/-! DEFINITION. Engine requests: how an instruction of 0xB0 to 0xB7 sends one, and what an engine does for every request
(R443 to R447, R462). -/

namespace Sys2Proof.Machine

/-! ### Sending a request (R444, R446) -/

/-- Blocks on both sides of a twin: scratchpad writes are made at both cores (R446). -/
def State.bothSides (s : State) (bid : Nat) : List Nat :=
  match s.block bid with
  | some b => bid :: (s.twinBid (twinCore (bid / 8)) b).toList
  | none => [bid]

/-- Write scratchpad bytes of a block, at both cores of a twin. -/
def State.putBoth (s : State) (bid off : Nat) (l : Bytes) : State :=
  (s.bothSides bid).foldl (fun s k => s.writeScratch k [(off, l)]) s

/-- A wave and its twin. -/
def State.bothWaves (s : State) (wid : Nat) : List Nat :=
  match s.wave wid with
  | some w => if s.twinned w then wid :: (s.twinWid wid w).toList else [wid]
  | none => [wid]

/-- Numbers of the engines: key-value 0-3, grammar 4-7, winnow 8-39. -/
def kvEngine (die : Nat) : Nat := die
def grammarEngine (core : Nat) : Nat := 4 + dieOfCore core
def winnowEngine (core : Nat) : Nat := 8 + core / 8

/-- Requests that an engine holds (R444). -/
def engineRoom (e : Nat) : Nat := if e < 8 then 256 else 16

/-- The engine holds as many requests as it can. -/
def State.engineFull (s : State) (e : Nat) : Bool :=
  decide (engineRoom e ≤ (s.reqs.filter fun r => r.engines.contains e).length)

/-- Bytes that the results of a request take in the load-value queue. -/
def laterBytes (w : Wave) (lanes : Nat) (l : List RegId) : Nat :=
  (l.map fun r => match r with
    | .v _ => 4 * lanes
    | .s _ => 8
    | .k _ => w.width / 8).sum

/-- Operands of a lane, as the signature folds them (R280). -/
def foldLanes (e : Env) (l : List (Nat → Nat)) : Bytes := e.lanes.flatMap fun i => l.flatMap fun f => leBytes 8 (f i)

/-- SMPL without GIVEN counts a draw in each lane that has completed (R469, R470). -/
def Wave.countDraws (w : Wave) (op : EngOp) (ws : List RegWrite) : Wave :=
  match op with
  | .smpl _ d _ false _ =>
    let hit (t : Tbl W32) (x : RegWrite) : Tbl W32 := match x with
      | .v n i _ => if n = d then Tbl.set 0 t i (Tbl.get t i 0 + 1) else t
      | _ => t
    { w with draw := ws.foldl hit w.draw }
  | _ => w

/-- A request that a rollback runs again is answered from the log (R283, R446): its registers, its scratchpad bytes and the fault
on its token are put back, and its results pass to the shadow. -/
def answerLogged (e : Env) (tok : Option Nat) (op : EngOp) (x : AtomicEntry) (fault early : Option TrapRec) : WRes :=
  let s := x.scratch.foldl (fun s p => s.putBoth (e.wv.bid e.wid) p.1 p.2) (countLog e e.s)
  let hold (w : Wave) : Wave := match tok, x.held with
    | some t, some h => { w with heldFaults := Tbl.put w.heldFaults t h }
    | _, _ => w
  let s := (s.bothWaves e.wid).foldl (fun s k => s.modWave k hold) s
  let s := (s.modWave e.wid fun w => w.countDraws op x.writes).pushLvq e.wid e.wv (lvqItem e.wv x.writes x.trap)
  .done { s := s, ws := x.writes, late := x.trap, fault := fault, alone := early.isSome }

/-- Send a request: a compare point of a TWIN launch, where only the leader sends, and the shadow takes the results once
they are there (R446). `failed` is the trap of lanes that failed at issue (R465): a word with a token takes it now, since its later
faults are held on the token; a word without takes it with those of its request, as one trap (R236). -/
def engineOp (e : Env) (engines : List Nat) (tok : Option Nat) (regs : List RegId) (operands : Bytes) (op : EngOp)
    (failed : Option TrapRec) : WRes :=
  let (fault, early) := match tok with
    | some _ => (failed, none)
    | none => (none, failed)
  match tok.filter e.wv.tokSet with
  | some t => .wait e.s (.token t)
  | none =>
    atCompare e operands fun e =>
      if !e.acts then
        match e.s.peekLvq e.wid e.wv with
        | none => .wait e.s .twin
        | some x =>
          let s := (e.s.popLvq e.wid e.wv x).modWave e.wid fun w => w.countDraws op x.writes
          .done { s := s, ws := x.writes, late := x.trap, fault := fault, alone := early.isSome }
      else match loggedAt e with
      | some x => answerLogged e tok op x fault early
      | none =>
        match engines.find? e.s.engineFull with
        | some n => .wait e.s (.engine n)
        | none =>
          let item : LvqItem := { lvqItem e.wv [] none with size := laterBytes e.wv e.lanes.length regs }
          if e.s.lvqFull e.wid e.wv item then .wait e.s .twin
          else
            let (id, s) := e.s.fresh
            let r : EngReq := { id := id, engines := engines, wid := e.wid, frag := e.fr, ctx := e.wv.ctx, lid := e.wv.lid,
                                op := op, tok := tok, got := [], bad := [], failed := [], early := early, blocked := false }
            let s := { s with reqs := s.reqs ++ [r] }
            let s := match tok with
              | some t => s.modWave e.wid fun w => w.raiseTok t
              | none => s
            let s := pushLog e (s.pushLvq e.wid e.wv { item with req := some id }) [] none (some id)
            .done { s := s, req := some id, later := regs, fault := fault, alone := early.isSome }

/-- The registers of a vector destination. -/
def vregsAt (d n : Nat) : List RegId := (List.range n).map fun i => .v (d + i)

/-! ### Requests as engines perform them -/

/-- How the performance of a request ends. -/
inductive Perf where
  /-- Register writes, and the trap that the landing takes. -/
  | lands (s : State) (ws : List RegWrite) (trap : Option TrapRec)
  /-- The request ends with a fault that its token holds (R462, R465). -/
  | held (s : State) (cause info addr : Nat)
  /-- Some lanes are done; the rest has still to wait. -/
  | partly (s : State) (op : EngOp) (got : List RegWrite) (bad : List (Nat × Nat × Nat))
  /-- A page is not mapped: the hart is asked (R430). -/
  | page (va : Nat) (write : Bool)
  /-- A lazy window is absent (R276). -/
  | window (win : Nat) (w : LazyWin)
  /-- The engine has been frozen, or the launch is to be killed. -/
  | stopped (s : State)
  /-- Nothing can be done yet. -/
  | waits
deriving DecidableEq, Repr

/-- Read or write places of an engine's access. -/
inductive Place where
  | ok (l : List Loc)
  | page (va : Nat)
  | bad (cause va : Nat)
deriving DecidableEq, Repr

/-- The places of `n` bytes from an address: a page without a mapping is asked for, unless the hart has answered fail
(R295, R430); places on peers count as without permission. -/
def placesOf (s : State) (r : EngReq) (need : Need) (va n : Nat) : Place :=
  let vas := (List.range n).map fun i => (va + i) % 2 ^ 64
  let m := (unitsOf vas).map fun u => (u, s.resolveNow r.ctx (u * 2 ^ 16) need)
  let bad := vas.findSome? fun v => match m.find? fun p => p.1 == v / 2 ^ 16 with
    | some (_, .ok (.peer _ _ _)) => some (Place.bad cPROT v)
    | some (_, .ok _) => none
    | some (_, .bad c) => some (Place.bad c v)
    | _ => some (if r.failed.contains (v % 2 ^ 57 / 2 ^ 16) then Place.bad cPAGE v else Place.page v)
  match bad with
  | some b => b
  | none => .ok (vas.filterMap fun v => match unitLoc m v with
    | .ok l => some l
    | .error _ => none)

/-- Freeze the engines of a request for an intrusion (R525, R532). -/
def State.freezeEngine (s : State) (r : EngReq) : State :=
  ({ s with frozenEngines := dedup (s.frozenEngines ++ r.engines) }).notice
    (freezeNotice 2 2 r.ctx (whereOf (coreOfWave r.wid)) 0)

/-- Mark a request as stopped. -/
def State.blockReq (s : State) (id : Nat) : State :=
  { s with reqs := s.reqs.map fun r => if r.id = id then { r with blocked := true } else r }

/-- An engine's access to places at home: it goes on, or stops (R433, R525). -/
def engineStop (s : State) (r : EngReq) (ls : List Loc) : Option State :=
  if ls.any fun l => s.openTo (some r.lid) l then some (s.freezeEngine r)
  else if ls.any s.poisoned then some ((s.askKill r.lid cUNCORRECTABLE).blockReq r.id)
  else none

/-- What an engine does that finds the replay store full (R528). -/
def starving (s : Option State) : Perf :=
  match s with
  | some t => .stopped t
  | none => .waits

/-- An engine's read of places at home, once their update-only copies have been recalled (R408, R432, R433, R525, R528). -/
def engineHome (s : State) (r : EngReq) (ls : List Loc) : Except Perf State :=
  let s := s.meetHome ls
  match engineStop s r ls with
  | some t => .error (.stopped t)
  | none => if s.recallRoom ls then .ok (s.recallLocs ls) else .error (starving (s.starveAtStep ls))

/-- Read device bytes at dev level and go on (R445). -/
def readAt (s : State) (r : EngReq) (va n : Nat) (fail : Nat → Nat → Perf) (body : State → Bytes → Perf) : Perf :=
  match placesOf s r .read va n with
  | .page v => .page v false
  | .bad c v => fail c v
  | .ok ls =>
    match engineHome s r ls with
    | .error p => p
    | .ok s => body s (ls.map (s.homeByte r.ctx))

/-- Write device bytes at home, without counting, and go on (R445). -/
def writeAt (s : State) (r : EngReq) (va : Nat) (l : Bytes) (fail : Nat → Nat → Perf) (body : State → Perf) : Perf :=
  match placesOf s r .write va l.length with
  | .page v => .page v true
  | .bad c v => fail c v
  | .ok ls =>
    match engineStop s r ls with
    | some t => .stopped t
    | none =>
      let l := ls.zip l
      if (s.grantOnLines r.wid ls).isSome then .waits
      else if !s.replayRoom r.lid ((devBytes l).map (·.1)) then starving ((s.starveAtStep ls).orElse fun _ => s.starveStep r.lid)
      else
        let s := s.writeDev r.ctx r.lid none (devBytes l)
        let crew := match s.wave r.wid with
          | some w => w.crew
          | none => 0
        body (s.holdBytes r.lid crew (hostBytes l))

/-- The block of a request's wave. -/
def State.reqBlock (s : State) (r : EngReq) : Option (Nat × Block) :=
  (s.wave r.wid).bind fun w => (s.block (w.bid r.wid)).map fun b => (w.bid r.wid, b)

/-- Touch scratchpad ranges of the request's block: an absent window is copied first (R276). -/
def touch (s : State) (r : EngReq) (ranges : List (Nat × Nat)) (body : Nat → Block → Perf) : Perf :=
  match s.reqBlock r with
  | none => .lands s [] none
  | some (bid, b) =>
    match (b.absentAt ranges).bind fun n => (Tbl.find b.lazyWins n).map fun w => (n, w) with
    | some (n, w) => if w.inflight.isSome then .waits else .window n w
    | none => body bid b

/-- Rewrite the log entry of a request. -/
def State.modLog (s : State) (bid id : Nat) (f : AtomicEntry → AtomicEntry) : State :=
  s.modBlock bid fun b =>
    if b.twin.log.isEmpty then b
    else { b with twin := { b.twin with log := b.twin.log.map fun x => if x.req = some id then f x else x } }

/-- Write scratchpad bytes of a request's block, at both cores of a twin; its log entry keeps them (R446). -/
def State.putFor (s : State) (r : EngReq) (bid off : Nat) (l : Bytes) : State :=
  (s.putBoth bid off l).modLog bid r.id fun x => { x with scratch := x.scratch ++ [(off, l)] }

/-- The KV or POP trap of failing lanes: the lowest reason, its lowest address (R236, R457, R515). -/
def reasonTrap (cause : Nat) (bad : List (Nat × Nat × Nat)) : Option TrapRec :=
  match bad with
  | [] => none
  | x :: xs =>
    let reason := xs.foldl (fun m y => min m y.2.1) x.2.1
    let addrs := (bad.filter fun y => y.2.1 == reason).map (·.2.2)
    some (faultRec cause (BitVec.ofNat 64 reason) (BitVec.ofNat 64 (addrs.tail.foldl min (addrs.headD 0)))
      (maskOf (bad.map (·.1))))

/-! ### The end of a request -/

/-- One trap for the faults that a word meets at issue and later: the lowest cause, every failing lane; a fault goes before a
report (R236). -/
def mergeTraps : Option TrapRec → Option TrapRec → Option TrapRec
  | none, t => t
  | some x, none => some x
  | some x, some y =>
    if !y.fault then some x
    else if x.cause ≤ y.cause then some { x with lanes := x.lanes ||| y.lanes }
    else some { y with lanes := x.lanes ||| y.lanes }

/-- Take a request out: its registers are written, its token clears, its trap waits for the landing, and the shadow's item is
filled (R444, R446). -/
def State.endReq (s : State) (r : EngReq) (ws : List RegWrite) (trap : Option TrapRec) : State :=
  let clear (w : Wave) : Wave := match r.tok with
    | some t => w.clearTok t
    | none => w
  let mine := match r.flip with
    | some x => twinFlip x.1 x.2 ws
    | none => ws
  let trap := mergeTraps r.early trap
  let land (w : Wave) : Wave :=
    { clear ((w.writes mine).countDraws r.op ws) with pending := w.pending.map fun p => if p.req = some r.id then { p with trap := trap } else p }
  let s := { s with reqs := s.reqs.filter fun q => q.id != r.id }
  let s := s.modWave r.wid land
  match s.wave r.wid with
  | none => s
  | some w =>
    let fill (x : LvqItem) : LvqItem := if x.req = some r.id then { x with req := none, writes := ws, trap := trap } else x
    (s.modBlock (w.bid r.wid) fun b => { b with twin := { b.twin with lvq := b.twin.lvq.map fill } }).modLog (w.bid r.wid) r.id
      fun x => { x with req := none, writes := ws, trap := trap }

/-- End a request with a fault held on its token (R462). -/
def State.endHeld (s : State) (r : EngReq) (cause info addr : Nat) : State :=
  let h : HeldFault := { cause := cause, info := BitVec.ofNat 64 info, addr := BitVec.ofNat 64 addr }
  let hold (w : Wave) : Wave := match r.tok with
    | some t => { w with heldFaults := Tbl.put w.heldFaults t h }
    | none => w
  let s := (s.bothWaves r.wid).foldl (fun s k => s.modWave k hold) s
  let s := match s.wave r.wid with
    | some w => s.modLog (w.bid r.wid) r.id fun x => { x with held := some h }
    | none => s
  s.endReq r [] none

/-- Lanes that a request stands for. -/
def EngOp.lanes : EngOp → List Nat
  | .kvt l _ _ | .kvaApp l _ | .gstp _ l _ _ | .smpl _ _ l _ _ => l.map (·.1)
  | .kvaNew l _ _ => l
  | .kvc l _ | .kvf l | .gmk _ _ _ l => l.map (·.1)
  | .wnw .. => []

/-- End a request by a fault of an access that all its lanes need: on its token, or as a trap when it lands (R324, R465). -/
def State.endFault (s : State) (r : EngReq) (cause va : Nat) : State :=
  match r.tok with
  | some _ => s.endHeld r cause 0 va
  | none => s.endReq r [] (some (faultRec cause 0 (BitVec.ofNat 64 va) (maskOf r.op.lanes)))

/-- Settle a performance. -/
def State.settleReq (s : State) (r : EngReq) (p : Perf) : Option State :=
  match p with
  | .lands s ws trap => some (s.endReq r ws trap)
  | .held s c i a => some (s.endHeld r c i a)
  | .partly s op got bad =>
    some { s with reqs := s.reqs.map fun q => if q.id = r.id then { q with op := op, got := got, bad := bad } else q }
  | .page va w =>
    some ((s.postFault (dieOfCore (coreOfWave r.wid)) { ctx := r.ctx, va := va, need := if w then .write else .read, who := [.req r.id] }).blockReq r.id)
  | .window n w =>
    match s.reqBlock r with
    | none => none
    | some (bid, _) =>
      match engineHome s r (s.windowLocs r.ctx w) with
      | .error (.stopped t) => some t
      | .error _ => none
      | .ok s => match s.startWindow r.ctx bid n w with
      | .ok s => some s
      | .error (va, c) =>
        if r.failed.contains (va % 2 ^ 57 / 2 ^ 16) || c != cPAGE then some (s.endFault r c va)
        else
          some ((s.postFault (dieOfCore (coreOfWave r.wid)) { ctx := r.ctx, va := va, need := .read, who := [.req r.id] }).blockReq
            r.id)
  | .stopped s => some s
  | .waits => none

end Sys2Proof.Machine
end

