-- ==== Sys2Proof/Machine/Issue.lean ====
section
/-! DEFINITION. How fragments issue: clause starts, ready fragments, picks, passes, port conflicts, the checks of a word,
and the landing of results (R78, R79, R92, R93, R100 to R105, R112, R118, R127 to R135, R143, R237, R253 to R255, R284). -/

namespace Sys2Proof.Machine

/-! ### Events -/

/-- An event that happens when it can. -/
def onEvent (name : String) (s : Option State) : Host.Outcome State Fault Refusal :=
  match s with
  | some s => .next s
  | none => .refused (.notEnabled name)

/-- An event of a core. -/
def onCore (core : Nat) (r : Host.Outcome State Fault Refusal) : Host.Outcome State Fault Refusal :=
  if core < 256 then r else .fault .noSuchUnit

/-- An event of a die. -/
def onDie (die : Nat) (r : Host.Outcome State Fault Refusal) : Host.Outcome State Fault Refusal :=
  if die < 4 then r else .fault .noSuchUnit

/-- A live fragment. -/
def State.fragAt (s : State) (wid fr : Nat) : Option (Wave × Frag) :=
  (s.wave wid).bind fun w => (Tbl.find w.frags fr).map fun f => (w, f)

/-! ### What a fragment waits for (R132) -/

/-- A wait that the machine's state ends. The others end by an event of their own. -/
def waitOver (s : State) (wid : Nat) (w : Wave) (r : Wait) : Bool :=
  match r with
  | .token t => !w.tokSet t
  | .promise _ p => decide (p ≤ s.cycOf wid)
  | .allResults => w.pending.isEmpty
  | .engine e => !s.engineFull e
  | .copyRoom => decide ((s.core (coreOfWave wid)).copies.length < 32)
  | .grant key => match Tbl.find s.grants key with
    | some h => h == wid
    | none => true
  | .lazyWin bid win => match (s.block bid).bind fun b => Tbl.find b.lazyWins win with
    | some v => v.inflight.isNone
    | none => true
  | .twin => w.twin.atPoint.isNone || w.twin.released
  | .peer grp => !s.peerOps.any fun p => p.grp == grp
  | .array | .staging | .replayRoom => true
  | .sleep _ | .yielded _ | .barb _ | .barc _ | .walk | .region _ _ _ | .record | .ticket => false

/-- The fragment's wait is over, or it has none. -/
def Frag.free (f : Frag) (s : State) (wid : Nat) (w : Wave) : Bool :=
  match f.wait with
  | none => true
  | some r => waitOver s wid w r

/-- The fragment may run at all: its wave is bound whole, not frozen and not at its end, and no handler has stopped it. -/
def Wave.runs (w : Wave) (fr : Nat) : Bool :=
  w.started && w.frozen.isNone && !w.ending && match w.handler with
    | some h => h.frag == fr
    | none => true

/-- A step with a code may be taken by this side of a TWIN block: the leader within its slack, not while it waits at a compare
point or for its checkpoint; the shadow as the leader has gone, or to the compare point where it waits (R278, R280, R284,
R559). -/
def State.twinTurn (s : State) (wid : Nat) (w : Wave) (code : Nat) : Bool :=
  if !s.twinned w then true
  else if !w.shadow then
    match s.block (w.bid wid) with
    | some b =>
      (w.twin.atPoint.isNone || w.twin.released) && b.twin.due != some w.waveIdx &&
        (decide (code ≥ 100) || decide ((w.twin.order.filter (· < 100)).length < b.twin.slack))
    | none => true
  else match s.wave (s.leaderOf wid w) with
    | some l => match l.twin.order with
      | x :: _ => x == code
      | [] => code < 100 && !w.twin.released && !l.twin.released && l.twin.atPoint.map (·.1) == some code
    | none => true

/-! ### The word at hand (R92, R102, R104) -/

/-- The word at which a clause stands, and its extension word. -/
def Clause.word (c : Clause) : W64 := c.words.getD c.idx 0
def Clause.ext (c : Clause) : Option W64 := if formOf c.word = 2 then some (c.words.getD (c.idx + 1) 0) else none

/-- The checks of a body word, the first failure only (R102, R104 steps 1 to 4, R92). -/
def inspect (al : Allot) (c : Clause) : Except Nat Instr :=
  let x := c.word
  let cls := bits c.hdr.toNat 61 58
  let after := c.idx + c.sizeAt c.idx
  let last := decide (c.words.length ≤ after)
  match formOf x with
  | 3 => .error cILLEGAL_CLAUSE
  | 1 =>
    let a := unpackHalf x 31
    let b := unpackHalf x 0
    if 0x20 ≤ a.op7.toNat ∨ 0x20 ≤ b.op7.toNat then .error cILLEGAL
    else if !classAdmitsPair cls last then .error cILLEGAL_CLAUSE
    else if !(halfOk al a && halfOk al b) then .error cILLEGAL
    else if !pairRulesOk a b then .error cILLEGAL_PAIR
    else .ok (.pairWord a b)
  | _ =>
    if opReserved (opBits x) then .error cILLEGAL
    else if !classAdmits cls (opBits x) last then .error cILLEGAL_CLAUSE
    else
      let w := unpack x c.ext
      match instrOf (opBits x) w with
      | none => .error cILLEGAL
      | some i => if wordOk al i w && decide (w.la.toNat + after ≤ c.words.length) then .ok i else .error cILLEGAL

/-- Registers that an instruction reads and writes. -/
def instrReads (al : Allot) (i : Instr) : List RegId :=
  match i with
  | .pairWord a b => halfReads a ++ halfReads b
  | i => match opcodeOf i, shapeOf i with
    | some (_, w), some sh => shapeReads al sh w
    | _, _ => []
def instrWrites (al : Allot) (i : Instr) : List RegId :=
  match i with
  | .pairWord a b => halfWrites a ++ halfWrites b
  | i => match opcodeOf i, shapeOf i with
    | some (_, w), some sh => shapeWrites al sh w
    | _, _ => []

/-! ### Pending results (R93, R118, R205, R237) -/

/-- What the pending results of a wave mean for a word. -/
inductive Hazard where
  | none
  | waits
  | violation
deriving DecidableEq, Repr

/-- The word at a clause's index lies in the window of a pending result. -/
def Pending.covers (p : Pending) (c : Clause) : Bool := p.cl.addr == c.addr && decide (c.idx < p.winEnd)

/-- The result may still bring a trap: words after its window wait for it (R237). -/
def Pending.mayTrap (p : Pending) : Bool := p.trap.isSome || p.req.isSome

/-- A register that the fragments of a wave share (R118). -/
def RegId.shared : RegId → Bool
  | .v _ => false
  | _ => true

/-- The lists share an element. -/
def meetsAny {α : Type} [DecidableEq α] (a b : List α) : Bool := a.any fun x => b.contains x

/-- A pending result of another fragment writes one of the registers: a shared one, or a vector register in some lanes of the
mask, which have come to this fragment since (R93, R118, R130). -/
def Pending.meetsOther (p : Pending) (m : Mask) (regs : List RegId) : Bool :=
  meetsAny (if p.lanes &&& m = 0 then regs.filter RegId.shared else regs) p.regs

/-- The pending results against a word's registers (R93, R118). SRRD waits for every result of the wave (R205). -/
def hazard (w : Wave) (fr : Nat) (m : Mask) (c : Clause) (i : Instr) : Hazard :=
  let reads := instrReads w.allot i
  let writes := instrWrites w.allot i
  let own := w.pending.filter fun p => p.frag == fr
  let others := w.pending.filter fun p => p.frag != fr
  if own.any fun p => p.covers c && meetsAny reads p.regs then .violation
  else if own.any fun p => p.covers c && meetsAny writes p.regs then .waits
  else if own.any fun p => !p.covers c && (p.mayTrap || meetsAny (reads ++ writes) p.regs) then .waits
  else if others.any fun p => p.meetsOther m (reads ++ writes) then .waits
  else match i with
    | .srrd _ => if w.pending.isEmpty then .none else .waits
    | _ => .none

/-! ### Passes (R83, R112) -/

/-- The active lanes of the word at hand (R83, R241). -/
def activeMask (w : Wave) (f : Frag) (c : Clause) : Mask :=
  let x := unpack c.word none
  let m := if formOf c.word = 1 ∨ x.k = 0 then f.mask
    else if x.kn then f.mask &&& ~~~w.kget f x.k.toNat else f.mask &&& w.kget f x.k.toNat
  match f.replay with
  | some r => m &&& r
  | none => m

/-- Passes that the word takes: the words of its active mask that are not zero. A word that has waited looks again in a cycle of
its own. -/
def wordPasses (w : Wave) (f : Frag) (c : Clause) : Nat :=
  let m := activeMask w f c
  let n := ((List.range (ceilDiv w.width 32)).filter fun j => maskWord m j != 0).length
  if f.wait.isSome then max 1 n else n

/-! ### Words of siblings in issue (R118) -/

/-- The token that a word sets or waits for (R117, R321). -/
def tokenOf (i : Instr) : Option Nat :=
  match i with
  | .cpy w | .cpyt w | .cpyx w | .waitk w | .wnw w | .gmk w | .drns w | .swr w => some (fb w 13 11)
  | _ => none

/-- The word uses the matrix array or its tiles. -/
def usesTiles (c : Clause) : Bool := formOf c.word != 1 && 0x90 ≤ opBits c.word && opBits c.word ≤ 0x9E

/-- A word that another fragment has begun to issue comes before this one: it writes a shared register that this one reads or
writes, reads one that this one writes, or uses its token or the tiles (R118). -/
def comesBefore (al : Allot) (c d : Clause) (i : Instr) : Bool :=
  match inspect al d with
  | .error _ => false
  | .ok j =>
    let shared (l : List RegId) : List RegId := l.filter RegId.shared
    meetsAny (shared (instrWrites al j)) (instrReads al i ++ instrWrites al i) ||
      meetsAny (shared (instrReads al j)) (instrWrites al i) ||
      ((tokenOf j).isSome && tokenOf j == tokenOf i) || (usesTiles c && usesTiles d)

/-- Some other fragment of the wave is between two passes of a word that comes before this one. -/
def Wave.siblingFirst (w : Wave) (fr : Nat) (c : Clause) (i : Instr) : Bool :=
  w.frags.any fun q => q.1 != fr && match q.2.clause with
    | some d => d.passes != 0 && comesBefore w.allot c d i
    | none => false

/-- The word must wait for a token (R117, R132, R321); WAITK under a grant is illegal instead (R223). -/
def Wave.tokenBusy (w : Wave) (i : Instr) : Bool :=
  match i with
  | .waitk _ => !w.holdsAny && (tokenOf i).any w.tokSet
  | _ => (tokenOf i).any w.tokSet

/-! ### Ready fragments and picks (R132 to R134) -/

/-- Nothing keeps the fragment from its next word; the passes of one word follow each other (R112, R132). -/
def State.canGo (s : State) (wid fr : Nat) (w : Wave) (f : Frag) : Bool :=
  match f.clause with
  | none => false
  | some c =>
    f.parked.isNone && f.diverge.isNone && w.runs fr &&
      (c.passes != 0 || (f.free s wid w && s.twinTurn wid w fr &&
        match inspect w.allot c with
        | .error _ => true
        | .ok i => hazard w fr f.mask c i != .waits && !w.siblingFirst fr c i && !w.tokenBusy i))

/-- Every pass of the fragment's word is skipped (R112). -/
def Frag.skips (f : Frag) (w : Wave) : Bool :=
  match f.clause with
  | some c => c.passes == 0 && wordPasses w f c == 0
  | none => false

/-- The fragment's next pass could issue. -/
def State.ready (s : State) (wid fr : Nat) (w : Wave) (f : Frag) : Bool := s.canGo wid fr w f && !f.skips w

/-- A ready fragment with what ranks it. -/
structure Cand where
  wid : Nat
  fr : Nat
  age : Nat
  prio : Nat
  holds : Bool
deriving DecidableEq, Repr

/-- The fragment holds an issue lane: it has issued a word of its clause (R134). -/
def Frag.holdsLane (f : Frag) : Bool := f.clause.any (·.lane)

/-- The ready fragments of a core. -/
def State.readies (s : State) (core : Nat) : List Cand :=
  (s.waves.filter fun p => coreOfWave p.1 == core).flatMap fun p =>
    (p.2.frags.filter fun q => s.ready p.1 q.1 p.2 q.2).map fun q =>
      { wid := p.1, fr := q.1, age := q.2.age, prio := p.2.prio, holds := q.2.holdsLane }

/-- The ranking of R133. -/
def Cand.before (x y : Cand) : Bool :=
  let old (c : Cand) : Bool := decide (256 ≤ c.age)
  let place := decide (x.wid < y.wid) || (x.wid == y.wid && decide (x.fr < y.fr))
  if old x != old y then old x
  else if !old x && x.prio != y.prio then decide (y.prio < x.prio)
  else if x.age != y.age then decide (y.age < x.age)
  else place

/-- Candidates in the order of R133. -/
def ranked (l : List Cand) : List Cand := sortBy Cand.before l

/-- Fragments of a core that hold an issue lane; a frozen wave's issue no more. -/
def State.laneHolders (s : State) (core : Nat) : Nat :=
  ((s.waves.filter fun p => coreOfWave p.1 == core && p.2.frozen.isNone).flatMap fun p =>
    p.2.frags.filter fun q => q.2.holdsLane).length

/-- Up to two picks. A fragment that holds a lane is picked for it while it is ready; a lane that nobody holds takes the next
fragment in rank; and a lane whose holder waits is lent to a fragment of age 256 or more (R133, R134, R135). `n` is how many
lanes are held. -/
def picksOf (n : Nat) (l : List Cand) : List Cand :=
  let own := l.filter (·.holds)
  let rest := ranked (l.filter fun x => !x.holds)
  let empty := 2 - n
  (own ++ rest.take empty ++ ((rest.drop empty).filter fun x => decide (256 ≤ x.age)).take (n - own.length)).take 2

/-! ### Port conflicts (R254, R255) -/

/-- The port of an opcode: 1 memory, 2 matrix, 3 engine; 0 none. -/
def portOf (op : Nat) : Nat :=
  if 0x70 ≤ op ∧ op ≤ 0x8D then 1 else if 0x90 ≤ op ∧ op ≤ 0x9E then 2 else if 0xB0 ≤ op ∧ op ≤ 0xC4 then 3 else 0

/-- The clause that a candidate runs, with its wave. -/
def State.candClause (s : State) (x : Cand) : Option (Wave × Clause) :=
  (s.fragAt x.wid x.fr).bind fun p => p.2.clause.map fun c => (p.1, c)

/-- Registers that a candidate's word reads through ports: the wave slot, the register. -/
def State.candReads (s : State) (x : Cand) : List (Nat × RegId) :=
  match s.candClause x with
  | none => []
  | some (w, c) => match inspect w.allot c with
    | .ok i => (instrReads w.allot i).map fun r => (x.wid, r)
    | .error _ => []

/-- The two passes together exceed a port, or one of them is a pair (R254, R255). -/
def State.conflict (s : State) (x y : Cand) : Bool :=
  match s.candClause x, s.candClause y with
  | some (_, c), some (_, d) =>
    let reads := dedup (s.candReads x ++ s.candReads y)
    let port (c : Clause) : Nat := if formOf c.word = 1 then 0 else portOf (opBits c.word)
    formOf c.word == 1 || formOf d.word == 1 || (port c != 0 && port c == port d) ||
      (List.range 5).any fun n => decide (2 < (reads.filter fun r => bankOf r.2 == n).length)
  | _, _ => false

/-- The order of R255. -/
def Cand.wins (x y : Cand) : Bool :=
  if x.age ≠ y.age then decide (y.age < x.age)
  else decide (x.wid < y.wid) || (x.wid == y.wid && decide (x.fr < y.fr))

/-- The candidates that issue in a cycle, in the order of their wave slots and records (R220, R243). -/
def State.issuing (s : State) (core : Nat) (l : List Cand) : List Cand :=
  match picksOf (s.laneHolders core) l with
  | [x, y] =>
    if s.conflict x y then [if x.wins y then x else y]
    else if x.wid < y.wid ∨ (x.wid = y.wid ∧ x.fr ≤ y.fr) then [x, y] else [y, x]
  | l => l

/-! ### One cycle (R133) -/

/-- Issue one pass of a fragment's word: the fragment holds its lane from now on (R134). -/
def Frag.issuePass (f : Frag) (w : Wave) : Frag :=
  match f.clause with
  | none => f
  | some c =>
    let left := (if c.passes = 0 then wordPasses w f c else c.passes) - 1
    { f with age := 0, wait := none, clause := some { c with passes := left, lane := true } }

/-- A fragment's word has had its last pass. -/
def State.passedAll (s : State) (x : Cand) : Bool :=
  match s.candClause x with
  | some (_, c) => c.passes == 0
  | none => false

/-- The fragments of a core, by wave slot and record, that satisfy a condition. -/
def State.fragsWith (s : State) (core : Nat) (p : Nat → Nat → Wave → Frag → Bool) : List (Nat × Nat) :=
  (s.waves.filter fun x => coreOfWave x.1 == core).flatMap fun x =>
    (x.2.frags.filter fun q => p x.1 q.1 x.2 q.2).map fun q => (x.1, q.1)

/-- Give up a lane. -/
def Frag.dropLane (f : Frag) : Frag := { f with clause := f.clause.map fun c => { c with lane := false } }

/-- The holders that lend their lanes: waiting ones, when the fragments that issue need more lanes than are left (R135). -/
def State.lenders (s : State) (core : Nat) (l go : List Cand) : List (Nat × Nat) :=
  let need := (go.filter fun x => !x.holds).length + s.laneHolders core
  (s.fragsWith core fun wid fr w f => w.frozen.isNone && f.holdsLane && !l.any fun x => x.wid == wid && x.fr == fr).take (need - 2)

/-- Tokens of copies of no bytes clear in the cycle after their issue (R316). -/
def Wave.fade (w : Wave) : Wave := if w.fading = 0 then w else { w with tok := w.tok &&& ~~~w.fading, fading := 0 }

/-- One cycle of a core: picks, lanes, ages, and the fragments whose words are now executed. -/
def State.cycle (s : State) (core : Nat) : State :=
  let s := s.modCore core fun c => { c with cyc := c.cyc + 1 }
  let l := s.readies core
  let go := s.issuing core l
  let lend := s.lenders core l go
  let lose := l.filter fun x => !go.contains x
  let yielded := s.fragsWith core fun _ _ _ f => match f.wait with | some (.yielded _) => true | _ => false
  let s := lend.foldl (fun s x => s.modFrag x.1 x.2 Frag.dropLane) s
  let s := yielded.foldl (fun s x => s.modFrag x.1 x.2 fun f => { f with wait := none }) s
  let s := lose.foldl (fun s x => s.modFrag x.wid x.fr fun f => { f with age := f.age + 1 }) s
  let s := go.foldl (fun s x => s.modWave x.wid fun w => w.modFrag x.fr fun f => f.issuePass w) s
  let s := { s with waves := Tbl.mapv (fun k w => if coreOfWave k = core then w.fade else w) s.waves }
  { s with picked := s.picked ++ (go.filter s.passedAll).map fun x => (x.wid, x.fr) }

/-- ISSUE_CYCLE (R133). -/
def execIssueCycle (core : Nat) (s : State) : Host.Outcome State Fault Refusal :=
  onCore core (onEvent "ISSUE_CYCLE" (if (s.die (dieOfCore core)).inReset then none else some (s.cycle core)))

/-! ### The word that a pick runs (R104, R105) -/

/-- The environment of a word that traps before it is an instruction. -/
def badWord (s : State) (c : Clause) (cause : Nat) : State :=
  match wordEnv (unpack c.word c.ext) s with
  | some e => settleWord e (e.trapNow cause c.word 0 e.frag.mask)
  | none => s

/-- What a picked fragment does: run an instruction, or take the trap of a word that is none. -/
inductive Picked where
  | run (i : Instr) (s : State)
  | trapped (s : State)
deriving DecidableEq, Repr

/-- The word of a picked fragment (R104 step 5 included); nothing when the fragment has gone. A handler that the other pick has
started does not take it back (R243). -/
def State.pickWord (s : State) (wid fr : Nat) : Picked :=
  match s.fragAt wid fr with
  | none => .trapped s
  | some (w, f) =>
    match f.clause with
    | none => .trapped s
    | some c =>
      if w.frozen.isSome || w.ending then .trapped s
      else
        let s := { s with cur := some (wid, fr) }
        match inspect w.allot c with
        | .error cause => .trapped { badWord s c cause with cur := none }
        | .ok i =>
          if hazard w fr f.mask c i = .violation then .trapped { badWord s c cLA_VIOLATION with cur := none } else .run i s

/-! ### Clause starts (R78, R79, R100 to R103, R128) -/

/-- The outcome of fetching code words. -/
inductive Fetch where
  | words (l : List W64)
  | miss (va : Nat)
  | stop (s : State)
  /-- The failing word's index. -/
  | bad (i : Nat)
deriving DecidableEq, Repr

/-- Fetch `n` code words from an address; `failed` pages have been answered with fail (R78, R79, R430). -/
def fetchWords (s : State) (wid : Nat) (w : Wave) (failed : List Nat) (pc n : Nat) : Fetch :=
  let core := coreOfWave wid
  let rs := (List.range n).map fun i => s.resolve core w.ctx failed ((pc + 8 * i) % 2 ^ 64) .fetch
  match rs.zipIdx.find? fun p => match p.1 with | .ok _ => false | _ => true with
  | some (.miss, i) => .miss ((pc + 8 * i) % 2 ^ 64)
  | some (_, i) => .bad i
  | none =>
    let locs := rs.flatMap fun r => match r with
      | .ok l => (List.range 8).map (locPlus l)
      | _ => []
    match s.homeStop wid w.lid locs with
    | some t => .stop t
    | none => .words (wordsOf (locs.map (s.homeByte w.ctx)))

/-- TRAPFBA of a failing body word: the first byte of the header or instruction that holds it (R79). -/
def fetchFba (s : State) (wid : Nat) (w : Wave) (failed : List Nat) (pc i : Nat) : Nat :=
  let body := match fetchWords s wid w failed (pc + 8) (i - 1) with
    | .words l => l
    | _ => []
  let rec starts : List W64 → Bool → Bool
    | [], ext => ext
    | x :: xs, ext => starts xs (!ext && formOf x == 2)
  if i ≥ 2 && starts body false then pc + 8 * (i - 1) else pc + 8 * i

/-- A trap at a header (R79, R101). -/
def State.headerTrap (s : State) (wid fr : Nat) (f : Frag) (t : TrapRec) (fba : W64) : State :=
  (s.modFrag wid fr fun f => { f with wait := none, failed := [] }).takeTrap wid fr t f.pc fba none true

/-- What becomes of a fragment at a header. -/
inductive HeaderDo where
  | waits
  /-- The fragment waits for a walk, or gives up its turn first. -/
  | pause (s : State)
  | go (s : State)
deriving DecidableEq, Repr

/-- A held fault of a token that the header waits on (R275). -/
def heldAt (w : Wave) (tw : BitVec 8) : Option (Nat × HeldFault) :=
  w.heldFaults.find? fun p => tw.getLsbD p.1

/-- The clause begins, or waits for its tokens and loads (R100). -/
def State.beginClause (s : State) (wid fr : Nat) (w : Wave) (f : Frag) (hdr : W64) (body : List W64) : HeaderDo :=
  let h := headerOf hdr
  if h.rcv && f.stack.contains h.rtok then .go (s.modWave wid fun w => w.park fr f h.rtok)
  else if h.yp = 2 && f.yieldedAt != some f.pc then
    .pause (s.modFrag wid fr fun f => { f with wait := some (.yielded 0), yieldedAt := some f.pc, age := 0 })
  else if h.tw &&& w.tok ≠ 0 ∨ (h.wl ∧ w.pending.any (·.load)) then .waits
  else match heldAt w h.tw with
    | some (t, x) =>
      let s := s.modWave wid fun w => { w with heldFaults := Tbl.del w.heldFaults t }
      .go (s.headerTrap wid fr f (faultRec x.cause x.info x.addr f.mask) f.pc)
    | none =>
      .go (s.modWave wid fun w =>
        { w with
          frags := Tbl.put w.frags fr { f with clause := some { addr := f.pc, hdr := hdr, words := body, idx := 0, passes := 0 },
                                               wait := none, failed := [], yieldedAt := none },
          pending := w.pending.map fun p => if p.frag = fr then { p with winEnd := 0 } else p })

/-- A fragment at a header: no header stands at an address that is not a multiple of 8 (R77); else the fetch, the checks of the header, then its waits (R78, R79, R101, R103). -/
def State.atHeader (s : State) (wid fr : Nat) (w : Wave) (f : Frag) : HeaderDo :=
  let pc := f.pc.toNat
  let ifetch (i : Nat) : HeaderDo :=
    .go (s.headerTrap wid fr f (faultRec cIFETCH 0 (BitVec.ofNat 64 (pc + 8 * i)) f.mask)
      (BitVec.ofNat 64 (fetchFba s wid w f.failed pc i)))
  let miss (va : Nat) : HeaderDo :=
    .pause ((s.askWalk wid fr w.ctx va .fetch).modFrag wid fr fun f => { f with wait := some .walk })
  let illegal (hdr : W64) : HeaderDo := .go (s.headerTrap wid fr f (faultRec cILLEGAL_CLAUSE hdr 0 f.mask) f.pc)
  if pc % 8 ≠ 0 then illegal 0 else
  match fetchWords s wid w f.failed pc 1 with
  | .miss va => miss va
  | .stop t => .go t
  | .bad i => ifetch i
  | .words l =>
    let hdr := l.headD 0
    if formOf hdr ≠ 3 then illegal hdr
    else match fetchWords s wid w f.failed pc (1 + (headerOf hdr).count) with
      | .miss va => miss va
      | .stop t => .go t
      | .bad i => ifetch i
      | .words l =>
        let body := l.drop 1
        if headerBad hdr body then illegal hdr else s.beginClause wid fr w f hdr body

/-- The waves of a twin's block stop at clause boundaries while a checkpoint is due (R559); the shadow runs on to its leader's
place. A pre-emption stops them too (R493). -/
def State.heldAtBoundary (s : State) (wid : Nat) (w : Wave) : Bool :=
  match s.block (w.bid wid) with
  | none => false
  | some b => (b.stopping && !w.shadow) || match s.block (s.leaderBid wid w) with
    | some l => l.twin.due.isSome && !w.shadow && !w.holdsAny
    | none => false

/-- CLAUSE_START, where it can happen (R100). -/
def State.startClause (s : State) (wid fr : Nat) : Option State :=
  match s.fragAt wid fr with
  | none => none
  | some (w, f) =>
    if f.clause.isSome || f.parked.isSome || f.diverge.isSome || !w.runs fr || !f.free s wid w ||
        (w.aborting.isSome && w.handler.isNone) || s.heldAtBoundary wid w || !s.twinTurn wid w (300 + fr) ||
        (w.pending.any fun p => p.frag == fr && p.mayTrap) then none
    else match s.atHeader wid fr w f with
      | .waits => none
      | .pause t => some t
      | .go t => some (t.twinStep wid w (300 + fr))

/-- CLAUSE_START (R100). -/
def execClauseStart (wid rec : Nat) (s : State) : Host.Outcome State Fault Refusal :=
  onCore (coreOfWave wid) (onEvent "CLAUSE_START" (s.startClause wid rec))

/-! ### Fragments that wait for a record (R127, R129) -/

/-- Held lanes take a record of their own (R129). -/
def State.detachHeld (s : State) (wid fr : Nat) : Option State :=
  match s.fragAt wid fr with
  | none => none
  | some (w, f) =>
    match f.held, f.parked, w.freeRecord with
    | some h, some _, some r =>
      if !s.twinTurn wid w (500 + fr) then none
      else
        let alone := { Frag.start h.mask h.pc h.stack with parked := h.stack.head? }
        let w' := { w with frags := Tbl.put (Tbl.put w.frags fr { f with held := none }) r alone }
        some ((s.modWave wid fun _ => w'.merge).twinStep wid w (500 + fr))
    | _, _, _ => none

/-- HELD_LANES_DETACH (R129). -/
def execHeldLanesDetach (wid rec : Nat) (s : State) : Host.Outcome State Fault Refusal :=
  onCore (coreOfWave wid) (onEvent "HELD_LANES_DETACH" (s.detachHeld wid rec))

/-- A branch that found no record completes (R127 step 5). -/
def State.retryBranch (s : State) (wid fr : Nat) : Option State :=
  match s.fragAt wid fr with
  | none => none
  | some (w, f) =>
    match f.diverge, f.clause, w.freeRecord with
    | some d, some c, some _ =>
      if !s.twinTurn wid w (400 + fr) || !w.runs fr then none
      else (w.diverge fr f c.hdr d).map fun w' => (s.modWave wid fun _ => w').twinStep wid w (400 + fr)
    | _, _, _ => none

/-- DIVERGE_RETRY (R127). -/
def execDivergeRetry (wid rec : Nat) (s : State) : Host.Outcome State Fault Refusal :=
  onCore (coreOfWave wid) (onEvent "DIVERGE_RETRY" (s.retryBranch wid rec))

/-! ### Landings (R143, R237) -/

/-- The trap that a landing result brings (R237, R465): a report where the fragment stands; a fault at the word itself, with
the window words that have issued passed over on return. -/
def State.landTrap (s : State) (wid : Nat) (p : Pending) (t : TrapRec) : State :=
  if !t.fault then s.takeTrapHere wid p.frag t
  else match s.fragAt wid p.frag with
    | none => s
    | some (_, f) =>
      let at_ := match f.clause with
        | some c => if c.addr = p.cl.addr then c.idx else p.cl.words.length
        | none => p.cl.words.length
      let pc := p.cl.wordAddr p.cl.idx
      (s.modFrag wid p.frag fun f => { f with clause := some { p.cl with passes := 0, lane := false } }).takeTrap wid p.frag t pc pc
        (some at_) false

/-- A result lands, where it can (R143, R353, R444, R551). -/
def State.land (s : State) (wid i : Nat) : Option State :=
  match s.wave wid with
  | none => none
  | some w =>
    match w.pending[i]? with
    | none => none
    | some p =>
      let busy := match p.req with
        | some id => (s.reqs.any fun r => r.id == id) || (s.peerOps.any fun r => r.grp == id) || w.arrayQ.any (ArrayOp.gives id)
        | none => false
      if busy || decide (s.cycOf wid + 1 < p.due) || (p.trap.isSome && w.heldTraps.any fun h => h.frag == p.frag) then none
      else
        let s' := s.modWave wid fun w => { w with pending := w.pending.eraseIdx i }
        match p.trap with
        | none => some s'
        | some t =>
          if !s.twinTurn wid w 100 || w.frozen.isSome then none
          else some ((s'.landTrap wid p t).twinStep wid w 100)

/-- RESULT_LAND (R143). -/
def execResultLand (wid idx : Nat) (s : State) : Host.Outcome State Fault Refusal :=
  onCore (coreOfWave wid) (onEvent "RESULT_LAND" (s.land wid idx))

/-! ### Redirects and timers (R203, R226, R422) -/

/-- An affected wave is redirected at its clause boundary; a shadow where its leader was (R226, R560). -/
def State.redirectNow (s : State) (wid : Nat) : Option State :=
  match s.wave wid with
  | none => none
  | some w =>
    if w.frozen.isSome || (w.pending.any fun p => p.req.isSome) then none
    else if s.twinned w && w.shadow then
      match s.wave (s.leaderOf wid w) with
      | none => none
      | some l => match l.twin.order with
        | x :: _ =>
          if 200 ≤ x ∧ x < 300 then some (s.redirectTo wid w ((x - 200) / 8) (x % 8)) else none
        | [] => none
    else if w.aborting.isSome && w.handler.isNone && w.frags.all fun p => p.2.clause.isNone then some (s.redirect wid)
    else none

/-- ABORT_REDIRECT (R226). -/
def execAbortRedirect (wid : Nat) (s : State) : Host.Outcome State Fault Refusal :=
  onCore (coreOfWave wid) (onEvent "ABORT_REDIRECT" (s.redirectNow wid))

/-- A sleeping fragment wakes (R203). -/
def State.wakeNow (s : State) (wid fr : Nat) : Option State :=
  match s.fragAt wid fr with
  | some (w, f) => match f.wait with
    | some (.sleep n) => if n ≤ s.cycOf wid + 1 then some (s.modFrag wid fr fun f => { f with wait := none }) else none
    | _ => none
  | none => none

/-- SLEEP_EXPIRE (R203). -/
def execSleepExpire (wid rec : Nat) (s : State) : Host.Outcome State Fault Refusal :=
  onCore (coreOfWave wid) (onEvent "SLEEP_EXPIRE" (s.wakeNow wid rec))

/-- The limit of an AWAIT passes: TIMEOUT, unless the cycle's completion check ends the phase (R416, R422). -/
def State.limitNow (s : State) (wid fr : Nat) : Option State :=
  match s.fragAt wid fr with
  | some (_, f) => match f.wait with
    | some (.region rid _ (some n)) =>
      if s.cycOf wid + 1 < n then none
      else
        let s := s.regionStep rid
        match s.fragAt wid fr with
        | some (_, g) =>
          if g.wait == f.wait then
            some (s.modFrag wid fr fun f =>
              { f with wait := none, awaitAns := some (BitVec.ofNat 64 ((s.region rid).phase * 2 ^ 48 + 1)) })
          else some s
        | none => some s
    | _ => none
  | none => none

/-- AWAIT_LIMIT_EXPIRE (R422). -/
def execAwaitLimitExpire (wid rec : Nat) (s : State) : Host.Outcome State Fault Refusal :=
  onCore (coreOfWave wid) (onEvent "AWAIT_LIMIT_EXPIRE" (s.limitNow wid rec))

end Sys2Proof.Machine
end

