-- ==== Sys2Proof/Machine/KeyValue.lean ====
section
/-! DEFINITION. The key-value store: pools, sequences, KVT, KVA, KVC and KVF, 0xB0 to 0xB3 (R449 to R458). -/

namespace Sys2Proof.Machine

/-! ### Identities (R450) -/

/-- Fields of a sequence id. -/
def seqDie (sid : Nat) : Nat := bits sid 31 30
def seqPool (sid : Nat) : Nat := bits sid 29 26

/-- Fields of a page id. -/
def pageDie (pid : Nat) : Nat := bits pid 31 30
def pageIndex (pid : Nat) : Nat := bits pid 29 0

/-- Key of the reference count of a page of pool `p`. -/
def refKey (p pid : Nat) : Nat := p * 2 ^ 32 + pid

/-- Pool of a die. -/
def poolKey (die p : Nat) : Nat := 16 * die + p
def State.pool (s : State) (key : Nat) : Pool := Tbl.get s.pools key Pool.reset
def State.modPool (s : State) (key : Nat) (f : Pool → Pool) : State :=
  { s with pools := Tbl.set Pool.reset s.pools key (f (s.pool key)) }

/-- Free pages of a pool (R449: FREE): its free list receives its pages when VALID is set. -/
def Pool.freePages (p : Pool) : Nat := p.freeLocal.length + (if p.valid then p.npages - p.fresh else 0) + p.freeBorrowed.length

/-- Take one page of a die's pool in the order of R453. -/
def Pool.takeOne (p : Pool) (die : Nat) : Option (Nat × Pool) :=
  match p.freeLocal, p.freeBorrowed with
  | x :: xs, _ => some (x, { p with freeLocal := xs })
  | [], bs =>
    if p.fresh < p.npages then some (die * 2 ^ 30 + p.fresh, { p with fresh := p.fresh + 1 })
    else match bs with
      | x :: xs => some (x, { p with freeBorrowed := xs })
      | [] => none

/-- Take `n` pages. -/
def Pool.take (die : Nat) : Nat → Pool → List Nat → List Nat × Pool
  | 0, p, l => (l, p)
  | n + 1, p, l => match p.takeOne die with
    | some (x, p) => Pool.take die n p (l ++ [x])
    | none => (l, p)

/-! ### The map's room (R399, R450) -/

/-- List blocks of 60 page ids. -/
def listBlocks (pages : Nat) : Nat := ceilDiv pages 60

/-- Bytes that a die's key-value map holds. -/
def State.mapUsed (s : State) (die : Nat) : Nat :=
  ((s.seqs.filter fun q => seqDie q.1 == die).map fun q => 64 + 256 * listBlocks q.2.pages.length).sum +
  2 * (s.refs.filter fun r => pageDie (r.1 % 2 ^ 32) == die).length

/-- The map has room for `n` more bytes. -/
def State.mapRoom (s : State) (die n : Nat) : Bool :=
  decide (s.mapUsed die + n ≤ 64 * bits (s.die die).cancfg.toNat 11 8 * 2 ^ 20)

/-- The lowest head index that no live sequence of the die holds, below the reserved one. -/
def State.freeHead (s : State) (die : Nat) : Option Nat :=
  let used := (s.seqs.filter fun q => seqDie q.1 == die).map fun q => q.1 % 2 ^ 26
  ((List.range (used.length + 1)).find? fun h => !used.contains h).filter fun h => decide (h < 2 ^ 26 - 1)

/-! ### Borrowing (R453) -/

/-- After an allocation: ask for a batch when the pool is below its low-water mark, may borrow, and has not asked. -/
def State.askBatch (s : State) (die p : Nat) : State :=
  let k := s.pool (poolKey die p)
  if k.borrow && k.asking.isNone && decide (k.freePages < k.lowat) then
    s.modPool (poolKey die p) fun k => { k with asking := some [(die + 3) % 4, (die + 1) % 4] }
  else s

/-- The batch by which a die holds a borrowed page: the latest that it was lent in. -/
def State.loanOf (s : State) (p pid holder : Nat) : Option (Batch × Nat) :=
  s.batches.zipIdx.reverse.find? fun b => b.1.pool == p && b.1.borrower == holder && b.1.left.contains pid

/-- Drop one reference of a page; at zero it is freed: a borrowed page returns to the free list of the die that lent it, which may
have borrowed it itself (R454). -/
def State.unref (s : State) (p pid : Nat) (holder : Nat) : State :=
  let n := Tbl.get s.refs (refKey p pid) 0
  if 1 < n then { s with refs := Tbl.put s.refs (refKey p pid) (n - 1) }
  else
    let s := { s with refs := Tbl.del s.refs (refKey p pid) }
    let free (s : State) (die : Nat) : State := s.modPool (poolKey die p) fun k =>
      if pageDie pid = die then { k with freeLocal := pid :: k.freeLocal } else { k with freeBorrowed := k.freeBorrowed ++ [pid] }
    match s.loanOf p pid holder with
    | none => free s (pageDie pid)
    | some (b, i) =>
      let left := s.batches.modify i fun b => { b with left := b.left.erase pid }
      free { s with batches := left.filter fun b => !b.left.isEmpty } b.lender

/-! ### Sequences -/

/-- A live sequence of a context (R457 reason 1). -/
def State.liveSeq (s : State) (ctx sid : Nat) : Option Seq :=
  (Tbl.find s.seqs sid).filter fun q => q.owner == ctx

/-- Address of a position (R451). -/
def State.slotAddr (s : State) (p pid slot : Nat) : Nat :=
  let k := s.pool (poolKey (pageDie pid) p)
  (k.vbase.toNat + pageIndex pid * 2 ^ k.log2ps + slot * 2 ^ (k.log2ps - 6)) % 2 ^ 64

/-- A new head with a copy of a page list: the sequence id; none where the map or the counts lack room (R450, R456). -/
def State.cloneSeq (s : State) (sid : Nat) (q : Seq) : Option (Nat × State) :=
  let die := seqDie sid
  let p := seqPool sid
  match s.freeHead die with
  | none => none
  | some h =>
    if !s.mapRoom die (64 + 256 * listBlocks q.pages.length) then none
    else if q.pages.any fun x => 65535 ≤ Tbl.get s.refs (refKey p x) 0 then none
    else
      let id := die * 2 ^ 30 + p * 2 ^ 26 + h
      let refs := q.pages.foldl (fun t x => Tbl.put t (refKey p x) (Tbl.get t (refKey p x) 0 + 1)) s.refs
      some (id, ({ s with seqs := Tbl.put s.seqs id q, refs := refs }).askBatch die p)

/-- Free a sequence: its pages lose a reference, its head is free (R456). -/
def State.freeSeq (s : State) (sid : Nat) (q : Seq) : State :=
  q.pages.foldl (fun s x => s.unref (seqPool sid) x (seqDie sid)) { s with seqs := Tbl.del s.seqs sid }

/-! ### Performing a lane (R456) -/

/-- The outcome of one lane. -/
inductive KvLane where
  | ok (s : State) (x : Option Nat)
  | bad (reason addr : Nat)
  | perf (p : Perf)
  | waits
deriving DecidableEq, Repr

/-- A copy-on-write: the used slots of the old page, to the new one, at dev level (R456). -/
def copyPage (s : State) (r : EngReq) (p old new slots sid : Nat) (body : State → KvLane) : KvLane :=
  let k := s.pool (poolKey (pageDie old) p)
  let n := slots * 2 ^ (k.log2ps - 6)
  let fail (_ _ : Nat) : Perf := .waits
  match placesOf s r .read (s.slotAddr p old 0) n, placesOf s r .write (s.slotAddr p new 0) n with
  | .ok _, .ok _ =>
    match readAt s r (s.slotAddr p old 0) n fail fun s l =>
        writeAt s r (s.slotAddr p new 0) l fail fun s => .lands s [] none with
    | .lands s _ _ => body s
    | q => .perf q
  | .page v, _ => .perf (.page v false)
  | _, .page v => .perf (.page v true)
  | _, _ => .bad 4 sid

/-- KVA.app of one lane. -/
def kvaAppLane (s : State) (r : EngReq) (sid n : Nat) : KvLane :=
  match s.liveSeq r.ctx sid with
  | none => .bad 1 sid
  | some q =>
    if n = 0 ∨ 65535 < n ∨ 2 ^ 24 ≤ q.len + n then .bad 3 sid
    else
      let die := seqDie sid
      let p := seqPool sid
      let need := ceilDiv (q.len + n) 64 - ceilDiv q.len 64
      let last := q.pages.getLastD 0
      let cow := q.len % 64 ≠ 0 && decide (1 < Tbl.get s.refs (refKey p last) 0)
      let total := need + ofBool cow
      let k := s.pool (poolKey die p)
      if k.freePages < total then (if k.asking.isSome then .waits else .ok s (some 0xFFFFFFFF))
      else
        let (pages, k') := Pool.take die total k []
        let blocks := listBlocks (q.pages.length + need) - listBlocks q.pages.length
        let here (d : Nat) : Nat := (pages.filter fun x => pageDie x == d).length
        let room := (List.range 4).all fun d => (here d == 0 && d != die) ||
          s.mapRoom d (2 * here d + (if d = die then 256 * blocks else 0))
        if !room then .ok s (some 0xFFFFFFFF)
        else
          let finish (s : State) : KvLane :=
            let s := s.modPool (poolKey die p) fun _ => k'
            let refs := pages.foldl (fun t x => Tbl.put t (refKey p x) 1) s.refs
            let s := { s with refs := refs }
            let (s, kept) := if cow then (s.unref p last die, q.pages.dropLast) else (s, q.pages)
            let q' := { q with len := q.len + n, pages := kept ++ pages }
            .ok (({ s with seqs := Tbl.put s.seqs sid q' }).askBatch die p) (some (q.len + n))
          if cow then copyPage s r p last (pages.headD 0) (q.len % 64) sid finish else finish s

/-- KVA.new of one lane, on the issuing die. -/
def kvaNewLane (s : State) (r : EngReq) (pool : Nat) : KvLane :=
  let die := dieOfCore (coreOfWave r.wid)
  let k := s.pool (poolKey die pool)
  if 16 ≤ pool ∨ !k.valid ∨ k.owner ≠ r.ctx then .bad 2 pool
  else match s.freeHead die with
    | none => .ok s (some 0xFFFFFFFF)
    | some h =>
      if !s.mapRoom die 64 then .ok s (some 0xFFFFFFFF)
      else
        let id := die * 2 ^ 30 + pool * 2 ^ 26 + h
        .ok ({ s with seqs := Tbl.put s.seqs id { owner := r.ctx, len := 0, pages := [] } }.askBatch die pool) (some id)

/-- KVC of one lane. -/
def kvcLane (s : State) (r : EngReq) (sid : Nat) : KvLane :=
  match s.liveSeq r.ctx sid with
  | none => .bad 1 sid
  | some q => match s.cloneSeq sid q with
    | some (id, s) => .ok s (some id)
    | none => .ok s (some 0xFFFFFFFF)

/-- KVF of one lane. -/
def kvfLane (s : State) (r : EngReq) (sid : Nat) : KvLane :=
  match s.liveSeq r.ctx sid with
  | none => .bad 1 sid
  | some q => .ok (s.freeSeq sid q) none

/-- Perform lanes in ascending order (R452): `one` performs a lane, `rest` is the request for the lanes from one on. -/
def kvRun (r : EngReq) (d : Option Nat) (one : State → Nat × Nat × Nat → KvLane)
    (rest : List (Nat × Nat × Nat) → EngOp) (full : List (Nat × Nat × Nat)) :
    State → List (Nat × Nat × Nat) → List RegWrite → List (Nat × Nat × Nat) → Perf
  | s, [], got, bad => .lands s got (reasonTrap cKV bad)
  | s, x :: xs, got, bad =>
    match one s x with
    | .ok s y =>
      let w := match d, y with
        | some d, some y => putAt d .n32 x.1 y
        | _, _ => []
      kvRun r d one rest full s xs (got ++ w) bad
    | .bad reason addr => kvRun r d one rest full s xs got (bad ++ [(x.1, reason, addr)])
    | .perf p => if (x :: xs).length = full.length then p else .partly s (rest (x :: xs)) got bad
    | .waits => if (x :: xs).length = full.length then .waits else .partly s (rest (x :: xs)) got bad

/-- KVT: addresses of held positions, and the lanes whose positions are not held (R451, R456). -/
def kvtPerf (s : State) (r : EngReq) (items : List (Nat × Nat × Nat)) (d k : Nat) : Perf :=
  let look (x : Nat × Nat × Nat) : Except Nat (Option Nat) :=
    match s.liveSeq r.ctx x.2.1 with
    | none => .error x.2.1
    | some q =>
      if x.2.2 < q.len then .ok (some (s.slotAddr (seqPool x.2.1) (q.pages.getD (x.2.2 / 64) 0) (x.2.2 % 64)))
      else .ok none
  let rs := items.map fun x => (x.1, look x)
  let ws := rs.flatMap fun p => match p.2 with
    | .ok (some a) => putAt d .b64 p.1 a
    | _ => []
  let seen := maskOf (rs.filterMap fun p => match p.2 with | .ok _ => some p.1 | .error _ => none)
  let out := maskOf (rs.filterMap fun p => match p.2 with | .ok none => some p.1 | _ => none)
  let bad := rs.filterMap fun p => match p.2 with | .error a => some (p.1, 1, a) | .ok _ => none
  let old := match s.wave r.wid with
    | some w => Tbl.get w.k k 0
    | none => 0
  .lands s (ws ++ [.k k ((old &&& ~~~seen) ||| out)]) (reasonTrap cKV bad)

/-- Perform a key-value request. -/
def kvPerf (s : State) (r : EngReq) : Perf :=
  let pair (l : List (Nat × Nat)) : List (Nat × Nat × Nat) := l.map fun x => (x.1, x.2, 0)
  let unpair (l : List (Nat × Nat × Nat)) : List (Nat × Nat) := l.map fun x => (x.1, x.2.1)
  match r.op with
  | .kvt items d k => kvtPerf s r items d k
  | .kvaNew lanes pool d =>
    let l := lanes.map fun i => (i, pool, 0)
    kvRun r (some d) (fun s x => kvaNewLane s r x.2.1) (fun l => .kvaNew (l.map (·.1)) pool d) l s l r.got r.bad
  | .kvaApp l d => kvRun r (some d) (fun s x => kvaAppLane s r x.2.1 x.2.2) (fun l => .kvaApp l d) l s l r.got r.bad
  | .kvc l d => kvRun r (some d) (fun s x => kvcLane s r x.2.1) (fun l => .kvc (unpair l) d) (pair l) s (pair l) r.got r.bad
  | .kvf l => kvRun r none (fun s x => kvfLane s r x.2.1) (fun l => .kvf (unpair l)) (pair l) s (pair l) r.got r.bad
  | _ => .waits

/-! ### Issue (R455) -/

/-- The engines of the dies that hold the sequences of the lanes. -/
def kvEngines (l : List Nat) : List Nat := dedup (l.map fun sid => kvEngine (seqDie sid))

/-- KVT (R456). -/
def execKvt (w : Fields) (s : State) : Host.Outcome State Fault Refusal :=
  onWord w s fun e =>
    if e.lanes.isEmpty then .done { s := e.s }
    else
      let d := e.w.d.toNat
      let k := e.w.c.toNat
      let items := e.lanes.map fun i => (i, e.a .n32 i, e.b .n32 i)
      engineOp e (kvEngines (items.map (·.2.1))) none (vregsAt d 2 ++ [.k k]) (foldLanes e [e.a .n32, e.b .n32])
        (.kvt items d k) none

/-- KVA.new (R456). -/
def execKvaNew (w : Fields) (s : State) : Host.Outcome State Fault Refusal :=
  onWord w s fun e =>
    if e.lanes.isEmpty then .done { s := e.s }
    else
      let d := e.w.d.toNat
      let pool := e.uni e.w.b.toNat .n32
      engineOp e [kvEngine (dieOfCore (coreOfWave e.wid))] none (vregsAt d 1) (leBytes 8 pool) (.kvaNew e.lanes pool d) none

/-- KVA.app (R456). -/
def execKvaApp (w : Fields) (s : State) : Host.Outcome State Fault Refusal :=
  onWord w s fun e =>
    if e.lanes.isEmpty then .done { s := e.s }
    else
      let d := e.w.d.toNat
      let items := e.lanes.map fun i => (i, e.a .n32 i, e.b .n32 i)
      engineOp e (kvEngines (items.map (·.2.1))) none (vregsAt d 1) (foldLanes e [e.a .n32, e.b .n32]) (.kvaApp items d) none

/-- KVC (R456). -/
def execKvc (w : Fields) (s : State) : Host.Outcome State Fault Refusal :=
  onWord w s fun e =>
    if e.lanes.isEmpty then .done { s := e.s }
    else
      let d := e.w.d.toNat
      let items := e.lanes.map fun i => (i, e.a .n32 i)
      engineOp e (kvEngines (items.map (·.2))) none (vregsAt d 1) (foldLanes e [e.a .n32]) (.kvc items d) none

/-- KVF (R456). -/
def execKvf (w : Fields) (s : State) : Host.Outcome State Fault Refusal :=
  onWord w s fun e =>
    if e.lanes.isEmpty then .done { s := e.s }
    else
      let items := e.lanes.map fun i => (i, e.a .n32 i)
      engineOp e (kvEngines (items.map (·.2))) none [] (foldLanes e [e.a .n32]) (.kvf items) none

end Sys2Proof.Machine
end

