-- ==== Sys2Proof/Machine/Particle.lean ====
section
/-! DEFINITION. Particles: handles, weights, PWADD, PWSET, RSB, POPR and PKILL, 0xC0 to 0xC4 (R500 to R519). -/

namespace Sys2Proof.Machine

/-! ### Handles (R500, R502, R515) -/

/-- Key of the record that a handle names. -/
def handleKey (h : Nat) : Nat := bits h 31 30 * 65536 + bits h 15 0

/-- A particle record. -/
def State.particle (s : State) (key : Nat) : Particle := Tbl.get s.particles key Particle.reset
def State.modParticle (s : State) (key : Nat) (f : Particle → Particle) : State :=
  { s with particles := Tbl.set Particle.reset s.particles key (f (s.particle key)) }

/-- A population. -/
def State.pop (s : State) (p : Nat) : Pop := Tbl.get s.pops p Pop.reset
def State.modPop (s : State) (p : Nat) (f : Pop → Pop) : State :=
  { s with pops := Tbl.set Pop.reset s.pops p (f (s.pop p)) }

/-- The population of a PARTICLE launch (R503). -/
def State.launchPop (s : State) (lid : Nat) : Nat := recField (s.record lid) 0xE8 63 56

/-- A record is free (R502). -/
def Particle.free (p : Particle) : Bool := p.st == 0 && !p.done

/-- Why a handle fails for a wave of a launch; `weight` for a weight operation (R515). -/
def State.handleBad (s : State) (lid h : Nat) (weight : Bool) : Option Nat :=
  let p := s.particle (handleKey h)
  let pop := s.launchPop lid
  if bits h 21 16 ≠ 0 || p.free || p.pop != pop || bits h 29 22 != pop then some 1
  else if weight && p.st != 2 then some 2
  else none

/-- A weight's NaN becomes −inf and sets NANSEEN (R516). -/
def State.setWeight (s : State) (h : Nat) (x : Nat) : State :=
  let nan := (fval .f32 x).isNan
  let s := s.modParticle (handleKey h) fun p => { p with w := if nan then 0xFF800000 else BitVec.ofNat 32 x }
  if nan then s.modPop (s.particle (handleKey h)).pop fun p => { p with status := p.status ||| 2 } else s

/-! ### Weight operations (R516, R519) -/

/-- A kill of SMPL that has not been made yet: the particle operations of one fragment are performed in issue order. -/
def Env.killing (e : Env) : Bool :=
  e.s.reqs.any fun r => r.wid == e.wid && (r.frag == e.fr || e.wv.whole) && match r.op with
    | .smpl _ _ _ _ kill => kill
    | _ => false

/-- A weight operation on the lanes in ascending order; `op` gives the new weight from the old. -/
def weightOp (e : Env) (operands : Bytes) (op : Nat → W32 → Nat) : WRes :=
  if !e.s.isParticle e.wv.lid then e.illegal
  else if e.killing then .wait e.s .allResults
  else leaderOnce e operands fun e =>
    let bad := e.lanes.filterMap fun i => (e.s.handleBad e.wv.lid (e.a .n32 i) true).map fun n => (i, n, e.a .n32 i)
    let ok := e.lanes.filter fun i => !bad.any fun x => x.1 == i
    let s := ok.foldl (fun s i =>
      let h := e.a .n32 i
      s.setWeight h (op i (s.particle (handleKey h)).w)) e.s
    .done { s := s, fault := reasonTrap cPOP bad }

/-- PWADD (R516). -/
def execPwadd (w : Fields) (s : State) : Host.Outcome State Fault Refusal :=
  onWord w s fun e => weightOp e (foldLanes e [e.a .n32, e.b .f32]) fun i old =>
    (deliver fmtF32 .rne (addVal .rne (fval .f32 old.toNat) (fval .f32 (e.b .f32 i)))).1

/-- PWSET (R516). -/
def execPwset (w : Fields) (s : State) : Host.Outcome State Fault Refusal :=
  onWord w s fun e => weightOp e (foldLanes e [e.a .n32, e.b .f32]) fun i _ => e.b .f32 i

/-- PKILL (R516). -/
def execPkill (w : Fields) (s : State) : Host.Outcome State Fault Refusal :=
  onWord w s fun e => weightOp e (foldLanes e [e.a .n32]) fun _ _ => 0xFF800000

/-! ### RSB and POPR -/

/-- The launch is DET and its PCONF has QUORUM (R517). -/
def State.detQuorum (s : State) (lid : Nat) : Bool := s.isDet lid && bit (recWord (s.record lid) 0xE8) 55

/-- RSB (R517): every lane retires, and the wave ends by WAVE_END. -/
def execRsb (w : Fields) (s : State) : Host.Outcome State Fault Refusal :=
  onWord w s fun e =>
    if !e.s.isParticle e.wv.lid || !e.wv.whole || e.wv.spanOpen || e.wv.handler.isSome then e.illegal
    else if e.s.detQuorum e.wv.lid then e.trapNow cDET_FORBIDDEN 0 0 e.frag.mask
    else if e.killing then .wait e.s .allResults
    else atCompare e [] fun e =>
      .placed (e.s.modWave e.wid fun w => { w.exitLanes e.fr e.frag e.frag.mask e.cl with rsb := true }) []

/-- A register of POPR (R513, R518). -/
def popReg (s : State) (h sel : Nat) : Nat :=
  let r := s.particle (handleKey h)
  let p := s.pop r.pop
  match sel with
  | 0 => p.count
  | 1 => p.round
  | 2 => p.arrived
  | 3 => p.strag
  | 4 => p.maxw.toNat
  | 5 => p.meanw.toNat
  | 6 => p.ess.toNat
  | 7 => p.status.toNat
  | 8 => r.w.toNat
  | 9 => h
  | 10 => r.parent.toNat
  | 11 => r.index
  | 12 => r.seq.toNat
  | _ => r.gstate.toNat

/-- POPR (R518): a bad handle traps on k0's lanes. -/
def execPopr (w : Fields) (s : State) : Host.Outcome State Fault Refusal :=
  onWord w s fun e =>
    let h := if e.w.a = 0xE0 then e.wv.part.toNat else e.uni e.w.a.toNat .n32
    if !e.s.isParticle e.wv.lid then e.illegal
    else if e.killing then .wait e.s .allResults
    else leaderOnce e (leBytes 8 h) fun e =>
      match e.s.handleBad e.wv.lid h false with
      | some n => e.trapNow cPOP (BitVec.ofNat 64 n) (BitVec.ofNat 64 h) e.frag.mask
      | none => .done { s := e.s, ws := e.putS (popReg e.s h (e.f 3 0)) }

end Sys2Proof.Machine
end

