-- ==== Sys2Proof/Machine/Launch.lean ====
section
/-! DEFINITION. The launch front: launch queues, the reading and checking of records, edges, starting, offering and
completing launches (R478 to R486, R426, R503 to R505, R543). -/

namespace Sys2Proof.Machine

/-! ### Register writes by host functions (R543) -/

/-- A host function that is frozen has its requests completed with an error: its writes do nothing (R532). -/
def State.fn (s : State) (n : Nat) : HostFn := Tbl.get s.fns n HostFn.reset
def State.modFn (s : State) (n : Nat) (f : HostFn → HostFn) : State :=
  { s with fns := Tbl.set HostFn.reset s.fns n (f (s.fn n)) }

/-- A register write by a function. -/
def onFn (fn : Nat) (s : State) (f : State → State) : Host.Outcome State Fault Refusal :=
  if 64 ≤ fn then .fault .noSuchUnit else if (s.fn fn).frozen then .next s else .next (f s)

/-- The function holds the context (R561). -/
def State.holds (s : State) (fn ctx : Nat) : Bool := decide (ctx < 256) && s.holder ctx == fn

/-- A live launch of a context: a record that has been accepted and not retired (R477, R549). -/
def State.ctxLive (s : State) (ctx : Nat) : Bool := s.slots.any fun p => ctxOfSlot p.1 == ctx

/-- A launch of the population is live (R501, R504). -/
def State.popLive (s : State) (pop : Nat) : Bool :=
  s.slots.any fun p => bit (recWord p.2.words 0x18) 48 && recField p.2.words 0xE8 63 56 == pop

/-! ### Queues (R478) -/

/-- A launch queue. -/
def queueKey (ctx q : Nat) : Nat := 64 * ctx + q
def State.queue (s : State) (ctx q : Nat) : Queue := Tbl.get s.queues (queueKey ctx q) Queue.reset
def State.modQueue (s : State) (ctx q : Nat) (f : Queue → Queue) : State :=
  { s with queues := Tbl.set Queue.reset s.queues (queueKey ctx q) (f (s.queue ctx q)) }

/-- QHEAD advances over the retired slots that lead the queue (R478). -/
def Queue.advance : Nat → Queue → Queue
  | 0, q => q
  | n + 1, q =>
    if q.head ≠ q.tail ∧ q.retired.contains q.head then
      Queue.advance n { q with head := (q.head + 1) % 2 ^ q.log2n, retired := q.retired.erase q.head }
    else q

/-- A QBASE or QCTL write is ignored unless the queue is empty; LOG2N above 10 is ignored (R478). -/
def Queue.takes (q : Queue) (reg : QueueReg) (val : W64) : Bool :=
  q.head == q.tail && match reg with
    | .qbase => true
    | .qctl => decide (bits val.toNat 3 0 ≤ 10)

/-- A QBASE or QCTL write (R478). -/
def Queue.config (q : Queue) (reg : QueueReg) (val : W64) : Queue :=
  match reg with
  | .qbase => { q with qbase := BitVec.ofNat 64 (bits val.toNat 63 8 * 256) }
  | .qctl =>
    let n := bits val.toNat 3 0
    { q with log2n := n, head := q.head % 2 ^ n, tail := q.tail % 2 ^ n }

/-- QUEUE_CONFIG_WRITE (R478). -/
def execQueueConfigWrite (fn ctx q : Nat) (reg : QueueReg) (val : W64) (s : State) : Host.Outcome State Fault Refusal :=
  onFn fn s fun s =>
    if s.holds fn ctx && decide (q < 64) && (s.queue ctx q).takes reg val then s.modQueue ctx q fun x => x.config reg val else s

/-! ### The launch record (R480, R482, R504) -/

/-- The word of role `r`, and its fields. -/
def roleWord (l : List W64) (r : Nat) : Nat := recWord l (0x28 + 8 * r)
def nrolesOf (l : List W64) : Nat := recField l 0x18 24 23 + 1
def roleEntry (l : List W64) (r : Nat) : Nat := bits (roleWord l r) 63 32
def roleV (l : List W64) (r : Nat) : Nat := 8 * (bits (roleWord l r) 31 28 + 1)
def roleWaves (l : List W64) (r : Nat) : Nat := bits (roleWord l r) 27 23
def rolePrio (l : List W64) (r : Nat) : Nat := bits (roleWord l r) 22 21
def crewSizeOf (l : List W64) : Nat := recField l 0x18 41 38
def widthOf (l : List W64) : Nat := 2 ^ (recField l 0x18 37 35 + 4)
def crossOf (l : List W64) : Nat := 2 ^ (recField l 0x18 34 33 + 4)
def accsOf (l : List W64) : Nat := recField l 0x18 31 25
def spwavesOf (l : List W64) : Nat := recField l 0x18 22 19
def poolVOf (l : List W64) : Nat := 8 * (recField l 0x18 18 15 + 1)
def flagOf (l : List W64) (n : Nat) : Bool := bit (recWord l 0x18) n
def gridOf (l : List W64) : List Nat := [recField l 0x48 31 0, recField l 0x48 63 32, recField l 0x50 31 0]

/-- Blocks of the grid. -/
def gridBlocks (l : List W64) : Nat := (gridOf l).foldl (· * ·) 1

/-- Waves of the roles. -/
def roleWavesAll (l : List W64) : Nat := ((List.range (nrolesOf l)).map (roleWaves l)).sum

/-- Shares of a block in bytes and ways, and the crew's lines (R480). -/
def standOf (l : List W64) : Nat := recField l 0x20 63 56 * 65536
def crewShareOf (l : List W64) : Nat := max 1 (recField l 0x20 55 51)
def waysOf (l : List W64) : Nat := max 1 (recField l 0x20 50 47)
def obufOf (l : List W64) : Nat := recField l 0x20 46 40 * 4096
def scratchOf (l : List W64) : Nat := recField l 0x20 39 31 * 4096

/-- Code 1: a reserved field is nonzero (R11, R504). -/
def reservedBad (l : List W64) : Bool :=
  recField l 0x18 52 49 != 0 || recField l 0x18 32 32 != 0 || recField l 0x18 14 0 != 0 || recField l 0x20 30 0 != 0 ||
    ((List.range 4).any fun r => if r < nrolesOf l then bits (roleWord l r) 20 0 != 0 else roleWord l r != 0) ||
    recField l 0x50 63 32 != 0 || recField l 0x58 63 48 != 0 ||
    ((List.range 8).any fun e => recField l (0x60 + 16 * e) 46 0 != 0 ||
      (List.range 4).any fun m => bit (recWord l (0x68 + 16 * e)) (16 * m + 14)) ||
    recField l 0xE0 63 4 != 0 || recWord l 0xF8 != 0 ||
    (flagOf l 48 && (recField l 0xE8 54 52 != 0 || recField l 0xE8 31 16 != 0))

/-- Code 2: a field lies outside the limits of R480. -/
def limitsBad (l : List W64) : Bool :=
  crewSizeOf l == 0 || decide (8 < crewSizeOf l) || decide (6 < recField l 0x18 37 35) || decide (2 < recField l 0x18 34 33) ||
    decide (widthOf l < crossOf l) || decide (64 < accsOf l) || decide (128 < recField l 0x20 63 56) ||
    decide (16 < recField l 0x20 55 51) || decide (8 < recField l 0x20 50 47) || decide (64 < recField l 0x20 46 40) ||
    decide (256 < recField l 0x20 39 31) || decide (8 < ncdepOf l) || (gridOf l).contains 0 ||
    (List.range (nrolesOf l)).any fun r => roleWaves l r == 0 || decide (16 < roleWaves l r)

/-- Code 5: the block breaks a limit of R33. -/
def blockBad (l : List W64) : Bool :=
  let n := roleWavesAll l + spwavesOf l
  let v := ((List.range (nrolesOf l)).map fun r => roleWaves l r * roleV l r).sum + spwavesOf l * poolVOf l
  decide (16 < n) || decide (64 < n * accsOf l) || decide (768 * 1024 < widthOf l * v * 4)

/-- Code 7 (R503, R504, R480). -/
def flagsBad (s : State) (ctx : Nat) (l : List W64) : Bool :=
  let pop := recField l 0xE8 63 56
  let q := recField l 0xE8 51 32
  if !flagOf l 46 && recWord l 0xF0 != 0 then true
  else if !flagOf l 48 then recWord l 0xE8 != 0
  else
    crewSizeOf l != 1 || nrolesOf l != 1 || roleWaves l 0 != 1 || spwavesOf l != 0 || gridOf l != [1, 1, 1] ||
      (if bit (recWord l 0xE8) 55 then q == 0 else q != 0) || !(s.pop pop).valid || (s.pop pop).owner != ctx ||
      s.popLive pop ||
      (!flagOf l 44 && s.particles.any fun p =>
        p.2.pop == pop && p.2.st == 1 && p.1 / 65536 != recField l 0x18 43 42)

/-- The edges of a record: the slot each names, and the regions it carries (R480). -/
def edgesOf (ctx : Nat) (l : List W64) : List (Nat × List Nat) :=
  (List.range 8).filterMap fun e =>
    let w0 := recWord l (0x60 + 16 * e)
    let w1 := recWord l (0x68 + 16 * e)
    if bit w0 47 then
      some (slotKey ctx (bits w0 63 58) (bits w0 57 48),
        (List.range 4).filterMap fun m => if bit w1 (16 * m + 15) then some (bits w1 (16 * m + 13) (16 * m)) else none)
    else none

/-- The slot holds a live launch. -/
def State.slotLive (s : State) (sk : Nat) : Bool := Tbl.mem s.slots sk

/-- The first code that applies to a record that has been read; 0 for none (R482, R483). -/
def rejectCode (s : State) (ctx : Nat) (l : List W64) : Nat :=
  if reservedBad l then 1
  else if limitsBad l then 2
  else if recField l 0x18 63 56 ≠ ctx ∨ !bit (s.ctx ctx).word0.toNat 0 then 3
  else if recWord l 0 % 8 ≠ 0 then 4
  else if blockBad l then 5
  else if gridBlocks l % crewSizeOf l ≠ 0 ∨ (flagOf l 46 ∧ 4 < crewSizeOf l) then 6
  else if flagsBad s ctx l then 7
  else if (edgesOf ctx l).any fun e => !s.slotLive e.1 && s.failedSlots.contains e.1 then 8
  else 0

/-! ### Cleaning regions (R426) -/

/-- The lines of a region. -/
def Region.hasLine (r : Region) (line : Nat) : Bool := r.holds (64 * line)

/-- Clean and invalidate a region for a consumer's context: its update-only copies are recalled, and its L1 copies are dropped
at every core (R426). -/
def State.cleanRegion (s : State) (ctx rid : Nat) : State :=
  let r := s.region rid
  if !r.valid then s
  else
    let lines := dedup ((s.cores.flatMap fun c => c.2.u.map (·.1)).filter r.hasLine)
    let s := lines.foldl State.recall s
    let mine (k : Nat) (x : L1Line) : Bool := !x.crew && k / 2 / 2 ^ 33 == ctx && r.hasLine (k / 2 % 2 ^ 33)
    { s with cores := Tbl.mapv (fun _ c => { c with l1 := Tbl.keep (fun k x => !mine k x) c.l1 }) s.cores }

/-- Clean the regions that an edge carries. -/
def State.cleanAll (s : State) (ctx : Nat) (rids : List Nat) : State := rids.foldl (fun s r => s.cleanRegion ctx r) s

/-! ### Retirement, satisfied and failed edges (R478, R483, R484) -/

/-- Retire a slot with a fate. -/
def State.retire (s : State) (sk : Nat) (failed : Bool) : State :=
  let s := { s with slots := Tbl.del s.slots sk, satisfied := Tbl.del s.satisfied sk,
                    failedSlots := if failed then s.failedSlots.erase sk ++ [sk] else s.failedSlots.erase sk }
  s.modQueue (ctxOfSlot sk) (queueOfSlot sk) fun q =>
    let q := { q with retired := q.retired ++ [indexOfSlot sk] }
    q.advance q.retired.length

/-- Slots with an edge on `sk` that is not satisfied, lower first. -/
def State.dependents (s : State) (sk : Nat) : List Nat :=
  (s.slots.filter fun p => p.2.edges.any fun e => e.pred == sk && !e.satisfied).map (·.1)

/-- Reject slots with code 8, and the slots that depend on them (R482, R483). -/
def State.cascade : Nat → State → List Nat → State
  | 0, s, _ => s
  | n + 1, s, sks => sks.foldl (fun s sk =>
      if !s.slotLive sk then s
      else
        let next := s.dependents sk
        State.cascade n ((s.postEvent (ctxOfSlot sk) (launchEvent 2 sk 8 0) 0).retire sk true) next) s

/-- A launch has failed: its slot is retired and its dependents are rejected (R483). -/
def State.failSlot (s : State) (sk : Nat) : State :=
  let next := s.dependents sk
  State.cascade (s.slots.length + 1) (s.retire sk true) next

/-- A launch has completed: the edges on its slot are satisfied and their regions cleaned (R483). -/
def State.fireEdges (s : State) (sk : Nat) : State :=
  (s.dependents sk).foldl (fun s k =>
    match Tbl.find s.slots k with
    | none => s
    | some l =>
      let mine := l.edges.filter fun e => e.pred == sk && !e.satisfied
      let s := s.cleanAll (ctxOfSlot k) (mine.flatMap (·.regions))
      let fire (e : Edge) : Edge := if e.pred = sk then { e with satisfied := true } else e
      State.refreshReady { s with slots := Tbl.upd s.slots k fun l => { l with edges := l.edges.map fire } } k) s

/-! ### Reading records (R478, R481, R482) -/

/-- The host link returns an error for a read of one of the places (R482). -/
def State.linkFails (s : State) (ls : List Loc) : Bool :=
  ls.any fun l => match l with
    | .host a => s.linkErrs.contains a
    | _ => false

/-- Errors of the host link that a read has met. -/
def State.dropErrs (s : State) (ls : List Loc) : State :=
  { s with linkErrs := s.linkErrs.filter fun a => !ls.contains (.host a) }

/-- The words of a record at an address of a context; none where a byte of it does not translate, or the host link returns an
error (R482 code 9). -/
def State.readRecord (s : State) (ctx va : Nat) : State × Option (List W64) :=
  match s.resolveNow ctx va .read with
  | .ok (.peer _ _ _) => (s, none)
  | .ok l =>
    let locs := (List.range 256).map (locPlus l)
    if s.linkFails locs then (s.dropErrs locs, none)
    else
      let s := (s.meetHome locs).recallLocs locs
      (s, some (wordsOf (locs.map (s.homeByte ctx))))
  | _ => (s, none)

/-- Reject the record of a slot: a TYPE 2 event, and the fate failed. -/
def State.reject (s : State) (sk code : Nat) : State :=
  (s.postEvent (ctxOfSlot sk) (launchEvent 2 sk code 0) 0).failSlot sk

/-- Accept a record: each edge waits for a live launch, or is satisfied at once (R483). -/
def State.accept (s : State) (sk : Nat) (l : List W64) : State :=
  let ctx := ctxOfSlot sk
  let edges := (edgesOf ctx l).map fun e => ({ pred := e.1, satisfied := !s.slotLive e.1, regions := e.2 } : Edge)
  let s := s.cleanAll ctx ((edges.filter (·.satisfied)).flatMap (·.regions))
  let slot : LSlot := { words := l, edges := edges, readyAt := none, lid := none }
  State.refreshReady { s with slots := Tbl.put s.slots sk slot, failedSlots := s.failedSlots.erase sk } sk

/-- Read the record of one slot. -/
def State.readSlot (s : State) (ctx q slot : Nat) : State :=
  let sk := slotKey ctx q slot
  match s.readRecord ctx ((s.queue ctx q).qbase.toNat + 256 * slot) with
  | (s, none) => s.reject sk 9
  | (s, some l) => match rejectCode s ctx l with
    | 0 => s.accept sk l
    | code => s.reject sk code

/-- A QTAIL write: ignored where it would pass QHEAD; else the new records are read in slot order (R478). -/
def State.moveTail (s : State) (ctx q val : Nat) : State :=
  let x := s.queue ctx q
  let n := 2 ^ x.log2n
  let new := val % 1024 % n
  let more := (new + n - x.tail) % n
  if (x.tail + n - x.head) % n + more ≥ n then s
  else
    let s := s.modQueue ctx q fun x => { x with tail := new }
    (List.range more).foldl (fun s k => s.readSlot ctx q ((x.tail + k) % n)) s

/-- The launch-front firmware runs (R529). -/
def State.frontRuns (s : State) : Bool := s.sec.running.contains 1

/-- QTAIL_WRITE (R478): no launch front answers before its image has been verified (R529). -/
def execQtailWrite (fn ctx q : Nat) (val : W64) (s : State) : Host.Outcome State Fault Refusal :=
  if !s.frontRuns then .refused (.notEnabled "QTAIL_WRITE")
  else onFn fn s fun s => if s.holds fn ctx && decide (q < 64) then s.moveTail ctx q val.toNat else s

/-! ### Starting (R485, R505) -/

/-- A started launch, before any crew has been offered. -/
def Launch.fresh (sk : Nat) (words : List W64) (kills : Nat) : Launch :=
  { sk := sk, ctx := ctxOfSlot sk, words := words, nblocks := gridBlocks words, offered := 0, returned := [], crewDie := [],
    ended := [], killReq := none, kills := kills, ticket := 0, round := none }

/-- The round state of a PARTICLE launch at its start: round 0 is to be opened (R503, R505). -/
def RoundState.fresh (words : List W64) : RoundState :=
  { pop := recField words 0xE8 63 56, quorum := bit (recWord words 0xE8) 55, q := recField words 0xE8 51 32,
    maxRound := recField words 0xE8 15 0, unbound := [], sent := [], today := [], arrived := [], members := [], clones := [],
    toOpen := true, extinct := false }

/-- The population registers at the start of a launch; POPFIX is kept (R505). -/
def Pop.restart (p : Pop) : Pop :=
  { p with status := 0, count := 0, arrived := 0, strag := 0, round := 0, maxw := 0, meanw := 0, ess := 0 }

/-- Start a launch under a LAUNCHID (R485, R505). -/
def State.begin (s : State) (sk lid : Nat) (words : List W64) (kills : Nat) : State :=
  let l := Launch.fresh sk words kills
  let put (l : Launch) (s : State) : State := { s with launches := Tbl.put s.launches lid l }
  if flagOf words 48 then
    let r := RoundState.fresh words
    put { l with nblocks := 0, round := some r } (s.modPop r.pop Pop.restart)
  else put l s

/-- The lowest LAUNCHID from 1 that no live launch holds (R485). -/
def State.freeLid (s : State) : Nat :=
  (((List.range (s.launches.length + 1)).map (· + 1)).find? fun i => !Tbl.mem s.launches i).getD 1

/-- A ready slot that has not started, with what ranks it. -/
def LSlot.waits (l : LSlot) : Option (Nat × Nat) :=
  if l.lid.isSome then none else l.readyAt.map fun n => (recField l.words 0x18 55 53, n)

/-- The slot that starts next (R485). -/
def State.nextStart (s : State) : Option Nat :=
  let l := s.slots.filterMap fun p => p.2.waits.map fun r => (p.1, r.1, r.2)
  match l with
  | [] => none
  | x :: xs =>
    let better (y m : Nat × Nat × Nat) : Bool := decide (m.2.1 < y.2.1) || (y.2.1 == m.2.1 && decide (y.2.2 < m.2.2))
    some (xs.foldl (fun m y => if better y m then y else m) x).1

/-- Start the launch of a slot, when it is the next. -/
def State.startLaunch (s : State) (sk : Nat) : Option State :=
  match Tbl.find s.slots sk with
  | none => none
  | some l =>
    if s.nextStart ≠ some sk ∨ !s.frontRuns then none
    else
      let lid := s.freeLid
      some (State.begin { s with slots := Tbl.put s.slots sk { l with lid := some lid } } sk lid l.words 0)

/-- LAUNCH_START (R485). -/
def execLaunchStart (slot : Nat) (s : State) : Host.Outcome State Fault Refusal :=
  onEvent "LAUNCH_START" (s.startLaunch slot)

/-! ### Offering crews (R486) -/

/-- The launch's scope includes the die (R486). -/
def inScope (words : List W64) (die : Nat) : Bool := flagOf words 44 || recField words 0x18 43 42 == die

/-- Offer a crew to a hart that claims it: crews returned by pre-emption first, then in ascending order. A particle's block
goes to its own die (R486, R505). -/
def State.offer (s : State) (lid die : Nat) : Option State :=
  match s.launch lid with
  | none => none
  | some l =>
    if !inScope l.words die || (s.die die).hartFrozen || !s.frontRuns || l.killReq.isSome then none
    else
      let claim (crew : Nat) (f : Launch → Launch) : State :=
        s.modLaunch lid fun l => f { l with crewDie := Tbl.put l.crewDie crew die }
      match l.round with
      | some r =>
        ((l.returned ++ r.unbound.map (·.handle)).find? fun h => bits h 31 30 == die && !Tbl.mem l.crewDie h).map fun h =>
          claim h fun l => { l with returned := l.returned.erase h }
      | none =>
        match l.returned with
        | c :: rest => some (claim c fun l => { l with returned := rest })
        | [] =>
          if l.offered < l.nblocks / crewSizeOf l.words then
            some (claim l.offered fun l => { l with offered := l.offered + 1 })
          else none

/-- CREW_OFFER (R486). -/
def execCrewOffer (lid die : Nat) (s : State) : Host.Outcome State Fault Refusal :=
  onDie die (onEvent "CREW_OFFER" (s.offer lid die))

/-! ### What ends with a wave and with a block (R251, R492) -/

/-- What a wave takes of its core. -/
def Wave.share (w : Wave) (wid : Nat) : Resident :=
  { slot := wid % 32, ctx := w.ctx, v := (w.vbase, w.width * w.vregs * 4 / 512), acc := (w.accbase, w.accs) }

/-- A pre-emption of a block slot has come to nothing: its block has ended, or its records are discarded (R492). -/
def State.clearBusy (s : State) (k : Nat) : State :=
  s.modCore (k / 8) fun c =>
    { c with prBusy := c.prBusy &&& ~~~(1#8 <<< (k % 8)), saveArea := Tbl.del c.saveArea (k % 8) }

/-! ### Completing (R481, R485) -/

/-- A count action: an AADD of CBYTES to CREGION; false where nothing can be counted (R481). -/
def State.countAction (s : State) (ctx rid n : Nat) : State × Bool :=
  let r := s.region rid
  if !r.valid || r.owner != ctx then (s, false)
  else if r.armed then ((s.setRegion rid (r.arrive n)).regionStep rid, true) else (s, true)

/-- Every block of the launch has ended; a PARTICLE launch has no particle left to run (R507, R509). -/
def State.blocksDone (s : State) (lid : Nat) (l : Launch) : Bool :=
  !(s.blocks.any fun b => b.2.lid == lid) && !(s.crews.any fun c => c.2.lid == lid) &&
    !(s.gangs.any fun g => g.lid == lid) && !(s.saves.any fun x => x.2.crew.lid == lid) &&
    match l.round with
    | none => l.ended.length == l.nblocks
    | some r => !r.toOpen && r.unbound.isEmpty && r.sent.isEmpty && r.today.isEmpty && r.clones.isEmpty &&
        (r.extinct || (s.pop r.pop).count == 0)

/-- Every carry of the launch has been applied: no group is staged and no unit of a peer is outstanding (R485, R522). -/
def State.carriesDone (s : State) (lid : Nat) : Bool :=
  !(s.peerOps.any fun p => p.lid == lid) &&
    s.det.all fun d => d.1 / 2 ^ 32 != lid || (d.2.closed.isEmpty && d.2.opened.commits.isEmpty && d.2.opened.reds.isEmpty)

/-- Forget what the package holds for a launch (R398, R412, R527). -/
def State.dropLaunch (s : State) (lid : Nat) : State :=
  let s := s.scopeDropLaunch lid
  { s with launches := Tbl.del s.launches lid, det := Tbl.keep (fun k _ => k / 2 ^ 32 != lid) s.det,
           swaths := Tbl.keep (fun k _ => k / 256 != lid) s.swaths, saves := Tbl.keep (fun _ x => x.crew.lid != lid) s.saves,
           replay := Tbl.keep (fun _ g => g.lid != lid) s.replay }

/-- Complete a launch: the held bytes are released, then its completion action, its edges and its event (R481, R485, R527,
R547). -/
def State.completeLaunch (s : State) (lid : Nat) (l : Launch) : State :=
  let act := recField l.words 0x58 15 14
  let s := s.releaseWhere fun h => h.lid == lid
  let s := { s with replay := Tbl.keep (fun _ g => g.lid != lid) s.replay }
  let (s, counted) :=
    if 2 ≤ act then s.countAction l.ctx (recField l.words 0x58 13 0) (recField l.words 0x58 47 16) else (s, true)
  let s := s.fireEdges l.sk
  let s := if act % 2 = 1 then s.postEvent l.ctx (launchEvent 1 l.sk (ofBool !counted) lid) 0 else s
  (s.dropLaunch lid).retire l.sk false

/-- A launch completes when it can. -/
def State.tryComplete (s : State) (lid : Nat) : Option State :=
  match s.launch lid with
  | none => none
  | some l =>
    if s.blocksDone lid l && s.carriesDone lid && l.killReq.isNone then some (s.completeLaunch lid l) else none

/-- LAUNCH_COMPLETE (R485). -/
def execLaunchComplete (lid : Nat) (s : State) : Host.Outcome State Fault Refusal :=
  onEvent "LAUNCH_COMPLETE" (s.tryComplete lid)

end Sys2Proof.Machine
end

