-- ==== Sys2Proof/Machine/Round.lean ====
section
/-! DEFINITION. Rounds of a PARTICLE launch: opening, arrivals, the exact resampling, its two passes, and particles that
finish (R505 to R513, R539 to R541). -/

namespace Sys2Proof.Machine

/-! ### Rounds -/

/-- Rewrite the round state of a launch. -/
def State.modRound (s : State) (lid : Nat) (f : RoundState → RoundState) : State :=
  s.modLaunch lid fun l => { l with round := l.round.map f }

/-- The round state of a launch. -/
def State.round (s : State) (lid : Nat) : Option RoundState := (s.launch lid).bind (·.round)

/-- A round is open: it may take arrivals. -/
def RoundState.isOpen (r : RoundState) : Bool := !r.toOpen && r.clones.isEmpty

/-- Every RSB finishes its particle: after an extinction, or at the round limit (R509, R512). -/
def State.roundsOver (s : State) (r : RoundState) : Bool :=
  r.extinct || (r.maxRound != 0 && (s.pop r.pop).round == r.maxRound)

/-- The particles that a round launches: ready ones of the population within the launch's scope, ranked by (DIE, REC) (R505). -/
def State.readyParticles (s : State) (words : List W64) (pop : Nat) : List Nat :=
  (s.particles.filter fun p => p.2.st == 1 && p.2.pop == pop && inScope words (p.1 / 65536)).map (·.1)

/-- The handle of a record of a population (R500). -/
def particleHandle (pop key : Nat) : Nat := key / 65536 * 2 ^ 30 + pop * 2 ^ 22 + key % 65536

/-- Open a round (R505, R507). -/
def State.openRound (s : State) (lid : Nat) (l : Launch) (r : RoundState) : State :=
  let keys := s.readyParticles l.words r.pop
  let n := keys.length
  let round := (s.pop r.pop).round
  let s := keys.zipIdx.foldl (fun s p => s.modParticle p.1 fun x => { x with st := 2, index := p.2 }) s
  let handles := keys.map (particleHandle r.pop)
  let s := s.modPop r.pop fun p =>
    { p with count := n + r.members.length, arrived := 0, strag := r.members.length }
  s.modLaunch lid fun l =>
    { l with nblocks := n, ended := [], ticket := 0,
             round := some { r with unbound := r.unbound ++ handles.map (fun h => { handle := h, round := round, nblocks := n }),
                                    arrived := [], members := r.members ++ handles, toOpen := false } }

/-- ROUND_OPEN: when a round is due; in a DET launch after every group has been applied (R505, R522). -/
def State.tryOpen (s : State) (lid : Nat) : Option State :=
  match s.launch lid with
  | none => none
  | some l => match l.round with
    | none => none
    | some r =>
      if r.toOpen && l.killReq.isNone && (!s.isDet lid || s.carriesDone lid) then some (s.openRound lid l r) else none

/-- ROUND_OPEN (R505). -/
def execRoundOpen (lid : Nat) (s : State) : Host.Outcome State Fault Refusal := onEvent "ROUND_OPEN" (s.tryOpen lid)

/-! ### Masses and offspring (R508, R510) -/

/-- The order of FP32 encodings that are no NaN; −0 counts as less than +0, as in the comparisons of arithmetic. -/
def weightRank (x : Nat) : Int := if x < 2 ^ 31 then (x : Int) else -((x - 2 ^ 31 : Nat) : Int) - 1

/-- A weight as it is taken: NaN is −inf (R508). -/
def takenWeight (x : Nat) : Nat := if (fval .f32 x).isNan then 0xFF800000 else x

/-- The greatest weight; −inf for none. -/
def maxWeight (l : List Nat) : Nat := l.foldl (fun m x => if weightRank m < weightRank x then x else m) 0xFF800000

/-- floor(2^(40 + d)) for d = −n·2^e in [−40, 0]: exact for an integer d, else by an enclosure that settles the floor. -/
def floorPow (n : Nat) (e : Int) : Nat :=
  let x : Int := -(n : Int)
  if e ≥ 0 then 2 ^ (40 - n * 2 ^ e.toNat)
  else
    let s := (-e).toNat
    let ip := (40 + x / (2 ^ s : Nat)).toNat
    let fr := (x % (2 ^ s : Nat)).toNat
    if fr = 0 then 2 ^ ip
    else
      let at_ (p : Nat) : Nat × Nat :=
        let (lo, hi) := exp2Frac fr s p
        (lo * 2 ^ ip / 2 ^ p, hi * 2 ^ ip / 2 ^ p)
      match (precisions.map at_).find? fun b => b.1 == b.2 with
      | some b => b.1
      | none => (at_ 632).1

/-- The mass of an arrival (R508). -/
def massOf (m w : Nat) : Nat :=
  if m = 0x7F800000 then if w = 0x7F800000 then 2 ^ 40 else 0
  else if m = 0xFF800000 then 0
  else
    let d := (deliver fmtF32 .rne (addVal .rne (fval .f32 w) (fval .f32 m).neg)).1
    match fval .f32 d with
    | .num _ n _ e => if n = 0 then 2 ^ 40 else if (40 : Nat) * 2 ^ (-e).toNat < n * 2 ^ e.toNat then 0 else floorPow n e
    | _ => 0

/-- F(C) of R510. -/
def offspringAt (n t u c : Nat) : Nat := (n * c * 2 ^ 32 + u * t) / (t * 2 ^ 32)

/-- The offspring counts of masses in rank order (R510). -/
def offspring (n t u : Nat) : Nat → List Nat → List Nat
  | _, [] => []
  | c, m :: ms => (offspringAt n t u (c + m) - offspringAt n t u c) :: offspring n t u (c + m) ms

/-- W̄ (R510). -/
def meanWeight (m t n : Nat) : Nat :=
  if m = 0x7F800000 then 0
  else
    let l := (log2Round fmtF32 .rne t (n * 2 ^ 40) 0).1
    (deliver fmtF32 .rne (addVal .rne (fval .f32 m) (fval .f32 l))).1

/-! ### The two passes (R511) -/

/-- KVF of a particle's sequence, where it names a live one of the owner, and its record becomes free. -/
def State.retireParticle (s : State) (owner key : Nat) : State :=
  let sid := (s.particle key).seq.toNat
  let s := match s.liveSeq owner sid with
    | some q => s.freeSeq sid q
    | none => s
  s.modParticle key fun p => { p with st := 0, done := false }

/-- The lowest free record of a die (R511). -/
def State.freeParticle (s : State) (die : Nat) : Option Nat :=
  (((List.range (s.particles.length + 1)).map fun i => 65536 * die + i).find? fun k => (s.particle k).free).filter fun k =>
    decide (k < 65536 * (die + 1))

/-- The places of 1,024 bytes at an address of a context, or the first address that does not translate. -/
def State.kiloPlaces (s : State) (ctx va : Nat) (need : Need) : Except Nat (List Loc) :=
  (List.range 1024).foldr (fun i acc =>
    match s.resolveNow ctx ((va + i) % 2 ^ 64) need, acc with
    | .ok (.peer _ _ _), _ => .error ((va + i) % 2 ^ 64)
    | .ok l, .ok ls => .ok (l :: ls)
    | .ok _, .error e => .error e
    | _, _ => .error ((va + i) % 2 ^ 64)) (.ok [])

/-- What an attempt at a clone does. -/
inductive CloneDo where
  | made (s : State)
  | stalls
  /-- The copy of the grammar record does not translate. -/
  | page (va : Nat) (write : Bool)
  | stopped (s : State)
deriving DecidableEq, Repr

/-- Put a clone into a free record (R511). -/
def State.putClone (s : State) (pop key parentKey : Nat) (w seq : W32) (g : W64) : State :=
  s.modParticle key fun _ =>
    { w := w, pop := pop, st := 1, done := false, parent := BitVec.ofNat 32 (particleHandle pop parentKey), seq := seq, gstate := g,
      index := 0 }

/-- A clone that finds the replay store full waits, unless that kills its launch (R528). -/
def cloneStarves (s : Option State) : CloneDo :=
  match s with
  | some t => .stopped t
  | none => .stalls

/-- Copy a grammar record at home (R511): a read and a write like any other (R222, R433, R525, R528). -/
def State.copyKilo (s : State) (lid ctx die : Nat) (src dst : List Loc) (body : State → CloneDo) : CloneDo :=
  let s := s.meetHome src
  if (src ++ dst).any fun l => s.openTo (some lid) l then .stopped (s.notice (freezeNotice 2 2 ctx (die * 2 ^ 14) 0))
  else if src.any s.poisoned then .stopped (s.askKill lid cUNCORRECTABLE)
  else if (s.grantOnLines noWave dst).isSome then .stalls
  else if !s.recallRoom src then cloneStarves (s.starveAtStep src)
  else
    let s := s.recallLocs src
    let l := dst.zip (src.map (s.homeByte ctx))
    if !s.replayRoom lid ((devBytes l).map (·.1)) then cloneStarves ((s.starveAtStep dst).orElse fun _ => s.starveStep lid)
    else body ((s.writeDev ctx lid none (devBytes l)).holdBytes lid 0 (hostBytes l))

/-- The sequence of a clone (R511): KVC of the parent's, or none; nothing where the pool cannot give what the clone needs. -/
def State.cloneOf (s : State) (owner sid : Nat) : Option (W32 × State) :=
  match s.liveSeq owner sid with
  | none => some (0xFFFFFFFF, s)
  | some q =>
    if q.pages.any fun x => 65535 ≤ Tbl.get s.refs (refKey (seqPool sid) x) 0 then some (0xFFFFFFFF, s)
    else (s.cloneSeq sid q).map fun r => (BitVec.ofNat 32 r.1, r.2)

/-- Try one clone (R511). -/
def State.tryClone (s : State) (lid : Nat) (l : Launch) (pop : Nat) (j : CloneJob) : CloneDo :=
  let die := j.parent / 65536
  let par := s.particle j.parent
  let w := (s.pop pop).meanw
  match s.freeParticle die with
  | none => .stalls
  | some key =>
    let base := Tbl.get (s.pop pop).gbase die 0
    let dst := base + BitVec.ofNat 64 (1024 * (key % 65536))
    let made (s : State) (g : W64) : CloneDo := match s.cloneOf l.ctx par.seq.toNat with
      | none => .stalls
      | some (id, s) => .made (s.putClone pop key j.parent w id g)
    if base = 0 ∨ par.gstate = 0 ∨ j.failed then made s 0
    else if (s.cloneOf l.ctx par.seq.toNat).isNone then .stalls
    else match s.kiloPlaces l.ctx par.gstate.toNat .read, s.kiloPlaces l.ctx dst.toNat .write with
      | .error va, _ => .page va false
      | _, .error va => .page va true
      | .ok a, .ok b => s.copyKilo lid l.ctx die a b fun s => made s dst

/-- Make the clones that can be made, in order; a clone that stalls holds the later ones of its die (R511). -/
def State.makeClones (lid : Nat) (l : Launch) (pop : Nat) : State → List CloneJob → List Nat → State × List CloneJob
  | s, [], _ => (s, [])
  | s, j :: js, held =>
    let die := j.parent / 65536
    let keep (s : State) (j : CloneJob) : State × List CloneJob :=
      let (s, rest) := State.makeClones lid l pop s js (die :: held)
      (s, j :: rest)
    if held.contains die || j.waiting then keep s j
    else match s.tryClone lid l pop j with
      | .made s => State.makeClones lid l pop s js held
      | .stalls => keep s j
      | .stopped s => keep s { j with waiting := true }
      | .page va w =>
        keep (s.postFault die { ctx := l.ctx, va := va, need := if w then .write else .read, who := [.clone lid] }) { j with waiting := true }

/-- The second pass, or a retry of it: STALL while a clone waits; then a round is due (R511, R513). -/
def State.secondPass (s : State) (lid : Nat) (jobs : List CloneJob) : State :=
  match s.launch lid with
  | none => s
  | some l => match l.round with
    | none => s
    | some r =>
      let (s, left) := State.makeClones lid l r.pop s jobs []
      let s := s.modPop r.pop fun p => { p with status := (p.status &&& 7) ||| (if left.isEmpty then 0 else 8) }
      s.modRound lid fun r => { r with clones := left, toOpen := left.isEmpty }

/-- CLONE_RETRY (R511): the clones that stalled are tried again. -/
def execCloneRetry (lid : Nat) (s : State) : Host.Outcome State Fault Refusal :=
  onEvent "CLONE_RETRY" (match s.round lid with
    | some r => if r.clones.any fun j => !j.waiting then some (s.secondPass lid r.clones) else none
    | none => none)

/-! ### Resampling (R508 to R511, R540) -/

/-- After an extinction: every arrival is retired; nothing is launched and no resampling follows (R509). -/
def State.extinction (s : State) (lid : Nat) (l : Launch) (r : RoundState) (keys : List Nat) (m : Nat) : State :=
  let s := keys.foldl (fun s k => s.retireParticle l.ctx k) s
  let s := s.modPop r.pop fun p =>
    { p with status := p.status ||| 1, round := p.round + 1, maxw := BitVec.ofNat 32 m, meanw := 0xFF800000, ess := 0,
             count := r.members.length, arrived := 0, strag := r.members.length }
  s.modRound lid fun r => { r with extinct := true, arrived := [] }

/-- Numbers in ascending order. -/
def sortNats (l : List Nat) : List Nat := (l.foldl (fun t k => Tbl.put t k ()) []).map (·.1)

/-- Resample the closed round over its arrivals, ranked by (DIE, REC) (R508 to R511). -/
def State.resample (s : State) (lid : Nat) (l : Launch) (r : RoundState) : State :=
  let keys := sortNats (r.arrived.map handleKey)
  let raw := keys.map fun k => (s.particle k).w.toNat
  let ws := raw.map takenWeight
  let nan := raw.any fun x => (fval .f32 x).isNan
  let s := if nan then s.modPop r.pop fun p => { p with status := p.status ||| 2 } else s
  let m := maxWeight ws
  let masses := ws.map (massOf m)
  let t := masses.sum
  let n := keys.length
  if t = 0 then s.extinction lid l r keys m
  else
    let pop := s.pop r.pop
    let fix := pop.popfix.toNat
    let seed := BitVec.ofNat 64 (recWord l.words 0x10)
    let drawn := (thresh seed 0xFFFFFFFF (BitVec.ofNat 32 r.pop) (BitVec.ofNat 32 pop.round) 0).1
    let u := if bit fix 63 then fix % 2 ^ 32 else drawn.toNat
    let counts := offspring n t u 0 masses
    let mean := BitVec.ofNat 32 (meanWeight m t n)
    let ess := (roundNum fmtF32 .rne false false (t * t) (masses.map fun x => x * x).sum 0).1
    let s := s.modPop r.pop fun p =>
      { p with status := p.status ||| (if m = 0x7F800000 then 4 else 0), round := p.round + 1, maxw := BitVec.ofNat 32 m,
               meanw := mean, ess := BitVec.ofNat 32 ess, popfix := p.popfix &&& 0x7FFFFFFFFFFFFFFF }
    let pairs := keys.zip counts
    let s := (pairs.filter fun p => p.2 == 0).foldl (fun s p => s.retireParticle l.ctx p.1) s
    let live := pairs.filter fun p => p.2 != 0
    let s := live.foldl (fun s p => s.modParticle p.1 fun x => { x with w := mean, st := 1 }) s
    let jobs := live.flatMap fun p =>
      List.replicate (p.2 - 1) ({ parent := p.1, waiting := false, failed := false } : CloneJob)
    s.secondPass lid jobs

/-- Close the open round when it has taken its K-th arrival (R507, R539). -/
def State.checkRound (s : State) (lid : Nat) : State :=
  match s.launch lid with
  | none => s
  | some l => match l.round with
    | none => s
    | some r =>
      let n := r.arrived.length
      let count := (s.pop r.pop).count
      let k := if r.quorum then min r.q count else count
      if r.isOpen && !r.extinct && decide (1 ≤ n ∧ k ≤ n) then s.resample lid l r else s

/-! ### Particles that end (R512, R517, R539) -/

/-- A particle finishes: it leaves the open round's COUNT, and K is computed anew (R512, R539). -/
def State.finishParticle (s : State) (lid h : Nat) : State :=
  match s.round lid with
  | none => s
  | some r =>
    let s := s.modParticle (handleKey h) fun p => { p with st := 0, done := true }
    let counted := r.members.contains h
    let s := s.modRound lid fun r => { r with members := r.members.erase h }
    if counted && r.isOpen then (s.modPop r.pop fun p => { p with count := p.count - 1 }).checkRound lid else s

/-- The wave of a particle has ended, by RSB or by EXIT: its arrival is sent, or it finishes (R512, R517). -/
def State.particleEnds (s : State) (lid h : Nat) (rsb : Bool) : State :=
  match s.round lid with
  | none => s
  | some r =>
    if rsb && !s.roundsOver r then
      (s.modParticle (handleKey h) fun p => { p with st := 3 }).modRound lid fun r =>
        { r with today := sortBy (fun x y => decide (handleKey x < handleKey y)) (r.today ++ [h]) }
    else s.finishParticle lid h

/-- The carries of an arrival's block have been applied at home (R517, R521, R551). -/
def State.carried (s : State) (lid h : Nat) : Bool :=
  let d := s.detBlock lid (s.particle (handleKey h)).index
  !(s.peerOps.any fun p => p.lid == lid && p.kind == .unit) &&
    (!s.isDet lid || (d.closed.isEmpty && d.opened.commits.isEmpty && d.opened.reds.isEmpty))

/-- The cycle's arrivals take their places behind the earlier ones (R507). -/
def State.sealArrivals (s : State) : State :=
  if s.launches.all fun l => l.2.round.all fun r => r.today.isEmpty then s
  else
    let late (r : RoundState) : RoundState := { r with sent := r.sent ++ r.today, today := [] }
    { s with launches := Tbl.mapv (fun _ l => { l with round := l.round.map late }) s.launches }

/-- The combiner takes an arrival, while a round is open (R507); one sent before the last round counts as finished. -/
def State.tryArrival (s : State) (lid : Nat) : Option State :=
  match s.round lid with
  | none => none
  | some r =>
    if !r.isOpen then none
    else ((r.sent ++ r.today).find? fun h => s.carried lid h).map fun h =>
      let s := s.modRound lid fun r => { r with sent := r.sent.erase h, today := r.today.erase h }
      if s.roundsOver r then s.finishParticle lid h
      else
        let s := s.modRound lid fun r => { r with arrived := r.arrived ++ [h], members := r.members.erase h }
        (s.modPop r.pop fun p => { p with arrived := p.arrived + 1 }).checkRound lid

/-- PARTICLE_ARRIVAL (R507). -/
def execParticleArrival (lid : Nat) (s : State) : Host.Outcome State Fault Refusal :=
  onEvent "PARTICLE_ARRIVAL" (s.tryArrival lid)

end Sys2Proof.Machine
end

