-- ==== Sys2Proof/Machine/System.lean ====
section
/-! DEFINITION. Barriers, SPAWN, TWIN and DETF, 0xA0 to 0xA4 (R263 to R270, R327 to R329, R377 to R381, R523), and how a
wave is bound (R115, R122). -/

namespace Sys2Proof.Machine

/-! ### Barriers (R264 to R266, R379) -/

/-- Identity of a wave in a barrier, also after a move (R268). -/
def Wave.member (w : Wave) : Nat := 16 * w.blocklin + w.waveIdx

/-- A waiting arrival goes on past its word (R265): BARC performs PUL.crew and passes its release to the shadow (R381). -/
def State.passBarrier (s : State) (wid : Nat) (w : Wave) (wait : Wait) (ofCrew : Bool) : State :=
  match w.frags.find? fun p => p.2.wait == some wait with
  | none => s
  | some (fr, f) =>
    match f.clause with
    | none => s
    | some c =>
      let s := s.modFrag wid fr fun f => f.advanceTo c (f.resume.getD (c.idx + c.sizeAt c.idx))
      let s := if ofCrew then (s.pul wid w 2).pushLvq wid w (lvqItem w [] none) else s
      s.twinStep wid w fr

/-- Release the wave in a slot if it has arrived. -/
def State.passOne (s : State) (wid : Nat) (members : List Nat) (wait : Wait) (ofCrew : Bool) : State :=
  match s.wave wid with
  | none => s
  | some w => if members.contains w.member then s.passBarrier wid w wait ofCrew else s

/-- Release the arrivals of a phase among some waves. -/
def State.passAll (s : State) (ws : List (Nat × Wave)) (members : List Nat) (wait : Wait) (ofCrew : Bool) : State :=
  ws.foldl (fun s p => s.passOne p.1 members wait ofCrew) s

/-- The outcome of an arrival: a mismatch with the latched count, a wait, or the end of the phase (R265). -/
inductive Arrival where
  | mismatch (latched : Nat)
  | waits (b : Barrier)
  | completes (b : Barrier)
deriving DecidableEq, Repr

/-- Arrive at a barrier naming a count (R265). -/
def Barrier.arrive (b : Barrier) (member n : Nat) : Arrival :=
  if b.latched ≠ 0 ∧ b.latched ≠ n then .mismatch b.latched
  else if b.count + 1 < n then
    .waits { b with latched := n, count := b.count + 1, arrived := b.arrived ++ [member] }
  else .completes { Barrier.reset with phase := (b.phase + 1) % 65536 }

/-- BARRIER_MISMATCH on the arriving wave (R265, R379). -/
def barMismatch (e : Env) (info : Nat) : WRes := e.trapNow cBARRIER (BitVec.ofNat 64 info) 0 e.frag.mask

/-- BARB (R327). -/
def execBarb (w : Fields) (s : State) : Host.Outcome State Fault Refusal :=
  onWord w s fun e =>
    let a := e.uni e.w.a.toNat .n32
    let n := e.uni e.w.b.toNat .n32
    let bid := e.wv.bid e.wid
    if 15 < a || n = 0 || 16 < n || !e.wv.whole || e.wv.holdsAny then e.illegal
    else if e.wv.arrayQ.any ArrayOp.drains then .wait e.s .array
    else if e.frag.wait = some (.barb a) then .wait e.s (.barb a)
    else match e.s.block bid with
      | none => .done { s := e.s }
      | some b =>
        let bar := Tbl.get b.bars a Barrier.reset
        let put (x : Barrier) : State := e.s.modBlock bid fun b => { b with bars := Tbl.set Barrier.reset b.bars a x }
        match bar.arrive e.wv.member n with
        | .mismatch l => barMismatch e (a + l * 2 ^ 8 + n * 2 ^ 16)
        | .waits x => .wait (put x) (.barb a)
        | .completes x => .done { s := (put x).passAll (e.s.blockWaves bid) bar.arrived (.barb a) false }

/-- BARC (R378, R379): the shadow's passes with its leader's. -/
def execBarc (w : Fields) (s : State) : Host.Outcome State Fault Refusal :=
  onWord w s fun e =>
    let a := e.uni e.w.a.toNat .n32
    let n := e.uni e.w.b.toNat .n32
    let ck := e.wv.ckey
    if 15 < a || n = 0 || 128 < n || !e.wv.whole || e.wv.holdsAny then e.illegal
    else passed e (fun e =>
      if e.frag.wait = some (.barc a) then .wait e.s (.barc a)
      else match e.s.crew ck with
        | none => .done { s := e.s }
        | some c =>
          let bar := Tbl.get c.bars a Barrier.reset
          let put (x : Barrier) : State := e.s.modCrew ck fun c => { c with bars := Tbl.set Barrier.reset c.bars a x }
          match bar.arrive e.wv.member n with
          | .mismatch l => barMismatch e (a + l * 2 ^ 8 + n * 2 ^ 16 + 2 ^ 30)
          | .waits x => .wait (put x) (.barc a)
          | .completes x =>
            let s := (put x).passAll (e.s.crewWaves e.wv.lid e.wv.crew) bar.arrived (.barc a) true
            .done { s := s.pul e.wid e.wv 2 }) fun e _ => e.s

/-! ### Binding a wave (R115, R122, R126) -/

/-- A twin's state at bind (R332). -/
def TwinWave.fresh : TwinWave := { sig := 0, order := [], atPoint := none, released := false, owed := false, issues := 0 }

/-- What a wave is bound with. -/
structure BindPlan where
  lid : Nat
  ctx : Nat
  bslot : Nat
  waveIdx : Nat
  role : Nat
  width : Nat
  cross : Nat
  vregs : Nat
  accs : Nat
  blocklin : Nat
  crew : Nat
  part : W32
  prio : Nat
  shadow : Bool
  vbase : Nat
  accbase : Nat
  pc : W64
deriving DecidableEq, Repr

/-- A wave just bound: every register 0, k0 all lanes, one fragment in record 0. -/
def Wave.bound (p : BindPlan) : Wave :=
  { lid := p.lid, ctx := p.ctx, bslot := p.bslot, waveIdx := p.waveIdx, role := p.role, width := p.width, cross := p.cross,
    vregs := p.vregs, accs := p.accs, blocklin := p.blocklin, crew := p.crew, part := p.part, prio := p.prio,
    shadow := p.shadow, vbase := p.vbase, accbase := p.accbase, started := true,
    v := [], s := [], k := [], acc := [], tok := 0, fading := 0, promise := [], heldFaults := [],
    frags := [(0, Frag.start (fullMask p.width) p.pc [])],
    tvec := 0, trappc := 0, trapcause := 0, trapinfo := 0, trapaddr := 0, trapfba := 0, traplanes := 0, handler := none,
    heldTraps := [], fpctl := 0, fpflags := 0, pexpuf := 0, xcause := 0, draw := [], spans := [], aborting := none,
    wsb := [], readLog := [], tile := none, maskState := { mode := 0, row0 := 0, col0 := 0, bitmap := [] }, sends := [],
    recvs := [], arrayQ := [], pending := [], frozen := none, twin := TwinWave.fresh, rsb := false, ending := false }

/-! ### SPAWN (R270, R328) -/

/-- The pool reservations whose slots are free. -/
def Block.freePool (b : Block) (s : State) (core : Nat) : List PoolSlot :=
  b.pool.filter fun p => !Tbl.mem s.waves (32 * core + p.slot)

/-- The lowest WAVE indices that no wave of the block holds (R120). -/
def State.freeIndices (s : State) (bid : Nat) : List Nat :=
  let used := (s.blockWaves bid).map fun p => p.2.waveIdx
  (List.range 16).filter fun i => !used.contains i

/-- Bind waves with the given indices in pool slots; `n` counts them from 0. -/
def spawnAll (e : Env) (core : Nat) (b : Block) (pc : W64) (arg : W64) : Nat → List (Nat × PoolSlot) → State → State
  | _, [], s => s
  | n, (x, p) :: rest, s =>
    let plan : BindPlan :=
      { lid := e.wv.lid, ctx := e.wv.ctx, bslot := e.wv.bslot, waveIdx := x, role := 4, width := e.wv.width,
        cross := e.wv.cross, vregs := b.poolV, accs := p.accs, blocklin := e.wv.blocklin, crew := e.wv.crew, part := 0,
        prio := 0, shadow := e.wv.shadow, vbase := p.vbase, accbase := p.accbase, pc := pc }
    let w := { Wave.bound plan with s := Tbl.set 0 (Tbl.set 0 [] 0 arg) 1 (BitVec.ofNat 64 n) }
    spawnAll e core b pc arg (n + 1) rest { s with waves := Tbl.put s.waves (32 * core + p.slot) w }

/-- The mask of some indices. -/
def indexMask (l : List Nat) : Nat := (l.map fun i => 2 ^ i).sum

/-- SPAWN (R328): ILLEGAL in handler mode. The shadow spawns the waves its leader has spawned. -/
def execSpawn (w : Fields) (s : State) : Host.Outcome State Fault Refusal :=
  onWord w s fun e =>
    let bid := e.wv.bid e.wid
    let core := coreOfWave e.wid
    let pc := e.cl.addr + (e.w.f.signExtend 64) * 8
    let arg := BitVec.ofNat 64 (if e.w.b = 0xE0 then 0 else e.uni e.w.b.toNat .b64)
    let put (m : Nat) : List RegWrite := if e.w.d = 0xE0 then [] else e.putS m
    if e.wv.handler.isSome then e.illegal
    else match e.s.block bid with
      | none => .done { s := e.s, ws := put 0 }
      | some b =>
        let free := b.freePool e.s core
        if e.s.twinned e.wv && e.wv.shadow then
          match e.s.peekLvq e.wid e.wv with
          | none => .wait e.s .twin
          | some x =>
            let ids := (List.range 16).filter fun i => x.xcause.getLsbD i
            if free.length < ids.length then .wait e.s .twin
            else
              let s := e.s.popLvq e.wid e.wv x
              .done { s := spawnAll e core b pc arg 0 (ids.zip free) s, ws := put (indexMask ids) }
        else
          let ids := (e.s.freeIndices bid).take (min (e.uni e.w.a.toNat .n32) free.length)
          let s := spawnAll e core b pc arg 0 (ids.zip free) e.s
          let m := indexMask ids
          .done { s := s.pushLvq e.wid e.wv { lvqItem e.wv (put m) none with xcause := BitVec.ofNat 64 m }, ws := put m }

/-! ### TWIN and DETF -/

/-- TWIN.ckpt (R329): a compare point; the checkpoint follows the match (R281). -/
def execTwinCkpt (w : Fields) (s : State) : Host.Outcome State Fault Refusal :=
  onWord w s fun e => atCompare e [] fun e => .done { s := e.s }

/-- TWIN.cmp (R329): a compare point without a checkpoint. -/
def execTwinCmp (w : Fields) (s : State) : Host.Outcome State Fault Refusal :=
  onWord w s fun e => atCompare e [] fun e => .done { s := e.s }

/-- Close a block's open group (R522). -/
def State.closeGroup (s : State) (bid : Nat) (b : Block) : State :=
  let d := s.detBlock b.lid b.blocklin
  let d := { d with closed := d.closed ++ [d.opened], opened := { commits := [], reds := [] } }
  ({ s with det := Tbl.put s.det (detKey b.lid b.blocklin) d }).modBlock bid fun b => { b with detGroups := b.detGroups + 1 }

/-- DETF (R523): with the ticket, the fragment goes on when the group has been applied. -/
def execDetf (w : Fields) (s : State) : Host.Outcome State Fault Refusal :=
  onWord w s fun e =>
    if e.wv.holdsAny then e.illegal
    else if !e.s.isDet e.wv.lid || !e.acts then .done { s := e.s }
    else match e.s.block (e.wv.bid e.wid) with
      | none => .done { s := e.s }
      | some b =>
        .done { s := e.s.closeGroup (e.wv.bid e.wid) b,
                hold := if e.s.holdsTicket b.lid b.blocklin then some .ticket else none }

end Sys2Proof.Machine
end

