-- ==== Sys2Proof/Machine/Ending.lean ====
section
/-! DEFINITION. How a wave, its block and its crew end (R201, R412, R384, R512, R517, R521, R522). -/

namespace Sys2Proof.Machine

/-! ### When a wave may end (R201) -/

/-- Some quarter operation of the wave has not landed. -/
def Core.collects (c : Core) (wid : Nat) : Bool :=
  (c.coll.toList ++ c.closed ++ c.passes.map (·.col)).any fun x => x.members.any fun m => m.1.wid == wid

/-- The wave's lanes have all exited, and its loads, tokens and engine requests are done (R201 step 1). -/
def State.drained (s : State) (wid : Nat) (w : Wave) : Bool :=
  w.started && w.frozen.isNone && w.frags.isEmpty && w.pending.isEmpty && w.tok == 0 && w.sends.isEmpty && w.recvs.isEmpty &&
    !(s.reqs.any fun r => r.wid == wid) && !(s.core (coreOfWave wid)).collects wid

/-- The wave is the last of its block; a pool reservation that was never bound does not count. -/
def State.lastWave (s : State) (bid wid : Nat) : Bool := (s.blockWaves bid).all fun p => p.1 == wid

/-- The block is the last of its crew. -/
def State.lastBlock (s : State) (w : Wave) : Bool :=
  match s.crew w.ckey with
  | some c => c.ended + 1 == c.size
  | none => true

/-- The level up to which the end of a wave moves bytes: block, crew (the block's carry), home (the crew's carry). -/
def State.endLevel (s : State) (wid : Nat) (w : Wave) : Nat :=
  if !s.lastWave (w.bid wid) wid then 1 else if s.lastBlock w then 3 else 2

/-! ### The moves (R201 step 2) -/

/-- The outcome of a move at the end of a wave. -/
inductive EndDo where
  | go (s : State)
  | waits
  | stop (s : State)
deriving DecidableEq, Repr

/-- Go on after a move. -/
def EndDo.andThen (r : EndDo) (f : State → EndDo) : EndDo :=
  match r with
  | .go s => f s
  | r => r

/-- Settle a move: a grant and a full store are waited for (R222, R520, R528), unless no other launch can free the store; an
open line freezes the wave (R525). -/
def endMove (s : State) (q : Who) (r : Except Halt State) : EndDo :=
  match r with
  | .ok s => .go s
  | .error (.grant _) => .waits
  | .error .staging => .waits
  | .error .replay =>
    match s.starveStep q.lid with
    | some t => .stop t
    | none => .waits
  | .error .intrusion => .stop (s.intrude q.wid)

/-- Commit the store buffer to the block; carry the block's buffer, and the crew's, when the last members end. -/
def State.endMoves (s : State) (wid : Nat) (w : Wave) (l : Nat) : EndDo :=
  let q := whoOf w wid 0
  let bid := w.bid wid
  (endMove s q (s.commitUp q bid 1 (wsbBytes w.wsb))).andThen fun s =>
    if l < 2 then .go s
    else (endMove s q (absorb s q bid (s.blockUp q bid))).andThen fun s =>
      if l < 3 then .go s else endMove s q (s.crewHome q false)

/-! ### Freeing (R201, R384, R412, R522) -/

/-- The ticket passes blocks that have ended and whose groups have been applied (R522). -/
def State.ticketOn (lid : Nat) : Nat → State → State
  | 0, s => s
  | n + 1, s =>
    match s.launch lid with
    | none => s
    | some l =>
      let d := s.detBlock lid l.ticket
      if d.ended && d.closed.isEmpty then
        State.ticketOn lid n (s.modLaunch lid fun l => { l with ticket := l.ticket + 1 })
      else s

/-- Move the ticket as far as it goes. -/
def State.moveTicket (s : State) (lid : Nat) : State := State.ticketOn lid (s.det.length + 1) s

/-- The end of a DET block closes its open group (R522). -/
def State.endStream (s : State) (bid : Nat) (b : Block) : State :=
  if !s.isDet b.lid then s
  else
    let s := s.closeGroup bid b
    let d := s.detBlock b.lid b.blocklin
    ({ s with det := Tbl.put s.det (detKey b.lid b.blocklin) { d with ended := true } }).moveTicket b.lid

/-- Drop every L1 copy of a crew's buffer: its key may name another crew later. -/
def State.dropCrewCopies (s : State) (ck : Nat) : State :=
  { s with cores := Tbl.mapv (fun _ c => { c with l1 := Tbl.keep (fun k x => !(x.crew && k / 2 / 2 ^ 58 == ck)) c.l1 }) s.cores }

/-- A crew has ended: its hub and home entries are cleared (R384, R412). -/
def State.endCrew (s : State) (lid crew : Nat) : State :=
  (({ s with crews := Tbl.del s.crews (crewKey lid crew) }).scopeDropCrew lid crew).dropCrewCopies (crewKey lid crew)

/-- The save area of a crew that is being pre-empted passes to a block of it that stays (R493). -/
def State.passArea (s : State) (bid : Nat) (b : Block) : State :=
  match Tbl.find (s.core (bid / 8)).saveArea (bid % 8),
      s.blocks.find? fun x => x.1 != bid && x.2.lid == b.lid && x.2.crew == b.crew && x.2.blocklin != b.blocklin with
  | some a, some (k, _) => s.modCore (k / 8) fun c => { c with saveArea := Tbl.put c.saveArea (k % 8) a }
  | _, _ => s

/-- A block has ended on its leader's side: its shares and its shadow's are free. -/
def State.endBlock (s : State) (bid : Nat) (b : Block) : State :=
  let s := s.endStream bid b
  let shadow := if s.isTwin b.lid then (s.twinBid (twinCore (bid / 8)) b).toList else []
  let s := s.passArea bid b
  let s := (bid :: shadow).foldl State.clearBusy s
  let s := { s with blocks := Tbl.keep (fun k _ => k != bid && !shadow.contains k) s.blocks }
  let s := s.modLaunch b.lid fun l => { l with ended := l.ended ++ [b.blocklin] }
  let s := s.modCrew (crewKey b.lid b.crew) fun c => { c with ended := c.ended + 1 }
  match s.crew (crewKey b.lid b.crew) with
  | some c => if c.ended = c.size then s.endCrew b.lid b.crew else s
  | none => s

/-- Free a wave's slot, its shadow's with it, and what ended with it. -/
def State.freeWave (s : State) (wid : Nat) (w : Wave) (last : Bool) : State :=
  let bid := w.bid wid
  let both := s.bothWaves wid
  let s := (s.releaseGrants wid)
  let keep (s : State) (k : Nat) : State := match s.wave k with
    | some w => if w.role = 4 then s else s.modBlock (w.bid k) fun b => { b with gone := b.gone ++ [w.share k] }
    | none => s
  let s := both.foldl keep s
  let s := { s with waves := Tbl.keep (fun k _ => !both.contains k) s.waves }
  if !last then s
  else
    let s := match s.block bid with
      | some b => s.endBlock bid b
      | none => s
    if s.isParticle w.lid then s.particleEnds w.lid w.part.toNat w.rsb else s

/-! ### WAVE_END -/

/-- The record that stands for a wave's end as a compare point. -/
def endPoint : Nat × W64 × Nat := (99, 0, 0)

/-- The end of a wave of a TWIN launch is a compare point, and a checkpoint follows it (R280, R281). -/
def State.dueAfterEnd (s : State) (w : Wave) (bid : Nat) : State :=
  if s.isTwin w.lid then s.modBlock bid fun b => { b with twin := { b.twin with due := some w.waveIdx } } else s

/-- End a wave now. -/
def State.endNow (s : State) (wid : Nat) (w : Wave) : Option State :=
  let l := s.endLevel wid w
  if (s.grantOfOther wid w 1).isSome then none
  else match s.endMoves wid w l with
    | .go t => some ((t.freeWave wid w (decide (2 ≤ l))).dueAfterEnd w (w.bid wid))
    | .waits => none
    | .stop t => some t

/-- A wave of a TWIN launch reaches its end as a compare point; the leader ends, with its shadow, once that has matched. -/
def State.tryEnd (s : State) (wid : Nat) : Option State :=
  match s.wave wid with
  | none => none
  | some w =>
    if !s.drained wid w then none
    else if !s.twinned w then s.endNow wid w
    else if !w.ending then
      if w.twin.atPoint.isSome || !s.twinTurn wid w 99 || (w.shadow && !(match s.wave (s.leaderOf wid w) with
          | some l => l.twin.order.isEmpty
          | none => false)) then none
      else some (s.modWave wid fun w =>
        { w with ending := true, twin := { w.twin with atPoint := some endPoint, released := false } })
    else if w.shadow || !w.twin.released then none
    else s.endNow wid w

/-- WAVE_END (R201). -/
def execWaveEnd (wid : Nat) (s : State) : Host.Outcome State Fault Refusal :=
  onCore (coreOfWave wid) (onEvent "WAVE_END" (s.tryEnd wid))

end Sys2Proof.Machine
end

