-- ==== Sys2Proof/Machine/Compare.lean ====
section
/-! DEFINITION. TWIN_COMPARE: the comparison of the two sides at a compare point, the checkpoint that follows a match, and
the rollback after a mismatch (R280 to R284, R332, R333, R335, R559). -/

namespace Sys2Proof.Machine

/-! ### When the block is at rest (R559) -/

/-- A request to a peer that a rollback may not cut off: a commit unit, or an atomic, which is performed once (R283). -/
def PeerKind.performs : PeerKind → Bool
  | .unit | .atom _ _ => true
  | _ => false

/-- No fragment of a wave stands inside an atomic some of whose peers have answered. -/
def Wave.betweenAtoms (w : Wave) : Bool :=
  !w.twin.released || match w.twin.atPoint.bind fun p => Tbl.find w.frags p.1 with
    | some f => f.answers.isEmpty
    | none => true

/-- Nothing of the block is on its way: no copy, engine request, commit unit, peer atomic, quarter operation or lazy copy. -/
def State.blockIdle (s : State) (bid : Nat) : Bool :=
  let ids := ((s.bothSides bid).flatMap s.blockWaves).map (·.1)
  !(s.cores.any fun c => c.2.copies.any fun x => ids.contains x.wid) && !(s.reqs.any fun r => ids.contains r.wid) &&
    !(s.peerOps.any fun p => ids.contains p.wid && p.kind.performs) &&
    (ids.all fun i => (s.wave i).all Wave.betweenAtoms) &&
    (ids.all fun i => !(s.core (coreOfWave i)).collects i) &&
    (s.bothSides bid).all fun k => match s.block k with
      | some b => b.lazyWins.all fun v => v.2.inflight.isNone
      | none => true

/-- A fragment stands at a clause boundary, or waits (R559). -/
def Frag.still (f : Frag) (s : State) (wid : Nat) (w : Wave) : Bool :=
  f.clause.isNone || match f.wait with
    | some r => !waitOver s wid w r
    | none => false

/-- A leader wave has stopped for the checkpoint, and its shadow has come to the same place. -/
def State.stoppedFor (s : State) (due : Nat) (wid : Nat) (w : Wave) : Bool :=
  w.twin.order.isEmpty && !w.holdsAny &&
    if w.waveIdx = due then w.twin.atPoint.isNone else w.frags.all fun f => f.2.still s wid w

/-- The checkpoint that is due can be taken. -/
def State.ckptReady (s : State) (bid : Nat) (b : Block) : Bool :=
  match b.twin.due with
  | none => false
  | some d => s.blockIdle bid && (s.blockWaves bid).all fun p => s.stoppedFor d p.1 p.2

/-! ### Checkpoints (R281, R332, R559) -/

/-- A wait that a step elsewhere ends is begun anew by the word that waited. -/
def Frag.rearm (f : Frag) : Frag :=
  let wait := match f.wait with
    | some .walk | some (.peer _) | some (.region _ _ _) => none
    | r => r
  { f with wait := wait, answers := [], awaitAns := none }

/-- A wave as a checkpoint holds it: its compare point is to be reached anew, its signature is zero. -/
def Wave.forCkpt (w : Wave) : Wave :=
  { w with frags := Tbl.mapv (fun _ f => f.rearm) w.frags, ending := false,
           twin := { w.twin with sig := 0, order := [], atPoint := none, released := false, owed := false } }

/-- A wave after a checkpoint: its signature is zero; a compare point that has not matched is reached anew. -/
def Wave.afterCkpt (w : Wave) : Wave :=
  if w.twin.released then { w with twin := { w.twin with sig := 0 } }
  else { w with ending := false, twin := { w.twin with sig := 0, atPoint := none } }

/-- Record one side. -/
def State.recordSide (s : State) (bid : Nat) : State :=
  let ws := s.blockWaves bid
  let s := s.modBlock bid fun b =>
    { b with twin := { b.twin with
      due := none, log := [], replayed := [], atCkpt := 0,
      ckpt := some { scratch := b.scratch, obuf := b.obuf, stand := b.stand, recs := b.recs, bars := b.bars,
                     lazyWins := b.lazyWins, waves := ws.map fun p => (p.1, p.2.forCkpt) } } }
  ws.foldl (fun s p => s.modWave p.1 Wave.afterCkpt) s

/-- Take a checkpoint of a whole block on both sides. -/
def State.checkpoint (s : State) (bid : Nat) : State := (s.bothSides bid).foldl State.recordSide s

/-! ### Rollback (R282, R333, R559) -/

/-- A restored wave and its crew's barriers: a wait whose phase has passed is over, an arrival made since is withdrawn. -/
def State.fixBarriers (s : State) (p : Nat × Wave) : State :=
  (List.range 16).foldl (fun s n =>
    match s.crew p.2.ckey with
    | none => s
    | some c =>
      let bar := Tbl.get c.bars n Barrier.reset
      let here := bar.arrived.contains p.2.member
      let waits := p.2.frags.filter fun f => f.2.wait == some (.barc n)
      if !waits.isEmpty && !here then
        let on (f : Frag) : Frag := match f.clause with
          | some c => f.advanceTo c (f.resume.getD (c.idx + c.sizeAt c.idx))
          | none => f
        (s.bothWaves p.1).foldl (fun s k => waits.foldl (fun s f => s.modFrag k f.1 on) s) s
      else if waits.isEmpty && here then
        let out : Barrier := { bar with count := bar.count - 1, arrived := bar.arrived.erase p.2.member,
                                        latched := if bar.count = 1 then 0 else bar.latched }
        s.modCrew p.2.ckey fun c => { c with bars := Tbl.set Barrier.reset c.bars n out }
      else s) s

/-- A DETF whose group has been applied since waits no more (R523). -/
def Frag.fixTicket (f : Frag) (applied : Bool) : Frag :=
  if applied && f.wait == some .ticket then { f with wait := none } else f

/-- The peer reads of waves that go back: an answer still under way is dropped, and the load reads again (R333). -/
def State.dropReads (s : State) (wids : List Nat) : State :=
  { s with peerOps := s.peerOps.map fun p => if p.kind = .read && wids.contains p.wid then { p with kind := .stale } else p }

/-- Return one side to its checkpoint; the store buffers are discarded (R282). -/
def State.restoreSide (s : State) (bid : Nat) : State :=
  match s.block bid with
  | none => s
  | some b => match b.twin.ckpt with
    | none => s
    | some c =>
      let now := (s.blockWaves bid).map (·.1)
      let s := (now.foldl State.releaseGrants s).dropReads now
      let applied := (s.detBlock b.lid b.blocklin).closed.isEmpty
      let waves := Tbl.keep (fun k _ => !now.contains k) s.waves
      let back (w : Wave) : Wave := { w with wsb := [], frags := Tbl.mapv (fun _ f => f.fixTicket applied) w.frags }
      let waves := c.waves.foldl (fun t p => Tbl.put t p.1 (back p.2)) waves
      let s := { s with waves := waves, picked := s.picked.filter fun x => !now.contains x.1 }
      s.modBlock bid fun b =>
        { b with scratch := c.scratch, obuf := c.obuf, stand := c.stand, recs := c.recs, bars := c.bars,
                 lazyWins := c.lazyWins, twin := { b.twin with lvq := [], replayed := [], due := none } }

/-- Return both sides to the last checkpoint. -/
def State.rollback (s : State) (bid : Nat) : State :=
  let s := (s.bothSides bid).foldl State.restoreSide s
  (s.blockWaves bid).foldl State.fixBarriers s

/-- A mismatch: it is counted; the third at one checkpoint is UNCORRECTABLE, any other rolls back (R282, R285). -/
def State.mismatch (s : State) (wid bid : Nat) : State :=
  let third := match s.block bid with
    | some b => b.twin.atCkpt == 2
    | none => false
  let count (t : TwinBlock) : TwinBlock := { t with mismatches := min 0xFFFF (t.mismatches + 1) }
  let retry (t : TwinBlock) : TwinBlock := { t with retries := min 0xFFFF (t.retries + 1), atCkpt := t.atCkpt + 1 }
  let s := s.modBlock bid fun b => { b with twin := count b.twin }
  if third then s.uncorrectable wid
  else (s.modBlock bid fun b => { b with twin := retry b.twin }).rollback bid

/-! ### The comparison -/

/-- The shadow `x` cannot take the next step that its leader `w` took, or stands at another compare point: the two sides run
different words. -/
def strays (w x : Wave) : Bool :=
  let at_ (r : Nat) : Option Frag := Tbl.find x.frags r
  let noClause (r : Nat) : Bool := match at_ r with
    | some f => f.clause.isNone
    | none => true
  let noStart (r : Nat) : Bool := match at_ r with
    | some f => f.clause.isSome || f.parked.isSome
    | none => true
  let noBranch (r : Nat) : Bool := match at_ r with
    | some f => f.diverge.isNone
    | none => true
  let noHeld (r : Nat) : Bool := match at_ r with
    | some f => f.held.isNone
    | none => true
  (x.frozen.isSome && w.frozen.isNone) || (x.twin.atPoint.isSome && !x.twin.released && x.twin.atPoint != w.twin.atPoint) ||
    match w.twin.order with
    | c :: _ =>
      if c < 100 then noClause c
      else if c = 100 then x.pending.all fun p => p.trap.isNone
      else if c < 300 then false
      else if c < 400 then noStart (c - 300)
      else if c < 500 then noBranch (c - 400)
      else noHeld (c - 500)
    | [] => match w.twin.atPoint with
      | some p => !w.twin.released && if p.1 = 99 then !x.frags.isEmpty else noClause p.1
      | none => false

/-- The two sides stand at one compare point that has not matched. -/
def bothWait (w x : Wave) : Bool :=
  w.twin.order.isEmpty && w.twin.atPoint.isSome && w.twin.atPoint == x.twin.atPoint && !w.twin.released && !x.twin.released

/-- No checkpoint follows a match here: ATOM, RED and TWIN.cmp (R281, R329). -/
def noCkpt (w : Wave) : Bool :=
  match w.twin.atPoint.bind fun p => (Tbl.find w.frags p.1).bind (·.clause) with
  | some c => match inspect w.allot c with
    | .ok (.atom _) | .ok (.red _) | .ok (.twinCmp _) => true
    | _ => false
  | none => false

/-- A match releases the word on both sides (R281). -/
def State.release (s : State) (wid sid : Nat) (w : Wave) : State :=
  let free (w : Wave) (owed : Bool) : Wave := { w with twin := { w.twin with released := true, owed := owed } }
  (s.modWave wid fun x => free x (!noCkpt w)).modWave sid fun x => free x false

/-- What TWIN_COMPARE does for a leader wave: the checkpoint that is due, or the comparison. -/
def State.compareNow (s : State) (wid : Nat) : Option State :=
  match s.wave wid with
  | none => none
  | some w =>
    let bid := w.bid wid
    match s.block bid, s.twinWid wid w with
    | some b, some sid =>
      match s.wave sid with
      | none => none
      | some x =>
        if !s.twinned w || w.shadow || w.frozen.isSome then none
        else if s.ckptReady bid b then some (s.checkpoint bid)
        else if strays w x then if s.blockIdle bid then some (s.mismatch wid bid) else none
        else if b.twin.due.isSome && !w.holdsAny then none
        else if !bothWait w x then none
        else if w.twin.sig = x.twin.sig then some (s.release wid sid w)
        else if s.blockIdle bid then some (s.mismatch wid bid) else none
    | _, _ => none

/-- TWIN_COMPARE (R280). -/
def execTwinCompare (wid : Nat) (s : State) : Host.Outcome State Fault Refusal :=
  onCore (coreOfWave wid) (onEvent "TWIN_COMPARE" (s.compareNow wid))

end Sys2Proof.Machine
end

