-- ==== Sys2Proof/Machine/Grammar.lean ====
section
/-! DEFINITION. The grammar engine: GMK and GSTP, 0xB5 and 0xB6 (R463 to R467). -/

namespace Sys2Proof.Machine

/-! ### Tables and records (R463, R464) -/

/-- A grammar descriptor. -/
structure Grammar where
  pairs : Nat
  trans : Nat
  nstate : Nat
  nsym : Nat
  vocab : Nat
deriving DecidableEq, Repr

/-- A descriptor's 64 bytes; none where they break a limit (R463). -/
def grammarOf (raw : Bytes) : Option Grammar :=
  let q (o n : Nat) : Nat := ofLE ((raw.drop o).take n)
  let g : Grammar := { pairs := q 0 8, trans := q 8 8, nstate := q 0x10 4, nsym := q 0x14 4, vocab := q 0x18 4 }
  if g.pairs % 16 = 0 && g.trans % 8 = 0 && decide (1 ≤ g.nstate ∧ g.nstate ≤ 2 ^ 24) &&
      decide (1 ≤ g.nsym ∧ g.nsym ≤ 65536) && decide (32 ≤ g.vocab ∧ g.vocab ≤ 524288) && g.vocab % 32 = 0 && q 0x1C 36 = 0
  then some g else none

/-- Bytes of a record that are read. -/
def autoBytes : Nat := 0x210

/-- An automaton's record (R464). -/
structure Automaton where
  state : Nat
  depth : Nat
  status : Nat
  reason : Nat
  reserved : Nat
  stack : List Nat
deriving DecidableEq, Repr

/-- A record's bytes. -/
def automatonOf (raw : Bytes) : Automaton :=
  let q (o n : Nat) : Nat := ofLE ((raw.drop o).take n)
  { state := q 0 4, depth := q 4 2, status := q 6 1, reason := q 7 1, reserved := q 8 8,
    stack := (List.range 256).map fun d => q (0x10 + 2 * d) 2 }

/-- The top symbol. -/
def Automaton.top (a : Automaton) : Nat := if a.depth = 0 then 0 else a.stack.getD (a.depth - 1) 0

/-- Invalid(rec) of R466. -/
def Automaton.invalid (a : Automaton) (g : Grammar) : Bool :=
  decide (g.nstate ≤ a.state) || decide (256 < a.depth) || decide (g.nsym ≤ a.top) || a.reserved != 0

/-- Address of a pair entry. -/
def Grammar.pairAt (g : Grammar) (a : Automaton) : Nat := (g.pairs + 16 * (a.state * g.nsym + a.top)) % 2 ^ 64

/-- The result words of a record: STATE, and STATUS, REASON and DEPTH (R466). -/
def Automaton.words (a : Automaton) : Nat := a.state + (a.status + a.reason * 2 ^ 8 + a.depth * 2 ^ 16) * 2 ^ 32

/-- The record's first 8 bytes. -/
def Automaton.headBytes (a : Automaton) : Bytes := leBytes 4 a.state ++ leBytes 2 a.depth ++ leBytes 1 a.status ++ leBytes 1 a.reason

/-- A record in ERROR. -/
def Automaton.err (a : Automaton) (n : Nat) : Automaton := { a with status := 2, reason := n }

/-- A transition's word. -/
def tToken (x : Nat) : Nat := bits x 63 44
def tAct (x : Nat) : Nat := bits x 43 42
def tSym (x : Nat) : Nat := bits x 39 24
def tNext (x : Nat) : Nat := bits x 23 0

/-- Malformed(e) of R466. -/
def Grammar.malformed (g : Grammar) (x : Nat) : Bool :=
  bit x 41 || decide (g.nstate ≤ tNext x) || ((tAct x == 1 || tAct x == 3) && decide (g.nsym ≤ tSym x))

/-- Take a transition: the record after it, and the stack entry it wrote, if any (R466). -/
def Automaton.take (a : Automaton) (g : Grammar) (x : Nat) : Automaton × Option Nat :=
  if g.malformed x then (a.err 5, none)
  else if tAct x = 1 ∧ a.depth = 256 then (a.err 2, none)
  else if 2 ≤ tAct x ∧ a.depth = 0 then (a.err 3, none)
  else
    let go := { a with state := tNext x, status := if bit x 40 then 1 else a.status }
    match tAct x with
    | 1 => ({ go with depth := a.depth + 1, stack := a.stack.set a.depth (tSym x) }, some a.depth)
    | 2 => ({ go with depth := a.depth - 1 }, none)
    | 3 => ({ go with stack := a.stack.set (a.depth - 1) (tSym x) }, some (a.depth - 1))
    | _ => (go, none)

/-! ### GMK -/

/-- Where the descriptor can be read and is well formed at issue, its VOCAB. -/
def vocabNow (e : Env) (desc : Nat) : Option Nat :=
  match e.s.resolveNow e.wv.ctx desc .read with
  | .ok (.peer _ _ _) => none
  | .ok l =>
    if desc % 64 ≠ 0 then none
    else (grammarOf ((List.range 64).map fun i => e.s.homeByte e.wv.ctx (locPlus l i))).map (·.vocab)
  | _ => none

/-- GMK (R465, R466). The scratchpad operands are checked at issue. -/
def execGmk (w : Fields) (s : State) : Host.Outcome State Fault Refusal :=
  onWord w s fun e =>
    if e.lanes.isEmpty then .done { s := e.s }
    else if e.wv.tokSet e.token then .wait e.s (.token e.token)
    else
      let o := e.uni e.w.d.toNat .b64
      let desc := e.uni e.w.a.toNat .b64
      let c := e.uni e.w.c.toNat .n32
      let rec_ (i : Nat) : Nat := e.b .b64 i
      let vocab := vocabNow e desc
      let need := match vocab with
        | some v => v / 8
        | none => 0
      match [(o, 4), (c, 4)].find? fun p => p.1 % p.2 != 0 with
      | some p => e.trapNow cALIGN 0 (BitVec.ofNat 64 p.1) e.act
      | none =>
        if c < need then e.trapNow cALIGN 0 (BitVec.ofNat 64 c) e.act
        else
          let bad := e.lanes.filterMap fun i =>
            if rec_ i % 1024 ≠ 0 then some ({ lane := i, cause := cALIGN, info := 0, va := rec_ i } : LaneFault)
            else if o + i * c + need > spaceSize e 1 then
              some { lane := i, cause := cPROT, info := 1, va := o + i * c }
            else none
          let ok := e.lanes.filter fun i => !bad.any fun x => x.lane == i
          if ok.isEmpty then .done { s := e.s, fault := laneTrap bad }
          else
            engineOp e [grammarEngine (coreOfWave e.wid)] (some e.token) []
              (leBytes 8 o ++ leBytes 8 desc ++ leBytes 4 c ++ e.lanes.flatMap fun i => leBytes 8 (rec_ i))
              (.gmk o desc c (ok.map fun i => (i, rec_ i))) (laneTrap bad)

/-- The mask of one lane (R466): its bytes. -/
def gmkLane (s : State) (r : EngReq) (g : Grammar) (va : Nat) (body : State → Bytes → Perf) : Perf :=
  let fail (s : State) (c v : Nat) : Perf := .held s c 0 v
  readAt s r va autoBytes (fail s) fun s raw =>
    let a := automatonOf raw
    if a.status ≠ 0 || a.invalid g then body s (List.replicate (g.vocab / 8) 0)
    else
      readAt s r (g.pairAt a) 16 (fail s) fun s p =>
        let mask := ofLE (p.take 8)
        if mask % 4 ≠ 0 then .held s cPROT 2 (g.pairAt a) else readAt s r mask (g.vocab / 8) (fail s) body

/-- The masks of the lanes in order; a fault ends the request, and the areas written stay (R465). -/
def gmkRun (r : EngReq) (g : Grammar) (off pitch bid : Nat) : State → List (Nat × Nat) → Perf
  | s, [] => .lands s [] none
  | s, (i, va) :: rest =>
    gmkLane s r g va fun s l =>
      if off + i * pitch + g.vocab / 8 > (match s.block bid with | some b => b.scratchSize | none => 0) then
        .held s cPROT 1 (off + i * pitch)
      else gmkRun r g off pitch bid (s.putFor r bid (off + i * pitch) l) rest

/-- Perform GMK. A pitch below VOCAB/8 is found here where the descriptor could not be read at issue (R466). -/
def gmkPerf (s : State) (r : EngReq) : Perf :=
  match r.op with
  | .gmk off desc pitch items =>
    if desc % 64 ≠ 0 then .held s cPROT 2 desc
    else readAt s r desc 64 (fun c v => .held s c 0 v) fun s raw =>
      match grammarOf raw with
      | none => .held s cPROT 2 desc
      | some g =>
        if pitch < g.vocab / 8 then .held s cALIGN 0 pitch
        else touch s r (items.map fun p => (off + p.1 * pitch, g.vocab / 8)) fun bid _ => gmkRun r g off pitch bid s items
  | _ => .waits

/-! ### GSTP -/

/-- GSTP (R465, R466). -/
def execGstp (w : Fields) (s : State) : Host.Outcome State Fault Refusal :=
  onWord w s fun e =>
    if e.lanes.isEmpty then .done { s := e.s }
    else
      let d := e.w.d.toNat
      let desc := e.uni e.w.a.toNat .b64
      let va (i : Nat) : Nat := e.b .b64 i
      let bad := e.lanes.filterMap fun i =>
        if va i % 1024 ≠ 0 then some ({ lane := i, cause := cALIGN, info := 0, va := va i } : LaneFault)
        else if e.lanes.any fun j => j != i && va j == va i then
          some { lane := i, cause := cSAMEADDR, info := 0, va := va i }
        else none
      let ok := e.lanes.filter fun i => !bad.any fun x => x.lane == i
      if ok.isEmpty then .done { s := e.s, fault := laneTrap bad }
      else
        engineOp e [grammarEngine (coreOfWave e.wid)] none (vregsAt d 2)
          (leBytes 8 desc ++ foldLanes e [va, e.c .n32])
          (.gstp desc (ok.map fun i => (i, va i, e.c .n32 i)) d (e.fbit 0)) (laneTrap bad)

/-- The outcome of one lane of GSTP. -/
inductive StepLane where
  | ok (s : State) (a : Automaton) (entered : Bool)
  | bad (cause info va : Nat)
  | perf (p : Perf)
deriving DecidableEq, Repr

/-- Read for a lane of GSTP: a failing page is the lane's fault. -/
def stepRead (s : State) (r : EngReq) (va n : Nat) (body : State → Bytes → StepLane) : StepLane :=
  match placesOf s r .read va n with
  | .page v => .perf (.page v false)
  | .bad c v => .bad c 0 v
  | .ok ls =>
    match engineHome s r ls with
    | .error p => .perf p
    | .ok s => body s (ls.map (s.homeByte r.ctx))

/-- The fixed binary search of R466. -/
def stepSearch (r : EngReq) (g : Grammar) (t : Nat) (body : State → Nat → StepLane) : Nat → State → Nat → Nat → StepLane
  | 0, s, lo, _ => body s lo
  | n + 1, s, lo, hi =>
    if hi ≤ lo then body s lo
    else
      let m := (lo + hi) / 2
      stepRead s r ((g.trans + 8 * m) % 2 ^ 64) 8 fun s raw =>
        if tToken (ofLE raw) < t then stepSearch r g t body n s (m + 1) hi else stepSearch r g t body n s lo m

/-- Write a lane's record at home: the bytes that the step has changed (R466). -/
def stepWrite (s : State) (r : EngReq) (va : Nat) (a : Automaton) (entry : Option Nat) (entered : Bool) : StepLane :=
  let put (s : State) (va : Nat) (l : Bytes) (body : State → StepLane) : StepLane :=
    match placesOf s r .write va l.length with
    | .page v => .perf (.page v true)
    | .bad c v => .bad c 1 v
    | .ok _ => match writeAt s r va l (fun _ _ => .waits) fun s => .lands s [] none with
      | .lands s _ _ => body s
      | p => .perf p
  put s va a.headBytes fun s =>
    match entry with
    | some n => put s (va + 0x10 + 2 * n) (leBytes 2 (a.stack.getD n 0)) fun s => .ok s a entered
    | none => .ok s a entered

/-- One lane of GSTP (R466). -/
def stepLane (s : State) (r : EngReq) (g : Grammar) (va t : Nat) : StepLane :=
  stepRead s r va autoBytes fun s raw =>
    let a := automatonOf raw
    if a.status ≠ 0 then .ok s a false
    else if a.invalid g then stepWrite s r va (a.err 4) none true
    else
      stepRead s r (g.pairAt a) 16 fun s p =>
        let first := ofLE ((p.drop 8).take 4)
        let last := first + ofLE ((p.drop 12).take 4)
        stepSearch r g t (fun s lo =>
          if g.vocab ≤ t || lo == last then stepWrite s r va (a.err 1) none true
          else
            stepRead s r ((g.trans + 8 * lo) % 2 ^ 64) 8 fun s raw =>
              let x := ofLE raw
              if tToken x ≠ t then stepWrite s r va (a.err 1) none true
              else
                let (b, entry) := a.take g x
                stepWrite s r va b entry (b.status == 2)) 33 s first last

/-- The lanes of GSTP in order (R465, R467): `one` steps the record at an address by a token. -/
def stepRun (one : State → Nat → Nat → StepLane) (d : Nat) (trp : Bool) :
    State → List (Nat × Nat × Nat) → List RegWrite → List LaneFault → List (Nat × Nat) → Perf
  | s, [], ws, bad, errs =>
    let report := if trp && !errs.isEmpty then
        some (reportRec cGRAMMAR (BitVec.ofNat 64 ((errs.map (·.2)).tail.foldl min (errs.headD (0, 0)).2)) (maskOf (errs.map (·.1))))
      else none
    .lands s ws ((laneTrap bad).orElse fun _ => report)
  | s, (i, va, t) :: rest, ws, bad, errs =>
    match one s va t with
    | .ok s a entered =>
      stepRun one d trp s rest (ws ++ putAt d .b64 i a.words) bad (if entered then errs ++ [(i, a.reason)] else errs)
    | .bad c info v => stepRun one d trp s rest ws (bad ++ [{ lane := i, cause := c, info := info, va := v }]) errs
    | .perf p => p

/-- Perform GSTP: nothing is written before every page is known. -/
def gstpPerf (s : State) (r : EngReq) : Perf :=
  match r.op with
  | .gstp desc items d trp =>
    let all (s : State) (c info va : Nat) : Perf :=
      .lands s [] (some (faultRec c (BitVec.ofNat 64 info) (BitVec.ofNat 64 va) (maskOf (items.map (·.1)))))
    if desc % 64 ≠ 0 then all s cPROT 2 desc
    else readAt s r desc 64 (all s · 0) fun s raw =>
      match grammarOf raw with
      | none => all s cPROT 2 desc
      | some g => stepRun (fun s va t => stepLane s r g va t) d trp s items [] [] []
  | _ => .waits

end Sys2Proof.Machine
end

