-- ==== Sys2Proof/Machine/Sample.lean ====
section
/-! DEFINITION. SMPL, 0xB7 (R468 to R471), and the soft maxima MAXE and PEXP, 0x66 and 0x65 (R73 to R75, R472 to R474). -/

namespace Sys2Proof.Machine

/-! ### Drawing one token (R469, R470) -/

/-- RandBits(i, t) of R470: the wave's key and identity words, the lane's draw count, the token. -/
def randBits (key : W64) (lid c1 : W32) (wave lane : Nat) (draw : W32) (t : Nat) : Nat :=
  let (x0, x1, x2, x3) := thresh key lid c1 (BitVec.ofNat 32 (2 ^ 31 + t / 4 * 2 ^ 14 + wave * 1024 + lane)) draw
  let x := match t % 4 with
    | 0 => x0
    | 1 => x1
    | 2 => x2
    | _ => x3
  x.toNat / 256

/-- The Gumbel value of 24 bits: −FLOG2 of −log2 u rounded once to FP32, u = (2b + 1) · 2^-25 (R469). -/
def gumbel (b : Nat) : Val :=
  let v := (log2Round fmtF32 .rne (2 * b + 1) 1 (-25)).1 % 2 ^ 31
  (fval .f32 (flog2 fmtF32 .rne (fval .f32 v)).1).neg

/-- The running choice of a lane: token, +inf flag and value of the best key, and NANSEEN. -/
structure Pick where
  best : Option (Nat × Bool × Val)
  nan : Bool
deriving DecidableEq, Repr

/-- A key comes strictly after the best one so far (R469). -/
def keyAbove (flag : Bool) (x : Val) : Option (Nat × Bool × Val) → Bool
  | none => true
  | some (_, f, y) => (flag && !f) || (flag == f && decide (cmpVal x y > 0))

/-- One legal token of a lane (R469): its score's encoding and its bits. -/
def Pick.step (p : Pick) (t score : Nat) (b : Nat) : Pick :=
  match fval .f32 score with
  | .nan _ => { p with nan := true }
  | .inf true => p
  | .inf false => if keyAbove true (gumbel b) p.best then { p with best := some (t, true, gumbel b) } else p
  | x =>
    let y := fval .f32 (deliver fmtF32 .rne (addVal .rne x (gumbel b))).1
    if keyAbove false y p.best then { p with best := some (t, false, y) } else p

/-- The parameter block (R468). -/
structure SampleBlock where
  soff : Nat
  spitch : Nat
  moff : Nat
  mpitch : Nat
  nv : Nat
  boff : Nat
  bpitch : Nat
  reserved : Nat
deriving DecidableEq, Repr

/-- A block's 32 bytes. -/
def sampleBlock (raw : Bytes) : SampleBlock :=
  let q (o : Nat) : Nat := ofLE ((raw.drop o).take 4)
  { soff := q 0, spitch := q 4, moff := q 8, mpitch := q 0xC, nv := q 0x10, boff := q 0x14, bpitch := q 0x18,
    reserved := q 0x1C }

/-- The arrays of a lane: offset and bytes. -/
def SampleBlock.arrays (p : SampleBlock) (given : Bool) (lane : Nat) : List (Nat × Nat) :=
  [(p.soff + lane * p.spitch, 4 * p.nv), (p.moff + lane * p.mpitch, ceilDiv p.nv 8)] ++
    (if given then [(p.boff + lane * p.bpitch, 4 * p.nv)] else [])

/-- The choice of one lane from its arrays: scores, mask, and the bits of each token (R469). -/
def pickToken (nv : Nat) (scores mask : Bytes) (rand : Nat → Nat) : Pick :=
  (List.range nv).foldl (fun p t =>
    if bit (mask.getD (t / 8) 0).toNat (t % 8) then p.step t (ofLE ((scores.drop (4 * t)).take 4)) (rand t) else p)
    { best := none, nan := false }

/-- Token and status of a choice (R469). -/
def Pick.result (p : Pick) (kill : Bool) : Nat × Nat :=
  let st := 2 * ofBool p.nan
  match p.best with
  | some (t, f, _) => (t, st + 4 * ofBool f)
  | none => (0xFFFFFFFF, st + 1 + 8 * ofBool kill)

/-- The choice of a lane with the bits it uses. -/
def laneToken (s : State) (r : EngReq) (bid : Nat) (p : SampleBlock) (given : Bool) (lane : Nat) (draw : W32) : Pick :=
  let at_ (k : Nat) : Bytes := match (p.arrays given lane)[k]? with
    | some (o, n) => scratchBytes s bid o n
    | none => []
  let bits_ := at_ 2
  let rand (t : Nat) : Nat :=
    if given then ofLE ((bits_.drop (4 * t)).take 4) % 2 ^ 24
    else match s.wave r.wid with
      | none => 0
      | some w =>
        let (key, c1) := drawKey s r.wid w
        randBits key (BitVec.ofNat 32 w.lid) c1 w.waveIdx lane draw t
  pickToken p.nv (at_ 0) (at_ 1) rand

/-- The trap of lanes whose arrays leave the share and of lanes with a bad handle: the lowest cause, every failing lane (R236). -/
def smplTrap (outs : List LaneFault) (bad : List (Nat × Nat × Nat)) : Option TrapRec :=
  match laneTrap outs with
  | some t => some { t with lanes := t.lanes ||| maskOf (bad.map (·.1)) }
  | none => reasonTrap cPOP bad

/-- The lanes in ascending order: a kill with a bad handle fails its lane (R469, R515). -/
def smplRun (r : EngReq) (bid : Nat) (p : SampleBlock) (d : Nat) (given kill : Bool) (outs : List LaneFault) :
    State → List (Nat × Nat × Nat) → List RegWrite → List (Nat × Nat × Nat) → Perf
  | s, [], ws, bad => .lands s ws (smplTrap outs bad)
  | s, (i, h, draw) :: rest, ws, bad =>
    let k := laneToken s r bid p given i (BitVec.ofNat 32 draw)
    let (t, st) := k.result kill
    let out := ws ++ [.v d i (BitVec.ofNat 32 t), .v (d + 1) i (BitVec.ofNat 32 st)]
    if kill && k.best.isNone then
      match s.handleBad r.lid h true with
      | some n => smplRun r bid p d given kill outs s rest ws (bad ++ [(i, n, h)])
      | none => smplRun r bid p d given kill outs (s.setWeight h 0xFF800000) rest out bad
    else smplRun r bid p d given kill outs s rest out bad

/-- Perform SMPL: the block's checks, then the lanes (R445, R468). -/
def smplPerf (s : State) (r : EngReq) : Perf :=
  match r.op with
  | .smpl off d items given kill =>
    let all (s : State) (c info addr : Nat) : Perf :=
      .lands s [] (some (faultRec c (BitVec.ofNat 64 info) (BitVec.ofNat 64 addr) (maskOf (items.map (·.1)))))
    let share := match s.reqBlock r with
      | some (_, b) => b.scratchSize
      | none => 0
    if off + 32 > share then all s cPROT 2 off
    else touch s r [(off, 32)] fun bid _ =>
      let p := sampleBlock (scratchBytes s bid off 32)
      match [p.soff, p.spitch, p.boff, p.bpitch].find? fun x => x % 4 != 0 with
      | some x => all s cALIGN 0 x
      | none =>
        if p.nv = 0 ∨ 524288 < p.nv ∨ p.reserved ≠ 0 then all s cPROT 2 off
        else
          let past (i : Nat) : Option LaneFault :=
            ((p.arrays given i).find? fun a => decide (a.1 + a.2 > share)).map fun a =>
              { lane := i, cause := cPROT, info := 2, va := a.1 }
          let outs := items.filterMap fun x => past x.1
          let items := items.filter fun x => (past x.1).isNone
          touch s r (items.flatMap fun x => p.arrays given x.1) fun bid _ => smplRun r bid p d given kill outs s items [] []
  | _ => .waits

/-- SMPL (R468, R469): it waits while an earlier SMPL of the wave has still to count its draws, and for the earlier kills of
its fragment. -/
def execSmpl (w : Fields) (s : State) : Host.Outcome State Fault Refusal :=
  onWord w s fun e =>
    let a := e.uni e.w.a.toNat .b64
    let d := e.w.d.toNat
    let given := e.fbit 0
    let kill := e.fbit 1
    if kill && !e.s.isParticle e.wv.lid then e.illegal
    else if e.lanes.isEmpty then .done { s := e.s }
    else if a % 16 ≠ 0 then e.trapNow cALIGN 0 (BitVec.ofNat 64 a) e.act
    else if !given && e.s.drawing e.wid then .wait e.s .allResults
    else
      let handle (i : Nat) : Nat := if kill then e.c .n32 i else 0
      let items := e.lanes.map fun i => (i, handle i, (Tbl.get e.wv.draw i 0).toNat)
      engineOp e [grammarEngine (coreOfWave e.wid)] none (vregsAt d 2) (leBytes 8 a ++ foldLanes e [handle])
        (.smpl a d items given kill) none

/-! ### MAXE and PEXP (R472 to R474) -/

/-- The codes that an exponent reserves for −inf and +inf (R472). -/
def expNegInf : Nat := 0x80000000
def expPosInf : Nat := 0x7FFFFFFF

/-- x · c with c = 0x3FB8AA3B, exact (R73). -/
def scaledScore (x : Val) : Val := mulNum x (fval .f32 0x3FB8AA3B)

/-- MAXE (R473): the exponent of a score, folded into a prior one. -/
def maxeVal (a b : Nat) : Nat × FFlags :=
  let x := fval .f32 a
  let e : Int := match x with
    | .nan _ => -(2 ^ 31 : Int)
    | .inf s => if s then -(2 ^ 31 : Int) else 2 ^ 31 - 1
    | x =>
      let (k, _) := roundInt .rup (scaledScore x)
      max (-(2 ^ 31 : Int) + 1) (min (2 ^ 31 - 2) (sgn x.sign k))
  (wrap 32 (max (toSigned 32 b) e), flagIf x.isSnan flagNV)

/-- The power 2^(x·c − M) as P6, its exceptions, and whether its exact value lies below 2^-14 (R57, R75). -/
def pexpTerm (x : Val) (m : Int) : Nat × FFlags × Bool :=
  match addNum (scaledScore x) (Val.ofInt (-m)) with
  | (n, d, e) =>
    let y : Val := .num (decide (n < 0)) n.natAbs d e
    if cmpVal y (.ofInt (-14)) < 0 then (0x3C, flagNX, true)
    else if cmpVal y (.ofInt 1) ≥ 0 then (0x03, flagOF ||| flagNX, false)
    else
      let f : Fmt := { ebits := 8, fbits := 2, bias := 127, noInf := false }
      let (code, fl) := exp2Round f .rne n e
      let (r, fl') := toP6 (f.decode code)
      (r, flagIf (fl != 0) flagNX ||| fl', false)

/-- PEXP (R474). -/
def pexpVal (a b : Nat) : Nat × FFlags × Bool :=
  match fval .f32 a with
  | .nan _ => (0x3C, flagNV, false)
  | .inf true => (0x3C, noFlags, false)
  | .inf false =>
    if b = expNegInf then (0x3C, noFlags, false)
    else if b = expPosInf then (0x00, noFlags, false)
    else (0x03, flagOF ||| flagNX, false)
  | x => if b = expNegInf ∨ b = expPosInf then (0x3C, noFlags, false) else pexpTerm x (toSigned 32 b)

/-- MAXE (R473). -/
def execMaxe (w : Fields) (s : State) : Host.Outcome State Fault Refusal :=
  onWord w s fun e => e.felems .i32 5 fun i => maxeVal (e.a .f32 i) (e.b .i32 i)

/-- PEXP (R474, R75). -/
def execPexp (w : Fields) (s : State) : Host.Outcome State Fault Refusal :=
  onWord w s fun e =>
    let under := e.lanes.filter fun i => (pexpVal (e.a .f32 i) (e.b .i32 i)).2.2
    let s := e.s.modWave e.wid fun w => { w with pexpuf := pexpufAfter w.pexpuf under.length }
    let e := { e with s := s }
    e.felems .b32 5 fun i =>
      let (x, f, _) := pexpVal (e.a .f32 i) (e.b .i32 i)
      (x, f)

end Sys2Proof.Machine
end

