-- ==== Sys2Proof/Machine/Winnow.lean ====
section
/-! DEFINITION. The winnow unit: WNW, 0xB4 (R459 to R462). -/

namespace Sys2Proof.Machine

/-- Fields of the parameter block that break their limits raise PROT (R459). -/
def wnwLimits (q : Nat → Nat → Nat) (share : Nat) : Bool :=
  let keys := q 0 8
  let pitch := q 8 4
  let nkeys := q 0xC 4
  let dim := q 0x14 4
  let qoff := q 0x18 4
  let mode := q 0x20 4
  let kcap := q 0x24 4
  let out := q 0x28 4
  keys % 16 = 0 && pitch % 16 = 0 && decide (1 ≤ nkeys ∧ nkeys ≤ 2 ^ 24) && decide (16 ≤ dim ∧ dim ≤ 256) &&
  dim % 16 = 0 && decide (mode ≤ 1) && decide (1 ≤ kcap ∧ kcap ≤ 65536) && q 0x34 12 = 0 &&
  decide (qoff + dim ≤ share) && decide (out + 8 * kcap ≤ share)

/-- WNW (R459): the block is read at issue. -/
def execWnw (w : Fields) (s : State) : Host.Outcome State Fault Refusal :=
  onWord w s fun e =>
    let a := e.uni e.w.a.toNat .b64
    let share := spaceSize e 1
    let bid := e.wv.bid e.wid
    let prot (e : Env) : WRes := e.trapNow cPROT 2 (BitVec.ofNat 64 a) e.frag.mask
    if e.wv.tokSet e.token then .wait e.s (.token e.token)
    else if a % 16 ≠ 0 then e.trapNow cALIGN 0 (BitVec.ofNat 64 a) e.frag.mask
    else if a + 64 > share then prot e
    else withScratch e e.frag.mask [(a, 64)] fun e =>
      let raw := scratchBytes e.s bid a 64
      let q (o n : Nat) : Nat := ofLE ((raw.drop o).take n)
      match [(q 0x18 4, 16), (q 0x28 4, 8)].find? fun p => p.1 % p.2 != 0 with
      | some p => e.trapNow cALIGN 0 (BitVec.ofNat 64 p.1) e.frag.mask
      | none =>
        if !wnwLimits q share then prot e
        else
          engineOp e [winnowEngine (coreOfWave e.wid)] (some e.token) [] (leBytes 8 a ++ raw)
            (.wnw (q 0 8) (q 8 4) (q 0xC 4) (q 0x10 4) (q 0x14 4) (q 0x18 4) (toSigned 32 (q 0x1C 4)) (q 0x20 4 == 1)
              (q 0x24 4) (q 0x28 4) a) none

/-- The exact score of a row (R460). -/
def wnwScore (query key : Bytes) : Int := ((query.zip key).map fun p => p.1.toInt * p.2.toInt).sum

/-- Row `x` comes before row `y` in the order of top-k: by score, then by position (R460). -/
def wnwBefore (x y : Nat × Int) : Bool := decide (y.2 < x.2) || (x.2 == y.2 && decide (x.1 < y.1))

/-- The rows that WNW writes, ascending, and OVER (R460). -/
def wnwOut (rows : List (Nat × Int)) (thr : Int) (topk : Bool) (kcap : Nat) : List (Nat × Int) × Bool :=
  let l := rows.filter fun x => decide (thr ≤ x.2)
  let more := decide (kcap < l.length)
  if !more then (l, more)
  else if topk then (l.filter fun x => decide ((l.filter fun y => wnwBefore y x).length < kcap), more)
  else (l.take kcap, more)

/-- Read the key rows in order; the first row that faults ends the request (R462). -/
def wnwRows (r : EngReq) (keys pitch dim : Nat) (query : Bytes) (body : State → List (Nat × Int) → Perf) :
    State → Nat → Nat → List (Nat × Int) → Perf
  | s, 0, _, l => body s l
  | s, n + 1, i, l =>
    readAt s r ((keys + i * pitch) % 2 ^ 64) dim (fun c va => .held s c 0 va) fun s b =>
      wnwRows r keys pitch dim query body s n (i + 1) (l ++ [(i, wnwScore query b)])

/-- Perform WNW (R460, R462). -/
def wnwPerf (s : State) (r : EngReq) : Perf :=
  match r.op with
  | .wnw keys pitch nkeys pos0 dim qoff thr topk kcap outoff blk =>
    touch s r [(qoff, dim), (outoff, 8 * kcap), (blk, 64)] fun bid _ =>
      wnwRows r keys pitch dim (scratchBytes s bid qoff dim) (fun s rows =>
        let (out, more) := wnwOut rows thr topk kcap
        let entry (x : Nat × Int) : Bytes := leBytes 4 (pos0 + x.1) ++ leBytes 4 (wrap 32 x.2)
        let s := s.putFor r bid outoff (out.flatMap entry)
        .lands (s.putFor r bid (blk + 0x2C) (leBytes 4 out.length ++ leBytes 4 (ofBool more))) [] none) s nkeys 0 []
  | _ => .waits

end Sys2Proof.Machine
end

