-- ==== Sys2Proof/Machine/Complete.lean ====
section
/-! DEFINITION. Completions inside the part: copies (R272 to R276, R315, R319), lazy windows, matrix passes (R354, R355),
engine requests (R444 to R447), update-only lines sent home (R408), and the swath (R71, R386 to R389, R554). -/

namespace Sys2Proof.Machine

/-! ### Copies (R272, R275) -/

/-- A copy of a core's engine. -/
def State.copyAt (s : State) (core id : Nat) : Option Copy := (s.core core).copies.find? fun c => c.id == id
def State.modCopy (s : State) (core id : Nat) (f : Copy → Copy) : State :=
  s.modCore core fun k => { k with copies := k.copies.map fun c => if c.id = id then f c else c }

/-- The context of a copy's wave. -/
def State.copyCtx (s : State) (c : Copy) : Nat :=
  match s.wave c.wid with
  | some w => w.ctx
  | none => 0

/-- Device addresses that a list of writes names. -/
def dstVas (l : List (CopyDst × Byte)) : List Nat := l.filterMap fun p => match p.1 with | .mem va => some va | _ => none

/-- Places at home that the pieces that were held read. -/
def State.todoLocs (s : State) (ctx : Nat) (c : Copy) : List Loc :=
  let srcs := c.todo.map (·.2)
  srcLocs (unitMap s ctx .read (srcs.flatMap CopySrc.vas)) srcs

/-- A byte with the value that a later copy has given it (R315). -/
def Copy.fix (c : Copy) (p : CopyDst × Byte) : CopyDst × Byte :=
  match c.fixed.reverse.find? fun q => q.1 == p.1 with
  | some q => q
  | none => p

/-- Read what can be read of the pieces that were held (R273, R275). -/
def State.readTodo (s : State) (ctx : Nat) (c : Copy) : State × Copy :=
  if c.todo.isEmpty then (s, c)
  else
    let srcs := c.todo.map (·.2)
    let m := unitMap s ctx .read (srcs.flatMap CopySrc.vas)
    let s := s.recallLocs (s.todoLocs ctx c)
    let (got, left) := readMoves s ctx c.got m c.todo
    (s, { c with writes := c.writes ++ got.map c.fix, todo := left })

/-- The first fault of a copy's pieces: cause, address, and whether it is of a write (R275). -/
def State.copyBad (s : State) (ctx : Nat) (c : Copy) : Option (Nat × Nat × Bool) :=
  let srcs := c.todo.map (·.2)
  match firstBad (unitMap s ctx .read (srcs.flatMap CopySrc.vas)) srcs with
  | some (va, k) => some (k, va, false)
  | none =>
    let vas := dstVas c.writes
    let m := unitMap s ctx .write vas
    vas.findSome? fun va => match unitLoc m va with
      | .ok _ => none
      | .error k => some (k, va, true)

/-- The places of a copy's device bytes, with the bytes. -/
def State.copyLocs (s : State) (ctx : Nat) (l : List (CopyDst × Byte)) : List (Loc × Byte) :=
  let m := unitMap s ctx .write (dstVas l)
  l.filterMap fun p => match p.1 with
    | .mem va => match unitLoc m va with
      | .ok loc => some (loc, p.2)
      | .error _ => none
    | _ => none

/-- Count the unwritten bytes of a box at the regions that hold BASE (R319). -/
def State.countBox (s : State) (ctx : Nat) (extra : Option (Nat × Nat)) : State :=
  match extra with
  | none => s
  | some (n, base) =>
    match s.resolveNow ctx base .write with
    | .ok (.dev pa) =>
      let count (_ : Nat) (r : Region) : Region :=
        if r.armed && r.valid && r.owner == ctx && r.counts .copy && r.holds pa then r.arrive n else r
      { s with regions := Tbl.mapv count s.regions }
    | _ => s

/-- Where a byte of a copy lies: in a block's own memories, or at a place at home. -/
inductive CopyPlace where
  | own (bid : Nat) (d : CopyDst)
  | home (l : Loc)
deriving DecidableEq, Repr

/-- The place of a byte of a copy; none where its page does not translate. -/
def State.copyPlace (s : State) (c : Copy) (d : CopyDst) : Option CopyPlace :=
  (s.wave c.wid).bind fun w => match d with
    | .mem va => match s.resolveNow w.ctx va .write with
      | .ok l => some (.home l)
      | _ => none
    | d => some (.own (w.bid c.wid) d)

/-- Bytes that a copy issued earlier on the engine still has to read or write, and a later one has written, take the later
one's value (R315). `l`: the places that have been written, with the bytes. -/
def laterWins (s : State) (l : List (CopyPlace × Byte)) (c : Copy) : Copy :=
  let new (d : CopyDst) : Option Byte := (s.copyPlace c d).bind fun x => (l.find? fun q => q.1 == x).map (·.2)
  { c with writes := c.writes.map (fun p => (p.1, (new p.1).getD p.2)),
           fixed := c.fixed ++ c.todo.filterMap fun p => (new p.1).map fun b => (p.1, b) }

/-- A copy has written some of its bytes: the copies of its engine that were issued before it give way (R315). -/
def State.overtake (s : State) (core : Nat) (c : Copy) (l : List (CopyDst × Byte)) : State :=
  let older := (s.core core).copies.takeWhile fun x => x.id != c.id
  if older.isEmpty then s
  else
    let l := l.filterMap fun p => (s.copyPlace c p.1).map fun x => (x, p.2)
    s.modCore core fun k => { k with copies := k.copies.map fun x => if older.any fun y => y.id == x.id then laterWins s l x else x }

/-- Write a copy's bytes at their destinations; local ones at both cores of a twin (R272, R279). -/
def State.writeCopy (s : State) (c : Copy) (w : Wave) (l : List (CopyDst × Byte)) : State :=
  let locs := s.copyLocs w.ctx l
  let s := s.writeDev w.ctx c.lid (some .copy) (devBytes locs)
  let s := s.holdBytes c.lid w.crew (hostBytes locs)
  (s.bothSides (w.bid c.wid)).foldl (fun s k => s.landCopy k l) s

/-- Take a copy out of its engine and clear its token, on both sides of a twin. -/
def State.dropCopy (s : State) (core : Nat) (c : Copy) (held : Option HeldFault) : State :=
  let s := s.modCore core fun k => { k with copies := k.copies.filter fun x => x.id != c.id }
  let clear (w : Wave) : Wave :=
    let w := w.clearTok c.tok
    match held with
    | some h => { w with heldFaults := Tbl.put w.heldFaults c.tok h }
    | none => w
  (s.bothWaves c.wid).foldl (fun s k => s.modWave k clear) s

/-- Send a copy's pieces to peers (R551): one for each 64 KiB unit; their bytes leave the copy. -/
def State.sendCopyPieces (s : State) (core ctx : Nat) (c : Copy) : Option State :=
  let m := unitMap s ctx .write (dstVas c.writes)
  let isPeer (p : CopyDst × Byte) : Bool := match p.1 with
    | .mem va => match unitLoc m va with
      | .ok (.peer _ _ _) => true
      | _ => false
    | _ => false
  let out := c.writes.filter isPeer
  if out.isEmpty then none
  else
    let ops : List (Nat × PeerKind × List (Nat × Nat × Byte) × Nat) := (unitsOf (dstVas out)).filterMap fun u => match m.find? fun p => p.1 == u with
      | some (_, .ok (.peer port rctx rva)) =>
        let mine := out.filterMap fun p => match p.1 with
          | .mem va => if va / 2 ^ 16 = u then some (rctx, rva + va % 2 ^ 16, p.2) else none
          | _ => none
        some (port, .piece core c.id, mine, u * 2 ^ 16)
      | _ => none
    some (((s.sendOps c.lid c.wid 0 ops).modCopy core c.id fun c =>
      { c with writes := c.writes.filter fun p => !isPeer p, unacked := c.unacked + ops.length }).overtake core c out)

/-- A copy that would read an open line or a poisoned one stops (R433, R525): its wave freezes; one that consumes poison ends. -/
def State.copyStop (s : State) (core : Nat) (c : Copy) (ls : List Loc) : Option State :=
  if ls.any fun l => s.openTo (some c.lid) l then some (s.intrude c.wid)
  else if ls.any s.poisoned then some ((s.uncorrectable c.wid).dropCopy core c none)
  else none

/-- A copy completes, where it can: its pieces are read, translated and acknowledged, and nothing holds its lines. -/
def State.finishCopy (s : State) (core id : Nat) : Option State :=
  match s.copyAt core id with
  | none => none
  | some c =>
    match s.wave c.wid with
    | none => none
    | some w =>
      if w.frozen == some .intrusion then none
      else
        let reads := s.todoLocs w.ctx c
        let s := s.meetHome reads
        match s.copyStop core c reads with
        | some t => some t
        | none =>
          if !s.recallRoom reads then none
          else
            let (s, c) := s.readTodo w.ctx c
            let s := s.modCopy core id fun _ => c
            if c.bad.isSome || !c.todo.isEmpty || (s.copyBad w.ctx c).isSome then none
            else match s.sendCopyPieces core w.ctx c with
              | some s => some s
              | none =>
                let locs := (s.copyLocs w.ctx c.writes).map (·.1)
                let pas := (devBytes (s.copyLocs w.ctx c.writes)).map (·.1)
                if 0 < c.unacked || (s.grantOnLines c.wid locs).isSome then none
                else if locs.any fun l => s.openTo (some c.lid) l then some (s.intrude c.wid)
                else if !s.replayRoom c.lid pas then s.starveStep c.lid
                else
                  let s := (s.writeCopy c w c.writes).countBox w.ctx c.extra
                  some ((s.overtake core c c.writes).dropCopy core c none)

/-- COPY_COMPLETE (R272). -/
def execCopyComplete (core id : Nat) (s : State) : Host.Outcome State Fault Refusal :=
  onCore core (onEvent "COPY_COMPLETE" (s.finishCopy core id))

/-- A piece faults: it is held, and the fault goes to the dispatch hart (R275). -/
def State.faultPiece (s : State) (core id : Nat) : Option State :=
  match s.copyAt core id with
  | none => none
  | some c =>
    let ctx := s.copyCtx c
    let reads := s.todoLocs ctx c
    let (s, c) := if (s.copyStop core c reads).isSome || !s.recallRoom reads then (s, c) else s.readTodo ctx c
    if c.bad.isSome then none
    else (s.copyBad ctx c).map fun x =>
      let h : HeldFault := { cause := x.1, info := BitVec.ofNat 64 (ofBool x.2.2), addr := BitVec.ofNat 64 x.2.1 }
      let s := s.modCopy core id fun _ => { c with bad := some (h, true) }
      s.postFault (dieOfCore core) { ctx := ctx, va := x.2.1, need := if x.2.2 then .write else .read, who := [.copy core id] }

/-- COPY_PIECE_FAULT (R275). -/
def execCopyPieceFault (core id : Nat) (s : State) : Host.Outcome State Fault Refusal :=
  onCore core (onEvent "COPY_PIECE_FAULT" (s.faultPiece core id))

/-- A copy whose fault was not resolved ends (R275): which of its other pieces have been written is open. -/
def State.failCopy (s : State) (core id : Nat) : State :=
  match s.copyAt core id with
  | none => s
  | some c =>
    match c.bad, s.wave c.wid with
    | some (h, _), some w =>
      let (use, s) := s.fresh
      let written (p : CopyDst × Byte) : Bool :=
        let unit := match p.1 with
          | .mem va => va / 2 ^ 16
          | .sp o | .ob o | .stand o => o / 2 ^ 16
        unit != h.addr.toNat / 2 ^ 16 && Config.copySeen c.id unit use
      let l := c.writes.filter written
      let m := unitMap s w.ctx .write (dstVas l)
      let here (p : CopyDst × Byte) : Bool := match p.1 with
        | .mem va => match unitLoc m va with
          | .ok (.peer _ _ _) => false
          | .ok loc => !s.openTo (some c.lid) loc
          | .error _ => false
        | _ => true
      let l := l.filter here
      ((s.writeCopy c w l).overtake core c l).dropCopy core c (some h)
    | _, _ => s

/-! ### Lazy windows (R276) -/

/-- A window's copy completes on both sides: the window is present. -/
def State.finishLazy (s : State) (bid win : Nat) : Option State :=
  ((s.block bid).bind fun b => Tbl.find b.lazyWins win).bind fun v => v.inflight.map fun l =>
    let put (b : Block) : Block :=
      { b.putCopy l with lazyWins := Tbl.upd b.lazyWins win fun v => { v with present := true, inflight := none } }
    (s.bothSides bid).foldl (fun s k => s.modBlock k put) s

/-- LAZY_COPY_COMPLETE (R276). -/
def execLazyCopyComplete (blk win : Nat) (s : State) : Host.Outcome State Fault Refusal :=
  onCore (blk / 8) (onEvent "LAZY_COPY_COMPLETE" (s.finishLazy blk win))

/-! ### Matrix passes (R354, R355) -/

/-- The open collector closes when it is full, or at the end of its fourth cycle (R354). -/
def Core.closeColl (c : Core) : Option Core :=
  match c.coll with
  | none => none
  | some x =>
    if x.members.length = 4 ∨ x.opened + 3 ≤ c.cyc then some { c with coll := none, closed := c.closed ++ [x] } else none

/-- MMQ_COLLECTOR_CLOSE (R354). -/
def execMmqCollectorClose (core : Nat) (s : State) : Host.Outcome State Fault Refusal :=
  onCore core (onEvent "MMQ_COLLECTOR_CLOSE" ((s.core core).closeColl.map fun c => s.modCore core fun _ => c))

/-- The oldest closed collector's pass starts once the array is free (R355). -/
def State.startPass (s : State) (core : Nat) : Option State :=
  let k := s.core core
  match k.closed with
  | [] => none
  | c :: rest =>
    if k.cyc + 1 < k.arrayFree then none
    else
      let end_ := k.cyc + 1 + c.kk / 32 * groupCycles (tyAt c.atype)
      let p : ArrayPass := { col := c, until_ := end_, lands := end_ + 11, wrote := [] }
      some (s.modCore core fun k => { k with closed := rest, passes := k.passes ++ [p], arrayFree := end_ })

/-- MATRIX_PASS_START (R355). -/
def execMatrixPassStart (core : Nat) (s : State) : Host.Outcome State Fault Refusal :=
  onCore core (onEvent "MATRIX_PASS_START" (s.startPass core))

/-! ### Engine requests (R444, R447, R452, R460) -/

/-- A request may be performed: not stopped, its engines not frozen, and it is the oldest of its engine, or in the grammar
engine the oldest of its fragment; DRNs that the fragment has issued are performed first (R445). -/
def State.reqTurn (s : State) (r : EngReq) : Bool :=
  let same (q : EngReq) : Bool := q.wid == r.wid && q.frag == r.frag
  let drains := match s.wave r.wid with
    | some w => w.draining r.frag
    | none => false
  !r.blocked && !drains && r.engines.all fun e =>
    !s.frozenEngines.contains e &&
      match s.reqs.find? fun q => q.engines.contains e && (e < 4 || 8 ≤ e || same q) with
      | some q => q.id == r.id
      | none => false

/-- Perform a request by its operation. -/
def State.perform (s : State) (r : EngReq) : Perf :=
  match r.op with
  | .wnw .. => wnwPerf s r
  | .gmk .. => gmkPerf s r
  | .gstp .. => gstpPerf s r
  | .smpl .. => smplPerf s r
  | _ => kvPerf s r

/-- An engine finishes a request, where it can. -/
def State.finishReq (s : State) (id : Nat) : Option State :=
  match s.reqs.find? fun r => r.id == id with
  | none => none
  | some r => if s.reqTurn r then s.settleReq r (s.perform r) else none

/-- ENGINE_REQUEST_COMPLETE (R444). -/
def execEngineRequestComplete (id : Nat) (s : State) : Host.Outcome State Fault Refusal :=
  onEvent "ENGINE_REQUEST_COMPLETE" (s.finishReq id)

/-- The superblock of an update-only line is evicted whole (R258, R408); it waits for room in the replay store (R528). -/
def State.evictU (s : State) (core line : Nat) : Option State :=
  match Tbl.find (s.core core).u line with
  | none => none
  | some u =>
    let sb := sbOf (devLineKey u.ctx line)
    let lines := (s.core core).uOf sb
    if s.roomFor_ (s.uKeys lines) then some (s.evictSb core sb)
    else s.starveAtStep (lines.map fun n => .dev (64 * n))

/-- U_LINE_EVICT (R258, R408). -/
def execULineEvict (core line : Nat) (s : State) : Host.Outcome State Fault Refusal :=
  onCore core (onEvent "U_LINE_EVICT" (s.evictU core line))

/-! ### The fold of a swath (R71, R387, R388) -/

/-- One step of a fold: an addition rounded by rne. -/
def foldAdd (a b : W32) : W32 :=
  BitVec.ofNat 32 (roundVal fmtF32 .rne (addVal .rne (fval .f32 a.toNat) (fval .f32 b.toNat)).1).1

/-- Fold values in order; none for no participant. -/
def foldList : List W32 → Option W32
  | [] => none
  | x :: xs => some (xs.foldl foldAdd x)

/-- Order of two contributions by (BLOCK, WAVE). -/
def Contribution.before (x y : Contribution) : Bool :=
  decide (x.blocklin < y.blocklin) || (x.blocklin == y.blocklin && decide (x.waveIdx < y.waveIdx))

/-- Insert a contribution after those that come before it or are its equals. -/
def insertBy : Contribution → List Contribution → List Contribution
  | x, [] => [x]
  | x, y :: ys => if x.before y then x :: y :: ys else y :: insertBy x ys

/-- Contributions in ascending (BLOCK, WAVE). -/
def inBlockOrder (l : List Contribution) : List Contribution := l.foldl (fun t x => insertBy x t) []

/-- The element that a contribution sends for a row. -/
def Contribution.elem (c : Contribution) (lane j : Nat) : Option W32 :=
  (c.rows.find? fun r => r.lane == lane).map fun r => r.elems.getD j 0

/-- Element (lane, j) of the result: nested folds by core, cluster and die, or one fold in a DET launch (R71, R387, R388). -/
def swathElem (det : Bool) (l : List Contribution) (lane j : Nat) : Option W32 :=
  let here (p : Contribution → Bool) : List W32 := (l.filter p).filterMap fun c => c.elem lane j
  if det then foldList (here fun _ => true)
  else
    let core (c : Nat) : Option W32 := foldList (here fun x => x.cid == c)
    let cluster (k : Nat) : Option W32 := foldList ((List.range 8).filterMap fun i => core (8 * k + i))
    let die (d : Nat) : Option W32 := foldList ((List.range 8).filterMap fun i => cluster (8 * d + i))
    foldList ((List.range 4).filterMap die)

/-- The rows that contributions send, ascending. -/
def swathLanes (l : List Contribution) : List Nat := sortNats (l.flatMap fun c => c.rows.map (·.lane))

/-- The result of a round. -/
def swathResult (det : Bool) (l : List Contribution) : List SwathRow :=
  let l := inBlockOrder l
  (swathLanes l).map fun i => { lane := i, elems := (List.range 32).map fun j => (swathElem det l i j).getD 0 }

/-- Fold a peer's result after one's own, row by row (R554). -/
def foldRows (a b : List SwathRow) : List SwathRow :=
  let lanes := sortNats (a.map (·.lane) ++ b.map (·.lane))
  lanes.map fun i =>
    match a.find? (fun r => r.lane == i), b.find? (fun r => r.lane == i) with
    | some x, some y => { lane := i, elems := (x.elems.zip y.elems).map fun p => foldAdd p.1 p.2 }
    | some x, none => x
    | none, some y => y
    | none, none => { lane := i, elems := [] }

/-! ### Accepting contributions (R386, R389) -/

/-- Rows that a hub holds (R389: 512 KiB in rows of 128 bytes). -/
def State.hubRows (s : State) (hub : Nat) : Nat :=
  (s.swaths.map fun p => ((p.2.contribs.filter fun c => c.cid / 8 == hub).map fun c => c.rows.length).sum).sum

/-- Rewrite a wave, and the wave that its block's checkpoint holds where `p` says so. -/
def State.modWaveBack (s : State) (wid : Nat) (p : Wave → Bool) (f : Wave → Wave) : State :=
  match s.wave wid with
  | none => s
  | some w =>
    let back (c : BlockCkpt) : BlockCkpt := { c with waves := c.waves.map fun x => if x.1 = wid && p x.2 then (x.1, f x.2) else x }
    (s.modWave wid f).modBlock (w.bid wid) fun b => { b with twin := { b.twin with ckpt := b.twin.ckpt.map back } }

/-- The send with an id, with its wave. -/
def State.sendAt (s : State) (id : Nat) : Option (Nat × Wave × SwathSend) :=
  s.waves.findSome? fun p => (p.2.sends.find? fun x => x.id == id).map fun x => (p.1, p.2, x)

/-- Write a swath. -/
def State.putSwath (s : State) (lid sid : Nat) (x : Swath) : State := { s with swaths := Tbl.put s.swaths (swathKey lid sid) x }

/-- The swath accepts a contribution: its round is open and short of NPART, and the hub has room (R386, R389). -/
def State.acceptSend (s : State) (id : Nat) : Option State :=
  match s.sendAt id with
  | none => none
  | some (wid, w, x) =>
    let sw := s.swath w.lid x.handle.sid
    let core := coreOfWave wid
    let ready := match s.twinWid wid w with
      | some k => (match s.wave k with | some v => v.tokSet x.tok | none => true)
      | none => true
    if x.round ≠ sw.round || sw.result.isSome || sw.awaitPeer.isSome || decide (x.handle.npart ≤ sw.contribs.length) ||
        decide (4096 < s.hubRows (core / 8) + x.rows.length) || !ready || w.arrayQ.any (ArrayOp.fills id) then none
    else
      let c : Contribution := { cid := core, blocklin := w.blocklin, waveIdx := w.waveIdx, rows := x.rows }
      let s := s.putSwath w.lid x.handle.sid
        { sw with latch := sw.latch.orElse fun _ => some x.handle, contribs := sw.contribs ++ [c] }
      let done (w : Wave) : Wave := { w.clearTok x.tok with sends := w.sends.filter fun y => y.id != id }
      let s := s.modWaveBack wid (fun w => w.sends.any fun y => y.id == id) done
      some (match s.twinWid wid w with
        | some k => s.modWaveBack k (fun w => w.tokSet x.tok) fun w => w.clearTok x.tok
        | none => s)

/-- SWATH_CONTRIBUTION_ACCEPT (R389). -/
def execSwathContributionAccept (id : Nat) (s : State) : Host.Outcome State Fault Refusal :=
  onEvent "SWATH_CONTRIBUTION_ACCEPT" (s.acceptSend id)

/-! ### Completing a round (R386, R554) -/

/-- A package's own result goes to the peer (R554). -/
def State.sendResult (s : State) (lid : Nat) (h : SwathHandle) (rows : List SwathRow) : State :=
  let data := rows.flatMap fun r => (r.elems.flatMap fun x => leBytes 4 x.toNat).zipIdx.map fun b => (0, 128 * r.lane + b.2, b.1)
  s.sendOps lid 0 0 [(bits h.peer 3 0, .swath, data, h.sid)]

/-- Form the result of a round that has its NPART contributions (R386, R387, R554). -/
def State.formResult (s : State) (lid sid : Nat) : Option State :=
  let sw := s.swath lid sid
  match sw.latch with
  | none => none
  | some h =>
    if sw.contribs.length ≠ h.npart || sw.result.isSome || sw.awaitPeer.isSome then none
    else
      let rows := swathResult (s.isDet lid) sw.contribs
      let sw := { sw with contribs := [] }
      if !bit h.peer 7 then some (s.putSwath lid sid { sw with result := some rows })
      else if bit h.peer 6 then
        match sw.fromPeer with
        | x :: rest =>
          let all := foldRows rows x
          some ((s.putSwath lid sid { sw with result := some all, fromPeer := rest }).sendResult lid h all)
        | [] => some (s.putSwath lid sid { sw with awaitPeer := some rows })
      else some ((s.putSwath lid sid { sw with awaitPeer := some rows }).sendResult lid h rows)

/-- The wave waits for this reception. -/
def Wave.awaits (w : Wave) (x : SwathRecv) : Bool := w.recvs.any fun y => y.tok == x.tok

/-- Put a result into the first load-value item that waits for that of a token (R366). -/
def fillRows (waveIdx tok : Nat) (rows : List SwathRow) : List LvqItem → List LvqItem
  | [] => []
  | x :: xs =>
    if x.waveIdx = waveIdx ∧ x.swr = some tok ∧ x.rows = none then { x with rows := some rows } :: xs
    else x :: fillRows waveIdx tok rows xs

/-- Give the result to one reception (R364). It passes to the shadow: to the SWR that the shadow has issued, or through the
load-value queue to the one that it will issue (R278, R366). -/
def State.deliver (s : State) (wid : Nat) (x : SwathRecv) (rows : List SwathRow) : State :=
  let take (w : Wave) : Wave :=
    { (w.receive x rows).clearTok x.tok with recvs := w.recvs.filter fun y => y.tok != x.tok }
  let give (s : State) (k : Nat) : State := s.modWaveBack k (fun w => w.awaits x) take
  match s.wave wid with
  | none => s
  | some w =>
    let s := give s wid
    match s.twinWid wid w with
    | none => s
    | some k =>
      if (s.wave k).any fun v => v.awaits x then give s k
      else s.modBlock (w.bid wid) fun b => { b with twin := { b.twin with lvq := fillRows w.waveIdx x.tok rows b.twin.lvq } }

/-- Receptions of the current round whose tiles the array has no earlier access to (R353). -/
def State.takers (s : State) (lid sid : Nat) : List (Nat × SwathRecv) :=
  (s.swathRecvs lid sid).filter fun p => p.2.round == (s.swath lid sid).round &&
    (s.wave p.1).all fun w => !w.queued (p.2.targets.map (·.2.1))

/-- The receptions take the result; the round ends with the last (R386). -/
def State.giveResult (s : State) (lid sid : Nat) : Option State :=
  let sw := s.swath lid sid
  match sw.result, s.takers lid sid with
  | some rows, p :: ps =>
    let s := (p :: ps).foldl (fun s q => s.deliver q.1 q.2 rows) s
    let taken := sw.taken + (p :: ps).length
    let last := match sw.latch with
      | some h => decide (h.nrecv ≤ taken)
      | none => false
    some (s.putSwath lid sid (if last then { Swath.fresh with round := sw.round + 1, fromPeer := sw.fromPeer }
      else { sw with taken := taken }))
  | _, _ => none

/-- A round completes: its result is formed, or given to its receptions. -/
def State.swathStep (s : State) (lid sid : Nat) : Option State := (s.formResult lid sid).orElse fun _ => s.giveResult lid sid

/-- SWATH_ROUND_COMPLETE (R386). -/
def execSwathRoundComplete (lid sid : Nat) (s : State) : Host.Outcome State Fault Refusal :=
  onEvent "SWATH_ROUND_COMPLETE" (s.swathStep lid sid)

/-- A peer's result comes for a swath (R554): the root folds it after its own and sends the sum back; a contributor's
receptions take it. -/
def State.peerResult (s : State) (lid sid : Nat) (rows : List SwathRow) : Option State :=
  let sw := s.swath lid sid
  if (s.launch lid).isNone || decide (256 ≤ sid) then none
  else match sw.awaitPeer, sw.latch with
    | some own, some h =>
      if bit h.peer 6 then
        let all := foldRows own rows
        some ((s.putSwath lid sid { sw with result := some all, awaitPeer := none }).sendResult lid h all)
      else some (s.putSwath lid sid { sw with result := some rows, awaitPeer := none })
    | _, _ => some (s.putSwath lid sid { sw with fromPeer := sw.fromPeer ++ [rows] })

/-- PEER_SWATH_RESULT (R554). -/
def execPeerSwathResult (lid sid : Nat) (rows : List SwathRow) (s : State) : Host.Outcome State Fault Refusal :=
  onEvent "PEER_SWATH_RESULT" (s.peerResult lid sid rows)

end Sys2Proof.Machine
end

