-- ==== Sys2Proof/Machine/Bind.lean ====
section
/-! DEFINITION. Bind records, their checks and their refusal (R487 to R490), and the start of a gang, fresh or resumed from
its saved image (R115, R122, R125, R269, R372, R488, R494, R505). -/

namespace Sys2Proof.Machine

/-! ### The bind record (R487) -/

def BindRec.lid (r : BindRec) : Nat := bits r.w0.toNat 63 32
def BindRec.ctx (r : BindRec) : Nat := bits r.w0.toNat 31 24
def BindRec.slot (r : BindRec) : Nat := bits r.w0.toNat 23 19
def BindRec.bslot (r : BindRec) : Nat := bits r.w0.toNat 18 16
def BindRec.wave (r : BindRec) : Nat := bits r.w0.toNat 15 12
def BindRec.role (r : BindRec) : Nat := bits r.w0.toNat 11 9
def BindRec.shadow (r : BindRec) : Bool := bit r.w0.toNat 8
def BindRec.glast (r : BindRec) : Bool := bit r.w0.toNat 7
def BindRec.resume (r : BindRec) : Bool := bit r.w0.toNat 6
def BindRec.blocklin (r : BindRec) : Nat := bits r.w1.toNat 63 32
def BindRec.part (r : BindRec) : Nat := bits r.w1.toNat 31 0
def BindRec.vbase (r : BindRec) : Nat := bits r.w2.toNat 63 53
def BindRec.vcode (r : BindRec) : Nat := bits r.w2.toNat 52 49
def BindRec.wcode (r : BindRec) : Nat := bits r.w2.toNat 48 46
def BindRec.accbase (r : BindRec) : Nat := bits r.w2.toNat 45 39
def BindRec.accn (r : BindRec) : Nat := bits r.w2.toNat 38 32
def BindRec.spbase (r : BindRec) : Nat := bits r.w2.toNat 31 24
def BindRec.obbase (r : BindRec) : Nat := bits r.w2.toNat 23 18
def BindRec.stbase (r : BindRec) : Nat := bits r.w2.toNat 17 11
def BindRec.entry (r : BindRec) : Nat := bits r.w3.toNat 31 0

/-- A reserved field of the record is nonzero (R11, R487). -/
def BindRec.reservedBad (r : BindRec) : Bool :=
  bits r.w0.toNat 5 0 != 0 || bits r.w2.toNat 10 0 != 0 || bits r.w3.toNat 63 32 != 0

/-- Registers of the wave, and its allotment in granules of 512 bytes (R119). -/
def BindRec.vregs (r : BindRec) : Nat := 8 * (r.vcode + 1)
def BindRec.granules (r : BindRec) : Nat := 2 ^ (r.wcode + 4) * r.vregs * 4 / 512

/-- The number by which the model names the crew of a block: CREW, or the handle of a particle (R371, R505). -/
def State.crewNo (s : State) (lid blocklin part : Nat) : Nat :=
  if s.isParticle lid then part else blocklin / crewSizeOf (s.record lid)

/-- The first record of a gang. -/
def Gang.head (g : Gang) : BindRec := g.recs.headD { core := g.core, w0 := 0, w1 := 0, w2 := 0, w3 := 0 }
def State.gangCrew (s : State) (g : Gang) : Nat := s.crewNo g.lid g.blocklin g.head.part

/-! ### What a core holds (R119, R251) -/

/-- What a bind record takes. -/
def BindRec.share (r : BindRec) : Resident :=
  { slot := r.slot, ctx := r.ctx, v := (r.vbase, r.granules), acc := (r.accbase, r.accn) }

/-- The slots of a core in use: waves, those whose wave has ended before its block, spawn-pool reservations, and records of gangs
not yet bound. -/
def State.residents (s : State) (core : Nat) : List Resident :=
  let grans (w v : Nat) : Nat := w * v * 4 / 512
  let waves := s.waves.filterMap fun p =>
    if coreOfWave p.1 = core ∧ p.2.role ≠ 4 then some (p.2.share p.1) else none
  let gone := s.blocks.flatMap fun b => if b.1 / 8 = core then b.2.gone else []
  let pools := s.blocks.flatMap fun b =>
    if b.1 / 8 = core then
      b.2.pool.map fun p =>
        { slot := p.slot, ctx := b.2.ctx, v := (p.vbase, grans (widthOf (s.record b.2.lid)) b.2.poolV), acc := (p.accbase, p.accs) }
    else []
  let gangs := s.gangs.flatMap fun g =>
    if g.core = core then
      g.recs.map BindRec.share
    else []
  waves ++ gone ++ pools ++ gangs

/-- Two ranges, each as first and count, share a place. -/
def clash (a b : Nat × Nat) : Bool := a.2 != 0 && b.2 != 0 && meets a.1 a.2 b.1 b.2

/-- The scratchpad, operand-buffer and stand ranges of a block, in 4, 4 and 64 KiB units. -/
def sharesOf (l : List W64) (sp ob st : Nat) : List (Nat × Nat) :=
  [(sp, scratchOf l / 4096), (ob, obufOf l / 4096), (st, standOf l / 65536)]

/-- The ranges that the other blocks of a core hold. -/
def State.sharesAt (s : State) (core bslot : Nat) : List (List (Nat × Nat)) :=
  (s.blocks.filterMap fun b =>
    if b.1 / 8 = core ∧ b.1 % 8 ≠ bslot then some (sharesOf (s.record b.2.lid) b.2.spbase b.2.obbase b.2.stbase) else none) ++
  (s.gangs.filterMap fun g =>
    if g.core = core ∧ g.bslot ≠ bslot then some (sharesOf (s.record g.lid) g.head.spbase g.head.obbase g.head.stbase)
    else none)

/-- Sizes of a core's memories in the same units; the stand by CANCFG.STANDMB (R251, R399). -/
def State.shareLimits (s : State) (core : Nat) : List Nat :=
  [256, 64, 16 * bits (s.die (dieOfCore core)).cancfg.toNat 3 0]

/-! ### The checks (R489) -/

/-- LAUNCHID names a started launch of CTX whose scope includes the die. -/
def State.recLaunch (s : State) (r : BindRec) : Bool :=
  match s.launch r.lid with
  | some l => l.ctx == r.ctx && inScope l.words (dieOfCore r.core)
  | none => false

/-- The fields agree with the launch record for ROLE. -/
def recAgrees (l : List W64) (r : BindRec) : Bool :=
  let entries := (List.range (nrolesOf l)).map (roleEntry l)
  r.wcode == recField l 0x18 37 35 && r.accn == accsOf l &&
    if r.role = 4 then r.vcode == recField l 0x18 18 15 && entries.contains r.entry
    else
      let first := ((List.range r.role).map (roleWaves l)).sum
      decide (r.role < nrolesOf l) && r.vcode == bits (roleWord l r.role) 31 28 && r.entry == roleEntry l r.role &&
        decide (first ≤ r.wave ∧ r.wave < first + roleWaves l r.role)

/-- The gang that a record joins. -/
def State.gangAt (s : State) (core bslot : Nat) : Option Gang := s.gangs.find? fun g => g.core == core && g.bslot == bslot

/-- The record belongs to the block of the gang, whose block-wide fields it repeats (R487). -/
def Gang.takes (g : Gang) (r : BindRec) : Bool :=
  let h := g.head
  g.lid == r.lid && g.blocklin == r.blocklin && g.shadow == r.shadow && g.resume == r.resume && !g.glast && h.part == r.part &&
    h.spbase == r.spbase && h.obbase == r.obbase && h.stbase == r.stbase && g.recs.all fun x => x.role == 4 || x.wave != r.wave || r.role == 4

/-- BSLOT is free, or belongs to the record's block. -/
def State.recBslot (s : State) (r : BindRec) : Bool :=
  match s.gangAt r.core r.bslot with
  | some g => g.takes r
  | none => (s.block (blockKey r.core r.bslot)).isNone

/-- The blocks of a crew lie on distinct cores of one cluster, a TWIN pair on cores c and c XOR 1. -/
def State.recPlace (s : State) (r : BindRec) : Bool :=
  let crew := s.crewNo r.lid r.blocklin r.part
  (!r.shadow || s.isTwin r.lid) &&
    s.gangs.all fun g =>
      if g.lid ≠ r.lid ∨ s.gangCrew g ≠ crew ∨ (g.core = r.core ∧ g.bslot = r.bslot) then true
      else
        g.core / 8 == r.core / 8 &&
          if g.blocklin = r.blocklin then g.shadow != r.shadow && g.core == twinCore r.core else g.core != r.core

/-- PART names a ready particle of the die and launch, whose INDEX is the block's BLOCK (R505), or one that was saved. -/
def State.recPart (s : State) (r : BindRec) : Bool :=
  match (s.launch r.lid).bind (·.round) with
  | none => true
  | some x => bits r.part 31 30 == dieOfCore r.core && (s.particle (handleKey r.part)).index == r.blocklin &&
      if r.resume then Tbl.mem s.saves (crewKey r.lid r.part) else x.unbound.any fun b => b.handle == r.part

/-- The last record of a block completes it: every role wave and every pool reservation has its record (R252). -/
def recWhole (l : List W64) (recs : List BindRec) : Bool :=
  (recs.filter fun r => r.role != 4).length == roleWavesAll l && (recs.filter fun r => r.role == 4).length == spwavesOf l

/-- Wave slots that a context holds on a die. -/
def State.slotsHeld (s : State) (ctx die : Nat) : Nat :=
  ((List.range 64).map fun c => ((s.residents (64 * die + c)).filter fun x => x.ctx == ctx).length).sum

/-- Every condition of R489 but the quota. -/
def State.recPasses (s : State) (r : BindRec) : Bool :=
  let l := s.record r.lid
  let res := s.residents r.core
  let mine := sharesOf l r.spbase r.obbase r.stbase
  let recs := (match s.gangAt r.core r.bslot with | some g => g.recs | none => []) ++ [r]
  !r.reservedBad && s.recLaunch r && decide (r.role ≤ 4) && !(res.any fun x => x.slot == r.slot) && s.recBslot r &&
    recAgrees l r && decide (r.vbase + r.granules ≤ 1536) && !(res.any fun x => clash x.v (r.vbase, r.granules)) &&
    decide (r.accbase + r.accn ≤ 64) && !(res.any fun x => clash x.acc (r.accbase, r.accn)) &&
    ((mine.zip (s.shareLimits r.core)).all fun p => decide (p.1.1 + p.1.2 ≤ p.2)) &&
    ((s.sharesAt r.core r.bslot).all fun x => (mine.zip x).all fun p => !clash p.1 p.2) &&
    s.recPlace r && s.recPart r && (!r.glast || recWhole l recs)

/-- The cause for which a record is refused, as a freeze notice gives it (R532): 1 a bind refused, 4 the quota. -/
def State.refusal (s : State) (r : BindRec) : Option Nat :=
  if !s.recPasses r then some 1
  else if bits (s.ctx r.ctx).word2.toNat 27 16 ≤ s.slotsHeld r.ctx (dieOfCore r.core) then some 4
  else none

/-! ### SLOTWR (R489, R490, R492) -/

/-- The hart of a die runs: its image has been verified, and it is not frozen (R490, R529). -/
def State.hartRuns (s : State) (die : Nat) : Bool := s.sec.running.contains (2 + die) && !(s.die die).hartFrozen && !(s.die die).inReset

/-- The gang is of the record's block: leader and shadow of a TWIN block are one (R277, R488). -/
def State.sameBlock (s : State) (r : BindRec) (g : Gang) : Bool :=
  g.lid == r.lid && g.blocklin == r.blocklin && (s.isTwin r.lid || (g.core == r.core && g.shadow == r.shadow))

/-- Refuse a record: the accepted records of its block are discarded and the hart is frozen (R490, R532). -/
def State.refuseRec (s : State) (r : BindRec) (cause : Nat) : State :=
  let die := dieOfCore r.core
  let lost := s.gangs.filter (s.sameBlock r)
  let s := { s with gangs := s.gangs.filter fun g => !lost.contains g }
  let s := lost.foldl (fun s g => s.clearBusy (blockKey g.core g.bslot)) s
  let s := s.modDie die fun d => { d with hartFrozen := true }
  (s.modCore r.core fun c => { c with slotRefused := true }).notice (freezeNotice 3 cause 0xFF (die * 2 ^ 14) 0)

/-- Accept a record into the gang of its block. -/
def State.acceptRec (s : State) (r : BindRec) : State :=
  let s := s.modCore r.core fun c => { c with slotRefused := false }
  let here (g : Gang) : Bool := g.core == r.core && g.bslot == r.bslot
  if s.gangs.any here then
    let add (g : Gang) : Gang := if here g then { g with glast := r.glast, recs := g.recs ++ [r] } else g
    { s with gangs := s.gangs.map add }
  else
    let g : Gang := { core := r.core, bslot := r.bslot, lid := r.lid, blocklin := r.blocklin, shadow := r.shadow,
                      resume := r.resume, glast := r.glast, recs := [r] }
    { s with gangs := s.gangs ++ [g] }

/-- SLOTWR: one bind record (R487 to R490). -/
def execSlotwr (core : Nat) (w0 w1 w2 w3 : W64) (s : State) : Host.Outcome State Fault Refusal :=
  onCore core (onEvent "SLOTWR" (
    if !s.hartRuns (dieOfCore core) then none
    else
      let r : BindRec := { core := core, w0 := w0, w1 := w1, w2 := w2, w3 := w3 }
      some (match s.refusal r with
        | some cause => s.refuseRec r cause
        | none => s.acceptRec r)))

/-! ### Timed waits across a move (R125) -/

/-- Rewrite the cycle that a wait names. -/
def Wait.onCycle (f : Nat → Nat) : Wait → Wait
  | .sleep n => .sleep (f n)
  | .promise t n => .promise t (f n)
  | .region r p (some n) => .region r p (some (f n))
  | w => w

/-- Rewrite every promise and timed wait of a wave. -/
def Wave.onCycles (w : Wave) (f : Nat → Nat) : Wave :=
  { w with promise := Tbl.mapv (fun _ n => f n) w.promise,
           frags := Tbl.mapv (fun _ x => { x with wait := x.wait.map (Wait.onCycle f) }) w.frags }

/-! ### GANG_START (R269, R372, R488) -/

/-- A twin's state at bind (R281, R286, R287). -/
def TwinBlock.fresh (test : W64) : TwinBlock :=
  { mismatches := 0, retries := 0, fired := false, atCkpt := 0, test := test, hits := 0, seen := [], slack := 256, lvq := [],
    log := [], replayed := [], ckpt := none, due := none }

/-- The bits of TWTEST that are not reserved; a reserved one reads as zero (R11, R286). -/
def twTestMask : W64 := 0xFFC3FFFF03FF003F

/-- The spawn-pool reservations of a gang. -/
def Gang.pool (g : Gang) : List PoolSlot :=
  (g.recs.filter fun r => r.role == 4).map fun r => { slot := r.slot, vbase := r.vbase, accbase := r.accbase, accs := r.accn }

/-- The block of a gang, just bound: its shares hold zero. -/
def Gang.block (g : Gang) (l : Launch) (crew nblocks round : Nat) (lent : List Nat) : Block :=
  let w := l.words
  { lid := g.lid, ctx := l.ctx, blocklin := g.blocklin, crew := crew, shadow := g.shadow, ways := waysOf w, lent := lent,
    scratchSize := scratchOf w, obufSize := obufOf w, standSize := standOf w, spbase := g.head.spbase, obbase := g.head.obbase,
    stbase := g.head.stbase, nwaves := roleWavesAll w, nblocks := nblocks, scratch := [], obuf := [], stand := [], recs := [],
    buf := [], bars := [], lazyWins := [], pool := g.pool, poolV := poolVOf w, gone := [],
    twin := TwinBlock.fresh (if flagOf w 46 then BitVec.ofNat 64 (recWord w 0xF0) &&& twTestMask else 0), detGroups := 0, round := round,
    started := true, stopping := false }

/-- A role wave, just bound, at its role's entry. -/
def Gang.wave (g : Gang) (l : Launch) (crew : Nat) (r : BindRec) : Wave :=
  let w := l.words
  Wave.bound
    { lid := g.lid, ctx := l.ctx, bslot := g.bslot, waveIdx := r.wave, role := r.role, width := widthOf w, cross := crossOf w,
      vregs := r.vregs, accs := r.accn, blocklin := g.blocklin, crew := crew,
      part := if flagOf w 48 then BitVec.ofNat 32 r.part else 0, prio := rolePrio w r.role, shadow := g.shadow,
      vbase := r.vbase, accbase := r.accbase, pc := BitVec.ofNat 64 (recWord w 0 + 8 * r.entry) }

/-- Bind one gang fresh. -/
def State.bindFresh (s : State) (l : Launch) (crew nblocks round : Nat) (g : Gang) : State :=
  let s := { s with blocks := Tbl.put s.blocks (blockKey g.core g.bslot) (g.block l crew nblocks round (s.pickWays g.core (waysOf l.words))) }
  (g.recs.filter fun r => r.role != 4).foldl (fun s r =>
    { s with waves := Tbl.put s.waves (32 * g.core + r.slot) (g.wave l crew r) }) s

/-- The record whose slot a saved wave takes: that of its index, or for a spawned wave a free reservation. -/
def Gang.recFor (g : Gang) (w : Wave) (taken : List Nat) : Option BindRec :=
  if w.role ≠ 4 then g.recs.find? fun r => r.role != 4 && r.wave == w.waveIdx
  else
    let free := g.recs.filter fun r => r.role == 4 && !taken.contains r.slot
    (free.find? fun r => r.wave == w.waveIdx).orElse fun _ => free.head?

/-- Put the saved waves of one side of a block into the slots of its gang; `cyc` is the counter that its timed waits now count
(R125, R494). -/
def State.placeWaves (g : Gang) (cyc : Nat) : List Wave → List Nat → State → State
  | [], _, s => s
  | w :: ws, taken, s =>
    match g.recFor w taken with
    | none => State.placeWaves g cyc ws taken s
    | some r =>
      let w := { w.onCycles fun n => n + cyc with bslot := g.bslot, vbase := r.vbase, accbase := r.accbase }
      State.placeWaves g cyc ws (taken ++ [r.slot]) { s with waves := Tbl.put s.waves (32 * g.core + r.slot) w }

/-- Bind one gang from a saved image. -/
def State.bindSaved (s : State) (x : SaveImage) (leader : Nat) (g : Gang) : State :=
  match x.blocks.find? fun b => b.2.blocklin == g.blocklin && b.2.shadow == g.shadow with
  | none => s
  | some (_, b) =>
    let ws := (x.waves.filter fun w => w.2.blocklin == g.blocklin && w.2.shadow == g.shadow).map (·.2)
    let idle := g.recs.filter fun r => r.role != 4 && !(ws.any fun w => w.role != 4 && w.waveIdx == r.wave)
    let b := { b with spbase := g.head.spbase, obbase := g.head.obbase, stbase := g.head.stbase, pool := g.pool, stopping := false,
                      lent := s.pickWays g.core b.ways, gone := idle.map BindRec.share }
    State.placeWaves g (s.core leader).cyc ws [] { s with blocks := Tbl.put s.blocks (blockKey g.core g.bslot) b }

/-- Pending swath operations are sent again (R390). -/
def State.rejoinSwath (s : State) (wid : Nat) : State :=
  match s.wave wid with
  | none => s
  | some w =>
    if w.shadow then s
    else
      let s := s.modWave wid fun w => { w with sends := [], recvs := [] }
      let s := w.sends.foldl (fun s x =>
        let r := (s.joinRound w.lid x.handle true).getD x.round
        s.modWave wid fun w => { w with sends := w.sends ++ [{ x with round := r }] }) s
      w.recvs.foldl (fun s x =>
        let r := (s.joinRound w.lid x.handle false).getD x.round
        s.modWave wid fun w => { w with recvs := w.recvs ++ [{ x with round := r }] }) s

/-- AWAIT registers again (R422). -/
def State.rejoinRegions (s : State) (wid : Nat) : State :=
  match s.wave wid with
  | none => s
  | some w => (w.frags.filterMap fun f => match f.2.wait with | some (.region r _ _) => some r | _ => none).foldl
      (fun s r => s.answerWaiters r) s

/-- The crew's scope entries at its new hub (R384). -/
def State.restoreHub (s : State) (gs : List Gang) (hub : Nat) (l : List (Nat × ScopeEntry)) : State :=
  let here (e : ScopeEntry) : ScopeEntry := match e.party with
    | .wave lid crew blk core =>
      let core := match gs.find? fun g => g.blocklin == blk && !g.shadow with
        | some g => g.core
        | none => core
      { e with party := .wave lid crew blk core }
    | .outside => e
  l.foldl (fun s p =>
    { s with hubScope := scopePut s.hubScope (fun x => x / 2 ^ 33 == hub) (hubKey hub p.1) (here p.2) }) s

/-- The crew resumes with every count restored (R391, R494). -/
def State.bindCrewSaved (s : State) (ck : Nat) (x : SaveImage) (gs : List Gang) (core : Nat) : State :=
  let crew : Crew := { x.crew with die := dieOfCore core, cluster := clusterOfCore core }
  let s := { s with crews := Tbl.put s.crews ck crew, saves := Tbl.del s.saves ck }
  let leader (g : Gang) : Nat := if g.shadow then twinCore g.core else g.core
  let s := gs.foldl (fun s g => s.bindSaved x (leader g) g) s
  let s := s.restoreHub gs (hubOf core) x.hub
  let wids := (s.waves.filter fun w => w.2.ckey == ck).map (·.1)
  wids.foldl (fun s w => (s.rejoinSwath w).rejoinRegions w) s

/-- The crew is bound fresh (R372, R377, R505, R506). -/
def State.bindCrewFresh (s : State) (lid crew : Nat) (l : Launch) (gs : List Gang) (core : Nat) : State :=
  let ck := crewKey lid crew
  let size := if l.round.isSome then 1 else crewSizeOf l.words
  let c : Crew := { lid := lid, ctx := l.ctx, idx := crew, die := dieOfCore core, cluster := clusterOfCore core, size := size,
                    share := crewShareOf l.words, buf := [], bars := [], ended := 0 }
  let born := l.round.bind fun r => r.unbound.find? fun b => b.handle == crew
  let nblocks := match born with | some b => b.nblocks | none => l.nblocks
  let round := match born with | some b => b.round | none => 0
  let taken (r : RoundState) : RoundState := { r with unbound := r.unbound.filter fun b => b.handle != crew }
  let s := s.modLaunch lid fun l => { l with round := l.round.map taken }
  let s := { s with crews := Tbl.put s.crews ck c, saves := Tbl.del s.saves ck }
  gs.foldl (fun s g => s.bindFresh l crew nblocks round g) s

/-- Ways that the gangs of a crew are lent on one core. -/
def waysOn (gs : List Gang) (ways core : Nat) : Nat := ways * (gs.filter fun g => g.core == core).length

/-- Every share that a bind record does not name is free: the lent ways, the hub's crew records and the crew shares (R251, R372,
R373). -/
def State.roomFor (s : State) (l : Launch) (gs : List Gang) (core : Nat) : Bool :=
  let waysAt (c : Nat) : Nat := ((s.blocks.filter fun b => b.1 / 8 == c).map fun b => b.2.ways).sum
  let near := s.crews.filter fun c => c.2.die == dieOfCore core && c.2.cluster == clusterOfCore core
  (gs.all fun g => decide (waysAt g.core + waysOn gs (waysOf l.words) g.core ≤ 8)) && decide (near.length < 8) &&
    decide ((near.map fun c => c.2.share).sum + crewShareOf l.words ≤ 16)

/-- Update-only lines that lending ways to gangs sends home. -/
def State.lentLocs (s : State) (gs : List Gang) (ways : Nat) : List Loc :=
  gs.flatMap fun g => (((s.core g.core).inWays (s.pickWays g.core (waysOn gs ways g.core))).flatMap (s.core g.core).uOf).map fun n => .dev (64 * n)

/-- The crew's gangs have all reached GLAST, those of a saved crew for each block that its image holds (R391, R494), and the crew
may start. -/
def State.gangReady (s : State) (lid crew : Nat) (l : Launch) (gs : List Gang) (core : Nat) : Bool :=
  let size := (if l.round.isSome then 1 else crewSizeOf l.words) * (if flagOf l.words 46 then 2 else 1)
  let image := if gs.any fun g => g.resume then Tbl.find s.saves (crewKey lid crew) else none
  let saved := image.isSome
  let whole := match image with
    | some x => gs.length == x.blocks.length && x.blocks.all fun b => gs.any fun g => g.blocklin == b.2.blocklin && g.shadow == b.2.shadow
    | none => gs.length == size
  whole && l.killReq.isNone && (s.crew (crewKey lid crew)).isNone &&
    (l.round.isSome || gs.all fun g => !l.ended.contains g.blocklin) && Tbl.find l.crewDie crew == some (dieOfCore core) &&
    !(s.die (dieOfCore core)).hartFrozen && (gs.all fun g => g.resume == (gs.any fun g => g.resume)) && (!(gs.any fun g => g.resume) || saved) && s.roomFor l gs core

/-- A bind clears DONE and REFUSED of the slot; a pre-emption asked for during the bind begins (R492, R493). -/
def State.settleSlots (s : State) (gs : List Gang) : State :=
  let busy := gs.any fun g => (s.core g.core).prBusy.getLsbD g.bslot
  gs.foldl (fun s g =>
    let m := 1#8 <<< g.bslot
    let s := s.modCore g.core fun c => { c with prDone := c.prDone &&& ~~~m, prRefused := c.prRefused &&& ~~~m,
                                                prBusy := if busy then c.prBusy ||| m else c.prBusy }
    s.modBlock (blockKey g.core g.bslot) fun b => { b with stopping := busy }) s

/-- A crew starts: every slot is set, the shares are zeroed, and the role waves start in one cycle (R488); a TWIN block takes
its first checkpoint (R281). -/
def State.startGang (s : State) (lid crew : Nat) : Option State :=
  match s.launch lid with
  | none => none
  | some l =>
    let gs := s.gangs.filter fun g => g.lid == lid && s.gangCrew g == crew && g.glast
    match gs with
    | [] => none
    | g0 :: _ =>
      if !s.gangReady lid crew l gs g0.core then none
      else if !gs.all fun g => s.lendRoom g.core (waysOn gs (waysOf l.words) g.core) then s.starveAtStep (s.lentLocs gs (waysOf l.words))
      else
        let ways := waysOf l.words
        let s := gs.foldl (fun s g => s.lendWays g.core (waysOn gs ways g.core)) { s with gangs := s.gangs.filter fun g => !gs.contains g }
        let s := s.modLaunch lid fun l => { l with crewDie := Tbl.del l.crewDie crew }
        let s := match g0.resume, Tbl.find s.saves (crewKey lid crew) with
          | true, some x => s.bindCrewSaved (crewKey lid crew) x gs g0.core
          | _, _ => s.bindCrewFresh lid crew l gs g0.core
        let s := s.settleSlots gs
        let leaders := (gs.filter fun g => !g.shadow).map fun g => blockKey g.core g.bslot
        some (if flagOf l.words 46 then leaders.foldl State.checkpoint s else s)

/-- GANG_START (R488). -/
def execGangStart (lid crew : Nat) (s : State) : Host.Outcome State Fault Refusal :=
  onEvent "GANG_START" (s.startGang lid crew)

end Sys2Proof.Machine
end

