-- ==== Sys2Proof/Machine/BitGroup.lean ====
section
/-! DEFINITION. The bit group, 0x38 to 0x3F (R160, R161). -/

namespace Sys2Proof.Machine

/-- Leading zeros of an n-bit value; n for zero. -/
def clzVal (n x : Nat) : Nat := if x = 0 then n else n - 1 - x.log2

/-- Trailing zeros, `n` bits looked at; counts up from `k`. -/
def ctzFrom : Nat → Nat → Nat → Nat
  | 0, k, _ => k
  | n + 1, k, x => if x % 2 = 1 then k else ctzFrom n (k + 1) (x / 2)

/-- Position of the (b+1)-th 1 bit, counted from bit `k`; none when there is none. -/
def fnsFrom : Nat → Nat → Nat → Nat → Option Nat
  | 0, _, _, _ => none
  | n + 1, k, x, b =>
    if x % 2 = 1 then if b = 0 then some k else fnsFrom n (k + 1) (x / 2) (b - 1) else fnsFrom n (k + 1) (x / 2) b

/-- BFX (R161). -/
def bfxVal (signed : Bool) (n a b c : Nat) : Nat :=
  let c := min c n
  if c = 0 then 0
  else
    let pad := signed && bit a (n - 1)
    -- bits at or above n read as the padding bit
    let wide := if pad then a + (2 ^ (2 * n) - 2 ^ n) else a
    let f := (wide >>> min b n) % 2 ^ c
    if signed then signExt c n f else f

/-- BFI (R161). -/
def bfiVal (n a b c : Nat) : Nat :=
  let off := bits c 7 0
  let len := bits c 15 8
  let m := ((2 ^ len - 1) <<< off) % 2 ^ n
  (a - (a &&& m)) ||| ((b <<< off) % 2 ^ n &&& m)

/-- BMSK (R161). -/
def bmskVal (n a b : Nat) : Nat := if a ≥ n then 0 else ((2 ^ min b n - 1) <<< a) % 2 ^ n

/-- A bit instruction on A of the word's type. -/
def bitUnary (e : Env) (f : Nat → Nat → Nat) : WRes :=
  let t := e.ty
  e.elems t 4 fun i => f (tyBits t) (e.a t i)

/-- POPC (R160). -/
def execPopc (w : Fields) (s : State) : Host.Outcome State Fault Refusal := onWord w s fun e => bitUnary e popCount

/-- CLZ (R160). -/
def execClz (w : Fields) (s : State) : Host.Outcome State Fault Refusal := onWord w s fun e => bitUnary e clzVal

/-- CTZ (R160). -/
def execCtz (w : Fields) (s : State) : Host.Outcome State Fault Refusal :=
  onWord w s fun e => bitUnary e fun n x => ctzFrom n 0 x

/-- FNS (R160). -/
def execFns (w : Fields) (s : State) : Host.Outcome State Fault Refusal :=
  onWord w s fun e =>
    let t := e.ty
    e.elems t 4 fun i => (fnsFrom (tyBits t) 0 (e.a t i) (e.b .n32 i)).getD (2 ^ tyBits t - 1)

/-- BREV (R160). -/
def execBrev (w : Fields) (s : State) : Host.Outcome State Fault Refusal := onWord w s fun e => bitUnary e revBits

/-- BFX (R160, R161). -/
def execBfx (w : Fields) (s : State) : Host.Outcome State Fault Refusal :=
  onWord w s fun e =>
    let t := e.ty
    e.elems t 4 fun i => bfxVal (tySigned t) (tyBits t) (e.a t i) (e.b .n32 i) (e.c .n32 i)

/-- BFI (R160, R161). -/
def execBfi (w : Fields) (s : State) : Host.Outcome State Fault Refusal :=
  onWord w s fun e =>
    let t := e.ty
    e.elems t 4 fun i => bfiVal (tyBits t) (e.a t i) (e.b t i) (e.c .n32 i)

/-- BMSK (R160, R161). -/
def execBmsk (w : Fields) (s : State) : Host.Outcome State Fault Refusal :=
  onWord w s fun e =>
    let t := e.ty
    e.elems t 4 fun i => bmskVal (tyBits t) (e.a t i) (e.b .n32 i)

end Sys2Proof.Machine
end

