-- ==== Sys2Proof/Machine/Context.lean ====
section
/-! DEFINITION. Contexts: their assignment, descriptors and keys (R477, R533, R561); page walks, fault answers and
invalidations (R429 to R431); region completions at the counter home (R416); the scrubbers (R432 to R434). -/

namespace Sys2Proof.Machine

/-! ### CTXFN and descriptors (R477, R561) -/

/-- The context's descriptor is VALID. -/
def State.ctxValid (s : State) (ctx : Nat) : Bool := bit (s.ctx ctx).word0.toNat 0

/-- CTXFN_WRITE (R561). -/
def execCtxfnWrite (fn ctx : Nat) (val : W64) (s : State) : Host.Outcome State Fault Refusal :=
  onFn fn s fun s =>
    if fn ≠ 0 || 256 ≤ ctx || s.ctxValid ctx then s else { s with ctxfn := Tbl.set 0 s.ctxfn ctx (val.setWidth 6) }

/-- The function may write the context's descriptor (R477). -/
def State.mayDescribe (s : State) (fn ctx : Nat) : Bool := decide (ctx < 256) && (fn == 0 || s.holder ctx == fn)

/-- Draw a context's key (R533). -/
def State.drawKey (s : State) (ctx : Nat) : State :=
  let n := s.sec.keysDrawn
  { s.modCtx ctx fun c => { c with key := some n } with sec := { s.sec with keysDrawn := n + 1 } }

/-- Tear a context down: its key is erased, its lines leave every L1, its retention entries are free (R401, R533). -/
def State.tearDown (s : State) (ctx : Nat) : State :=
  let s := s.modCtx ctx fun c => { c with key := none }
  let mine (k : Nat) (x : L1Line) : Bool := !x.crew && k / 2 / 2 ^ 33 == ctx
  { s with cores := Tbl.mapv (fun _ c => { c with l1 := Tbl.keep (fun k x => !mine k x) c.l1 }) s.cores,
           retention := Tbl.keep (fun _ r => r.owner != ctx) s.retention }

/-- A write of word 0: ignored while a launch of the context is live; creates or tears down with VALID. -/
def State.writeWord0 (s : State) (ctx val : Nat) : State :=
  if s.ctxLive ctx then s
  else
    let was := s.ctxValid ctx
    let s := s.modCtx ctx fun c => { c with word0 := BitVec.ofNat 64 (bits val 63 12 * 4096 + bits val 0 0) }
    if !was && bit val 0 then s.drawKey ctx else if was && !bit val 0 then s.tearDown ctx else s

/-- A write of word 3: EVVEC, EVINT and EVHEAD; held events are tried again (R477, R479). -/
def State.writeWord3 (s : State) (ctx val : Nat) : State :=
  let set (c : Context) : Context :=
    let n := 2 ^ bits c.word1.toNat 5 0
    { c with word3 := BitVec.ofNat 64 (bits val 51 44 * 2 ^ 44 + bits val 43 43 * 2 ^ 43 + bits c.word3.toNat 31 16 * 2 ^ 16 +
                                       bits val 15 0 % n) }
  (s.modCtx ctx set).flushEvents ctx

/-- A write of one word of a descriptor. -/
def State.writeDescriptor (s : State) (fn ctx word val : Nat) : State :=
  if !s.mayDescribe fn ctx then s
  else match word with
    | 0 => s.writeWord0 ctx val
    | 1 => if s.ctxLive ctx then s else s.modCtx ctx fun c => { c with word1 := BitVec.ofNat 64 val }
    | 2 => s.modCtx ctx fun c => { c with word2 := BitVec.ofNat 64 (bits val 63 32 * 2 ^ 32 + bits val 27 16 * 2 ^ 16) }
    | 3 => s.writeWord3 ctx val
    | _ => s

/-- CONTEXT_CREATE (R561): word 0 with VALID 1. -/
def execContextCreate (fn ctx : Nat) (val : W64) (s : State) : Host.Outcome State Fault Refusal :=
  onFn fn s fun s => s.writeDescriptor fn ctx 0 (val ||| 1).toNat

/-- CONTEXT_TEARDOWN (R533, R561): word 0 with VALID 0. -/
def execContextTeardown (fn ctx : Nat) (val : W64) (s : State) : Host.Outcome State Fault Refusal :=
  onFn fn s fun s => s.writeDescriptor fn ctx 0 (val &&& 0xFFFFFFFFFFFFFFFE).toNat

/-- CONTEXT_DESCRIPTOR_WRITE (R477). -/
def execContextDescriptorWrite (fn ctx word : Nat) (val : W64) (s : State) : Host.Outcome State Fault Refusal :=
  onFn fn s fun s => s.writeDescriptor fn ctx word val.toNat

/-- EVHEAD_WRITE (R477): word 3. -/
def execEvheadWrite (fn ctx : Nat) (val : W64) (s : State) : Host.Outcome State Fault Refusal :=
  onFn fn s fun s => s.writeDescriptor fn ctx 3 val.toNat

/-! ### Page walks (R429, R430) -/

/-- The fragment waits for a walk or for an answer on the die. -/
def Die.waitsFor (d : Die) (wid fr : Nat) : Bool :=
  (d.walks.any fun x => x.wid == wid && x.frag == fr) || d.faults.any fun x => x.who.contains (.frag wid fr)

/-- A fragment whose last walk has ended issues its word again. -/
def State.endWalk (s : State) (wid fr : Nat) : State :=
  if (s.die (dieOfCore (coreOfWave wid))).waitsFor wid fr then s
  else s.modFrag wid fr fun f => { f with wait := if f.wait = some .walk then none else f.wait }

/-- The oldest miss of a die is walked, with every other miss of its page (R429); an entry that is not valid sends a fault
record (R430). -/
def State.walkNext (s : State) (die : Nat) : Option State :=
  match (s.die die).walks with
  | [] => none
  | x :: _ =>
    let (s, page) := s.walkOnDie die x.ctx x.va
    let same (y : WalkReq) : Bool := y.ctx == x.ctx && match page with
      | some p => y.va % 2 ^ 57 / p.size == p.vbase / p.size
      | none => y.va % 2 ^ 57 / 2 ^ 16 == x.va % 2 ^ 57 / 2 ^ 16
    let mine := (s.die die).walks.filter same
    let s := s.modDie die fun d => { d with walks := d.walks.filter fun y => !same y }
    match page with
    | some p =>
      let cores := dedup (mine.map fun y => coreOfWave y.wid)
      let s := cores.foldl (fun s c => s.tlbFill c x.ctx p) s
      some (mine.foldl (fun s y => s.endWalk y.wid y.frag) s)
    | none =>
      let who := dedup (mine.map fun y => Waiter.frag y.wid y.frag)
      some (s.postFault die { ctx := x.ctx, va := x.va, need := x.need, who := who })

/-- TLB_MISS_WALK (R429). -/
def execTlbMissWalk (die : Nat) (s : State) : Host.Outcome State Fault Refusal :=
  onDie die (onEvent "TLB_MISS_WALK" (s.walkNext die))

/-! ### Fault answers (R275, R430) -/

/-- The page unit of an address, as `failed` lists it. -/
def pageOf (va : Nat) : Nat := va % 2 ^ 57 / 2 ^ 16

/-- Answer one waiter. -/
def State.answerOne (s : State) (va : Nat) (retry : Bool) (w : Waiter) : State :=
  match w with
  | .frag wid fr =>
    let mark (f : Frag) : Frag :=
      if !retry && f.wait == some .walk then { f with failed := f.failed ++ [pageOf va] } else f
    (s.modFrag wid fr mark).endWalk wid fr
  | .copy core id => if retry then s.modCopy core id fun c => { c with bad := none } else s.failCopy core id
  | .req id =>
    let mark (r : EngReq) : EngReq :=
      if r.id = id then { r with blocked := false, failed := if retry then r.failed else r.failed ++ [pageOf va] } else r
    { s with reqs := s.reqs.map mark }
  | .clone lid =>
    let mark (j : CloneJob) : CloneJob := if j.waiting then { j with waiting := false, failed := !retry } else j
    s.modRound lid fun r => { r with clones := r.clones.map mark }

/-- The dispatch hart answers a fault record. -/
def State.answerFault (s : State) (die idx : Nat) (retry : Bool) : Option State :=
  match (s.die die).faults[idx]? with
  | none => none
  | some x =>
    if !s.hartRuns die then none
    else
      let s := s.modDie die fun d => { d with faults := d.faults.eraseIdx idx }
      some (x.who.foldl (fun s w => s.answerOne x.va retry w) s)

/-- FAULT_ANSWER (R430). -/
def execFaultAnswer (die idx : Nat) (retry : Bool) (s : State) : Host.Outcome State Fault Refusal :=
  onDie die (onEvent "FAULT_ANSWER" (s.answerFault die idx retry))

/-! ### Invalidation (R431, R479) -/

/-- INVALIDATION of the addresses `lo` to `hi` of a context (R431): the TLBs and the walk caches drop the entries; an access of
the model ends within its step, so none is under way with them; then held events are tried again (R479). -/
def execInvalidation (ctx lo hi : Nat) (s : State) : Host.Outcome State Fault Refusal :=
  let hit (k : Nat) (p : Page) : Bool := k / 2 ^ 41 == ctx && decide (p.vbase ≤ hi % 2 ^ 57) && decide (lo % 2 ^ 57 < p.vbase + p.size)
  let hitWalk (k : Nat) : Bool :=
    let l := k % 8
    k / 2 ^ 41 == ctx && decide (k / 8 % 2 ^ 38 ≤ hi % 2 ^ 57 / 2 ^ (9 * l + 12)) && decide (lo % 2 ^ 57 / 2 ^ (9 * l + 12) ≤ k / 8 % 2 ^ 38)
  let s := { s with cores := Tbl.mapv (fun _ c => { c with tlb := Tbl.keep (fun k p => !hit k p) c.tlb }) s.cores,
                    dies := Tbl.mapv (fun _ d => { d with walkCache := Tbl.keep (fun k _ => !hitWalk k) d.walkCache }) s.dies }
  .next ((s.ctxs.map (·.1)).foldl State.flushEvents s)

/-! ### Regions (R416) -/

/-- REGION_PHASE_COMPLETE (R416). -/
def execRegionPhaseComplete (rid : Nat) (s : State) : Host.Outcome State Fault Refusal :=
  onEvent "REGION_PHASE_COMPLETE" (if (s.region rid).completes then some (s.completePhase rid) else none)

/-! ### Scrubbers (R432 to R434) -/

/-- Device address of line `n` of a channel (R396). -/
def channelLine (die chan n : Nat) : Nat :=
  let off := 64 * n
  let hi := bits off 30 12
  let low := chan ^^^ bits hi 5 0 ^^^ bits hi 11 6 ^^^ bits hi 17 12 ^^^ bits hi 18 18
  die * 2 ^ 37 + hi * 2 ^ 18 + low * 2 ^ 12 + off % 4096

/-- Lines of an array: a channel of 2 GiB, a canopy slice of 16 MiB. -/
def arrayLines (canopy : Bool) : Nat := if canopy then 2 ^ 18 else 2 ^ 25

/-- The scrubber of a channel or slice reads its next line; a new pass takes the period then in SCRUBPER (R434, R435). -/
def State.scrub1 (s : State) (die : Nat) (canopy : Bool) (unit : Nat) (found : EccRead) : State :=
  let d := s.die die
  let key := if canopy then 64 + unit else unit
  let pos := Tbl.get d.scrub key 0
  let (use, s) := s.fresh
  let pa := if canopy then (Config.canopyLine use).map fun n => channelLine die unit (n % 2 ^ 25)
    else some (channelLine die unit pos)
  let next := (pos + 1) % arrayLines canopy
  let per := d.scrubper.toNat
  let period := if canopy then bits per 13 8 else bits per 5 0
  let old := if canopy then 34 else 37
  let s := s.foundError die pa found
  s.modDie die fun d =>
    { d with scrub := Tbl.set 0 d.scrub key next,
             scrubPeriod := if next = 0 then Tbl.set old d.scrubPeriod key period else d.scrubPeriod }

/-- SCRUB_STEP (R434). -/
def execScrubStep (die : Nat) (canopy : Bool) (unit : Nat) (found : EccRead) (s : State) : Host.Outcome State Fault Refusal :=
  onDie die (onEvent "SCRUB_STEP" (if unit < 64 && !(s.die die).inReset then some (s.scrub1 die canopy unit found) else none))

end Sys2Proof.Machine
end

