-- ==== Sys2Proof/Machine/Convert.lean ====
section
/-! DEFINITION. The conversion group, 0x60 to 0x64 (R172 to R177). -/

namespace Sys2Proof.Machine

/-- The source type in F[4:0] (R172). -/
def Env.st (e : Env) : Ty := (tyOf (e.f 4 0)).getD .b32

/-- CVT (R173). -/
def execCvt (w : Fields) (s : State) : Host.Outcome State Fault Refusal :=
  onWord w s fun e => e.felems e.ty 5 fun i => cvt e.ty e.st e.rm (e.fbit 5) (e.a e.st i)

/-- QNT (R174). -/
def execQnt (w : Fields) (s : State) : Host.Outcome State Fault Refusal :=
  onWord w s fun e =>
    e.felems e.ty 5 fun i => quantise e.ty e.rm (e.fbit 5) (fval e.st (e.a e.st i)) (fval e.st (e.b e.st i))

/-- DQNT (R175). -/
def execDqnt (w : Fields) (s : State) : Host.Outcome State Fault Refusal :=
  onWord w s fun e => e.felems e.ty 5 fun i => dequantise e.ty e.st e.rm (e.a e.st i) (e.b .f32 i)

/-- PKN's word: two converted values placed beside the bits that stay (R176). -/
def pknVal (dt : Ty) (h old x y : Nat) : Nat :=
  if tyBits dt = 8 then setBits (setBits old (16 * h + 7) (16 * h) x) (16 * h + 15) (16 * h + 8) y
  else setBits (setBits old 15 0 x) 31 16 y

/-- PKN (R176): the other bits of D stay, in a scalar bits 63 to 32 too. -/
def execPkn (w : Fields) (s : State) : Host.Outcome State Fault Refusal :=
  onWord w s fun e =>
    let dt := e.ty
    let h := e.w.c.toNat - 0xE0
    let t : Ty := if e.w.d.toNat < 0x80 then .b32 else .b64
    e.felems t 5 fun i =>
      let (x, f) := cvt dt .f32 e.rm (e.fbit 5) (e.a .f32 i)
      let (y, g) := cvt dt .f32 e.rm (e.fbit 5) (e.b .f32 i)
      (pknVal dt h (e.src e.w.d.toNat t i) x y, f ||| g)

/-- UPKN: element j of a packed word, widened to FP32 (R177). -/
def upknVal (st : Ty) (x j : Nat) : Nat × FFlags :=
  let n := tyBits st
  roundVal fmtF32 .rne (valOf st ((x >>> (n * j)) % 2 ^ n))

/-- UPKN (R177). -/
def execUpkn (w : Fields) (s : State) : Host.Outcome State Fault Refusal :=
  onWord w s fun e => e.felems .f32 5 fun i => upknVal e.st (e.a .b32 i) (e.w.c.toNat - 0xE0)

end Sys2Proof.Machine
end

