-- ==== Sys2Proof/Machine/FloatArith.lean ====
section
/-! DEFINITION. Floating-point arithmetic, 0x40 to 0x55 (R162 to R171). -/

namespace Sys2Proof.Machine

/-- The element types of a float type: a packed type has two (R142). -/
def elemTy : Ty → Ty
  | .f16x2 => .f16
  | .bf16x2 => .bf16
  | t => t

/-- Apply a function of element encodings to one value, or to both halves of a packed one (R142). -/
def perElem (t : Ty) (f : (Nat → Nat) → Nat × FFlags) : Nat × FFlags :=
  if t = .f16x2 ∨ t = .bf16x2 then
    let (x, g) := f fun v => v % 2 ^ 16
    let (y, h) := f fun v => v / 2 ^ 16
    (x + y * 2 ^ 16, g ||| h)
  else f id

/-- An operation of two values, delivered in the format. -/
def float2 (t : Ty) (m : RM) (op : Val → Val → Val × FFlags) (a b : Nat) : Nat × FFlags :=
  let u := elemTy t
  perElem t fun h => deliver (fmtOf u) m (op (fval u (h a)) (fval u (h b)))

/-- An instruction of two float operands with N/A bits (R142, R162). -/
def floatOp2 (e : Env) (lat : Nat) (m : RM) (op : Val → Val → Val × FFlags) : WRes :=
  let t := e.ty
  e.felems t lat fun i => float2 t m op (e.na t i) (e.nb t i)

/-- An instruction of one float operand with N/A bits. -/
def floatOp1 (e : Env) (lat : Nat) (op : Fmt → RM → Val → Nat × FFlags) : WRes :=
  let t := e.ty
  e.felems t lat fun i => op (fmtOf t) e.rm (fval t (e.na t i))

/-- FADD (R162). -/
def execFadd (w : Fields) (s : State) : Host.Outcome State Fault Refusal :=
  onWord w s fun e => floatOp2 e 5 e.rm (addVal e.rm)

/-- FSUB (R162). -/
def execFsub (w : Fields) (s : State) : Host.Outcome State Fault Refusal :=
  onWord w s fun e => floatOp2 e 5 e.rm fun a b => addVal e.rm a (Val.neg b)

/-- FMUL (R162). -/
def execFmul (w : Fields) (s : State) : Host.Outcome State Fault Refusal :=
  onWord w s fun e => floatOp2 e 5 e.rm mulVal

/-- a × b + c with one rounding, by element (R162). -/
def ffmaVal (t : Ty) (m : RM) (a b c : Nat) : Nat × FFlags :=
  let u := elemTy t
  perElem t fun h => deliver (fmtOf u) m (fmaVal m (fval u (h a)) (fval u (h b)) (fval u (h c)))

/-- FFMA (R162). -/
def execFfma (w : Fields) (s : State) : Host.Outcome State Fault Refusal :=
  onWord w s fun e =>
    let t := e.ty
    e.felems t 5 fun i => ffmaVal t e.rm (e.na t i) (e.nb t i) (e.nc t i)

/-- FMIN (R163). -/
def execFmin (w : Fields) (s : State) : Host.Outcome State Fault Refusal :=
  onWord w s fun e => floatOp2 e 5 .rne (minMaxVal false)

/-- FMAX (R163). -/
def execFmax (w : Fields) (s : State) : Host.Outcome State Fault Refusal :=
  onWord w s fun e => floatOp2 e 5 .rne (minMaxVal true)

/-- FCMP (R164). -/
def execFcmp (w : Fields) (s : State) : Host.Outcome State Fault Refusal :=
  onWord w s fun e =>
    let t := e.ty
    let r (i : Nat) : Bool × FFlags := fcmp (e.f 13 11) (fval t (e.na t i)) (fval t (e.nb t i))
    .done { s := e.s, ws := e.putK e.w.d.toNat fun i => (r i).1, fl := e.lanes.map fun i => (i, (r i).2),
            dcode := e.w.d.toNat, lat := 5 }

/-- FCLASS (R165). -/
def execFclass (w : Fields) (s : State) : Host.Outcome State Fault Refusal :=
  onWord w s fun e =>
    let t := e.ty
    e.elems .n32 5 fun i => fclass (fmtOf t) (e.a t i)

/-- FRND (R166). -/
def execFrnd (w : Fields) (s : State) : Host.Outcome State Fault Refusal :=
  onWord w s fun e => floatOp1 e 5 frnd

/-- FDIV (R167, R168). -/
def execFdiv (w : Fields) (s : State) : Host.Outcome State Fault Refusal :=
  onWord w s fun e => floatOp2 e 18 e.rm divVal

/-- FSQRT (R167, R168). -/
def execFsqrt (w : Fields) (s : State) : Host.Outcome State Fault Refusal :=
  onWord w s fun e => floatOp1 e 18 fun f m a => deliver f m (sqrtVal a)

/-- FRCP (R167, R168). -/
def execFrcp (w : Fields) (s : State) : Host.Outcome State Fault Refusal :=
  onWord w s fun e => floatOp1 e 18 fun f m a => deliver f m (divVal (.num false 1 1 0) a)

/-- FRSQ (R167, R168). -/
def execFrsq (w : Fields) (s : State) : Host.Outcome State Fault Refusal :=
  onWord w s fun e => floatOp1 e 18 fun f m a => deliver f m (rsqrtVal a)

/-- FEXP2 (R167, R168). -/
def execFexp2 (w : Fields) (s : State) : Host.Outcome State Fault Refusal :=
  onWord w s fun e => floatOp1 e 22 fexp2

/-- FLOG2 (R167, R168). -/
def execFlog2 (w : Fields) (s : State) : Host.Outcome State Fault Refusal :=
  onWord w s fun e => floatOp1 e 22 flog2

/-- FSINPI (R167, R168). -/
def execFsinpi (w : Fields) (s : State) : Host.Outcome State Fault Refusal :=
  onWord w s fun e => floatOp1 e 22 fsinpi

/-- FCOSPI (R167, R168). -/
def execFcospi (w : Fields) (s : State) : Host.Outcome State Fault Refusal :=
  onWord w s fun e => floatOp1 e 22 fcospi

/-- FSCALE (R169). -/
def execFscale (w : Fields) (s : State) : Host.Outcome State Fault Refusal :=
  onWord w s fun e =>
    let t := e.ty
    e.felems t 5 fun i => fscale (fmtOf t) e.rm (fval t (e.a t i)) (toSigned 32 (e.b .i32 i))

/-- FGETX (R169). -/
def execFgetx (w : Fields) (s : State) : Host.Outcome State Fault Refusal :=
  onWord w s fun e =>
    let t := e.ty
    e.felems .i32 5 fun i => let (x, g) := fgetx (fval t (e.a t i)); (wrap 32 x, g)

/-- FGETM (R169). -/
def execFgetm (w : Fields) (s : State) : Host.Outcome State Fault Refusal :=
  onWord w s fun e =>
    let t := e.ty
    e.felems t 5 fun i => fgetm (fmtOf t) (fval t (e.a t i))

/-- FDOT2 (R170). -/
def execFdot2 (w : Fields) (s : State) : Host.Outcome State Fault Refusal :=
  onWord w s fun e =>
    let t := e.ty
    let u := elemTy t
    e.felems .f32 5 fun i =>
      let a := e.na t i
      let b := e.nb t i
      deliver fmtF32 e.rm (dot2Val e.rm (fval u (a % 2 ^ 16)) (fval u (b % 2 ^ 16)) (fval u (a / 2 ^ 16))
        (fval u (b / 2 ^ 16)) (fval .f32 (absNeg .f32 false (e.fbit 0) (e.c .f32 i))))

/-- SUMC: the pair in vD:vD+1 or in one scalar (R171). -/
def execSumc (w : Fields) (s : State) : Host.Outcome State Fault Refusal :=
  onWord w s fun e =>
    e.felems .b64 5 fun i =>
      let p := e.src e.w.d.toNat .b64 i
      let ((h, l), g) := sumc (p % 2 ^ 32) (p / 2 ^ 32) (e.na .f32 i)
      (h + l * 2 ^ 32, g)

end Sys2Proof.Machine
end

