-- ==== Sys2Proof/Machine/Preempt.lean ====
section
/-! DEFINITION. Pre-emption and its registers (R125, R223, R390, R391, R492 to R494), the kill of a launch and its replay
(R496, R528), and the application of a DET group (R521, R522). -/

namespace Sys2Proof.Machine

/-! ### The registers of a core's control page (R492) -/

/-- SLOTSTAT. -/
def Core.slotstat (c : Core) : W64 := BitVec.ofNat 64 (ofBool c.slotRefused)

/-- PREEMPTSTAT. -/
def Core.preemptstat (c : Core) : W64 :=
  BitVec.ofNat 64 (c.prRefused.toNat * 2 ^ 24 + c.prDone.toNat * 2 ^ 16 + c.prBusy.toNat)

/-- Size of the image of a crew in 4 KiB units. -/
def saveUnitsOf (lid crew : Nat) : Nat := Config.saveUnits (crewKey lid crew) % 2 ^ 32

/-- Launch, crew and context of the block in a slot, bound or being bound. -/
def State.inSlot (s : State) (core bslot : Nat) : Option (Nat × Nat × Nat) :=
  match s.block (blockKey core bslot) with
  | some b => some (b.lid, b.crew, b.ctx)
  | none => (s.gangAt core bslot).map fun g => (g.lid, s.gangCrew g, g.head.ctx)

/-- SAVESZ of a block slot. -/
def State.savesz (s : State) (core n : Nat) : W64 :=
  match s.inSlot core n with
  | some x => BitVec.ofNat 64 (saveUnitsOf x.1 x.2.1)
  | none => 0

/-! ### PREEMPT (R492, R493) -/

/-- Every page of the area translates with W. -/
def State.areaOk (s : State) (ctx area units : Nat) : Bool :=
  (List.range units).all fun i => match s.resolveNow ctx (area + 4096 * i) .write with
    | .ok (.peer _ _ _) => false
    | .ok _ => true
    | _ => false

/-- Every block of a crew stops at its clause boundaries. -/
def State.stopCrew (s : State) (lid crew : Nat) : State :=
  let mine := s.blocks.filter fun b => b.2.lid == lid && b.2.crew == crew
  mine.foldl (fun s b =>
    let s := s.modBlock b.1 fun b => { b with stopping := true }
    s.modCore (b.1 / 8) fun c => { c with prBusy := c.prBusy ||| (1#8 <<< (b.1 % 8)) }) s

/-- A write of PREEMPT. -/
def State.preemptNow (s : State) (core val : Nat) : State :=
  let b := bits val 2 0
  let m := 1#8 <<< b
  if !bit val 3 || (s.core core).prBusy.getLsbD b then s
  else
    let s := s.modCore core fun c => { c with prDone := c.prDone &&& ~~~m, prRefused := c.prRefused &&& ~~~m }
    let refuse : State := s.modCore core fun c => { c with prRefused := c.prRefused ||| m }
    match s.inSlot core b with
    | none => refuse
    | some (lid, crew, ctx) =>
      let area := bits (s.core core).saveaddr.toNat 63 12 * 4096
      if !s.areaOk ctx area (saveUnitsOf lid crew) then refuse
      else (s.modCore core fun c => { c with prBusy := c.prBusy ||| m, saveArea := Tbl.put c.saveArea b area }).stopCrew lid crew

/-- PREEMPT, written by the hart of the die (R493). -/
def execPreempt (core : Nat) (val : W64) (s : State) : Host.Outcome State Fault Refusal :=
  onCore core (onEvent "PREEMPT" (if s.hartRuns (dieOfCore core) then some (s.preemptNow core val.toNat) else none))

/-! ### At rest (R493) -/

/-- The fragment stands at a clause boundary: at a header, a barrier, SLEEP, AWAIT, a replay mask, or for want of a record; or
its wave's handler has stopped it (R239, R493). -/
def Frag.atRest (f : Frag) (w : Wave) (fr : Nat) : Bool :=
  f.clause.isNone || (match w.handler with | some h => h.frag != fr | none => false) ||
    match f.wait with
    | some (.barb _) | some (.barc _) | some (.sleep _) | some (.region _ _ _) | some .walk | some .record => true
    | _ => false

/-- A wave of a stopped block can be saved: its results have landed and every fragment is at rest. -/
def Wave.atRest (w : Wave) : Bool :=
  w.frozen.isNone && w.pending.isEmpty && w.twin.order.isEmpty && (w.frags.all fun f => f.2.atRest w f.1) &&
    (w.aborting.isNone || w.handler.isSome || w.frags.any fun f => f.2.clause.isSome)

/-- A wave can be saved; the shadow of a twin stands wherever its leader's last word has brought it (R278, R493). -/
def State.restsAt (s : State) (wid : Nat) (w : Wave) : Bool :=
  if s.twinned w && w.shadow then w.frozen.isNone && w.pending.isEmpty && match s.wave (s.leaderOf wid w) with
    | some l => l.atRest
    | none => false
  else w.atRest

/-- The crew can be saved (R143, R303, R326, R368, R447). -/
def State.crewAtRest (s : State) (lid crew : Nat) : Bool :=
  let mine := s.blocks.filter fun b => b.2.lid == lid && b.2.crew == crew
  !mine.isEmpty && mine.all fun b =>
    b.2.stopping && s.blockIdle b.1 && (s.blockWaves b.1).all fun p =>
      s.restsAt p.1 p.2 && !(s.picked.any fun x => x.1 == p.1)

/-! ### Saving (R493, R494) -/

/-- A wave as the image holds it: timed waits by what remains of them; an instruction in its replay mask is issued again; ageing
counters are zero (R125, R132, R430). -/
def Wave.forImage (w : Wave) (cyc : Nat) : Wave :=
  let fresh (f : Frag) : Frag := { f with age := 0, wait := if f.wait = some .walk then none else f.wait, clause := f.clause.map fun c => { c with lane := false } }
  let w := w.onCycles fun n => n - cyc
  { w with frags := Tbl.mapv (fun _ f => fresh f) w.frags }

/-- A block as the image holds it. -/
def Block.forImage (b : Block) : Block := { b with twin := { b.twin with ckpt := none, due := none, lvq := [], replayed := [] } }

/-- Forget the page walks and the fault records' waiters of waves. -/
def State.dropWalks (s : State) (gone : Nat → Bool) : State :=
  let keep (w : Waiter) : Bool := match w with
    | .frag wid _ => !gone wid
    | _ => true
  let one (d : Die) : Die :=
    { d with walks := d.walks.filter fun x => !gone x.wid, faults := d.faults.map fun x => { x with who := x.who.filter keep } }
  { s with dies := Tbl.mapv (fun _ d => one d) s.dies }

/-- Take waves out of their slots. -/
def State.dropWaves (s : State) (gone : Nat → Bool) : State :=
  let s := s.dropWalks gone
  { s with waves := Tbl.keep (fun k _ => !gone k) s.waves, picked := s.picked.filter (fun x => !gone x.1),
           grants := Tbl.keep (fun _ h => !gone h) s.grants }

/-- A holder of a grant aborts its span with cause ENCLOSING and gives up the grant; the failure count stays (R223). -/
def State.giveUpGrant (s : State) (wid : Nat) (w : Wave) : State :=
  let give (w : Wave) : Wave := { w with spans := Tbl.mapv (fun _ x => { x with granted := false }) w.spans }
  let l := ([1, 2, 3, 4].find? fun l => (w.span l).holds).getD 1
  let s := (s.abortUnit (whoOf w wid 0) (w.bid wid) l 5).releaseGrants wid
  (s.bothWaves wid).foldl (fun s k => s.modWave k give) s

/-- Write the image to the save area, encrypted (R493): the bytes are open. -/
def State.writeImage (s : State) (lid crew ctx area : Nat) : State :=
  let (draw, s) := s.fresh
  let n := 4096 * saveUnitsOf lid crew
  let l := (List.range n).filterMap fun i => match s.resolveNow ctx (area + i) .write with
    | .ok loc => if s.openTo (some lid) loc then none else some (loc, Config.saveByte draw i)
    | _ => none
  let s := s.writeDev ctx lid none (devBytes l)
  (hostBytes l).foldl (fun s p => { s with hostMem := Memory.write s.hostMem p.1 p.2, hostOut := s.hostOut ++ [.posted p.1 [p.2]] }) s

/-- The places of a save area's image. -/
def State.imageLocs (s : State) (ctx area n : Nat) : List Loc :=
  (List.range n).filterMap fun i => match s.resolveNow ctx (area + i) .write with
    | .ok loc => some loc
    | _ => none

/-- Where the image of a crew goes. -/
def State.areaOf (s : State) (lid crew : Nat) : Nat :=
  ((s.blocks.filter fun b => b.2.lid == lid && b.2.crew == crew).findSome? fun b =>
    Tbl.find (s.core (b.1 / 8)).saveArea (b.1 % 8)).getD 0

/-- The image's write waits, like any write, for the holder of a grant that has read a line of it (R222), and for room in the
replay store (R528). -/
def State.saveWaits (s : State) (lid crew : Nat) (c : Crew) : Bool :=
  if s.grants.isEmpty && s.replay.isEmpty then false
  else
    let ls := s.imageLocs c.ctx (s.areaOf lid crew) (4096 * saveUnitsOf lid crew)
    (s.grantOnLines noWave ls).isSome || !s.replayRoom lid (ls.filterMap fun x => match x with | .dev pa => some pa | _ => none)

/-- The hub entries that name a crew, by line. -/
def State.hubOfCrew (s : State) (lid crew : Nat) : List (Nat × ScopeEntry) :=
  s.hubScope.filterMap fun p => match p.2.party with
    | .wave a c _ _ => if a = lid ∧ c = crew then some (p.1 % 2 ^ 33, p.2) else none
    | .outside => none

/-- Save a crew, free what it holds, and return it to its launch (R486, R493). -/
def State.saveCrew (s : State) (lid crew : Nat) (c : Crew) : State :=
  let ck := crewKey lid crew
  let blocks := s.blocks.filter fun b => b.2.lid == lid && b.2.crew == crew
  let waves := s.waves.filter fun w => w.2.lid == lid && w.2.crew == crew
  let hub := s.hubOfCrew lid crew
  let image : SaveImage :=
    { crew := c, blocks := blocks.map fun b => (b.1, b.2.forImage),
      waves := waves.map fun w => (w.1, w.2.forImage (s.cycOf w.1)), hub := hub }
  let s := s.writeImage lid crew c.ctx (s.areaOf lid crew)
  let s := s.dropWaves fun k => waves.any fun w => w.1 == k
  let s := blocks.foldl (fun s b =>
    let m := 1#8 <<< (b.1 % 8)
    s.modCore (b.1 / 8) fun c => { c with prBusy := c.prBusy &&& ~~~m, prDone := c.prDone ||| m,
                                          saveArea := Tbl.del c.saveArea (b.1 % 8) }) s
  let inHub (k : Nat) : Bool := hub.any fun p => hubKey (8 * c.die + c.cluster) p.1 == k
  let s := { s with blocks := Tbl.keep (fun _ b => !(b.lid == lid && b.crew == crew)) s.blocks, crews := Tbl.del s.crews ck,
                    saves := Tbl.put s.saves ck image, hubScope := Tbl.keep (fun k _ => !inHub k) s.hubScope }
  (s.dropCrewCopies ck).modLaunch lid fun l => { l with returned := sortBy (fun a b => decide (a < b)) (l.returned ++ [crew]) }

/-- What PREEMPT_SAVE_COMPLETE does: grants are given up first, then the crew is saved. -/
def State.saveNow (s : State) (lid crew : Nat) : Option State :=
  match s.crew (crewKey lid crew) with
  | none => none
  | some c =>
    if !s.crewAtRest lid crew then none
    else
      let holders := s.waves.filter fun w => w.2.lid == lid && w.2.crew == crew && !w.2.shadow && w.2.holdsAny
      if holders.isEmpty then (if s.saveWaits lid crew c then none else some (s.saveCrew lid crew c))
      else some (holders.foldl (fun s p => s.giveUpGrant p.1 p.2) s)

/-- PREEMPT_SAVE_COMPLETE (R493). -/
def execPreemptSaveComplete (lid crew : Nat) (s : State) : Host.Outcome State Fault Refusal :=
  onEvent "PREEMPT_SAVE_COMPLETE" (s.saveNow lid crew)

/-! ### Killing a launch (R496) -/

/-- Every slot of the launch stops at once. -/
def State.stopLaunch (s : State) (lid : Nat) : State :=
  let halt (w : Wave) : Wave := if w.lid = lid then { w with frozen := some (w.frozen.getD .killed) } else w
  let mine (k : Nat) : Bool := match s.wave k with
    | some w => w.lid == lid
    | none => false
  let s := { s with waves := Tbl.mapv (fun _ w => halt w) s.waves, picked := s.picked.filter (fun x => !mine x.1),
                    grants := Tbl.keep (fun _ h => !mine h) s.grants }
  s.askKill lid 0

/-- A request that no engine will perform: each engine it stands in is frozen (R532). -/
def State.deadReq (s : State) (r : EngReq) : Bool := r.engines.any fun e => s.frozenEngines.contains e

/-- Copies and engine requests of the launch that have still to complete or end; a copy of a wave frozen by an intrusion performs
nothing more (R532). -/
def State.killWaits (s : State) (lid : Nat) : Bool :=
  let intruder (wid : Nat) : Bool := match s.wave wid with
    | some w => w.frozen == some .intrusion
    | none => true
  (s.cores.any fun c => c.2.copies.any fun x => x.lid == lid && !intruder x.wid) ||
    s.reqs.any fun r => r.lid == lid && !s.deadReq r

/-- Restore one granule at home (R528). -/
def State.restoreGranule (s : State) (key : Nat) (g : Granule) : State :=
  let base := 4096 * (key % 2 ^ 27)
  let mem := g.bytes.foldl (fun m p => Memory.write m p.1 p.2) (Tbl.keep (fun a _ => !(base ≤ a && a < base + 4096)) s.mem)
  let keys := g.keys.foldl (fun m p => Tbl.put m p.1 p.2)
    (Tbl.keep (fun l _ => !(base / 64 ≤ l && l < base / 64 + 64)) s.lineKey)
  { s with mem := mem, lineKey := keys, poison := s.poison.filter fun l => !(base / 64 ≤ l && l < base / 64 + 64) }

/-- A REPLAY launch's effects at home are undone, and its held bytes dropped (R528). -/
def State.undoLaunch (s : State) (lid : Nat) : State :=
  let s := s.cores.foldl (fun s c => (c.2.u.filter fun u => u.2.lid == lid).foldl (fun s u => s.sendU c.1 u.1) s) s
  let s := (s.replay.filter fun g => g.2.lid == lid).foldl (fun s g => s.restoreGranule g.1 g.2) s
  { s with heldSys := s.heldSys.filter fun h => h.lid != lid, replay := Tbl.keep (fun _ g => g.lid != lid) s.replay }

/-- A collector without the members of a launch's waves. -/
def Collector.without (c : Collector) (gone : Nat → Bool) : Collector :=
  { c with members := c.members.filter fun m => !gone m.1.wid }

/-- Everything that the launch holds outside home is discarded, and its shares and slots are free (R496). -/
def State.clearLaunch (s : State) (lid : Nat) : State :=
  let wids := (s.waves.filter fun w => w.2.lid == lid).map (·.1)
  let gone (k : Nat) : Bool := wids.contains k
  let crews := s.crews.filter fun c => c.2.lid == lid
  let s := s.dropWaves gone
  let core (c : Core) : Core :=
    { c with copies := c.copies.filter (fun x => x.lid != lid),
             coll := c.coll.bind (fun x => let y := x.without gone; if y.members.isEmpty then none else some y),
             closed := (c.closed.map fun x => x.without gone).filter fun x => !x.members.isEmpty,
             passes := c.passes.map fun p => { p with col := p.col.without gone } }
  let slots := (s.blocks.filter fun b => b.2.lid == lid).map (·.1) ++
    (s.gangs.filter fun g => g.lid == lid).map fun g => blockKey g.core g.bslot
  let s := slots.foldl State.clearBusy s
  let s := { s with cores := Tbl.mapv (fun _ c => core c) s.cores, blocks := Tbl.keep (fun _ b => b.lid != lid) s.blocks,
                    crews := Tbl.keep (fun _ c => c.lid != lid) s.crews, gangs := s.gangs.filter (fun g => g.lid != lid),
                    reqs := s.reqs.filter (fun r => r.lid != lid), peerOps := s.peerOps.filter fun p => p.lid != lid }
  crews.foldl (fun s c => s.dropCrewCopies c.1) s

/-- A kill is done: REPLAY starts the launch again, at most twice; any other posts TYPE 4 and fails the slot (R483, R496, R528). -/
def State.finishKill (s : State) (lid : Nat) (l : Launch) : State :=
  let replays := s.isReplay lid
  let s := s.clearLaunch lid
  let s := if replays then s.undoLaunch lid else s.releaseWhere fun h => h.lid == lid
  let s := s.dropLaunch lid
  if replays && l.kills < 2 then s.begin l.sk lid l.words (l.kills + 1)
  else (s.postEvent l.ctx (launchEvent 4 l.sk 0 lid) 0).failSlot l.sk

/-- The kill of the launch in a slot: its slots stop, and once its copies and requests are done it is gone. -/
def State.killSlot (s : State) (sk : Nat) : Option State :=
  match Tbl.find s.slots sk with
  | none => none
  | some x => match x.lid with
    | none => some ((s.postEvent (ctxOfSlot sk) (launchEvent 4 sk 0 0) 0).failSlot sk)
    | some lid => match s.launch lid with
      | none => none
      | some l =>
        if !s.killWaits lid then some ((s.stopLaunch lid).finishKill lid l)
        else if l.killReq.isSome && s.waves.all fun w => w.2.lid != lid || w.2.frozen.isSome then none
        else some (s.stopLaunch lid)

/-- LAUNCH_KILL (R496). -/
def execLaunchKill (slot : Nat) (s : State) : Host.Outcome State Fault Refusal :=
  onEvent "LAUNCH_KILL" (s.killSlot slot)

/-! ### DET groups (R521, R522) -/

/-- Places that a group writes. -/
def DetGroup.locs (g : DetGroup) : List Loc :=
  (g.commits.flatMap fun c => c.2.map fun p => p.2.loc) ++ g.reds.map (·.loc)

/-- Reductions in the order of R522: by wave, then lane, then issue order. -/
def redBefore (x y : DetRed) : Bool :=
  decide (x.waveIdx < y.waveIdx) || (x.waveIdx == y.waveIdx &&
    (decide (x.lane < y.lane) || (x.lane == y.lane && decide (x.seq ≤ y.seq))))
def insertRed (r : DetRed) : List DetRed → List DetRed
  | [] => [r]
  | x :: xs => if redBefore r x then r :: x :: xs else x :: insertRed r xs
def sortReds (l : List DetRed) : List DetRed := l.foldr insertRed []

/-- The crew of a block of the launch. -/
def State.crewOfBlock (s : State) (lid b : Nat) (l : Launch) : Nat :=
  match s.blocks.find? fun x => x.2.lid == lid && x.2.blocklin == b with
  | some x => x.2.crew
  | none => b / crewSizeOf l.words

/-- The bytes that a group's commits write, each once, with its last value (R442, R522). -/
def DetGroup.bytes (g : DetGroup) : Tbl BufByte := g.commits.foldl (fun t c => bufPut t c.2) []

/-- A reduction of a group as an operation on a peer (R409, R551). -/
def DetRed.far (r : DetRed) : Option (Nat × PeerKind × List (Nat × Nat × Byte) × Nat) :=
  farAtomic (elemBytes ((tyOf r.ty).getD .b32)) r.loc (.red r.op r.ty) r.val.toNat 0

/-- Apply a group at home as one atomic commit (R522): the bytes of its commits, then its reductions, those on peers sent to
them; the crew buffer's copies of its bytes are dropped (R521). -/
def State.applyGroup (s : State) (lid b : Nat) (l : Launch) (g : DetGroup) : State :=
  let crew := s.crewOfBlock lid b l
  let ck := crewKey lid crew
  let s := s.commitHome l.ctx lid crew noWave 0 (g.commits.any (·.1)) (bufLocs g.bytes)
  let s := s.recallLocs (g.reds.map (·.loc))
  let reds := sortReds g.reds
  let s := reds.foldl (fun s r => match r.loc with
    | .dev pa => combineHome s { op := r.op, ty := r.ty, lid := lid, ctx := l.ctx, elems := [] } pa r.val
    | _ => s) s
  let s := s.sendOps lid noWave 0 (reds.filterMap DetRed.far)
  let keys := dedup (g.locs.filterMap fun x => match x with | .dev pa => some (devLineKey l.ctx (lineOf pa)) | _ => none)
  let s := (s.crewCores lid crew).foldl (fun s c => s.dropCopies c keys) s
  let applied := g.commits.flatMap (·.2)
  s.modCrew ck fun c => { c with buf := Tbl.keep (fun va x => !applied.contains (va, x)) c.buf }

/-- Fragments whose DETF waited go on. -/
def State.passTicket (s : State) (lid b : Nat) : State :=
  let on (w : Wave) : Wave := if w.lid = lid ∧ w.blocklin = b then
      { w with frags := Tbl.mapv (fun _ f => f.fixTicket true) w.frags } else w
  { s with waves := Tbl.mapv (fun _ w => on w) s.waves }

/-- The next group of the block that holds the ticket is applied, where it can be: a full replay store is waited for, and a line
that another DET launch holds open freezes a wave of the block (R525, R528). -/
def State.applyNext (s : State) (lid : Nat) : Option State :=
  match s.launch lid with
  | none => none
  | some l =>
    let b := l.ticket
    let d := s.detBlock lid b
    match d.closed with
    | [] => none
    | g :: rest =>
      let pas := g.locs.filterMap fun x => match x with | .dev pa => some pa | _ => none
      if l.killReq.isSome || (s.grantOnLines noWave g.locs).isSome then none
      else if g.locs.any fun x => s.openTo (some lid) x then
        (s.waves.find? fun w => w.2.lid == lid && w.2.blocklin == b && w.2.frozen.isNone).map fun w => s.intrude w.1
      else if !s.replayRoom lid pas then
        s.starveStep lid
      else
        let s := { s with det := Tbl.put s.det (detKey lid b) { d with closed := rest } }
        let s := s.applyGroup lid b l g
        let s := if rest.isEmpty then s.passTicket lid b else s
        some (s.moveTicket lid)

/-- DET_GROUP_APPLY (R522). -/
def execDetGroupApply (lid : Nat) (s : State) : Host.Outcome State Fault Refusal :=
  onEvent "DET_GROUP_APPLY" (s.applyNext lid)

end Sys2Proof.Machine
end

