-- ==== Sys2Proof/Machine/HostLink.lean ====
section
/-! DEFINITION. The host link: HWIN and the accesses through BAR2 (R542 to R547). -/

namespace Sys2Proof.Machine

/-! ### The window (R544) -/

/-- HWIN_WRITE: ignored where CTX is not a context that the function holds. -/
def execHwinWrite (fn : Nat) (val : W64) (s : State) : Host.Outcome State Fault Refusal :=
  onFn fn s fun s =>
    let v := val.toNat
    if s.holds fn (bits v 63 56) then
      s.modFn fn fun f => { f with hwin := BitVec.ofNat 64 (bits v 63 56 * 2 ^ 56 + bits v 23 23 * 2 ^ 23 + bits v 20 0) }
    else s

/-- The context of the window, and the address of a BAR2 offset; none where the window is closed or has no such offset. -/
def HostFn.window (f : HostFn) (off : Nat) : Option (Nat × Nat) :=
  let v := f.hwin.toNat
  if bit v 23 && decide (off < 2 ^ 36) then some (bits v 63 56, bits v 20 0 * 2 ^ 36 + off) else none

/-- The place of an address by a context's own tables (R427, R428, R544); apertures are not asked. -/
def State.tablePlace (s : State) (ctx va : Nat) (need : Need) : Except Nat Loc :=
  match s.walk ctx va with
  | none => .error cPAGE
  | some p => if p.allows need then .ok (p.loc va) else .error cPROT

/-- The places of `n` bytes, or the cause for which the first fails. -/
def State.tablePlaces (s : State) (ctx va n : Nat) (need : Need) : Except Nat (List Loc) :=
  (List.range n).foldr (fun i acc => match s.tablePlace ctx (va + i) need, acc with
    | .ok l, .ok ls => .ok (l :: ls)
    | .error c, _ => .error c
    | .ok _, .error c => .error c) (.ok [])

/-- The places of an access through BAR2, with the context. -/
def State.windowPlaces (s : State) (fn off n : Nat) (need : Need) : Option (Nat × List Loc) :=
  match (s.fn fn).window off with
  | none => none
  | some (ctx, va) =>
    if 2 ^ 36 < off + n then none
    else match s.tablePlaces ctx va n need with
      | .ok l => some (ctx, l)
      | .error _ => none

/-! ### Completions (R532, R542) -/

/-- Show something to the outside. -/
def State.show (s : State) (x : HostOut) : State := { s with hostOut := s.hostOut ++ [x] }

/-- Completer Abort. -/
def State.abortRead (s : State) (fn : Nat) : State := s.show (.completion fn false [])

/-- A function intrudes on an open line: it is frozen (R525, R532). -/
def State.freezeFn (s : State) (fn ctx : Nat) : State :=
  (s.modFn fn fun f => { f with frozen := true }).notice (freezeNotice 4 2 ctx fn 0)

/-- A request of a function that is answered; a frozen one's completes with an error (R532). -/
def hostRequest (name : String) (fn : Nat) (s : State) (f : State → Option State) : Host.Outcome State Fault Refusal :=
  if 64 ≤ fn then .fault .noSuchUnit else if (s.fn fn).frozen then .next (s.abortRead fn) else onEvent name (f s)

/-! ### Reads (R545) -/

/-- The byte that a host read returns: a granule copied for a live REPLAY launch returns its copy (R527). -/
def State.hostView (s : State) (ctx : Nat) (l : Loc) : Byte :=
  match l with
  | .dev pa => match s.replay.find? fun g => g.1 % 2 ^ 27 == pa / 4096 with
    | some (k, g) => (s.restoreGranule k g).homeByte ctx l
    | none => s.homeByte ctx l
  | _ => s.homeByte ctx l

/-- A write from outside waits: for the holder of a grant that has read a line of it (R222), or for room in the replay store
that the update-only copies of its lines need (R408, R528). -/
def State.outsideWaits (s : State) (ls : List Loc) : Bool := (s.grantOnLines noWave ls).isSome || !s.recallRoom ls

/-- HOST_WINDOW_READ (R545). -/
def execHostWindowRead (fn off len : Nat) (s : State) : Host.Outcome State Fault Refusal :=
  hostRequest "HOST_WINDOW_READ" fn s fun s => match s.windowPlaces fn off len .read with
    | none => some (s.abortRead fn)
    | some (ctx, ls) =>
      let s := s.meetHome ls
      if ls.any fun l => s.openTo none l then some ((s.freezeFn fn ctx).abortRead fn)
      else if ls.any s.poisoned then some (s.show (.poisoned fn))
      else if !s.recallRoom ls then none
      else
        let s := s.recallLocs ls
        some (s.show (.completion fn true (ls.map (s.hostView ctx))))

/-! ### Writes (R545) -/

/-- Bytes that reach host memory at once; a byte that a commit still holds there is older and is dropped (R398). -/
def State.writeHost (s : State) (l : List (Nat × Byte)) : State :=
  let gone (p : Nat × Byte) : Bool := l.any fun q => q.1 == p.1
  let held := s.heldSys.map fun h => { h with bytes := h.bytes.filter fun p => !gone p }
  let runs := postedRuns (sortBytes l)
  { s with hostMem := runs.foldl (fun m r => Memory.writes m r.1 r.2) s.hostMem,
           hostOut := s.hostOut ++ runs.map (fun r => .posted r.1 r.2), heldSys := held.filter fun h => !h.bytes.isEmpty }

/-- Write bytes from outside at home, and count them. -/
def State.writeOutside (s : State) (ctx : Nat) (src : Src) (l : List (Loc × Byte)) : State :=
  (s.writeDev ctx 0 (some src) (devBytes l)).writeHost (hostBytes l)

/-- HOST_WINDOW_WRITE (R545): a write that the window cannot serve is dropped and counted; it waits for a grant's holder (R222). -/
def execHostWindowWrite (fn off : Nat) (data : Bytes) (s : State) : Host.Outcome State Fault Refusal :=
  if 64 ≤ fn then .fault .noSuchUnit
  else if (s.fn fn).frozen then .next s
  else onEvent "HOST_WINDOW_WRITE" (match s.windowPlaces fn off data.length .write with
    | none => some (s.modFn fn fun f => { f with errors := f.errors + 1 })
    | some (ctx, ls) =>
      if s.outsideWaits ls then none
      else if ls.any fun l => s.openTo none l then some (s.freezeFn fn ctx)
      else some (s.writeOutside ctx .host (ls.zip data)))

/-! ### Atomics (R546) -/

/-- The new value of a host AtomicOp of `n` bytes. -/
def HostAtom.apply (op : HostAtom) (n old val : Nat) : Nat :=
  match op with
  | .fetchAdd => (old + val) % 2 ^ (8 * n)
  | .swap => val % 2 ^ (8 * n)

/-- An atomic from outside on one element in device memory: U copies are recalled, the scope entry is recorded at sys, and the
old value is returned (R408, R410, R546, R551). -/
def State.outsideAtomic (s : State) (ctx : Nat) (ls : List Loc) (f : Nat → Nat) : Nat × State :=
  let s := s.recallLocs ls
  let old := ofLE (ls.map (s.homeByte ctx))
  let s := s.writeDev ctx 0 none (devBytes (ls.zip (leBytes ls.length (f old))))
  (old, match ls.head? with
    | some (.dev pa) => s.scopeHome (lineOf pa) 4 .outside
    | _ => s)

/-- The element lies in device memory (R406). -/
def allDev (ls : List Loc) : Bool := ls.all fun l => match l with | .dev _ => true | _ => false

/-- HOST_ATOMIC (R546): a misaligned element, or one on a SYS page, is not served. -/
def execHostAtomic (fn off : Nat) (op : HostAtom) (wide : Bool) (val : W64) (s : State) : Host.Outcome State Fault Refusal :=
  let n := if wide then 8 else 4
  hostRequest "HOST_ATOMIC" fn s fun s => match s.windowPlaces fn off n .write with
    | none => some (s.abortRead fn)
    | some (ctx, ls) =>
      if off % n ≠ 0 || !allDev ls then some (s.abortRead fn)
      else if s.outsideWaits ls then none
      else if ls.any fun l => s.openTo none l then some ((s.freezeFn fn ctx).abortRead fn)
      else if ls.any (s.meetHome ls).poisoned then some ((s.meetHome ls).show (.poisoned fn))
      else
        let (old, s) := (s.meetHome ls).outsideAtomic ctx ls fun x => HostAtom.apply op n x val.toNat
        some (s.show (.completion fn true (leBytes n old)))

/-- HOST_CAS_REQUEST (R542): Unsupported Request. -/
def execHostCasRequest (fn _off : Nat) (s : State) : Host.Outcome State Fault Refusal :=
  hostRequest "HOST_CAS_REQUEST" fn s fun s => some (s.show (.unsupported fn))

/-- HOST_FUNCTION_RESET (R532). -/
def execHostFunctionReset (fn : Nat) (s : State) : Host.Outcome State Fault Refusal :=
  if 64 ≤ fn then .fault .noSuchUnit else .next (s.modFn fn fun f => { f with frozen := false })

end Sys2Proof.Machine
end

