-- ==== Sys2Proof/Machine/Integer.lean ====
section
/-! DEFINITION. Integer arithmetic, 0x10 to 0x1E (R141, R144 to R148). -/

namespace Sys2Proof.Machine

/-- Value of A, B or C of the type, with its N/A bits (R90, R141). -/
def Env.ia (e : Env) (t : Ty) (i : Nat) : Int := intVal t (e.na t i)
def Env.ib (e : Env) (t : Ty) (i : Nat) : Int := intVal t (e.nb t i)
def Env.ic (e : Env) (t : Ty) (i : Nat) : Int := intVal t (e.nc t i)

/-- SAT (R88). -/
def Env.sat (e : Env) : Bool := e.fbit 5

/-- Latency of the multiply group (R143). -/
def mulLat (t : Ty) : Nat := if tyWide t then 8 else 6

/-- Latency of IDIV and IREM (R143). -/
def divLat (t : Ty) : Nat := if tyWide t then 36 else 20

/-- An integer instruction of the word's type: the exact result, fitted (R141). -/
def intOp (e : Env) (lat : Nat) (f : Ty → Nat → Int) : WRes :=
  let t := e.ty
  e.elems t lat fun i => fitInt t e.sat (f t i)

/-- IADD (R144). -/
def execIadd (w : Fields) (s : State) : Host.Outcome State Fault Refusal :=
  onWord w s fun e => intOp e 4 fun t i => e.ia t i + e.ib t i

/-- ISUB (R144). -/
def execIsub (w : Fields) (s : State) : Host.Outcome State Fault Refusal :=
  onWord w s fun e => intOp e 4 fun t i => e.ia t i - e.ib t i

/-- IMUL (R144). -/
def execImul (w : Fields) (s : State) : Host.Outcome State Fault Refusal :=
  onWord w s fun e => intOp e (mulLat e.ty) fun t i => e.ia t i * e.ib t i

/-- IMULH: the upper n bits of the product (R144, R145). -/
def execImulh (w : Fields) (s : State) : Host.Outcome State Fault Refusal :=
  onWord w s fun e => intOp e (mulLat e.ty) fun t i => (e.ia t i * e.ib t i) / (2 ^ tyBits t : Nat)

/-- IMAD (R144). -/
def execImad (w : Fields) (s : State) : Host.Outcome State Fault Refusal :=
  onWord w s fun e => intOp e (mulLat e.ty) fun t i => e.ia t i * e.ib t i + e.ic t i

/-- IMADW: 32-bit factors, a 64-bit sum (R144, R145). -/
def execImadw (w : Fields) (s : State) : Host.Outcome State Fault Refusal :=
  onWord w s fun e =>
    let t := e.ty
    let t64 : Ty := if t = .i32 then .i64 else .n64
    e.elems t64 6 fun i => fitInt t64 e.sat (intVal t (e.a t i) * intVal t (e.b t i) + intVal t64 (e.c t64 i))

/-- The quotient of IDIV (R146). -/
def idivVal (t : Ty) (a b : Int) : Int :=
  if b = 0 then (if tySigned t then -1 else maxOf t)
  else if tySigned t ∧ a = minOf t ∧ b = -1 then minOf t else a.tdiv b

/-- The remainder of IREM (R146). -/
def iremVal (t : Ty) (a b : Int) : Int :=
  if b = 0 then a else if tySigned t ∧ a = minOf t ∧ b = -1 then 0 else a.tmod b

/-- IDIV (R146). -/
def execIdiv (w : Fields) (s : State) : Host.Outcome State Fault Refusal :=
  onWord w s fun e => intOp e (divLat e.ty) fun t i => idivVal t (e.ia t i) (e.ib t i)

/-- IREM (R146). -/
def execIrem (w : Fields) (s : State) : Host.Outcome State Fault Refusal :=
  onWord w s fun e => intOp e (divLat e.ty) fun t i => iremVal t (e.ia t i) (e.ib t i)

/-- IMIN (R144). -/
def execImin (w : Fields) (s : State) : Host.Outcome State Fault Refusal :=
  onWord w s fun e => intOp e 4 fun t i => min (e.ia t i) (e.ib t i)

/-- IMAX (R144). -/
def execImax (w : Fields) (s : State) : Host.Outcome State Fault Refusal :=
  onWord w s fun e => intOp e 4 fun t i => max (e.ia t i) (e.ib t i)

/-- IABS (R144). -/
def execIabs (w : Fields) (s : State) : Host.Outcome State Fault Refusal :=
  onWord w s fun e => intOp e 4 fun t i => ((e.ia t i).natAbs : Int)

/-- INEG (R144). -/
def execIneg (w : Fields) (s : State) : Host.Outcome State Fault Refusal :=
  onWord w s fun e => intOp e 4 fun t i => -(e.ia t i)

/-- ISAD (R144). -/
def execIsad (w : Fields) (s : State) : Host.Outcome State Fault Refusal :=
  onWord w s fun e => intOp e (mulLat e.ty) fun t i => ((e.ia t i - e.ib t i).natAbs : Int) + e.ic t i

/-- Byte `j` of a word, read by the type's signedness (R147). -/
def byteVal (signed : Bool) (x j : Nat) : Int :=
  let y := bits x (8 * j + 7) (8 * j)
  if signed then toSigned 8 y else y

/-- The dot product of four bytes (R147). -/
def dot4 (signed : Bool) (a b : Nat) : Int :=
  ((List.range 4).map fun j => byteVal signed a j * byteVal signed b j).sum

/-- IDOT4 (R147). -/
def execIdot4 (w : Fields) (s : State) : Host.Outcome State Fault Refusal :=
  onWord w s fun e =>
    let signed := e.ty == .i8
    let t : Ty := if signed then .i32 else .n32
    e.elems t 6 fun i => fitInt t e.sat (intVal t (e.c t i) + dot4 signed (e.a .b32 i) (e.b .b32 i))

/-- The condition of ICMP on two values (R148). -/
def icond (c : Nat) (a b : Int) : Bool :=
  match c with
  | 0 => a == b
  | 1 => a != b
  | 2 => a < b
  | 3 => a ≤ b
  | 4 => a > b
  | _ => a ≥ b

/-- ICMP (R148). -/
def execIcmp (w : Fields) (s : State) : Host.Outcome State Fault Refusal :=
  onWord w s fun e =>
    let t := e.ty
    .done { s := e.s, ws := e.putK e.w.d.toNat fun i => icond (e.f 13 11) (e.ia t i) (e.ib t i), lat := 4 }

end Sys2Proof.Machine
end

