-- ==== Sys2Proof/Machine/Logic.lean ====
section
/-! DEFINITION. Shifts, logic, moves and clamps, 0x20 to 0x2E (R149 to R155). -/

namespace Sys2Proof.Machine

/-- A shift or rotation of A by the n32 count in B (R149). -/
def shiftOp (e : Env) (f : Nat → Nat → Nat → Nat) : WRes :=
  let t := e.ty
  e.elems t 4 fun i => f (tyBits t) (e.a t i) (e.b .n32 i)

/-- a << b; 0 for b ≥ n (R149). -/
def shlVal (n a b : Nat) : Nat := if b ≥ n then 0 else (a <<< b) % 2 ^ n

/-- a >> b; 0 for b ≥ n (R149). -/
def shrVal (n a b : Nat) : Nat := if b ≥ n then 0 else a >>> b

/-- The arithmetic shift; all copies of the sign for b ≥ n (R149). -/
def sarVal (n a b : Nat) : Nat := wrap n (toSigned n a / (2 ^ (if b ≥ n then n else b) : Nat))

/-- a rotated left by b mod n (R149). -/
def rotVal (n a b : Nat) : Nat := let k := b % n; ((a <<< k) ||| (a >>> (n - k))) % 2 ^ n

/-- SHL (R149). -/
def execShl (w : Fields) (s : State) : Host.Outcome State Fault Refusal := onWord w s fun e => shiftOp e shlVal

/-- SHR (R149). -/
def execShr (w : Fields) (s : State) : Host.Outcome State Fault Refusal := onWord w s fun e => shiftOp e shrVal

/-- SAR (R149). -/
def execSar (w : Fields) (s : State) : Host.Outcome State Fault Refusal := onWord w s fun e => shiftOp e sarVal

/-- ROT (R149). -/
def execRot (w : Fields) (s : State) : Host.Outcome State Fault Refusal := onWord w s fun e => shiftOp e rotVal

/-- A bitwise instruction of the word's type (R150). -/
def bitOp (e : Env) (f : Nat → Nat → Nat → Nat) : WRes :=
  let t := e.ty
  e.elems t 4 fun i => f (2 ^ tyBits t - 1) (e.a t i) (e.b t i)

/-- AND (R150). -/
def execAnd (w : Fields) (s : State) : Host.Outcome State Fault Refusal := onWord w s fun e => bitOp e fun _ a b => a &&& b

/-- OR (R150). -/
def execOr (w : Fields) (s : State) : Host.Outcome State Fault Refusal := onWord w s fun e => bitOp e fun _ a b => a ||| b

/-- XOR (R150). -/
def execXor (w : Fields) (s : State) : Host.Outcome State Fault Refusal := onWord w s fun e => bitOp e fun _ a b => a ^^^ b

/-- NOT (R150). -/
def execNot (w : Fields) (s : State) : Host.Outcome State Fault Refusal := onWord w s fun e => bitOp e fun m a _ => m - a

/-- Bits of LOP3: bit m is LUT[4a + 2b + c] (R151). -/
def lop3Val (lut a b c : Nat) : Nat → Nat
  | 0 => 0
  | n + 1 => lop3Val lut a b c n +
      2 ^ n * ofBool (lut.testBit (4 * ofBool (a.testBit n) + 2 * ofBool (b.testBit n) + ofBool (c.testBit n)))

/-- LOP3 (R151). -/
def execLop3 (w : Fields) (s : State) : Host.Outcome State Fault Refusal :=
  onWord w s fun e =>
    let t : Ty := if e.fbit 5 then .b64 else .b32
    e.elems t 4 fun i => lop3Val (e.f 13 6) (e.a t i) (e.b t i) (e.c t i) (tyBits t)

/-- LEA (R152). -/
def execLea (w : Fields) (s : State) : Host.Outcome State Fault Refusal :=
  onWord w s fun e =>
    let t := e.ty
    e.elems .b64 4 fun i => wrap 64 ((e.a .b64 i : Int) + intVal t (e.b t i) * (2 ^ e.f 2 0 : Nat))

/-- SEL (R153). -/
def execSel (w : Fields) (s : State) : Host.Outcome State Fault Refusal :=
  onWord w s fun e =>
    let t := e.ty
    let k := e.wv.kget e.frag e.w.c.toNat
    e.elems t 4 fun i => if k.getLsbD i then e.a t i else e.b t i

/-- MOV (R150). -/
def execMov (w : Fields) (s : State) : Host.Outcome State Fault Refusal := onWord w s fun e => bitOp e fun _ a _ => a

/-- MOVI's constant (R154). -/
def moviVal (t : Ty) (b c : Nat) : Nat :=
  let x := 256 * b + c
  if tySigned t then signExt 16 (tyBits t) x else x

/-- MOVI (R154). -/
def execMovi (w : Fields) (s : State) : Host.Outcome State Fault Refusal :=
  onWord w s fun e =>
    let t := e.ty
    e.elems t 4 fun _ => moviVal t e.w.b.toNat e.w.c.toNat

/-- IADDS: always saturated (R155). -/
def execIadds (w : Fields) (s : State) : Host.Outcome State Fault Refusal :=
  onWord w s fun e =>
    let t := e.ty
    e.elems t 4 fun i => fitInt t true (intVal t (e.a t i) + intVal t (e.b t i))

/-- CLAMP (R155). -/
def execClamp (w : Fields) (s : State) : Host.Outcome State Fault Refusal :=
  onWord w s fun e =>
    let t := e.ty
    e.elems t 4 fun i => fitInt t false (min (max (intVal t (e.a t i)) (intVal t (e.b t i))) (intVal t (e.c t i)))

end Sys2Proof.Machine
end

