-- ==== Sys2Proof/Machine/Pair.lean ====
section
/-! DEFINITION. P-form words: two halves that read all their sources before either writes (R95 to R98, R192). -/

namespace Sys2Proof.Machine

/-- The result of a half on its sources and the old value of its D (R96, R192): the value in the half's type and the
exceptions. -/
def halfVal (op7 : Nat) (a b d : Nat) : Nat × FFlags :=
  let int (t : Ty) (x : Int) : Nat × FFlags := (fitInt t false x, noFlags)
  let i (x : Nat) : Int := intVal .i32 x
  match op7 with
  | 0x01 => int .i32 (i a + i b)
  | 0x02 => int .i32 (i a - i b)
  | 0x03 => int .i32 (i a * i b)
  | 0x04 => int .i32 (min (i a) (i b))
  | 0x05 => int .i32 (max (i a) (i b))
  | 0x06 => (min a b, noFlags)
  | 0x07 => (max a b, noFlags)
  | 0x08 => (a &&& b, noFlags)
  | 0x09 => (a ||| b, noFlags)
  | 0x0A => (a ^^^ b, noFlags)
  | 0x0B => (shlVal 32 a b, noFlags)
  | 0x0C => (shrVal 32 a b, noFlags)
  | 0x0D => (sarVal 32 a b, noFlags)
  | 0x0E => (a, noFlags)
  | 0x0F => (popCount 32 a, noFlags)
  | 0x10 => (clzVal 32 a, noFlags)
  | 0x11 => (revBits 32 a, noFlags)
  | 0x12 => float2 .f32 .rne (addVal .rne) a b
  | 0x13 => float2 .f32 .rne (fun x y => addVal .rne x (Val.neg y)) a b
  | 0x14 => float2 .f32 .rne mulVal a b
  | 0x15 => ffmaVal .f32 .rne a b d
  | 0x16 => float2 .f32 .rne (minMaxVal false) a b
  | 0x17 => float2 .f32 .rne (minMaxVal true) a b
  | 0x18 => cvt .f32 .i32 .rne false a
  | 0x19 => cvt .i32 .f32 .rtz false a
  | 0x1A => float2 .f16x2 .rne (addVal .rne) a b
  | 0x1B => float2 .f16x2 .rne mulVal a b
  | 0x1C => float2 .bf16x2 .rne (addVal .rne) a b
  | 0x1D => float2 .bf16x2 .rne mulVal a b
  | 0x1E => ffmaVal .f16x2 .rne a b d
  | 0x1F => (fitInt .i32 true (i a + i b), noFlags)
  | _ => (0, noFlags)

/-- Latency of a half: that of its single form (R143). -/
def halfLat (op7 : Nat) : Nat :=
  if op7 = 0x03 then 6 else if 0x12 ≤ op7 ∧ op7 ≤ 0x1E then 5 else 4

/-- The writes of a half and its exceptions by lane. -/
def halfRun (e : Env) (h : Half) : List RegWrite × List (Nat × FFlags) :=
  match halfShape h.op7.toNat with
  | none => ([], [])
  | some sh =>
    if !sh.usesA then ([], [])
    else
      let r (i : Nat) : Nat × FFlags :=
        halfVal h.op7.toNat (e.src h.a.toNat sh.st i)
          (if h.op7.toNat = 0x0B ∨ h.op7.toNat = 0x0C ∨ h.op7.toNat = 0x0D then e.src h.b.toNat .n32 i
           else e.src h.b.toNat sh.st i)
          (e.src h.d.toNat sh.dt i)
      let ws := if h.d.toNat < 0x80 then e.lanes.flatMap fun i => putAt h.d.toNat sh.dt i (r i).1
        else match e.lanes with
          | [] => []
          | i :: _ => putAt h.d.toNat sh.dt i (r i).1
      (ws, e.lanes.map fun i => (i, (r i).2))

/-- The exceptions of two halves, merged lane by lane (R250). -/
def zipFlags (a b : List (Nat × FFlags)) (lanes : List Nat) : List (Nat × FFlags) :=
  lanes.map fun i => (i, mergeFlags (((a ++ b).filter fun p => p.1 == i).map (·.2)))

/-- PAIR_WORD (R95, R98, R192). TRAPINFO names half A's destination if half A raised an enabled exception. -/
def execPairWord (a b : Half) (s : State) : Host.Outcome State Fault Refusal :=
  onWord { ext := none, la := 0, k := 0, kn := false, d := 0, a := 0, b := 0, c := 0, f := 0 } s fun e =>
    let (wa, fa) := halfRun e a
    let (wb, fb) := halfRun e b
    let aTraps := (trappedLanes e.wv fa).1 != 0
    .done { s := e.s, ws := wa ++ wb, fl := zipFlags fa fb e.lanes,
            dcode := if aTraps then a.d.toNat else b.d.toNat,
            halves := [(wa, a), (wb, b)].filterMap fun h =>
              if h.1.isEmpty then none else some (dedup (h.1.map RegWrite.reg), halfLat h.2.op7.toNat) }

end Sys2Proof.Machine
end

