-- ==== Sys2Proof/Machine/Peer.lean ====
section
/-! DEFINITION. Apertures and peer ports (R548 to R554). -/

namespace Sys2Proof.Machine

/-! ### Apertures (R549) -/

/-- APERTURE_WRITE (R549): ignored while the entry is VALID and a launch of its CTX is live; physical function 0 alone. -/
def execApertureWrite (fn idx word : Nat) (val : W64) (s : State) : Host.Outcome State Fault Refusal :=
  onFn fn s fun s =>
    let e := Tbl.get s.apertures idx (0, 0)
    let w := e.1.toNat
    let put (e : W64 × W64) : State := { s with apertures := Tbl.set (0, 0) s.apertures idx e }
    if fn ≠ 0 || 256 ≤ idx || (bit w 55 && s.ctxLive (bits w 63 56)) then s
    else match word with
      | 0 => put (val &&& 0xFFFFE1FFFFFFFFFF, e.2)
      | 1 => put (e.1, val &&& 0xFF0001FFFFFFFFFF)
      | _ => s

/-! ### Ports (R550, R553) -/

/-- A peer port. -/
def State.port (s : State) (n : Nat) : Port := Tbl.get s.ports n Port.reset
def State.modPort (s : State) (n : Nat) (f : Port → Port) : State :=
  { s with ports := Tbl.set Port.reset s.ports n (f (s.port n)) }

/-- An event of a port. -/
def onPort (port : Nat) (r : Host.Outcome State Fault Refusal) : Host.Outcome State Fault Refusal :=
  if port < 16 then r else .fault .noSuchUnit

/-- The port's grant bit for a context (R550). -/
def Port.grants (p : Port) (ctx : Nat) : Bool := decide (ctx < 256) && bit (Tbl.get p.grant (ctx / 64) 0).toNat (ctx % 64)

/-- PEERSTAT as it reads (R553). -/
def Port.peerstat (p : Port) : W64 :=
  BitVec.ofNat 64 (ofBool p.frozen * 2 ^ 48 + p.remote.toNat * 2 ^ 32 + p.errors * 2 + ofBool p.up)

/-- PEERSTAT_WRITE (R553): W1C. -/
def execPeerstatWrite (fn port : Nat) (val : W64) (s : State) : Host.Outcome State Fault Refusal :=
  onPort port (onFn fn s fun s =>
    if fn = 0 ∧ bit val.toNat 48 then s.modPort port fun p => { p with frozen := false } else s)

/-- PEER_LINK_UP (R553). -/
def execPeerLinkUp (port : Nat) (serial : BitVec 16) (s : State) : Host.Outcome State Fault Refusal :=
  onPort port (.next (s.modPort port fun p => { p with up := true, remote := serial }))

/-- PEER_FLIT_REPLAY (R548, R553): ERRORS saturates. -/
def execPeerFlitReplay (port : Nat) (s : State) : Host.Outcome State Fault Refusal :=
  onPort port (.next (s.modPort port fun p => { p with errors := min (2 ^ 31 - 1) (p.errors + 1) }))

/-! ### Requests from a peer (R550, R551, R552) -/

/-- An answer that leaves over a port. -/
def State.reply (s : State) (port : Nat) (ok : Bool) (data : Bytes) : State := s.show (.peerReply port ok data)

/-- A refusal, with its cause. -/
def State.replyBad (s : State) (port cause : Nat) : State := s.reply port false [BitVec.ofNat 8 cause]

/-- Freeze a port and post the notice (R532). -/
def State.freezePort (s : State) (port cause ctx : Nat) : State :=
  (s.modPort port fun p => { p with frozen := true }).notice (freezeNotice 5 cause ctx port 0)

/-- Take a request on bytes of a remote context: refused by a frozen port; a request without a grant, or on an open line, freezes
the port (R525, R550); a failed translation is answered with its cause (R552). -/
def State.peerAccess (s : State) (port rctx va n : Nat) (need : Need) (body : List Loc → Option State) : Option State :=
  if (s.port port).frozen then some (s.replyBad port cPROT)
  else if !(s.port port).grants rctx then some ((s.freezePort port Config.grantCause.toNat 0xFF).replyBad port cPROT)
  else match s.tablePlaces rctx va n need with
    | .error c => some (s.replyBad port c)
    | .ok ls =>
      if ls.any fun l => s.openTo none l then some ((s.freezePort port 2 0xFF).replyBad port cDET_INTRUSION) else body ls

/-- One request of a peer. -/
def State.peerServe (s : State) (port : Nat) : PeerReq → Option State
  | .read rctx va len => s.peerAccess port rctx va len .read fun ls =>
      let s := s.meetHome ls
      if ls.any s.poisoned then some (s.replyBad port cUNCORRECTABLE)
      else if !s.recallRoom ls then none
      else
        let s := s.recallLocs ls
        some (s.reply port true (ls.map (s.homeByte rctx)))
  | .copyWrite rctx va data => s.peerAccess port rctx va data.length .write fun ls =>
      if s.outsideWaits ls then none
      else some ((s.writeOutside rctx .peer (ls.zip data)).reply port true [])
  | .atomic rctx va op ty val ret =>
    let t := (tyOf ty).getD .b32
    let n := elemBytes t
    s.peerAccess port rctx va n .write fun ls =>
      if va % n ≠ 0 || !allDev ls then some (s.replyBad port cPROT)
      else if s.outsideWaits ls then none
      else if ls.any (s.meetHome ls).poisoned then some ((s.meetHome ls).replyBad port cUNCORRECTABLE)
      else
        let s := s.meetHome ls
        let (old, s) := s.outsideAtomic rctx ls fun x => (combine op t .rne x val.toNat).1
        some (s.reply port true (if ret then leBytes n old else []))

/-- PEER_REQUEST (R550). -/
def execPeerRequest (port : Nat) (req : PeerReq) (s : State) : Host.Outcome State Fault Refusal :=
  onPort port (onEvent "PEER_REQUEST" (s.peerServe port req))

/-- The places of a commit unit's bytes, each with its context, or the cause of the first that fails. -/
def State.unitPlaces (s : State) (bytes : List (Nat × Nat × Byte)) : Except Nat (List (Nat × Loc × Byte)) :=
  bytes.foldr (fun p acc => match s.tablePlace p.1 p.2.1 .write, acc with
    | .ok l, .ok ls => .ok ((p.1, l, p.2.2) :: ls)
    | .error c, _ => .error c
    | .ok _, .error c => .error c) (.ok [])

/-- The bytes of a commit unit are written at home, those of each context under its key. -/
def State.writeUnit (s : State) (l : List (Nat × Loc × Byte)) : State :=
  (dedup (l.map (·.1))).foldl (fun s c => s.writeOutside c .peer ((l.filter fun p => p.1 == c).map (·.2))) s

/-- A commit unit from a peer, each byte with its remote context: one atomic commit (R551). A context without a grant refuses it
whole (R550). -/
def State.peerUnit (s : State) (port : Nat) (bytes : List (Nat × Nat × Byte)) : Option State :=
  if (s.port port).frozen then some (s.replyBad port cPROT)
  else if bytes.any fun p => !(s.port port).grants p.1 then
    some ((s.freezePort port Config.grantCause.toNat 0xFF).replyBad port cPROT)
  else match s.unitPlaces bytes with
    | .error c => some (s.replyBad port c)
    | .ok l =>
      let ls := l.map (·.2.1)
      if ls.any fun l => s.openTo none l then some ((s.freezePort port 2 0xFF).replyBad port cDET_INTRUSION)
      else if s.outsideWaits ls then none
      else some ((s.writeUnit l).reply port true [])

/-- PEER_COMMIT_UNIT (R551). -/
def execPeerCommitUnit (port : Nat) (first : Nat × Nat × Byte) (rest : List (Nat × Nat × Byte)) (s : State) :
    Host.Outcome State Fault Refusal :=
  onPort port (onEvent "PEER_COMMIT_UNIT" (s.peerUnit port (first :: rest)))

/-! ### Answers to the package's own requests (R551, R552) -/

/-- The answer to a fragment's read or atomic. -/
def State.giveAnswer (s : State) (op : PeerOp) (ok : Bool) (data : Bytes) : State :=
  s.modFrag op.wid op.frag fun f => { f with answers := Tbl.put f.answers op.va (ok, data) }

/-- UNCORRECTABLE on the issuing launch (R552): the wave freezes, the launch is killed or replayed. -/
def State.failOp (s : State) (op : PeerOp) : State :=
  let s := match s.wave op.wid with
    | some w => if w.lid = op.lid then s.modWave op.wid fun w => { w with frozen := some .uncorrectable } else s
    | none => s
  s.askKill op.lid cUNCORRECTABLE

/-- A piece of a copy is acknowledged; a read piece brings its bytes (R551). -/
def State.fillPiece (s : State) (op : PeerOp) (core id : Nat) (data : Bytes) : State :=
  let bytes := (op.bytes.map fun p => op.va + p.2.1 % 2 ^ 16).zip data
  match s.copyAt core id with
  | none => s
  | some c =>
    s.modCopy core id fun _ => { c with got := bytes.foldl (fun t p => Tbl.put t p.1 p.2) c.got, unacked := c.unacked - 1 }

/-- An operation is answered. -/
def State.answerOp (s : State) (op : PeerOp) (ok : Bool) (data : Bytes) : State :=
  let s := { s with peerOps := s.peerOps.filter fun x => x.id != op.id }
  match op.kind with
  | .read => s.giveAnswer op ok data
  | .stale => s
  | .atom _ _ => if ok then s.giveAnswer op ok data else s.failOp op
  | .unit | .red _ _ => if ok then s else s.failOp op
  | .piece core id =>
    if ok then s.fillPiece op core id data
    else match s.copyAt core id with
      | some c => (s.dropCopy core c none).failOp op
      | none => s.failOp op
  | .swath => s

/-- PEER_ACK (R551). -/
def execPeerAck (id : Nat) (ok : Bool) (data : Bytes) (s : State) : Host.Outcome State Fault Refusal :=
  onEvent "PEER_ACK" ((s.peerOps.find? fun x => x.id == id).map fun op => s.answerOp op ok data)

/-- PEER_PORT_DOWN (R552): launches with a commit, a copy or an atomic in flight on the port are killed; a read in flight raises
PROT. -/
def execPeerPortDown (port : Nat) (s : State) : Host.Outcome State Fault Refusal :=
  onPort port (.next (
    let ops := s.peerOps.filter fun x => x.port == port
    let s := s.modPort port fun p => { p with up := false }
    ops.foldl (fun s op => s.answerOp op false [BitVec.ofNat 8 cPROT]) s))

end Sys2Proof.Machine
end

