-- ==== Sys2Proof/Machine/Predicate.lean ====
section
/-! DEFINITION. The predicate group, 0x30 to 0x34 (R156 to R159). -/

namespace Sys2Proof.Machine

/-- The mask register named by a field. -/
def Env.k (e : Env) (code : BitVec 8) : Mask := e.wv.kget e.frag code.toNat

/-- Bits for the active lanes into kD, after 4 cycles. -/
def kOp (e : Env) (f : Nat → Bool) : WRes := .done { s := e.s, ws := e.putK e.w.d.toNat f, lat := 4 }

/-- KOP's function (R157). -/
def kopVal (sub : Nat) (a b : Bool) : Bool :=
  match sub with
  | 0 => a && b
  | 1 => a || b
  | 2 => a != b
  | 3 => a && !b
  | 4 => a || !b
  | 5 => !(a && b)
  | 6 => !(a || b)
  | _ => a == b

/-- KOP (R157). -/
def execKop (w : Fields) (s : State) : Host.Outcome State Fault Refusal :=
  onWord w s fun e => kOp e fun i => kopVal (e.f 3 0) ((e.k e.w.a).getLsbD i) ((e.k e.w.b).getLsbD i)

/-- KMOV (R158). -/
def execKmov (w : Fields) (s : State) : Host.Outcome State Fault Refusal :=
  onWord w s fun e => kOp e fun i => (e.k e.w.a).getLsbD i

/-- KMOV.fromw: a whole word, whatever the active lanes; nothing beyond the mask's words (R158). -/
def execKmovFromw (w : Fields) (s : State) : Host.Outcome State Fault Refusal :=
  onWord w s fun e =>
    let j := e.uni e.w.b.toNat .n32
    let d := e.w.d.toNat
    if j ≥ e.wv.maskWords then .done { s := e.s, lat := 4 }
    else .done { s := e.s, ws := [.k d (setMaskWord (Tbl.get e.wv.k d 0) j (e.uni e.w.a.toNat .b32))], lat := 4 }

/-- KMOV.tow: word j of a mask, zero beyond the mask's words (R158). -/
def execKmovTow (w : Fields) (s : State) : Host.Outcome State Fault Refusal :=
  onWord w s fun e =>
    let j := e.uni e.w.b.toNat .n32
    .done { s := e.s, ws := e.putS (if j ≥ e.wv.maskWords then 0 else maskWord (e.k e.w.a) j), lat := 4 }

/-- KMOV.fromv (R158). -/
def execKmovFromv (w : Fields) (s : State) : Host.Outcome State Fault Refusal :=
  onWord w s fun e => kOp e fun i => e.a .b32 i != 0

/-- KMOV.tov (R158). -/
def execKmovTov (w : Fields) (s : State) : Host.Outcome State Fault Refusal :=
  onWord w s fun e => e.elems .b32 4 fun i => ofBool ((e.k e.w.a).getLsbD i)

/-- KSET.all (R159). -/
def execKsetAll (w : Fields) (s : State) : Host.Outcome State Fault Refusal := onWord w s fun e => kOp e fun _ => true

/-- KSET.none (R159). -/
def execKsetNone (w : Fields) (s : State) : Host.Outcome State Fault Refusal := onWord w s fun e => kOp e fun _ => false

/-- KSET.below (R159). -/
def execKsetBelow (w : Fields) (s : State) : Host.Outcome State Fault Refusal :=
  onWord w s fun e => kOp e fun i => i < e.uni e.w.a.toNat .n32

/-- All ones: no lane found (R159). -/
def noLane : Nat := 2 ^ 64 - 1

/-- The active lanes with a bit of kA. -/
def Env.picked (e : Env) : List Nat := e.lanes.filter fun i => (e.k e.w.a).getLsbD i

/-- KCNT; written even when no lane is active (R159). -/
def execKcnt (w : Fields) (s : State) : Host.Outcome State Fault Refusal :=
  onWord w s fun e => .done { s := e.s, ws := e.putS e.picked.length, lat := 4 }

/-- KFIND.first (R159). -/
def execKfindFirst (w : Fields) (s : State) : Host.Outcome State Fault Refusal :=
  onWord w s fun e => .done { s := e.s, ws := e.putS (e.picked.headD noLane), lat := 4 }

/-- KFIND.last (R159). -/
def execKfindLast (w : Fields) (s : State) : Host.Outcome State Fault Refusal :=
  onWord w s fun e => .done { s := e.s, ws := e.putS (e.picked.reverse.headD noLane), lat := 4 }

end Sys2Proof.Machine
end

