-- ==== Sys2Proof/Machine/Security.lean ====
section
/-! DEFINITION. The security processor: SHA3-256, boot, measurements, attestation and reloads (R490, R529 to R531), and a die
leaving reset (R124). -/

namespace Sys2Proof.Machine

/-! ### SHA3-256 (R530; PRESUMED as in FIPS 202) -/

/-- The place that the permutation's walk visits after a place, numbered 5·y + x: (x, y) is followed by (y, 2·x + 3·y). -/
def hashNext (i : Nat) : Nat := 5 * ((2 * (i % 5) + 3 * (i / 5)) % 5) + i / 5

/-- The first `n` places of a walk. -/
def hashWalk : Nat → Nat → List Nat
  | 0, _ => []
  | n + 1, i => i :: hashWalk n (hashNext i)

/-- Every word takes up the parity of the column before its own, and that of the column after it turned by one. -/
def hashSpread (a : List W64) : List W64 :=
  let parity (x : Nat) : W64 := (a.zipIdx.filter fun p => p.2 % 5 == x % 5).foldl (fun z p => z ^^^ p.1) 0
  a.zipIdx.map fun p => p.1 ^^^ parity (p.2 + 4) ^^^ (parity (p.2 + 1)).rotateLeft 1

/-- The word at each step t of the walk from place 1 moves to the next place, turned by the triangular number of t + 1. -/
def hashMove (a : List W64) : List W64 :=
  ((hashWalk 24 1).zipIdx.foldl (fun b p =>
    b.set (hashNext p.1) ((a.getD p.1 0).rotateLeft ((p.2 + 1) * (p.2 + 2) / 2 % 64))) a)

/-- Within each row of five, a word takes up the one two further where the one between has a zero. -/
def hashBend (a : List W64) : List W64 :=
  let row (i k : Nat) : W64 := a.getD (i - i % 5 + (i + k) % 5) 0
  a.zipIdx.map fun p => p.1 ^^^ (row p.2 2 &&& ~~~(row p.2 1))

/-- The shift register that gives the round marks, over x⁸ + x⁶ + x⁵ + x⁴ + 1. -/
def hashShift (r : BitVec 8) : BitVec 8 := if r.msb then (r <<< 1) ^^^ 0x71 else r <<< 1

/-- The mark of a round: its register's next seven bits at places 2^j − 1; and the register after them. -/
def hashMark (r : BitVec 8) : W64 × BitVec 8 :=
  (List.range 7).foldl (fun m j =>
    (if m.2.getLsbD 0 then m.1 ||| (1#64 <<< (2 ^ j - 1)) else m.1, hashShift m.2)) (0, r)

/-- Rounds of the permutation. -/
def hashRounds : Nat → BitVec 8 → List W64 → List W64
  | 0, _, a => a
  | n + 1, r, a =>
    let m := hashMark r
    let b := hashBend (hashMove (hashSpread a))
    hashRounds n m.2 (b.set 0 (b.getD 0 0 ^^^ m.1))

/-- Byte `j` of a padded message of `total` bytes: the message, 06, zeros, and 80 joined to the last byte. -/
def padByte (l : Bytes) (total j : Nat) : Byte :=
  let x : Byte := if j = l.length then 0x06 else l.getD j 0
  if j + 1 = total then x ||| 0x80 else x

/-- Take the blocks of a padded message, 17 words each, into 25 words. -/
def hashBlocks (l : Bytes) (total : Nat) : Nat → Nat → List W64 → List W64
  | 0, _, a => a
  | n + 1, k, a =>
    let word (i : Nat) : W64 := BitVec.ofNat 64 (ofLE ((List.range 8).map fun j => padByte l total (136 * k + 8 * i + j)))
    hashBlocks l total n (k + 1) (hashRounds 24 1 (a.zipIdx.map fun p => if p.2 < 17 then p.1 ^^^ word p.2 else p.1))

/-- SHA3-256 of some bytes. -/
def sha3 (l : Bytes) : Bytes :=
  let blocks := l.length / 136 + 1
  ((hashBlocks l (136 * blocks) blocks 0 (List.replicate 25 0)).take 4).flatMap fun x => leBytes 8 x.toNat

/-! ### Measurements (R530) -/

/-- MEAS register `n`. -/
def Security.measure (c : Security) (n : Nat) (image : Bytes) : Security :=
  let old := leBytes 32 (Tbl.get c.meas n 0).toNat
  { c with meas := Tbl.set 0 c.meas n (BitVec.ofNat 256 (ofLE (sha3 (old ++ sha3 image)))) }

/-- Verify image `n`, and run and measure it where its signature holds (R529, R530). -/
def Security.load (c : Security) (n : Nat) (x : Image) : Security :=
  let c := { c with running := c.running.filter (· != n) }
  if Config.imageSigned x.bytes x.signature then
    let c := c.measure n x.bytes
    { c with running := c.running ++ [n], versions := Tbl.set 0 c.versions n x.version }
  else c

/-- The processor has booted and runs its firmware. -/
def Security.active (c : Security) : Bool := c.booted && c.running.contains 0

/-! ### Boot, attestation, reload (R490, R529, R531) -/

/-- Start from ROM with the six images: security processor, launch front, dispatch harts 0 to 3. -/
def Security.boot (c : Security) (images : List Image) : Security :=
  let images := images.take 6
  let bad := images.map fun x => !Config.imageSigned x.bytes x.signature
  let c := images.zipIdx.foldl (fun c p => c.load p.2 p.1) c
  { c with booted := true, status := Config.bootStatus bad }

/-- SECURE_BOOT (R529). -/
def execSecureBoot (images : List Image) (s : State) : Host.Outcome State Fault Refusal :=
  onEvent "SECURE_BOOT" (if s.sec.booted then none else some { s with sec := s.sec.boot images })

/-- The bytes of an attestation report that the signature covers (R531). -/
def Security.report (c : Security) (nonce : BitVec 256) : Bytes :=
  leBytes 32 nonce.toNat ++ ((List.range 8).flatMap fun n => leBytes 32 (Tbl.get c.meas n 0).toNat) ++
    leBytes 16 Config.serial.toNat ++ ((List.range 8).map fun n => Tbl.get c.versions n 0) ++ leBytes 8 c.freezes

/-- ATTESTATION_REQUEST (R531). -/
def execAttestationRequest (nonce : BitVec 256) (s : State) : Host.Outcome State Fault Refusal :=
  onEvent "ATTESTATION_REQUEST" (
    if s.sec.active then
      let r := s.sec.report nonce
      some { s with sec := { s.sec with reports := s.sec.reports ++ [r ++ Config.attestSign r] } }
    else none)

/-- DISPATCH_HART_RELOAD (R490, R529): a verified image runs, and the die binds again; another leaves the hart in reset. -/
def execDispatchHartReload (die : Nat) (image : Image) (s : State) : Host.Outcome State Fault Refusal :=
  onDie die (onEvent "DISPATCH_HART_RELOAD" (
    if s.sec.active then
      let ok := Config.imageSigned image.bytes image.signature
      let sec := s.sec.load (2 + die) image
      let sec := if ok then sec else { sec with status := Config.bootStatus ((List.range 6).map fun n => n == 2 + die) }
      let s := { s with sec := sec }
      some (if ok then s.modDie die fun d => { d with hartFrozen := false } else s)
    else none))

/-- POLICY_CONFIGURATION_WRITE (R530). -/
def execPolicyConfigurationWrite (config : Bytes) (s : State) : Host.Outcome State Fault Refusal :=
  onEvent "POLICY_CONFIGURATION_WRITE" (
    if s.sec.active then some { s with sec := { s.sec.measure 6 config with policy := config } } else none)

/-! ### A die leaves reset (R124) -/

/-- DIE_RESET: the cycle counters of the die's cores start from zero. -/
def execDieReset (die : Nat) (s : State) : Host.Outcome State Fault Refusal :=
  onDie die (onEvent "DIE_RESET" (
    if (s.die die).inReset then
      let start (s : State) (c : Nat) : State := s.modCore (64 * die + c) fun x => { x with cyc := 0 }
      some ((List.range 64).foldl start (s.modDie die fun d => { d with inReset := false }))
    else none))

end Sys2Proof.Machine
end

