-- ==== Sys2Proof/Machine/Windows.lean ====
section
/-! DEFINITION. The die control page and the windows: CANCFG, SCRUBPER and the error log (R399, R435), regions (R413), pools
(R449), particles (R502), populations (R501, R540), plain registers (R10), and the borrowing of pages (R453). -/

namespace Sys2Proof.Machine

/-! ### Who writes (R435, R491) -/

/-- A write by a master to the page of a die. A function that is frozen has its requests completed with an error; a hart writes
its own die's pages, while it runs (R490, R492, R532). -/
def onMaster (name : String) (m : Master) (die : Nat) (s : State) (f : State → State) : Host.Outcome State Fault Refusal :=
  match m with
  | .fn n => onDie die (onFn n s f)
  | .hart d => onDie die (onEvent name (if d = die ∧ s.hartRuns d then some (f s) else none))

/-- Physical function 0 or a hart. -/
def fullMaster : Master → Bool
  | .fn n => n == 0
  | .hart _ => true

/-- The ownership rule of R491: `valid` and `owner` of the entry, and the owner that the write names. -/
def State.owns (s : State) (m : Master) (valid : Bool) (owner written : Nat) : Bool :=
  match m with
  | .fn n => n == 0 || s.holds n (if valid then owner else written)
  | .hart _ => true

/-! ### CANCFG, SCRUBPER, ERRCLR (R399, R435) -/

/-- A write of CANCFG is ignored. -/
def State.cancfgIgnored (s : State) (die val : Nat) : Bool :=
  (s.blocks.any fun b => b.1 / 8 / 64 == die) || !(s.retained die).isEmpty || decide (8 < bits val 3 0) ||
    decide (4 < bits val 11 8)

/-- CANCFG_WRITE (R399). -/
def execCancfgWrite (m : Master) (die : Nat) (val : W64) (s : State) : Host.Outcome State Fault Refusal :=
  onMaster "CANCFG_WRITE" m die s fun s =>
    let v := val.toNat
    if !fullMaster m || s.cancfgIgnored die v then s
    else s.modDie die fun d => { d with cancfg := BitVec.ofNat 64 (bits v 11 8 * 2 ^ 8 + bits v 3 0) }

/-- SCRUBPER after a write: a field out of range is left unchanged. -/
def scrubperWritten (old val : Nat) : Nat :=
  let can := bits val 13 8
  let dram := bits val 5 0
  (if 28 ≤ can ∧ can ≤ 40 then can else bits old 13 8) * 2 ^ 8 + if 30 ≤ dram ∧ dram ≤ 42 then dram else bits old 5 0

/-- SCRUBPER_WRITE (R435). -/
def execScrubperWrite (m : Master) (die : Nat) (val : W64) (s : State) : Host.Outcome State Fault Refusal :=
  onMaster "SCRUBPER_WRITE" m die s fun s =>
    if fullMaster m then s.modDie die fun d => { d with scrubper := BitVec.ofNat 64 (scrubperWritten d.scrubper.toNat val.toNat) } else s

/-- ERRCLR (R435). -/
def execErrclr (m : Master) (die : Nat) (val : W64) (s : State) : Host.Outcome State Fault Refusal :=
  onMaster "ERRCLR" m die s fun s =>
    if fullMaster m && bit val.toNat 0 then s.modDie die fun d => { d with errCorr := 0, errUncorr := 0, errLast := none } else s

/-- ERRLOG0 and ERRLOG1 as they read. -/
def Die.errlog0 (d : Die) : W64 := BitVec.ofNat 64 (d.errUncorr * 2 ^ 32 + d.errCorr)
def Die.errlog1 (d : Die) : W64 := match d.errLast with
  | some a => BitVec.ofNat 64 (2 ^ 63 + a)
  | none => 0

/-! ### The region window (R413) -/

/-- Word 0 of a region entry, its RW fields written. -/
def Region.written (r : Region) (v : Nat) : Region :=
  { r with owner := bits v 63 56, chome := bits v 55 50, srcHost := bit v 49, srcPeer := bit v 48, srcCopy := bit v 47,
           srcCmt := bit v 46, valid := bit v 42, pbase := bits v 38 12 * 4096, log2sz := bits v 11 7 }

/-- The words of a region entry as they read; PBASE is the base on its die. -/
def Region.word (r : Region) (n : Nat) : W64 :=
  BitVec.ofNat 64 (match n with
    | 0 => r.owner * 2 ^ 56 + r.chome * 2 ^ 50 + ofBool r.srcHost * 2 ^ 49 + ofBool r.srcPeer * 2 ^ 48 + ofBool r.srcCopy * 2 ^ 47 +
        ofBool r.srcCmt * 2 ^ 46 + r.act * 2 ^ 44 + ofBool r.armed * 2 ^ 43 + ofBool r.valid * 2 ^ 42 + ofBool r.ovf * 2 ^ 41 +
        r.pbase + r.log2sz * 2 ^ 7
    | 1 => r.phase * 2 ^ 48 + r.expected
    | 2 => r.arrived
    | 3 => r.task * 2 ^ 48 + r.rearm
    | _ => 0)

/-- REGION_WINDOW_WRITE (R413, R491): only word 0 has fields that the window writes. -/
def execRegionWindowWrite (m : Master) (die word : Nat) (val : W64) (s : State) : Host.Outcome State Fault Refusal :=
  onMaster "REGION_WINDOW_WRITE" m die s fun s =>
    let rid := 4096 * die + (s.die die).rwsel.toNat
    let r := s.region rid
    if word ≠ 0 || r.armed || !s.owns m r.valid r.owner (bits val.toNat 63 56) then s
    else s.setRegion rid (r.written val.toNat)

/-! ### The pool window (R449) -/

/-- Word 0 of a pool; setting VALID fills its free list. -/
def Pool.written (p : Pool) (v : Nat) : Pool :=
  let p := { p with owner := bits v 63 56, valid := bit v 55, borrow := bit v 54, log2ps := bits v 44 40, lowat := bits v 39 32,
                    npages := bits v 31 0 }
  if p.valid then { p with fresh := 0, freeLocal := [], freeBorrowed := [], asking := none } else p

/-- POOL_WINDOW_WRITE (R449, R491). -/
def execPoolWindowWrite (m : Master) (die word : Nat) (val : W64) (s : State) : Host.Outcome State Fault Refusal :=
  onMaster "POOL_WINDOW_WRITE" m die s fun s =>
    let key := poolKey die (s.die die).pwsel.toNat
    let p := s.pool key
    let v := val.toNat
    if p.valid then s
    else if word = 0 then
      if s.owns m false 0 (bits v 63 56) && decide (bits v 31 0 ≤ 2 ^ 30) then s.modPool key fun p => p.written v else s
    else if word = 1 then
      if s.owns m true p.owner p.owner then s.modPool key fun p => { p with vbase := val } else s
    else s

/-- Word 2 of a pool as it reads. -/
def State.poolWord2 (s : State) (die p : Nat) : W64 :=
  let lent := (s.batches.filter fun b => b.lender == die && b.pool == p).length
  let got := (s.batches.filter fun b => b.borrower == die && b.pool == p).length
  BitVec.ofNat 64 ((s.pool (poolKey die p)).freePages * 2 ^ 32 + lent % 65536 * 2 ^ 16 + got % 65536)

/-! ### Borrowing (R453) -/

/-- The lender's pool grants a batch. -/
def lends (borrower lender : Pool) : Bool :=
  lender.valid && lender.borrow && lender.owner == borrower.owner && lender.log2ps == borrower.log2ps &&
    decide (lender.lowat + 64 ≤ lender.freePages)

/-- The outstanding request of a die's pool reaches the die that it asks. -/
def State.askLender (s : State) (die p : Nat) : Option State :=
  let key := poolKey die p
  match (s.pool key).asking with
  | none => none
  | some [] => some (s.modPool key fun k => { k with asking := none })
  | some (d :: rest) =>
    if lends (s.pool key) (s.pool (poolKey d p)) then
      let (pages, left) := Pool.take d 64 (s.pool (poolKey d p)) []
      let s := s.modPool (poolKey d p) fun _ => left
      let s := s.modPool key fun k => { k with asking := none, freeBorrowed := k.freeBorrowed ++ pages }
      some { s with batches := s.batches ++ [{ lender := d, borrower := die, pool := p, left := pages }] }
    else some (s.modPool key fun k => { k with asking := if rest.isEmpty then none else some rest })

/-- BORROW_GRANT (R453): the request of the pool of die `die`. -/
def execBorrowGrant (die pool : Nat) (s : State) : Host.Outcome State Fault Refusal :=
  onDie die (onEvent "BORROW_GRANT" (if pool < 16 then s.askLender die pool else none))

/-! ### The particle window (R500, R502) -/

/-- The handle of a record (R500). -/
def handleAt (die pop rec : Nat) : Nat := die * 2 ^ 30 + pop * 2 ^ 22 + rec

/-- Word 0 of a particle record: a host write clears DONE; a created particle is its own parent. -/
def Particle.written (p : Particle) (host : Bool) (die rec v : Nat) : Particle :=
  let p := { p with w := BitVec.ofNat 32 (bits v 63 32), pop := bits v 31 24, st := bits v 23 22, done := p.done && !host }
  if p.st = 1 then { p with parent := BitVec.ofNat 32 (handleAt die p.pop rec) } else p

/-- The master is a host function. -/
def hostMaster : Master → Bool
  | .fn _ => true
  | .hart _ => false

/-- PARTICLE_WINDOW_WRITE (R502). -/
def execParticleWindowWrite (m : Master) (die word : Nat) (val : W64) (s : State) : Host.Outcome State Fault Refusal :=
  onMaster "PARTICLE_WINDOW_WRITE" m die s fun s =>
    let rec_ := (s.die die).ptsel.toNat
    let key := 65536 * die + rec_
    let p := s.particle key
    let v := val.toNat
    let free := p.st = 0 ∧ !p.done
    let pop := if free ∧ word = 0 then bits v 31 24 else p.pop
    if 2 ≤ p.st || !s.owns m true (s.pop pop).owner 0 then s
    else match word with
      | 0 => s.modParticle key fun p => p.written (hostMaster m) die rec_ v
      | 1 => s.modParticle key fun p => { p with seq := BitVec.ofNat 32 v }
      | 2 => s.modParticle key fun p => { p with gstate := val }
      | _ => s

/-! ### The population window (R501, R540) -/

/-- The function may write words 0 to 4 and 8 of a population now. -/
def State.popOpen (s : State) (fn pop written : Nat) : Bool :=
  let p := s.pop pop
  !s.popLive pop && s.owns (.fn fn) p.valid p.owner written

/-- A write of POPFIX: bits [62:32] are reserved. -/
def State.writePopfix (s : State) (fn : Nat) (val : W64) : State :=
  let pop := s.popsel.toNat
  if s.popOpen fn pop (s.pop pop).owner then s.modPop pop fun p => { p with popfix := val &&& 0x80000000FFFFFFFF } else s

/-- POPULATION_WINDOW_WRITE (R501). -/
def execPopulationWindowWrite (fn word : Nat) (val : W64) (s : State) : Host.Outcome State Fault Refusal :=
  onFn fn s fun s =>
    let pop := s.popsel.toNat
    let v := val.toNat
    if word = 0 then
      if s.popOpen fn pop (bits v 63 56) then s.modPop pop fun p => { p with owner := bits v 63 56, valid := bit v 55 } else s
    else if word ≤ 4 then
      if s.popOpen fn pop (s.pop pop).owner then s.modPop pop fun p => { p with gbase := Tbl.set 0 p.gbase (word - 1) val } else s
    else if word = 8 then s.writePopfix fn val
    else s

/-- POPFIX_WRITE (R540). -/
def execPopfixWrite (fn : Nat) (val : W64) (s : State) : Host.Outcome State Fault Refusal :=
  onFn fn s fun s => s.writePopfix fn val

/-- Words 5 to 7 of a population as they read (R501, R513). -/
def Pop.word (p : Pop) (n : Nat) : W64 :=
  BitVec.ofNat 64 (match n with
    | 0 => p.owner * 2 ^ 56 + ofBool p.valid * 2 ^ 55
    | 5 => p.status.toNat * 2 ^ 60 + p.count * 2 ^ 40 + p.arrived * 2 ^ 20 + p.strag
    | 6 => p.round % 2 ^ 32 * 2 ^ 32 + p.maxw.toNat
    | 7 => p.meanw.toNat * 2 ^ 32 + p.ess.toNat
    | 8 => p.popfix.toNat
    | _ => if n ≤ 4 then (Tbl.get p.gbase (n - 1) 0).toNat else 0)

/-! ### Plain registers (R10) -/

/-- The die whose page holds a register. -/
def regDie : PlainReg → Nat
  | .rwsel d | .pwsel d | .ptsel d => d
  | .saveaddr core => dieOfCore core
  | .popsel | .peergrant _ _ | .readOnly => 0

/-- What a write leaves in a register, by its access codes and by who reaches it (R435, R491, R492, R501, R543, R550). -/
def State.writePlain (s : State) (m : Master) (reg : PlainReg) (val : W64) : State :=
  match reg with
  | .rwsel d => s.modDie d fun x => { x with rwsel := val.setWidth 12 }
  | .pwsel d => s.modDie d fun x => { x with pwsel := val.setWidth 4 }
  | .ptsel d => s.modDie d fun x => { x with ptsel := val.setWidth 16 }
  | .popsel => if hostMaster m then { s with popsel := val.setWidth 8 } else s
  | .saveaddr core => if hostMaster m then s else s.modCore core fun c => { c with saveaddr := val &&& 0xFFFFFFFFFFFFF000 }
  | .peergrant port idx =>
    if m = .fn 0 ∧ port < 16 ∧ idx < 4 then
      let p := Tbl.get s.ports port Port.reset
      { s with ports := Tbl.set Port.reset s.ports port { p with grant := Tbl.set 0 p.grant idx val } }
    else s
  | .readOnly => s

/-- REGISTER_WRITE (R10): a hart reaches the registers of its own die. -/
def execRegisterWrite (m : Master) (reg : PlainReg) (val : W64) (s : State) : Host.Outcome State Fault Refusal :=
  match m, reg with
  | .hart d, .popsel | .hart d, .peergrant _ _ | .hart d, .readOnly => onMaster "REGISTER_WRITE" (.hart d) d s fun s => s
  | m, reg => onMaster "REGISTER_WRITE" m (regDie reg) s fun s => s.writePlain m reg val

end Sys2Proof.Machine
end

