-- ==== Sys2Proof/Machine/Dispatch.lean ====
section
/-! DEFINITION. One arm per row of the table: the meaning of each instruction. -/

namespace Sys2Proof.Machine

open Sys2Proof

/-- The meaning of an instruction in a state. -/
def exec (i : Instr) (s : State) : Host.Outcome State Fault Refusal :=
  match i with
  | .dieReset die => Sys2Proof.Machine.execDieReset die s
  | .secureBoot images => Sys2Proof.Machine.execSecureBoot images s
  | .attestationRequest nonce => Sys2Proof.Machine.execAttestationRequest nonce s
  | .issueCycle core => Sys2Proof.Machine.execIssueCycle core s
  | .clauseStart wid rec => Sys2Proof.Machine.execClauseStart wid rec s
  | .heldLanesDetach wid rec => Sys2Proof.Machine.execHeldLanesDetach wid rec s
  | .divergeRetry wid rec => Sys2Proof.Machine.execDivergeRetry wid rec s
  | .resultLand wid idx => Sys2Proof.Machine.execResultLand wid idx s
  | .abortRedirect wid => Sys2Proof.Machine.execAbortRedirect wid s
  | .waveEnd wid => Sys2Proof.Machine.execWaveEnd wid s
  | .sleepExpire wid rec => Sys2Proof.Machine.execSleepExpire wid rec s
  | .copyComplete core id => Sys2Proof.Machine.execCopyComplete core id s
  | .copyPieceFault core id => Sys2Proof.Machine.execCopyPieceFault core id s
  | .lazyCopyComplete blk win => Sys2Proof.Machine.execLazyCopyComplete blk win s
  | .twinCompare wid => Sys2Proof.Machine.execTwinCompare wid s
  | .mmqCollectorClose core => Sys2Proof.Machine.execMmqCollectorClose core s
  | .matrixPassStart core => Sys2Proof.Machine.execMatrixPassStart core s
  | .swathContributionAccept id => Sys2Proof.Machine.execSwathContributionAccept id s
  | .swathRoundComplete lid sid => Sys2Proof.Machine.execSwathRoundComplete lid sid s
  | .peerSwathResult lid sid rows => Sys2Proof.Machine.execPeerSwathResult lid sid rows s
  | .engineRequestComplete id => Sys2Proof.Machine.execEngineRequestComplete id s
  | .uLineEvict core line => Sys2Proof.Machine.execULineEvict core line s
  | .regionPhaseComplete rid => Sys2Proof.Machine.execRegionPhaseComplete rid s
  | .awaitLimitExpire wid rec => Sys2Proof.Machine.execAwaitLimitExpire wid rec s
  | .tlbMissWalk die => Sys2Proof.Machine.execTlbMissWalk die s
  | .faultAnswer die idx retry => Sys2Proof.Machine.execFaultAnswer die idx retry s
  | .invalidation ctx lo hi => Sys2Proof.Machine.execInvalidation ctx lo hi s
  | .scrubStep die canopy unit found => Sys2Proof.Machine.execScrubStep die canopy unit found s
  | .cancfgWrite m die val => Sys2Proof.Machine.execCancfgWrite m die val s
  | .scrubperWrite m die val => Sys2Proof.Machine.execScrubperWrite m die val s
  | .errclr m die val => Sys2Proof.Machine.execErrclr m die val s
  | .regionWindowWrite m die word val => Sys2Proof.Machine.execRegionWindowWrite m die word val s
  | .poolWindowWrite m die word val => Sys2Proof.Machine.execPoolWindowWrite m die word val s
  | .particleWindowWrite m die word val => Sys2Proof.Machine.execParticleWindowWrite m die word val s
  | .populationWindowWrite fn word val => Sys2Proof.Machine.execPopulationWindowWrite fn word val s
  | .popfixWrite fn val => Sys2Proof.Machine.execPopfixWrite fn val s
  | .registerWrite m reg val => Sys2Proof.Machine.execRegisterWrite m reg val s
  | .ctxfnWrite fn ctx val => Sys2Proof.Machine.execCtxfnWrite fn ctx val s
  | .contextCreate fn ctx val => Sys2Proof.Machine.execContextCreate fn ctx val s
  | .contextTeardown fn ctx val => Sys2Proof.Machine.execContextTeardown fn ctx val s
  | .contextDescriptorWrite fn ctx word val => Sys2Proof.Machine.execContextDescriptorWrite fn ctx word val s
  | .evheadWrite fn ctx val => Sys2Proof.Machine.execEvheadWrite fn ctx val s
  | .queueConfigWrite fn ctx q reg val => Sys2Proof.Machine.execQueueConfigWrite fn ctx q reg val s
  | .qtailWrite fn ctx q val => Sys2Proof.Machine.execQtailWrite fn ctx q val s
  | .launchStart slot => Sys2Proof.Machine.execLaunchStart slot s
  | .crewOffer lid die => Sys2Proof.Machine.execCrewOffer lid die s
  | .launchComplete lid => Sys2Proof.Machine.execLaunchComplete lid s
  | .slotwr core w0 w1 w2 w3 => Sys2Proof.Machine.execSlotwr core w0 w1 w2 w3 s
  | .gangStart lid crew => Sys2Proof.Machine.execGangStart lid crew s
  | .preempt core val => Sys2Proof.Machine.execPreempt core val s
  | .preemptSaveComplete lid crew => Sys2Proof.Machine.execPreemptSaveComplete lid crew s
  | .launchKill slot => Sys2Proof.Machine.execLaunchKill slot s
  | .detGroupApply lid => Sys2Proof.Machine.execDetGroupApply lid s
  | .roundOpen lid => Sys2Proof.Machine.execRoundOpen lid s
  | .particleArrival lid => Sys2Proof.Machine.execParticleArrival lid s
  | .cloneRetry lid => Sys2Proof.Machine.execCloneRetry lid s
  | .borrowGrant die pool => Sys2Proof.Machine.execBorrowGrant die pool s
  | .hwinWrite fn val => Sys2Proof.Machine.execHwinWrite fn val s
  | .hostWindowRead fn off len => Sys2Proof.Machine.execHostWindowRead fn off len s
  | .hostWindowWrite fn off data => Sys2Proof.Machine.execHostWindowWrite fn off data s
  | .hostAtomic fn off op wide val => Sys2Proof.Machine.execHostAtomic fn off op wide val s
  | .hostCasRequest fn off => Sys2Proof.Machine.execHostCasRequest fn off s
  | .apertureWrite fn idx word val => Sys2Proof.Machine.execApertureWrite fn idx word val s
  | .peerRequest port req => Sys2Proof.Machine.execPeerRequest port req s
  | .peerCommitUnit port first rest => Sys2Proof.Machine.execPeerCommitUnit port first rest s
  | .peerAck id ok data => Sys2Proof.Machine.execPeerAck id ok data s
  | .peerPortDown port => Sys2Proof.Machine.execPeerPortDown port s
  | .peerstatWrite fn port val => Sys2Proof.Machine.execPeerstatWrite fn port val s
  | .pairWord a b => Sys2Proof.Machine.execPairWord a b s
  | .nop w => Sys2Proof.Machine.execNop w s
  | .bra w => Sys2Proof.Machine.execBra w s
  | .bru w => Sys2Proof.Machine.execBru w s
  | .brx w => Sys2Proof.Machine.execBrx w s
  | .call w => Sys2Proof.Machine.execCall w s
  | .retn w => Sys2Proof.Machine.execRetn w s
  | .exit w => Sys2Proof.Machine.execExit w s
  | .trap w => Sys2Proof.Machine.execTrap w s
  | .tret w => Sys2Proof.Machine.execTret w s
  | .tretSkip w => Sys2Proof.Machine.execTretSkip w s
  | .yield w => Sys2Proof.Machine.execYield w s
  | .sleep w => Sys2Proof.Machine.execSleep w s
  | .cyc w => Sys2Proof.Machine.execCyc w s
  | .srrd w => Sys2Proof.Machine.execSrrd w s
  | .srwr w => Sys2Proof.Machine.execSrwr w s
  | .iadd w => Sys2Proof.Machine.execIadd w s
  | .isub w => Sys2Proof.Machine.execIsub w s
  | .imul w => Sys2Proof.Machine.execImul w s
  | .imulh w => Sys2Proof.Machine.execImulh w s
  | .imad w => Sys2Proof.Machine.execImad w s
  | .imadw w => Sys2Proof.Machine.execImadw w s
  | .idiv w => Sys2Proof.Machine.execIdiv w s
  | .irem w => Sys2Proof.Machine.execIrem w s
  | .imin w => Sys2Proof.Machine.execImin w s
  | .imax w => Sys2Proof.Machine.execImax w s
  | .iabs w => Sys2Proof.Machine.execIabs w s
  | .ineg w => Sys2Proof.Machine.execIneg w s
  | .isad w => Sys2Proof.Machine.execIsad w s
  | .idot4 w => Sys2Proof.Machine.execIdot4 w s
  | .icmp w => Sys2Proof.Machine.execIcmp w s
  | .shl w => Sys2Proof.Machine.execShl w s
  | .shr w => Sys2Proof.Machine.execShr w s
  | .sar w => Sys2Proof.Machine.execSar w s
  | .rot w => Sys2Proof.Machine.execRot w s
  | .and w => Sys2Proof.Machine.execAnd w s
  | .or w => Sys2Proof.Machine.execOr w s
  | .xor w => Sys2Proof.Machine.execXor w s
  | .not w => Sys2Proof.Machine.execNot w s
  | .lop3 w => Sys2Proof.Machine.execLop3 w s
  | .lea w => Sys2Proof.Machine.execLea w s
  | .sel w => Sys2Proof.Machine.execSel w s
  | .mov w => Sys2Proof.Machine.execMov w s
  | .movi w => Sys2Proof.Machine.execMovi w s
  | .iadds w => Sys2Proof.Machine.execIadds w s
  | .clamp w => Sys2Proof.Machine.execClamp w s
  | .kop w => Sys2Proof.Machine.execKop w s
  | .kmov w => Sys2Proof.Machine.execKmov w s
  | .kmovFromw w => Sys2Proof.Machine.execKmovFromw w s
  | .kmovTow w => Sys2Proof.Machine.execKmovTow w s
  | .kmovFromv w => Sys2Proof.Machine.execKmovFromv w s
  | .kmovTov w => Sys2Proof.Machine.execKmovTov w s
  | .ksetAll w => Sys2Proof.Machine.execKsetAll w s
  | .ksetNone w => Sys2Proof.Machine.execKsetNone w s
  | .ksetBelow w => Sys2Proof.Machine.execKsetBelow w s
  | .kcnt w => Sys2Proof.Machine.execKcnt w s
  | .kfindFirst w => Sys2Proof.Machine.execKfindFirst w s
  | .kfindLast w => Sys2Proof.Machine.execKfindLast w s
  | .popc w => Sys2Proof.Machine.execPopc w s
  | .clz w => Sys2Proof.Machine.execClz w s
  | .ctz w => Sys2Proof.Machine.execCtz w s
  | .fns w => Sys2Proof.Machine.execFns w s
  | .brev w => Sys2Proof.Machine.execBrev w s
  | .bfx w => Sys2Proof.Machine.execBfx w s
  | .bfi w => Sys2Proof.Machine.execBfi w s
  | .bmsk w => Sys2Proof.Machine.execBmsk w s
  | .fadd w => Sys2Proof.Machine.execFadd w s
  | .fsub w => Sys2Proof.Machine.execFsub w s
  | .fmul w => Sys2Proof.Machine.execFmul w s
  | .ffma w => Sys2Proof.Machine.execFfma w s
  | .fmin w => Sys2Proof.Machine.execFmin w s
  | .fmax w => Sys2Proof.Machine.execFmax w s
  | .fcmp w => Sys2Proof.Machine.execFcmp w s
  | .fclass w => Sys2Proof.Machine.execFclass w s
  | .frnd w => Sys2Proof.Machine.execFrnd w s
  | .fdiv w => Sys2Proof.Machine.execFdiv w s
  | .fsqrt w => Sys2Proof.Machine.execFsqrt w s
  | .frcp w => Sys2Proof.Machine.execFrcp w s
  | .frsq w => Sys2Proof.Machine.execFrsq w s
  | .fexp2 w => Sys2Proof.Machine.execFexp2 w s
  | .flog2 w => Sys2Proof.Machine.execFlog2 w s
  | .fsinpi w => Sys2Proof.Machine.execFsinpi w s
  | .fcospi w => Sys2Proof.Machine.execFcospi w s
  | .fscale w => Sys2Proof.Machine.execFscale w s
  | .fgetx w => Sys2Proof.Machine.execFgetx w s
  | .fgetm w => Sys2Proof.Machine.execFgetm w s
  | .fdot2 w => Sys2Proof.Machine.execFdot2 w s
  | .sumc w => Sys2Proof.Machine.execSumc w s
  | .cvt w => Sys2Proof.Machine.execCvt w s
  | .qnt w => Sys2Proof.Machine.execQnt w s
  | .dqnt w => Sys2Proof.Machine.execDqnt w s
  | .pkn w => Sys2Proof.Machine.execPkn w s
  | .upkn w => Sys2Proof.Machine.execUpkn w s
  | .pexp w => Sys2Proof.Machine.execPexp w s
  | .maxe w => Sys2Proof.Machine.execMaxe w s
  | .rnd w => Sys2Proof.Machine.execRnd w s
  | .shfl w => Sys2Proof.Machine.execShfl w s
  | .bcst w => Sys2Proof.Machine.execBcst w s
  | .bcstFirst w => Sys2Proof.Machine.execBcstFirst w s
  | .vote w => Sys2Proof.Machine.execVote w s
  | .redx w => Sys2Proof.Machine.execRedx w s
  | .scanx w => Sys2Proof.Machine.execScanx w s
  | .matchEq w => Sys2Proof.Machine.execMatchEq w s
  | .redw w => Sys2Proof.Machine.execRedw w s
  | .elect w => Sys2Proof.Machine.execElect w s
  | .electK w => Sys2Proof.Machine.execElectK w s
  | .ld w => Sys2Proof.Machine.execLd w s
  | .st w => Sys2Proof.Machine.execSt w s
  | .ldu w => Sys2Proof.Machine.execLdu w s
  | .stu w => Sys2Proof.Machine.execStu w s
  | .lds w => Sys2Proof.Machine.execLds w s
  | .sts w => Sys2Proof.Machine.execSts w s
  | .atom w => Sys2Proof.Machine.execAtom w s
  | .red w => Sys2Proof.Machine.execRed w s
  | .prf w => Sys2Proof.Machine.execPrf w s
  | .pin w => Sys2Proof.Machine.execPin w s
  | .unpin w => Sys2Proof.Machine.execUnpin w s
  | .xbeg w => Sys2Proof.Machine.execXbeg w s
  | .xbegChk w => Sys2Proof.Machine.execXbegChk w s
  | .cmt w => Sys2Proof.Machine.execCmt w s
  | .abt w => Sys2Proof.Machine.execAbt w s
  | .pul w => Sys2Proof.Machine.execPul w s
  | .xstat w => Sys2Proof.Machine.execXstat w s
  | .cpy w => Sys2Proof.Machine.execCpy w s
  | .cpyt w => Sys2Proof.Machine.execCpyt w s
  | .cpyx w => Sys2Proof.Machine.execCpyx w s
  | .waitk w => Sys2Proof.Machine.execWaitk w s
  | .wprm w => Sys2Proof.Machine.execWprm w s
  | .wprmRead w => Sys2Proof.Machine.execWprmRead w s
  | .lazy w => Sys2Proof.Machine.execLazy w s
  | .lazyc w => Sys2Proof.Machine.execLazyc w s
  | .aarm w => Sys2Proof.Machine.execAarm w s
  | .aexp w => Sys2Proof.Machine.execAexp w s
  | .aadd w => Sys2Proof.Machine.execAadd w s
  | .await w => Sys2Proof.Machine.execAwait w s
  | .aread w => Sys2Proof.Machine.execAread w s
  | .adis w => Sys2Proof.Machine.execAdis w s
  | .obr w => Sys2Proof.Machine.execObr w s
  | .obf w => Sys2Proof.Machine.execObf w s
  | .obw w => Sys2Proof.Machine.execObw w s
  | .obl w => Sys2Proof.Machine.execObl w s
  | .stb w => Sys2Proof.Machine.execStb w s
  | .mmq w => Sys2Proof.Machine.execMmq w s
  | .mmqs w => Sys2Proof.Machine.execMmqs w s
  | .mmqp w => Sys2Proof.Machine.execMmqp w s
  | .acz w => Sys2Proof.Machine.execAcz w s
  | .acr w => Sys2Proof.Machine.execAcr w s
  | .drn w => Sys2Proof.Machine.execDrn w s
  | .drns w => Sys2Proof.Machine.execDrns w s
  | .mmsk w => Sys2Proof.Machine.execMmsk w s
  | .acs w => Sys2Proof.Machine.execAcs w s
  | .swr w => Sys2Proof.Machine.execSwr w s
  | .barb w => Sys2Proof.Machine.execBarb w s
  | .barc w => Sys2Proof.Machine.execBarc w s
  | .spawn w => Sys2Proof.Machine.execSpawn w s
  | .twinCkpt w => Sys2Proof.Machine.execTwinCkpt w s
  | .twinCmp w => Sys2Proof.Machine.execTwinCmp w s
  | .detf w => Sys2Proof.Machine.execDetf w s
  | .kvt w => Sys2Proof.Machine.execKvt w s
  | .kvaNew w => Sys2Proof.Machine.execKvaNew w s
  | .kvaApp w => Sys2Proof.Machine.execKvaApp w s
  | .kvc w => Sys2Proof.Machine.execKvc w s
  | .kvf w => Sys2Proof.Machine.execKvf w s
  | .wnw w => Sys2Proof.Machine.execWnw w s
  | .gmk w => Sys2Proof.Machine.execGmk w s
  | .gstp w => Sys2Proof.Machine.execGstp w s
  | .smpl w => Sys2Proof.Machine.execSmpl w s
  | .pwadd w => Sys2Proof.Machine.execPwadd w s
  | .pwset w => Sys2Proof.Machine.execPwset w s
  | .rsb w => Sys2Proof.Machine.execRsb w s
  | .popr w => Sys2Proof.Machine.execPopr w s
  | .pkill w => Sys2Proof.Machine.execPkill w s
  | .peerLinkUp port serial => Sys2Proof.Machine.execPeerLinkUp port serial s
  | .peerFlitReplay port => Sys2Proof.Machine.execPeerFlitReplay port s
  | .hostFunctionReset fn => Sys2Proof.Machine.execHostFunctionReset fn s
  | .dispatchHartReload die image => Sys2Proof.Machine.execDispatchHartReload die image s
  | .policyConfigurationWrite config => Sys2Proof.Machine.execPolicyConfigurationWrite config s

end Sys2Proof.Machine
end

