-- ==== Sys2Proof/Machine/Events.lean ====
section
/-! DEFINITION. The events that the part itself brings about, in the order in which the model looks for one that can happen. -/

namespace Sys2Proof.Machine

/-- Events of the fragments and waves. -/
def waveEvents (s : State) : List Instr :=
  s.waves.flatMap fun p =>
    let frags := p.2.frags.map (·.1)
    ((List.range p.2.pending.length).map fun i => Instr.resultLand p.1 i) ++
      [.abortRedirect p.1, .twinCompare p.1] ++
      (frags.flatMap fun r =>
        [Instr.sleepExpire p.1 r, .awaitLimitExpire p.1 r, .heldLanesDetach p.1 r, .divergeRetry p.1 r, .clauseStart p.1 r]) ++
      p.2.sends.map fun x => Instr.swathContributionAccept x.id

/-- Wave ends, lower block index first: what they carry reaches one crew in that order (R220, R374). -/
def endEvents (s : State) : List Instr :=
  (sortBy (fun p q : Nat × Wave => decide (p.2.blocklin < q.2.blocklin)) s.waves).map fun p => .waveEnd p.1

/-- A copy may complete: its promise has passed, and what it may be late by (R274). -/
def Copy.due (c : Copy) (cyc : Nat) : Bool := decide (c.promise + Config.copyLate c.id ≤ cyc + 1)

/-- Events of the cores' units and of the blocks. -/
def coreEvents (s : State) : List Instr :=
  (s.cores.flatMap fun c =>
    (c.2.copies.flatMap fun x =>
      Instr.copyPieceFault c.1 x.id :: if x.due c.2.cyc then [.copyComplete c.1 x.id] else []) ++
      (if c.2.coll.isSome then [.mmqCollectorClose c.1] else []) ++ if c.2.closed.isEmpty then [] else [.matrixPassStart c.1]) ++
    (s.blocks.flatMap fun b => (b.2.lazyWins.filter fun v => v.2.inflight.isSome).map fun v => Instr.lazyCopyComplete b.1 v.1) ++
    (s.reqs.map fun r => Instr.engineRequestComplete r.id) ++
    (s.swaths.map fun x => Instr.swathRoundComplete (x.1 / 256) (x.1 % 256)) ++
    ((s.regions.filter fun r => r.2.completes).map fun r => Instr.regionPhaseComplete r.1) ++
    ((s.dies.filter fun d => !d.2.walks.isEmpty).map fun d => Instr.tlbMissWalk d.1) ++
    ((s.pools.filter fun p => p.2.asking.isSome).map fun p => Instr.borrowGrant (p.1 / 16) (p.1 % 16))

/-- A retry would make a clone (R511). -/
def retryHelps (s : State) (lid : Nat) (r : RoundState) : Bool :=
  match (s.secondPass lid r.clones).round lid with
  | some x => decide (x.clones.length < r.clones.length)
  | none => false

/-- Events of the launch front, the harts' claims, and the ticket unit. -/
def launchEvents (s : State) : List Instr :=
  s.slots.flatMap (fun x => if x.2.lid.isNone && x.2.readyAt.isSome then [Instr.launchStart x.1] else []) ++
    (s.launches.flatMap fun l =>
      (if l.2.killReq.isSome then [Instr.launchKill l.2.sk] else []) ++
      (match l.2.round with
        | some r => [Instr.roundOpen l.1, .particleArrival l.1] ++ if retryHelps s l.1 r then [.cloneRetry l.1] else []
        | none => []) ++
      [.detGroupApply l.1, .crewOffer l.1 0, .crewOffer l.1 1, .crewOffer l.1 2, .crewOffer l.1 3, .launchComplete l.1]) ++
    ((s.gangs.filter (·.glast)).map fun g => Instr.gangStart g.lid (s.gangCrew g)) ++
    ((s.blocks.filter fun b => b.2.stopping).map fun b => Instr.preemptSaveComplete b.2.lid b.2.crew)

/-- The first event of a list that can happen, done. -/
def firstNext (s : State) : List Instr → Option State
  | [] => none
  | i :: rest => match exec i s with
    | .next t => some t
    | _ => firstNext s rest

/-- The part's own next event, done. -/
def State.ownEvent (s : State) : Option State :=
  ((firstNext s (waveEvents s ++ endEvents s)).orElse fun _ => firstNext s (coreEvents s)).orElse fun _ => firstNext s (launchEvents s)

/-- No fragment issues between steps. -/
def settled (r : Host.Outcome State Fault Refusal) : Host.Outcome State Fault Refusal :=
  match r with
  | .next s => .next { s with cur := none }
  | r => r

/-- The level at which a picked word commits or performs an atomic; 0 for every other word. -/
def State.commitLevel (s : State) (x : Nat × Nat) : Nat :=
  match s.fragAt x.1 x.2 with
  | none => 0
  | some (w, f) => match f.clause.map (inspect w.allot) with
    | some (.ok i) => match i with
      | .cmt w | .atom w | .red w => fb w 13 11
      | _ => 0
    | _ => 0

/-- The order of the words of one cycle (R220): commits of a home slice by die, cluster, core and wave slot; before them those of a
crew, by block index, and those of a block, by wave slot. -/
def State.arbiter (s : State) (x y : Nat × Nat) : Bool :=
  let home (z : Nat × Nat) : Bool := decide (3 ≤ s.commitLevel z)
  let index (z : Nat × Nat) : Nat := if home z then 0 else match s.wave z.1 with
    | some w => w.blocklin
    | none => 0
  if home x != home y then home y
  else if index x ≠ index y then decide (index x < index y)
  else decide (x.1 < y.1) || (x.1 == y.1 && decide (x.2 < y.2))

/-- A clock cycle of the package: one cycle of every core whose die is out of reset, and their words in the arbiters' order (R124,
R133, R220). -/
def State.nextCycle (s : State) : State :=
  let t := ((List.range 256).filter fun c => !(s.die (dieOfCore c)).inReset).foldl State.cycle s.landPasses
  { t.sealArrivals with picked := sortBy t.arbiter t.picked }

/-- A fragment whose word has no pass to issue: the word takes no cycle (R112). -/
def State.skipping (s : State) : Option (Nat × Nat) :=
  (s.waves.flatMap fun p => (p.2.frags.filter fun q => s.canGo p.1 q.1 p.2 q.2 && q.2.skips p.2).map fun q => (p.1, q.1)).head?

/-- Run a word whose passes have issued. -/
def State.runWord (s : State) (x : Nat × Nat) : Host.Outcome State Fault Refusal :=
  match s.pickWord x.1 x.2 with
  | .run i s => settled (exec i s)
  | .trapped s => .next s

/-- The part's own step: a picked word runs; else a word that takes no cycle; else its next event; else a clock cycle. -/
def State.ownStep (s : State) : Host.Outcome State Fault Refusal :=
  match s.picked with
  | x :: rest => ({ s with picked := rest } : State).runWord x
  | [] => match s.skipping with
    | some x => s.runWord x
    | none => match s.ownEvent with
      | some t => .next t
      | none => .next s.nextCycle

/-! ### A word placed at the next fetch (host interface) -/

/-- Code words of a table row's bits: a second word only for an E-form word. -/
def placedWords (nbits w : Nat) : List W64 :=
  let v := w % 2 ^ nbits
  let x := BitVec.ofNat 64 v
  if formOf x = 2 then [x, BitVec.ofNat 64 (v / 2 ^ 64)] else [x]

/-- NOP (R195). -/
def nopWord : W64 := 0x0000383838380000

/-- The clause of a word: of a class that admits it, its lookahead window filled with NOPs. -/
def placedClause (nbits w : Nat) : Clause :=
  let code := placedWords nbits w
  let x := code.headD 0
  let fill := if formOf x = 1 then 0 else bits x.toNat 53 50
  let cls := if formOf x = 1 then 0 else ((List.range 6).find? fun c => classAdmits c (opBits x) (fill == 0)).getD 0
  let words := code ++ List.replicate fill nopWord
  { addr := 0x10000, hdr := BitVec.ofNat 64 (3 * 2 ^ 62 + cls * 2 ^ 58 + (words.length - 1) * 2 ^ 54), words := words, idx := 0,
    passes := 0 }

/-- A wave of width 16 with the largest allotment, in slot 0 of core 0, about to run a clause. -/
def placedWave (c : Clause) : Wave :=
  let w := Wave.bound
    { lid := 1, ctx := 0, bslot := 0, waveIdx := 0, role := 0, width := 16, cross := 16, vregs := 128, accs := 64, blocklin := 0,
      crew := 0, part := 0, prio := 0, shadow := false, vbase := 0, accbase := 0, pc := c.addr }
  { w with frags := [(0, { Frag.start (fullMask 16) c.addr [] with clause := some c })] }

/-- Its block, launch record and crew. -/
def placedGang : Gang :=
  { core := 0, bslot := 0, lid := 1, blocklin := 0, shadow := false, resume := false, glast := true, recs := [] }
def placedRecord : List W64 :=
  [0, 0, 0, BitVec.ofNat 64 (1 * 2 ^ 38 + 64 * 2 ^ 25), BitVec.ofNat 64 (64 * 2 ^ 40 + 256 * 2 ^ 31), BitVec.ofNat 64 (15 * 2 ^ 28 + 2 ^ 23),
   0, 0, 0, 0x0000000100000001, 1]
def placedLaunch : Launch := Launch.fresh 0 placedRecord 0
def placedCrew : Crew :=
  { lid := 1, ctx := 0, idx := 0, die := 0, cluster := 0, size := 1, share := 1, buf := [], bars := [], ended := 0 }

/-- A bound wave whose next word is the given one, picked for issue. -/
def State.withWord (s : State) (nbits w : Nat) : State :=
  let d := s.die 0
  { s with agenda := [], picked := [(0, 0)], cur := none, waves := Tbl.put s.waves 0 (placedWave (placedClause nbits w)),
           blocks := Tbl.put s.blocks 0 (placedGang.block placedLaunch 0 1 0 [31]), crews := Tbl.put s.crews (crewKey 1 0) placedCrew,
           launches := Tbl.put s.launches 1 placedLaunch, dies := Tbl.put s.dies 0 { d with inReset := false } }

end Sys2Proof.Machine
end

