-- ==== Sys2Proof/Machine/Step.lean ====
section
/-! DEFINITION. One step of the package, and the placing of an instruction at its next fetch. -/

namespace Sys2Proof.Machine

/-- One step: the agenda's next entry, where it has one; else the part's own step. -/
def step (s : State) : Host.Outcome State Fault Refusal :=
  match s.agenda with
  | some i :: rest => settled (exec i { s with agenda := rest })
  | none :: rest => State.ownStep { s with agenda := rest }
  | [] => s.ownStep

/-- The machine about to run the instruction whose bits are `w` (host interface): the load of a program by the runtime, up to a
bound wave whose fragment stands at that word. -/
def State.withFetchWord (s : State) (nbits w : Nat) : State := s.withWord nbits w

end Sys2Proof.Machine
end

