-- ==== Sys2Proof/Safety.lean ====
section
/-! DEFINITION. What the statements about the machine are made of: states in which memory is well formed, words that issue,
what a word that completes leaves behind, and what it leaves alone.

The statements speak of a word through its environment `e`: the wave and the fragment that issue, the active lanes and the
operands. `wordEnv w s = some e` says that the word `w` issues in `s` and sees `e`. -/

namespace Sys2Proof.Machine

/-- Device memory and host memory stand in canonical form: equal memories are equal data. -/
def MemOk (s : State) : Prop := Memory.wf s.mem = true ∧ Memory.wf s.hostMem = true

/-- Every byte of device memory and of host memory reads as before. -/
def SameMemory (s t : State) : Prop :=
  (∀ a, Memory.read t.mem a = Memory.read s.mem a) ∧ ∀ a, Memory.read t.hostMem a = Memory.read s.hostMem a

/-- The word `w` issues in `s` on a wave whose launch is not a TWIN launch, and sees `e`. -/
structure Issues (w : Fields) (s : State) (e : Env) : Prop where
  env : wordEnv w s = some e
  own : s.wave e.wid = some e.wv
  single : s.twinned e.wv = false

/-- An element of a vector register. -/
def Wave.velem (w : Wave) (n lane : Nat) : W32 := Tbl.get w.v (1024 * n + lane) 0

/-- A scalar register. -/
def Wave.selem (w : Wave) (n : Nat) : W64 := Tbl.get w.s n 0

/-- A mask register other than k0. -/
def Wave.kelem (w : Wave) (n : Nat) : Mask := Tbl.get w.k n 0

/-- Index of the word after this one; after a replayed word the place that was reached before (R100, R237). -/
def Env.next (e : Env) : Nat := e.frag.resume.getD (e.cl.idx + e.cl.sizeAt e.cl.idx)

/-- The word has completed without a trap. In `s`, which its effect has left, its wave was `v`; in `t` that wave is `w'`, whose
fragment goes on after the word, and nothing differs from `s` but the wave's registers, FPFLAGS and pending results. -/
structure Completes (e : Env) (s : State) (v : Wave) (t : State) (w' : Wave) : Prop where
  before : s.wave e.wid = some v
  wave : t.wave e.wid = some w'
  others : ∀ k, k ≠ e.wid → t.wave k = s.wave k
  rest : { t with waves := s.waves } = s
  parts : { w' with v := v.v, s := v.s, k := v.k, fpflags := v.fpflags, pending := v.pending, frags := v.frags } = v
  frag : Tbl.find w'.frags e.fr = some (e.frag.advanceTo e.cl e.next)
  frags : ∀ r, r ≠ e.fr → Tbl.find w'.frags r = Tbl.find v.frags r

/-- The wave has taken the trap `r` of its fragment `e.fr` (R232 to R238). In `s` it was `v` and in `t` it is `w'`: the trap registers
name `pc`, the cause, the information and the lanes; the fragment goes on in handler mode at TVEC with its lanes and an empty token
stack; nothing else differs. -/
structure Traps (e : Env) (s : State) (v : Wave) (t : State) (w' : Wave) (r : TrapRec) (pc : W64) : Prop where
  before : s.wave e.wid = some v
  wave : t.wave e.wid = some w'
  others : ∀ k, k ≠ e.wid → t.wave k = s.wave k
  rest : { t with waves := s.waves } = s
  parts : { w' with trappc := v.trappc, trapcause := v.trapcause, trapinfo := v.trapinfo, trapaddr := v.trapaddr,
                    trapfba := v.trapfba, traplanes := v.traplanes, handler := v.handler, frags := v.frags } = v
  saved : w'.trappc = pc ∧ w'.trapfba = pc
  cause : w'.trapcause = BitVec.ofNat 64 ((if r.fault then 256 else 0) + r.cause)
  about : w'.trapinfo = r.info ∧ w'.trapaddr = r.addr ∧ w'.traplanes = r.lanes
  handler : ∃ h, w'.handler = some h ∧ h.frag = e.fr ∧ h.pc = pc ∧ h.fault = r.fault ∧ h.stack = e.frag.stack
  frag : ∃ g, Tbl.find w'.frags e.fr = some g ∧ g.pc = v.tvec ∧ g.mask = e.frag.mask ∧ g.stack = [] ∧ g.clause = none ∧
    g.wait = none ∧ g.replay = none
  frags : ∀ r, r ≠ e.fr → Tbl.find w'.frags r = Tbl.find v.frags r

/-- The whole fragment has left its clause for the header at `pc`: its wave is `w'` in `t`. Only a scalar register may differ. -/
structure Leaves (e : Env) (t : State) (w' : Wave) (pc : W64) : Prop where
  wave : t.wave e.wid = some w'
  others : ∀ k, k ≠ e.wid → t.wave k = e.s.wave k
  rest : { t with waves := e.s.waves } = e.s
  parts : { w' with v := e.wv.v, s := e.wv.s, k := e.wv.k, frags := e.wv.frags } = e.wv
  frag : Tbl.find w'.frags e.fr = some (e.frag.leave e.cl pc)
  frags : ∀ r, r ≠ e.fr → Tbl.find w'.frags r = Tbl.find e.wv.frags r

/-- The instruction takes the fault trap `cause` on all of the fragment's lanes; TRAPPC is its own address. -/
def FaultsWith (e : Env) (i : Instr) (cause : Nat) (info addr : W64) (lanes : Mask) : Prop :=
  ∃ s' w', exec i e.s = .next s' ∧
    Traps e e.s e.wv s' w' { fault := true, cause := cause, info := info, addr := addr, lanes := lanes } (e.cl.wordAddr e.cl.idx)

/-- Only the fragment that issues differs between `e.s` and `t`, where it is `g`. -/
structure Stands (e : Env) (t : State) (g : Frag) : Prop where
  rest : { t with waves := e.s.waves } = e.s
  others : ∀ k, k ≠ e.wid → t.wave k = e.s.wave k
  wave : ∃ w', t.wave e.wid = some w' ∧ { w' with frags := e.wv.frags } = e.wv ∧ Tbl.find w'.frags e.fr = some g ∧
    ∀ r, r ≠ e.fr → Tbl.find w'.frags r = Tbl.find e.wv.frags r

/-- Where the fragment stands after its word: the next word of its clause, or the header after the clause. -/
def Env.nextPc (e : Env) : W64 := if e.next < e.cl.words.length then e.cl.wordAddr e.next else e.cl.next

/-- `x` is how the type holds the exact result `r`: clamped with SAT, else modulo 2^n (R141). -/
def Fits (t : Ty) (sat : Bool) (r : Int) (x : Nat) : Prop :=
  x < 2 ^ tyBits t ∧
  if sat then intVal t x = (if r < minOf t then minOf t else if maxOf t < r then maxOf t else r)
  else ((2 ^ tyBits t : Nat) : Int) ∣ intVal t x - r

/-- No register of the wave has changed. -/
def SameRegs (v w' : Wave) : Prop :=
  (∀ n i, w'.velem n i = v.velem n i) ∧ (∀ n, w'.selem n = v.selem n) ∧ ∀ n, w'.kelem n = v.kelem n

/-- D has taken a value of type `t` in each active lane (R41, R112, R114): `f i` in lane `i`. A scalar D takes one value, when
some lane is active. Every other register is as in `v`. -/
def WritesD (e : Env) (v : Wave) (t : Ty) (f : Nat → Nat) (w' : Wave) : Prop :=
  let d := e.w.d.toNat
  (∀ n i, i < 1024 → w'.velem n i =
    if d < 0x80 ∧ i ∈ e.lanes ∧ n = d then BitVec.ofNat 32 (if tyWide t then f i else place32 t (f i))
    else if d < 0x80 ∧ i ∈ e.lanes ∧ tyWide t ∧ n = d + 1 then BitVec.ofNat 32 (f i / 2 ^ 32)
    else v.velem n i) ∧
  (∀ n, w'.selem n =
    if 0x80 ≤ d ∧ e.lanes ≠ [] ∧ n = d - 0x80 then BitVec.ofNat 64 (place64 t (f e.first)) else v.selem n) ∧
  ∀ n, w'.kelem n = v.kelem n

/-- The scalar register that D names has taken `x`; every other register is as in `v`. -/
def WritesS (e : Env) (v : Wave) (x : Nat) (w' : Wave) : Prop :=
  (∀ n i, w'.velem n i = v.velem n i) ∧
  (∀ n, w'.selem n = if n = e.w.d.toNat - 0x80 then BitVec.ofNat 64 x else v.selem n) ∧
  ∀ n, w'.kelem n = v.kelem n

/-- Mask register `m` has taken the bit `f i` of each active lane `i`; its other lanes and the other registers are as in `v`
(R114). Bits at or above the width are zero (R111). -/
def WritesK (e : Env) (v : Wave) (m : Nat) (f : Nat → Bool) (w' : Wave) : Prop :=
  (∀ n i, w'.velem n i = v.velem n i) ∧ (∀ n, w'.selem n = v.selem n) ∧
  (∀ n, n ≠ m → w'.kelem n = v.kelem n) ∧
  (m ≠ 0 → ∀ i, i < 1024 →
    (w'.kelem m).getLsbD i = ((if i ∈ e.lanes then f i else (v.kelem m).getLsbD i) && decide (i < v.width)))

/-- The instruction completes; D takes `f`, and nothing else of the machine changes. -/
def GivesD (e : Env) (i : Instr) (t : Ty) (f : Nat → Nat) : Prop :=
  ∃ s' w', exec i e.s = .next s' ∧ Completes e e.s e.wv s' w' ∧ WritesD e e.wv t f w' ∧ w'.fpflags = e.wv.fpflags

/-- The instruction completes; D takes in each active lane what the type holds of the exact result `r` (R141). -/
def GivesInt (e : Env) (i : Instr) (t : Ty) (sat : Bool) (r : Nat → Int) : Prop :=
  ∃ f, GivesD e i t f ∧ ∀ l ∈ e.lanes, Fits t sat (r l) (f l)

/-- The instruction completes; the mask register that D names takes `f`, and nothing else of the machine changes. -/
def GivesK (e : Env) (i : Instr) (f : Nat → Bool) : Prop :=
  ∃ s' w', exec i e.s = .next s' ∧ Completes e e.s e.wv s' w' ∧ WritesK e e.wv e.w.d.toNat f w' ∧
    w'.fpflags = e.wv.fpflags

/-- The instruction completes; the scalar register that D names takes `x`, and nothing else of the machine changes. -/
def GivesS (e : Env) (i : Instr) (x : Nat) : Prop :=
  ∃ s' w', exec i e.s = .next s' ∧ Completes e e.s e.wv s' w' ∧ WritesS e e.wv x w' ∧ w'.fpflags = e.wv.fpflags

/-- The exceptions that a floating-point instruction raises: those of every active lane together (R64). -/
def raised {α : Type} (e : Env) (f : Nat → α × FFlags) : FFlags := mergeFlags (e.lanes.map fun i => (f i).2)

/-- No exception of the active lanes has its trap enabled, or the wave is in handler mode (R65, R239). -/
def NoFpTrap {α : Type} (e : Env) (f : Nat → α × FFlags) : Prop :=
  e.wv.handler.isSome ∨ ∀ i ∈ e.lanes, trappedFlags e.wv.fpctl (f i).2 = 0

/-- A floating-point instruction completes: D takes the values of `f`, FPFLAGS its exceptions (R63, R64). -/
def GivesF (e : Env) (i : Instr) (t : Ty) (f : Nat → Nat × FFlags) : Prop :=
  NoFpTrap e f → ∃ s' w', exec i e.s = .next s' ∧ Completes e e.s e.wv s' w' ∧ WritesD e e.wv t (fun i => (f i).1) w' ∧
    w'.fpflags = e.wv.fpflags ||| (raised e f).setWidth 64

/-- A floating-point instruction completes: the mask register that D names takes the bits of `f`, FPFLAGS its exceptions. -/
def GivesKF (e : Env) (i : Instr) (f : Nat → Bool × FFlags) : Prop :=
  NoFpTrap e f → ∃ s' w', exec i e.s = .next s' ∧ Completes e e.s e.wv s' w' ∧
    WritesK e e.wv e.w.d.toNat (fun i => (f i).1) w' ∧ w'.fpflags = e.wv.fpflags ||| (raised e f).setWidth 64

/-- The instruction completes and changes nothing but where its fragment stands. -/
def GivesNothing (e : Env) (i : Instr) : Prop :=
  ∃ s' w', exec i e.s = .next s' ∧ Completes e e.s e.wv s' w' ∧ SameRegs e.wv w' ∧ w'.fpflags = e.wv.fpflags ∧
    w'.pending = e.wv.pending

/-- The instruction moves its whole fragment to `pc` and changes nothing else. -/
def MovesTo (e : Env) (i : Instr) (pc : W64) : Prop :=
  ∃ s' w', exec i e.s = .next s' ∧ Leaves e s' w' pc ∧ SameRegs e.wv w'

/-! ### Floating-point values -/

/-- `a` does not stand above `b` in the order of the numbers, in which −0 stands below +0 (R163). -/
def NotAbove (a b : Val) : Prop := cmpVal a b < 0 ∨ (cmpVal a b = 0 ∧ (a.sign = true ∨ b.sign = false))

/-- `r` is what minimumNumber or maximumNumber gives of `a` and `b`, by its order: a number before a NaN (R163). -/
def Chosen (le : Val → Val → Prop) (a b r : Val) : Prop :=
  (a.isNan → b.isNan → r.isNan) ∧ (a.isNan → ¬b.isNan → r = b) ∧ (¬a.isNan → b.isNan → r = a) ∧
  (¬a.isNan → ¬b.isNan → (r = a ∨ r = b) ∧ le r a ∧ le r b)

/-! ### Reductions (R187, R188) -/

/-- The values of the reduction tree: level 0 has the leaves, EMPTY where a lane is not active (R187). -/
def redNode (op : Nat) (t : Ty) (m : RM) (leaf : Nat → Option Nat) : Nat → Nat → Option Nat
  | 0, p => leaf p
  | k + 1, j =>
    match redNode op t m leaf k (2 * j), redNode op t m leaf k (2 * j + 1) with
    | some x, some y => some (combine op t m x y).1
    | some x, none => some x
    | none, y => y

/-- One step of the serial scan (R188). -/
def scanJoin (op : Nat) (t : Ty) (m : RM) (run : Option Nat) (x : Nat) : Option Nat :=
  match run with
  | some r => some (combine op t m r x).1
  | none => some x

/-! ### Memory words (R207 to R212, R294 to R302) -/

/-- The place of a device address for the word at hand, where its page is in the TLB and permits the access (R295). -/
def Env.place (e : Env) (need : Need) (va : Nat) : Option Loc :=
  match e.s.resolve (coreOfWave e.wid) e.wv.ctx e.frag.failed va need with
  | .ok loc => some loc
  | _ => none

/-- Every lane's access is aligned and its page permits it (R295). -/
def Passes (e : Env) (size : Nat) (need : Need) (l : List (Nat × Nat)) : Prop :=
  ∀ p ∈ l, p.2 % size = 0 ∧ (e.place need p.2).isSome

/-- The accesses of lanes that pass. -/
def accesses (e : Env) (need : Need) (l : List (Nat × Nat)) : List Access :=
  l.filterMap fun p => (e.place need p.2).map fun loc => { lane := p.1, va := p.2, loc := loc }

/-- An access to places at home goes on: no poisoned or open line stops the wave, and the update-only copies of the lines find
room in the replay store (R408, R433, R525, R528). -/
def State.homeOk (s : State) (wid lid : Nat) (ls : List Loc) : Prop :=
  (s.meetHome ls).homeStop wid lid ls = none ∧ (s.meetHome ls).recallRoom ls = true

/-- Places at home as an access finds them: it has met their soft errors, and their update-only copies have been recalled
(R408, R432). -/
def State.atHome (s : State) (ls : List Loc) : State := (s.meetHome ls).recallLocs ls

/-- The places that a load consumes. -/
def Env.loadReads (e : Env) (size : Nat) (l : List (Nat × Nat)) : List Loc :=
  consumed e (findAll e.s e.wid e.wv size (accesses e .read l))

/-- The core as the load finds it: it has met the soft errors of the L1 copies that it hits (R432). -/
def Env.hits (e : Env) (size : Nat) (l : List (Nat × Nat)) : State :=
  e.s.meetCopies (coreOfWave e.wid) e.wv.ctx (copyLocs (findAll e.s e.wid e.wv size (accesses e .read l)))

/-- Where a load looks. -/
def Env.looks (e : Env) (size : Nat) (l : List (Nat × Nat)) : State := (e.hits size l).atHome (e.loadReads size l)

/-- The load goes on: every lane passes the checks, its access at home goes on, no byte comes from a peer. -/
structure Loadable (e : Env) (size : Nat) (l : List (Nat × Nat)) : Prop where
  passes : Passes e size .read l
  goesOn : (e.hits size l).homeOk e.wid e.wv.lid (e.loadReads size l)
  here : ∀ x ∈ findAll (e.looks size l) e.wid e.wv size (accesses e .read l), x.remote = false

/-- The value of `size` bytes at an address, byte by byte by the search of R209. -/
def loadValue (s : State) (e : Env) (size va : Nat) (loc : Loc) : Nat :=
  ofLE ((List.range size).map fun i => (seek s e.wid e.wv (va + i) (locPlus loc i)).val)

/-- What a load has done apart from its registers: L1 filled as the hint says, and the read log (R215, R258, R259). -/
def Env.loaded (e : Env) (size hint : Nat) (l : List (Nat × Nat)) : State :=
  let found := findAll (e.looks size l) e.wid e.wv size (accesses e .read l)
  let s := (e.looks size l).fillL1 e.wid e.wv hint (found.flatMap fun x => x.bytes)
  (s.logSpan (whoOf e.wv e.wid e.fr) (e.wv.bid e.wid) e.wv (logOf found fun x => x.acc.lane)).fresh.2

/-- What else a load leaves alone: without update-only copies every byte of memory; outside a checked span the commit buffers;
of the wave all but its read log and a redirect that waits. -/
def LoadFrame (e : Env) (v : Wave) (s' : State) : Prop :=
  { v with readLog := e.wv.readLog, aborting := e.wv.aborting } = e.wv ∧
  ((∀ p ∈ e.s.cores, p.2.u = []) → SameMemory e.s s') ∧
  (e.wv.checkedLevel = none → v = e.wv ∧ s'.blocks = e.s.blocks ∧ s'.crews = e.s.crews)

/-- The last of the lanes' accesses that covers an address: lane and address (R208, R257). -/
def lastOver (l : List (Nat × Nat)) (size a : Nat) : Option (Nat × Nat) :=
  l.reverse.find? fun p => decide (p.2 ≤ a ∧ a < p.2 + size)

/-- The byte that the stores of elements `val` leave at an address, where `old` is the byte before. -/
def storedByte (l : List (Nat × Nat)) (size : Nat) (val : Nat → Nat) (old : Byte) (a : Nat) : Byte :=
  match lastOver l size a with
  | some p => BitVec.ofNat 8 (val p.1 / 2 ^ (8 * (a - p.2)))
  | none => old

/-- The lanes whose accesses cover an address. -/
def coverers (l : List (Nat × Nat)) (size a : Nat) : Mask :=
  maskOf ((l.filter fun p => decide (p.2 ≤ a ∧ a < p.2 + size)).map (·.1))

/-- The WSB entry that the stores leave at an address: byte, place, the lane that wrote last and every lane that has written
(R207, R208, R215, R218). -/
def storedWsb (e : Env) (l : List (Nat × Nat)) (size : Nat) (val : Nat → Nat) (a : Nat) : Option WsbByte :=
  match lastOver l size a with
  | some p => some { val := BitVec.ofNat 8 (val p.1 / 2 ^ (8 * (a - p.2))),
                     loc := locPlus ((e.place .write p.2).getD (.dev 0)) (a - p.2), writer := p.1,
                     lanes := wsbLanes e.wv.wsb a ||| coverers l size a }
  | none => Tbl.find e.wv.wsb a

/-- At no point of the stores does the WSB hold more than 128 lines (R211). -/
def WsbHolds (e : Env) (size : Nat) (l : List (Nat × Nat)) (val : Nat → Nat) : Prop :=
  ∀ n, lineCount ((((accesses e .write l).take n).map fun a => storeElem a size (val a.lane)).foldl wsbPut e.wv.wsb) ≤ 128

/-! ### Atomics (R304 to R312, R405 to R411) -/

/-- An atomic passes its checks at every lane: aligned, writable, in device memory, at an address of its own; no other wave's grant
holds one of its lines (R222, R295, R309, R406). -/
structure AtomPasses (e : Env) (size : Nat) (l : List (Nat × Nat)) : Prop where
  passes : Passes e size .write l
  device : ∀ a ∈ accesses e .write l, ∃ pa, a.loc = .dev pa
  own : ∀ a ∈ accesses e .write l, ∀ b ∈ accesses e .write l, a.lane ≠ b.lane → a.va ≠ b.va
  noGrant : e.s.grantOnLines e.wid ((accesses e .write l).map (·.loc)) = none

/-- An atomic goes on: it passes its checks, its access at home goes on, and the scope table admits the level (R408, R411). -/
structure Atomable (e : Env) (size level : Nat) (l : List (Nat × Nat)) : Prop extends AtomPasses e size l where
  goesOn : e.s.homeOk e.wid e.wv.lid ((accesses e .write l).map (·.loc))
  scopes : (scopeLanes { e with s := e.s.atHome ((accesses e .write l).map (·.loc)) } level (accesses e .write l)).2 =
    (accesses e .write l, [])

/-- Where an atomic finds its elements: update-only copies of its lines recalled, the scope entries rewritten (R408, R411). -/
def Env.atomState (e : Env) (level : Nat) (l : List (Nat × Nat)) : State :=
  (scopeLanes { e with s := e.s.atHome ((accesses e .write l).map (·.loc)) } level (accesses e .write l)).1

/-- The device bytes of accesses do not overlap, and their lines are under the wave's key. -/
def Separate (e : Env) (size : Nat) (l : List Access) : Prop :=
  ∀ a ∈ l, ∃ pa, a.loc = .dev pa ∧
    (∀ i, i < size → Tbl.get e.s.lineKey (lineOf (pa + i)) 0 = e.s.keyOf e.wv.ctx) ∧
    ∀ b ∈ l, b.lane ≠ a.lane → ∀ pb, b.loc = .dev pb → pa + size ≤ pb ∨ pb + size ≤ pa

/-- `buf` is `old` with the elements `x` of the accesses written into it. -/
def BufTakes (buf old : Tbl BufByte) (size : Nat) (l : List Access) (x : Access → Nat) : Prop :=
  (∀ a ∈ l, ∀ i, i < size →
    Tbl.find buf (a.va + i) = some { val := BitVec.ofNat 8 (x a / 2 ^ (8 * i)), loc := locPlus a.loc i }) ∧
  ∀ y, (∀ a ∈ l, ¬(a.va ≤ y ∧ y < a.va + size)) → Tbl.find buf y = Tbl.find old y

/-! ### Copies (R271 to R276, R313 to R320) -/

/-- The translations of a copy's source units. -/
def Env.srcMap (e : Env) (p : CopyPlan) : List (Nat × Resolved) :=
  unitMap e.s e.wv.ctx .read ((p.moves.map (·.2)).flatMap CopySrc.vas)

/-- Where a copy reads. -/
def Env.copyHome (e : Env) (p : CopyPlan) : State := e.s.atHome (srcLocs (e.srcMap p) (p.moves.map (·.2)))

/-- What a source gives at issue (R273). -/
def Env.srcByte (e : Env) (p : CopyPlan) (x : CopySrc) : Option Byte := x.value (e.copyHome p) e.wv.ctx [] (e.srcMap p)

/-- A copy can be handed to the engine and read whole: its token is clear, the engine has room, the fragment's DRNs have been
performed where it touches the scratchpad, no absent window is in its way, its access at home goes on, and every source byte is the
package's (R273, R276, R314, R348). -/
structure CopyGoes (e : Env) (p : CopyPlan) : Prop where
  clear : e.wv.tokSet e.token = false
  room : (e.s.core (coreOfWave e.wid)).copies.length < 32
  windows : ∀ b, e.s.block (e.wv.bid e.wid) = some b → b.absentAt p.ranges = none
  drained : p.ranges = [] ∨ e.wv.draining e.fr = false
  goesOn : e.s.homeOk e.wid e.wv.lid (srcLocs (e.srcMap p) (p.moves.map (·.2)))
  read : ∀ m ∈ p.moves, (e.srcByte p m.2).isSome

/-- The copy has been handed to the engine: its token is set with its promise, and the core's engine holds its bytes (R274, R314).
`g` is the environment in which its descriptor, if it has one, has been read. -/
def CopyStarts (e g : Env) (i : Instr) (p : CopyPlan) : Prop :=
  ∃ s' w' c, exec i e.s = .next s' ∧
    Completes e (((g.copyHome p).fresh.2.modCore (coreOfWave e.wid) fun k => { k with copies := k.copies ++ [c] }).modWave e.wid fun _ =>
      e.wv.setTok e.token c.promise) (e.wv.setTok e.token c.promise) s' w' ∧
    SameRegs e.wv w' ∧ w'.fpflags = e.wv.fpflags ∧ w'.pending = e.wv.pending ∧
    c.wid = e.wid ∧ c.lid = e.wv.lid ∧ c.tok = e.token ∧ c.todo = [] ∧ c.unacked = 0 ∧ c.bad = none ∧ c.fixed = [] ∧ c.extra = p.extra ∧
    c.writes = (p.moves.map fun m => (m.1, (g.srcByte p m.2).getD 0)) ∧
    c.promise = max (e.s.cycOf e.wid) (match (e.s.core (coreOfWave e.wid)).copies.getLast? with
        | some c => c.promise
        | none => 0) + p.lat + ceilDiv p.size 512

/-- A parameter area of `n` bytes at `va` reads as `raw`, in the environment `g` (R317, R459). -/
def ReadsParams (e : Env) (va n : Nat) (g : Env) (raw : Bytes) : Prop :=
  ∃ loc, e.place .read va = some loc ∧ (∀ p c a, loc ≠ .peer p c a) ∧
    let locs := (List.range n).map (locPlus loc)
    e.s.homeOk e.wid e.wv.lid locs ∧ g = { e with s := e.s.atHome locs } ∧ raw = locs.map (g.s.homeByte e.wv.ctx)

/-! ### The matrix unit (R354) -/

/-- Every member of a core's collectors, in the order in which they joined. -/
def collected (c : Core) : List (Quarter × Option MaskState) := (c.closed ++ c.coll.toList).flatMap (·.members)

/-! ### Engine requests (R443 to R446) -/

/-- The word sends a request: no engine that it names is full and its token, if it has one, is clear. The token is raised, the request
stands in the engines, and the registers that it will write are pending. -/
def SendsReq (e : Env) (i : Instr) (engines : List Nat) (tok : Option Nat) (op : EngOp) (regs : List RegId) : Prop :=
  let r : EngReq := {
    id := e.s.fresh.1, engines := engines, wid := e.wid, frag := e.fr, ctx := e.wv.ctx, lid := e.wv.lid, op := op, tok := tok
    got := [], bad := [], failed := [], blocked := false }
  let sent : State := { e.s.fresh.2 with reqs := e.s.reqs ++ [r] }
  (∀ n ∈ engines, e.s.engineFull n = false) → (∀ t, tok = some t → e.wv.tokSet t = false) →
    ∃ s' v w' p, exec i e.s = .next s' ∧
      Completes e (match tok with | some _ => sent.modWave e.wid fun _ => v | none => sent) v s' w' ∧
      v = (match tok with | some t => e.wv.raiseTok t | none => e.wv) ∧
      SameRegs e.wv w' ∧ w'.fpflags = e.wv.fpflags ∧ w'.pending = e.wv.pending ++ [p] ∧ p.frag = e.fr ∧ p.regs = dedup regs ∧
      p.req = some r.id ∧ p.trap = none

/-! ### Register windows and outside events (R435, R491, R532) -/

/-- The write does `t` where `P` holds, and is ignored elsewhere. -/
def Acts (s : State) (i : Instr) (P : Prop) (t : State) : Prop := (P → exec i s = .next t) ∧ (¬P → exec i s = .next s)

/-- A host function that is not frozen. -/
def State.served (s : State) (fn : Nat) : Prop := fn < 64 ∧ (s.fn fn).frozen = false

/-- The master reaches the page of a die: a host function that is not frozen, or the die's own hart while it runs. -/
def State.reaches (s : State) (m : Master) (die : Nat) : Prop :=
  die < 4 ∧ match m with
    | .fn n => s.served n
    | .hart d => d = die ∧ s.hartRuns d = true

/-- Physical function 0 or a hart. -/
def fullRights (m : Master) : Prop := m = .fn 0 ∨ ∃ d, m = .hart d

/-- The master may write an entry that belongs to context `owner` (R491). -/
def State.mayWrite (s : State) (m : Master) (owner : Nat) : Prop :=
  match m with
  | .fn n => n = 0 ∨ s.holds n owner = true
  | .hart _ => True

/-! ### Words, and the step that runs one (R102, R104) -/

/-- An instruction word passes the checks of its entry for an allotment. -/
def admitted (al : Allot) (i : Instr) : Bool :=
  match i with
  | .pairWord a b => Sys2Proof.pairOk al a b
  | i => match opcodeOf i with
    | some (_, w) => wordOk al i w
    | none => false

/-- The class of the clause admits the word at its place (R102). -/
def classFits (hdr : W64) (i : Instr) (last : Bool) : Bool :=
  let cls := bits hdr.toNat 61 58
  match i with
  | .pairWord _ _ => classAdmitsPair cls last
  | i => match opcodeOf i with
    | some (op, _) => classAdmits cls op last
    | none => false

/-- The words after this one that its lookahead names (R92). -/
def lookahead (i : Instr) : Nat :=
  match opcodeOf i with
  | some (_, w) => w.la.toNat
  | none => 0

end Sys2Proof.Machine
end

