-- ==== Sys2Proof/Certificates/Slice0/Obligations.lean ====
section
/-! DEFINITION. The statements about the machine, for the provers. -/

open Sys2Proof Sys2Proof.Machine

/-! ### Integer words (R141 to R155) -/

/-- IADD, ISUB, IMUL, IMAD, IMIN, IMAX, IABS, INEG and ISAD write what the type holds of the exact result, clamped with SAT. -/
def Obligations.IntegerSums : Prop :=
  ∀ w s e, Issues w s e →
    GivesInt e (.iadd w) e.ty e.sat (fun l => e.ia e.ty l + e.ib e.ty l) ∧
    GivesInt e (.isub w) e.ty e.sat (fun l => e.ia e.ty l - e.ib e.ty l) ∧
    GivesInt e (.imul w) e.ty e.sat (fun l => e.ia e.ty l * e.ib e.ty l) ∧
    GivesInt e (.imad w) e.ty e.sat (fun l => e.ia e.ty l * e.ib e.ty l + e.ic e.ty l) ∧
    GivesInt e (.imin w) e.ty e.sat (fun l => min (e.ia e.ty l) (e.ib e.ty l)) ∧
    GivesInt e (.imax w) e.ty e.sat (fun l => max (e.ia e.ty l) (e.ib e.ty l)) ∧
    GivesInt e (.iabs w) e.ty e.sat (fun l => ((e.ia e.ty l).natAbs : Int)) ∧
    GivesInt e (.ineg w) e.ty e.sat (fun l => -e.ia e.ty l) ∧
    GivesInt e (.isad w) e.ty e.sat (fun l => ((e.ia e.ty l - e.ib e.ty l).natAbs : Int) + e.ic e.ty l)

/-- IMULH writes the upper n bits of the exact product; IMADW adds a 32-bit product to a 64-bit value; IDOT4 adds four byte
products to a 32-bit value. -/
def Obligations.IntegerProducts : Prop :=
  ∀ w s e, Issues w s e →
    GivesInt e (.imulh w) e.ty e.sat (fun l => e.ia e.ty l * e.ib e.ty l / (2 ^ tyBits e.ty : Nat)) ∧
    (∀ wide, wide = (if e.ty = .i32 then Ty.i64 else .n64) →
      GivesInt e (.imadw w) wide e.sat (fun l => intVal e.ty (e.a e.ty l) * intVal e.ty (e.b e.ty l) + intVal wide (e.c wide l))) ∧
    (∀ word, word = (if e.ty = .i8 then Ty.i32 else .n32) →
      GivesInt e (.idot4 w) word e.sat (fun l => intVal word (e.c word l) +
        ((List.range 4).map fun j =>
          let x := bits (e.a .b32 l) (8 * j + 7) (8 * j)
          let y := bits (e.b .b32 l) (8 * j + 7) (8 * j)
          if e.ty = .i8 then intVal .i8 x * intVal .i8 y else (x : Int) * (y : Int)).sum))

/-- IDIV and IREM truncate toward zero, a = b·q + r with the remainder's sign the dividend's; for b = 0 and for the least value by
−1 they give the values of the table. -/
def Obligations.IntegerDivision : Prop :=
  ∀ w s e, Issues w s e → e.sat = false →
    ∃ q r : Nat → Int, GivesInt e (.idiv w) e.ty false q ∧ GivesInt e (.irem w) e.ty false r ∧
      ∀ l, let a := e.ia e.ty l
        let b := e.ib e.ty l
        if b = 0 then q l = (if tySigned e.ty then -1 else maxOf e.ty) ∧ r l = a
        else if tySigned e.ty ∧ a = minOf e.ty ∧ b = -1 then q l = minOf e.ty ∧ r l = 0
        else a = b * q l + r l ∧ (r l).natAbs < b.natAbs ∧ (0 ≤ a → 0 ≤ r l) ∧ (a ≤ 0 → r l ≤ 0)

/-- ICMP writes the condition's truth for each active lane into a mask register. -/
def Obligations.IntegerCompare : Prop :=
  ∀ w s e, Issues w s e → e.f 13 11 ≤ 5 →
    GivesK e (.icmp w) fun l =>
      let a := e.ia e.ty l
      let b := e.ib e.ty l
      decide ((e.f 13 11 = 0 ∧ a = b) ∨ (e.f 13 11 = 1 ∧ a ≠ b) ∨ (e.f 13 11 = 2 ∧ a < b) ∨ (e.f 13 11 = 3 ∧ a ≤ b) ∨
        (e.f 13 11 = 4 ∧ b < a) ∨ (e.f 13 11 = 5 ∧ b ≤ a))

/-- SHL, SHR and SAR take the count whole; ROT takes it modulo the width. -/
def Obligations.Shifts : Prop :=
  ∀ w s e, Issues w s e →
    GivesD e (.shl w) e.ty (fun l => (BitVec.ofNat (tyBits e.ty) (e.a e.ty l) <<< e.b .n32 l).toNat) ∧
    GivesD e (.shr w) e.ty (fun l => (BitVec.ofNat (tyBits e.ty) (e.a e.ty l) >>> e.b .n32 l).toNat) ∧
    GivesD e (.sar w) e.ty (fun l => ((BitVec.ofNat (tyBits e.ty) (e.a e.ty l)).sshiftRight (e.b .n32 l)).toNat) ∧
    GivesD e (.rot w) e.ty (fun l => ((BitVec.ofNat (tyBits e.ty) (e.a e.ty l)).rotateLeft (e.b .n32 l)).toNat)

/-- AND, OR, XOR, NOT, MOV and LOP3, bit by bit. -/
def Obligations.Logic : Prop :=
  ∀ w s e, Issues w s e →
    (∃ f, GivesD e (.and w) e.ty f ∧ ∀ l ∈ e.lanes, ∀ m, (f l).testBit m = ((e.a e.ty l).testBit m && (e.b e.ty l).testBit m)) ∧
    (∃ f, GivesD e (.or w) e.ty f ∧ ∀ l ∈ e.lanes, ∀ m, (f l).testBit m = ((e.a e.ty l).testBit m || (e.b e.ty l).testBit m)) ∧
    (∃ f, GivesD e (.xor w) e.ty f ∧ ∀ l ∈ e.lanes, ∀ m, (f l).testBit m = ((e.a e.ty l).testBit m != (e.b e.ty l).testBit m)) ∧
    (∃ f, GivesD e (.not w) e.ty f ∧ ∀ l ∈ e.lanes, ∀ m, (f l).testBit m = (decide (m < tyBits e.ty) && !(e.a e.ty l).testBit m)) ∧
    GivesD e (.mov w) e.ty (fun l => e.a e.ty l) ∧
    (∀ t, t = (if e.fbit 5 then Ty.b64 else .b32) →
      ∃ f, GivesD e (.lop3 w) t f ∧ ∀ l ∈ e.lanes, ∀ m, m < tyBits t → (f l).testBit m =
        (e.f 13 6).testBit (4 * ofBool ((e.a t l).testBit m) + 2 * ofBool ((e.b t l).testBit m) + ofBool ((e.c t l).testBit m)))

/-- SEL chooses by a mask register, MOVI writes a constant, LEA forms an address, IADDS saturates always, CLAMP bounds. -/
def Obligations.Moves : Prop :=
  ∀ w s e, Issues w s e →
    GivesD e (.sel w) e.ty (fun l => if (e.wv.kget e.frag e.w.c.toNat).getLsbD l then e.a e.ty l else e.b e.ty l) ∧
    (∃ f, GivesD e (.movi w) e.ty f ∧ ∀ l, if tySigned e.ty ∧ 16 ≤ tyBits e.ty
      then intVal e.ty (f l) = toSigned 16 (256 * e.w.b.toNat + e.w.c.toNat)
      else tySigned e.ty = false → f l = 256 * e.w.b.toNat + e.w.c.toNat) ∧
    GivesInt e (.lea w) .b64 false (fun l => (e.a .b64 l : Int) + intVal e.ty (e.b e.ty l) * (2 ^ e.f 2 0 : Nat)) ∧
    GivesInt e (.iadds w) e.ty true (fun l => intVal e.ty (e.a e.ty l) + intVal e.ty (e.b e.ty l)) ∧
    GivesInt e (.clamp w) e.ty false
      (fun l => min (max (intVal e.ty (e.a e.ty l)) (intVal e.ty (e.b e.ty l))) (intVal e.ty (e.c e.ty l)))

/-! ### Predicate, bit and cross-lane words (R156 to R161, R182 to R191) -/

/-- KOP computes its function of two mask bits, KMOV, KMOV.fromv and the KSETs write the active lanes of kD. The eight functions are
given by their truth tables: bit 2a + b. KMOV.tov, KMOV.tow, KCNT and KFIND read a mask register; KMOV.fromw replaces one word of a
mask, whatever the active lanes. -/
def Obligations.MaskWords : Prop :=
  ∀ w s e, Issues w s e →
    (e.f 3 0 ≤ 7 → GivesK e (.kop w) fun l =>
      (([8, 14, 6, 4, 13, 7, 1, 9] : List Nat).getD (e.f 3 0) 0).testBit
        (2 * ofBool ((e.wv.kget e.frag e.w.a.toNat).getLsbD l) + ofBool ((e.wv.kget e.frag e.w.b.toNat).getLsbD l))) ∧
    GivesK e (.kmov w) (fun l => (e.wv.kget e.frag e.w.a.toNat).getLsbD l) ∧
    GivesK e (.kmovFromv w) (fun l => decide (e.a .b32 l ≠ 0)) ∧
    GivesK e (.ksetAll w) (fun _ => true) ∧
    GivesK e (.ksetNone w) (fun _ => false) ∧
    GivesK e (.ksetBelow w) (fun l => decide (l < e.a .n32 0)) ∧
    (let k := e.wv.kget e.frag e.w.a.toNat
     let found := e.lanes.filter fun l => k.getLsbD l
     GivesD e (.kmovTov w) .b32 (fun l => if k.getLsbD l then 1 else 0) ∧
     GivesS e (.kmovTow w) (if e.b .n32 0 < e.wv.maskWords then maskWord k (e.b .n32 0) else 0) ∧
     GivesS e (.kcnt w) found.length ∧
     (found = [] → GivesS e (.kfindFirst w) (2 ^ 64 - 1) ∧ GivesS e (.kfindLast w) (2 ^ 64 - 1)) ∧
     (∀ l ∈ found, (∀ m ∈ found, l ≤ m) → GivesS e (.kfindFirst w) l) ∧
     (∀ l ∈ found, (∀ m ∈ found, m ≤ l) → GivesS e (.kfindLast w) l)) ∧
    (∃ s' w', exec (.kmovFromw w) e.s = .next s' ∧ Completes e e.s e.wv s' w' ∧
      (∀ n, n ≠ e.w.d.toNat → w'.kelem n = e.wv.kelem n) ∧
      (e.w.d ≠ 0 → e.b .n32 0 < e.wv.maskWords → ∀ l, l < 1024 → (w'.kelem e.w.d.toNat).getLsbD l =
        ((if l / 32 = e.b .n32 0 then (e.a .b32 0).testBit (l % 32) else (e.wv.kelem e.w.d.toNat).getLsbD l) &&
          decide (l < e.wv.width))) ∧
      (e.wv.maskWords ≤ e.b .n32 0 → w'.kelem e.w.d.toNat = e.wv.kelem e.w.d.toNat))

/-- POPC, CLZ, CTZ, FNS and BREV by what their results say of the bits of A; BFX, BFI and BMSK bit by bit, clipped to the width.
Where the spec leaves its rule open, it states the model's choice: log entry 14. -/
def Obligations.BitWords : Prop :=
  ∀ w s e, Issues w s e →
    let n := tyBits e.ty
    (∃ f, GivesD e (.popc w) e.ty f ∧ ∀ l, f l = ((List.range n).filter fun m => (e.a e.ty l).testBit m).length) ∧
    (∃ f, GivesD e (.clz w) e.ty f ∧ ∀ l, if e.a e.ty l = 0 then f l = n
      else f l < n ∧ (e.a e.ty l).testBit (n - 1 - f l) ∧ ∀ m, n - 1 - f l < m → (e.a e.ty l).testBit m = false) ∧
    (∃ f, GivesD e (.ctz w) e.ty f ∧ ∀ l, if e.a e.ty l = 0 then f l = n
      else (e.a e.ty l).testBit (f l) ∧ ∀ m, m < f l → (e.a e.ty l).testBit m = false) ∧
    (∃ f, GivesD e (.fns w) e.ty f ∧ ∀ l,
      (f l = 2 ^ n - 1 ∧ ((List.range n).filter fun m => (e.a e.ty l).testBit m).length ≤ e.b .n32 l) ∨
      (f l < n ∧ (e.a e.ty l).testBit (f l) ∧ ((List.range (f l)).filter fun m => (e.a e.ty l).testBit m).length = e.b .n32 l)) ∧
    (∃ f, GivesD e (.brev w) e.ty f ∧ ∀ l, f l < 2 ^ n ∧ ∀ m, m < n → (f l).testBit m = (e.a e.ty l).testBit (n - 1 - m)) ∧
    (∃ f, GivesD e (.bfx w) e.ty f ∧ ∀ l, f l < 2 ^ n ∧ ∀ m, m < n → (f l).testBit m =
      let c := min (e.c .n32 l) n
      let field (j : Nat) : Bool :=
        if e.b .n32 l + j < n then (e.a e.ty l).testBit (e.b .n32 l + j) else tySigned e.ty && (e.a e.ty l).testBit (n - 1)
      if m < c then field m else decide (c ≠ 0) && tySigned e.ty && field (c - 1)) ∧
    (∃ f, GivesD e (.bfi w) e.ty f ∧ ∀ l, f l < 2 ^ n ∧ ∀ m, m < n → (f l).testBit m =
      let off := e.c .n32 l % 256
      let len := e.c .n32 l / 256 % 256
      if off ≤ m ∧ m < off + len then (e.b e.ty l).testBit (m - off) else (e.a e.ty l).testBit m) ∧
    (∃ f, GivesD e (.bmsk w) e.ty f ∧ ∀ l, f l < 2 ^ n ∧ ∀ m, m < n → (f l).testBit m =
      decide (e.a e.ty l ≤ m ∧ m < e.a e.ty l + e.b .n32 l))

/-- SHFL and BCST move values between lanes of a segment, as the lanes hold them while a result of another fragment is still to land;
VOTE, MATCH and ELECT see its active lanes. -/
def Obligations.CrossLane : Prop :=
  ∀ w s e, Issues w s e →
    let c := e.wv.cross
    let seg (l : Nat) : List Nat := e.lanes.filter fun j => j / c * c == l / c * c
    let late := (e.wv.pending.filter fun p => p.frag != e.fr).flatMap (·.old)
    let held (l : Nat) : Nat := ({ e with wv := e.wv.writes late } : Env).a e.ty l
    ((∀ p ∈ e.wv.pending, p.frag = e.fr) → held = e.a e.ty) ∧
    GivesD e (.shfl w) e.ty (fun l =>
      let p := l % c
      let b := e.b .n32 l
      held (l / c * c + (if e.f 3 0 = 0 then b % c else if e.f 3 0 = 1 then (if b ≤ p then p - b else p)
        else if e.f 3 0 = 2 then (if p + b < c then p + b else p) else p ^^^ (b % c)))) ∧
    GivesD e (.bcst w) e.ty (fun l => held (l / c * c + e.b .n32 0 % c)) ∧
    GivesD e (.bcstFirst w) e.ty (fun l => e.a e.ty ((seg l).headD 0)) ∧
    (e.f 3 0 ≤ 2 → GivesK e (.vote w) (fun l => decide ((e.f 3 0 = 0 ∧ ∃ j ∈ seg l, e.a e.ty j ≠ 0) ∨
      (e.f 3 0 = 1 ∧ ∀ j ∈ seg l, e.a e.ty j ≠ 0) ∨ (e.f 3 0 = 2 ∧ ∀ j ∈ seg l, ∀ k ∈ seg l, e.a e.ty j = e.a e.ty k)))) ∧
    (∃ f, GivesD e (.matchEq w) (if c = 64 then .b64 else .b32) f ∧
      ∀ l p, 0 < c → (f l).testBit p = decide (p < c ∧ l / c * c + p ∈ e.lanes ∧ e.a e.ty (l / c * c + p) = e.a e.ty l)) ∧
    (∀ l ∈ e.lanes, (∀ m ∈ e.lanes, l ≤ m) → GivesS e (.elect w) l) ∧
    (e.lanes = [] → GivesNothing e (.elect w)) ∧
    GivesK e (.electK w) (fun l => decide ((seg l).head? = some l))

/-- REDX and REDW give the value at the root of the fixed tree over positions; SCANX the serial prefix. -/
def Obligations.Reductions : Prop :=
  ∀ w s e, Issues w s e → (e.wv.handler.isSome ∨ bits e.wv.fpctl.toNat 12 8 = 0) →
    let op := e.f 2 0
    let leaf (base n p : Nat) : Option Nat := if p < n ∧ e.act.getLsbD (base + p) then some (e.a e.ty (base + p)) else none
    let c := e.wv.cross
    (∃ s' w', exec (.redx w) e.s = .next s' ∧ Completes e e.s e.wv s' w' ∧
      WritesD e e.wv e.ty (fun l => (redNode op e.ty e.rm (leaf (l / c * c) c) c.log2 0).getD 0) w') ∧
    (∃ s' w', exec (.redw w) e.s = .next s' ∧ Completes e e.s e.wv s' w' ∧
      match redNode op e.ty e.rm (leaf 0 e.wv.width) e.wv.width.log2 0 with
      | some x => WritesS e e.wv (place64 e.ty x) w'
      | none => SameRegs e.wv w') ∧
    (∃ s' w', exec (.scanx w) e.s = .next s' ∧ Completes e e.s e.wv s' w' ∧
      WritesD e e.wv e.ty (fun l =>
        let before := e.lanes.filter fun j => j / c * c == l / c * c && decide (j < l)
        let run := before.foldl (fun r j => scanJoin op e.ty e.rm r (e.a e.ty j)) none
        if e.fbit 3 then run.getD (scanIdentity op e.ty) else (scanJoin op e.ty e.rm run (e.a e.ty l)).getD 0) w')

/-! ### Floating-point words (R61 to R75, R162 to R177) -/

/-- FADD, FSUB, FMUL and FFMA compute exactly and round once, by the word's mode, in each element of the type. -/
def Obligations.FloatArithmetic : Prop :=
  ∀ w s e, Issues w s e →
    GivesF e (.fadd w) e.ty (fun l => float2 e.ty e.rm (addVal e.rm) (e.na e.ty l) (e.nb e.ty l)) ∧
    GivesF e (.fsub w) e.ty (fun l => float2 e.ty e.rm (fun a b => addVal e.rm a (Val.neg b)) (e.na e.ty l) (e.nb e.ty l)) ∧
    GivesF e (.fmul w) e.ty (fun l => float2 e.ty e.rm mulVal (e.na e.ty l) (e.nb e.ty l)) ∧
    GivesF e (.ffma w) e.ty (fun l => perElem e.ty fun h => deliver (fmtOf e.ty) e.rm
      (fmaVal e.rm (fval e.ty (h (e.na e.ty l))) (fval e.ty (h (e.nb e.ty l))) (fval e.ty (h (e.nc e.ty l)))))

/-- FDIV, FSQRT, FRCP, FRSQ, FEXP2, FLOG2, FSINPI and FCOSPI deliver the model's quotient, root, reciprocal, reciprocal root,
power, logarithm, sine and cosine of their operands, in their own format and by the word's mode. -/
def Obligations.FloatFunctions : Prop :=
  ∀ w s e, Issues w s e →
    let f := fmtOf e.ty
    let a (l : Nat) : Val := fval e.ty (e.na e.ty l)
    GivesF e (.fdiv w) e.ty (fun l => float2 e.ty e.rm divVal (e.na e.ty l) (e.nb e.ty l)) ∧
    GivesF e (.fsqrt w) e.ty (fun l => deliver f e.rm (sqrtVal (a l))) ∧
    GivesF e (.frcp w) e.ty (fun l => deliver f e.rm (divVal (.num false 1 1 0) (a l))) ∧
    GivesF e (.frsq w) e.ty (fun l => deliver f e.rm (rsqrtVal (a l))) ∧
    GivesF e (.fexp2 w) e.ty (fun l => fexp2 f e.rm (a l)) ∧
    GivesF e (.flog2 w) e.ty (fun l => flog2 f e.rm (a l)) ∧
    GivesF e (.fsinpi w) e.ty (fun l => fsinpi f e.rm (a l)) ∧
    GivesF e (.fcospi w) e.ty (fun l => fcospi f e.rm (a l))

/-- The special results of FDIV, FSQRT, FRCP, FRSQ, FEXP2, FLOG2, FSINPI and FCOSPI, in every format and mode, for every value
n · 2^e that an operand may be. -/
def Obligations.FloatSpecials : Prop :=
  ∀ t ∈ ([.f32, .f16, .bf16] : List Ty), ∀ m : RM,
    let f := fmtOf t
    let nan : Nat := f.nanCode
    let inf (s : Bool) : Nat := f.signed s f.infCode
    let zero (s : Bool) : Nat := f.signed s 0
    let one : Nat := f.bias * 2 ^ f.fbits
    (∀ x, x < 2 ^ tyBits t → (fval t x).isFin → ∃ s n e, fval t x = .num s n 1 e) ∧
    (∀ a b : Val, a.isNan ∨ b.isNan → deliver f m (divVal a b) = (nan, flagIf (a.isSnan || b.isSnan) flagNV)) ∧
    (∀ s, deliver f m (divVal (.num false 1 1 0) (.nan s)) = (nan, flagIf s flagNV) ∧
      deliver f m (sqrtVal (.nan s)) = (nan, flagIf s flagNV) ∧ deliver f m (rsqrtVal (.nan s)) = (nan, flagIf s flagNV) ∧
      fexp2 f m (.nan s) = (nan, flagIf s flagNV) ∧ flog2 f m (.nan s) = (nan, flagIf s flagNV) ∧
      fsinpi f m (.nan s) = (nan, flagIf s flagNV) ∧ fcospi f m (.nan s) = (nan, flagIf s flagNV)) ∧
    (∀ s s' n d e d' e', n ≠ 0 → deliver f m (divVal (.num s n d e) (.num s' 0 d' e')) = (inf (s != s'), flagDZ)) ∧
    (∀ s s' d e d' e', deliver f m (divVal (.num s 0 d e) (.num s' 0 d' e')) = (nan, flagNV) ∧
      deliver f m (divVal (.inf s) (.inf s')) = (nan, flagNV)) ∧
    (∀ d e, deliver f m (sqrtVal (.num true 0 d e)) = (zero true, noFlags)) ∧
    deliver f m (sqrtVal (.inf false)) = (inf false, noFlags) ∧
    (∀ n d e, n ≠ 0 → deliver f m (sqrtVal (.num true n d e)) = (nan, flagNV) ∧
      deliver f m (rsqrtVal (.num true n d e)) = (nan, flagNV) ∧ flog2 f m (.num true n d e) = (nan, flagNV)) ∧
    deliver f m (sqrtVal (.inf true)) = (nan, flagNV) ∧ deliver f m (rsqrtVal (.inf true)) = (nan, flagNV) ∧
    flog2 f m (.inf true) = (nan, flagNV) ∧
    (∀ s, deliver f m (divVal (.num false 1 1 0) (.inf s)) = (zero s, noFlags)) ∧
    (∀ s d e, deliver f m (rsqrtVal (.num s 0 d e)) = (inf s, flagDZ)) ∧
    deliver f m (rsqrtVal (.inf false)) = (zero false, noFlags) ∧
    fexp2 f m (.inf true) = (zero false, noFlags) ∧ fexp2 f m (.inf false) = (inf false, noFlags) ∧
    (∀ s d e, fexp2 f m (.num s 0 d e) = (one, noFlags)) ∧
    (∀ s d e, flog2 f m (.num s 0 d e) = (inf true, flagDZ)) ∧
    (∀ k : Nat, flog2 f m (.num false (2 ^ k) 1 (-k)) = (zero false, noFlags)) ∧ flog2 f m (.inf false) = (inf false, noFlags) ∧
    (∀ s, fsinpi f m (.inf s) = (nan, flagNV) ∧ fcospi f m (.inf s) = (nan, flagNV)) ∧
    (∀ s (n k : Nat), fsinpi f m (.num s n 1 k) = (zero s, noFlags) ∧
      fsinpi f m (.num s (n * 2 ^ k) 1 (-k)) = (zero s, noFlags)) ∧
    (∀ s (n k : Nat), fcospi f m (.num s ((2 * n + 1) * 2 ^ k) 1 (-(k : Int) - 1)) = (zero false, noFlags))

/-- FMIN and FMAX are minimumNumber and maximumNumber: a number before a NaN, two NaNs the canonical NaN, −0 below +0; a
signalling NaN raises invalid and nothing else is raised. -/
def Obligations.FloatMinMax : Prop :=
  ∃ least greatest : Val → Val → Val,
    (∀ a b, Chosen NotAbove a b (least a b) ∧ Chosen (fun x y => NotAbove y x) a b (greatest a b)) ∧
    ∀ w s e, Issues w s e →
      let op (g : Val → Val → Val) (l : Nat) : Nat × FFlags :=
        perElem e.ty fun h =>
          let a := fval e.ty (h (e.na e.ty l))
          let b := fval e.ty (h (e.nb e.ty l))
          ((roundVal (fmtOf e.ty) .rne (g a b)).1, flagIf (a.isSnan || b.isSnan) flagNV)
      e.ty ∈ ([.f32, .f16, .bf16, .f16x2, .bf16x2] : List Ty) →
        GivesF e (.fmin w) e.ty (op least) ∧ GivesF e (.fmax w) e.ty (op greatest)

/-- FCMP writes the condition's truth and raises invalid as its table says; FCLASS writes the bit of A's class. -/
def Obligations.FloatCompare : Prop :=
  ∀ w s e, Issues w s e →
    let a (l : Nat) : Val := fval e.ty (e.na e.ty l)
    let b (l : Nat) : Val := fval e.ty (e.nb e.ty l)
    let c := e.f 13 11
    GivesKF e (.fcmp w) (fun l =>
      let un := (a l).isNan || (b l).isNan
      let order := cmpVal (a l) (b l)
      (decide ((c = 0 ∧ un = false ∧ order = 0) ∨ (c = 1 ∧ (un = true ∨ order ≠ 0)) ∨ (c = 2 ∧ un = false ∧ order < 0) ∨
        (c = 3 ∧ un = false ∧ order ≤ 0) ∨ (c = 4 ∧ un = false ∧ 0 < order) ∨ (c = 5 ∧ un = false ∧ 0 ≤ order) ∨
        (c = 6 ∧ un = true) ∨ (c = 7 ∧ un = false)),
       flagIf (if 2 ≤ c ∧ c ≤ 5 then un else (a l).isSnan || (b l).isSnan) flagNV)) ∧
    (e.ty ∈ ([.f32, .f16, .bf16] : List Ty) → GivesD e (.fclass w) .n32 (fun l => 2 ^ (match fval e.ty (e.a e.ty l) with
      | .inf neg => if neg then 0 else 7
      | .num neg n _ _ =>
        if n = 0 then if neg then 3 else 4
        else if n < 2 ^ (fmtOf e.ty).fbits then if neg then 2 else 5
        else if neg then 1 else 6
      | .nan signalling => if signalling then 8 else 9)))

/-- FRND, FSCALE, FGETX and FGETM: the integral value, a · 2^b, and the two parts of a float. -/
def Obligations.FloatParts : Prop :=
  ∀ w s e, Issues w s e →
    let f := fmtOf e.ty
    GivesF e (.frnd w) e.ty (fun l => match fval e.ty (e.na e.ty l) with
      | .nan signalling => (f.nanCode, flagIf signalling flagNV)
      | .inf neg => (f.signed neg f.infCode, noFlags)
      | .num neg n d x => ((roundNum f e.rm false neg (roundAt e.rm neg n d x 0).1 1 0).1, noFlags)) ∧
    GivesF e (.fscale w) e.ty (fun l => fscale f e.rm (fval e.ty (e.a e.ty l)) (intVal .i32 (e.b .i32 l))) ∧
    GivesF e (.fgetx w) .i32 (fun l => match fval e.ty (e.a e.ty l) with
      | .nan _ => (2 ^ 31, flagNV)
      | .inf _ => (2 ^ 31 - 1, noFlags)
      | .num _ n d x => (if n = 0 then 2 ^ 31 else wrap 32 (log2Floor n d x), noFlags)) ∧
    GivesF e (.fgetm w) e.ty (fun l => fgetm f (fval e.ty (e.a e.ty l)))

/-- FDOT2, SUMC, MAXE and PEXP. PEXP adds the active lanes whose finite term lies below 2^-14 to PEXPUF, which saturates. Where
the spec leaves its rule open, it states the model's choice: log entry 70. -/
def Obligations.FloatSums : Prop :=
  ∀ w s e, Issues w s e →
    let u := elemTy e.ty
    GivesF e (.fdot2 w) .f32 (fun l =>
      let a := e.na e.ty l
      let b := e.nb e.ty l
      deliver fmtF32 e.rm (dot2Val e.rm (fval u (a % 2 ^ 16)) (fval u (b % 2 ^ 16)) (fval u (a / 2 ^ 16)) (fval u (b / 2 ^ 16))
        (fval .f32 (absNeg .f32 false (e.fbit 0) (e.c .f32 l))))) ∧
    GivesF e (.sumc w) .b64 (fun l =>
      let p := e.src e.w.d.toNat .b64 l
      let r := sumc (p % 2 ^ 32) (p / 2 ^ 32) (e.na .f32 l)
      (r.1.1 + r.1.2 * 2 ^ 32, r.2)) ∧
    GivesF e (.maxe w) .i32 (fun l =>
      let x := fval .f32 (e.a .f32 l)
      let low : Int := match x with
        | .nan _ => -(2 ^ 31)
        | .inf neg => if neg then -(2 ^ 31) else 2 ^ 31 - 1
        | .num neg _ _ _ => max (-(2 ^ 31) + 1) (min (2 ^ 31 - 2) (sgn neg (roundInt .rup (scaledScore x)).1))
      (wrap 32 (max (intVal .i32 (e.b .i32 l)) low), flagIf x.isSnan flagNV)) ∧
    (NoFpTrap e (fun l => (l, (pexpVal (e.a .f32 l) (e.b .i32 l)).2.1)) → ∃ s' v w', exec (.pexp w) e.s = .next s' ∧
      v = { e.wv with pexpuf := BitVec.ofNat 32 (min (e.wv.pexpuf.toNat +
        (e.lanes.filter fun l => (pexpVal (e.a .f32 l) (e.b .i32 l)).2.2).length) (2 ^ 32 - 1)) } ∧
      Completes e (e.s.modWave e.wid fun _ => v) v s' w' ∧
      WritesD e v .b32 (fun l => (pexpVal (e.a .f32 l) (e.b .i32 l)).1) w' ∧
      w'.fpflags = e.wv.fpflags ||| (mergeFlags (e.lanes.map fun l => (pexpVal (e.a .f32 l) (e.b .i32 l)).2.1)).setWidth 64)

/-- CVT, QNT and DQNT convert a value once; PKN places two converted bytes or halfwords in D, whose other bits stay; UPKN widens
element j of A. Where the spec leaves its rule open, it states the model's choice: log entry 13. -/
def Obligations.Conversions : Prop :=
  ∀ w s e, Issues w s e →
    GivesF e (.cvt w) e.ty (fun l => if tyIsInt e.ty ∧ tyIsInt e.st then (fitInt e.ty (e.fbit 5) (intVal e.st (e.a e.st l)), noFlags)
      else convertVal e.ty e.rm (e.fbit 5) (valOf e.st (e.a e.st l))) ∧
    GivesF e (.qnt w) e.ty (fun l =>
      quantise e.ty e.rm (e.fbit 5) (fval e.st (e.a e.st l)) (fval e.st (e.b e.st l))) ∧
    GivesF e (.dqnt w) e.ty (fun l => deliver (fmtOf e.ty) e.rm (mulVal (valOf e.st (e.a e.st l)) (fval .f32 (e.b .f32 l)))) ∧
    (∀ j, e.w.c.toNat = 0xE0 + j → ∃ f : Nat → Nat × FFlags, GivesF e (.pkn w) (if e.w.d.toNat < 0x80 then .b32 else .b64) f ∧ ∀ l,
      let x := cvt e.ty .f32 e.rm (e.fbit 5) (e.a .f32 l)
      let y := cvt e.ty .f32 e.rm (e.fbit 5) (e.b .f32 l)
      let n := if tyBits e.ty = 8 then 8 else 16
      let low := if tyBits e.ty = 8 then 16 * j else 0
      (f l).2 = x.2 ||| y.2 ∧ ∀ m, (f l).1.testBit m =
        if low ≤ m ∧ m < low + n then x.1.testBit (m - low)
        else if low + n ≤ m ∧ m < low + 2 * n then y.1.testBit (m - low - n)
        else (e.src e.w.d.toNat (if e.w.d.toNat < 0x80 then .b32 else .b64) l).testBit m) ∧
    (∀ j, e.w.c.toNat = 0xE0 + j → GivesF e (.upkn w) .f32 (fun l =>
      let n := tyBits e.st
      roundVal fmtF32 .rne (valOf e.st (e.a .b32 l / 2 ^ (n * j) % 2 ^ n))))

/-- Rounding to a multiple of 2^q: exact results stay; nearest modes are within half a unit, with the tie to even or away from
zero; the directed modes choose the neighbour on their side. Here N/D is the magnitude in units of 2^q. -/
def Obligations.RoundingModes : Prop :=
  ∀ (m : RM) (neg : Bool) (n d : Nat) (e q : Int), 0 < d →
    let N : Int := (n : Int) * 2 ^ (e - q).toNat
    let D : Int := (d : Int) * 2 ^ (q - e).toNat
    let t : Int := ((roundAt m neg n d e q).1 : Int)
    ((roundAt m neg n d e q).2 = false ↔ D ∣ N) ∧
    match m with
    | .rne => (2 * (t * D - N)).natAbs ≤ D ∧ ((2 * (t * D - N)).natAbs = D → t % 2 = 0)
    | .rna => (2 * (t * D - N)).natAbs ≤ D ∧ ((2 * (t * D - N)).natAbs = D → N ≤ t * D)
    | .rtz => t * D ≤ N ∧ N < t * D + D
    | .rdn => if neg then N ≤ t * D ∧ t * D < N + D else t * D ≤ N ∧ N < t * D + D
    | .rup => if neg then t * D ≤ N ∧ N < t * D + D else N ≤ t * D ∧ t * D < N + D

/-- A value that a format holds is delivered as it stands, in every mode, and raises nothing: every finite encoding. For finite a,
FSCALE(FGETM(a), FGETX(a)) = a exactly. -/
def Obligations.ExactValues : Prop :=
  (∀ f ∈ [fmtF32, fmtF16, fmtBF16, fmtE4M3, fmtE5M2], ∀ (m : RM) (sat : Bool) (x : Nat), x < 2 ^ f.width →
    ∀ neg n d e, f.decode x = .num neg n d e → roundNum f m sat neg n d e = (x, noFlags)) ∧
  ∀ t ∈ ([.f32, .f16, .bf16] : List Ty), ∀ (m : RM) (x : Nat), x < 2 ^ tyBits t → (fval t x).isFin →
    fscale (fmtOf t) m (fval t (fgetm (fmtOf t) (fval t x)).1) (fgetx (fval t x)).1 = (x, noFlags)

/-- FADD, FSUB, FMUL and FDIV with an exception whose trap is enabled complete and then, without lookahead, take the FP report
trap: it names the exceptions raised, D, and the lanes that raised one whose trap is enabled; the next word is where the trap was
taken. Where the spec leaves its rule open, it states the model's choice: log entry 72. -/
def Obligations.FpTrapTaken : Prop :=
  ∀ w s e, Issues w s e → e.w.la = 0 → e.wv.handler = none → e.wv.tvec ≠ 0 →
    ∀ i op, (i, op) ∈ [(Instr.fadd w, addVal e.rm), (.fsub w, fun a b => addVal e.rm a (Val.neg b)), (.fmul w, mulVal),
        (.fdiv w, divVal)] →
      let f (l : Nat) : Nat × FFlags := float2 e.ty e.rm op (e.na e.ty l) (e.nb e.ty l)
      let hit (l : Nat) : Bool := trappedFlags e.wv.fpctl (f l).2 != 0
      (∃ l ∈ e.lanes, hit l) →
        ∃ s1 w1 s' w' r, exec i e.s = .next s' ∧ Completes e e.s e.wv s1 w1 ∧ WritesD e e.wv e.ty (fun l => (f l).1) w1 ∧
          w1.fpflags = e.wv.fpflags ||| (raised e f).setWidth 64 ∧ Traps e s1 w1 s' w' r e.nextPc ∧
          r.fault = false ∧ r.cause = 0x0A ∧ r.addr = 0 ∧
          r.info = BitVec.ofNat 64 ((raised e f).toNat + 256 * e.w.d.toNat) ∧
          ∀ l, l < 1024 → r.lanes.getLsbD l = decide (l ∈ e.lanes ∧ hit l)

/-! ### Control words (R127, R195 to R206, R238 to R242) -/

/-- NOP only goes on. BRU, BRX, CALL and RETN move the whole fragment, CALL after writing the next header's address; BRA does so
when its lanes do not split. A target that is not a multiple of 8 raises ALIGN and moves nothing. -/
def Obligations.BranchWords : Prop :=
  ∀ w s e, Issues w s e →
    let here := e.cl.addr
    let off := e.w.f.signExtend 64 * 8
    let reg := BitVec.ofNat 64 (e.a .b64 0)
    let base := if e.w.a = 0xE0 then here else reg
    GivesNothing e (.nop w) ∧
    ((here + off).toNat % 8 = 0 → MovesTo e (.bru w) (here + off)) ∧
    ((reg + off).toNat % 8 = 0 → MovesTo e (.brx w) (reg + off)) ∧
    (reg.toNat % 8 = 0 → MovesTo e (.retn w) reg) ∧
    ((base + off).toNat % 8 = 0 → ∃ s' w', exec (.call w) e.s = .next s' ∧ Leaves e s' w' (base + off) ∧
      WritesS e e.wv e.cl.next.toNat w') ∧
    (e.frag.mask &&& ~~~e.act = 0 → (here + off).toNat % 8 = 0 → MovesTo e (.bra w) (here + off)) ∧
    (e.frag.mask &&& ~~~e.act ≠ 0 → e.act = 0 → e.cl.next.toNat % 8 = 0 → MovesTo e (.bra w) e.cl.next) ∧
    (e.wv.handler = none → e.wv.tvec ≠ 0 →
      ((here + off).toNat % 8 ≠ 0 → FaultsWith e (.bru w) 0x06 0 (here + off) e.frag.mask) ∧
      ((reg + off).toNat % 8 ≠ 0 → FaultsWith e (.brx w) 0x06 0 (reg + off) e.frag.mask) ∧
      (reg.toNat % 8 ≠ 0 → FaultsWith e (.retn w) 0x06 0 reg e.frag.mask) ∧
      ((base + off).toNat % 8 ≠ 0 → FaultsWith e (.call w) 0x06 0 (base + off) e.frag.mask))

/-- A BRA whose lanes split divides the fragment: the side with fewer lanes, on a tie the fall-through side, goes to the lowest free
record, or into the deferred entry when no record is free; the other side goes on. The token is pushed unless it is on top, and the
ninth entry from the top is dropped. With neither place free the branch waits. -/
def Obligations.BranchDivides : Prop :=
  ∀ w s e, Issues w s e → e.act ≠ 0 → e.frag.mask &&& ~~~e.act ≠ 0 →
    let n := e.frag.mask &&& ~~~e.act
    let target := e.cl.addr + e.w.f.signExtend 64 * 8
    let small := decide (laneCount e.act < laneCount n)
    let minor : Mask × W64 := if small then (e.act, target) else (n, e.cl.next)
    let major : Mask × W64 := if small then (n, e.cl.next) else (e.act, target)
    let stack := if e.frag.stack.head? = some e.w.c.toNat then e.frag.stack else (e.w.c.toNat :: e.frag.stack).take 8
    ∃ s', exec (.bra w) e.s = .next s' ∧
      (∀ r, r < 32 → Tbl.find e.wv.frags r = none → (∀ q, q < r → Tbl.find e.wv.frags q ≠ none) →
        ∃ w' g h, s'.wave e.wid = some w' ∧ { w' with frags := e.wv.frags } = e.wv ∧
          Tbl.find w'.frags e.fr = some g ∧ g.mask = major.1 ∧ g.pc = major.2 ∧ g.stack = stack ∧ g.clause = none ∧
          Tbl.find w'.frags r = some h ∧ h.mask = minor.1 ∧ h.pc = minor.2 ∧ h.stack = stack ∧ h.clause = none ∧
          ∀ q, q ≠ e.fr → q ≠ r → Tbl.find w'.frags q = Tbl.find e.wv.frags q) ∧
      ((∀ r, r < 32 → Tbl.find e.wv.frags r ≠ none) → e.frag.deferred = none → e.frag.held = none →
        ∃ g, Stands e s' g ∧ g.mask = major.1 ∧ g.pc = major.2 ∧ g.stack = stack ∧ g.clause = none ∧
          g.deferred = some { mask := minor.1, pc := minor.2, stack := stack }) ∧
      ((∀ r, r < 32 → Tbl.find e.wv.frags r ≠ none) → (e.frag.deferred ≠ none ∨ e.frag.held ≠ none) →
        ∃ d, Stands e s' { e.frag with diverge := some d, wait := some .record })

/-- EXIT retires its active lanes: the others go on at the next header, and a fragment without lanes frees its record. With a span
open it raises ILLEGAL. -/
def Obligations.LanesExit : Prop :=
  ∀ w s e, Issues w s e →
    let rest := e.frag.mask &&& ~~~e.act
    ((∀ l, l < 5 → (e.wv.span l).isOpen = false) → e.wv.handler = none →
      ∃ s', exec (.exit w) e.s = .next s' ∧
        (rest ≠ 0 → Stands e s' { e.frag.leave e.cl e.cl.next with mask := rest }) ∧
        (rest = 0 → e.frag.deferred = none → e.frag.held = none → (∀ p ∈ e.wv.frags, p.2.parked = none) →
          ∃ w', s'.wave e.wid = some w' ∧ Tbl.find w'.frags e.fr = none ∧ { w' with frags := e.wv.frags } = e.wv ∧
            ∀ q, q ≠ e.fr → Tbl.find w'.frags q = Tbl.find e.wv.frags q)) ∧
    (∀ l, l < 5 → (e.wv.span l).isOpen = true → e.wv.handler = none → e.wv.tvec ≠ 0 →
      FaultsWith e (.exit w) 0x01 (e.cl.words.getD e.cl.idx 0) 0 e.frag.mask)

/-- TRAP raises SOFT, with TRAPINFO holding F[13:0] and TRAPLANES holding the active lanes. It has no effect when no lane is active,
and none in handler mode. -/
def Obligations.SoftTrap : Prop :=
  ∀ w s e, Issues w s e → e.w.la = 0 →
    (e.act = 0 ∨ (∃ h, e.wv.handler = some h ∧ h.frag = e.fr) → GivesNothing e (.trap w)) ∧
    (e.act ≠ 0 → e.wv.handler = none → e.wv.tvec ≠ 0 →
      ∃ s1 w1 s' w', exec (.trap w) e.s = .next s' ∧ Completes e e.s e.wv s1 w1 ∧ SameRegs e.wv w1 ∧
        w1.fpflags = e.wv.fpflags ∧ w1.pending = e.wv.pending ∧
        Traps e s1 w1 s' w' { fault := false, cause := 0x0B, info := e.w.f.setWidth 64, addr := 0, lanes := e.act } e.nextPc)

/-- A TRAP whose report trap no handler can take, because TVEC is 0, and an EXIT in handler mode, which faults there, freeze the
wave with cause DOUBLE and ask for the kill of its launch; the trap registers stay. Where the spec leaves its rule open, it states
the model's choice: log entry 19. -/
def Obligations.DoubleTrap : Prop :=
  ∀ w s e, Issues w s e → e.w.la = 0 → e.act ≠ 0 →
    let Freezes (s' : State) (w' : Wave) : Prop := s'.wave e.wid = some w' ∧ w'.frozen = some .double ∧
      w'.trappc = e.wv.trappc ∧ w'.trapcause = e.wv.trapcause ∧ w'.trapinfo = e.wv.trapinfo ∧ w'.trapaddr = e.wv.trapaddr ∧
      w'.trapfba = e.wv.trapfba ∧ w'.traplanes = e.wv.traplanes ∧ w'.handler = e.wv.handler ∧
      ∀ l, e.s.launch e.wv.lid = some l → ∃ l', s'.launch e.wv.lid = some l' ∧ l'.killReq = some (l.killReq.getD 0x18)
    (e.wv.handler = none ∧ e.wv.tvec = 0 → ∃ s' w', exec (.trap w) e.s = .next s' ∧ Freezes s' w') ∧
    (∀ h, e.wv.handler = some h → h.frag = e.fr → ∃ s' w', exec (.exit w) e.s = .next s' ∧ Freezes s' w')

/-- TRET leaves handler mode. With TRAPPC as the trap wrote it, a fault's word is issued again on the lanes of TRAPLANES, a
report's next word follows, and with SKIP the word is passed over; a TRAPPC that the handler wrote is where the fragment goes.
Outside handler mode it raises ILLEGAL. Where the spec leaves its rule open, it states the model's choice: log entry 17. -/
def Obligations.TrapReturn : Prop :=
  ∀ w s e, Issues w s e →
    (e.wv.handler = none → e.wv.tvec ≠ 0 →
      FaultsWith e (.tret w) 0x01 (e.cl.words.getD e.cl.idx 0) 0 e.frag.mask ∧
      FaultsWith e (.tretSkip w) 0x01 (e.cl.words.getD e.cl.idx 0) 0 e.frag.mask) ∧
    (∀ h f, e.wv.handler = some h → Tbl.find e.wv.frags h.frag = some f → e.wv.aborting = none → e.wv.heldTraps = [] →
      ∀ i skip, (i, skip) ∈ [(Instr.tret w, false), (.tretSkip w, true)] →
        (e.wv.trappc = h.pc ∨ e.wv.trappc.toNat % 8 = 0) →
        ∃ s' w' g, exec i e.s = .next s' ∧ s'.wave e.wid = some w' ∧ { s' with waves := e.s.waves } = e.s ∧
          (∀ k, k ≠ e.wid → s'.wave k = e.s.wave k) ∧
          { w' with handler := e.wv.handler, frags := e.wv.frags } = e.wv ∧ w'.handler = none ∧
          (∀ r, r ≠ h.frag → Tbl.find w'.frags r = Tbl.find e.wv.frags r) ∧
          Tbl.find w'.frags h.frag = some g ∧ g.mask = f.mask ∧ g.stack = h.stack ∧
          (e.wv.trappc ≠ h.pc ∨ h.atHeader ∨ h.clause = none → g.clause = none ∧ g.pc = e.wv.trappc ∧ g.replay = none) ∧
          (∀ c, e.wv.trappc = h.pc → h.atHeader = false → h.clause = some c →
            (skip = false → g.clause = some { c with passes := 0, lane := false } ∧
              g.replay = (if h.fault then some e.wv.traplanes else none)) ∧
            (skip = true → let n := h.resume.getD (c.idx + c.sizeAt c.idx)
              g.replay = none ∧ if n < c.words.length then g.clause = some { c with idx := n, passes := 0, lane := false }
                else g.clause = none ∧ g.pc = c.next)))

/-- YIELD makes the fragment not ready in the cycle after its clause, SLEEP until the cycle counter has advanced by A; SLEEP of 0
is YIELD, and SLEEP raises ILLEGAL while the wave holds a grant. CYC reads the cycle counter of the issue cycle. Where the spec
leaves its rule open, it states the model's choice: log entry 75. -/
def Obligations.TimeWords : Prop :=
  ∀ w s e, Issues w s e →
    let quiet (g : Frag) : Prop := g.mask = e.frag.mask ∧ g.stack = e.frag.stack ∧ g.age = 0 ∧
      if e.next < e.cl.words.length then ∃ c, g.clause = some c ∧ c.addr = e.cl.addr ∧ c.words = e.cl.words ∧ c.idx = e.next ∧
          c.passes = 0 else g.clause = none ∧ g.pc = e.cl.next
    let yields (i : Instr) : Prop := ∃ s' g, exec i e.s = .next s' ∧ Stands e s' g ∧ quiet g ∧
      if e.next < e.cl.words.length then ∃ c, g.clause = some c ∧ bits c.hdr.toNat 44 43 = 1 else g.wait = some (.yielded 0)
    yields (.yield w) ∧
    (e.wv.holdsAny = false → e.a .n32 0 = 0 → yields (.sleep w)) ∧
    (e.wv.holdsAny = false → e.a .n32 0 ≠ 0 → ∃ s' g, exec (.sleep w) e.s = .next s' ∧ Stands e s' g ∧ quiet g ∧
      g.wait = some (.sleep (e.s.cycOf e.wid + e.a .n32 0))) ∧
    (e.wv.holdsAny = true → e.wv.handler = none → e.wv.tvec ≠ 0 →
      FaultsWith e (.sleep w) 0x01 (e.cl.words.getD e.cl.idx 0) 0 e.frag.mask) ∧
    GivesS e (.cyc w) (e.s.cycOf e.wid)

/-- SRRD reads the system register that F names: its identifiers and the values that a wave reads there. -/
def Obligations.SystemReads : Prop :=
  ∀ w s e, Issues w s e →
    let id := e.w.f.toNat
    let gives (x : Nat) : Prop := GivesS e (.srrd w) x
    GivesS e (.srrd w) (sysRead e.s e.wid e.wv id) ∧
    (id = 0x000 → gives e.wv.tvec.toNat) ∧ (id = 0x001 → gives e.wv.trappc.toNat) ∧ (id = 0x002 → gives e.wv.trapcause.toNat) ∧
    (id = 0x003 → gives e.wv.trapinfo.toNat) ∧ (id = 0x004 → gives e.wv.trapaddr.toNat) ∧
    (id = 0x005 → gives e.wv.trapfba.toNat) ∧ (id = 0x030 → gives e.wv.fpctl.toNat) ∧ (id = 0x031 → gives e.wv.fpflags.toNat) ∧
    (id = 0x040 → gives e.wv.xcause.toNat) ∧ (id = 0x050 → gives (e.wv.lid % 2 ^ 32)) ∧ (id = 0x053 → gives e.wv.blocklin) ∧
    (id = 0x055 → gives e.wv.role) ∧ (id = 0x056 → gives e.wv.waveIdx) ∧ (id = 0x057 → gives (coreOfWave e.wid / 8 % 8)) ∧
    (id = 0x058 → gives (coreOfWave e.wid / 64)) ∧ (id = 0x059 → gives (coreOfWave e.wid % 8)) ∧
    (id = 0x080 → gives e.wv.pexpuf.toNat) ∧
    (∀ j, id = 0x10 + j → j < e.wv.maskWords → j < 32 → gives (maskWord e.wv.traplanes j))

/-- SRWR writes the system register that F names by its access code: TVEC, TRAPPC and PEXPUF take the value, FPCTL its writable bits
and no reserved mode, FPFLAGS is cleared where a 1 is written, a TRAPLANES word is replaced below the width; the read-only registers
ignore the write. Nothing else changes. TVEC and TRAPPC hold code addresses: a value that is not a multiple of 8 raises ALIGN, with
the value in TRAPADDR (log entry 17). -/
def Obligations.SystemWrites : Prop :=
  ∀ w s e, Issues w s e →
    let id := e.w.f.toNat
    let x := BitVec.ofNat 64 (e.a .b64 0)
    let gives (v : Wave) : Prop := ∃ s' w', exec (.srwr w) e.s = .next s' ∧ Completes e (e.s.modWave e.wid fun _ => v) v s' w' ∧
      SameRegs v w' ∧ w'.fpflags = v.fpflags ∧ w'.pending = v.pending
    (id = 0x000 → x.toNat % 8 = 0 → gives { e.wv with tvec := x }) ∧
    (id = 0x001 → x.toNat % 8 = 0 → gives { e.wv with trappc := x }) ∧
    (id = 0x000 ∨ id = 0x001 → x.toNat % 8 ≠ 0 → e.wv.handler = none → e.wv.tvec ≠ 0 →
      FaultsWith e (.srwr w) 0x06 0 x e.frag.mask) ∧
    (id = 0x030 → ∃ c : W64, gives { e.wv with fpctl := c } ∧ ∀ n, n < 64 → c.getLsbD n =
      if 8 ≤ n ∧ n < 13 then x.getLsbD n
      else if n < 3 then (if x.toNat % 8 < 5 then x.getLsbD n else e.wv.fpctl.getLsbD n) else false) ∧
    (id = 0x031 → ∃ c : W64, gives { e.wv with fpflags := c } ∧
      ∀ n, n < 64 → c.getLsbD n = (e.wv.fpflags.getLsbD n && !(decide (n < 5) && x.getLsbD n))) ∧
    (id = 0x080 → gives { e.wv with pexpuf := x.setWidth 32 }) ∧
    (∀ j, id = 0x10 + j → j < 32 → j < e.wv.maskWords → ∃ m : Mask, gives { e.wv with traplanes := m } ∧ ∀ l, l < 1024 →
      m.getLsbD l = ((if l / 32 = j then x.getLsbD (l % 32) else e.wv.traplanes.getLsbD l) && decide (l < e.wv.width))) ∧
    (id = 0x062 → ∀ b, e.s.block (e.wv.bid e.wid) = some b →
      let n := bits x.toNat 10 0
      let c : Block := { b with twin := { b.twin with slack := max 64 (min 1024 n) } }
      ∃ s' w', exec (.srwr w) e.s = .next s' ∧ Completes e (e.s.modBlock (e.wv.bid e.wid) fun _ => c) e.wv s' w' ∧
        SameRegs e.wv w' ∧ w'.fpflags = e.wv.fpflags) ∧
    (id ∈ [0x002, 0x003, 0x004, 0x005, 0x040, 0x041, 0x050, 0x051, 0x052, 0x053, 0x054, 0x055, 0x056, 0x057, 0x058, 0x059,
      0x060, 0x061, 0x070] → GivesNothing e (.srwr w))

/-- RND draws 128 bits for each active lane into four registers, from the wave's key, its identity words, the lane and its draw
count, and counts the draw. Where the spec leaves its rule open, it states the model's choice: log entry 84. -/
def Obligations.RandomDraws : Prop :=
  ∀ w s e, Issues w s e → e.s.drawing e.wid = false → e.w.d.toNat + 3 < 0x80 →
    let draw (l : Nat) : W32 := Tbl.get e.wv.draw l 0
    let key := drawKey e.s e.wid e.wv
    let x (l : Nat) := thresh key.1 (BitVec.ofNat 32 e.wv.lid) key.2 (BitVec.ofNat 32 (e.wv.waveIdx * 1024 + l)) (draw l)
    let part (l j : Nat) : W32 := if j = 0 then (x l).1 else if j = 1 then (x l).2.1 else if j = 2 then (x l).2.2.1 else (x l).2.2.2
    ∃ s' v w', exec (.rnd w) e.s = .next s' ∧ Completes e (e.s.modWave e.wid fun _ => v) v s' w' ∧
      { v with draw := e.wv.draw } = e.wv ∧ w'.fpflags = e.wv.fpflags ∧
      (∀ l, Tbl.get v.draw l 0 = if l ∈ e.lanes then draw l + 1 else draw l) ∧
      (∀ n l, l < 1024 → w'.velem n l =
        if l ∈ e.lanes ∧ e.w.d.toNat ≤ n ∧ n < e.w.d.toNat + 4 then part l (n - e.w.d.toNat) else e.wv.velem n l) ∧
      (∀ n, w'.selem n = e.wv.selem n) ∧ ∀ n, w'.kelem n = e.wv.kelem n

/-! ### Memory words (R207 to R231, R256, R257, R294 to R312) -/

/-- LD and LDU take each element, least significant byte first, from where the search finds its bytes; LDU writes one scalar, and
nothing when no lane is active. LDS takes them from the block's scratchpad. A scratchpad offset that is not aligned raises ALIGN. -/
def Obligations.Loads : Prop :=
  ∀ w s e, Issues w s e →
    let t := e.ty
    let size := elemBytes t
    let hint := e.f 5 4
    let each := e.lanes.map fun i => (i, e.ea (e.f 3 0) true i)
    let one := [(e.first, e.ea 0 true 0)]
    (e.w.d.toNat < 0x80 → Loadable e size each → ∃ s' v w' f, exec (.ld w) e.s = .next s' ∧
      Completes e (e.loaded size hint each) v s' w' ∧ WritesD e v t f w' ∧ w'.fpflags = v.fpflags ∧ LoadFrame e v s' ∧
      ∀ i ∈ e.lanes, ∃ loc, e.place .read (e.ea (e.f 3 0) true i) = some loc ∧
        f i = loadValue (e.looks size each) e size (e.ea (e.f 3 0) true i) loc) ∧
    (e.lanes = [] → GivesNothing e (.ldu w)) ∧
    (e.lanes ≠ [] → Loadable e size one → ∃ s' v w' loc, exec (.ldu w) e.s = .next s' ∧
      Completes e (e.loaded size hint one) v s' w' ∧ w'.fpflags = v.fpflags ∧ LoadFrame e v s' ∧
      e.place .read (e.ea 0 true 0) = some loc ∧
      WritesS e v (place64 t (loadValue (e.looks size one) e size (e.ea 0 true 0) loc)) w') ∧
    (∀ b, e.s.block (e.wv.bid e.wid) = some b → e.w.d.toNat < 0x80 →
      (∀ p ∈ each, p.2 % size = 0 ∧ p.2 + size ≤ b.scratchSize) → b.absentAt (each.map fun p => (p.2, size)) = none →
      (each = [] ∨ e.wv.draining e.fr = false) →
      ∃ s' w', exec (.lds w) e.s = .next s' ∧
        Completes e (e.s.meetScratch (e.wv.bid e.wid) (each.map fun p => (p.2, size))) e.wv s' w' ∧
        WritesD e e.wv t (fun i => ofLE (scratchBytes e.s (e.wv.bid e.wid) (e.ea (e.f 3 0) true i) size)) w' ∧
        w'.fpflags = e.wv.fpflags) ∧
    (∀ b i, e.s.block (e.wv.bid e.wid) = some b → e.lanes = [i] → e.ea (e.f 3 0) true i % size ≠ 0 → e.wv.handler = none →
      e.wv.tvec ≠ 0 → FaultsWith e (.lds w) 0x06 0 (BitVec.ofNat 64 (e.ea (e.f 3 0) true i)) (maskOf [i]))

/-- ST and STU put the elements' bytes into the wave's store buffer, of two lanes the higher one's; memory does not change. STU
stores one element, and nothing when no lane is active. STS writes the block's scratchpad. PRF changes no register and no buffer.
An address of STU that is not aligned raises ALIGN. Where the spec leaves its rule open, it states the model's choice: log entry
26. -/
def Obligations.Stores : Prop :=
  ∀ w s e, Issues w s e →
    let t := e.ty
    let size := elemBytes t
    let val (i : Nat) : Nat := e.src e.w.d.toNat t i
    let each := e.lanes.map fun i => (i, e.ea (e.f 3 0) true i)
    let one := [(e.first, e.ea 0 true 0)]
    let puts (i : Instr) (l : List (Nat × Nat)) : Prop := ∃ s' w' buf, exec i e.s = .next s' ∧
      Completes e (e.s.modWave e.wid fun _ => { e.wv with wsb := buf }) { e.wv with wsb := buf } s' w' ∧ SameRegs e.wv w' ∧
      w'.fpflags = e.wv.fpflags ∧ w'.pending = e.wv.pending ∧ SameMemory e.s s' ∧
      ∀ a, Tbl.find buf a = storedWsb e l size val a
    (Passes e size .write each → WsbHolds e size each val → puts (.st w) each) ∧
    (e.lanes = [] → GivesNothing e (.stu w)) ∧
    (e.lanes ≠ [] → Passes e size .write one → WsbHolds e size one val → puts (.stu w) one) ∧
    (e.lanes ≠ [] → e.ea 0 true 0 % size ≠ 0 → lineCount e.wv.wsb ≤ 128 → e.wv.handler = none → e.wv.tvec ≠ 0 →
      FaultsWith e (.stu w) 0x06 0 (BitVec.ofNat 64 (e.ea 0 true 0)) e.act) ∧
    (∀ b, e.s.block (e.wv.bid e.wid) = some b → (∀ p ∈ each, p.2 % size = 0 ∧ p.2 + size ≤ b.scratchSize) →
      b.absentAt (each.map fun p => (p.2, size)) = none → (each = [] ∨ e.wv.draining e.fr = false) →
      ∃ s' w' s1 sp, exec (.sts w) e.s = .next s' ∧
        Completes e (s1.modBlock (e.wv.bid e.wid) fun _ => { b with scratch := sp }) e.wv s' w' ∧ SameRegs e.wv w' ∧
        w'.fpflags = e.wv.fpflags ∧ w'.pending = e.wv.pending ∧
        { s1 with cores := e.s.cores, free := e.s.free } = e.s ∧ (flying e.s (e.wv.bid e.wid) = [] → s1 = e.s) ∧
        ∀ a, Memory.read sp a = storedByte each size val (Memory.read b.scratch a) a) ∧
    (e.f 5 4 = 3 → GivesNothing e (.prf w)) ∧
    ∃ s' t w', exec (.prf w) e.s = .next s' ∧ Completes e t e.wv s' w' ∧ SameRegs e.wv w' ∧ w'.fpflags = e.wv.fpflags ∧
      w'.pending = e.wv.pending ∧ ((∀ p ∈ e.s.cores, p.2.u = []) → ∃ c n, t = { e.s with cores := c, free := n })

/-- ATOM gives each lane the element's old value and writes the new one at its level; RED writes it alone. At block and crew level the
new bytes enter the buffer, at device level memory takes them and no other byte changes. RED at device level joins the core's
update-only line, and enters the open group in a DET launch. -/
def Obligations.Atomics : Prop :=
  ∀ w s e, Issues w s e → e.wv.checkedLevel = none →
    let t := e.ty
    let size := elemBytes t
    let level := e.level
    let op := e.f 3 0
    let l := e.lanes.map fun i => (i, e.ea (e.f 5 4) false i)
    let acc := accesses e .write l
    let home := e.atomState level l
    let old (a : Access) : Nat := currentElem home e.wv e.wid level size a
    let g : Env := { e with s := e.s.atHome (acc.map (·.loc)) }
    let new (a : Access) : Nat := (combine op t .rne (old a) (g.c t a.lane)).1
    let news := acc.map fun a => (a, new a)
    let out := atomOut e home level size news
    let free := home.grantOnLines e.wid ((newBytes size news).map fun p => p.2.loc) = none
    let done (i : Instr) (s1 : State) (P : Wave → Prop) : Prop := ∃ s' v w', exec i e.s = .next s' ∧ Completes e s1 v s' w' ∧
      { v with aborting := e.wv.aborting } = e.wv ∧ w'.fpflags = e.wv.fpflags ∧ P w'
    let quiet (w' : Wave) : Prop := SameRegs e.wv w' ∧ w'.pending = e.wv.pending
    (Atomable e size level l →
      (∀ s1, out = .ok s1 → (level < 3 ∨ e.s.isDet e.wv.lid = false) →
        (e.w.d.toNat < 0x80 → ∃ f, done (.atom w) s1.fresh.2 (WritesD e e.wv t f) ∧ ∀ a ∈ acc, f a.lane = old a) ∧
        (level ≠ 3 → done (.red w) s1 quiet)) ∧
      (level = 1 → ∀ b, e.s.block (e.wv.bid e.wid) = some b →
        ∃ buf, BufTakes buf b.buf size acc new ∧ (free → lineCount buf ≤ b.ways * 1024 →
          out = .ok (home.modBlock (e.wv.bid e.wid) fun _ => { b with buf := buf }))) ∧
      (level = 2 → ∀ c, e.s.crew e.wv.ckey = some c →
        ∃ buf keys, BufTakes buf c.buf size acc new ∧ (free → lineCount buf ≤ c.share * 1024 →
          out = .ok ((home.modCrew e.wv.ckey fun _ => { c with buf := buf }).dropCopies (coreOfWave e.wid) keys))) ∧
      (3 ≤ level → e.s.isReplay e.wv.lid = false → (∀ p ∈ e.s.cores, p.2.u = []) → Separate e size acc →
        ∃ s1, out = .ok s1 ∧ s1.hostMem = e.s.hostMem ∧
          (∀ a ∈ acc, ∀ i, i < size → ∀ pa, a.loc = .dev pa →
            Memory.read s1.mem (pa + i) = BitVec.ofNat 8 (new a / 2 ^ (8 * i))) ∧
          ∀ y, (∀ a ∈ acc, ∀ pa, a.loc = .dev pa → ¬(pa ≤ y ∧ y < pa + size)) → Memory.read s1.mem y = Memory.read e.s.mem y)) ∧
    (AtomPasses e size l → e.s.homeStop e.wid e.wv.lid (acc.map (·.loc)) = none →
      (level = 3 → e.s.isDet e.wv.lid = false → ∀ s1, redDev e op t acc = some (s1, []) → done (.red w) s1 quiet) ∧
      (3 ≤ level → e.s.isDet e.wv.lid = true → e.s.stagedBytes + 8 * acc.length ≤ 2 ^ 26 → (scopeLanes e level acc).2 = (acc, []) →
        done (.red w) (redStage { e with s := (scopeLanes e level acc).1 } op acc) quiet))

/-- XBEG opens a span of its level for a whole wave with no span at or below it and no checked span: the span keeps the target,
the lanes and the token stack, and the WSB, which becomes the block's, is empty; a checked span starts with an empty log, and
after eight failures with its exclusive grant. Elsewhere XBEG raises ILLEGAL. XSTAT reads a level's state. PUL drops from its
core's L1 the wave's device copies, and its crew copies at block and crew level, above them those with a byte that the crew buffer
no longer holds; nothing else. Where the spec leaves its rule open, it states the model's choice: log entry 24. -/
def Obligations.Spans : Prop :=
  ∀ w s e, Issues w s e →
    let l := e.level
    let free := e.wv.whole = true ∧ e.wv.openTo l = false ∧ e.wv.checkedLevel = none
    let key := grantKey e.wv e.wid l
    let bytes := wsbBytes e.wv.wsb
    let opens (i : Instr) (chk : Bool) (s1 : State) : Prop := ∃ s' w' v, exec i e.s = .next s' ∧
      Completes e (s1.modWave e.wid fun _ => v) v s' w' ∧ SameRegs e.wv w' ∧ w'.fpflags = e.wv.fpflags ∧
      { v with spans := e.wv.spans, wsb := e.wv.wsb, readLog := e.wv.readLog, aborting := e.wv.aborting } = e.wv ∧ v.wsb = [] ∧
      (∀ u, s1.wave e.wid = some u → v.aborting = u.aborting) ∧
      v.readLog = (if chk then [] else e.wv.readLog) ∧ (∀ n, n ≠ l → v.span n = e.wv.span n) ∧
      v.span l = { isOpen := true, checked := chk, target := e.xbegTarget, mask := e.frag.mask, stack := e.frag.stack,
                   fails := (e.wv.span l).fails, granted := chk && (e.wv.span l).fails == 8 }
    let granted (chk : Bool) (s1 : State) : State :=
      if chk ∧ (e.wv.span l).fails = 8 then { s1 with grants := Tbl.put s1.grants key e.wid } else s1
    (free → ∀ i chk, (i, chk) ∈ [(Instr.xbeg w, false), (.xbegChk w, true)] →
      (chk = true → (e.wv.span l).fails = 8 → e.s.grantOfOther e.wid e.wv l = none) →
      (bytes = [] ∨ e.wv.aborting.isSome → opens i chk (granted chk e.s)) ∧
      (∀ s1, bytes ≠ [] → e.wv.aborting = none → e.s.grantOfOther e.wid e.wv 1 = none →
        e.s.commitUp (whoOf e.wv e.wid e.fr) (e.wv.bid e.wid) 1 bytes = .ok s1 → opens i chk (granted chk s1))) ∧
    (¬free → e.wv.handler = none → e.wv.tvec ≠ 0 → ∀ i ∈ [Instr.xbeg w, .xbegChk w],
      FaultsWith e i 0x01 (e.cl.words.getD e.cl.idx 0) 0 e.frag.mask) ∧
    (∃ x, GivesS e (.xstat w) x ∧
      x = (e.wv.span l).fails + (if (e.wv.span l).fails = 8 then 16 else 0) + (if e.s.holdsGrant e.wid e.wv l then 32 else 0) +
        (if (e.wv.span l).isOpen then 64 else 0) + (if (e.wv.span l).isOpen ∧ (e.wv.span l).checked then 128 else 0) +
        256 * lineCount e.wv.wsb + 65536 * logLines e.wv.readLog) ∧
    let t := e.s.pul e.wid e.wv l
    let held (va : Nat) : Prop := ∃ c, e.s.crew e.wv.ckey = some c ∧ Tbl.mem c.buf va = true
    let drops (k : Nat) (x : L1Line) : Prop :=
      if x.crew then k / 2 / 2 ^ 58 = e.wv.ckey ∧ (l ≤ 2 ∨ ∃ b ∈ x.bytes, ¬held (64 * (k / 2 % 2 ^ 58) + b.1))
      else k / 2 / 2 ^ 33 = e.wv.ctx
    (∀ n, n ≠ coreOfWave e.wid → t.core n = e.s.core n) ∧
    (∀ k x, (k, x) ∈ (t.core (coreOfWave e.wid)).l1 ↔ (k, x) ∈ (e.s.core (coreOfWave e.wid)).l1 ∧ ¬drops k x) ∧
    { t.core (coreOfWave e.wid) with l1 := (e.s.core (coreOfWave e.wid)).l1 } = e.s.core (coreOfWave e.wid) ∧
    { t with cores := e.s.cores } = e.s ∧
    ∃ s' w', exec (.pul w) e.s = .next s' ∧ Completes e t e.wv s' w' ∧ SameRegs e.wv w' ∧ w'.fpflags = e.wv.fpflags ∧
      w'.pending = e.wv.pending

/-- CMT moves the wave's bytes up the ladder to its level and closes the spans at or below it, with D taking the lanes that
committed; in a checked span the lanes that survive commit and XCAUSE says why others did not, and CMT.all aborts instead when
some do not. A CMT at another level than the open checked span raises ILLEGAL. ABT marks the wave for the redirect of its level,
or raises ABORT_UNHANDLED with no span open there. An overflow that aborts the wave's own spans ends its CMT: nothing is
delivered in D. Where the spec leaves its rule open, it states the model's choice: log entries
24 and 27. -/
def Obligations.Commits : Prop :=
  ∀ w s e, Issues w s e →
    let l := e.level
    let q := whoOf e.wv e.wid e.fr
    let bid := e.wv.bid e.wid
    let d := e.w.d.toNat
    let taken (m : Mask) (w' : Wave) : Prop := (∀ n i, w'.velem n i = e.wv.velem n i) ∧ (∀ n, w'.selem n = e.wv.selem n) ∧
      ∀ n, w'.kelem n = if d ≠ 0 ∧ n = d then m &&& fullMask e.wv.width else e.wv.kelem n
    let ready := e.wv.aborting = none ∧ e.s.grantOfOther e.wid e.wv l = none
    let stopped (t : State) (v : Wave) : Prop := v.aborting.isSome ∧ ∃ s' w', exec (.cmt w) e.s = .next s' ∧
      Completes e t v s' w' ∧ SameRegs e.wv w' ∧ w'.fpflags = e.wv.fpflags
    (e.wv.checkedLevel = none → e.fbit 10 = false → ready → ∀ s1,
      e.s.commitUp q bid l (wsbBytes e.wv.wsb) = .ok s1 →
      let v := (e.wv.closeSpans l).emptied
      (s1.aborted e.wid = true → ∃ v, stopped s1 v ∧ { v with aborting := e.wv.aborting } = e.wv) ∧
      (s1.aborted e.wid = false → s1.peerOps = e.s.peerOps →
        ∃ s' w', exec (.cmt w) e.s = .next s' ∧ Completes e (s1.modWave e.wid fun _ => v) v s' w' ∧ taken e.frag.mask w' ∧
          w'.fpflags = e.wv.fpflags)) ∧
    (e.wv.checkedLevel = some l → e.wv.whole = true → ready → e.s.homeOk e.wid e.wv.lid (e.wv.readLog.map (·.loc)) →
      (∀ r ∈ e.wv.readLog, ∀ p c a, r.loc ≠ .peer p c a) →
      let home := e.s.atHome (e.wv.readLog.map (·.loc))
      let r := resolve { e with s := home } l
      (r.cause = 0 ∨ e.fbit 10 = false → ∀ s1,
        home.commitUp q bid l (wsbBytes (e.wv.wsb.filter fun p => r.surv.contains p.2.writer || !e.frag.mask.getLsbD p.2.writer)) = .ok s1 →
        (s1.aborted e.wid = true → ∃ v, stopped (s1.modWave e.wid fun _ => v) v ∧ v.xcause = BitVec.ofNat 64 (16 * l + r.cause) ∧
          (v.span l).fails = r.failsAfter (e.wv.span l)) ∧
        (s1.aborted e.wid = false → s1.peerOps = e.s.peerOps →
        ∃ s' w' v, exec (.cmt w) e.s = .next s' ∧ Completes e ((s1.modWave e.wid fun _ => v).releaseGrants e.wid) v s' w' ∧
          taken (maskOf r.surv) w' ∧ w'.fpflags = e.wv.fpflags ∧ v.xcause = BitVec.ofNat 64 (16 * l + r.cause) ∧ v.wsb = [] ∧
          v.readLog = [] ∧ ∀ n, n ≤ l → (v.span n).isOpen = false)) ∧
      (r.cause ≠ 0 → e.fbit 10 = true → e.wv.shadow = false → ∃ s' w', exec (.cmt w) e.s = .next s' ∧ s'.wave e.wid = some w' ∧
        w'.aborting = some (l, r.cause) ∧ w'.xcause = BitVec.ofNat 64 (16 * l + r.cause) ∧ SameRegs e.wv w')) ∧
    ((e.wv.checkedLevel ≠ none ∧ (e.wv.checkedLevel ≠ some l ∨ e.wv.whole = false)) ∨ (e.fbit 10 = true ∧ e.wv.checkedLevel ≠ some l) →
      e.wv.handler = none → e.wv.tvec ≠ 0 → FaultsWith e (.cmt w) 0x01 (e.cl.words.getD e.cl.idx 0) 0 e.frag.mask) ∧
    (e.wv.openTo l = false → e.wv.handler = none → e.wv.tvec ≠ 0 → FaultsWith e (.abt w) 0x11 (BitVec.ofNat 64 l) 0 e.frag.mask) ∧
    (e.wv.openTo l = true → e.wv.shadow = false → ∃ s' w' v, exec (.abt w) e.s = .next s' ∧
      Completes e (e.s.abortUnit q bid l 4) v s' w' ∧ SameRegs e.wv w' ∧
      v = { e.wv with aborting := some (match e.wv.aborting with
        | some (m, c) => if l ≤ m then (m, c) else (l, 4)
        | none => (l, 4)) })

/-- Which lanes of a checked commit survive: none of those that survive conflicts with an earlier survivor, each has its logged bytes
unchanged at the level, and a lane of the span that does not survive conflicts with an earlier lane or has read a byte that changed. -/
def Obligations.CommitSurvivors : Prop :=
  ∀ w s e, Issues w s e →
    let l := e.level
    let lanes := lanesOf e.wv.width e.frag.mask
    let r := resolve e l
    let clash (i j : Nat) : Prop := ∃ a, (a ∈ readsOf e.wv i ∧ a ∈ writesOf e.wv j) ∨ (a ∈ writesOf e.wv i ∧ a ∈ writesOf e.wv j) ∨
      (a ∈ writesOf e.wv i ∧ a ∈ readsOf e.wv j)
    let stale (i : Nat) : Prop := ∃ x ∈ e.wv.readLog, x.lane = i ∧ currentAt e l x ≠ x.val
    (∀ i ∈ r.surv, i ∈ lanes ∧ ¬stale i ∧ ∀ j ∈ r.surv, j < i → ¬clash i j) ∧
    (∀ i ∈ lanes, i ∉ r.surv → stale i ∨ ∃ j ∈ lanes, j < i ∧ clash i j) ∧
    (r.cause = 0 ↔ r.surv = lanes) ∧ (r.cause = 2 ↔ ∃ i ∈ stepOne e.wv lanes, stale i)

/-! ### Copies, tokens and retention (R271 to R276, R313 to R326, R401 to R403) -/

/-- CPY, CPYX and CPYT with aligned operands inside their spaces hand the engine a copy that has read its sources, set their token
and keep its promise; CPY of zero bytes hands over none: its token is set, is to clear in the next cycle, and promises the present one. A misaligned operand raises ALIGN, and a set token makes the
word wait. Where the spec leaves its rule open, it states the model's choice: log entry 42. -/
def Obligations.Copies : Prop :=
  ∀ w s e, Issues w s e →
    let dst := e.uni e.w.d.toNat .b64
    let src := e.uni e.w.a.toNat .b64
    let n := e.uni e.w.b.toNat .n32
    let inside (space a k : Nat) : Prop := space ≠ 0 → a + k ≤ spaceSize e space
    let at_ (space a : Nat) : List (Nat × Nat) := if space = 1 ∧ 0 < n then [(a, n)] else []
    let cpy : CopyPlan := {
      moves := (List.range n).map fun i => (dstAt e.ds (dst + i),
        if e.ss = 0 then .mem ((src + i) % 2 ^ 64) else .byte ((scratchBytes e.s (e.wv.bid e.wid) (src + i) 1).headD 0)),
      lat := if e.ss = 0 then 600 else 24, size := n, extra := none, ranges := at_ e.ds dst ++ at_ e.ss src }
    let cpyx : CopyPlan := {
      moves := (List.range n).map fun i => (dstAt e.ds (dst + i), .ds6 ((src + 3 * (i / 4)) % 2 ^ 64) (i % 4)),
      lat := 600, size := n, extra := none, ranges := at_ e.ds dst }
    (dst % 16 = 0 → src % 16 = 0 → n % 16 = 0 → inside e.ds dst n → inside e.ss src n →
      (0 < n → CopyGoes e cpy → CopyStarts e e (.cpy w) cpy) ∧
      (n = 0 → e.wv.tokSet e.token = false → (e.s.core (coreOfWave e.wid)).copies.length < 32 → ∃ v s' w', exec (.cpy w) e.s = .next s' ∧
        v = { e.wv.setTok e.token (e.s.cycOf e.wid) with fading := e.wv.fading ||| (1#8 <<< e.token) } ∧
        Completes e (e.s.modWave e.wid fun _ => v) v s' w' ∧ SameRegs e.wv w' ∧ w'.fpflags = e.wv.fpflags ∧ w'.pending = e.wv.pending)) ∧
    (dst % 16 = 0 → src % 16 = 0 → n % 64 = 0 → inside e.ds dst n → CopyGoes e cpyx → CopyStarts e e (.cpyx w) cpyx) ∧
    (∀ g raw t, dst % 16 = 0 → src % 64 = 0 → e.wv.tokSet e.token = false → (e.s.core (coreOfWave e.wid)).copies.length < 32 →
      ReadsParams e src 64 g raw → tensorOf raw = some t →
      let size := t.boxBytes
      let into := inside (if e.ds = 0 then e.ss else e.ds) dst size
      let sp (space : Nat) : List (Nat × Nat) := if space = 1 then [(dst, size)] else []
      let out := t.toMem e.coords (scratchBytes g.s (e.wv.bid e.wid) dst size)
      let load : CopyPlan := { moves := t.toLocal e.coords e.ds dst, lat := 600, size := size, extra := none, ranges := sp e.ds }
      let store : CopyPlan := { moves := out.1, lat := 24, size := out.1.length, extra := some (out.2, t.base), ranges := sp e.ss }
      (e.ds ≠ 0 → into → CopyGoes g load → CopyStarts e g (.cpyt w) load) ∧
      (e.ds = 0 → into → CopyGoes g store → CopyStarts e g (.cpyt w) store)) ∧
    (e.wv.tokSet e.token = true → ∀ i ∈ [Instr.cpy w, .cpyx w, .cpyt w],
      ∃ s', exec i e.s = .next s' ∧ Stands e s' { e.frag with wait := some (.token e.token) }) ∧
    (e.wv.tokSet e.token = false → (e.s.core (coreOfWave e.wid)).copies.length < 32 → dst % 16 ≠ 0 → e.wv.handler = none →
      e.wv.tvec ≠ 0 → ∀ i ∈ [Instr.cpy w, .cpyx w, .cpyt w], FaultsWith e i 0x06 0 (BitVec.ofNat 64 dst) e.act)

/-- WAITK and WPRM go on once their token is clear and holds no fault; while it is set WAITK waits, and WPRM raises PROMISE when the
promised cycle has come and the token holds no fault; WPRM.read reads the promise. All raise ILLEGAL while the wave holds a grant. LAZY
binds a window, LAZYC releases one whose copy is not under way. PIN answers 1 where no entry is free, 2 where a slice would hold more
pinned lines than half of its LLC part, 3 where a limit of its context would be passed; else it takes the lowest free entry (the model's
choice, log entry 87) and answers it with the lines pinned and whether a page lies elsewhere. UNPIN frees an entry of the wave's own context. -/
def Obligations.TokensAndWindows : Prop :=
  ∀ w s e, Issues w s e →
    let t := e.token
    let promise := Tbl.get e.wv.promise t 0
    let waits (i : Instr) (r : Wait) : Prop := ∃ s', exec i e.s = .next s' ∧ Stands e s' { e.frag with wait := some r }
    let bid := e.wv.bid e.wid
    let win := e.w.d.toNat
    let quiet (i : Instr) (s1 : State) : Prop := ∃ s' w', exec i e.s = .next s' ∧ Completes e s1 e.wv s' w' ∧ SameRegs e.wv w' ∧
      w'.fpflags = e.wv.fpflags ∧ w'.pending = e.wv.pending
    (e.wv.holdsAny = false →
      (e.wv.tokSet t = false → Tbl.find e.wv.heldFaults t = none → GivesNothing e (.waitk w) ∧ GivesNothing e (.wprm w)) ∧
      (e.wv.tokSet t = true → waits (.waitk w) (.token t)) ∧
      (e.wv.tokSet t = true → e.wv.handler = none → e.s.cycOf e.wid < promise → waits (.wprm w) (.promise t promise)) ∧
      (e.wv.tokSet t = true → e.wv.handler = none → promise ≤ e.s.cycOf e.wid → Tbl.find e.wv.heldFaults t = none → e.w.la = 0 →
        e.wv.tvec ≠ 0 → ∃ s1 w1 s' w', exec (.wprm w) e.s = .next s' ∧ Completes e e.s e.wv s1 w1 ∧ SameRegs e.wv w1 ∧
          Traps e s1 w1 s' w' { fault := false, cause := 0x0D, info := BitVec.ofNat 64 t, addr := 0, lanes := e.frag.mask } e.nextPc) ∧
      GivesS e (.wprmRead w) promise) ∧
    (e.wv.holdsAny = true → e.wv.handler = none → e.wv.tvec ≠ 0 → ∀ i ∈ [Instr.waitk w, .wprm w, .wprmRead w],
      FaultsWith e i 0x01 (e.cl.words.getD e.cl.idx 0) 0 e.frag.mask) ∧
    (∀ b g raw x, e.s.block bid = some b → Tbl.mem b.lazyWins win = false →
      let off := e.uni e.w.c.toNat .b64
      let va := e.uni e.w.a.toNat .b64
      off % 16 = 0 → va % 64 = 0 → ReadsParams e va 64 g raw → tensorOf raw = some x → off + x.boxBytes ≤ b.scratchSize →
      (∀ v ∈ b.lazyWins, ¬(v.2.off < off + x.boxBytes ∧ off < v.2.off + v.2.len)) →
      let v : LazyWin := { off := off, len := x.boxBytes, moves := x.toLocal e.coords 1 off, present := false, inflight := none }
      quiet (.lazy w) (g.s.modBlock bid fun _ => { b with lazyWins := Tbl.put b.lazyWins win v })) ∧
    (∀ b, e.s.block bid = some b → (∀ v, Tbl.find b.lazyWins win = some v → v.inflight = none) →
      quiet (.lazyc w) (e.s.modBlock bid fun _ => { b with lazyWins := Tbl.del b.lazyWins win })) ∧
    (let base := e.uni e.w.a.toNat .b64
     let units := e.uni e.w.b.toNat .n32
     let pages := (List.range units).map fun i => (base + 4096 * i) % 2 ^ 64
     let m := unitMap e.s e.wv.ctx .read pages
     let die := dieOfCore (coreOfWave e.wid)
     let grans := pages.filterMap fun va => match unitLoc m va with
       | .ok (.dev pa) => some (pa / 4096)
       | _ => none
     let mine := grans.filter fun g => dieOfPa (4096 * g) == die
     let lines := 64 * mine.length
     let remote := decide (mine.length < grans.length)
     let pinned := dedup ((e.s.retained die).flatMap (fun p => p.2.pinned) ++ mine)
     let own := (e.s.retained die).filter fun p => p.2.owner == e.wv.ctx
     let quota := (e.s.ctx e.wv.ctx).word2.toNat
     let free (i : Nat) : Prop := i < 64 ∧ Tbl.find e.s.retention (retKey die i) = none
     let half := ∃ k, k < 64 ∧ llcLines (e.s.die die) < 2 * (64 * (pinned.filter fun g => sliceOf (4096 * g) == k).length)
     let limit := bits quota 63 56 ≤ own.length ∨ bits quota 55 32 * 1024 < (own.map fun p => p.2.lines).sum + lines
     let gives (x : Nat) (t : State) : Prop := ∃ s' w', exec (.pin w) e.s = .next s' ∧ Completes e t e.wv s' w' ∧ w'.fpflags = e.wv.fpflags ∧
       WritesS e e.wv x w'
     base % 4096 = 0 → 0 < units → units ≤ 262144 → (∀ va ∈ pages, ∃ l, unitLoc m va = .ok l ∧ ∀ p c a, l ≠ .peer p c a) →
       ((∀ i, ¬free i) → gives 1 e.s) ∧
       (∀ i, free i → (∀ j, j < i → ¬free j) →
         (half → gives 2 e.s) ∧ (¬half → limit → gives 3 e.s) ∧
         (¬half → ¬limit → gives (i * 256 + (if remote then 16384 else 0) + lines * 65536)
           { e.s with retention := Tbl.put e.s.retention (retKey die i) { owner := e.wv.ctx, vbase := base, units := units, remote := remote, lines := lines, pinned := mine } }))) ∧
    (let key := retKey (dieOfCore (coreOfWave e.wid)) (e.uni e.w.a.toNat .n32)
     let mine := e.uni e.w.a.toNat .n32 < 64 ∧ ∃ x, Tbl.find e.s.retention key = some x ∧ x.owner = e.wv.ctx
     (mine → quiet (.unpin w) { e.s with retention := Tbl.del e.s.retention key }) ∧ (¬mine → quiet (.unpin w) e.s))

/-! ### Counters (R413 to R425) -/

/-- The counter words on a region of the wave's context. The home's completion check comes first, but for AADD, whose bytes arrive
before it; AARM arms or replaces, AEXP and AADD add, with saturation, to an armed region alone; ADIS disarms and answers every
waiting AWAIT; AREAD gives the field that SUB names; AWAIT gives the phase and COMPLETE, DISARMED or TIMEOUT, or waits; an answer that it has been given stands whatever becomes of the entry. Any other
region id raises PROT. Where the spec leaves its rule open, it states the model's choice: log entry 52. -/
def Obligations.Counters : Prop :=
  ∀ w s e, Issues w s e →
    let id := e.rid
    let r := e.s.region id
    let home := e.s.regionStep id
    let h := home.region id
    let usable : Prop := id < 2 ^ 14 ∧ r.valid = true ∧ r.owner = e.wv.ctx
    let n (c : BitVec 8) : Nat := min satMax (e.n64 c)
    let beyond (c : BitVec 8) : Bool := decide (satMax < e.n64 c)
    let does (i : Instr) (t : State) (ok : Wave → Prop) : Prop := ∃ v s' w', exec i e.s = .next s' ∧ Completes e t v s' w' ∧
      { v with frags := e.wv.frags } = e.wv ∧ ok w' ∧ w'.fpflags = e.wv.fpflags
    let quiet (w' : Wave) : Prop := SameRegs e.wv w' ∧ w'.pending = e.wv.pending
    (r.completes = false → home = e.s) ∧
    (r.completes = true → h = { r with arrived := r.arrived - r.expected, phase := (r.phase + 1) % 65536, expected := r.rearm }) ∧
    (usable → (∀ q p l, e.frag.wait ≠ some (.region q p l)) →
      does (.aarm w) (home.setRegion id { h with
        arrived := if h.armed then h.arrived else 0, expected := n e.w.b, rearm := n e.w.c, act := e.f 1 0,
        task := e.n64 e.w.d % 65536, armed := true, ovf := h.ovf || beyond e.w.b || beyond e.w.c }) quiet ∧
      (h.armed = true → does (.aexp w) (home.setRegion id { h with
        expected := min satMax (h.expected + n e.w.b),
        ovf := h.ovf || beyond e.w.b || decide (satMax < h.expected + n e.w.b) }) quiet) ∧
      (h.armed = false → does (.aexp w) home quiet) ∧
      (r.armed = true → does (.aadd w) ((e.s.setRegion id { r with
        arrived := if n e.w.b = 0 then r.arrived else min satMax (r.arrived + n e.w.b),
        ovf := r.ovf || (decide (n e.w.b ≠ 0) && decide (satMax < r.arrived + n e.w.b)) || beyond e.w.b }).regionStep id) quiet) ∧
      (r.armed = false → does (.aadd w) e.s quiet) ∧
      (let t := (home.setRegion id { h with armed := false, expected := 0, arrived := 0 }).answerWaiters id
       does (.adis w) t quiet ∧
       ∀ k u fr f p l, home.wave k = some u → Tbl.find u.frags fr = some f → f.wait = some (.region id p l) →
         ∃ u', t.wave k = some u' ∧ Tbl.find u'.frags fr = some { f with
           wait := none
           awaitAns := some (BitVec.ofNat 64 (h.phase * 2 ^ 48 + if phasePassed h.phase p then 0 else 2)) }) ∧
      does (.aread w) home (WritesS e e.wv (match e.f 1 0 with
        | 0 => h.phase * 2 ^ 48 + ofBool h.armed * 2 ^ 47 + ofBool h.ovf * 2 ^ 46 + h.act * 2 ^ 44
        | 1 => h.expected
        | 2 => h.arrived
        | _ => h.rearm)) ∧
      (e.wv.holdsAny = false → e.frag.awaitAns = none →
        let p := e.n64 e.w.b % 65536
        let limit := e.n64 e.w.c
        let status (x : Nat) : Wave → Prop := WritesS e e.wv (h.phase * 2 ^ 48 + x)
        (phasePassed h.phase p = true → does (.await w) (home.pul e.wid e.wv 3) (status 0)) ∧
        (phasePassed h.phase p = false → h.armed = false → does (.await w) home (status 2)) ∧
        (phasePassed h.phase p = false → h.armed = true → limit = 0 → does (.await w) home (status 1)) ∧
        (phasePassed h.phase p = false → h.armed = true → limit ≠ 0 → r.completes = false →
          ∃ s', exec (.await w) e.s = .next s' ∧ Stands e s' { e.frag with
            wait := some (.region id p (if limit = 2 ^ 64 - 1 then none else some (e.s.cycOf e.wid + limit))) }))) ∧
    ((∀ q p l, e.frag.wait ≠ some (.region q p l)) → ∀ x, e.frag.awaitAns = some x →
      does (.await w) (if x.toNat % 4 = 0 then e.s.pul e.wid e.wv 3 else e.s) (WritesS e e.wv x.toNat)) ∧
    (¬usable → e.wv.holdsAny = false → e.frag.awaitAns = none → e.wv.handler = none → e.wv.tvec ≠ 0 →
      ∀ i ∈ [Instr.aarm w, .aexp w, .aadd w, .await w, .aread w, .adis w],
        FaultsWith e i 0x08 2 (BitVec.ofNat 64 id) e.frag.mask)

/-! ### The matrix unit (R336 to R368, R385, R386) -/

/-- OBR writes a legal record and raises OB_RECORD on any other; OBF frees one. OBW and OBL, on a valid record and with every
lane's offset aligned and inside it, write and read the elements in the operand buffer. STB sets the wave's stand tile, MMSK its
mask state from the scratchpad, and raises OB_RECORD with reason 9 where the parameter block lies outside or has no mode. Where the spec leaves its rule open, it states the model's choice: log entry 48. -/
def Obligations.OperandBuffer : Prop :=
  ∀ w s e b, Issues w s e → e.s.block (e.wv.bid e.wid) = some b →
    let bid := e.wv.bid e.wid
    let quiet (i : Instr) (s1 : State) : Prop := ∃ s' w', exec i e.s = .next s' ∧ Completes e s1 e.wv s' w' ∧ SameRegs e.wv w' ∧
      w'.fpflags = e.wv.fpflags ∧ w'.pending = e.wv.pending
    let sets (i : Instr) (v : Wave) : Prop := ∃ s' w', exec i e.s = .next s' ∧ Completes e (e.s.modWave e.wid fun _ => v) v s' w' ∧
      SameRegs v w' ∧ w'.fpflags = v.fpflags ∧ w'.pending = v.pending
    let faults (i : Instr) (n reason : Nat) : Prop := e.lanes ≠ [] → e.wv.handler = none → e.wv.tvec ≠ 0 →
      FaultsWith e i 0x12 (BitVec.ofNat 64 (reason + 256 * n)) 0 (maskOf e.lanes)
    let size := tyBits e.ty / 8
    (let x := e.uni e.w.a.toNat .b64
     let y := e.uni e.w.b.toNat .b64
     let r : ObRec := {
       base := bits x 9 0, size := (bits x 25 16 + 1) * 256, pitch := bits x 43 32, fmt := bits y 3 0, blk := bits y 5 4
       bf16Scale := bit y 6, aoff := bits y 31 16, boff := bits y 47 32 }
     let legal : Prop := bits x 63 44 = 0 ∧ bits x 31 26 = 0 ∧ bits x 15 10 = 0 ∧ bits y 63 48 = 0 ∧ bits y 15 7 = 0 ∧ r.fmt < 7 ∧
       r.pitch ≠ 0 ∧ r.base * 256 + r.size ≤ b.obufSize ∧
       (r.blk ≠ 0 → r.fmt < 4 ∧ r.pitch * 16 % (blkLen r.blk * fmtBytes r.fmt) = 0)
     (legal → quiet (.obr w) (e.s.modBlock bid fun _ => { b with recs := Tbl.put b.recs e.w.d.toNat r })) ∧
     (¬legal → faults (.obr w) e.w.d.toNat 7)) ∧
    quiet (.obf w) (e.s.modBlock bid fun _ => { b with recs := Tbl.del b.recs e.w.d.toNat }) ∧
    (Tbl.find b.recs e.w.a.toNat = none → faults (.obw w) e.w.a.toNat 1 ∧ faults (.obl w) e.w.a.toNat 1) ∧
    (∀ r, Tbl.find b.recs e.w.a.toNat = some r →
      let off (i : Nat) : Nat := e.src e.w.b.toNat .n32 i
      (∀ i ∈ e.lanes, off i % size = 0 ∧ off i + size ≤ r.size) →
      (∃ s1 buf, quiet (.obw w) (s1.modBlock bid fun _ => { b with obuf := buf }) ∧
        { s1 with cores := e.s.cores, free := e.s.free } = e.s ∧
        (∀ k, { s1.core k with copies := (e.s.core k).copies, passes := (e.s.core k).passes } = e.s.core k) ∧
        (flying e.s bid = [] → (∀ p ∈ (e.s.core (bid / 8)).passes, p.col.bid ≠ bid) → s1 = e.s) ∧
        ∀ a, Memory.read buf a = storedByte (e.lanes.map fun i => (i, r.base * 256 + off i)) size (fun i => e.src e.w.d.toNat e.ty i)
          (Memory.read b.obuf a) a) ∧
      (e.w.d.toNat < 0x80 → GivesD e (.obl w) e.ty fun i => ofLE (obufBytes e.s bid (r.base * 256 + off i) size))) ∧
    (let sb := e.uni e.w.a.toNat .b64
     let kt := e.uni e.w.b.toNat .n32
     sb % 1024 = 0 → kt ≠ 0 → kt % 32 = 0 → sb + kt * 32 * size ≤ b.standSize →
       sets (.stb w) { e.wv with tile := some { sb := sb, kt := kt, fmt := e.f 10 6 } }) ∧
    (let a := e.uni e.w.a.toNat .b64
     let q (o : Nat) : Nat := ofLE (scratchBytes e.s bid (a + o) 4)
     let map := (List.range 32).map fun i => BitVec.ofNat 32 (ofLE (scratchBytes e.s bid (q 12 + 4 * i) 4))
     a % 16 = 0 → (b.scratchSize < a + 16 → faults (.mmsk w) 0 9) ∧
       (a + 16 ≤ b.scratchSize → b.absentAt [(a, 16)] = none → e.wv.draining e.fr = false → (2 < q 0 → faults (.mmsk w) 0 9) ∧
         (q 0 ≤ 2 → (q 0 = 2 → q 12 % 16 = 0 ∧ q 12 + 128 ≤ b.scratchSize ∧ b.absentAt [(q 12, 128)] = none) →
           sets (.mmsk w) { e.wv with maskState := {
             mode := q 0, row0 := toSigned 32 (q 4), col0 := toSigned 32 (q 8), bitmap := if q 0 = 2 then map else [] } })))

/-- MMQ, MMQS and MMQP whose record, stand tile, range of K, rows and scales pass their checks hand one member for each quarter with
an active lane to the core's collectors, join the wave's accesses to the array, and change nothing else; with no active lane they do
nothing. OB_RECORD has reason 1 where no record is live, 2 where its format or its scaling is another, 3 without a stand tile of a
fitting format, 8 where the range of K is not in the row or the tile, 6 where every row passes the end of the record (at the lowest
row's start, the model's choice, log entry 48), and 4, 5 or 6 for a B scale without a value. A group's sum is NaN for a NaN operand or
0 × inf, NaN for opposed infinities, else the infinity, else the exact sum, +0 for zero; products of a zero scale take no part. Where no
byte was written while the pass ran, the array adds each group in increasing order to every element of the member's rows, rounding the
sum and then the addition to FP32, and puts −inf where the mask says so. Log entry 76 holds the model's other choices. -/
def Obligations.QuarterOperations : Prop :=
  (∀ w s e b, Issues w s e → e.s.block (e.wv.bid e.wid) = some b → e.wv.receives (e.lanes.map (tileOf e.w.d.toNat)) = none →
    (∀ i ∈ e.lanes, tileOf e.w.d.toNat i < e.wv.accs) →
    let core := coreOfWave e.wid
    let n := e.w.a.toNat
    let k0 := e.uni e.w.c.toNat .n32
    let kk := 32 * (e.f 13 10 + 1)
    let ty := tyAt (e.f 9 5)
    let row (i : Nat) : Nat := e.src e.w.b.toNat .n32 i
    let mask := if e.fbit 4 then some e.wv.maskState else none
    let faults (i : Instr) (reason addr : Nat) : Prop := e.lanes ≠ [] → e.wv.handler = none → e.wv.tvec ≠ 0 →
      FaultsWith e i 0x12 (BitVec.ofNat 64 (reason + 256 * n)) (BitVec.ofNat 64 addr) (maskOf e.lanes)
    let past (r : ObRec) (j : Nat) : Prop := r.size < row j * r.pitch * 16 + (k0 + kk) * fmtBytes r.fmt
    let badScale (r : ObRec) (o reason : Nat) : Prop :=
      let x := ofLE (obufBytes e.s (e.wv.bid e.wid) o r.scaleBytes)
      if b.obufSize < o + r.scaleBytes then reason = 6
      else if r.bf16Scale then reason = 5 ∧ (fval .bf16 x).isFin = false
      else reason = 4 ∧ x = 255
    ∀ i scaled, (i, scaled) ∈ [(Instr.mmq w, false), (.mmqs w, true), (.mmqp w, false)] →
      (e.lanes = [] → GivesNothing e i) ∧
      (Tbl.find b.recs n = none → faults i 1 0) ∧
      ∀ r, Tbl.find b.recs n = some r → (¬(fmtTy r.fmt = ty ∧ (r.blk != 0) = scaled) → faults i 2 0) ∧
        (fmtTy r.fmt = ty → (r.blk != 0) = scaled → (e.wv.tile = none → faults i 3 0) ∧ ∀ t, e.wv.tile = some t →
          (pairOk ty (tyAt t.fmt) = false → faults i 3 0) ∧
          (pairOk ty (tyAt t.fmt) = true →
            (¬(k0 % 32 = 0 ∧ k0 + kk ≤ t.kt ∧ (k0 + kk) * fmtBytes r.fmt ≤ r.pitch * 16) → faults i 8 0) ∧
            (k0 % 32 = 0 → k0 + kk ≤ t.kt → (k0 + kk) * fmtBytes r.fmt ≤ r.pitch * 16 →
              ((∀ j ∈ e.lanes, past r j) → ∀ j ∈ e.lanes, (∀ l ∈ e.lanes, r.rowAt (row j) ≤ r.rowAt (row l)) → faults i 6 (r.rowAt (row j))) ∧
              ((∀ j ∈ e.lanes, ¬past r j) → (∀ x ∈ blocksOf r k0 kk, ∀ j ∈ e.lanes, ∀ m, ¬badScale r (r.aScaleAt (row j) x) m) →
                (∀ m, (∃ x ∈ blocksOf r k0 kk, ∃ c, c < 32 ∧ badScale r (r.bScaleAt x c) m) →
                  (∀ x ∈ blocksOf r k0 kk, ∀ c, c < 32 → ∀ m', badScale r (r.bScaleAt x c) m' → m ≤ m') →
                  ∃ x ∈ blocksOf r k0 kk, ∃ c, c < 32 ∧ badScale r (r.bScaleAt x c) m ∧ faults i m (r.bScaleAt x c)) ∧
                ((∀ x ∈ blocksOf r k0 kk, ∀ c, c < 32 → ∀ m, ¬badScale r (r.bScaleAt x c) m) → e.lanes ≠ [] →
                  ∃ s' w' coll closed,
                    let c : Core := { e.s.core core with coll := coll, closed := closed }
                    let quarters (m : Nat) := quartersOf e.wid (32 * e.s.fresh.1 + m) e.w.d.toNat r mask (e.lanes.map fun j => (j, row j)) m
                    let accesses := (List.range e.wv.maskWords).filterMap fun m => match quarters m with
                      | [] => none
                      | l => some (arrayPassOf l)
                    let v : Wave := { e.wv with arrayQ := e.wv.arrayQ ++ accesses }
                    exec i e.s = .next s' ∧ Completes e ((e.s.fresh.2.modCore core fun _ => c).modWave e.wid fun _ => v) v s' w' ∧
                    SameRegs e.wv w' ∧ w'.fpflags = e.wv.fpflags ∧ w'.pending = e.wv.pending ∧
                    collected c = collected (e.s.core core) ++ (List.range e.wv.maskWords).flatMap quarters)))))) ∧
  (∀ l : List Product, (∀ p ∈ l, p.scale.isFin = true) →
    let live := l.filter fun p => !p.scale.isZero
    let bad (p : Product) : Prop := p.a.isNan = true ∨ p.b.isNan = true ∨ (p.a.isZero = true ∧ p.b.isInf = true) ∨
      (p.a.isInf = true ∧ p.b.isZero = true)
    let sign (p : Product) : Bool := (p.a.sign != p.b.sign) != p.scale.sign
    let infs := (live.filter fun p => p.a.isInf || p.b.isInf).map sign
    ((∃ p ∈ live, bad p) → groupSum l = .nan false) ∧
    ((∀ p ∈ live, ¬bad p) →
      (true ∈ infs → false ∈ infs → groupSum l = .nan false) ∧
      (∀ x, x ∈ infs → (!x) ∉ infs → groupSum l = .inf x) ∧
      (infs = [] → ∀ q : Int, q ≤ 0 →
        (∀ p ∈ live, ∃ sa na ea sb nb eb ss ns es, p = ⟨.num sa na 1 ea, .num sb nb 1 eb, .num ss ns 1 es⟩ ∧ q ≤ ea + eb + es) →
        let units (p : Product) : Int := match p.a, p.b, p.scale with
          | .num _ na _ ea, .num _ nb _ eb, .num _ ns _ es => sgn (sign p) (na * nb * ns) * 2 ^ (ea + eb + es - q).toNat
          | _, _, _ => 0
        ∃ s n e, groupSum l = .num s n 1 e ∧ q ≤ e ∧ (n = 0 → s = false) ∧ sgn s n * 2 ^ (e - q).toNat = (live.map units).sum))) ∧
  ∀ (s : State) (p : ArrayPass) (q : Quarter) (m : Option MaskState) (w : Wave),
    s.wave q.wid = some w → p.wrote = [] → (∀ x ∈ q.rows, x.1 < 8) → (q.rows.map (·.1)).Nodup →
    let c := p.col
    let r := q.record
    let n := fmtBytes r.fmt
    let ty := tyAt c.tile.fmt
    let code (off : Nat) : Nat := ofLE (obufBytes s c.bid off r.scaleBytes)
    let scale (off : Nat) : Val := if r.bf16Scale then fval .bf16 (code off) else e8Val (code off)
    let as (x k : Nat) : Nat := r.aScaleAt x (k / blkLen r.blk)
    let bs (k j : Nat) : Nat := r.bScaleAt (k / blkLen r.blk) j
    (r.blk ≠ 0 → ∀ x ∈ q.rows, ∀ g i j, g < c.kk / 32 → i < 32 → j < 32 →
      let k := 32 * (c.k0 / 32 + g) + i
      ∀ off ∈ [as x.2 k, bs k j], if r.bf16Scale then (fval .bf16 (code off)).isFin = true else code off ≠ 255) →
    let product (x k j : Nat) : Product :=
      { a := valOf (fmtTy r.fmt) (ofLE (obufBytes s c.bid (r.rowAt x + k * n) n)),
        b := valOf ty (ofLE (standBytes s c.bid
          (c.tile.sb + k / 32 * 1024 * (tyBits ty / 8) + j * 32 * (tyBits ty / 8) + k % 32 * (tyBits ty / 8)) (tyBits ty / 8))),
        scale := if r.blk = 0 then .num false 1 1 0 else mulNum (scale (as x k)) (scale (bs k j)) }
    let rounded (v : Val) : Nat := (roundVal fmtF32 .rne v).1
    let step (x j acc g : Nat) : Nat := rounded (addVal .rne (fval .f32 acc) (fval .f32 (rounded (groupSum
      ((List.range 32).map fun i => product x (32 * (c.k0 / 32 + g) + i) j))))).1
    ∃ w', (s.runQuarter p (q, m)).wave q.wid = some w' ∧ SameRegs w w' ∧ w'.fpflags = w.fpflags ∧
      (∀ x ∈ q.rows, ∀ j, j < 32 → w'.aget q.tile x.1 j =
        (if m.any (fun m => m.masks (8 * q.q + x.1) j) then 0xFF800000
          else (List.range (c.kk / 32)).foldl (step x.2 j) (w.aget q.tile x.1 j)) % 2 ^ 32) ∧
      ∀ t row j, row < 8 → j < 32 → (t = q.tile → row ∉ q.rows.map (·.1)) → w'.aget t row j = w.aget t row j

/-- ACZ clears the accumulator rows of its active lanes, ACS scales them by powers of two, ACR reads columns of them into vector
registers, DRN converts them into the scratchpad, the higher lane's bytes last. DRNS joins the rows to a round of the launch's
swath and SWR registers its rows to receive one; both raise their token. Behind an access to one of their tiles that the array has
still to reach, ACZ, ACS, ACR, DRN and DRNS join the wave's accesses and do not wait (log entry 45 gives the model's choices). -/
def Obligations.Accumulators : Prop :=
  ∀ w s e, Issues w s e →
    let free (base : Nat) : Prop := (∀ i ∈ e.lanes, tileOf base i < e.wv.accs) ∧ e.wv.receives (e.lanes.map (tileOf base)) = none
    let ready (base : Nat) : Prop := free base ∧ e.wv.queued (e.lanes.map (tileOf base)) = false
    let behind (base : Nat) : Prop := free base ∧ e.wv.queued (e.lanes.map (tileOf base)) = true
    let d := e.w.d.toNat
    let a := e.w.a.toNat
    let at_ (base i j : Nat) : Nat := e.wv.aget (tileOf base i) (rowOf i) j
    let becomes (i : Instr) (s1 : State) (v : Wave) : Prop := ∃ s' w', exec i e.s = .next s' ∧
      Completes e (s1.modWave e.wid fun _ => v) v s' w' ∧ SameRegs v w' ∧ w'.fpflags = v.fpflags ∧ w'.pending = v.pending
    let after (x : ArrayOp) : Wave := { e.wv with arrayQ := e.wv.arrayQ ++ [x] }
    let sets (i : Instr) (f : Nat → Nat → Nat) : Prop := ∃ acc,
      let v : Wave := { e.wv with acc := acc }
      becomes i e.s v ∧ (∀ l ∈ e.lanes, ∀ j, j < 32 → v.aget (tileOf d l) (rowOf l) j = f l j % 2 ^ 32) ∧
      ∀ t r j, r < 8 → j < 32 → (∀ l ∈ e.lanes, ¬(tileOf d l = t ∧ rowOf l = r)) → v.aget t r j = e.wv.aget t r j
    (ready d → sets (.acz w) fun _ _ => 0) ∧
    (behind d → becomes (.acz w) e.s (after (.zero d e.lanes))) ∧
    (ready d → sets (.acs w) fun l j => (fscale fmtF32 .rne (fval .f32 (at_ d l j)) (toSigned 32 (e.a .i32 l))).1) ∧
    (behind d → becomes (.acs w) e.s (after (.scale d (e.lanes.map fun l => (l, toSigned 32 (e.a .i32 l)))))) ∧
    (let c := e.uni e.w.c.toNat .n32
     (ready a → ∃ s' w', exec (.acr w) e.s = .next s' ∧ Completes e e.s e.wv s' w' ∧ w'.fpflags = e.wv.fpflags ∧
       (∀ k, w'.selem k = e.wv.selem k) ∧ (∀ k, w'.kelem k = e.wv.kelem k) ∧
       ∀ k l, l < 1024 → w'.velem k l = if d ≤ k ∧ k < d + 2 ^ e.f 2 0 ∧ l ∈ e.lanes
         then BitVec.ofNat 32 (at_ a l ((c + (k - d)) % 32)) else e.wv.velem k l) ∧
     (behind a →
       let v := after (.fetch e.s.fresh.1 a d c (2 ^ e.f 2 0) e.lanes none)
       ∃ s' w' p, exec (.acr w) e.s = .next s' ∧ Completes e (e.s.fresh.2.modWave e.wid fun _ => v) v s' w' ∧ SameRegs e.wv w' ∧
         w'.fpflags = e.wv.fpflags ∧ w'.pending = e.wv.pending ++ [p] ∧ p.frag = e.fr ∧ p.req = some e.s.fresh.1 ∧ p.trap = none ∧
         p.regs = dedup ((List.range (2 ^ e.f 2 0)).map fun m => .v (d + m)))) ∧
    (e.lanes = [] → GivesNothing e (.drn w)) ∧
    (∀ b, e.s.block (e.wv.bid e.wid) = some b → free a → e.lanes ≠ [] →
      let o := e.uni e.w.d.toNat .b64
      let p := e.uni e.w.b.toNat .n32
      let size := tyBits e.ty / 8
      let rows := e.lanes.map fun l => (l, o + l * p)
      o % 16 = 0 → p % 16 = 0 → (∀ x ∈ rows, x.2 + 32 * size ≤ b.scratchSize) → b.absentAt (rows.map fun x => (x.2, 32 * size)) = none →
      (e.wv.draining e.fr = true ∨ behind a → becomes (.drn w) e.s (after (.drain e.fr a (e.f 10 6) (e.fbit 5) rows))) ∧
      (e.wv.draining e.fr = false → ready a → ∃ s' w' s1 sp, exec (.drn w) e.s = .next s' ∧
        Completes e (s1.modBlock (e.wv.bid e.wid) fun _ => { b with scratch := sp }) e.wv s' w' ∧ SameRegs e.wv w' ∧
        w'.fpflags = e.wv.fpflags ∧ w'.pending = e.wv.pending ∧
        { s1 with cores := e.s.cores, free := e.s.free } = e.s ∧ (flying e.s (e.wv.bid e.wid) = [] → s1 = e.s) ∧
        ∀ y, Memory.read sp y = match lastOver rows (32 * size) y with
          | some x => BitVec.ofNat 8 ((convertVal e.ty .rne (e.fbit 5) (fval .f32 (at_ a x.1 ((y - x.2) / size)))).1 /
              2 ^ (8 * ((y - x.2) % size)))
          | none => Memory.read b.scratch y)) ∧
    (∀ h r, e.lanes ≠ [] → e.wv.tokSet e.token = false →
      let send (rows : List SwathRow) : Wave := { e.wv.raiseTok e.token with
          sends := e.wv.sends ++ [{ id := e.s.fresh.1, handle := h, round := r, tok := e.token, rows := rows }] }
      (handleOf (e.uni e.w.b.toNat .b64) = some h → e.s.joinRound e.wv.lid h true = some r →
        (ready a → becomes (.drns w) e.s.fresh.2 (send (e.lanes.map fun l =>
          { lane := l, elems := (List.range 32).map fun j => BitVec.ofNat 32 (at_ a l j) }))) ∧
        (behind a → becomes (.drns w) e.s.fresh.2 { send [] with arrayQ := e.wv.arrayQ ++ [.send e.s.fresh.1 a e.lanes] })) ∧
      (free d → handleOf (e.uni e.w.a.toNat .b64) = some h → e.s.joinRound e.wv.lid h false = some r →
        becomes (.swr w) e.s { e.wv.raiseTok e.token with
          recvs := e.wv.recvs ++ [{ handle := h, round := r, tok := e.token, targets := e.lanes.map fun l => (l, tileOf d l, rowOf l) }] }))

/-! ### Barriers, SPAWN, TWIN and DETF (R263 to R270, R327 to R329, R377 to R381, R523) -/

/-- BARB and BARC arrive at a barrier of their block or crew, BARB once the array has reached the wave's DRNs: with a count that differs from the latched one they trap, before the
last arrival they wait, and the last arrival starts the next phase, lets every waiting arrival go on and goes on itself. SPAWN
binds pool slots and answers their mask. Outside TWIN launches TWIN only goes on. DETF closes a DET block's open group and with
the ticket holds its fragment. Where the spec leaves its rule open, it states the model's choice: log entry 74. -/
def Obligations.BarriersAndSpawn : Prop :=
  ∀ w s e, Issues w s e →
    let a := e.uni e.w.a.toNat .n32
    let n := e.uni e.w.b.toNat .n32
    let bid := e.wv.bid e.wid
    let core := coreOfWave e.wid
    let here (limit : Nat) : Prop := a ≤ 15 ∧ 1 ≤ n ∧ n ≤ limit ∧ e.wv.whole = true ∧ e.wv.holdsAny = false
    let mismatch (i : Instr) (bar : Barrier) (k : Nat) : Prop := bar.latched ≠ 0 → bar.latched ≠ n → e.wv.handler = none →
      e.wv.tvec ≠ 0 → FaultsWith e i 0x0C (BitVec.ofNat 64 (a + bar.latched * 2 ^ 8 + n * 2 ^ 16 + k)) 0 e.frag.mask
    let matched (bar : Barrier) : Prop := bar.latched = 0 ∨ bar.latched = n
    let one (bar : Barrier) : Barrier := { bar with latched := n, count := bar.count + 1, arrived := bar.arrived ++ [e.wv.member] }
    let next (bar : Barrier) : Barrier := { Barrier.reset with phase := (bar.phase + 1) % 65536 }
    let goes (i : Instr) (t : State) : Prop := ∃ s' v w', exec i e.s = .next s' ∧ Completes e t v s' w' ∧ v = e.wv ∧
      SameRegs e.wv w' ∧ w'.fpflags = e.wv.fpflags ∧ w'.pending = e.wv.pending
    let released (t : State) (ws : List (Nat × Wave)) (bar : Barrier) (r : Wait) : Prop :=
      ∀ k u fr f c, e.s.wave k = some u → (k, u) ∈ ws → u.member ∈ bar.arrived → u.frags = [(fr, f)] → f.wait = some r →
        f.clause = some c →
        ∃ u', t.wave k = some u' ∧ { u' with frags := u.frags } = u ∧
          Tbl.find u'.frags fr = some (f.advanceTo c (f.resume.getD (c.idx + c.sizeAt c.idx)))
    (here 16 → e.wv.arrayQ.any ArrayOp.drains = true → ∃ s', exec (.barb w) e.s = .next s' ∧ Stands e s' { e.frag with wait := some .array }) ∧
    (∀ b, e.s.block bid = some b → here 16 → e.wv.arrayQ.any ArrayOp.drains = false → e.frag.wait ≠ some (.barb a) →
      let bar := Tbl.get b.bars a Barrier.reset
      let put (x : Barrier) : State := e.s.modBlock bid fun _ => { b with bars := Tbl.set Barrier.reset b.bars a x }
      let t := (put (next bar)).passAll (e.s.blockWaves bid) bar.arrived (.barb a) false
      mismatch (.barb w) bar 0 ∧
      (matched bar → bar.count + 1 < n → ∃ s', exec (.barb w) e.s = .next s' ∧
        Stands { e with s := put (one bar) } s' { e.frag with wait := some (.barb a) }) ∧
      (matched bar → n ≤ bar.count + 1 → (∀ p ∈ e.s.blockWaves bid, (e.s.wave p.1).any e.s.twinned = false) →
        goes (.barb w) t ∧ released t (e.s.blockWaves bid) bar (.barb a))) ∧
    (∀ c, e.s.crew e.wv.ckey = some c → here 128 → e.frag.wait ≠ some (.barc a) →
      let bar := Tbl.get c.bars a Barrier.reset
      let put (x : Barrier) : State := e.s.modCrew e.wv.ckey fun _ => { c with bars := Tbl.set Barrier.reset c.bars a x }
      let t := (put (next bar)).passAll (e.s.crewWaves e.wv.lid e.wv.crew) bar.arrived (.barc a) true
      mismatch (.barc w) bar (2 ^ 30) ∧
      (matched bar → bar.count + 1 < n → ∃ s', exec (.barc w) e.s = .next s' ∧
        Stands { e with s := put (one bar) } s' { e.frag with wait := some (.barc a) }) ∧
      (matched bar → n ≤ bar.count + 1 → (∀ p ∈ e.s.crewWaves e.wv.lid e.wv.crew, (e.s.wave p.1).any e.s.twinned = false) →
        goes (.barc w) (t.pul e.wid e.wv 2) ∧ released t (e.s.crewWaves e.wv.lid e.wv.crew) bar (.barc a))) ∧
    (∀ b, e.s.block bid = some b → e.wv.handler = none →
      let free := b.freePool e.s core
      let ids := (e.s.freeIndices bid).take (min (e.uni e.w.a.toNat .n32) free.length)
      let arg := BitVec.ofNat 64 (if e.w.b = 0xE0 then 0 else e.uni e.w.b.toNat .b64)
      ∃ t s' w', exec (.spawn w) e.s = .next s' ∧ Completes e t e.wv s' w' ∧ w'.fpflags = e.wv.fpflags ∧
        (e.w.d = 0xE0 → SameRegs e.wv w') ∧ (e.w.d ≠ 0xE0 → WritesS e e.wv (indexMask ids) w') ∧
        { t with waves := e.s.waves } = e.s ∧
        (∀ j x p, (ids.zip free)[j]? = some (x, p) → (∀ i q, j < i → (ids.zip free)[i]? = some q → q.2.slot ≠ p.slot) →
          ∃ u, t.wave (32 * core + p.slot) = some u ∧ u.lid = e.wv.lid ∧ u.ctx = e.wv.ctx ∧ u.bslot = e.wv.bslot ∧ u.waveIdx = x ∧ u.width = e.wv.width ∧ u.vregs = b.poolV ∧ u.crew = e.wv.crew ∧
          u.selem 0 = arg ∧ u.selem 1 = BitVec.ofNat 64 j ∧ (∀ m, 2 ≤ m → u.selem m = 0) ∧ (∀ m l, u.velem m l = 0) ∧
          u.frags = [(0, Frag.start (fullMask e.wv.width) (e.cl.addr + e.w.f.signExtend 64 * 8) [])]) ∧
        ∀ k, (∀ p ∈ free.take ids.length, k ≠ 32 * core + p.slot) → t.wave k = e.s.wave k) ∧
    GivesNothing e (.twinCkpt w) ∧ GivesNothing e (.twinCmp w) ∧
    (e.wv.holdsAny = false →
      (e.s.isDet e.wv.lid = false → GivesNothing e (.detf w)) ∧
      (∀ b, e.s.block bid = some b → e.s.isDet e.wv.lid = true →
        (e.s.holdsTicket b.lid b.blocklin = false → goes (.detf w) (e.s.closeGroup bid b)) ∧
        (e.s.holdsTicket b.lid b.blocklin = true → ∃ s', exec (.detf w) e.s = .next s' ∧
          Stands { e with s := e.s.closeGroup bid b } s' { e.frag.advanceTo e.cl e.next with wait := some .ticket })))

/-! ### Engines and particles (R443 to R474, R500 to R518) -/

/-- KVT, KVA, KVC, KVF, WNW, GMK, GSTP and SMPL send their operands as one request to their engine, raise their token if they have
one, and leave their registers pending. With no active lane the words with lanes do nothing. A request whose pages are at home leaves
its engine with its results: KVA.new and KVA.app of a lane (appending without a copy-on-write) give an id or a length or 0xFFFFFFFF,
WNW the rows that reach the threshold and their scores, GMK a lane's mask, GSTP a lane's automaton after its token (the transitions
sorted), SMPL the token of a lane by the rule's loop. Where the spec leaves its rule open, it states the model's choice: log entries
49 and 51. -/
def Obligations.EngineRequests : Prop :=
  (∀ w s e, Issues w s e →
    let core := coreOfWave e.wid
    let die := dieOfCore core
    let d := e.w.d.toNat
    let kv (l : List Nat) : List Nat := dedup (l.map fun sid => sid / 2 ^ 30 % 4)
    let gr : List Nat := [4 + die]
    let two := e.lanes.map fun i => (i, e.a .n32 i, e.b .n32 i)
    let one := e.lanes.map fun i => (i, e.a .n32 i)
    let n := e.uni e.w.a.toNat .b64
    (e.lanes ≠ [] →
      SendsReq e (.kvt w) (kv (two.map (·.2.1))) none (.kvt two d e.w.c.toNat) [.v (d + 0), .v (d + 1), .k e.w.c.toNat] ∧
      SendsReq e (.kvaNew w) [die] none (.kvaNew e.lanes (e.uni e.w.b.toNat .n32) d) [.v (d + 0)] ∧
      SendsReq e (.kvaApp w) (kv (two.map (·.2.1))) none (.kvaApp two d) [.v (d + 0)] ∧
      SendsReq e (.kvc w) (kv (one.map (·.2))) none (.kvc one d) [.v (d + 0)] ∧
      SendsReq e (.kvf w) (kv (one.map (·.2))) none (.kvf one) [] ∧
      ((∀ i ∈ e.lanes, e.b .b64 i % 1024 = 0 ∧ ∀ j ∈ e.lanes, j ≠ i → e.b .b64 j ≠ e.b .b64 i) →
        SendsReq e (.gstp w) gr none (.gstp n (e.lanes.map fun i => (i, e.b .b64 i, e.c .n32 i)) d (e.fbit 0)) [.v (d + 0), .v (d + 1)]) ∧
      (let c := e.uni e.w.c.toNat .n32
       let o := e.uni e.w.d.toNat .b64
       let need := match vocabNow e n with | some v => v / 8 | none => 0
       o % 4 = 0 → c % 4 = 0 → need ≤ c →
       (∀ i ∈ e.lanes, e.b .b64 i % 1024 = 0 ∧ o + i * c + need ≤ spaceSize e 1) →
         SendsReq e (.gmk w) gr (some e.token) (.gmk o n c (e.lanes.map fun i => (i, e.b .b64 i))) []) ∧
      (n % 16 = 0 → (e.fbit 1 = true → e.s.isParticle e.wv.lid = true) → (e.fbit 0 = true ∨ e.s.drawing e.wid = false) →
        SendsReq e (.smpl w) gr none (.smpl n d (e.lanes.map fun i =>
          (i, if e.fbit 1 then e.c .n32 i else 0, (Tbl.get e.wv.draw i 0).toNat)) (e.fbit 0) (e.fbit 1)) [.v (d + 0), .v (d + 1)])) ∧
    (∀ b, e.s.block (e.wv.bid e.wid) = some b → n % 16 = 0 → n + 64 ≤ b.scratchSize → b.absentAt [(n, 64)] = none → e.wv.draining e.fr = false →
      let q (o k : Nat) : Nat := ofLE (((scratchBytes e.s (e.wv.bid e.wid) n 64).drop o).take k)
      q 0x18 4 % 16 = 0 → q 0x28 4 % 8 = 0 → wnwLimits q b.scratchSize = true →
        SendsReq e (.wnw w) [8 + core / 8] (some e.token)
          (.wnw (q 0 8) (q 8 4) (q 0xC 4) (q 0x10 4) (q 0x14 4) (q 0x18 4) (toSigned 32 (q 0x1C 4)) (q 0x20 4 == 1)
            (q 0x24 4) (q 0x28 4) n) []) ∧
    (e.lanes = [] → e.fbit 1 = false →
      ∀ i ∈ [Instr.kvt w, .kvaNew w, .kvaApp w, .kvc w, .kvf w, .gmk w, .gstp w, .smpl w], GivesNothing e i)) ∧
  ∀ (r : EngReq) (s : State), s.reqs.find? (fun q => q.id == r.id) = some r → s.reqTurn r = true →
    let done (t : State) (ws : List RegWrite) (trap : Option TrapRec) : Prop :=
      exec (.engineRequestComplete r.id) s = .next (t.endReq r ws trap)
    let reads (va n : Nat) (l : Bytes) : Prop :=
      ∃ ls, placesOf s r .read va n = .ok ls ∧ engineHome s r ls = .ok s ∧ l = ls.map (s.homeByte r.ctx)
    (∀ l pool d, r.op = .kvaNew [l] pool d → r.got = [] → r.bad = [] →
      let die := dieOfCore (coreOfWave r.wid)
      let k := s.pool (poolKey die pool)
      (16 ≤ pool ∨ k.valid = false ∨ k.owner ≠ r.ctx →
        done s [] (some (faultRec 0x13 2 (BitVec.ofNat 64 pool) (maskOf [l])))) ∧
      (pool < 16 → k.valid = true → k.owner = r.ctx →
        (s.freeHead die = none → done s (putAt d .n32 l 0xFFFFFFFF) none) ∧
        ∀ n, s.freeHead die = some n → s.mapRoom die 64 = true →
          let id := die * 2 ^ 30 + pool * 2 ^ 26 + n
          done ({ s with seqs := Tbl.put s.seqs id { owner := r.ctx, len := 0, pages := [] } }.askBatch die pool)
            (putAt d .n32 l id) none)) ∧
    (∀ l sid n d q, r.op = .kvaApp [(l, sid, n)] d → r.got = [] → r.bad = [] → Tbl.find s.seqs sid = some q → q.owner = r.ctx →
      let die := seqDie sid
      let p := seqPool sid
      let k := s.pool (poolKey die p)
      let need := ceilDiv (q.len + n) 64 - ceilDiv q.len 64
      let cow : Prop := q.len % 64 ≠ 0 ∧ 1 < Tbl.get s.refs (refKey p (q.pages.getLastD 0)) 0
      (n = 0 ∨ 65535 < n ∨ 2 ^ 24 ≤ q.len + n → done s [] (some (faultRec 0x13 3 (BitVec.ofNat 64 sid) (maskOf [l])))) ∧
      (n ≠ 0 → n ≤ 65535 → q.len + n < 2 ^ 24 → ¬cow →
        (k.freePages < need → k.asking = none → done s (putAt d .n32 l 0xFFFFFFFF) none) ∧
        ∀ pages k', need ≤ k.freePages → Pool.take die need k [] = (pages, k') → (∀ x ∈ pages, pageDie x = die) →
          s.mapRoom die (2 * pages.length + 256 * (listBlocks (q.pages.length + need) - listBlocks q.pages.length)) = true → die < 4 →
          done (State.askBatch { s.modPool (poolKey die p) (fun _ => k') with
              refs := pages.foldl (fun t x => Tbl.put t (refKey p x) 1) s.refs,
              seqs := Tbl.put s.seqs sid { q with len := q.len + n, pages := q.pages ++ pages } } die p)
            (putAt d .n32 l (q.len + n)) none)) ∧
    (∀ keys pitch nkeys pos0 dim qoff thr topk kcap outoff blk bid b (key : Nat → Bytes),
      r.op = .wnw keys pitch nkeys pos0 dim qoff thr topk kcap outoff blk → s.reqBlock r = some (bid, b) →
      b.absentAt [(qoff, dim), (outoff, 8 * kcap), (blk, 64)] = none →
      (∀ i, i < nkeys → reads ((keys + i * pitch) % 2 ^ 64) dim (key i)) →
      let score (i : Nat) : Int := (((scratchBytes s bid qoff dim).zip (key i)).map fun p => p.1.toInt * p.2.toInt).sum
      let S := (List.range nkeys).filter fun i => decide (thr ≤ score i)
      let before (i j : Nat) : Prop := score j < score i ∨ (score i = score j ∧ i < j)
      ∀ out : List Nat, out.Pairwise (· < ·) →
        (if S.length ≤ kcap then out = S
         else if topk then ∀ i, i ∈ out ↔ i ∈ S ∧ (S.filter fun j => decide (before j i)).length < kcap
         else out = S.take kcap) →
        done ((s.putFor r bid outoff (out.flatMap fun i => leBytes 4 (pos0 + i) ++ leBytes 4 (wrap 32 (score i)))).putFor r bid (blk + 0x2C)
          (leBytes 4 out.length ++ leBytes 4 (if S.length ≤ kcap then 0 else 1))) [] none) ∧
    (∀ off desc pitch l va bid b raw g rec_, r.op = .gmk off desc pitch [(l, va)] → s.reqBlock r = some (bid, b) →
      s.block bid = some b → desc % 64 = 0 → reads desc 64 raw → grammarOf raw = some g → reads va 0x210 rec_ →
      b.absentAt [(off + l * pitch, g.vocab / 8)] = none → off + l * pitch + g.vocab / 8 ≤ b.scratchSize →
      let a := automatonOf rec_
      let writes (mask : Bytes) : Prop :=
        exec (.engineRequestComplete r.id) s = .next ((s.putFor r bid (off + l * pitch) mask).endReq r [] none)
      (pitch < g.vocab / 8 → exec (.engineRequestComplete r.id) s = .next (s.endHeld r 0x06 0 pitch)) ∧
      (g.vocab / 8 ≤ pitch →
        (a.status ≠ 0 ∨ a.invalid g = true → writes (List.replicate (g.vocab / 8) 0)) ∧
        (a.status = 0 → a.invalid g = false → ∀ pair, reads (g.pairAt a) 16 pair →
          let mask := ofLE (pair.take 8)
          (mask % 4 ≠ 0 → exec (.engineRequestComplete r.id) s = .next (s.endHeld r 0x08 2 (g.pairAt a))) ∧
          (mask % 4 = 0 → ∀ bits, reads mask (g.vocab / 8) bits → writes bits)))) ∧
    (let writes (u : State) (va : Nat) (l : Bytes) (v : State) : Prop :=
      ∃ ls, placesOf u r .write va l.length = .ok ls ∧ engineStop u r ls = none ∧ u.grantOnLines r.wid ls = none ∧
        u.replayRoom r.lid ((devBytes (ls.zip l)).map (·.1)) = true ∧
        let x := u.writeDev r.ctx r.lid none (devBytes (ls.zip l))
        v = x.holdBytes r.lid (match x.wave r.wid with | some w => w.crew | none => 0) (hostBytes (ls.zip l))
    ∀ desc l va tok d trp raw g rec_, r.op = .gstp desc [(l, va, tok)] d trp → desc % 64 = 0 → reads desc 64 raw →
      grammarOf raw = some g → reads va 0x210 rec_ →
      let a := automatonOf rec_
      let word (b : Automaton) : Nat := b.state + (b.status + b.reason * 2 ^ 8 + b.depth * 2 ^ 16) * 2 ^ 32
      let ends (u : State) (b : Automaton) (entered : Bool) : Prop :=
        exec (.engineRequestComplete r.id) s = .next (u.endReq r (putAt d .b64 l (word b))
          (if trp && entered then some (reportRec 0x14 (BitVec.ofNat 64 b.reason) (maskOf [l])) else none))
      let err (n : Nat) : Prop := ∀ u, writes s va ({ a with status := 2, reason := n } : Automaton).headBytes u →
        ends u { a with status := 2, reason := n } true
      (a.status ≠ 0 → ends s a false) ∧
      (a.status = 0 → a.invalid g = true → err 4) ∧
      (a.status = 0 → a.invalid g = false → ∀ pair, reads (g.pairAt a) 16 pair →
        let first := ofLE ((pair.drop 8).take 4)
        let last := first + ofLE ((pair.drop 12).take 4)
        ∀ tr : Nat → Nat, (∀ m, first ≤ m → m < last → ∃ b, reads ((g.trans + 8 * m) % 2 ^ 64) 8 b ∧ ofLE b = tr m) →
          (∀ m m', first ≤ m → m ≤ m' → m' < last → tToken (tr m) ≤ tToken (tr m')) →
          (g.vocab ≤ tok ∨ (∀ m, first ≤ m → m < last → tToken (tr m) ≠ tok) → err 1) ∧
          ∀ m, tok < g.vocab → first ≤ m → m < last → tToken (tr m) = tok → (∀ m', first ≤ m' → m' < m → tToken (tr m') ≠ tok) →
            let e := tr m
            let push := tAct e = 1
            let sym := tAct e = 1 ∨ tAct e = 3
            let malformed : Prop := bit e 41 = true ∨ g.nstate ≤ tNext e ∨ (sym ∧ g.nsym ≤ tSym e)
            (malformed → err 5) ∧ (¬malformed → push → a.depth = 256 → err 2) ∧ (¬malformed → 2 ≤ tAct e → a.depth = 0 → err 3) ∧
            (¬malformed → ¬(push ∧ a.depth = 256) → ¬(2 ≤ tAct e ∧ a.depth = 0) →
              let n := if push then a.depth else a.depth - 1
              let b : Automaton := { a with
                state := tNext e, status := if bit e 40 then 1 else 0,
                depth := if push then a.depth + 1 else if tAct e = 2 then a.depth - 1 else a.depth,
                stack := if sym then a.stack.set n (tSym e) else a.stack }
              ∀ u v, writes s va b.headBytes u → (if sym then writes u (va + 0x10 + 2 * n) (leBytes 2 (b.stack.getD n 0)) v else v = u) →
                ends v b false))) ∧
    (∀ off d l handle draw given kill bid b w, r.op = .smpl off d [(l, handle, draw)] given kill → s.reqBlock r = some (bid, b) →
      s.wave r.wid = some w → off + 32 ≤ b.scratchSize → b.absentAt [(off, 32)] = none →
      let p := sampleBlock (scratchBytes s bid off 32)
      let scores := (p.soff + l * p.spitch, 4 * p.nv)
      let masks := (p.moff + l * p.mpitch, ceilDiv p.nv 8)
      let bits_ := (p.boff + l * p.bpitch, 4 * p.nv)
      let arrays := if given then [scores, masks, bits_] else [scores, masks]
      p.soff % 4 = 0 → p.spitch % 4 = 0 → p.boff % 4 = 0 → p.bpitch % 4 = 0 → 1 ≤ p.nv → p.nv ≤ 524288 → p.reserved = 0 →
      (∀ x ∈ arrays, x.1 + x.2 ≤ b.scratchSize) → b.absentAt arrays = none →
      let at_ (x : Nat × Nat) : Bytes := scratchBytes s bid x.1 x.2
      let legal (t : Nat) : Bool := bit ((at_ masks).getD (t / 8) 0).toNat (t % 8)
      let rand (t : Nat) : Nat := if given then ofLE (((at_ bits_).drop (4 * t)).take 4) % 2 ^ 24
        else randBits (drawKey s r.wid w).1 (BitVec.ofNat 32 w.lid) (drawKey s r.wid w).2 w.waveIdx l (BitVec.ofNat 32 draw) t
      let c := (List.range p.nv).foldl (fun (c : Option (Nat × Bool × Val) × Bool) t =>
        let x := fval .f32 (ofLE (((at_ scores).drop (4 * t)).take 4))
        let g := gumbel (rand t)
        let key : Bool × Val := if x.isInf then (true, g) else (false, fval .f32 (deliver fmtF32 .rne (addVal .rne x g)).1)
        let better : Bool := match c.1 with
          | none => true
          | some (_, f, y) => if key.1 = f then decide (cmpVal key.2 y > 0) else key.1
        if legal t = false then c else if x.isNan then (c.1, true) else if x.isInf && x.sign then c
          else if better then (some (t, key), c.2) else c) (none, false)
      let result (token status : Nat) : List RegWrite :=
        [.v d l (BitVec.ofNat 32 token), .v (d + 1) l (BitVec.ofNat 32 ((if c.2 then 2 else 0) + status))]
      (∀ t f y, c.1 = some (t, f, y) → done s (result t (if f then 4 else 0)) none) ∧
      (c.1 = none → kill = false → done s (result 0xFFFFFFFF 1) none) ∧
      (c.1 = none → kill = true → s.handleBad r.lid handle true = none →
        done (s.setWeight handle 0xFF800000) (result 0xFFFFFFFF 9) none) ∧
      ∀ n, c.1 = none → kill = true → s.handleBad r.lid handle true = some n →
        done s [] (some (faultRec 0x15 (BitVec.ofNat 64 n) (BitVec.ofNat 64 handle) (maskOf [l]))))

/-- In a PARTICLE launch PWADD adds to, PWSET replaces and PKILL makes −infinity the weights of the particles that its lanes name, lane by
lane; a NaN becomes −infinity and sets NANSEEN. A handle that names no particle of the launch raises POP, as a finished one does. RSB
retires every lane and marks the wave. POPR reads a register of the population or the particle. Elsewhere they are illegal. -/
def Obligations.ParticleWords : Prop :=
  ∀ w s e, Issues w s e →
    let h (i : Nat) : Nat := e.a .n32 i
    let norm (x : Nat) : Nat := if (fval .f32 x).isNan then 0xFF800000 else x
    let words : List (Instr × (Nat → Nat → Nat)) := [
      (.pwadd w, fun i old => (deliver fmtF32 .rne (addVal .rne (fval .f32 old) (fval .f32 (e.b .f32 i)))).1),
      (.pwset w, fun i _ => e.b .f32 i), (.pkill w, fun _ _ => 0xFF800000)]
    (e.s.isParticle e.wv.lid = true → e.killing = false →
      (∀ i op, (i, op) ∈ words → (∀ l ∈ e.lanes, e.s.handleBad e.wv.lid (h l) true = none) →
        ∃ s' t w', exec i e.s = .next s' ∧ Completes e t e.wv s' w' ∧ SameRegs e.wv w' ∧ w'.fpflags = e.wv.fpflags ∧
          w'.pending = e.wv.pending ∧ { t with particles := e.s.particles, pops := e.s.pops } = e.s ∧
          (∀ k, t.particle k = { e.s.particle k with
            w := (e.lanes.filter fun l => handleKey (h l) == k).foldl (fun x l => BitVec.ofNat 32 (norm (op l x.toNat))) (e.s.particle k).w }) ∧
          (∀ p, { t.pop p with status := (e.s.pop p).status } = e.s.pop p) ∧
          (∀ l, e.lanes = [l] → ∀ p, (t.pop p).status =
            if p = (e.s.particle (handleKey (h l))).pop ∧ (fval .f32 (op l (e.s.particle (handleKey (h l))).w.toNat)).isNan
              then (e.s.pop p).status ||| 2 else (e.s.pop p).status)) ∧
      (∀ i op l n, (i, op) ∈ words → e.lanes = [l] → e.s.handleBad e.wv.lid (h l) true = some n → e.wv.handler = none → e.wv.tvec ≠ 0 →
        FaultsWith e i 0x15 (BitVec.ofNat 64 n) (BitVec.ofNat 64 (h l)) (maskOf [l])) ∧
      (e.wv.whole = true → e.wv.spanOpen = false → e.wv.handler = none → e.s.detQuorum e.wv.lid = false →
        ∃ s' w', exec (.rsb w) e.s = .next s' ∧ s'.wave e.wid = some w' ∧ w'.rsb = true ∧ w'.frags = [] ∧
          { w' with frags := e.wv.frags, rsb := e.wv.rsb } = e.wv ∧ { s' with waves := e.s.waves } = e.s ∧
          ∀ k, k ≠ e.wid → s'.wave k = e.s.wave k) ∧
      (let x := if e.w.a = 0xE0 then e.wv.part.toNat else e.uni e.w.a.toNat .n32
       (e.s.handleBad e.wv.lid x false = none → GivesS e (.popr w) (popReg e.s x (e.f 3 0))) ∧
       (∀ n, e.s.handleBad e.wv.lid x false = some n → e.wv.handler = none → e.wv.tvec ≠ 0 →
        FaultsWith e (.popr w) 0x15 (BitVec.ofNat 64 n) (BitVec.ofNat 64 x) e.frag.mask))) ∧
    (e.s.isParticle e.wv.lid = false → e.wv.handler = none → e.wv.tvec ≠ 0 →
      ∀ i ∈ [Instr.pwadd w, .pwset w, .pkill w, .rsb w, .popr w], FaultsWith e i 0x01 (e.cl.words.getD e.cl.idx 0) 0 e.frag.mask)

/-! ### Pairs (R95 to R98, R192) -/

/-- A pair's two halves read all their sources before either writes, and each half that is no PNOP writes its own destination: vector
elements of the active lanes, or a scalar once. The values are those of the halves' single words, and each result lands by the latency
of its own single word. -/
def Obligations.PairWords : Prop :=
  let bare : Fields := { ext := none, la := 0, k := 0, kn := false, d := 0, a := 0, b := 0, c := 0, f := 0 }
  (∀ x y s e sx sy, Issues bare s e → halfShape x.op7.toNat = some sx → halfShape y.op7.toNat = some sy →
    let val (h : Half) (sh : HalfShape) (l : Nat) : Nat × FFlags := halfVal h.op7.toNat (e.src h.a.toNat sh.st l)
      (if h.op7.toNat = 0x0B ∨ h.op7.toNat = 0x0C ∨ h.op7.toNat = 0x0D then e.src h.b.toNat .n32 l else e.src h.b.toNat sh.st l)
      (e.src h.d.toNat sh.dt l)
    let work : List (Half × HalfShape) := [(x, sx), (y, sy)].filter fun p => p.2.usesA
    let flags (l : Nat) : FFlags := mergeFlags (work.map fun p => (val p.1 p.2 l).2)
    let lat (op : Nat) : Nat := if op = 0x03 then 6 else if 0x12 ≤ op ∧ op ≤ 0x1E then 5 else 4
    let reg (d : Nat) : RegId := if d < 0x80 then .v d else .s (d - 0x80)
    (sx.usesA = true → sy.usesA = true → x.d ≠ y.d) → (∀ p ∈ work, p.1.d.toNat < 0xC0) →
    (∀ l ∈ e.lanes, trappedFlags e.wv.fpctl (flags l) = 0) →
    ∃ s' w' ps, exec (.pairWord x y) e.s = .next s' ∧ Completes e e.s e.wv s' w' ∧
      w'.fpflags = fpflagsAfter e.wv.fpflags (mergeFlags (e.lanes.map flags)) ∧
      (∀ p ∈ work,
        (p.1.d.toNat < 0x80 → ∀ l, l < 1024 → w'.velem p.1.d.toNat l =
          if l ∈ e.lanes then BitVec.ofNat 32 (val p.1 p.2 l).1 else e.wv.velem p.1.d.toNat l) ∧
        (0x80 ≤ p.1.d.toNat → e.lanes ≠ [] →
          w'.selem (p.1.d.toNat - 0x80) = BitVec.ofNat 64 (place64 p.2.dt (val p.1 p.2 (e.lanes.headD 0)).1))) ∧
      (∀ n l, l < 1024 → (∀ p ∈ work, n ≠ p.1.d.toNat) → w'.velem n l = e.wv.velem n l) ∧
      (∀ n, (∀ p ∈ work, n + 0x80 ≠ p.1.d.toNat) → w'.selem n = e.wv.selem n) ∧ (∀ n, w'.kelem n = e.wv.kelem n) ∧
      w'.pending = e.wv.pending ++ ps ∧ ps.map (fun p => (p.frag, p.regs, p.due)) =
        if e.lanes = [] then [] else work.map fun p => (e.fr, [reg p.1.d.toNat], e.s.cycOf e.wid + lat p.1.op7.toNat)) ∧
  ∀ a b d, let i (x : Nat) : Int := intVal .i32 x
    Fits .i32 false (i a + i b) (halfVal 0x01 a b d).1 ∧ Fits .i32 false (i a - i b) (halfVal 0x02 a b d).1 ∧
    Fits .i32 false (i a * i b) (halfVal 0x03 a b d).1 ∧ Fits .i32 false (min (i a) (i b)) (halfVal 0x04 a b d).1 ∧
    Fits .i32 false (max (i a) (i b)) (halfVal 0x05 a b d).1 ∧ Fits .i32 true (i a + i b) (halfVal 0x1F a b d).1 ∧
    (halfVal 0x06 a b d).1 = min a b ∧ (halfVal 0x07 a b d).1 = max a b ∧ (halfVal 0x08 a b d).1 = a &&& b ∧
    (halfVal 0x09 a b d).1 = a ||| b ∧ (halfVal 0x0A a b d).1 = a ^^^ b ∧ (halfVal 0x0B a b d).1 = shlVal 32 a b ∧
    (halfVal 0x0C a b d).1 = shrVal 32 a b ∧ (halfVal 0x0D a b d).1 = sarVal 32 a b ∧ (halfVal 0x0E a b d).1 = a ∧
    (halfVal 0x0F a b d).1 = popCount 32 a ∧ (halfVal 0x10 a b d).1 = clzVal 32 a ∧ (halfVal 0x11 a b d).1 = revBits 32 a ∧
    halfVal 0x12 a b d = float2 .f32 .rne (addVal .rne) a b ∧
    halfVal 0x13 a b d = float2 .f32 .rne (fun x y => addVal .rne x (Val.neg y)) a b ∧ halfVal 0x14 a b d = float2 .f32 .rne mulVal a b ∧
    halfVal 0x15 a b d = ffmaVal .f32 .rne a b d ∧ halfVal 0x16 a b d = float2 .f32 .rne (minMaxVal false) a b ∧
    halfVal 0x17 a b d = float2 .f32 .rne (minMaxVal true) a b ∧ halfVal 0x18 a b d = cvt .f32 .i32 .rne false a ∧
    halfVal 0x19 a b d = cvt .i32 .f32 .rtz false a ∧ halfVal 0x1A a b d = float2 .f16x2 .rne (addVal .rne) a b ∧
    halfVal 0x1B a b d = float2 .f16x2 .rne mulVal a b ∧ halfVal 0x1C a b d = float2 .bf16x2 .rne (addVal .rne) a b ∧
    halfVal 0x1D a b d = float2 .bf16x2 .rne mulVal a b ∧ halfVal 0x1E a b d = ffmaVal .f16x2 .rne a b d

/-! ### Encodings and steps (R77, R81 to R84, R92 to R95, R102, R104) -/

/-- Decoding reads back what encoding writes, whatever words follow, for every instruction word that some wave may run; and every run
of words that decodes is the encoding of the instruction it decodes to. -/
def Obligations.DecodeEncodeRoundTrip : Prop :=
  (∀ i rest, WellFormed i = true → encode i ≠ [] → decode (encode i ++ rest) = .ok (i, rest)) ∧
  (∀ l i rest, decode l = .ok (i, rest) → WellFormed i = true ∧ l = encode i ++ rest) ∧
  (∀ i, WellFormed i = true → encode i ≠ [] → decodeBytes (encodeBytes i) = .ok i)

/-- Words of the spec decode to the instructions they stand for; reserved opcodes, clause headers, stray bits and cut instructions
are refused. -/
def Obligations.DecodeWords : Prop :=
  decode [0x0401C140B9F800C0] = .ok (.iadd { ext := none, la := 0, k := 3, kn := true, d := 5, a := 2, b := 0xE7, c := 0xE0, f := 0xC0 }, []) ∧
  decode [0x908000C0BFF80300, 0x40400000] =
    .ok (.fmul { ext := some 0x40400000, la := 0, k := 0, kn := false, d := 3, a := 2, b := 0xFF, c := 0xE0, f := 0x300 }, []) ∧
  decode [0x4080810194040506] =
    .ok (.pairWord { op7 := 0x01, d := 1, a := 2, b := 3 } { op7 := 0x14, d := 4, a := 5, b := 6 }, []) ∧
  decode [0x1D8000A100C158E0] =
    .ok (.atom { ext := none, la := 0, k := 0, kn := false, d := 2, a := 0x84, b := 3, c := 5, f := 0x18E0 }, []) ∧
  decode [0x0040B83838003FFD, 7] =
    .ok (.bra { ext := none, la := 0, k := 1, kn := false, d := 0xE0, a := 0xE0, b := 0xE0, c := 0, f := 0x3FFD }, [7]) ∧
  decode [0x02C0383838380000] = .error .reserved ∧ decode [0xD040000000000000] = .error .header ∧
  decode [0x0000383838380001] = .error .illegal ∧ decode [0x908000C0BFF80300] = .error .truncated

/-- A step of the part runs the instruction that the picked fragment's next words decode to, when the wave's allotment, the
clause's class and the lookahead window admit it and it reads no result that its window still lacks. A word that is refused traps
with the word in TRAPINFO. An event that the agenda names is run as it stands. Where the spec leaves its rule open, it states the
model's choice: log entries 10, 83 and 85. -/
def Obligations.StepRunsDecoded : Prop :=
  (∀ s wid fr rest w f c i tail, s.agenda = [] → s.picked = (wid, fr) :: rest → s.fragAt wid fr = some (w, f) → f.clause = some c →
    w.frozen = none → w.ending = false → decode (c.words.drop c.idx) = .ok (i, tail) → admitted w.allot i = true →
    classFits c.hdr i tail.isEmpty = true → lookahead i ≤ tail.length → hazard w fr f.mask c i ≠ .violation →
    step s = settled (exec i { s with picked := rest, cur := some (wid, fr) })) ∧
  (∀ s wid fr rest w f c e, s.agenda = [] → s.picked = (wid, fr) :: rest → s.fragAt wid fr = some (w, f) → f.clause = some c →
    w.frozen = none → w.ending = false → Issues (unpack c.word c.ext) { s with picked := rest, cur := some (wid, fr) } e → w.handler = none → w.tvec ≠ 0 →
    ∀ cause, (inspect w.allot c = .error cause ∨ ∃ i, inspect w.allot c = .ok i ∧ hazard w fr f.mask c i = .violation ∧ cause = cLA_VIOLATION) →
      ∃ t w', step s = .next { t with cur := none } ∧ Traps e e.s w t w' (faultRec cause c.word 0 f.mask) (c.wordAddr c.idx)) ∧
  (∀ i rest s, s.agenda = some i :: rest → step s = settled (exec i { s with agenda := rest }))

/-! ### Reset and memory (R124, R399, R413, R435, R449, R477, R478, R502, R540, R544, R550, R561) -/

/-- The registers that the spec gives a reset value hold it, no die has left reset, no launch is live and no wave is bound; memory
lists nothing, which is its canonical form. Where the spec leaves its rule open, it states the model's choice: log entry 1. -/
def Obligations.ResetValues : Prop :=
  let s := State.reset
  MemOk s ∧ s.waves = [] ∧ s.blocks = [] ∧ s.crews = [] ∧ s.launches = [] ∧ s.gangs = [] ∧
  (∀ d, (s.die d).inReset = true ∧ (s.die d).hartFrozen = false ∧ (s.die d).cancfg = 8 ∧ bits (s.die d).scrubper.toNat 5 0 = 37 ∧
    bits (s.die d).scrubper.toNat 13 8 = 34 ∧ (s.die d).errCorr = 0 ∧ (s.die d).errUncorr = 0 ∧ (s.die d).errLast = none) ∧
  (∀ c, (s.core c).cyc = 0 ∧ (s.core c).saveaddr = 0 ∧ (s.core c).prBusy = 0 ∧ (s.core c).prDone = 0 ∧ (s.core c).prRefused = 0) ∧
  (∀ k n, (s.region k).word n = 0 ∧ (s.pop k).word n = 0) ∧
  (∀ k, (s.pool k).valid = false ∧ (s.pool k).npages = 0 ∧ (s.pool k).vbase = 0) ∧
  (∀ k, (s.particle k).st = 0 ∧ (s.particle k).done = false ∧ (s.particle k).w = 0) ∧
  (∀ c, (s.ctx c).word0 = 0 ∧ (s.ctx c).word1 = 0 ∧ (s.ctx c).word2 = 0 ∧ (s.ctx c).word3 = 0 ∧ (s.ctx c).key = none) ∧
  (∀ c, c < 256 → s.holds 0 c = true) ∧
  (∀ c q, (s.queue c q).qbase = 0 ∧ (s.queue c q).log2n = 0 ∧ (s.queue c q).head = 0 ∧ (s.queue c q).tail = 0) ∧
  (∀ fn, (s.fn fn).hwin = 0 ∧ (s.fn fn).frozen = false) ∧
  (∀ p, (s.port p).frozen = false ∧ (s.port p).remote = 0 ∧ (s.port p).errors = 0) ∧
  s.sec.booted = false ∧ s.sec.freezes = 0

/-- Device memory and host memory keep their canonical form through every step. -/
def Obligations.StepKeepsMemoryForm : Prop := ∀ s t, MemOk s → step s = .next t → MemOk t

/-! ### Writes to the windows (R399, R413, R430 to R435, R449, R477 to R479, R500 to R502, R540, R544, R549, R550, R553, R561) -/

/-- A write to the page of a die by a master that reaches it has the effect of its register, where the register's conditions hold,
and is ignored elsewhere: CANCFG, SCRUBPER and ERRCLR; a region entry; a pool entry; a particle record; the selectors, SAVEADDR
and PEERGRANT. Where the spec leaves its rule open, it states the model's choice: log entry 63. -/
def Obligations.DieWindows : Prop :=
  ∀ m die val s, State.reaches s m die →
    let v := val.toNat
    let d := s.die die
    let host : Prop := ∃ n, m = .fn n
    Acts s (.cancfgWrite m die val)
      (fullRights m ∧ (∀ b ∈ s.blocks, b.1 / 8 / 64 ≠ die) ∧ s.retained die = [] ∧ bits v 3 0 ≤ 8 ∧ bits v 11 8 ≤ 4)
      (s.modDie die fun d => { d with cancfg := BitVec.ofNat 64 (bits v 11 8 * 2 ^ 8 + bits v 3 0) }) ∧
    (let can (x : Nat) : Nat := if 28 ≤ bits v 13 8 ∧ bits v 13 8 ≤ 40 then bits v 13 8 else bits x 13 8
     let dram (x : Nat) : Nat := if 30 ≤ bits v 5 0 ∧ bits v 5 0 ≤ 42 then bits v 5 0 else bits x 5 0
     Acts s (.scrubperWrite m die val) (fullRights m)
      (s.modDie die fun d => { d with scrubper := BitVec.ofNat 64 (can d.scrubper.toNat * 2 ^ 8 + dram d.scrubper.toNat) })) ∧
    Acts s (.errclr m die val) (fullRights m ∧ v % 2 = 1)
      (s.modDie die fun d => { d with errCorr := 0, errUncorr := 0, errLast := none }) ∧
    (let rid := 4096 * die + d.rwsel.toNat
     let r := s.region rid
     ∀ word, Acts s (.regionWindowWrite m die word val)
      (word = 0 ∧ r.armed = false ∧ s.mayWrite m (if r.valid then r.owner else bits v 63 56))
      (s.setRegion rid { r with
        owner := bits v 63 56, chome := bits v 55 50, srcHost := bit v 49, srcPeer := bit v 48, srcCopy := bit v 47,
        srcCmt := bit v 46, valid := bit v 42, pbase := bits v 38 12 * 4096, log2sz := bits v 11 7 })) ∧
    (let key := poolKey die d.pwsel.toNat
     let p := s.pool key
     let base (p : Pool) : Pool := { p with
      owner := bits v 63 56, valid := bit v 55, borrow := bit v 54, log2ps := bits v 44 40, lowat := bits v 39 32, npages := bits v 31 0 }
     Acts s (.poolWindowWrite m die 0 val) (p.valid = false ∧ s.mayWrite m (bits v 63 56) ∧ bits v 31 0 ≤ 2 ^ 30)
      (s.modPool key fun p =>
        if bit v 55 then { base p with fresh := 0, freeLocal := [], freeBorrowed := [], asking := none } else base p) ∧
     Acts s (.poolWindowWrite m die 1 val) (p.valid = false ∧ s.mayWrite m p.owner) (s.modPool key fun p => { p with vbase := val }) ∧
     ∀ word, 2 ≤ word → exec (.poolWindowWrite m die word val) s = .next s) ∧
    (let key := 65536 * die + d.ptsel.toNat
     let p := s.particle key
     let self := BitVec.ofNat 32 (die * 2 ^ 30 + bits v 31 24 * 2 ^ 22 + d.ptsel.toNat)
     ∀ done, (done = true ↔ p.done = true ∧ ¬host) →
      Acts s (.particleWindowWrite m die 0 val)
        (p.st < 2 ∧ s.mayWrite m (s.pop (if p.st = 0 ∧ p.done = false then bits v 31 24 else p.pop)).owner)
        (s.modParticle key fun p => { p with
          w := BitVec.ofNat 32 (bits v 63 32), pop := bits v 31 24, st := bits v 23 22, done := done,
          parent := if bits v 23 22 = 1 then self else p.parent }) ∧
      Acts s (.particleWindowWrite m die 1 val) (p.st < 2 ∧ s.mayWrite m (s.pop p.pop).owner)
        (s.modParticle key fun p => { p with seq := BitVec.ofNat 32 v }) ∧
      Acts s (.particleWindowWrite m die 2 val) (p.st < 2 ∧ s.mayWrite m (s.pop p.pop).owner)
        (s.modParticle key fun p => { p with gstate := val }) ∧
      ∀ word, 3 ≤ word → exec (.particleWindowWrite m die word val) s = .next s) ∧
    (let w (r : PlainReg) : Instr := .registerWrite m r val
     exec (w (.rwsel die)) s = .next (s.modDie die fun x => { x with rwsel := val.setWidth 12 }) ∧
     exec (w (.pwsel die)) s = .next (s.modDie die fun x => { x with pwsel := val.setWidth 4 }) ∧
     exec (w (.ptsel die)) s = .next (s.modDie die fun x => { x with ptsel := val.setWidth 16 }) ∧
     (∀ c, c / 64 = die → Acts s (w (.saveaddr c)) (¬host) (s.modCore c fun x => { x with saveaddr := val &&& 0xFFFFFFFFFFFFF000 })) ∧
     Acts s (w .popsel) host { s with popsel := val.setWidth 8 } ∧
     (∀ port idx, Acts s (w (.peergrant port idx)) (m = .fn 0 ∧ port < 16 ∧ idx < 4)
      (s.modPort port fun p => { p with grant := Tbl.set 0 p.grant idx val })) ∧
     exec (w .readOnly) s = .next s)

/-- A write by a host function that is served has the effect of its register, where the register's conditions hold, and is ignored
elsewhere: the population window, CTXFN and the context descriptors, the launch queues, HWIN, the apertures and PEERSTAT. Where
the spec leaves its rule open, it states the model's choice: log entries 35 and 63. -/
def Obligations.FunctionWindows : Prop :=
  ∀ fn val s, State.served s fn →
    let v := val.toNat
    (let n := s.popsel.toNat
     let p := s.pop n
     let may (owner : Nat) : Prop := s.popLive n = false ∧ (fn = 0 ∨ s.holds fn (if p.valid then p.owner else owner) = true)
     let fixed : State := s.modPop n fun p => { p with popfix := val &&& 0x80000000FFFFFFFF }
     Acts s (.populationWindowWrite fn 0 val) (may (bits v 63 56)) (s.modPop n fun p => { p with owner := bits v 63 56, valid := bit v 55 }) ∧
     (∀ word, 1 ≤ word → word ≤ 4 → Acts s (.populationWindowWrite fn word val) (may p.owner)
      (s.modPop n fun p => { p with gbase := Tbl.set 0 p.gbase (word - 1) val })) ∧
     Acts s (.populationWindowWrite fn 8 val) (may p.owner) fixed ∧ Acts s (.popfixWrite fn val) (may p.owner) fixed ∧
     ∀ word, 5 ≤ word → word ≠ 8 → exec (.populationWindowWrite fn word val) s = .next s) ∧
    (∀ ctx,
     let valid : Prop := (s.ctx ctx).word0.toNat % 2 = 1
     let mine : Prop := ctx < 256 ∧ (fn = 0 ∨ s.holder ctx = fn)
     let idle : Prop := mine ∧ s.ctxLive ctx = false
     let word0 (x : Nat) (t : State) : State := t.modCtx ctx fun c => { c with word0 := BitVec.ofNat 64 (bits v 63 12 * 4096 + x) }
     let opened : State := { (word0 1 s).modCtx ctx fun c => { c with key := some s.sec.keysDrawn } with
      sec := { s.sec with keysDrawn := s.sec.keysDrawn + 1 } }
     let closed : State := (word0 0 s).modCtx ctx fun c => { c with key := none }
     let torn : State := { closed with
      cores := Tbl.mapv (fun _ c => { c with l1 := Tbl.keep (fun k x => x.crew || k / 2 / 2 ^ 33 != ctx) c.l1 }) s.cores,
      retention := Tbl.keep (fun _ r => r.owner != ctx) s.retention }
     let third : State := (s.modCtx ctx fun c => { c with word3 := BitVec.ofNat 64 (bits v 51 44 * 2 ^ 44 + bits v 43 43 * 2 ^ 43 +
      bits c.word3.toNat 31 16 * 2 ^ 16 + bits v 15 0 % 2 ^ bits c.word1.toNat 5 0) }).flushEvents ctx
     Acts s (.ctxfnWrite fn ctx val) (fn = 0 ∧ ctx < 256 ∧ ¬valid) { s with ctxfn := Tbl.set 0 s.ctxfn ctx (val.setWidth 6) } ∧
     (valid → Acts s (.contextCreate fn ctx val) idle (word0 1 s) ∧ Acts s (.contextTeardown fn ctx val) idle torn) ∧
     (¬valid → Acts s (.contextCreate fn ctx val) idle opened ∧ Acts s (.contextTeardown fn ctx val) idle (word0 0 s)) ∧
     (v % 2 = 1 → exec (.contextDescriptorWrite fn ctx 0 val) s = exec (.contextCreate fn ctx val) s) ∧
     (v % 2 = 0 → exec (.contextDescriptorWrite fn ctx 0 val) s = exec (.contextTeardown fn ctx val) s) ∧
     Acts s (.contextDescriptorWrite fn ctx 1 val) idle (s.modCtx ctx fun c => { c with word1 := val }) ∧
     Acts s (.contextDescriptorWrite fn ctx 2 val) mine
      (s.modCtx ctx fun c => { c with word2 := BitVec.ofNat 64 (bits v 63 32 * 2 ^ 32 + bits v 27 16 * 2 ^ 16) }) ∧
     Acts s (.contextDescriptorWrite fn ctx 3 val) mine third ∧ Acts s (.evheadWrite fn ctx val) mine third ∧
     ∀ q, let x := s.queue ctx q
      let held : Prop := s.holds fn ctx = true ∧ q < 64
      Acts s (.queueConfigWrite fn ctx q .qbase val) (held ∧ x.head = x.tail)
        (s.modQueue ctx q fun x => { x with qbase := BitVec.ofNat 64 (bits v 63 8 * 256) }) ∧
      Acts s (.queueConfigWrite fn ctx q .qctl val) (held ∧ x.head = x.tail ∧ bits v 3 0 ≤ 10)
        (s.modQueue ctx q fun x => { x with
          log2n := bits v 3 0, head := x.head % 2 ^ bits v 3 0, tail := x.tail % 2 ^ bits v 3 0 }) ∧
      (s.frontRuns = true →
        let n := 2 ^ x.log2n
        let new := v % 1024 % n
        let more := (new + n - x.tail) % n
        Acts s (.qtailWrite fn ctx q val) (held ∧ (x.tail + n - x.head) % n + more < n)
          ((List.range more).foldl (fun t k => t.readSlot ctx q ((x.tail + k) % n)) (s.modQueue ctx q fun x => { x with tail := new })))) ∧
    Acts s (.hwinWrite fn val) (s.holds fn (bits v 63 56) = true)
      (s.modFn fn fun f => { f with hwin := BitVec.ofNat 64 (bits v 63 56 * 2 ^ 56 + bits v 23 23 * 2 ^ 23 + bits v 20 0) }) ∧
    (∀ idx, let e := Tbl.get s.apertures idx (0, 0)
     let open_ : Prop := fn = 0 ∧ idx < 256 ∧ ¬(bit e.1.toNat 55 = true ∧ s.ctxLive (bits e.1.toNat 63 56) = true)
     let put (e : W64 × W64) : State := { s with apertures := Tbl.set (0, 0) s.apertures idx e }
     Acts s (.apertureWrite fn idx 0 val) open_ (put (val &&& 0xFFFFE1FFFFFFFFFF, e.2)) ∧
     Acts s (.apertureWrite fn idx 1 val) open_ (put (e.1, val &&& 0xFF0001FFFFFFFFFF))) ∧
    ∀ port, port < 16 → Acts s (.peerstatWrite fn port val) (fn = 0 ∧ bit v 48 = true) (s.modPort port fun p => { p with frozen := false })

/-! ### The host link and the peer ports (R406, R525, R532, R542 to R553) -/

/-- A host function that is served reads, writes and updates device memory through its window: a read and an atomic complete with
the bytes found, a write is delivered, and what the window does not serve is aborted or dropped and counted. An access to a line
that a DET launch holds open freezes the function. A peer's request is served where the port's grant and the tables admit it; a
commit unit is one write. Answers, link changes and resets do what the rules say. Where the spec leaves its rule open, it states
the model's choice: log entries 66, 67 and 68. -/
def Obligations.LinkEvents : Prop :=
  ∀ s,
    let shown (t : State) (x : HostOut) : State := { t with hostOut := t.hostOut ++ [x] }
    let open_ (t : State) (ls : List Loc) : Prop := ∃ l ∈ ls, t.openTo none l = true
    let clean (t : State) (ls : List Loc) : Prop := ∀ l ∈ ls, t.poisoned l = false
    let ready (ls : List Loc) : Prop := s.grantOnLines noWave ls = none ∧ s.recallRoom ls = true
    (∀ fn off, State.served s fn →
      let aborted : State := shown s (.completion fn false [])
      let frozen (t : State) : State := (t.modFn fn fun f => { f with frozen := true })
      (∀ len, s.windowPlaces fn off len .read = none → exec (.hostWindowRead fn off len) s = .next aborted) ∧
      (∀ len ctx ls, s.windowPlaces fn off len .read = some (ctx, ls) →
        let met := s.meetHome ls
        let t := met.recallLocs ls
        (¬open_ met ls → clean met ls → met.recallRoom ls = true →
          exec (.hostWindowRead fn off len) s = .next (shown t (.completion fn true (ls.map (t.hostView ctx))))) ∧
        (¬open_ met ls → ¬clean met ls → exec (.hostWindowRead fn off len) s = .next (shown met (.poisoned fn))) ∧
        (open_ met ls → exec (.hostWindowRead fn off len) s =
          .next (shown ((frozen met).notice (freezeNotice 4 2 ctx fn 0)) (.completion fn false [])))) ∧
      (∀ data, s.windowPlaces fn off data.length .write = none →
        exec (.hostWindowWrite fn off data) s = .next (s.modFn fn fun f => { f with errors := f.errors + 1 })) ∧
      (∀ data ctx ls, s.windowPlaces fn off data.length .write = some (ctx, ls) → ready ls →
        (¬open_ s ls → exec (.hostWindowWrite fn off data) s = .next (s.writeOutside ctx .host (ls.zip data))) ∧
        (open_ s ls → exec (.hostWindowWrite fn off data) s = .next ((frozen s).notice (freezeNotice 4 2 ctx fn 0)))) ∧
      (∀ op wide val, let n := if wide = true then 8 else 4
        (s.windowPlaces fn off n .write = none → exec (.hostAtomic fn off op wide val) s = .next aborted) ∧
        ∀ ctx ls, s.windowPlaces fn off n .write = some (ctx, ls) →
          let at_ : Prop := off % n = 0 ∧ ∀ l ∈ ls, ∃ pa, l = .dev pa
          let met := s.meetHome ls
          let t := met.recallLocs ls
          let old := ofLE (ls.map (t.homeByte ctx))
          let new := match op with
            | .fetchAdd => (old + val.toNat) % 2 ^ (8 * n)
            | .swap => val.toNat % 2 ^ (8 * n)
          (¬at_ → exec (.hostAtomic fn off op wide val) s = .next aborted) ∧
          (at_ → ready ls → ¬open_ s ls → ¬clean met ls → exec (.hostAtomic fn off op wide val) s = .next (shown met (.poisoned fn))) ∧
          (at_ → ready ls → ¬open_ s ls → clean met ls → ∀ pa, ls.head? = some (.dev pa) →
            exec (.hostAtomic fn off op wide val) s = .next (shown
              ((t.writeDev ctx 0 none (devBytes (ls.zip (leBytes ls.length new)))).scopeHome (lineOf pa) 4 .outside)
              (.completion fn true (leBytes n old))))) ∧
      exec (.hostCasRequest fn off) s = .next (shown s (.unsupported fn))) ∧
    (∀ fn, fn < 64 → exec (.hostFunctionReset fn) s = .next (s.modFn fn fun f => { f with frozen := false })) ∧
    (∀ fn off len data op wide val, fn < 64 → (s.fn fn).frozen = true →
      exec (.hostWindowWrite fn off data) s = .next s ∧
      ∀ i ∈ [Instr.hostWindowRead fn off len, .hostAtomic fn off op wide val, .hostCasRequest fn off],
        exec i s = .next (shown s (.completion fn false []))) ∧
    (∀ port rctx, port < 16 →
      let p := s.port port
      let reply (t : State) (ok : Bool) (data : Bytes) : State := shown t (.peerReply port ok data)
      let granted : Prop := p.frozen = false ∧ rctx < 256 ∧ bit (Tbl.get p.grant (rctx / 64) 0).toNat (rctx % 64) = true
      (∀ va len data op ty val ret i, i ∈ [Instr.peerRequest port (.read rctx va len), .peerRequest port (.copyWrite rctx va data),
          .peerRequest port (.atomic rctx va op ty val ret), .peerCommitUnit port (rctx, va, 0) []] →
        (p.frozen = true → exec i s = .next (reply s false [0x08])) ∧
        (p.frozen = false → ¬granted → exec i s = .next (reply ((s.modPort port fun p => { p with frozen := true }).notice
          (freezeNotice 5 Config.grantCause.toNat 0xFF port 0)) false [0x08]))) ∧
      (granted →
        (∀ va len ls, s.tablePlaces rctx va len .read = .ok ls → ¬open_ s ls →
          let met := s.meetHome ls
          (¬clean met ls → exec (.peerRequest port (.read rctx va len)) s = .next (reply met false [0x17])) ∧
          (clean met ls → met.recallRoom ls = true → exec (.peerRequest port (.read rctx va len)) s =
            .next (reply (met.recallLocs ls) true (ls.map ((met.recallLocs ls).homeByte rctx))))) ∧
        (∀ va data ls, s.tablePlaces rctx va data.length .write = .ok ls → ¬open_ s ls → ready ls →
          exec (.peerRequest port (.copyWrite rctx va data)) s = .next (reply (s.writeOutside rctx .peer (ls.zip data)) true [])) ∧
        (∀ va op ty t val ret ls, tyOf ty = some t → s.tablePlaces rctx va (elemBytes t) .write = .ok ls →
          va % elemBytes t = 0 → (∀ l ∈ ls, ∃ pa, l = .dev pa) → ¬open_ s ls → ready ls → clean (s.meetHome ls) ls →
          let u := (s.meetHome ls).recallLocs ls
          let old := ofLE (ls.map (u.homeByte rctx))
          ∀ pa, ls.head? = some (.dev pa) → exec (.peerRequest port (.atomic rctx va op ty val ret)) s = .next (reply
            ((u.writeDev rctx 0 none (devBytes (ls.zip (leBytes ls.length (combine op t .rne old val.toNat).1)))).scopeHome
              (lineOf pa) 4 .outside) true (if ret then leBytes (elemBytes t) old else [])))) ∧
      (∀ first rest l, p.frozen = false → (∀ x ∈ first :: rest, p.grants x.1 = true) → s.unitPlaces (first :: rest) = .ok l →
        ¬open_ s (l.map (·.2.1)) → ready (l.map (·.2.1)) →
        exec (.peerCommitUnit port first rest) s = .next (reply ((dedup (l.map (·.1))).foldl (fun t c =>
          t.writeOutside c .peer ((l.filter fun y => y.1 == c).map (·.2))) s) true [])) ∧
      (∃ t, exec (.peerPortDown port) s = .next t ∧ (t.port port).up = false ∧ ∀ x ∈ t.peerOps, x ∈ s.peerOps ∧ x.port ≠ port) ∧
      (∀ serial, exec (.peerLinkUp port serial) s = .next (s.modPort port fun p => { p with up := true, remote := serial })) ∧
      exec (.peerFlitReplay port) s = .next (s.modPort port fun p => { p with errors := min (2 ^ 31 - 1) (p.errors + 1) })) ∧
    ∀ x ∈ s.peerOps, (∀ y ∈ s.peerOps, y.id = x.id → y = x) → ∀ ok data,
      let rest : State := { s with peerOps := s.peerOps.filter fun y => y.id != x.id }
      ∃ t, exec (.peerAck x.id ok data) s = .next t ∧ t.peerOps.filter (fun y => y.id == x.id) = [] ∧
        (x.kind = .read ∨ ((∃ op ty, x.kind = .atom op ty) ∧ ok = true) →
          t = rest.modFrag x.wid x.frag fun f => { f with answers := Tbl.put f.answers x.va (ok, data) }) ∧
        (x.kind = .swath ∨ x.kind = .stale ∨ ((x.kind = .unit ∨ ∃ op ty, x.kind = .red op ty) ∧ ok = true) → t = rest) ∧
        (x.kind = .unit ∨ (∃ op ty, x.kind = .red op ty ∨ x.kind = .atom op ty) → ok = false → ∀ v, s.wave x.wid = some v → v.lid = x.lid →
          ∃ v', t.wave x.wid = some v' ∧ v'.frozen = some .uncorrectable)

/-! ### Boot, contexts and scrubbers (R124, R408, R429 to R434, R453, R479, R490, R529 to R533) -/

/-- A die leaves reset with its cores' counters at zero. SECURE_BOOT runs and measures every image whose signature holds, and no
other; attestation, reload and policy need the running firmware. A scrubber reads its next line and counts what it finds. Misses
are walked, faults answered, pages invalidated, U lines sent home, and a request to borrow answered. Where the spec leaves its
rule open, it states the model's choice: log entries 21, 55, 64 and 69. -/
def Obligations.ServiceEvents : Prop :=
  (∀ die s, die < 4 → (s.die die).inReset = true → ∃ t, exec (.dieReset die) s = .next t ∧
    (t.die die) = { s.die die with inReset := false } ∧ (∀ d, d ≠ die → t.die d = s.die d) ∧
    (∀ c, t.core c = if c / 64 = die then { s.core c with cyc := 0 } else s.core c) ∧
    { t with cores := s.cores, dies := s.dies } = s) ∧
  (∀ images s, s.sec.booted = false → s.sec.running = [] → ∃ t, exec (.secureBoot images) s = .next t ∧ t.sec.booted = true ∧
    { t with sec := s.sec } = s ∧ ∀ n x, n < 6 → images[n]? = some x →
      let old := leBytes 32 (Tbl.get s.sec.meas n 0).toNat
      (n ∈ t.sec.running ↔ Config.imageSigned x.bytes x.signature = true) ∧
      (Tbl.get t.sec.meas n 0 = if Config.imageSigned x.bytes x.signature = true
        then BitVec.ofNat 256 (ofLE (sha3 (old ++ sha3 x.bytes))) else Tbl.get s.sec.meas n 0)) ∧
  (∀ s, s.sec.booted = true → 0 ∈ s.sec.running →
    (∀ nonce,
      let r := leBytes 32 nonce.toNat ++ ((List.range 8).flatMap fun n => leBytes 32 (Tbl.get s.sec.meas n 0).toNat) ++
        leBytes 16 Config.serial.toNat ++ ((List.range 8).map fun n => Tbl.get s.sec.versions n 0) ++ leBytes 8 s.sec.freezes
      exec (.attestationRequest nonce) s =
        .next { s with sec := { s.sec with reports := s.sec.reports ++ [r ++ Config.attestSign r] } }) ∧
    (∀ config,
      let m := BitVec.ofNat 256 (ofLE (sha3 (leBytes 32 (Tbl.get s.sec.meas 6 0).toNat ++ sha3 config)))
      exec (.policyConfigurationWrite config) s =
        .next { s with sec := { s.sec with policy := config, meas := Tbl.set 0 s.sec.meas 6 m } }) ∧
    ∀ die image, die < 4 → ∃ t, exec (.dispatchHartReload die image) s = .next t ∧
      (if Config.imageSigned image.bytes image.signature = true
        then 2 + die ∈ t.sec.running ∧ (t.die die).hartFrozen = false ∧ Tbl.get t.sec.versions (2 + die) 0 = image.version
        else 2 + die ∉ t.sec.running ∧ t.dies = s.dies) ∧
      ∀ n, n ≠ 2 + die → (n ∈ t.sec.running ↔ n ∈ s.sec.running)) ∧
  (∀ die unit found s, die < 4 → unit < 64 → (s.die die).inReset = false →
    let d := s.die die
    (∃ t, exec (.scrubStep die false unit found) s = .next t ∧
      let x := t.die die
      let line := lineOf (channelLine die unit (Tbl.get d.scrub unit 0))
      Tbl.get x.scrub unit 0 = (Tbl.get d.scrub unit 0 + 1) % 2 ^ 25 ∧
      x.errCorr = (if found = .corrected then min 0xFFFFFFFF (d.errCorr + 1) else d.errCorr) ∧
      x.errUncorr = (if found = .uncorrectable then min 0xFFFFFFFF (d.errUncorr + 1) else d.errUncorr) ∧
      x.errLast = (if found = .uncorrectable then some (channelLine die unit (Tbl.get d.scrub unit 0)) else d.errLast) ∧
      (∀ l, l ∈ t.poison ↔ l ∈ s.poison ∨ (found = .uncorrectable ∧ l = line)) ∧ SameMemory s t) ∧
    ∃ t, exec (.scrubStep die true unit found) s = .next t ∧
      Tbl.get (t.die die).scrub (64 + unit) 0 = (Tbl.get d.scrub (64 + unit) 0 + 1) % 2 ^ 18 ∧
      (t.die die).errCorr = (if found = .corrected then min 0xFFFFFFFF (d.errCorr + 1) else d.errCorr) ∧ SameMemory s t) ∧
  (∀ die s x rest, die < 4 → (s.die die).walks = x :: rest → ∃ t, exec (.tlbMissWalk die) s = .next t ∧
    (t.die die).walks.length ≤ rest.length ∧ x ∉ (t.die die).walks ∧ SameMemory s t ∧
    let found := (s.walkOnDie die x.ctx x.va).2
    ((s.die die).walkCache = [] → found = s.walk x.ctx x.va) ∧
    (∀ p, found = some p → x.va % 2 ^ 57 / p.size = p.vbase / p.size ∧ (t.die die).faults = (s.die die).faults) ∧
    (found = none → ∃ who, (t.die die).faults = (s.die die).faults ++
      [{ ctx := x.ctx, va := x.va, need := x.need, who := who }] ∧ .frag x.wid x.frag ∈ who)) ∧
  (∀ die idx s x retry, die < 4 → (s.die die).faults[idx]? = some x → s.hartRuns die = true →
    let t := s.modDie die fun d => { d with faults := d.faults.eraseIdx idx }
    (x.who = [] → exec (.faultAnswer die idx retry) s = .next t) ∧
    (∀ core id, x.who = [.copy core id] → exec (.faultAnswer die idx true) s = .next (t.modCopy core id fun c => { c with bad := none })) ∧
    (∀ wid fr, x.who = [.frag wid fr] → (t.die (dieOfCore (coreOfWave wid))).waitsFor wid fr = false →
      exec (.faultAnswer die idx retry) s = .next (t.modFrag wid fr fun f =>
        if f.wait = some .walk then
          { f with wait := none, failed := if retry then f.failed else f.failed ++ [x.va % 2 ^ 57 / 2 ^ 16] }
        else f))) ∧
  (∀ ctx lo hi s,
    let hit (k : Nat) (p : Page) : Bool := decide (k / 2 ^ 41 = ctx ∧ p.vbase ≤ hi % 2 ^ 57 ∧ lo % 2 ^ 57 < p.vbase + p.size)
    let hitWalk (k : Nat) : Bool := decide (k / 2 ^ 41 = ctx ∧ k / 8 % 2 ^ 38 ≤ hi % 2 ^ 57 / 2 ^ (9 * (k % 8) + 12) ∧
      lo % 2 ^ 57 / 2 ^ (9 * (k % 8) + 12) ≤ k / 8 % 2 ^ 38)
    let cores := Tbl.mapv (fun _ c => { c with tlb := Tbl.keep (fun k p => !hit k p) c.tlb }) s.cores
    let dies := Tbl.mapv (fun _ d => { d with walkCache := Tbl.keep (fun k _ => !hitWalk k) d.walkCache }) s.dies
    exec (.invalidation ctx lo hi) s = .next ((s.ctxs.map (·.1)).foldl State.flushEvents { s with cores := cores, dies := dies })) ∧
  (∀ core line s u, core < 256 → Tbl.find (s.core core).u line = some u →
    let sb := sbOf (devLineKey u.ctx line)
    let lines := (s.core core).uOf sb
    s.roomFor_ (s.uKeys lines) = true →
    let sent := lines.foldl (fun t n => match Tbl.find (t.core core).u n with
      | none => t
      | some v => (v.elems.foldl (fun t p => combineHome t v (64 * n + p.1) p.2) t).modCore core fun c => { c with u := Tbl.del c.u n }) s
    exec (.uLineEvict core line) s = .next (sent.modCore core fun c => { c with l1 := Tbl.keep (fun k _ => sbOf k != sb) c.l1 })) ∧
  ∀ die p d rest s, die < 4 → p < 16 → (s.pool (poolKey die p)).asking = some (d :: rest) →
    let mine := s.pool (poolKey die p)
    let other := s.pool (poolKey d p)
    let lends : Prop := other.valid = true ∧ other.borrow = true ∧ other.owner = mine.owner ∧ other.log2ps = mine.log2ps ∧
      other.lowat + 64 ≤ other.freePages
    (lends → let got := Pool.take d 64 other []
      exec (.borrowGrant die p) s = .next { ((s.modPool (poolKey d p) fun _ => got.2).modPool (poolKey die p) fun k =>
          { k with asking := none, freeBorrowed := k.freeBorrowed ++ got.1 }) with
        batches := s.batches ++ [{ lender := d, borrower := die, pool := p, left := got.1 }] }) ∧
    (¬lends → exec (.borrowGrant die p) s = .next (s.modPool (poolKey die p) fun k =>
      { k with asking := if rest.isEmpty = true then none else some rest }))

/-! ### The launch front, binding, pre-emption, kills and rounds (R483 to R496, R505 to R513, R528) -/

/-- The launch that ranks first starts under the lowest free LAUNCHID; its crews are offered, returned ones first; its records are
bound or refused; a complete gang starts its role waves; a launch whose blocks have all ended completes. A pre-emption is refused
or taken, and a crew at rest is saved. A killed launch has no wave that runs. A round opens over the ready particles, takes
arrivals, and is resampled at the last it waits for: each weight's mass (its floor is stated where the power of two is an integer), the
offspring counts, which sum to N, extinction, the weights and fields that follow, and the clones. Where the spec leaves its rule open, it states the model's choice: log entries 35, 38, 56, 57, 58, 59 and 61. -/
def Obligations.LaunchEvents : Prop :=
  (∀ s sk x prio at_, s.frontRuns = true → Tbl.find s.slots sk = some x → x.waits = some (prio, at_) →
    (∀ k y p n, (k, y) ∈ s.slots → (k, y) ≠ (sk, x) → y.waits = some (p, n) → p < prio ∨ (p = prio ∧ at_ < n)) →
    let lid := s.freeLid
    ∃ t l, exec (.launchStart sk) s = .next t ∧ (∀ i, 1 ≤ i → i < lid → (s.launch i).isSome = true) ∧ t.launch lid = some l ∧
      l.sk = sk ∧ l.ctx = ctxOfSlot sk ∧ l.words = x.words ∧ l.offered = 0 ∧ l.killReq = none ∧
      Tbl.find t.slots sk = some { x with lid := some lid } ∧ (∀ k, k ≠ lid → t.launch k = s.launch k) ∧ t.waves = s.waves) ∧
  (∀ s lid die l, die < 4 → s.launch lid = some l → (flagOf l.words 44 = true ∨ recField l.words 0x18 43 42 = die) →
    (s.die die).hartFrozen = false → s.frontRuns = true → l.killReq = none →
    let claim (crew : Nat) (f : Launch → Launch) : State := s.modLaunch lid fun l => f { l with crewDie := Tbl.put l.crewDie crew die }
    (l.round = none →
      (∀ c rest, l.returned = c :: rest → exec (.crewOffer lid die) s = .next (claim c fun l => { l with returned := rest })) ∧
      (l.returned = [] → l.offered < l.nblocks / crewSizeOf l.words →
        exec (.crewOffer lid die) s = .next (claim l.offered fun l => { l with offered := l.offered + 1 }))) ∧
    ∀ r h rest pre, l.round = some r → l.returned ++ r.unbound.map (·.handle) = pre ++ h :: rest → bits h 31 30 = die →
      Tbl.find l.crewDie h = none → (∀ x ∈ pre, bits x 31 30 ≠ die ∨ Tbl.mem l.crewDie x = true) →
      exec (.crewOffer lid die) s = .next (claim h fun l => { l with returned := l.returned.erase h })) ∧
  (∀ s core w0 w1 w2 w3, core < 256 → s.hartRuns (core / 64) = true →
    let r : BindRec := { core := core, w0 := w0, w1 := w1, w2 := w2, w3 := w3 }
    (s.refusal r = none → ∃ t, exec (.slotwr core w0 w1 w2 w3) s = .next t ∧ (t.core core).slotRefused = false ∧
      (∃ g ∈ t.gangs, g.core = core ∧ g.bslot = r.bslot ∧ g.glast = r.glast ∧ r ∈ g.recs) ∧
      { t with gangs := s.gangs, cores := s.cores } = s) ∧
    (∀ cause, s.refusal r = some cause → ∃ t, exec (.slotwr core w0 w1 w2 w3) s = .next t ∧ (t.core core).slotRefused = true ∧
      (t.die (core / 64)).hartFrozen = true ∧ t.waves = s.waves ∧ t.blocks = s.blocks ∧
      t.sec.mailbox = s.sec.mailbox ++ [freezeNotice 3 cause 0xFF (core / 64 * 2 ^ 14) 0] ∧
      ∀ g ∈ t.gangs, g ∈ s.gangs ∧ ¬(g.core = core ∧ g.lid = r.lid ∧ g.blocklin = r.blocklin ∧ g.shadow = r.shadow) ∧
        (s.isTwin r.lid = true → ¬(g.lid = r.lid ∧ g.blocklin = r.blocklin)))) ∧
  (∀ s lid crew l g0 gs, s.launch lid = some l → s.gangs.filter (fun g => g.lid == lid && s.gangCrew g == crew && g.glast) = g0 :: gs →
    s.gangReady lid crew l (g0 :: gs) g0.core = true → g0.resume = false → flagOf l.words 46 = false →
    (∀ g ∈ g0 :: gs, s.lendRoom g.core (waysOn (g0 :: gs) (waysOf l.words) g.core) = true) →
    ∃ t, exec (.gangStart lid crew) s = .next t ∧ (∀ g ∈ g0 :: gs, g ∉ t.gangs) ∧ (t.crew (crewKey lid crew)).isSome = true ∧
      (∀ g ∈ g0 :: gs, ∃ b, t.block (blockKey g.core g.bslot) = some b ∧ b.lid = lid ∧ b.crew = crew ∧ b.scratch = [] ∧ b.buf = []) ∧
      (∀ g ∈ g0 :: gs, ∀ r ∈ g.recs, r.role ≠ 4 → ∃ g' ∈ g0 :: gs, ∃ r' ∈ g'.recs,
        t.wave (32 * g.core + r.slot) = some (g'.wave l crew r') ∧ 32 * g'.core + r'.slot = 32 * g.core + r.slot) ∧
      ((∀ p ∈ s.cores, p.2.u = []) → t.mem = s.mem) ∧ t.hostMem = s.hostMem) ∧
  (∀ s lid l, s.launch lid = some l → s.blocksDone lid l = true → s.carriesDone lid = true → l.killReq = none →
    ∃ t, exec (.launchComplete lid) s = .next t ∧ t.launch lid = none ∧ Tbl.find t.slots l.sk = none) ∧
  (∀ s core val, core < 256 → s.hartRuns (core / 64) = true →
    let b := bits val.toNat 2 0
    let m := 1#8 <<< b
    let cleared (x : Core) : Core := { x with prDone := x.prDone &&& ~~~m, prRefused := x.prRefused &&& ~~~m }
    let refused : State := (s.modCore core cleared).modCore core fun x => { x with prRefused := x.prRefused ||| m }
    let area := bits (s.core core).saveaddr.toNat 63 12 * 4096
    (bit val.toNat 3 = false ∨ (s.core core).prBusy.getLsbD b = true → exec (.preempt core val) s = .next s) ∧
    (bit val.toNat 3 = true → (s.core core).prBusy.getLsbD b = false →
      (s.inSlot core b = none → exec (.preempt core val) s = .next refused) ∧
      ∀ lid crew ctx, s.inSlot core b = some (lid, crew, ctx) →
        (s.areaOk ctx area (saveUnitsOf lid crew) = false → exec (.preempt core val) s = .next refused) ∧
        (s.areaOk ctx area (saveUnitsOf lid crew) = true → ∃ t, exec (.preempt core val) s = .next t ∧
          (t.core core).prBusy.getLsbD b = true ∧ (∀ k u, t.block k = some u → u.lid = lid → u.crew = crew → u.stopping = true) ∧
          t.waves = s.waves))) ∧
  (∀ s lid crew c, s.crew (crewKey lid crew) = some c → s.crewAtRest lid crew = true →
    (∀ p ∈ s.waves, p.2.lid = lid → p.2.crew = crew → p.2.holdsAny = false) →
    s.saveWaits lid crew c = false →
    ∃ t, exec (.preemptSaveComplete lid crew) s = .next t ∧ t.crew (crewKey lid crew) = none ∧
      (Tbl.find t.saves (crewKey lid crew)).isSome = true ∧
      (∀ p ∈ t.waves, ¬(p.2.lid = lid ∧ p.2.crew = crew)) ∧ (∀ p ∈ t.blocks, ¬(p.2.lid = lid ∧ p.2.crew = crew)) ∧
      ∀ l, s.launch lid = some l → ∃ l', t.launch lid = some l' ∧ (∀ x, x ∈ l'.returned ↔ x ∈ l.returned ∨ x = crew) ∧
        l'.returned.Pairwise (· ≤ ·)) ∧
  (∀ s sk x, Tbl.find s.slots sk = some x →
    (x.lid = none → exec (.launchKill sk) s = .next ((s.postEvent (ctxOfSlot sk) (launchEvent 4 sk 0 0) 0).failSlot sk)) ∧
    ∀ lid l, x.lid = some lid → s.launch lid = some l → (s.killWaits lid = false ∨ l.killReq = none) →
      ∃ t, exec (.launchKill sk) s = .next t ∧
        (s.killWaits lid = false → ∀ p ∈ t.waves, p.2.lid ≠ lid) ∧
        (s.killWaits lid = true → (∀ p ∈ t.waves, p.2.lid = lid → p.2.frozen.isSome = true) ∧
          ∃ l', t.launch lid = some l' ∧ l'.killReq = some 0)) ∧
  (∀ s lid l r, s.launch lid = some l → l.round = some r → r.toOpen = true → l.killReq = none →
    (s.isDet lid = true → s.carriesDone lid = true) →
    let keys := s.readyParticles l.words r.pop
    ∃ t l', exec (.roundOpen lid) s = .next t ∧ t.launch lid = some l' ∧ l'.nblocks = keys.length ∧ l'.ended = [] ∧
      (∀ i k, keys[i]? = some k → (∀ j, i < j → keys[j]? ≠ some k) → t.particle k = { s.particle k with st := 2, index := i }) ∧
      (∀ k, k ∉ keys → t.particle k = s.particle k) ∧
      t.pop r.pop = { s.pop r.pop with count := keys.length + r.members.length, arrived := 0, strag := r.members.length }) ∧
  (∀ s lid l r h pre rest, s.launch lid = some l → l.round = some r → r.isOpen = true → r.sent ++ r.today = pre ++ h :: rest →
    s.carried lid h = true → (∀ x ∈ pre, s.carried lid x = false) → s.roundsOver r = false →
    ∃ t l' r', t.launch lid = some l' ∧ l'.round = some r' ∧ r'.arrived = r.arrived ++ [h] ∧
      r'.sent = r.sent.erase h ∧ r'.today = r.today.erase h ∧ t.pop r.pop = { s.pop r.pop with arrived := (s.pop r.pop).arrived + 1 } ∧
      t.particles = s.particles ∧
      let k := if r.quorum then min r.q (s.pop r.pop).count else (s.pop r.pop).count
      (r.arrived.length + 1 < k → exec (.particleArrival lid) s = .next t) ∧
      (k ≤ r.arrived.length + 1 → r.extinct = false → exec (.particleArrival lid) s = .next (t.resample lid l' r'))) ∧
  (∀ (m w : Nat),
    massOf 0x7F800000 w = (if w = 0x7F800000 then 2 ^ 40 else 0) ∧ massOf 0xFF800000 w = 0 ∧
    (m ≠ 0x7F800000 → m ≠ 0xFF800000 →
      let d := fval .f32 (deliver fmtF32 .rne (addVal .rne (fval .f32 w) (fval .f32 m).neg)).1
      (d.isFin = false → massOf m w = 0) ∧
      ∀ s n e, d = .num s n 1 e →
        (n = 0 → massOf m w = 2 ^ 40) ∧
        (n ≠ 0 → 40 * 2 ^ (-e).toNat < n * 2 ^ e.toNat → massOf m w = 0) ∧
        ∀ j, e < 0 → n = j * 2 ^ (-e).toNat → 0 < j → j ≤ 40 → massOf m w = 2 ^ (40 - j))) ∧
  (∀ (n t u : Nat) (masses : List Nat), t = masses.sum → 0 < t → u < 2 ^ 32 →
    let F (c : Nat) : Nat := (n * c * 2 ^ 32 + u * t) / (t * 2 ^ 32)
    let counts := offspring n t u 0 masses
    counts.length = masses.length ∧ counts.sum = n ∧
    ∀ i, i < masses.length → counts.getD i 0 = F (masses.take (i + 1)).sum - F (masses.take i).sum) ∧
  (∀ (s : State) (lid : Nat) (l : Launch) (r : RoundState) (keys : List Nat) (m : Nat),
    s.launch lid = some l → l.round = some r → keys.Pairwise (· < ·) → (∀ k, k ∈ keys ↔ k ∈ r.arrived.map handleKey) →
    let nan (k : Nat) : Bool := (fval .f32 (s.particle k).w.toNat).isNan
    let ws := keys.map fun k => if nan k then 0xFF800000 else (s.particle k).w.toNat
    m ∈ 0xFF800000 :: ws → (∀ x ∈ 0xFF800000 :: ws, weightRank x ≤ weightRank m) →
    let masses := ws.map (massOf m)
    let t := masses.sum
    let n := keys.length
    let p := s.pop r.pop
    let seen := if keys.any nan then p.status ||| 2 else p.status
    (t = 0 →
      (s.resample lid l r).pop r.pop = { p with
        status := seen ||| 1, round := p.round + 1, maxw := BitVec.ofNat 32 m, meanw := 0xFF800000, ess := 0,
        count := r.members.length, arrived := 0, strag := r.members.length } ∧
      (s.resample lid l r).round lid = some { r with extinct := true, arrived := [] } ∧
      ∀ k, (s.resample lid l r).particle k = if k ∈ keys then { s.particle k with st := 0, done := false } else s.particle k) ∧
    (t ≠ 0 →
      let u := if bit p.popfix.toNat 63 then p.popfix.toNat % 2 ^ 32
        else (thresh (BitVec.ofNat 64 (recWord l.words 0x10)) 0xFFFFFFFF (BitVec.ofNat 32 r.pop) (BitVec.ofNat 32 p.round) 0).1.toNat
      let counts := offspring n t u 0 masses
      let ratio := (log2Round fmtF32 .rne t (n * 2 ^ 40) 0).1
      let mean : W32 := if m = 0x7F800000 then 0
        else BitVec.ofNat 32 (deliver fmtF32 .rne (addVal .rne (fval .f32 m) (fval .f32 ratio))).1
      let ess := (roundNum fmtF32 .rne false false (t * t) (masses.map fun x => x * x).sum 0).1
      ∃ v : State, s.resample lid l r = v.secondPass lid ((keys.zip counts).flatMap fun x =>
          List.replicate (x.2 - 1) { parent := x.1, waiting := false, failed := false }) ∧
        v.launches = s.launches ∧
        v.pop r.pop = { p with
          status := seen ||| (if m = 0x7F800000 then 4 else 0), round := p.round + 1, maxw := BitVec.ofNat 32 m, meanw := mean,
          ess := BitVec.ofNat 32 ess, popfix := p.popfix &&& 0x7FFFFFFFFFFFFFFF } ∧
        (∀ x ∈ keys.zip counts, v.particle x.1 = if x.2 = 0 then { s.particle x.1 with st := 0, done := false }
          else { s.particle x.1 with w := mean, st := 1 }) ∧
        ∀ k, k ∉ keys → v.particle k = s.particle k)) ∧
  (∀ (v : State) (lid : Nat) (l : Launch) (r : RoundState), v.launch lid = some l → l.round = some r →
    (v.secondPass lid []).round lid = some { r with clones := [], toOpen := true } ∧ (v.secondPass lid []).particles = v.particles) ∧
  (∀ (s : State) (lid : Nat) (l : Launch) (pop : Nat) (j : CloneJob) (i : Nat),
    let die := j.parent / 65536
    let key := 65536 * die + i
    let par := s.particle j.parent
    i < 65536 → (s.particle key).free = true → (∀ k, k < i → (s.particle (65536 * die + k)).free = false) → i ≤ s.particles.length →
    (Tbl.get (s.pop pop).gbase die 0 = 0 ∨ par.gstate = 0 ∨ j.failed = true) → s.liveSeq l.ctx par.seq.toNat = none →
    s.tryClone lid l pop j = .made (s.modParticle key fun _ =>
      { w := (s.pop pop).meanw, pop := pop, st := 1, done := false, parent := BitVec.ofNat 32 (particleHandle pop j.parent),
        seq := 0xFFFFFFFF, gstate := 0, index := 0 })) ∧
  ∀ s lid r, s.round lid = some r → (∃ j ∈ r.clones, j.waiting = false) →
    exec (.cloneRetry lid) s = .next (s.secondPass lid r.clones)

/-! ### Fragments and waves (R100 to R103, R127 to R134, R143, R201, R203, R226, R422) -/

/-- A core's cycle counts, picks and ages. Every ready fragment may be picked; between two that hold no issue lane the older of
256 cycles or more, then the higher priority, then the greater age, then the lower slot and record is picked first; one that holds
a lane is picked; one of age 256 or more is left out only for two others; of two picks that conflict the older issues. What issues
has age 0 and a lane; what was ready and does not issue ages. A fragment at a header whose waits are over begins its clause,
and traps where the header is illegal; held lanes take a free record; a divided branch completes; results land; an abort redirects
its wave; a timer wakes its fragment; a wave that is drained ends. Where the spec leaves its rule open, it states the model's
choice: log entries 6, 16, 18, 20 and 37. -/
def Obligations.FragmentEvents : Prop :=
  (∀ core s, core < 256 → (s.die (core / 64)).inReset = false →
    let a := s.modCore core fun c => { c with cyc := c.cyc + 1 }
    let l := a.readies core
    let picks := picksOf (a.laneHolders core) l
    let go := a.issuing core l
    let first (x y : Cand) : Prop := (256 ≤ x.age ∧ y.age < 256) ∨ ((256 ≤ x.age ↔ 256 ≤ y.age) ∧
      ((x.age < 256 ∧ y.prio < x.prio) ∨ ((256 ≤ x.age ∨ x.prio = y.prio) ∧
        (y.age < x.age ∨ (x.age = y.age ∧ (x.wid < y.wid ∨ (x.wid = y.wid ∧ x.fr < y.fr)))))))
    (∃ t p, exec (.issueCycle core) s = .next t ∧
      (t.core core).cyc = (s.core core).cyc + 1 ∧ (∀ c, c ≠ core → t.core c = s.core c) ∧ t.picked = s.picked ++ p ∧ p.length ≤ 2 ∧
      t.mem = s.mem ∧ t.hostMem = s.hostMem ∧
      (∀ k u, s.wave k = some u → ∃ u', t.wave k = some u' ∧ { u' with frags := u.frags, tok := u.tok, fading := u.fading } = u ∧
        u'.tok = if coreOfWave k = core then u.tok &&& ~~~u.fading else u.tok) ∧
      ∀ k fr u f c, s.wave k = some u → Tbl.find u.frags fr = some f → f.clause = some c → ∃ u' f' c', t.wave k = some u' ∧
        Tbl.find u'.frags fr = some f' ∧ f'.clause = some c' ∧
        ((∃ x ∈ go, x.wid = k ∧ x.fr = fr) → f'.age = 0 ∧ f'.wait = none ∧ c'.lane = true) ∧
        ((∀ x ∈ go, ¬(x.wid = k ∧ x.fr = fr)) →
          f'.age = f.age + (l.filter fun x => !go.contains x && decide ((x.wid, x.fr) = (k, fr))).length)) ∧
    (∀ x, x ∈ l ↔ ∃ w f, (x.wid, w) ∈ a.waves ∧ (x.fr, f) ∈ w.frags ∧ coreOfWave x.wid = core ∧ a.ready x.wid x.fr w f = true ∧
      x.age = f.age ∧ x.prio = w.prio ∧ x.holds = f.holdsLane) ∧
    (∀ x ∈ picks, ∀ y ∈ l, x.holds = false → y.holds = false → first y x → y ∈ picks) ∧
    (a.laneHolders core ≤ 2 → ∀ x ∈ l, (x.holds = true → x ∈ picks) ∧ (256 ≤ x.age → x ∉ picks → picks.length = 2)) ∧
    (∀ x ∈ go, x ∈ picks) ∧
    ∀ x ∈ picks, x ∉ go → ∃ y ∈ go, (a.conflict x y || a.conflict y x) = true ∧
      (x.age < y.age ∨ (x.age = y.age ∧ (y.wid < x.wid ∨ (y.wid = x.wid ∧ y.fr ≤ x.fr))))) ∧
  (∀ wid fr s w f, coreOfWave wid < 256 → s.fragAt wid fr = some (w, f) →
    let runs (code : Nat) : Prop := w.runs fr = true ∧ s.twinTurn wid w code = true
    (f.clause = none → f.parked = none → f.diverge = none → f.free s wid w = true → runs (300 + fr) →
      (w.aborting = none ∨ w.handler.isSome = true) → s.heldAtBoundary wid w = false →
      (∀ p ∈ w.pending, p.frag = fr → p.mayTrap = false) →
      (f.pc.toNat % 8 ≠ 0 → exec (.clauseStart wid fr) s = .next
        (((s.modFrag wid fr fun f => { f with wait := none, failed := [] }).takeTrap wid fr (faultRec 0x03 0 0 f.mask) f.pc f.pc
          none true).twinStep wid w (300 + fr))) ∧ (f.pc.toNat % 8 = 0 →
      (∀ hdr, fetchWords s wid w f.failed f.pc.toNat 1 = .words [hdr] → formOf hdr ≠ 3 → exec (.clauseStart wid fr) s = .next
        (((s.modFrag wid fr fun f => { f with wait := none, failed := [] }).takeTrap wid fr (faultRec 0x03 hdr 0 f.mask) f.pc f.pc
          none true).twinStep wid w (300 + fr))) ∧
      ∀ hdr body, fetchWords s wid w f.failed f.pc.toNat 1 = .words [hdr] → formOf hdr = 3 →
        fetchWords s wid w f.failed f.pc.toNat (1 + (headerOf hdr).count) = .words (hdr :: body) → headerBad hdr body = false →
        ((headerOf hdr).rcv = true → (headerOf hdr).rtok ∉ f.stack) → (headerOf hdr).yp ≠ 2 → (headerOf hdr).tw &&& w.tok = 0 →
        ((headerOf hdr).wl = true → ∀ p ∈ w.pending, p.load = false) → (∀ p ∈ w.heldFaults, (headerOf hdr).tw.getLsbD p.1 = false) →
        exec (.clauseStart wid fr) s = .next ((s.modWave wid fun w => { w with
          frags := Tbl.put w.frags fr { f with
            clause := some { addr := f.pc, hdr := hdr, words := body, idx := 0, passes := 0 }, wait := none, failed := [],
            yieldedAt := none },
          pending := w.pending.map fun p => if p.frag = fr then { p with winEnd := 0 } else p }).twinStep wid w (300 + fr)))) ∧
    (∀ h r, f.held = some h → f.parked.isSome = true → w.freeRecord = some r → s.twinTurn wid w (500 + fr) = true →
      let alone := { Frag.start h.mask h.pc h.stack with parked := h.stack.head? }
      exec (.heldLanesDetach wid fr) s = .next ((s.modWave wid fun _ => ({ w with
        frags := Tbl.put (Tbl.put w.frags fr { f with held := none }) r alone }).merge).twinStep wid w (500 + fr))) ∧
    (∀ d c r, f.diverge = some d → f.clause = some c → w.freeRecord = some r → runs (400 + fr) →
      let few := laneCount d.taken.mask < laneCount d.fall.mask
      let minor := if few then d.taken else d.fall
      let major := if few then d.fall else d.taken
      let stack := pushToken f.stack d.token
      let stay := { f.goTo major.pc with mask := major.mask, stack := stack, wait := yieldWait c.hdr }
      exec (.divergeRetry wid fr) s = .next ((s.modWave wid fun _ => { w with
        frags := Tbl.put (Tbl.put w.frags fr stay) r (Frag.start minor.mask minor.pc stack) }).twinStep wid w (400 + fr))) ∧
    (∀ n, f.wait = some (.sleep n) → n ≤ s.cycOf wid + 1 →
      exec (.sleepExpire wid fr) s = .next (s.modFrag wid fr fun f => { f with wait := none })) ∧
    ∀ rid p n, f.wait = some (.region rid p (some n)) → n ≤ s.cycOf wid + 1 → (s.region rid).completes = false →
      exec (.awaitLimitExpire wid fr) s = .next (s.modFrag wid fr fun f =>
        { f with wait := none, awaitAns := some (BitVec.ofNat 64 ((s.region rid).phase * 2 ^ 48 + 1)) })) ∧
  (∀ wid s w, coreOfWave wid < 256 → s.wave wid = some w →
    (∀ i p, w.pending[i]? = some p → p.due ≤ s.cycOf wid + 1 →
      (∀ id, p.req = some id → (∀ r ∈ s.reqs, r.id ≠ id) ∧ (∀ r ∈ s.peerOps, r.grp ≠ id) ∧ ∀ o ∈ w.arrayQ, o.gives id = false) →
      let landed := s.modWave wid fun w => { w with pending := w.pending.eraseIdx i }
      (p.trap = none → exec (.resultLand wid i) s = .next landed) ∧
      ∀ t, p.trap = some t → t.fault = false → w.frozen = none → s.twinTurn wid w 100 = true → (∀ h ∈ w.heldTraps, h.frag ≠ p.frag) →
        exec (.resultLand wid i) s = .next ((landed.takeTrapHere wid p.frag t).twinStep wid w 100)) ∧
    (∀ l cause k, w.aborting = some (l, cause) → w.handler = none → w.frozen = none → s.twinned w = false →
      (∀ p ∈ w.pending, p.req = none) → (∀ p ∈ w.frags, p.2.clause = none) → k ≤ l → (w.span k).isOpen = true →
      (∀ m, k < m → m ≤ l → (w.span m).isOpen = false) →
      ∃ t w', exec (.abortRedirect wid) s = .next t ∧ t.wave wid = some w' ∧ SameRegs w w' ∧
        w'.frags = [(0, Frag.start (w.span k).mask (w.span k).target (w.span k).stack)] ∧
        w'.xcause = BitVec.ofNat 64 (256 + 16 * l + cause) ∧ w'.wsb = [] ∧ w'.readLog = [] ∧ w'.aborting = none ∧
        (∀ m, 1 ≤ m → m ≤ l → (w'.span m).isOpen = false) ∧ ∀ m, l < m → w'.span m = w.span m) ∧
    (s.drained wid w = true → s.twinned w = false → s.grantOfOther wid w 1 = none →
      ∀ t, s.endMoves wid w (s.endLevel wid w) = .go t → ∃ u, exec (.waveEnd wid) s = .next u ∧ u.wave wid = none ∧
        ∀ k, k ≠ wid → u.wave k = t.wave k))

/-! ### Copies, matrix passes, engines, swaths, TWIN, regions and DET groups (R272 to R281, R354, R386 to R389, R416, R444, R456, R522) -/

/-- The units finish what they have been given: copies are written and clear their tokens, or report the first piece that faults;
lazy windows become present; collectors close and their passes start; engine requests leave their engine with their results;
swaths take contributions and form results; TWIN sides are compared; a region's phase completes; a DET group is applied. Where the
spec leaves its rule open, it states the model's choice: log entries 41, 42, 45, 49, 76 and 78. -/
def Obligations.UnitEvents : Prop :=
  (∀ core id s c w, core < 256 → s.copyAt core id = some c → s.wave c.wid = some w →
    let reads := s.todoLocs w.ctx c
    let met := s.meetHome reads
    let shut (t : State) : Prop := ∃ l ∈ reads, t.openTo (some c.lid) l = true
    let foul (t : State) : Prop := ∃ l ∈ reads, t.poisoned l = true
    (w.frozen ≠ some .intrusion →
      (shut met → exec (.copyComplete core id) s = .next (met.intrude c.wid)) ∧
      (¬shut met → foul met → exec (.copyComplete core id) s = .next ((met.uncorrectable c.wid).dropCopy core c none)) ∧
      (¬shut met → ¬foul met → met.recallRoom reads = true → ∀ a d, met.readTodo w.ctx c = (a, d) →
        let u := a.modCopy core id fun _ => d
        let locs := u.copyLocs w.ctx d.writes
        d.bad = none → d.todo = [] → u.copyBad w.ctx d = none → u.sendCopyPieces core w.ctx d = none → d.unacked = 0 →
        s.twinned w = false → u.grantOnLines c.wid (locs.map (·.1)) = none → (∀ l ∈ locs, u.openTo (some c.lid) l.1 = false) →
        u.replayRoom c.lid ((devBytes locs).map (·.1)) = true →
          let v := (u.writeCopy d w d.writes).countBox w.ctx d.extra
          let laid := d.writes.filterMap fun p => (v.copyPlace d p.1).map fun x => (x, p.2)
          ∃ t w', exec (.copyComplete core id) s = .next t ∧ t.copyAt core id = none ∧ t.wave c.wid = some w' ∧
            w'.tokSet c.tok = false ∧ SameRegs w w' ∧
            (∀ b, s.block (w.bid c.wid) = some b → ∃ b', t.block (w.bid c.wid) = some b' ∧
              b'.scratch = (b.putCopy d.writes).scratch ∧ b'.obuf = (b.putCopy d.writes).obuf ∧ b'.stand = (b.putCopy d.writes).stand) ∧
            ∀ x ∈ ((v.core core).copies.takeWhile fun x => x.id != id), ∃ x' ∈ (t.core core).copies, x'.id = x.id ∧
              x'.writes = x.writes.map fun p =>
                (p.1, (((v.copyPlace x p.1).bind fun y => (laid.find? fun q => q.1 == y).map (·.2)).getD p.2)))) ∧
    ∀ a d, (if (reads.any fun l => s.openTo (some c.lid) l || s.poisoned l) || !s.recallRoom reads then (s, c)
        else s.readTodo w.ctx c) = (a, d) → d.bad = none →
      ∀ cause va wr, a.copyBad w.ctx d = some (cause, va, wr) →
        let h : HeldFault := { cause := cause, info := BitVec.ofNat 64 (ofBool wr), addr := BitVec.ofNat 64 va }
        exec (.copyPieceFault core id) s = .next ((a.modCopy core id fun _ => { d with bad := some (h, true) }).postFault (core / 64)
          { ctx := w.ctx, va := va, need := if wr then .write else .read, who := [.copy core id] })) ∧
  (∀ bid win s b v l, bid / 8 < 256 → s.block bid = some b → Tbl.find b.lazyWins win = some v → v.inflight = some l →
    s.isTwin b.lid = false → ∃ t b', exec (.lazyCopyComplete bid win) s = .next t ∧ t.block bid = some b' ∧
      b'.scratch = (b.putCopy l).scratch ∧ Tbl.find b'.lazyWins win = some { v with present := true, inflight := none } ∧
      t.waves = s.waves) ∧
  (∀ core s, core < 256 →
    (∀ x, (s.core core).coll = some x → (x.members.length = 4 ∨ x.opened + 3 ≤ (s.core core).cyc) →
      exec (.mmqCollectorClose core) s = .next (s.modCore core fun k => { k with coll := none, closed := k.closed ++ [x] })) ∧
    ∀ x rest, (s.core core).closed = x :: rest → (s.core core).arrayFree ≤ (s.core core).cyc + 1 →
      let end_ := (s.core core).cyc + 1 + x.kk / 32 * groupCycles (tyAt x.atype)
      let pass : ArrayPass := { col := x, until_ := end_, lands := end_ + 11, wrote := [] }
      exec (.matrixPassStart core) s = .next (s.modCore core fun k => { k with
        closed := rest, passes := k.passes ++ [pass], arrayFree := end_ })) ∧
  (∀ r s, s.reqs.find? (fun q => q.id == r.id) = some r → s.reqTurn r = true →
    (∀ t ws trap, s.perform r = .lands t ws trap → exec (.engineRequestComplete r.id) s = .next (t.endReq r ws trap)) ∧
    (∀ l sid pos d k q, r.op = .kvt [(l, sid, pos)] d k → Tbl.find s.seqs sid = some q → q.owner = r.ctx → pos < q.len →
      ∀ w, s.wave r.wid = some w → exec (.engineRequestComplete r.id) s = .next (s.endReq r
        (putAt d .b64 l (s.slotAddr (seqPool sid) (q.pages.getD (pos / 64) 0) (pos % 64)) ++ [.k k (Tbl.get w.k k 0 &&& ~~~maskOf [l])])
        none)) ∧
    (∀ l sid d q, r.op = .kvc [(l, sid)] d → r.got = [] → r.bad = [] → Tbl.find s.seqs sid = some q → q.owner = r.ctx →
      (∀ id t, s.cloneSeq sid q = some (id, t) → exec (.engineRequestComplete r.id) s = .next (t.endReq r (putAt d .n32 l id) none)) ∧
      (s.cloneSeq sid q = none → exec (.engineRequestComplete r.id) s = .next (s.endReq r (putAt d .n32 l 0xFFFFFFFF) none))) ∧
    (∀ l sid q, r.op = .kvf [(l, sid)] → r.got = [] → r.bad = [] → Tbl.find s.seqs sid = some q → q.owner = r.ctx →
      exec (.engineRequestComplete r.id) s = .next ((q.pages.foldl (fun (t : State) x => t.unref (seqPool sid) x (seqDie sid))
        { s with seqs := Tbl.del s.seqs sid }).endReq r [] none))) ∧
  (∀ id s wid w x, s.sendAt id = some (wid, w, x) → s.twinned w = false → s.twinWid wid w = none →
    let sw := s.swath w.lid x.handle.sid
    x.round = sw.round → sw.result = none → sw.awaitPeer = none → sw.contribs.length < x.handle.npart →
    s.hubRows (coreOfWave wid / 8) + x.rows.length ≤ 4096 → s.wave wid = some w → (∀ o ∈ w.arrayQ, o.fills id = false) →
    ∃ t w', exec (.swathContributionAccept id) s = .next t ∧
      t.swath w.lid x.handle.sid = { sw with
        latch := sw.latch.orElse fun _ => some x.handle,
        contribs := sw.contribs ++ [{ cid := coreOfWave wid, blocklin := w.blocklin, waveIdx := w.waveIdx, rows := x.rows }] } ∧
      t.wave wid = some w' ∧ w'.tokSet x.tok = false ∧ SameRegs w w') ∧
  (∀ lid sid s h, let sw := s.swath lid sid
    sw.latch = some h → sw.result = none → sw.awaitPeer = none → sw.contribs.length = h.npart → bit h.peer 7 = false →
    exec (.swathRoundComplete lid sid) s = .next (s.putSwath lid sid { sw with
      contribs := [], result := some (swathResult (s.isDet lid) sw.contribs) })) ∧
  (∀ (det : Bool) (l : List Contribution),
    let add (a b : W32) : W32 := BitVec.ofNat 32 (roundVal fmtF32 .rne (addVal .rne (fval .f32 a.toNat) (fval .f32 b.toNat)).1).1
    let fold (xs : List W32) : Option W32 := xs.head?.map fun x => xs.tail.foldl add x
    ∃ m : List Contribution, m.Perm l ∧
      m.Pairwise (fun x y => x.blocklin < y.blocklin ∨ (x.blocklin = y.blocklin ∧ x.waveIdx ≤ y.waveIdx)) ∧
      let sent (p : Contribution → Bool) (i j : Nat) : List W32 :=
        (m.filter p).filterMap fun c => (c.rows.find? fun r => r.lane == i).map fun r => r.elems.getD j 0
      let rows := swathResult det l
      rows.Pairwise (fun x y => x.lane < y.lane) ∧ (∀ i, (∃ r ∈ rows, r.lane = i) ↔ ∃ c ∈ l, ∃ r ∈ c.rows, r.lane = i) ∧
      ∀ r ∈ rows, r.elems.length = 32 ∧ ∀ j, j < 32 → r.elems.getD j 0 =
        (if det then fold (sent (fun _ => true) r.lane j)
          else fold ((List.range 4).filterMap fun d => fold ((List.range 8).filterMap fun k =>
            fold ((List.range 8).filterMap fun q => fold (sent (fun c => c.cid == 8 * (8 * d + k) + q) r.lane j))))).getD 0) ∧
  (∀ (lid sid : Nat) (s : State) (rows : List SwathRow) (wid : Nat) (x : SwathRecv) (w : Wave),
    let sw := s.swath lid sid
    sw.result = some rows → s.takers lid sid = [(wid, x)] → s.wave wid = some w → s.twinWid wid w = none →
    ∃ t w', exec (.swathRoundComplete lid sid) s = .next t ∧ t.wave wid = some w' ∧ w'.tokSet x.tok = false ∧ SameRegs w w' ∧
      w'.recvs = w.recvs.filter (fun y => y.tok != x.tok) ∧
      ((∀ a ∈ x.targets, a.2.2 < 8) → (x.targets.map (·.2)).Nodup →
        (∀ a ∈ x.targets, ∀ j, j < 32 → w'.aget a.2.1 a.2.2 j =
          ((rows.find? fun (r : SwathRow) => r.lane == a.1).map fun r => (r.elems.getD j 0).toNat).getD 0) ∧
        ∀ tile row j, row < 8 → j < 32 → (tile, row) ∉ x.targets.map (·.2) → w'.aget tile row j = w.aget tile row j) ∧
      t.swath lid sid = if sw.latch.any (fun h => decide (h.nrecv ≤ sw.taken + 1))
        then { Swath.fresh with round := sw.round + 1, fromPeer := sw.fromPeer } else { sw with taken := sw.taken + 1 }) ∧
  (∀ lid sid rows s, (s.launch lid).isSome = true → sid < 256 → (s.swath lid sid).awaitPeer = none →
    exec (.peerSwathResult lid sid rows) s = .next (s.putSwath lid sid { s.swath lid sid with
      fromPeer := (s.swath lid sid).fromPeer ++ [rows] })) ∧
  (∀ wid s w b sid x, coreOfWave wid < 256 → s.wave wid = some w → s.block (w.bid wid) = some b → s.twinWid wid w = some sid →
    s.wave sid = some x → s.twinned w = true → w.shadow = false → w.frozen = none → s.ckptReady (w.bid wid) b = false →
    strays w x = false → (b.twin.due = none ∨ w.holdsAny = true) → bothWait w x = true →
    (w.twin.sig = x.twin.sig → exec (.twinCompare wid) s = .next (s.release wid sid w)) ∧
    (w.twin.sig ≠ x.twin.sig → s.blockIdle (w.bid wid) = true →
      exec (.twinCompare wid) s = .next (s.mismatch wid (w.bid wid)))) ∧
  (∀ rid s, (s.region rid).completes = true → ∃ t, exec (.regionPhaseComplete rid) s = .next t ∧
    (let r := s.region rid
     t.region rid = { r with arrived := r.arrived - r.expected, phase := (r.phase + 1) % 65536, expected := r.rearm }) ∧
    ∀ k, k ≠ rid → t.region k = s.region k) ∧
  ∀ lid s l g rest, s.launch lid = some l → (s.detBlock lid l.ticket).closed = g :: rest → l.killReq = none →
    s.grantOnLines noWave g.locs = none → (∀ x ∈ g.locs, s.openTo (some lid) x = false) →
    s.replayRoom lid (g.locs.filterMap fun x => match x with | .dev pa => some pa | _ => none) = true →
    let d := s.detBlock lid l.ticket
    let applied := ({ s with det := Tbl.put s.det (detKey lid l.ticket) { d with closed := rest } }).applyGroup lid l.ticket l g
    exec (.detGroupApply lid) s = .next ((if rest.isEmpty then applied.passTicket lid l.ticket else applied).moveTicket lid)
end

