-- ==== Sys2Proof/Laws/Bits.lean ====
section
/-! SUPPORT. Laws of encodings: wrapping, signed values, fitting an exact result to a type, shifts and bit counts. -/

namespace Sys2Proof.Machine

theorem wrap_lt (n : Nat) (x : Int) : wrap n x < 2 ^ n := by
  have h : (0 : Int) < ((2 ^ n : Nat) : Int) := by
    have := Nat.two_pow_pos n
    omega
  have := Int.emod_lt_of_pos x h
  have h2 := Int.emod_nonneg x (Int.ne_of_gt h)
  unfold wrap
  omega

theorem wrap_cast (n : Nat) (x : Int) : ((wrap n x : Nat) : Int) = x % ((2 ^ n : Nat) : Int) := by
  have h : ((2 ^ n : Nat) : Int) ≠ 0 := by
    have := Nat.two_pow_pos n
    omega
  unfold wrap
  exact Int.toNat_of_nonneg (Int.emod_nonneg x h)

theorem two_pow_cast (n : Nat) : (2 : Int) ^ n = ((2 ^ n : Nat) : Int) := by rw [Int.natCast_pow]; rfl

/-- The value of an encoding differs from the encoding by a multiple of 2^n. -/
theorem intVal_dvd (t : Ty) (x : Nat) : ((2 ^ tyBits t : Nat) : Int) ∣ intVal t x - (x : Int) := by
  have hx : ((2 ^ tyBits t : Nat) : Int) ∣ ((x % 2 ^ tyBits t : Nat) : Int) - (x : Int) := by
    rw [Int.natCast_emod]
    exact ⟨-((x : Int) / ((2 ^ tyBits t : Nat) : Int)), by
      have := Int.mul_ediv_add_emod (x : Int) ((2 ^ tyBits t : Nat) : Int)
      rw [Int.mul_neg]
      omega⟩
  unfold intVal
  split
  · simp only [toSigned, two_pow_cast]
    generalize 2 ^ (tyBits t - 1) = h at *
    generalize 2 ^ tyBits t = n at *
    split
    · exact hx
    · have e : (((x % n : Nat) : Int) - (n : Int)) - (x : Int) = (((x % n : Nat) : Int) - (x : Int)) - (n : Int) := by
        omega
      rw [e]
      exact Int.dvd_sub hx (Int.dvd_refl _)
  · exact hx

theorem tyBits_pos (t : Ty) : 1 ≤ tyBits t := by cases t <;> decide

theorem two_pow_half (t : Ty) : 2 ^ tyBits t = 2 ^ (tyBits t - 1) + 2 ^ (tyBits t - 1) := by
  obtain ⟨n, hn⟩ : ∃ n, tyBits t = n + 1 := ⟨tyBits t - 1, by have := tyBits_pos t; omega⟩
  rw [hn, Nat.pow_succ, Nat.add_sub_cancel]
  omega

/-- A value in the type's range is read back from its encoding. -/
theorem intVal_wrap (t : Ty) {x : Int} (h1 : minOf t ≤ x) (h2 : x ≤ maxOf t) : intVal t (wrap (tyBits t) x) = x := by
  have hp := two_pow_half t
  have hlt := wrap_lt (tyBits t) x
  have hc := wrap_cast (tyBits t) x
  unfold intVal minOf maxOf at *
  cases hs : tySigned t with
  | true =>
    simp only [hs, if_true] at h1 h2 ⊢
    unfold toSigned
    simp only [Nat.mod_eq_of_lt hlt]
    by_cases h0 : 0 ≤ x
    · have hm : x % ((2 ^ tyBits t : Nat) : Int) = x := Int.emod_eq_of_lt h0 (by omega)
      rw [hm] at hc
      rw [if_pos (by omega), hc]
    · have hm : x % ((2 ^ tyBits t : Nat) : Int) = x + ((2 ^ tyBits t : Nat) : Int) := by
        rw [← Int.add_emod_right]
        exact Int.emod_eq_of_lt (by omega) (by omega)
      rw [hm] at hc
      rw [if_neg (by omega), hc, two_pow_cast]
      omega
  | false =>
    simp only [hs, Bool.false_eq_true, if_false] at h1 h2 ⊢
    have hm : x % ((2 ^ tyBits t : Nat) : Int) = x := Int.emod_eq_of_lt h1 (by omega)
    rw [Nat.mod_eq_of_lt hlt, hc, hm]

theorem minOf_le_maxOf (t : Ty) : minOf t ≤ maxOf t := by
  have := Nat.two_pow_pos (tyBits t)
  have := Nat.two_pow_pos (tyBits t - 1)
  unfold minOf maxOf
  split <;> omega

/-- `fitInt` is the fitting of R141. -/
theorem fits_fitInt (t : Ty) (sat : Bool) (r : Int) : Fits t sat r (fitInt t sat r) := by
  refine ⟨wrap_lt _ _, ?_⟩
  have hmm := minOf_le_maxOf t
  cases sat with
  | true =>
    simp only [if_true, fitInt]
    split
    · exact intVal_wrap t (Int.le_refl _) hmm
    · split
      · exact intVal_wrap t hmm (Int.le_refl _)
      · exact intVal_wrap t (by omega) (by omega)
  | false =>
    simp only [Bool.false_eq_true, if_false, fitInt]
    have h1 := intVal_dvd t (wrap (tyBits t) r)
    have h2 : ((2 ^ tyBits t : Nat) : Int) ∣ ((wrap (tyBits t) r : Nat) : Int) - r := by
      rw [wrap_cast]
      exact ⟨-(r / ((2 ^ tyBits t : Nat) : Int)), by
        have := Int.mul_ediv_add_emod r ((2 ^ tyBits t : Nat) : Int)
        rw [Int.mul_neg]
        omega⟩
    have := Int.dvd_add h1 h2
    have e : intVal t (wrap (tyBits t) r) - ((wrap (tyBits t) r : Nat) : Int) + (((wrap (tyBits t) r : Nat) : Int) - r) =
        intVal t (wrap (tyBits t) r) - r := by omega
    rwa [e] at this

end Sys2Proof.Machine
end

