-- ==== Sys2Proof/Laws/Table.lean ====
section
/-! SUPPORT. Laws of tables and of byte memories: what a read after a write gives, and that every operation keeps the
canonical form. Reads after writes need no canonical form, so they hold in every state. -/

namespace Sys2Proof

variable {β : Type}

/-! ### Reads after writes -/

@[simp] theorem Tbl.find_nil (k : Nat) : Tbl.find ([] : Tbl β) k = none := rfl

@[simp] theorem Tbl.find_put_same (t : Tbl β) (k : Nat) (x : β) : Tbl.find (Tbl.put t k x) k = some x := by
  induction t with
  | nil => simp [Tbl.put, Tbl.find]
  | cons p t ih =>
    obtain ⟨j, y⟩ := p
    simp only [Tbl.put]
    split
    · simp [Tbl.find]
    · split
      · simp [Tbl.find]
      · rename_i h
        simp [Tbl.find, Ne.symm h, ih]

@[simp] theorem Tbl.find_put_other (t : Tbl β) {k j : Nat} (x : β) (h : j ≠ k) :
    Tbl.find (Tbl.put t k x) j = Tbl.find t j := by
  induction t with
  | nil => simp [Tbl.put, Tbl.find, Ne.symm h]
  | cons p t ih =>
    obtain ⟨i, y⟩ := p
    simp only [Tbl.put]
    split
    · simp [Tbl.find, Ne.symm h]
    · split
      · rename_i e
        subst e
        simp [Tbl.find, Ne.symm h]
      · simp [Tbl.find, ih]

theorem Tbl.find_put (t : Tbl β) (k j : Nat) (x : β) :
    Tbl.find (Tbl.put t k x) j = if j = k then some x else Tbl.find t j := by
  split
  · rename_i h; subst h; simp
  · rename_i h; exact Tbl.find_put_other t x h

theorem Tbl.find_del (t : Tbl β) (k j : Nat) : Tbl.find (Tbl.del t k) j = if j = k then none else Tbl.find t j := by
  induction t with
  | nil => simp [Tbl.del]
  | cons p t ih =>
    obtain ⟨i, y⟩ := p
    simp only [Tbl.del]
    by_cases hi : i = k
    · subst hi
      rw [if_pos rfl, ih]
      split
      · rfl
      · rename_i hj
        simp [Tbl.find, Ne.symm hj]
    · by_cases hj : i = j
      · subst hj
        simp [hi, Tbl.find]
      · simp [hi, hj, ih, Tbl.find]

/-- A table reads back what was written at a key, and the other keys read as before. -/
theorem Tbl.get_set [DecidableEq β] (d : β) (t : Tbl β) (k j : Nat) (x : β) :
    Tbl.get (Tbl.set d t k x) j d = if j = k then x else Tbl.get t j d := by
  unfold Tbl.get Tbl.set
  split
  · rename_i h
    rw [Tbl.find_del]
    split <;> simp [h]
  · rw [Tbl.find_put]
    split <;> simp

@[simp] theorem Tbl.get_set_same [DecidableEq β] (d : β) (t : Tbl β) (k : Nat) (x : β) :
    Tbl.get (Tbl.set d t k x) k d = x := by simp [Tbl.get_set]

@[simp] theorem Tbl.get_set_other [DecidableEq β] (d : β) (t : Tbl β) {k j : Nat} (x : β) (h : j ≠ k) :
    Tbl.get (Tbl.set d t k x) j d = Tbl.get t j d := by simp [Tbl.get_set, h]

theorem Tbl.find_upd (t : Tbl β) (k j : Nat) (f : β → β) :
    Tbl.find (Tbl.upd t k f) j = if j = k then (Tbl.find t k).map f else Tbl.find t j := by
  unfold Tbl.upd
  split
  · rename_i x h
    rw [Tbl.find_put]
    split <;> simp_all
  · rename_i h
    split
    · rename_i e; subst e; simp [h]
    · rfl

@[simp] theorem Tbl.find_upd_same (t : Tbl β) (k : Nat) (f : β → β) :
    Tbl.find (Tbl.upd t k f) k = (Tbl.find t k).map f := by simp [Tbl.find_upd]

@[simp] theorem Tbl.find_upd_other (t : Tbl β) {k j : Nat} (f : β → β) (h : j ≠ k) :
    Tbl.find (Tbl.upd t k f) j = Tbl.find t j := by simp [Tbl.find_upd, h]

theorem Tbl.upd_none (t : Tbl β) (k : Nat) (f : β → β) (h : Tbl.find t k = none) : Tbl.upd t k f = t := by
  simp [Tbl.upd, h]

theorem Tbl.upd_some (t : Tbl β) (k : Nat) (f : β → β) (x : β) (h : Tbl.find t k = some x) :
    Tbl.upd t k f = Tbl.put t k (f x) := by simp [Tbl.upd, h]

theorem Tbl.put_put (t : Tbl β) (k : Nat) (x y : β) : Tbl.put (Tbl.put t k x) k y = Tbl.put t k y := by
  induction t with
  | nil => simp [Tbl.put]
  | cons p t ih =>
    obtain ⟨j, z⟩ := p
    simp only [Tbl.put]
    split
    · simp [Tbl.put]
    · split
      · simp [Tbl.put]
      · rename_i h1 h2
        simp [Tbl.put, h1, h2, ih]

/-- Two rewrites of one entry are one. -/
@[simp] theorem Tbl.upd_upd (t : Tbl β) (k : Nat) (f g : β → β) :
    Tbl.upd (Tbl.upd t k f) k g = Tbl.upd t k fun x => g (f x) := by
  cases h : Tbl.find t k with
  | none => simp [Tbl.upd_none _ _ _ h]
  | some x =>
    rw [Tbl.upd_some _ _ f x h, Tbl.upd_some _ _ _ x h]
    simp [Tbl.upd, Tbl.put_put]

@[simp] theorem Tbl.find_mapv (t : Tbl β) (f : Nat → β → β) (k : Nat) :
    Tbl.find (Tbl.mapv f t) k = (Tbl.find t k).map (f k) := by
  induction t with
  | nil => simp [Tbl.mapv]
  | cons p t ih =>
    obtain ⟨j, y⟩ := p
    simp only [Tbl.mapv, Tbl.find]
    split
    · rename_i h; subst h; simp
    · exact ih

/-! ### The canonical form -/

theorem Tbl.wfFrom_mono {n m : Nat} {t : Tbl β} (h : Tbl.wfFrom m t = true) (hn : n ≤ m) : Tbl.wfFrom n t = true := by
  cases t with
  | nil => rfl
  | cons p t =>
    obtain ⟨k, x⟩ := p
    simp only [Tbl.wfFrom, Bool.and_eq_true, decide_eq_true_eq] at h ⊢
    exact ⟨by omega, h.2⟩

theorem Tbl.wfFrom_put {n k : Nat} {t : Tbl β} (x : β) (h : Tbl.wfFrom n t = true) (hk : n ≤ k) :
    Tbl.wfFrom n (Tbl.put t k x) = true := by
  induction t generalizing n with
  | nil => simp [Tbl.put, Tbl.wfFrom, hk]
  | cons p t ih =>
    obtain ⟨j, y⟩ := p
    simp only [Tbl.wfFrom, Bool.and_eq_true, decide_eq_true_eq] at h
    simp only [Tbl.put]
    split
    · rename_i hlt
      simp only [Tbl.wfFrom, Bool.and_eq_true, decide_eq_true_eq]
      exact ⟨hk, by omega, h.2⟩
    · split
      · rename_i e
        subst e
        simp only [Tbl.wfFrom, Bool.and_eq_true, decide_eq_true_eq]
        exact h
      · simp only [Tbl.wfFrom, Bool.and_eq_true, decide_eq_true_eq]
        exact ⟨h.1, ih h.2 (by omega)⟩

theorem Tbl.wfFrom_del {n k : Nat} {t : Tbl β} (h : Tbl.wfFrom n t = true) : Tbl.wfFrom n (Tbl.del t k) = true := by
  induction t generalizing n with
  | nil => rfl
  | cons p t ih =>
    obtain ⟨j, y⟩ := p
    simp only [Tbl.wfFrom, Bool.and_eq_true, decide_eq_true_eq] at h
    simp only [Tbl.del]
    split
    · exact ih (Tbl.wfFrom_mono h.2 (by omega))
    · simp only [Tbl.wfFrom, Bool.and_eq_true, decide_eq_true_eq]
      exact ⟨h.1, ih h.2⟩

/-- Every value of the table after a write was there before or is the one written. -/
theorem Tbl.all_put {p : Nat × β → Bool} {t : Tbl β} {k : Nat} {x : β} (h : t.all p = true) (hx : p (k, x) = true) :
    (Tbl.put t k x).all p = true := by
  induction t with
  | nil => simp [Tbl.put, hx]
  | cons q t ih =>
    obtain ⟨j, y⟩ := q
    simp only [List.all_cons, Bool.and_eq_true] at h
    simp only [Tbl.put]
    split
    · simp [hx, h.1, h.2]
    · split
      · simp [hx, h.2]
      · simp [h.1, ih h.2]

theorem Tbl.all_del {p : Nat × β → Bool} {t : Tbl β} {k : Nat} (h : t.all p = true) : (Tbl.del t k).all p = true := by
  induction t with
  | nil => rfl
  | cons q t ih =>
    obtain ⟨j, y⟩ := q
    simp only [List.all_cons, Bool.and_eq_true] at h
    simp only [Tbl.del]
    split
    · exact ih h.2
    · simp [h.1, ih h.2]

/-- A write keeps the canonical form. -/
theorem Tbl.canon_set [DecidableEq β] (d : β) {t : Tbl β} (k : Nat) (x : β) (h : Tbl.canon d t = true) :
    Tbl.canon d (Tbl.set d t k x) = true := by
  unfold Tbl.canon Tbl.wf at *
  rw [Bool.and_eq_true] at h ⊢
  unfold Tbl.set
  split
  · exact ⟨Tbl.wfFrom_del h.1, Tbl.all_del h.2⟩
  · rename_i hx
    exact ⟨Tbl.wfFrom_put x h.1 (Nat.zero_le k), Tbl.all_put h.2 (by simpa using hx)⟩

/-- Two tables in canonical form that read alike are equal data, from a common lower bound of their keys on. -/
theorem Tbl.ext_from [DecidableEq β] (d : β) :
    ∀ {n : Nat} {t u : Tbl β}, Tbl.wfFrom n t = true → Tbl.wfFrom n u = true →
      (t.all fun p => decide (p.2 ≠ d)) = true → (u.all fun p => decide (p.2 ≠ d)) = true →
      (∀ k, Tbl.get t k d = Tbl.get u k d) → t = u := by
  have low : ∀ {m : Nat} {t : Tbl β} {k : Nat}, Tbl.wfFrom m t = true → k < m → Tbl.find t k = none := by
    intro m t
    induction t generalizing m with
    | nil => intros; rfl
    | cons p t ih =>
      obtain ⟨j, y⟩ := p
      intro k h hk
      simp only [Tbl.wfFrom, Bool.and_eq_true, decide_eq_true_eq] at h
      simp only [Tbl.find]
      rw [if_neg (by omega), ih h.2 (by omega)]
  intro n t
  induction t generalizing n with
  | nil =>
    intro u _ hu _ au e
    cases u with
    | nil => rfl
    | cons p u =>
      obtain ⟨j, y⟩ := p
      have := e j
      simp only [List.all_cons, Bool.and_eq_true, decide_eq_true_eq] at au
      simp [Tbl.get, Tbl.find] at this
      exact absurd this.symm au.1
  | cons p t ih =>
    obtain ⟨i, x⟩ := p
    intro u ht hu at' au e
    simp only [List.all_cons, Bool.and_eq_true, decide_eq_true_eq] at at'
    simp only [Tbl.wfFrom, Bool.and_eq_true, decide_eq_true_eq] at ht
    cases u with
    | nil =>
      have := e i
      simp [Tbl.get, Tbl.find] at this
      exact absurd this at'.1
    | cons q u =>
      obtain ⟨j, y⟩ := q
      simp only [List.all_cons, Bool.and_eq_true, decide_eq_true_eq] at au
      simp only [Tbl.wfFrom, Bool.and_eq_true, decide_eq_true_eq] at hu
      have hij : i = j := by
        rcases Nat.lt_trichotomy i j with h | h | h
        · have := e i
          simp only [Tbl.get, Tbl.find, if_true] at this
          rw [if_neg (by omega), low hu.2 (by omega)] at this
          exact absurd this at'.1
        · exact h
        · have := e j
          simp only [Tbl.get, Tbl.find, if_true] at this
          rw [if_neg (by omega), low ht.2 (by omega)] at this
          exact absurd this.symm au.1
      subst hij
      have hxy : x = y := by simpa [Tbl.get, Tbl.find] using e i
      subst hxy
      have : t = u := by
        refine ih ht.2 hu.2 at'.2 au.2 fun k => ?_
        by_cases hk : k = i
        · subst hk
          simp [Tbl.get, low ht.2 (Nat.lt_succ_self k), low hu.2 (Nat.lt_succ_self k)]
        · simpa [Tbl.get, Tbl.find, Ne.symm hk] using e k
      rw [this]

/-- Tables in canonical form that read alike are equal data. -/
theorem Tbl.canon_ext [DecidableEq β] (d : β) {t u : Tbl β} (ht : Tbl.canon d t = true) (hu : Tbl.canon d u = true)
    (e : ∀ k, Tbl.get t k d = Tbl.get u k d) : t = u := by
  unfold Tbl.canon Tbl.wf at *
  rw [Bool.and_eq_true] at ht hu
  exact Tbl.ext_from d ht.1 hu.1 ht.2 hu.2 e

end Sys2Proof

namespace Sys2Proof.Machine

/-! ### Byte memories -/

theorem Memory.read_write (m : Tbl Byte) (a x : Nat) (b : Byte) :
    Memory.read (Memory.write m a b) x = if x = a then b else Memory.read m x := Tbl.get_set _ _ _ _ _

@[simp] theorem Memory.read_write_same (m : Tbl Byte) (a : Nat) (b : Byte) : Memory.read (Memory.write m a b) a = b := by
  simp [Memory.read_write]

@[simp] theorem Memory.read_write_other (m : Tbl Byte) {a x : Nat} (b : Byte) (h : x ≠ a) :
    Memory.read (Memory.write m a b) x = Memory.read m x := by simp [Memory.read_write, h]

@[simp] theorem Memory.wf_nil : Memory.wf [] = true := rfl

theorem Memory.wf_write {m : Tbl Byte} (a : Nat) (b : Byte) (h : Memory.wf m = true) :
    Memory.wf (Memory.write m a b) = true := Tbl.canon_set _ a b h

theorem Memory.wf_writes {m : Tbl Byte} (a : Nat) (l : Bytes) (h : Memory.wf m = true) :
    Memory.wf (Memory.writes m a l) = true := by
  induction l generalizing m a with
  | nil => exact h
  | cons b l ih => exact ih (a + 1) (Memory.wf_write a b h)

/-- A run of written bytes reads back; every other byte reads as before. -/
theorem Memory.read_writes (m : Tbl Byte) (a x : Nat) (l : Bytes) :
    Memory.read (Memory.writes m a l) x =
      if a ≤ x ∧ x < a + l.length then l.getD (x - a) 0 else Memory.read m x := by
  induction l generalizing m a with
  | nil =>
    have : ¬(a ≤ x ∧ x < a + ([] : Bytes).length) := by simp
    rw [if_neg this]
    rfl
  | cons b l ih =>
    simp only [Memory.writes, ih, Memory.read_write, List.length_cons]
    by_cases h : x = a
    · subst h
      rw [if_neg (by omega), if_pos rfl, if_pos (by omega), Nat.sub_self, List.getD_cons_zero]
    · by_cases h2 : a + 1 ≤ x ∧ x < a + 1 + l.length
      · have h3 : a ≤ x ∧ x < a + (l.length + 1) := by omega
        obtain ⟨n, hn⟩ : ∃ n, x - a = n + 1 := ⟨x - a - 1, by omega⟩
        have hn' : x - (a + 1) = n := by omega
        rw [if_pos h2, if_pos h3, hn, hn', List.getD_cons_succ]
      · have h3 : ¬(a ≤ x ∧ x < a + (l.length + 1)) := by omega
        rw [if_neg h2, if_neg h3, if_neg h]

/-! ### Sorted lists -/

theorem mem_sortInsert {α : Type} (before : α → α → Bool) {x y : α} {m : List α} : x ∈ sortInsert before y m ↔ x = y ∨ x ∈ m := by
  induction m with
  | nil => simp [sortInsert]
  | cons z zs ih =>
    unfold sortInsert
    split
    · rw [List.mem_cons, ih, List.mem_cons, or_left_comm]
    · rw [List.mem_cons]

theorem mem_sortBy {α : Type} (before : α → α → Bool) {x : α} {l : List α} : x ∈ sortBy before l ↔ x ∈ l := by
  unfold sortBy
  induction l with
  | nil => simp
  | cons y ys ih => rw [List.foldr_cons, mem_sortInsert, ih, List.mem_cons]

/-- A list sorted by a strict order has no element before an earlier one. -/
theorem sortBy_pairwise {α : Type} {before : α → α → Bool} (asymm : ∀ x y, before x y = true → before y x = false)
    (trans : ∀ x y z, before y x = false → before z y = false → before z x = false) (l : List α) :
    (sortBy before l).Pairwise fun a b => before b a = false := by
  have key : ∀ (y : α) (m : List α), m.Pairwise (fun a b => before b a = false) →
      (sortInsert before y m).Pairwise fun a b => before b a = false := by
    intro y m
    induction m with
    | nil => simp [sortInsert]
    | cons z zs ih =>
      intro h
      rw [List.pairwise_cons] at h
      unfold sortInsert
      split
      · rename_i hz
        rw [List.pairwise_cons]
        refine ⟨fun a ha => ?_, ih h.2⟩
        rcases (mem_sortInsert _).1 ha with rfl | ha
        · exact asymm _ _ hz
        · exact h.1 a ha
      · rename_i hz
        have hz : before z y = false := by simpa using hz
        rw [List.pairwise_cons]
        refine ⟨fun a ha => ?_, List.pairwise_cons.2 h⟩
        rw [List.mem_cons] at ha
        rcases ha with rfl | ha
        · exact hz
        · exact trans _ _ _ hz (h.1 a ha)
  unfold sortBy
  induction l with
  | nil => simp
  | cons y ys ih => rw [List.foldr_cons]; exact key y _ ih

/-- Numbers in ascending order. -/
theorem sortBy_ascending (l : List Nat) : (sortBy (fun a b => decide (a < b)) l).Pairwise (· ≤ ·) :=
  (sortBy_pairwise (fun x y h => by simp at *; omega) (fun x y z h g => by simp at *; omega) l).imp fun h => by simpa using h

end Sys2Proof.Machine
end

