-- ==== Sys2Proof/Laws/Word.lean ====
section
/-! SUPPORT. What a word that completes does, said once: the environment of a word, register writes, and `finish`. -/

namespace Sys2Proof.Machine

/-! ### The state after a rewrite of one wave -/

@[simp] theorem State.wave_modWave (s : State) (k j : Nat) (f : Wave → Wave) :
    (s.modWave k f).wave j = if j = k then (s.wave k).map f else s.wave j := Tbl.find_upd _ _ _ _

@[simp] theorem State.modWave_modWave (s : State) (k : Nat) (f g : Wave → Wave) :
    (s.modWave k f).modWave k g = s.modWave k fun w => g (f w) := by simp [State.modWave]

theorem State.modWave_congr {s : State} {k : Nat} {v : Wave} {f g : Wave → Wave} (hv : s.wave k = some v) (h : f v = g v) :
    s.modWave k f = s.modWave k g := by
  have hv' : Tbl.find s.waves k = some v := hv
  simp only [State.modWave, Tbl.upd, hv', h]

@[simp] theorem State.modFrag_eq (s : State) (k fr : Nat) (f : Frag → Frag) :
    s.modFrag k fr f = s.modWave k fun w => w.modFrag fr f := rfl

@[simp] theorem State.modWave_waves (s : State) (k : Nat) (f : Wave → Wave) :
    ({ s.modWave k f with waves := s.waves } : State) = s := rfl

@[simp] theorem State.block_modWave (s : State) (k b : Nat) (f : Wave → Wave) : (s.modWave k f).block b = s.block b := rfl
@[simp] theorem State.launch_modWave (s : State) (k l : Nat) (f : Wave → Wave) : (s.modWave k f).launch l = s.launch l := rfl
@[simp] theorem State.record_modWave (s : State) (k l : Nat) (f : Wave → Wave) : (s.modWave k f).record l = s.record l := rfl
@[simp] theorem State.twinned_modWave (s : State) (k : Nat) (w : Wave) (f : Wave → Wave) :
    (s.modWave k f).twinned w = s.twinned w := rfl
@[simp] theorem State.isTwin_modWave (s : State) (k l : Nat) (f : Wave → Wave) :
    (s.modWave k f).isTwin l = s.isTwin l := rfl

/-! ### The environment of a word -/

/-- Everything an environment says of the state in which its word issues. -/
structure WordFacts (w : Fields) (s : State) (e : Env) : Prop where
  state : e.s = s
  word : e.w = w
  cur : s.cur = some (e.wid, e.fr)
  wave : s.wave e.wid = some e.wv
  frag : Tbl.find e.wv.frags e.fr = some e.frag
  clause : e.frag.clause = some e.cl
  lanes : e.lanes = lanesOf e.wv.width e.act

theorem Issues.facts {w : Fields} {s : State} {e : Env} (h : Issues w s e) : WordFacts w s e := by
  obtain ⟨h, own, -⟩ := h
  unfold wordEnv at h
  split at h
  · cases h
  · rename_i wid fr hc
    split at h
    · cases h
    · rename_i wv hw
      split at h
      · cases h
      · rename_i f hf
        split at h
        · cases h
        · rename_i c hcl
          cases h
          exact ⟨rfl, rfl, hc, own, hf, hcl, rfl⟩

/-- The wave that issues, in `e.s`. -/
theorem Issues.wave {w : Fields} {s : State} {e : Env} (h : Issues w s e) : e.s.wave e.wid = some e.wv := by
  rw [h.facts.state]; exact h.facts.wave

/-- The launch is no TWIN launch, in `e.s`. -/
theorem Issues.alone {w : Fields} {s : State} {e : Env} (h : Issues w s e) : e.s.twinned e.wv = false := by
  rw [h.facts.state]; exact h.single

theorem passed_single {e : Env} (h : e.s.twinned e.wv = false) (body : Env → WRes) (f : Env → LvqItem → State) :
    passed e body f = body e := by simp [passed, h]

theorem atCompare_single {e : Env} (h : e.s.twinned e.wv = false) (l : Bytes) (body : Env → WRes) :
    atCompare e l body = body e := by simp [atCompare, h]

theorem loggedAt_single {e : Env} (h : e.s.twinned e.wv = false) : loggedAt e = none := by simp [loggedAt, h]

theorem pushLog_single {e : Env} (h : e.s.twinned e.wv = false) (s : State) (ws : List RegWrite) (t : Option TrapRec)
    (req : Option Nat) : pushLog e s ws t req = s := by simp [pushLog, h]

theorem onceLogged_single {e : Env} (h : e.s.twinned e.wv = false) (body : Env → WRes) : onceLogged e body = body e := by
  unfold onceLogged
  rw [loggedAt_single h]
  cases body e <;> simp [pushLog_single h]

theorem leaderOnce_single {e : Env} (h : e.s.twinned e.wv = false) (l : Bytes) (body : Env → WRes) :
    leaderOnce e l body = body e := by
  simp [leaderOnce, atCompare_single h, passed_single h, onceLogged_single h]

theorem leaderOf_single {s : State} {wv : Wave} (h : s.twinned wv = false) (wid : Nat) : s.leaderOf wid wv = wid := by
  simp [State.leaderOf, h]

theorem leaderBid_single {s : State} {wv : Wave} (h : s.twinned wv = false) (wid : Nat) : s.leaderBid wid wv = wv.bid wid := by
  simp [State.leaderBid, h]

theorem mem_lanesOf {W i : Nat} {m : Mask} : i ∈ lanesOf W m ↔ i < W ∧ m.getLsbD i = true := by
  simp [lanesOf]

theorem lanesOf_lt {W i : Nat} {m : Mask} (h : i ∈ lanesOf W m) : i < 1024 := by
  have := (mem_lanesOf.mp h).2
  exact BitVec.lt_of_getLsbD this

theorem WordFacts.lane_lt {w : Fields} {s : State} {e : Env} (h : WordFacts w s e) : ∀ i ∈ e.lanes, i < 1024 := by
  intro i hi
  rw [h.lanes] at hi
  exact lanesOf_lt hi

/-- A word issues: it answers a next state, the one in which its meaning settles. -/
theorem onWord_next {w : Fields} {s : State} {e : Env} (h : wordEnv w s = some e) (body : Env → WRes) :
    onWord w s body = .next (settleWord e (body e)) := by
  simp [onWord, h]

/-! ### Register writes -/

/-- Register writes change registers and nothing else of the wave. -/
theorem Wave.writes_parts (w : Wave) (l : List RegWrite) :
    w.writes l = { w with v := (w.writes l).v, s := (w.writes l).s, k := (w.writes l).k } := by
  induction l generalizing w with
  | nil => rfl
  | cons x l ih =>
    have h : w.writes (x :: l) = (w.write x).writes l := rfl
    rw [h, ih (w.write x)]
    cases x with
    | v n i y => rfl
    | s n y => rfl
    | k n m =>
      simp only [Wave.write]
      split <;> rfl

theorem Wave.writes_cons (w : Wave) (x : RegWrite) (l : List RegWrite) : w.writes (x :: l) = (w.write x).writes l := rfl

theorem Wave.writes_append (w : Wave) (l m : List RegWrite) : w.writes (l ++ m) = (w.writes l).writes m := by
  simp [Wave.writes]

theorem Wave.velem_write_v (w : Wave) {m l n i : Nat} (x : W32) (hl : l < 1024) (hi : i < 1024) :
    (w.write (.v m l x)).velem n i = if n = m ∧ i = l then x else w.velem n i := by
  simp only [Wave.write, Wave.velem, Tbl.get_set]
  by_cases h : n = m ∧ i = l
  · obtain ⟨rfl, rfl⟩ := h
    simp
  · rw [if_neg h, if_neg (by omega)]

@[simp] theorem Wave.selem_write_v (w : Wave) (m l n : Nat) (x : W32) : (w.write (.v m l x)).selem n = w.selem n := rfl
@[simp] theorem Wave.kelem_write_v (w : Wave) (m l n : Nat) (x : W32) : (w.write (.v m l x)).kelem n = w.kelem n := rfl
@[simp] theorem Wave.velem_write_s (w : Wave) (m n i : Nat) (x : W64) : (w.write (.s m x)).velem n i = w.velem n i := rfl
@[simp] theorem Wave.kelem_write_s (w : Wave) (m n : Nat) (x : W64) : (w.write (.s m x)).kelem n = w.kelem n := rfl
theorem Wave.selem_write_s (w : Wave) (m n : Nat) (x : W64) :
    (w.write (.s m x)).selem n = if n = m then x else w.selem n := Tbl.get_set _ _ _ _ _
@[simp] theorem Wave.velem_write_k (w : Wave) (m n i : Nat) (x : Mask) : (w.write (.k m x)).velem n i = w.velem n i := by
  simp only [Wave.write]; split <;> rfl
@[simp] theorem Wave.selem_write_k (w : Wave) (m n : Nat) (x : Mask) : (w.write (.k m x)).selem n = w.selem n := by
  simp only [Wave.write]; split <;> rfl
theorem Wave.kelem_write_k (w : Wave) (m n : Nat) (x : Mask) :
    (w.write (.k m x)).kelem n = if m ≠ 0 ∧ n = m then x &&& fullMask w.width else w.kelem n := by
  simp only [Wave.write]
  split
  · rename_i h; simp [h]
  · rename_i h
    simp only [Wave.kelem, Tbl.get_set]
    split <;> simp [*]
@[simp] theorem Wave.width_write (w : Wave) (x : RegWrite) : (w.write x).width = w.width := by
  cases x with
  | v n i y => rfl
  | s n y => rfl
  | k n m => simp only [Wave.write]; split <;> rfl

/-- One write per lane into a vector register, or two into a pair. -/
theorem Wave.velem_writes_lanes (w : Wave) (d : Nat) (wide : Bool) (x y : Nat → W32) (lanes : List Nat) {n i : Nat}
    (hl : ∀ l ∈ lanes, l < 1024) (hi : i < 1024) :
    (w.writes (lanes.flatMap fun l => if wide then [.v d l (x l), .v (d + 1) l (y l)] else [.v d l (x l)])).velem n i =
      if i ∈ lanes ∧ n = d then x i else if i ∈ lanes ∧ wide ∧ n = d + 1 then y i else w.velem n i := by
  induction lanes generalizing w with
  | nil => simp [Wave.writes]
  | cons l ls ih =>
    have hl' : l < 1024 := hl l (by simp)
    rw [List.flatMap_cons, Wave.writes_append, ih _ fun a ha => hl a (by simp [ha])]
    by_cases hin : i ∈ ls
    · have : i ∈ l :: ls := by simp [hin]
      simp only [hin, this, true_and]
      split
      · rfl
      · rename_i hn
        split
        · rfl
        · rename_i hw
          cases wide with
          | true =>
            have hn2 : n ≠ d + 1 := by simpa using hw
            simp [Wave.writes, Wave.velem_write_v, hl', hi, hn, hn2]
          | false => simp [Wave.writes, Wave.velem_write_v, hl', hi, hn]
    · by_cases hil : i = l
      · subst hil
        cases wide with
        | true =>
          by_cases h1 : n = d
          · subst h1
            simp [Wave.writes, Wave.velem_write_v, hi, hin]
          · by_cases h2 : n = d + 1
            · subst h2
              simp [Wave.writes, Wave.velem_write_v, hi, hin]
            · simp [Wave.writes, Wave.velem_write_v, hi, hin, h1, h2]
        | false => simp [Wave.writes, Wave.velem_write_v, hi, hin]
      · have hni : i ∉ l :: ls := by simp [hil, hin]
        cases wide <;> simp [Wave.writes, Wave.velem_write_v, hl', hi, hil, hin]

/-- Vector writes leave scalars and masks alone. -/
theorem Wave.writes_lanes_rest (w : Wave) (d : Nat) (wide : Bool) (x y : Nat → W32) (lanes : List Nat) (n : Nat) :
    let w' := w.writes (lanes.flatMap fun l => if wide then [.v d l (x l), .v (d + 1) l (y l)] else [.v d l (x l)])
    w'.selem n = w.selem n ∧ w'.kelem n = w.kelem n := by
  induction lanes generalizing w with
  | nil => simp [Wave.writes]
  | cons l ls ih =>
    simp only [List.flatMap_cons, Wave.writes_append] at ih ⊢
    have := ih (w.writes (if wide then [.v d l (x l), .v (d + 1) l (y l)] else [.v d l (x l)]))
    cases wide <;> simpa [Wave.writes] using this

/-- The writes of element results into D. -/
theorem writesD_putD {e : Env} (hl : ∀ i ∈ e.lanes, i < 1024) (v : Wave) (t : Ty) (f : Nat → Nat) :
    WritesD e v t f (v.writes (e.putD t f)) := by
  unfold WritesD Env.putD
  by_cases hd : e.w.d.toNat < 0x80
  · have hp : (fun i => putAt e.w.d.toNat t i (f i)) =
        fun l => if tyWide t then [RegWrite.v e.w.d.toNat l (BitVec.ofNat 32 (if tyWide t then f l else place32 t (f l))),
            .v (e.w.d.toNat + 1) l (BitVec.ofNat 32 (f l / 2 ^ 32))]
          else [.v e.w.d.toNat l (BitVec.ofNat 32 (if tyWide t then f l else place32 t (f l)))] := by
      funext l
      simp only [putAt, if_pos hd]
      cases tyWide t <;> simp
    simp only [if_pos hd, hp]
    refine ⟨fun n i hi => ?_, fun n => ?_, fun n => ?_⟩
    · rw [Wave.velem_writes_lanes v _ (tyWide t) _ _ e.lanes hl hi]
      simp [hd]
    · rw [(Wave.writes_lanes_rest v _ (tyWide t) _ _ e.lanes n).1, if_neg (by omega)]
    · rw [(Wave.writes_lanes_rest v _ (tyWide t) _ _ e.lanes n).2]
  · have hd' : 0x80 ≤ e.w.d.toNat := by omega
    simp only [if_neg hd]
    cases hls : e.lanes with
    | nil => simp [Wave.writes, hd]
    | cons i is =>
      simp [Wave.writes, putAt, hd, hd', Env.first, hls, Wave.selem_write_s]

theorem writesS_putS (e : Env) (v : Wave) (x : Nat) : WritesS e v x (v.writes (e.putS x)) := by
  simp [WritesS, Wave.writes, Env.putS, Wave.selem_write_s]

theorem sameRegs_refl (v : Wave) : SameRegs v v := ⟨fun _ _ => rfl, fun _ => rfl, fun _ => rfl⟩

theorem getLsbD_maskOf (l : List Nat) (i : Nat) (hi : i < 1024) : (maskOf l).getLsbD i = decide (i ∈ l) := by
  have key : ∀ (l : List Nat) (m : Mask),
      (l.foldl (fun m i => m ||| BitVec.ofNat 1024 (1 <<< i)) m).getLsbD i = (m.getLsbD i || decide (i ∈ l)) := by
    intro l
    induction l with
    | nil => simp
    | cons x xs ih =>
      intro m
      simp only [List.foldl_cons, ih, BitVec.getLsbD_or, BitVec.getLsbD_ofNat, hi, decide_true, Bool.true_and,
        List.mem_cons]
      have : Nat.testBit (1 <<< x) i = decide (i = x) := by
        rw [Nat.one_shiftLeft, Nat.testBit_two_pow]
        simp [eq_comm]
      rw [this, Bool.or_assoc]
      simp [Bool.decide_or]
  have := key l 0
  simpa [maskOf] using this

theorem getLsbD_fullMask (W i : Nat) (hi : i < 1024) : (fullMask W).getLsbD i = decide (i < W) := by
  rw [fullMask, BitVec.getLsbD_ofNat, Nat.testBit_two_pow_sub_one]
  simp [hi]

/-- The writes of the active lanes' bits into a mask register. -/
theorem writesK_putK {w : Fields} {s : State} {e : Env} (h : WordFacts w s e) (v : Wave) (hk : v.k = e.wv.k)
    (hv : v.width = e.wv.width) (m : Nat) (f : Nat → Bool) : WritesK e v m f (v.writes (e.putK m f)) := by
  refine ⟨fun n i => ?_, fun n => ?_, fun n hn => ?_, fun hm i hi => ?_⟩
  · simp [Wave.writes, Env.putK]
  · simp [Wave.writes, Env.putK]
  · simp [Wave.writes, Env.putK, Wave.kelem_write_k, hn]
  · simp only [Wave.writes, Env.putK, List.foldl_cons, List.foldl_nil, Wave.kelem_write_k, hm, ne_eq,
      not_false_eq_true, true_and, if_true, BitVec.getLsbD_and, BitVec.getLsbD_or, getLsbD_fullMask _ _ hi,
      getLsbD_maskOf _ _ hi, BitVec.getLsbD_not, hi, decide_true, Bool.true_and, List.mem_filter]
    have hkel : v.kelem m = Tbl.get e.wv.k m 0 := by simp [Wave.kelem, hk]
    have hmem : i ∈ e.lanes ↔ i < e.wv.width ∧ e.act.getLsbD i = true := by rw [h.lanes]; exact mem_lanesOf
    by_cases hact : i ∈ e.lanes
    · have := hmem.mp hact
      simp [hact, this.2]
    · rw [if_neg hact, hkel]
      simp only [hact, false_and, decide_false, Bool.or_false]
      by_cases hb : e.act.getLsbD i = true
      · have hw : ¬ i < e.wv.width := fun hlt => hact (hmem.mpr ⟨hlt, hb⟩)
        simp [hv, hw]
      · simp [hb]

/-! ### Completion -/

theorem twinInject_single {e : Env} {s : State} (h : s.isTwin e.wv.lid = false) (req : Option Nat)
    (ws : List RegWrite) : twinInject e s req ws = (s, ws) := by simp [twinInject, h]

theorem countWait_single {e : Env} {s : State} (h : s.isTwin e.wv.lid = false) (r : Wait) : countWait e s r = s := by
  unfold countWait
  split
  · rw [twinInject_single h]
  · rfl

theorem twinStep_single {s : State} {w : Wave} (h : s.twinned w = false) (wid code : Nat) :
    s.twinStep wid w code = s := by simp [State.twinStep, h]

/-- No floating-point trap of an instruction is taken. -/
theorem fpTrap_none {w : Wave} {fl : List (Nat × FFlags)} (n : Nat)
    (h : w.handler.isSome ∨ ∀ p ∈ fl, trappedFlags w.fpctl p.2 = 0) : fpTrap w fl n = none := by
  have : trappedLanes w fl = (noFlags, []) := by
    unfold trappedLanes
    rcases h with h | h
    · simp [h]
    · split
      · rfl
      · have : (fl.filter fun p => trappedFlags w.fpctl p.2 != 0) = [] := by
          rw [List.filter_eq_nil_iff]
          intro p hp
          simp [h p hp]
        rw [this]
        rfl
  simp [fpTrap, this, noFlags]

@[simp] theorem fpTrap_nil (w : Wave) (n : Nat) : fpTrap w [] n = none := fpTrap_none n (by simp)

/-- What the pending results of the wave become: none is added for a word that writes nothing and asks for nothing. -/
def Env.pendingAfter (e : Env) (l : List Pending) (d : Done) : List Pending :=
  if d.ws.isEmpty && d.req.isNone && d.late.isNone then l else l ++ pendingsOf e d d.late

/-- The state when a word has completed: its writes and flags, its pending result, the advance of its fragment. -/
def Env.completed (e : Env) (d : Done) : State :=
  d.s.modWave e.wid fun w =>
    { w.writes d.ws with
      fpflags := fpflagsAfter (w.writes d.ws).fpflags (mergeFlags (d.fl.map (·.2))),
      pending := e.pendingAfter (w.writes d.ws).pending d,
      frags := Tbl.upd (w.writes d.ws).frags e.fr fun f => f.advanceTo e.cl e.next }

/-- What `Env.completed` says of the wave. `d.s` is the state that the word's effect has left, `v` its wave there. -/
theorem completed_spec {e : Env} {d : Done} {v : Wave} {f : Frag} (hv : d.s.wave e.wid = some v)
    (hf : Tbl.find v.frags e.fr = some f) (hfe : f.advanceTo e.cl e.next = e.frag.advanceTo e.cl e.next) :
    ∃ w', Completes e d.s v (e.completed d) w' ∧ w'.v = (v.writes d.ws).v ∧ w'.s = (v.writes d.ws).s ∧
      w'.k = (v.writes d.ws).k ∧ w'.fpflags = fpflagsAfter v.fpflags (mergeFlags (d.fl.map (·.2))) ∧
      w'.pending = e.pendingAfter v.pending d := by
  have hp := Wave.writes_parts v d.ws
  have hfr : (v.writes d.ws).frags = v.frags := by rw [hp]
  refine ⟨{ v.writes d.ws with
      fpflags := fpflagsAfter (v.writes d.ws).fpflags (mergeFlags (d.fl.map (·.2))),
      pending := e.pendingAfter (v.writes d.ws).pending d,
      frags := Tbl.upd (v.writes d.ws).frags e.fr fun f => f.advanceTo e.cl e.next }, ⟨hv, ?_, ?_, rfl, ?_, ?_, ?_⟩, rfl, rfl, rfl, ?_, ?_⟩
  · rw [Env.completed, State.wave_modWave, if_pos rfl, hv]
    rfl
  · intro k hk
    rw [Env.completed, State.wave_modWave, if_neg hk]
  · rw [hp]
  · simp only [hfr, Tbl.find_upd, if_true, hf, Option.map_some, hfe]
  · intro r hr
    simp only [hfr, Tbl.find_upd, if_neg hr]
  · simp only
    rw [hp]
  · simp only
    rw [hp]

/-- A word that raises no trap settles as completed. -/
theorem settle_done {e : Env} {d : Done} (single : d.s.twinned e.wv = false) (hfault : d.fault = none)
    (hreport : d.report = none) (hfp : fpTrap e.wv d.fl d.dcode = none) (hhold : d.hold = none) :
    settleWord e (.done d) = e.completed d := by
  have htw : d.s.isTwin e.wv.lid = false := single
  simp only [settleWord, finish, twinInject_single htw, hfault, hreport, hfp, hhold, Env.completed, Env.pendingAfter,
    Option.isSome_none, Bool.and_false, Bool.not_false, Bool.and_true, Bool.false_eq_true, if_false, State.modFrag_eq,
    Wave.modFrag]
  split <;>
    simp only [State.modWave_modWave] <;>
    rw [twinStep_single] <;> first | rfl | exact single

/-- A word without lookahead that raises a report trap completes and takes it. -/
theorem finish_report {e : Env} {d : Done} {t : TrapRec} (hfault : d.fault = none)
    (hrep : fpTrap e.wv d.fl d.dcode = some t ∨ (fpTrap e.wv d.fl d.dcode = none ∧ d.report = some t)) (hhold : d.hold = none)
    (hla : e.w.la = 0) (single : d.s.twinned e.wv = false) :
    finish e d = (e.completed d).takeTrapHere e.wid e.fr t := by
  have htw : d.s.isTwin e.wv.lid = false := single
  rcases hrep with h | ⟨h, h'⟩
  · by_cases hp : (d.ws.isEmpty && d.req.isNone && d.late.isNone) = true <;>
      simp [finish, twinInject_single htw, hfault, h, hhold, Env.completed, Env.pendingAfter, hla, Wave.modFrag, hp] <;> rfl
  · by_cases hp : (d.ws.isEmpty && d.req.isNone && d.late.isNone) = true <;>
      simp [finish, twinInject_single htw, hfault, h, h', hhold, Env.completed, Env.pendingAfter, hla, Wave.modFrag, hp] <;> rfl

/-- A word that raises no trap completes: its writes and flags, its pending result, the advance of its fragment. `d.s` is the
state that its effect has left. -/
theorem finish_done {e : Env} {d : Done} {v : Wave} {f : Frag} (single : d.s.twinned e.wv = false)
    (hv : d.s.wave e.wid = some v) (hf : Tbl.find v.frags e.fr = some f) (hfe : f.advanceTo e.cl e.next = e.frag.advanceTo e.cl e.next)
    (hfault : d.fault = none) (hreport : d.report = none) (hfp : fpTrap e.wv d.fl d.dcode = none) (hhold : d.hold = none) :
    ∃ w', Completes e d.s v (settleWord e (.done d)) w' ∧ w'.v = (v.writes d.ws).v ∧ w'.s = (v.writes d.ws).s ∧
      w'.k = (v.writes d.ws).k ∧ w'.fpflags = fpflagsAfter v.fpflags (mergeFlags (d.fl.map (·.2))) ∧
      w'.pending = e.pendingAfter v.pending d := by
  rw [settle_done single hfault hreport hfp hhold]
  exact completed_spec hv hf hfe

/-! ### The usual answers of a word -/

/-- `finish_done` for a word whose effect is on registers alone. -/
theorem completes_regs {w : Fields} {s : State} {e : Env} (h : Issues w s e) (d : Done) (hs : d.s = e.s) (hfault : d.fault = none)
    (hreport : d.report = none) (hfp : fpTrap e.wv d.fl d.dcode = none) (hhold : d.hold = none) :
    ∃ w', Completes e e.s e.wv (settleWord e (.done d)) w' ∧ w'.v = (e.wv.writes d.ws).v ∧ w'.s = (e.wv.writes d.ws).s ∧
      w'.k = (e.wv.writes d.ws).k ∧ w'.fpflags = fpflagsAfter e.wv.fpflags (mergeFlags (d.fl.map (·.2))) ∧
      w'.pending = e.pendingAfter e.wv.pending d := by
  have F := h.facts
  have := finish_done (e := e) (d := d) (v := e.wv) (f := e.frag) (by rw [hs, F.state]; exact h.single)
    (by rw [hs, F.state]; exact F.wave) F.frag rfl hfault hreport hfp hhold
  rwa [hs] at this

/-- The registers of a wave decide what has been written. -/
theorem WritesD.of_regs {e : Env} {v x y : Wave} {t : Ty} {f : Nat → Nat} (h : WritesD e v t f x) (hv : y.v = x.v)
    (hs : y.s = x.s) (hk : y.k = x.k) : WritesD e v t f y := by
  unfold WritesD Wave.velem Wave.selem Wave.kelem at *
  rw [hv, hs, hk]
  exact h

theorem WritesS.of_regs {e : Env} {v x y : Wave} {n : Nat} (h : WritesS e v n x) (hv : y.v = x.v) (hs : y.s = x.s)
    (hk : y.k = x.k) : WritesS e v n y := by
  unfold WritesS Wave.velem Wave.selem Wave.kelem at *
  rw [hv, hs, hk]
  exact h

theorem WritesK.of_regs {e : Env} {v x y : Wave} {m : Nat} {f : Nat → Bool} (h : WritesK e v m f x) (hv : y.v = x.v)
    (hs : y.s = x.s) (hk : y.k = x.k) : WritesK e v m f y := by
  unfold WritesK Wave.velem Wave.selem Wave.kelem at *
  rw [hv, hs, hk]
  exact h

theorem SameRegs.of_regs {v y : Wave} (hv : y.v = v.v) (hs : y.s = v.s) (hk : y.k = v.k) : SameRegs v y := by
  unfold SameRegs Wave.velem Wave.selem Wave.kelem
  rw [hv, hs, hk]
  exact ⟨fun _ _ => rfl, fun _ => rfl, fun _ => rfl⟩

/-- Only the active lanes' values matter. -/
theorem WritesD.congr {e : Env} {v x : Wave} {t : Ty} {f g : Nat → Nat} (h : WritesD e v t f x)
    (hfg : ∀ i ∈ e.lanes, g i = f i) : WritesD e v t g x := by
  obtain ⟨h1, h2, h3⟩ := h
  refine ⟨fun n i hi => ?_, fun n => ?_, h3⟩
  · rw [h1 n i hi]
    by_cases hl : i ∈ e.lanes
    · simp only [hfg i hl]
    · simp [hl]
  · rw [h2 n]
    by_cases hl : e.lanes = []
    · simp [hl]
    · have : e.first ∈ e.lanes := by
        unfold Env.first
        cases hls : e.lanes with
        | nil => exact absurd hls hl
        | cons a l => simp
      rw [hfg _ this]

/-- An instruction word answers a next state: the one in which its meaning settles. -/
theorem exec_word {w : Fields} {s : State} {e : Env} (h : Issues w s e) {i : Instr} {body : Env → WRes}
    (hx : exec i s = onWord w s body) : exec i e.s = .next (settleWord e (body e)) := by
  rw [h.facts.state, hx]
  exact onWord_next h.env _

/-- A word whose meaning is `d` and whose effect is on registers alone completes. -/
theorem word_done {w : Fields} {s : State} {e : Env} (h : Issues w s e) {i : Instr} {body : Env → WRes} {d : Done}
    (hx : exec i s = onWord w s body) (hb : body e = .done d) (hs : d.s = e.s) (hfault : d.fault = none)
    (hreport : d.report = none) (hfp : fpTrap e.wv d.fl d.dcode = none) (hhold : d.hold = none) :
    ∃ s' w', exec i e.s = .next s' ∧ Completes e e.s e.wv s' w' ∧ w'.v = (e.wv.writes d.ws).v ∧
      w'.s = (e.wv.writes d.ws).s ∧ w'.k = (e.wv.writes d.ws).k ∧
      w'.fpflags = fpflagsAfter e.wv.fpflags (mergeFlags (d.fl.map (·.2))) ∧ w'.pending = e.pendingAfter e.wv.pending d := by
  obtain ⟨w', hc⟩ := completes_regs h d hs hfault hreport hfp hhold
  exact ⟨_, w', by rw [exec_word h hx, hb], hc⟩

/-- A word whose meaning is `d` completes; `d.s` is the state that its effect has left, `v` its wave there. -/
theorem effect_done {w : Fields} {s : State} {e : Env} (h : Issues w s e) {i : Instr} {body : Env → WRes} {d : Done} {v : Wave}
    (hx : exec i s = onWord w s body) (hb : body e = .done d) (single : d.s.twinned e.wv = false)
    (hv : d.s.wave e.wid = some v) (hf : Tbl.find v.frags e.fr = some e.frag) (hfault : d.fault = none)
    (hreport : d.report = none) (hfp : fpTrap e.wv d.fl d.dcode = none) (hhold : d.hold = none) :
    ∃ s' w', exec i e.s = .next s' ∧ Completes e d.s v s' w' ∧ w'.v = (v.writes d.ws).v ∧ w'.s = (v.writes d.ws).s ∧
      w'.k = (v.writes d.ws).k ∧ w'.fpflags = fpflagsAfter v.fpflags (mergeFlags (d.fl.map (·.2))) ∧
      w'.pending = e.pendingAfter v.pending d := by
  obtain ⟨w', hc⟩ := finish_done single hv hf rfl hfault hreport hfp hhold
  exact ⟨_, w', by rw [exec_word h hx, hb], hc⟩

/-- A word that writes elements and raises nothing. -/
theorem GivesD.of_elems {w : Fields} {s : State} {e : Env} (h : Issues w s e) {i : Instr} {body : Env → WRes} {t : Ty}
    {lat : Nat} {f : Nat → Nat} (hx : exec i s = onWord w s body) (hb : body e = e.elems t lat f) : GivesD e i t f := by
  have F := h.facts
  obtain ⟨w', hc, hv, hs, hk, hf, -⟩ := completes_regs h { s := e.s, ws := e.putD t f, lat := lat } rfl rfl rfl (by simp) rfl
  refine ⟨_, w', ?_, hc, (writesD_putD F.lane_lt e.wv t f).of_regs hv hs hk, by simpa [fpflagsAfter, mergeFlags, noFlags] using hf⟩
  rw [exec_word h hx, hb]
  rfl

/-- A word that writes a scalar and raises nothing. -/
theorem GivesS.of_putS {w : Fields} {s : State} {e : Env} (h : Issues w s e) {i : Instr} {body : Env → WRes} {lat x : Nat}
    (hx : exec i s = onWord w s body) (hb : body e = .done { s := e.s, ws := e.putS x, lat := lat }) : GivesS e i x := by
  have F := h.facts
  obtain ⟨w', hc, hv, hs, hk, hf, -⟩ := completes_regs h { s := e.s, ws := e.putS x, lat := lat } rfl rfl rfl (by simp) rfl
  refine ⟨_, w', ?_, hc, (writesS_putS e e.wv x).of_regs hv hs hk, by simpa [fpflagsAfter, mergeFlags, noFlags] using hf⟩
  rw [exec_word h hx, hb]

/-- A word that writes the active lanes of a mask and raises nothing. -/
theorem GivesK.of_putK {w : Fields} {s : State} {e : Env} (h : Issues w s e) {i : Instr} {body : Env → WRes} {lat : Nat}
    {f : Nat → Bool} (hx : exec i s = onWord w s body)
    (hb : body e = .done { s := e.s, ws := e.putK e.w.d.toNat f, lat := lat }) : GivesK e i f := by
  have F := h.facts
  obtain ⟨w', hc, hv, hs, hk, hf, -⟩ :=
    completes_regs h { s := e.s, ws := e.putK e.w.d.toNat f, lat := lat } rfl rfl rfl (by simp) rfl
  refine ⟨_, w', ?_, hc, (writesK_putK F e.wv rfl rfl _ f).of_regs hv hs hk,
    by simpa [fpflagsAfter, mergeFlags, noFlags] using hf⟩
  rw [exec_word h hx, hb]

/-- A word that changes no register and raises nothing. -/
theorem GivesNothing.of_done {w : Fields} {s : State} {e : Env} (h : Issues w s e) {i : Instr} {body : Env → WRes}
    (hx : exec i s = onWord w s body) (hb : body e = .done { s := e.s }) : GivesNothing e i := by
  have F := h.facts
  obtain ⟨w', hc, hv, hs, hk, hf, hp⟩ := completes_regs h { s := e.s } rfl rfl rfl (by simp) rfl
  refine ⟨_, w', ?_, hc, SameRegs.of_regs hv hs hk, by simpa [fpflagsAfter, mergeFlags, noFlags] using hf,
    by simpa [Env.pendingAfter] using hp⟩
  rw [exec_word h hx, hb]

/-- The value that a floating-point word finds again for a lane. -/
def Env.look (e : Env) (f : Nat → Nat × FFlags) (i : Nat) : Nat :=
  match (e.lanes.map fun j => (j, f j)).find? fun p => p.1 == i with
  | some p => p.2.1
  | none => 0

theorem Env.look_lane {e : Env} (f : Nat → Nat × FFlags) {i : Nat} (hi : i ∈ e.lanes) : e.look f i = (f i).1 := by
  unfold Env.look
  generalize e.lanes = l at hi
  induction l with
  | nil => simp at hi
  | cons j js ih =>
    by_cases h : j = i
    · subst h; simp
    · have : i ∈ js := by simpa [Ne.symm h] using hi
      simpa [h] using ih this

/-- A floating-point word's answer, with its exceptions by lane. -/
theorem Env.felems_eq (e : Env) (t : Ty) (lat : Nat) (f : Nat → Nat × FFlags) :
    e.felems t lat f = .done { s := e.s, ws := e.putD t (e.look f), fl := e.lanes.map fun j => (j, (f j).2),
                               dcode := e.w.d.toNat, lat := lat } := by
  have hfl : (e.lanes.map fun j => (j, f j)).map (fun p => (p.1, p.2.2)) = e.lanes.map fun j => (j, (f j).2) := by simp
  rw [← hfl]
  rfl

/-- A word that writes elements and raises exceptions whose traps are off. -/
theorem GivesF.of_felems {w : Fields} {s : State} {e : Env} (h : Issues w s e) {i : Instr} {body : Env → WRes} {t : Ty}
    {lat : Nat} {f : Nat → Nat × FFlags} (hx : exec i s = onWord w s body) (hb : body e = e.felems t lat f) :
    GivesF e i t f := by
  intro hn
  have F := h.facts
  have hfp : fpTrap e.wv (e.lanes.map fun j => (j, (f j).2)) e.w.d.toNat = none := by
    refine fpTrap_none _ ?_
    rcases hn with hn | hn
    · exact Or.inl hn
    · refine Or.inr fun p hp => ?_
      obtain ⟨j, hj, rfl⟩ := List.mem_map.mp hp
      exact hn j hj
  obtain ⟨w', hc, hv, hs, hk, hf, -⟩ := completes_regs h
    (d := { s := e.s, ws := e.putD t (e.look f), fl := e.lanes.map fun j => (j, (f j).2), dcode := e.w.d.toNat, lat := lat })
    rfl rfl rfl hfp rfl
  refine ⟨_, w', ?_, hc, ((writesD_putD F.lane_lt e.wv t _).of_regs hv hs hk).congr fun i hi => (Env.look_lane f hi).symm, ?_⟩
  · rw [exec_word h hx, hb, Env.felems_eq]
  · simpa [fpflagsAfter, raised, Function.comp_def] using hf

/-- The same of other functions that agree. -/
theorem GivesF.congr {e : Env} {i : Instr} {t : Ty} {f g : Nat → Nat × FFlags} (h : GivesF e i t f) (hfg : ∀ l, g l = f l) :
    GivesF e i t g := by
  have : g = f := funext hfg
  exact this ▸ h

/-- A word that writes bits and raises exceptions whose traps are off. -/
theorem GivesKF.of_putK {w : Fields} {s : State} {e : Env} (h : Issues w s e) {i : Instr} {body : Env → WRes}
    {lat : Nat} {f : Nat → Bool × FFlags} (hx : exec i s = onWord w s body)
    (hb : body e = .done { s := e.s, ws := e.putK e.w.d.toNat fun i => (f i).1, fl := e.lanes.map fun i => (i, (f i).2),
                           dcode := e.w.d.toNat, lat := lat }) : GivesKF e i f := by
  intro hn
  have F := h.facts
  have hfp : fpTrap e.wv (e.lanes.map fun j => (j, (f j).2)) e.w.d.toNat = none := by
    refine fpTrap_none _ ?_
    rcases hn with hn | hn
    · exact Or.inl hn
    · refine Or.inr fun p hp => ?_
      obtain ⟨j, hj, rfl⟩ := List.mem_map.mp hp
      exact hn j hj
  obtain ⟨w', hc, hv, hs, hk, hf, -⟩ := completes_regs h
    (d := { s := e.s, ws := e.putK e.w.d.toNat fun i => (f i).1, fl := e.lanes.map fun j => (j, (f j).2),
            dcode := e.w.d.toNat, lat := lat }) rfl rfl rfl hfp rfl
  refine ⟨_, w', ?_, hc, (writesK_putK F e.wv rfl rfl _ _).of_regs hv hs hk, ?_⟩
  · rw [exec_word h hx, hb]
  · simpa [fpflagsAfter, raised, Function.comp_def] using hf

end Sys2Proof.Machine
end

