-- ==== Sys2Proof/Laws/Integer.lean ====
section
/-! SUPPORT. Laws of the integer, shift and logic values. -/

namespace Sys2Proof.Machine

theorem givesInt_of {w : Fields} {s : State} {e : Env} (h : Issues w s e) {i : Instr} {body : Env → WRes} {t : Ty} {lat : Nat}
    {sat : Bool} {r : Nat → Int} (hx : exec i s = onWord w s body) (hb : body e = e.elems t lat fun l => fitInt t sat (r l)) :
    GivesInt e i t sat r := ⟨_, GivesD.of_elems h hx hb, fun _ _ => fits_fitInt _ _ _⟩

theorem idiv_spec (t : Ty) (a b : Int) :
    if b = 0 then idivVal t a b = (if tySigned t then -1 else maxOf t) ∧ iremVal t a b = a
    else if tySigned t ∧ a = minOf t ∧ b = -1 then idivVal t a b = minOf t ∧ iremVal t a b = 0
    else a = b * idivVal t a b + iremVal t a b ∧ (iremVal t a b).natAbs < b.natAbs ∧ (0 ≤ a → 0 ≤ iremVal t a b) ∧
      (a ≤ 0 → iremVal t a b ≤ 0) := by
  unfold idivVal iremVal
  split
  · simp
  · rename_i hb
    split
    · simp
    · refine ⟨(Int.mul_tdiv_add_tmod a b).symm, ?_, ?_, ?_⟩
      · rw [Int.natAbs_tmod]
        exact Nat.mod_lt _ (by omega)
      · exact fun h => Int.tmod_nonneg b h
      · intro h
        have := Int.tmod_nonneg b (a := -a) (by omega)
        rw [Int.neg_tmod] at this
        omega

theorem src_lt (e : Env) (code : Nat) (t : Ty) (l : Nat) : e.src code t l < 2 ^ tyBits t := Nat.mod_lt _ (Nat.two_pow_pos _)

theorem a_lt (e : Env) (t : Ty) (l : Nat) : e.a t l < 2 ^ tyBits t := src_lt _ _ _ _

theorem shl_bv (n a b : Nat) (ha : a < 2 ^ n) : shlVal n a b = (BitVec.ofNat n a <<< b).toNat := by
  simp [shlVal, Nat.mod_eq_of_lt ha]
  intro h
  rw [Nat.shiftLeft_eq]
  symm
  apply Nat.mod_eq_zero_of_dvd
  exact Nat.dvd_trans (Nat.pow_dvd_pow 2 h) (Nat.dvd_mul_left _ _)

theorem shr_bv (n a b : Nat) (ha : a < 2 ^ n) : shrVal n a b = (BitVec.ofNat n a >>> b).toNat := by
  simp [shrVal, Nat.mod_eq_of_lt ha]
  intro h
  rw [Nat.shiftRight_eq_div_pow]
  symm
  exact Nat.div_eq_of_lt (Nat.lt_of_lt_of_le ha (Nat.pow_le_pow_right (by omega) h))

theorem toSigned_bv (n a : Nat) (hn : 0 < n) : toSigned n a = (BitVec.ofNat n a).toInt := by
  have h2 : 2 ^ n = 2 ^ (n - 1) + 2 ^ (n - 1) := by
    obtain ⟨m, rfl⟩ : ∃ m, n = m + 1 := ⟨n - 1, by omega⟩
    rw [Nat.pow_succ, Nat.add_sub_cancel]; omega
  simp only [toSigned, BitVec.toInt, BitVec.toNat_ofNat, two_pow_cast]
  generalize a % 2 ^ n = y
  generalize 2 ^ (n - 1) = h at *
  generalize 2 ^ n = m at *
  subst h2
  split <;> split <;> omega

theorem sar_bv (n a b : Nat) (hn : 0 < n) : sarVal n a b = ((BitVec.ofNat n a).sshiftRight b).toNat := by
  rw [sarVal, toSigned_bv n a hn, BitVec.sshiftRight, BitVec.toNat_ofInt, wrap, Int.shiftRight_eq_div_pow]
  split
  · rename_i hb
    have lo := BitVec.le_toInt (BitVec.ofNat n a)
    have hi := BitVec.toInt_lt (x := BitVec.ofNat n a)
    generalize (BitVec.ofNat n a).toInt = x at *
    have hle : 2 ^ n ≤ 2 ^ b := Nat.pow_le_pow_right (by omega) hb
    have h2 : 2 ^ n = 2 ^ (n - 1) + 2 ^ (n - 1) := by
      obtain ⟨m, rfl⟩ : ∃ m, n = m + 1 := ⟨n - 1, by omega⟩
      rw [Nat.pow_succ, Nat.add_sub_cancel]; omega
    have hpos := Nat.two_pow_pos (n - 1)
    simp only [two_pow_cast] at lo hi
    have key : ∀ m : Nat, 2 ^ n ≤ m → x / (m : Int) = if 0 ≤ x then 0 else -1 := by
      intro m hm
      split
      · exact Int.ediv_eq_zero_of_lt (by omega) (by omega)
      · rw [Int.ediv_eq_iff_of_pos (by omega)]
        omega
    rw [key _ (Nat.le_refl _), key _ hle]
  · rfl

theorem rot_bv (n a b : Nat) (ha : a < 2 ^ n) : rotVal n a b = ((BitVec.ofNat n a).rotateLeft b).toNat := by
  rw [rotVal, BitVec.rotateLeft, BitVec.rotateLeftAux, BitVec.toNat_or, BitVec.toNat_shiftLeft, BitVec.toNat_ushiftRight,
    BitVec.toNat_ofNat, Nat.mod_eq_of_lt ha, Nat.or_mod_two_pow]
  congr 1
  exact Nat.mod_eq_of_lt (Nat.lt_of_le_of_lt (by rw [Nat.shiftRight_eq_div_pow]; exact Nat.div_le_self _ _) ha)

theorem ofBool_le (b : Bool) : ofBool b ≤ 1 := by cases b <;> decide

theorem ofBool_testBit (b : Bool) (m : Nat) : (ofBool b).testBit m = (b && decide (m = 0)) := by
  cases b <;> cases m <;> simp [ofBool, Nat.testBit_succ]

theorem lop3_lt (lut a b c n : Nat) : lop3Val lut a b c n < 2 ^ n := by
  induction n with
  | zero => simp [lop3Val]
  | succ n ih =>
    simp only [lop3Val, Nat.pow_succ]
    have := ofBool_le (lut.testBit (4 * ofBool (a.testBit n) + 2 * ofBool (b.testBit n) + ofBool (c.testBit n)))
    have := Nat.mul_le_mul_left (2 ^ n) this
    omega

theorem lop3_bit (lut a b c n m : Nat) : (lop3Val lut a b c n).testBit m =
    (decide (m < n) && lut.testBit (4 * ofBool (a.testBit m) + 2 * ofBool (b.testBit m) + ofBool (c.testBit m))) := by
  induction n with
  | zero => simp [lop3Val]
  | succ n ih =>
    rw [lop3Val, Nat.add_comm, Nat.testBit_two_pow_mul_add _ (lop3_lt lut a b c n)]
    split
    · rename_i h
      rw [ih]
      simp [h, Nat.lt_succ_of_lt h]
    · rw [ofBool_testBit]
      by_cases hm : m = n
      · subst hm; simp
      · have h1 : ¬ m < n + 1 := by omega
        have h2 : ¬ m - n = 0 := by omega
        simp [h1, h2]

theorem toSigned_16_range {t : Ty} (ht : tySigned t = true ∧ 16 ≤ tyBits t) (x : Nat) :
    minOf t ≤ toSigned 16 x ∧ toSigned 16 x ≤ maxOf t := by
  obtain ⟨h1, h2⟩ := ht
  simp only [minOf, maxOf, h1, if_true, toSigned]
  have : 2 ^ 15 ≤ 2 ^ (tyBits t - 1) := Nat.pow_le_pow_right (by omega) (by omega)
  have := Nat.mod_lt x (show 0 < 2 ^ 16 by decide)
  split <;> omega

theorem WritesK.congr {e : Env} {v x : Wave} {m : Nat} {f g : Nat → Bool} (h : WritesK e v m f x)
    (hfg : ∀ i ∈ e.lanes, g i = f i) : WritesK e v m g x := by
  obtain ⟨h1, h2, h3, h4⟩ := h
  refine ⟨h1, h2, h3, fun hm i hi => ?_⟩
  rw [h4 hm i hi]
  by_cases hl : i ∈ e.lanes
  · simp only [hfg i hl]
  · simp [hl]

theorem GivesK.congr {e : Env} {i : Instr} {f g : Nat → Bool} (h : GivesK e i f) (hfg : ∀ l ∈ e.lanes, g l = f l) : GivesK e i g := by
  obtain ⟨s', w', h1, h2, h3, h4⟩ := h
  exact ⟨s', w', h1, h2, h3.congr hfg, h4⟩

theorem GivesD.congr {e : Env} {i : Instr} {t : Ty} {f g : Nat → Nat} (h : GivesD e i t f) (hfg : ∀ l ∈ e.lanes, g l = f l) :
    GivesD e i t g := by
  obtain ⟨s', w', h1, h2, h3, h4⟩ := h
  exact ⟨s', w', h1, h2, h3.congr hfg, h4⟩

theorem headD_least {l : List Nat} {x : Nat} (hs : l.Pairwise (· < ·)) (hx : x ∈ l) (hm : ∀ m ∈ l, x ≤ m) (d : Nat) : l.headD d = x := by
  cases l with
  | nil => simp at hx
  | cons a t =>
    have h1 := hm a (by simp)
    rcases List.mem_cons.mp hx with rfl | h2
    · rfl
    · have := (List.pairwise_cons.mp hs).1 x h2
      omega

theorem lastD_greatest {l : List Nat} {x : Nat} (hs : l.Pairwise (· < ·)) (hx : x ∈ l) (hm : ∀ m ∈ l, m ≤ x) (d : Nat) :
    l.reverse.headD d = x := by
  have hs' : l.reverse.Pairwise (· > ·) := List.pairwise_reverse.mpr hs
  have hx' : x ∈ l.reverse := List.mem_reverse.mpr hx
  generalize hr : l.reverse = r at *
  cases r with
  | nil => simp at hx'
  | cons a t =>
    have h1 := hm a (List.mem_reverse.mp (by rw [hr]; simp))
    rcases List.mem_cons.mp hx' with rfl | h2
    · rfl
    · have := (List.pairwise_cons.mp hs').1 x h2
      omega

theorem lanesOf_sorted (W : Nat) (m : Mask) : (lanesOf W m).Pairwise (· < ·) :=
  List.Pairwise.filter _ List.pairwise_lt_range

theorem WordFacts.lanes_sorted {w : Fields} {s : State} {e : Env} (h : WordFacts w s e) : e.lanes.Pairwise (· < ·) := by
  rw [h.lanes]; exact lanesOf_sorted _ _

/-- Bits of a number with a field replaced. -/
theorem setBits_bit (x hi lo v n : Nat) (h : lo ≤ hi) : (setBits x hi lo v).testBit n =
    if lo ≤ n ∧ n ≤ hi then v.testBit (n - lo) else x.testBit n := by
  obtain ⟨k, rfl⟩ : ∃ k, hi = lo + k := ⟨hi - lo, by omega⟩
  have hw : lo + k + 1 - lo = k + 1 := by omega
  simp only [setBits, bits, hw, Nat.shiftRight_eq_div_pow, Nat.shiftLeft_eq]
  -- the three parts of x
  have h1 : x = 2 ^ lo * (x / 2 ^ lo) + x % 2 ^ lo := (Nat.div_add_mod x (2 ^ lo)).symm
  have h2 : x / 2 ^ lo = 2 ^ (k + 1) * (x / 2 ^ lo / 2 ^ (k + 1)) + x / 2 ^ lo % 2 ^ (k + 1) := (Nat.div_add_mod _ _).symm
  generalize hq : x / 2 ^ lo / 2 ^ (k + 1) = q at *
  generalize hm : x / 2 ^ lo % 2 ^ (k + 1) = m at *
  generalize hl : x % 2 ^ lo = l at *
  have llt : l < 2 ^ lo := by rw [← hl]; exact Nat.mod_lt _ (Nat.two_pow_pos _)
  have mlt : m < 2 ^ (k + 1) := by rw [← hm]; exact Nat.mod_lt _ (Nat.two_pow_pos _)
  have vlt : v % 2 ^ (k + 1) < 2 ^ (k + 1) := Nat.mod_lt _ (Nat.two_pow_pos _)
  have e1 : x - m * 2 ^ lo + v % 2 ^ (k + 1) * 2 ^ lo = 2 ^ lo * (2 ^ (k + 1) * q + v % 2 ^ (k + 1)) + l := by
    rw [h1, h2, Nat.mul_add, Nat.mul_add, Nat.mul_comm m]
    rw [Nat.mul_comm (v % 2 ^ (k + 1))]
    omega
  rw [e1, Nat.testBit_two_pow_mul_add _ llt]
  have e2 : x.testBit n = (2 ^ lo * (2 ^ (k + 1) * q + m) + l).testBit n := by rw [← h2, ← h1]
  rw [e2, Nat.testBit_two_pow_mul_add _ llt]
  by_cases a : n < lo
  · rw [if_pos a, if_pos a, if_neg (by omega)]
  · rw [if_neg a, if_neg a, Nat.testBit_two_pow_mul_add _ vlt, Nat.testBit_two_pow_mul_add _ mlt]
    by_cases b : n - lo < k + 1
    · rw [if_pos b, if_pos (by omega), Nat.testBit_mod_two_pow]
      simp [b]
    · rw [if_neg b, if_neg b, if_neg (by omega)]

theorem setMaskWord_bit (m : Mask) (j x : Nat) {l : Nat} (hl : l < 1024) : (setMaskWord m j x).getLsbD l =
    if l / 32 = j then x.testBit (l % 32) else m.getLsbD l := by
  rw [setMaskWord, BitVec.getLsbD_ofNat, setBits_bit _ _ _ _ _ (by omega)]
  simp only [hl, decide_true, Bool.true_and]
  by_cases h : l / 32 = j
  · rw [if_pos (by omega), if_pos h]
    congr 1
    omega
  · rw [if_neg (by omega), if_neg h]
    rfl

theorem popCount_filter (n x : Nat) : popCount n x = ((List.range n).filter fun m => x.testBit m).length := by
  induction n generalizing x with
  | zero => rfl
  | succ n ih =>
    rw [popCount, ih, List.range_succ_eq_map, List.filter_cons, List.filter_map, Nat.testBit_zero]
    have : ((fun m => x.testBit m) ∘ Nat.succ) = fun m => (x / 2).testBit m := by
      funext m
      simp [Nat.testBit_succ]
    rw [this]
    rcases Nat.mod_two_eq_zero_or_one x with h | h
    · simp [h]
    · simp [h, Nat.add_comm]

theorem clzVal_spec (n x : Nat) (hx : x < 2 ^ n) : if x = 0 then clzVal n x = n
    else clzVal n x < n ∧ x.testBit (n - 1 - clzVal n x) ∧ ∀ m, n - 1 - clzVal n x < m → x.testBit m = false := by
  split
  · rename_i h; simp [clzVal, h]
  · rename_i h
    have hl : x.log2 < n := (Nat.log2_lt h).mpr hx
    have he : n - 1 - (n - 1 - x.log2) = x.log2 := by omega
    simp only [clzVal, if_neg h, he]
    refine ⟨by omega, Nat.testBit_log2 h, fun m hm => ?_⟩
    exact Nat.testBit_lt_two_pow (Nat.lt_of_lt_of_le (Nat.lt_log2_self) (Nat.pow_le_pow_right (by omega) hm))

theorem ctzFrom_spec (n k x : Nat) (hx : x < 2 ^ n) : if x = 0 then ctzFrom n k x = k + n
    else ∃ p, ctzFrom n k x = k + p ∧ x.testBit p ∧ ∀ m, m < p → x.testBit m = false := by
  induction n generalizing k x with
  | zero =>
    have : x = 0 := by simpa using hx
    simp [this, ctzFrom]
  | succ n ih =>
    rw [ctzFrom]
    have hx2 : x / 2 < 2 ^ n := by rw [Nat.pow_succ] at hx; omega
    have := ih (k + 1) (x / 2) hx2
    by_cases hodd : x % 2 = 1
    · have h0 : x ≠ 0 := by omega
      rw [if_pos hodd, if_neg h0]
      exact ⟨0, rfl, by simp [hodd], fun m hm => by omega⟩
    · rw [if_neg hodd]
      by_cases h0 : x = 0
      · subst h0
        simp at this ⊢
        omega
      · rw [if_neg h0]
        rw [if_neg (by omega)] at this
        obtain ⟨p, h1, h2, h3⟩ := this
        refine ⟨p + 1, by omega, by rw [Nat.testBit_succ]; exact h2, fun m hm => ?_⟩
        cases m with
        | zero => simp; omega
        | succ m => rw [Nat.testBit_succ]; exact h3 m (by omega)

theorem fnsFrom_spec (n k x b : Nat) :
    match fnsFrom n k x b with
    | none => ((List.range n).filter fun m => x.testBit m).length ≤ b
    | some r => ∃ p, r = k + p ∧ p < n ∧ x.testBit p ∧ ((List.range p).filter fun m => x.testBit m).length = b := by
  induction n generalizing k x b with
  | zero => simp [fnsFrom]
  | succ n ih =>
    have key : ∀ q, ((List.range (q + 1)).filter fun m => x.testBit m).length =
        x % 2 + ((List.range q).filter fun m => (x / 2).testBit m).length := by
      intro q
      rw [← popCount_filter, ← popCount_filter, popCount]
    rw [fnsFrom]
    by_cases hodd : x % 2 = 1
    · rw [if_pos hodd]
      by_cases hb : b = 0
      · rw [if_pos hb]
        exact ⟨0, rfl, by omega, by simp [hodd], by simp [hb]⟩
      · rw [if_neg hb]
        have := ih (k + 1) (x / 2) (b - 1)
        split
        · rename_i he
          rw [he] at this
          simp only at this
          rw [key]
          omega
        · rename_i r he
          rw [he] at this
          obtain ⟨p, h1, h2, h3, h4⟩ := this
          exact ⟨p + 1, by omega, by omega, by rw [Nat.testBit_succ]; exact h3, by rw [key]; omega⟩
    · rw [if_neg hodd]
      have := ih (k + 1) (x / 2) b
      split
      · rename_i he
        rw [he] at this
        simp only at this
        rw [key]
        omega
      · rename_i r he
        rw [he] at this
        obtain ⟨p, h1, h2, h3, h4⟩ := this
        exact ⟨p + 1, by omega, by omega, by rw [Nat.testBit_succ]; exact h3, by rw [key]; omega⟩

theorem revBits_lt (n x : Nat) : revBits n x < 2 ^ n := by
  induction n generalizing x with
  | zero => simp [revBits]
  | succ n ih =>
    have := ih (x / 2)
    rw [revBits, Nat.pow_succ]
    have : x % 2 * 2 ^ n ≤ 1 * 2 ^ n := Nat.mul_le_mul_right _ (by omega)
    omega

theorem revBits_bit (n x m : Nat) (hm : m < n) : (revBits n x).testBit m = x.testBit (n - 1 - m) := by
  induction n generalizing x m with
  | zero => omega
  | succ n ih =>
    rw [revBits, Nat.mul_comm, Nat.testBit_two_pow_mul_add _ (revBits_lt _ _)]
    split
    · rename_i h
      rw [ih _ _ h, show n + 1 - 1 - m = (n - 1 - m) + 1 by omega, Nat.testBit_succ]
    · have : m = n := by omega
      subst this
      rcases Nat.mod_two_eq_zero_or_one x with h | h <;> simp [h]

theorem sub_and_bit (a m i : Nat) : (a - (a &&& m)).testBit i = (a.testBit i && !m.testBit i) := by
  induction i generalizing a m with
  | zero =>
    have h := Nat.testBit_and a m 0
    have hle : a &&& m ≤ a := Nat.and_le_left
    generalize a &&& m = q at *
    simp only [Nat.testBit_zero] at *
    rcases Nat.mod_two_eq_zero_or_one a with ha | ha <;> rcases Nat.mod_two_eq_zero_or_one m with hm | hm <;>
      rcases Nat.mod_two_eq_zero_or_one q with hq | hq <;> simp [ha, hm, hq] at h ⊢ <;> omega
  | succ i ih =>
    have h := Nat.testBit_and a m 0
    have hle : a &&& m ≤ a := Nat.and_le_left
    have hd : (a &&& m) / 2 = a / 2 &&& m / 2 := Nat.and_div_two
    rw [Nat.testBit_succ, Nat.testBit_succ, Nat.testBit_succ, ← ih, ← hd]
    congr 1
    generalize a &&& m = q at *
    have : q % 2 ≤ a % 2 := by
      simp only [Nat.testBit_zero] at h
      rcases Nat.mod_two_eq_zero_or_one a with ha | ha <;> rcases Nat.mod_two_eq_zero_or_one q with hq | hq <;>
        simp [ha, hq] at h ⊢
    omega

theorem signExt_bit (c n f m : Nat) (hc : 0 < c) (hn : m < n) :
    (signExt c n f).testBit m = if m < c then f.testBit m else f.testBit (c - 1) := by
  have : signExt c n f = ((BitVec.ofNat c f).signExtend n).toNat := by
    rw [signExt, toSigned_bv _ _ hc, wrap, BitVec.signExtend, BitVec.toNat_ofInt]
  rw [this, BitVec.testBit_toNat, BitVec.getLsbD_signExtend]
  simp only [hn, decide_true, Bool.true_and, BitVec.getLsbD_ofNat, BitVec.msb_eq_getLsbD_last]
  split
  · rename_i h; simp [h]
  · have : c - 1 < c := by omega
    simp [this]

theorem signExt_lt (c n f : Nat) : signExt c n f < 2 ^ n := wrap_lt _ _

theorem ones_shift_bit (len off m : Nat) : ((2 ^ len - 1) <<< off).testBit m = decide (off ≤ m ∧ m < off + len) := by
  rw [Nat.testBit_shiftLeft, Nat.testBit_two_pow_sub_one]
  by_cases h : off ≤ m
  · have : (m - off < len) ↔ (m < off + len) := by omega
    simp [h, this]
  · simp [h]

theorem bfiVal_bit (n a b c m : Nat) (hm : m < n) : (bfiVal n a b c).testBit m =
    let off := c % 256
    let len := c / 256 % 256
    if off ≤ m ∧ m < off + len then b.testBit (m - off) else a.testBit m := by
  have ho : bits c 7 0 = c % 256 := by simp [bits]
  have hl : bits c 15 8 = c / 256 % 256 := by simp [bits, Nat.shiftRight_eq_div_pow]
  have hM := ones_shift_bit (c / 256 % 256) (c % 256) m
  simp only [bfiVal, ho, hl]
  generalize (2 ^ (c / 256 % 256) - 1) <<< (c % 256) = M at *
  simp only [Nat.testBit_or, sub_and_bit, Nat.testBit_and, Nat.testBit_mod_two_pow, hm, decide_true, Bool.true_and, hM,
    Nat.testBit_shiftLeft]
  split
  · rename_i h
    have h1 : decide (c % 256 ≤ m) = true := decide_eq_true h.1
    rw [decide_eq_true h, h1]
    simp
  · rename_i h
    rw [decide_eq_false h]
    simp

theorem bfiVal_lt (n a b c : Nat) (ha : a < 2 ^ n) : bfiVal n a b c < 2 ^ n := by
  unfold bfiVal
  apply Nat.or_lt_two_pow
  · exact Nat.lt_of_le_of_lt (Nat.sub_le _ _) ha
  · exact Nat.and_lt_two_pow _ (Nat.mod_lt _ (Nat.two_pow_pos _))

theorem bmskVal_bit (n a b m : Nat) (hm : m < n) : (bmskVal n a b).testBit m = decide (a ≤ m ∧ m < a + b) := by
  unfold bmskVal
  split
  · have : ¬ (a ≤ m ∧ m < a + b) := by omega
    simp [this]
  · rw [Nat.testBit_mod_two_pow, ones_shift_bit]
    have : (a ≤ m ∧ m < a + min b n) ↔ (a ≤ m ∧ m < a + b) := by omega
    simp [hm, this]

theorem bmskVal_lt (n a b : Nat) : bmskVal n a b < 2 ^ n := by
  unfold bmskVal
  split
  · exact Nat.two_pow_pos _
  · exact Nat.mod_lt _ (Nat.two_pow_pos _)

theorem bfxVal_bit (sg : Bool) (n a b c m : Nat) (ha : a < 2 ^ n) (hm : m < n) : (bfxVal sg n a b c).testBit m =
    let c := min c n
    let field (j : Nat) : Bool := if b + j < n then a.testBit (b + j) else sg && a.testBit (n - 1)
    if m < c then field m else decide (c ≠ 0) && sg && field (c - 1) := by
  have hf : ∀ j, j < n → (((if (sg && bit a (n - 1)) = true then a + (2 ^ (2 * n) - 2 ^ n) else a) >>> min b n).testBit j =
      if b + j < n then a.testBit (b + j) else sg && a.testBit (n - 1)) := by
    intro j hj
    rw [Nat.testBit_shiftRight]
    have hsplit : a + (2 ^ (2 * n) - 2 ^ n) = 2 ^ n * (2 ^ n - 1) + a := by
      rw [Nat.mul_sub, Nat.two_mul, Nat.pow_add]
      omega
    cases hp : (sg && bit a (n - 1)) with
    | true =>
      rw [if_pos rfl, hsplit, Nat.testBit_two_pow_mul_add _ ha, Nat.testBit_two_pow_sub_one]
      by_cases hb : b + j < n
      · rw [if_pos (by omega), if_pos hb]
        congr 1
        omega
      · rw [if_neg (by omega), if_neg hb]
        rw [show (sg && a.testBit (n - 1)) = true from hp]
        simp
        omega
    | false =>
      rw [if_neg (by simp)]
      by_cases hb : b + j < n
      · rw [if_pos hb]
        congr 1
        omega
      · rw [if_neg hb, show (sg && a.testBit (n - 1)) = false from hp]
        exact Nat.testBit_lt_two_pow (Nat.lt_of_lt_of_le ha (Nat.pow_le_pow_right (by omega) (by omega)))
  simp only [bfxVal]
  by_cases h0 : min c n = 0
  · rw [if_pos h0, if_neg (by omega)]
    simp [h0]
  · rw [if_neg h0]
    have hcn : min c n ≤ n := Nat.min_le_right _ _
    generalize min c n = c' at *
    cases sg with
    | true =>
      simp only [if_true]
      rw [signExt_bit _ _ _ _ (by omega) hm]
      split
      · rename_i h
        rw [Nat.testBit_mod_two_pow, hf m hm]
        simp [h]
      · rw [Nat.testBit_mod_two_pow, hf (c' - 1) (by omega)]
        have : c' - 1 < c' := by omega
        simp [this, h0]
    | false =>
      simp only [Bool.false_eq_true, if_false]
      rw [Nat.testBit_mod_two_pow, hf m hm]
      split <;> simp

theorem bfxVal_lt (sg : Bool) (n a b c : Nat) : bfxVal sg n a b c < 2 ^ n := by
  unfold bfxVal
  simp only
  split
  · exact Nat.two_pow_pos _
  · cases sg with
    | true => simpa using signExt_lt _ _ _
    | false =>
      simp only [Bool.false_eq_true, if_false]
      exact Nat.lt_of_lt_of_le (Nat.mod_lt _ (Nat.two_pow_pos _)) (Nat.pow_le_pow_right (by omega) (Nat.min_le_right _ _))

end Sys2Proof.Machine
end

