-- ==== Sys2Proof/Laws/Trap.lean ====
section
/-! SUPPORT. Laws of traps: what taking a trap leaves (R232 to R240). -/

namespace Sys2Proof.Machine

/-- A trap that a handler can take. -/
theorem takeTrap_traps {e : Env} {s : State} {v : Wave} {f : Frag} {t : TrapRec} {pc : W64} {resume : Option Nat}
    {atHeader : Bool} (hv : s.wave e.wid = some v) (hf : Tbl.find v.frags e.fr = some f) (hm : f.mask = e.frag.mask)
    (hs : f.stack = e.frag.stack) (hh : v.handler = none) (ht : v.tvec ≠ 0) :
    ∃ w', Traps e s v (s.takeTrap e.wid e.fr t pc pc resume atHeader) w' t pc := by
  have ht' : ¬v.tvec = 0#64 := ht
  refine ⟨v.enterHandler e.fr f t pc pc resume atHeader, hv, ?_, ?_, ?_, rfl, ⟨rfl, rfl⟩, ?_, ⟨rfl, rfl, rfl⟩, ?_, ?_, ?_⟩
  · simp [State.takeTrap, hv, hf, hh, ht']
  · intro k hk
    simp [State.takeTrap, hv, hf, hh, ht', hk]
  · simp [State.takeTrap, hv, hf, hh, ht']
  · cases h : t.fault <;> simp [Wave.enterHandler, ofBool, h]
  · exact ⟨_, rfl, rfl, rfl, rfl, hs⟩
  · refine ⟨{ f.goTo v.tvec with stack := [], yieldedAt := none }, ?_, rfl, hm, rfl, rfl, rfl, rfl⟩
    simp [Wave.enterHandler]
  · intro r hr
    simp [Wave.enterHandler, hr]

/-- The place that the trap registers name is where the fragment stands. -/
theorem takeTrapHere_traps {e : Env} {s : State} {v : Wave} {f : Frag} {t : TrapRec} (hv : s.wave e.wid = some v)
    (hf : Tbl.find v.frags e.fr = some f) (hm : f.mask = e.frag.mask) (hs : f.stack = e.frag.stack) (hh : v.handler = none)
    (ht : v.tvec ≠ 0) :
    ∃ w', Traps e s v (s.takeTrapHere e.wid e.fr t) w' t
      (match f.clause with | some c => c.wordAddr c.idx | none => f.pc) := by
  have : s.takeTrapHere e.wid e.fr t = s.takeTrap e.wid e.fr t (match f.clause with | some c => c.wordAddr c.idx | none => f.pc)
      (match f.clause with | some c => c.wordAddr c.idx | none => f.pc) none false := by
    simp only [State.takeTrapHere, hv, hf, Option.bind] <;> rfl
  rw [this]
  exact takeTrap_traps hv hf hm hs hh ht

theorem advanceTo_mask (f : Frag) (c : Clause) (i : Nat) : (f.advanceTo c i).mask = f.mask := by
  unfold Frag.advanceTo; split <;> rfl

theorem advanceTo_stack (f : Frag) (c : Clause) (i : Nat) : (f.advanceTo c i).stack = f.stack := by
  unfold Frag.advanceTo; split <;> rfl

/-- Where a fragment stands after its word. -/
theorem advanceTo_place (e : Env) (f : Frag) :
    (match (f.advanceTo e.cl e.next).clause with | some c => c.wordAddr c.idx | none => (f.advanceTo e.cl e.next).pc) =
      e.nextPc := by
  unfold Env.nextPc
  by_cases h : e.next < e.cl.words.length
  · simp [Frag.advanceTo, h, Clause.wordAddr]
  · simp [Frag.advanceTo, h, Frag.leave, Frag.goTo]

/-- Taking a trap leaves no twin launch where there was none. -/
theorem Traps.twinned {e : Env} {s t : State} {v w' u : Wave} {r : TrapRec} {pc : W64} (h : Traps e s v t w' r pc) :
    t.twinned u = s.twinned u := by
  have := h.rest
  have h2 : ({ t with waves := s.waves } : State).twinned u = s.twinned u := by rw [this]
  exact h2

/-- A word without lookahead that raises a report trap outside handler mode completes; then the trap is taken. -/
theorem report_traps {w : Fields} {s : State} {e : Env} (h : Issues w s e) {i : Instr} {body : Env → WRes} {d : Done}
    {v : Wave} {t : TrapRec} (hx : exec i s = onWord w s body) (hb : body e = .done d) (single : d.s.twinned e.wv = false)
    (hv : d.s.wave e.wid = some v) (hf : Tbl.find v.frags e.fr = some e.frag) (hfault : d.fault = none)
    (hrep : fpTrap e.wv d.fl d.dcode = some t ∨ (fpTrap e.wv d.fl d.dcode = none ∧ d.report = some t))
    (hhold : d.hold = none) (hla : e.w.la = 0) (hh : v.handler = none) (ht : v.tvec ≠ 0) :
    ∃ s1 w1 s' w', exec i e.s = .next s' ∧ Completes e d.s v s1 w1 ∧ Traps e s1 w1 s' w' t e.nextPc ∧
      w1.v = (v.writes d.ws).v ∧ w1.s = (v.writes d.ws).s ∧ w1.k = (v.writes d.ws).k ∧
      w1.fpflags = fpflagsAfter v.fpflags (mergeFlags (d.fl.map (·.2))) ∧ w1.pending = e.pendingAfter v.pending d := by
  obtain ⟨w1, hc, hr⟩ := completed_spec (e := e) (d := d) hv hf rfl
  have h1 : w1.handler = none := by
    have := congrArg Wave.handler hc.parts
    exact this.trans hh
  have h2 : w1.tvec ≠ 0 := by
    have := congrArg Wave.tvec hc.parts
    exact fun h => ht (this.symm.trans h)
  obtain ⟨w', htr⟩ := takeTrapHere_traps (e := e) (t := t) hc.wave hc.frag (advanceTo_mask _ _ _) (advanceTo_stack _ _ _) h1 h2
  rw [advanceTo_place] at htr
  refine ⟨_, w1, _, w', ?_, hc, htr, hr⟩
  rw [exec_word h hx, hb]
  show Host.Outcome.next ((finish e d).twinStep e.wid e.wv e.fr) = _
  rw [finish_report hfault hrep hhold hla single, twinStep_single]
  rw [htr.twinned]
  exact single

/-- A fault with nothing completed takes the fault trap (R232). -/
theorem fault_settles {w : Fields} {s : State} {e : Env} (h : Issues w s e) {t : TrapRec} {ld : Bool} (hh : e.wv.handler = none)
    (ht : e.wv.tvec ≠ 0) : ∃ s' w', settleWord e (.done { s := e.s, load := ld, fault := some t }) = s' ∧
      Traps e e.s e.wv s' w' t (e.cl.wordAddr e.cl.idx) := by
  have F := h.facts
  have hwv : e.s.wave e.wid = some e.wv := by rw [F.state]; exact F.wave
  have single : e.s.twinned e.wv = false := by rw [F.state]; exact h.single
  let g (f : Frag) : Frag := { f with wait := none, replay := none, failed := [], answers := [], awaitAns := none,
                                      clause := some { e.cl with passes := 0 } }
  have hfin : finish e { s := e.s, load := ld, fault := some t } =
      (e.s.modWave e.wid fun w => { w with frags := Tbl.upd w.frags e.fr g }).takeTrap e.wid e.fr t
        (e.cl.wordAddr e.cl.idx) (e.cl.wordAddr e.cl.idx) e.frag.resume false := by
    have htw : e.s.isTwin e.wv.lid = false := single
    have h0 : fpTrap e.wv [] 0 = none := by simp
    have hz (x : W64) : fpflagsAfter x (mergeFlags []) = x := by simp [fpflagsAfter, mergeFlags, noFlags]
    simp [finish, twinInject_single htw, Wave.modFrag, Wave.writes, hz, g]
  let v2 : Wave := { e.wv with frags := Tbl.upd e.wv.frags e.fr g }
  have hv2 : (e.s.modWave e.wid fun w => { w with frags := Tbl.upd w.frags e.fr g }).wave e.wid = some v2 := by
    simp [hwv, v2]
  have hf2 : Tbl.find v2.frags e.fr = some (g e.frag) := by simp [v2, F.frag]
  obtain ⟨w', T⟩ := takeTrap_traps (e := e) (t := t) (pc := e.cl.wordAddr e.cl.idx) (resume := e.frag.resume) (atHeader := false)
    hv2 hf2 rfl rfl hh ht
  refine ⟨_, w', ?_, hwv, T.wave, ?_, ?_, ?_, T.saved, T.cause, T.about, T.handler, T.frag, ?_⟩
  · show (finish e { s := e.s, load := ld, fault := some t }).twinStep e.wid e.wv e.fr = _
    rw [hfin, twinStep_single]
    rw [T.twinned]
    exact single
  · intro k hk
    rw [T.others k hk]
    simp [hk]
  · have := congrArg (fun x : State => { x with waves := e.s.waves }) T.rest
    exact this
  · have := congrArg (fun x : Wave => { x with frags := e.wv.frags }) T.parts
    exact this
  · intro r hr
    rw [T.frags r hr]
    simp [v2, hr]

/-- A word that faults with nothing completed takes the fault trap. -/
theorem fault_traps {w : Fields} {s : State} {e : Env} (h : Issues w s e) {i : Instr} {body : Env → WRes} {t : TrapRec}
    {ld : Bool} (hx : exec i s = onWord w s body) (hb : body e = .done { s := e.s, load := ld, fault := some t }) (hh : e.wv.handler = none)
    (ht : e.wv.tvec ≠ 0) :
    ∃ s' w', exec i e.s = .next s' ∧ Traps e e.s e.wv s' w' t (e.cl.wordAddr e.cl.idx) := by
  obtain ⟨s', w', h1, h2⟩ := fault_settles h (t := t) (ld := ld) hh ht
  exact ⟨s', w', by rw [exec_word h hx, hb, h1], h2⟩

/-- An enabled exception of some lane raises the FP report trap. -/
theorem fpTrap_some {w : Wave} {l : List Nat} {f : Nat → Nat × FFlags} {n : Nat} (hh : w.handler = none)
    (h : ∃ i ∈ l, (trappedFlags w.fpctl (f i).2 != 0) = true) :
    fpTrap w (l.map fun j => (j, (f j).2)) n = some (reportRec cFP
      (BitVec.ofNat 64 ((mergeFlags (l.map fun i => (f i).2)).toNat + 256 * n)) (maskOf (l.filter fun i => trappedFlags w.fpctl (f i).2 != 0))) := by
  have h1 : trappedLanes w (l.map fun j => (j, (f j).2)) = (mergeFlags ((l.filter fun i => trappedFlags w.fpctl (f i).2 != 0).map fun i => trappedFlags w.fpctl (f i).2),
      l.filter fun i => trappedFlags w.fpctl (f i).2 != 0) := by
    unfold trappedLanes
    simp [hh, List.filter_map, Function.comp_def]
  have mono : ∀ (l : List FFlags) (a : FFlags), l.foldl (· ||| ·) a = 0 → a = 0 ∧ ∀ x ∈ l, x = 0 := by
    intro l
    induction l with
    | nil => intro a h; exact ⟨h, by simp⟩
    | cons y ys ih =>
      intro a h
      obtain ⟨h2, h3⟩ := ih (a ||| y) h
      have hor : ∀ a y : BitVec 5, a ||| y = 0 → a = 0 ∧ y = 0 := by decide
      obtain ⟨h4, h5⟩ := hor a y h2
      exact ⟨h4, by intro x hx; rcases List.mem_cons.mp hx with rfl | hx; exact h5; exact h3 x hx⟩
  have h2 : mergeFlags ((l.filter fun i => trappedFlags w.fpctl (f i).2 != 0).map fun i => trappedFlags w.fpctl (f i).2) ≠ 0 := by
    intro hz
    obtain ⟨i, hi, hi2⟩ := h
    have := (mono _ _ hz).2 (trappedFlags w.fpctl (f i).2) (List.mem_map.mpr ⟨i, List.mem_filter.mpr ⟨hi, hi2⟩, rfl⟩)
    rw [this] at hi2
    simp at hi2
  unfold fpTrap
  simp only [h1, h2, if_false]
  simp [Function.comp_def]

/-! ### Traps that no handler can take (R239, R240) -/

/-- In handler mode a report trap is not taken: the word has completed. -/
theorem report_ignored {w : Fields} {s : State} {e : Env} (h : Issues w s e) {i : Instr} {body : Env → WRes} {d : Done}
    {v : Wave} {t : TrapRec} {hd : Handler} (hx : exec i s = onWord w s body) (hb : body e = .done d)
    (single : d.s.twinned e.wv = false) (hv : d.s.wave e.wid = some v) (hf : Tbl.find v.frags e.fr = some e.frag)
    (hfault : d.fault = none)
    (hrep : fpTrap e.wv d.fl d.dcode = some t ∨ (fpTrap e.wv d.fl d.dcode = none ∧ d.report = some t))
    (hhold : d.hold = none) (hla : e.w.la = 0) (hh : v.handler = some hd) (hfr : hd.frag = e.fr) (hrt : t.fault = false) :
    exec i e.s = .next (e.completed d) := by
  obtain ⟨w1, hc, -⟩ := completed_spec (e := e) (d := d) hv hf rfl
  have hh1 : w1.handler = some hd := (congrArg Wave.handler hc.parts).trans hh
  have hfin : finish e d = e.completed d := by
    rw [finish_report hfault hrep hhold hla single]
    simp [State.takeTrapHere, State.takeTrap, hc.wave, hc.frag, hh1, hfr, hrt]
  rw [exec_word h hx, hb]
  show Host.Outcome.next ((finish e d).twinStep e.wid e.wv e.fr) = _
  rw [hfin, twinStep_single]
  exact single

/-- A change of a launch that leaves its record's words. -/
theorem record_modLaunch (s : State) (k j : Nat) {f : Launch → Launch} (hf : ∀ l, (f l).words = l.words) :
    (s.modLaunch k f).record j = s.record j := by
  have : (s.modLaunch k f).launch j = if j = k then (s.launch k).map f else s.launch j := Tbl.find_upd _ _ _ _
  unfold State.record
  rw [this]
  by_cases h : j = k
  · subst h
    cases hl : s.launch j <;> simp [hf]
  · simp [h]

theorem twinned_modLaunch (s : State) (k : Nat) {f : Launch → Launch} (hf : ∀ l, (f l).words = l.words) (u : Wave) :
    (s.modLaunch k f).twinned u = s.twinned u := by
  unfold State.twinned State.isTwin State.flag
  rw [record_modLaunch s k u.lid hf]

/-- A double trap leaves no twin launch where there was none. -/
theorem twinned_doubleTrap (s : State) (wid : Nat) (u : Wave) : (s.doubleTrap wid).twinned u = s.twinned u := by
  unfold State.doubleTrap
  cases s.wave wid with
  | none => rfl
  | some w =>
    simp only [State.askKill]
    rw [twinned_modLaunch _ _ (by intro l; rfl), State.twinned_modWave]

/-- Without a handler's address a trap is a double trap. -/
theorem report_double {w : Fields} {s : State} {e : Env} (h : Issues w s e) {i : Instr} {body : Env → WRes} {d : Done}
    {v : Wave} {t : TrapRec} (hx : exec i s = onWord w s body) (hb : body e = .done d)
    (single : d.s.twinned e.wv = false) (hv : d.s.wave e.wid = some v) (hf : Tbl.find v.frags e.fr = some e.frag)
    (hfault : d.fault = none)
    (hrep : fpTrap e.wv d.fl d.dcode = some t ∨ (fpTrap e.wv d.fl d.dcode = none ∧ d.report = some t))
    (hhold : d.hold = none) (hla : e.w.la = 0) (hh : v.handler = none) (htv : v.tvec = 0) :
    exec i e.s = .next ((e.completed d).doubleTrap e.wid) := by
  obtain ⟨w1, hc, -⟩ := completed_spec (e := e) (d := d) hv hf rfl
  have hh1 : w1.handler = none := (congrArg Wave.handler hc.parts).trans hh
  have ht1 : w1.tvec = 0 := (congrArg Wave.tvec hc.parts).trans htv
  have hfin : finish e d = (e.completed d).doubleTrap e.wid := by
    rw [finish_report hfault hrep hhold hla single]
    simp [State.takeTrapHere, State.takeTrap, hc.wave, hc.frag, hh1, ht1]
  rw [exec_word h hx, hb]
  show Host.Outcome.next ((finish e d).twinStep e.wid e.wv e.fr) = _
  rw [hfin, twinStep_single]
  rw [twinned_doubleTrap]
  exact single

/-- A fault in handler mode is a double trap. -/
theorem fault_double {w : Fields} {s : State} {e : Env} (h : Issues w s e) {i : Instr} {body : Env → WRes} {t : TrapRec}
    {hd : Handler} (hx : exec i s = onWord w s body) (hb : body e = .done { s := e.s, fault := some t })
    (hh : e.wv.handler = some hd) (hfr : hd.frag = e.fr) (hft : t.fault = true) :
    ∃ (s1 : State) (w1 : Wave), exec i e.s = .next (s1.doubleTrap e.wid) ∧ s1.wave e.wid = some w1 ∧
      { w1 with frags := e.wv.frags } = e.wv ∧ { s1 with waves := e.s.waves } = e.s := by
  have F := h.facts
  have htw : e.s.isTwin e.wv.lid = false := h.alone
  have hz (x : W64) : fpflagsAfter x (mergeFlags []) = x := by simp [fpflagsAfter, mergeFlags, noFlags]
  let g (f : Frag) : Frag := { f with wait := none, replay := none, failed := [], answers := [], awaitAns := none,
                                      clause := some { e.cl with passes := 0 } }
  have hfin : finish e { s := e.s, fault := some t } =
      (e.s.modWave e.wid fun w => { w with frags := Tbl.upd w.frags e.fr g }).doubleTrap e.wid := by
    simp [finish, twinInject_single htw, Wave.modFrag, Wave.writes, hz, State.takeTrap, h.wave, hh, hfr, hft, g]
  refine ⟨e.s.modWave e.wid fun w => { w with frags := Tbl.upd w.frags e.fr g }, { e.wv with frags := Tbl.upd e.wv.frags e.fr g }, ?_, by simp [h.wave], rfl, rfl⟩
  rw [exec_word h hx, hb]
  show Host.Outcome.next ((finish e { s := e.s, fault := some t }).twinStep e.wid e.wv e.fr) = _
  rw [hfin, twinStep_single]
  rw [twinned_doubleTrap]
  exact h.alone

/-- The wave after a double trap. -/
theorem doubleTrap_spec {s : State} {wid : Nat} {v : Wave} (hv : s.wave wid = some v) :
    (s.doubleTrap wid).wave wid = some { v with frozen := some .double } ∧
    ∀ l, s.launch v.lid = some l → (s.doubleTrap wid).launch v.lid = some { l with killReq := some (l.killReq.getD cDOUBLE) } := by
  refine ⟨?_, ?_⟩
  · simp only [State.doubleTrap, hv]
    show (s.modWave wid _).wave wid = _
    simp [hv]
  · intro l hl
    simp only [State.doubleTrap, hv]
    show Tbl.find (Tbl.upd s.launches v.lid _) v.lid = _
    have hl' : Tbl.find s.launches v.lid = some l := hl
    simp [hl']

end Sys2Proof.Machine
end

