-- ==== Sys2Proof/Laws/Control.lean ====
section
/-! SUPPORT. Laws of control words: moving a fragment, dividing it, and the faults of control words (R127, R196 to R200). -/

namespace Sys2Proof.Machine

theorem State.wave_modWave_of {s : State} {k : Nat} {v : Wave} {f : Wave → Wave} (h : s.wave k = some v) :
    (s.modWave k f).wave k = some (f v) := by rw [State.wave_modWave, if_pos rfl, h, Option.map_some]

/-- A meaning that settles the state itself. -/
theorem exec_raw {w : Fields} {s : State} {e : Env} (h : Issues w s e) {i : Instr} {body : Env → WRes} {t : State}
    (hx : exec i s = onWord w s body) (hb : body e = .raw t) (ht : t.twinned e.wv = false) : exec i e.s = .next t := by
  rw [exec_word h hx, hb]
  show Host.Outcome.next (t.twinStep e.wid e.wv e.fr) = _
  rw [twinStep_single ht]

/-- A meaning that has placed its fragment; register writes are left. -/
theorem exec_placed {w : Fields} {s : State} {e : Env} (h : Issues w s e) {i : Instr} {body : Env → WRes} {t : State}
    {ws : List RegWrite} (hx : exec i s = onWord w s body) (hb : body e = .placed t ws) (ht : t.twinned e.wv = false) :
    exec i e.s = .next (if ws.isEmpty then t else t.modWave e.wid fun w => w.writes ws) := by
  have ht' : t.isTwin e.wv.lid = false := ht
  rw [exec_word h hx, hb]
  simp only [settleWord, settlePlaced, twinInject_single ht']
  by_cases hw : ws.isEmpty
  · simp only [hw, if_true, twinStep_single ht]
  · simp only [hw, Bool.false_eq_true, if_false]
    rw [twinStep_single]
    exact ht

theorem Wave.writes_modFrag (w : Wave) (fr : Nat) (f : Frag → Frag) (l : List RegWrite) :
    (w.modFrag fr f).writes l = (w.writes l).modFrag fr f := by
  induction l generalizing w with
  | nil => rfl
  | cons x l ih =>
    have hx : (w.modFrag fr f).write x = (w.write x).modFrag fr f := by
      cases x with
      | v n i y => rfl
      | s n y => rfl
      | k n m =>
        simp only [Wave.write]
        split <;> rfl
    rw [Wave.writes_cons, hx, ih]
    rfl

/-- A word that moves its fragment, after register writes. -/
theorem leaves_of_jump {w : Fields} {s : State} {e : Env} (h : Issues w s e) {i : Instr} {body : Env → WRes} {pc : W64}
    {ws : List RegWrite} (hx : exec i s = onWord w s body) (hb : body e = e.jump pc ws) (ha : pc.toNat % 8 = 0) :
    ∃ s' w', exec i e.s = .next s' ∧ Leaves e s' w' pc ∧ w'.v = (e.wv.writes ws).v ∧ w'.s = (e.wv.writes ws).s ∧
      w'.k = (e.wv.writes ws).k := by
  have F := h.facts
  have hw := h.wave
  have hj : e.jump pc ws = .placed (e.s.modFrag e.wid e.fr fun f => f.leave e.cl pc) ws := by simp [Env.jump, ha]
  have hp := Wave.writes_parts e.wv ws
  have hfr : (e.wv.writes ws).frags = e.wv.frags := by rw [hp]
  refine ⟨_, (e.wv.writes ws).modFrag e.fr fun f => f.leave e.cl pc, exec_placed h hx (hb.trans hj) h.alone,
    ⟨?_, ?_, ?_, ?_, ?_, ?_⟩, rfl, rfl, rfl⟩
  · cases ws with
    | nil => simp [hw, Wave.writes]
    | cons x l => simp [hw, Wave.writes_modFrag]
  · intro k hk
    cases ws <;> simp [hk]
  · cases ws <;> rfl
  · rw [hp]; rfl
  · simp [Wave.modFrag, hfr, F.frag]
  · intro r hr
    simp [Wave.modFrag, hfr, hr]

theorem movesTo_of_jump {w : Fields} {s : State} {e : Env} (h : Issues w s e) {i : Instr} {body : Env → WRes} {pc : W64}
    (hx : exec i s = onWord w s body) (hb : body e = e.jump pc []) (ha : pc.toNat % 8 = 0) : MovesTo e i pc := by
  obtain ⟨s', w', h1, h2, h3, h4, h5⟩ := leaves_of_jump h hx hb ha
  exact ⟨s', w', h1, h2, SameRegs.of_regs h3 h4 h5⟩

theorem faults_of_jump {w : Fields} {s : State} {e : Env} (h : Issues w s e) {i : Instr} {body : Env → WRes} {pc : W64}
    {ws : List RegWrite} (hx : exec i s = onWord w s body) (hb : body e = e.jump pc ws) (ha : pc.toNat % 8 ≠ 0)
    (hh : e.wv.handler = none) (ht : e.wv.tvec ≠ 0) : FaultsWith e i 0x06 0 pc e.frag.mask := by
  have hj : e.jump pc ws = .done { s := e.s, fault := some (faultRec cALIGN 0 pc e.frag.mask) } := by
    simp [Env.jump, ha, Env.trapNow]
  exact fault_traps h hx (hb.trans hj) hh ht

/-- A word that is ILLEGAL where it stands. -/
theorem faults_illegal {w : Fields} {s : State} {e : Env} (h : Issues w s e) {i : Instr} {body : Env → WRes}
    (hx : exec i s = onWord w s body) (hb : body e = e.illegal) (hh : e.wv.handler = none) (ht : e.wv.tvec ≠ 0) :
    FaultsWith e i 0x01 (e.cl.words.getD e.cl.idx 0) 0 e.frag.mask := fault_traps h hx hb hh ht

theorem freeRecord_of {v : Wave} {r : Nat} (h : r < 32) (h1 : Tbl.find v.frags r = none) (h2 : ∀ q, q < r → Tbl.find v.frags q ≠ none) :
    v.freeRecord = some r := by
  unfold Wave.freeRecord
  rw [List.find?_range_eq_some]
  refine ⟨by simp [Tbl.mem, h1], by simpa using h, fun q hq => ?_⟩
  have := h2 q hq
  cases hf : Tbl.find v.frags q with
  | none => exact absurd hf this
  | some g => simp [Tbl.mem, hf]

theorem freeRecord_none {v : Wave} (h2 : ∀ q, q < 32 → Tbl.find v.frags q ≠ none) : v.freeRecord = none := by
  unfold Wave.freeRecord
  rw [List.find?_eq_none]
  intro q hq
  have := h2 q (by simpa using hq)
  cases hf : Tbl.find v.frags q with
  | none => exact absurd hf this
  | some g => simp [Tbl.mem, hf]

/-- A fragment alone has been replaced. -/
theorem stands_of {w : Fields} {s : State} {e : Env} (h : Issues w s e) {g : Frag} :
    Stands e (e.s.modWave e.wid fun w => { w with frags := Tbl.put w.frags e.fr g }) g := by
  refine ⟨rfl, fun k hk => by simp [hk], { e.wv with frags := Tbl.put e.wv.frags e.fr g }, by simp [h.wave], rfl, by simp, ?_⟩
  intro r hr
  simp [hr]

theorem modFrag_stands {w : Fields} {s : State} {e : Env} (h : Issues w s e) (f : Frag → Frag) :
    Stands e (e.s.modFrag e.wid e.fr f) (f e.frag) := by
  have F := h.facts
  have : e.s.modFrag e.wid e.fr f = e.s.modWave e.wid fun w => { w with frags := Tbl.put w.frags e.fr (f e.frag) } := by
    rw [State.modFrag_eq]
    refine State.modWave_congr h.wave ?_
    simp [Wave.modFrag, Tbl.upd, F.frag]
  rw [this]
  exact stands_of h

/-- The side of a divergence that is detached, and the side that goes on. -/
def Divergence.minor (d : Divergence) : LaneGroup := if laneCount d.taken.mask < laneCount d.fall.mask then d.taken else d.fall
def Divergence.major (d : Divergence) : LaneGroup := if laneCount d.taken.mask < laneCount d.fall.mask then d.fall else d.taken

/-- The fragment that goes on after a divergence. -/
def Frag.divided (f : Frag) (hdr : W64) (d : Divergence) : Frag :=
  { f.goTo d.major.pc with mask := d.major.mask, stack := pushToken f.stack d.token, wait := yieldWait hdr }

theorem Frag.divided_mask (f : Frag) (hdr : W64) (d : Divergence) : (f.divided hdr d).mask = d.major.mask := by
  simp only [Frag.divided]
theorem Frag.divided_pc (f : Frag) (hdr : W64) (d : Divergence) : (f.divided hdr d).pc = d.major.pc := by
  simp only [Frag.divided, Frag.goTo]
theorem Frag.start_mask (m : Mask) (pc : W64) (l : List Nat) : (Frag.start m pc l).mask = m := rfl
theorem Frag.start_pc (m : Mask) (pc : W64) (l : List Nat) : (Frag.start m pc l).pc = pc := rfl

theorem diverge_free {v : Wave} {fr r : Nat} {f : Frag} {hdr : W64} {d : Divergence} (hf : v.freeRecord = some r) :
    v.diverge fr f hdr d = some { v with frags := Tbl.put (Tbl.put v.frags fr (f.divided hdr d)) r
                                           (Frag.start d.minor.mask d.minor.pc (pushToken f.stack d.token)) } := by
  simp only [Wave.diverge, hf, Frag.divided, Divergence.minor, Divergence.major]

theorem diverge_deferred {v : Wave} {fr : Nat} {f : Frag} {hdr : W64} {d : Divergence} (hf : v.freeRecord = none)
    (hd : f.deferred = none) (hh : f.held = none) :
    v.diverge fr f hdr d = some { v with frags := Tbl.put v.frags fr { f.divided hdr d with
      deferred := some { mask := d.minor.mask, pc := d.minor.pc, stack := pushToken f.stack d.token } } } := by
  simp only [Wave.diverge, hf, hd, hh, Frag.divided, Divergence.minor, Divergence.major, Option.isNone_none, Bool.and_self, if_true]

theorem State.modFrag_modFrag (s : State) (k fr : Nat) (f g : Frag → Frag) :
    (s.modFrag k fr f).modFrag k fr g = s.modFrag k fr fun x => g (f x) := by
  simp only [State.modFrag_eq, State.modWave_modWave, Wave.modFrag, Tbl.upd_upd]

theorem spanOpen_false {v : Wave} (h : ∀ l, l < 5 → (v.span l).isOpen = false) : v.spanOpen = false := by
  unfold Wave.spanOpen
  rw [List.any_eq_false]
  intro l hl
  have := h l (by simpa using hl)
  unfold Wave.span at this
  simp [this]

/-- No group of fragments that have not parked merges. -/
theorem merge_none {v : Wave} (h : ∀ p ∈ v.frags, p.2.parked = none) : v.merge = v := by
  have hg : ∀ t, v.groupReady t = false := by
    intro t
    unfold Wave.groupReady Wave.group
    generalize hl : (v.frags.filter fun p => p.2.stack.contains t ||
      (match p.2.deferred with | some d => d.stack.contains t | none => false) ||
      (match p.2.held with | some d => d.stack.contains t | none => false)) = l
    cases l with
    | nil => rfl
    | cons p ps =>
      have hp : p ∈ v.frags := (List.mem_filter.mp (by rw [hl]; simp)).1
      simp [h p hp]
  unfold Wave.merge
  generalize v.tokens = l
  induction l with
  | nil => rfl
  | cons t ts ih => simpa [hg t] using ih

theorem mem_del {t : Tbl Frag} {k : Nat} {p : Nat × Frag} (h : p ∈ Tbl.del t k) : p ∈ t := by
  induction t with
  | nil => simp [Tbl.del] at h
  | cons x xs ih =>
    obtain ⟨j, y⟩ := x
    simp only [Tbl.del] at h
    split at h
    · exact List.mem_cons_of_mem _ (ih h)
    · rcases List.mem_cons.mp h with rfl | h
      · simp
      · exact List.mem_cons_of_mem _ (ih h)

theorem softBody {w : Fields} {s : State} {e : Env} (h : Issues w s e) (ha : e.act ≠ 0) :
    exec (.trap w) s = onWord w s (fun e => .done { s := e.s, report := if e.act = 0 then none else some (reportRec cSOFT (e.w.f.setWidth 64) e.act) }) ∧
    (fun e : Env => WRes.done { s := e.s, report := if e.act = 0 then none else some (reportRec cSOFT (e.w.f.setWidth 64) e.act) }) e =
      .done { s := e.s, report := some (reportRec cSOFT (e.w.f.setWidth 64) e.act) } := by
  refine ⟨rfl, ?_⟩
  simp only [if_neg ha]

theorem trapReturn_eq {s : State} {wid : Nat} {v : Wave} {h : Handler} {f : Frag} (skip : Bool) (hv : s.wave wid = some v)
    (hh : v.handler = some h) (hf : Tbl.find v.frags h.frag = some f) (ha : v.aborting = none) (ht : v.heldTraps = []) :
    s.trapReturn wid skip = s.modWave wid fun w => w.leaveHandler h f skip := by
  have hw : (s.modWave wid fun w => w.leaveHandler h f skip).wave wid = some (v.leaveHandler h f skip) := by simp [hv]
  have ht' : (v.leaveHandler h f skip).heldTraps = [] := ht
  simp [State.trapReturn, hv, hh, hf, ha, State.takeHeld, ht']

/-- Where TRET sends the fragment that trapped (R241). -/
theorem leaveHandler_spec (v : Wave) (h : Handler) (f : Frag) (skip : Bool) :
    ∃ g, v.leaveHandler h f skip = { v with handler := none, frags := Tbl.put v.frags h.frag g } ∧ g.mask = f.mask ∧ g.stack = h.stack ∧
      (v.trappc ≠ h.pc ∨ h.atHeader ∨ h.clause = none → g.clause = none ∧ g.pc = v.trappc ∧ g.replay = none) ∧
      (∀ c, v.trappc = h.pc → h.atHeader = false → h.clause = some c →
        (skip = false → g.clause = some { c with passes := 0, lane := false } ∧ g.replay = (if h.fault then some v.traplanes else none)) ∧
        (skip = true → let n := h.resume.getD (c.idx + c.sizeAt c.idx)
          g.replay = none ∧ if n < c.words.length then g.clause = some { c with idx := n, passes := 0, lane := false }
            else g.clause = none ∧ g.pc = c.next)) := by
  by_cases h1 : v.trappc ≠ h.pc ∨ h.atHeader = true
  · refine ⟨{ f.goTo v.trappc with stack := h.stack }, by simp only [Wave.leaveHandler, h1, if_true], rfl, rfl, fun _ => ⟨rfl, rfl, rfl⟩, ?_⟩
    intro c h2 h3
    rcases h1 with h1 | h1
    · exact absurd h2 h1
    · rw [h1] at h3; cases h3
  · have hno : ∀ c, h.clause = some c → ¬ (v.trappc ≠ h.pc ∨ h.atHeader = true ∨ h.clause = none) := by
      rintro c hc (h2 | h2 | h2)
      · exact h1 (Or.inl h2)
      · exact h1 (Or.inr h2)
      · rw [hc] at h2; cases h2
    cases hc : h.clause with
    | none =>
      refine ⟨{ f.goTo v.trappc with stack := h.stack }, by simp only [Wave.leaveHandler, h1, if_false, hc], rfl, rfl, fun _ => ⟨rfl, rfl, rfl⟩, ?_⟩
      intro c h2 h3 h4; cases h4
    | some c =>
      have hno := hno c hc
      rw [hc] at hno
      cases skip with
      | true =>
        refine ⟨({ f.goTo v.trappc with stack := h.stack } : Frag).advanceTo { c with lane := false } (h.resume.getD (c.idx + c.sizeAt c.idx)),
          by simp only [Wave.leaveHandler, h1, if_false, hc, if_true], advanceTo_mask _ _ _, advanceTo_stack _ _ _, fun h2 => absurd h2 hno, ?_⟩
        intro c' h2 h3 h4
        cases h4
        refine ⟨by simp, fun _ => ?_⟩
        simp only
        unfold Frag.advanceTo
        by_cases hn : h.resume.getD (c.idx + c.sizeAt c.idx) < c.words.length
        · simp [hn]
        · simp [hn, Frag.goTo, Frag.leave]
          rfl
      | false =>
        cases hft : h.fault with
        | true =>
          refine ⟨{ f.goTo v.trappc with stack := h.stack, clause := some { c with passes := 0, lane := false }, replay := some v.traplanes, resume := h.resume },
            by simp only [Wave.leaveHandler, h1, if_false, hc, if_true, hft, Bool.false_eq_true], rfl, rfl, fun h2 => absurd h2 hno, ?_⟩
          intro c' h2 h3 h4
          cases h4
          exact ⟨fun _ => ⟨rfl, rfl⟩, by simp⟩
        | false =>
          refine ⟨{ f.goTo v.trappc with stack := h.stack, clause := some { c with passes := 0, lane := false } },
            by simp only [Wave.leaveHandler, h1, if_false, hc, hft, Bool.false_eq_true], rfl, rfl, fun h2 => absurd h2 hno, ?_⟩
          intro c' h2 h3 h4
          cases h4
          exact ⟨fun _ => ⟨rfl, rfl⟩, by simp⟩

/-- The header with YP = 1. -/
theorem hdrYield (x : W64) : bits ((x &&& ~~~(3#64 <<< 43)) ||| (1#64 <<< 43)).toNat 44 43 = 1 := by
  have key : ∀ i, i < 2 → (bits ((x &&& ~~~(3#64 <<< 43)) ||| (1#64 <<< 43)).toNat 44 43).testBit i = (1 : Nat).testBit i := by
    intro i hi
    unfold bits
    rw [Nat.testBit_mod_two_pow, Nat.testBit_shiftRight, ← BitVec.getLsbD]
    match i, hi with
    | 0, _ => simp
    | 1, _ => simp; decide
  apply Nat.eq_of_testBit_eq
  intro i
  by_cases hi : i < 2
  · exact key i hi
  · have : bits ((x &&& ~~~(3#64 <<< 43)) ||| (1#64 <<< 43)).toNat 44 43 < 2 ^ 2 := by
      unfold bits; exact Nat.mod_lt _ (by decide)
    rw [Nat.testBit_lt_two_pow (Nat.lt_of_lt_of_le this (Nat.pow_le_pow_right (by decide) (by omega))),
      Nat.testBit_lt_two_pow (Nat.lt_of_lt_of_le (by decide : 1 < 2 ^ 2) (Nat.pow_le_pow_right (by decide) (by omega)))]

theorem State.modBlock_congr {s : State} {k : Nat} {b : Block} {f g : Block → Block} (hv : s.block k = some b) (h : f b = g b) :
    s.modBlock k f = s.modBlock k g := by
  have hv' : Tbl.find s.blocks k = some b := hv
  simp only [State.modBlock, Tbl.upd, hv', h]

/-- A word that changes its wave and nothing else, without register writes. -/
theorem effect_wave {w : Fields} {s : State} {e : Env} (h : Issues w s e) {i : Instr} {body : Env → WRes} {f : Wave → Wave}
    {v : Wave} (hx : exec i s = onWord w s body) (hb : body e = .done { s := e.s.modWave e.wid f }) (hf : f e.wv = v)
    (hfr : v.frags = e.wv.frags) :
    ∃ s' w', exec i e.s = .next s' ∧ Completes e (e.s.modWave e.wid fun _ => v) v s' w' ∧ SameRegs v w' ∧
      w'.fpflags = v.fpflags ∧ w'.pending = v.pending := by
  have F := h.facts
  have hs : e.s.modWave e.wid f = e.s.modWave e.wid fun _ => v := State.modWave_congr h.wave hf
  rw [hs] at hb
  obtain ⟨s', w', hx', hc, hv, hs', hk, hfl, hp⟩ := effect_done h hx hb h.alone (State.wave_modWave_of h.wave) (by rw [hfr]; exact F.frag) rfl rfl (by simp) rfl
  exact ⟨s', w', hx', hc, SameRegs.of_regs hv hs' hk, by simpa [fpflagsAfter, mergeFlags, noFlags] using hfl, by simpa [Env.pendingAfter] using hp⟩

theorem get_draws (t : Tbl W32) (f : Nat → W32) (l : List Nat) (k : Nat) :
    Tbl.get (l.foldl (fun t i => Tbl.set 0 t i (f i)) t) k 0 = if k ∈ l then f k else Tbl.get t k 0 := by
  induction l generalizing t with
  | nil => simp
  | cons x xs ih =>
    rw [List.foldl_cons, ih]
    by_cases h : k ∈ xs
    · simp [h]
    · by_cases h2 : k = x
      · subst h2; simp [h, Tbl.get_set]
      · simp [h, h2, Tbl.get_set]

theorem velem_draws (v : Wave) (d : Nat) (p : Nat → Nat → W32) (lanes : List Nat) (hl : ∀ l ∈ lanes, l < 1024) {n i : Nat} (hi : i < 1024) :
    (v.writes (lanes.flatMap fun l => [.v d l (p l 0), .v (d + 1) l (p l 1), .v (d + 2) l (p l 2), .v (d + 3) l (p l 3)])).velem n i =
      if i ∈ lanes ∧ d ≤ n ∧ n < d + 4 then p i (n - d) else v.velem n i := by
  induction lanes generalizing v with
  | nil => simp [Wave.writes]
  | cons l ls ih =>
    have hl1 : l < 1024 := hl l (by simp)
    rw [List.flatMap_cons, Wave.writes_append, ih _ (fun x hx => hl x (by simp [hx]))]
    simp only [Wave.writes, List.foldl_cons, List.foldl_nil]
    rw [Wave.velem_write_v _ _ hl1 hi, Wave.velem_write_v _ _ hl1 hi, Wave.velem_write_v _ _ hl1 hi, Wave.velem_write_v _ _ hl1 hi]
    by_cases h1 : i ∈ ls
    · by_cases h2 : d ≤ n ∧ n < d + 4
      · simp [h1, h2]
      · rw [if_neg (by intro h; exact h2 h.2), if_neg (by omega), if_neg (by omega), if_neg (by omega), if_neg (by omega), if_neg (by intro h; exact h2 h.2)]
    · by_cases h2 : i = l
      · subst h2
        by_cases h3 : d ≤ n ∧ n < d + 4
        · have : n = d ∨ n = d + 1 ∨ n = d + 2 ∨ n = d + 3 := by omega
          rcases this with rfl | rfl | rfl | rfl <;> simp [h1]
        · rw [if_neg (by intro h; exact h3 h.2), if_neg (by omega), if_neg (by omega), if_neg (by omega), if_neg (by omega), if_neg (by intro h; exact h3 h.2)]
      · rw [if_neg (by intro h; exact h1 h.1), if_neg (by intro h; exact h2 h.2), if_neg (by intro h; exact h2 h.2), if_neg (by intro h; exact h2 h.2), if_neg (by intro h; exact h2 h.2), if_neg (by intro h; rcases List.mem_cons.mp h.1 with h | h; exact h2 h; exact h1 h)]

theorem rest_draws (v : Wave) (d : Nat) (p : Nat → Nat → W32) (lanes : List Nat) (n : Nat) :
    (v.writes (lanes.flatMap fun l => [.v d l (p l 0), .v (d + 1) l (p l 1), .v (d + 2) l (p l 2), .v (d + 3) l (p l 3)])).selem n = v.selem n ∧
    (v.writes (lanes.flatMap fun l => [.v d l (p l 0), .v (d + 1) l (p l 1), .v (d + 2) l (p l 2), .v (d + 3) l (p l 3)])).kelem n = v.kelem n := by
  induction lanes generalizing v with
  | nil => simp [Wave.writes]
  | cons l ls ih =>
    rw [List.flatMap_cons, Wave.writes_append]
    rw [(ih _).1, (ih _).2]
    simp [Wave.writes]

end Sys2Proof.Machine
end

