-- ==== Sys2Proof/Laws/Memory.lean ====
section
/-! SUPPORT. Laws of memory words: what loads and stores leave, the places of accesses, and states that differ in a few parts. -/

namespace Sys2Proof.Machine

/-- `t` differs from `s` in cores, the model's counter and what soft errors leave. -/
def CoresOnly (s t : State) : Prop := ∃ c n d p f, t = { s with cores := c, free := n, dies := d, poison := p, soft := f }

theorem CoresOnly.refl (s : State) : CoresOnly s s := ⟨s.cores, s.free, s.dies, s.poison, s.soft, rfl⟩
theorem CoresOnly.trans {s t u : State} (h : CoresOnly s t) (g : CoresOnly t u) : CoresOnly s u := by
  obtain ⟨_, _, _, _, _, rfl⟩ := h; obtain ⟨_, _, _, _, _, rfl⟩ := g; exact ⟨_, _, _, _, _, rfl⟩
theorem CoresOnly.ite {s t u : State} {p : Prop} [Decidable p] (h : CoresOnly s t) (g : CoresOnly s u) :
    CoresOnly s (if p then t else u) := by split <;> assumption
theorem CoresOnly.modCore (s : State) (k : Nat) (f : Core → Core) : CoresOnly s (s.modCore k f) :=
  ⟨_, s.free, s.dies, s.poison, s.soft, rfl⟩
theorem CoresOnly.fresh (s : State) : CoresOnly s s.fresh.2 := ⟨s.cores, _, s.dies, s.poison, s.soft, rfl⟩
theorem CoresOnly.foldl {α : Type} (f : State → α → State) (h : ∀ s x, CoresOnly s (f s x)) (l : List α) (s : State) :
    CoresOnly s (l.foldl f s) := by
  induction l generalizing s with
  | nil => exact .refl s
  | cons x xs ih => exact (h s x).trans (ih _)

theorem CoresOnly.dropCopies (s : State) (k : Nat) (l : List Nat) : CoresOnly s (s.dropCopies k l) := .modCore _ _ _

theorem touchLine_cores (s : State) (k key : Nat) : CoresOnly s (s.touchLine k key) := by
  unfold State.touchLine
  exact .modCore _ _ _

/-! ### Soft errors (R432) -/

theorem meetErrors_cores (s : State) (reads : SoftAt → Bool) :
    CoresOnly s (s.meetErrors reads) ∧ (s.meetErrors reads).cores = s.cores := by
  have h1 : ∀ (s : State) (die : Nat) (pa : Option Nat) (x : EccRead),
      CoresOnly s (s.foundError die pa x) ∧ (s.foundError die pa x).cores = s.cores := by
    intro s die pa x
    cases x with
    | clean => exact ⟨.refl s, rfl⟩
    | corrected => exact ⟨⟨s.cores, s.free, _, s.poison, s.soft, rfl⟩, rfl⟩
    | uncorrectable =>
      cases pa with
      | none => exact ⟨⟨s.cores, s.free, _, s.poison, s.soft, rfl⟩, rfl⟩
      | some a =>
        simp only [State.foundError]
        split
        · exact ⟨⟨s.cores, s.free, _, s.poison, s.soft, rfl⟩, rfl⟩
        · exact ⟨⟨s.cores, s.free, _, _, s.soft, rfl⟩, rfl⟩
  have h2 : ∀ (l : List (SoftAt × EccRead)) (s : State),
      let t := l.foldl (fun s x => s.foundError x.1.place.1 x.1.place.2 x.2) s
      CoresOnly s t ∧ t.cores = s.cores := by
    intro l
    induction l with
    | nil => intro s; exact ⟨.refl s, rfl⟩
    | cons x xs ih =>
      intro s
      obtain ⟨a, b⟩ := h1 s x.1.place.1 x.1.place.2 x.2
      obtain ⟨c, d⟩ := ih (s.foundError x.1.place.1 x.1.place.2 x.2)
      exact ⟨a.trans c, d.trans b⟩
  obtain ⟨a, b⟩ := h2 (s.soft.filter fun x => reads x.1) { s with soft := s.soft.filter fun x => !reads x.1 }
  exact ⟨CoresOnly.trans ⟨s.cores, s.free, s.dies, s.poison, _, rfl⟩ a, b⟩

theorem meetHome_cores (s : State) (l : List Loc) : CoresOnly s (s.meetHome l) ∧ (s.meetHome l).cores = s.cores := by
  unfold State.meetHome
  split
  · exact ⟨.refl s, rfl⟩
  · exact meetErrors_cores _ _

theorem meetCopies_cores (s : State) (core ctx : Nat) (l : List Loc) :
    CoresOnly s (s.meetCopies core ctx l) ∧ (s.meetCopies core ctx l).cores = s.cores := by
  unfold State.meetCopies
  split
  · exact ⟨.refl s, rfl⟩
  · exact meetErrors_cores _ _

theorem meetScratch_cores (s : State) (bid : Nat) (l : List (Nat × Nat)) :
    CoresOnly s (s.meetScratch bid l) ∧ (s.meetScratch bid l).cores = s.cores := by
  unfold State.meetScratch
  split
  · exact ⟨.refl s, rfl⟩
  · exact meetErrors_cores _ _

/-- Without soft errors nothing is met. -/
theorem meetHome_none {s : State} (h : s.soft = []) (l : List Loc) : s.meetHome l = s := by simp [State.meetHome, h]
theorem meetScratch_none {s : State} (h : s.soft = []) (bid : Nat) (l : List (Nat × Nat)) : s.meetScratch bid l = s := by
  simp [State.meetScratch, h]

/-- `t` differs from `s` in what a change of device memory touches: device memory and its keys, replay copies, cores. -/
def HomeOnly (s t : State) : Prop := ∃ m k r, CoresOnly { s with mem := m, lineKey := k, replay := r } t

theorem HomeOnly.of_parts (s : State) (m : Tbl Byte) (k : Tbl Nat) (r : Tbl Granule) :
    HomeOnly s { s with mem := m, lineKey := k, replay := r } := ⟨m, k, r, .refl _⟩
theorem CoresOnly.home {s t : State} (h : CoresOnly s t) : HomeOnly s t := ⟨s.mem, s.lineKey, s.replay, h⟩
theorem HomeOnly.refl (s : State) : HomeOnly s s := (CoresOnly.refl s).home
theorem HomeOnly.trans {s t u : State} (h : HomeOnly s t) (g : HomeOnly t u) : HomeOnly s u := by
  obtain ⟨_, _, _, _, _, _, _, _, rfl⟩ := h; obtain ⟨m, k, r, _, _, _, _, _, rfl⟩ := g; exact ⟨m, k, r, _, _, _, _, _, rfl⟩
theorem HomeOnly.foldl {α : Type} (f : State → α → State) (h : ∀ s x, HomeOnly s (f s x)) (l : List α) (s : State) :
    HomeOnly s (l.foldl f s) := by
  induction l generalizing s with
  | nil => exact .refl s
  | cons x xs ih => exact (h s x).trans (ih _)

theorem protect_home (s : State) (lid pa : Nat) : HomeOnly s (s.protect lid pa) := by
  unfold State.protect
  split
  · exact .refl s
  · exact .of_parts s s.mem s.lineKey _

theorem takeLine_home (s : State) (ctx pa : Nat) : HomeOnly s (s.takeLine ctx pa) := by
  simp only [State.takeLine]
  split
  · exact .refl s
  · exact .of_parts s _ _ s.replay

theorem putDev_home (s : State) (ctx lid pa : Nat) (b : Byte) : HomeOnly s (s.putDev ctx lid pa b) := by
  unfold State.putDev
  exact ((protect_home s lid pa).trans (takeLine_home _ ctx pa)).trans (.of_parts _ _ _ _)

theorem combineHome_home (s : State) (u : ULine) (pa : Nat) (x : W64) : HomeOnly s (combineHome s u pa x) :=
  HomeOnly.foldl _ (fun _ _ => putDev_home _ _ _ _ _) _ _

theorem sendU_home (s : State) (k line : Nat) : HomeOnly s (s.sendU k line) := by
  unfold State.sendU
  split
  · exact .refl s
  · exact (HomeOnly.foldl _ (fun _ _ => combineHome_home _ _ _ _) _ _).trans (CoresOnly.modCore _ _ _).home

theorem recall_home (s : State) (line : Nat) : HomeOnly s (s.recall line) :=
  HomeOnly.foldl _ (fun _ _ => sendU_home _ _ _) _ _

theorem recallLocs_home (s : State) (l : List Loc) : HomeOnly s (s.recallLocs l) :=
  HomeOnly.foldl _ (fun _ _ => recall_home _ _) _ _

/-- Without update-only copies a recall has no effect. -/
theorem recallLocs_none {s : State} (h : ∀ p ∈ s.cores, p.2.u = []) (l : List Loc) : s.recallLocs l = s := by
  have h1 : ∀ n, s.recall n = s := by
    intro n
    have : (s.cores.filter fun c => Tbl.mem c.2.u n) = [] := by
      rw [List.filter_eq_nil_iff]
      intro p hp
      simp [h p hp, Tbl.mem]
    simp [State.recall, this]
  unfold State.recallLocs
  induction devLines l with
  | nil => rfl
  | cons x xs ih => rw [List.foldl_cons, h1, ih]

/-! ### Checks -/

theorem accesses_cons {e : Env} {need : Need} {p : Nat × Nat} {l : List (Nat × Nat)} {loc : Loc} (h : e.place need p.2 = some loc) :
    accesses e need (p :: l) = { lane := p.1, va := p.2, loc := loc } :: accesses e need l := by
  simp [accesses, h]

/-- Accesses that pass are all of the checks' outcome (R295). -/
theorem checkLanes_passes {e : Env} {size : Nat} {need : Need} {l : List (Nat × Nat)} (h : Passes e size need l) :
    checkLanes e size need l = { good := accesses e need l, bad := [], miss := [] } := by
  induction l with
  | nil => rfl
  | cons p l ih =>
    have hl := ih fun q hq => h q (by simp [hq])
    obtain ⟨h1, h2⟩ := h p (by simp)
    obtain ⟨loc, h3⟩ := Option.isSome_iff_exists.mp h2
    have h4 : e.s.resolve (coreOfWave e.wid) e.wv.ctx e.frag.failed p.2 need = .ok loc := by
      unfold Env.place at h3
      split at h3
      · cases h3; assumption
      · cases h3
    rw [accesses_cons h3]
    unfold checkLanes at hl ⊢
    rw [List.foldr_cons, hl]
    simp [h1, h4]

theorem accesses_lanes {e : Env} {size : Nat} {need : Need} {f : Nat → Nat} {lanes : List Nat}
    (h : Passes e size need (lanes.map fun i => (i, f i))) :
    ∃ loc : Nat → Loc, (∀ i ∈ lanes, e.place need (f i) = some (loc i)) ∧
      accesses e need (lanes.map fun i => (i, f i)) = lanes.map fun i => { lane := i, va := f i, loc := loc i } := by
  refine ⟨fun i => (e.place need (f i)).getD (.dev 0), ?_, ?_⟩
  · intro i hi
    obtain ⟨loc, hl⟩ := Option.isSome_iff_exists.mp (h (i, f i) (List.mem_map.mpr ⟨i, hi, rfl⟩)).2
    simp [hl]
  · induction lanes with
    | nil => rfl
    | cons i is ih =>
      obtain ⟨loc, hl⟩ := Option.isSome_iff_exists.mp (h (i, f i) (by simp)).2
      simp only [List.map_cons]
      rw [accesses_cons hl, ih fun p hp => h p (by simp only [List.map_cons, List.mem_cons]; exact Or.inr hp)]
      simp only at hl
      simp [hl]

theorem foldr_keep {α β : Type} (f : α → List α × List β → List α × List β) (l : List α)
    (h : ∀ x ∈ l, ∀ acc, f x acc = (x :: acc.1, acc.2)) : l.foldr f ([], []) = (l, []) := by
  induction l with
  | nil => rfl
  | cons x xs ih => rw [List.foldr_cons, ih fun y hy => h y (by simp [hy]), h x (by simp)]

/-- An access at home that goes on (R408, R433, R525, R528). -/
theorem homeFirst_ok {e : Env} {s : State} {ls : List Loc} (h : s.homeOk e.wid e.wv.lid ls) (body : State → WRes) :
    homeFirst e s ls body = body (s.atHome ls) := by
  simp only [homeFirst, h.1, h.2, if_true]
  rfl

theorem atHome_home (s : State) (l : List Loc) : HomeOnly s (s.atHome l) := (meetHome_cores s l).1.home.trans (recallLocs_home _ _)

/-- A load that may go on gives its elements (R298). -/
theorem deviceLoad_eq {e : Env} {size : Nat} {l : List (Nat × Nat)} (hint : Nat) (h : Loadable e size l)
    (body : Env → List Loaded → List LaneFault → WRes) :
    deviceLoad e size hint (checkLanes e size .read l) body =
      let found := findAll (e.looks size l) e.wid e.wv size (accesses e .read l)
      body { e with s := (e.looks size l).fillL1 e.wid e.wv hint (found.flatMap fun x => x.bytes) } found [] := by
  have h1 : ((findAll (e.looks size l) e.wid e.wv size (accesses e .read l)).filter fun x =>
      x.remote && !Tbl.mem e.frag.answers x.acc.va) = [] := by
    rw [List.filter_eq_nil_iff]
    intro x hx
    simp [h.here x hx]
  rw [checkLanes_passes h.passes]
  simp only [deviceLoad, withMisses, List.isEmpty_nil, if_true]
  refine (homeFirst_ok h.goesOn _).trans ?_
  have h3 := h.here
  unfold Env.looks at h1 h3 ⊢
  unfold Env.loadReads at h1 h3 ⊢
  simp only [h1, List.isEmpty_nil, Bool.not_true, Bool.false_eq_true, if_false]
  rw [foldr_keep _ _ fun x hx acc => by simp only [h3 x hx, Bool.not_false, if_true]]
  simp only [List.append_nil]

theorem looks_home (e : Env) (size : Nat) (l : List (Nat × Nat)) : HomeOnly e.s (e.looks size l) :=
  (meetCopies_cores _ _ _ _).1.home.trans (atHome_home _ _)

theorem HomeOnly.wave {s t : State} (h : HomeOnly s t) (k : Nat) : t.wave k = s.wave k := by
  obtain ⟨_, _, _, _, _, _, _, _, rfl⟩ := h; rfl
theorem HomeOnly.twinned {s t : State} (h : HomeOnly s t) (w : Wave) : t.twinned w = s.twinned w := by
  obtain ⟨_, _, _, _, _, _, _, _, rfl⟩ := h; rfl

/-- What the read log takes leaves the rest: outside a checked span nothing, in one the log, or the buffers of an overflow. -/
theorem abortUnit_wave (s : State) (q : Who) (bid l cause : Nat) {v : Wave} (hv : s.wave q.wid = some v) :
    ∃ v', (s.abortUnit q bid l cause).wave q.wid = some v' ∧ { v' with aborting := v.aborting } = v := by
  have key : ∀ (ws : List (Nat × Wave)) (s : State) (v : Wave), s.wave q.wid = some v →
      ∃ v', (ws.foldl (fun s p => if p.2.openTo l then s.modWave p.1 fun w => w.affect l (if p.1 = q.wid then cause else 5) else s) s).wave q.wid = some v' ∧
        { v' with aborting := v.aborting } = v := by
    intro ws
    induction ws with
    | nil => intro s v hv; exact ⟨v, hv, rfl⟩
    | cons p ps ih =>
      intro s v hv
      rw [List.foldl_cons]
      by_cases ho : p.2.openTo l = true
      · rw [if_pos ho]
        by_cases hp : q.wid = p.1
        · have h1 : (s.modWave p.1 fun w => w.affect l (if p.1 = q.wid then cause else 5)).wave q.wid =
              some (v.affect l (if p.1 = q.wid then cause else 5)) := by
            rw [State.wave_modWave, if_pos hp, ← hp, hv]; rfl
          obtain ⟨v', h2, h3⟩ := ih _ _ h1
          refine ⟨v', h2, ?_⟩
          have h4 : ∀ c, { v.affect l c with aborting := v.aborting } = v := by
            intro c
            unfold Wave.affect
            split
            · split <;> rfl
            · rfl
          rw [← h4 (if p.1 = q.wid then cause else 5)]
          have := congrArg (fun w : Wave => { w with aborting := v.aborting }) h3
          simpa [h4] using this
        · refine ih _ v ?_
          rw [State.wave_modWave, if_neg hp, hv]
      · rw [if_neg ho]
        exact ih s v hv
  unfold State.abortUnit
  split
  · exact key _ _ v hv
  · exact key _ _ v hv

theorem abortUnit_home (s : State) (q : Who) (bid l cause : Nat) :
    (s.abortUnit q bid l cause).mem = s.mem ∧ (s.abortUnit q bid l cause).hostMem = s.hostMem ∧
      (s.abortUnit q bid l cause).launches = s.launches := by
  have key : ∀ (ws : List (Nat × Wave)) (s : State),
      let t := ws.foldl (fun s p => if p.2.openTo l then s.modWave p.1 fun w => w.affect l (if p.1 = q.wid then cause else 5) else s) s
      t.mem = s.mem ∧ t.hostMem = s.hostMem ∧ t.launches = s.launches := by
    intro ws
    induction ws with
    | nil => intro s; exact ⟨rfl, rfl, rfl⟩
    | cons p ps ih =>
      intro s
      simp only [List.foldl_cons]
      split
      · exact ih _
      · exact ih s
  unfold State.abortUnit
  split
  · exact key _ _
  · exact key _ _

theorem logSpan_spec (s : State) (q : Who) (bid : Nat) (w : Wave) (l : List (Nat × Found)) {v : Wave} (hv : s.wave q.wid = some v) :
    ∃ v', (s.logSpan q bid w l).wave q.wid = some v' ∧ { v' with readLog := v.readLog, aborting := v.aborting } = v ∧
      (s.logSpan q bid w l).mem = s.mem ∧ (s.logSpan q bid w l).hostMem = s.hostMem ∧
      (s.logSpan q bid w l).launches = s.launches ∧ (w.checkedLevel = none → s.logSpan q bid w l = s) := by
  unfold State.logSpan
  cases hc : w.checkedLevel with
  | none => exact ⟨v, hv, rfl, rfl, rfl, rfl, fun _ => rfl⟩
  | some c =>
    simp only
    split
    · refine ⟨{ v with readLog := logReads w l }, ?_, rfl, rfl, rfl, rfl, by simp⟩
      rw [State.wave_modWave, if_pos rfl, hv]; rfl
    · obtain ⟨v', h1, h2⟩ := abortUnit_wave s q bid c 3 hv
      obtain ⟨h3, h4, h5⟩ := abortUnit_home s q bid c 3
      refine ⟨v', h1, ?_, h3, h4, h5, by simp⟩
      have := congrArg Wave.readLog h2
      rw [← h2]

theorem findAll_bytes (s : State) (k : Nat) (w : Wave) (size : Nat) (a : Access) :
    ofLE (((accBytes size a).map fun p => seek s k w p.1 p.2).map (·.val)) =
      ofLE ((List.range size).map fun i => (seek s k w (a.va + i) (locPlus a.loc i)).val) := by
  simp [accBytes, Function.comp_def]

theorem Completes.memory {e : Env} {s t : State} {v w' : Wave} (h : Completes e s v t w') : t.mem = s.mem ∧ t.hostMem = s.hostMem :=
  ⟨by have := congrArg State.mem h.rest; exact this, by have := congrArg State.hostMem h.rest; exact this⟩

theorem Completes.buffers {e : Env} {s t : State} {v w' : Wave} (h : Completes e s v t w') : t.blocks = s.blocks ∧ t.crews = s.crews :=
  ⟨by have := congrArg State.blocks h.rest; exact this, by have := congrArg State.crews h.rest; exact this⟩

theorem Tbl.mem_put {β : Type} {t : Tbl β} {k : Nat} {x : β} {p : Nat × β} (h : p ∈ Tbl.put t k x) : p ∈ t ∨ p = (k, x) := by
  induction t with
  | nil => right; simpa [Tbl.put] using h
  | cons y ys ih =>
    obtain ⟨j, z⟩ := y
    simp only [Tbl.put] at h
    split at h
    · rcases List.mem_cons.mp h with h | h
      · exact Or.inr h
      · exact Or.inl h
    · split at h
      · rcases List.mem_cons.mp h with h | h
        · exact Or.inr h
        · exact Or.inl (by simp [h])
      · rcases List.mem_cons.mp h with h | h
        · exact Or.inl (by simp [h])
        · rcases ih h with h | h
          · exact Or.inl (by simp [h])
          · exact Or.inr h

theorem Tbl.mem_del {β : Type} {t : Tbl β} {k : Nat} {p : Nat × β} (h : p ∈ Tbl.del t k) : p ∈ t := by
  induction t with
  | nil => simp [Tbl.del] at h
  | cons y ys ih =>
    obtain ⟨j, z⟩ := y
    simp only [Tbl.del] at h
    split at h
    · exact List.mem_cons_of_mem _ (ih h)
    · rcases List.mem_cons.mp h with h | h
      · simp [h]
      · exact List.mem_cons_of_mem _ (ih h)

theorem Tbl.mem_of_find {β : Type} {t : Tbl β} {k : Nat} {x : β} (h : Tbl.find t k = some x) : (k, x) ∈ t := by
  induction t with
  | nil => cases h
  | cons y ys ih =>
    obtain ⟨j, z⟩ := y
    simp only [Tbl.find] at h
    split at h
    · rename_i hj; cases h; simp [hj]
    · exact List.mem_cons_of_mem _ (ih h)

/-- No core holds an update-only copy. -/
def State.noU (s : State) : Prop := ∀ p ∈ s.cores, p.2.u = []

theorem State.noU_core {s : State} (h : s.noU) (k : Nat) : (s.core k).u = [] := by
  unfold State.core Tbl.get
  cases hf : Tbl.find s.cores k with
  | none => rfl
  | some c => exact h _ (Tbl.mem_of_find hf)

theorem State.noU_modCore {s : State} (h : s.noU) (k : Nat) (f : Core → Core) (hf : (f (s.core k)).u = (s.core k).u) :
    (s.modCore k f).noU := by
  intro p hp
  unfold State.modCore Tbl.set at hp
  simp only at hp
  split at hp
  · exact h p (Tbl.mem_del hp)
  · rcases Tbl.mem_put hp with hp | rfl
    · exact h p hp
    · rw [hf]; exact State.noU_core h k

/-! ### L1 (R258, R259) -/

theorem evictSb_home (s : State) (k sb : Nat) : HomeOnly s (s.evictSb k sb) := by
  unfold State.evictSb
  exact (HomeOnly.foldl (fun s n => s.sendU k n) (fun _ _ => sendU_home _ _ _) _ _).trans (CoresOnly.modCore _ _ _).home

/-- `t` differs from `s` in cores only, and has no update-only copy where `s` has none. -/
def Quiet (s t : State) : Prop := s.noU → CoresOnly s t ∧ t.noU

theorem Quiet.refl (s : State) : Quiet s s := fun h => ⟨.refl s, h⟩
theorem Quiet.trans {s t u : State} (h : Quiet s t) (g : Quiet t u) : Quiet s u := fun hn =>
  ⟨(h hn).1.trans (g (h hn).2).1, (g (h hn).2).2⟩
theorem Quiet.modCore (s : State) (k : Nat) (f : Core → Core) (hf : ∀ c : Core, (f c).u = c.u) : Quiet s (s.modCore k f) := fun h =>
  ⟨.modCore s k f, State.noU_modCore h k f (hf _)⟩
theorem Quiet.of_cores {s t : State} (h : CoresOnly s t ∧ t.cores = s.cores) : Quiet s t := fun hn =>
  ⟨h.1, by unfold State.noU; rw [h.2]; exact hn⟩
theorem Quiet.foldl {α : Type} (f : State → α → State) (h : ∀ s x, Quiet s (f s x)) (l : List α) (s : State) :
    Quiet s (l.foldl f s) := by
  induction l generalizing s with
  | nil => exact .refl s
  | cons x xs ih => exact (h s x).trans (ih _)

theorem evictSb_quiet (s : State) (k sb : Nat) : Quiet s (s.evictSb k sb) := by
  intro h
  have : ((s.core k).uOf sb) = [] := by simp [Core.uOf, State.noU_core h k]
  simp only [State.evictSb, this, List.foldl_nil]
  exact Quiet.modCore s k _ (fun _ => rfl) h

theorem putTags_u (c : Core) (set : Nat) (l : List L1Tag) : (c.putTags set l).u = c.u := rfl

/-- A line that takes its place in L1 changes cores, and sends update-only copies home. -/
theorem placeLine_spec (s : State) (k key hint : Nat) : HomeOnly s (s.placeLine k key hint) ∧ Quiet s (s.placeLine k key hint) := by
  simp only [State.placeLine]
  split
  · exact ⟨(CoresOnly.modCore _ _ _).home, .modCore _ _ _ fun _ => rfl⟩
  · split
    · exact ⟨((CoresOnly.fresh s).trans (.modCore _ _ _)).home, (Quiet.of_cores ⟨.fresh s, rfl⟩).trans (.modCore _ _ _ fun _ => rfl)⟩
    · split
      · exact ⟨.refl s, .refl s⟩
      · exact ⟨(evictSb_home _ _ _).trans (CoresOnly.modCore _ _ _).home, (evictSb_quiet _ _ _).trans (.modCore _ _ _ fun _ => rfl)⟩

theorem fillLine_spec (s : State) (k hint key : Nat) (x : L1Line) :
    HomeOnly s (s.fillLine k hint key x) ∧ Quiet s (s.fillLine k hint key x) := by
  unfold State.fillLine
  split
  · exact ⟨.refl s, .refl s⟩
  · obtain ⟨a, b⟩ := placeLine_spec s k key hint
    exact ⟨a.trans (CoresOnly.modCore _ _ _).home, b.trans (.modCore _ _ _ fun _ => rfl)⟩

theorem touchLine_quiet (s : State) (k key : Nat) : Quiet s (s.touchLine k key) := by
  unfold State.touchLine
  refine .modCore _ _ _ fun c => ?_
  simp only
  split <;> rfl

/-- Filling L1 changes cores, and sends update-only copies home. -/
theorem fillL1_spec (s : State) (k : Nat) (w : Wave) (hint : Nat) (l : List Found) :
    HomeOnly s (s.fillL1 k w hint l) ∧ Quiet s (s.fillL1 k w hint l) := by
  unfold State.fillL1
  simp only
  split
  · exact ⟨(CoresOnly.foldl _ (fun _ _ => touchLine_cores _ _ _) _ _).home, Quiet.foldl _ (fun _ _ => touchLine_quiet _ _ _) _ _⟩
  · exact ⟨((CoresOnly.foldl _ (fun _ _ => touchLine_cores _ _ _) _ _).home.trans
        (HomeOnly.foldl _ (fun s x => (fillLine_spec s _ _ _ _).1) _ _)).trans (HomeOnly.foldl _ (fun s x => (fillLine_spec s _ _ _ _).1) _ _),
      ((Quiet.foldl _ (fun _ _ => touchLine_quiet _ _ _) _ _).trans
        (Quiet.foldl _ (fun s x => (fillLine_spec s _ _ _ _).2) _ _)).trans (Quiet.foldl _ (fun s x => (fillLine_spec s _ _ _ _).2) _ _)⟩

theorem uKeys_none {s : State} (h : s.noU) (l : List Nat) : s.uKeys l = [] := by
  unfold State.uKeys
  rw [List.flatMap_eq_nil_iff]
  intro c hc
  simp [h c hc]

theorem atHome_quiet (s : State) (l : List Loc) : Quiet s (s.atHome l) := by
  intro h
  have h1 := Quiet.of_cores (meetHome_cores s l) h
  unfold State.atHome
  rw [recallLocs_none h1.2]
  exact h1

theorem looks_quiet (e : Env) (size : Nat) (l : List (Nat × Nat)) : Quiet e.s (e.looks size l) :=
  (Quiet.of_cores (meetCopies_cores _ _ _ _)).trans (atHome_quiet _ _)

/-- What a load leaves alone. -/
theorem loaded_spec (e : Env) (size hint : Nat) (l : List (Nat × Nat)) (hw : e.s.wave e.wid = some e.wv) :
    ∃ v, (e.loaded size hint l).wave e.wid = some v ∧ (e.loaded size hint l).launches = e.s.launches ∧
      { v with readLog := e.wv.readLog, aborting := e.wv.aborting } = e.wv ∧
      ∀ s' w', Completes e (e.loaded size hint l) v s' w' → LoadFrame e v s' := by
  have hf : HomeOnly e.s ((e.looks size l).fillL1 e.wid e.wv hint
      ((findAll (e.looks size l) e.wid e.wv size (accesses e .read l)).flatMap fun x => x.bytes)) :=
    (looks_home e size l).trans (fillL1_spec _ _ _ _ _).1
  have hm : e.s.noU → ((e.looks size l).fillL1 e.wid e.wv hint
      ((findAll (e.looks size l) e.wid e.wv size (accesses e .read l)).flatMap fun x => x.bytes)).mem = e.s.mem := by
    intro h
    obtain ⟨⟨_, _, _, _, _, hx⟩, -⟩ := ((looks_quiet e size l).trans (fillL1_spec _ e.wid e.wv hint
      ((findAll (e.looks size l) e.wid e.wv size (accesses e .read l)).flatMap fun x => x.bytes)).2) h
    rw [hx]
  unfold Env.loaded
  generalize findAll (e.looks size l) e.wid e.wv size (accesses e .read l) = found at *
  simp only
  generalize (e.looks size l).fillL1 e.wid e.wv hint (found.flatMap fun x => x.bytes) = t at *
  obtain ⟨v, h1, h2, h3, h4, h5, h6⟩ := logSpan_spec t (whoOf e.wv e.wid e.fr) (e.wv.bid e.wid) e.wv (logOf found fun x => x.acc.lane)
    (v := e.wv) (by rw [hf.wave]; exact hw)
  obtain ⟨_, _, _, _, _, _, _, _, ht⟩ := hf
  refine ⟨v, h1, ?_, h2, fun s' w' hc => ⟨h2, fun hn => ?_, fun hn => ?_⟩⟩
  · show (t.logSpan _ _ _ _).launches = _
    rw [h5, ht]
  · obtain ⟨m1, m2⟩ := hc.memory
    have e1 : s'.mem = e.s.mem := by rw [m1, ← hm hn]; exact h3
    have e2 : s'.hostMem = e.s.hostMem := by rw [m2]; show (t.logSpan _ _ _ _).hostMem = _; rw [h4, ht]
    exact ⟨fun a => by rw [e1], fun a => by rw [e2]⟩
  · obtain ⟨b1, b2⟩ := hc.buffers
    have h7 := h6 hn
    refine ⟨?_, ?_, ?_⟩
    · have : (t.logSpan (whoOf e.wv e.wid e.fr) (e.wv.bid e.wid) e.wv (logOf found fun x => x.acc.lane)).wave e.wid = some e.wv := by
        rw [h7, ht]; exact hw
      exact Option.some.inj (h1.symm.trans this)
    · rw [b1]; show (t.logSpan _ _ _ _).blocks = _; rw [h7, ht]
    · rw [b2]; show (t.logSpan _ _ _ _).crews = _; rw [h7, ht]

theorem HomeOnly.of_launches {s t : State} (h : t.launches = s.launches) (w : Wave) : t.twinned w = s.twinned w := by
  unfold State.twinned State.isTwin State.flag State.record State.launch
  rw [h]

/-- Writes of loaded elements are writes of D. -/
theorem writes_lanes_putD (e : Env) (v : Wave) (t : Ty) (f : Nat → Nat) (hd : e.w.d.toNat < 0x80) :
    v.writes (e.lanes.flatMap fun i => putAt e.w.d.toNat t i (f i)) = v.writes (e.putD t f) := by
  unfold Env.putD
  simp only [if_pos hd]

theorem loaded_elems (s : State) (e : Env) (size : Nat) (lanes : List Nat) (t : Ty) (f : Nat → Nat) (loc : Nat → Loc) (d : Nat) :
    ((findAll s e.wid e.wv size (lanes.map fun i => { lane := i, va := f i, loc := loc i })).flatMap fun x =>
      putAt d t x.acc.lane x.value) = lanes.flatMap fun i => putAt d t i (loadValue s e size (f i) (loc i)) := by
  simp only [findAll, List.flatMap_map, List.map_map]
  congr 1
  funext i
  simp only [Function.comp, Loaded.value, findAll_bytes, loadValue]

theorem load_done {w : Fields} {s : State} {e : Env} (h : Issues w s e) {size hint : Nat} {l : List (Nat × Nat)} {i : Instr}
    {body : Env → WRes} {ws : List RegWrite} {lat : Nat} (hx : exec i s = onWord w s body)
    (hb : body e = .done { s := e.loaded size hint l, ws := ws, lat := lat, load := true }) :
    ∃ s' v w', exec i e.s = .next s' ∧ Completes e (e.loaded size hint l) v s' w' ∧ w'.v = (v.writes ws).v ∧ w'.s = (v.writes ws).s ∧
      w'.k = (v.writes ws).k ∧ w'.fpflags = v.fpflags ∧ LoadFrame e v s' := by
  obtain ⟨v, hv, hlaunch, hp, hframe⟩ := loaded_spec e size hint l h.wave
  have hfr : v.frags = e.wv.frags := by have := congrArg Wave.frags hp; exact this
  obtain ⟨s', w', h1, h2, h3, h4, h5, h6, h7⟩ := effect_done h hx hb
    (by show (e.loaded size hint l).twinned e.wv = false; rw [HomeOnly.of_launches hlaunch]; exact h.alone) hv
    (by rw [hfr]; exact h.facts.frag) rfl rfl (by simp) rfl
  exact ⟨s', v, w', h1, h2, h3, h4, h5, by simpa [fpflagsAfter, mergeFlags, noFlags] using h6, hframe s' w' h2⟩

theorem Env.ea_lt (e : Env) (sc : Nat) (off : Bool) (i : Nat) : e.ea sc off i < 2 ^ 64 := by
  unfold Env.ea
  exact wrap_lt _ _

/-- The trap of one lane that fails. -/
theorem laneTrap_one (x : LaneFault) (h : x.va < 2 ^ 64) : laneTrap [x] = some (faultRec x.cause (BitVec.ofNat 64 x.info)
    (BitVec.ofNat 64 (if x.cause = cSAMEADDR ∨ x.cause = cALIGN ∨ x.cause = cPAGE ∨ x.cause = cPROT ∨ x.cause = cSCOPE then x.va else 0))
    (maskOf [x.lane])) := by
  have hm : min (2 ^ 64 - 1) x.va = x.va := by omega
  simp only [laneTrap, List.foldl_nil, List.filter_cons, beq_self_eq_true, if_true, List.filter_nil, List.foldl_cons, hm,
    List.find?_cons, List.map_cons, List.map_nil]

/-- The number that a load takes from the model's counter. -/
def Env.loadedBy (e : Env) (hint : Nat) (l : List (Nat × Nat)) : Nat := (e.loaded (elemBytes e.ty) hint l).free - 1

/-- A list of keys put one after the other: the entries of `n` consecutive keys. -/
theorem find_putRange {α : Type} (g : Nat → α) (a n x : Nat) (t : Tbl α) :
    Tbl.find ((List.range n).foldl (fun t k => Tbl.put t (a + k) (g k)) t) x =
      if a ≤ x ∧ x < a + n then some (g (x - a)) else Tbl.find t x := by
  induction n with
  | zero => rw [if_neg (by omega)]; rfl
  | succ n ih =>
    rw [List.range_succ, List.foldl_append, List.foldl_cons, List.foldl_nil, Tbl.find_put, ih]
    by_cases h : x = a + n
    · subst h
      rw [if_pos rfl, if_pos (by omega)]
      congr 2; omega
    · rw [if_neg h]
      by_cases h2 : a ≤ x ∧ x < a + n
      · rw [if_pos h2, if_pos (by omega)]
      · rw [if_neg h2, if_neg (by omega)]

theorem leBytes_length (n x : Nat) : (leBytes n x).length = n := by
  induction n generalizing x with
  | zero => rfl
  | succ n ih => simp [leBytes, ih]

theorem leBytes_getD (n x k : Nat) (h : k < n) : (leBytes n x).getD k 0 = BitVec.ofNat 8 (x / 2 ^ (8 * k)) := by
  induction n generalizing x k with
  | zero => omega
  | succ n ih =>
    cases k with
    | zero => simp [leBytes]
    | succ k =>
      have := ih (x / 256) k (by omega)
      simp only [leBytes, List.getD_cons_succ, this]
      rw [Nat.div_div_eq_div_mul, show 8 * (k + 1) = 8 + 8 * k by omega, Nat.pow_add]

theorem zip_leBytes (n x : Nat) : (List.range n).zip (leBytes n x) = (List.range n).map fun k => (k, BitVec.ofNat 8 (x / 2 ^ (8 * k))) := by
  apply List.ext_getElem
  · simp [leBytes_length]
  · intro i h1 h2
    simp only [List.length_zip, List.length_range, leBytes_length, Nat.min_self] at h1
    simp only [List.getElem_zip, List.getElem_range, List.getElem_map, Prod.mk.injEq, true_and]
    have := leBytes_getD n x i h1
    rw [List.getD_eq_getElem?_getD, List.getElem?_eq_getElem (by rw [leBytes_length]; exact h1)] at this
    exact this

theorem wsbLanes_congr {t u : Tbl WsbByte} {y : Nat} (h : Tbl.find u y = Tbl.find t y) : wsbLanes u y = wsbLanes t y := by
  unfold wsbLanes
  rw [h]

/-- The WSB after one element (R207). -/
theorem find_wsbPut (t : Tbl WsbByte) (a : Access) (size x y : Nat) :
    Tbl.find (wsbPut t (storeElem a size x)) y =
      if a.va ≤ y ∧ y < a.va + size then
        some { val := BitVec.ofNat 8 (x / 2 ^ (8 * (y - a.va))), loc := locPlus a.loc (y - a.va), writer := a.lane,
               lanes := wsbLanes t y ||| maskOf [a.lane] }
      else Tbl.find t y := by
  have : wsbPut t (storeElem a size x) = (List.range size).foldl (fun t k => Tbl.put t (a.va + k)
      { val := BitVec.ofNat 8 (x / 2 ^ (8 * k)), loc := locPlus a.loc k, writer := a.lane,
        lanes := wsbLanes t (a.va + k) ||| maskOf [a.lane] }) t := by
    unfold wsbPut storeElem
    rw [zip_leBytes, List.foldl_map, List.foldl_map]
  rw [this]
  generalize size = n
  induction n generalizing y with
  | zero => rw [if_neg (by omega)]; rfl
  | succ n ih =>
    rw [List.range_succ, List.foldl_append, List.foldl_cons, List.foldl_nil, Tbl.find_put]
    by_cases h : y = a.va + n
    · subst h
      have h0 := ih (a.va + n)
      rw [if_neg (by omega)] at h0
      rw [if_pos rfl, if_pos (by omega)]
      rw [wsbLanes_congr h0, Nat.add_sub_cancel_left]
    · rw [if_neg h, ih]
      by_cases h2 : a.va ≤ y ∧ y < a.va + n
      · rw [if_pos h2, if_pos (by omega)]
      · rw [if_neg h2, if_neg (by omega)]

theorem maskOf_cons (x : Nat) (l : List Nat) : maskOf (x :: l) = maskOf [x] ||| maskOf l := by
  apply BitVec.eq_of_getLsbD_eq
  intro i hi
  simp only [BitVec.getLsbD_or, getLsbD_maskOf _ _ hi, List.mem_cons, List.not_mem_nil, or_false, Bool.decide_or]

theorem coverers_cons (p : Nat × Nat) (l : List (Nat × Nat)) (size a : Nat) :
    coverers (p :: l) size a = if p.2 ≤ a ∧ a < p.2 + size then maskOf [p.1] ||| coverers l size a else coverers l size a := by
  unfold coverers
  rw [List.filter_cons]
  by_cases h : p.2 ≤ a ∧ a < p.2 + size
  · rw [if_pos (decide_eq_true h), if_pos h, List.map_cons, maskOf_cons]
  · rw [if_neg (by simpa using h), if_neg h]

theorem coverers_none {l : List (Nat × Nat)} {size a : Nat} (h : lastOver l size a = none) : coverers l size a = 0 := by
  unfold lastOver at h
  rw [List.find?_eq_none] at h
  have : (l.filter fun p => decide (p.2 ≤ a ∧ a < p.2 + size)) = [] := by
    rw [List.filter_eq_nil_iff]
    intro p hp
    exact h p (List.mem_reverse.mpr hp)
  rw [coverers, this]
  rfl

theorem lastOver_cons (p : Nat × Nat) (l : List (Nat × Nat)) (size a : Nat) :
    lastOver (p :: l) size a = match lastOver l size a with
      | some q => some q
      | none => if p.2 ≤ a ∧ a < p.2 + size then some p else none := by
  unfold lastOver
  rw [List.reverse_cons, List.find?_append]
  cases h : l.reverse.find? fun p => decide (p.2 ≤ a ∧ a < p.2 + size) with
  | some q => rfl
  | none => by_cases hp : p.2 ≤ a ∧ a < p.2 + size <;> simp [hp]

/-- The WSB after the stores of all lanes. -/
theorem find_wsbPuts {e : Env} {size : Nat} {l : List (Nat × Nat)} (h : Passes e size .write l) (val : Nat → Nat) (t : Tbl WsbByte) (y : Nat) :
    Tbl.find (((accesses e .write l).map fun a => storeElem a size (val a.lane)).foldl wsbPut t) y =
      match lastOver l size y with
      | some p => some { val := BitVec.ofNat 8 (val p.1 / 2 ^ (8 * (y - p.2))),
                         loc := locPlus ((e.place .write p.2).getD (.dev 0)) (y - p.2), writer := p.1,
                         lanes := wsbLanes t y ||| coverers l size y }
      | none => Tbl.find t y := by
  induction l generalizing t with
  | nil => rfl
  | cons p l ih =>
    obtain ⟨loc, hl⟩ := Option.isSome_iff_exists.mp (h p (by simp)).2
    rw [accesses_cons hl, List.map_cons, List.foldl_cons, ih (fun q hq => h q (by simp [hq])), lastOver_cons, coverers_cons]
    have hw : wsbLanes (wsbPut t (storeElem { lane := p.1, va := p.2, loc := loc } size (val p.1))) y =
        if p.2 ≤ y ∧ y < p.2 + size then wsbLanes t y ||| maskOf [p.1] else wsbLanes t y := by
      simp only [wsbLanes, find_wsbPut]
      by_cases hp : p.2 ≤ y ∧ y < p.2 + size
      · simp only [if_pos hp]
      · simp only [if_neg hp]
    cases hq : lastOver l size y with
    | some q =>
      simp only [hw]
      by_cases hp : p.2 ≤ y ∧ y < p.2 + size
      · simp only [if_pos hp, BitVec.or_assoc]
      · simp only [if_neg hp]
    | none =>
      simp only
      rw [find_wsbPut]
      by_cases hp : p.2 ≤ y ∧ y < p.2 + size
      · simp [hp, hl, coverers_none hq]
      · simp only [if_neg hp]

/-- Stores for which the WSB has room at every point (R208, R211). -/
theorem storeAll_holds (q : Who) (bid : Nat) (l : List (List StoreByte)) (s : State) {v : Wave} (hv : s.wave q.wid = some v)
    (h : ∀ n, lineCount ((l.take n).foldl wsbPut v.wsb) ≤ 128) (hne : l ≠ []) :
    State.storeAll q bid s l = .ok (s.modWave q.wid fun w => { w with wsb := l.foldl wsbPut v.wsb }) := by
  induction l generalizing s v with
  | nil => exact absurd rfl hne
  | cons x xs ih =>
    have h1 := h 1
    simp only [List.take_succ_cons, List.take_zero, List.foldl_cons, List.foldl_nil] at h1
    rw [State.storeAll, hv]
    simp only [h1, if_true]
    have hv2 : (s.modWave q.wid fun w => { w with wsb := wsbPut v.wsb x }).wave q.wid = some { v with wsb := wsbPut v.wsb x } :=
      State.wave_modWave_of hv
    cases xs with
    | nil => rfl
    | cons y ys =>
      rw [ih _ hv2 (fun n => by simpa using h (n + 1)) (by simp)]
      simp only [State.modWave_modWave, List.foldl_cons]

/-- A device store for which the WSB has room (R299). -/
theorem deviceStore_eq {w : Fields} {s : State} {e : Env} (hi : Issues w s e) {size : Nat} {l : List (Nat × Nat)} {val : Nat → Nat}
    {tr : List LaneFault → Option TrapRec} (ht : tr [] = none) (h : Passes e size .write l) (hw : WsbHolds e size l val) (hne : l ≠ []) :
    deviceStore e size (checkLanes e size .write l) val tr = .done { s := e.s.modWave e.wid fun w =>
      { w with wsb := ((accesses e .write l).map fun a => storeElem a size (val a.lane)).foldl wsbPut e.wv.wsb } } := by
  have hsig : ∀ b, e.s.foldSig e.wid b = e.s := by
    intro b; simp [State.foldSig, hi.wave, hi.alone]
  have hall := hw (accesses e .write l).length
  rw [List.take_length] at hall
  have hd : drains e.wv ((accesses e .write l).map fun a => storeElem a size (val a.lane)) = false := by
    have : ¬ lineCount (((accesses e .write l).map fun a => storeElem a size (val a.lane)).foldl wsbPut e.wv.wsb) > 128 := by omega
    simp [drains, this]
  have hst := storeAll_holds (whoOf e.wv e.wid e.fr) (e.wv.bid e.wid) ((accesses e .write l).map fun a => storeElem a size (val a.lane))
    e.s hi.wave (fun n => by rw [← List.map_take]; exact hw n) (by
      cases l with
      | nil => exact absurd rfl hne
      | cons p l =>
        obtain ⟨loc, hl⟩ := Option.isSome_iff_exists.mp (h p (by simp)).2
        rw [accesses_cons hl]; simp)
  rw [checkLanes_passes h]
  simp only [deviceStore, withMisses, storeNow, List.isEmpty_nil, hd, Bool.not_false, if_true, hsig, hst, ht]
  rfl

/-- Only what the waves are matters of the table of waves. -/
theorem Completes.congr {e : Env} {s u t : State} {v w' : Wave} (h : Completes e s v t w') (hw : ∀ k, u.wave k = s.wave k)
    (hr : { u with waves := s.waves } = s) : Completes e u v t w' := by
  refine ⟨by rw [hw]; exact h.before, h.wave, fun k hk => by rw [hw]; exact h.others k hk, ?_, h.parts, h.frag, h.frags⟩
  have h1 := h.rest
  have h2 := congrArg (fun x : State => { x with waves := u.waves }) (h1.trans hr.symm)
  exact h2

theorem store_done {w : Fields} {s : State} {e : Env} (h : Issues w s e) {i : Instr} {body : Env → WRes} {size : Nat}
    {l : List (Nat × Nat)} {val : Nat → Nat} {tr : List LaneFault → Option TrapRec} (ht : tr [] = none) (hp : Passes e size .write l)
    (hw : WsbHolds e size l val)
    (hx : exec i s = onWord w s body)
    (hb : body e = deviceStore e size (checkLanes e size .write l) val tr) :
    ∃ s' w' buf, exec i e.s = .next s' ∧
      Completes e (e.s.modWave e.wid fun _ => { e.wv with wsb := buf }) { e.wv with wsb := buf } s' w' ∧ SameRegs e.wv w' ∧
      w'.fpflags = e.wv.fpflags ∧ w'.pending = e.wv.pending ∧ SameMemory e.s s' ∧
      ∀ a, Tbl.find buf a = storedWsb e l size val a := by
  have hfind := fun y => find_wsbPuts hp val e.wv.wsb y
  cases l with
  | nil =>
    have hd : drains e.wv [] = false := by
      have : ¬ lineCount e.wv.wsb > 128 := by simpa [accesses] using hw 0
      simp [drains, this]
    have hsig : ∀ b, e.s.foldSig e.wid b = e.s := by
      intro b; simp [State.foldSig, h.wave, h.alone]
    have hb2 : body e = .done { s := e.s } := by
      rw [hb]
      simp [deviceStore, withMisses, storeNow, checkLanes, hd, hsig, State.storeAll, ht]
    obtain ⟨s', w', h1, h2, h3, h4, h5, h6, h7⟩ := word_done h hx hb2 rfl rfl rfl (by simp) rfl
    refine ⟨s', w', e.wv.wsb, h1, h2.congr ?_ rfl, SameRegs.of_regs h3 h4 h5, by simpa [fpflagsAfter, mergeFlags, noFlags] using h6,
      by simpa [Env.pendingAfter] using h7, ?_, ?_⟩
    · intro k
      rw [State.wave_modWave]
      split
      · rename_i hk; rw [hk, h.wave]; rfl
      · rfl
    · obtain ⟨m1, m2⟩ := h2.memory
      exact ⟨fun a => by rw [m1], fun a => by rw [m2]⟩
    · intro a; rfl
  | cons p l =>
    obtain ⟨s', w', h1, h2, h3, h4, h5⟩ := effect_wave h hx (hb.trans (deviceStore_eq h ht hp hw (by simp))) rfl rfl
    refine ⟨s', w', _, h1, h2, ?_, h4, h5, ?_, fun a => hfind a⟩
    · exact h3
    · obtain ⟨m1, m2⟩ := h2.memory
      exact ⟨fun a => by rw [m1]; rfl, fun a => by rw [m2]; rfl⟩

/-- The scratchpad after the stores of all lanes (R257). -/
theorem read_putScratches (size : Nat) (val : Nat → Nat) (l : List (Nat × Nat)) (b : Block) :
    ∃ sp, l.foldl (fun b p => b.putScratch p.2 (leBytes size (val p.1))) b = { b with scratch := sp } ∧
      ∀ a, Memory.read sp a = storedByte l size val (Memory.read b.scratch a) a := by
  induction l generalizing b with
  | nil => exact ⟨b.scratch, rfl, fun a => rfl⟩
  | cons p l ih =>
    obtain ⟨sp, h1, h2⟩ := ih (b.putScratch p.2 (leBytes size (val p.1)))
    refine ⟨sp, h1, fun a => ?_⟩
    rw [h2 a]
    unfold storedByte
    rw [lastOver_cons]
    cases hq : lastOver l size a with
    | some q => rfl
    | none =>
      simp only [Block.putScratch]
      rw [Memory.read_writes, leBytes_length]
      by_cases hp : p.2 ≤ a ∧ a < p.2 + size
      · simp only [if_pos hp]
        rw [leBytes_getD _ _ _ (by omega)]
      · simp only [if_neg hp]

end Sys2Proof.Machine
end

