-- ==== Sys2Proof/Laws/Ladder.lean ====
section
/-! SUPPORT. Laws of atomics, buffers and writes at home: what they change and what they leave. -/

namespace Sys2Proof.Machine

/-- `t` differs from `s` in the scope tables, the model's counter and what soft errors leave. -/
def ScopeOnly (s t : State) : Prop :=
  ∃ a b n d p f, t = { s with scope := a, hubScope := b, free := n, dies := d, poison := p, soft := f }

theorem ScopeOnly.of_parts (s : State) (a : Tbl ScopeEntry) (b : Tbl ScopeEntry) (n : Nat) :
    ScopeOnly s { s with scope := a, hubScope := b, free := n } := ⟨a, b, n, s.dies, s.poison, s.soft, rfl⟩
theorem ScopeOnly.refl (s : State) : ScopeOnly s s := .of_parts s s.scope s.hubScope s.free
theorem ScopeOnly.trans {s t u : State} (h : ScopeOnly s t) (g : ScopeOnly t u) : ScopeOnly s u := by
  obtain ⟨_, _, _, _, _, _, rfl⟩ := h; obtain ⟨_, _, _, _, _, _, rfl⟩ := g; exact ⟨_, _, _, _, _, _, rfl⟩
theorem CoresOnly.scope {s t : State} (h : CoresOnly s t ∧ t.cores = s.cores) : ScopeOnly s t := by
  obtain ⟨⟨c, n, d, p, f, rfl⟩, hc⟩ := h
  refine ⟨s.scope, s.hubScope, n, d, p, f, ?_⟩
  have hc : c = s.cores := hc
  rw [hc]

theorem checkHome_scope {s t : State} {line l : Nat} {p : Party} (h : s.checkHome line l p = .ok t) : ScopeOnly s t := by
  unfold State.checkHome at h
  split at h
  · cases h; exact .of_parts s _ s.hubScope _
  · split at h
    · cases h; exact .of_parts s _ s.hubScope _
    · cases h

theorem checkHub_scope {s t : State} {core line l : Nat} {p : Party} (h : s.checkHub core line l p = .ok t) : ScopeOnly s t := by
  unfold State.checkHub at h
  split at h
  · split at h
    · cases h; exact .of_parts s s.scope _ _
    · cases h
  · split at h
    · rename_i u hu
      cases h
      exact (checkHome_scope hu).trans (.of_parts u u.scope _ _)
    · cases h

theorem checkScope_scope {s t : State} {core line l : Nat} {p : Party} (h : s.checkScope core line l p = .ok t) : ScopeOnly s t := by
  unfold State.checkScope at h
  split at h
  · exact checkHub_scope h
  · exact checkHome_scope h

theorem scopeLanes_scope (e : Env) (level : Nat) (l : List Access) : ScopeOnly e.s (scopeLanes e level l).1 := by
  unfold scopeLanes
  have key : ∀ (l : List Access) (acc : State × List Access × List LaneFault), ScopeOnly acc.1
      (l.foldl (fun acc a =>
        match acc with
        | (s, ok, bad) =>
          match a.line with
          | none => (s, ok ++ [a], bad)
          | some n =>
            match s.checkScope (coreOfWave e.wid) n level (partyOf e.wid e.wv) with
            | .ok s => (s, ok ++ [a], bad)
            | .error info => (s, ok, bad ++ [{ lane := a.lane, cause := cSCOPE, info := info, va := a.va }])) acc).1 := by
    intro l
    induction l with
    | nil => intro acc; exact .refl _
    | cons a l ih =>
      intro acc
      rw [List.foldl_cons]
      refine ScopeOnly.trans ?_ (ih _)
      obtain ⟨s, ok, bad⟩ := acc
      simp only
      split
      · exact .refl s
      · split
        · rename_i u hu; exact checkScope_scope hu
        · exact .refl s
  exact key l (e.s, [], [])

/-- `t` differs from `s` as an atomic's way to its elements leaves it. -/
def WayOnly (s t : State) : Prop := ∃ u, HomeOnly s u ∧ ScopeOnly u t

theorem atomState_way (e : Env) (level : Nat) (l : List (Nat × Nat)) : WayOnly e.s (e.atomState level l) :=
  ⟨_, atHome_home _ _, scopeLanes_scope _ _ _⟩

theorem filter_all {α : Type} {p : α → Bool} {l : List α} (h : ∀ x ∈ l, p x = true) : l.filter p = l := List.filter_eq_self.mpr h
theorem filter_no {α : Type} {p : α → Bool} {l : List α} (h : ∀ x ∈ l, p x = false) : l.filter p = [] := by
  rw [List.filter_eq_nil_iff]; intro x hx; simp [h x hx]

/-- The checks of an atomic that goes on leave its accesses. -/
theorem atomChecks_pass {e : Env} {size : Nat} (level : Nat)
    (h : AtomPasses e size (e.lanes.map fun i => (i, e.ea (e.f 5 4) false i))) (atHome : Bool)
    (body : Env → List Access → List LaneFault → WRes) :
    atomChecks e level size atHome body =
      let acc := accesses e .write (e.lanes.map fun i => (i, e.ea (e.f 5 4) false i))
      let locs := acc.map (·.loc)
      if atHome then homeFirst e e.s locs fun s => body { e with s := s } acc []
      else match e.s.homeStop e.wid e.wv.lid locs with
        | some t => .raw t
        | none => body e acc [] := by
  unfold atomChecks
  rw [checkLanes_passes h.passes]
  generalize hacc : accesses e .write (e.lanes.map fun i => (i, e.ea (e.f 5 4) false i)) = acc
  have hdev := h.device; rw [hacc] at hdev
  have hown := h.own; rw [hacc] at hown
  have hgr := h.noGrant; rw [hacc] at hgr
  have hpl : atomPlaces level acc = (acc, []) := by
    unfold atomPlaces
    refine Prod.ext (filter_all fun a ha => ?_) ?_
    · obtain ⟨pa, hp⟩ := hdev a ha; simp [hp]
    · show List.map _ (acc.filter _) = []
      rw [filter_no fun a ha => ?_]
      · rfl
      · obtain ⟨pa, hp⟩ := hdev a ha; simp [hp]
  have hsm : sameAddr acc = (acc, []) := by
    have ht : ∀ a ∈ acc, (acc.any fun b => b.va == a.va && b.lane != a.lane) = false := by
      intro a ha
      rw [List.any_eq_false]
      intro b hb
      by_cases hl : b.lane = a.lane
      · simp [hl]
      · simp [hown b hb a ha hl]
    unfold sameAddr
    refine Prod.ext (filter_all fun a ha => ?_) ?_
    · simp [ht a ha]
    · show List.map _ (acc.filter _) = []
      rw [filter_no fun a ha => ht a ha]
      rfl
  simp only [withMisses, List.isEmpty_nil, if_true, hpl, hsm, hgr, List.append_nil] <;> rfl

theorem atomChecks_eq {e : Env} {size level : Nat} (h : Atomable e size level (e.lanes.map fun i => (i, e.ea (e.f 5 4) false i)))
    (body : Env → List Access → List LaneFault → WRes) :
    let acc := accesses e .write (e.lanes.map fun i => (i, e.ea (e.f 5 4) false i))
    atomChecks e level size true body = body { e with s := e.s.atHome (acc.map (·.loc)) } acc [] := by
  rw [atomChecks_pass level h.toAtomPasses, if_pos rfl]
  exact homeFirst_ok h.goesOn _

theorem unanswered_none {e : Env} {l : List Access} (h : ∀ a ∈ l, ∃ pa, a.loc = .dev pa) : unanswered e l = [] :=
  filter_no fun a ha => by obtain ⟨pa, hp⟩ := h a ha; simp [hp]

theorem notPeer_all {l : List Access} (h : ∀ a ∈ l, ∃ pa, a.loc = .dev pa) : l.filter (fun a => !a.isPeer) = l :=
  filter_all fun a ha => by obtain ⟨pa, hp⟩ := h a ha; simp [Access.isPeer, hp]
theorem peer_none {l : List Access} (h : ∀ a ∈ l, ∃ pa, a.loc = .dev pa) : l.filter Access.isPeer = [] :=
  filter_no fun a ha => by obtain ⟨pa, hp⟩ := h a ha; simp [Access.isPeer, hp]

theorem leBytes_elem (size x : Nat) (a : Access) : storeElem a size x = (List.range size).map fun k =>
    { va := a.va + k, loc := locPlus a.loc k, val := BitVec.ofNat 8 (x / 2 ^ (8 * k)), lane := a.lane } := by
  unfold storeElem
  rw [zip_leBytes, List.map_map]
  rfl

/-- The new values' bytes, by address. -/
theorem find_newBytes {size : Nat} {l : List (Access × Nat)} (hal : ∀ p ∈ l, p.1.va % size = 0)
    (hown : l.Pairwise fun p q => p.1.va ≠ q.1.va) (t : Tbl BufByte) (y : Nat) :
    Tbl.find (l.foldl (fun t p => (storeElem p.1 size p.2).foldl (fun t b => Tbl.put t b.va { val := b.val, loc := b.loc }) t) t) y =
      match l.find? fun p => decide (p.1.va ≤ y ∧ y < p.1.va + size) with
      | some p => some { val := BitVec.ofNat 8 (p.2 / 2 ^ (8 * (y - p.1.va))), loc := locPlus p.1.loc (y - p.1.va) }
      | none => Tbl.find t y := by
  induction l generalizing t with
  | nil => rfl
  | cons p l ih =>
    rw [List.foldl_cons, ih (fun q hq => hal q (by simp [hq])) (List.pairwise_cons.mp hown).2]
    have hput : Tbl.find ((storeElem p.1 size p.2).foldl (fun t b => Tbl.put t b.va { val := b.val, loc := b.loc }) t) y =
        if p.1.va ≤ y ∧ y < p.1.va + size then
          some { val := BitVec.ofNat 8 (p.2 / 2 ^ (8 * (y - p.1.va))), loc := locPlus p.1.loc (y - p.1.va) } else Tbl.find t y := by
      rw [leBytes_elem, List.foldl_map]
      exact find_putRange (fun k => ({ val := BitVec.ofNat 8 (p.2 / 2 ^ (8 * k)), loc := locPlus p.1.loc k } : BufByte)) _ _ _ _
    rw [hput]
    by_cases hp : p.1.va ≤ y ∧ y < p.1.va + size
    · have hno : l.find? (fun p => decide (p.1.va ≤ y ∧ y < p.1.va + size)) = none := by
        rw [List.find?_eq_none]
        intro q hq
        have h1 := (List.pairwise_cons.mp hown).1 q hq
        have h2 := hal p (by simp)
        have h3 := hal q (by simp [hq])
        simp only [decide_eq_true_eq]
        intro h4
        have hs : 0 < size := by omega
        obtain ⟨u, hu⟩ := Nat.dvd_of_mod_eq_zero h2
        obtain ⟨v, hv⟩ := Nat.dvd_of_mod_eq_zero h3
        have e1 : y / size = u := by
          refine Nat.div_eq_of_lt_le ?_ ?_
          · rw [Nat.mul_comm]; omega
          · rw [Nat.add_mul, Nat.mul_comm u]; omega
        have e2 : y / size = v := by
          refine Nat.div_eq_of_lt_le ?_ ?_
          · rw [Nat.mul_comm]; omega
          · rw [Nat.add_mul, Nat.mul_comm v]; omega
        apply h1
        rw [hu, hv, ← e1, ← e2]
      rw [hno, List.find?_cons_of_pos (by simpa using hp)]
      simp [hp]
    · rw [List.find?_cons_of_neg (by simpa using hp)]
      simp only [if_neg hp]

theorem Tbl.find_below {β : Type} {t : Tbl β} {n k : Nat} (h : Tbl.wfFrom n t = true) (hk : k < n) : Tbl.find t k = none := by
  induction t generalizing n with
  | nil => rfl
  | cons p t ih =>
    obtain ⟨j, x⟩ := p
    simp only [Tbl.wfFrom, Bool.and_eq_true, decide_eq_true_eq] at h
    simp only [Tbl.find]
    rw [if_neg (by omega)]
    exact ih h.2 (by omega)

theorem find_bufPut {t u : Tbl BufByte} {n : Nat} (h : Tbl.wfFrom n u = true) (y : Nat) :
    Tbl.find (bufPut t u) y = match Tbl.find u y with
      | some b => some b
      | none => Tbl.find t y := by
  unfold bufPut
  induction u generalizing t n with
  | nil => rfl
  | cons p u ih =>
    obtain ⟨j, x⟩ := p
    simp only [Tbl.wfFrom, Bool.and_eq_true, decide_eq_true_eq] at h
    rw [List.foldl_cons, ih h.2]
    simp only [Tbl.find]
    by_cases hy : j = y
    · subst hy
      rw [Tbl.find_below h.2 (by omega)]
      simp
    · rw [if_neg hy, Tbl.find_put_other _ _ (fun e => hy e.symm)]

theorem wf_newBytes (size : Nat) (l : List (Access × Nat)) : Tbl.wfFrom 0 (newBytes size l) = true := by
  unfold newBytes
  have key0 : ∀ (m : List StoreByte) (t : Tbl BufByte), Tbl.wfFrom 0 t = true → Tbl.wfFrom 0
      (m.foldl (fun t b => Tbl.put t b.va { val := b.val, loc := b.loc }) t) = true := by
    intro m
    induction m with
    | nil => intro t h; exact h
    | cons b m ih2 => intro t h; exact ih2 _ (Tbl.wfFrom_put _ h (Nat.zero_le _))
  have key : ∀ (l : List (Access × Nat)) (t : Tbl BufByte), Tbl.wfFrom 0 t = true → Tbl.wfFrom 0
      (l.foldl (fun t p => (storeElem p.1 size p.2).foldl (fun t b => Tbl.put t b.va { val := b.val, loc := b.loc }) t) t) = true := by
    intro l
    induction l with
    | nil => intro t h; exact h
    | cons p l ih =>
      intro t h
      exact ih _ (key0 _ _ h)
  exact key l [] rfl

/-- Lanes of accesses are different. -/
theorem accesses_pairwise {e : Env} {size : Nat} {need : Need} {lanes : List Nat} {f : Nat → Nat} (hn : lanes.Nodup)
    (h : Passes e size need (lanes.map fun i => (i, f i))) :
    (accesses e need (lanes.map fun i => (i, f i))).Pairwise fun a b => a.lane ≠ b.lane := by
  obtain ⟨loc, -, hacc⟩ := accesses_lanes h
  rw [hacc, List.pairwise_map]
  exact hn

theorem lanesOf_nodup (W : Nat) (m : Mask) : (lanesOf W m).Nodup := by
  unfold lanesOf
  exact List.Pairwise.filter _ List.nodup_range

theorem find_locs {size : Nat} {acc : List Access} {new : Access → Nat} (hal : ∀ a ∈ acc, a.va % size = 0)
    (hown : acc.Pairwise fun a b => a.va ≠ b.va) (y : Nat) :
    Tbl.find (newBytes size (acc.map fun a => (a, new a))) y =
      match acc.find? fun a => decide (a.va ≤ y ∧ y < a.va + size) with
      | some a => some { val := BitVec.ofNat 8 (new a / 2 ^ (8 * (y - a.va))), loc := locPlus a.loc (y - a.va) }
      | none => none := by
  unfold newBytes
  rw [find_newBytes (fun p hp => by obtain ⟨a, ha, rfl⟩ := List.mem_map.mp hp; exact hal a ha) (by rw [List.pairwise_map]; exact hown)]
  rw [List.find?_map]
  simp only [Function.comp_def]
  cases acc.find? fun a => decide (a.va ≤ y ∧ y < a.va + size) with
  | some a => rfl
  | none => rfl

/-- Aligned accesses at different addresses do not meet. -/
theorem aligned_apart {a b size y : Nat} (ha : a % size = 0) (hb : b % size = 0) (h1 : a ≤ y ∧ y < a + size) (h2 : b ≤ y ∧ y < b + size) :
    a = b := by
  have hs : 0 < size := by omega
  obtain ⟨u, hu⟩ := Nat.dvd_of_mod_eq_zero ha
  obtain ⟨v, hv⟩ := Nat.dvd_of_mod_eq_zero hb
  have e1 : y / size = u := by
    refine Nat.div_eq_of_lt_le ?_ ?_
    · rw [Nat.mul_comm]; omega
    · rw [Nat.add_mul, Nat.mul_comm u]; omega
  have e2 : y / size = v := by
    refine Nat.div_eq_of_lt_le ?_ ?_
    · rw [Nat.mul_comm]; omega
    · rw [Nat.add_mul, Nat.mul_comm v]; omega
  rw [hu, hv, ← e1, ← e2]

theorem find_access {size : Nat} {acc : List Access} (hal : ∀ a ∈ acc, a.va % size = 0) (hown : acc.Pairwise fun a b => a.va ≠ b.va)
    {a : Access} (ha : a ∈ acc) {y : Nat} (hy : a.va ≤ y ∧ y < a.va + size) :
    (acc.find? fun a => decide (a.va ≤ y ∧ y < a.va + size)) = some a := by
  induction acc with
  | nil => cases ha
  | cons b l ih =>
    by_cases hb : b.va ≤ y ∧ y < b.va + size
    · rw [List.find?_cons_of_pos (by simpa using hb)]
      rcases List.mem_cons.mp ha with rfl | hm
      · rfl
      · exact absurd (aligned_apart (hal b (by simp)) (hal a (by simp [hm])) hb hy) ((List.pairwise_cons.mp hown).1 a hm)
    · rw [List.find?_cons_of_neg (by simpa using hb)]
      rcases List.mem_cons.mp ha with rfl | hm
      · exact absurd hy hb
      · exact ih (fun x hx => hal x (by simp [hx])) (List.pairwise_cons.mp hown).2 hm

/-- New values into a buffer. -/
theorem bufTakes_bufPut {size : Nat} {acc : List Access} {new : Access → Nat} (hal : ∀ a ∈ acc, a.va % size = 0)
    (hown : acc.Pairwise fun a b => a.va ≠ b.va) (t : Tbl BufByte) :
    BufTakes (bufPut t (newBytes size (acc.map fun a => (a, new a)))) t size acc new := by
  constructor
  · intro a ha i hi
    rw [find_bufPut (wf_newBytes _ _), find_locs hal hown, find_access hal hown ha ⟨by omega, by omega⟩]
    simp
  · intro y hy
    rw [find_bufPut (wf_newBytes _ _), find_locs hal hown]
    have : (acc.find? fun a => decide (a.va ≤ y ∧ y < a.va + size)) = none := by
      rw [List.find?_eq_none]; intro a ha; simpa using hy a ha
    rw [this]

theorem Tbl.find_of_mem {β : Type} {t : Tbl β} {n k : Nat} {x : β} (h : Tbl.wfFrom n t = true) (hm : (k, x) ∈ t) :
    Tbl.find t k = some x := by
  induction t generalizing n with
  | nil => cases hm
  | cons p t ih =>
    obtain ⟨j, y⟩ := p
    simp only [Tbl.wfFrom, Bool.and_eq_true, decide_eq_true_eq] at h
    simp only [Tbl.find]
    rcases List.mem_cons.mp hm with hm | hm
    · cases hm; simp
    · have : j ≠ k := by
        intro e
        have := Tbl.find_below h.2 (show k < j + 1 by omega)
        rw [ih h.2 hm] at this
        cases this
      rw [if_neg this]
      exact ih h.2 hm

/-! ### Writes at home -/

theorem putDev_keyed {s : State} {ctx lid pa : Nat} (b : Byte) (hr : s.isReplay lid = false)
    (hk : Tbl.get s.lineKey (lineOf pa) 0 = s.keyOf ctx) : s.putDev ctx lid pa b = { s with mem := Memory.write s.mem pa b } := by
  have h1 : s.protect lid pa = s := by simp [State.protect, hr]
  simp [State.putDev, h1, State.takeLine, hk]

theorem foldl_putDev {ctx lid : Nat} (l : List (Nat × Byte)) (s : State) (hr : s.isReplay lid = false)
    (hk : ∀ p ∈ l, Tbl.get s.lineKey (lineOf p.1) 0 = s.keyOf ctx) :
    l.foldl (fun s p => s.putDev ctx lid p.1 p.2) s = { s with mem := l.foldl (fun m p => Memory.write m p.1 p.2) s.mem } := by
  induction l generalizing s with
  | nil => rfl
  | cons p l ih =>
    rw [List.foldl_cons, putDev_keyed _ hr (hk p (by simp))]
    rw [ih { s with mem := Memory.write s.mem p.1 p.2 } hr fun q hq => hk q (by simp [hq])]
    rfl

theorem read_foldl_hit {l : List (Nat × Byte)} {x : Nat} {b : Byte} (m : Tbl Byte) (h : ∀ p ∈ l, p.1 = x → p.2 = b) (he : ∃ p ∈ l, p.1 = x) :
    Memory.read (l.foldl (fun m p => Memory.write m p.1 p.2) m) x = b := by
  have key : ∀ (l : List (Nat × Byte)) (m : Tbl Byte), (∀ p ∈ l, p.1 = x → p.2 = b) → ((∃ p ∈ l, p.1 = x) ∨ Memory.read m x = b) →
      Memory.read (l.foldl (fun m p => Memory.write m p.1 p.2) m) x = b := by
    intro l
    induction l with
    | nil => intro m _ h; rcases h with ⟨p, hp, _⟩ | h; cases hp; exact h
    | cons p l ih =>
      intro m h1 h2
      rw [List.foldl_cons]
      refine ih _ (fun q hq => h1 q (by simp [hq])) ?_
      rcases h2 with ⟨q, hq, hx⟩ | h2
      · rcases List.mem_cons.mp hq with rfl | hq
        · right; rw [← hx, Memory.read_write_same]; exact h1 q (by simp) hx
        · exact Or.inl ⟨q, hq, hx⟩
      · right
        by_cases hx : p.1 = x
        · rw [← hx, Memory.read_write_same]; exact h1 p (by simp) hx
        · rw [Memory.read_write_other _ _ (fun e => hx e.symm)]; exact h2
  exact key l m h (Or.inl he)

theorem read_foldl_miss {l : List (Nat × Byte)} {x : Nat} (m : Tbl Byte) (h : ∀ p ∈ l, p.1 ≠ x) :
    Memory.read (l.foldl (fun m p => Memory.write m p.1 p.2) m) x = Memory.read m x := by
  induction l generalizing m with
  | nil => rfl
  | cons p l ih =>
    rw [List.foldl_cons, ih _ fun q hq => h q (by simp [hq]), Memory.read_write_other _ _ (fun e => h p (by simp) e.symm)]

theorem recalls_none {s : State} (h : s.noU) (l : List Nat) : l.foldl State.recall s = s := by
  have h1 : ∀ n, s.recall n = s := by
    intro n
    have : (s.cores.filter fun c => Tbl.mem c.2.u n) = [] := by
      rw [List.filter_eq_nil_iff]
      intro p hp
      simp [h p hp, Tbl.mem]
    simp [State.recall, this]
  induction l with
  | nil => rfl
  | cons x xs ih => rw [List.foldl_cons, h1, ih]

/-- Device bytes written under the wave's key, with no update-only copy (R397). -/
theorem writeDev_keyed {s : State} {ctx lid : Nat} {l : List (Nat × Byte)} (hu : s.noU) (hr : s.isReplay lid = false)
    (hk : ∀ p ∈ l, Tbl.get s.lineKey (lineOf p.1) 0 = s.keyOf ctx) :
    s.writeDev ctx lid none l = ({ s with mem := l.foldl (fun m p => Memory.write m p.1 p.2) s.mem } : State).unpoison (l.map (·.1)) := by
  simp only [State.writeDev, recalls_none hu, foldl_putDev l s hr hk]

theorem mem_devBytes {u : Tbl BufByte} {p : Nat × Byte} : p ∈ devBytes (bufLocs u) ↔ ∃ va b, (va, b) ∈ u ∧ b.loc = .dev p.1 ∧ b.val = p.2 := by
  unfold devBytes bufLocs
  rw [List.mem_filterMap]
  constructor
  · rintro ⟨q, hq, hp⟩
    obtain ⟨r, hr, rfl⟩ := List.mem_map.mp hq
    obtain ⟨va, b⟩ := r
    refine ⟨va, b, hr, ?_⟩
    simp only at hp
    split at hp
    · rename_i a ha
      cases hp
      exact ⟨ha, rfl⟩
    · cases hp
  · rintro ⟨va, b, hm, h1, h2⟩
    refine ⟨(b.loc, b.val), List.mem_map.mpr ⟨(va, b), hm, rfl⟩, ?_⟩
    simp only [h1]
    cases p
    simp only at h2 ⊢
    rw [h2]

theorem noU_of_scope {s t : State} (h : ScopeOnly s t) (hu : s.noU) : t.noU := by
  obtain ⟨_, _, _, _, _, _, rfl⟩ := h; exact hu

theorem atomState_scope {e : Env} {level : Nat} {l : List (Nat × Nat)} (hu : e.s.noU) : ScopeOnly e.s (e.atomState level l) := by
  have h := CoresOnly.scope (meetHome_cores e.s ((accesses e .write l).map (·.loc)))
  unfold Env.atomState State.atHome
  rw [recallLocs_none (noU_of_scope h hu)]
  exact h.trans (scopeLanes_scope _ _ _)

theorem pairwise_va {e : Env} {size level : Nat} (hn : e.lanes.Nodup) {f : Nat → Nat}
    (h : Atomable e size level (e.lanes.map fun i => (i, f i))) :
    (accesses e .write (e.lanes.map fun i => (i, f i))).Pairwise fun a b => a.va ≠ b.va := by
  refine List.Pairwise.imp_of_mem ?_ (accesses_pairwise hn h.passes)
  intro a b ha hb hl
  exact h.own a ha b hb hl

theorem accesses_aligned {e : Env} {size : Nat} {need : Need} {l : List (Nat × Nat)} (h : Passes e size need l) :
    ∀ a ∈ accesses e need l, a.va % size = 0 := by
  intro a ha
  unfold accesses at ha
  obtain ⟨p, hp, h2⟩ := List.mem_filterMap.mp ha
  obtain ⟨loc, hl⟩ := Option.isSome_iff_exists.mp (h p hp).2
  rw [hl] at h2
  cases h2
  exact (h p hp).1

theorem lane_inj {acc : List Access} (h : acc.Pairwise fun a b => a.lane ≠ b.lane) {a b : Access} (ha : a ∈ acc) (hb : b ∈ acc)
    (hl : a.lane = b.lane) : a = b := by
  induction acc with
  | nil => exact absurd ha (by simp)
  | cons x xs ih =>
    obtain ⟨h1, h2⟩ := List.pairwise_cons.mp h
    by_cases hax : a = x
    · by_cases hbx : b = x
      · rw [hax, hbx]
      · have hb' : b ∈ xs := by simpa [hbx] using hb
        exact absurd (hax ▸ hl) (h1 b hb')
    · have ha' : a ∈ xs := by simpa [hax] using ha
      by_cases hbx : b = x
      · exact absurd (hbx ▸ hl.symm) (h1 a ha')
      · exact ih h2 ha' (by simpa [hbx] using hb)

/-- What an atomic at device level writes to memory. -/
theorem atomOut_memory {e : Env} {size level : Nat} {f : Nat → Nat} {new : Access → Nat} (hn : e.lanes.Nodup)
    (h : Atomable e size level (e.lanes.map fun i => (i, f i))) (hl : 3 ≤ level) (hr : e.s.isReplay e.wv.lid = false) (hu : e.s.noU)
    (hsep : Separate e size (accesses e .write (e.lanes.map fun i => (i, f i)))) :
    ∃ s1, atomOut e (e.atomState level (e.lanes.map fun i => (i, f i))) level size
        ((accesses e .write (e.lanes.map fun i => (i, f i))).map fun a => (a, new a)) = .ok s1 ∧ s1.hostMem = e.s.hostMem ∧
      (∀ a ∈ accesses e .write (e.lanes.map fun i => (i, f i)), ∀ i, i < size → ∀ pa, a.loc = .dev pa →
        Memory.read s1.mem (pa + i) = BitVec.ofNat 8 (new a / 2 ^ (8 * i))) ∧
      ∀ y, (∀ a ∈ accesses e .write (e.lanes.map fun i => (i, f i)), ∀ pa, a.loc = .dev pa → ¬(pa ≤ y ∧ y < pa + size)) →
        Memory.read s1.mem y = Memory.read e.s.mem y := by
  have hsc := atomState_scope (level := level) (l := e.lanes.map fun i => (i, f i)) hu
  have hva := pairwise_va hn h
  have hal := accesses_aligned h.passes
  have hlane := accesses_pairwise hn h.passes
  generalize accesses e .write (e.lanes.map fun i => (i, f i)) = acc at *
  generalize e.atomState level (e.lanes.map fun i => (i, f i)) = home at *
  have hmem : ∀ p ∈ devBytes (bufLocs (newBytes size (acc.map fun a => (a, new a)))),
      ∃ a ∈ acc, ∃ pa i, a.loc = .dev pa ∧ i < size ∧ p.1 = pa + i ∧ p.2 = BitVec.ofNat 8 (new a / 2 ^ (8 * i)) := by
    intro p hp
    obtain ⟨va, b, h1, h2, h3⟩ := mem_devBytes.mp hp
    have h4 := Tbl.find_of_mem (wf_newBytes _ _) h1
    rw [find_locs hal hva] at h4
    split at h4
    · rename_i a ha
      have hm := List.mem_of_find?_eq_some ha
      have hr := List.find?_some ha
      simp only [decide_eq_true_eq] at hr
      obtain ⟨pa, hpa, -⟩ := hsep a hm
      cases h4
      rw [hpa] at h2
      simp only [locPlus, Loc.dev.injEq] at h2
      exact ⟨a, hm, pa, va - a.va, hpa, by omega, h2.symm, h3.symm⟩
    · cases h4
  have hkey : ∀ p ∈ devBytes (bufLocs (newBytes size (acc.map fun a => (a, new a)))),
      Tbl.get home.lineKey (lineOf p.1) 0 = home.keyOf e.wv.ctx := by
    intro p hp
    obtain ⟨a, ha, pa, i, h1, h2, h3, -⟩ := hmem p hp
    obtain ⟨pa', h4, h5, -⟩ := hsep a ha
    rw [h1] at h4; cases h4
    obtain ⟨_, _, _, _, _, _, rfl⟩ := hsc
    rw [h3]
    exact h5 i h2
  have hrep : home.isReplay e.wv.lid = false := by obtain ⟨_, _, _, _, _, _, rfl⟩ := hsc; exact hr
  have hout : atomOut e home level size (acc.map fun a => (a, new a)) = .ok (home.writeDev e.wv.ctx e.wv.lid none
      (devBytes (bufLocs (newBytes size (acc.map fun a => (a, new a)))))) := by
    have hroom : home.replayRoom (whoOf e.wv e.wid e.fr).lid
        ((devBytes (bufLocs (newBytes size (acc.map fun a => (a, new a))))).map (·.1)) = true := by
      have : home.isReplay (whoOf e.wv e.wid e.fr).lid = false := hrep
      simp [State.replayRoom, State.roomFor_, uKeys_none (noU_of_scope hsc hu), this, dedup]
    simp only [atomOut, if_neg (show ¬ level = 1 by omega), if_neg (show ¬ level = 2 by omega), hroom, if_true]
    rfl
  rw [hout, writeDev_keyed (noU_of_scope hsc hu) hrep hkey]
  refine ⟨_, rfl, ?_, ?_, ?_⟩
  · obtain ⟨_, _, _, _, _, _, rfl⟩ := hsc; rfl
  · intro a ha i hi pa hpa
    refine read_foldl_hit _ ?_ ?_
    · intro p hp hx
      obtain ⟨b, hb, pb, j, h1, h2, h3, h4⟩ := hmem p hp
      have hab : b = a := by
        refine Classical.byContradiction fun hne => ?_
        have hlne : b.lane ≠ a.lane := fun e => hne (lane_inj hlane hb ha e)
        obtain ⟨pa', h5, -, h6⟩ := hsep a ha
        rw [hpa] at h5; cases h5
        have := h6 b hb hlne pb h1
        omega
      subst hab
      rw [hpa] at h1; cases h1
      have : i = j := by omega
      rw [h4, this]
    · have hf := find_locs (new := new) hal hva (a.va + i)
      rw [find_access hal hva ha ⟨by omega, by omega⟩] at hf
      simp only [hpa, locPlus] at hf
      refine ⟨(pa + i, BitVec.ofNat 8 (new a / 2 ^ (8 * i))), mem_devBytes.mpr ⟨_, _, Tbl.mem_of_find hf, ?_, ?_⟩, rfl⟩
      · simp
      · simp
  · intro y hy
    have : Memory.read (List.foldl (fun m p => Memory.write m p.1 p.2) home.mem
        (devBytes (bufLocs (newBytes size (acc.map fun a => (a, new a)))))) y = Memory.read home.mem y := by
      refine read_foldl_miss _ fun p hp hx => ?_
      obtain ⟨a, ha, pa, i, h1, h2, h3, -⟩ := hmem p hp
      exact hy a ha pa h1 ⟨by omega, by omega⟩
    refine this.trans ?_
    obtain ⟨_, _, _, _, _, _, rfl⟩ := hsc; rfl

theorem WayOnly.wave {s t : State} (h : WayOnly s t) (k : Nat) : t.wave k = s.wave k := by
  obtain ⟨u, h, ⟨_, _, _, _, _, _, rfl⟩⟩ := h
  exact h.wave k

/-- What a change of buffers and of memory may touch, and no wave. -/
structure NoWave (s t : State) : Prop where
  waves : t.waves = s.waves
  launches : t.launches = s.launches

theorem NoWave.refl (s : State) : NoWave s s := ⟨rfl, rfl⟩
theorem NoWave.trans {s t u : State} (h : NoWave s t) (g : NoWave t u) : NoWave s u := ⟨g.1.trans h.1, g.2.trans h.2⟩
theorem HomeOnly.noWave {s t : State} (h : HomeOnly s t) : NoWave s t := by
  obtain ⟨_, _, _, _, _, _, _, _, rfl⟩ := h; exact ⟨rfl, rfl⟩
theorem ScopeOnly.noWave {s t : State} (h : ScopeOnly s t) : NoWave s t := by
  obtain ⟨_, _, _, _, _, _, rfl⟩ := h; exact ⟨rfl, rfl⟩
theorem WayOnly.noWave {s t : State} (h : WayOnly s t) : NoWave s t := by
  obtain ⟨u, h, g⟩ := h; exact h.noWave.trans g.noWave
theorem NoWave.wave {s t : State} (h : NoWave s t) (k : Nat) : t.wave k = s.wave k := by
  unfold State.wave; rw [h.waves]
theorem NoWave.twinned {s t : State} (h : NoWave s t) (w : Wave) : t.twinned w = s.twinned w := HomeOnly.of_launches h.launches w
theorem NoWave.foldl {α : Type} {f : State → α → State} (h : ∀ s x, NoWave s (f s x)) (l : List α) (s : State) : NoWave s (l.foldl f s) := by
  induction l generalizing s with
  | nil => exact .refl s
  | cons x xs ih => exact (h s x).trans (ih _)

theorem unpoison_noWave (s : State) (l : List Nat) : NoWave s (s.unpoison l) := ⟨rfl, rfl⟩
theorem countArrivals_noWave (s : State) (ctx : Nat) (x : Src) (l : List Nat) : NoWave s (s.countArrivals ctx x l) := ⟨rfl, rfl⟩

theorem writeDev_noWave (s : State) (ctx lid : Nat) (src : Option Src) (l : List (Nat × Byte)) : NoWave s (s.writeDev ctx lid src l) := by
  have h1 : NoWave s (((dedup (l.map fun p => lineOf p.1)).foldl State.recall s)) := NoWave.foldl (f := State.recall) (fun s x => (recall_home s x).noWave) _ s
  have h2 : ∀ s : State, NoWave s (l.foldl (fun s p => s.putDev ctx lid p.1 p.2) s) := fun s =>
    NoWave.foldl (f := fun s p => s.putDev ctx lid p.1 p.2) (fun s p => (putDev_home s ctx lid p.1 p.2).noWave) l s
  unfold State.writeDev
  generalize (dedup (l.map fun p => lineOf p.1)).foldl State.recall s = s1 at h1
  have h3 := h2 s1
  simp only
  generalize l.foldl (fun s p => s.putDev ctx lid p.1 p.2) s1 = s2 at h3
  have h4 := h1.trans (h3.trans (unpoison_noWave s2 (l.map (·.1))))
  generalize s2.unpoison (l.map (·.1)) = s3 at h4
  cases src with
  | none => exact h4
  | some x => exact h4.trans (countArrivals_noWave _ _ _ _)

theorem sendUnits_noWave (s : State) (lid wid fr : Nat) (l : List (Nat × Nat × Nat × Byte)) : NoWave s (s.sendUnits lid wid fr l) := by
  unfold State.sendUnits
  refine NoWave.foldl (fun s q => ?_) _ _
  exact ⟨rfl, rfl⟩

theorem releaseHeld_noWave (s : State) (h : HeldCommit) : NoWave s (s.releaseHeld h) := ⟨rfl, rfl⟩
theorem dropCopies_noWave (s : State) (k : Nat) (l : List Nat) : NoWave s (s.dropCopies k l) := ⟨rfl, rfl⟩
theorem modCrew_noWave (s : State) (k : Nat) (f : Crew → Crew) : NoWave s (s.modCrew k f) := ⟨rfl, rfl⟩

theorem releaseWhere_noWave (s : State) (p : HeldCommit → Bool) : NoWave s (s.releaseWhere p) := by
  simp only [State.releaseWhere]
  exact NoWave.trans (t := { s with heldSys := s.heldSys.filter fun h => !p h }) ⟨rfl, rfl⟩
    (NoWave.foldl (fun s h => releaseHeld_noWave s h) _ _)

theorem commitHome_noWave (s : State) (ctx lid crew wid fr : Nat) (sys : Bool) (l : List (Loc × Byte)) :
    NoWave s (s.commitHome ctx lid crew wid fr sys l) := by
  have h1 := writeDev_noWave s ctx lid (some .cmt) (devBytes l)
  have h2 : ∀ s : State, NoWave s (s.holdBytes lid crew (hostBytes l)) := by
    intro s; unfold State.holdBytes; split <;> exact ⟨rfl, rfl⟩
  simp only [State.commitHome]
  split
  · exact ((h1.trans (h2 _)).trans (sendUnits_noWave _ _ _ _ _)).trans (releaseWhere_noWave _ _)
  · exact (h1.trans (h2 _)).trans (sendUnits_noWave _ _ _ _ _)

theorem crewHome_noWave {s t : State} {q : Who} {sys : Bool} (h : s.crewHome q sys = .ok t) : NoWave s t := by
  unfold State.crewHome at h
  simp only at h
  split at h
  · cases h; exact .refl _
  · rename_i c hc
    split at h
    · split at h
      · cases h
      · cases h; exact ⟨rfl, rfl⟩
    · split at h
      · cases h
      · split at h
        · cases h
        · split at h
          · cases h
          · cases h
            refine NoWave.trans (NoWave.trans (commitHome_noWave _ _ _ _ _ _ _ _) (modCrew_noWave _ _ _)) (NoWave.foldl (fun s c => dropCopies_noWave s c _) _ _)

/-- No wave changes but for a redirect that waits for wave `k`. -/
structure Affects (k : Nat) (s t : State) : Prop where
  launches : t.launches = s.launches
  wave : ∀ v, s.wave k = some v → ∃ v', t.wave k = some v' ∧ { v' with aborting := v.aborting } = v

theorem NoWave.affects {s t : State} (h : NoWave s t) (k : Nat) : Affects k s t := ⟨h.launches, fun v hv => ⟨v, by rw [h.wave, hv], rfl⟩⟩
theorem Affects.trans {k : Nat} {s t u : State} (h : Affects k s t) (g : Affects k t u) : Affects k s u := by
  refine ⟨g.launches.trans h.launches, fun v hv => ?_⟩
  obtain ⟨v1, h1, h2⟩ := h.wave v hv
  obtain ⟨v2, h3, h4⟩ := g.wave v1 h1
  refine ⟨v2, h3, ?_⟩
  rw [← h2, ← h4]
theorem abortUnit_affects (s : State) (q : Who) (bid l cause : Nat) : Affects q.wid s (s.abortUnit q bid l cause) :=
  ⟨(abortUnit_home s q bid l cause).2.2, fun _ hv => abortUnit_wave s q bid l cause hv⟩

theorem asStop_ok {r : Except Halt State} {t : State} (h : asStop r = .ok t) : r = .ok t := by
  cases r with
  | ok s => simpa [asStop] using h
  | error x => simp [asStop] at h

theorem absorb_affects {s t : State} {q : Who} {bid : Nat} {r : Except Stop State} (h : absorb s q bid r = .ok t)
    (hr : ∀ u, r = .ok u → NoWave s u) : Affects q.wid s t := by
  unfold absorb at h
  split at h
  · cases h; exact (hr _ rfl).affects _
  · cases h; exact abortUnit_affects _ _ _ _ _
  · cases h

theorem putCrew_noWave {s t : State} {q : Who} {l : Tbl BufByte} (h : s.putCrew q l = .ok t) : NoWave s t := by
  unfold State.putCrew at h
  simp only at h
  split at h
  · cases h; exact .refl _
  · split at h
    · cases h
    · split at h
      · cases h; exact ⟨rfl, rfl⟩
      · split at h
        · cases h
        · split at h
          · cases h
          · rename_i u hu
            have hu := crewHome_noWave (asStop_ok hu)
            split at h
            · cases h
              exact hu.trans ⟨rfl, rfl⟩
            · exact hu.trans (((modCrew_noWave _ _ _).trans (dropCopies_noWave _ _ _)).trans (crewHome_noWave (asStop_ok h)))

theorem blockUp_noWave {s t : State} {q : Who} {bid : Nat} (h : s.blockUp q bid = .ok t) : NoWave s t := by
  unfold State.blockUp at h
  split at h
  · cases h; exact .refl _
  · split at h
    · cases h
    · rename_i u hu
      cases h
      exact (putCrew_noWave hu).trans ⟨rfl, rfl⟩

theorem putBlock_noWave {s t : State} {q : Who} {bid : Nat} {l : Tbl BufByte} (h : s.putBlock q bid l = .ok t) : NoWave s t := by
  unfold State.putBlock at h
  split at h
  · cases h; exact .refl _
  · simp only at h
    split at h
    · cases h
    · split at h
      · cases h; exact ⟨rfl, rfl⟩
      · split at h
        · cases h
        · split at h
          · cases h
          · rename_i u hu
            cases h
            exact (blockUp_noWave hu).trans ⟨rfl, rfl⟩

theorem commitUp_affects {s t : State} {q : Who} {bid l : Nat} {b : Tbl BufByte} (h : s.commitUp q bid l b = .ok t) :
    Affects q.wid s t := by
  unfold State.commitUp at h
  split at h
  · cases h
  · rename_i u hu
    have h1 := absorb_affects hu fun _ => putBlock_noWave
    split at h
    · cases h; exact h1
    · split at h
      · cases h
      · rename_i v hv
        have h2 := h1.trans (absorb_affects hv fun _ => blockUp_noWave)
        split at h
        · cases h; exact h2
        · exact h2.trans ((crewHome_noWave h).affects _)

theorem atomOut_affects {e : Env} {s t : State} {level size : Nat} {l : List (Access × Nat)} (h : atomOut e s level size l = .ok t) :
    Affects e.wid s t := by
  unfold atomOut at h
  simp only at h
  split at h
  · exact absorb_affects h fun _ => putBlock_noWave
  · split at h
    · exact absorb_affects h fun _ => putCrew_noWave
    · split at h
      · cases h; exact (writeDev_noWave _ _ _ _ _).affects _
      · cases h

theorem joinU_noWave (s : State) (core ctx lid op : Nat) (t : Ty) (ty pa data : Nat) : NoWave s (joinU s core ctx lid op t ty pa data) :=
  ⟨rfl, rfl⟩

theorem takeU_noWave {s t : State} {core ctx line : Nat} (h : takeU s core ctx line = some t) : NoWave s t := by
  simp only [takeU] at h
  obtain ⟨u, hu, h⟩ := Option.bind_eq_some_iff.mp h
  have h1 : NoWave s u := by
    split at hu
    · cases hu; exact .refl _
    · split at hu
      · cases hu; exact (sendU_home _ _ _).noWave
      · cases hu
  split at h
  · cases h
    exact (h1.trans (dropCopies_noWave _ _ _)).trans (placeLine_spec _ _ _ _).1.noWave
  · cases h

theorem redDev_noWave {e : Env} {op : Nat} {t : Ty} {l : List Access} {s : State} {bad : List LaneFault}
    (h : redDev e op t l = some (s, bad)) : NoWave e.s s := by
  unfold redDev at h
  have key : ∀ (f : Option (State × List LaneFault) → Access → Option (State × List LaneFault)), (∀ a, f none a = none) →
      (∀ x a y, f (some x) a = some y → NoWave x.1 y.1) →
      ∀ (l : List Access) x y, l.foldl f (some x) = some y → NoWave x.1 y.1 := by
    intro f hn hf l
    have h0 : ∀ l : List Access, l.foldl f none = none := by
      intro l
      induction l with
      | nil => rfl
      | cons a l ih => rw [List.foldl_cons, hn, ih]
    induction l with
    | nil => intro x y h; cases h; exact .refl _
    | cons a l ih =>
      intro x y h
      rw [List.foldl_cons] at h
      cases hx : f (some x) a with
      | none => rw [hx, h0] at h; cases h
      | some z => rw [hx] at h; exact (hf _ _ _ hx).trans (ih _ _ h)
  refine key _ ?_ ?_ l (e.s, []) (s, bad) h
  · intro a; rfl
  · intro x a y hy
    obtain ⟨s, bad⟩ := x
    simp only at hy
    split at hy
    · rename_i h1 h2
      cases h1
      split at hy
      · cases hy; exact joinU_noWave _ _ _ _ _ _ _ _ _
      · split at hy
        · rename_i u hu
          obtain ⟨v, hv, rfl⟩ := Option.map_eq_some_iff.mp hy
          exact ((checkHome_scope hu).noWave.trans (takeU_noWave hv)).trans (joinU_noWave _ _ _ _ _ _ _ _ _)
        · cases hy; exact .refl _
    · cases hy; exact .refl _

theorem redStage_noWave (e : Env) (op : Nat) (l : List Access) : NoWave e.s (redStage e op l) := by
  unfold redStage
  refine NoWave.foldl (fun s a => ?_) _ _
  exact ⟨rfl, rfl⟩

/-- A word that changes no wave and no register. -/
theorem quiet_done {w : Fields} {s : State} {e : Env} (h : Issues w s e) {i : Instr} {body : Env → WRes} {s1 : State} {lat : Nat} {ld : Bool}
    {ws : List RegWrite} (hx : exec i s = onWord w s body) (hb : body e = .done { s := s1, ws := ws, lat := lat, load := ld }) (hn : NoWave e.s s1) :
    ∃ s' w', exec i e.s = .next s' ∧ Completes e s1 e.wv s' w' ∧ w'.v = (e.wv.writes ws).v ∧ w'.s = (e.wv.writes ws).s ∧
      w'.k = (e.wv.writes ws).k ∧ w'.fpflags = e.wv.fpflags ∧ (ws = [] → w'.pending = e.wv.pending) := by
  obtain ⟨s', w', h1, h2, h3, h4, h5, h6, h7⟩ := effect_done h hx hb (by show s1.twinned e.wv = false; rw [hn.twinned]; exact h.alone)
    (by show s1.wave e.wid = _; rw [hn.wave]; exact h.wave) h.facts.frag rfl rfl (by simp) rfl
  refine ⟨s', w', h1, h2, h3, h4, h5, by simpa [fpflagsAfter, mergeFlags, noFlags] using h6, fun hws => ?_⟩
  subst hws
  simpa [Env.pendingAfter] using h7

theorem State.modCrew_congr {s : State} {k : Nat} {b : Crew} {f g : Crew → Crew} (hv : s.crew k = some b) (h : f b = g b) :
    s.modCrew k f = s.modCrew k g := by
  have hv' : Tbl.find s.crews k = some b := hv
  simp only [State.modCrew, Tbl.upd, hv', h]

end Sys2Proof.Machine
end

