-- ==== Sys2Proof/Laws/Atomic.lean ====
section
/-! SUPPORT. How an atomic completes. -/

namespace Sys2Proof.Machine

/-- A word whose state keeps its own wave but for an abort completes with its register writes. -/
theorem affect_done {w : Fields} {s : State} {e : Env} (h : Issues w s e) {i : Instr} {body : Env → WRes} {s1 : State} {lat : Nat} {ld : Bool}
    {ws : List RegWrite} (hx : exec i s = onWord w s body) (hb : body e = .done { s := s1, ws := ws, lat := lat, load := ld }) (hn : Affects e.wid e.s s1) :
    ∃ s' v w', exec i e.s = .next s' ∧ Completes e s1 v s' w' ∧ { v with aborting := e.wv.aborting } = e.wv ∧ w'.fpflags = e.wv.fpflags ∧
      w'.v = (e.wv.writes ws).v ∧ w'.s = (e.wv.writes ws).s ∧
      w'.k = (e.wv.writes ws).k ∧ (ws = [] → w'.pending = e.wv.pending) := by
  obtain ⟨v, hv, hp⟩ := hn.wave _ h.wave
  have hfr : v.frags = e.wv.frags := by have := congrArg Wave.frags hp; exact this
  have hvv : v.v = e.wv.v := by have := congrArg Wave.v hp; exact this
  have hvs : v.s = e.wv.s := by have := congrArg Wave.s hp; exact this
  have hvk : v.k = e.wv.k := by have := congrArg Wave.k hp; exact this
  have hvf : v.fpflags = e.wv.fpflags := by have := congrArg Wave.fpflags hp; exact this
  have hvp : v.pending = e.wv.pending := by have := congrArg Wave.pending hp; exact this
  have hvw : v.width = e.wv.width := by have := congrArg Wave.width hp; exact this
  obtain ⟨s', w', h1, h2, h3, h4, h5, h6, h7⟩ := effect_done h hx hb (by show s1.twinned e.wv = false; rw [HomeOnly.of_launches hn.launches]; exact h.alone)
    hv (by rw [hfr]; exact h.facts.frag) rfl rfl (by simp) rfl
  have hww : v.writes ws = { e.wv.writes ws with aborting := v.aborting } := by
    have : v = { e.wv with aborting := v.aborting } := by rw [← hp]
    rw [this]
    clear hb hn hv hp hfr hvv hvs hvk hvf hvp hvw h1 h2 h3 h4 h5 h6 h7 this
    generalize e.wv = u
    generalize v.aborting = a
    induction ws generalizing u with
    | nil => rfl
    | cons x l ih =>
      rw [Wave.writes_cons, Wave.writes_cons]
      have : Wave.write { u with aborting := a } x = { u.write x with aborting := a } := by
        cases x with
        | v n i y => rfl
        | s n y => rfl
        | k n m => simp only [Wave.write]; split <;> rfl
      rw [this, ih]
  refine ⟨s', v, w', h1, h2, hp, ?_, by rw [h3, hww], by rw [h4, hww], by rw [h5, hww], fun hws => ?_⟩
  · rw [← hvf]; simpa [fpflagsAfter, mergeFlags, noFlags] using h6
  · subst hws
    rw [← hvp]
    simpa [Env.pendingAfter] using h7

/-- An atomic whose writes go out goes on. -/
theorem atomWrite_ok {e : Env} {s t : State} {level size : Nat} {l : List (Access × Nat)} (h : atomOut e s level size l = .ok t) (body : State → WRes) :
    atomWrite e s level size l body = body t := by
  unfold atomWrite
  rw [h]

end Sys2Proof.Machine
end

