-- ==== Sys2Proof/Laws/Commit.lean ====
section
/-! SUPPORT. Laws of spans and commits: opening and closing spans, aborts, and the survivors of a checked commit. -/

namespace Sys2Proof.Machine

theorem Env.acts_single {e : Env} (h : e.s.twinned e.wv = false) : e.acts = true := by simp [Env.acts, h]

theorem Wave.span_setSpan (w : Wave) (l n : Nat) (x : Span) : (w.setSpan l x).span n = if n = l then x else w.span n := by
  simp [Wave.span, Wave.setSpan, Tbl.get_set]

/-- The wave after XBEG. -/
theorem openSpan_parts (w : Wave) (f : Frag) (l : Nat) (chk : Bool) (pc : W64) :
    { w.openSpan f l chk pc with spans := w.spans, wsb := w.wsb, readLog := w.readLog } = w ∧ (w.openSpan f l chk pc).wsb = [] ∧
    (w.openSpan f l chk pc).readLog = (if chk then [] else w.readLog) ∧ (∀ n, n ≠ l → (w.openSpan f l chk pc).span n = w.span n) ∧
    (w.openSpan f l chk pc).span l =
      { isOpen := true, checked := chk, target := pc, mask := f.mask, stack := f.stack,
        fails := (w.span l).fails, granted := chk && (w.span l).fails == 8 } := by
  refine ⟨rfl, rfl, rfl, fun n hn => ?_, ?_⟩
  · simp only [Wave.openSpan, Wave.span, Wave.setSpan, Tbl.get_set, if_neg hn]
  · simp only [Wave.openSpan, Wave.span, Wave.setSpan, Tbl.get_set, if_true]

/-- Where a span starts. `s1` is the state that the commit of the wave's bytes has left, `u` its wave there. -/
theorem span_start {w : Fields} {s : State} {e : Env} (h : Issues w s e) {i : Instr} {body : Env → WRes} {chk : Bool} {s1 : State}
    {u : Wave} (hx : exec i s = onWord w s body) (hl : s1.launches = e.s.launches) (hw1 : s1.wave e.wid = some u)
    (hu : { u with aborting := e.wv.aborting } = e.wv)
    (hb : body e = .done { s := s1.modWave e.wid fun w => w.openSpan e.frag e.level chk e.xbegTarget }) :
    ∃ s' w' v, exec i e.s = .next s' ∧
      Completes e (s1.modWave e.wid fun _ => v) v s' w' ∧ SameRegs e.wv w' ∧ w'.fpflags = e.wv.fpflags ∧
      { v with spans := e.wv.spans, wsb := e.wv.wsb, readLog := e.wv.readLog, aborting := e.wv.aborting } = e.wv ∧
      v.aborting = u.aborting ∧ v.wsb = [] ∧
      v.readLog = (if chk then [] else e.wv.readLog) ∧ (∀ n, n ≠ e.level → v.span n = e.wv.span n) ∧
      v.span e.level = { isOpen := true, checked := chk, target := e.xbegTarget, mask := e.frag.mask, stack := e.frag.stack,
                         fails := (e.wv.span e.level).fails, granted := chk && (e.wv.span e.level).fails == 8 } := by
  obtain ⟨a, hu⟩ : ∃ a, u = { e.wv with aborting := a } := ⟨u.aborting, by rw [← hu]⟩
  subst hu
  obtain ⟨p1, p2, p3, p4, p5⟩ := openSpan_parts { e.wv with aborting := a } e.frag e.level chk e.xbegTarget
  have hs : (s1.modWave e.wid fun w => w.openSpan e.frag e.level chk e.xbegTarget) =
      s1.modWave e.wid fun _ => Wave.openSpan { e.wv with aborting := a } e.frag e.level chk e.xbegTarget := State.modWave_congr hw1 rfl
  rw [hs] at hb
  obtain ⟨s', w', h1, h2, h3, h4, h5, h6, h7⟩ := effect_done h hx hb (v := Wave.openSpan { e.wv with aborting := a } e.frag e.level chk e.xbegTarget)
    (by show s1.twinned e.wv = false; rw [HomeOnly.of_launches hl]; exact h.alone) (State.wave_modWave_of hw1) h.facts.frag rfl rfl (by simp) rfl
  refine ⟨s', w', _, h1, h2, SameRegs.of_regs h3 h4 h5, ?_, ?_, rfl, p2, p3, p4, p5⟩
  · have : w'.fpflags = (Wave.openSpan { e.wv with aborting := a } e.frag e.level chk e.xbegTarget).fpflags := by
      simpa [fpflagsAfter, mergeFlags, noFlags] using h6
    exact this
  · have := congrArg (fun x : Wave => { x with aborting := e.wv.aborting }) p1
    exact this

/-- The state in which a checked span that needs its grant holds it (R222). -/
def Env.withGrant (e : Env) (chk : Bool) (s : State) : State :=
  if chk ∧ (e.wv.span e.level).fails = 8 then { s with grants := Tbl.put s.grants (grantKey e.wv e.wid e.level) e.wid } else s

theorem xbeg_opens {w : Fields} {s : State} {e : Env} (h : Issues w s e) {i : Instr} (chk : Bool)
    (hx : exec i s = onWord w s fun e => xbegOp e chk)
    (hf : e.wv.whole = true ∧ e.wv.openTo e.level = false ∧ e.wv.checkedLevel = none)
    (hg : chk = true → (e.wv.span e.level).fails = 8 → e.s.grantOfOther e.wid e.wv e.level = none) :
    (wsbBytes e.wv.wsb = [] ∨ e.wv.aborting.isSome → (xbegOp e chk) = .done { s := (e.withGrant chk e.s).modWave e.wid fun w => w.openSpan e.frag e.level chk e.xbegTarget }) ∧
    (∀ s1, wsbBytes e.wv.wsb ≠ [] → e.wv.aborting = none → e.s.grantOfOther e.wid e.wv 1 = none →
      e.s.commitUp (whoOf e.wv e.wid e.fr) (e.wv.bid e.wid) 1 (wsbBytes e.wv.wsb) = .ok s1 →
      (xbegOp e chk) = .done { s := (e.withGrant chk s1).modWave e.wid fun w => w.openSpan e.frag e.level chk e.xbegTarget }) := by
  obtain ⟨f1, f2, f3⟩ := hf
  have ha := Env.acts_single h.alone
  have hc : (chk && (e.wv.span e.level).fails == 8 && e.acts && (e.s.grantOfOther e.wid e.wv e.level).isSome) = false := by
    cases chk with
    | false => simp
    | true =>
      by_cases h8 : (e.wv.span e.level).fails = 8
      · simp [hg rfl h8]
      · simp [h8]
  have hi : ∀ s2 : State, (if (chk && (e.wv.span e.level).fails == 8 && e.acts) = true then
      { s2 with grants := Tbl.put s2.grants (grantKey e.wv e.wid e.level) e.wid } else s2) =
      e.withGrant chk s2 := by
    intro s2; simp [ha, Env.withGrant]
  constructor
  · intro hb
    have hb' : ((wsbBytes e.wv.wsb).isEmpty || e.wv.aborting.isSome || !e.acts) = true := by
      rcases hb with hb | hb <;> simp [hb]
    simp only [xbegOp, f1, f2, f3, Bool.not_true, Option.isSome_none, Bool.or_self, Bool.false_eq_true, if_false, hc,
      atCompare_single h.alone, hb', if_true, hi]
  · intro s1 hne hab hg1 hcu
    have hb' : ((wsbBytes e.wv.wsb).isEmpty || e.wv.aborting.isSome || !e.acts) = false := by simp [hne, hab, ha]
    simp only [xbegOp, f1, f2, f3, Bool.not_true, Option.isSome_none, Bool.or_self, Bool.false_eq_true, if_false, hc,
      atCompare_single h.alone, hb', hg1, hcu, hi]

theorem overlap_iff {a b : List Nat} : overlap a b = true ↔ ∃ x, x ∈ a ∧ x ∈ b := by simp [overlap]

/-- What the loop of step 1 leaves (R218). -/
theorem stepOne_spec (w : Wave) (lanes : List Nat) (hs : lanes.Pairwise (· < ·)) :
    let bad (i j : Nat) : Bool := overlap (readsOf w i) (writesOf w j) || overlap (writesOf w i) (writesOf w j) ||
      overlap (writesOf w i) (readsOf w j)
    (stepOne w lanes).Sublist lanes ∧ (∀ i ∈ stepOne w lanes, ∀ j ∈ stepOne w lanes, j < i → bad i j = false) ∧
      ∀ i ∈ lanes, i ∉ stepOne w lanes → ∃ j ∈ stepOne w lanes, j < i ∧ bad i j = true := by
  intro bad
  have key : ∀ (ls surv pre : List Nat), (pre ++ ls).Pairwise (· < ·) → surv.Sublist pre →
      (∀ i ∈ surv, ∀ j ∈ surv, j < i → bad i j = false) → (∀ i ∈ pre, i ∉ surv → ∃ j ∈ surv, j < i ∧ bad i j = true) →
      let r := ls.foldl (fun surv i => if (surv.any fun j => bad i j) then surv else surv ++ [i]) surv
      r.Sublist (pre ++ ls) ∧ (∀ i ∈ r, ∀ j ∈ r, j < i → bad i j = false) ∧ ∀ i ∈ pre ++ ls, i ∉ r → ∃ j ∈ r, j < i ∧ bad i j = true := by
    intro ls
    induction ls with
    | nil => intro surv pre h1 h2 h3 h4; simp only [List.foldl_nil, List.append_nil]; exact ⟨h2, h3, h4⟩
    | cons i ls ih =>
      intro surv pre h1 h2 h3 h4
      have hlt : ∀ j ∈ surv, j < i := fun j hj => (List.pairwise_append.mp h1).2.2 j (h2.subset hj) i (by simp)
      have hsplit : pre ++ i :: ls = (pre ++ [i]) ++ ls := by simp
      rw [hsplit] at h1 ⊢
      simp only [List.foldl_cons]
      by_cases hb : (surv.any fun j => bad i j) = true
      · rw [if_pos hb]
        refine ih surv (pre ++ [i]) h1 (h2.trans (List.sublist_append_left _ _)) h3 ?_
        intro k hk hns
        rcases List.mem_append.mp hk with hk | hk
        · exact h4 k hk hns
        · have : k = i := by simpa using hk
          subst this
          obtain ⟨j, hj, hbj⟩ := List.any_eq_true.mp hb
          exact ⟨j, hj, hlt j hj, hbj⟩
      · rw [if_neg hb]
        have hb' : ∀ j ∈ surv, bad i j = false := by
          intro j hj
          have := List.any_eq_false.mp (by simpa using hb) j hj
          simpa using this
        refine ih (surv ++ [i]) (pre ++ [i]) h1 (h2.append (List.Sublist.refl _)) ?_ ?_
        · intro a ha b hbm hab
          rcases List.mem_append.mp ha with ha | ha
          · rcases List.mem_append.mp hbm with hbm | hbm
            · exact h3 a ha b hbm hab
            · have : b = i := by simpa using hbm
              have := hlt a ha
              omega
          · have : a = i := by simpa using ha
            subst this
            rcases List.mem_append.mp hbm with hbm | hbm
            · exact hb' b hbm
            · have : b = a := by simpa using hbm
              omega
        · intro k hk hns
          rcases List.mem_append.mp hk with hk | hk
          · obtain ⟨j, hj, hr⟩ := h4 k hk fun h => hns (by simp [h])
            exact ⟨j, by simp [hj], hr⟩
          · have : k = i := by simpa using hk
            exact absurd (by simp [this]) hns
  have := key lanes [] [] (by simpa using hs) (List.Sublist.refl _) (by simp) (by simp)
  simpa [stepOne, bad] using this

theorem valid_iff (e : Env) (l i : Nat) : valid e l i = true ↔ ∀ x ∈ e.wv.readLog, x.lane = i → currentAt e l x = x.val := by
  simp only [valid, List.all_eq_true, List.mem_filter, beq_iff_eq, and_imp]

theorem passedCommit_single {e : Env} (h : e.s.twinned e.wv = false) (body : Env → WRes) : passedCommit e body = body e := by
  simp [passedCommit, h]

theorem Wave.affect_affect (w : Wave) (l c : Nat) : (w.affect l c).affect l c = w.affect l c := by
  unfold Wave.affect
  cases h : w.aborting with
  | none => simp
  | some p =>
    obtain ⟨m, c'⟩ := p
    simp only
    by_cases hl : l ≤ m
    · simp [hl, h]
    · simp [hl]

theorem Wave.affect_eq (w : Wave) (l c : Nat) : w.affect l c = { w with aborting := some (match w.aborting with
    | some (m, d) => if l ≤ m then (m, d) else (l, c)
    | none => (l, c)) } := by
  unfold Wave.affect
  cases h : w.aborting with
  | none => rfl
  | some p =>
    obtain ⟨m, d⟩ := p
    simp only
    split
    · rw [← h]
    · rfl

/-- The wave whose word aborts is marked (R225). -/
theorem abortUnit_marks {s : State} {q : Who} {bid l cause : Nat} {v : Wave} (hv : s.wave q.wid = some v) (ho : v.openTo l = true)
    (h1 : l = 1 → v.bid q.wid = bid) (h2 : l ≠ 1 → v.lid = q.lid ∧ v.crew = q.crew ∧ v.shadow = false) :
    (s.abortUnit q bid l cause).wave q.wid = some (v.affect l cause) := by
  have hmem : (q.wid, v) ∈ s.waves := Tbl.mem_of_find hv
  have key : ∀ (ws : List (Nat × Wave)) (s : State) (u : Wave), s.wave q.wid = some u → (u = v.affect l cause ∨ (u = v ∧ (q.wid, v) ∈ ws)) →
      (∀ p ∈ ws, p.1 = q.wid → True) →
      (ws.foldl (fun s p => if p.2.openTo l then s.modWave p.1 fun w => w.affect l (if p.1 = q.wid then cause else 5) else s) s).wave q.wid =
        some (v.affect l cause) := by
    intro ws
    induction ws with
    | nil =>
      intro s u hu h _
      rcases h with rfl | ⟨_, h⟩
      · exact hu
      · cases h
    | cons p ps ih =>
      intro s u hu h hx
      rw [List.foldl_cons]
      by_cases hop : p.2.openTo l = true
      · rw [if_pos hop]
        by_cases hp : p.1 = q.wid
        · refine ih _ (v.affect l cause) ?_ (Or.inl rfl) (fun _ _ _ => trivial)
          rw [State.wave_modWave, if_pos hp.symm, hp, hu, if_pos rfl]
          rcases h with rfl | ⟨rfl, _⟩
          · simp [Wave.affect_affect]
          · rfl
        · refine ih _ u ?_ ?_ (fun _ _ _ => trivial)
          · rw [State.wave_modWave, if_neg (fun e => hp e.symm)]; exact hu
          · rcases h with h | ⟨h, hm⟩
            · exact Or.inl h
            · rcases List.mem_cons.mp hm with hm | hm
              · exact absurd (by rw [← hm]) hp
              · exact Or.inr ⟨h, hm⟩
      · rw [if_neg hop]
        refine ih s u hu ?_ (fun _ _ _ => trivial)
        rcases h with h | ⟨h, hm⟩
        · exact Or.inl h
        · rcases List.mem_cons.mp hm with hm | hm
          · rw [← hm] at hop; exact absurd ho hop
          · exact Or.inr ⟨h, hm⟩
  unfold State.abortUnit
  by_cases hl : l = 1
  · simp only [if_pos hl]
    refine key _ _ v hv (Or.inr ⟨rfl, ?_⟩) (fun _ _ _ => trivial)
    exact List.mem_filter.mpr ⟨hmem, by simp [h1 hl]⟩
  · simp only [if_neg hl]
    refine key _ _ v hv (Or.inr ⟨rfl, ?_⟩) (fun _ _ _ => trivial)
    obtain ⟨a, b, c⟩ := h2 hl
    exact List.mem_filter.mpr ⟨hmem, by simp [a, b, c]⟩

/-- Closing spans leaves none open (R219). -/
theorem closeSpans_span (w : Wave) (l n : Nat) :
    (n ≤ l → ((w.closeSpans l).span n).isOpen = false) ∧ { w.closeSpans l with spans := w.spans } = w := by
  have key : ∀ (ls : List Nat) (w : Wave), (n ∈ ls ∨ (w.span n).isOpen = false) →
      ((ls.foldl (fun w i => let sp := w.span i; w.setSpan i { Span.closed with fails := if sp.holds then 0 else sp.fails }) w).span n).isOpen = false := by
    intro ls
    induction ls with
    | nil => intro w h; rcases h with h | h; cases h; exact h
    | cons i ls ih =>
      intro w h
      rw [List.foldl_cons]
      refine ih _ ?_
      by_cases hi : n = i
      · right; simp only [Wave.span_setSpan, if_pos hi, Span.closed]
      · rcases h with h | h
        · rcases List.mem_cons.mp h with h | h
          · exact absurd h hi
          · exact Or.inl h
        · right; simp only [Wave.span_setSpan, if_neg hi, h]
  have rest : ∀ (f : Wave → Nat → Wave), (∀ w i, ∃ t, f w i = { w with spans := t }) → ∀ (ls : List Nat) (w : Wave), ∃ t,
      ls.foldl f w = { w with spans := t } := by
    intro f hf ls
    induction ls with
    | nil => intro w; exact ⟨w.spans, rfl⟩
    | cons i ls ih =>
      intro w
      obtain ⟨t1, h1⟩ := hf w i
      obtain ⟨t, ht⟩ := ih (f w i)
      exact ⟨t, by rw [List.foldl_cons, ht, h1]⟩
  refine ⟨fun hn => key _ _ (Or.inl (by simp; omega)), ?_⟩
  obtain ⟨t, ht⟩ := rest (fun w i => w.setSpan i { Span.closed with fails := if (w.span i).holds then 0 else (w.span i).fails })
    (fun w i => ⟨_, rfl⟩) (List.range (l + 1)) w
  have ht' : w.closeSpans l = { w with spans := t } := ht
  rw [ht']

theorem closeSpans_only (w : Wave) (l : Nat) : ∃ t, w.closeSpans l = { w with spans := t } := by
  refine ⟨(w.closeSpans l).spans, ?_⟩
  have := (closeSpans_span w l 0).2
  have h2 := congrArg (fun x : Wave => { x with spans := (w.closeSpans l).spans }) this
  generalize w.closeSpans l = u at *
  exact h2

theorem kelem_writes_k (e : Env) (v : Wave) (m : Mask) (hv : SameRegs e.wv v) (hw : v.width = e.wv.width) {w' : Wave}
    (h3 : w'.v = (v.writes (if e.w.d.toNat = 0 then [] else [RegWrite.k e.w.d.toNat m])).v)
    (h4 : w'.s = (v.writes (if e.w.d.toNat = 0 then [] else [RegWrite.k e.w.d.toNat m])).s)
    (h5 : w'.k = (v.writes (if e.w.d.toNat = 0 then [] else [RegWrite.k e.w.d.toNat m])).k) :
    (∀ n i, w'.velem n i = e.wv.velem n i) ∧ (∀ n, w'.selem n = e.wv.selem n) ∧
      ∀ n, w'.kelem n = if e.w.d.toNat ≠ 0 ∧ n = e.w.d.toNat then m &&& fullMask e.wv.width else e.wv.kelem n := by
  obtain ⟨a, b, c⟩ := hv
  by_cases hd : e.w.d.toNat = 0
  · simp only [if_pos hd] at h3 h4 h5
    refine ⟨fun n i => ?_, fun n => ?_, fun n => ?_⟩
    · rw [← a]; simp only [Wave.velem, h3]; rfl
    · rw [← b]; simp only [Wave.selem, h4]; rfl
    · rw [if_neg (by simp [hd]), ← c]; simp only [Wave.kelem, h5]; rfl
  · simp only [if_neg hd] at h3 h4 h5
    refine ⟨fun n i => ?_, fun n => ?_, fun n => ?_⟩
    · rw [← a]; rw [show w'.velem n i = (v.writes [RegWrite.k e.w.d.toNat m]).velem n i by simp only [Wave.velem, h3]]; simp [Wave.writes]
    · rw [← b]; rw [show w'.selem n = (v.writes [RegWrite.k e.w.d.toNat m]).selem n by simp only [Wave.selem, h4]]; simp [Wave.writes]
    · rw [show w'.kelem n = (v.writes [RegWrite.k e.w.d.toNat m]).kelem n by simp only [Wave.kelem, h5]]
      simp only [Wave.writes, List.foldl_cons, List.foldl_nil, Wave.kelem_write_k, c, hw]

theorem commitDone_eq {e : Env} {s : State} (ws : List RegWrite) (h : s.peerOps = e.s.peerOps) : commitDone e s ws = .done { s := s, ws := ws } := by
  have : (s.peerOps.find? fun p => p.wid == e.wid && p.frag == e.fr && p.kind == .unit && !(e.s.peerOps.any fun q => q.grp == p.grp)) = none := by
    rw [List.find?_eq_none, h]
    intro p hp
    have : (e.s.peerOps.any fun q => q.grp == p.grp) = true := List.any_eq_true.mpr ⟨p, hp, by simp⟩
    simp [this]
  simp only [commitDone, this]

/-- After a move that no abort stopped, the wave is as it was. -/
theorem Affects.same {k : Nat} {s t : State} {v : Wave} (h : Affects k s t) (hv : s.wave k = some v) (ha : v.aborting = none)
    (hn : t.aborted k = false) : t.wave k = some v := by
  obtain ⟨v', h1, h2⟩ := h.wave v hv
  have h3 : v'.aborting = none := by simpa [State.aborted, h1] using hn
  have : v' = v := by rw [← h2, ha, ← h3]
  rw [h1, this]

theorem noteCommit_parts (u : Wave) (l fails cause : Nat) (a : Tbl Span) (b : Tbl WsbByte) (c : List LogByte) (d : W64) :
    { (u.noteCommit l fails cause).emptied with spans := a, wsb := b, readLog := c, xcause := d } =
      { u with spans := a, wsb := b, readLog := c, xcause := d } := by
  simp only [Wave.emptied, Wave.noteCommit, Wave.setSpan]

theorem noteCommit_span (u : Wave) (l fails cause n : Nat) (h1 : (u.span n).isOpen = false) (h2 : (u.span l).isOpen = false) :
    ((u.noteCommit l fails cause).emptied.span n).isOpen = false := by
  show ((u.setSpan l { u.span l with fails := fails }).span n).isOpen = false
  rw [Wave.span_setSpan]
  split
  · exact h2
  · exact h1

theorem noteCommit_spec (w : Wave) (l fails cause : Nat) :
    { ((w.closeSpans l).noteCommit l fails cause).emptied with spans := w.spans, wsb := w.wsb, readLog := w.readLog, xcause := w.xcause } = w ∧
      ((w.closeSpans l).noteCommit l fails cause).emptied.xcause = BitVec.ofNat 64 (16 * l + cause) ∧
      ((w.closeSpans l).noteCommit l fails cause).emptied.wsb = [] ∧ ((w.closeSpans l).noteCommit l fails cause).emptied.readLog = [] ∧
      ∀ n, n ≤ l → (((w.closeSpans l).noteCommit l fails cause).emptied.span n).isOpen = false := by
  have h1 := fun n => (closeSpans_span w l n).1
  obtain ⟨t, ht⟩ := closeSpans_only w l
  rw [noteCommit_parts]
  refine ⟨by rw [ht], rfl, rfl, rfl, fun n hn => noteCommit_span _ _ _ _ _ (h1 n hn) (h1 l (Nat.le_refl l))⟩

end Sys2Proof.Machine
end

