-- ==== Sys2Proof/Laws/Copy.lean ====
section
/-! SUPPORT. What the copy words do (R314, R316 to R320). -/

namespace Sys2Proof.Machine

theorem State.core_modCore (s : State) (c k : Nat) (f : Core → Core) : (s.modCore c f).core k = if k = c then f (s.core c) else s.core k := by
  unfold State.modCore State.core
  simp only [Tbl.get_set]

/-- A step on state keeps what each core holds besides its update-only lines. -/
def CoreKeeps (s t : State) : Prop := ∀ k, ∃ u, t.core k = { s.core k with u := u }

theorem CoreKeeps.refl (s : State) : CoreKeeps s s := fun _ => ⟨_, rfl⟩
theorem CoreKeeps.trans {s t u : State} (h : CoreKeeps s t) (g : CoreKeeps t u) : CoreKeeps s u := fun k => by
  obtain ⟨a, ha⟩ := h k; obtain ⟨b, hb⟩ := g k
  exact ⟨b, by rw [hb, ha]⟩
theorem CoreKeeps.foldl {α : Type} (f : State → α → State) (h : ∀ s x, CoreKeeps s (f s x)) (l : List α) (s : State) :
    CoreKeeps s (l.foldl f s) := by
  induction l generalizing s with
  | nil => exact .refl s
  | cons x xs ih => exact (h s x).trans (ih _)
theorem CoreKeeps.of_cores {s t : State} (h : t.cores = s.cores) : CoreKeeps s t := fun k => ⟨(s.core k).u, by
  unfold State.core; rw [h]⟩

theorem putDev_cores (s : State) (ctx lid pa : Nat) (b : Byte) : (s.putDev ctx lid pa b).cores = s.cores := by
  have h1 : ∀ t : State, (t.takeLine ctx pa).cores = t.cores := fun t => by
    simp only [State.takeLine]; split <;> rfl
  have h2 : (s.protect lid pa).cores = s.cores := by unfold State.protect; split <;> rfl
  unfold State.putDev
  show ((s.protect lid pa).takeLine ctx pa).cores = _
  rw [h1, h2]

theorem recallLocs_keeps (s : State) (l : List Loc) : CoreKeeps s (s.recallLocs l) := by
  refine CoreKeeps.foldl _ (fun s x => CoreKeeps.foldl _ (fun s c => ?_) _ _) _ _
  unfold State.sendU
  split
  · exact .refl s
  · rename_i u _
    have h1 : CoreKeeps s (u.elems.foldl (fun s p => combineHome s u (64 * x + p.1) p.2) s) :=
      CoreKeeps.foldl _ (fun s p => CoreKeeps.foldl _ (fun s q => .of_cores (putDev_cores _ _ _ _ _)) _ _) _ _
    refine h1.trans fun k => ?_
    rw [State.core_modCore]
    split
    · rename_i hk; subst hk; exact ⟨_, rfl⟩
    · exact ⟨_, rfl⟩

theorem atHome_keeps (s : State) (l : List Loc) : CoreKeeps s (s.atHome l) :=
  (CoreKeeps.of_cores (meetHome_cores s l).2).trans (recallLocs_keeps _ _)

theorem readMoves_all {s : State} {ctx : Nat} {m : List (Nat × Resolved)} {l : List (CopyDst × CopySrc)}
    (h : ∀ x ∈ l, (x.2.value s ctx [] m).isSome) :
    readMoves s ctx [] m l = (l.map fun x => (x.1, (x.2.value s ctx [] m).getD 0), []) := by
  unfold readMoves
  induction l with
  | nil => rfl
  | cons x xs ih =>
    rw [List.foldr_cons, ih fun y hy => h y (List.mem_cons_of_mem _ hy)]
    obtain ⟨b, hb⟩ := Option.isSome_iff_exists.mp (h x (List.mem_cons_self ..))
    rw [hb]
    simp [hb]

/-- The copy that a core's engine takes (R274, R314). -/
def Env.theCopy (e : Env) (p : CopyPlan) : Copy :=
  { id := (e.copyHome p).fresh.1, wid := e.wid, lid := e.wv.lid, tok := e.token,
    promise := max (e.s.cycOf e.wid) (match (e.s.core (coreOfWave e.wid)).copies.getLast? with
        | some c => c.promise
        | none => 0) + p.lat + ceilDiv p.size 512,
    writes := p.moves.map fun x => (x.1, (e.srcByte p x.2).getD 0), todo := [], got := [], bad := none, fixed := [], extra := p.extra,
    unacked := 0 }

theorem launchCopy_eq {e : Env} {p : CopyPlan} (hgo : e.s.homeOk e.wid e.wv.lid (srcLocs (e.srcMap p) (p.moves.map (·.2))))
    (hread : ∀ m ∈ p.moves, (e.srcByte p m.2).isSome) :
    launchCopy e p = .done { s := ((e.copyHome p).fresh.2.modCore (coreOfWave e.wid) fun k =>
      { k with copies := k.copies ++ [e.theCopy p] }).modWave e.wid fun w => w.setTok e.token (e.theCopy p).promise } := by
  have hr : readMoves (e.copyHome p) e.wv.ctx [] (e.srcMap p) p.moves = (p.moves.map fun x => (x.1, (e.srcByte p x.2).getD 0), []) :=
    readMoves_all hread
  have hk := atHome_keeps e.s (srcLocs (e.srcMap p) (p.moves.map (·.2))) (coreOfWave e.wid)
  obtain ⟨u, hu⟩ := hk
  have hc : ((e.copyHome p).core (coreOfWave e.wid)).copies = (e.s.core (coreOfWave e.wid)).copies := by
    unfold Env.copyHome; rw [hu]
  unfold launchCopy
  refine (homeFirst_ok hgo _).trans ?_
  have hr' : readMoves (e.s.atHome (srcLocs (e.srcMap p) (p.moves.map (·.2)))) e.wv.ctx []
      (unitMap e.s e.wv.ctx Need.read (List.flatMap CopySrc.vas (p.moves.map (·.2)))) p.moves =
      (p.moves.map fun x => (x.1, (e.srcByte p x.2).getD 0), []) := hr
  have hc' : ((e.s.atHome (srcLocs (e.srcMap p) (p.moves.map (·.2)))).core (coreOfWave e.wid)).copies =
      (e.s.core (coreOfWave e.wid)).copies := hc
  simp only [hr', hc', sendPieces, List.flatMap_nil, unitsOf, List.map_nil, dedup, List.foldl_nil, List.filterMap_nil, State.sendOps]
  rfl

theorem copyOp_eq {e : Env} (h1 : e.s.twinned e.wv = false) (h2 : e.wv.tokSet e.token = false)
    (h3 : (e.s.core (coreOfWave e.wid)).copies.length < 32) (ops : Bytes) (plan : Env → (Env → CopyPlan → WRes) → WRes) :
    copyOp e ops plan = plan e fun e p => withScratch e e.act p.ranges fun e => launchCopy e p := by
  unfold copyOp
  rw [if_neg (by simp [h2]), if_neg (by simp; omega), atCompare_single h1]
  simp [h1]

theorem windowsFirst_eq {e : Env} {m : Mask} {r : List (Nat × Nat)} {body : Env → WRes}
    (h : ∀ b, e.s.block (e.wv.bid e.wid) = some b → b.absentAt r = none) : windowsFirst e m r body = body e := by
  unfold windowsFirst
  simp only
  split
  · rfl
  · rename_i b hb; rw [h b hb]

theorem withScratch_eq {e : Env} {m : Mask} {r : List (Nat × Nat)} {body : Env → WRes} (hd : r = [] ∨ e.wv.draining e.fr = false)
    (h : ∀ b, e.s.block (e.wv.bid e.wid) = some b → b.absentAt r = none) : withScratch e m r body = body e := by
  have : (e.wv.draining e.fr && !r.isEmpty) = false := by rcases hd with hd | hd <;> simp [hd]
  simp only [withScratch, this, Bool.false_eq_true, if_false]
  exact windowsFirst_eq h

theorem setTok_parts (w : Wave) (t n : Nat) : (w.setTok t n).v = w.v ∧ (w.setTok t n).s = w.s ∧ (w.setTok t n).k = w.k ∧
    (w.setTok t n).frags = w.frags ∧ (w.setTok t n).fpflags = w.fpflags ∧ (w.setTok t n).pending = w.pending := ⟨rfl, rfl, rfl, rfl, rfl, rfl⟩

theorem copy_starts {w : Fields} {s : State} {e g : Env} (h : Issues w s e) {i : Instr} {body : Env → WRes} {p : CopyPlan}
    (hx : exec i s = onWord w s body) (hg : g = { e with s := g.s }) (hs : HomeOnly e.s g.s) (hk : CoreKeeps e.s g.s)
    (hgo : g.s.homeOk g.wid g.wv.lid (srcLocs (g.srcMap p) (p.moves.map (·.2))))
    (hread : ∀ m ∈ p.moves, (g.srcByte p m.2).isSome) (hb : body e = launchCopy g p) : CopyStarts e g i p := by
  have hwid : g.wid = e.wid := by rw [hg]
  have hwv : g.wv = e.wv := by rw [hg]
  have htok : g.token = e.token := by rw [hg]; rfl
  have hb' := hb.trans (launchCopy_eq hgo hread)
  have hh : HomeOnly e.s (g.copyHome p) := hs.trans (atHome_home _ _)
  have hw0 : (g.copyHome p).wave e.wid = some e.wv := by rw [hh.wave]; exact h.wave
  have hwave : ((((g.copyHome p).fresh.2.modCore (coreOfWave g.wid) fun k =>
      { k with copies := k.copies ++ [g.theCopy p] }).modWave g.wid fun w => w.setTok g.token (g.theCopy p).promise)).wave e.wid
        = some (e.wv.setTok e.token (g.theCopy p).promise) := by
    rw [hwid, htok]
    exact State.wave_modWave_of hw0
  obtain ⟨s', w', hex, hc, hv, hsx, hkx, hfp, hp⟩ := effect_done (v := e.wv.setTok e.token (g.theCopy p).promise) h hx hb'
    (by
      show State.twinned _ e.wv = false
      rw [HomeOnly.of_launches (s := e.s)]
      · exact h.alone
      · exact hh.noWave.launches)
    hwave h.facts.frag rfl rfl (by simp) rfl
  refine ⟨s', w', g.theCopy p, hex, ?_, SameRegs.of_regs hv hsx hkx, ?_, ?_, hwid, by show g.wv.lid = _; rw [hwv], htok, rfl, rfl, rfl, rfl, rfl, rfl, ?_⟩
  · have : ((((g.copyHome p).fresh.2.modCore (coreOfWave e.wid) fun k =>
      { k with copies := k.copies ++ [g.theCopy p] }).modWave e.wid fun _ => e.wv.setTok e.token (g.theCopy p).promise)) =
      ((((g.copyHome p).fresh.2.modCore (coreOfWave g.wid) fun k =>
      { k with copies := k.copies ++ [g.theCopy p] }).modWave g.wid fun w => w.setTok g.token (g.theCopy p).promise)) := by
      rw [hwid, htok]
      exact State.modWave_congr (v := e.wv) hw0 rfl
    rw [this]; exact hc
  · simpa [fpflagsAfter, mergeFlags, noFlags, Wave.setTok] using hfp
  · simpa [Env.pendingAfter, Wave.setTok] using hp
  · have hcy : g.s.cycOf g.wid = e.s.cycOf e.wid := by
      unfold State.cycOf; rw [hwid]; obtain ⟨u, hu⟩ := hk (coreOfWave e.wid); rw [hu]
    have hcp : (g.s.core (coreOfWave g.wid)).copies = (e.s.core (coreOfWave e.wid)).copies := by
      rw [hwid]; obtain ⟨u, hu⟩ := hk (coreOfWave e.wid); rw [hu]
    simp only [Env.theCopy, hcy, hcp] <;> cases (e.s.core (coreOfWave e.wid)).copies.getLast? <;> rfl

theorem alignFault_ok {e : Env} {l : List (Nat × Nat)} {b : WRes} (h : ∀ p ∈ l, p.1 % p.2 = 0) : alignFault e l b = b := by
  unfold alignFault
  rw [List.find?_eq_none.mpr fun p hp => by simp [h p hp]]

theorem limitFault_ok {e : Env} {l : List (Nat × Nat × Nat)} {b : WRes} (h : ∀ p ∈ l, p.1 ≠ 0 → p.2.1 + p.2.2 ≤ spaceSize e p.1) :
    limitFault e l b = b := by
  unfold limitFault
  rw [List.find?_eq_none.mpr fun p hp => by
    simp only [Bool.and_eq_true, bne_iff_ne, ne_eq, decide_eq_true_eq, not_and, Nat.not_lt]
    intro h0; exact h p hp h0]

theorem alignFault_bad {w : Fields} {s : State} {e : Env} (h : Issues w s e) {i : Instr} {body : Env → WRes} {l : List (Nat × Nat)}
    {b : WRes} {a n : Nat} (hx : exec i s = onWord w s body) (hb : body e = alignFault e ((a, n) :: l) b) (ha : a % n ≠ 0)
    (hh : e.wv.handler = none) (ht : e.wv.tvec ≠ 0) : FaultsWith e i 0x06 0 (BitVec.ofNat 64 a) e.act := by
  have : body e = .done { s := e.s, fault := some (faultRec cALIGN 0 (BitVec.ofNat 64 a) e.act) } := by
    rw [hb]; unfold alignFault; rw [List.find?_cons_of_pos (by simpa using ha)]; rfl
  exact fault_traps (ld := false) h hx this hh ht

theorem readParams_eq {e g : Env} {va n : Nat} {raw : Bytes} (h : ReadsParams e va n g raw) (body : Env → Bytes → WRes) :
    readParams e va n body = body g raw := by
  obtain ⟨loc, hp, hpeer, hgo, rfl, rfl⟩ := h
  have hr : e.s.resolve (coreOfWave e.wid) e.wv.ctx e.frag.failed va .read = .ok loc := by
    unfold Env.place at hp
    split at hp <;> simp_all
  unfold readParams
  rw [hr]
  cases loc with
  | peer p c a => exact absurd rfl (hpeer p c a)
  | dev a => exact homeFirst_ok hgo _
  | host a => exact homeFirst_ok hgo _

theorem exec_wait {w : Fields} {s : State} {e : Env} (h : Issues w s e) {i : Instr} {body : Env → WRes} {r : Wait}
    (hx : exec i s = onWord w s body) (hb : body e = .wait e.s r) :
    ∃ s', exec i e.s = .next s' ∧ Stands e s' { e.frag with wait := some r } := by
  refine ⟨_, exec_word h hx, ?_⟩
  have ht : e.s.isTwin e.wv.lid = false := h.alone
  rw [hb]
  simp only [settleWord, countWait_single ht]
  exact modFrag_stands h _

/-- A word that changes neither its wave nor a register. -/
theorem quiet_of {w : Fields} {s : State} {e : Env} (h : Issues w s e) {i : Instr} {body : Env → WRes} {s1 : State}
    (hx : exec i s = onWord w s body) (hb : body e = .done { s := s1 }) (hn : NoWave e.s s1) :
    ∃ s' w', exec i e.s = .next s' ∧ Completes e s1 e.wv s' w' ∧ SameRegs e.wv w' ∧ w'.fpflags = e.wv.fpflags ∧
      w'.pending = e.wv.pending := by
  obtain ⟨s', w', h1, h2, h3, h4, h5, h6, h7⟩ := quiet_done (lat := 4) (ld := false) (ws := []) h hx hb hn
  exact ⟨s', w', h1, h2, SameRegs.of_regs h3 h4 h5, h6, h7 rfl⟩

theorem faults_illegal_all {w : Fields} {s : State} {e : Env} (h : Issues w s e) {i : Instr} {body : Env → WRes}
    (hx : exec i s = onWord w s body) (hb : body e = e.illegal) (hh : e.wv.handler = none) (ht : e.wv.tvec ≠ 0) :
    FaultsWith e i 0x01 (e.cl.words.getD e.cl.idx 0) 0 e.frag.mask := by
  exact fault_traps (ld := false) h hx (by rw [hb]; rfl) hh ht

/-- A copy of no bytes sets its token, which fades in the next cycle. -/
theorem copy_none {w : Fields} {s : State} {e : Env} (h : Issues w s e) {i : Instr} {body : Env → WRes}
    (hx : exec i s = onWord w s body) (hb : body e = noTransfer e) : ∃ v s' w', exec i e.s = .next s' ∧
        v = { e.wv.setTok e.token (e.s.cycOf e.wid) with fading := e.wv.fading ||| (1#8 <<< e.token) } ∧
        Completes e (e.s.modWave e.wid fun _ => v) v s' w' ∧ SameRegs e.wv w' ∧ w'.fpflags = e.wv.fpflags ∧ w'.pending = e.wv.pending := by
  have hw0 := h.wave
  obtain ⟨v, hv⟩ : ∃ v, v = { e.wv.setTok e.token (e.s.cycOf e.wid) with fading := e.wv.fading ||| (1#8 <<< e.token) } := ⟨_, rfl⟩
  have hwv : (e.s.modWave e.wid fun w => { w.setTok e.token (e.s.cycOf e.wid) with fading := w.fading ||| (1#8 <<< e.token) }) =
      e.s.modWave e.wid fun _ => v :=
    State.modWave_congr hw0 hv.symm
  have hb' : body e = .done { s := e.s.modWave e.wid fun _ => v } := by
    rw [hb]; unfold noTransfer; simp only; rw [hwv]
  have hfr : v.frags = e.wv.frags := by rw [hv]; rfl
  have hff : v.fpflags = e.wv.fpflags ∧ v.pending = e.wv.pending ∧ v.v = e.wv.v ∧ v.s = e.wv.s ∧ v.k = e.wv.k := by
    rw [hv]; exact ⟨rfl, rfl, rfl, rfl, rfl⟩
  obtain ⟨s', w', hex, hc, hvx, hsx, hkx, hfp, hp⟩ := effect_done (v := v) h hx hb' h.alone
    (State.wave_modWave_of hw0) (hfr ▸ h.facts.frag) rfl rfl (by simp) rfl
  refine ⟨v, s', w', hex, hv, hc, SameRegs.of_regs (hvx.trans hff.2.2.1) (hsx.trans hff.2.2.2.1) (hkx.trans hff.2.2.2.2), ?_, ?_⟩
  · simpa [fpflagsAfter, mergeFlags, noFlags, hff.1] using hfp
  · simpa [Env.pendingAfter, hff.2.1] using hp

end Sys2Proof.Machine
end

