-- ==== Sys2Proof/Laws/Counter.lean ====
section
/-! SUPPORT. What a region home does (R413 to R423). -/

namespace Sys2Proof.Machine

theorem flushEvents_noWave (s : State) (ctx : Nat) : NoWave s (s.flushEvents ctx) := by
  unfold State.flushEvents
  generalize (s.ctx ctx).heldEvents.length = n
  induction n generalizing s with
  | zero => exact .refl s
  | succ n ih =>
    unfold State.flushFrom
    cases hp : s.postOne ctx with
    | none => exact .refl s
    | some t =>
      refine NoWave.trans ?_ (ih t)
      unfold State.postOne at hp
      simp only at hp
      split at hp
      · simp at hp
      · split at hp
        · simp at hp
        · rw [Option.map_eq_some_iff] at hp
          obtain ⟨u, hu, ht⟩ := hp
          have h1 : NoWave s u := by
            split at hu
            · injection hu with hu; subst hu; exact writeDev_noWave _ _ _ _ _
            · injection hu with hu; subst hu; exact ⟨rfl, rfl⟩
            · simp at hu
          refine h1.trans ?_
          subst ht
          split <;> exact ⟨rfl, rfl⟩

theorem postEvent_noWave (s : State) (ctx a b : Nat) : NoWave s (s.postEvent ctx a b) := by
  unfold State.postEvent
  simp only
  split
  · exact NoWave.trans (t := State.modCtx _ _ _) ⟨rfl, rfl⟩ (flushEvents_noWave _ _)
  · exact ⟨rfl, rfl⟩

theorem refreshReady_noWave (s : State) (sk : Nat) : NoWave s (s.refreshReady sk) := by
  unfold State.refreshReady
  split
  · exact .refl s
  · split
    · exact ⟨rfl, rfl⟩
    · exact .refl s

theorem satisfySlot_noWave (s : State) (sk : Nat) : NoWave s (s.satisfySlot sk) := by
  have h : ∀ n, NoWave s (State.refreshReady { s with satisfied := n } sk) := fun n =>
    NoWave.trans (t := { s with satisfied := n }) ⟨rfl, rfl⟩ (refreshReady_noWave _ _)
  unfold State.satisfySlot
  simp only
  cases Tbl.find s.slots sk with
  | none => exact h _
  | some l =>
    simp only
    split
    · exact .refl s
    · exact h _

/-- What the home does to the waves: fragments that wait on the region may be answered; nothing else changes. -/
structure HomeAnswers (rid : Nat) (s t : State) : Prop where
  launches : t.launches = s.launches
  waves : ∀ k u, s.wave k = some u → ∃ v, t.wave k = some v ∧ { v with frags := u.frags } = u ∧
    ∀ fr f, Tbl.find u.frags fr = some f → (∀ q p l, f.wait ≠ some (.region q p l)) → Tbl.find v.frags fr = some f

theorem NoWave.answers {s t : State} (rid : Nat) (h : NoWave s t) : HomeAnswers rid s t :=
  ⟨h.launches, fun k u hu => ⟨u, by rw [h.wave]; exact hu, rfl, fun _ _ hf _ => hf⟩⟩

theorem HomeAnswers.trans {rid : Nat} {s t u : State} (h : HomeAnswers rid s t) (g : HomeAnswers rid t u) : HomeAnswers rid s u := by
  refine ⟨g.launches.trans h.launches, fun k a ha => ?_⟩
  obtain ⟨b, hb, hab, hf⟩ := h.waves k a ha
  obtain ⟨c, hc, hbc, hg⟩ := g.waves k b hb
  refine ⟨c, hc, ?_, fun fr f h1 h2 => hg fr f (hf fr f h1 h2) h2⟩
  have := congrArg (fun x : Wave => { x with frags := a.frags }) hbc
  exact this.trans hab

theorem answerWaiters_answers (s : State) (rid : Nat) : HomeAnswers rid s (s.answerWaiters rid) := by
  refine ⟨rfl, fun k u hu => ?_⟩
  have hu' : Tbl.find s.waves k = some u := hu
  unfold State.answerWaiters State.wave
  simp only [Tbl.find_mapv, hu', Option.map_some]
  refine ⟨_, rfl, rfl, fun fr f hf hw => ?_⟩
  simp only [Tbl.find_mapv, hf, Option.map_some]

/-- A region after a phase has completed (R416). -/
def Region.nextPhase (r : Region) : Region :=
  { r with arrived := r.arrived - r.expected, phase := (r.phase + 1) % 65536, expected := r.rearm }

theorem completePhase_answers (s : State) (rid : Nat) : HomeAnswers rid s (s.completePhase rid) := by
  unfold State.completePhase
  simp only
  refine HomeAnswers.trans (NoWave.answers rid ?_) (answerWaiters_answers _ rid)
  change NoWave s (if (s.region rid).act = 2 ∨ (s.region rid).act = 3 then
    (if (s.region rid).act = 1 ∨ (s.region rid).act = 3 then (s.setRegion rid (s.region rid).nextPhase).postEvent (s.region rid).owner (3 * 2 ^ 56)
      (((s.region rid).phase + 1) % 65536 * 2 ^ 48 + rid) else s.setRegion rid (s.region rid).nextPhase).satisfySlot
        (slotKey (s.region rid).owner ((s.region rid).task / 1024) ((s.region rid).task % 1024))
    else (if (s.region rid).act = 1 ∨ (s.region rid).act = 3 then (s.setRegion rid (s.region rid).nextPhase).postEvent (s.region rid).owner (3 * 2 ^ 56)
      (((s.region rid).phase + 1) % 65536 * 2 ^ 48 + rid) else s.setRegion rid (s.region rid).nextPhase))
  have h0 : NoWave s (s.setRegion rid (s.region rid).nextPhase) := ⟨rfl, rfl⟩
  generalize s.setRegion rid (s.region rid).nextPhase = t at h0
  have h1 : NoWave s (if (s.region rid).act = 1 ∨ (s.region rid).act = 3 then t.postEvent (s.region rid).owner (3 * 2 ^ 56)
      (((s.region rid).phase + 1) % 65536 * 2 ^ 48 + rid) else t) := by
    split
    · exact h0.trans (postEvent_noWave _ _ _ _)
    · exact h0
  generalize (if (s.region rid).act = 1 ∨ (s.region rid).act = 3 then t.postEvent (s.region rid).owner (3 * 2 ^ 56)
      (((s.region rid).phase + 1) % 65536 * 2 ^ 48 + rid) else t) = u at h1
  split
  · exact h1.trans (satisfySlot_noWave _ _)
  · exact h1

theorem regionStep_answers (s : State) (rid : Nat) : HomeAnswers rid s (s.regionStep rid) := by
  unfold State.regionStep
  split
  · exact completePhase_answers s rid
  · exact (NoWave.refl s).answers rid

theorem State.region_setRegion (s : State) (k j : Nat) (r : Region) : (s.setRegion k r).region j = if j = k then r else s.region j := by
  unfold State.setRegion State.region
  simp only [Tbl.get_set]

theorem HomeOnly.regions {s t : State} (h : HomeOnly s t) : t.regions = s.regions := by obtain ⟨_, _, _, _, _, _, _, _, rfl⟩ := h; rfl

theorem putDevs_regions (ctx lid : Nat) (l : List (Nat × Byte)) (s : State) :
    (l.foldl (fun s p => s.putDev ctx lid p.1 p.2) s).regions = s.regions := by
  induction l generalizing s with
  | nil => rfl
  | cons x xs ih => rw [List.foldl_cons, ih, (putDev_home s ctx lid x.1 x.2).regions]

theorem recalls_regions (l : List Nat) (s : State) : (l.foldl State.recall s).regions = s.regions := by
  induction l generalizing s with
  | nil => rfl
  | cons x xs ih => rw [List.foldl_cons, ih, (recall_home s x).regions]

theorem unpoison_regions (s : State) (l : List Nat) : (s.unpoison l).regions = s.regions := rfl

theorem writeDev_regions (s : State) (ctx lid : Nat) (l : List (Nat × Byte)) : (s.writeDev ctx lid none l).regions = s.regions := by
  unfold State.writeDev
  simp only [unpoison_regions, putDevs_regions, recalls_regions]

theorem flushEvents_regions (s : State) (ctx : Nat) : (s.flushEvents ctx).regions = s.regions := by
  unfold State.flushEvents
  generalize (s.ctx ctx).heldEvents.length = n
  induction n generalizing s with
  | zero => rfl
  | succ n ih =>
    unfold State.flushFrom
    cases hp : s.postOne ctx with
    | none => rfl
    | some t =>
      show (State.flushFrom ctx n t).regions = _
      rw [ih t]
      unfold State.postOne at hp
      simp only at hp
      split at hp
      · simp at hp
      · split at hp
        · simp at hp
        · rw [Option.map_eq_some_iff] at hp
          obtain ⟨u, hu, ht⟩ := hp
          have h1 : u.regions = s.regions := by
            split at hu
            · injection hu with hu; subst hu; exact writeDev_regions _ _ _ _
            · injection hu with hu; subst hu; rfl
            · simp at hu
          rw [← h1, ← ht]
          split <;> rfl

theorem postEvent_regions (s : State) (ctx a b : Nat) : (s.postEvent ctx a b).regions = s.regions := by
  unfold State.postEvent
  simp only
  split
  · exact flushEvents_regions _ _
  · rfl

theorem satisfySlot_regions (s : State) (sk : Nat) : (s.satisfySlot sk).regions = s.regions := by
  have h : ∀ n, (State.refreshReady { s with satisfied := n } sk).regions = s.regions := fun n => by
    unfold State.refreshReady
    split
    · rfl
    · split <;> rfl
  unfold State.satisfySlot
  simp only
  cases Tbl.find s.slots sk with
  | none => exact h _
  | some l =>
    simp only
    split
    · rfl
    · exact h _

theorem completePhase_regions (s : State) (rid : Nat) : (s.completePhase rid).regions = (s.setRegion rid (s.region rid).nextPhase).regions := by
  have h2 : ∀ a : State, a.regions = (s.setRegion rid (s.region rid).nextPhase).regions →
      (a.answerWaiters rid).regions = (s.setRegion rid (s.region rid).nextPhase).regions := fun a ha => ha
  unfold State.completePhase
  simp only
  refine h2 _ ?_
  change (if (s.region rid).act = 2 ∨ (s.region rid).act = 3 then
    (if (s.region rid).act = 1 ∨ (s.region rid).act = 3 then (s.setRegion rid (s.region rid).nextPhase).postEvent (s.region rid).owner (3 * 2 ^ 56)
      (((s.region rid).phase + 1) % 65536 * 2 ^ 48 + rid) else s.setRegion rid (s.region rid).nextPhase).satisfySlot
        (slotKey (s.region rid).owner ((s.region rid).task / 1024) ((s.region rid).task % 1024))
    else (if (s.region rid).act = 1 ∨ (s.region rid).act = 3 then (s.setRegion rid (s.region rid).nextPhase).postEvent (s.region rid).owner (3 * 2 ^ 56)
      (((s.region rid).phase + 1) % 65536 * 2 ^ 48 + rid) else s.setRegion rid (s.region rid).nextPhase)).regions = _
  generalize s.setRegion rid (s.region rid).nextPhase = t
  split
  · rw [satisfySlot_regions]
    split
    · exact postEvent_regions _ _ _ _
    · rfl
  · split
    · exact postEvent_regions _ _ _ _
    · rfl

theorem completePhase_region (s : State) (rid : Nat) : (s.completePhase rid).region rid = (s.region rid).nextPhase := by
  show Tbl.get (s.completePhase rid).regions rid Region.reset = _
  rw [completePhase_regions]
  show (s.setRegion rid (s.region rid).nextPhase).region rid = _
  rw [State.region_setRegion, if_pos rfl]

theorem completePhase_other (s : State) {rid k : Nat} (h : k ≠ rid) : (s.completePhase rid).region k = s.region k := by
  show Tbl.get (s.completePhase rid).regions k Region.reset = _
  rw [completePhase_regions]
  show (s.setRegion rid (s.region rid).nextPhase).region k = _
  rw [State.region_setRegion, if_neg h]

theorem Wave.writes_frags (l : List RegWrite) (t : Tbl Frag) : ∀ w : Wave, ({ w with frags := t } : Wave).writes l = { w.writes l with frags := t } := by
  induction l with
  | nil => intro w; rfl
  | cons x xs ih =>
    intro w
    rw [Wave.writes_cons, Wave.writes_cons, ← ih]
    congr 1
    cases x with
    | v n l x => rfl
    | s n x => rfl
    | k n m => simp only [Wave.write]; split <;> rfl

/-- A counter word that has changed its home completes. -/
theorem home_done {w : Fields} {s : State} {e : Env} (h : Issues w s e) {i : Instr} {body : Env → WRes} {t : State} {rid : Nat}
    {ws : List RegWrite} (hx : exec i s = onWord w s body) (hb : body e = .done { s := t, ws := ws }) (ha : HomeAnswers rid e.s t)
    (hw : ∀ q p l, e.frag.wait ≠ some (.region q p l)) :
    ∃ v s' w', exec i e.s = .next s' ∧ Completes e t v s' w' ∧ { v with frags := e.wv.frags } = e.wv ∧
      w'.v = (e.wv.writes ws).v ∧ w'.s = (e.wv.writes ws).s ∧ w'.k = (e.wv.writes ws).k ∧ w'.fpflags = e.wv.fpflags ∧
      (ws = [] → w'.pending = e.wv.pending) := by
  obtain ⟨v, hv, hvp, hf⟩ := ha.waves e.wid e.wv h.wave
  obtain ⟨s', w', h1, h2, h3, h4, h5, h6, h7⟩ := effect_done h hx hb
    (by show t.twinned e.wv = false; rw [HomeOnly.of_launches ha.launches]; exact h.alone) hv (hf _ _ h.facts.frag hw) rfl rfl (by simp) rfl
  have hr : ∀ (l : List RegWrite), (v.writes l).v = (e.wv.writes l).v ∧ (v.writes l).s = (e.wv.writes l).s ∧ (v.writes l).k = (e.wv.writes l).k := by
    intro l
    have hv2 : v = { e.wv with frags := v.frags } := by rw [← hvp]
    rw [hv2, Wave.writes_frags]
    exact ⟨rfl, rfl, rfl⟩
  refine ⟨v, s', w', h1, h2, hvp, h3.trans (hr _).1, h4.trans (hr _).2.1, h5.trans (hr _).2.2, ?_, ?_⟩
  · have : v.fpflags = e.wv.fpflags := by have := congrArg Wave.fpflags hvp; exact this
    rw [← this]
    simpa [fpflagsAfter, mergeFlags, noFlags] using h6
  · intro hws
    subst hws
    have : v.pending = e.wv.pending := by have := congrArg Wave.pending hvp; exact this
    rw [← this]
    simpa [Env.pendingAfter] using h7

theorem onRegion_ok {e : Env} (h : e.s.twinned e.wv = false) (hu : e.rid < 2 ^ 14 ∧ (e.s.region e.rid).valid = true ∧ (e.s.region e.rid).owner = e.wv.ctx)
    (ops : List Nat) (body : Env → Nat → WRes) : onRegion e ops body = body e e.rid := by
  unfold onRegion
  rw [leaderOnce_single h]
  simp only [usingRegion]
  rw [if_neg]
  obtain ⟨a, b, c⟩ := hu
  simp [b, c]; omega

theorem onRegion_bad {e : Env} (h : e.s.twinned e.wv = false) (hu : ¬(e.rid < 2 ^ 14 ∧ (e.s.region e.rid).valid = true ∧ (e.s.region e.rid).owner = e.wv.ctx))
    (ops : List Nat) (body : Env → Nat → WRes) : onRegion e ops body = .done { s := e.s, fault := some (faultRec cPROT 2 (BitVec.ofNat 64 e.rid) e.frag.mask) } := by
  unfold onRegion
  rw [leaderOnce_single h]
  simp only [usingRegion]
  rw [if_pos]
  · rfl
  · by_cases a : e.rid ≥ 2 ^ 14
    · exact .inl a
    · by_cases b : (e.s.region e.rid).valid = true
      · refine .inr (.inr fun c => hu ⟨by omega, b, c⟩)
      · exact .inr (.inl (by simpa using b))

theorem satBytes_eq (n : Nat) : satBytes n = (min satMax n, decide (satMax < n)) := rfl

theorem setRegion_answers {rid : Nat} {s t : State} (h : HomeAnswers rid s t) (k : Nat) (r : Region) : HomeAnswers rid s (t.setRegion k r) :=
  h.trans (NoWave.answers rid ⟨rfl, rfl⟩)

theorem pul_answers {rid : Nat} {s t : State} (h : HomeAnswers rid s t) (k l : Nat) (w : Wave) : HomeAnswers rid s (t.pul k w l) :=
  h.trans (NoWave.answers rid ⟨rfl, rfl⟩)

end Sys2Proof.Machine
end

