-- ==== Sys2Proof/Laws/Window.lean ====
section
/-! SUPPORT. Writes to the windows by masters that reach them. -/

namespace Sys2Proof.Machine

theorem onMaster_eq {name : String} {m : Master} {die : Nat} {s : State} (h : s.reaches m die) (f : State → State) :
    onMaster name m die s f = .next (f s) := by
  obtain ⟨hd, hm⟩ := h
  cases m with
  | fn n => simp only [onMaster, onDie, onFn, if_pos hd, if_neg (Nat.not_le.2 hm.1), hm.2]; rfl
  | hart d => simp only [onMaster, onDie, if_pos hd]; rw [if_pos ⟨hm.1, hm.2⟩]; rfl

theorem onFn_eq {fn : Nat} {s : State} (h : s.served fn) (f : State → State) : onFn fn s f = .next (f s) := by
  simp only [onFn, if_neg (Nat.not_le.2 h.1), h.2]; rfl

/-- A handler that is a choice acts. -/
theorem acts_of {s : State} {i : Instr} {P Q : Prop} [Decidable Q] {t : State} (h : exec i s = .next (if Q then t else s))
    (hq : Q ↔ P) : Acts s i P t :=
  ⟨fun p => by rw [h, if_pos (hq.2 p)], fun p => by rw [h, if_neg fun q => p (hq.1 q)]⟩

theorem acts_not {s : State} {i : Instr} {P Q : Prop} [Decidable Q] {t : State} (h : exec i s = .next (if Q then s else t))
    (hq : Q ↔ ¬P) : Acts s i P t :=
  ⟨fun p => by rw [h, if_neg fun q => hq.1 q p], fun p => by rw [h, if_pos (hq.2 p)]⟩

theorem fullMaster_iff (m : Master) : fullMaster m = true ↔ fullRights m := by
  cases m with
  | fn n => simp [fullMaster, fullRights]
  | hart d => simp [fullMaster, fullRights]

theorem hostMaster_iff (m : Master) : hostMaster m = true ↔ ∃ n, m = .fn n := by cases m <;> simp [hostMaster]

theorem owns_iff (s : State) (m : Master) (v : Bool) (o w : Nat) : s.owns m v o w = true ↔ s.mayWrite m (if v then o else w) := by
  cases m with
  | fn n => cases v <;> simp [State.owns, State.mayWrite]
  | hart d => simp [State.owns, State.mayWrite]

/-- A write by a function that is served takes its effect. -/
theorem fn_next {fn : Nat} {s : State} (h : s.served fn) {i : Instr} {f : State → State} (hi : exec i s = onFn fn s f) :
    exec i s = .next (f s) := hi.trans (onFn_eq h f)

end Sys2Proof.Machine
end

