-- ==== Sys2Proof/Laws/Link.lean ====
section
/-! SUPPORT. The host link and the peer ports: what an access and an answer leave behind. -/

namespace Sys2Proof.Machine

theorem hostRequest_served {name : String} {fn : Nat} {s : State} (h : s.served fn) (f : State → Option State) :
    hostRequest name fn s f = onEvent name (f s) := by
  simp only [hostRequest, if_neg (Nat.not_le.2 h.1), h.2]; rfl

theorem hostRequest_frozen {name : String} {fn : Nat} {s : State} (h : fn < 64) (hf : (s.fn fn).frozen = true) (f : State → Option State) :
    hostRequest name fn s f = .next (s.abortRead fn) := by
  simp only [hostRequest, if_neg (Nat.not_le.2 h), hf, if_true]

theorem any_true {α : Type} {l : List α} {p : α → Bool} (h : ∃ x ∈ l, p x = true) : l.any p = true := List.any_eq_true.2 h
theorem any_false {α : Type} {l : List α} {p : α → Bool} (h : ¬∃ x ∈ l, p x = true) : l.any p = false := by
  rw [← Bool.not_eq_true, List.any_eq_true]; exact h

theorem allDev_iff (ls : List Loc) : allDev ls = true ↔ ∀ l ∈ ls, ∃ pa, l = .dev pa := by
  unfold allDev
  rw [List.all_eq_true]
  constructor
  · intro h l hl
    have := h l hl
    cases l with
    | dev pa => exact ⟨pa, rfl⟩
    | _ => cases this
  · intro h l hl
    obtain ⟨pa, rfl⟩ := h l hl
    rfl

theorem peerAccess_frozen {s : State} {port rctx va n : Nat} {need : Need} {body} (h : (s.port port).frozen = true) :
    s.peerAccess port rctx va n need body = some (s.replyBad port cPROT) := by
  unfold State.peerAccess
  rw [if_pos h]

theorem peerAccess_ungranted {s : State} {port rctx va n : Nat} {need : Need} {body} (h : (s.port port).frozen = false)
    (hg : (s.port port).grants rctx = false) :
    s.peerAccess port rctx va n need body = some ((s.freezePort port Config.grantCause.toNat 0xFF).replyBad port cPROT) := by
  unfold State.peerAccess
  rw [h, hg]
  rfl

theorem peerAccess_ok {s : State} {port rctx va n : Nat} {need : Need} {body} {ls : List Loc} (h : (s.port port).frozen = false)
    (hg : (s.port port).grants rctx = true) (hp : s.tablePlaces rctx va n need = .ok ls) (ho : ¬∃ l ∈ ls, s.openTo none l = true) :
    s.peerAccess port rctx va n need body = body ls := by
  unfold State.peerAccess
  rw [h, hg, hp]
  simp only [any_false ho]
  rfl

/-- A fold whose every step keeps a part of the state keeps it. -/
theorem keep_foldl {α β : Type} (p : State → β) {g : State → α → State} (h : ∀ s x, p (g s x) = p s) (l : List α) (s : State) :
    p (l.foldl g s) = p s := by
  induction l generalizing s with
  | nil => rfl
  | cons x xs ih => rw [List.foldl_cons, ih, h]

/-- Operations sent to peers, and the ports. -/
def State.peers (s : State) : List PeerOp × Tbl Port := (s.peerOps, s.ports)

theorem HomeOnly.peers {s t : State} (h : HomeOnly s t) : t.peers = s.peers := by obtain ⟨_, _, _, _, _, _, _, _, rfl⟩ := h; rfl

theorem failOp_peers (s : State) (op : PeerOp) : (s.failOp op).peers = s.peers := by
  unfold State.failOp
  simp only
  split
  · split <;> rfl
  · rfl

theorem dropCopy_peers (s : State) (core : Nat) (c : Copy) (h : Option HeldFault) : (s.dropCopy core c h).peers = s.peers := by
  unfold State.dropCopy
  exact (keep_foldl State.peers (g := fun s k => s.modWave k _) (fun _ _ => rfl) _ _).trans rfl

theorem fillPiece_peers (s : State) (op : PeerOp) (core id : Nat) (data : Bytes) : (s.fillPiece op core id data).peers = s.peers := by
  unfold State.fillPiece
  simp only
  split <;> rfl

theorem answerOp_peers (s : State) (op : PeerOp) (ok : Bool) (data : Bytes) :
    (s.answerOp op ok data).peers = (s.peerOps.filter (fun x => x.id != op.id), s.ports) := by
  unfold State.answerOp
  simp only
  generalize hr : ({ s with peerOps := s.peerOps.filter fun x => x.id != op.id } : State) = r
  have h : r.peers = (s.peerOps.filter (fun x => x.id != op.id), s.ports) := by rw [← hr]; rfl
  have hf : (r.failOp op).peers = (s.peerOps.filter (fun x => x.id != op.id), s.ports) := (failOp_peers _ _).trans h
  split
  · exact h
  · exact h
  · split
    · exact h
    · exact hf
  · split
    · exact h
    · exact hf
  · split
    · exact h
    · exact hf
  · split
    · exact (fillPiece_peers _ _ _ _ _).trans h
    · split
      · exact (failOp_peers _ _).trans ((dropCopy_peers _ _ _ _).trans h)
      · exact hf
  · exact h

theorem answers_peers (l : List PeerOp) (ok : Bool) (data : Bytes) (s : State) :
    (l.foldl (fun s op => s.answerOp op ok data) s).ports = s.ports ∧
    ∀ x ∈ (l.foldl (fun s op => s.answerOp op ok data) s).peerOps, x ∈ s.peerOps ∧ ∀ y ∈ l, y.id ≠ x.id := by
  induction l generalizing s with
  | nil => exact ⟨rfl, fun x h => ⟨h, nofun⟩⟩
  | cons a l ih =>
    rw [List.foldl_cons]
    have h := answerOp_peers s a ok data
    have h1 : (s.answerOp a ok data).ports = s.ports := congrArg Prod.snd h
    have h2 : (s.answerOp a ok data).peerOps = s.peerOps.filter (fun x => x.id != a.id) := congrArg Prod.fst h
    refine ⟨(ih _).1.trans h1, fun x hx => ?_⟩
    obtain ⟨p, q⟩ := (ih _).2 x hx
    rw [h2, List.mem_filter] at p
    refine ⟨p.1, fun y hy => ?_⟩
    rcases List.mem_cons.1 hy with rfl | hy
    · exact fun e => by rw [e] at p; simp at p
    · exact q y hy

theorem State.port_modPort (s : State) (k j : Nat) (f : Port → Port) : (s.modPort k f).port j = if j = k then f (s.port k) else s.port j :=
  Tbl.get_set _ _ _ _ _

theorem failOp_frozen {s : State} {op : PeerOp} {v : Wave} (hv : s.wave op.wid = some v) (hl : v.lid = op.lid) :
    ∃ v', (s.failOp op).wave op.wid = some v' ∧ v'.frozen = some .uncorrectable := by
  unfold State.failOp
  simp only [hv, if_pos hl]
  refine ⟨{ v with frozen := some .uncorrectable }, ?_, rfl⟩
  change (s.modWave op.wid _).wave op.wid = _
  rw [State.wave_modWave, if_pos rfl, hv]
  rfl

end Sys2Proof.Machine
end

