-- ==== Sys2Proof/Laws/Service.lean ====
section
/-! SUPPORT. Boot, contexts, walks, faults and scrubbers: what their events leave behind. -/

namespace Sys2Proof.Machine

theorem State.die_modDie (s : State) (k j : Nat) (f : Die → Die) : (s.modDie k f).die j = if j = k then f (s.die k) else s.die j :=
  Tbl.get_set _ _ _ _ _

/-- The cores of a die with their counters at zero. -/
def startAll (die : Nat) (s : State) (n : Nat) : State :=
  (List.range n).foldl (fun s c => s.modCore (64 * die + c) fun x => { x with cyc := 0 }) s

theorem startCores (die : Nat) (s : State) : ∀ n, 
    (∀ c, (startAll die s n).core c = if 64 * die ≤ c ∧ c < 64 * die + n then { s.core c with cyc := 0 } else s.core c) ∧ { startAll die s n with cores := s.cores } = s := by
  intro n
  unfold startAll
  induction n with
  | zero => exact ⟨fun c => by rw [if_neg (by omega)]; rfl, rfl⟩
  | succ n ih =>
    rw [List.range_succ, List.foldl_append]
    obtain ⟨a, b⟩ := ih
    refine ⟨fun c => ?_, b⟩
    rw [List.foldl_cons, List.foldl_nil, State.core_modCore]
    by_cases h : c = 64 * die + n
    · subst h
      rw [if_pos rfl, a, if_neg (by omega), if_pos (by omega)]
    · rw [if_neg h, a]
      by_cases g : 64 * die ≤ c ∧ c < 64 * die + n
      · rw [if_pos g, if_pos (by omega)]
      · rw [if_neg g, if_neg (by omega)]

theorem dieReset_eq (die : Nat) (s : State) : exec (.dieReset die) s = onDie die (onEvent "DIE_RESET" (if (s.die die).inReset = true then
    some ((List.range 64).foldl (fun s c => s.modCore (64 * die + c) fun x => { x with cyc := 0 }) (s.modDie die fun d => { d with inReset := false }))
    else none)) := by
  change execDieReset die s = _
  unfold execDieReset
  rfl

theorem load_running (c : Security) (n : Nat) (x : Image) :
    (c.load n x).running = c.running.filter (· != n) ++ if Config.imageSigned x.bytes x.signature = true then [n] else [] := by
  unfold Security.load
  simp only
  split <;> simp [Security.measure]

theorem load_meas (c : Security) (n m : Nat) (x : Image) : Tbl.get (c.load n x).meas m 0 =
    if m = n ∧ Config.imageSigned x.bytes x.signature = true
      then BitVec.ofNat 256 (ofLE (sha3 (leBytes 32 (Tbl.get c.meas n 0).toNat ++ sha3 x.bytes))) else Tbl.get c.meas m 0 := by
  unfold Security.load
  simp only
  by_cases h : Config.imageSigned x.bytes x.signature = true
  · rw [if_pos h]
    change Tbl.get (Tbl.set _ _ _ _) _ _ = _
    rw [Tbl.get_set]
    by_cases g : m = n
    · rw [if_pos g, if_pos ⟨g, h⟩]
    · rw [if_neg g, if_neg fun y => g y.1]
  · rw [if_neg h, if_neg fun y => h y.2]

/-- Images loaded one after another, from number `k` on. -/
theorem load_all (l : List Image) : ∀ (k : Nat) (c : Security), (∀ n, k ≤ n → n ∉ c.running) →
    let t := (l.zipIdx k).foldl (fun c p => c.load p.2 p.1) c
    (∀ n, n < k → (n ∈ t.running ↔ n ∈ c.running) ∧ Tbl.get t.meas n 0 = Tbl.get c.meas n 0) ∧
    ∀ i x, l[i]? = some x → (k + i ∈ t.running ↔ Config.imageSigned x.bytes x.signature = true) ∧
      Tbl.get t.meas (k + i) 0 = if Config.imageSigned x.bytes x.signature = true
        then BitVec.ofNat 256 (ofLE (sha3 (leBytes 32 (Tbl.get c.meas (k + i) 0).toNat ++ sha3 x.bytes))) else Tbl.get c.meas (k + i) 0 := by
  induction l with
  | nil => exact fun k c _ => ⟨fun n _ => ⟨Iff.rfl, rfl⟩, fun i x h => by cases h⟩
  | cons y l ih =>
    intro k c hc t
    have hm : ∀ n, n ≠ k → (n ∈ (c.load k y).running ↔ n ∈ c.running) := by
      intro n hn
      rw [load_running, List.mem_append, List.mem_filter]
      exact ⟨fun h => h.elim And.left fun h => by split at h <;> simp_all, fun h => .inl ⟨h, by simpa using hn⟩⟩
    have hk : k ∈ (c.load k y).running ↔ Config.imageSigned y.bytes y.signature = true := by
      rw [load_running, List.mem_append]
      constructor
      · rintro (h | h)
        · exact absurd (List.mem_filter.1 h).1 (hc k (Nat.le_refl k))
        · exact Classical.not_not.1 fun g => by rw [if_neg g] at h; cases h
      · intro h
        rw [if_pos h]
        exact .inr (List.mem_singleton.2 rfl)
    obtain ⟨a, b⟩ := ih (k + 1) (c.load k y) fun n hn => by rw [hm n (by omega)]; exact hc n (by omega)
    have ht : t = (l.zipIdx (k + 1)).foldl (fun c p => c.load p.2 p.1) (c.load k y) := rfl
    rw [← ht] at a b
    refine ⟨fun n hn => ?_, fun i x hx => ?_⟩
    · have := a n (by omega)
      rw [hm n (by omega), load_meas, if_neg fun h => by omega] at this
      exact this
    · cases i with
      | zero =>
        have := a k (by omega)
        cases hx
        rw [hk, load_meas] at this
        refine ⟨this.1, this.2.trans ?_⟩
        by_cases h : Config.imageSigned y.bytes y.signature = true
        · rw [if_pos ⟨rfl, h⟩, if_pos h]; rfl
        · rw [if_neg fun g => h g.2, if_neg h]; rfl
      | succ i =>
        have := b i x hx
        have hne : ¬(k + 1 + i = k ∧ Config.imageSigned y.bytes y.signature = true) := fun h => absurd h.1 (by omega)
        rw [load_meas, if_neg hne] at this
        rw [show k + (i + 1) = k + 1 + i by omega]
        exact this

theorem dieReset_next (die : Nat) (s : State) (hd : die < 4) (hr : (s.die die).inReset = true) :
    exec (.dieReset die) s = .next (startAll die (s.modDie die fun d => { d with inReset := false }) 64) := by
  rw [dieReset_eq, onDie, if_pos hd, if_pos hr]
  rfl

theorem started_dies {s t : State} {die : Nat} (h : { t with cores := (s.modDie die fun d => { d with inReset := false }).cores } = s.modDie die fun d => { d with inReset := false }) :
    t.dies = (s.modDie die fun d => { d with inReset := false }).dies := by
  rw [← h]
theorem started_rest {s t : State} {die : Nat} (h : { t with cores := (s.modDie die fun d => { d with inReset := false }).cores } = s.modDie die fun d => { d with inReset := false }) :
    { t with cores := s.cores, dies := s.dies } = s := by
  have h : ({ t with cores := s.cores } : State) = s.modDie die fun d => { d with inReset := false } := h
  have h := congrArg (fun x : State => ({ x with dies := s.dies } : State)) h
  exact h

theorem dieReset_does (die : Nat) (s : State) (hd : die < 4) (hr : (s.die die).inReset = true) : ∃ t, exec (.dieReset die) s = .next t ∧
    (t.die die) = { s.die die with inReset := false } ∧ (∀ d, d ≠ die → t.die d = s.die d) ∧
    (∀ c, t.core c = if c / 64 = die then { s.core c with cyc := 0 } else s.core c) ∧
    { t with cores := s.cores, dies := s.dies } = s := by
  obtain ⟨a, b⟩ := startCores die (s.modDie die fun d => { d with inReset := false }) 64
  have hdies := started_dies b
  refine ⟨_, dieReset_next die s hd hr, ?_, ?_, ?_, started_rest b⟩
  · unfold State.die
    rw [hdies]
    exact (State.die_modDie s die die _).trans (if_pos rfl)
  · intro d hn
    unfold State.die
    rw [hdies]
    exact (State.die_modDie s die d _).trans (if_neg hn)
  · intro c
    rw [a]
    by_cases h : c / 64 = die
    · rw [if_pos h, if_pos (by omega)]; rfl
    · rw [if_neg h, if_neg (by omega)]; rfl

theorem invalidation_eq (ctx lo hi : Nat) (s : State) : exec (.invalidation ctx lo hi) s = .next ((s.ctxs.map (·.1)).foldl State.flushEvents
    { s with cores := Tbl.mapv (fun _ c => { c with tlb := Tbl.keep (fun k p => !(decide (k / 2 ^ 41 = ctx ∧ p.vbase ≤ hi % 2 ^ 57 ∧ lo % 2 ^ 57 < p.vbase + p.size))) c.tlb }) s.cores
             dies := Tbl.mapv (fun _ d => { d with walkCache := Tbl.keep (fun k _ => !(decide (k / 2 ^ 41 = ctx ∧ k / 8 % 2 ^ 38 ≤ hi % 2 ^ 57 / 2 ^ (9 * (k % 8) + 12) ∧ lo % 2 ^ 57 / 2 ^ (9 * (k % 8) + 12) ≤ k / 8 % 2 ^ 38))) d.walkCache }) s.dies }) := by
  have : (fun (k : Nat) (p : Page) => decide (k / 2 ^ 41 = ctx ∧ p.vbase ≤ hi % 2 ^ 57 ∧ lo % 2 ^ 57 < p.vbase + p.size)) =
      fun k p => k / 2 ^ 41 == ctx && decide (p.vbase ≤ hi % 2 ^ 57) && decide (lo % 2 ^ 57 < p.vbase + p.size) := by
    funext k p
    rw [Bool.and_assoc, Bool.decide_and, Bool.decide_and]
    rfl
  have hk : ∀ k p, decide (k / 2 ^ 41 = ctx ∧ p.vbase ≤ hi % 2 ^ 57 ∧ lo % 2 ^ 57 < p.vbase + p.size) =
      (k / 2 ^ 41 == ctx && decide (p.vbase ≤ hi % 2 ^ 57) && decide (lo % 2 ^ 57 < (p : Page).vbase + p.size)) := fun k p => congrFun (congrFun this k) p
  have hw : ∀ k, decide (k / 2 ^ 41 = ctx ∧ k / 8 % 2 ^ 38 ≤ hi % 2 ^ 57 / 2 ^ (9 * (k % 8) + 12) ∧ lo % 2 ^ 57 / 2 ^ (9 * (k % 8) + 12) ≤ k / 8 % 2 ^ 38) =
      (k / 2 ^ 41 == ctx && decide (k / 8 % 2 ^ 38 ≤ hi % 2 ^ 57 / 2 ^ (9 * (k % 8) + 12)) && decide (lo % 2 ^ 57 / 2 ^ (9 * (k % 8) + 12) ≤ k / 8 % 2 ^ 38)) := fun k => by
    rw [Bool.and_assoc, Bool.decide_and, Bool.decide_and]
    rfl
  simp only [hk, hw]
  change execInvalidation ctx lo hi s = _
  unfold execInvalidation
  rfl

theorem borrow_eq {die p d : Nat} {rest : List Nat} {s : State} (hd : die < 4) (hp : p < 16) (ha : (s.pool (poolKey die p)).asking = some (d :: rest)) :
    exec (.borrowGrant die p) s = .next (
      if lends (s.pool (poolKey die p)) (s.pool (poolKey d p)) = true then
        { ((s.modPool (poolKey d p) fun _ => (Pool.take d 64 (s.pool (poolKey d p)) []).2).modPool (poolKey die p) fun k =>
          { k with asking := none, freeBorrowed := k.freeBorrowed ++ (Pool.take d 64 (s.pool (poolKey d p)) []).1 }) with
        batches := s.batches ++ [{ lender := d, borrower := die, pool := p, left := (Pool.take d 64 (s.pool (poolKey d p)) []).1 }] }
      else s.modPool (poolKey die p) fun k => { k with asking := if rest.isEmpty = true then none else some rest }) := by
  change execBorrowGrant die p s = _
  rw [execBorrowGrant, onDie, if_pos hd, if_pos hp, State.askLender]
  simp only [ha]
  split <;> rfl

theorem lends_iff (b l : Pool) : lends b l = true ↔ l.valid = true ∧ l.borrow = true ∧ l.owner = b.owner ∧ l.log2ps = b.log2ps ∧
    l.lowat + 64 ≤ l.freePages := by
  unfold lends
  simp only [Bool.and_eq_true, beq_iff_eq, decide_eq_true_eq, and_assoc]

theorem foundError_rest (s : State) (die : Nat) (pa : Option Nat) (found : EccRead) :
    (s.foundError die pa found).mem = s.mem ∧ (s.foundError die pa found).hostMem = s.hostMem ∧
    ((s.foundError die pa found).die die).scrub = (s.die die).scrub ∧
    ((s.foundError die pa found).die die).errCorr =
      (if found = .corrected then min 0xFFFFFFFF ((s.die die).errCorr + 1) else (s.die die).errCorr) ∧
    ((s.foundError die pa found).die die).errUncorr =
      (if found = .uncorrectable then min 0xFFFFFFFF ((s.die die).errUncorr + 1) else (s.die die).errUncorr) := by
  unfold State.foundError
  cases found with
  | clean => exact ⟨rfl, rfl, rfl, rfl, rfl⟩
  | corrected => refine ⟨rfl, rfl, ?_, ?_, ?_⟩ <;> rw [State.die_modDie, if_pos rfl] <;> rfl
  | uncorrectable =>
    cases pa with
    | none => refine ⟨rfl, rfl, ?_, ?_, ?_⟩ <;> dsimp only <;> rw [State.die_modDie, if_pos rfl] <;> rfl
    | some a =>
      have h : ∀ t : State, (if s.poison.contains (lineOf a) = true then t else { t with poison := t.poison ++ [lineOf a] }).mem = t.mem ∧
          (if s.poison.contains (lineOf a) = true then t else { t with poison := t.poison ++ [lineOf a] }).hostMem = t.hostMem ∧
          (if s.poison.contains (lineOf a) = true then t else { t with poison := t.poison ++ [lineOf a] }).die die = t.die die := by
        intro t; split <;> exact ⟨rfl, rfl, rfl⟩
      obtain ⟨h1, h2, h3⟩ := h ((s.modDie die fun d => { d with errUncorr := min 0xFFFFFFFF (d.errUncorr + 1) }).modDie die fun d => { d with errLast := some a })
      refine ⟨h1, h2, ?_, ?_, ?_⟩
      · exact (congrArg Die.scrub h3).trans (by rw [State.die_modDie, if_pos rfl, State.die_modDie, if_pos rfl])
      · exact (congrArg Die.errCorr h3).trans (by rw [State.die_modDie, if_pos rfl, State.die_modDie, if_pos rfl]; rfl)
      · exact (congrArg Die.errUncorr h3).trans (by rw [State.die_modDie, if_pos rfl, State.die_modDie, if_pos rfl]; rfl)

theorem foundError_last (s : State) (die a : Nat) (found : EccRead) :
    ((s.foundError die (some a) found).die die).errLast = (if found = .uncorrectable then some a else (s.die die).errLast) ∧
    ∀ l, l ∈ (s.foundError die (some a) found).poison ↔ l ∈ s.poison ∨ (found = .uncorrectable ∧ l = lineOf a) := by
  unfold State.foundError
  cases found with
  | clean => exact ⟨rfl, fun l => by simp⟩
  | corrected =>
    refine ⟨?_, fun l => ?_⟩
    · dsimp only
      rw [State.die_modDie, if_pos rfl]; rfl
    · simp [State.modDie]
  | uncorrectable =>
    simp only
    have hp : ((s.modDie die fun d => { d with errUncorr := min 0xFFFFFFFF (d.errUncorr + 1) }).modDie die fun d => { d with errLast := some a }).poison = s.poison := rfl
    have hd : (((s.modDie die fun d => { d with errUncorr := min 0xFFFFFFFF (d.errUncorr + 1) }).modDie die fun d => { d with errLast := some a }).die die).errLast = some a := by
      rw [State.die_modDie, if_pos rfl]
    generalize (s.modDie die fun d => { d with errUncorr := min 0xFFFFFFFF (d.errUncorr + 1) }).modDie die (fun d => { d with errLast := some a }) = t at hp hd ⊢
    rw [hp]
    by_cases h : s.poison.contains (lineOf a) = true
    · rw [if_pos h]
      refine ⟨hd, fun l => ?_⟩
      rw [hp]
      exact ⟨.inl, fun g => g.elim id fun g => by rw [g.2]; exact List.contains_iff_mem.1 h⟩
    · rw [if_neg h]
      refine ⟨hd, fun l => ?_⟩
      change l ∈ s.poison ++ [lineOf a] ↔ _
      rw [List.mem_append, List.mem_singleton]
      exact or_congr Iff.rfl ⟨fun g => ⟨trivial, g⟩, fun g => g.2⟩

theorem scrubStep_eq {die unit : Nat} {canopy : Bool} {found : EccRead} {s : State} (hd : die < 4) (hu : unit < 64) (hr : (s.die die).inReset = false) :
    exec (.scrubStep die canopy unit found) s = .next (s.scrub1 die canopy unit found) := by
  change execScrubStep die canopy unit found s = _
  rw [execScrubStep, onDie, if_pos hd, if_pos (by rw [hr, decide_eq_true hu]; rfl)]
  rfl

theorem scrub1_die (s : State) (die unit : Nat) (canopy : Bool) (found : EccRead) : ∃ pa,
    (canopy = false → pa = some (channelLine die unit (Tbl.get (s.die die).scrub unit 0))) ∧
    (s.scrub1 die canopy unit found).die die = (let key := if canopy then 64 + unit else unit
      let next := (Tbl.get (s.die die).scrub key 0 + 1) % arrayLines canopy
      let x := (State.foundError { s with free := s.free + 1 } die pa found).die die
      { x with scrub := Tbl.set 0 x.scrub key next, scrubPeriod := ((s.scrub1 die canopy unit found).die die).scrubPeriod }) ∧
    (s.scrub1 die canopy unit found).mem = (State.foundError { s with free := s.free + 1 } die pa found).mem ∧
    (s.scrub1 die canopy unit found).hostMem = (State.foundError { s with free := s.free + 1 } die pa found).hostMem ∧
    (s.scrub1 die canopy unit found).poison = (State.foundError { s with free := s.free + 1 } die pa found).poison := by
  refine ⟨if canopy then (Config.canopyLine s.free).map fun n => channelLine die unit (n % 2 ^ 25)
    else some (channelLine die unit (Tbl.get (s.die die).scrub (if canopy then 64 + unit else unit) 0)), ?_, ?_, rfl, rfl, rfl⟩
  · intro h
    subst h
    rfl
  · unfold State.scrub1 State.fresh
    simp only
    rw [State.die_modDie, if_pos rfl]

/-- A leaf of a table covers the address that led to it. -/
theorem entryOf_page {v l e : Nat} {p : Page} (h : entryOf v l e = .leaf p) : v / p.size = p.vbase / p.size := by
  have hno : ∀ (c : Prop) [Decidable c] (a : Nat), (if c then Entry.bad else .table a) ≠ .leaf p := fun c _ a => by split <;> exact nofun
  unfold entryOf at h
  simp only at h
  split at h
  · cases h
  · split at h
    · split at h
      · cases h
      · cases h
        have : 0 < pageSize l := by unfold pageSize; split <;> decide
        exact (Nat.mul_div_cancel _ this).symm
    · exact absurd h (hno _ _)

theorem walkFrom_page {s : State} {ctx v : Nat} {p : Page} : ∀ {n table : Nat}, walkFrom s ctx v n table = some p →
    v / p.size = p.vbase / p.size := by
  intro n
  induction n with
  | zero => intro table h; cases h
  | succ l ih =>
    intro table h
    unfold walkFrom at h
    simp only at h
    split at h
    · cases h
    · rename_i q hq
      cases h
      exact entryOf_page hq
    · exact ih h

/-- What a walk changes: the walk cache of its die, and the count of free values. -/
structure WalkOnly (s t : State) : Prop where
  rest : { t with dies := s.dies, free := s.free } = s
  die : ∀ k, { t.die k with walkCache := (s.die k).walkCache } = s.die k

theorem WalkOnly.refl (s : State) : WalkOnly s s := ⟨rfl, fun _ => rfl⟩

theorem WalkOnly.trans {s t u : State} (h : WalkOnly s t) (g : WalkOnly t u) : WalkOnly s u := by
  refine ⟨?_, fun k => ?_⟩
  · rw [← h.rest]
    exact congrArg (fun x : State => { x with dies := s.dies, free := s.free }) g.rest
  · have := congrArg (fun x : Die => { x with walkCache := (s.die k).walkCache }) (g.die k)
    exact this.trans (h.die k)

theorem WalkOnly.homeByte {s t : State} (h : WalkOnly s t) : t.homeByte = s.homeByte := by
  rw [← h.rest]
  rfl

theorem WalkOnly.walkFrom {s t : State} (h : WalkOnly s t) (ctx v : Nat) : ∀ n table, walkFrom t ctx v n table = walkFrom s ctx v n table := by
  intro n
  induction n with
  | zero => intro _; rfl
  | succ n ih =>
    intro table
    unfold Machine.walkFrom
    simp only [h.homeByte, ih]

theorem cachedEntry_only (s : State) (die ctx v l at_ : Nat) : WalkOnly s (s.cachedEntry die ctx v l at_).1 := by
  unfold State.cachedEntry State.fresh
  simp only
  split
  · split <;> exact ⟨rfl, fun _ => rfl⟩
  · exact .refl s

theorem keepEntry_only (s : State) (die : Nat) (f : Tbl W64 → Tbl W64) : WalkOnly s (s.modDie die fun d => { d with walkCache := f d.walkCache }) := by
  refine ⟨rfl, fun k => ?_⟩
  rw [State.die_modDie]
  split
  · rename_i h; subst h; rfl
  · rfl

theorem walkCached_does (ctx v die : Nat) : ∀ (n : Nat) (s : State) (table : Nat), WalkOnly s (walkCached ctx v die s n table).1 ∧
    (∀ p, (walkCached ctx v die s n table).2 = some p → v / p.size = p.vbase / p.size) ∧
    (n ≤ 8 → (∀ l < n, Tbl.find (s.die die).walkCache (walkKey ctx v l) = none) → (walkCached ctx v die s n table).2 = walkFrom s ctx v n table) := by
  intro n
  induction n with
  | zero => intro s table; exact ⟨.refl s, nofun, fun _ _ => rfl⟩
  | succ l ih =>
    intro s table
    unfold walkCached
    split
    · rename_i hl
      subst hl
      exact ⟨.refl s, fun p hp => walkFrom_page hp, fun _ _ => rfl⟩
    · rename_i hl
      simp only
      have h1 := cachedEntry_only s die ctx v l (table + 8 * bits v (9 * l + 20) (9 * l + 12))
      have hread : Tbl.find (s.die die).walkCache (walkKey ctx v l) = none →
          s.cachedEntry die ctx v l (table + 8 * bits v (9 * l + 20) (9 * l + 12)) =
            (s, ofLE ((List.range 8).map fun i => s.homeByte ctx (.dev (table + 8 * bits v (9 * l + 20) (9 * l + 12) + i)))) := by
        intro h
        unfold State.cachedEntry
        simp only [h]
      have hfrom : ∀ x, ofLE ((List.range 8).map fun i => s.homeByte ctx (.dev (table + 8 * bits v (9 * l + 20) (9 * l + 12) + i))) = x →
          walkFrom s ctx v (l + 1) table = match entryOf v l x with
            | .bad => none
            | .leaf p => some p
            | .table a => walkFrom s ctx v l a := by
        intro x hx
        rw [← hx]
        conv => lhs; unfold walkFrom
        simp only [if_neg hl] <;> rfl
      generalize hr : s.cachedEntry die ctx v l (table + 8 * bits v (9 * l + 20) (9 * l + 12)) = r at *
      obtain ⟨s1, x⟩ := r
      simp only at h1 ⊢
      have h2 := h1.trans (keepEntry_only s1 die fun c => Tbl.put c (walkKey ctx v l) (BitVec.ofNat 64 x))
      cases he : entryOf v l x with
      | bad =>
        refine ⟨h1, nofun, fun _ hn => ?_⟩
        have := hread (hn l (Nat.lt_succ_self l))
        rw [hfrom x (congrArg Prod.snd this).symm, he]
      | leaf p =>
        refine ⟨h2, fun q hq => ?_, fun _ hn => ?_⟩
        · cases hq; exact entryOf_page he
        · have := hread (hn l (Nat.lt_succ_self l))
          rw [hfrom x (congrArg Prod.snd this).symm, he]
      | table a =>
        obtain ⟨i1, i2, i3⟩ := ih (s1.modDie die fun d => { d with walkCache := Tbl.put d.walkCache (walkKey ctx v l) (BitVec.ofNat 64 x) }) a
        refine ⟨h2.trans i1, i2, fun h8 hn => ?_⟩
        have hr' := hread (hn l (Nat.lt_succ_self l))
        have hs : s1 = s := congrArg Prod.fst hr'
        rw [hfrom x (congrArg Prod.snd hr').symm, he]
        simp only
        rw [← h2.walkFrom ctx v l a]
        refine i3 (by omega) fun m hm => ?_
        rw [State.die_modDie, if_pos rfl]
        show Tbl.find (Tbl.put _ _ _) _ = none
        rw [Tbl.find_put, if_neg, hs]
        · exact hn m (by omega)
        · unfold walkKey
          omega

/-- With nothing of the address in its walk cache a die walks the context's tables (R427, R429). -/
theorem walkOnDie_does (s : State) (die ctx va : Nat) : WalkOnly s (s.walkOnDie die ctx va).1 ∧
    (∀ p, (s.walkOnDie die ctx va).2 = some p → va % 2 ^ 57 / p.size = p.vbase / p.size) ∧
    ((s.die die).walkCache = [] → (s.walkOnDie die ctx va).2 = s.walk ctx va) := by
  obtain ⟨h1, h2, h3⟩ := walkCached_does ctx (va % 2 ^ 57) die 5 s (bits (s.ctx ctx).word0.toNat 63 12 * 4096)
  exact ⟨h1, h2, fun h => h3 (by decide) fun l _ => by rw [h]; rfl⟩

/-- The dies and the memories. -/
def State.homes (s : State) : Tbl Die × Tbl Byte × Tbl Byte := (s.dies, s.mem, s.hostMem)

theorem endWalk_homes (s : State) (wid fr : Nat) : (s.endWalk wid fr).homes = s.homes := by
  unfold State.endWalk
  split <;> rfl

theorem tlbFill_homes (s : State) (core ctx : Nat) (p : Page) : (s.tlbFill core ctx p).homes = s.homes := by
  unfold State.tlbFill State.fresh
  simp only
  split <;> rfl

theorem mem_dedup_of {α : Type} [DecidableEq α] {x : α} : ∀ {l : List α}, x ∈ l → x ∈ dedup l
  | y :: ys, h => by
    unfold dedup
    split
    · rename_i hy
      rcases List.mem_cons.1 h with rfl | h
      · exact mem_dedup_of (List.contains_iff_mem.1 hy)
      · exact mem_dedup_of h
    · rcases List.mem_cons.1 h with rfl | h
      · exact List.mem_cons_self
      · exact List.mem_cons_of_mem _ (mem_dedup_of h)

theorem walkNext_does {die : Nat} {s : State} {x : WalkReq} {rest : List WalkReq} (hw : (s.die die).walks = x :: rest) : ∃ t, s.walkNext die = some t ∧
    (t.die die).walks.length ≤ rest.length ∧ x ∉ (t.die die).walks ∧ SameMemory s t ∧
    (∀ p, (s.walkOnDie die x.ctx x.va).2 = some p → (t.die die).faults = (s.die die).faults) ∧
    ((s.walkOnDie die x.ctx x.va).2 = none → ∃ who, (t.die die).faults = (s.die die).faults ++
      [{ ctx := x.ctx, va := x.va, need := x.need, who := who }] ∧ .frag x.wid x.frag ∈ who) := by
  obtain ⟨ho, hpg, -⟩ := walkOnDie_does s die x.ctx x.va
  unfold State.walkNext
  rw [hw]
  simp only
  generalize hr : s.walkOnDie die x.ctx x.va = r at *
  obtain ⟨s0, page⟩ := r
  simp only at ho hpg ⊢
  have hd0 : (s0.die die).walks = x :: rest ∧ (s0.die die).faults = (s.die die).faults := by
    have h1 := congrArg Die.walks (ho.die die)
    have h2 := congrArg Die.faults (ho.die die)
    exact ⟨Eq.trans h1 hw, h2⟩
  have hmem : SameMemory s s0 := by
    have h1 := congrArg State.mem ho.rest
    have h2 := congrArg State.hostMem ho.rest
    exact ⟨fun a => congrArg (Memory.read · a) (Eq.trans (by rfl) h1), fun a => congrArg (Memory.read · a) (Eq.trans (by rfl) h2)⟩
  have hsame : ∀ same : WalkReq → Bool, same x = true → ((x :: rest).filter fun y => !same y).length ≤ rest.length ∧ x ∉ (x :: rest).filter fun y => !same y := by
    intro same h
    refine ⟨?_, ?_⟩
    · rw [List.filter_cons, h]
      exact List.length_filter_le _ _
    · rw [List.mem_filter, h]
      exact fun g => by cases g.2
  cases page with
  | some p =>
    simp only
    let same (y : WalkReq) : Bool := y.ctx == x.ctx && (y.va % 2 ^ 57 / p.size == p.vbase / p.size)
    have hx : same x = true := by
      simp only [same]
      simp only [beq_self_eq_true, Bool.true_and, beq_iff_eq]
      exact hpg p rfl
    obtain ⟨h1, h2⟩ := hsame same hx
    let s1 := s0.modDie die fun d => { d with walks := d.walks.filter fun y => !same y }
    have hh : ∀ (l : List WalkReq) (m : List Nat), (l.foldl (fun s y => State.endWalk s y.wid y.frag) (m.foldl (fun s c => State.tlbFill s c x.ctx p) s1)).homes = s1.homes :=
      fun l m => (keep_foldl State.homes (fun s y => endWalk_homes s _ _) l _).trans (keep_foldl State.homes (fun s c => tlbFill_homes s _ _ _) m _)
    have hfin : ∀ t : State, t.homes = s1.homes → (t.die die).walks.length ≤ rest.length ∧ x ∉ (t.die die).walks ∧ SameMemory s t ∧
        (∀ q, some p = some q → (t.die die).faults = (s.die die).faults) ∧ (some p = none → ∃ who, (t.die die).faults = (s.die die).faults ++
      [{ ctx := x.ctx, va := x.va, need := x.need, who := who }] ∧ .frag x.wid x.frag ∈ who) := by
      intro t ht
      have hdie : t.die die = { s0.die die with walks := (x :: rest).filter fun y => !same y } := by
        have : t.dies = s1.dies := congrArg Prod.fst ht
        unfold State.die
        rw [this]
        refine (State.die_modDie s0 die die _).trans ?_
        rw [if_pos rfl, hd0.1]
        rfl
      rw [hdie]
      refine ⟨h1, h2, ⟨fun a => ?_, fun a => ?_⟩, fun _ _ => hd0.2, nofun⟩
      · rw [show t.mem = s0.mem from congrArg (fun x => x.2.1) ht]; exact hmem.1 a
      · rw [show t.hostMem = s0.hostMem from congrArg (fun x => x.2.2) ht]; exact hmem.2 a
    exact ⟨_, rfl, hfin _ (hh _ _)⟩
  | none =>
    simp only
    let same (y : WalkReq) : Bool := y.ctx == x.ctx && (y.va % 2 ^ 57 / 2 ^ 16 == x.va % 2 ^ 57 / 2 ^ 16)
    have hx : same x = true := by simp only [same, beq_self_eq_true]; rfl
    obtain ⟨h1, h2⟩ := hsame same hx
    refine ⟨_, rfl, ?_⟩
    unfold State.postFault
    simp only [State.die_modDie, if_true, hd0.1]
    refine ⟨h1, h2, hmem, nofun, fun _ => ⟨_, congrArg (· ++ _) hd0.2, ?_⟩⟩
    refine mem_dedup_of (List.mem_map.2 ⟨x, List.mem_filter.2 ⟨List.mem_cons_self, hx⟩, rfl⟩)

theorem faultAnswer_eq {die idx : Nat} {s : State} {x : FaultRec} {retry : Bool} (hd : die < 4) (hx : (s.die die).faults[idx]? = some x)
    (hh : s.hartRuns die = true) : exec (.faultAnswer die idx retry) s = .next (x.who.foldl (fun s w => s.answerOne x.va retry w)
      (s.modDie die fun d => { d with faults := d.faults.eraseIdx idx })) := by
  change execFaultAnswer die idx retry s = _
  rw [execFaultAnswer, onDie, if_pos hd, State.answerFault, hx, hh]
  rfl

end Sys2Proof.Machine
end

