-- ==== Sys2Proof/Laws/Launch.lean ====
section
/-! SUPPORT. The launch front: what its events do to queues, gangs, blocks and waves. -/

namespace Sys2Proof.Machine

theorem State.launch_modLaunch (s : State) (k j : Nat) (f : Launch → Launch) :
    (s.modLaunch k f).launch j = if j = k then (s.launch k).map f else s.launch j := Tbl.find_upd _ _ _ _

theorem crewOffer_eq {s : State} {lid die : Nat} (hd : die < 4) {t : State} (h : s.offer lid die = some t) : exec (.crewOffer lid die) s = .next t := by
  change execCrewOffer lid die s = _
  rw [execCrewOffer, onDie, if_pos hd, h]
  rfl

theorem best_fold {α : Type} [DecidableEq α] (better : α → α → Bool) (x : α) : ∀ (xs : List α) (m : α), (m = x ∨ x ∈ xs) →
    (∀ y, (y = m ∨ y ∈ xs) → y ≠ x → better x y = true ∧ better y x = false) →
    xs.foldl (fun m y => if better y m then y else m) m = x := by
  intro xs
  induction xs with
  | nil => intro m h _; exact h.elim id nofun
  | cons y ys ih =>
    intro m h hb
    rw [List.foldl_cons]
    have hnext : ∀ m', (m' = m ∨ m' = y) → (m' = x ∨ x ∈ ys) → ys.foldl (fun m y => if better y m then y else m) m' = x := by
      intro m' h1 h2
      refine ih m' h2 fun z hz => hb z ?_
      rcases hz with rfl | hz
      · exact h1.elim .inl fun e => .inr (e ▸ List.mem_cons_self)
      · exact .inr (List.mem_cons_of_mem _ hz)
    by_cases hm : m = x
    · by_cases hy : y = x
      · exact hnext _ (by split; exact .inr rfl; exact .inl rfl) (.inl (by split; exact hy; exact hm))
      · have := (hb y (.inr List.mem_cons_self) hy).2
        rw [hm, this]
        exact hnext _ (.inl hm.symm) (.inl rfl)
    · by_cases hy : y = x
      · have := (hb m (.inl rfl) hm).1
        rw [hy, this]
        exact hnext _ (.inr hy.symm) (.inl rfl)
      · have hin : x ∈ ys := by
          rcases h with h | h
          · exact absurd h hm
          · exact (List.mem_cons.1 h).resolve_left fun e => hy e.symm
        exact hnext _ (by split; exact .inr rfl; exact .inl rfl) (.inr hin)

theorem Tbl.find_mem {β : Type} {t : Tbl β} {k : Nat} {x : β} (h : Tbl.find t k = some x) : (k, x) ∈ t := by
  induction t with
  | nil => cases h
  | cons p t ih =>
    obtain ⟨j, y⟩ := p
    unfold Tbl.find at h
    split at h
    · rename_i e
      cases h
      simp_all
    · exact List.mem_cons_of_mem _ (ih h)

theorem nextStart_eq {s : State} {sk : Nat} {x : LSlot} {prio at_ : Nat}
    (hx : Tbl.find s.slots sk = some x) (hw : x.waits = some (prio, at_))
    (hbest : ∀ k y p n, (k, y) ∈ s.slots → (k, y) ≠ (sk, x) → y.waits = some (p, n) → p < prio ∨ (p = prio ∧ at_ < n)) :
    s.nextStart = some sk := by
  unfold State.nextStart
  have hmem : (sk, prio, at_) ∈ s.slots.filterMap fun p => p.2.waits.map fun r => (p.1, r.1, r.2) :=
    List.mem_filterMap.2 ⟨(sk, x), Tbl.find_mem hx, by rw [hw]; rfl⟩
  have hall : ∀ y ∈ s.slots.filterMap (fun p => p.2.waits.map fun r => (p.1, r.1, r.2)), y ≠ (sk, prio, at_) →
      y.2.1 < prio ∨ (y.2.1 = prio ∧ at_ < y.2.2) := by
    intro y hy hne
    obtain ⟨⟨k, z⟩, hz, he⟩ := List.mem_filterMap.1 hy
    cases hzw : z.waits with
    | none => rw [hzw] at he; cases he
    | some r =>
      rw [hzw] at he
      cases he
      refine hbest k z r.1 r.2 hz (fun hk => hne ?_) hzw
      cases hk
      rw [hw] at hzw
      cases hzw
      rfl
  generalize (s.slots.filterMap fun p => p.2.waits.map fun r => (p.1, r.1, r.2)) = l at hmem hall
  cases l with
  | nil => cases hmem
  | cons a l =>
    have := best_fold (fun y m : Nat × Nat × Nat => decide (m.2.1 < y.2.1) || (y.2.1 == m.2.1 && decide (y.2.2 < m.2.2))) (sk, prio, at_) l a
      ((List.mem_cons.1 hmem).elim (fun h => .inl h.symm) .inr) (by
        intro y hy hne
        have := hall y (List.mem_cons.2 hy) hne
        simp only [Bool.or_eq_true, decide_eq_true_eq, Bool.and_eq_true, beq_iff_eq]
        refine ⟨?_, ?_⟩
        · rcases this with h | h
          · exact .inl h
          · exact .inr ⟨h.1.symm, h.2⟩
        · rw [← Bool.not_eq_true]
          simp only [Bool.or_eq_true, decide_eq_true_eq, Bool.and_eq_true, beq_iff_eq]
          omega)
    exact congrArg (fun z => some z.1) this

theorem freeLid_least (s : State) : ∀ i, 1 ≤ i → i < s.freeLid → (s.launch i).isSome = true := by
  intro i h1 h2
  unfold State.freeLid at h2
  cases h : ((List.range (s.launches.length + 1)).map (· + 1)).find? fun i => !Tbl.mem s.launches i with
  | none => rw [h] at h2; exact absurd h2 (by simp; omega)
  | some j =>
    rw [h, Option.getD_some] at h2
    obtain ⟨-, a, b, hl, hb⟩ := List.find?_eq_some_iff_append.1 h
    have hr : ∀ n (pre : List Nat) d, (List.range n).map (· + 1) = pre ++ j :: d → ∀ i, 1 ≤ i → i < j → i ∈ pre := by
      intro n pre d e i hi hj
      have hlen : pre.length < n := by
        have := congrArg List.length e
        simp at this
        omega
      have hj' : j = pre.length + 1 := by
        have := congrArg (fun l => l[pre.length]?) e
        simp [List.getElem?_range hlen] at this
        exact this.symm
      have hg : pre[i - 1]? = some i := by
        have := congrArg (fun l => l[i - 1]?) e
        rw [List.getElem?_append_left (by omega)] at this
        rw [← this, List.getElem?_map, List.getElem?_range (by omega)]
        simp; omega
      exact List.mem_of_getElem? hg
    have := hb i (hr _ a b hl i h1 h2)
    rw [Bool.not_not] at this
    exact this

theorem begin_launch (s : State) (sk lid : Nat) (words : List W64) (kills : Nat) : ∃ l, (s.begin sk lid words kills).launch lid = some l ∧
    l.sk = sk ∧ l.ctx = ctxOfSlot sk ∧ l.words = words ∧ l.offered = 0 ∧ l.killReq = none ∧
    (s.begin sk lid words kills).slots = s.slots ∧ (s.begin sk lid words kills).waves = s.waves ∧
    ∀ k, k ≠ lid → (s.begin sk lid words kills).launch k = s.launch k := by
  unfold State.begin
  simp only
  split
  · exact ⟨_, (Tbl.find_put _ _ _ _).trans (if_pos rfl), rfl, rfl, rfl, rfl, rfl, rfl, rfl, fun k hk => (Tbl.find_put _ _ _ _).trans (if_neg hk)⟩
  · exact ⟨_, (Tbl.find_put _ _ _ _).trans (if_pos rfl), rfl, rfl, rfl, rfl, rfl, rfl, rfl, fun k hk => (Tbl.find_put _ _ _ _).trans (if_neg hk)⟩

theorem acceptRec_does (s : State) (r : BindRec) : ((s.acceptRec r).core r.core).slotRefused = false ∧
    (∃ g ∈ (s.acceptRec r).gangs, g.core = r.core ∧ g.bslot = r.bslot ∧ g.glast = r.glast ∧ r ∈ g.recs) ∧
    { s.acceptRec r with gangs := s.gangs, cores := s.cores } = s := by
  have hc : ((s.modCore r.core fun c => { c with slotRefused := false }).core r.core).slotRefused = false := by
    rw [State.core_modCore, if_pos rfl]
  unfold State.acceptRec
  simp only
  split
  · rename_i h
    refine ⟨hc, ?_, rfl⟩
    obtain ⟨g, hg, he⟩ := List.any_eq_true.1 h
    have he' := he
    rw [Bool.and_eq_true, beq_iff_eq, beq_iff_eq] at he'
    refine ⟨{ g with glast := r.glast, recs := g.recs ++ [r] }, List.mem_map.2 ⟨g, hg, ?_⟩, he'.1, he'.2, rfl, List.mem_append_right _ (List.mem_singleton.2 rfl)⟩
    rw [if_pos he]
  · exact ⟨hc, ⟨_, List.mem_append_right _ (List.mem_singleton.2 rfl), rfl, rfl, rfl, List.mem_singleton.2 rfl⟩, rfl⟩

theorem State.core_notice (s : State) (n : W64) (k : Nat) : (s.notice n).core k = s.core k := rfl
theorem State.die_notice (s : State) (n : W64) (k : Nat) : (s.notice n).die k = s.die k := rfl
theorem State.die_modCore (s : State) (c : Nat) (f : Core → Core) (k : Nat) : (s.modCore c f).die k = s.die k := rfl

theorem clearBusy_rest (s : State) (k : Nat) : { s.clearBusy k with cores := s.cores } = s := rfl

/-- What a fold of cleared slots leaves: all but the cores, of which SLOTREFUSED stays. -/
theorem clearBusies_rest {α : Type} (f : α → Nat) (l : List α) (s : State) :
    { l.foldl (fun s x => s.clearBusy (f x)) s with cores := s.cores } = s := by
  induction l generalizing s with
  | nil => rfl
  | cons x l ih =>
    rw [List.foldl_cons]
    exact (congrArg (fun t : State => { t with cores := s.cores }) (ih (s.clearBusy (f x)))).trans rfl

theorem refuseRec_does (s : State) (r : BindRec) (cause : Nat) : ((s.refuseRec r cause).core r.core).slotRefused = true ∧
    ((s.refuseRec r cause).die (dieOfCore r.core)).hartFrozen = true ∧
    (s.refuseRec r cause).sec.mailbox = s.sec.mailbox ++ [freezeNotice 3 cause 0xFF (dieOfCore r.core * 2 ^ 14) 0] ∧
    (s.refuseRec r cause).waves = s.waves ∧ (s.refuseRec r cause).blocks = s.blocks ∧
    ∀ g ∈ (s.refuseRec r cause).gangs, g ∈ s.gangs ∧ ¬(g.core = r.core ∧ g.lid = r.lid ∧ g.blocklin = r.blocklin ∧ g.shadow = r.shadow) ∧
      (s.isTwin r.lid = true → ¬(g.lid = r.lid ∧ g.blocklin = r.blocklin)) := by
  unfold State.refuseRec
  simp only
  generalize hlost : s.gangs.filter (s.sameBlock r) = lost
  have h := clearBusies_rest (fun g : Gang => blockKey g.core g.bslot) lost { s with gangs := s.gangs.filter fun g => !lost.contains g }
  generalize lost.foldl _ _ = u at h ⊢
  have h : (u.sec, u.waves, u.blocks, u.gangs) = (s.sec, s.waves, s.blocks, s.gangs.filter fun g => !lost.contains g) :=
    congrArg (fun x : State => (x.sec, x.waves, x.blocks, x.gangs)) h
  simp only [Prod.mk.injEq] at h
  refine ⟨?_, ?_, ?_, ?_, ?_, ?_⟩
  · rw [State.core_notice, State.core_modCore, if_pos rfl]
  · rw [State.die_notice, State.die_modCore, State.die_modDie, if_pos rfl]
  · show u.sec.mailbox ++ _ = _
    rw [h.1]
  · exact h.2.1
  · exact h.2.2.1
  · intro g hg
    have hg : g ∈ u.gangs := hg
    rw [h.2.2.2, List.mem_filter] at hg
    have hn : s.sameBlock r g = false := by
      rw [Bool.eq_false_iff]
      intro hs
      have : g ∈ lost := by rw [← hlost]; exact List.mem_filter.2 ⟨hg.1, hs⟩
      simp [this] at hg
    refine ⟨hg.1, fun ⟨a, b, c, d⟩ => ?_, fun ht ⟨a, b⟩ => ?_⟩
    · simp [State.sameBlock, a, b, c, d] at hn
    · simp [State.sameBlock, a, b, ht] at hn

theorem retire_launches (s : State) (sk : Nat) (f : Bool) : (s.retire sk f).launches = s.launches := rfl

theorem retire_slot (s : State) (sk : Nat) (f : Bool) : Tbl.find (s.retire sk f).slots sk = none :=
  (Tbl.find_del s.slots sk sk).trans (if_pos rfl)

theorem completeLaunch_gone (s : State) (lid : Nat) (l : Launch) :
    (s.completeLaunch lid l).launch lid = none ∧ Tbl.find (s.completeLaunch lid l).slots l.sk = none := by
  unfold State.completeLaunch
  simp only
  exact ⟨(Tbl.find_del _ lid lid).trans (if_pos rfl), retire_slot _ _ _⟩

theorem walkFrom_modCore (s : State) (k : Nat) (f : Core → Core) (ctx v : Nat) : ∀ n t, walkFrom (s.modCore k f) ctx v n t = walkFrom s ctx v n t
  | 0, _ => rfl
  | n + 1, t => by
    unfold walkFrom
    simp only [walkFrom_modCore s k f ctx v n]
    rfl

theorem areaOk_modCore (s : State) (k : Nat) (f : Core → Core) (ctx area units : Nat) : (s.modCore k f).areaOk ctx area units = s.areaOk ctx area units := by
  have : ∀ a, (s.modCore k f).resolveNow ctx a .write = s.resolveNow ctx a .write := by
    intro a
    unfold State.resolveNow State.walk
    rw [walkFrom_modCore]
    rfl
  unfold State.areaOk
  simp only [this]

theorem State.block_modBlock (s : State) (k j : Nat) (f : Block → Block) :
    (s.modBlock k f).block j = if j = k then (s.block k).map f else s.block j := Tbl.find_upd _ _ _ _

/-- What stopping a crew leaves: blocks stop and none starts again, BUSY bits are only set, the waves stand. -/
theorem stopCrew_does (s : State) (lid crew : Nat) : (s.stopCrew lid crew).waves = s.waves ∧
    (∀ c n, (s.core c).prBusy.getLsbD n = true → ((s.stopCrew lid crew).core c).prBusy.getLsbD n = true) ∧
    ∀ k u, (s.stopCrew lid crew).block k = some u → u.lid = lid → u.crew = crew → u.stopping = true := by
  unfold State.stopCrew
  have main : ∀ (l : List (Nat × Block)) (t : State),
      let r := l.foldl (fun s b => (s.modBlock b.1 fun b => { b with stopping := true }).modCore (b.1 / 8) fun c => { c with prBusy := c.prBusy ||| (1#8 <<< (b.1 % 8)) }) t
      r.waves = t.waves ∧ (∀ c n, (t.core c).prBusy.getLsbD n = true → (r.core c).prBusy.getLsbD n = true) ∧
      ∀ k u, r.block k = some u → ∃ v, t.block k = some v ∧ u.lid = v.lid ∧ u.crew = v.crew ∧ (v.stopping = true → u.stopping = true) ∧
        (k ∈ l.map (·.1) → u.stopping = true) := by
    intro l
    induction l with
    | nil => exact fun t => ⟨rfl, fun _ _ h => h, fun k u h => ⟨u, h, rfl, rfl, id, nofun⟩⟩
    | cons b l ih =>
      intro t r
      obtain ⟨h1, h2, h3⟩ := ih ((t.modBlock b.1 fun b => { b with stopping := true }).modCore (b.1 / 8) fun c => { c with prBusy := c.prBusy ||| (1#8 <<< (b.1 % 8)) })
      refine ⟨h1, fun c n h => h2 c n ?_, fun k u h => ?_⟩
      · rw [State.core_modCore]
        split
        · rename_i e
          subst e
          change (((t.core _).prBusy ||| _).getLsbD n) = true
          rw [BitVec.getLsbD_or, h]; rfl
        · exact h
      · obtain ⟨v, a, b1, c, d, e⟩ := h3 k u h
        have a' : (t.modBlock b.1 fun b => { b with stopping := true }).block k = some v := a
        rw [State.block_modBlock] at a'
        by_cases hk : k = b.1
        · rw [if_pos hk] at a'
          cases hb : t.block b.1 with
          | none => rw [hb] at a'; cases a'
          | some w =>
            rw [hb] at a'
            cases a'
            exact ⟨w, hk ▸ hb, b1, c, fun _ => d rfl, fun _ => d rfl⟩
        · rw [if_neg hk] at a'
          exact ⟨v, a', b1, c, d, fun h => e ((List.mem_cons.1 h).resolve_left hk)⟩
  obtain ⟨h1, h2, h3⟩ := main (s.blocks.filter fun b => b.2.lid == lid && b.2.crew == crew) s
  refine ⟨h1, h2, fun k u h hl hc => ?_⟩
  obtain ⟨v, a, b, c, d, e⟩ := h3 k u h
  refine e (List.mem_map.2 ⟨(k, v), List.mem_filter.2 ⟨Tbl.find_mem a, ?_⟩, rfl⟩)
  rw [Bool.and_eq_true, beq_iff_eq, beq_iff_eq]
  exact ⟨b ▸ hl, c ▸ hc⟩

theorem writeImage_noWave (s : State) (lid crew ctx area : Nat) : NoWave s (s.writeImage lid crew ctx area) := by
  unfold State.writeImage State.fresh
  simp only
  refine NoWave.trans ?_ (by apply NoWave.foldl; intro _ _; exact ⟨rfl, rfl⟩)
  exact NoWave.trans (t := { s with free := s.free + 1 }) ⟨rfl, rfl⟩ (writeDev_noWave _ _ _ _ _)

theorem keep_mem {β : Type} {t : Tbl β} {p : Nat → β → Bool} {x : Nat × β} : x ∈ Tbl.keep p t ↔ x ∈ t ∧ p x.1 x.2 = true := by
  induction t with
  | nil => exact ⟨nofun, fun h => nomatch h.1⟩
  | cons a t ih =>
    unfold Tbl.keep
    split
    · rename_i h
      rw [List.mem_cons, List.mem_cons, ih]
      constructor
      · rintro (rfl | h')
        · exact ⟨.inl rfl, h⟩
        · exact ⟨.inr h'.1, h'.2⟩
      · rintro ⟨rfl | h', hp⟩
        · exact .inl rfl
        · exact .inr ⟨h', hp⟩
    · rename_i h
      rw [List.mem_cons, ih]
      constructor
      · exact fun h' => ⟨.inr h'.1, h'.2⟩
      · rintro ⟨rfl | h', hp⟩
        · exact absurd hp h
        · exact ⟨h', hp⟩

/-- What a saved crew leaves behind. -/
theorem saveCrew_does (s : State) (lid crew : Nat) (c : Crew) : (s.saveCrew lid crew c).crew (crewKey lid crew) = none ∧
    (Tbl.find (s.saveCrew lid crew c).saves (crewKey lid crew)).isSome = true ∧
    (∀ p ∈ (s.saveCrew lid crew c).waves, ¬(p.2.lid = lid ∧ p.2.crew = crew)) ∧
    (∀ p ∈ (s.saveCrew lid crew c).blocks, ¬(p.2.lid = lid ∧ p.2.crew = crew)) ∧
    ∀ l, s.launch lid = some l → ∃ l', (s.saveCrew lid crew c).launch lid = some l' ∧
      (∀ x, x ∈ l'.returned ↔ x ∈ l.returned ∨ x = crew) ∧ l'.returned.Pairwise (· ≤ ·) := by
  unfold State.saveCrew
  simp only
  have hw := writeImage_noWave s lid crew c.ctx (s.areaOf lid crew)
  generalize s.writeImage lid crew c.ctx _ = t at hw ⊢
  have hd : NoWave { t with waves := Tbl.keep (fun k _ => !((s.waves.filter fun w => w.2.lid == lid && w.2.crew == crew).any fun w => w.1 == k)) t.waves }
      (t.dropWaves fun k => (s.waves.filter fun w => w.2.lid == lid && w.2.crew == crew).any fun w => w.1 == k) := ⟨rfl, rfl⟩
  generalize t.dropWaves _ = u at hd ⊢
  have hf : NoWave u ((s.blocks.filter fun b => b.2.lid == lid && b.2.crew == crew).foldl (fun s b =>
    s.modCore (b.1 / 8) fun c => { c with prBusy := c.prBusy &&& ~~~(1#8 <<< (b.1 % 8)), prDone := c.prDone ||| (1#8 <<< (b.1 % 8)),
                                          saveArea := Tbl.del c.saveArea (b.1 % 8) }) u) := by apply NoWave.foldl; intro _ _; exact ⟨rfl, rfl⟩
  generalize (s.blocks.filter fun b => b.2.lid == lid && b.2.crew == crew).foldl _ u = v at hf ⊢
  refine ⟨?_, ?_, ?_, ?_, ?_⟩
  · exact (Tbl.find_del _ _ _).trans (if_pos rfl)
  · exact congrArg Option.isSome ((Tbl.find_put _ _ _ _).trans (if_pos rfl))
  · intro p hp hpl
    have hp : p ∈ v.waves := hp
    rw [hf.waves, hd.waves] at hp
    obtain ⟨a, b⟩ := keep_mem.1 hp
    rw [hw.waves] at a
    rw [Bool.not_eq_true', ← Bool.not_eq_true] at b
    refine b (List.any_eq_true.2 ⟨p, List.mem_filter.2 ⟨a, ?_⟩, beq_self_eq_true _⟩)
    rw [hpl.1, hpl.2]
    simp
  · intro p hp hpl
    have hp : p ∈ Tbl.keep (fun _ b => !(b.lid == lid && b.crew == crew)) v.blocks := hp
    obtain ⟨-, b⟩ := keep_mem.1 hp
    rw [hpl.1, hpl.2] at b
    simp at b
  · intro l hl
    have hv : v.launch lid = some l := by
      unfold State.launch at hl ⊢
      rw [hf.launches, hd.launches]
      change Tbl.find t.launches lid = some l
      rw [hw.launches]
      exact hl
    refine ⟨{ l with returned := sortBy (fun a b => decide (a < b)) (l.returned ++ [crew]) }, ?_, fun x => ?_, sortBy_ascending _⟩
    case refine_2 => rw [mem_sortBy, List.mem_append, List.mem_singleton]
    change (State.modLaunch _ lid _).launch lid = _
    rw [State.launch_modLaunch, if_pos rfl]
    change (v.launch lid).map _ = _
    rw [hv]
    rfl

theorem mem_mapv {β : Type} {t : Tbl β} {f : Nat → β → β} {x : Nat × β} (h : x ∈ Tbl.mapv f t) : ∃ y, (x.1, y) ∈ t ∧ x.2 = f x.1 y := by
  induction t with
  | nil => cases h
  | cons a t ih =>
    rcases List.mem_cons.1 h with rfl | h
    · exact ⟨a.2, List.mem_cons_self, rfl⟩
    · obtain ⟨y, h1, h2⟩ := ih h
      exact ⟨y, List.mem_cons_of_mem _ h1, h2⟩

theorem retire_waves (s : State) (sk : Nat) (f : Bool) : (s.retire sk f).waves = s.waves := rfl

theorem cascade_waves : ∀ (n : Nat) (s : State) (l : List Nat), (State.cascade n s l).waves = s.waves
  | 0, _, _ => rfl
  | n + 1, s, l => by
    rw [State.cascade]
    apply keep_foldl State.waves
    intro s x
    have hc := cascade_waves n ((s.postEvent (ctxOfSlot x) (launchEvent 2 x 8 0) 0).retire x true) (s.dependents x)
    have hp : ((s.postEvent (ctxOfSlot x) (launchEvent 2 x 8 0) 0).retire x true).waves = s.waves :=
      (retire_waves _ _ _).trans (postEvent_noWave s (ctxOfSlot x) (launchEvent 2 x 8 0) 0).waves
    rw [hp] at hc
    cases hs : s.slotLive x with
    | false => simp only [hs]; rfl
    | true => simp only [hs]; exact hc

theorem failSlot_waves (s : State) (sk : Nat) : (s.failSlot sk).waves = s.waves := by
  unfold State.failSlot
  exact (cascade_waves _ _ _).trans rfl

theorem undoLaunch_waves (s : State) (lid : Nat) : (s.undoLaunch lid).waves = s.waves := by
  unfold State.undoLaunch
  simp only
  refine (keep_foldl State.waves (g := fun s (g : Nat × Granule) => s.restoreGranule g.1 g.2) (fun _ _ => rfl) _ _).trans ?_
  apply keep_foldl State.waves
  intro s c
  apply keep_foldl State.waves
  intro s u
  exact (HomeOnly.noWave (sendU_home _ _ _)).waves

theorem dropLaunch_waves (s : State) (lid : Nat) : (s.dropLaunch lid).waves = s.waves := rfl

theorem clearLaunch_waves (s : State) (lid : Nat) : ∀ p ∈ (s.clearLaunch lid).waves, p.2.lid ≠ lid := by
  have : (s.clearLaunch lid).waves = Tbl.keep (fun k _ => !((s.waves.filter fun w => w.2.lid == lid).map (·.1)).contains k) s.waves := by
    unfold State.clearLaunch
    simp only
    refine (keep_foldl State.waves (g := fun s (c : Nat × Crew) => s.dropCrewCopies c.1) (fun _ _ => rfl) _ _).trans ?_
    exact keep_foldl State.waves (g := fun s k => s.modCore (k / 8) fun c =>
      { c with prBusy := c.prBusy &&& ~~~(1#8 <<< (k % 8)), saveArea := Tbl.del c.saveArea (k % 8) }) (fun _ _ => rfl) _ _
  intro p hp hl
  rw [this] at hp
  obtain ⟨a, b⟩ := keep_mem.1 hp
  rw [Bool.not_eq_true', ← Bool.not_eq_true] at b
  exact b (List.contains_iff_mem.2 (List.mem_map.2 ⟨p, List.mem_filter.2 ⟨a, by rw [hl]; exact beq_self_eq_true _⟩, rfl⟩))

theorem finishKill_waves (s : State) (lid : Nat) (l : Launch) : ∀ p ∈ (s.finishKill lid l).waves, p.2.lid ≠ lid := by
  have h : (s.finishKill lid l).waves = (s.clearLaunch lid).waves := by
    unfold State.finishKill
    simp only
    have h1 : ∀ b : Bool, (if b = true then (s.clearLaunch lid).undoLaunch lid else (s.clearLaunch lid).releaseWhere fun h => h.lid == lid).waves = (s.clearLaunch lid).waves := by
      intro b
      split
      · exact undoLaunch_waves _ _
      · exact (releaseWhere_noWave _ _).waves
    split
    · obtain ⟨_, _, _, _, _, _, _, _, h8, _⟩ := begin_launch ((if s.isReplay lid = true then (s.clearLaunch lid).undoLaunch lid else (s.clearLaunch lid).releaseWhere fun h => h.lid == lid).dropLaunch lid) l.sk lid l.words (l.kills + 1)
      exact h8.trans (h1 _)
    · exact (failSlot_waves _ _).trans (((postEvent_noWave _ _ _ _).waves).trans (h1 _))
  rw [h]
  exact clearLaunch_waves s lid

theorem stopLaunch_does (s : State) (lid : Nat) {l : Launch} (hl : s.launch lid = some l) (hk : l.killReq = none) :
    (∀ p ∈ (s.stopLaunch lid).waves, p.2.lid = lid → p.2.frozen.isSome = true) ∧
    ∃ l', (s.stopLaunch lid).launch lid = some l' ∧ l'.killReq = some 0 := by
  unfold State.stopLaunch
  simp only
  refine ⟨fun p hp hpl => ?_, { l with killReq := some 0 }, ?_, rfl⟩
  · obtain ⟨y, -, h2⟩ := mem_mapv hp
    rw [h2] at hpl ⊢
    by_cases h : y.lid = lid
    · rw [if_pos h]; rfl
    · rw [if_neg h] at hpl
      exact absurd hpl h
  · unfold State.askKill
    rw [State.launch_modLaunch, if_pos rfl]
    change (s.launch lid).map _ = _
    rw [hl]
    change some { l with killReq := some (l.killReq.getD 0) } = _
    rw [hk]
    rfl

theorem State.particle_modParticle (s : State) (k j : Nat) (f : Particle → Particle) :
    (s.modParticle k f).particle j = if j = k then f (s.particle k) else s.particle j := Tbl.get_set _ _ _ _ _
theorem State.pop_modPop (s : State) (k j : Nat) (f : Pop → Pop) :
    (s.modPop k f).pop j = if j = k then f (s.pop k) else s.pop j := Tbl.get_set _ _ _ _ _

theorem State.pop_modLaunch (s : State) (k j : Nat) (f : Launch → Launch) : (s.modLaunch k f).pop j = s.pop j := rfl

theorem bindParticles (keys : List Nat) : ∀ (n : Nat) (s : State),
    let t := (keys.zipIdx n).foldl (fun s p => s.modParticle p.1 fun x => { x with st := 2, index := p.2 }) s
    (∀ i k, keys[i]? = some k → (∀ j, i < j → keys[j]? ≠ some k) → t.particle k = { s.particle k with st := 2, index := n + i }) ∧
    (∀ k, k ∉ keys → t.particle k = s.particle k) ∧ t.pops = s.pops ∧ t.launches = s.launches := by
  induction keys with
  | nil => exact fun n s => ⟨fun i k h => (by cases h), fun k _ => rfl, rfl, rfl⟩
  | cons a keys ih =>
    intro n s t
    obtain ⟨h1, h2, h3, h4⟩ := ih (n + 1) (s.modParticle a fun x => { x with st := 2, index := n })
    refine ⟨fun i k hk hlast => ?_, fun k hk => ?_, h3, h4⟩
    · cases i with
      | zero =>
        cases hk
        refine (h2 a fun hm => ?_).trans ((State.particle_modParticle _ _ _ _).trans (if_pos rfl))
        obtain ⟨j, hj⟩ := List.getElem?_of_mem hm
        exact hlast (j + 1) (by omega) hj
      | succ i =>
        have hk : keys[i]? = some k := hk
        have := h1 i k hk fun j hj => hlast (j + 1) (by omega)
        rw [State.particle_modParticle] at this
        have he : ∀ x : Particle, ({ x with st := 2, index := n + 1 + i } : Particle) = { x with st := 2, index := n + (i + 1) } := by
          intro x; rw [show n + 1 + i = n + (i + 1) by omega]
        rw [he] at this
        refine this.trans ?_
        split
        · rename_i h; subst h; rfl
        · rfl
    · have hne : k ≠ a := fun e => hk (by rw [e]; exact List.mem_cons_self)
      exact (h2 k fun h => hk (List.mem_cons_of_mem _ h)).trans ((State.particle_modParticle _ _ _ _).trans (if_neg hne))

theorem State.launch_modRound (s : State) (lid : Nat) (f : RoundState → RoundState) {l : Launch} (h : s.launch lid = some l) :
    (s.modRound lid f).launch lid = some { l with round := l.round.map f } := by
  unfold State.modRound
  rw [State.launch_modLaunch, if_pos rfl, h]
  rfl

theorem checkRound_short {s : State} {lid : Nat} {l : Launch} {r : RoundState} (hl : s.launch lid = some l) (hr : l.round = some r)
    (h : r.arrived.length < if r.quorum then min r.q (s.pop r.pop).count else (s.pop r.pop).count) : s.checkRound lid = s := by
  unfold State.checkRound
  simp only [hl, hr]
  rw [if_neg]
  simp only [Bool.and_eq_true, decide_eq_true_eq]
  intro g
  omega

theorem putAll {α β : Type} (key : α → Nat) (val : α → β) (l : List α) : ∀ t : Tbl β,
    (∀ k, Tbl.find (l.foldl (fun t a => Tbl.put t (key a) (val a)) t) k = Tbl.find t k ∨
      ∃ a ∈ l, key a = k ∧ Tbl.find (l.foldl (fun t a => Tbl.put t (key a) (val a)) t) k = some (val a)) ∧
    ∀ a ∈ l, ∃ b ∈ l, key b = key a ∧ Tbl.find (l.foldl (fun t a => Tbl.put t (key a) (val a)) t) (key a) = some (val b) := by
  induction l with
  | nil => exact fun t => ⟨fun k => .inl rfl, nofun⟩
  | cons a l ih =>
    intro t
    rw [List.foldl_cons]
    obtain ⟨h1, h2⟩ := ih (Tbl.put t (key a) (val a))
    refine ⟨fun k => ?_, fun b hb => ?_⟩
    · rcases h1 k with h | ⟨b, hb, hk, h⟩
      · rw [Tbl.find_put] at h
        by_cases e : k = key a
        · rw [if_pos e] at h
          exact .inr ⟨a, List.mem_cons_self, e.symm, h⟩
        · rw [if_neg e] at h
          exact .inl h
      · exact .inr ⟨b, List.mem_cons_of_mem _ hb, hk, h⟩
    · rcases List.mem_cons.1 hb with rfl | hb
      · rcases h1 (key b) with h | ⟨c, hc, hk, h⟩
        · rw [Tbl.find_put, if_pos rfl] at h
          exact ⟨b, List.mem_cons_self, rfl, h⟩
        · exact ⟨c, List.mem_cons_of_mem _ hc, hk, h⟩
      · obtain ⟨c, hc, hk, h⟩ := h2 b hb
        exact ⟨c, List.mem_cons_of_mem _ hc, hk, h⟩

/-- The records of role waves of some gangs, each with its gang. -/
def roleRecs (gs : List Gang) : List (Gang × BindRec) := gs.flatMap fun g => (g.recs.filter fun r => r.role != 4).map fun r => (g, r)

theorem bindFresh_waves (l : Launch) (crew nblocks round : Nat) (g : Gang) (s : State) : (s.bindFresh l crew nblocks round g).waves =
    (roleRecs [g]).foldl (fun t x => Tbl.put t (32 * x.1.core + x.2.slot) (x.1.wave l crew x.2)) s.waves := by
  unfold State.bindFresh roleRecs
  simp only [List.flatMap_cons, List.flatMap_nil, List.append_nil, List.foldl_map]
  exact (List.foldl_hom State.waves (fun _ _ => rfl)).symm

theorem bindAll_waves (l : Launch) (crew nblocks round : Nat) (gs : List Gang) : ∀ s : State,
    (gs.foldl (fun s g => s.bindFresh l crew nblocks round g) s).waves =
    (roleRecs gs).foldl (fun t x => Tbl.put t (32 * x.1.core + x.2.slot) (x.1.wave l crew x.2)) s.waves := by
  induction gs with
  | nil => exact fun _ => rfl
  | cons g gs ih =>
    intro s
    rw [List.foldl_cons, ih, bindFresh_waves]
    have : roleRecs (g :: gs) = roleRecs [g] ++ roleRecs gs := by simp [roleRecs]
    rw [this, List.foldl_append]

theorem bindFresh_blocks (l : Launch) (crew nblocks round : Nat) (g : Gang) (s : State) : ∃ lent, (s.bindFresh l crew nblocks round g).blocks =
    Tbl.put s.blocks (blockKey g.core g.bslot) (g.block l crew nblocks round lent) := by
  unfold State.bindFresh
  simp only
  refine ⟨_, keep_foldl State.blocks ?_ _ _⟩
  intro _ _; rfl

/-- Every gang's block stands in its slot, as some gang of that slot has it. -/
theorem bindAll_blocks (l : Launch) (crew nblocks round : Nat) (gs : List Gang) : ∀ s : State,
    let t := gs.foldl (fun s g => s.bindFresh l crew nblocks round g) s
    (∀ k, (∀ g ∈ gs, blockKey g.core g.bslot ≠ k) → t.block k = s.block k) ∧
    ∀ g ∈ gs, ∃ g' ∈ gs, ∃ lent, t.block (blockKey g.core g.bslot) = some (g'.block l crew nblocks round lent) := by
  induction gs with
  | nil => exact fun s => ⟨fun _ _ => rfl, nofun⟩
  | cons a gs ih =>
    intro s
    simp only [List.foldl_cons]
    obtain ⟨lent, hb⟩ := bindFresh_blocks l crew nblocks round a s
    obtain ⟨h1, h2⟩ := ih (s.bindFresh l crew nblocks round a)
    have ha : ∀ k, (s.bindFresh l crew nblocks round a).block k =
        if k = blockKey a.core a.bslot then some (a.block l crew nblocks round lent) else s.block k := fun k => by
      unfold State.block
      rw [hb, Tbl.find_put]
    refine ⟨fun k hk => ?_, fun g hg => ?_⟩
    · rw [h1 k fun g hg => hk g (List.mem_cons_of_mem _ hg), ha, if_neg fun e => hk a List.mem_cons_self e.symm]
    · by_cases hin : ∃ b ∈ gs, blockKey b.core b.bslot = blockKey g.core g.bslot
      · obtain ⟨b, hbm, hbk⟩ := hin
        obtain ⟨g', hg', lent', h⟩ := h2 b hbm
        exact ⟨g', List.mem_cons_of_mem _ hg', lent', by rw [← hbk]; exact h⟩
      · have : g = a := by
          rcases List.mem_cons.1 hg with rfl | hg
          · rfl
          · exact absurd ⟨g, hg, rfl⟩ hin
        subst this
        refine ⟨g, List.mem_cons_self, lent, ?_⟩
        rw [h1 _ fun b hb e => hin ⟨b, hb, e⟩, ha, if_pos rfl]

/-- What binding and the clearing of slots leave alone. -/
def State.offSlots (s : State) : Tbl Crew × List Gang × Tbl Byte × Tbl Byte := (s.crews, s.gangs, s.mem, s.hostMem)

theorem bindAll_offSlots (l : Launch) (crew nblocks round : Nat) (gs : List Gang) (s : State) :
    (gs.foldl (fun s g => s.bindFresh l crew nblocks round g) s).offSlots = s.offSlots := by
  apply keep_foldl State.offSlots
  intro s g
  unfold State.bindFresh
  simp only
  apply keep_foldl State.offSlots
  intro _ _; rfl

theorem settleSlots_does (s : State) (gs : List Gang) : (s.settleSlots gs).offSlots = s.offSlots ∧ (s.settleSlots gs).waves = s.waves ∧
    ∀ k b, s.block k = some b → ∃ x, (s.settleSlots gs).block k = some { b with stopping := x } := by
  unfold State.settleSlots
  simp only
  generalize (gs.any fun g => (s.core g.core).prBusy.getLsbD g.bslot) = busy
  refine ⟨?_, ?_, ?_⟩
  · apply keep_foldl State.offSlots
    intro _ _; rfl
  · apply keep_foldl State.waves
    intro _ _; rfl
  have : ∀ (l : List Gang) (t : State) (k : Nat) (b : Block) (x : Bool), t.block k = some { b with stopping := x } → ∃ x,
      (l.foldl (fun (s : State) (g : Gang) => (s.modCore g.core fun c => { c with
        prDone := c.prDone &&& ~~~(1#8 <<< g.bslot), prRefused := c.prRefused &&& ~~~(1#8 <<< g.bslot),
        prBusy := if busy then c.prBusy ||| (1#8 <<< g.bslot) else c.prBusy }).modBlock (blockKey g.core g.bslot) fun b =>
          { b with stopping := busy }) t).block k = some { b with stopping := x } := by
    intro l
    induction l with
    | nil => exact fun t k b x h => ⟨x, h⟩
    | cons g l ih =>
      intro t k b x h
      rw [List.foldl_cons]
      by_cases e : k = blockKey g.core g.bslot
      · refine ih _ k b busy ?_
        rw [State.block_modBlock, if_pos e]
        refine (congrArg (Option.map _) (e ▸ h)).trans rfl
      · refine ih _ k b x ?_
        rw [State.block_modBlock, if_neg e]
        exact h
  intro k b h
  exact this gs s k b b.stopping h

theorem lendWays_home (s : State) (core n : Nat) : HomeOnly s (s.lendWays core n) := HomeOnly.foldl _ (fun _ _ => evictSb_home _ _ _) _ _
theorem lendWays_quiet (s : State) (core n : Nat) : Quiet s (s.lendWays core n) := Quiet.foldl _ (fun _ _ => evictSb_quiet _ _ _) _ _

/-- A crew whose gangs have all their records, and whose lent ways can be cleared, starts: its update-only lines in those ways go home. -/
theorem gangStart_does {s : State} {lid crew : Nat} {l : Launch} {g0 : Gang} {gs : List Gang} (hl : s.launch lid = some l)
    (hgs : s.gangs.filter (fun g => g.lid == lid && s.gangCrew g == crew && g.glast) = g0 :: gs)
    (hready : s.gangReady lid crew l (g0 :: gs) g0.core = true) (hres : g0.resume = false) (htw : flagOf l.words 46 = false)
    (hlend : ∀ g ∈ g0 :: gs, s.lendRoom g.core (waysOn (g0 :: gs) (waysOf l.words) g.core) = true) :
    ∃ t, exec (.gangStart lid crew) s = .next t ∧ (∀ g ∈ g0 :: gs, g ∉ t.gangs) ∧ (t.crew (crewKey lid crew)).isSome = true ∧
      (∀ g ∈ g0 :: gs, ∃ b, t.block (blockKey g.core g.bslot) = some b ∧ b.lid = lid ∧ b.crew = crew ∧ b.scratch = [] ∧ b.buf = []) ∧
      (∀ g ∈ g0 :: gs, ∀ r ∈ g.recs, r.role ≠ 4 → ∃ g' ∈ g0 :: gs, ∃ r' ∈ g'.recs,
        t.wave (32 * g.core + r.slot) = some (g'.wave l crew r') ∧ 32 * g'.core + r'.slot = 32 * g.core + r.slot) ∧
      (s.noU → t.mem = s.mem) ∧ t.hostMem = s.hostMem := by
  let s0 : State := { s with gangs := s.gangs.filter fun g => !(g0 :: gs).contains g }
  obtain ⟨s1, hs1⟩ : ∃ s1 : State, s1 = (g0 :: gs).foldl (fun s g => s.lendWays g.core (waysOn (g0 :: gs) (waysOf l.words) g.core)) s0 := ⟨_, rfl⟩
  let s2 := s1.modLaunch lid fun l => { l with crewDie := Tbl.del l.crewDie crew }
  have hh : HomeOnly s0 s1 := hs1 ▸ HomeOnly.foldl (fun (s : State) (g : Gang) => s.lendWays g.core (waysOn (g0 :: gs) (waysOf l.words) g.core)) (fun _ _ => lendWays_home _ _ _) _ _
  have hq : Quiet s0 s1 := hs1 ▸ Quiet.foldl (fun (s : State) (g : Gang) => s.lendWays g.core (waysOn (g0 :: gs) (waysOf l.words) g.core)) (fun _ _ => lendWays_quiet _ _ _) _ _
  have hg1 : s1.gangs = s0.gangs ∧ s1.hostMem = s.hostMem := by
    obtain ⟨_, _, _, _, _, _, _, _, h⟩ := hh
    rw [h]
    exact ⟨rfl, rfl⟩
  have hm1 : s.noU → s1.mem = s.mem := fun hn => by
    obtain ⟨⟨_, _, _, _, _, h⟩, -⟩ := hq hn
    rw [h]
  have hx : exec (.gangStart lid crew) s = .next ((s2.bindCrewFresh lid crew l (g0 :: gs) g0.core).settleSlots (g0 :: gs)) := by
    change onEvent _ (s.startGang lid crew) = _
    unfold State.startGang
    simp only [hl]
    rw [hgs]
    have : ((g0 :: gs).all fun g => s.lendRoom g.core (waysOn (g0 :: gs) (waysOf l.words) g.core)) = true := List.all_eq_true.2 hlend
    simp only [hready, hres, htw, this]
    rw [show s2 = s1.modLaunch lid _ from rfl, hs1]
    rfl
  obtain ⟨a1, a2, a3⟩ := settleSlots_does (s2.bindCrewFresh lid crew l (g0 :: gs) g0.core) (g0 :: gs)
  have hb : ∃ (nb rd : Nat) (s3 : State), s2.bindCrewFresh lid crew l (g0 :: gs) g0.core = (g0 :: gs).foldl (fun s g => s.bindFresh l crew nb rd g) s3 ∧
      (s3.crew (crewKey lid crew)).isSome = true ∧ s3.gangs = s1.gangs ∧ s3.mem = s1.mem ∧ s3.hostMem = s1.hostMem := by
    unfold State.bindCrewFresh
    simp only
    refine ⟨_, _, _, rfl, ?_, rfl, rfl, rfl⟩
    exact congrArg Option.isSome ((Tbl.find_put _ _ _ _).trans (if_pos rfl))
  obtain ⟨nb, rd, s3, hb, c1, c2, c3, c4⟩ := hb
  have hoff := bindAll_offSlots l crew nb rd (g0 :: gs) s3
  rw [hb] at hx a1 a2 a3
  rw [hoff] at a1
  have hw := bindAll_waves l crew nb rd (g0 :: gs) s3
  have hbl := (bindAll_blocks l crew nb rd (g0 :: gs) s3).2
  refine ⟨_, hx, ?_, ?_, ?_, ?_, fun hn => ?_, ?_⟩
  · intro g hg
    have : ((List.foldl (fun s g => s.bindFresh l crew nb rd g) s3 (g0 :: gs)).settleSlots (g0 :: gs)).gangs = s0.gangs :=
      (congrArg (fun x => x.2.1) a1).trans (c2.trans hg1.1)
    rw [this]
    intro h
    have := (List.mem_filter.1 h).2
    rw [List.contains_iff_mem.2 hg] at this
    cases this
  · unfold State.crew
    rw [show ((List.foldl (fun s g => s.bindFresh l crew nb rd g) s3 (g0 :: gs)).settleSlots (g0 :: gs)).crews = s3.crews from congrArg (fun x => x.1) a1]
    exact c1
  · intro g hg
    obtain ⟨g', hg', lent, h⟩ := hbl g hg
    obtain ⟨x, hx⟩ := a3 _ _ h
    refine ⟨_, hx, ?_, rfl, rfl, rfl⟩
    have := (List.mem_filter.1 (hgs ▸ hg')).2
    simp only [Bool.and_eq_true, beq_iff_eq] at this
    exact this.1.1
  · intro g hg r hr hrole
    have hmem : (g, r) ∈ roleRecs (g0 :: gs) := List.mem_flatMap.2 ⟨g, hg, List.mem_map.2 ⟨r, List.mem_filter.2 ⟨hr, by simpa using hrole⟩, rfl⟩⟩
    obtain ⟨⟨g', r'⟩, hm, hk, h⟩ := (putAll (fun x : Gang × BindRec => 32 * x.1.core + x.2.slot) (fun x => x.1.wave l crew x.2) (roleRecs (g0 :: gs)) s3.waves).2 (g, r) hmem
    rw [← hw, ← a2] at h
    obtain ⟨g2, h2, h3⟩ := List.mem_flatMap.1 hm
    obtain ⟨r2, h4, h5⟩ := List.mem_map.1 h3
    cases h5
    exact ⟨g', h2, r', (List.mem_filter.1 h4).1, h, hk⟩
  · exact (congrArg (fun x => x.2.2.1) a1).trans (c3.trans (hm1 hn))
  · exact (congrArg (fun x => x.2.2.2) a1).trans (c4.trans hg1.2)

end Sys2Proof.Machine
end

