-- ==== Sys2Proof/Laws/Barrier.lean ====
section
/-! SUPPORT. Laws of barriers, SPAWN and words that hold their fragment. -/

namespace Sys2Proof.Machine

theorem pushLvq_single {s : State} {w : Wave} (h : s.twinned w = false) (wid : Nat) (x : LvqItem) : s.pushLvq wid w x = s := by
  simp [State.pushLvq, h]

/-- What the release of one arrival does: nothing but its fragment, and for a crew its L1 lines (R265, R379). -/
theorem passBarrier_does {s : State} {w : Wave} (h : s.twinned w = false) {wid : Nat} (hw : s.wave wid = some w) (r : Wait) (ofCrew : Bool) :
    (s.passBarrier wid w r ofCrew).launches = s.launches ∧ (∀ j, j ≠ wid → (s.passBarrier wid w r ofCrew).wave j = s.wave j) ∧
    ∃ v, (s.passBarrier wid w r ofCrew).wave wid = some v ∧ v.lid = w.lid := by
  unfold State.passBarrier
  split
  · exact ⟨rfl, fun _ _ => rfl, w, hw, rfl⟩
  · rename_i fr f _
    split
    · exact ⟨rfl, fun _ _ => rfl, w, hw, rfl⟩
    · rename_i c _
      have h1 : (s.modFrag wid fr fun f => f.advanceTo c (f.resume.getD (c.idx + c.sizeAt c.idx))).twinned w = false := h
      have h2 : ((s.modFrag wid fr fun f => f.advanceTo c (f.resume.getD (c.idx + c.sizeAt c.idx))).pul wid w 2).twinned w = false := h
      have h3 : ∀ j, j ≠ wid → (s.modFrag wid fr fun f => f.advanceTo c (f.resume.getD (c.idx + c.sizeAt c.idx))).wave j = s.wave j := by
        intro j hj
        rw [State.modFrag_eq, State.wave_modWave, if_neg hj]
      have h4 : (s.modFrag wid fr fun f => f.advanceTo c (f.resume.getD (c.idx + c.sizeAt c.idx))).wave wid =
          some (w.modFrag fr fun f => f.advanceTo c (f.resume.getD (c.idx + c.sizeAt c.idx))) := by
        rw [State.modFrag_eq, State.wave_modWave, if_pos rfl, hw]
        rfl
      cases ofCrew with
      | true =>
        simp only [if_true]
        rw [pushLvq_single h2, twinStep_single h2]
        exact ⟨rfl, h3, _, h4, rfl⟩
      | false =>
        simp only [Bool.false_eq_true, if_false]
        rw [twinStep_single h1]
        exact ⟨rfl, h3, _, h4, rfl⟩

/-- A wave none of whose fragments waits at the barrier is not released. -/
theorem passBarrier_none {w : Wave} {r : Wait} (h : ∀ p ∈ w.frags, p.2.wait ≠ some r) (s : State) (wid : Nat) (ofCrew : Bool) :
    s.passBarrier wid w r ofCrew = s := by
  unfold State.passBarrier
  rw [List.find?_eq_none.2 fun p hp => by simpa using h p hp]

/-- The fragment of a waiting arrival goes on past its word (R265). -/
theorem passBarrier_wave {s : State} {w : Wave} (h : s.twinned w = false) {wid fr : Nat} {r : Wait} {f : Frag} {c : Clause} (ofCrew : Bool)
    (hw : s.wave wid = some w) (hf : w.frags = [(fr, f)]) (hr : f.wait = some r) (hc : f.clause = some c) :
    (s.passBarrier wid w r ofCrew).wave wid =
      some { w with frags := [(fr, f.advanceTo c (f.resume.getD (c.idx + c.sizeAt c.idx)))] } := by
  unfold State.passBarrier
  have hfind : w.frags.find? (fun p => p.2.wait == some r) = some (fr, f) := by rw [hf]; simp [hr]
  rw [hfind]
  simp only [hc]
  have h1 : (s.modFrag wid fr fun f => f.advanceTo c (f.resume.getD (c.idx + c.sizeAt c.idx))).twinned w = false := h
  have h2 : ((s.modFrag wid fr fun f => f.advanceTo c (f.resume.getD (c.idx + c.sizeAt c.idx))).pul wid w 2).twinned w = false := h
  have h3 : (s.modFrag wid fr fun f => f.advanceTo c (f.resume.getD (c.idx + c.sizeAt c.idx))).wave wid =
      some { w with frags := [(fr, f.advanceTo c (f.resume.getD (c.idx + c.sizeAt c.idx)))] } := by
    rw [State.modFrag_eq, State.wave_modWave, if_pos rfl, hw]
    simp only [Option.map_some, Wave.modFrag, hf, Tbl.upd, Tbl.find, Tbl.put, if_true, Nat.lt_irrefl, if_false]
  cases ofCrew with
  | true =>
    simp only [if_true]
    rw [pushLvq_single h2, twinStep_single h2]
    exact h3
  | false =>
    simp only [Bool.false_eq_true, if_false]
    rw [twinStep_single h1]
    exact h3

/-- What the release of one slot does. -/
theorem passOne_does {s : State} {k : Nat} (members : List Nat) (r : Wait) (ofCrew : Bool) (h : (s.wave k).any s.twinned = false) :
    (s.passOne k members r ofCrew).launches = s.launches ∧ (∀ j, j ≠ k → (s.passOne k members r ofCrew).wave j = s.wave j) ∧
    (∀ j, ((s.passOne k members r ofCrew).wave j).any (s.passOne k members r ofCrew).twinned = (s.wave j).any s.twinned) ∧
    ((∀ u, s.wave k = some u → ∀ q ∈ u.frags, q.2.wait ≠ some r) → s.passOne k members r ofCrew = s) := by
  unfold State.passOne
  cases hw : s.wave k with
  | none => exact ⟨rfl, fun _ _ => rfl, fun _ => rfl, fun _ => rfl⟩
  | some w =>
    rw [hw] at h
    simp only [Option.any_some] at h ⊢
    split
    · obtain ⟨h1, h2, v, h3, h4⟩ := passBarrier_does h hw r ofCrew
      refine ⟨h1, h2, fun j => ?_, fun hn => passBarrier_none (hn w rfl) _ _ _⟩
      rw [show (s.passBarrier k w r ofCrew).twinned = s.twinned from funext (HomeOnly.of_launches h1)]
      by_cases hj : j = k
      · subst hj
        rw [h3, hw]
        simp only [Option.any_some, State.twinned, h4]
      · rw [h2 j hj]
    · exact ⟨rfl, fun _ _ => rfl, fun _ => rfl, fun _ => rfl⟩

/-- The release of a phase leaves the launches and every wave that does not wait at its barrier. -/
theorem passAll_rest (members : List Nat) (r : Wait) (ofCrew : Bool) : ∀ (ws : List (Nat × Wave)) (s : State),
    (∀ p ∈ ws, (s.wave p.1).any s.twinned = false) → (s.passAll ws members r ofCrew).launches = s.launches ∧
      ∀ j, (∀ u, s.wave j = some u → ∀ q ∈ u.frags, q.2.wait ≠ some r) → (s.passAll ws members r ofCrew).wave j = s.wave j := by
  intro ws
  induction ws with
  | nil => intro s _; exact ⟨rfl, fun _ _ => rfl⟩
  | cons p ps ih =>
    intro s h
    obtain ⟨h1, h2, h3, h4⟩ := passOne_does members r ofCrew (h p (by simp))
    obtain ⟨h5, h6⟩ := ih _ fun q hq => (h3 q.1).trans (h q (by simp [hq]))
    refine ⟨h5.trans h1, fun j hj => ?_⟩
    by_cases hp : j = p.1
    · subst hp
      rw [h4 hj] at h6
      have h7 := h6 p.1 hj
      unfold State.passAll at h7 ⊢
      rw [List.foldl_cons, h4 hj]
      exact h7
    · exact (h6 j (by rw [h2 j hp]; exact hj)).trans (h2 j hp)

/-- Each waiting arrival of the phase goes on. -/
theorem passAll_one {members : List Nat} {r : Wait} {ofCrew : Bool} {k fr : Nat} {u : Wave} {f : Frag} {c : Clause}
    (hy : ∀ x, yieldWait x ≠ some r) (hmem : u.member ∈ members) (hf : u.frags = [(fr, f)]) (hr : f.wait = some r) (hc : f.clause = some c) :
    ∀ (ws : List (Nat × Wave)) (s : State), (∀ p ∈ ws, (s.wave p.1).any s.twinned = false) → s.wave k = some u → k ∈ ws.map (·.1) →
    (s.passAll ws members r ofCrew).wave k =
      some { u with frags := [(fr, f.advanceTo c (f.resume.getD (c.idx + c.sizeAt c.idx)))] } := by
  intro ws
  induction ws with
  | nil => intro s _ _ h; cases h
  | cons p ps ih =>
    intro s h hu hm
    have hp := h p (by simp)
    obtain ⟨h1, h2, h3, h4⟩ := passOne_does members r ofCrew hp
    have h5 := fun q hq => (h3 (q : Nat × Wave).1).trans (h q (List.mem_cons_of_mem p hq))
    by_cases hk : k = p.1
    · subst hk
      unfold State.passAll
      rw [List.foldl_cons]
      rw [hu] at hp
      simp only [Option.any_some] at hp
      have h6 := passBarrier_wave hp ofCrew hu hf hr hc
      have hone : s.passOne p.1 members r ofCrew = s.passBarrier p.1 u r ofCrew := by
        unfold State.passOne
        simp only [hu, List.contains_iff_mem, hmem, if_true]
      rw [hone] at h5 ⊢
      refine ((passAll_rest members r ofCrew ps _ h5).2 p.1 fun v hv q hq => ?_).trans h6
      rw [h6] at hv
      cases hv
      rw [List.mem_singleton] at hq
      subst hq
      unfold Frag.advanceTo Frag.leave
      dsimp only
      split
      · exact nofun
      · exact hy _
    · rw [List.map_cons, List.mem_cons] at hm
      exact ih _ h5 ((h2 k hk).trans hu) (hm.resolve_left hk)

/-- The two outcomes of an arrival that matches (R265). -/
theorem arrive_matched {b : Barrier} {m n : Nat} (h : b.latched = 0 ∨ b.latched = n) : b.arrive m n =
    if b.count + 1 < n then .waits { b with latched := n, count := b.count + 1, arrived := b.arrived ++ [m] }
    else .completes { Barrier.reset with phase := (b.phase + 1) % 65536 } := by
  unfold Barrier.arrive
  rw [if_neg]
  rintro ⟨h1, h2⟩
  rcases h with h | h
  · exact h1 h
  · exact h2 h

theorem arrive_mismatch {b : Barrier} {m n : Nat} (h1 : b.latched ≠ 0) (h2 : b.latched ≠ n) : b.arrive m n = .mismatch b.latched := by
  unfold Barrier.arrive
  rw [if_pos ⟨h1, h2⟩]

/-- A word that waits in a state that its arrival has left. -/
theorem wait_stands {w : Fields} {s : State} {e : Env} (h : Issues w s e) {i : Instr} {body : Env → WRes} {r : Wait} {t : State}
    (hx : exec i s = onWord w s body) (hb : body e = .wait t r) (ht : t.waves = e.s.waves) (hl : t.launches = e.s.launches) :
    ∃ s', exec i e.s = .next s' ∧ Stands { e with s := t } s' { e.frag with wait := some r } := by
  refine ⟨_, exec_word h hx, ?_⟩
  rw [hb]
  have hw : t.wave e.wid = some e.wv := by unfold State.wave; rw [ht]; exact h.wave
  have F := h.facts
  have he : t.modFrag e.wid e.fr (fun f => { f with wait := some r }) =
      t.modWave e.wid fun w => { w with frags := Tbl.put w.frags e.fr { e.frag with wait := some r } } := by
    rw [State.modFrag_eq]
    refine State.modWave_congr hw ?_
    simp [Wave.modFrag, Tbl.upd, F.frag]
  have htw : t.isTwin e.wv.lid = false := (HomeOnly.of_launches hl e.wv).trans h.alone
  simp only [settleWord, countWait_single htw]
  rw [he]
  refine ⟨rfl, fun k hk => by simp [hk], { e.wv with frags := Tbl.put e.wv.frags e.fr { e.frag with wait := some r } }, by simp [hw], rfl, by simp, ?_⟩
  intro q hq
  simp [hq]

/-- A word whose effect leaves its own wave and the launches. -/
theorem goes_of {w : Fields} {s : State} {e : Env} (h : Issues w s e) {i : Instr} {body : Env → WRes} {t : State}
    (hx : exec i s = onWord w s body) (hb : body e = .done { s := t }) (hw : t.wave e.wid = some e.wv) (hl : t.launches = e.s.launches) :
    ∃ s' v w', exec i e.s = .next s' ∧ Completes e t v s' w' ∧ v = e.wv ∧
      SameRegs e.wv w' ∧ w'.fpflags = e.wv.fpflags ∧ w'.pending = e.wv.pending := by
  obtain ⟨s', w', q1, q2, q3, q4, q5, q6, q7⟩ := effect_done h hx hb (v := e.wv) ((HomeOnly.of_launches hl e.wv).trans h.alone)
    hw h.facts.frag rfl rfl (by simp) rfl
  exact ⟨s', e.wv, w', q1, q2, rfl, SameRegs.of_regs q3 q4 q5, by simpa [fpflagsAfter, mergeFlags, noFlags] using q6,
    by simpa [Env.pendingAfter] using q7⟩

/-- A word that has its effect and then holds its fragment. -/
theorem hold_stands {w : Fields} {s : State} {e : Env} (h : Issues w s e) {i : Instr} {body : Env → WRes} {r : Wait} {t : State}
    (hx : exec i s = onWord w s body) (hb : body e = .done { s := t, hold := some r }) (hw : t.wave e.wid = some e.wv)
    (hl : t.launches = e.s.launches) :
    ∃ s', exec i e.s = .next s' ∧ Stands { e with s := t } s' { e.frag.advanceTo e.cl e.next with wait := some r } := by
  have F := h.facts
  have htw : t.twinned e.wv = false := (HomeOnly.of_launches hl e.wv).trans h.alone
  have hz (x : W64) : fpflagsAfter x (mergeFlags []) = x := by simp [fpflagsAfter, mergeFlags, noFlags]
  refine ⟨_, exec_word h hx, ?_⟩
  rw [hb]
  have he : settleWord e (.done { s := t, hold := some r }) =
      t.modWave e.wid fun w => { w with frags := Tbl.put w.frags e.fr { e.frag.advanceTo e.cl e.next with wait := some r } } := by
    have h1 : settleWord e (.done { s := t, hold := some r }) =
        (t.modWave e.wid fun w => { w with frags := Tbl.upd w.frags e.fr fun f => { f.advanceTo e.cl e.next with wait := some r } }).twinStep e.wid e.wv e.fr := by
      simp [settleWord, finish, twinInject_single htw, Wave.modFrag, Wave.writes, hz]
      rfl
    rw [h1, twinStep_single (by exact htw)]
    refine State.modWave_congr hw ?_
    simp [Tbl.upd, F.frag]
  rw [he]
  refine ⟨rfl, fun k hk => by simp [hk], { e.wv with frags := Tbl.put e.wv.frags e.fr { e.frag.advanceTo e.cl e.next with wait := some r } }, by simp [hw], rfl, by simp, ?_⟩
  intro q hq
  simp [hq]

theorem whole_frags {w : Fields} {s : State} {e : Env} (F : WordFacts w s e) (hw : e.wv.whole = true) : e.wv.frags = [(e.fr, e.frag)] := by
  have hf := F.frag
  unfold Wave.whole at hw
  rw [Bool.and_eq_true, beq_iff_eq, List.length_eq_one_iff] at hw
  obtain ⟨⟨p, hp1⟩, -⟩ := hw
  rw [hp1] at hf ⊢
  obtain ⟨k, f⟩ := p
  simp only [Tbl.find] at hf
  split at hf
  · rename_i hk'; cases hf; subst hk'; rfl
  · cases hf

theorem yieldWait_barb (x : W64) (a : Nat) : yieldWait x ≠ some (.barb a) := by unfold yieldWait; split <;> simp
theorem yieldWait_barc (x : W64) (a : Nat) : yieldWait x ≠ some (.barc a) := by unfold yieldWait; split <;> simp

/-- Each waiting arrival of the phase goes on, in a state that has the waves of another. -/
theorem passAll_releases {s t0 : State} {ws : List (Nat × Wave)} {members : List Nat} {r : Wait} {ofCrew : Bool}
    (hy : ∀ x, yieldWait x ≠ some r) (htw : ∀ p ∈ ws, (s.wave p.1).any s.twinned = false) (ht0 : t0.waves = s.waves) (hl0 : t0.launches = s.launches) {k fr : Nat} {u : Wave}
    {f : Frag} {c : Clause} (hu : s.wave k = some u) (hm : (k, u) ∈ ws) (hmem : u.member ∈ members) (hf : u.frags = [(fr, f)])
    (hr : f.wait = some r) (hc : f.clause = some c) :
    ∃ u', (t0.passAll ws members r ofCrew).wave k = some u' ∧ { u' with frags := u.frags } = u ∧
      Tbl.find u'.frags fr = some (f.advanceTo c (f.resume.getD (c.idx + c.sizeAt c.idx))) := by
  have hw : t0.wave = s.wave := funext fun j => by unfold State.wave; rw [ht0]
  have hl : t0.twinned = s.twinned := funext (HomeOnly.of_launches hl0)
  exact ⟨_, passAll_one hy hmem hf hr hc ws t0 (by rw [hw, hl]; exact htw) (by rw [hw]; exact hu) (List.mem_map.2 ⟨_, hm, rfl⟩), rfl, by simp [Tbl.find]⟩

/-- The arrival that ends the phase is left by the release. -/
theorem passAll_self {w : Fields} {s : State} {e : Env} (h : Issues w s e) {t0 : State} {ws : List (Nat × Wave)} {members : List Nat}
    {r : Wait} {ofCrew : Bool} (htw : ∀ p ∈ ws, (e.s.wave p.1).any e.s.twinned = false) (ht0 : t0.waves = e.s.waves)
    (hl0 : t0.launches = e.s.launches) (hwh : e.wv.whole = true) (hwait : e.frag.wait ≠ some r) :
    (t0.passAll ws members r ofCrew).wave e.wid = some e.wv ∧ (t0.passAll ws members r ofCrew).launches = e.s.launches := by
  have hw : t0.wave = e.s.wave := funext fun j => by unfold State.wave; rw [ht0]
  have hl : t0.twinned = e.s.twinned := funext (HomeOnly.of_launches hl0)
  obtain ⟨r1, r2⟩ := passAll_rest members r ofCrew ws t0 (by rw [hw, hl]; exact htw)
  refine ⟨(r2 e.wid fun u hu q hq => ?_).trans (by rw [hw]; exact h.wave), r1.trans hl0⟩
  rw [hw, h.wave] at hu
  cases hu
  rw [whole_frags h.facts hwh, List.mem_singleton] at hq
  subst hq
  exact hwait

/-- The meaning of BARB past its checks. -/
theorem barb_eq {e : Env} {b : Block} (hbk : e.s.block (e.wv.bid e.wid) = some b) {a n : Nat}
    (hg : (15 < a || n = 0 || 16 < n || !e.wv.whole || e.wv.holdsAny) = false) (hdr : e.wv.arrayQ.any ArrayOp.drains = false)
    (hwait : e.frag.wait ≠ some (.barb a)) :
    (if 15 < a || n = 0 || 16 < n || !e.wv.whole || e.wv.holdsAny then e.illegal
    else if e.wv.arrayQ.any ArrayOp.drains then .wait e.s .array
    else if e.frag.wait = some (.barb a) then .wait e.s (.barb a)
    else match e.s.block (e.wv.bid e.wid) with
      | none => .done { s := e.s }
      | some b =>
        let bar := Tbl.get b.bars a Barrier.reset
        let put (x : Barrier) : State := e.s.modBlock (e.wv.bid e.wid) fun b => { b with bars := Tbl.set Barrier.reset b.bars a x }
        match bar.arrive e.wv.member n with
        | .mismatch l => barMismatch e (a + l * 2 ^ 8 + n * 2 ^ 16)
        | .waits x => .wait (put x) (.barb a)
        | .completes x => .done { s := (put x).passAll (e.s.blockWaves (e.wv.bid e.wid)) bar.arrived (.barb a) false }) =
    (match (Tbl.get b.bars a Barrier.reset).arrive e.wv.member n with
        | .mismatch l => barMismatch e (a + l * 2 ^ 8 + n * 2 ^ 16)
        | .waits x => .wait (e.s.modBlock (e.wv.bid e.wid) fun _ => { b with bars := Tbl.set Barrier.reset b.bars a x }) (.barb a)
        | .completes x => .done { s := (e.s.modBlock (e.wv.bid e.wid) fun _ => { b with bars := Tbl.set Barrier.reset b.bars a x }).passAll (e.s.blockWaves (e.wv.bid e.wid)) (Tbl.get b.bars a Barrier.reset).arrived (.barb a) false }) := by
  rw [if_neg (by rw [hg]; exact Bool.false_ne_true), if_neg (by rw [hdr]; exact Bool.false_ne_true), if_neg hwait, hbk]
  have hput (x : Barrier) : (e.s.modBlock (e.wv.bid e.wid) fun b => { b with bars := Tbl.set Barrier.reset b.bars a x }) =
      e.s.modBlock (e.wv.bid e.wid) fun _ => { b with bars := Tbl.set Barrier.reset b.bars a x } := State.modBlock_congr hbk rfl
  simp only [hput]

theorem modCrew_congr {s : State} {k : Nat} {c d : Crew} {f : Crew → Crew} (hc : s.crew k = some c) (hf : f c = d) :
    s.modCrew k f = s.modCrew k fun _ => d := by
  simp only [State.modCrew, Tbl.upd]
  rw [show Tbl.find s.crews k = some c from hc]
  simp only [hf]

/-- The waves that SPAWN binds, and the waves it leaves (R328). -/
theorem spawnAll_does (e : Env) (core : Nat) (b : Block) (pc arg : W64) : ∀ (l : List (Nat × PoolSlot)) (n : Nat) (s : State),
    let t := spawnAll e core b pc arg n l s
    { t with waves := s.waves } = s ∧
    (∀ k, (∀ p ∈ l, k ≠ 32 * core + p.2.slot) → t.wave k = s.wave k) ∧
    ∀ j x p, l[j]? = some (x, p) → (∀ i q, j < i → l[i]? = some q → q.2.slot ≠ p.slot) →
      t.wave (32 * core + p.slot) = some { Wave.bound
        { lid := e.wv.lid, ctx := e.wv.ctx, bslot := e.wv.bslot, waveIdx := x, role := 4, width := e.wv.width,
          cross := e.wv.cross, vregs := b.poolV, accs := p.accs, blocklin := e.wv.blocklin, crew := e.wv.crew, part := 0,
          prio := 0, shadow := e.wv.shadow, vbase := p.vbase, accbase := p.accbase, pc := pc } with
        s := Tbl.set 0 (Tbl.set 0 [] 0 arg) 1 (BitVec.ofNat 64 (n + j)) } := by
  intro l
  induction l with
  | nil => intro n s; exact ⟨rfl, fun _ _ => rfl, fun j x p h => by simp at h⟩
  | cons y l ih =>
    obtain ⟨x0, p0⟩ := y
    intro n s
    unfold spawnAll
    simp only
    generalize hu : ({ Wave.bound _ with s := Tbl.set 0 (Tbl.set 0 [] 0 arg) 1 (BitVec.ofNat 64 n) } : Wave) = u
    obtain ⟨h1, h2, h3⟩ := ih (n + 1) { s with waves := Tbl.put s.waves (32 * core + p0.slot) u }
    refine ⟨?_, ?_, ?_⟩
    · have := congrArg (fun t : State => { t with waves := s.waves }) h1
      exact this
    · intro k hk
      rw [h2 k fun p hp => hk p (by simp [hp])]
      exact Tbl.find_put_other _ _ (hk (x0, p0) (by simp))
    · intro j x p hj hlast
      cases j with
      | zero =>
        simp only [List.getElem?_cons_zero, Option.some.injEq, Prod.mk.injEq] at hj
        obtain ⟨rfl, rfl⟩ := hj
        rw [h2]
        · rw [Nat.add_zero, hu]
          exact Tbl.find_put_same _ _ _
        · intro q hq
          obtain ⟨i, hi⟩ := List.getElem?_of_mem hq
          have := hlast (i + 1) q (by omega) (by rw [List.getElem?_cons_succ]; exact hi)
          omega
      | succ j =>
        rw [List.getElem?_cons_succ] at hj
        have := h3 j x p hj fun i q hi hq => hlast (i + 1) q (by omega) (by rw [List.getElem?_cons_succ]; exact hq)
        rw [show n + 1 + j = n + (j + 1) by omega] at this
        exact this

end Sys2Proof.Machine
end

