-- ==== Sys2Proof/Laws/Cache.lean ====
section
/-! SUPPORT. The L1 where no core holds an update-only line: fills, hits and evictions change the cores alone. -/

namespace Sys2Proof.Machine

/-- Nothing but the cores and the counter of free values differs, and no core holds an update-only line. -/
def Calm (s t : State) : Prop := s.noU → (∃ c n, t = { s with cores := c, free := n }) ∧ t.noU

theorem Calm.refl (s : State) : Calm s s := fun h => ⟨⟨s.cores, s.free, rfl⟩, h⟩

theorem Calm.trans {s t u : State} (h : Calm s t) (g : Calm t u) : Calm s u := fun hn => by
  obtain ⟨⟨c, n, rfl⟩, h2⟩ := h hn
  obtain ⟨⟨c, n, rfl⟩, h3⟩ := g h2
  exact ⟨⟨c, n, rfl⟩, h3⟩

theorem Calm.modCore (s : State) (k : Nat) (f : Core → Core) (hf : ∀ c : Core, (f c).u = c.u) : Calm s (s.modCore k f) := fun h =>
  ⟨⟨_, s.free, rfl⟩, State.noU_modCore h k f (hf _)⟩

theorem Calm.fresh (s : State) : Calm s s.fresh.2 := fun h => ⟨⟨s.cores, _, rfl⟩, h⟩

theorem Calm.foldl {α : Type} (f : State → α → State) (h : ∀ s x, Calm s (f s x)) (l : List α) (s : State) :
    Calm s (l.foldl f s) := by
  induction l generalizing s with
  | nil => exact .refl s
  | cons x xs ih => exact (h s x).trans (ih _)

theorem evictSb_calm (s : State) (k sb : Nat) : Calm s (s.evictSb k sb) := by
  intro h
  have : ((s.core k).uOf sb) = [] := by simp [Core.uOf, State.noU_core h k]
  simp only [State.evictSb, this, List.foldl_nil]
  exact Calm.modCore s k _ (fun _ => rfl) h

theorem placeLine_calm (s : State) (k key hint : Nat) : Calm s (s.placeLine k key hint) := by
  simp only [State.placeLine]
  split
  · exact .modCore _ _ _ fun _ => rfl
  · split
    · exact (Calm.fresh s).trans (.modCore _ _ _ fun _ => rfl)
    · split
      · exact .refl s
      · exact (evictSb_calm _ _ _).trans (.modCore _ _ _ fun _ => rfl)

theorem fillLine_calm (s : State) (k hint key : Nat) (x : L1Line) : Calm s (s.fillLine k hint key x) := by
  unfold State.fillLine
  split
  · exact .refl s
  · exact (placeLine_calm s k key hint).trans (.modCore _ _ _ fun _ => rfl)

theorem touchLine_calm (s : State) (k key : Nat) : Calm s (s.touchLine k key) := by
  unfold State.touchLine
  refine .modCore _ _ _ fun c => ?_
  simp only
  split <;> rfl

/-- Filling the L1 where no core holds an update-only line changes the cores alone. -/
theorem fillL1_calm (s : State) (k : Nat) (w : Wave) (hint : Nat) (l : List Found) : Calm s (s.fillL1 k w hint l) := by
  unfold State.fillL1
  simp only
  split
  · exact Calm.foldl _ (fun _ _ => touchLine_calm _ _ _) _ _
  · exact ((Calm.foldl _ (fun _ _ => touchLine_calm _ _ _) _ _).trans
        (Calm.foldl _ (fun s x => fillLine_calm s _ _ _ _) _ _)).trans (Calm.foldl _ (fun s x => fillLine_calm s _ _ _ _) _ _)

end Sys2Proof.Machine
end

