-- ==== Sys2Proof/Laws/CrossLane.lean ====
section
/-! SUPPORT. Laws of the cross-lane words. -/

namespace Sys2Proof.Machine

/-- Adding a power of two whose bit is clear sets that bit alone. -/
theorem add_two_pow_bit (x k q : Nat) (h : x.testBit k = false) : (x + 2 ^ k).testBit q = (x.testBit q || decide (k = q)) := by
  have hx : x = 2 ^ k * (x / 2 ^ k) + x % 2 ^ k := (Nat.div_add_mod x (2 ^ k)).symm
  have hl : x % 2 ^ k < 2 ^ k := Nat.mod_lt _ (Nat.two_pow_pos _)
  have he : x / 2 ^ k % 2 = 0 := by
    rw [Nat.testBit_eq_decide_div_mod_eq] at h
    have := Nat.mod_two_eq_zero_or_one (x / 2 ^ k)
    simp at h
    omega
  generalize x / 2 ^ k = a at *
  generalize x % 2 ^ k = b at *
  subst hx
  have h1 : 2 ^ k * a + b + 2 ^ k = 2 ^ k * (a + 1) + b := by rw [Nat.mul_add]; omega
  rw [h1, Nat.testBit_two_pow_mul_add _ hl, Nat.testBit_two_pow_mul_add _ hl]
  by_cases hq : q < k
  · have : k ≠ q := by omega
    simp [hq, this]
  · rw [if_neg hq, if_neg hq]
    obtain ⟨d, rfl⟩ : ∃ d, q = k + d := ⟨q - k, by omega⟩
    rw [Nat.add_sub_cancel_left]
    cases d with
    | zero => simp; omega
    | succ d =>
      rw [Nat.testBit_succ, Nat.testBit_succ, show (a + 1) / 2 = a / 2 by omega]
      simp

/-- The sum of distinct powers of two, bit by bit. -/
theorem foldl_pow_bit (g : Nat → Nat) (l : List Nat) (acc p : Nat) (hnd : l.Pairwise fun a b => g a ≠ g b)
    (hacc : ∀ a ∈ l, acc.testBit (g a) = false) :
    (l.foldl (fun m j => m + 2 ^ g j) acc).testBit p = (acc.testBit p || decide (∃ j ∈ l, g j = p)) := by
  induction l generalizing acc with
  | nil => simp
  | cons x xs ih =>
    obtain ⟨h1, h2⟩ := List.pairwise_cons.mp hnd
    have hx : acc.testBit (g x) = false := hacc x (by simp)
    have hadd : ∀ q, (acc + 2 ^ g x).testBit q = (acc.testBit q || decide (g x = q)) := by
      intro q
      exact add_two_pow_bit acc (g x) q hx
    rw [List.foldl_cons, ih _ h2, hadd]
    · by_cases hp : g x = p
      · simp [hp]
      · simp [hp]
    · intro a ha
      rw [hadd, hacc a (by simp [ha])]
      simp [h1 a ha]

theorem mem_dedup {α : Type} [DecidableEq α] {x : α} {l : List α} : x ∈ dedup l ↔ x ∈ l := by
  induction l with
  | nil => simp [dedup]
  | cons a t ih =>
    rw [dedup]
    by_cases h : t.contains a = true
    · rw [if_pos h, ih]
      have : a ∈ t := List.contains_iff_mem.mp h
      constructor
      · exact fun h => List.mem_cons_of_mem _ h
      · intro h'
        rcases List.mem_cons.mp h' with rfl | h'
        · exact this
        · exact h'
    · rw [if_neg h]
      simp [ih]

/-- A word that writes nothing, whatever its latency. -/
theorem GivesNothing.of_done' {w : Fields} {s : State} {e : Env} (h : Issues w s e) {i : Instr} {body : Env → WRes} {lat : Nat}
    (hx : exec i s = onWord w s body) (hb : body e = .done { s := e.s, lat := lat }) : GivesNothing e i := by
  obtain ⟨w', hc, hv, hs, hk, hf, hp⟩ := completes_regs h { s := e.s, lat := lat } rfl rfl rfl (by simp) rfl
  refine ⟨_, w', ?_, hc, SameRegs.of_regs hv hs hk, by simpa [fpflagsAfter, mergeFlags, noFlags] using hf,
    by simpa [Env.pendingAfter] using hp⟩
  rw [exec_word h hx, hb]

/-- Join of two values (R187). -/
def joinVal (op : Nat) (t : Ty) (m : RM) (x y : Option Nat) : Option Nat :=
  match x, y with
  | some x, some y => some (combine op t m x y).1
  | some x, none => some x
  | none, y => y

theorem joinNode_val (op : Nat) (t : Ty) (m : RM) (x y : Node) : (joinNode op t m x y).val = joinVal op t m x.val y.val := by
  unfold joinNode joinVal
  cases hx : x.val <;> cases hy : y.val <;> simp [*]

theorem redNode_succ (op : Nat) (t : Ty) (m : RM) (leaf : Nat → Option Nat) (k j : Nat) :
    redNode op t m leaf (k + 1) j = joinVal op t m (redNode op t m leaf k (2 * j)) (redNode op t m leaf k (2 * j + 1)) := rfl

theorem redNode_shift (op : Nat) (t : Ty) (m : RM) (leaf : Nat → Option Nat) (k j : Nat) :
    redNode op t m leaf (k + 1) j = redNode op t m (fun p => joinVal op t m (leaf (2 * p)) (leaf (2 * p + 1))) k j := by
  induction k generalizing j with
  | zero => rfl
  | succ k ih => rw [redNode_succ, ih, ih, ← redNode_succ]

theorem redNode_congr (op : Nat) (t : Ty) (m : RM) {leaf leaf' : Nat → Option Nat} (k j : Nat)
    (h : ∀ p, p < (j + 1) * 2 ^ k → leaf p = leaf' p) : redNode op t m leaf k j = redNode op t m leaf' k j := by
  induction k generalizing j with
  | zero => exact h j (by simp)
  | succ k ih =>
    have e : (j + 1) * 2 ^ (k + 1) = (2 * j + 1 + 1) * 2 ^ k := by
      rw [Nat.pow_succ, Nat.mul_comm (2 ^ k) 2, ← Nat.mul_assoc]; congr 1; omega
    have h1 : (2 * j + 1) * 2 ^ k ≤ (2 * j + 1 + 1) * 2 ^ k := Nat.mul_le_mul_right _ (by omega)
    rw [redNode_succ, redNode_succ, ih (2 * j) fun p hp => h p (by omega), ih (2 * j + 1) fun p hp => h p (by omega)]

def emptyNode : Node := { val := none, lanes := [], fl := [] }

theorem joinLevel_get (op : Nat) (t : Ty) (m : RM) (l : List Node) (j : Nat) (h : 2 * j + 1 < l.length) :
    ((joinLevel op t m l).getD j emptyNode).val =
      joinVal op t m (l.getD (2 * j) emptyNode).val (l.getD (2 * j + 1) emptyNode).val := by
  induction j generalizing l with
  | zero =>
    match l, h with
    | x :: y :: rest, _ => simp [joinLevel, joinNode_val]
  | succ j ih =>
    match l, h with
    | x :: y :: rest, h =>
      have := ih rest (by simp at h; omega)
      simpa [joinLevel, Nat.mul_succ] using this

theorem joinLevel_length (op : Nat) (t : Ty) (m : RM) (l : List Node) : l.length ≤ 2 * (joinLevel op t m l).length := by
  match l with
  | [] => simp [joinLevel]
  | [x] => simp [joinLevel]
  | x :: y :: rest =>
    have := joinLevel_length op t m rest
    simp [joinLevel]
    omega

/-- The tree of R187: the root of the first 2^k leaves. -/
theorem treeReduce_node (op : Nat) (t : Ty) (m : RM) (k : Nat) (l : List Node) (h : 2 ^ k ≤ l.length) :
    (treeReduce op t m k l).val = redNode op t m (fun p => (l.getD p emptyNode).val) k 0 := by
  induction k generalizing l with
  | zero =>
    cases l with
    | nil => simp at h
    | cons x xs => rfl
  | succ k ih =>
    have hl := joinLevel_length op t m l
    rw [Nat.pow_succ] at h
    rw [treeReduce, ih _ (by omega), redNode_shift]
    refine redNode_congr op t m k 0 fun p hp => joinLevel_get op t m l p ?_
    simp at hp
    omega

theorem log2_le (n : Nat) (h : n ≠ 0) : 2 ^ n.log2 ≤ n := Nat.log2_self_le h

/-- The leaves of a segment. -/
theorem leaves_val (e : Env) (t : Ty) (base n p : Nat) : ((e.leaves t base n).getD p emptyNode).val =
    if p < n ∧ e.act.getLsbD (base + p) then some (e.a t (base + p)) else none := by
  unfold Env.leaves
  by_cases hp : p < n
  · simp only [List.getD_eq_getElem?_getD, List.getElem?_map, List.getElem?_range hp, Option.map_some, Option.getD_some, hp, true_and]
    split <;> rfl
  · have : (List.range n)[p]? = none := by simp; omega
    simp [List.getD_eq_getElem?_getD, hp, emptyNode]

theorem treeReduce_leaves (e : Env) (op : Nat) (t : Ty) (m : RM) (base n : Nat) : (treeReduce op t m n.log2 (e.leaves t base n)).val =
    redNode op t m (fun p => if p < n ∧ e.act.getLsbD (base + p) then some (e.a t (base + p)) else none) n.log2 0 := by
  by_cases hn : n = 0
  · subst hn
    simp [Env.leaves, treeReduce, redNode, Nat.log2_zero]
  · rw [treeReduce_node _ _ _ _ _ (by simpa [Env.leaves] using log2_le n hn)]
    exact redNode_congr _ _ _ _ _ fun p _ => leaves_val e t base n p

/-- One step of the scan is `scanJoin`. -/
theorem scanFrom_find (op : Nat) (t : Ty) (m : RM) (excl : Bool) (a : Nat → Nat) (i : Nat) (l : List Nat) (r : Option Nat)
    (hs : l.Pairwise (· < ·)) (hi : i ∈ l) :
    ∃ f, (scanFrom op t m excl a r l).find? (fun p => p.1 == i) = some (i,
      let run := (l.filter fun j => decide (j < i)).foldl (fun r j => scanJoin op t m r (a j)) r
      if excl then run.getD (scanIdentity op t) else (scanJoin op t m run (a i)).getD 0, f) := by
  induction l generalizing r with
  | nil => simp at hi
  | cons j js ih =>
    obtain ⟨h1, h2⟩ := List.pairwise_cons.mp hs
    by_cases hj : j = i
    · subst hj
      have hf : (j :: js).filter (fun k => decide (k < j)) = [] := by
        rw [List.filter_eq_nil_iff]
        intro k hk
        rcases List.mem_cons.mp hk with rfl | hk
        · simp
        · have := h1 k hk
          simp; omega
      rw [hf]
      cases r with
      | none => exact ⟨noFlags, by cases excl <;> simp [scanFrom, scanJoin]⟩
      | some x => exact ⟨(combine op t m x (a j)).2, by cases excl <;> simp [scanFrom, scanJoin]⟩
    · have hin : i ∈ js := by simpa [Ne.symm hj] using hi
      have hlt : j < i := h1 i hin
      have hf : (j :: js).filter (fun k => decide (k < i)) = j :: js.filter (fun k => decide (k < i)) := by
        simp [hlt]
      rw [hf]
      cases r with
      | none =>
        obtain ⟨f, hf'⟩ := ih (some (a j)) h2 hin
        exact ⟨f, by simpa [scanFrom, scanJoin, hj] using hf'⟩
      | some x =>
        obtain ⟨f, hf'⟩ := ih (some (combine op t m x (a j)).1) h2 hin
        exact ⟨f, by simpa [scanFrom, scanJoin, hj] using hf'⟩

theorem scanFrom_lanes (op : Nat) (t : Ty) (m : RM) (excl : Bool) (a : Nat → Nat) (l : List Nat) (r : Option Nat) :
    (scanFrom op t m excl a r l).map (·.1) = l := by
  induction l generalizing r with
  | nil => cases r <;> rfl
  | cons j js ih => cases r <;> simp [scanFrom, ih]

/-- With every trap off, no floating-point trap is taken. -/
theorem fpTrap_off {w : Wave} (h : w.handler.isSome ∨ bits w.fpctl.toNat 12 8 = 0) (fl : List (Nat × FFlags)) (n : Nat) :
    fpTrap w fl n = none := by
  refine fpTrap_none n ?_
  rcases h with h | h
  · exact Or.inl h
  · refine Or.inr fun p _ => ?_
    simp [trappedFlags, h]

theorem find_map_key {β : Type} (l : List Nat) (g : Nat → β) (x : Nat) (h : x ∈ l) :
    (l.map fun b => (b, g b)).find? (fun p => p.1 == x) = some (x, g x) := by
  induction l with
  | nil => simp at h
  | cons y ys ih =>
    by_cases hy : y = x
    · subst hy; simp
    · have : x ∈ ys := by simpa [Ne.symm hy] using h
      simpa [hy] using ih this

theorem find?_flatMap_only {α β : Type} (f : α → List β) (p : β → Bool) (l : List α) (x : α) (hx : x ∈ l)
    (hother : ∀ y ∈ l, y ≠ x → (f y).find? p = none) : (l.flatMap f).find? p = (f x).find? p := by
  induction l with
  | nil => simp at hx
  | cons y ys ih =>
    rw [List.flatMap_cons, List.find?_append]
    by_cases hy : y = x
    · subst hy
      cases hf : (f y).find? p with
      | some z => simp
      | none =>
        have : (ys.flatMap f).find? p = none := by
          rw [List.find?_eq_none]
          intro z hz
          obtain ⟨b, hb, hzb⟩ := List.mem_flatMap.mp hz
          have hn : (f b).find? p = none := by
            by_cases hby : b = y
            · rw [hby]; exact hf
            · exact hother b (List.mem_cons_of_mem _ hb) hby
          exact List.find?_eq_none.mp hn z hzb
        simp [this]
    · have hxs : x ∈ ys := by
        rcases List.mem_cons.mp hx with h | h
        · exact absurd h.symm hy
        · exact h
      rw [hother y (by simp) hy, Option.none_or]
      exact ih hxs fun z hz hzx => hother z (List.mem_cons_of_mem _ hz) hzx

/-- What a lane finds in the results of all segments' scans. -/
theorem scan_find (e : Env) (op : Nat) (t : Ty) (m : RM) (excl : Bool) (hs : e.lanes.Pairwise (· < ·)) {l : Nat} (hl : l ∈ e.lanes) :
    ∃ f, (e.segs.flatMap fun b => scanFrom op t m excl (e.a t) none (e.segLanes b)).find? (fun p => p.1 == l) = some (l,
      let run := ((e.segLanes (e.segBase l)).filter fun j => decide (j < l)).foldl (fun r j => scanJoin op t m r (e.a t j)) none
      if excl then run.getD (scanIdentity op t) else (scanJoin op t m run (e.a t l)).getD 0, f) := by
  have hin : e.segBase l ∈ e.segs := mem_dedup.mpr (List.mem_map.mpr ⟨l, hl, rfl⟩)
  have hmem : l ∈ e.segLanes (e.segBase l) := List.mem_filter.mpr ⟨hl, by simp⟩
  rw [find?_flatMap_only _ _ _ (e.segBase l) hin]
  · exact scanFrom_find op t m excl (e.a t) l _ none (List.Pairwise.filter _ hs) hmem
  · intro b _ hne
    rw [List.find?_eq_none]
    intro p hp
    have : p.1 ∈ e.segLanes b := by
      rw [← scanFrom_lanes op t m excl (e.a t) (e.segLanes b) none]
      exact List.mem_map_of_mem hp
    have hb := (List.mem_filter.mp this).2
    intro heq
    have h1 : p.1 = l := by simpa using heq
    rw [h1] at hb
    exact hne (by simpa using hb : e.segBase l = b).symm

end Sys2Proof.Machine
end

