-- ==== Sys2Proof/Laws/Encoding.lean ====
section
/-! SUPPORT. Encodings: packing and unpacking words, what a word decodes to, and the checks of a clause word. -/

namespace Sys2Proof.Machine

theorem extract_low {n m : Nat} (x : BitVec n) (y : BitVec m) (k l : Nat) (h : k + l ≤ m) :
    (x ++ y).extractLsb' k l = y.extractLsb' k l := by
  apply BitVec.eq_of_getLsbD_eq
  intro i hi
  simp only [BitVec.getLsbD_extractLsb', BitVec.getLsbD_append]
  rw [if_pos (by omega)]

theorem extract_high {n m : Nat} (x : BitVec n) (y : BitVec m) (k l : Nat) (h : m ≤ k) :
    (x ++ y).extractLsb' k l = x.extractLsb' (k - m) l := by
  apply BitVec.eq_of_getLsbD_eq
  intro i hi
  simp only [BitVec.getLsbD_extractLsb', BitVec.getLsbD_append]
  rw [if_neg (by omega), show k + i - m = k - m + i by omega]

theorem extract_all {n : Nat} (x : BitVec n) : x.extractLsb' 0 n = x := by
  apply BitVec.eq_of_getLsbD_eq
  intro i hi
  simp [BitVec.getLsbD_extractLsb', hi]

theorem extract_append {w : Nat} (x : BitVec w) {j k n m : Nat} (hj : j = k + m) :
    x.extractLsb' j n ++ x.extractLsb' k m = x.extractLsb' k (n + m) := by
  subst hj
  apply BitVec.eq_of_getLsbD_eq
  intro i hi
  simp only [BitVec.getLsbD_append, BitVec.getLsbD_extractLsb']
  by_cases h : i < m
  · rw [if_pos h]; simp [h, hi]
  · rw [if_neg h, show k + m + (i - m) = k + i by omega]
    simp [hi, show i - m < n by omega]

theorem opcodeOf_instrOf {op : Nat} {w : Fields} {i : Instr} (h : instrOf op w = some i) : opcodeOf i = some (op, w) := by
  unfold instrOf at h
  split at h <;> first
    | (cases h <;> rfl)
    | (split at h <;> cases h <;> rfl)

theorem instrOf_lt {op : Nat} {w : Fields} {i : Instr} (h : instrOf op w = some i) : op < 256 := by
  unfold instrOf at h
  split at h <;> first
    | decide
    | cases h

theorem shapeIf_some {c : Bool} {sh : Shape} (h : ((shapeIf c sh).orElse fun _ => none).isSome = true) : c = true := by
  cases c
  · cases h
  · rfl

theorem shapeIf_last {c : Bool} {sh : Shape} (h : (shapeIf c sh).isSome = true) : c = true := by
  cases c
  · cases h
  · rfl

theorem xlane_some {w : Fields} {tys : List Ty} {n : Nat} {g : Ty → Shape}
    (h : (((xlane w tys n).map g).orElse fun _ => none).isSome = true) : fb w 5 0 = n := by
  unfold xlane at h
  split at h
  · rename_i hc; exact hc.2
  · cases h

theorem fb_low {w : Fields} {n : Nat} (h : fb w 5 0 = n) : fb w 3 0 = n % 16 := by
  subst h
  unfold fb bits
  simp only [Nat.shiftRight_zero]
  omega

theorem fb_zero (w : Fields) (hi lo : Nat) (h : w.f = 0) : fb w hi lo = 0 := by
  unfold fb bits
  rw [h]
  simp

theorem fb_one (w : Fields) (hi : Nat) (h : w.f = 1) : fb w hi 0 = 1 := by
  unfold fb bits
  rw [h]
  simp

/-- The opcode and the function field tell the instructions of a word apart. -/
theorem instrOf_opcodeOf {op : Nat} {w : Fields} {i : Instr} (ho : opcodeOf i = some (op, w)) (hs : (shapeOf i).isSome = true) :
    instrOf op w = some i := by
  cases i <;> first
    | (cases ho; done)
    | (obtain ⟨rfl, rfl⟩ := Prod.mk.inj (Option.some.inj ho); rfl)
    | obtain ⟨rfl, rfl⟩ := Prod.mk.inj (Option.some.inj ho)
  case tret => 
    have h := of_decide_eq_true (shapeIf_some hs)
    exact if_neg (by rw [fb_zero _ _ _ h]; decide)
  case tretSkip =>
    have h := of_decide_eq_true (shapeIf_some hs)
    exact if_pos (fb_one _ _ h)
  case kmov | kmovFromw | kmovTow | kmovFromv | kmovTov | ksetAll | ksetNone | ksetBelow | kfindFirst | kfindLast =>
    have h := of_decide_eq_true (shapeIf_some hs)
    simp only [instrOf, h]
  case bcst =>
    have h := fb_low (xlane_some hs)
    exact if_neg (by rw [h]; decide)
  case bcstFirst => exact if_pos (fb_low (xlane_some hs))
  case elect =>
    have h := of_decide_eq_true (shapeIf_some hs)
    exact if_neg (by rw [h]; decide)
  case electK => exact if_pos (of_decide_eq_true (shapeIf_some hs))
  case xbeg =>
    have h := eq_of_beq (Bool.and_eq_true_iff.1 (shapeIf_some hs)).2
    exact if_neg (by rw [h]; decide)
  case xbegChk => exact if_pos (eq_of_beq (Bool.and_eq_true_iff.1 (shapeIf_some hs)).2)
  case wprm =>
    have h := of_decide_eq_true (shapeIf_some hs)
    have h : fb ‹Fields› 1 0 = 0 := by unfold fb bits at h ⊢; simp only [Nat.shiftRight_zero] at h ⊢; omega
    exact if_neg (by rw [h]; decide)
  case wprmRead =>
    have h := of_decide_eq_true (shapeIf_some hs)
    have h : fb ‹Fields› 1 0 = 1 := by unfold fb bits at h ⊢; simp only [Nat.shiftRight_zero] at h ⊢; omega
    exact if_pos h
  case twinCkpt =>
    have h := of_decide_eq_true (shapeIf_some hs)
    exact if_neg (by rw [fb_zero _ _ _ h]; decide)
  case kvaNew =>
    have h := of_decide_eq_true (shapeIf_last hs)
    exact if_neg (by rw [fb_zero _ _ _ h]; decide)
  case twinCmp => exact if_pos (fb_one _ _ (of_decide_eq_true (shapeIf_some hs)))
  case kvaApp => exact if_pos (fb_one _ _ (of_decide_eq_true (shapeIf_last hs)))

/-! ### Packing and unpacking -/

theorem formOf_eq (x : W64) : formOf x = (x.extractLsb' 62 2).toNat := by
  unfold formOf bits
  rw [BitVec.extractLsb'_toNat]

theorem opBits_eq (x : W64) : opBits x = (x.extractLsb' 54 8).toNat := by
  unfold opBits bits
  rw [BitVec.extractLsb'_toNat]

theorem formOf_pack (op : Nat) (w : Fields) : formOf (pack op w) = if w.ext.isSome then 2 else 0 := by
  rw [formOf_eq]
  unfold pack
  rw [extract_high _ _ _ _ (by decide), extract_high _ _ _ _ (by decide), extract_high _ _ _ _ (by decide),
    extract_high _ _ _ _ (by decide), extract_high _ _ _ _ (by decide), extract_high _ _ _ _ (by decide),
    extract_high _ _ _ _ (by decide), extract_high _ _ _ _ (by decide), extract_high _ _ _ _ (by decide), extract_all]
  split <;> rfl

theorem opBits_pack {op : Nat} (w : Fields) (h : op < 256) : opBits (pack op w) = op := by
  rw [opBits_eq]
  unfold pack
  rw [extract_high _ _ _ _ (by decide), extract_high _ _ _ _ (by decide), extract_high _ _ _ _ (by decide),
    extract_high _ _ _ _ (by decide), extract_high _ _ _ _ (by decide), extract_high _ _ _ _ (by decide),
    extract_high _ _ _ _ (by decide), extract_high _ _ _ _ (by decide), extract_low _ _ _ _ (by decide), extract_all]
  exact Nat.mod_eq_of_lt h

theorem unpack_pack (op : Nat) (w : Fields) : unpack (pack op w) w.ext = w := by
  have hk : (pack op w).getLsbD 46 = w.kn := by
    have : (pack op w).extractLsb' 46 1 = BitVec.ofBool w.kn := by
      unfold pack
      rw [extract_high _ _ _ _ (by decide), extract_high _ _ _ _ (by decide), extract_high _ _ _ _ (by decide),
        extract_high _ _ _ _ (by decide), extract_high _ _ _ _ (by decide), extract_low _ _ _ _ (by decide), extract_all]
    have := congrArg (fun v => v.getLsbD 0) this
    simpa [BitVec.getLsbD_extractLsb'] using this
  unfold unpack
  rw [hk]
  obtain ⟨ext, la, k, kn, d, a, b, c, f⟩ := w
  simp only [Fields.mk.injEq, true_and, and_true]
  unfold pack
  refine ⟨?_, ?_, ?_, ?_, ?_, ?_, ?_⟩
  · rw [extract_high _ _ _ _ (by decide), extract_high _ _ _ _ (by decide), extract_high _ _ _ _ (by decide),
      extract_high _ _ _ _ (by decide), extract_high _ _ _ _ (by decide), extract_high _ _ _ _ (by decide),
      extract_high _ _ _ _ (by decide), extract_low _ _ _ _ (by decide), extract_all]
  · rw [extract_high _ _ _ _ (by decide), extract_high _ _ _ _ (by decide), extract_high _ _ _ _ (by decide),
      extract_high _ _ _ _ (by decide), extract_high _ _ _ _ (by decide), extract_high _ _ _ _ (by decide),
      extract_low _ _ _ _ (by decide), extract_all]
  · rw [extract_high _ _ _ _ (by decide), extract_high _ _ _ _ (by decide), extract_high _ _ _ _ (by decide),
      extract_high _ _ _ _ (by decide), extract_low _ _ _ _ (by decide), extract_all]
  · rw [extract_high _ _ _ _ (by decide), extract_high _ _ _ _ (by decide), extract_high _ _ _ _ (by decide),
      extract_low _ _ _ _ (by decide), extract_all]
  · rw [extract_high _ _ _ _ (by decide), extract_high _ _ _ _ (by decide), extract_low _ _ _ _ (by decide), extract_all]
  · rw [extract_high _ _ _ _ (by decide), extract_low _ _ _ _ (by decide), extract_all]
  · rw [extract_low _ _ _ _ (by decide), extract_all]

theorem ofBool_bit (x : W64) (k : Nat) : BitVec.ofBool (x.getLsbD k) = x.extractLsb' k 1 := by
  apply BitVec.eq_of_getLsbD_eq
  intro i hi
  have : i = 0 := by omega
  subst this
  simp [BitVec.getLsbD_extractLsb']

theorem pack_unpack {x : W64} {ext : Option W64} (h : formOf x = if ext.isSome then 2 else 0) : pack (opBits x) (unpack x ext) = x := by
  have hf : (if ext.isSome then 2#2 else 0#2) = x.extractLsb' 62 2 := by
    rw [formOf_eq] at h
    apply BitVec.eq_of_toNat_eq
    rw [h]
    split <;> rfl
  have ho : BitVec.ofNat 8 (opBits x) = x.extractLsb' 54 8 := by
    rw [opBits_eq]
    exact BitVec.ofNat_toNat _ _ |>.trans (BitVec.setWidth_eq _)
  unfold pack unpack
  simp only
  rw [hf, ho, ofBool_bit, extract_append x (show 62 = 54 + 8 from rfl), extract_append x (show 54 = 50 + 4 from rfl), extract_append x (show 50 = 47 + 3 from rfl),
    extract_append x (show 47 = 46 + 1 from rfl), extract_append x (show 46 = 38 + 8 from rfl), extract_append x (show 38 = 30 + 8 from rfl), extract_append x (show 30 = 22 + 8 from rfl),
    extract_append x (show 22 = 14 + 8 from rfl), extract_append x (show 14 = 0 + 14 from rfl), extract_all]

theorem pair_halves (x y : BitVec 31) : (1#2 ++ x ++ y).extractLsb' 62 2 = 1#2 ∧ (1#2 ++ x ++ y).extractLsb' 31 31 = x ∧
    (1#2 ++ x ++ y).extractLsb' 0 31 = y := by
  refine ⟨?_, ?_, ?_⟩
  · rw [extract_high _ _ _ _ (by decide), extract_high _ _ _ _ (by decide), extract_all]
  · rw [extract_high _ _ _ _ (by decide), extract_low _ _ _ _ (by decide), extract_all]
  · rw [extract_low _ _ _ _ (by decide), extract_all]

theorem extract_twice {n : Nat} (x : BitVec n) (k l i m : Nat) (h : i + m ≤ l) :
    (x.extractLsb' k l).extractLsb' i m = x.extractLsb' (k + i) m := by
  apply BitVec.eq_of_getLsbD_eq
  intro j hj
  simp only [BitVec.getLsbD_extractLsb', hj, decide_true, Bool.true_and]
  rw [show k + (i + j) = k + i + j by omega]
  simp [show i + j < l by omega]

/-- A half read back. -/
theorem half_packHalf (h : Half) (x : W64) (lo : Nat) (hx : x.extractLsb' lo 31 = packHalf h) : unpackHalf x lo = h := by
  have e (i m : Nat) (hi : i + m ≤ 31) : x.extractLsb' (lo + i) m = (packHalf h).extractLsb' i m := by
    rw [← hx, extract_twice _ _ _ _ _ hi]
  unfold unpackHalf
  rw [e 24 7 (by decide), e 16 8 (by decide), e 8 8 (by decide), show lo = lo + 0 from rfl, e 0 8 (by decide)]
  obtain ⟨op7, d, a, b⟩ := h
  simp only [Half.mk.injEq]
  unfold packHalf
  refine ⟨?_, ?_, ?_, ?_⟩
  · rw [extract_high _ _ _ _ (by decide), extract_high _ _ _ _ (by decide), extract_high _ _ _ _ (by decide), extract_all]
  · rw [extract_high _ _ _ _ (by decide), extract_high _ _ _ _ (by decide), extract_low _ _ _ _ (by decide), extract_all]
  · rw [extract_high _ _ _ _ (by decide), extract_low _ _ _ _ (by decide), extract_all]
  · rw [extract_low _ _ _ _ (by decide), extract_all]

theorem packHalf_unpack (x : W64) (lo : Nat) : packHalf (unpackHalf x lo) = x.extractLsb' lo 31 := by
  unfold packHalf unpackHalf
  simp only
  rw [extract_append x (show lo + 24 = lo + 16 + 8 from rfl), extract_append x (show lo + 16 = lo + 8 + 8 from rfl),
    extract_append x (show lo + 8 = lo + 8 from rfl)]

theorem pair_unpack {x : W64} (h : formOf x = 1) : 1#2 ++ packHalf (unpackHalf x 31) ++ packHalf (unpackHalf x 0) = x := by
  have hf : 1#2 = x.extractLsb' 62 2 := by
    rw [formOf_eq] at h
    apply BitVec.eq_of_toNat_eq
    rw [h]
    rfl
  rw [packHalf_unpack, packHalf_unpack, hf, extract_append x (show 62 = 31 + 31 from rfl), extract_append x (show 31 = 0 + 31 from rfl), extract_all]

/-! ### Bytes -/

theorem ofLE_leBytes (n : Nat) : ∀ x, x < 256 ^ n → ofLE (leBytes n x) = x := by
  induction n with
  | zero => intro x h; simp at h; subst h; rfl
  | succ n ih =>
    intro x h
    have : x / 256 < 256 ^ n := Nat.div_lt_of_lt_mul (by rw [Nat.pow_succ] at h; omega)
    show (BitVec.ofNat 8 x).toNat + 256 * ofLE (leBytes n (x / 256)) = x
    rw [ih _ this, BitVec.toNat_ofNat]
    omega

theorem wordsOf_leBytes (x : W64) (l : Bytes) : wordsOf (leBytes 8 x.toNat ++ l) = x :: wordsOf l := by
  have : wordsOf (leBytes 8 x.toNat ++ l) = BitVec.ofNat 64 (ofLE (leBytes 8 x.toNat)) :: wordsOf l := rfl
  rw [this, ofLE_leBytes 8 x.toNat x.isLt, BitVec.ofNat_toNat, BitVec.setWidth_eq]

theorem wordsOf_all (l : List W64) : wordsOf (l.flatMap fun x => leBytes 8 x.toNat) = l := by
  induction l with
  | nil => rfl
  | cons x l ih => rw [List.flatMap_cons, wordsOf_leBytes, ih]

/-! ### Decoding -/

theorem fieldsOk_word {al : Allot} {i : Instr} {w : Fields} (h : wordOk al i w = true) : (shapeOf i).isSome = true := by
  unfold wordOk at h
  cases hs : shapeOf i
  · rw [hs] at h; cases h
  · rfl

theorem opReserved_instrOf {op : Nat} {w : Fields} {i : Instr} (h : instrOf op w = some i) : opReserved op = false := by
  unfold instrOf at h
  split at h <;> first
    | rfl
    | cases h

/-- A word of S or E form decodes as its opcode, function field and operands say. -/
theorem decodeWord_pack {op : Nat} {w : Fields} {i : Instr} (hi : instrOf op w = some i) (hok : wordOk Allot.top i w = true) :
    decodeWord (pack op w) w.ext = .ok i := by
  have ho := opBits_pack w (instrOf_lt hi)
  unfold decodeWord
  rw [formOf_pack]
  have hx : (if w.ext.isSome = true then 2 else 0) ≠ 3 ∧ (if w.ext.isSome = true then 2 else 0) ≠ 1 := by split <;> decide
  split
  · rename_i h; exact absurd h hx.1
  · rename_i h; exact absurd h hx.2
  · rw [ho, opReserved_instrOf hi, unpack_pack]
    simp [hi, hok]

theorem wellFormed_word {op : Nat} {w : Fields} {i : Instr} (h : opcodeOf i = some (op, w)) : WellFormed i = wordOk Allot.top i w := by
  cases i <;> first
    | (cases h; done)
    | (obtain ⟨rfl, rfl⟩ := Prod.mk.inj (Option.some.inj h); rfl)

theorem halfOk_lt {al : Allot} {h : Half} (ok : halfOk al h = true) : h.op7.toNat < 0x20 := by
  unfold halfOk halfShape at ok
  simp only at ok
  split at ok
  · cases ok
  · rename_i sh hs
    exact (List.getElem?_eq_some_iff.1 hs).1

theorem pairOk_iff {al : Allot} {a b : Half} :
    Sys2Proof.pairOk al a b = true ↔ (halfOk al a = true ∧ halfOk al b = true) ∧ pairRulesOk a b = true := by
  unfold Sys2Proof.pairOk
  rw [Bool.and_eq_true, Bool.and_eq_true]

theorem decodeWord_pair {a b : Half} (h : Sys2Proof.pairOk Allot.top a b = true) :
    decodeWord (1#2 ++ packHalf a ++ packHalf b) none = .ok (.pairWord a b) := by
  obtain ⟨h1, h2, h3⟩ := pair_halves (packHalf a) (packHalf b)
  have hf : formOf (1#2 ++ packHalf a ++ packHalf b) = 1 := by rw [formOf_eq, h1]; rfl
  obtain ⟨⟨ha, hb⟩, hr⟩ := pairOk_iff.1 h
  unfold decodeWord
  rw [hf]
  simp only
  rw [half_packHalf a _ _ h2, half_packHalf b _ _ h3, if_neg (by have := halfOk_lt ha; have := halfOk_lt hb; omega), ha, hb, hr]
  rfl

/-- What a word decodes to passes its checks, and is what the word packs. -/
theorem decodeWord_ok {x : W64} {ext : Option W64} {i : Instr} (hf : formOf x = 2 ↔ ext.isSome = true) (h : decodeWord x ext = .ok i) :
    WellFormed i = true ∧ encode i = x :: ext.toList := by
  unfold decodeWord at h
  split at h
  · cases h
  · rename_i h1
    simp only at h
    split at h
    · cases h
    split at h
    · cases h
    rename_i hok
    split at h
    · cases h
    rename_i hr
    cases h
    have he : ext = none := by
      cases ext
      · rfl
      · exact absurd (hf.2 rfl) (by rw [h1]; decide)
    subst he
    refine ⟨?_, ?_⟩
    · show Sys2Proof.pairOk Allot.top _ _ = true
      exact pairOk_iff.2 ⟨by simpa using hok, by simpa using hr⟩
    · show [_] = [_]
      rw [pair_unpack h1]
  · rename_i h3 h1
    split at h
    · cases h
    simp only at h
    split at h
    · cases h
    rename_i j hj
    split at h
    · rename_i hok
      cases h
      have ho := opcodeOf_instrOf hj
      have hw := wellFormed_word ho
      refine ⟨by rw [hw]; exact hok, ?_⟩
      have : encode i = pack (opBits x) (unpack x ext) :: ext.toList := by
        cases i <;> first
          | (cases ho; done)
          | (simp only [encode, ho]; rfl)
      rw [this, pack_unpack]
      have : formOf x < 4 := by rw [formOf_eq]; exact (x.extractLsb' 62 2).isLt
      cases ext with
      | none =>
        have : formOf x ≠ 2 := fun h => by cases hf.1 h
        show formOf x = 0
        have h1 : formOf x ≠ 1 := h1
        have h3 : formOf x ≠ 3 := h3
        omega
      | some e => exact hf.2 rfl
    · cases h

theorem admitted_word {op : Nat} {w : Fields} {al : Allot} {i : Instr} (h : opcodeOf i = some (op, w)) :
    admitted al i = wordOk al i w ∧ (∀ hdr last, classFits hdr i last = classAdmits (bits hdr.toNat 61 58) op last) ∧ lookahead i = w.la.toNat := by
  cases i <;> first
    | (cases h; done)
    | (obtain ⟨rfl, rfl⟩ := Prod.mk.inj (Option.some.inj h); exact ⟨rfl, fun _ _ => rfl, rfl⟩)

theorem getD_drop {l r : List W64} {n : Nat} (h : l.drop n = r) (k : Nat) : l.getD (n + k) 0 = r.getD k 0 := by
  subst h
  simp [List.getElem?_drop]

theorem length_drop' {l r : List W64} {n : Nat} (h : l.drop n = r) (hr : 0 < r.length) : l.length = n + r.length := by
  subst h
  simp only [List.length_drop] at hr ⊢
  omega

/-- The checks of a body word are those of its decoding, for the wave's allotment and the clause. -/
theorem inspect_word {al : Allot} {c : Clause} {i : Instr} {op : Nat} {w : Fields} {tail : List W64}
    (hl : c.words.drop c.idx = pack op w :: w.ext.toList ++ tail) (hi : instrOf op w = some i)
    (hok : wordOk al i w = true) (hcl : classAdmits (bits c.hdr.toNat 61 58) op tail.isEmpty = true) (hla : w.la.toNat ≤ tail.length) :
    inspect al c = .ok i := by
  have hword : c.word = pack op w := getD_drop hl 0
  have hlen := length_drop' hl (by simp)
  have hf : formOf c.word = if w.ext.isSome then 2 else 0 := by rw [hword, formOf_pack]
  have hsize : c.sizeAt c.idx = if w.ext.isSome then 2 else 1 := by
    unfold Clause.sizeAt
    rw [show c.words.getD c.idx 0 = c.word from rfl, hf]
    split <;> rfl
  have hext : c.ext = w.ext := by
    unfold Clause.ext
    rw [hf]
    have := getD_drop hl 1
    cases hx : w.ext with
    | none => rfl
    | some e => rw [hx] at this; exact congrArg some this
  have hlen : c.words.length = c.idx + c.sizeAt c.idx + tail.length := by
    rw [hlen, hsize]
    cases w.ext with
    | none => simp; omega
    | some e => simp; omega
  have hlast : decide (c.words.length ≤ c.idx + c.sizeAt c.idx) = tail.isEmpty := by
    rw [hlen]
    cases tail with
    | nil => simp
    | cons x l => simp
  have hop : opBits c.word = op := by rw [hword]; exact opBits_pack w (instrOf_lt hi)
  unfold inspect
  simp only
  rw [hf, hlast, hop, hext, hword, unpack_pack, hi]
  have hx : (if w.ext.isSome = true then 2 else 0) ≠ 3 ∧ (if w.ext.isSome = true then 2 else 0) ≠ 1 := by split <;> decide
  split
  · rename_i h; exact absurd h hx.1
  · rename_i h; exact absurd h hx.2
  · simp only [opReserved_instrOf hi, hcl, hok]
    simp
    omega

theorem inspect_pair {al : Allot} {c : Clause} {a b : Half} {tail : List W64}
    (hl : c.words.drop c.idx = (1#2 ++ packHalf a ++ packHalf b) :: tail)
    (hok : Sys2Proof.pairOk al a b = true) (hcl : classAdmitsPair (bits c.hdr.toNat 61 58) tail.isEmpty = true) :
    inspect al c = .ok (.pairWord a b) := by
  obtain ⟨h1, h2, h3⟩ := pair_halves (packHalf a) (packHalf b)
  have hword : c.word = 1#2 ++ packHalf a ++ packHalf b := getD_drop hl 0
  have hlen := length_drop' hl (by simp)
  have hf : formOf c.word = 1 := by rw [hword, formOf_eq, h1]; rfl
  have hsize : c.sizeAt c.idx = 1 := by
    unfold Clause.sizeAt
    rw [show c.words.getD c.idx 0 = c.word from rfl, hf]
    rfl
  have hlast : decide (c.words.length ≤ c.idx + c.sizeAt c.idx) = tail.isEmpty := by
    rw [hlen, hsize]
    cases tail with
    | nil => simp
    | cons x l => simp
  obtain ⟨⟨ha, hb⟩, hr⟩ := pairOk_iff.1 hok
  unfold inspect
  simp only
  rw [hf, hlast, hword]
  simp only
  rw [half_packHalf a _ _ h2, half_packHalf b _ _ h3, if_neg (by have := halfOk_lt ha; have := halfOk_lt hb; omega), hcl, ha, hb, hr]
  rfl

theorem encode_word {op : Nat} {w : Fields} {i : Instr} (h : opcodeOf i = some (op, w)) : encode i = pack op w :: w.ext.toList := by
  cases i <;> first
    | (cases h; done)
    | (simp only [encode, h])

/-- What decodes from a clause's next words, and passes the checks of its wave and place, is what issues. -/
theorem fragAt_some {s : State} {wid fr : Nat} {w : Wave} {f : Frag} (h : s.fragAt wid fr = some (w, f)) :
    s.wave wid = some w ∧ Tbl.find w.frags fr = some f := by
  unfold State.fragAt at h
  cases hw : s.wave wid with
  | none => rw [hw] at h; cases h
  | some x =>
    rw [hw] at h
    cases hf : Tbl.find x.frags fr with
    | none => simp [hf] at h
    | some g =>
      simp [hf] at h
      obtain ⟨rfl, rfl⟩ := h
      exact ⟨rfl, hf⟩

end Sys2Proof.Machine
end

