-- ==== Sys2Proof/Laws/Ending.lean ====
section
/-! SUPPORT. How waves, blocks and crews end, and what the rounds that follow leave alone. -/

namespace Sys2Proof.Machine

theorem ite_waves {c : Prop} [Decidable c] {a b : State} {x : Tbl Wave} (ha : a.waves = x) (hb : b.waves = x) :
    (if c then a else b).waves = x := by
  split
  · exact ha
  · exact hb

theorem unref_waves (s : State) (p pid h : Nat) : (s.unref p pid h).waves = s.waves := by
  unfold State.unref
  simp only
  split
  · rfl
  · split <;> rfl

theorem freeSeq_waves (s : State) (sid : Nat) (q : Seq) : (s.freeSeq sid q).waves = s.waves := by
  unfold State.freeSeq
  have := keep_foldl State.waves (g := fun (s : State) (x : Nat) => s.unref (seqPool sid) x (seqDie sid)) (fun s x => unref_waves s _ _ _)
    q.pages { s with seqs := Tbl.del s.seqs sid }
  exact this

theorem retireParticle_waves (s : State) (owner key : Nat) : (s.retireParticle owner key).waves = s.waves := by
  unfold State.retireParticle
  simp only
  split
  · exact freeSeq_waves _ _ _
  · rfl

theorem askBatch_waves (s : State) (d p : Nat) : (s.askBatch d p).waves = s.waves := by
  unfold State.askBatch
  simp only
  split <;> rfl

theorem cloneSeq_waves {s t : State} {sid id : Nat} {q : Seq} (h : s.cloneSeq sid q = some (id, t)) : t.waves = s.waves := by
  unfold State.cloneSeq at h
  simp only at h
  split at h
  · cases h
  · split at h
    · cases h
    split at h
    · cases h
    cases h
    exact askBatch_waves _ _ _

theorem holdBytes_waves (s : State) (lid crew : Nat) (l : List (Nat × Byte)) : (s.holdBytes lid crew l).waves = s.waves := by
  unfold State.holdBytes
  split <;> rfl

theorem starveStep_waves {s t : State} {lid : Nat} (h : s.starveStep lid = some t) : t.waves = s.waves := by
  unfold State.starveStep at h
  split at h
  · cases h
  · split at h
    · cases h
    · cases h; rfl

theorem starveAtStep_waves {s t : State} {l : List Loc} (h : s.starveAtStep l = some t) : t.waves = s.waves := by
  unfold State.starveAtStep at h
  obtain ⟨x, -, hx⟩ := List.exists_of_findSome?_eq_some h
  exact starveStep_waves hx

/-- What an attempt at a clone leaves of the waves. -/
def CloneDo.keeps (d : CloneDo) (w : Tbl Wave) : Prop := (∀ t, d = .made t → t.waves = w) ∧ ∀ t, d = .stopped t → t.waves = w

theorem CloneDo.keeps_stalls (w : Tbl Wave) : CloneDo.stalls.keeps w := ⟨nofun, nofun⟩
theorem CloneDo.keeps_page (va : Nat) (b : Bool) (w : Tbl Wave) : (CloneDo.page va b).keeps w := ⟨nofun, nofun⟩
theorem CloneDo.keeps_stopped {t : State} {w : Tbl Wave} (h : t.waves = w) : (CloneDo.stopped t).keeps w :=
  ⟨nofun, fun u hu => by cases hu; exact h⟩
theorem CloneDo.keeps_made {t : State} {w : Tbl Wave} (h : t.waves = w) : (CloneDo.made t).keeps w :=
  ⟨fun u hu => by cases hu; exact h, nofun⟩

theorem cloneStarves_keeps {s : Option State} {w : Tbl Wave} (h : ∀ t, s = some t → t.waves = w) : (cloneStarves s).keeps w := by
  cases s with
  | none => exact CloneDo.keeps_stalls w
  | some t => exact CloneDo.keeps_stopped (h t rfl)

theorem copyKilo_keeps (s : State) (lid ctx die : Nat) (a b : List Loc) {body : State → CloneDo}
    (hb : ∀ t, t.waves = s.waves → (body t).keeps s.waves) : (s.copyKilo lid ctx die a b body).keeps s.waves := by
  unfold State.copyKilo
  simp only
  have hm : (s.meetHome a).waves = s.waves := (meetHome_cores s a).1.home.noWave.waves
  have hr : ((s.meetHome a).recallLocs a).waves = s.waves := (recallLocs_home _ a).noWave.waves.trans hm
  split
  · exact CloneDo.keeps_stopped hm
  split
  · exact CloneDo.keeps_stopped hm
  split
  · exact CloneDo.keeps_stalls _
  split
  · exact cloneStarves_keeps fun t ht => (starveAtStep_waves ht).trans hm
  split
  · refine cloneStarves_keeps fun t ht => ?_
    cases ha : ((s.meetHome a).recallLocs a).starveAtStep b with
    | some u => rw [ha] at ht; cases ht; exact (starveAtStep_waves ha).trans hr
    | none => rw [ha] at ht; exact (starveStep_waves ht).trans hr
  · exact hb _ ((holdBytes_waves _ _ _ _).trans ((writeDev_noWave _ _ _ _ _).waves.trans hr))

theorem cloneOf_waves {s t : State} {owner sid : Nat} {id : W32} (h : s.cloneOf owner sid = some (id, t)) : t.waves = s.waves := by
  unfold State.cloneOf at h
  split at h
  · cases h; rfl
  · split at h
    · cases h; rfl
    · rw [Option.map_eq_some_iff] at h
      obtain ⟨r, hr, h⟩ := h
      cases h
      exact cloneSeq_waves hr

theorem tryClone_waves (s : State) (lid : Nat) (l : Launch) (pop : Nat) (j : CloneJob) : (s.tryClone lid l pop j).keeps s.waves := by
  have hmade : ∀ (t : State) (pop key par sid : Nat) (w : W32) (g : W64), t.waves = s.waves →
      (match t.cloneOf l.ctx sid with
        | none => CloneDo.stalls
        | some (id, u) => CloneDo.made (u.putClone pop key par w id g)).keeps s.waves := by
    intro t pop key par sid w g ht
    split
    · exact CloneDo.keeps_stalls _
    · rename_i hc
      exact CloneDo.keeps_made ((cloneOf_waves hc).trans ht)
  unfold State.tryClone
  simp only
  split
  · exact CloneDo.keeps_stalls _
  split
  · exact hmade s _ _ _ _ _ _ rfl
  split
  · exact CloneDo.keeps_stalls _
  split
  · exact CloneDo.keeps_page _ _ _
  · exact CloneDo.keeps_page _ _ _
  · exact copyKilo_keeps s _ _ _ _ _ fun t ht => hmade t _ _ _ _ _ _ ht

theorem makeClones_waves (lid : Nat) (l : Launch) (pop : Nat) : ∀ (jobs : List CloneJob) (s : State) (held : List Nat),
    (State.makeClones lid l pop s jobs held).1.waves = s.waves
  | [], s, held => rfl
  | j :: js, s, held => by
    unfold State.makeClones
    simp only
    split
    · exact makeClones_waves lid l pop js s _
    · obtain ⟨h1, h2⟩ := tryClone_waves s lid l pop j
      split
      · rename_i t ht
        rw [makeClones_waves lid l pop js t _, h1 t ht]
      · exact makeClones_waves lid l pop js s _
      · rename_i t ht
        exact (makeClones_waves lid l pop js t _).trans (h2 t ht)
      · exact makeClones_waves lid l pop js _ _

theorem secondPass_waves (s : State) (lid : Nat) (jobs : List CloneJob) : (s.secondPass lid jobs).waves = s.waves := by
  unfold State.secondPass
  split
  · rfl
  · split
    · rfl
    · exact makeClones_waves lid _ _ jobs s []

theorem modParticle_waves (s : State) (k : Nat) (f : Particle → Particle) : (s.modParticle k f).waves = s.waves := rfl

theorem resample_waves (s : State) (lid : Nat) (l : Launch) (r : RoundState) : (s.resample lid l r).waves = s.waves := by
  unfold State.resample
  simp only
  generalize hs : (if ((sortNats (r.arrived.map handleKey)).map fun k => (s.particle k).w.toNat).any fun x => (fval .f32 x).isNan then
    s.modPop r.pop fun p => { p with status := p.status ||| 2 } else s) = u
  have hu : u.waves = s.waves := by
    subst hs
    split <;> rfl
  split
  · unfold State.extinction
    simp only
    have := keep_foldl State.waves (g := fun (s : State) (k : Nat) => s.retireParticle l.ctx k) (fun s k => retireParticle_waves s _ _)
      (sortNats (r.arrived.map handleKey)) u
    exact this.trans hu
  · rw [secondPass_waves]
    generalize offspring _ _ _ _ _ = counts
    generalize (sortNats (r.arrived.map handleKey)).zip counts = pairs
    generalize hv : (u.modPop r.pop fun p => _) = v
    have hv' : v.waves = s.waves := by subst hv; exact hu
    have h1 := keep_foldl State.waves (g := fun (s : State) (p : Nat × Nat) => s.retireParticle l.ctx p.1) (fun s p => retireParticle_waves s _ _)
      (pairs.filter fun p => p.2 == 0) v
    refine Eq.trans ?_ (h1.trans hv')
    apply keep_foldl State.waves
    intro _ _; rfl

theorem checkRound_waves (s : State) (lid : Nat) : (s.checkRound lid).waves = s.waves := by
  unfold State.checkRound
  split
  · rfl
  · split
    · rfl
    · exact ite_waves (resample_waves _ _ _ _) rfl

theorem finishParticle_waves (s : State) (lid h : Nat) : (s.finishParticle lid h).waves = s.waves := by
  unfold State.finishParticle
  split
  · rfl
  · simp only
    split
    · exact checkRound_waves _ _
    · rfl

theorem particleEnds_waves (s : State) (lid h : Nat) (rsb : Bool) : (s.particleEnds lid h rsb).waves = s.waves := by
  unfold State.particleEnds
  split
  · rfl
  · split
    · rfl
    · exact finishParticle_waves _ _ _

theorem ticketOn_waves (lid : Nat) : ∀ (n : Nat) (s : State), (State.ticketOn lid n s).waves = s.waves
  | 0, s => rfl
  | n + 1, s => by
    unfold State.ticketOn
    split
    · rfl
    · simp only
      split
      · exact ticketOn_waves lid n _
      · rfl

theorem endStream_waves (s : State) (bid : Nat) (b : Block) : (s.endStream bid b).waves = s.waves := by
  unfold State.endStream
  split
  · rfl
  · exact ticketOn_waves _ _ _

theorem endCrew_waves (s : State) (lid crew : Nat) : (s.endCrew lid crew).waves = s.waves := rfl

theorem blocksOff_waves (s : State) (k : Nat) (l : List Nat) (lid ck : Nat) (f : Launch → Launch) (g : Crew → Crew) :
    ((({ s with blocks := Tbl.keep (fun j _ => j != k && !l.contains j) s.blocks } : State).modLaunch lid f).modCrew ck g).waves = s.waves := rfl

theorem passArea_waves (s : State) (bid : Nat) (b : Block) : (s.passArea bid b).waves = s.waves := by
  unfold State.passArea
  split <;> rfl

theorem endBlock_waves (s : State) (bid : Nat) (b : Block) : (s.endBlock bid b).waves = s.waves := by
  unfold State.endBlock
  simp only
  generalize hs : s.endStream bid b = e0
  have he0 : e0.waves = s.waves := by rw [← hs]; exact endStream_waves s bid b
  generalize (if e0.isTwin b.lid then (e0.twinBid (twinCore (bid / 8)) b).toList else []) = sh
  generalize hc : (bid :: sh).foldl State.clearBusy (e0.passArea bid b) = e
  have he : e.waves = s.waves := by
    rw [← hc, keep_foldl State.waves (g := State.clearBusy) (fun _ _ => rfl), passArea_waves, he0]
  split
  · exact ite_waves ((endCrew_waves _ _ _).trans ((blocksOff_waves _ _ _ _ _ _ _).trans he)) ((blocksOff_waves _ _ _ _ _ _ _).trans he)
  · exact (blocksOff_waves _ _ _ _ _ _ _).trans he

theorem find_keep {β : Type} (p : Nat → Bool) : ∀ (t : Tbl β) (k : Nat), Tbl.find (Tbl.keep (fun j _ => p j) t) k = if p k then Tbl.find t k else none
  | [], k => by simp [Tbl.keep, Tbl.find]
  | (j, x) :: t, k => by
    unfold Tbl.keep
    by_cases hj : p j
    · rw [if_pos hj]
      unfold Tbl.find
      by_cases e : j = k
      · subst e; simp [hj]
      · simp only [e, if_false]; exact find_keep p t k
    · rw [if_neg hj, find_keep p t k]
      by_cases e : j = k
      · subst e; simp [hj]
      · conv => rhs; rw [show Tbl.find ((j, x) :: t) k = Tbl.find t k by simp [Tbl.find, e]]

theorem freeWave_wave (s : State) (wid : Nat) (w : Wave) (last : Bool) (k : Nat) :
    (s.freeWave wid w last).wave k = if (s.bothWaves wid).contains k then none else s.wave k := by
  have hkeep : Tbl.find (Tbl.keep (fun k _ => !(s.bothWaves wid).contains k) s.waves) k =
      if (s.bothWaves wid).contains k then none else s.wave k := by
    rw [find_keep]
    cases (s.bothWaves wid).contains k <;> rfl
  rw [← hkeep]
  unfold State.wave
  congr 1
  unfold State.freeWave
  simp only
  have hm : ∀ u : State, (match u.block (w.bid wid) with | some b => u.endBlock (w.bid wid) b | none => u).waves = u.waves := by
    intro u
    split
    · exact endBlock_waves _ _ _
    · rfl
  generalize hg : (s.bothWaves wid).foldl _ (s.releaseGrants wid) = g
  have hgw : g.waves = s.waves := by
    rw [← hg]
    refine (keep_foldl State.waves (fun u k => ?_) _ _).trans rfl
    split
    · split <;> rfl
    · rfl
  have hk : ({ g with waves := Tbl.keep (fun k _ => !(s.bothWaves wid).contains k) g.waves } : State).waves =
      Tbl.keep (fun k _ => !(s.bothWaves wid).contains k) s.waves := by rw [hgw]
  exact ite_waves hk (ite_waves ((particleEnds_waves _ _ _ _).trans ((hm _).trans hk)) ((hm _).trans hk))

/-! ### The moves at the end of a wave -/

theorem endMove_affects {s t : State} {q : Who} {r : Except Halt State} (hr : ∀ u, r = .ok u → Affects q.wid s u)
    (h : endMove s q r = .go t) : Affects q.wid s t := by
  unfold endMove at h
  split at h
  · cases h; exact hr _ rfl
  · cases h
  · cases h
  · split at h <;> cases h
  · cases h

/-- The moves leave the launches, and of the ending wave all but its aborted spans. -/
theorem endMoves_affects {s t : State} {wid : Nat} {w : Wave} {l : Nat} (h : s.endMoves wid w l = .go t) : Affects wid s t := by
  unfold State.endMoves EndDo.andThen at h
  simp only at h
  have hq : (whoOf w wid 0).wid = wid := rfl
  split at h
  · rename_i u hu
    have f1 := endMove_affects (fun x hx => commitUp_affects hx) hu
    split at h
    · cases h; exact f1
    · split at h
      · rename_i v hv
        have f2 := endMove_affects (fun x hx => absorb_affects hx fun u hu => blockUp_noWave hu) hv
        split at h
        · cases h; exact f1.trans f2
        · exact f1.trans (f2.trans (endMove_affects (fun x hx => (crewHome_noWave hx).affects _) h))
      · rename_i hne
        rw [h] at hne
        exact absurd rfl (hne t)
  · rename_i hne
    rw [h] at hne
    exact absurd rfl (hne t)

end Sys2Proof.Machine
end

