-- ==== Sys2Proof/Laws/Issue.lean ====
section
/-! SUPPORT. Fragments: a core's cycle, and redirects. -/

namespace Sys2Proof.Machine

theorem fragAt_of {s : State} {wid fr : Nat} {w : Wave} {f : Frag} (h : s.fragAt wid fr = some (w, f)) :
    s.wave wid = some w ∧ Tbl.find w.frags fr = some f := fragAt_some h

theorem any_none {α : Type} {l : List α} {p : α → Bool} (h : ∀ x ∈ l, p x = false) : l.any p = false := by
  rw [List.any_eq_false]
  exact fun x hx => by simp [h x hx]

theorem modWave_const {s : State} {k : Nat} {w : Wave} (f : Wave → Wave) (h : s.wave k = some w) :
    s.modWave k f = s.modWave k fun _ => f w := by
  exact State.modWave_congr (v := w) h rfl

theorem closeSpans_above (w : Wave) {l m : Nat} (h : l < m) : (w.closeSpans l).span m = w.span m := by
  have key : ∀ (ls : List Nat) (w : Wave), m ∉ ls →
      (ls.foldl (fun w i => let sp := w.span i; w.setSpan i { Span.closed with fails := if sp.holds then 0 else sp.fails }) w).span m = w.span m := by
    intro ls
    induction ls with
    | nil => intro w _; rfl
    | cons i ls ih =>
      intro w h
      rw [List.foldl_cons, ih _ fun h' => h (List.mem_cons_of_mem _ h')]
      have hi : m ≠ i := fun e => h (e ▸ List.mem_cons_self)
      simp only [Wave.span_setSpan, if_neg hi]
  exact key _ w (by simp; omega)

/-- Waves differ in their fragments alone. -/
def FragsOnly (s t : State) : Prop := ∀ k u, s.wave k = some u → ∃ u', t.wave k = some u' ∧ { u' with frags := u.frags } = u

theorem FragsOnly.refl (s : State) : FragsOnly s s := fun _ u h => ⟨u, h, rfl⟩

theorem FragsOnly.trans {s t r : State} (h : FragsOnly s t) (g : FragsOnly t r) : FragsOnly s r := by
  intro k u hu
  obtain ⟨v, hv, ev⟩ := h k u hu
  obtain ⟨x, hx, ex⟩ := g k v hv
  exact ⟨x, hx, (congrArg (fun y : Wave => { y with frags := u.frags }) ex).trans ev⟩

theorem FragsOnly.of_waves {s t : State} (h : t.waves = s.waves) : FragsOnly s t := by
  intro k u hu
  refine ⟨u, ?_, rfl⟩
  unfold State.wave at *
  rw [h]
  exact hu

theorem FragsOnly.modWave (s : State) (k : Nat) (g : Wave → Tbl Frag) : FragsOnly s (s.modWave k fun w => { w with frags := g w }) := by
  intro j u hu
  by_cases e : j = k
  · subst e
    refine ⟨{ u with frags := g u }, ?_, rfl⟩
    rw [State.wave_modWave, if_pos rfl, hu]
    rfl
  · refine ⟨u, ?_, rfl⟩
    rw [State.wave_modWave, if_neg e]
    exact hu

theorem FragsOnly.foldl {α : Type} {f : State → α → State} (h : ∀ s x, FragsOnly s (f s x)) : ∀ (l : List α) (s : State), FragsOnly s (l.foldl f s)
  | [], s => .refl s
  | x :: l, s => (h s x).trans (FragsOnly.foldl h l (f s x))

/-- Tokens of copies of no bytes fade (R316). -/
theorem fade_does (u : Wave) : { u.fade with tok := u.tok, fading := u.fading } = u ∧ u.fade.tok = u.tok &&& ~~~u.fading ∧ u.fade.fading = 0 := by
  unfold Wave.fade
  split
  · rename_i h
    refine ⟨rfl, ?_, h⟩
    rw [h]
    exact (BitVec.and_allOnes).symm
  · exact ⟨rfl, rfl, rfl⟩

/-! ### Ranks and picks (R133 to R135, R255) -/

theorem Cand.before_iff (x y : Cand) : x.before y = true ↔
    (256 ≤ x.age ∧ y.age < 256) ∨ ((256 ≤ x.age ↔ 256 ≤ y.age) ∧ ((x.age < 256 ∧ y.prio < x.prio) ∨
      ((256 ≤ x.age ∨ x.prio = y.prio) ∧ (y.age < x.age ∨ (x.age = y.age ∧ (x.wid < y.wid ∨ (x.wid = y.wid ∧ x.fr < y.fr))))))) := by
  unfold Cand.before
  simp only [bne_iff_ne, ne_eq, Bool.and_eq_true, Bool.not_eq_true', decide_eq_false_iff_not]
  by_cases h1 : 256 ≤ x.age <;> by_cases h2 : 256 ≤ y.age <;> by_cases h3 : x.prio = y.prio <;> by_cases h4 : x.age = y.age <;>
    simp [h1, h2, h3, h4] <;> omega

theorem Cand.before_asymm {x y : Cand} (h : x.before y = true) : y.before x = false := by
  rw [Bool.eq_false_iff]; intro g
  rw [Cand.before_iff] at h g; omega

theorem Cand.before_trans {x y z : Cand} (h : y.before x = false) (g : z.before y = false) : z.before x = false := by
  rw [Bool.eq_false_iff] at *
  intro k
  rw [ne_eq, Cand.before_iff] at h g
  rw [Cand.before_iff] at k
  omega

theorem ranked_mem {x : Cand} {l : List Cand} : x ∈ ranked l ↔ x ∈ l := mem_sortBy _

theorem ranked_sorted (l : List Cand) : (ranked l).Pairwise fun a b => b.before a = false :=
  sortBy_pairwise (before := Cand.before) (fun _ _ => Cand.before_asymm) (fun _ _ _ => Cand.before_trans) l

/-- A list cut after the elements that come before all of the rest. -/
theorem mem_take_of_sorted {l : List Cand} (hs : l.Pairwise fun a b => b.before a = false) {n : Nat} {x y : Cand} (hx : x ∈ l.take n)
    (hy : y ∈ l) (hb : y.before x = true) : y ∈ l.take n := by
  rw [List.mem_take_iff_getElem] at hx ⊢
  obtain ⟨i, hi, rfl⟩ := hx
  obtain ⟨j, hj, rfl⟩ := List.getElem_of_mem hy
  refine ⟨j, ?_, rfl⟩
  refine Decidable.byContradiction fun hc => ?_
  have hij : i < j := by omega
  have := List.pairwise_iff_getElem.1 hs i j (by omega) hj hij
  rw [this] at hb
  cases hb

/-- No ready fragment is passed by for one that ranks below it, where neither holds a lane (R133, R135). -/
theorem picksOf_ranked {n : Nat} {l : List Cand} {x y : Cand} (hx : x ∈ picksOf n l) (hy : y ∈ l) (hxh : x.holds = false) (hyh : y.holds = false)
    (hb : y.before x = true) : y ∈ picksOf n l := by
  unfold picksOf at hx ⊢
  simp only at hx ⊢
  have hrest : y ∈ ranked (l.filter fun x => !x.holds) := ranked_mem.2 (List.mem_filter.2 ⟨hy, by simp [hyh]⟩)
  have hs := ranked_sorted (l.filter fun x => !x.holds)
  have hown : ∀ z ∈ l.filter (·.holds), z.holds = true := fun z hz => (List.mem_filter.1 hz).2
  generalize l.filter (·.holds) = own at *
  generalize ranked (l.filter fun x => !x.holds) = rest at *
  -- the part after `own`
  have hcut : ∀ (b : List Cand) (z : Cand), z.holds = false → (z ∈ (own ++ b).take 2 ↔ z ∈ b.take (2 - own.length)) := by
    intro b z hz
    rw [List.take_append, List.mem_append]
    constructor
    · rintro (h | h)
      · rw [hown z (List.mem_of_mem_take h)] at hz; cases hz
      · exact h
    · exact .inr
  rw [List.append_assoc, hcut _ _ hxh] at hx
  rw [List.append_assoc, hcut _ _ hyh]
  have hsort : (rest.take (2 - n) ++ ((rest.drop (2 - n)).filter fun x => decide (256 ≤ x.age)).take (n - own.length)).Pairwise
      fun a b => b.before a = false := by
    rw [← List.take_append_drop (2 - n) rest, List.pairwise_append] at hs
    rw [List.pairwise_append]
    refine ⟨hs.1, (hs.2.1.filter _).take, fun a ha b hb => hs.2.2 a ha b ?_⟩
    exact (List.mem_filter.1 (List.mem_of_mem_take hb)).1
  refine mem_take_of_sorted hsort hx ?_ hb
  have hx' := List.mem_of_mem_take hx
  rw [List.mem_append] at hx' ⊢
  rcases hx' with hx' | hx'
  · exact .inl (mem_take_of_sorted hs hx' hrest hb)
  · by_cases hd : y ∈ rest.take (2 - n)
    · exact .inl hd
    · refine .inr ?_
      have hy' : y ∈ rest.drop (2 - n) := by
        have := hrest
        rw [← List.take_append_drop (2 - n) rest, List.mem_append] at this
        exact this.resolve_left hd
      have hxa := (List.mem_filter.1 (List.mem_of_mem_take hx')).2
      have hya : 256 ≤ y.age := by
        rw [Cand.before_iff] at hb
        have : 256 ≤ x.age := by simpa using hxa
        omega
      refine mem_take_of_sorted ?_ hx' (List.mem_filter.2 ⟨hy', by simpa using hya⟩) hb
      exact ((List.pairwise_append.1 (by rw [List.take_append_drop]; exact hs)).2.1).filter _

/-- A ready fragment that holds a lane issues on it (R134). -/
theorem picksOf_holder {n : Nat} {l : List Cand} {x : Cand} (hx : x ∈ l) (hh : x.holds = true) (hn : (l.filter (·.holds)).length ≤ 2) :
    x ∈ picksOf n l := by
  unfold picksOf
  simp only
  rw [List.append_assoc, List.take_append, List.mem_append]
  left
  rw [List.take_of_length_le hn]
  exact List.mem_filter.2 ⟨hx, hh⟩

theorem mem_readies (s : State) (core : Nat) (x : Cand) : x ∈ s.readies core ↔ ∃ w f, (x.wid, w) ∈ s.waves ∧ (x.fr, f) ∈ w.frags ∧
    coreOfWave x.wid = core ∧ s.ready x.wid x.fr w f = true ∧ x.age = f.age ∧ x.prio = w.prio ∧ x.holds = f.holdsLane := by
  unfold State.readies
  simp only [List.mem_flatMap, List.mem_map, List.mem_filter, beq_iff_eq]
  constructor
  · rintro ⟨⟨k, w⟩, ⟨hk, hc⟩, ⟨fr, f⟩, ⟨hf, hr⟩, rfl⟩
    exact ⟨w, f, hk, hf, hc, hr, rfl, rfl, rfl⟩
  · rintro ⟨w, f, hk, hf, hc, hr, h1, h2, h3⟩
    refine ⟨(x.wid, w), ⟨hk, hc⟩, (x.fr, f), ⟨hf, hr⟩, ?_⟩
    obtain ⟨_, _, _, _, _⟩ := x
    simp only at h1 h2 h3
    rw [h1, h2, h3]

/-- Of the fragments that hold a lane those that are ready are no more than the lanes held. -/
theorem readies_hold (s : State) (core : Nat) : ((s.readies core).filter (·.holds)).length ≤ s.laneHolders core := by
  unfold State.readies State.laneHolders
  generalize s.waves = ws
  have hin : ∀ p : Nat × Wave, (((p.2.frags.filter fun q => s.ready p.1 q.1 p.2 q.2).map fun q =>
      ({ wid := p.1, fr := q.1, age := q.2.age, prio := p.2.prio, holds := q.2.holdsLane } : Cand)).filter (·.holds)).length ≤
      if p.2.frozen.isNone = true then (p.2.frags.filter fun q => q.2.holdsLane).length else 0 := by
    intro p
    generalize p.2.frags = fs
    induction fs with
    | nil => simp
    | cons q fs ih =>
      by_cases hr : s.ready p.1 q.1 p.2 q.2 = true
      · have hz : p.2.frozen.isNone = true := by
          unfold State.ready State.canGo at hr
          split at hr
          · cases hr
          · simp only [Wave.runs, Bool.and_eq_true] at hr
            exact hr.1.1.2.1.1.2
        rw [if_pos hz] at ih ⊢
        rw [List.filter_cons, if_pos hr, List.map_cons, List.filter_cons, List.filter_cons]
        by_cases hh : q.2.holdsLane = true
        · simp only [hh, if_true, List.length_cons]
          omega
        · simp only [hh, Bool.false_eq_true, if_false]
          exact ih
      · rw [List.filter_cons, if_neg hr]
        refine Nat.le_trans ih ?_
        split
        · exact List.Sublist.length_le (List.Sublist.filter _ (List.sublist_cons_self _ _))
        · exact Nat.le_refl _
  induction ws with
  | nil => simp
  | cons p ws ih =>
    rw [List.filter_cons, List.filter_cons]
    by_cases hc : (coreOfWave p.1 == core) = true
    · rw [if_pos hc, List.flatMap_cons, List.filter_append, List.length_append]
      have h1 := hin p
      by_cases hz : p.2.frozen.isNone = true
      · rw [if_pos (by rw [hc, hz]; rfl), List.flatMap_cons, List.length_append]
        rw [if_pos hz] at h1
        omega
      · rw [if_neg (by rw [hc]; simpa using hz)]
        rw [if_neg hz] at h1
        omega
    · rw [if_neg hc, if_neg (by simp only [Bool.and_eq_true]; exact fun h => hc h.1)]
      exact ih

/-- An old fragment is passed by only for two others (R135). -/
theorem picksOf_old {n : Nat} {l : List Cand} {x : Cand} (hx : x ∈ l) (hold : 256 ≤ x.age) (hn : n ≤ 2) (hh : (l.filter (·.holds)).length ≤ n)
    (hp : x ∉ picksOf n l) : (picksOf n l).length = 2 := by
  unfold picksOf at hp ⊢
  simp only at hp ⊢
  have hown : x.holds = true → x ∈ l.filter (·.holds) := fun h => List.mem_filter.2 ⟨hx, h⟩
  have hrest : x.holds = false → x ∈ ranked (l.filter fun x => !x.holds) := fun h => ranked_mem.2 (List.mem_filter.2 ⟨hx, by simp [h]⟩)
  generalize l.filter (·.holds) = own at *
  generalize ranked (l.filter fun x => !x.holds) = rest at *
  have htwo : ∀ m : List Cand, 2 ≤ m.length → (m.take 2).length = 2 := fun m h => by rw [List.length_take]; omega
  refine htwo _ (Decidable.byContradiction fun hlt => ?_)
  rw [List.take_of_length_le (by omega), List.mem_append, List.mem_append] at hp
  cases hxh : x.holds with
  | true => exact hp (.inl (.inl (hown hxh)))
  | false =>
    have hr := hrest hxh
    have h1 : 2 - n < rest.length := by
      refine Decidable.byContradiction fun h => ?_
      rw [List.take_of_length_le (by omega)] at hp
      exact hp (.inl (.inr hr))
    have h2 : x ∈ (rest.drop (2 - n)).filter fun x => decide (256 ≤ x.age) := by
      refine List.mem_filter.2 ⟨?_, by simpa using hold⟩
      rw [← List.take_append_drop (2 - n) rest, List.mem_append] at hr
      exact hr.resolve_left fun h => hp (.inl (.inr h))
    have h3 : n - own.length < ((rest.drop (2 - n)).filter fun x => decide (256 ≤ x.age)).length := by
      refine Decidable.byContradiction fun h => ?_
      rw [List.take_of_length_le (l := (rest.drop (2 - n)).filter _) (by omega)] at hp
      exact hp (.inr h2)
    simp only [List.length_append, List.length_take] at hlt
    omega

theorem picksOf_length (n : Nat) (l : List Cand) : (picksOf n l).length ≤ 2 := by
  unfold picksOf
  rw [List.length_take]
  exact Nat.min_le_left _ _

/-- What issues of the picks: all, or of two that conflict the one that wins (R254, R255). -/
theorem issuing_of (s : State) (core : Nat) (l : List Cand) :
    let picks := picksOf (s.laneHolders core) l
    (∀ x ∈ s.issuing core l, x ∈ picks) ∧
      (∀ x ∈ picks, x ∉ s.issuing core l → ∃ y ∈ s.issuing core l, (s.conflict x y || s.conflict y x) = true ∧ x.wins y = false) ∧
      (s.issuing core l).length ≤ 2 := by
  intro picks
  have hlen := picksOf_length (s.laneHolders core) l
  unfold State.issuing
  split
  · rename_i x y hp
    have hpk : picks = [x, y] := hp
    rw [hpk]
    split
    · rename_i hc
      refine ⟨fun z hz => ?_, fun z hz hn => ?_, by simp⟩
      · rw [List.mem_singleton] at hz
        split at hz <;> simp [hz]
      · refine ⟨_, List.mem_singleton_self _, ?_⟩
        rw [List.mem_singleton] at hn
        by_cases hw : x.wins y = true
        · simp only [hw, if_true] at hn ⊢
          have hzy : z = y := by simpa [hn] using hz
          subst hzy
          refine ⟨by simp [hc], ?_⟩
          rw [Bool.eq_false_iff]
          intro hw'
          unfold Cand.wins at hw hw'
          split at hw <;> split at hw' <;> simp at hw hw' <;> omega
        · simp only [hw, Bool.false_eq_true, if_false] at hn ⊢
          have hzx : z = x := by simpa [hn] using hz
          subst hzx
          exact ⟨by simp [hc], by simpa using hw⟩
    · split
      · exact ⟨fun z hz => hz, fun z hz hn => absurd hz hn, by simp⟩
      · refine ⟨fun z hz => ?_, fun z hz hn => ?_, by simp⟩
        · simp only [List.mem_cons, List.not_mem_nil, or_false] at hz ⊢
          exact hz.symm
        · simp only [List.mem_cons, List.not_mem_nil, or_false] at hz hn
          exact absurd hz.symm hn
  · exact ⟨fun z hz => hz, fun z hz hn => absurd hz hn, hlen⟩

/-! ### One fragment through the folds of a cycle -/

/-- A fragment of a wave, if the wave has it. -/
def State.frag? (s : State) (k fr : Nat) : Option Frag := (s.wave k).bind fun w => Tbl.find w.frags fr

theorem frag?_modWave (s : State) (a b : Nat) (g : Wave → Frag → Frag) (k fr : Nat) :
    (s.modWave a fun w => w.modFrag b (g w)).frag? k fr =
      if a = k ∧ b = fr then (s.wave k).bind fun w => (Tbl.find w.frags fr).map (g w) else s.frag? k fr := by
  unfold State.frag?
  rw [State.wave_modWave]
  by_cases ha : k = a
  · subst ha
    rw [if_pos rfl]
    cases hw : s.wave k with
    | none => simp
    | some w =>
      simp only [Option.map_some, Option.bind_some, true_and]
      by_cases hb : b = fr
      · subst hb
        simp only [if_true, Wave.modFrag]
        cases hf : Tbl.find w.frags b with
        | none => simp [Tbl.upd, hf]
        | some f => simp [Tbl.upd, hf, Tbl.find_put_same]
      · rw [if_neg hb]
        simp only [Wave.modFrag, Tbl.upd]
        split
        · exact Tbl.find_put_other _ _ (Ne.symm hb)
        · rfl
  · rw [if_neg ha, if_neg fun h => ha h.1.symm]

/-- A fold that changes fragments: what one fragment comes to. -/
theorem frag?_fold {α : Type} (key : α → Nat × Nat) (g : Wave → Frag → Frag) (P : Nat → Frag → Prop)
    (hg : ∀ n w f, P n f → P (n + 1) (g w f)) (k fr : Nat) : ∀ (l : List α) (s : State) (n : Nat) (f : Frag), s.frag? k fr = some f → P n f →
    ∃ f', (l.foldl (fun (s : State) x => s.modWave (key x).1 fun w => w.modFrag (key x).2 (g w)) s).frag? k fr = some f' ∧
      P (n + (l.filter fun x => decide (key x = (k, fr))).length) f'
  | [], s, n, f, h, hp => ⟨f, h, hp⟩
  | x :: l, s, n, f, h, hp => by
    rw [List.foldl_cons]
    have h1 := frag?_modWave s (key x).1 (key x).2 g k fr
    by_cases hk : key x = (k, fr)
    · have hk' : (key x).1 = k ∧ (key x).2 = fr := by rw [hk]; exact ⟨rfl, rfl⟩
      rw [if_pos hk'] at h1
      obtain ⟨w, hw, hf⟩ : ∃ w, s.wave k = some w ∧ Tbl.find w.frags fr = some f := by
        unfold State.frag? at h
        rw [Option.bind_eq_some_iff] at h
        exact h
      rw [hw, Option.bind_some, hf] at h1
      obtain ⟨f', h2, h3⟩ := frag?_fold key g P hg k fr l _ (n + 1) (g w f) h1 (hg n w f hp)
      refine ⟨f', h2, ?_⟩
      rw [List.filter_cons, if_pos (by simpa using hk), List.length_cons]
      rwa [Nat.add_right_comm, Nat.add_assoc] at h3
    · rw [if_neg fun hc => hk (Prod.ext hc.1 hc.2), h] at h1
      obtain ⟨f', h2, h3⟩ := frag?_fold key g P hg k fr l _ n f h1 hp
      refine ⟨f', h2, ?_⟩
      rwa [List.filter_cons, if_neg (by simpa using hk)]

/-- Only cores, fragments and picks may differ. -/
def CycleFrame (s : State) : Tbl Byte × Tbl Byte := (s.mem, s.hostMem)

theorem cycle_folds (a : State) (lend ys : List (Nat × Nat)) (lose go : List Cand) :
    let b := go.foldl (fun (s : State) (x : Cand) => s.modWave x.wid fun w => w.modFrag x.fr fun f => f.issuePass w)
      (lose.foldl (fun (s : State) (x : Cand) => s.modFrag x.wid x.fr fun f => { f with age := f.age + 1 })
        (ys.foldl (fun (s : State) (x : Nat × Nat) => s.modFrag x.1 x.2 fun f => { f with wait := none })
          (lend.foldl (fun (s : State) (x : Nat × Nat) => s.modFrag x.1 x.2 Frag.dropLane) a)))
    FragsOnly a b ∧ (b.mem, b.hostMem, b.picked, b.cores) = (a.mem, a.hostMem, a.picked, a.cores) ∧
    ∀ k fr f c, a.frag? k fr = some f → f.clause = some c → ∃ f' c', b.frag? k fr = some f' ∧ f'.clause = some c' ∧
      ((∃ x ∈ go, x.wid = k ∧ x.fr = fr) → f'.age = 0 ∧ f'.wait = none ∧ c'.lane = true) ∧
      ((∀ x ∈ go, ¬(x.wid = k ∧ x.fr = fr)) → f'.age = f.age + (lose.filter fun x => decide ((x.wid, x.fr) = (k, fr))).length) := by
  intro b
  refine ⟨?_, ?_, ?_⟩
  · refine (FragsOnly.foldl (fun s x => ?_) lend a).trans ((FragsOnly.foldl (fun s x => ?_) ys _).trans
      ((FragsOnly.foldl (fun s x => ?_) lose _).trans (FragsOnly.foldl (fun s x => ?_) go _)))
    · exact FragsOnly.modWave _ _ _
    · exact FragsOnly.modWave _ _ _
    · exact FragsOnly.modWave _ _ _
    · exact FragsOnly.modWave _ _ _
  · have k1 : ∀ {α : Type} (f : State → α → State) (_ : ∀ s x, (fun s : State => (s.mem, s.hostMem, s.picked, s.cores)) (f s x) = (s.mem, s.hostMem, s.picked, s.cores))
        (l : List α) (s : State), (fun s : State => (s.mem, s.hostMem, s.picked, s.cores)) (l.foldl f s) = (s.mem, s.hostMem, s.picked, s.cores) :=
      fun f h l s => keep_foldl (fun s : State => (s.mem, s.hostMem, s.picked, s.cores)) h l s
    refine (k1 _ ?_ go _).trans ((k1 _ ?_ lose _).trans ((k1 _ ?_ ys _).trans (k1 _ ?_ lend a))) <;> intro _ _ <;> rfl
  · intro k fr f c hf hc
    obtain ⟨f1, h1, a1, e1⟩ := frag?_fold (fun x : Nat × Nat => x) (fun _ => Frag.dropLane) (fun _ g => g.age = f.age ∧ g.clause.isSome = true)
      (fun _ _ g hg => by simpa [Frag.dropLane] using hg) k fr lend a 0 f hf ⟨rfl, by simp [hc]⟩
    obtain ⟨f2, h2, a2, e2⟩ := frag?_fold (fun x : Nat × Nat => x) (fun _ f => { f with wait := none }) (fun _ g => g.age = f.age ∧ g.clause.isSome = true)
      (fun _ _ g hg => hg) k fr ys _ 0 f1 h1 ⟨a1, e1⟩
    obtain ⟨f3, h3, a3, e3⟩ := frag?_fold (fun x : Cand => (x.wid, x.fr)) (fun _ f => { f with age := f.age + 1 })
      (fun n g => g.age = f.age + n ∧ g.clause.isSome = true) (fun _ _ g hg => ⟨by simp [hg.1]; omega, hg.2⟩) k fr lose _ 0 f2 h2 ⟨a2, e2⟩
    obtain ⟨f4, h4, h5⟩ := frag?_fold (fun x : Cand => (x.wid, x.fr)) (fun w f => f.issuePass w)
      (fun n g => (n = 0 ∧ g = f3) ∨ (0 < n ∧ g.age = 0 ∧ g.wait = none ∧ ∃ c', g.clause = some c' ∧ c'.lane = true))
      (fun n w g hg => by
        have hgc : g.clause.isSome = true := by
          rcases hg with ⟨-, rfl⟩ | ⟨-, -, -, c', h, -⟩
          · exact e3
          · simp [h]
        obtain ⟨c', hc'⟩ := Option.isSome_iff_exists.1 hgc
        exact .inr ⟨Nat.succ_pos _, by simp [Frag.issuePass, hc']⟩) k fr go _ 0 f3 h3 (.inl ⟨rfl, rfl⟩)
    rw [Nat.zero_add] at a3 h5
    have hin : (go.filter fun x => decide ((x.wid, x.fr) = (k, fr))).length = 0 ↔ ∀ x ∈ go, ¬(x.wid = k ∧ x.fr = fr) := by
      rw [List.length_eq_zero_iff, List.filter_eq_nil_iff]
      simp
    rcases h5 with ⟨h5, rfl⟩ | ⟨h5, h6, h7, c', h8, h9⟩
    · obtain ⟨c', hc'⟩ := Option.isSome_iff_exists.1 e3
      refine ⟨f4, c', h4, hc', fun ⟨x, hx, hk⟩ => absurd hk (hin.1 h5 x hx), fun _ => a3⟩
    · exact ⟨f4, c', h4, h8, fun _ => ⟨h6, h7, h9⟩, fun hn => by rw [hin.2 hn] at h5; omega⟩

theorem cycle_frame (s : State) (core : Nat) : (∀ k u, s.wave k = some u → ∃ u', (s.cycle core).wave k = some u' ∧
      { u' with frags := u.frags, tok := u.tok, fading := u.fading } = u ∧
      u'.tok = (if coreOfWave k = core then u.tok &&& ~~~u.fading else u.tok) ∧
      u'.fading = (if coreOfWave k = core then 0 else u.fading)) ∧ CycleFrame (s.cycle core) = CycleFrame s ∧
    (∀ c, c ≠ core → (s.cycle core).core c = s.core c) ∧ ((s.cycle core).core core).cyc = (s.core core).cyc + 1 ∧
    (∃ l, (s.cycle core).picked = s.picked ++ l ∧ l.length ≤ 2) ∧
    let a := s.modCore core fun c => { c with cyc := c.cyc + 1 }
    let l := a.readies core
    let go := a.issuing core l
    ∀ k fr f c, s.frag? k fr = some f → f.clause = some c → ∃ f' c', (s.cycle core).frag? k fr = some f' ∧ f'.clause = some c' ∧
      ((∃ x ∈ go, x.wid = k ∧ x.fr = fr) → f'.age = 0 ∧ f'.wait = none ∧ c'.lane = true) ∧
      ((∀ x ∈ go, ¬(x.wid = k ∧ x.fr = fr)) →
        f'.age = f.age + (l.filter fun x => !go.contains x && decide ((x.wid, x.fr) = (k, fr))).length) := by
  unfold State.cycle
  simp only
  generalize hA : (s.modCore core fun c => { c with cyc := c.cyc + 1 }) = a
  have a1 : a.waves = s.waves ∧ CycleFrame a = CycleFrame s ∧ a.picked = s.picked ∧ (∀ c, c ≠ core → a.core c = s.core c) ∧
      (a.core core).cyc = (s.core core).cyc + 1 := by
    subst hA
    refine ⟨rfl, rfl, rfl, fun c h => ?_, ?_⟩
    · rw [State.core_modCore, if_neg h]
    · rw [State.core_modCore, if_pos rfl]
  generalize (a.fragsWith core _) = ys
  have hlen := (issuing_of a core (a.readies core)).2.2
  generalize a.lenders core (a.readies core) (a.issuing core (a.readies core)) = lend
  generalize (a.readies core) = l at *
  generalize a.issuing core l = go at *
  obtain ⟨b1, b2, b3⟩ := cycle_folds a lend ys (l.filter fun x => !go.contains x) go
  generalize (go.foldl (fun (s : State) (x : Cand) => s.modWave x.wid fun w => w.modFrag x.fr fun f => f.issuePass w) _) = b at *
  obtain ⟨a1, a2, a3, a4, a5⟩ := a1
  have hm : (b.mem, b.hostMem) = (a.mem, a.hostMem) := congrArg (fun x => (x.1, x.2.1)) b2
  have hp : b.picked = a.picked := congrArg (fun x => x.2.2.1) b2
  have hcore : ∀ c, b.core c = a.core c := fun c => by
    unfold State.core
    rw [show b.cores = a.cores from congrArg (fun x => x.2.2.2) b2]
  refine ⟨fun k u hu => ?_, hm.trans a2, fun c h => (hcore c).trans (a4 c h),
    (congrArg Core.cyc (hcore core)).trans a5, ⟨_, congrArg (· ++ _) (hp.trans a3), ?_⟩, ?_⟩
  · obtain ⟨v, hv, e⟩ := ((FragsOnly.of_waves a1).trans b1) k u hu
    refine ⟨if coreOfWave k = core then v.fade else v, ?_, ?_⟩
    · show Tbl.find (Tbl.mapv _ b.waves) k = _
      rw [Tbl.find_mapv, show Tbl.find b.waves k = some v from hv]
      rfl
    · have e1 : v.tok = u.tok := (by have := congrArg Wave.tok e; exact this)
      have e2 : v.fading = u.fading := (by have := congrArg Wave.fading e; exact this)
      obtain ⟨g1, g2, g3⟩ := fade_does v
      split
      · refine ⟨?_, by rw [g2, e1, e2], g3⟩
        have := congrArg (fun y : Wave => { y with frags := u.frags, tok := u.tok, fading := u.fading }) (g1.trans rfl)
        refine Eq.trans this ?_
        exact (congrArg (fun y : Wave => { y with tok := u.tok, fading := u.fading }) e)
      · exact ⟨congrArg (fun y : Wave => { y with tok := u.tok, fading := u.fading }) e, e1, e2⟩
  · rw [List.length_map]
    exact Nat.le_trans (List.length_filter_le _ _) hlen
  · intro k fr f c hf hc
    have hf' : a.frag? k fr = some f := by
      unfold State.frag? State.wave at hf ⊢
      rw [a1]
      exact hf
    obtain ⟨f', c', h1, h2, h3, h4⟩ := b3 k fr f c hf' hc
    refine ⟨f', c', ?_, h2, h3, fun hn => ?_⟩
    · show ((Tbl.find (Tbl.mapv _ b.waves) k).bind fun w => Tbl.find w.frags fr) = _
      unfold State.frag? State.wave at h1
      rw [Tbl.find_mapv]
      cases hb : Tbl.find b.waves k with
      | none => rw [hb] at h1; cases h1
      | some w =>
        rw [hb] at h1
        rw [← h1]
        simp only [Option.map_some, Option.bind_some]
        unfold Wave.fade
        split
        · split <;> rfl
        · rfl
    · rw [h4 hn, List.filter_filter]
      refine congrArg (fun m : List Cand => f.age + m.length) (List.filter_congr fun x _ => Bool.and_comm _ _)

end Sys2Proof.Machine
end

