-- ==== Sys2Proof/Laws/Units.lean ====
section
/-! SUPPORT. The units that finish what they have been given: copies, lazy windows, swaths. -/

namespace Sys2Proof.Machine

/-- What writing device memory can change: memory with its keys, poison and replay copies, the cores' lines, the dies' error counts,
and the counters of regions. -/
def DevOnly (s t : State) : Prop := ∃ g u, HomeOnly s u ∧ t = { u with regions := g }

theorem DevOnly.of_home {s t u : State} (h : HomeOnly s t) (g : DevOnly t u) : DevOnly s u := by
  obtain ⟨r, v, h1, h2⟩ := g
  exact ⟨r, v, h.trans h1, h2⟩

theorem HomeOnly.dev {s t : State} (h : HomeOnly s t) : DevOnly s t := ⟨t.regions, t, h, rfl⟩

theorem DevOnly.waves {s t : State} (h : DevOnly s t) : t.waves = s.waves := by
  obtain ⟨_, _, h, rfl⟩ := h
  exact h.noWave.waves

theorem unpoison_home (s : State) (l : List Nat) : HomeOnly s (s.unpoison l) :=
  ⟨s.mem, s.lineKey, s.replay, s.cores, s.free, s.dies, _, s.soft, rfl⟩

theorem writeDev_dev (s : State) (ctx lid : Nat) (src : Option Src) (l : List (Nat × Byte)) : DevOnly s (s.writeDev ctx lid src l) := by
  unfold State.writeDev
  simp only
  refine .of_home (HomeOnly.foldl State.recall (fun s x => recall_home s x) (dedup (l.map fun p => lineOf p.1)) s) ?_
  generalize (dedup (l.map fun p => lineOf p.1)).foldl State.recall s = a
  refine .of_home (HomeOnly.foldl (fun (s : State) (p : Nat × Byte) => s.putDev ctx lid p.1 p.2) (fun s p => putDev_home s ctx lid p.1 p.2) l a) ?_
  generalize l.foldl (fun (s : State) (p : Nat × Byte) => s.putDev ctx lid p.1 p.2) a = b
  cases src with
  | none => exact (unpoison_home b (l.map (·.1))).dev
  | some x => exact .of_home (unpoison_home b (l.map (·.1))) ⟨_, _, .refl _, rfl⟩

theorem block_modBlock_other {k : Nat} (f : Block → Block) : ∀ (l : List Nat) (s : State), (∀ x ∈ l, x ≠ k) →
    (l.foldl (fun s x => s.modBlock x f) s).block k = s.block k
  | [], s, _ => rfl
  | x :: l, s, h => by
    rw [List.foldl_cons, block_modBlock_other f l _ fun y hy => h y (List.mem_cons_of_mem _ hy), State.block_modBlock,
      if_neg (h x List.mem_cons_self).symm]

theorem twinCore_ne (c : Nat) : twinCore c ≠ c := by
  unfold twinCore
  intro h
  have := congrArg (fun n => c ^^^ n) h
  simp only [← Nat.xor_assoc, Nat.xor_self, Nat.zero_xor] at this
  cases this

theorem bothSides_eq (s : State) (bid : Nat) : ∃ l, s.bothSides bid = bid :: l ∧ ∀ x ∈ l, x ≠ bid := by
  unfold State.bothSides
  split
  · rename_i b hb
    refine ⟨_, rfl, ?_⟩
    intro x hx
    rw [Option.mem_toList] at hx
    unfold State.twinBid at hx
    have := List.mem_of_find?_eq_some hx
    obtain ⟨i, hi, rfl⟩ := List.mem_map.1 this
    have hi := List.mem_range.1 hi
    unfold blockKey
    intro h
    have : twinCore (bid / 8) = bid / 8 := by omega
    exact twinCore_ne _ this
  · exact ⟨[], rfl, by simp⟩

/-- What both sides of a block take, the block takes. -/
theorem block_bothSides (s t : State) (bid : Nat) (f : Block → Block) {b : Block} (hb : t.block bid = some b) :
    ((s.bothSides bid).foldl (fun s k => s.modBlock k f) t).block bid = some (f b) := by
  obtain ⟨l, hl, hne⟩ := bothSides_eq s bid
  rw [hl, List.foldl_cons, block_modBlock_other f l _ hne, State.block_modBlock, if_pos rfl, hb]
  rfl

theorem bothSides_waves (s t : State) (bid : Nat) (f : Block → Block) : ((s.bothSides bid).foldl (fun s k => s.modBlock k f) t).waves = t.waves := by
  apply keep_foldl State.waves
  intro _ _; rfl

theorem clearTok_clear (w : Wave) (t : Nat) : (w.clearTok t).tokSet t = false := by
  unfold Wave.clearTok Wave.tokSet
  by_cases h : t < 8
  · simp [h]
  · exact BitVec.getLsbD_of_ge _ _ (by omega)

/-! ### Copies -/

theorem State.copyAt_modCopy {s : State} {core id : Nat} {c d : Copy} (h : s.copyAt core id = some c) (hd : d.id = id) :
    (s.modCopy core id fun _ => d).copyAt core id = some d := by
  unfold State.copyAt State.modCopy at *
  rw [State.core_modCore, if_pos rfl]
  have key : ∀ l : List Copy, l.find? (fun c => c.id == id) = some c → (l.map fun c => if c.id = id then d else c).find? (fun c => c.id == id) = some d := by
    intro l
    induction l with
    | nil => intro h; cases h
    | cons x l ih =>
      intro h
      by_cases e : x.id = id
      · simp [e, hd]
      · rw [List.find?_cons_of_neg (by simpa using e)] at h
        simp [e, ih h]
  exact key _ h

theorem copyAt_id {s : State} {core id : Nat} {c : Copy} (h : s.copyAt core id = some c) : c.id = id := by
  unfold State.copyAt at h
  have := List.find?_some h
  simpa using this

theorem dropCopy_copyAt (s : State) (core : Nat) (c : Copy) (held : Option HeldFault) : (s.dropCopy core c held).copyAt core c.id = none := by
  unfold State.dropCopy
  simp only
  generalize hu : (s.modCore core fun k => { k with copies := k.copies.filter fun x => x.id != c.id }) = u
  have h1 : u.copyAt core c.id = none := by
    subst hu
    unfold State.copyAt
    rw [State.core_modCore, if_pos rfl]
    rw [List.find?_eq_none]
    intro x hx
    have := (List.mem_filter.1 hx).2
    simpa using this
  rw [← h1]
  unfold State.copyAt State.core
  congr 3
  apply keep_foldl State.cores
  intro _ _; rfl

theorem dropCopy_wave {s : State} {core : Nat} {c : Copy} {w : Wave} (hw : s.wave c.wid = some w) (htw : s.twinned w = false) :
    (s.dropCopy core c none).wave c.wid = some (w.clearTok c.tok) := by
  unfold State.dropCopy
  simp only
  generalize hu : (s.modCore core fun k => { k with copies := k.copies.filter fun x => x.id != c.id }) = u
  have h1 : u.wave c.wid = some w ∧ u.twinned w = false := by subst hu; exact ⟨hw, htw⟩
  have h2 : u.bothWaves c.wid = [c.wid] := by
    unfold State.bothWaves
    simp only [h1.1, h1.2]
    rfl
  rw [h2, List.foldl_cons, List.foldl_nil, State.wave_modWave, if_pos rfl, h1.1]
  rfl

theorem dropCopy_block (s : State) (core : Nat) (c : Copy) (held : Option HeldFault) (k : Nat) : (s.dropCopy core c held).block k = s.block k := by
  unfold State.dropCopy State.block
  simp only
  congr 1
  apply keep_foldl State.blocks
  intro _ _; rfl

theorem noteOld_does (s : State) (bid : Nat) (l : List CopyDst) : { s.noteOld bid l with cores := s.cores } = s := by
  unfold State.noteOld
  simp only
  split
  · rfl
  · split <;> rfl

theorem landCopy_does (s : State) (k : Nat) (l : List (CopyDst × Byte)) : (s.landCopy k l).waves = s.waves ∧
    (s.landCopy k l).launches = s.launches ∧ ∀ j, (s.landCopy k l).block j = if j = k then (s.block j).map (·.putCopy l) else s.block j := by
  have h := noteOld_does s k (l.map (·.1))
  have h1 := congrArg State.waves h
  have h2 := congrArg State.launches h
  have h3 := congrArg State.blocks h
  refine ⟨h1, h2, fun j => ?_⟩
  have hb : (s.noteOld k (l.map (·.1))).block = s.block := funext fun n => congrArg (Tbl.find · n) (Eq.trans (by rfl) h3)
  unfold State.landCopy
  rw [State.block_modBlock, hb]
  split
  · rename_i e; subst e; rfl
  · rfl

theorem landCopies_does (l : List (CopyDst × Byte)) (ks : List Nat) (s : State) : (ks.foldl (fun s k => s.landCopy k l) s).waves = s.waves ∧
    (ks.foldl (fun s k => s.landCopy k l) s).launches = s.launches ∧
    ∀ j, (∀ k ∈ ks, k ≠ j) → (ks.foldl (fun s k => s.landCopy k l) s).block j = s.block j := by
  refine ⟨keep_foldl State.waves (fun s k => (landCopy_does s k l).1) _ _, keep_foldl State.launches (fun s k => (landCopy_does s k l).2.1) _ _, ?_⟩
  induction ks generalizing s with
  | nil => exact fun _ _ => rfl
  | cons k ks ih =>
    intro j hj
    rw [List.foldl_cons, ih _ j fun x hx => hj x (List.mem_cons_of_mem _ hx), (landCopy_does s k l).2.2, if_neg (hj k List.mem_cons_self).symm]

theorem writeCopy_does (s : State) (c : Copy) (w : Wave) (l : List (CopyDst × Byte)) : (s.writeCopy c w l).waves = s.waves ∧
    (s.writeCopy c w l).launches = s.launches ∧
    ∀ b, s.block (w.bid c.wid) = some b → (s.writeCopy c w l).block (w.bid c.wid) = some (b.putCopy l) := by
  unfold State.writeCopy
  simp only
  generalize hv : (s.writeDev w.ctx c.lid (some .copy) (devBytes (s.copyLocs w.ctx l))).holdBytes c.lid w.crew (hostBytes (s.copyLocs w.ctx l)) = v
  have h1 : v.waves = s.waves ∧ v.launches = s.launches ∧ v.blocks = s.blocks := by
    subst hv
    obtain ⟨_, u, hu, h⟩ := writeDev_dev s w.ctx c.lid (some .copy) (devBytes (s.copyLocs w.ctx l))
    rw [h]
    obtain ⟨_, _, _, _, _, _, _, _, rfl⟩ := hu
    unfold State.holdBytes
    split <;> exact ⟨rfl, rfl, rfl⟩
  obtain ⟨h2, h3, -⟩ := landCopies_does l (v.bothSides (w.bid c.wid)) v
  refine ⟨h2.trans h1.1, h3.trans h1.2.1, fun b hb => ?_⟩
  obtain ⟨ks, hks, hne⟩ := bothSides_eq v (w.bid c.wid)
  rw [hks, List.foldl_cons, (landCopies_does l ks _).2.2 _ hne, (landCopy_does v _ l).2.2, if_pos rfl]
  have : v.block (w.bid c.wid) = some b := by
    unfold State.block at *
    rw [h1.2.2]
    exact hb
  rw [this]
  rfl

/-- What counting a box leaves alone. -/
theorem countBox_does (s : State) (ctx : Nat) (x : Option (Nat × Nat)) : (s.countBox ctx x).waves = s.waves ∧
    (s.countBox ctx x).launches = s.launches ∧ (s.countBox ctx x).blocks = s.blocks := by
  unfold State.countBox
  split
  · exact ⟨rfl, rfl, rfl⟩
  · split <;> exact ⟨rfl, rfl, rfl⟩

/-- A copy that overtakes changes other copies of its core alone (R315). -/
theorem overtake_does (s : State) (core : Nat) (c : Copy) (l : List (CopyDst × Byte)) : (s.overtake core c l).waves = s.waves ∧
    (s.overtake core c l).launches = s.launches ∧ (s.overtake core c l).blocks = s.blocks := by
  unfold State.overtake
  simp only
  split <;> exact ⟨rfl, rfl, rfl⟩

theorem modWaveBack_wave {s : State} {wid : Nat} {w : Wave} (p : Wave → Bool) (f : Wave → Wave) (hw : s.wave wid = some w) :
    (s.modWaveBack wid p f).wave wid = some (f w) ∧ (s.modWaveBack wid p f).swaths = s.swaths := by
  unfold State.modWaveBack
  simp only [hw]
  refine ⟨?_, rfl⟩
  show (s.modWave wid f).wave wid = _
  rw [State.wave_modWave, if_pos rfl, hw]
  rfl

/-- Keys of a table with one more key. -/
theorem putUnit_keys (k : Nat) : ∀ (t : Tbl Unit), (t.map (·.1)).Pairwise (· < ·) →
    ((Tbl.put t k ()).map (·.1)).Pairwise (· < ·) ∧ ∀ i, i ∈ (Tbl.put t k ()).map (·.1) ↔ i = k ∨ i ∈ t.map (·.1)
  | [], _ => by simp [Tbl.put]
  | (j, y) :: t, h => by
    rw [List.map_cons, List.pairwise_cons] at h
    obtain ⟨p, q⟩ := putUnit_keys k t h.2
    unfold Tbl.put
    split
    · rename_i hk
      simp only [List.map_cons, List.pairwise_cons, List.mem_cons]
      refine ⟨⟨fun i hi => ?_, h⟩, by simp⟩
      rcases hi with rfl | hi
      · exact hk
      · have := h.1 i hi; simp only at this; omega
    · split
      · rename_i _ hk
        subst hk
        simp only [List.map_cons, List.pairwise_cons, List.mem_cons]
        exact ⟨h, fun i => ⟨fun h => h.elim .inl fun h => .inr (.inr h), fun h => h.elim .inl id⟩⟩
      · rename_i h1 h2
        simp only [List.map_cons, List.pairwise_cons, List.mem_cons]
        refine ⟨⟨fun i hi => ?_, p⟩, fun i => ?_⟩
        · rcases (q i).1 hi with rfl | hi
          · omega
          · exact h.1 i hi
        · rw [q i]
          exact ⟨fun h => h.elim (fun h => .inr (.inl h)) fun h => h.elim .inl fun h => .inr (.inr h),
            fun h => h.elim (fun h => .inr (.inl h)) fun h => h.elim .inl fun h => .inr (.inr h)⟩

/-- Sorting numbers without repeats. -/
theorem sortNats_does (l : List Nat) : (sortNats l).Pairwise (· < ·) ∧ ∀ i, i ∈ sortNats l ↔ i ∈ l := by
  unfold sortNats
  have : ∀ (l : List Nat) (t : Tbl Unit), (t.map (·.1)).Pairwise (· < ·) →
      ((l.foldl (fun t k => Tbl.put t k ()) t).map (·.1)).Pairwise (· < ·) ∧
      ∀ i, i ∈ (l.foldl (fun t k => Tbl.put t k ()) t).map (·.1) ↔ i ∈ l ∨ i ∈ t.map (·.1) := by
    intro l
    induction l with
    | nil => exact fun t h => ⟨h, fun i => by simp⟩
    | cons x l ih =>
      intro t h
      rw [List.foldl_cons]
      obtain ⟨p, q⟩ := putUnit_keys x t h
      obtain ⟨a, b⟩ := ih _ p
      refine ⟨a, fun i => ?_⟩
      rw [b i, q i, List.mem_cons]
      exact ⟨fun h => h.elim (fun h => .inl (.inr h)) fun h => h.elim (fun h => .inl (.inl h)) .inr,
        fun h => h.elim (fun h => h.elim (fun h => .inr (.inl h)) .inl) fun h => .inr (.inr h)⟩
  obtain ⟨a, b⟩ := this l [] List.Pairwise.nil
  exact ⟨a, fun i => by simpa using b i⟩

/-- Reading the pieces that were held changes only places at home, and of the copy only what it has read. -/
theorem readTodo_home (s : State) (ctx : Nat) (c : Copy) : HomeOnly s (s.readTodo ctx c).1 ∧
    { (s.readTodo ctx c).2 with writes := c.writes, todo := c.todo } = c := by
  unfold State.readTodo
  split
  · exact ⟨.refl s, rfl⟩
  · exact ⟨recallLocs_home _ _, rfl⟩

end Sys2Proof.Machine
end

