-- ==== Sys2Proof/Laws/Matrix.lean ====
section
/-! SUPPORT. Laws of the matrix unit: records, quarter operations and the accumulators. -/

namespace Sys2Proof.Machine

theorem foldl_min_replicate {α : Type} (f : α → Nat) (n : Nat) (l : List α) (h : ∀ x ∈ l, f x = n) :
    l.foldl (fun m x => min m (f x)) n = n := by
  induction l with
  | nil => rfl
  | cons x xs ih => rw [List.foldl_cons, h x (by simp), Nat.min_self, ih fun y hy => h y (by simp [hy])]

/-- OB_RECORD on every active lane has one reason and no address. -/
theorem obTrap_all (n reason : Nat) {l : List Nat} (hl : l ≠ []) :
    obTrap n (l.map fun i => { lane := i, reason := reason, off := 0 }) =
      some (faultRec cOB_RECORD (BitVec.ofNat 64 (reason + 256 * n)) 0 (maskOf l)) := by
  obtain ⟨x, xs, rfl⟩ := List.exists_cons_of_ne_nil hl
  simp only [List.map_cons, obTrap]
  rw [foldl_min_replicate (fun y : ObFault => y.reason) reason _ (by simp)]
  have h1 : (({ lane := x, reason := reason, off := 0 } : ObFault) :: xs.map fun i => { lane := i, reason := reason, off := 0 }).filter
      (fun y => y.reason == reason) = ({ lane := x, reason := reason, off := 0 } : ObFault) :: xs.map fun i => { lane := i, reason := reason, off := 0 } := by
    rw [List.filter_eq_self]
    simp
  rw [h1]
  simp only [List.map_cons, List.tail_cons, List.headD_cons, List.map_map]
  have h2 : (xs.map ((fun y : ObFault => y.off) ∘ fun i => { lane := i, reason := reason, off := 0 })).foldl min 0 = 0 := by
    rw [foldl_min_replicate (fun y => y) 0 _ (by simp)]
  rw [h2]
  have h3 : (xs.map ((fun y : ObFault => y.lane) ∘ fun i => { lane := i, reason := reason, off := 0 })) = xs := by
    simp [Function.comp_def]
  rw [h3]
  rfl

theorem faults_obAll {w : Fields} {s : State} {e : Env} (h : Issues w s e) {i : Instr} {body : Env → WRes} {n reason : Nat}
    (hx : exec i s = onWord w s body) (hb : body e = e.obAll n reason) (hl : e.lanes ≠ []) (hh : e.wv.handler = none) (ht : e.wv.tvec ≠ 0) :
    FaultsWith e i 0x12 (BitVec.ofNat 64 (reason + 256 * n)) 0 (maskOf e.lanes) := by
  refine fault_traps (ld := false) h hx ?_ hh ht
  rw [hb, Env.obAll, obTrap_all n reason hl]
  rfl

theorem recordOf_eq (x y share : Nat) :
    let r : ObRec := {
       base := bits x 9 0, size := (bits x 25 16 + 1) * 256, pitch := bits x 43 32, fmt := bits y 3 0, blk := bits y 5 4
       bf16Scale := bit y 6, aoff := bits y 31 16, boff := bits y 47 32 }
    let legal : Prop := bits x 63 44 = 0 ∧ bits x 31 26 = 0 ∧ bits x 15 10 = 0 ∧ bits y 63 48 = 0 ∧ bits y 15 7 = 0 ∧ r.fmt < 7 ∧
       r.pitch ≠ 0 ∧ r.base * 256 + r.size ≤ share ∧
       (r.blk ≠ 0 → r.fmt < 4 ∧ r.pitch * 16 % (blkLen r.blk * fmtBytes r.fmt) = 0)
    (legal → recordOf x y share = some r) ∧ (¬legal → recordOf x y share = none) := by
  intro r legal
  unfold recordOf
  simp only
  constructor
  · rintro ⟨h1, h2, h3, h4, h5, h6, h7, h8, h9⟩
    rw [if_neg (by simp [h1, h2, h3, h4, h5]; exact ⟨⟨h6, h7⟩, h8⟩), if_neg]
    simp only [Bool.and_eq_true, Bool.or_eq_true, decide_eq_true_eq, bne_iff_ne, not_and, not_or, Nat.not_le, ne_eq, Classical.not_not]
    intro h0
    exact h9 h0
  · intro hn
    split
    · rfl
    · rename_i hc
      split
      · rfl
      · rename_i hd
        exfalso
        apply hn
        simp only [Bool.or_eq_true, decide_eq_true_eq, not_or, ne_eq, Classical.not_not, Nat.not_le, Nat.not_lt, gt_iff_lt] at hc
        simp only [Bool.and_eq_true, Bool.or_eq_true, decide_eq_true_eq, bne_iff_ne, not_and, not_or, Nat.not_le, ne_eq, Classical.not_not] at hd
        obtain ⟨⟨⟨⟨⟨⟨⟨h1, h2⟩, h3⟩, h4⟩, h5⟩, h6⟩, h7⟩, h8⟩ := hc
        exact ⟨h1, h2, h3, h4, h5, h6, h7, h8, hd⟩

theorem obLanes_ok {e : Env} {r : ObRec} {size : Nat}
    (h : ∀ i ∈ e.lanes, e.src e.w.b.toNat .n32 i % size = 0 ∧ e.src e.w.b.toNat .n32 i + size ≤ r.size) :
    obLanes e r size = (e.lanes.map fun i => (i, r.base * 256 + e.src e.w.b.toNat .n32 i), [], []) := by
  unfold obLanes
  generalize e.lanes = l at h
  induction l with
  | nil => rfl
  | cons i is ih =>
    rw [List.foldr_cons, ih fun j hj => h j (by simp [hj])]
    obtain ⟨h1, h2⟩ := h i (by simp)
    simp only [h1, ne_eq, not_true_eq_false, if_false, List.map_cons]
    rw [if_neg (by omega)]

/-- The operand buffer after the writes of all lanes (R347). -/
theorem read_obufs (size : Nat) (val : Nat → Nat) (l : List (Nat × Nat)) (m : Tbl Byte) (a : Nat) :
    Memory.read (l.foldl (fun m p => Memory.writes m p.2 (leBytes size (val p.1))) m) a = storedByte l size val (Memory.read m a) a := by
  induction l generalizing m with
  | nil => rfl
  | cons p l ih =>
    rw [List.foldl_cons, ih]
    unfold storedByte
    rw [lastOver_cons]
    cases hq : lastOver l size a with
    | some q => rfl
    | none =>
      simp only
      rw [Memory.read_writes, leBytes_length]
      by_cases hp : p.2 ≤ a ∧ a < p.2 + size
      · simp only [if_pos hp]
        rw [leBytes_getD _ _ _ (by omega)]
      · simp only [if_neg hp]

/-- A word whose effect is on its own wave's record. -/
theorem sets_of {w : Fields} {s : State} {e : Env} (h : Issues w s e) {i : Instr} {body : Env → WRes} {v : Wave} {f : Wave → Wave}
    (hx : exec i s = onWord w s body) (hb : body e = .done { s := e.s.modWave e.wid f }) (hf : f e.wv = v)
    (hfr : v.frags = e.wv.frags) :
    ∃ s' w', exec i e.s = .next s' ∧ Completes e (e.s.modWave e.wid fun _ => v) v s' w' ∧ SameRegs v w' ∧
      w'.fpflags = v.fpflags ∧ w'.pending = v.pending := by
  have heq : e.s.modWave e.wid f = e.s.modWave e.wid fun _ => v := State.modWave_congr h.wave hf
  rw [heq] at hb
  obtain ⟨s', w', h1, h2, h3, h4, h5, h6, h7⟩ := effect_done h hx hb (v := v) (by simpa using h.alone)
    (State.wave_modWave_of h.wave) (by rw [hfr]; exact h.facts.frag) rfl rfl (by simp) rfl
  exact ⟨s', w', h1, h2, SameRegs.of_regs h3 h4 h5, by simpa [fpflagsAfter, mergeFlags, noFlags] using h6,
    by simpa [Env.pendingAfter] using h7⟩

theorem Tbl.del_put {β : Type} (t : Tbl β) (k : Nat) (x : β) : Tbl.del (Tbl.put t k x) k = Tbl.del t k := by
  induction t with
  | nil => simp [Tbl.put, Tbl.del]
  | cons p t ih =>
    obtain ⟨j, y⟩ := p
    unfold Tbl.put
    split
    · simp [Tbl.del]
    · split
      · rename_i h; subst h; simp [Tbl.del]
      · rename_i h; simp [Tbl.del, Ne.symm h, ih]

/-- Rewriting a core twice, where the first rewrite does not leave it as after reset. -/
theorem State.modCore_modCore (s : State) (k : Nat) (f g : Core → Core) (h : f (s.core k) ≠ Core.reset) :
    (s.modCore k f).modCore k g = s.modCore k fun c => g (f c) := by
  have h1 : (s.modCore k f).core k = f (s.core k) := by rw [State.core_modCore, if_pos rfl]
  unfold State.modCore at h1 ⊢
  rw [h1]
  simp only [Tbl.set, if_neg h]
  split
  · rw [Tbl.del_put]
  · rw [Tbl.put_put]

theorem collect_some (c : Core) (x : Collector) : (c.collect x).coll ≠ none := by
  unfold Core.collect
  split
  · simp
  · split <;> simp

theorem collect_ne (c : Core) (x : Collector) : c.collect x ≠ Core.reset := by
  intro h
  exact collect_some c x (by rw [h]; rfl)

theorem collect_parts (c : Core) (x : Collector) : ∃ a b, c.collect x = { c with coll := a, closed := b } := by
  unfold Core.collect
  split
  · exact ⟨_, c.closed, rfl⟩
  · split
    · exact ⟨_, c.closed, rfl⟩
    · exact ⟨_, _, rfl⟩

theorem collected_collect (c : Core) (x : Collector) : collected (c.collect x) = collected c ++ x.members := by
  unfold Core.collect collected
  split
  · rename_i h
    simp [h]
  · rename_i y h
    split
    · simp [h]
    · simp [h]

/-- The members of the passes, handed over one pass after the other. -/
theorem collect_passes (k : Nat) (x : Core → List (Quarter × Option MaskState) → Collector) (hx : ∀ c l, (x c l).members = l)
    (l : List (Quarter × Option MaskState)) (ls : List (List (Quarter × Option MaskState))) (s : State) :
    ∃ a b, (l :: ls).foldl (fun s l => s.modCore k fun c => c.collect (x c l)) s =
        (s.modCore k fun _ => { s.core k with coll := a, closed := b }) ∧
      collected { s.core k with coll := a, closed := b } = collected (s.core k) ++ (l :: ls).flatten := by
  have key : ∀ (ls : List (List (Quarter × Option MaskState))) (s : State) (f : Core → Core), f (s.core k) ≠ Core.reset →
      (∃ a b, f (s.core k) = { s.core k with coll := a, closed := b }) →
      ∃ a b, ls.foldl (fun s l => s.modCore k fun c => c.collect (x c l)) (s.modCore k f) =
        (s.modCore k fun _ => { s.core k with coll := a, closed := b }) ∧
      collected { s.core k with coll := a, closed := b } = collected (f (s.core k)) ++ ls.flatten := by
    intro ls
    induction ls with
    | nil =>
      rintro s f hf ⟨a, b, hab⟩
      refine ⟨a, b, ?_, by rw [hab]; simp⟩
      unfold State.modCore
      rw [hab]
      rfl
    | cons l ls ih =>
      rintro s f hf ⟨a, b, hab⟩
      rw [List.foldl_cons, State.modCore_modCore _ _ _ _ hf]
      obtain ⟨a', b', h1, h2⟩ := ih s (fun c => (f c).collect (x (f c) l)) (collect_ne _ _) (by
        obtain ⟨a', b', h⟩ := collect_parts (f (s.core k)) (x (f (s.core k)) l)
        exact ⟨a', b', by rw [h, hab]⟩)
      refine ⟨a', b', h1, ?_⟩
      rw [h2, collected_collect, hx, List.flatten_cons, List.append_assoc]
  rw [List.foldl_cons]
  obtain ⟨a, b, h1, h2⟩ := key ls s (fun c => c.collect (x c l)) (collect_ne _ _) (collect_parts _ _)
  refine ⟨a, b, h1, ?_⟩
  rw [h2, collected_collect, hx, List.flatten_cons, List.append_assoc]

theorem flatten_filterMap {α β : Type} (g : α → List β) (l : List α) :
    (l.filterMap fun j => match g j with | [] => none | x => some x).flatten = l.flatMap g := by
  induction l with
  | nil => rfl
  | cons a l ih =>
    rw [List.filterMap_cons, List.flatMap_cons]
    cases h : g a with
    | nil => simpa using ih
    | cons y ys => simp [ih]

theorem firstScale_none {e : Env} {r : ObRec} {l : List Nat} (h : ∀ o ∈ l, scaleReason e r o = none) : firstScale e r l = none := by
  unfold firstScale
  have : (l.filterMap fun o => (scaleReason e r o).map fun x => (x, o)) = [] := by
    rw [List.filterMap_eq_nil_iff]
    intro o ho
    simp [h o ho]
  rw [this]
  rfl

/-- The rows of a quarter operation that pass every check of R351. -/
theorem quarterLanes_ok {e : Env} {r : ObRec} {k0 kk : Nat}
    (h1 : ∀ j ∈ e.lanes, e.src e.w.b.toNat .n32 j * r.pitch * 16 + (k0 + kk) * fmtBytes r.fmt ≤ r.size)
    (h2 : ∀ x ∈ blocksOf r k0 kk, (∀ j ∈ e.lanes, scaleReason e r (r.aScaleAt (e.src e.w.b.toNat .n32 j) x) = none) ∧
      ∀ c, c < 32 → scaleReason e r (r.bScaleAt x c) = none) :
    quarterLanes e r k0 kk = (e.lanes.map fun i => (i, e.src e.w.b.toNat .n32 i), []) := by
  unfold quarterLanes
  simp only
  generalize hF : List.foldr _ _ _ = q
  have hf : q = (e.lanes.map fun i => (i, e.src e.w.b.toNat .n32 i), []) := by
    rw [← hF]
    refine foldr_keep _ _ fun p hp acc => ?_
    obtain ⟨j, hj, rfl⟩ := List.mem_map.1 hp
    rw [if_neg (by simpa using h1 j hj), firstScale_none]
    intro o ho
    obtain ⟨x, hx, rfl⟩ := List.mem_map.1 ho
    exact (h2 x hx).1 j hj
  subst hf
  simp only
  split
  · rfl
  · rw [firstScale_none]
    intro o ho
    obtain ⟨x, hx, hy⟩ := List.mem_flatMap.1 ho
    obtain ⟨c, hc, rfl⟩ := List.mem_map.1 hy
    exact (h2 x hx).2 c (List.mem_range.1 hc)

theorem withTiles_ok {e : Env} {b : Nat} {body : Env → WRes} (h1 : e.wv.receives (e.lanes.map (tileOf b)) = none)
    (h2 : ∀ i ∈ e.lanes, tileOf b i < e.wv.accs) : withTiles e b body = body e := by
  unfold withTiles
  simp only
  rw [if_neg, h1]
  simp only [List.any_eq_true, List.mem_map, decide_eq_true_eq, not_exists, not_and, Nat.not_le]
  rintro x ⟨i, hi, rfl⟩
  exact h2 i hi

theorem quarters_some {e : Env} {b : Nat} (op : Nat → Nat) {r : ObRec} {m : Option MaskState} {row : Nat → Nat} (hne : e.lanes ≠ [])
    (hl : ∀ i ∈ e.lanes, i < e.wv.width) : (List.range e.wv.maskWords).flatMap
      (fun j => quartersOf e.wid (op j) b r m (e.lanes.map fun i => (i, row i)) j) ≠ [] := by
  obtain ⟨i, is, he⟩ := List.exists_cons_of_ne_nil hne
  have hi : i ∈ e.lanes := by rw [he]; simp
  have hw := hl i hi
  intro h
  have hmw : i / 32 < e.wv.maskWords := by unfold Wave.maskWords ceilDiv; omega
  have h1 := List.flatMap_eq_nil_iff.1 h (i / 32) (List.mem_range.2 hmw)
  unfold quartersOf at h1
  have h2 := List.filterMap_eq_nil_iff.1 h1 (i / 8 % 4) (List.mem_range.2 (by omega))
  simp only at h2
  have h3 : (i, row i) ∈ (e.lanes.map fun i => (i, row i)).filter fun p => p.1 / 8 == 4 * (i / 32) + i / 8 % 4 := by
    rw [List.mem_filter]
    exact ⟨List.mem_map.2 ⟨i, hi, rfl⟩, by simp; omega⟩
  split at h2
  · rename_i h4; rw [h4] at h3; cases h3
  · cases h2

/-- One element of a tile written (R337). -/
theorem Wave.aget_aset (w : Wave) (t r c x : Nat) {t' r' c' : Nat} (hr : r < 8) (hc : c < 32) (hr' : r' < 8) (hc' : c' < 32) :
    (w.aset t r c x).aget t' r' c' = if t' = t ∧ r' = r ∧ c' = c then x % 2 ^ 32 else w.aget t' r' c' := by
  unfold Wave.aget Wave.aset
  simp only [Tbl.get_set]
  by_cases h : t' = t ∧ r' = r ∧ c' = c
  · obtain ⟨rfl, rfl, rfl⟩ := h
    simp
  · rw [if_neg h, if_neg (by omega)]

theorem Wave.aset_parts (w : Wave) (t r c x : Nat) : ∃ acc, w.aset t r c x = { w with acc := acc } := ⟨_, rfl⟩

/-- A row of a tile written. -/
theorem Wave.aget_rowSet (w : Wave) (t r : Nat) (f : Nat → Nat) {t' r' c' : Nat} (hr : r < 8) (hr' : r' < 8) (hc' : c' < 32) :
    (w.rowSet t r f).aget t' r' c' = if t' = t ∧ r' = r then f c' % 2 ^ 32 else w.aget t' r' c' := by
  have key : ∀ (l : List Nat) (w : Wave), (∀ j ∈ l, j < 32) →
      (l.foldl (fun w j => w.aset t r j (f j)) w).aget t' r' c' =
        if t' = t ∧ r' = r ∧ c' ∈ l then f c' % 2 ^ 32 else w.aget t' r' c' := by
    intro l
    induction l with
    | nil => intro w _; simp
    | cons j js ih =>
      intro w hj
      rw [List.foldl_cons, ih _ fun x hx => hj x (by simp [hx]), Wave.aget_aset w t r j (f j) hr (hj j (by simp)) hr' hc']
      by_cases h1 : t' = t ∧ r' = r
      · obtain ⟨rfl, rfl⟩ := h1
        by_cases h2 : c' ∈ js
        · simp [h2]
        · by_cases h3 : c' = j
          · subst h3; simp
          · simp [h2, h3]
      · have h2 : ∀ p : Prop, ¬(t' = t ∧ r' = r ∧ p) := fun p h => h1 ⟨h.1, h.2.1⟩
        rw [if_neg (h2 _), if_neg (h2 _), if_neg (h2 _)]
  unfold Wave.rowSet
  rw [key _ _ fun j hj => List.mem_range.1 hj]
  simp [hc']

theorem Wave.rowSet_parts (w : Wave) (t r : Nat) (f : Nat → Nat) : ∃ acc, w.rowSet t r f = { w with acc := acc } := by
  have key : ∀ (l : List Nat) (w : Wave), ∃ acc, l.foldl (fun w j => w.aset t r j (f j)) w = { w with acc := acc } := by
    intro l
    induction l with
    | nil => intro w; exact ⟨w.acc, rfl⟩
    | cons j js ih => intro w; obtain ⟨a, h⟩ := ih (w.aset t r j (f j)); exact ⟨a, by rw [List.foldl_cons, h]; rfl⟩
  exact key _ _

theorem rowOf_lt (i : Nat) : rowOf i < 8 := Nat.mod_lt _ (by decide)

theorem tile_row_inj {b i j : Nat} (h1 : tileOf b i = tileOf b j) (h2 : rowOf i = rowOf j) : i = j := by
  unfold tileOf at h1; unfold rowOf at h2; omega

theorem rowSets_parts (b : Nat) (f : Nat → Nat → Nat) (l : List Nat) (w : Wave) :
    ∃ acc, l.foldl (fun w i => w.rowSet (tileOf b i) (rowOf i) (f i)) w = { w with acc := acc } := by
  induction l generalizing w with
  | nil => exact ⟨w.acc, rfl⟩
  | cons i is ih =>
    obtain ⟨a0, h0⟩ := Wave.rowSet_parts w (tileOf b i) (rowOf i) (f i)
    obtain ⟨a, h1⟩ := ih (w.rowSet (tileOf b i) (rowOf i) (f i))
    exact ⟨a, by rw [List.foldl_cons, h1, h0]⟩

/-- The rows of the lanes, each written with its own values (R337, R359). -/
theorem aget_rowSets (b : Nat) (f : Nat → Nat → Nat) (l : List Nat) (w : Wave) :
    (∀ i ∈ l, ∀ j, j < 32 → (l.foldl (fun w i => w.rowSet (tileOf b i) (rowOf i) (f i)) w).aget (tileOf b i) (rowOf i) j = f i j % 2 ^ 32) ∧
      ∀ t r j, r < 8 → j < 32 → (∀ i ∈ l, ¬(tileOf b i = t ∧ rowOf i = r)) →
        (l.foldl (fun w i => w.rowSet (tileOf b i) (rowOf i) (f i)) w).aget t r j = w.aget t r j := by
  induction l generalizing w with
  | nil => exact ⟨by simp, fun _ _ _ _ _ _ => rfl⟩
  | cons i is ih =>
    obtain ⟨h2, h3⟩ := ih (w.rowSet (tileOf b i) (rowOf i) (f i))
    rw [List.foldl_cons]
    refine ⟨?_, ?_⟩
    · intro k hk j hj
      by_cases hin : k ∈ is
      · exact h2 k hin j hj
      · have : k = i := by simpa [hin] using hk
        subst this
        rw [h3 _ _ _ (rowOf_lt k) hj, Wave.aget_rowSet _ _ _ _ (rowOf_lt k) (rowOf_lt k) hj, if_pos ⟨rfl, rfl⟩]
        rintro m hm ⟨h4, h5⟩
        exact hin (tile_row_inj h4 h5 ▸ hm)
    · intro t r j hr hj hn
      rw [h3 t r j hr hj fun m hm => hn m (by simp [hm]), Wave.aget_rowSet _ _ _ _ (rowOf_lt i) hr hj, if_neg]
      rintro ⟨rfl, rfl⟩
      exact hn i (by simp) ⟨rfl, rfl⟩

/-- An accumulator word whose tiles are free of receptions acts, or joins the array's queue behind an earlier access (R338, R353, R365). -/
theorem inOrder_ok {e : Env} {b : Nat} {body : Env → WRes} (h1 : e.wv.receives (e.lanes.map (tileOf b)) = none)
    (h2 : ∀ i ∈ e.lanes, tileOf b i < e.wv.accs) (late : Env → WRes) :
    inOrder e b late body = if e.wv.queued (e.lanes.map (tileOf b)) = true then late e else body e := by
  unfold inOrder
  rw [withTiles_ok h1 h2]

theorem getD_flatMap_chunks (size : Nat) (g : Nat → Bytes) (hg : ∀ j, (g j).length = size) (n k : Nat) (hk : k < n * size) :
    ((List.range n).flatMap g).getD k 0 = (g (k / size)).getD (k % size) 0 := by
  have hs : 0 < size := by
    rcases Nat.eq_zero_or_pos size with h | h
    · subst h; simp at hk
    · exact h
  induction n with
  | zero => simp at hk
  | succ n ih =>
    rw [List.range_succ, List.flatMap_append, List.getD_eq_getElem?_getD]
    have hl : ((List.range n).flatMap g).length = n * size := by
      rw [List.length_flatMap]
      have : (List.range n).map (fun a => (g a).length) = List.replicate n size := by
        rw [List.eq_replicate_iff]; simp [hg]
      rw [this]; simp
    by_cases h : k < n * size
    · rw [List.getElem?_append_left (by rw [hl]; exact h), ← List.getD_eq_getElem?_getD]
      exact ih h
    · rw [List.getElem?_append_right (by rw [hl]; omega), hl]
      have h1 : k / size = n := by
        rw [Nat.succ_mul] at hk
        exact Nat.div_eq_of_lt_le (by omega) (by rw [Nat.succ_mul]; omega)
      have h2 : k - n * size = k % size := by
        have := Nat.div_add_mod k size
        rw [h1, Nat.mul_comm] at this
        omega
      rw [h1, h2]
      simp [List.getD_eq_getElem?_getD]

theorem length_flatMap_chunks (size : Nat) (g : Nat → Bytes) (hg : ∀ j, (g j).length = size) (n : Nat) :
    ((List.range n).flatMap g).length = n * size := by
  rw [List.length_flatMap]
  have : (List.range n).map (fun a => (g a).length) = List.replicate n size := by
    rw [List.eq_replicate_iff]; simp [hg]
  rw [this]; simp

/-- The scratchpad after rows of bytes, the later row's bytes last (R362). -/
theorem read_putRows (len : Nat) (addr : Nat → Nat) (row : Nat → Bytes) (hrow : ∀ i, (row i).length = len) (l : List Nat) (b : Block) :
    ∃ sp, l.foldl (fun k i => k.putScratch (addr i) (row i)) b = { b with scratch := sp } ∧
      ∀ y, Memory.read sp y = match lastOver (l.map fun i => (i, addr i)) len y with
        | some x => (row x.1).getD (y - x.2) 0
        | none => Memory.read b.scratch y := by
  induction l generalizing b with
  | nil => exact ⟨b.scratch, rfl, fun y => rfl⟩
  | cons i is ih =>
    obtain ⟨sp, h1, h2⟩ := ih (b.putScratch (addr i) (row i))
    refine ⟨sp, h1, fun y => ?_⟩
    rw [h2 y, List.map_cons, lastOver_cons]
    cases hq : lastOver (is.map fun i => (i, addr i)) len y with
    | some q => rfl
    | none =>
      simp only [Block.putScratch]
      rw [Memory.read_writes, hrow]
      by_cases hp : addr i ≤ y ∧ y < addr i + len
      · simp only [if_pos hp]
      · simp only [if_neg hp]

/-- Columns of vector registers written, a register for each column. -/
theorem velem_writes_columns (d : Nat) (x : Nat → Nat → W32) (lanes : List Nat) (hl : ∀ l ∈ lanes, l < 1024) (n : Nat) (v : Wave) :
    let w := v.writes ((List.range n).flatMap fun m => lanes.map fun i => .v (d + m) i (x m i))
    (∀ k, w.selem k = v.selem k) ∧ (∀ k, w.kelem k = v.kelem k) ∧
    ∀ k l, l < 1024 → w.velem k l = if d ≤ k ∧ k < d + n ∧ l ∈ lanes then x (k - d) l else v.velem k l := by
  have hlane : ∀ (m : Nat) (v : Wave), lanes.map (fun i => RegWrite.v (d + m) i (x m i)) =
      lanes.flatMap fun l => if (false : Bool) then [.v (d + m) l (x m l), .v (d + m + 1) l (x m l)] else [.v (d + m) l (x m l)] := by
    intro m v
    simp only [Bool.false_eq_true, if_false]
    induction lanes with
    | nil => rfl
    | cons a as ih => simp [ih fun l hl' => hl l (by simp [hl'])]
  induction n with
  | zero =>
    refine ⟨fun _ => rfl, fun _ => rfl, fun k l _ => ?_⟩
    rw [if_neg (by omega)]
    rfl
  | succ n ih =>
    obtain ⟨h1, h2, h3⟩ := ih
    simp only [List.range_succ, List.flatMap_append, Wave.writes_append, List.flatMap_cons, List.flatMap_nil, List.append_nil]
    rw [hlane n v]
    refine ⟨fun k => ?_, fun k => ?_, fun k l hl1 => ?_⟩
    · rw [(Wave.writes_lanes_rest _ _ _ _ _ _ _).1, h1]
    · rw [(Wave.writes_lanes_rest _ _ _ _ _ _ _).2, h2]
    · rw [Wave.velem_writes_lanes _ _ _ _ _ _ hl hl1, h3 k l hl1]
      by_cases hin : l ∈ lanes
      · by_cases hk : k = d + n
        · subst hk; simp [hin]
        · simp only [hin, hk, and_false, if_false, Bool.false_eq_true, false_and, and_true, true_and]
          by_cases h5 : d ≤ k ∧ k < d + n
          · rw [if_pos h5, if_pos (by omega)]
          · rw [if_neg h5, if_neg (by omega)]
      · simp [hin]

theorem leaderToken_single {e : Env} (h : e.s.twinned e.wv = false) (run : Env → WRes) (shadow : Env → State) :
    leaderToken e run shadow = run e := by simp [leaderToken, h]

end Sys2Proof.Machine
end

