-- ==== Sys2Proof/Laws/Engine.lean ====
section
/-! SUPPORT. Laws of engine requests: how a word sends one. -/

namespace Sys2Proof.Machine

/-- A word that sends its request (R444, R446). -/
theorem sends_of {w : Fields} {s : State} {e : Env} (h : Issues w s e) {i : Instr} {body : Env → WRes} {engines : List Nat} {tok : Option Nat}
    {op : EngOp} {regs : List RegId} {operands : Bytes} (hx : exec i s = onWord w s body)
    (hb : (∀ t, tok = some t → e.wv.tokSet t = false) → body e = engineOp e engines tok regs operands op none) :
    SendsReq e i engines tok op regs := by
  unfold SendsReq
  intro r sent hfull htok
  have hb := hb htok
  have hnone : tok.filter e.wv.tokSet = none := by
    cases tok with
    | none => rfl
    | some t => simp [htok t rfl]
  have hacts : e.acts = true := by simp [Env.acts, h.alone]
  have hfind : engines.find? e.s.engineFull = none := List.find?_eq_none.2 fun n hn => by simp [hfull n hn]
  have hpush (s : State) (x : LvqItem) (hs : s.twinned e.wv = false) : s.pushLvq e.wid e.wv x = s := by
    simp [State.pushLvq, hs]
  have hlvq (x : LvqItem) : e.s.lvqFull e.wid e.wv x = false := by simp [State.lvqFull, h.alone]
  unfold engineOp at hb
  rw [hnone] at hb
  simp only at hb
  rw [atCompare_single h.alone] at hb
  simp only [hacts, Bool.not_true, Bool.false_eq_true, if_false, loggedAt_single h.alone, hfind, hlvq, pushLog_single h.alone] at hb
  have hsent : sent.wave e.wid = some e.wv := h.wave
  have htw : sent.twinned e.wv = false := h.alone
  cases tok with
  | none =>
    simp only at hb
    rw [hpush _ _ (by exact htw)] at hb
    obtain ⟨s', w', q1, q2, q3, q4, q5, q6, q7⟩ := effect_done h hx hb (v := e.wv) htw hsent h.facts.frag rfl rfl (by simp) rfl
    refine ⟨s', e.wv, w', _, q1, q2, rfl, SameRegs.of_regs q3 q4 q5, by simpa [fpflagsAfter, mergeFlags, noFlags] using q6, q7, rfl, rfl, rfl, rfl⟩
  | some t =>
    simp only at hb
    rw [hpush _ _ (by exact htw)] at hb
    have hm : sent.modWave e.wid (fun w => w.raiseTok t) = sent.modWave e.wid fun _ => e.wv.raiseTok t := State.modWave_congr hsent rfl
    obtain ⟨s', w', q1, q2, q3, q4, q5, q6, q7⟩ := effect_done h hx hb (v := e.wv.raiseTok t) (by exact htw)
      (State.wave_modWave_of hsent) h.facts.frag rfl rfl (by simp) rfl
    refine ⟨s', e.wv.raiseTok t, w', _, q1, ?_, rfl, ?_, ?_, q7, rfl, rfl, rfl, rfl⟩
    · rw [← hm]; exact q2
    · exact SameRegs.of_regs q3 q4 q5
    · have : w'.fpflags = (e.wv.raiseTok t).fpflags := by simpa [fpflagsAfter, mergeFlags, noFlags] using q6
      exact this

theorem seqDie_eq (sid : Nat) : kvEngine (seqDie sid) = sid / 2 ^ 30 % 4 := by
  simp [kvEngine, seqDie, bits, Nat.shiftRight_eq_div_pow]

theorem kvEngines_eq (l : List Nat) : kvEngines l = dedup (l.map fun sid => sid / 2 ^ 30 % 4) := by
  unfold kvEngines
  congr 1
  exact List.map_congr_left fun x _ => seqDie_eq x

end Sys2Proof.Machine
end

