-- ==== Sys2Proof/Laws/Float.lean ====
section
/-! SUPPORT. Rounding: what `log2Floor`, `roundAt` and `roundNum` give of an exact magnitude, and how encodings decode. -/

open Sys2Proof Sys2Proof.Machine

namespace Sys2Proof.Machine

/-- The magnitude n/d · 2^e. -/
def mag (n d : Nat) (e : Int) : ℚ := (n : ℚ) / d * (2 : ℚ) ^ e

theorem log2Floor_spec {n d : Nat} (hn : 0 < n) (hd : 0 < d) (e : Int) :
    (2 : ℚ) ^ (log2Floor n d e) ≤ mag n d e ∧ mag n d e < (2 : ℚ) ^ (log2Floor n d e + 1) := by
  unfold log2Floor mag
  set k : Int := (n.log2 : Int) - d.log2 with hk
  have h2 : (0 : ℚ) < 2 := by norm_num
  have hpe : (0 : ℚ) < (2 : ℚ) ^ e := zpow_pos h2 e
  have hdq : (0 : ℚ) < d := by exact_mod_cast hd
  have hnq : (0 : ℚ) < n := by exact_mod_cast hn
  have n1 : 2 ^ n.log2 ≤ n := Nat.log2_self_le hn.ne'
  have n2 : n < 2 ^ (n.log2 + 1) := Nat.lt_log2_self
  have d1 : 2 ^ d.log2 ≤ d := Nat.log2_self_le hd.ne'
  have d2 : d < 2 ^ (d.log2 + 1) := Nat.lt_log2_self
  have n1q : (2 : ℚ) ^ (n.log2 : ℤ) ≤ n := by rw [zpow_natCast]; exact_mod_cast n1
  have n2q : (n : ℚ) < (2 : ℚ) ^ ((n.log2 : ℤ) + 1) := by
    have : ((n.log2 : ℤ) + 1) = ((n.log2 + 1 : ℕ) : ℤ) := by push_cast; rfl
    rw [this, zpow_natCast]; exact_mod_cast n2
  have d1q : (2 : ℚ) ^ (d.log2 : ℤ) ≤ d := by rw [zpow_natCast]; exact_mod_cast d1
  have d2q : (d : ℚ) < (2 : ℚ) ^ ((d.log2 : ℤ) + 1) := by
    have : ((d.log2 : ℤ) + 1) = ((d.log2 + 1 : ℕ) : ℤ) := by push_cast; rfl
    rw [this, zpow_natCast]; exact_mod_cast d2
  -- v = n/d lies in (2^(k-1), 2^(k+1))
  have lo : (2 : ℚ) ^ (k - 1) ≤ n / d := by
    rw [le_div_iff₀ hdq]
    have h3 : (2 : ℚ) ^ (k - 1) * d ≤ (2 : ℚ) ^ (k - 1) * (2 : ℚ) ^ ((d.log2 : ℤ) + 1) :=
      mul_le_mul_of_nonneg_left d2q.le (zpow_pos h2 _).le
    rw [← zpow_add₀ h2.ne'] at h3
    have : k - 1 + ((d.log2 : ℤ) + 1) = n.log2 := by omega
    rw [this] at h3
    exact h3.trans n1q
  have hi : (n : ℚ) / d < (2 : ℚ) ^ (k + 1) := by
    rw [div_lt_iff₀ hdq]
    have h3 : (2 : ℚ) ^ (k + 1) * (2 : ℚ) ^ (d.log2 : ℤ) ≤ (2 : ℚ) ^ (k + 1) * d :=
      mul_le_mul_of_nonneg_left d1q (zpow_pos h2 _).le
    rw [← zpow_add₀ h2.ne'] at h3
    have : k + 1 + (d.log2 : ℤ) = (n.log2 : ℤ) + 1 := by omega
    rw [this] at h3
    exact n2q.trans_le h3
  have below : (if k ≥ 0 then decide (n < d <<< k.toNat) else decide (n <<< (-k).toNat < d)) = true ↔ (n : ℚ) / d < (2 : ℚ) ^ k := by
    rw [div_lt_iff₀ hdq]
    split
    · rename_i h
      have : k = (k.toNat : ℤ) := by omega
      rw [this, zpow_natCast, decide_eq_true_iff, Nat.shiftLeft_eq, mul_comm]
      simp only [Int.toNat_natCast]
      exact_mod_cast Iff.rfl
    · rename_i h
      have : k = -((-k).toNat : ℤ) := by omega
      rw [decide_eq_true_iff, Nat.shiftLeft_eq]
      conv_rhs => rw [this]
      rw [zpow_neg, zpow_natCast, inv_mul_eq_div, lt_div_iff₀ (by positivity)]
      exact_mod_cast Iff.rfl
  have key : ∀ L : Int, (2 : ℚ) ^ L ≤ (n : ℚ) / d → (n : ℚ) / d < (2 : ℚ) ^ (L + 1) →
      (2 : ℚ) ^ (L + e) ≤ (n : ℚ) / d * 2 ^ e ∧ (n : ℚ) / d * 2 ^ e < (2 : ℚ) ^ (L + e + 1) := by
    intro L h1 h2'
    refine ⟨?_, ?_⟩
    · rw [zpow_add₀ h2.ne']; exact mul_le_mul_of_nonneg_right h1 hpe.le
    · have : L + e + 1 = (L + 1) + e := by ring
      rw [this, zpow_add₀ h2.ne']; exact mul_lt_mul_of_pos_right h2' hpe
  by_cases hb : (n : ℚ) / d < (2 : ℚ) ^ k
  · have : (if k ≥ 0 then decide (n < d <<< k.toNat) else decide (n <<< (-k).toNat < d)) = true := below.mpr hb
    have e1 : (if (if k ≥ 0 then n < d <<< k.toNat else n <<< (-k).toNat < d) then k - 1 else k) = k - 1 := by
      rw [if_pos]; split at this <;> rename_i hh <;> simp only [hh, if_true, if_false] <;> simpa using this
    simp only [e1] 
    exact key (k - 1) lo (by simpa using hb)
  · have e1 : (if (if k ≥ 0 then n < d <<< k.toNat else n <<< (-k).toNat < d) then k - 1 else k) = k := by
      rw [if_neg]
      intro h
      apply hb
      rw [← below]
      split at h <;> rename_i hh <;> simp only [hh, if_true, if_false] <;> simpa using h
    simp only [e1]
    exact key k (not_lt.mp hb) hi

theorem log2Floor_unique {n d : Nat} (hn : 0 < n) (hd : 0 < d) {e L : Int} (h1 : (2 : ℚ) ^ L ≤ mag n d e)
    (h2 : mag n d e < (2 : ℚ) ^ (L + 1)) : log2Floor n d e = L := by
  obtain ⟨h3, h4⟩ := log2Floor_spec hn hd e
  have a1 := lt_of_le_of_lt h1 h4
  have a2 := lt_of_le_of_lt h3 h2
  rw [zpow_lt_zpow_iff_right₀ (by norm_num)] at a1 a2
  omega

/-- The quotient and remainder that `roundAt` rounds. -/
theorem roundAt_spec (m : RM) (neg : Bool) (n d : Nat) (e q : Int) (hd : 0 < d) :
    ∃ N D t r : Nat, (N : Int) = (n : Int) * 2 ^ (e - q).toNat ∧ (D : Int) = (d : Int) * 2 ^ (q - e).toNat ∧ 0 < D ∧ N = t * D + r ∧ r < D ∧
      roundAt m neg n d e q = (if roundsUp m neg t r D then t + 1 else t, r != 0) := by
  unfold roundAt
  by_cases h : e - q ≥ 0
  · have h' : (q - e).toNat = 0 := by omega
    refine ⟨n <<< (e - q).toNat, d, (n <<< (e - q).toNat) / d, (n <<< (e - q).toNat) % d, ?_, ?_, hd, ?_, Nat.mod_lt _ hd, ?_⟩
    · simp [Nat.shiftLeft_eq]
    · simp [h']
    · rw [Nat.mul_comm]; exact (Nat.div_add_mod _ _).symm
    · simp only [h, if_true]
  · have h' : (e - q).toNat = 0 := by omega
    have h2 : -(e - q) = q - e := by omega
    have hp : 0 < d <<< (q - e).toNat := by rw [Nat.shiftLeft_eq]; exact Nat.mul_pos hd (Nat.two_pow_pos _)
    refine ⟨n, d <<< (q - e).toNat, n / (d <<< (q - e).toNat), n % (d <<< (q - e).toNat), ?_, ?_, hp, ?_, Nat.mod_lt _ hp, ?_⟩
    · simp [h']
    · simp [Nat.shiftLeft_eq]
    · rw [Nat.mul_comm]; exact (Nat.div_add_mod _ _).symm
    · simp only [h, if_false, h2]


theorem mag_units {n d : Nat} (hd : 0 < d) (e q : Int) {N D : Nat} (hN : (N : Int) = (n : Int) * 2 ^ (e - q).toNat)
    (hD : (D : Int) = (d : Int) * 2 ^ (q - e).toNat) : mag n d e = (N : ℚ) / D * 2 ^ q := by
  have hN' : (N : ℚ) = n * 2 ^ (e - q).toNat := by exact_mod_cast hN
  have hD' : (D : ℚ) = d * 2 ^ (q - e).toNat := by exact_mod_cast hD
  have h2 : (2 : ℚ) ≠ 0 := by norm_num
  have hdq : (d : ℚ) ≠ 0 := by exact_mod_cast hd.ne'
  rw [hN', hD', mag]
  by_cases h : e ≥ q
  · have h1 : (q - e).toNat = 0 := by omega
    have h3 : e = ((e - q).toNat : ℤ) + q := by omega
    rw [h1]
    conv_lhs => rw [h3, zpow_add₀ h2, zpow_natCast]
    field_simp
  · have h1 : (e - q).toNat = 0 := by omega
    have h3 : q = ((q - e).toNat : ℤ) + e := by omega
    rw [h1]
    conv_rhs => rw [h3, zpow_add₀ h2, zpow_natCast]
    have h4 : ((q - e).toNat + e - e : ℤ).toNat = (q - e).toNat := by omega
    simp only [h4]
    field_simp

theorem roundAt_exact (m : RM) (neg : Bool) {n d : Nat} (hd : 0 < d) {e q : Int} {M : Nat} (hv : mag n d e = M * 2 ^ q) :
    roundAt m neg n d e q = (M, false) := by
  obtain ⟨N, D, t, r, hN, hD, hpos, hdiv, hr, hq⟩ := roundAt_spec m neg n d e q hd
  have h2 : (0 : ℚ) < 2 := by norm_num
  have hm := mag_units hd e q hN hD
  rw [hv] at hm
  have hDq : (D : ℚ) ≠ 0 := by exact_mod_cast hpos.ne'
  have h3 : (M : ℚ) = N / D := by
    have := (mul_right_cancel₀ (zpow_pos h2 q).ne' hm)
    exact this
  rw [eq_div_iff hDq] at h3
  have h4 : M * D = N := by exact_mod_cast h3
  have h5 : t = M ∧ r = 0 := by
    have e1 : t = N / D := by
      rw [hdiv, Nat.mul_comm, Nat.mul_add_div hpos, Nat.div_eq_of_lt hr]; rfl
    have e2 : N / D = M := by rw [← h4, Nat.mul_div_cancel _ hpos]
    have e3 : r = N % D := by rw [hdiv, Nat.mul_comm, Nat.mul_add_mod, Nat.mod_eq_of_lt hr]
    refine ⟨e1.trans e2, ?_⟩
    rw [e3, ← h4]; exact Nat.mul_mod_left _ _
  rw [hq, h5.1, h5.2]
  have : roundsUp m neg M 0 D = false := by
    cases m <;> simp [roundsUp] <;> omega
  simp [this]

theorem roundNum_exact {f : Fmt} (m : RM) (sat neg : Bool) {n d : Nat} {e : Int} (hn : 0 < n) (hd : 0 < d) {M E : Nat} (hE : 1 ≤ E)
    (hM : (2 ^ f.fbits ≤ M ∧ M < 2 ^ (f.fbits + 1)) ∨ (E = 1 ∧ M < 2 ^ f.fbits))
    (hv : mag n d e = M * 2 ^ ((E : ℤ) - f.bias - f.fbits)) (hc : (E - 1) * 2 ^ f.fbits + M < f.infCode) :
    roundNum f m sat neg n d e = (f.signed neg ((E - 1) * 2 ^ f.fbits + M), noFlags) := by
  have h2 : (0 : ℚ) < 2 := by norm_num
  have hq : ((if log2Floor n d e < 1 - (f.bias : ℤ) then 1 - (f.bias : ℤ) else log2Floor n d e)) = E - f.bias := by
    rcases hM with ⟨h1, h3⟩ | ⟨h1, h3⟩
    · have h1q : (2 : ℚ) ^ (f.fbits : ℤ) ≤ M := by rw [zpow_natCast]; exact_mod_cast h1
      have h3q : (M : ℚ) < (2 : ℚ) ^ ((f.fbits : ℤ) + 1) := by
        have : ((f.fbits : ℤ) + 1) = ((f.fbits + 1 : ℕ) : ℤ) := by push_cast; rfl
        rw [this, zpow_natCast]; exact_mod_cast h3
      have : log2Floor n d e = E - f.bias := by
        refine log2Floor_unique hn hd ?_ ?_
        · rw [hv]
          have := mul_le_mul_of_nonneg_right h1q (zpow_pos h2 ((E : ℤ) - f.bias - f.fbits)).le
          rw [← zpow_add₀ h2.ne'] at this
          have hx : (f.fbits : ℤ) + (E - f.bias - f.fbits) = E - f.bias := by ring
          rwa [hx] at this
        · rw [hv]
          have := mul_lt_mul_of_pos_right h3q (zpow_pos h2 ((E : ℤ) - f.bias - f.fbits))
          rw [← zpow_add₀ h2.ne'] at this
          have hx : (f.fbits : ℤ) + 1 + (E - f.bias - f.fbits) = E - f.bias + 1 := by ring
          rwa [hx] at this
      rw [this]
      split <;> omega
    · have h3q : (M : ℚ) < (2 : ℚ) ^ (f.fbits : ℤ) := by rw [zpow_natCast]; exact_mod_cast h3
      have h4 := mul_lt_mul_of_pos_right h3q (zpow_pos h2 ((E : ℤ) - f.bias - f.fbits))
      rw [← hv, ← zpow_add₀ h2.ne'] at h4
      have h5 := lt_of_le_of_lt (log2Floor_spec hn hd e).1 h4
      rw [zpow_lt_zpow_iff_right₀ (by norm_num)] at h5
      rw [if_pos (by omega)]
      omega
  unfold roundNum
  rw [if_neg hn.ne']
  simp only [hq]
  have hb : ((E : ℤ) - f.bias + f.bias).toNat = E := by omega
  rw [roundAt_exact m neg hd hv]
  simp only [hb]
  rw [if_neg (by omega)]
  simp [flagIf, noFlags]

theorem Fmt.good {f : Fmt} (hf : f ∈ [fmtF32, fmtF16, fmtBF16, fmtE4M3, fmtE5M2]) : 2 ≤ f.ebits ∧
    f.infCode = (if f.noInf then (2 ^ f.ebits - 1) * 2 ^ f.fbits + (2 ^ f.fbits - 1) else (2 ^ f.ebits - 1) * 2 ^ f.fbits) := by
  simp only [List.mem_cons, List.not_mem_nil, or_false] at hf
  rcases hf with rfl | rfl | rfl | rfl | rfl <;> decide

/-- The parts of an encoding. -/
theorem code_parts (eb fb x : Nat) (hx : x < 2 ^ (1 + eb + fb)) (heb : 1 ≤ eb) :
    x = ofBool (bit x (eb + fb)) * 2 ^ (eb + fb) + bits x (eb + fb - 1) fb * 2 ^ fb + x % 2 ^ fb ∧ bits x (eb + fb - 1) fb < 2 ^ eb := by
  have h1 : eb + fb - 1 + 1 - fb = eb := by omega
  have hb : bits x (eb + fb - 1) fb = x / 2 ^ fb % 2 ^ eb := by
    unfold bits; rw [h1, Nat.shiftRight_eq_div_pow]
  have hbit : ofBool (bit x (eb + fb)) = x / 2 ^ fb / 2 ^ eb := by
    have h3 : x / 2 ^ fb / 2 ^ eb = x / 2 ^ (eb + fb) := by rw [Nat.div_div_eq_div_mul, ← Nat.pow_add, Nat.add_comm]
    have h4 : x / 2 ^ (eb + fb) < 2 := by
      rw [Nat.div_lt_iff_lt_mul (Nat.two_pow_pos _), ← Nat.pow_succ']
      rwa [show (eb + fb).succ = 1 + eb + fb by omega]
    rw [h3]
    unfold bit
    rw [Nat.testBit_eq_decide_div_mod_eq]
    unfold ofBool
    by_cases h5 : x / 2 ^ (eb + fb) = 0
    · simp [h5]
    · have h6 : x / 2 ^ (eb + fb) = 1 := by
        generalize x / 2 ^ (eb + fb) = y at h4 h5
        omega
      simp [h6]
  refine ⟨?_, hb ▸ Nat.mod_lt _ (Nat.two_pow_pos _)⟩
  rw [hb, hbit]
  have a1 := Nat.div_add_mod x (2 ^ fb)
  have a2 := Nat.div_add_mod (x / 2 ^ fb) (2 ^ eb)
  have a3 : 2 ^ (eb + fb) = 2 ^ fb * 2 ^ eb := by rw [Nat.pow_add, Nat.mul_comm]
  have a4 : x = 2 ^ fb * (2 ^ eb * (x / 2 ^ fb / 2 ^ eb) + x / 2 ^ fb % 2 ^ eb) + x % 2 ^ fb := by rw [a2, a1]
  rw [a3]
  calc x = 2 ^ fb * (2 ^ eb * (x / 2 ^ fb / 2 ^ eb) + x / 2 ^ fb % 2 ^ eb) + x % 2 ^ fb := a4
    _ = _ := by ring

/-- What a finite encoding decodes to. -/
theorem decode_num {f : Fmt} (hf : f ∈ [fmtF32, fmtF16, fmtBF16, fmtE4M3, fmtE5M2]) {x : Nat} (hx : x < 2 ^ f.width) {neg : Bool} {n d : Nat}
    {e : Int} (h : f.decode x = .num neg n d e) : ∃ E M : Nat, d = 1 ∧ n = M ∧ e = (E : ℤ) - f.bias - f.fbits ∧ 1 ≤ E ∧
      ((2 ^ f.fbits ≤ M ∧ M < 2 ^ (f.fbits + 1)) ∨ (E = 1 ∧ M < 2 ^ f.fbits)) ∧ (E - 1) * 2 ^ f.fbits + M < f.infCode ∧
      x = f.signed neg ((E - 1) * 2 ^ f.fbits + M) := by
  obtain ⟨heb, hinf⟩ := Fmt.good hf
  obtain ⟨hp, hlt⟩ := code_parts f.ebits f.fbits x hx (by omega)
  unfold Fmt.decode at h
  have hm : x % 2 ^ f.fbits < 2 ^ f.fbits := Nat.mod_lt _ (Nat.two_pow_pos _)
  have hsucc : 2 ^ (f.fbits + 1) = 2 * 2 ^ f.fbits := by rw [Nat.pow_succ]; omega
  simp only at h
  generalize hex : bits x (f.ebits + f.fbits - 1) f.fbits = ex at *
  generalize hmm : x % 2 ^ f.fbits = mm at *
  have h4 : 4 ≤ 2 ^ f.ebits := by
    calc 4 = 2 ^ 2 := rfl
      _ ≤ _ := Nat.pow_le_pow_right (by omega) heb
  have hpos : 0 < 2 ^ f.fbits := Nat.two_pow_pos _
  have hsgn : ∀ neg c, f.signed neg c = ofBool neg * 2 ^ (f.ebits + f.fbits) + c := by
    intro neg c; cases neg <;> simp [Fmt.signed, ofBool]
  split at h
  · rename_i h1
    split at h <;> cases h
  · rename_i h1
    split at h
    · cases h
    · rename_i h3
      split at h
      · rename_i h0
        injection h with h5 h6 h7 h8
        subst h5 h6 h7 h8
        refine ⟨1, mm, rfl, rfl, by push_cast; ring, le_rfl, Or.inr ⟨rfl, hm⟩, ?_, ?_⟩
        · have h7 : 1 * 2 ^ f.fbits ≤ (2 ^ f.ebits - 1) * 2 ^ f.fbits := Nat.mul_le_mul_right _ (by omega)
          rw [hinf]; split <;> omega
        · rw [hsgn, Nat.sub_self, Nat.zero_mul, Nat.zero_add]
          rw [h0] at hp; simpa using hp
      · rename_i h0
        injection h with h5 h6 h7 h8
        subst h5 h6 h7 h8
        have h1' : 1 ≤ ex := Nat.one_le_iff_ne_zero.mpr h0
        have hmul : (ex - 1) * 2 ^ f.fbits + 2 ^ f.fbits = ex * 2 ^ f.fbits := by
          obtain ⟨y, hy⟩ : ∃ y, ex = y + 1 := ⟨ex - 1, by omega⟩
          rw [hy]; simp; ring
        refine ⟨ex, 2 ^ f.fbits + mm, rfl, rfl, rfl, h1', Or.inl ⟨by omega, by omega⟩, ?_, ?_⟩
        · rw [← Nat.add_assoc, hmul, hinf]
          split
          · rename_i hni
            by_cases h5 : ex = 2 ^ f.ebits - 1
            · have : mm ≠ 2 ^ f.fbits - 1 := fun h6 => h3 ⟨hni, h5, h6⟩
              rw [h5]; omega
            · have h6 : ex + 1 ≤ 2 ^ f.ebits - 1 := by omega
              have h7 : (ex + 1) * 2 ^ f.fbits ≤ (2 ^ f.ebits - 1) * 2 ^ f.fbits := Nat.mul_le_mul_right _ h6
              rw [Nat.add_mul] at h7
              omega
          · rename_i hni
            have h5 : ex ≠ 2 ^ f.ebits - 1 := fun h6 => h1 ⟨h6, by simpa using hni⟩
            have h6 : ex + 1 ≤ 2 ^ f.ebits - 1 := by omega
            have h7 : (ex + 1) * 2 ^ f.fbits ≤ (2 ^ f.ebits - 1) * 2 ^ f.fbits := Nat.mul_le_mul_right _ h6
            rw [Nat.add_mul] at h7
            omega
        · rw [hsgn, ← Nat.add_assoc ((ex - 1) * 2 ^ f.fbits), hmul, ← Nat.add_assoc]
          exact hp

theorem mag_one (M : Nat) (q : Int) : mag M 1 q = M * 2 ^ q := by simp [mag]

theorem decode_code {f : Fmt} (hinf : f.noInf = false) (neg : Bool) {E M : Nat} (hE : 1 ≤ E) (hE2 : E < 2 ^ f.ebits - 1)
    (h1 : 2 ^ f.fbits ≤ M) (h2 : M < 2 ^ (f.fbits + 1)) (heb : 1 ≤ f.ebits) :
    f.signed neg ((E - 1) * 2 ^ f.fbits + M) < 2 ^ f.width ∧
    f.decode (f.signed neg ((E - 1) * 2 ^ f.fbits + M)) = .num neg M 1 ((E : ℤ) - f.bias - f.fbits) := by
  obtain ⟨m, rfl⟩ : ∃ m, M = 2 ^ f.fbits + m := ⟨M - 2 ^ f.fbits, by omega⟩
  have hm : m < 2 ^ f.fbits := by rw [Nat.pow_succ] at h2; omega
  have hpos := Nat.two_pow_pos f.fbits
  have hsgn : f.signed neg ((E - 1) * 2 ^ f.fbits + (2 ^ f.fbits + m)) = 2 ^ f.fbits * (2 ^ f.ebits * ofBool neg + E) + m := by
    obtain ⟨y, rfl⟩ : ∃ y, E = y + 1 := ⟨E - 1, by omega⟩
    cases neg <;> simp [Fmt.signed, ofBool, Nat.pow_add] <;> ring
  rw [hsgn]
  generalize hb : ofBool neg = b
  have hb2 : b ≤ 1 := by rw [← hb]; cases neg <;> simp [ofBool]
  have hEl : E < 2 ^ f.ebits := by omega
  have hlt : 2 ^ f.ebits * b + E < 2 ^ (f.ebits + 1) := by
    rw [Nat.pow_succ]
    have := Nat.mul_le_mul_left (2 ^ f.ebits) hb2
    omega
  have hdiv : (2 ^ f.fbits * (2 ^ f.ebits * b + E) + m) / 2 ^ f.fbits = 2 ^ f.ebits * b + E := by
    rw [Nat.mul_add_div hpos, Nat.div_eq_of_lt hm, Nat.add_zero]
  have hmod : (2 ^ f.fbits * (2 ^ f.ebits * b + E) + m) % 2 ^ f.fbits = m := by
    rw [Nat.mul_add_mod, Nat.mod_eq_of_lt hm]
  have hex : bits (2 ^ f.fbits * (2 ^ f.ebits * b + E) + m) (f.ebits + f.fbits - 1) f.fbits = E := by
    unfold bits
    rw [show f.ebits + f.fbits - 1 + 1 - f.fbits = f.ebits by omega, Nat.shiftRight_eq_div_pow, hdiv, Nat.mul_add_mod, Nat.mod_eq_of_lt hEl]
  have hbit : bit (2 ^ f.fbits * (2 ^ f.ebits * b + E) + m) (f.ebits + f.fbits) = neg := by
    unfold bit
    rw [Nat.testBit_eq_decide_div_mod_eq, Nat.add_comm f.ebits, Nat.pow_add, ← Nat.div_div_eq_div_mul, hdiv,
      Nat.mul_add_div (Nat.two_pow_pos _), Nat.div_eq_of_lt hEl, Nat.add_zero, ← hb]
    cases neg <;> simp [ofBool]
  refine ⟨?_, ?_⟩
  · have : 2 ^ f.width = 2 ^ f.fbits * 2 ^ (f.ebits + 1) := by rw [← Nat.pow_add]; congr 1; unfold Fmt.width; omega
    rw [this]
    have := Nat.mul_le_mul_left (2 ^ f.fbits) (Nat.succ_le_of_lt hlt)
    rw [Nat.mul_succ] at this
    omega
  · unfold Fmt.decode
    simp only [hbit, hex, hmod, hinf]
    rw [if_neg (by omega), if_neg (by simp), if_neg (by omega)]

/-! ### The order of values -/

theorem sgn_not (s : Bool) (n : Nat) : sgn (!s) n = -sgn s n := by cases s <;> simp [sgn]

/-- The order of values that are no NaNs is the other way round with its operands exchanged. -/
theorem cmpVal_swap {a b : Val} (ha : ¬a.isNan) (hb : ¬b.isNan) :
    (cmpVal b a < 0 ↔ 0 < cmpVal a b) ∧ (cmpVal b a = 0 ↔ cmpVal a b = 0) := by
  have key : ∀ s n d e s' n' d' e', (addNum (.num s' n' d' e') (Val.neg (.num s n d e))).1 = -(addNum (.num s n d e) (Val.neg (.num s' n' d' e'))).1 := by
    intro s n d e s' n' d' e'
    have hq : (if e' < e then e' else e) = (if e < e' then e else e') := by split <;> split <;> omega
    simp only [addNum, Val.neg, hq, sgn_not]
    omega
  cases a with
  | nan s => simp [Val.isNan] at ha
  | inf s => cases b with
    | nan s => simp [Val.isNan] at hb
    | inf s' => cases s <;> cases s' <;> decide
    | num s' n' d' e' => cases s <;> simp [cmpVal]
  | num s n d e => cases b with
    | nan s => simp [Val.isNan] at hb
    | inf s' => cases s' <;> simp [cmpVal]
    | num s' n' d' e' =>
      simp only [cmpVal, key s n d e]
      generalize (addNum (.num s n d e) (Val.neg (.num s' n' d' e'))).1 = x
      constructor <;> (repeat' split) <;> omega

theorem cmpVal_self {a : Val} (ha : ¬a.isNan) : cmpVal a a = 0 := by
  have := cmpVal_swap ha ha
  omega

theorem notAbove_self {a : Val} (ha : ¬a.isNan) : NotAbove a a := Or.inr ⟨cmpVal_self ha, by cases a.sign <;> simp⟩

/-- An operand of FMIN or FMAX that is chosen is delivered without an exception. -/
theorem minMax_exact {f : Fmt} (hf : f ∈ [fmtF32, fmtF16, fmtBF16]) (isMax : Bool) (x y : Nat) :
    (roundVal f .rne (minMaxVal isMax (f.decode (x % 2 ^ f.width)) (f.decode (y % 2 ^ f.width))).1).2 = noFlags := by
  have hni : f.noInf = false := by
    simp only [List.mem_cons, List.not_mem_nil, or_false] at hf
    rcases hf with rfl | rfl | rfl <;> rfl
  have hf5 : f ∈ [fmtF32, fmtF16, fmtBF16, fmtE4M3, fmtE5M2] := by
    simp only [List.mem_cons, List.not_mem_nil, or_false] at hf ⊢
    rcases hf with rfl | rfl | rfl <;> simp
  have one : ∀ z, ¬(f.decode (z % 2 ^ f.width)).isNan → (roundVal f .rne (f.decode (z % 2 ^ f.width))).2 = noFlags := by
    intro z hz
    have hz' : z % 2 ^ f.width < 2 ^ f.width := Nat.mod_lt _ (Nat.two_pow_pos _)
    cases hd : f.decode (z % 2 ^ f.width) with
    | nan s => rw [hd] at hz; simp [Val.isNan] at hz
    | inf s => simp [roundVal, hni]
    | num neg n d e =>
      obtain ⟨E, M, rfl, rfl, rfl, hE, hM, hc, hxe⟩ := decode_num hf5 hz' hd
      show (roundNum f .rne false neg n 1 _).2 = _
      by_cases h0 : n = 0
      · rw [h0]; rfl
      · rw [roundNum_exact .rne false neg (Nat.pos_of_ne_zero h0) (by omega) hE hM (mag_one _ _) hc]
  generalize hA : f.decode (x % 2 ^ f.width) = A
  generalize hB : f.decode (y % 2 ^ f.width) = B
  have oneA := one x; have oneB := one y
  rw [hA] at oneA; rw [hB] at oneB
  unfold minMaxVal
  by_cases ha : A.isNan = true
  · by_cases hb : B.isNan = true
    · simp [ha, hb, roundVal, flagIf]
    · simp [ha, hb]; exact oneB hb
  · by_cases hb : B.isNan = true
    · simp [ha, hb]; exact oneA ha
    · simp only [ha, hb, if_false, Bool.false_eq_true]
      cases h : ((if cmpVal A B = 0 then A.sign && !B.sign else decide (cmpVal A B < 0)) != isMax) with
      | true => exact oneA ha
      | false => exact oneB hb

end Sys2Proof.Machine
end

