-- ==== Sys2Proof/Laws/GroupSum.lean ====
section
/-! SUPPORT. The exact sum of a group (R68, R69), and what a pass reads that nothing was written under. -/

namespace Sys2Proof.Machine

/-- A dyadic number counted in units of 2^q. -/
theorem addNum_units (q : Int) (s s' : Bool) (n n' : Nat) (e e' : Int) (he : q ≤ e) (he' : q ≤ e') :
    ∃ x m, addNum (.num s n 1 e) (.num s' n' 1 e') = (x, 1, m) ∧ q ≤ m ∧
      x * 2 ^ (m - q).toNat = sgn s n * 2 ^ (e - q).toNat + sgn s' n' * 2 ^ (e' - q).toNat := by
  have hs : ∀ (s : Bool) (n k : Nat), sgn s (n <<< k * 1) = sgn s n * 2 ^ k := by
    intro s n k
    rw [Nat.shiftLeft_eq, Nat.mul_one]
    unfold sgn
    split <;> push_cast
    · exact (Int.neg_mul _ _).symm
    · rfl
  have hpow : ∀ (m : Int) (e : Int), q ≤ m → m ≤ e → (2 : Int) ^ (e - m).toNat * 2 ^ (m - q).toNat = 2 ^ (e - q).toNat := by
    intro m e h1 h2
    rw [← Int.pow_add]
    congr 1
    omega
  refine ⟨_, _, rfl, ?_, ?_⟩
  · split <;> omega
  · rw [hs, hs, Int.add_mul, Int.mul_assoc, Int.mul_assoc, hpow _ _ (by split <;> omega) (by split <;> omega),
      hpow _ _ (by split <;> omega) (by split <;> omega)]

/-- An integer is its sign and its magnitude. -/
theorem sgn_natAbs (x : Int) : sgn (decide (x < 0)) x.natAbs = x := by
  unfold sgn
  by_cases h : x < 0
  · rw [decide_eq_true h, if_pos rfl]; omega
  · rw [decide_eq_false h, if_neg Bool.false_ne_true]; omega

/-- The exact sum of finite terms, counted in units of 2^q. -/
theorem sumFin_units (q : Int) (hq : q ≤ 0) (f : Val → Int)
    (hf : ∀ s n e, q ≤ e → f (.num s n 1 e) = sgn s n * 2 ^ (e - q).toNat) (l : List Val)
    (h : ∀ v ∈ l, ∃ s n e, v = .num s n 1 e ∧ q ≤ e) :
    ∃ s n e, sumFin l = .num s n 1 e ∧ q ≤ e ∧ (n = 0 → s = false) ∧ sgn s n * 2 ^ (e - q).toNat = (l.map f).sum := by
  have : ∀ (l : List Val) (s : Bool) (n : Nat) (e : Int), (∀ v ∈ l, ∃ s n e, v = .num s n 1 e ∧ q ≤ e) → q ≤ e → (n = 0 → s = false) →
      ∃ s' n' e', l.foldl (fun acc v => let (x, d, q) := addNum acc v; Val.num (decide (x < 0)) x.natAbs d q) (.num s n 1 e) =
        .num s' n' 1 e' ∧ q ≤ e' ∧ (n' = 0 → s' = false) ∧ sgn s' n' * 2 ^ (e' - q).toNat = sgn s n * 2 ^ (e - q).toNat + (l.map f).sum := by
    intro l
    induction l with
    | nil => exact fun s n e _ h1 h2 => ⟨s, n, e, rfl, h1, h2, by simp⟩
    | cons v l ih =>
      intro s n e hl h1 h2
      obtain ⟨s1, n1, e1, rfl, h3⟩ := hl v List.mem_cons_self
      obtain ⟨x, m, hx, hm, hs⟩ := addNum_units q s s1 n n1 e e1 h1 h3
      obtain ⟨s', n', e', h4, h5, h6, h7⟩ := ih (decide (x < 0)) x.natAbs m (fun v hv => hl v (List.mem_cons_of_mem _ hv)) hm
        (fun h => by simp; omega)
      refine ⟨s', n', e', ?_, h5, h6, ?_⟩
      · rw [List.foldl_cons, hx]
        exact h4
      · rw [h7, sgn_natAbs, hs, List.map_cons, List.sum_cons, hf _ _ _ h3, Int.add_assoc]
  obtain ⟨s, n, e, h1, h2, h3, h4⟩ := this l false 0 0 h hq (fun _ => rfl)
  exact ⟨s, n, e, h1, h2, h3, by simpa [sgn] using h4⟩

/-- A product whose scale is zero counts as +0. -/
theorem productValue_zero {p : Product} (h : p.scale.isZero = true) : p.value = .num false 0 1 0 := by
  unfold Product.value
  rw [if_pos h]

/-- The value of a product whose scale is not zero. -/
theorem productValue_live {p : Product} (h : p.scale.isZero = false) : p.value = match (mulVal p.a p.b).1 with
    | .nan _ => .nan false
    | .inf s => .inf (s != p.scale.sign)
    | v => mulNum v p.scale := by
  unfold Product.value
  exact if_neg (by rw [h]; exact Bool.false_ne_true)

/-- A product that makes its group NaN (R69). -/
def badFactors (p : Product) : Bool := p.a.isNan || p.b.isNan || (p.a.isZero && p.b.isInf) || (p.a.isInf && p.b.isZero)

/-- A product with an infinite factor. -/
def infFactor (p : Product) : Bool := p.a.isInf || p.b.isInf

/-- The sign of a product with its scale. -/
def productSign (p : Product) : Bool := (p.a.sign != p.b.sign) != p.scale.sign

/-- The three kinds of product (R69). -/
theorem productValue_cases (p : Product) (hs : p.scale.isFin = true) (h : p.scale.isZero = false) :
    (badFactors p = true → p.value = .nan false) ∧ (badFactors p = false → infFactor p = true → p.value = .inf (productSign p)) ∧
    (badFactors p = false → infFactor p = false → p.value.isFin = true) := by
  rw [productValue_live h]
  obtain ⟨a, b, c⟩ := p
  simp only at hs h
  cases c with
  | nan _ => simp [Val.isFin] at hs
  | inf _ => simp [Val.isFin] at hs
  | num s n d e =>
    rcases a with _ | (_ | _) | ⟨(_ | _), (_ | _), _, _⟩ <;> rcases b with _ | (_ | _) | ⟨(_ | _), (_ | _), _, _⟩ <;>
      simp [badFactors, infFactor, productSign, mulVal, mulNum, Val.isNan, Val.isInf, Val.isZero, Val.sign, Val.isFin]

/-- The exact value of a finite product. -/
theorem productValue_num (p : Product) (sa sb ss : Bool) (na nb ns : Nat) (ea eb es : Int)
    (ha : p.a = .num sa na 1 ea) (hb : p.b = .num sb nb 1 eb) (hc : p.scale = .num ss ns 1 es) (h : p.scale.isZero = false) :
    p.value = .num ((sa != sb) != ss) (na * nb * ns) 1 (ea + eb + es) := by
  rw [productValue_live h, ha, hb, hc]
  rfl

/-- The sign of an infinity. -/
def infSign (v : Val) : Option Bool :=
  match v with
  | .inf s => some s
  | _ => none

/-- A group without a NaN: opposed infinities, an infinity, or the exact sum (R69). -/
theorem groupSum_of (l : List Product) (h : (l.map Product.value).any Val.isNan = false) :
    groupSum l = (fun infs => if List.contains infs true && List.contains infs false then Val.nan false
      else match infs with | s :: _ => .inf s | [] => sumFin (l.map Product.value))
        ((l.map Product.value).filterMap infSign) := by
  change (if (l.map Product.value).any Val.isNan = true then _ else _) = _
  rw [h, if_neg Bool.false_ne_true]
  rfl

/-- A pass that nothing was written under reads the byte that stands there. -/
theorem seen_old (p : ArrayPass) (h : p.wrote = []) (use : Nat) (d : CopyDst) (x : Byte) : p.seen use d x = x := by
  unfold ArrayPass.seen
  rw [h]
  rfl

/-- The same of operand-buffer bytes. -/
theorem obuf_old (p : ArrayPass) (h : p.wrote = []) (s : State) (off n : Nat) : p.obuf s off n = obufBytes s p.col.bid off n := by
  unfold ArrayPass.obuf
  simp only [seen_old p h]
  exact List.zipIdx_map_fst ..

/-- The same of stand bytes. -/
theorem stand_old (p : ArrayPass) (h : p.wrote = []) (s : State) (off n : Nat) : p.stand s off n = standBytes s p.col.bid off n := by
  unfold ArrayPass.stand
  simp only [seen_old p h]
  exact List.zipIdx_map_fst ..

/-- The same of an element of A. -/
theorem aElem_old (p : ArrayPass) (h : p.wrote = []) (s : State) (r : ObRec) (row k : Nat) : aElem s p r row k =
    valOf (fmtTy r.fmt) (ofLE (obufBytes s p.col.bid (r.rowAt row + k * fmtBytes r.fmt) (fmtBytes r.fmt))) := by
  unfold aElem
  simp only [obuf_old p h]

/-- The same of an element of B. -/
theorem bElem_old (p : ArrayPass) (h : p.wrote = []) (s : State) (k j : Nat) : bElem s p k j =
    valOf (tyAt p.col.tile.fmt) (ofLE (standBytes s p.col.bid (p.col.tile.sb + k / 32 * 1024 * (tyBits (tyAt p.col.tile.fmt) / 8) +
      j * 32 * (tyBits (tyAt p.col.tile.fmt) / 8) + k % 32 * (tyBits (tyAt p.col.tile.fmt) / 8)) (tyBits (tyAt p.col.tile.fmt) / 8))) := by
  unfold bElem
  simp only [stand_old p h]

/-- Writing the rows of a member: each takes its elements, no other row changes. -/
theorem memberRows_does (tile : Nat) (f : Nat × Nat → Nat → Nat) : ∀ (ts : List (Nat × Nat)) (w : Wave),
    (∃ acc, ts.foldl (fun (w : Wave) a => w.rowSet tile a.1 (f a)) w = { w with acc := acc }) ∧
    ((∀ a ∈ ts, a.1 < 8) → (ts.map (·.1)).Nodup →
      (∀ a ∈ ts, ∀ j, j < 32 → (ts.foldl (fun (w : Wave) a => w.rowSet tile a.1 (f a)) w).aget tile a.1 j = f a j % 2 ^ 32) ∧
      ∀ t row j, row < 8 → j < 32 → (t = tile → row ∉ ts.map (·.1)) →
        (ts.foldl (fun (w : Wave) a => w.rowSet tile a.1 (f a)) w).aget t row j = w.aget t row j)
  | [], w => ⟨⟨w.acc, rfl⟩, fun _ _ => ⟨fun _ h => absurd h List.not_mem_nil, fun _ _ _ _ _ _ => rfl⟩⟩
  | a :: ts, w => by
    rw [List.foldl_cons]
    obtain ⟨⟨acc, h1⟩, h2⟩ := memberRows_does tile f ts (w.rowSet tile a.1 (f a))
    refine ⟨?_, fun hr hn => ?_⟩
    · obtain ⟨acc0, h0⟩ := Wave.rowSet_parts w tile a.1 (f a)
      exact ⟨acc, by rw [h1, h0]⟩
    · rw [List.map_cons, List.nodup_cons] at hn
      obtain ⟨h3, h4⟩ := h2 (fun b hb => hr b (List.mem_cons_of_mem _ hb)) hn.2
      have hra := hr a List.mem_cons_self
      refine ⟨fun b hb j hj => ?_, fun t row j h5 h6 h7 => ?_⟩
      · rcases List.mem_cons.1 hb with rfl | hb
        · rw [h4 _ _ _ hra hj (fun _ => hn.1), Wave.aget_rowSet _ _ _ _ hra hra hj, if_pos ⟨rfl, rfl⟩]
        · exact h3 b hb j hj
      · rw [List.map_cons] at h7
        rw [h4 _ _ _ h5 h6 (fun e => fun h => h7 e (List.mem_cons_of_mem _ h)), Wave.aget_rowSet _ _ _ _ hra h5 h6,
          if_neg fun h => h7 h.1 (by rw [h.2]; exact List.mem_cons_self)]

end Sys2Proof.Machine
end

