-- ==== Sys2Proof/Laws/Local.lean ====
section
/-! SUPPORT. Writes to a block's own memories: scratchpad, operand buffer, drains. -/

namespace Sys2Proof.Machine

/-- Settling the copies in flight changes the copies alone, and nothing where none is in flight. -/
theorem settleCopies_does (s : State) (bid : Nat) (hit : CopyDst → Bool) :
    { s.settleCopies bid hit with cores := s.cores, free := s.free } = s ∧
    (∀ k, { (s.settleCopies bid hit).core k with copies := (s.core k).copies } = s.core k) ∧
    (flying s bid = [] → s.settleCopies bid hit = s) := by
  refine ⟨?_, fun k => ?_, fun hf => ?_⟩
  · simp only [State.settleCopies]; split <;> rfl
  · simp only [State.settleCopies]
    split
    · rfl
    · rw [State.core_modCore]
      split
      · rename_i hk; subst hk; rfl
      · rfl
  · simp [State.settleCopies, hf]

/-- Noting old bytes changes the passes alone, and nothing where no pass reads the block. -/
theorem noteOld_cores (s : State) (bid : Nat) (l : List CopyDst) :
    (∀ k, { (s.noteOld bid l).core k with passes := (s.core k).passes } = s.core k) ∧
    ((∀ p ∈ (s.core (bid / 8)).passes, p.col.bid ≠ bid) → s.noteOld bid l = s) := by
  refine ⟨fun k => ?_, fun hp => ?_⟩
  · unfold State.noteOld
    simp only
    split
    · rfl
    · split
      · rfl
      · rw [State.core_modCore]
        split
        · rename_i hk; subst hk; rfl
        · rfl
  · unfold State.noteOld
    simp only
    split
    · rfl
    · rw [if_pos]
      rw [List.all_eq_true]
      intro p hq
      simpa using hp p hq

/-- Copies in flight depend on the copies and the waves alone. -/
theorem flying_congr {s t : State} (bid : Nat) (h1 : ∀ k, (t.core k).copies = (s.core k).copies) (h2 : t.waves = s.waves) :
    flying t bid = flying s bid := by
  unfold flying
  rw [h1]
  congr 1
  funext c
  unfold State.wave
  rw [h2]

/-- A write of operand-buffer bytes: the block gets the bytes, copies and passes settle. -/
theorem writeObuf_does (s : State) (bid : Nat) (b : Block) (hb : s.block bid = some b) (l : List (Nat × Bytes)) :
    ∃ s1, s.writeObuf bid l = (s1.modBlock bid fun _ => { b with obuf := l.foldl (fun m x => Memory.writes m x.1 x.2) b.obuf }) ∧
      { s1 with cores := s.cores, free := s.free } = s ∧
      (∀ k, { s1.core k with copies := (s.core k).copies, passes := (s.core k).passes } = s.core k) ∧
      (flying s bid = [] → (∀ p ∈ (s.core (bid / 8)).passes, p.col.bid ≠ bid) → s1 = s) := by
  unfold State.writeObuf
  simp only
  generalize hl1 : (l.flatMap fun x => (List.range x.2.length).map fun i => CopyDst.ob (x.1 + i)) = l1
  generalize hhit : (fun d : CopyDst => match d with
    | .ob o => l.any fun x => decide (x.1 ≤ o) && decide (o < x.1 + x.2.length)
    | _ => false) = hit
  have h1 := noteOld_does s bid l1
  obtain ⟨h2, h3⟩ := noteOld_cores s bid l1
  obtain ⟨h4, h5, h6⟩ := settleCopies_does (s.noteOld bid l1) bid hit
  have hall : { (s.noteOld bid l1).settleCopies bid hit with cores := s.cores, free := s.free } = s := by
    have hf : (s.noteOld bid l1).free = s.free := by have := congrArg State.free h1; exact this
    calc { (s.noteOld bid l1).settleCopies bid hit with cores := s.cores, free := s.free }
        = { { (s.noteOld bid l1).settleCopies bid hit with cores := (s.noteOld bid l1).cores, free := (s.noteOld bid l1).free } with cores := s.cores, free := s.free } := rfl
      _ = { s.noteOld bid l1 with cores := s.cores, free := s.free } := by rw [h4]
      _ = { { s.noteOld bid l1 with cores := s.cores } with free := s.free } := rfl
      _ = s := by rw [h1]
  refine ⟨_, State.modBlock_congr ?_ rfl, hall, fun k => ?_, fun h7 h8 => ?_⟩
  · rw [← hb]
    have := congrArg State.blocks hall
    exact congrArg (Tbl.find · bid) (show _ = s.blocks from this)
  · have a := h5 k
    have b := h2 k
    rw [← b, ← a]
  · rw [h3 h8] at h6 ⊢
    exact h6 h7

/-- A word whose effect leaves `s1`, where only its own wave's record changes further. -/
theorem ownWave_done {w : Fields} {s : State} {e : Env} (h : Issues w s e) {i : Instr} {body : Env → WRes} {s1 : State} {v : Wave} {f : Wave → Wave}
    (hx : exec i s = onWord w s body) (hb : body e = .done { s := s1.modWave e.wid f }) (hfv : f e.wv = v)
    (hf : v.frags = e.wv.frags) (hn : NoWave e.s s1) : ∃ s' w', exec i e.s = .next s' ∧
      Completes e (s1.modWave e.wid fun _ => v) v s' w' ∧ SameRegs v w' ∧ w'.fpflags = v.fpflags ∧ w'.pending = v.pending := by
  subst hfv
  have hwv : s1.wave e.wid = some e.wv := by rw [← h.wave]; exact congrArg (fun t => Tbl.find t e.wid) hn.1
  rw [State.modWave_congr (g := fun _ => f e.wv) hwv rfl] at hb
  obtain ⟨s', w', q1, q2, q3, q4, q5, q6, q7⟩ := effect_done h hx hb (v := f e.wv)
    ((HomeOnly.of_launches (t := s1.modWave e.wid fun _ => f e.wv) (s := e.s) hn.2 e.wv).trans h.alone)
    (State.wave_modWave_of hwv) (by rw [hf]; exact h.facts.frag) rfl rfl (by simp) rfl
  exact ⟨s', w', q1, q2, SameRegs.of_regs q3 q4 q5, by simpa [fpflagsAfter, mergeFlags, noFlags] using q6,
    by simpa [Env.pendingAfter] using q7⟩

/-- The bytes that a drain writes, lane by lane. -/
theorem drained_foldl (w : Wave) (b ty : Nat) (sat : Bool) (addr : Nat → Nat) (l : List Nat) (k : Block) :
    (w.drained b ty sat (l.map fun i => (i, addr i))).foldl (fun b x => b.putScratch x.1 x.2) k =
      l.foldl (fun k i => k.putScratch (addr i) ((List.range 32).flatMap fun j =>
        leBytes (tyBits ((tyOf ty).getD .b32) / 8) (convertVal ((tyOf ty).getD .b32) .rne sat (fval .f32 (w.aget (tileOf b i) (rowOf i) j))).1)) k := by
  unfold Wave.drained
  simp only [List.map_map, List.foldl_map]
  rfl

/-- A DRN whose operands pass every check drains its rows. -/
theorem drn_body {e : Env} {b : Block} {a o p size : Nat} (hbk : e.s.block (e.wv.bid e.wid) = some b) (hl : e.lanes ≠ [])
    (h1 : ∀ i ∈ e.lanes, tileOf a i < e.wv.accs) (h2 : e.wv.receives (e.lanes.map (tileOf a)) = none) (h4 : o % 16 = 0) (h5 : p % 16 = 0)
    (h6 : ∀ x ∈ e.lanes.map fun l => (l, o + l * p), x.2 + 32 * size ≤ b.scratchSize)
    (h7 : b.absentAt ((e.lanes.map fun l => (l, o + l * p)).map fun x => (x.2, 32 * size)) = none) :
    (if e.lanes.isEmpty then WRes.done { s := e.s }
    else withTiles e a fun e =>
      alignFault e [(o, 16), (p, 16)] <|
        let (ok, bad) := e.lanes.foldr (fun i acc =>
          if o + i * p + 32 * size > spaceSize e 1 then
            (acc.1, ({ lane := i, cause := cPROT, info := 1, va := o + i * p } : LaneFault) :: acc.2)
          else (i :: acc.1, acc.2)) (([], []) : List Nat × List LaneFault)
        windowsFirst e e.act (ok.map fun i => (o + i * p, 32 * size)) fun e =>
          let l := ok.map fun i => (i, o + i * p)
          if e.wv.draining e.fr || e.wv.queued (e.lanes.map (tileOf a)) then
            .done { s := e.enqueue e.s (.drain e.fr a (e.f 10 6) (e.fbit 5) l), fault := laneTrap bad }
          else
            .done { s := e.s.writeScratch (e.wv.bid e.wid) (e.wv.drained a (e.f 10 6) (e.fbit 5) l), fault := laneTrap bad }) =
    if e.wv.draining e.fr || e.wv.queued (e.lanes.map (tileOf a)) then
      .done { s := e.enqueue e.s (.drain e.fr a (e.f 10 6) (e.fbit 5) (e.lanes.map fun l => (l, o + l * p))) }
    else .done { s := e.s.writeScratch (e.wv.bid e.wid) (e.wv.drained a (e.f 10 6) (e.fbit 5) (e.lanes.map fun l => (l, o + l * p))) } := by
  have hsz : spaceSize e 1 = b.scratchSize := by simp [spaceSize, hbk]
  have hfold : e.lanes.foldr (fun i acc =>
      if o + i * p + 32 * size > spaceSize e 1 then
        (acc.1, ({ lane := i, cause := cPROT, info := 1, va := o + i * p } : LaneFault) :: acc.2)
      else (i :: acc.1, acc.2)) (([], []) : List Nat × List LaneFault) = (e.lanes, []) := by
    refine foldr_keep _ _ fun i hi acc => ?_
    rw [if_neg]
    rw [hsz]
    exact Nat.not_lt.2 (h6 (i, o + i * p) (List.mem_map.2 ⟨i, hi, rfl⟩))
  have hlf : e.lanes.isEmpty = false := by simpa using hl
  rw [hlf, if_neg (by simp), withTiles_ok h2 h1]
  rw [alignFault_ok (by
    intro q hq
    simp only [List.mem_cons, List.not_mem_nil, or_false] at hq
    rcases hq with rfl | rfl
    · exact h4
    · exact h5)]
  rw [hfold]
  simp only
  rw [windowsFirst_eq (by
    intro c hc
    rw [hbk] at hc; cases hc
    rw [← h7, List.map_map]
    rfl)]
  rfl

/-- A write of scratchpad bytes: the block gets the bytes, copies settle. -/
theorem writeScratch_does (s : State) (bid : Nat) (b b' : Block) (hb : s.block bid = some b) (l : List (Nat × Bytes))
    (hl : l.foldl (fun b x => b.putScratch x.1 x.2) b = b') :
    ∃ s1, s.writeScratch bid l = (s1.modBlock bid fun _ => b') ∧
      { s1 with cores := s.cores, free := s.free } = s ∧ (flying s bid = [] → s1 = s) := by
  unfold State.writeScratch
  generalize hhit : (fun d : CopyDst => match d with
    | .sp o => l.any fun x => decide (x.1 ≤ o) && decide (o < x.1 + x.2.length)
    | _ => false) = hit
  obtain ⟨h4, h5, h6⟩ := settleCopies_does s bid hit
  refine ⟨_, State.modBlock_congr (b := b) ?_ hl, h4, h6⟩
  rw [← hb]
  have := congrArg State.blocks h4
  exact congrArg (Tbl.find · bid) (show _ = s.blocks from this)

end Sys2Proof.Machine
end

