-- ==== Sys2Proof/Laws/MemoryForm.lean ====
section
/-! SUPPORT. Every operation that writes device memory or host memory keeps the canonical form. -/

namespace Sys2Proof.Machine

/-- What touches neither memory keeps the form. -/
theorem MemOk.congr {s t : State} (h : MemOk s) (h1 : t.mem = s.mem) (h2 : t.hostMem = s.hostMem) : MemOk t := by
  unfold MemOk
  rw [h1, h2]
  exact h

/-- What touches neither memory keeps the form. -/
theorem MemOk.same {s t : State} (h : MemOk s) (e : (t.mem, t.hostMem) = (s.mem, s.hostMem)) : MemOk t :=
  h.congr (congrArg Prod.fst e) (congrArg Prod.snd e)

theorem MemOk.foldl {α : Type} {g : State → α → State} (hg : ∀ s x, MemOk s → MemOk (g s x)) :
    ∀ (l : List α) {s : State}, MemOk s → MemOk (l.foldl g s)
  | [], _, h => h
  | _ :: l, _, h => MemOk.foldl hg l (hg _ _ h)

/-- A fold of writes of single bytes. -/
theorem Memory.wf_foldl {α : Type} (a : α → Nat) (b : α → Byte) : ∀ (l : List α) {m : Tbl Byte}, Memory.wf m = true →
    Memory.wf (l.foldl (fun m x => Memory.write m (a x) (b x)) m) = true
  | [], _, h => h
  | x :: l, _, h => Memory.wf_foldl a b l (Memory.wf_write (a x) (b x) h)

/-- A fold of writes of runs. -/
theorem Memory.wf_runs (l : List (Nat × Bytes)) : ∀ {m : Tbl Byte}, Memory.wf m = true →
    Memory.wf (l.foldl (fun m r => Memory.writes m r.1 r.2) m) = true := by
  induction l with
  | nil => exact fun h => h
  | cons x l ih => exact fun h => ih (Memory.wf_writes x.1 x.2 h)

theorem Tbl.wfFrom_keep {β : Type} (p : Nat → β → Bool) : ∀ {t : Tbl β} {n : Nat}, Tbl.wfFrom n t = true → Tbl.wfFrom n (Tbl.keep p t) = true
  | [], _, _ => rfl
  | (k, x) :: t, n, h => by
    simp only [Tbl.wfFrom, Bool.and_eq_true, decide_eq_true_eq] at h
    have ih := Tbl.wfFrom_keep p h.2
    unfold Tbl.keep
    split
    · simp only [Tbl.wfFrom, Bool.and_eq_true, decide_eq_true_eq]
      exact ⟨h.1, ih⟩
    · exact Tbl.wfFrom_mono ih (by omega)

theorem Tbl.all_keep {β : Type} (p : Nat → β → Bool) {q : Nat × β → Bool} : ∀ {t : Tbl β}, t.all q = true → (Tbl.keep p t).all q = true
  | [], _ => rfl
  | (k, x) :: t, h => by
    simp only [List.all_cons, Bool.and_eq_true] at h
    unfold Tbl.keep
    split
    · simp only [List.all_cons, Bool.and_eq_true]
      exact ⟨h.1, Tbl.all_keep p h.2⟩
    · exact Tbl.all_keep p h.2

/-- Entries left out leave the form. -/
theorem Memory.wf_keep (p : Nat → Byte → Bool) {m : Tbl Byte} (h : Memory.wf m = true) : Memory.wf (Tbl.keep p m) = true := by
  unfold Memory.wf Tbl.canon Tbl.wf at *
  rw [Bool.and_eq_true] at *
  exact ⟨Tbl.wfFrom_keep p h.1, Tbl.all_keep p h.2⟩

/-! ### The operations that write -/

theorem MemOk.takeLine {s : State} (ctx pa : Nat) (h : MemOk s) : MemOk (s.takeLine ctx pa) := by
  unfold State.takeLine
  simp only
  split
  · exact h
  · refine ⟨?_, h.2⟩
    show Memory.wf (if _ then _ else _) = true
    split
    · exact h.1
    · exact Memory.wf_writes _ _ h.1

theorem MemOk.protect {s : State} (lid pa : Nat) (h : MemOk s) : MemOk (s.protect lid pa) := by
  unfold State.protect
  split
  · exact h
  · exact h.same rfl

/-- One byte of device memory (R397). -/
theorem MemOk.putDev {s : State} (ctx lid pa : Nat) (b : Byte) (h : MemOk s) : MemOk (s.putDev ctx lid pa b) := by
  have h1 := (h.protect lid pa).takeLine ctx pa
  exact ⟨Memory.wf_write _ _ h1.1, h1.2⟩

/-- A held commit reaches host memory (R547). -/
theorem MemOk.releaseHeld {s : State} (c : HeldCommit) (h : MemOk s) : MemOk (s.releaseHeld c) :=
  ⟨h.1, Memory.wf_runs _ h.2⟩

theorem MemOk.releaseWhere {s : State} (p : HeldCommit → Bool) (h : MemOk s) : MemOk (s.releaseWhere p) := by
  refine MemOk.foldl (fun _ c h => MemOk.releaseHeld c h) _ ?_
  exact h.same rfl

/-- An event record in its ring (R479). -/
theorem MemOk.hostRun {s : State} (a : Nat) (l : Bytes) (o : List HostOut) (h : MemOk s) :
    MemOk { s with hostMem := Memory.writes s.hostMem a l, hostOut := o } := ⟨h.1, Memory.wf_writes _ _ h.2⟩

/-- Bytes that reach host memory at once (R545). -/
theorem MemOk.writeHost {s : State} (l : List (Nat × Byte)) (h : MemOk s) : MemOk (s.writeHost l) := ⟨h.1, Memory.wf_runs _ h.2⟩

/-- A granule restored at home (R528). -/
theorem MemOk.restoreGranule {s : State} (key : Nat) (g : Granule) (h : MemOk s) : MemOk (s.restoreGranule key g) :=
  ⟨Memory.wf_foldl (fun p : Nat × Byte => p.1) (fun p => p.2) g.bytes (Memory.wf_keep _ h.1), h.2⟩

end Sys2Proof.Machine
end

