-- ==== Sys2Proof/Laws/Pair.lean ====
section
/-! SUPPORT. Laws of pairs: what each half writes. -/

namespace Sys2Proof.Machine

theorem halfShape_bits {n : Nat} {sh : HalfShape} (h : halfShape n = some sh) : tyBits sh.dt = 32 := by
  unfold halfShape at h
  have hm := List.mem_of_getElem? h
  simp only [List.mem_cons, List.not_mem_nil, or_false] at hm
  rcases hm with rfl | rfl | rfl | rfl | rfl | rfl | rfl | rfl | rfl | rfl | rfl | rfl | rfl | rfl | rfl | rfl | rfl | rfl | rfl | rfl | rfl | rfl | rfl | rfl | rfl | rfl | rfl | rfl | rfl | rfl | rfl | rfl <;> rfl

theorem place32_full {t : Ty} (h : tyBits t = 32) (x : Nat) : BitVec.ofNat 32 (place32 t x) = BitVec.ofNat 32 x := by
  unfold place32
  rw [h]
  split
  · have : BitVec.ofNat 32 (signExt 32 32 x) = BitVec.ofNat 32 x := by
      apply BitVec.eq_of_getLsbD_eq
      intro i hi
      rw [BitVec.getLsbD_ofNat, BitVec.getLsbD_ofNat, signExt_bit _ _ _ _ (by decide) hi, if_pos hi]
    exact this
  · apply BitVec.eq_of_toNat_eq
    simp

/-- The value and the exceptions of a half for a lane. -/
def halfAt (e : Env) (h : Half) (sh : HalfShape) (l : Nat) : Nat × FFlags :=
  halfVal h.op7.toNat (e.src h.a.toNat sh.st l)
    (if h.op7.toNat = 0x0B ∨ h.op7.toNat = 0x0C ∨ h.op7.toNat = 0x0D then e.src h.b.toNat .n32 l else e.src h.b.toNat sh.st l)
    (e.src h.d.toNat sh.dt l)

/-- The writes of a half that has sources. -/
def halfSets (e : Env) (h : Half) (sh : HalfShape) : List RegWrite :=
  if h.d.toNat < 0x80 then e.lanes.flatMap fun i => putAt h.d.toNat sh.dt i (halfAt e h sh i).1
  else match e.lanes with
    | [] => []
    | i :: _ => putAt h.d.toNat sh.dt i (halfAt e h sh i).1

theorem halfRun_eq {e : Env} {h : Half} {sh : HalfShape} (hs : halfShape h.op7.toNat = some sh) (hu : sh.usesA = true) :
    halfRun e h = (halfSets e h sh, e.lanes.map fun i => (i, (halfAt e h sh i).2)) := by
  unfold halfRun
  rw [hs]
  simp only [hu, Bool.not_true, Bool.false_eq_true, if_false]
  rfl

theorem halfSets_does {e : Env} (h : Half) {sh : HalfShape} (hs : tyBits sh.dt = 32) (hl : ∀ i ∈ e.lanes, i < 1024) (v : Wave) :
    (∀ n l, l < 1024 → (v.writes (halfSets e h sh)).velem n l = if n = h.d.toNat ∧ h.d.toNat < 0x80 ∧ l ∈ e.lanes
      then BitVec.ofNat 32 (halfAt e h sh l).1 else v.velem n l) ∧
    (∀ n, (v.writes (halfSets e h sh)).selem n = if n + 0x80 = h.d.toNat ∧ e.lanes ≠ []
      then BitVec.ofNat 64 (place64 sh.dt (halfAt e h sh (e.lanes.headD 0)).1) else v.selem n) ∧
    ∀ n, (v.writes (halfSets e h sh)).kelem n = v.kelem n := by
  have hw : tyWide sh.dt = false := by simp [tyWide, hs]
  unfold halfSets
  by_cases hd : h.d.toNat < 0x80
  · have hp : (fun i => putAt h.d.toNat sh.dt i (halfAt e h sh i).1) =
        fun l => if (false : Bool) then [RegWrite.v h.d.toNat l (BitVec.ofNat 32 (halfAt e h sh l).1), .v (h.d.toNat + 1) l 0]
          else [.v h.d.toNat l (BitVec.ofNat 32 (halfAt e h sh l).1)] := by
      funext l
      simp only [putAt, if_pos hd, hw, Bool.false_eq_true, if_false, place32_full hs]
    rw [if_pos hd, hp]
    refine ⟨fun n l hl1 => ?_, fun n => ?_, fun n => ?_⟩
    · rw [Wave.velem_writes_lanes _ _ _ _ _ _ hl hl1]
      by_cases h1 : l ∈ e.lanes <;> by_cases h2 : n = h.d.toNat <;> simp [h1, h2, hd]
    · rw [(Wave.writes_lanes_rest _ _ _ _ _ _ _).1, if_neg (by omega)]
    · rw [(Wave.writes_lanes_rest _ _ _ _ _ _ _).2]
  · rw [if_neg hd]
    cases hls : e.lanes with
    | nil => simp [Wave.writes]
    | cons i is =>
      simp only [putAt, if_neg hd, Wave.writes, List.foldl_cons, List.foldl_nil]
      refine ⟨fun n l hl1 => ?_, fun n => ?_, fun n => ?_⟩
      · simp [hd]
      · rw [Wave.selem_write_s]
        by_cases h1 : n + 0x80 = h.d.toNat
        · rw [if_pos (by omega), if_pos ⟨h1, by simp⟩]
          rfl
        · rw [if_neg (by omega), if_neg (by simp [h1])]
      · simp

theorem filter_lane {f : Nat → FFlags} {lanes : List Nat} (hn : lanes.Nodup) {i : Nat} (hi : i ∈ lanes) :
    ((lanes.map fun j => (j, f j)).filter fun p => p.1 == i) = [(i, f i)] := by
  induction lanes with
  | nil => simp at hi
  | cons j js ih =>
    rw [List.nodup_cons] at hn
    by_cases h : j = i
    · subst h
      have : ((js.map fun k => (k, f k)).filter fun p => p.1 == j) = [] := by
        rw [List.filter_eq_nil_iff]
        rintro ⟨a, b⟩ hp
        obtain ⟨k, hk, hkk⟩ := List.mem_map.1 hp
        cases hkk
        simp only [beq_iff_eq]
        rintro rfl
        exact hn.1 hk
      simp [this]
    · have : i ∈ js := by simpa [Ne.symm h] using hi
      simp [h, ih hn.2 this]

theorem zipFlags_eq {e : Env} (hn : e.lanes.Nodup) (f g : Nat → FFlags) :
    zipFlags (e.lanes.map fun i => (i, f i)) (e.lanes.map fun i => (i, g i)) e.lanes = e.lanes.map fun i => (i, mergeFlags [f i, g i]) := by
  unfold zipFlags
  refine List.map_congr_left fun i hi => ?_
  rw [List.filter_append, filter_lane hn hi, filter_lane hn hi]
  rfl

/-- The writes of a half: a PNOP has none. -/
def halfPuts (e : Env) (p : Half × HalfShape) : List RegWrite := if p.2.usesA then halfSets e p.1 p.2 else []

/-- A half delivers its writes, and the flags of its lanes unless it is a PNOP. -/
theorem halfRun_puts {e : Env} {h : Half} {sh : HalfShape} (hs : halfShape h.op7.toNat = some sh) :
    halfRun e h = (halfPuts e (h, sh), if sh.usesA then e.lanes.map fun i => (i, (halfAt e h sh i).2) else []) := by
  cases hu : sh.usesA with
  | true => rw [halfRun_eq hs hu]; simp [halfPuts, hu]
  | false => unfold halfRun; rw [hs]; simp [halfPuts, hu]

/-- A list of one value, without repeats. -/
theorem dedup_const {α : Type} [DecidableEq α] (a : α) (l : List α) (hl : l ≠ []) (h : ∀ x ∈ l, x = a) : dedup l = [a] := by
  induction l with
  | nil => exact absurd rfl hl
  | cons x xs ih =>
    have hx : x = a := h x (by simp)
    subst hx
    unfold dedup
    cases xs with
    | nil => simp [dedup]
    | cons y ys =>
      have hy : y = x := h y (by simp)
      rw [if_pos (by simp [hy]), ih (by simp) fun z hz => h z (by simp [hz])]

/-- A half with 32-bit results writes one register. -/
theorem halfSets_regs {e : Env} (h : Half) {sh : HalfShape} (hs : tyBits sh.dt = 32) (hl : e.lanes ≠ []) :
    halfSets e h sh ≠ [] ∧ dedup ((halfSets e h sh).map RegWrite.reg) = [if h.d.toNat < 0x80 then .v h.d.toNat else .s (h.d.toNat - 0x80)] := by
  have hw : tyWide sh.dt = false := by simp [tyWide, hs]
  obtain ⟨i, is, hi⟩ := List.exists_cons_of_ne_nil hl
  have key : halfSets e h sh ≠ [] ∧ ∀ x ∈ halfSets e h sh, x.reg = if h.d.toNat < 0x80 then RegId.v h.d.toNat else .s (h.d.toNat - 0x80) := by
    unfold halfSets
    by_cases hd : h.d.toNat < 0x80
    · simp only [if_pos hd, putAt, hw, Bool.false_eq_true, if_false]
      rw [hi]
      refine ⟨by simp, fun x hx => ?_⟩
      obtain ⟨l, _, hl⟩ := List.mem_flatMap.1 hx
      rw [List.mem_singleton] at hl
      subst hl
      rfl
    · simp only [if_neg hd, hi, putAt]
      refine ⟨by simp, fun x hx => ?_⟩
      rw [List.mem_singleton] at hx
      subst hx
      rfl
  refine ⟨key.1, dedup_const _ _ (by simp [key.1]) fun r hr => ?_⟩
  obtain ⟨x, hx, rfl⟩ := List.mem_map.1 hr
  exact key.2 x hx

/-- A half without active lanes writes nothing. -/
theorem halfSets_none {e : Env} (h : Half) (sh : HalfShape) (hl : e.lanes = []) : halfSets e h sh = [] := by
  unfold halfSets; split <;> simp [hl]

end Sys2Proof.Machine
end

