-- ==== Sys2Proof/Laws/Particle.lean ====
section
/-! SUPPORT. Laws of particles: weights and the words that write them. -/

namespace Sys2Proof.Machine

theorem State.particle_modPop (s : State) (k j : Nat) (f : Pop → Pop) : (s.modPop k f).particle j = s.particle j := rfl
theorem State.pop_modParticle (s : State) (k j : Nat) (f : Particle → Particle) : (s.modParticle k f).pop j = s.pop j := rfl

/-- A weight written: its particle, and NANSEEN of the particle's population (R516). -/
theorem setWeight_does (s : State) (h x : Nat) :
    { s.setWeight h x with particles := s.particles, pops := s.pops } = s ∧
    (∀ k, (s.setWeight h x).particle k = { s.particle k with
      w := if k = handleKey h then BitVec.ofNat 32 (if (fval .f32 x).isNan then 0xFF800000 else x) else (s.particle k).w }) ∧
    ∀ p, (s.setWeight h x).pop p = { s.pop p with
      status := if p = (s.particle (handleKey h)).pop ∧ (fval .f32 x).isNan then (s.pop p).status ||| 2 else (s.pop p).status } := by
  have hp (f : Particle → Particle) (hf : (f (s.particle (handleKey h))).pop = (s.particle (handleKey h)).pop) :
      ((s.modParticle (handleKey h) f).particle (handleKey h)).pop = (s.particle (handleKey h)).pop := by
    rw [State.particle_modParticle, if_pos rfl, hf]
  unfold State.setWeight
  by_cases hn : (fval .f32 x).isNan = true
  · simp only [hn, if_true, and_true]
    refine ⟨rfl, fun k => ?_, fun p => ?_⟩
    · rw [State.particle_modPop, State.particle_modParticle]
      by_cases hk : k = handleKey h
      · subst hk; simp
      · simp [hk]
    · rw [State.pop_modPop, hp _ rfl]
      by_cases hk : p = (s.particle (handleKey h)).pop
      · subst hk; simp [State.pop_modParticle]
      · simp [hk, State.pop_modParticle]
  · simp only [hn, Bool.false_eq_true, if_false, and_false]
    refine ⟨rfl, fun k => ?_, fun p => rfl⟩
    rw [State.particle_modParticle]
    by_cases hk : k = handleKey h
    · subst hk; simp
    · simp [hk]

theorem setWeights_do (h : Nat → Nat) (op : Nat → Nat → Nat) (l : List Nat) (s : State) :
    let t := l.foldl (fun s i => s.setWeight (h i) (op i (s.particle (handleKey (h i))).w.toNat)) s
    { t with particles := s.particles, pops := s.pops } = s ∧
    (∀ k, t.particle k = { s.particle k with
      w := (l.filter fun i => handleKey (h i) == k).foldl (fun x i => BitVec.ofNat 32
        (if (fval .f32 (op i x.toNat)).isNan then 0xFF800000 else op i x.toNat)) (s.particle k).w }) ∧
    ∀ p, { t.pop p with status := (s.pop p).status } = s.pop p := by
  induction l generalizing s with
  | nil => exact ⟨rfl, fun _ => rfl, fun _ => rfl⟩
  | cons i is ih =>
    obtain ⟨h1, h2, h3⟩ := ih (s.setWeight (h i) (op i (s.particle (handleKey (h i))).w.toNat))
    obtain ⟨g1, g2, g3⟩ := setWeight_does s (h i) (op i (s.particle (handleKey (h i))).w.toNat)
    rw [List.foldl_cons]
    refine ⟨?_, fun k => ?_, fun p => ?_⟩
    · have := congrArg (fun t : State => { t with particles := s.particles, pops := s.pops }) h1
      exact Eq.trans this g1
    · rw [h2 k, g2 k]
      by_cases hk : k = handleKey (h i)
      · subst hk; simp
      · have : (handleKey (h i) == k) = false := by simpa using Ne.symm hk
        simp [hk, this]
    · have := h3 p
      rw [g3 p] at this
      have h4 := congrArg (fun q : Pop => { q with status := (s.pop p).status }) this
      exact h4

theorem weightOp_eq {e : Env} {operands : Bytes} {op : Nat → W32 → Nat} (hp : e.s.isParticle e.wv.lid = true) (hk : e.killing = false)
    (hs : e.s.twinned e.wv = false) : weightOp e operands op =
      (let bad := e.lanes.filterMap fun i => (e.s.handleBad e.wv.lid (e.a .n32 i) true).map fun n => (i, n, e.a .n32 i)
      let ok := e.lanes.filter fun i => !bad.any fun x => x.1 == i
      .done { s := ok.foldl (fun s i => s.setWeight (e.a .n32 i) (op i (s.particle (handleKey (e.a .n32 i))).w)) e.s,
              fault := reasonTrap cPOP bad }) := by
  unfold weightOp
  rw [leaderOnce_single hs]
  simp [hp, hk]

end Sys2Proof.Machine
end

