-- ==== Sys2Proof/Laws/Records.lean ====
section
/-! SUPPORT. OB_RECORD: the reason and the offset that a quarter operation reports (R349, R351). -/

namespace Sys2Proof.Machine

/-- The least element, as a fold finds it. -/
theorem foldl_min_eq {l : List Nat} {a m : Nat} (h1 : ∀ x ∈ l, m ≤ x) (h2 : m ≤ a) (h3 : a = m ∨ m ∈ l) : l.foldl min a = m := by
  induction l generalizing a with
  | nil => simpa using h3
  | cons x xs ih =>
    rw [List.foldl_cons]
    have hx := h1 x (by simp)
    refine ih (fun y hy => h1 y (by simp [hy])) (by omega) ?_
    rcases h3 with rfl | h3
    · exact .inl (by omega)
    · rcases List.mem_cons.1 h3 with rfl | h4
      · exact .inl (by omega)
      · exact .inr h4

/-- OB_RECORD on lanes that fail for one reason, at the lowest of their offsets. -/
theorem obTrap_same (n reason : Nat) {l : List Nat} (f : Nat → Nat) {j : Nat} (hj : j ∈ l) (hmin : ∀ k ∈ l, f j ≤ f k) :
    obTrap n (l.map fun i => { lane := i, reason := reason, off := f i }) =
      some (faultRec cOB_RECORD (BitVec.ofNat 64 (reason + 256 * n)) (BitVec.ofNat 64 (f j)) (maskOf l)) := by
  obtain ⟨x, xs, rfl⟩ := List.exists_cons_of_ne_nil (List.ne_nil_of_mem hj)
  simp only [List.map_cons, obTrap]
  rw [foldl_min_replicate (fun y : ObFault => y.reason) reason _ (by simp)]
  have h1 : (({ lane := x, reason := reason, off := f x } : ObFault) :: xs.map fun i => { lane := i, reason := reason, off := f i }).filter
      (fun y => y.reason == reason) = ({ lane := x, reason := reason, off := f x } : ObFault) :: xs.map fun i => { lane := i, reason := reason, off := f i } := by
    rw [List.filter_eq_self]
    simp
  rw [h1]
  simp only [List.map_cons, List.tail_cons, List.headD_cons, List.map_map]
  have h2 : (xs.map ((fun y : ObFault => y.off) ∘ fun i => { lane := i, reason := reason, off := f i })).foldl min (f x) = f j := by
    refine foldl_min_eq ?_ (hmin x (by simp)) ?_
    · intro y hy
      obtain ⟨k, hk, rfl⟩ := List.mem_map.1 hy
      exact hmin k (by simp [hk])
    · rcases List.mem_cons.1 hj with rfl | h4
      · exact .inl rfl
      · exact .inr (List.mem_map.2 ⟨j, h4, rfl⟩)
  rw [h2]
  have h3 : (xs.map ((fun y : ObFault => y.lane) ∘ fun i => { lane := i, reason := reason, off := f i })) = xs := by
    simp [Function.comp_def]
  rw [h3]

/-- A fold that puts every element on its second side. -/
theorem foldr_drop {α β : Type} (f : α → List α × List β → List α × List β) (g : α → β) (l : List α)
    (h : ∀ x ∈ l, ∀ acc, f x acc = (acc.1, g x :: acc.2)) : l.foldr f ([], []) = ([], l.map g) := by
  induction l with
  | nil => rfl
  | cons x xs ih => rw [List.foldr_cons, ih fun y hy => h y (by simp [hy]), h x (by simp)]; rfl

/-- The first scale that fails has the least reason. -/
theorem firstScale_min {e : Env} {r : ObRec} {l : List Nat} {m : Nat} (h1 : ∃ o ∈ l, scaleReason e r o = some m)
    (h2 : ∀ o ∈ l, ∀ k, scaleReason e r o = some k → m ≤ k) :
    ∃ o ∈ l, scaleReason e r o = some m ∧ firstScale e r l = some (m, o) := by
  unfold firstScale
  generalize hg : (fun (a : Option (Nat × Nat)) (y : Nat × Nat) => match a with
    | none => some y
    | some z => if y.1 < z.1 then some y else some z) = g
  have key : ∀ (q : List (Nat × Nat)) (a : Option (Nat × Nat)), (∀ y ∈ q, m ≤ y.1) → (∀ z, a = some z → m ≤ z.1) →
      ((∃ y ∈ q, y.1 = m) ∨ ∃ z, a = some z ∧ z.1 = m) → ∃ z, q.foldl g a = some z ∧ z.1 = m ∧ (z ∈ q ∨ a = some z) := by
    intro q
    induction q with
    | nil =>
      intro a _ _ h
      rcases h with ⟨y, hy, _⟩ | ⟨z, hz, hm⟩
      · cases hy
      · exact ⟨z, hz, hm, .inr hz⟩
    | cons y ys ih =>
      intro a hq ha h
      rw [List.foldl_cons]
      have hy := hq y (by simp)
      have hga : g a y = some y ∨ g a y = a := by
        subst hg
        cases a with
        | none => exact .inl rfl
        | some z => simp only; split
                    · exact .inl rfl
                    · exact .inr rfl
      have hle : ∀ z, g a y = some z → m ≤ z.1 := by
        intro z hz
        rcases hga with h1 | h1
        · rw [h1] at hz; cases hz; exact hy
        · rw [h1] at hz; exact ha z hz
      have hex : (∃ y ∈ ys, y.1 = m) ∨ ∃ z, g a y = some z ∧ z.1 = m := by
        rcases h with ⟨x, hx, hm⟩ | ⟨z, hz, hm⟩
        · rcases List.mem_cons.1 hx with rfl | hx
          · refine .inr ?_
            subst hg
            cases a with
            | none => exact ⟨x, rfl, hm⟩
            | some z =>
              have := ha z rfl
              simp only
              split
              · exact ⟨x, rfl, hm⟩
              · exact ⟨z, rfl, by omega⟩
          · exact .inl ⟨x, hx, hm⟩
        · refine .inr ⟨z, ?_, hm⟩
          subst hg
          rw [hz]
          simp only
          rw [if_neg (by omega)]
      obtain ⟨z, h3, h4, h5⟩ := ih (g a y) (fun x hx => hq x (by simp [hx])) hle hex
      refine ⟨z, h3, h4, ?_⟩
      rcases h5 with h5 | h5
      · exact .inl (by simp [h5])
      · rcases hga with h6 | h6
        · rw [h6] at h5; cases h5; exact .inl (by simp)
        · rw [h6] at h5; exact .inr h5
  obtain ⟨o, ho, hr⟩ := h1
  obtain ⟨z, h3, h4, h5⟩ := key (l.filterMap fun o => (scaleReason e r o).map fun x => (x, o)) none
    (by
      intro y hy
      obtain ⟨o', ho', hy'⟩ := List.mem_filterMap.1 hy
      cases hs : scaleReason e r o' with
      | none => rw [hs] at hy'; cases hy'
      | some k => rw [hs] at hy'; cases hy'; exact h2 o' ho' k hs)
    (by intro z hz; cases hz)
    (.inl ⟨(m, o), List.mem_filterMap.2 ⟨o, ho, by rw [hr]; rfl⟩, rfl⟩)
  rcases h5 with h5 | h5
  · obtain ⟨o', ho', hy'⟩ := List.mem_filterMap.1 h5
    cases hs : scaleReason e r o' with
    | none => rw [hs] at hy'; cases hy'
    | some k =>
      rw [hs] at hy'; cases hy'
      have : k = m := h4
      subst this
      exact ⟨o', ho', hs, h3⟩
  · cases h5

/-- The rows all pass the end of the record. -/
theorem quarterLanes_past {e : Env} {r : ObRec} {k0 kk : Nat}
    (h : ∀ j ∈ e.lanes, r.size < e.src e.w.b.toNat .n32 j * r.pitch * 16 + (k0 + kk) * fmtBytes r.fmt) :
    quarterLanes e r k0 kk = ([], e.lanes.map fun i => { lane := i, reason := 6, off := r.rowAt (e.src e.w.b.toNat .n32 i) }) := by
  unfold quarterLanes
  simp only
  generalize hF : List.foldr _ _ _ = q
  have hf : q = ([], (e.lanes.map fun i => (i, e.src e.w.b.toNat .n32 i)).map fun p => { lane := p.1, reason := 6, off := r.rowAt p.2 }) := by
    rw [← hF]
    refine foldr_drop _ _ _ fun p hp acc => ?_
    obtain ⟨j, hj, rfl⟩ := List.mem_map.1 hp
    rw [if_pos (by simpa using h j hj)]
  subst hf
  simp only
  rw [if_pos, List.map_map]
  · rfl
  · rw [List.all_eq_true]
    intro p hp
    obtain ⟨j, hj, rfl⟩ := List.mem_map.1 hp
    simpa using h j hj

/-- Rows that stand, and a B scale that fails: every lane reports it (R351). -/
theorem quarterLanes_bscale {e : Env} {r : ObRec} {k0 kk m o : Nat} (hne : e.lanes ≠ [])
    (h1 : ∀ j ∈ e.lanes, e.src e.w.b.toNat .n32 j * r.pitch * 16 + (k0 + kk) * fmtBytes r.fmt ≤ r.size)
    (h2 : ∀ x ∈ blocksOf r k0 kk, ∀ j ∈ e.lanes, scaleReason e r (r.aScaleAt (e.src e.w.b.toNat .n32 j) x) = none)
    (h3 : firstScale e r ((blocksOf r k0 kk).flatMap fun b => (List.range 32).map (r.bScaleAt b)) = some (m, o)) :
    quarterLanes e r k0 kk = ([], e.lanes.map fun i => { lane := i, reason := m, off := o }) := by
  unfold quarterLanes
  simp only
  generalize hF : List.foldr _ _ _ = q
  have hf : q = (e.lanes.map fun i => (i, e.src e.w.b.toNat .n32 i), []) := by
    rw [← hF]
    refine foldr_keep _ _ fun p hp acc => ?_
    obtain ⟨j, hj, rfl⟩ := List.mem_map.1 hp
    rw [if_neg (by simpa using h1 j hj), firstScale_none]
    intro o ho
    obtain ⟨x, hx, rfl⟩ := List.mem_map.1 ho
    exact h2 x hx j hj
  subst hf
  simp only
  rw [if_neg, h3]
  · rfl
  · obtain ⟨i, is, hi⟩ := List.exists_cons_of_ne_nil hne
    rw [Bool.not_eq_true, List.all_eq_false]
    refine ⟨(i, e.src e.w.b.toNat .n32 i), List.mem_map.2 ⟨i, by rw [hi]; simp, rfl⟩, ?_⟩
    simpa using h1 i (by rw [hi]; simp)

end Sys2Proof.Machine
end

