-- ==== Sys2Proof/Laws/Request.lean ====
section
/-! SUPPORT. What an engine does for a request: reads and writes at home, WNW, GSTP and SMPL step by step. -/

namespace Sys2Proof.Machine

/-- The trap of one lane. -/
theorem reasonTrap_one (cause l reason addr : Nat) : reasonTrap cause [(l, reason, addr)] =
    some (faultRec cause (BitVec.ofNat 64 reason) (BitVec.ofNat 64 addr) (maskOf [l])) := by
  simp [reasonTrap]

/-- A request whose turn has come and whose work is done lands. -/
theorem request_lands {s : State} {r : EngReq} (h : s.reqs.find? (fun q => q.id == r.id) = some r) (ht : s.reqTurn r = true)
    {t : State} {ws : List RegWrite} {trap : Option TrapRec} (hp : s.perform r = .lands t ws trap) :
    exec (.engineRequestComplete r.id) s = .next (t.endReq r ws trap) := by
  change onEvent _ (s.finishReq r.id) = _
  unfold State.finishReq
  simp only [h, ht, hp]
  rfl

/-- A request whose fault is held on its token. -/
theorem request_held {s : State} {r : EngReq} (h : s.reqs.find? (fun q => q.id == r.id) = some r) (ht : s.reqTurn r = true)
    {t : State} {c i a : Nat} (hp : s.perform r = .held t c i a) :
    exec (.engineRequestComplete r.id) s = .next (t.endHeld r c i a) := by
  change onEvent _ (s.finishReq r.id) = _
  unfold State.finishReq
  simp only [h, ht, hp]
  rfl

/-- A read that nothing stops gives the bytes at home. -/
theorem readAt_reads {s : State} {r : EngReq} {va n : Nat} {l : Bytes} {fail : Nat → Nat → Perf} {body : State → Bytes → Perf}
    (h : ∃ ls, placesOf s r .read va n = .ok ls ∧ engineHome s r ls = .ok s ∧ l = ls.map (s.homeByte r.ctx)) :
    readAt s r va n fail body = body s l := by
  obtain ⟨ls, h1, h2, h3⟩ := h
  unfold readAt
  simp only [h1, h2, h3]

/-- Scratchpad ranges outside every absent window are there. -/
theorem touch_present {s : State} {r : EngReq} {bid : Nat} {b : Block} {ranges : List (Nat × Nat)} {body : Nat → Block → Perf}
    (h : s.reqBlock r = some (bid, b)) (ha : b.absentAt ranges = none) : touch s r ranges body = body bid b := by
  unfold touch
  simp only [h, ha]
  rfl

theorem wnwRows_does (r : EngReq) (keys pitch dim : Nat) (query : Bytes) (body : State → List (Nat × Int) → Perf) (s : State)
    (key : Nat → Bytes) : ∀ (n i : Nat) (l : List (Nat × Int)),
    (∀ j, i ≤ j → j < i + n → ∃ ls, placesOf s r .read ((keys + j * pitch) % 2 ^ 64) dim = .ok ls ∧ engineHome s r ls = .ok s ∧
      key j = ls.map (s.homeByte r.ctx)) →
    wnwRows r keys pitch dim query body s n i l = body s (l ++ (List.range n).map fun j => (i + j, wnwScore query (key (i + j))))
  | 0, i, l, _ => by simp [wnwRows]
  | n + 1, i, l, h => by
    unfold wnwRows
    rw [readAt_reads (h i (Nat.le_refl _) (by omega)), wnwRows_does r keys pitch dim query body s key n (i + 1) _
      (fun j h1 h2 => h j (by omega) (by omega))]
    congr 1
    rw [List.range_succ_eq_map, List.map_cons, List.map_map, List.append_assoc]
    congr 1
    simp [Nat.add_assoc, Nat.add_comm 1]

/-- Two rising lists with the same elements are one. -/
theorem eq_of_sorted : ∀ {a b : List Nat}, a.Pairwise (· < ·) → b.Pairwise (· < ·) → (∀ k, k ∈ b ↔ k ∈ a) → a = b
  | [], [], _, _, _ => rfl
  | [], y :: b, _, _, h => absurd ((h y).1 List.mem_cons_self) List.not_mem_nil
  | x :: a, [], _, _, h => absurd ((h x).2 List.mem_cons_self) List.not_mem_nil
  | x :: a, y :: b, ha, hb, h => by
    rw [List.pairwise_cons] at ha hb
    have hxy : x = y := by
      rcases List.mem_cons.1 ((h x).2 List.mem_cons_self) with e | e
      · exact e
      · rcases List.mem_cons.1 ((h y).1 List.mem_cons_self) with e' | e'
        · exact e'.symm
        · have := hb.1 x e; have := ha.1 y e'; omega
    subst hxy
    rw [eq_of_sorted ha.2 hb.2 fun k => ?_]
    constructor
    · intro hk
      rcases List.mem_cons.1 ((h k).1 (List.mem_cons_of_mem _ hk)) with e | e
      · exact absurd (hb.1 k hk) (by omega)
      · exact e
    · intro hk
      rcases List.mem_cons.1 ((h k).2 (List.mem_cons_of_mem _ hk)) with e | e
      · exact absurd (ha.1 k hk) (by omega)
      · exact e

/-- A number of n bytes is below 256^n. -/
theorem ofLE_lt : ∀ l : Bytes, ofLE l < 256 ^ l.length
  | [] => by decide
  | b :: l => by
    have := ofLE_lt l
    have hb := b.isLt
    rw [List.length_cons, Nat.pow_succ]
    unfold ofLE
    omega

/-- The same of a lane of GSTP. -/
theorem stepRead_reads {s : State} {r : EngReq} {va n : Nat} {l : Bytes} {body : State → Bytes → StepLane}
    (h : ∃ ls, placesOf s r .read va n = .ok ls ∧ engineHome s r ls = .ok s ∧ l = ls.map (s.homeByte r.ctx)) :
    stepRead s r va n body = body s l := by
  obtain ⟨ls, h1, h2, h3⟩ := h
  unfold stepRead
  simp only [h1, h2, h3]

/-- Binary search finds the first transition that is not below a token. -/
theorem stepSearch_does (s : State) (r : EngReq) (g : Grammar) (t : Nat) (body : State → Nat → StepLane) (tr : Nat → Nat) :
    ∀ (fuel lo hi : Nat), lo ≤ hi → hi - lo < 2 ^ fuel →
    (∀ m, lo ≤ m → m < hi → ∃ raw, (∃ ls, placesOf s r .read ((g.trans + 8 * m) % 2 ^ 64) 8 = .ok ls ∧ engineHome s r ls = .ok s ∧
      raw = ls.map (s.homeByte r.ctx)) ∧ ofLE raw = tr m) →
    (∀ m m', lo ≤ m → m ≤ m' → m' < hi → tToken (tr m) ≤ tToken (tr m')) →
    ∃ k, lo ≤ k ∧ k ≤ hi ∧ (∀ m, lo ≤ m → m < k → tToken (tr m) < t) ∧ (∀ m, k ≤ m → m < hi → t ≤ tToken (tr m)) ∧
      stepSearch r g t body fuel s lo hi = body s k
  | 0, lo, hi, h1, h2, _, _ => ⟨lo, Nat.le_refl _, h1, fun m _ _ => by omega, fun m _ _ => by simp at h2; omega, rfl⟩
  | fuel + 1, lo, hi, h1, h2, h3, h4 => by
    unfold stepSearch
    by_cases hle : hi ≤ lo
    · rw [if_pos hle]
      exact ⟨lo, Nat.le_refl _, h1, fun m _ _ => by omega, fun m _ _ => by omega, rfl⟩
    · rw [if_neg hle]
      have hm1 : lo ≤ (lo + hi) / 2 := by omega
      have hm2 : (lo + hi) / 2 < hi := by omega
      rw [Nat.pow_succ] at h2
      obtain ⟨raw, hraw, htr⟩ := h3 _ hm1 hm2
      dsimp only
      rw [stepRead_reads hraw, htr]
      by_cases hlt : tToken (tr ((lo + hi) / 2)) < t
      · rw [if_pos hlt]
        obtain ⟨k, g1, g2, g3, g4, g5⟩ := stepSearch_does s r g t body tr fuel ((lo + hi) / 2 + 1) hi (by omega) (by omega)
          (fun m ha hb => h3 m (by omega) hb) (fun m m' ha hb hc => h4 m m' (by omega) hb hc)
        refine ⟨k, by omega, g2, fun m ha hb => ?_, g4, g5⟩
        by_cases hx : (lo + hi) / 2 + 1 ≤ m
        · exact g3 m hx hb
        · exact Nat.lt_of_le_of_lt (h4 m _ ha (by omega) hm2) hlt
      · rw [if_neg hlt]
        obtain ⟨k, g1, g2, g3, g4, g5⟩ := stepSearch_does s r g t body tr fuel lo ((lo + hi) / 2) (by omega) (by omega)
          (fun m ha hb => h3 m ha (by omega)) (fun m m' ha hb hc => h4 m m' ha hb (by omega))
        refine ⟨k, g1, by omega, g3, fun m ha hb => ?_, g5⟩
        by_cases hx : m < (lo + hi) / 2
        · exact g4 m ha hx
        · exact Nat.le_trans (Nat.le_of_not_lt hlt) (h4 _ m hm1 (by omega) hb)

/-- A write at home that nothing stops. -/
def goesHome (r : EngReq) (u : State) (va : Nat) (l : Bytes) (v : State) : Prop :=
  ∃ ls, placesOf u r .write va l.length = .ok ls ∧ engineStop u r ls = none ∧ u.grantOnLines r.wid ls = none ∧
    u.replayRoom r.lid ((devBytes (ls.zip l)).map (·.1)) = true ∧
    let x := u.writeDev r.ctx r.lid none (devBytes (ls.zip l))
    v = x.holdBytes r.lid (match x.wave r.wid with | some w => w.crew | none => 0) (hostBytes (ls.zip l))

/-- Such a write is made. -/
theorem writeAt_goes {r : EngReq} {u v : State} {va : Nat} {l : Bytes} {fail : Nat → Nat → Perf} {body : State → Perf}
    (h : goesHome r u va l v) : writeAt u r va l fail body = body v := by
  obtain ⟨ls, h1, h2, h3, h4, h5⟩ := h
  unfold writeAt
  simp only [h1, h2, h3, h4, h5]
  rfl

/-- Writing back the head of an automaton record. -/
theorem stepWrite_goes {r : EngReq} {s u : State} {va : Nat} {a : Automaton} {entered : Bool} (h : goesHome r s va a.headBytes u) :
    stepWrite s r va a none entered = .ok u a entered := by
  unfold stepWrite
  have h0 := h
  obtain ⟨ls, h1, _⟩ := h0
  simp only [h1, writeAt_goes h]

/-- Writing back the head and one stack entry. -/
theorem stepWrite_goes2 {r : EngReq} {s u v : State} {va n : Nat} {a : Automaton} {entered : Bool} (h : goesHome r s va a.headBytes u)
    (h' : goesHome r u (va + 0x10 + 2 * n) (leBytes 2 (a.stack.getD n 0)) v) :
    stepWrite s r va a (some n) entered = .ok v a entered := by
  unfold stepWrite
  have h0 := h
  have h0' := h'
  obtain ⟨ls, h1, _⟩ := h0
  obtain ⟨ls', h1', _⟩ := h0'
  simp only [h1, writeAt_goes h, h1', writeAt_goes h']

/-- The word that GSTP delivers. -/
theorem automaton_words (b : Automaton) : b.state + (b.status + b.reason * 2 ^ 8 + b.depth * 2 ^ 16) * 2 ^ 32 = b.words := by
  unfold Automaton.words
  rfl

/-- GSTP of one lane. -/
theorem stepRun_one {s u : State} {r : EngReq} {l va tok d : Nat} {trp : Bool} {g : Grammar} {b : Automaton}
    {entered : Bool} (hl : stepLane s r g va tok = .ok u b entered) :
    stepRun (fun s va t => stepLane s r g va t) d trp s [(l, va, tok)] [] [] [] = .lands u (putAt d .b64 l b.words)
      (if trp && entered then some (reportRec 0x14 (BitVec.ofNat 64 b.reason) (maskOf [l])) else none) := by
  simp only [stepRun, hl, List.nil_append]
  cases entered <;> cases trp <;> simp [laneTrap, cGRAMMAR]

/-- GSTP of one lane, from the descriptor on. -/
theorem gstp_one {s u : State} {r : EngReq} {desc l va tok d : Nat} {trp : Bool} {raw : Bytes} {g : Grammar} {b : Automaton}
    {entered : Bool} (hop : r.op = .gstp desc [(l, va, tok)] d trp) (hd : desc % 64 = 0)
    (hraw : ∃ ls, placesOf s r .read desc 64 = .ok ls ∧ engineHome s r ls = .ok s ∧ raw = ls.map (s.homeByte r.ctx))
    (hg : grammarOf raw = some g) (hl : stepLane s r g va tok = .ok u b entered) :
    s.perform r = .lands u (putAt d .b64 l (b.state + (b.status + b.reason * 2 ^ 8 + b.depth * 2 ^ 16) * 2 ^ 32))
      (if trp && entered then some (reportRec 0x14 (BitVec.ofNat 64 b.reason) (maskOf [l])) else none) := by
  rw [automaton_words]
  unfold State.perform
  simp only [hop]
  unfold gstpPerf
  simp only [hop]
  rw [if_neg (by omega), readAt_reads hraw]
  simp only [hg]
  exact stepRun_one hl

/-- How two keys compare (R469). -/
theorem keyAbove_eq (f : Bool) (v : Val) (o : Option (Nat × Bool × Val)) : keyAbove f v o = match o with
    | none => true
    | some (_, f', y) => if f = f' then decide (cmpVal v y > 0) else f := by
  unfold keyAbove
  cases o with
  | none => rfl
  | some z =>
    obtain ⟨a, f', y⟩ := z
    generalize decide (cmpVal v y > 0) = c
    cases f <;> cases f' <;> cases c <;> rfl

/-- A step of the choice among tokens. -/
theorem pickStep_eq (p : Pick) (t sc b : Nat) :
    let x := fval .f32 sc
    let g := gumbel b
    let key : Bool × Val := if x.isInf then (true, g) else (false, fval .f32 (deliver fmtF32 .rne (addVal .rne x g)).1)
    let better : Bool := match p.best with
      | none => true
      | some (_, f, y) => if key.1 = f then decide (cmpVal key.2 y > 0) else key.1
    ((p.step t sc b).best, (p.step t sc b).nan) = if x.isNan then (p.best, true) else if x.isInf && x.sign then (p.best, p.nan)
      else if better then (some (t, key), p.nan) else (p.best, p.nan) := by
  unfold Pick.step
  generalize fval .f32 sc = x
  generalize gumbel b = g
  intro x' g' key better
  have hb : better = keyAbove key.1 key.2 p.best := (keyAbove_eq key.1 key.2 p.best).symm
  rw [hb]
  clear hb better
  rcases x with _ | (_ | _) | _
  · rfl
  · have hk : key = (true, g) := rfl
    rw [hk]
    clear_value key
    generalize keyAbove true g p.best = c
    cases c <;> rfl
  · rfl
  · rename_i s n d e
    have hk : key = (false, fval .f32 (deliver fmtF32 .rne (addVal .rne (.num s n d e) g)).1) := rfl
    rw [hk]
    clear hk key
    dsimp only
    generalize fval .f32 (deliver fmtF32 .rne (addVal .rne (.num s n d e) g)).1 = y
    generalize keyAbove false y p.best = c
    cases c <;> rfl

/-- The choice among tokens is the fold of its steps. -/
theorem choose_eq (legal : Nat → Bool) (score rand : Nat → Nat) : ∀ (l : List Nat) (p : Pick),
    let q := l.foldl (fun p t => if legal t then p.step t (score t) (rand t) else p) p
    (q.best, q.nan) = l.foldl (fun (c : Option (Nat × Bool × Val) × Bool) t =>
      let x := fval .f32 (score t)
      let g := gumbel (rand t)
      let key : Bool × Val := if x.isInf then (true, g) else (false, fval .f32 (deliver fmtF32 .rne (addVal .rne x g)).1)
      let better : Bool := match c.1 with
        | none => true
        | some (_, f, y) => if key.1 = f then decide (cmpVal key.2 y > 0) else key.1
      if legal t = false then c else if x.isNan then (c.1, true) else if x.isInf && x.sign then c
        else if better then (some (t, key), c.2) else c) (p.best, p.nan)
  | [], p => rfl
  | t :: ts, p => by
    intro q
    have ih := choose_eq legal score rand ts (if legal t then p.step t (score t) (rand t) else p)
    refine ih.trans ?_
    rw [List.foldl_cons]
    congr 1
    cases hb : legal t with
    | false => rfl
    | true => exact pickStep_eq p t (score t) (rand t)

end Sys2Proof.Machine
end

