-- ==== Sys2Proof/Laws/Resample.lean ====
section
/-! SUPPORT. Resampling: masses, offspring counts, and the two passes over the particle records (R508 to R511). -/

namespace Sys2Proof.Machine

/-- Dropping a reference of a page leaves the particles alone. -/
theorem unref_particles (s : State) (p pid h : Nat) : (s.unref p pid h).particles = s.particles ∧ (s.unref p pid h).pops = s.pops ∧
    (s.unref p pid h).launches = s.launches := by
  unfold State.unref
  simp only
  split
  · exact ⟨rfl, rfl, rfl⟩
  · split <;> exact ⟨rfl, rfl, rfl⟩

/-- Freeing a sequence leaves the particles alone. -/
theorem freeSeq_particles (s : State) (sid : Nat) (q : Seq) : (s.freeSeq sid q).particles = s.particles ∧
    (s.freeSeq sid q).pops = s.pops ∧ (s.freeSeq sid q).launches = s.launches := by
  unfold State.freeSeq
  have h1 := keep_foldl State.particles (g := fun (s : State) (x : Nat) => s.unref (seqPool sid) x (seqDie sid))
    (fun s x => (unref_particles s _ _ _).1) q.pages { s with seqs := Tbl.del s.seqs sid }
  have h2 := keep_foldl State.pops (g := fun (s : State) (x : Nat) => s.unref (seqPool sid) x (seqDie sid))
    (fun s x => (unref_particles s _ _ _).2.1) q.pages { s with seqs := Tbl.del s.seqs sid }
  have h3 := keep_foldl State.launches (g := fun (s : State) (x : Nat) => s.unref (seqPool sid) x (seqDie sid))
    (fun s x => (unref_particles s _ _ _).2.2) q.pages { s with seqs := Tbl.del s.seqs sid }
  exact ⟨h1, h2, h3⟩

/-- A retired particle record is free. -/
theorem retireParticle_does (s : State) (owner key : Nat) :
    (∀ k, (s.retireParticle owner key).particle k = if k = key then { s.particle k with st := 0, done := false } else s.particle k) ∧
    (s.retireParticle owner key).pops = s.pops ∧ (s.retireParticle owner key).launches = s.launches := by
  unfold State.retireParticle
  simp only
  have : ∀ u : State, u.particles = s.particles → u.pops = s.pops → u.launches = s.launches →
      (∀ k, (u.modParticle key fun p => { p with st := 0, done := false }).particle k =
        if k = key then { s.particle k with st := 0, done := false } else s.particle k) ∧
      (u.modParticle key fun p => { p with st := 0, done := false }).pops = s.pops ∧
      (u.modParticle key fun p => { p with st := 0, done := false }).launches = s.launches := by
    intro u h1 h2 h3
    refine ⟨fun k => ?_, h2, h3⟩
    rw [State.particle_modParticle]
    have hp : ∀ k, u.particle k = s.particle k := fun k => by unfold State.particle; rw [h1]
    split
    · rename_i h; rw [hp, h]
    · exact hp k
  split
  · obtain ⟨h1, h2, h3⟩ := freeSeq_particles s (s.particle key).seq.toNat ‹Seq›
    exact this _ h1 h2 h3
  · exact this _ rfl rfl rfl

/-- Retiring several. -/
theorem retireAll_does (owner : Nat) : ∀ (keys : List Nat) (s : State),
    let t := keys.foldl (fun s k => s.retireParticle owner k) s
    (∀ k, t.particle k = if k ∈ keys then { s.particle k with st := 0, done := false } else s.particle k) ∧
    t.pops = s.pops ∧ t.launches = s.launches
  | [], s => ⟨fun k => by simp, rfl, rfl⟩
  | a :: keys, s => by
    intro t
    obtain ⟨h1, h2, h3⟩ := retireAll_does owner keys (s.retireParticle owner a)
    obtain ⟨g1, g2, g3⟩ := retireParticle_does s owner a
    refine ⟨fun k => ?_, h2.trans g2, h3.trans g3⟩
    refine (h1 k).trans ?_
    rw [g1]
    by_cases hk : k = a
    · subst hk
      simp
    · simp [hk]

/-- Offspring counts come from a rising function (R509). -/
theorem offspringAt_mono (n t u a b : Nat) (h : a ≤ b) : offspringAt n t u a ≤ offspringAt n t u b :=
  Nat.div_le_div_right (Nat.add_le_add_right (Nat.mul_le_mul_right _ (Nat.mul_le_mul_left _ h)) _)

/-- The rounding of the first share. -/
theorem share_small {t u q : Nat} (h0 : 0 < t) (hu : u < q) : u * t / (t * q) = 0 := by
  refine Nat.div_eq_of_lt ?_
  rw [Nat.mul_comm]
  exact Nat.mul_lt_mul_of_pos_left hu h0

/-- It starts at 0. -/
theorem offspringAt_zero {n t u : Nat} (h0 : 0 < t) (hu : u < 2 ^ 32) : offspringAt n t u 0 = 0 := by
  unfold offspringAt
  generalize 2 ^ 32 = q at hu ⊢
  rw [Nat.mul_zero, Nat.zero_mul, Nat.zero_add]
  exact share_small h0 hu

/-- It ends at the number of offspring. -/
theorem offspringAt_total {n t u : Nat} (h0 : 0 < t) (hu : u < 2 ^ 32) : offspringAt n t u t = n := by
  unfold offspringAt
  generalize 2 ^ 32 = q at hu ⊢
  have : n * t * q + u * t = u * t + t * q * n := by
    rw [Nat.add_comm, Nat.mul_comm (t * q) n, Nat.mul_assoc]
  rw [this, Nat.add_mul_div_left _ _ (Nat.mul_pos h0 (by omega)), share_small h0 hu, Nat.zero_add]

/-- Differences of a rising function along a running sum: they add up to the whole. -/
theorem differences_does (G : Nat → Nat) (f : Nat → List Nat → List Nat) (hmono : ∀ a b, a ≤ b → G a ≤ G b) (h0 : ∀ c, f c [] = [])
    (h1 : ∀ c m ms, f c (m :: ms) = (G (c + m) - G c) :: f (c + m) ms) : ∀ (masses : List Nat) (c : Nat),
    (f c masses).length = masses.length ∧ G c + (f c masses).sum = G (c + masses.sum) ∧
      ∀ i, i < masses.length → (f c masses).getD i 0 = G (c + (masses.take (i + 1)).sum) - G (c + (masses.take i).sum) := by
  intro masses
  induction masses with
  | nil => exact fun c => by rw [h0]; exact ⟨rfl, rfl, fun i h => absurd h (Nat.not_lt_zero _)⟩
  | cons m ms ih =>
    intro c
    obtain ⟨g1, g2, g3⟩ := ih (c + m)
    rw [h1]
    refine ⟨by simp [g1], ?_, fun i hi => ?_⟩
    · rw [List.sum_cons, List.sum_cons, ← Nat.add_assoc c, ← g2]
      have := hmono c (c + m) (Nat.le_add_right _ _)
      omega
    · cases i with
      | zero => simp
      | succ i =>
        have := g3 i (by simpa using hi)
        simp only [List.getD_cons_succ, this, List.take_succ_cons, List.sum_cons, Nat.add_assoc]

/-- Weights of one rank are one weight. -/
theorem weightRank_inj {x y : Nat} (h : weightRank x = weightRank y) : x = y := by
  unfold weightRank at h
  split at h <;> split at h <;> omega

/-- The greatest weight is the one that no other is above. -/
theorem maxWeight_max {ws : List Nat} {m : Nat} (h1 : m ∈ 0xFF800000 :: ws) (h2 : ∀ x ∈ 0xFF800000 :: ws, weightRank x ≤ weightRank m) :
    maxWeight ws = m := by
  have key : ∀ (l : List Nat) (i : Nat),
      l.foldl (fun m x => if weightRank m < weightRank x then x else m) i ∈ i :: l ∧
      ∀ x ∈ i :: l, weightRank x ≤ weightRank (l.foldl (fun m x => if weightRank m < weightRank x then x else m) i) := by
    intro l
    induction l with
    | nil => exact fun i => ⟨List.mem_cons_self, fun x hx => by rw [List.mem_singleton.1 hx]; exact Int.le_refl _⟩
    | cons a l ih =>
      intro i
      rw [List.foldl_cons]
      obtain ⟨g1, g2⟩ := ih (if weightRank i < weightRank a then a else i)
      generalize List.foldl (fun m x => if weightRank m < weightRank x then x else m) (if weightRank i < weightRank a then a else i) l = y at g1 g2
      have hi := g2 _ List.mem_cons_self
      refine ⟨?_, fun x hx => ?_⟩
      · rcases List.mem_cons.1 g1 with h | h
        · rw [h]
          split <;> simp
        · simp [h]
      · rcases List.mem_cons.1 hx with h | h
        · subst h
          split at hi <;> omega
        · rcases List.mem_cons.1 h with h | h
          · subst h
            split at hi <;> omega
          · exact g2 x (List.mem_cons_of_mem _ h)
  obtain ⟨g1, g2⟩ := key ws 0xFF800000
  exact weightRank_inj (Int.le_antisymm (h2 _ g1) (g2 _ h1))

/-- The weights of the particles that stay. -/
theorem reviveAll_does (mean : W32) : ∀ (l : List (Nat × Nat)) (s : State),
    let t := l.foldl (fun (s : State) p => s.modParticle p.1 fun x => { x with w := mean, st := 1 }) s
    (∀ k, t.particle k = if k ∈ l.map (·.1) then { s.particle k with w := mean, st := 1 } else s.particle k) ∧
    t.pops = s.pops ∧ t.launches = s.launches
  | [], s => ⟨fun k => by simp, rfl, rfl⟩
  | a :: l, s => by
    intro t
    obtain ⟨h1, h2, h3⟩ := reviveAll_does mean l (s.modParticle a.1 fun x => { x with w := mean, st := 1 })
    refine ⟨fun k => ?_, h2, h3⟩
    refine (h1 k).trans ?_
    rw [State.particle_modParticle]
    by_cases hk : k = a.1
    · subst hk
      simp
    · rw [if_neg hk]
      simp only [List.map_cons, List.mem_cons, hk, false_or]

/-- Any rising list with the same elements is the sorted list. -/
theorem sortNats_unique {l keys : List Nat} (h1 : keys.Pairwise (· < ·)) (h2 : ∀ k, k ∈ keys ↔ k ∈ l)
    (hs : (sortNats l).Pairwise (· < ·) ∧ ∀ i, i ∈ sortNats l ↔ i ∈ l) : sortNats l = keys := by
  have : ∀ (a b : List Nat), a.Pairwise (· < ·) → b.Pairwise (· < ·) → (∀ k, k ∈ a ↔ k ∈ b) → a = b := by
    intro a
    induction a with
    | nil =>
      intro b _ _ h
      cases b with
      | nil => rfl
      | cons y b => exact absurd ((h y).2 List.mem_cons_self) List.not_mem_nil
    | cons x a ih =>
      intro b ha hb h
      cases b with
      | nil => exact absurd ((h x).1 List.mem_cons_self) List.not_mem_nil
      | cons y b =>
        rw [List.pairwise_cons] at ha hb
        have hxy : x = y := by
          rcases List.mem_cons.1 ((h x).1 List.mem_cons_self) with e | e
          · exact e
          · rcases List.mem_cons.1 ((h y).2 List.mem_cons_self) with e' | e'
            · exact e'.symm
            · have := hb.1 x e; have := ha.1 y e'; omega
        subst hxy
        rw [ih b ha.2 hb.2 fun k => ?_]
        constructor
        · intro hk
          rcases List.mem_cons.1 ((h k).1 (List.mem_cons_of_mem _ hk)) with e | e
          · subst e; exact absurd (ha.1 k hk) (Nat.lt_irrefl _)
          · exact e
        · intro hk
          rcases List.mem_cons.1 ((h k).2 (List.mem_cons_of_mem _ hk)) with e | e
          · subst e; exact absurd (hb.1 k hk) (Nat.lt_irrefl _)
          · exact e
  exact this _ _ hs.1 h1 fun k => (hs.2 k).trans (h2 k).symm

/-- The mass of a difference of logarithms (R508). -/
def massOfVal (d : Val) : Nat :=
  match d with
  | .num _ n _ e => if n = 0 then 2 ^ 40 else if (40 : Nat) * 2 ^ (-e).toNat < n * 2 ^ e.toNat then 0 else floorPow n e
  | _ => 0

/-- Its value for a number. -/
theorem massOfVal_num (s : Bool) (n d : Nat) (e : Int) : massOfVal (.num s n d e) =
    if n = 0 then 2 ^ 40 else if (40 : Nat) * 2 ^ (-e).toNat < n * 2 ^ e.toNat then 0 else floorPow n e := by
  unfold massOfVal
  rfl

/-- The mass of a weight below the greatest. -/
theorem massOf_eq {m w : Nat} (h1 : m ≠ 0x7F800000) (h2 : m ≠ 0xFF800000) :
    massOf m w = massOfVal (fval .f32 (deliver fmtF32 .rne (addVal .rne (fval .f32 w) (fval .f32 m).neg)).1) := by
  unfold massOf
  rw [if_neg h1, if_neg h2]
  rfl

/-- A round whose arrivals are complete is resampled. -/
theorem checkRound_full {s : State} {lid : Nat} {l : Launch} {r : RoundState} (hl : s.launch lid = some l) (hr : l.round = some r)
    (ho : r.isOpen = true) (he : r.extinct = false)
    (h : (if r.quorum then min r.q (s.pop r.pop).count else (s.pop r.pop).count) ≤ r.arrived.length) (h1 : 1 ≤ r.arrived.length) :
    s.checkRound lid = s.resample lid l r := by
  unfold State.checkRound
  simp only [hl, hr]
  rw [if_pos]
  rw [ho, he, decide_eq_true (show 1 ≤ r.arrived.length ∧ _ ≤ r.arrived.length from ⟨h1, h⟩)]
  rfl

/-- The keys of a zipped list. -/
theorem zip_keys (keys : List Nat) : ∀ (counts : List Nat), counts.length = keys.length → (keys.zip counts).map (·.1) = keys := by
  induction keys with
  | nil => intro c _; rfl
  | cons k ks ih =>
    intro c h
    cases c with
    | nil => cases h
    | cons x xs => simp only [List.zip_cons_cons, List.map_cons, ih xs (by simpa using h)]

/-- Particles without offspring need no clone. -/
theorem cloneJobs_all (pairs : List (Nat × Nat)) : ((pairs.filter fun p => p.2 != 0).flatMap fun p =>
      List.replicate (p.2 - 1) ({ parent := p.1, waiting := false, failed := false } : CloneJob)) =
    pairs.flatMap fun p => List.replicate (p.2 - 1) { parent := p.1, waiting := false, failed := false } := by
  induction pairs with
  | nil => rfl
  | cons a l ih =>
    rw [List.flatMap_cons, ← ih]
    by_cases h : a.2 = 0
    · rw [List.filter_cons_of_neg (by simp [h]), h]
      rfl
    · rw [List.filter_cons_of_pos (by simp [h]), List.flatMap_cons]

/-- One entry for one key. -/
theorem eq_of_key : ∀ (l : List (Nat × Nat)), (l.map (·.1)).Nodup → ∀ x ∈ l, ∀ y ∈ l, x.1 = y.1 → x = y
  | [], _, x, hx, _, _, _ => absurd hx List.not_mem_nil
  | a :: l, h, x, hx, y, hy, e => by
    rw [List.map_cons, List.nodup_cons] at h
    rcases List.mem_cons.1 hx with gx | gx <;> rcases List.mem_cons.1 hy with gy | gy
    · rw [gx, gy]
    · subst gx
      exact absurd (List.mem_map_of_mem (f := Prod.fst) gy) (by rw [← e]; exact h.1)
    · subst gy
      exact absurd (List.mem_map_of_mem (f := Prod.fst) gx) (by rw [e]; exact h.1)
    · exact eq_of_key l h.2 x gx y gy e

/-- The two passes of a resampling: records are freed, then weights are set (R510, R511). -/
theorem resamplePasses_does (owner : Nat) (mean : W32) (pairs : List (Nat × Nat)) (s : State) (hn : (pairs.map (·.1)).Nodup) :
    let u := (pairs.filter fun p => p.2 == 0).foldl (fun s p => s.retireParticle owner p.1) s
    let v := (pairs.filter fun p => p.2 != 0).foldl (fun s p => s.modParticle p.1 fun x => { x with w := mean, st := 1 }) u
    v.pops = s.pops ∧ v.launches = s.launches ∧
    (∀ x ∈ pairs, v.particle x.1 = if x.2 = 0 then { s.particle x.1 with st := 0, done := false }
      else { s.particle x.1 with w := mean, st := 1 }) ∧
    ∀ k, k ∉ pairs.map (·.1) → v.particle k = s.particle k := by
  intro u v
  have hu : u = ((pairs.filter fun p => p.2 == 0).map (·.1)).foldl (fun s k => s.retireParticle owner k) s :=
    (List.foldl_map (f := Prod.fst) (g := fun (s : State) k => s.retireParticle owner k)).symm
  obtain ⟨h1, h2, h3⟩ := retireAll_does owner ((pairs.filter fun p => p.2 == 0).map (·.1)) s
  rw [← hu] at h1 h2 h3
  obtain ⟨g1, g2, g3⟩ := reviveAll_does mean (pairs.filter fun p => p.2 != 0) u
  have huniq : ∀ x ∈ pairs, ∀ y ∈ pairs, x.1 = y.1 → x = y := by
    intro x hx y hy h
    exact eq_of_key pairs hn x hx y hy h
  refine ⟨g2.trans h2, g3.trans h3, fun x hx => ?_, fun k hk => ?_⟩
  · refine (g1 x.1).trans ?_
    rw [h1]
    by_cases h : x.2 = 0
    · rw [if_pos h, if_neg, if_pos]
      · exact List.mem_map.2 ⟨x, List.mem_filter.2 ⟨hx, by simp [h]⟩, rfl⟩
      · intro hm
        obtain ⟨y, hy, e⟩ := List.mem_map.1 hm
        obtain ⟨hy, hy'⟩ := List.mem_filter.1 hy
        rw [huniq y hy x hx e, h] at hy'
        exact absurd hy' (by decide)
    · rw [if_neg h, if_pos, if_neg]
      · intro hm
        obtain ⟨y, hy, e⟩ := List.mem_map.1 hm
        obtain ⟨hy, hy'⟩ := List.mem_filter.1 hy
        rw [huniq y hy x hx e] at hy'
        exact h (by simpa using hy')
      · exact List.mem_map.2 ⟨x, List.mem_filter.2 ⟨hx, by simp [h]⟩, rfl⟩
  · refine (g1 k).trans ?_
    rw [h1, if_neg, if_neg]
    · intro hm
      obtain ⟨y, hy, e⟩ := List.mem_map.1 hm
      exact hk (List.mem_map.2 ⟨y, (List.mem_filter.1 hy).1, e⟩)
    · intro hm
      obtain ⟨y, hy, e⟩ := List.mem_map.1 hm
      exact hk (List.mem_map.2 ⟨y, (List.mem_filter.1 hy).1, e⟩)

end Sys2Proof.Machine
end

