-- ==== Sys2Proof/Laws/State.lean ====
section
/-! SUPPORT. Each update of one part of the state leaves every other field as it was. -/

namespace Sys2Proof.Machine

/-! ### `modCore` -/

section
variable (s : State) (k : Nat) (f : Core → Core)

@[simp] theorem State.modCore_agenda : (s.modCore k f).agenda = s.agenda := rfl
@[simp] theorem State.modCore_picked : (s.modCore k f).picked = s.picked := rfl
@[simp] theorem State.modCore_cur : (s.modCore k f).cur = s.cur := rfl
@[simp] theorem State.modCore_free : (s.modCore k f).free = s.free := rfl
@[simp] theorem State.modCore_mem : (s.modCore k f).mem = s.mem := rfl
@[simp] theorem State.modCore_lineKey : (s.modCore k f).lineKey = s.lineKey := rfl
@[simp] theorem State.modCore_hostMem : (s.modCore k f).hostMem = s.hostMem := rfl
@[simp] theorem State.modCore_poison : (s.modCore k f).poison = s.poison := rfl
@[simp] theorem State.modCore_soft : (s.modCore k f).soft = s.soft := rfl
@[simp] theorem State.modCore_linkErrs : (s.modCore k f).linkErrs = s.linkErrs := rfl
@[simp] theorem State.modCore_scope : (s.modCore k f).scope = s.scope := rfl
@[simp] theorem State.modCore_hubScope : (s.modCore k f).hubScope = s.hubScope := rfl
@[simp] theorem State.modCore_grants : (s.modCore k f).grants = s.grants := rfl
@[simp] theorem State.modCore_dies : (s.modCore k f).dies = s.dies := rfl
@[simp] theorem State.modCore_waves : (s.modCore k f).waves = s.waves := rfl
@[simp] theorem State.modCore_blocks : (s.modCore k f).blocks = s.blocks := rfl
@[simp] theorem State.modCore_crews : (s.modCore k f).crews = s.crews := rfl
@[simp] theorem State.modCore_regions : (s.modCore k f).regions = s.regions := rfl
@[simp] theorem State.modCore_pools : (s.modCore k f).pools = s.pools := rfl
@[simp] theorem State.modCore_batches : (s.modCore k f).batches = s.batches := rfl
@[simp] theorem State.modCore_seqs : (s.modCore k f).seqs = s.seqs := rfl
@[simp] theorem State.modCore_refs : (s.modCore k f).refs = s.refs := rfl
@[simp] theorem State.modCore_retention : (s.modCore k f).retention = s.retention := rfl
@[simp] theorem State.modCore_particles : (s.modCore k f).particles = s.particles := rfl
@[simp] theorem State.modCore_pops : (s.modCore k f).pops = s.pops := rfl
@[simp] theorem State.modCore_popsel : (s.modCore k f).popsel = s.popsel := rfl
@[simp] theorem State.modCore_ctxs : (s.modCore k f).ctxs = s.ctxs := rfl
@[simp] theorem State.modCore_ctxfn : (s.modCore k f).ctxfn = s.ctxfn := rfl
@[simp] theorem State.modCore_queues : (s.modCore k f).queues = s.queues := rfl
@[simp] theorem State.modCore_slots : (s.modCore k f).slots = s.slots := rfl
@[simp] theorem State.modCore_failedSlots : (s.modCore k f).failedSlots = s.failedSlots := rfl
@[simp] theorem State.modCore_satisfied : (s.modCore k f).satisfied = s.satisfied := rfl
@[simp] theorem State.modCore_launches : (s.modCore k f).launches = s.launches := rfl
@[simp] theorem State.modCore_gangs : (s.modCore k f).gangs = s.gangs := rfl
@[simp] theorem State.modCore_saves : (s.modCore k f).saves = s.saves := rfl
@[simp] theorem State.modCore_reqs : (s.modCore k f).reqs = s.reqs := rfl
@[simp] theorem State.modCore_frozenEngines : (s.modCore k f).frozenEngines = s.frozenEngines := rfl
@[simp] theorem State.modCore_swaths : (s.modCore k f).swaths = s.swaths := rfl
@[simp] theorem State.modCore_det : (s.modCore k f).det = s.det := rfl
@[simp] theorem State.modCore_replay : (s.modCore k f).replay = s.replay := rfl
@[simp] theorem State.modCore_heldSys : (s.modCore k f).heldSys = s.heldSys := rfl
@[simp] theorem State.modCore_fns : (s.modCore k f).fns = s.fns := rfl
@[simp] theorem State.modCore_apertures : (s.modCore k f).apertures = s.apertures := rfl
@[simp] theorem State.modCore_ports : (s.modCore k f).ports = s.ports := rfl
@[simp] theorem State.modCore_peerOps : (s.modCore k f).peerOps = s.peerOps := rfl
@[simp] theorem State.modCore_hostOut : (s.modCore k f).hostOut = s.hostOut := rfl
@[simp] theorem State.modCore_sec : (s.modCore k f).sec = s.sec := rfl

end

/-! ### `modDie` -/

section
variable (s : State) (k : Nat) (f : Die → Die)

@[simp] theorem State.modDie_agenda : (s.modDie k f).agenda = s.agenda := rfl
@[simp] theorem State.modDie_picked : (s.modDie k f).picked = s.picked := rfl
@[simp] theorem State.modDie_cur : (s.modDie k f).cur = s.cur := rfl
@[simp] theorem State.modDie_free : (s.modDie k f).free = s.free := rfl
@[simp] theorem State.modDie_mem : (s.modDie k f).mem = s.mem := rfl
@[simp] theorem State.modDie_lineKey : (s.modDie k f).lineKey = s.lineKey := rfl
@[simp] theorem State.modDie_hostMem : (s.modDie k f).hostMem = s.hostMem := rfl
@[simp] theorem State.modDie_poison : (s.modDie k f).poison = s.poison := rfl
@[simp] theorem State.modDie_soft : (s.modDie k f).soft = s.soft := rfl
@[simp] theorem State.modDie_linkErrs : (s.modDie k f).linkErrs = s.linkErrs := rfl
@[simp] theorem State.modDie_scope : (s.modDie k f).scope = s.scope := rfl
@[simp] theorem State.modDie_hubScope : (s.modDie k f).hubScope = s.hubScope := rfl
@[simp] theorem State.modDie_grants : (s.modDie k f).grants = s.grants := rfl
@[simp] theorem State.modDie_cores : (s.modDie k f).cores = s.cores := rfl
@[simp] theorem State.modDie_waves : (s.modDie k f).waves = s.waves := rfl
@[simp] theorem State.modDie_blocks : (s.modDie k f).blocks = s.blocks := rfl
@[simp] theorem State.modDie_crews : (s.modDie k f).crews = s.crews := rfl
@[simp] theorem State.modDie_regions : (s.modDie k f).regions = s.regions := rfl
@[simp] theorem State.modDie_pools : (s.modDie k f).pools = s.pools := rfl
@[simp] theorem State.modDie_batches : (s.modDie k f).batches = s.batches := rfl
@[simp] theorem State.modDie_seqs : (s.modDie k f).seqs = s.seqs := rfl
@[simp] theorem State.modDie_refs : (s.modDie k f).refs = s.refs := rfl
@[simp] theorem State.modDie_retention : (s.modDie k f).retention = s.retention := rfl
@[simp] theorem State.modDie_particles : (s.modDie k f).particles = s.particles := rfl
@[simp] theorem State.modDie_pops : (s.modDie k f).pops = s.pops := rfl
@[simp] theorem State.modDie_popsel : (s.modDie k f).popsel = s.popsel := rfl
@[simp] theorem State.modDie_ctxs : (s.modDie k f).ctxs = s.ctxs := rfl
@[simp] theorem State.modDie_ctxfn : (s.modDie k f).ctxfn = s.ctxfn := rfl
@[simp] theorem State.modDie_queues : (s.modDie k f).queues = s.queues := rfl
@[simp] theorem State.modDie_slots : (s.modDie k f).slots = s.slots := rfl
@[simp] theorem State.modDie_failedSlots : (s.modDie k f).failedSlots = s.failedSlots := rfl
@[simp] theorem State.modDie_satisfied : (s.modDie k f).satisfied = s.satisfied := rfl
@[simp] theorem State.modDie_launches : (s.modDie k f).launches = s.launches := rfl
@[simp] theorem State.modDie_gangs : (s.modDie k f).gangs = s.gangs := rfl
@[simp] theorem State.modDie_saves : (s.modDie k f).saves = s.saves := rfl
@[simp] theorem State.modDie_reqs : (s.modDie k f).reqs = s.reqs := rfl
@[simp] theorem State.modDie_frozenEngines : (s.modDie k f).frozenEngines = s.frozenEngines := rfl
@[simp] theorem State.modDie_swaths : (s.modDie k f).swaths = s.swaths := rfl
@[simp] theorem State.modDie_det : (s.modDie k f).det = s.det := rfl
@[simp] theorem State.modDie_replay : (s.modDie k f).replay = s.replay := rfl
@[simp] theorem State.modDie_heldSys : (s.modDie k f).heldSys = s.heldSys := rfl
@[simp] theorem State.modDie_fns : (s.modDie k f).fns = s.fns := rfl
@[simp] theorem State.modDie_apertures : (s.modDie k f).apertures = s.apertures := rfl
@[simp] theorem State.modDie_ports : (s.modDie k f).ports = s.ports := rfl
@[simp] theorem State.modDie_peerOps : (s.modDie k f).peerOps = s.peerOps := rfl
@[simp] theorem State.modDie_hostOut : (s.modDie k f).hostOut = s.hostOut := rfl
@[simp] theorem State.modDie_sec : (s.modDie k f).sec = s.sec := rfl

end

/-! ### `modWave` -/

section
variable (s : State) (k : Nat) (f : Wave → Wave)

@[simp] theorem State.modWave_agenda : (s.modWave k f).agenda = s.agenda := rfl
@[simp] theorem State.modWave_picked : (s.modWave k f).picked = s.picked := rfl
@[simp] theorem State.modWave_cur : (s.modWave k f).cur = s.cur := rfl
@[simp] theorem State.modWave_free : (s.modWave k f).free = s.free := rfl
@[simp] theorem State.modWave_mem : (s.modWave k f).mem = s.mem := rfl
@[simp] theorem State.modWave_lineKey : (s.modWave k f).lineKey = s.lineKey := rfl
@[simp] theorem State.modWave_hostMem : (s.modWave k f).hostMem = s.hostMem := rfl
@[simp] theorem State.modWave_poison : (s.modWave k f).poison = s.poison := rfl
@[simp] theorem State.modWave_soft : (s.modWave k f).soft = s.soft := rfl
@[simp] theorem State.modWave_linkErrs : (s.modWave k f).linkErrs = s.linkErrs := rfl
@[simp] theorem State.modWave_scope : (s.modWave k f).scope = s.scope := rfl
@[simp] theorem State.modWave_hubScope : (s.modWave k f).hubScope = s.hubScope := rfl
@[simp] theorem State.modWave_grants : (s.modWave k f).grants = s.grants := rfl
@[simp] theorem State.modWave_cores : (s.modWave k f).cores = s.cores := rfl
@[simp] theorem State.modWave_dies : (s.modWave k f).dies = s.dies := rfl
@[simp] theorem State.modWave_blocks : (s.modWave k f).blocks = s.blocks := rfl
@[simp] theorem State.modWave_crews : (s.modWave k f).crews = s.crews := rfl
@[simp] theorem State.modWave_regions : (s.modWave k f).regions = s.regions := rfl
@[simp] theorem State.modWave_pools : (s.modWave k f).pools = s.pools := rfl
@[simp] theorem State.modWave_batches : (s.modWave k f).batches = s.batches := rfl
@[simp] theorem State.modWave_seqs : (s.modWave k f).seqs = s.seqs := rfl
@[simp] theorem State.modWave_refs : (s.modWave k f).refs = s.refs := rfl
@[simp] theorem State.modWave_retention : (s.modWave k f).retention = s.retention := rfl
@[simp] theorem State.modWave_particles : (s.modWave k f).particles = s.particles := rfl
@[simp] theorem State.modWave_pops : (s.modWave k f).pops = s.pops := rfl
@[simp] theorem State.modWave_popsel : (s.modWave k f).popsel = s.popsel := rfl
@[simp] theorem State.modWave_ctxs : (s.modWave k f).ctxs = s.ctxs := rfl
@[simp] theorem State.modWave_ctxfn : (s.modWave k f).ctxfn = s.ctxfn := rfl
@[simp] theorem State.modWave_queues : (s.modWave k f).queues = s.queues := rfl
@[simp] theorem State.modWave_slots : (s.modWave k f).slots = s.slots := rfl
@[simp] theorem State.modWave_failedSlots : (s.modWave k f).failedSlots = s.failedSlots := rfl
@[simp] theorem State.modWave_satisfied : (s.modWave k f).satisfied = s.satisfied := rfl
@[simp] theorem State.modWave_launches : (s.modWave k f).launches = s.launches := rfl
@[simp] theorem State.modWave_gangs : (s.modWave k f).gangs = s.gangs := rfl
@[simp] theorem State.modWave_saves : (s.modWave k f).saves = s.saves := rfl
@[simp] theorem State.modWave_reqs : (s.modWave k f).reqs = s.reqs := rfl
@[simp] theorem State.modWave_frozenEngines : (s.modWave k f).frozenEngines = s.frozenEngines := rfl
@[simp] theorem State.modWave_swaths : (s.modWave k f).swaths = s.swaths := rfl
@[simp] theorem State.modWave_det : (s.modWave k f).det = s.det := rfl
@[simp] theorem State.modWave_replay : (s.modWave k f).replay = s.replay := rfl
@[simp] theorem State.modWave_heldSys : (s.modWave k f).heldSys = s.heldSys := rfl
@[simp] theorem State.modWave_fns : (s.modWave k f).fns = s.fns := rfl
@[simp] theorem State.modWave_apertures : (s.modWave k f).apertures = s.apertures := rfl
@[simp] theorem State.modWave_ports : (s.modWave k f).ports = s.ports := rfl
@[simp] theorem State.modWave_peerOps : (s.modWave k f).peerOps = s.peerOps := rfl
@[simp] theorem State.modWave_hostOut : (s.modWave k f).hostOut = s.hostOut := rfl
@[simp] theorem State.modWave_sec : (s.modWave k f).sec = s.sec := rfl

end

/-! ### `modBlock` -/

section
variable (s : State) (k : Nat) (f : Block → Block)

@[simp] theorem State.modBlock_agenda : (s.modBlock k f).agenda = s.agenda := rfl
@[simp] theorem State.modBlock_picked : (s.modBlock k f).picked = s.picked := rfl
@[simp] theorem State.modBlock_cur : (s.modBlock k f).cur = s.cur := rfl
@[simp] theorem State.modBlock_free : (s.modBlock k f).free = s.free := rfl
@[simp] theorem State.modBlock_mem : (s.modBlock k f).mem = s.mem := rfl
@[simp] theorem State.modBlock_lineKey : (s.modBlock k f).lineKey = s.lineKey := rfl
@[simp] theorem State.modBlock_hostMem : (s.modBlock k f).hostMem = s.hostMem := rfl
@[simp] theorem State.modBlock_poison : (s.modBlock k f).poison = s.poison := rfl
@[simp] theorem State.modBlock_soft : (s.modBlock k f).soft = s.soft := rfl
@[simp] theorem State.modBlock_linkErrs : (s.modBlock k f).linkErrs = s.linkErrs := rfl
@[simp] theorem State.modBlock_scope : (s.modBlock k f).scope = s.scope := rfl
@[simp] theorem State.modBlock_hubScope : (s.modBlock k f).hubScope = s.hubScope := rfl
@[simp] theorem State.modBlock_grants : (s.modBlock k f).grants = s.grants := rfl
@[simp] theorem State.modBlock_cores : (s.modBlock k f).cores = s.cores := rfl
@[simp] theorem State.modBlock_dies : (s.modBlock k f).dies = s.dies := rfl
@[simp] theorem State.modBlock_waves : (s.modBlock k f).waves = s.waves := rfl
@[simp] theorem State.modBlock_crews : (s.modBlock k f).crews = s.crews := rfl
@[simp] theorem State.modBlock_regions : (s.modBlock k f).regions = s.regions := rfl
@[simp] theorem State.modBlock_pools : (s.modBlock k f).pools = s.pools := rfl
@[simp] theorem State.modBlock_batches : (s.modBlock k f).batches = s.batches := rfl
@[simp] theorem State.modBlock_seqs : (s.modBlock k f).seqs = s.seqs := rfl
@[simp] theorem State.modBlock_refs : (s.modBlock k f).refs = s.refs := rfl
@[simp] theorem State.modBlock_retention : (s.modBlock k f).retention = s.retention := rfl
@[simp] theorem State.modBlock_particles : (s.modBlock k f).particles = s.particles := rfl
@[simp] theorem State.modBlock_pops : (s.modBlock k f).pops = s.pops := rfl
@[simp] theorem State.modBlock_popsel : (s.modBlock k f).popsel = s.popsel := rfl
@[simp] theorem State.modBlock_ctxs : (s.modBlock k f).ctxs = s.ctxs := rfl
@[simp] theorem State.modBlock_ctxfn : (s.modBlock k f).ctxfn = s.ctxfn := rfl
@[simp] theorem State.modBlock_queues : (s.modBlock k f).queues = s.queues := rfl
@[simp] theorem State.modBlock_slots : (s.modBlock k f).slots = s.slots := rfl
@[simp] theorem State.modBlock_failedSlots : (s.modBlock k f).failedSlots = s.failedSlots := rfl
@[simp] theorem State.modBlock_satisfied : (s.modBlock k f).satisfied = s.satisfied := rfl
@[simp] theorem State.modBlock_launches : (s.modBlock k f).launches = s.launches := rfl
@[simp] theorem State.modBlock_gangs : (s.modBlock k f).gangs = s.gangs := rfl
@[simp] theorem State.modBlock_saves : (s.modBlock k f).saves = s.saves := rfl
@[simp] theorem State.modBlock_reqs : (s.modBlock k f).reqs = s.reqs := rfl
@[simp] theorem State.modBlock_frozenEngines : (s.modBlock k f).frozenEngines = s.frozenEngines := rfl
@[simp] theorem State.modBlock_swaths : (s.modBlock k f).swaths = s.swaths := rfl
@[simp] theorem State.modBlock_det : (s.modBlock k f).det = s.det := rfl
@[simp] theorem State.modBlock_replay : (s.modBlock k f).replay = s.replay := rfl
@[simp] theorem State.modBlock_heldSys : (s.modBlock k f).heldSys = s.heldSys := rfl
@[simp] theorem State.modBlock_fns : (s.modBlock k f).fns = s.fns := rfl
@[simp] theorem State.modBlock_apertures : (s.modBlock k f).apertures = s.apertures := rfl
@[simp] theorem State.modBlock_ports : (s.modBlock k f).ports = s.ports := rfl
@[simp] theorem State.modBlock_peerOps : (s.modBlock k f).peerOps = s.peerOps := rfl
@[simp] theorem State.modBlock_hostOut : (s.modBlock k f).hostOut = s.hostOut := rfl
@[simp] theorem State.modBlock_sec : (s.modBlock k f).sec = s.sec := rfl

end

/-! ### `modCrew` -/

section
variable (s : State) (k : Nat) (f : Crew → Crew)

@[simp] theorem State.modCrew_agenda : (s.modCrew k f).agenda = s.agenda := rfl
@[simp] theorem State.modCrew_picked : (s.modCrew k f).picked = s.picked := rfl
@[simp] theorem State.modCrew_cur : (s.modCrew k f).cur = s.cur := rfl
@[simp] theorem State.modCrew_free : (s.modCrew k f).free = s.free := rfl
@[simp] theorem State.modCrew_mem : (s.modCrew k f).mem = s.mem := rfl
@[simp] theorem State.modCrew_lineKey : (s.modCrew k f).lineKey = s.lineKey := rfl
@[simp] theorem State.modCrew_hostMem : (s.modCrew k f).hostMem = s.hostMem := rfl
@[simp] theorem State.modCrew_poison : (s.modCrew k f).poison = s.poison := rfl
@[simp] theorem State.modCrew_soft : (s.modCrew k f).soft = s.soft := rfl
@[simp] theorem State.modCrew_linkErrs : (s.modCrew k f).linkErrs = s.linkErrs := rfl
@[simp] theorem State.modCrew_scope : (s.modCrew k f).scope = s.scope := rfl
@[simp] theorem State.modCrew_hubScope : (s.modCrew k f).hubScope = s.hubScope := rfl
@[simp] theorem State.modCrew_grants : (s.modCrew k f).grants = s.grants := rfl
@[simp] theorem State.modCrew_cores : (s.modCrew k f).cores = s.cores := rfl
@[simp] theorem State.modCrew_dies : (s.modCrew k f).dies = s.dies := rfl
@[simp] theorem State.modCrew_waves : (s.modCrew k f).waves = s.waves := rfl
@[simp] theorem State.modCrew_blocks : (s.modCrew k f).blocks = s.blocks := rfl
@[simp] theorem State.modCrew_regions : (s.modCrew k f).regions = s.regions := rfl
@[simp] theorem State.modCrew_pools : (s.modCrew k f).pools = s.pools := rfl
@[simp] theorem State.modCrew_batches : (s.modCrew k f).batches = s.batches := rfl
@[simp] theorem State.modCrew_seqs : (s.modCrew k f).seqs = s.seqs := rfl
@[simp] theorem State.modCrew_refs : (s.modCrew k f).refs = s.refs := rfl
@[simp] theorem State.modCrew_retention : (s.modCrew k f).retention = s.retention := rfl
@[simp] theorem State.modCrew_particles : (s.modCrew k f).particles = s.particles := rfl
@[simp] theorem State.modCrew_pops : (s.modCrew k f).pops = s.pops := rfl
@[simp] theorem State.modCrew_popsel : (s.modCrew k f).popsel = s.popsel := rfl
@[simp] theorem State.modCrew_ctxs : (s.modCrew k f).ctxs = s.ctxs := rfl
@[simp] theorem State.modCrew_ctxfn : (s.modCrew k f).ctxfn = s.ctxfn := rfl
@[simp] theorem State.modCrew_queues : (s.modCrew k f).queues = s.queues := rfl
@[simp] theorem State.modCrew_slots : (s.modCrew k f).slots = s.slots := rfl
@[simp] theorem State.modCrew_failedSlots : (s.modCrew k f).failedSlots = s.failedSlots := rfl
@[simp] theorem State.modCrew_satisfied : (s.modCrew k f).satisfied = s.satisfied := rfl
@[simp] theorem State.modCrew_launches : (s.modCrew k f).launches = s.launches := rfl
@[simp] theorem State.modCrew_gangs : (s.modCrew k f).gangs = s.gangs := rfl
@[simp] theorem State.modCrew_saves : (s.modCrew k f).saves = s.saves := rfl
@[simp] theorem State.modCrew_reqs : (s.modCrew k f).reqs = s.reqs := rfl
@[simp] theorem State.modCrew_frozenEngines : (s.modCrew k f).frozenEngines = s.frozenEngines := rfl
@[simp] theorem State.modCrew_swaths : (s.modCrew k f).swaths = s.swaths := rfl
@[simp] theorem State.modCrew_det : (s.modCrew k f).det = s.det := rfl
@[simp] theorem State.modCrew_replay : (s.modCrew k f).replay = s.replay := rfl
@[simp] theorem State.modCrew_heldSys : (s.modCrew k f).heldSys = s.heldSys := rfl
@[simp] theorem State.modCrew_fns : (s.modCrew k f).fns = s.fns := rfl
@[simp] theorem State.modCrew_apertures : (s.modCrew k f).apertures = s.apertures := rfl
@[simp] theorem State.modCrew_ports : (s.modCrew k f).ports = s.ports := rfl
@[simp] theorem State.modCrew_peerOps : (s.modCrew k f).peerOps = s.peerOps := rfl
@[simp] theorem State.modCrew_hostOut : (s.modCrew k f).hostOut = s.hostOut := rfl
@[simp] theorem State.modCrew_sec : (s.modCrew k f).sec = s.sec := rfl

end

/-! ### `modLaunch` -/

section
variable (s : State) (k : Nat) (f : Launch → Launch)

@[simp] theorem State.modLaunch_agenda : (s.modLaunch k f).agenda = s.agenda := rfl
@[simp] theorem State.modLaunch_picked : (s.modLaunch k f).picked = s.picked := rfl
@[simp] theorem State.modLaunch_cur : (s.modLaunch k f).cur = s.cur := rfl
@[simp] theorem State.modLaunch_free : (s.modLaunch k f).free = s.free := rfl
@[simp] theorem State.modLaunch_mem : (s.modLaunch k f).mem = s.mem := rfl
@[simp] theorem State.modLaunch_lineKey : (s.modLaunch k f).lineKey = s.lineKey := rfl
@[simp] theorem State.modLaunch_hostMem : (s.modLaunch k f).hostMem = s.hostMem := rfl
@[simp] theorem State.modLaunch_poison : (s.modLaunch k f).poison = s.poison := rfl
@[simp] theorem State.modLaunch_soft : (s.modLaunch k f).soft = s.soft := rfl
@[simp] theorem State.modLaunch_linkErrs : (s.modLaunch k f).linkErrs = s.linkErrs := rfl
@[simp] theorem State.modLaunch_scope : (s.modLaunch k f).scope = s.scope := rfl
@[simp] theorem State.modLaunch_hubScope : (s.modLaunch k f).hubScope = s.hubScope := rfl
@[simp] theorem State.modLaunch_grants : (s.modLaunch k f).grants = s.grants := rfl
@[simp] theorem State.modLaunch_cores : (s.modLaunch k f).cores = s.cores := rfl
@[simp] theorem State.modLaunch_dies : (s.modLaunch k f).dies = s.dies := rfl
@[simp] theorem State.modLaunch_waves : (s.modLaunch k f).waves = s.waves := rfl
@[simp] theorem State.modLaunch_blocks : (s.modLaunch k f).blocks = s.blocks := rfl
@[simp] theorem State.modLaunch_crews : (s.modLaunch k f).crews = s.crews := rfl
@[simp] theorem State.modLaunch_regions : (s.modLaunch k f).regions = s.regions := rfl
@[simp] theorem State.modLaunch_pools : (s.modLaunch k f).pools = s.pools := rfl
@[simp] theorem State.modLaunch_batches : (s.modLaunch k f).batches = s.batches := rfl
@[simp] theorem State.modLaunch_seqs : (s.modLaunch k f).seqs = s.seqs := rfl
@[simp] theorem State.modLaunch_refs : (s.modLaunch k f).refs = s.refs := rfl
@[simp] theorem State.modLaunch_retention : (s.modLaunch k f).retention = s.retention := rfl
@[simp] theorem State.modLaunch_particles : (s.modLaunch k f).particles = s.particles := rfl
@[simp] theorem State.modLaunch_pops : (s.modLaunch k f).pops = s.pops := rfl
@[simp] theorem State.modLaunch_popsel : (s.modLaunch k f).popsel = s.popsel := rfl
@[simp] theorem State.modLaunch_ctxs : (s.modLaunch k f).ctxs = s.ctxs := rfl
@[simp] theorem State.modLaunch_ctxfn : (s.modLaunch k f).ctxfn = s.ctxfn := rfl
@[simp] theorem State.modLaunch_queues : (s.modLaunch k f).queues = s.queues := rfl
@[simp] theorem State.modLaunch_slots : (s.modLaunch k f).slots = s.slots := rfl
@[simp] theorem State.modLaunch_failedSlots : (s.modLaunch k f).failedSlots = s.failedSlots := rfl
@[simp] theorem State.modLaunch_satisfied : (s.modLaunch k f).satisfied = s.satisfied := rfl
@[simp] theorem State.modLaunch_gangs : (s.modLaunch k f).gangs = s.gangs := rfl
@[simp] theorem State.modLaunch_saves : (s.modLaunch k f).saves = s.saves := rfl
@[simp] theorem State.modLaunch_reqs : (s.modLaunch k f).reqs = s.reqs := rfl
@[simp] theorem State.modLaunch_frozenEngines : (s.modLaunch k f).frozenEngines = s.frozenEngines := rfl
@[simp] theorem State.modLaunch_swaths : (s.modLaunch k f).swaths = s.swaths := rfl
@[simp] theorem State.modLaunch_det : (s.modLaunch k f).det = s.det := rfl
@[simp] theorem State.modLaunch_replay : (s.modLaunch k f).replay = s.replay := rfl
@[simp] theorem State.modLaunch_heldSys : (s.modLaunch k f).heldSys = s.heldSys := rfl
@[simp] theorem State.modLaunch_fns : (s.modLaunch k f).fns = s.fns := rfl
@[simp] theorem State.modLaunch_apertures : (s.modLaunch k f).apertures = s.apertures := rfl
@[simp] theorem State.modLaunch_ports : (s.modLaunch k f).ports = s.ports := rfl
@[simp] theorem State.modLaunch_peerOps : (s.modLaunch k f).peerOps = s.peerOps := rfl
@[simp] theorem State.modLaunch_hostOut : (s.modLaunch k f).hostOut = s.hostOut := rfl
@[simp] theorem State.modLaunch_sec : (s.modLaunch k f).sec = s.sec := rfl

end

/-! ### `setRegion` -/

section
variable (s : State) (k : Nat) (r : Region)

@[simp] theorem State.setRegion_agenda : (s.setRegion k r).agenda = s.agenda := rfl
@[simp] theorem State.setRegion_picked : (s.setRegion k r).picked = s.picked := rfl
@[simp] theorem State.setRegion_cur : (s.setRegion k r).cur = s.cur := rfl
@[simp] theorem State.setRegion_free : (s.setRegion k r).free = s.free := rfl
@[simp] theorem State.setRegion_mem : (s.setRegion k r).mem = s.mem := rfl
@[simp] theorem State.setRegion_lineKey : (s.setRegion k r).lineKey = s.lineKey := rfl
@[simp] theorem State.setRegion_hostMem : (s.setRegion k r).hostMem = s.hostMem := rfl
@[simp] theorem State.setRegion_poison : (s.setRegion k r).poison = s.poison := rfl
@[simp] theorem State.setRegion_soft : (s.setRegion k r).soft = s.soft := rfl
@[simp] theorem State.setRegion_linkErrs : (s.setRegion k r).linkErrs = s.linkErrs := rfl
@[simp] theorem State.setRegion_scope : (s.setRegion k r).scope = s.scope := rfl
@[simp] theorem State.setRegion_hubScope : (s.setRegion k r).hubScope = s.hubScope := rfl
@[simp] theorem State.setRegion_grants : (s.setRegion k r).grants = s.grants := rfl
@[simp] theorem State.setRegion_cores : (s.setRegion k r).cores = s.cores := rfl
@[simp] theorem State.setRegion_dies : (s.setRegion k r).dies = s.dies := rfl
@[simp] theorem State.setRegion_waves : (s.setRegion k r).waves = s.waves := rfl
@[simp] theorem State.setRegion_blocks : (s.setRegion k r).blocks = s.blocks := rfl
@[simp] theorem State.setRegion_crews : (s.setRegion k r).crews = s.crews := rfl
@[simp] theorem State.setRegion_pools : (s.setRegion k r).pools = s.pools := rfl
@[simp] theorem State.setRegion_batches : (s.setRegion k r).batches = s.batches := rfl
@[simp] theorem State.setRegion_seqs : (s.setRegion k r).seqs = s.seqs := rfl
@[simp] theorem State.setRegion_refs : (s.setRegion k r).refs = s.refs := rfl
@[simp] theorem State.setRegion_retention : (s.setRegion k r).retention = s.retention := rfl
@[simp] theorem State.setRegion_particles : (s.setRegion k r).particles = s.particles := rfl
@[simp] theorem State.setRegion_pops : (s.setRegion k r).pops = s.pops := rfl
@[simp] theorem State.setRegion_popsel : (s.setRegion k r).popsel = s.popsel := rfl
@[simp] theorem State.setRegion_ctxs : (s.setRegion k r).ctxs = s.ctxs := rfl
@[simp] theorem State.setRegion_ctxfn : (s.setRegion k r).ctxfn = s.ctxfn := rfl
@[simp] theorem State.setRegion_queues : (s.setRegion k r).queues = s.queues := rfl
@[simp] theorem State.setRegion_slots : (s.setRegion k r).slots = s.slots := rfl
@[simp] theorem State.setRegion_failedSlots : (s.setRegion k r).failedSlots = s.failedSlots := rfl
@[simp] theorem State.setRegion_satisfied : (s.setRegion k r).satisfied = s.satisfied := rfl
@[simp] theorem State.setRegion_launches : (s.setRegion k r).launches = s.launches := rfl
@[simp] theorem State.setRegion_gangs : (s.setRegion k r).gangs = s.gangs := rfl
@[simp] theorem State.setRegion_saves : (s.setRegion k r).saves = s.saves := rfl
@[simp] theorem State.setRegion_reqs : (s.setRegion k r).reqs = s.reqs := rfl
@[simp] theorem State.setRegion_frozenEngines : (s.setRegion k r).frozenEngines = s.frozenEngines := rfl
@[simp] theorem State.setRegion_swaths : (s.setRegion k r).swaths = s.swaths := rfl
@[simp] theorem State.setRegion_det : (s.setRegion k r).det = s.det := rfl
@[simp] theorem State.setRegion_replay : (s.setRegion k r).replay = s.replay := rfl
@[simp] theorem State.setRegion_heldSys : (s.setRegion k r).heldSys = s.heldSys := rfl
@[simp] theorem State.setRegion_fns : (s.setRegion k r).fns = s.fns := rfl
@[simp] theorem State.setRegion_apertures : (s.setRegion k r).apertures = s.apertures := rfl
@[simp] theorem State.setRegion_ports : (s.setRegion k r).ports = s.ports := rfl
@[simp] theorem State.setRegion_peerOps : (s.setRegion k r).peerOps = s.peerOps := rfl
@[simp] theorem State.setRegion_hostOut : (s.setRegion k r).hostOut = s.hostOut := rfl
@[simp] theorem State.setRegion_sec : (s.setRegion k r).sec = s.sec := rfl

end

/-! ### `modCtx` -/

section
variable (s : State) (k : Nat) (f : Context → Context)

@[simp] theorem State.modCtx_agenda : (s.modCtx k f).agenda = s.agenda := rfl
@[simp] theorem State.modCtx_picked : (s.modCtx k f).picked = s.picked := rfl
@[simp] theorem State.modCtx_cur : (s.modCtx k f).cur = s.cur := rfl
@[simp] theorem State.modCtx_free : (s.modCtx k f).free = s.free := rfl
@[simp] theorem State.modCtx_mem : (s.modCtx k f).mem = s.mem := rfl
@[simp] theorem State.modCtx_lineKey : (s.modCtx k f).lineKey = s.lineKey := rfl
@[simp] theorem State.modCtx_hostMem : (s.modCtx k f).hostMem = s.hostMem := rfl
@[simp] theorem State.modCtx_poison : (s.modCtx k f).poison = s.poison := rfl
@[simp] theorem State.modCtx_soft : (s.modCtx k f).soft = s.soft := rfl
@[simp] theorem State.modCtx_linkErrs : (s.modCtx k f).linkErrs = s.linkErrs := rfl
@[simp] theorem State.modCtx_scope : (s.modCtx k f).scope = s.scope := rfl
@[simp] theorem State.modCtx_hubScope : (s.modCtx k f).hubScope = s.hubScope := rfl
@[simp] theorem State.modCtx_grants : (s.modCtx k f).grants = s.grants := rfl
@[simp] theorem State.modCtx_cores : (s.modCtx k f).cores = s.cores := rfl
@[simp] theorem State.modCtx_dies : (s.modCtx k f).dies = s.dies := rfl
@[simp] theorem State.modCtx_waves : (s.modCtx k f).waves = s.waves := rfl
@[simp] theorem State.modCtx_blocks : (s.modCtx k f).blocks = s.blocks := rfl
@[simp] theorem State.modCtx_crews : (s.modCtx k f).crews = s.crews := rfl
@[simp] theorem State.modCtx_regions : (s.modCtx k f).regions = s.regions := rfl
@[simp] theorem State.modCtx_pools : (s.modCtx k f).pools = s.pools := rfl
@[simp] theorem State.modCtx_batches : (s.modCtx k f).batches = s.batches := rfl
@[simp] theorem State.modCtx_seqs : (s.modCtx k f).seqs = s.seqs := rfl
@[simp] theorem State.modCtx_refs : (s.modCtx k f).refs = s.refs := rfl
@[simp] theorem State.modCtx_retention : (s.modCtx k f).retention = s.retention := rfl
@[simp] theorem State.modCtx_particles : (s.modCtx k f).particles = s.particles := rfl
@[simp] theorem State.modCtx_pops : (s.modCtx k f).pops = s.pops := rfl
@[simp] theorem State.modCtx_popsel : (s.modCtx k f).popsel = s.popsel := rfl
@[simp] theorem State.modCtx_ctxfn : (s.modCtx k f).ctxfn = s.ctxfn := rfl
@[simp] theorem State.modCtx_queues : (s.modCtx k f).queues = s.queues := rfl
@[simp] theorem State.modCtx_slots : (s.modCtx k f).slots = s.slots := rfl
@[simp] theorem State.modCtx_failedSlots : (s.modCtx k f).failedSlots = s.failedSlots := rfl
@[simp] theorem State.modCtx_satisfied : (s.modCtx k f).satisfied = s.satisfied := rfl
@[simp] theorem State.modCtx_launches : (s.modCtx k f).launches = s.launches := rfl
@[simp] theorem State.modCtx_gangs : (s.modCtx k f).gangs = s.gangs := rfl
@[simp] theorem State.modCtx_saves : (s.modCtx k f).saves = s.saves := rfl
@[simp] theorem State.modCtx_reqs : (s.modCtx k f).reqs = s.reqs := rfl
@[simp] theorem State.modCtx_frozenEngines : (s.modCtx k f).frozenEngines = s.frozenEngines := rfl
@[simp] theorem State.modCtx_swaths : (s.modCtx k f).swaths = s.swaths := rfl
@[simp] theorem State.modCtx_det : (s.modCtx k f).det = s.det := rfl
@[simp] theorem State.modCtx_replay : (s.modCtx k f).replay = s.replay := rfl
@[simp] theorem State.modCtx_heldSys : (s.modCtx k f).heldSys = s.heldSys := rfl
@[simp] theorem State.modCtx_fns : (s.modCtx k f).fns = s.fns := rfl
@[simp] theorem State.modCtx_apertures : (s.modCtx k f).apertures = s.apertures := rfl
@[simp] theorem State.modCtx_ports : (s.modCtx k f).ports = s.ports := rfl
@[simp] theorem State.modCtx_peerOps : (s.modCtx k f).peerOps = s.peerOps := rfl
@[simp] theorem State.modCtx_hostOut : (s.modCtx k f).hostOut = s.hostOut := rfl
@[simp] theorem State.modCtx_sec : (s.modCtx k f).sec = s.sec := rfl

end

/-! ### `modFn` -/

section
variable (s : State) (k : Nat) (f : HostFn → HostFn)

@[simp] theorem State.modFn_agenda : (s.modFn k f).agenda = s.agenda := rfl
@[simp] theorem State.modFn_picked : (s.modFn k f).picked = s.picked := rfl
@[simp] theorem State.modFn_cur : (s.modFn k f).cur = s.cur := rfl
@[simp] theorem State.modFn_free : (s.modFn k f).free = s.free := rfl
@[simp] theorem State.modFn_mem : (s.modFn k f).mem = s.mem := rfl
@[simp] theorem State.modFn_lineKey : (s.modFn k f).lineKey = s.lineKey := rfl
@[simp] theorem State.modFn_hostMem : (s.modFn k f).hostMem = s.hostMem := rfl
@[simp] theorem State.modFn_poison : (s.modFn k f).poison = s.poison := rfl
@[simp] theorem State.modFn_soft : (s.modFn k f).soft = s.soft := rfl
@[simp] theorem State.modFn_linkErrs : (s.modFn k f).linkErrs = s.linkErrs := rfl
@[simp] theorem State.modFn_scope : (s.modFn k f).scope = s.scope := rfl
@[simp] theorem State.modFn_hubScope : (s.modFn k f).hubScope = s.hubScope := rfl
@[simp] theorem State.modFn_grants : (s.modFn k f).grants = s.grants := rfl
@[simp] theorem State.modFn_cores : (s.modFn k f).cores = s.cores := rfl
@[simp] theorem State.modFn_dies : (s.modFn k f).dies = s.dies := rfl
@[simp] theorem State.modFn_waves : (s.modFn k f).waves = s.waves := rfl
@[simp] theorem State.modFn_blocks : (s.modFn k f).blocks = s.blocks := rfl
@[simp] theorem State.modFn_crews : (s.modFn k f).crews = s.crews := rfl
@[simp] theorem State.modFn_regions : (s.modFn k f).regions = s.regions := rfl
@[simp] theorem State.modFn_pools : (s.modFn k f).pools = s.pools := rfl
@[simp] theorem State.modFn_batches : (s.modFn k f).batches = s.batches := rfl
@[simp] theorem State.modFn_seqs : (s.modFn k f).seqs = s.seqs := rfl
@[simp] theorem State.modFn_refs : (s.modFn k f).refs = s.refs := rfl
@[simp] theorem State.modFn_retention : (s.modFn k f).retention = s.retention := rfl
@[simp] theorem State.modFn_particles : (s.modFn k f).particles = s.particles := rfl
@[simp] theorem State.modFn_pops : (s.modFn k f).pops = s.pops := rfl
@[simp] theorem State.modFn_popsel : (s.modFn k f).popsel = s.popsel := rfl
@[simp] theorem State.modFn_ctxs : (s.modFn k f).ctxs = s.ctxs := rfl
@[simp] theorem State.modFn_ctxfn : (s.modFn k f).ctxfn = s.ctxfn := rfl
@[simp] theorem State.modFn_queues : (s.modFn k f).queues = s.queues := rfl
@[simp] theorem State.modFn_slots : (s.modFn k f).slots = s.slots := rfl
@[simp] theorem State.modFn_failedSlots : (s.modFn k f).failedSlots = s.failedSlots := rfl
@[simp] theorem State.modFn_satisfied : (s.modFn k f).satisfied = s.satisfied := rfl
@[simp] theorem State.modFn_launches : (s.modFn k f).launches = s.launches := rfl
@[simp] theorem State.modFn_gangs : (s.modFn k f).gangs = s.gangs := rfl
@[simp] theorem State.modFn_saves : (s.modFn k f).saves = s.saves := rfl
@[simp] theorem State.modFn_reqs : (s.modFn k f).reqs = s.reqs := rfl
@[simp] theorem State.modFn_frozenEngines : (s.modFn k f).frozenEngines = s.frozenEngines := rfl
@[simp] theorem State.modFn_swaths : (s.modFn k f).swaths = s.swaths := rfl
@[simp] theorem State.modFn_det : (s.modFn k f).det = s.det := rfl
@[simp] theorem State.modFn_replay : (s.modFn k f).replay = s.replay := rfl
@[simp] theorem State.modFn_heldSys : (s.modFn k f).heldSys = s.heldSys := rfl
@[simp] theorem State.modFn_apertures : (s.modFn k f).apertures = s.apertures := rfl
@[simp] theorem State.modFn_ports : (s.modFn k f).ports = s.ports := rfl
@[simp] theorem State.modFn_peerOps : (s.modFn k f).peerOps = s.peerOps := rfl
@[simp] theorem State.modFn_hostOut : (s.modFn k f).hostOut = s.hostOut := rfl
@[simp] theorem State.modFn_sec : (s.modFn k f).sec = s.sec := rfl

end

/-! ### `modQueue` -/

section
variable (s : State) (c k : Nat) (f : Queue → Queue)

@[simp] theorem State.modQueue_agenda : (s.modQueue c k f).agenda = s.agenda := rfl
@[simp] theorem State.modQueue_picked : (s.modQueue c k f).picked = s.picked := rfl
@[simp] theorem State.modQueue_cur : (s.modQueue c k f).cur = s.cur := rfl
@[simp] theorem State.modQueue_free : (s.modQueue c k f).free = s.free := rfl
@[simp] theorem State.modQueue_mem : (s.modQueue c k f).mem = s.mem := rfl
@[simp] theorem State.modQueue_lineKey : (s.modQueue c k f).lineKey = s.lineKey := rfl
@[simp] theorem State.modQueue_hostMem : (s.modQueue c k f).hostMem = s.hostMem := rfl
@[simp] theorem State.modQueue_poison : (s.modQueue c k f).poison = s.poison := rfl
@[simp] theorem State.modQueue_soft : (s.modQueue c k f).soft = s.soft := rfl
@[simp] theorem State.modQueue_linkErrs : (s.modQueue c k f).linkErrs = s.linkErrs := rfl
@[simp] theorem State.modQueue_scope : (s.modQueue c k f).scope = s.scope := rfl
@[simp] theorem State.modQueue_hubScope : (s.modQueue c k f).hubScope = s.hubScope := rfl
@[simp] theorem State.modQueue_grants : (s.modQueue c k f).grants = s.grants := rfl
@[simp] theorem State.modQueue_cores : (s.modQueue c k f).cores = s.cores := rfl
@[simp] theorem State.modQueue_dies : (s.modQueue c k f).dies = s.dies := rfl
@[simp] theorem State.modQueue_waves : (s.modQueue c k f).waves = s.waves := rfl
@[simp] theorem State.modQueue_blocks : (s.modQueue c k f).blocks = s.blocks := rfl
@[simp] theorem State.modQueue_crews : (s.modQueue c k f).crews = s.crews := rfl
@[simp] theorem State.modQueue_regions : (s.modQueue c k f).regions = s.regions := rfl
@[simp] theorem State.modQueue_pools : (s.modQueue c k f).pools = s.pools := rfl
@[simp] theorem State.modQueue_batches : (s.modQueue c k f).batches = s.batches := rfl
@[simp] theorem State.modQueue_seqs : (s.modQueue c k f).seqs = s.seqs := rfl
@[simp] theorem State.modQueue_refs : (s.modQueue c k f).refs = s.refs := rfl
@[simp] theorem State.modQueue_retention : (s.modQueue c k f).retention = s.retention := rfl
@[simp] theorem State.modQueue_particles : (s.modQueue c k f).particles = s.particles := rfl
@[simp] theorem State.modQueue_pops : (s.modQueue c k f).pops = s.pops := rfl
@[simp] theorem State.modQueue_popsel : (s.modQueue c k f).popsel = s.popsel := rfl
@[simp] theorem State.modQueue_ctxs : (s.modQueue c k f).ctxs = s.ctxs := rfl
@[simp] theorem State.modQueue_ctxfn : (s.modQueue c k f).ctxfn = s.ctxfn := rfl
@[simp] theorem State.modQueue_slots : (s.modQueue c k f).slots = s.slots := rfl
@[simp] theorem State.modQueue_failedSlots : (s.modQueue c k f).failedSlots = s.failedSlots := rfl
@[simp] theorem State.modQueue_satisfied : (s.modQueue c k f).satisfied = s.satisfied := rfl
@[simp] theorem State.modQueue_launches : (s.modQueue c k f).launches = s.launches := rfl
@[simp] theorem State.modQueue_gangs : (s.modQueue c k f).gangs = s.gangs := rfl
@[simp] theorem State.modQueue_saves : (s.modQueue c k f).saves = s.saves := rfl
@[simp] theorem State.modQueue_reqs : (s.modQueue c k f).reqs = s.reqs := rfl
@[simp] theorem State.modQueue_frozenEngines : (s.modQueue c k f).frozenEngines = s.frozenEngines := rfl
@[simp] theorem State.modQueue_swaths : (s.modQueue c k f).swaths = s.swaths := rfl
@[simp] theorem State.modQueue_det : (s.modQueue c k f).det = s.det := rfl
@[simp] theorem State.modQueue_replay : (s.modQueue c k f).replay = s.replay := rfl
@[simp] theorem State.modQueue_heldSys : (s.modQueue c k f).heldSys = s.heldSys := rfl
@[simp] theorem State.modQueue_fns : (s.modQueue c k f).fns = s.fns := rfl
@[simp] theorem State.modQueue_apertures : (s.modQueue c k f).apertures = s.apertures := rfl
@[simp] theorem State.modQueue_ports : (s.modQueue c k f).ports = s.ports := rfl
@[simp] theorem State.modQueue_peerOps : (s.modQueue c k f).peerOps = s.peerOps := rfl
@[simp] theorem State.modQueue_hostOut : (s.modQueue c k f).hostOut = s.hostOut := rfl
@[simp] theorem State.modQueue_sec : (s.modQueue c k f).sec = s.sec := rfl

end

/-! ### `modPool` -/

section
variable (s : State) (k : Nat) (f : Pool → Pool)

@[simp] theorem State.modPool_agenda : (s.modPool k f).agenda = s.agenda := rfl
@[simp] theorem State.modPool_picked : (s.modPool k f).picked = s.picked := rfl
@[simp] theorem State.modPool_cur : (s.modPool k f).cur = s.cur := rfl
@[simp] theorem State.modPool_free : (s.modPool k f).free = s.free := rfl
@[simp] theorem State.modPool_mem : (s.modPool k f).mem = s.mem := rfl
@[simp] theorem State.modPool_lineKey : (s.modPool k f).lineKey = s.lineKey := rfl
@[simp] theorem State.modPool_hostMem : (s.modPool k f).hostMem = s.hostMem := rfl
@[simp] theorem State.modPool_poison : (s.modPool k f).poison = s.poison := rfl
@[simp] theorem State.modPool_soft : (s.modPool k f).soft = s.soft := rfl
@[simp] theorem State.modPool_linkErrs : (s.modPool k f).linkErrs = s.linkErrs := rfl
@[simp] theorem State.modPool_scope : (s.modPool k f).scope = s.scope := rfl
@[simp] theorem State.modPool_hubScope : (s.modPool k f).hubScope = s.hubScope := rfl
@[simp] theorem State.modPool_grants : (s.modPool k f).grants = s.grants := rfl
@[simp] theorem State.modPool_cores : (s.modPool k f).cores = s.cores := rfl
@[simp] theorem State.modPool_dies : (s.modPool k f).dies = s.dies := rfl
@[simp] theorem State.modPool_waves : (s.modPool k f).waves = s.waves := rfl
@[simp] theorem State.modPool_blocks : (s.modPool k f).blocks = s.blocks := rfl
@[simp] theorem State.modPool_crews : (s.modPool k f).crews = s.crews := rfl
@[simp] theorem State.modPool_regions : (s.modPool k f).regions = s.regions := rfl
@[simp] theorem State.modPool_batches : (s.modPool k f).batches = s.batches := rfl
@[simp] theorem State.modPool_seqs : (s.modPool k f).seqs = s.seqs := rfl
@[simp] theorem State.modPool_refs : (s.modPool k f).refs = s.refs := rfl
@[simp] theorem State.modPool_retention : (s.modPool k f).retention = s.retention := rfl
@[simp] theorem State.modPool_particles : (s.modPool k f).particles = s.particles := rfl
@[simp] theorem State.modPool_pops : (s.modPool k f).pops = s.pops := rfl
@[simp] theorem State.modPool_popsel : (s.modPool k f).popsel = s.popsel := rfl
@[simp] theorem State.modPool_ctxs : (s.modPool k f).ctxs = s.ctxs := rfl
@[simp] theorem State.modPool_ctxfn : (s.modPool k f).ctxfn = s.ctxfn := rfl
@[simp] theorem State.modPool_queues : (s.modPool k f).queues = s.queues := rfl
@[simp] theorem State.modPool_slots : (s.modPool k f).slots = s.slots := rfl
@[simp] theorem State.modPool_failedSlots : (s.modPool k f).failedSlots = s.failedSlots := rfl
@[simp] theorem State.modPool_satisfied : (s.modPool k f).satisfied = s.satisfied := rfl
@[simp] theorem State.modPool_launches : (s.modPool k f).launches = s.launches := rfl
@[simp] theorem State.modPool_gangs : (s.modPool k f).gangs = s.gangs := rfl
@[simp] theorem State.modPool_saves : (s.modPool k f).saves = s.saves := rfl
@[simp] theorem State.modPool_reqs : (s.modPool k f).reqs = s.reqs := rfl
@[simp] theorem State.modPool_frozenEngines : (s.modPool k f).frozenEngines = s.frozenEngines := rfl
@[simp] theorem State.modPool_swaths : (s.modPool k f).swaths = s.swaths := rfl
@[simp] theorem State.modPool_det : (s.modPool k f).det = s.det := rfl
@[simp] theorem State.modPool_replay : (s.modPool k f).replay = s.replay := rfl
@[simp] theorem State.modPool_heldSys : (s.modPool k f).heldSys = s.heldSys := rfl
@[simp] theorem State.modPool_fns : (s.modPool k f).fns = s.fns := rfl
@[simp] theorem State.modPool_apertures : (s.modPool k f).apertures = s.apertures := rfl
@[simp] theorem State.modPool_ports : (s.modPool k f).ports = s.ports := rfl
@[simp] theorem State.modPool_peerOps : (s.modPool k f).peerOps = s.peerOps := rfl
@[simp] theorem State.modPool_hostOut : (s.modPool k f).hostOut = s.hostOut := rfl
@[simp] theorem State.modPool_sec : (s.modPool k f).sec = s.sec := rfl

end

/-! ### `modParticle` -/

section
variable (s : State) (k : Nat) (f : Particle → Particle)

@[simp] theorem State.modParticle_agenda : (s.modParticle k f).agenda = s.agenda := rfl
@[simp] theorem State.modParticle_picked : (s.modParticle k f).picked = s.picked := rfl
@[simp] theorem State.modParticle_cur : (s.modParticle k f).cur = s.cur := rfl
@[simp] theorem State.modParticle_free : (s.modParticle k f).free = s.free := rfl
@[simp] theorem State.modParticle_mem : (s.modParticle k f).mem = s.mem := rfl
@[simp] theorem State.modParticle_lineKey : (s.modParticle k f).lineKey = s.lineKey := rfl
@[simp] theorem State.modParticle_hostMem : (s.modParticle k f).hostMem = s.hostMem := rfl
@[simp] theorem State.modParticle_poison : (s.modParticle k f).poison = s.poison := rfl
@[simp] theorem State.modParticle_soft : (s.modParticle k f).soft = s.soft := rfl
@[simp] theorem State.modParticle_linkErrs : (s.modParticle k f).linkErrs = s.linkErrs := rfl
@[simp] theorem State.modParticle_scope : (s.modParticle k f).scope = s.scope := rfl
@[simp] theorem State.modParticle_hubScope : (s.modParticle k f).hubScope = s.hubScope := rfl
@[simp] theorem State.modParticle_grants : (s.modParticle k f).grants = s.grants := rfl
@[simp] theorem State.modParticle_cores : (s.modParticle k f).cores = s.cores := rfl
@[simp] theorem State.modParticle_dies : (s.modParticle k f).dies = s.dies := rfl
@[simp] theorem State.modParticle_waves : (s.modParticle k f).waves = s.waves := rfl
@[simp] theorem State.modParticle_blocks : (s.modParticle k f).blocks = s.blocks := rfl
@[simp] theorem State.modParticle_crews : (s.modParticle k f).crews = s.crews := rfl
@[simp] theorem State.modParticle_regions : (s.modParticle k f).regions = s.regions := rfl
@[simp] theorem State.modParticle_pools : (s.modParticle k f).pools = s.pools := rfl
@[simp] theorem State.modParticle_batches : (s.modParticle k f).batches = s.batches := rfl
@[simp] theorem State.modParticle_seqs : (s.modParticle k f).seqs = s.seqs := rfl
@[simp] theorem State.modParticle_refs : (s.modParticle k f).refs = s.refs := rfl
@[simp] theorem State.modParticle_retention : (s.modParticle k f).retention = s.retention := rfl
@[simp] theorem State.modParticle_pops : (s.modParticle k f).pops = s.pops := rfl
@[simp] theorem State.modParticle_popsel : (s.modParticle k f).popsel = s.popsel := rfl
@[simp] theorem State.modParticle_ctxs : (s.modParticle k f).ctxs = s.ctxs := rfl
@[simp] theorem State.modParticle_ctxfn : (s.modParticle k f).ctxfn = s.ctxfn := rfl
@[simp] theorem State.modParticle_queues : (s.modParticle k f).queues = s.queues := rfl
@[simp] theorem State.modParticle_slots : (s.modParticle k f).slots = s.slots := rfl
@[simp] theorem State.modParticle_failedSlots : (s.modParticle k f).failedSlots = s.failedSlots := rfl
@[simp] theorem State.modParticle_satisfied : (s.modParticle k f).satisfied = s.satisfied := rfl
@[simp] theorem State.modParticle_launches : (s.modParticle k f).launches = s.launches := rfl
@[simp] theorem State.modParticle_gangs : (s.modParticle k f).gangs = s.gangs := rfl
@[simp] theorem State.modParticle_saves : (s.modParticle k f).saves = s.saves := rfl
@[simp] theorem State.modParticle_reqs : (s.modParticle k f).reqs = s.reqs := rfl
@[simp] theorem State.modParticle_frozenEngines : (s.modParticle k f).frozenEngines = s.frozenEngines := rfl
@[simp] theorem State.modParticle_swaths : (s.modParticle k f).swaths = s.swaths := rfl
@[simp] theorem State.modParticle_det : (s.modParticle k f).det = s.det := rfl
@[simp] theorem State.modParticle_replay : (s.modParticle k f).replay = s.replay := rfl
@[simp] theorem State.modParticle_heldSys : (s.modParticle k f).heldSys = s.heldSys := rfl
@[simp] theorem State.modParticle_fns : (s.modParticle k f).fns = s.fns := rfl
@[simp] theorem State.modParticle_apertures : (s.modParticle k f).apertures = s.apertures := rfl
@[simp] theorem State.modParticle_ports : (s.modParticle k f).ports = s.ports := rfl
@[simp] theorem State.modParticle_peerOps : (s.modParticle k f).peerOps = s.peerOps := rfl
@[simp] theorem State.modParticle_hostOut : (s.modParticle k f).hostOut = s.hostOut := rfl
@[simp] theorem State.modParticle_sec : (s.modParticle k f).sec = s.sec := rfl

end

/-! ### `modPop` -/

section
variable (s : State) (k : Nat) (f : Pop → Pop)

@[simp] theorem State.modPop_agenda : (s.modPop k f).agenda = s.agenda := rfl
@[simp] theorem State.modPop_picked : (s.modPop k f).picked = s.picked := rfl
@[simp] theorem State.modPop_cur : (s.modPop k f).cur = s.cur := rfl
@[simp] theorem State.modPop_free : (s.modPop k f).free = s.free := rfl
@[simp] theorem State.modPop_mem : (s.modPop k f).mem = s.mem := rfl
@[simp] theorem State.modPop_lineKey : (s.modPop k f).lineKey = s.lineKey := rfl
@[simp] theorem State.modPop_hostMem : (s.modPop k f).hostMem = s.hostMem := rfl
@[simp] theorem State.modPop_poison : (s.modPop k f).poison = s.poison := rfl
@[simp] theorem State.modPop_soft : (s.modPop k f).soft = s.soft := rfl
@[simp] theorem State.modPop_linkErrs : (s.modPop k f).linkErrs = s.linkErrs := rfl
@[simp] theorem State.modPop_scope : (s.modPop k f).scope = s.scope := rfl
@[simp] theorem State.modPop_hubScope : (s.modPop k f).hubScope = s.hubScope := rfl
@[simp] theorem State.modPop_grants : (s.modPop k f).grants = s.grants := rfl
@[simp] theorem State.modPop_cores : (s.modPop k f).cores = s.cores := rfl
@[simp] theorem State.modPop_dies : (s.modPop k f).dies = s.dies := rfl
@[simp] theorem State.modPop_waves : (s.modPop k f).waves = s.waves := rfl
@[simp] theorem State.modPop_blocks : (s.modPop k f).blocks = s.blocks := rfl
@[simp] theorem State.modPop_crews : (s.modPop k f).crews = s.crews := rfl
@[simp] theorem State.modPop_regions : (s.modPop k f).regions = s.regions := rfl
@[simp] theorem State.modPop_pools : (s.modPop k f).pools = s.pools := rfl
@[simp] theorem State.modPop_batches : (s.modPop k f).batches = s.batches := rfl
@[simp] theorem State.modPop_seqs : (s.modPop k f).seqs = s.seqs := rfl
@[simp] theorem State.modPop_refs : (s.modPop k f).refs = s.refs := rfl
@[simp] theorem State.modPop_retention : (s.modPop k f).retention = s.retention := rfl
@[simp] theorem State.modPop_particles : (s.modPop k f).particles = s.particles := rfl
@[simp] theorem State.modPop_popsel : (s.modPop k f).popsel = s.popsel := rfl
@[simp] theorem State.modPop_ctxs : (s.modPop k f).ctxs = s.ctxs := rfl
@[simp] theorem State.modPop_ctxfn : (s.modPop k f).ctxfn = s.ctxfn := rfl
@[simp] theorem State.modPop_queues : (s.modPop k f).queues = s.queues := rfl
@[simp] theorem State.modPop_slots : (s.modPop k f).slots = s.slots := rfl
@[simp] theorem State.modPop_failedSlots : (s.modPop k f).failedSlots = s.failedSlots := rfl
@[simp] theorem State.modPop_satisfied : (s.modPop k f).satisfied = s.satisfied := rfl
@[simp] theorem State.modPop_launches : (s.modPop k f).launches = s.launches := rfl
@[simp] theorem State.modPop_gangs : (s.modPop k f).gangs = s.gangs := rfl
@[simp] theorem State.modPop_saves : (s.modPop k f).saves = s.saves := rfl
@[simp] theorem State.modPop_reqs : (s.modPop k f).reqs = s.reqs := rfl
@[simp] theorem State.modPop_frozenEngines : (s.modPop k f).frozenEngines = s.frozenEngines := rfl
@[simp] theorem State.modPop_swaths : (s.modPop k f).swaths = s.swaths := rfl
@[simp] theorem State.modPop_det : (s.modPop k f).det = s.det := rfl
@[simp] theorem State.modPop_replay : (s.modPop k f).replay = s.replay := rfl
@[simp] theorem State.modPop_heldSys : (s.modPop k f).heldSys = s.heldSys := rfl
@[simp] theorem State.modPop_fns : (s.modPop k f).fns = s.fns := rfl
@[simp] theorem State.modPop_apertures : (s.modPop k f).apertures = s.apertures := rfl
@[simp] theorem State.modPop_ports : (s.modPop k f).ports = s.ports := rfl
@[simp] theorem State.modPop_peerOps : (s.modPop k f).peerOps = s.peerOps := rfl
@[simp] theorem State.modPop_hostOut : (s.modPop k f).hostOut = s.hostOut := rfl
@[simp] theorem State.modPop_sec : (s.modPop k f).sec = s.sec := rfl

end

/-! ### `modPort` -/

section
variable (s : State) (k : Nat) (f : Port → Port)

@[simp] theorem State.modPort_agenda : (s.modPort k f).agenda = s.agenda := rfl
@[simp] theorem State.modPort_picked : (s.modPort k f).picked = s.picked := rfl
@[simp] theorem State.modPort_cur : (s.modPort k f).cur = s.cur := rfl
@[simp] theorem State.modPort_free : (s.modPort k f).free = s.free := rfl
@[simp] theorem State.modPort_mem : (s.modPort k f).mem = s.mem := rfl
@[simp] theorem State.modPort_lineKey : (s.modPort k f).lineKey = s.lineKey := rfl
@[simp] theorem State.modPort_hostMem : (s.modPort k f).hostMem = s.hostMem := rfl
@[simp] theorem State.modPort_poison : (s.modPort k f).poison = s.poison := rfl
@[simp] theorem State.modPort_soft : (s.modPort k f).soft = s.soft := rfl
@[simp] theorem State.modPort_linkErrs : (s.modPort k f).linkErrs = s.linkErrs := rfl
@[simp] theorem State.modPort_scope : (s.modPort k f).scope = s.scope := rfl
@[simp] theorem State.modPort_hubScope : (s.modPort k f).hubScope = s.hubScope := rfl
@[simp] theorem State.modPort_grants : (s.modPort k f).grants = s.grants := rfl
@[simp] theorem State.modPort_cores : (s.modPort k f).cores = s.cores := rfl
@[simp] theorem State.modPort_dies : (s.modPort k f).dies = s.dies := rfl
@[simp] theorem State.modPort_waves : (s.modPort k f).waves = s.waves := rfl
@[simp] theorem State.modPort_blocks : (s.modPort k f).blocks = s.blocks := rfl
@[simp] theorem State.modPort_crews : (s.modPort k f).crews = s.crews := rfl
@[simp] theorem State.modPort_regions : (s.modPort k f).regions = s.regions := rfl
@[simp] theorem State.modPort_pools : (s.modPort k f).pools = s.pools := rfl
@[simp] theorem State.modPort_batches : (s.modPort k f).batches = s.batches := rfl
@[simp] theorem State.modPort_seqs : (s.modPort k f).seqs = s.seqs := rfl
@[simp] theorem State.modPort_refs : (s.modPort k f).refs = s.refs := rfl
@[simp] theorem State.modPort_retention : (s.modPort k f).retention = s.retention := rfl
@[simp] theorem State.modPort_particles : (s.modPort k f).particles = s.particles := rfl
@[simp] theorem State.modPort_pops : (s.modPort k f).pops = s.pops := rfl
@[simp] theorem State.modPort_popsel : (s.modPort k f).popsel = s.popsel := rfl
@[simp] theorem State.modPort_ctxs : (s.modPort k f).ctxs = s.ctxs := rfl
@[simp] theorem State.modPort_ctxfn : (s.modPort k f).ctxfn = s.ctxfn := rfl
@[simp] theorem State.modPort_queues : (s.modPort k f).queues = s.queues := rfl
@[simp] theorem State.modPort_slots : (s.modPort k f).slots = s.slots := rfl
@[simp] theorem State.modPort_failedSlots : (s.modPort k f).failedSlots = s.failedSlots := rfl
@[simp] theorem State.modPort_satisfied : (s.modPort k f).satisfied = s.satisfied := rfl
@[simp] theorem State.modPort_launches : (s.modPort k f).launches = s.launches := rfl
@[simp] theorem State.modPort_gangs : (s.modPort k f).gangs = s.gangs := rfl
@[simp] theorem State.modPort_saves : (s.modPort k f).saves = s.saves := rfl
@[simp] theorem State.modPort_reqs : (s.modPort k f).reqs = s.reqs := rfl
@[simp] theorem State.modPort_frozenEngines : (s.modPort k f).frozenEngines = s.frozenEngines := rfl
@[simp] theorem State.modPort_swaths : (s.modPort k f).swaths = s.swaths := rfl
@[simp] theorem State.modPort_det : (s.modPort k f).det = s.det := rfl
@[simp] theorem State.modPort_replay : (s.modPort k f).replay = s.replay := rfl
@[simp] theorem State.modPort_heldSys : (s.modPort k f).heldSys = s.heldSys := rfl
@[simp] theorem State.modPort_fns : (s.modPort k f).fns = s.fns := rfl
@[simp] theorem State.modPort_apertures : (s.modPort k f).apertures = s.apertures := rfl
@[simp] theorem State.modPort_peerOps : (s.modPort k f).peerOps = s.peerOps := rfl
@[simp] theorem State.modPort_hostOut : (s.modPort k f).hostOut = s.hostOut := rfl
@[simp] theorem State.modPort_sec : (s.modPort k f).sec = s.sec := rfl

end

end Sys2Proof.Machine
end

