-- ==== Sys2Proof/Laws/Swath.lean ====
section
/-! SUPPORT. Swaths: the order of contributions and what a reception takes (R364, R386, R387). -/

namespace Sys2Proof.Machine

theorem insertBy_perm (x : Contribution) : ∀ l : List Contribution, (insertBy x l).Perm (x :: l)
  | [] => .refl _
  | y :: l => by
    unfold insertBy
    split
    · exact .refl _
    · exact ((insertBy_perm x l).cons y).trans (List.Perm.swap x y l)

/-- The order of contributions: block, then wave (R387). -/
def blockOrder (x y : Contribution) : Prop := x.blocklin < y.blocklin ∨ (x.blocklin = y.blocklin ∧ x.waveIdx ≤ y.waveIdx)

/-- Insertion keeps the order. -/
theorem insertBy_sorted (x : Contribution) : ∀ l : List Contribution, l.Pairwise blockOrder → (insertBy x l).Pairwise blockOrder
  | [], _ => by simp [insertBy]
  | y :: l, h => by
    rw [List.pairwise_cons] at h
    unfold insertBy
    split
    · rename_i hb
      have hb : blockOrder x y := by
        unfold Contribution.before at hb
        simp only [Bool.or_eq_true, decide_eq_true_eq, Bool.and_eq_true, beq_iff_eq] at hb
        unfold blockOrder
        omega
      rw [List.pairwise_cons, List.pairwise_cons]
      refine ⟨fun z hz => ?_, h⟩
      rcases List.mem_cons.1 hz with rfl | hz
      · exact hb
      · have := h.1 z hz
        unfold blockOrder at *
        omega
    · rename_i hb
      rw [List.pairwise_cons]
      refine ⟨fun z hz => ?_, insertBy_sorted x l h.2⟩
      rcases List.mem_cons.1 ((insertBy_perm x l).mem_iff.1 hz) with rfl | hz
      · unfold Contribution.before at hb
        simp only [Bool.or_eq_true, decide_eq_true_eq, Bool.and_eq_true, beq_iff_eq] at hb
        unfold blockOrder
        omega
      · exact h.1 z hz

/-- Contributions are folded in the order of block and wave (R387). -/
theorem inBlockOrder_sorts (l : List Contribution) : (inBlockOrder l).Perm l ∧ (inBlockOrder l).Pairwise blockOrder := by
  unfold inBlockOrder
  have : ∀ (l t : List Contribution), t.Pairwise blockOrder → (l.foldl (fun t x => insertBy x t) t).Perm (l ++ t) ∧ (l.foldl (fun t x => insertBy x t) t).Pairwise blockOrder := by
    intro l
    induction l with
    | nil => exact fun t h => ⟨.refl _, h⟩
    | cons x l ih =>
      intro t h
      rw [List.foldl_cons]
      obtain ⟨a, b⟩ := ih (insertBy x t) (insertBy_sorted x t h)
      refine ⟨a.trans ?_, b⟩
      exact ((insertBy_perm x t).append_left l).trans List.perm_middle
  obtain ⟨a, b⟩ := this l [] List.Pairwise.nil
  rw [List.append_nil] at a
  exact ⟨a, b⟩

/-- Writing the rows of a reception: each target takes its row, no other row changes. -/
theorem targetRows_does (elem : Nat × Nat × Nat → Nat → Nat) (hlt : ∀ a j, elem a j < 2 ^ 32) : ∀ (ts : List (Nat × Nat × Nat)) (w : Wave),
    (∃ acc, ts.foldl (fun (w : Wave) a => w.rowSet a.2.1 a.2.2 (elem a)) w = { w with acc := acc }) ∧
    ((∀ a ∈ ts, a.2.2 < 8) → (ts.map (·.2)).Nodup →
      (∀ a ∈ ts, ∀ j, j < 32 → (ts.foldl (fun (w : Wave) a => w.rowSet a.2.1 a.2.2 (elem a)) w).aget a.2.1 a.2.2 j = elem a j) ∧
      ∀ tile row j, row < 8 → j < 32 → (tile, row) ∉ ts.map (·.2) →
        (ts.foldl (fun (w : Wave) a => w.rowSet a.2.1 a.2.2 (elem a)) w).aget tile row j = w.aget tile row j)
  | [], w => ⟨⟨w.acc, rfl⟩, fun _ _ => ⟨fun _ h => absurd h List.not_mem_nil, fun _ _ _ _ _ _ => rfl⟩⟩
  | a :: ts, w => by
    rw [List.foldl_cons]
    obtain ⟨⟨acc, h1⟩, h2⟩ := targetRows_does elem hlt ts (w.rowSet a.2.1 a.2.2 (elem a))
    refine ⟨?_, fun hr hn => ?_⟩
    · obtain ⟨acc0, h0⟩ := Wave.rowSet_parts w a.2.1 a.2.2 (elem a)
      exact ⟨acc, by rw [h1, h0]⟩
    · rw [List.map_cons, List.nodup_cons] at hn
      obtain ⟨h3, h4⟩ := h2 (fun b hb => hr b (List.mem_cons_of_mem _ hb)) hn.2
      have hra := hr a List.mem_cons_self
      refine ⟨fun b hb j hj => ?_, fun tile row j h5 h6 h7 => ?_⟩
      · rcases List.mem_cons.1 hb with rfl | hb
        · rw [h4 _ _ _ hra hj hn.1, Wave.aget_rowSet _ _ _ _ hra hra hj, if_pos ⟨rfl, rfl⟩, Nat.mod_eq_of_lt (hlt _ _)]
        · exact h3 b hb j hj
      · rw [List.map_cons, List.mem_cons, not_or] at h7
        rw [h4 _ _ _ h5 h6 h7.2, Wave.aget_rowSet _ _ _ _ hra h5 h6, if_neg fun h => h7.1 (Prod.ext h.1 h.2)]

/-- What a reception takes (R364, R387). -/
theorem receive_does (x : SwathRecv) (rows : List SwathRow) (w : Wave) :
    (∃ acc, w.receive x rows = { w with acc := acc }) ∧
    ((∀ a ∈ x.targets, a.2.2 < 8) → (x.targets.map (·.2)).Nodup →
      (∀ a ∈ x.targets, ∀ j, j < 32 → (w.receive x rows).aget a.2.1 a.2.2 j =
        ((rows.find? fun (r : SwathRow) => r.lane == a.1).map fun r => (r.elems.getD j 0).toNat).getD 0) ∧
      ∀ tile row j, row < 8 → j < 32 → (tile, row) ∉ x.targets.map (·.2) → (w.receive x rows).aget tile row j = w.aget tile row j) := by
  have := targetRows_does (fun a j => ((match rows.find? fun (r : SwathRow) => r.lane == a.1 with | some r => r.elems | none => []).getD j 0).toNat)
    (fun _ _ => BitVec.isLt _) x.targets w
  obtain ⟨h1, h2⟩ := this
  refine ⟨h1, fun a b => ?_⟩
  obtain ⟨h3, h4⟩ := h2 a b
  refine ⟨fun c hc j hj => ?_, h4⟩
  refine (h3 c hc j hj).trans ?_
  cases rows.find? fun (r : SwathRow) => r.lane == c.1 <;> rfl

/-- A wave without a twin keeps none. -/
theorem twinWid_other {s t : State} {wid : Nat} {w : Wave} (h : ∀ k, k ≠ wid → t.wave k = s.wave k) (htw : s.twinWid wid w = none) :
    t.twinWid wid w = none := by
  unfold State.twinWid at *
  rw [List.find?_eq_none] at *
  intro k hk
  have hk' := htw k hk
  obtain ⟨i, hi, rfl⟩ := List.mem_map.1 hk
  have hi := List.mem_range.1 hi
  rw [h]
  · exact hk'
  · intro e
    have := twinCore_ne (coreOfWave wid)
    unfold coreOfWave at *
    omega

/-- A match on nothing. -/
theorem match_none_eq {f : Nat → State} {u : State} : ∀ {o : Option Nat}, o = none →
    (match o with | none => u | some k => f k) = u
  | none, _ => rfl

end Sys2Proof.Machine
end

