-- ==== Sys2Proof/Machine/Pages.lean ====
section
/-! DEFINITION. What the memory-mapped registers read as: the die control page with its windows (R401, R413, R435, R449, R491,
R502), a core's control page (R492), and the registers that a host function reads through BAR0 (R477, R478, R501, R543, R544, R549,
R550, R553, R561). -/

namespace Sys2Proof.Machine

/-! ### The retention table (R401) -/

/-- A word of a retention entry that holds a range. -/
def Retained.word (x : Retained) (n : Nat) : W64 :=
  BitVec.ofNat 64 (match n with
    | 0 => x.vbase % 2 ^ 57 / 2 ^ 12 * 2 ^ 12
    | 1 => x.owner * 2 ^ 56 + 2 ^ 55 + ofBool x.remote * 2 ^ 54 + (x.units - 1) * 2 ^ 36 + x.lines % 2 ^ 25
    | _ => 0)

/-- A register of a context, as a function reads it: zero where another function holds the context (R543). -/
def State.gated (s : State) (m : Master) (ctx : Nat) (x : W64) : W64 :=
  match m with
  | .fn n => if n = 0 || s.holds n ctx then x else 0
  | .hart _ => x

/-- A word of the retention table, as the hart and the host read it. -/
def State.retainedRead (s : State) (m : Master) (die i word : Nat) : W64 :=
  match Tbl.find s.retention (retKey die i) with
  | some x => s.gated m x.owner (x.word word)
  | none => 0

/-! ### The die control page (R435) -/

/-- A word of a pool as it reads (R449). -/
def State.poolRead (s : State) (die p word : Nat) : W64 :=
  let k := s.pool (poolKey die p)
  match word with
  | 0 => BitVec.ofNat 64 (k.owner * 2 ^ 56 + ofBool k.valid * 2 ^ 55 + ofBool k.borrow * 2 ^ 54 + k.log2ps * 2 ^ 40 + k.lowat * 2 ^ 32 +
      k.npages)
  | 1 => k.vbase
  | _ => s.poolWord2 die p

/-- A word of a particle record as it reads (R502). -/
def Particle.word (p : Particle) (n : Nat) : W64 :=
  BitVec.ofNat 64 (match n with
    | 0 => p.w.toNat * 2 ^ 32 + p.pop * 2 ^ 24 + p.st * 2 ^ 22 + ofBool p.done * 2 ^ 21
    | 1 => p.parent.toNat * 2 ^ 32 + p.seq.toNat
    | 2 => p.gstate.toNat
    | _ => p.index * 2 ^ 32)

/-- A word of a data register of a window: `base` is the offset of the first. -/
def dataWord (base n off : Nat) : Option Nat := (List.range n).find? fun i => off == base + 8 * i

/-- The windows of a die's page, which every function reaches, for what its contexts own. -/
def State.windowRead (s : State) (m : Master) (die off : Nat) : W64 :=
  let d := s.die die
  let region := s.region (4096 * die + d.rwsel.toNat)
  let pool := s.pool (poolKey die d.pwsel.toNat)
  let part := s.particle (65536 * die + d.ptsel.toNat)
  let owned (valid : Bool) (ctx : Nat) (x : W64) : W64 := if valid then s.gated m ctx x else x
  if off = 0x100 then d.rwsel.setWidth 64
  else if off = 0x200 then d.pwsel.setWidth 64
  else if off = 0x300 then d.ptsel.setWidth 64
  else match dataWord 0x108 4 off, dataWord 0x208 3 off, dataWord 0x308 4 off with
    | some i, _, _ => owned region.valid region.owner (region.word i)
    | _, some i, _ => owned pool.valid pool.owner (s.poolRead die d.pwsel.toNat i)
    | _, _, some i => owned (s.pop part.pop).valid (s.pop part.pop).owner (part.word i)
    | _, _, _ => 0

/-- A register of the die control page (R435): of those that are no window's, a function other than 0 reads zero. -/
def State.diePage (s : State) (m : Master) (die off : Nat) : W64 :=
  let d := s.die die
  if 0x100 ≤ off then s.windowRead m die off
  else if !fullMaster m then 0
  else match off with
    | 0x000 => d.cancfg
    | 0x010 => d.scrubper
    | 0x020 => d.errlog0
    | 0x028 => d.errlog1
    | _ => 0

/-- A register of a core's control page, as the hart of its die reads it (R492). -/
def State.corePage (s : State) (core off : Nat) : W64 :=
  let k := s.core core
  if off = 0x020 then k.slotstat
  else if off = 0x040 then k.saveaddr
  else if off = 0x050 then k.preemptstat
  else match dataWord 0x080 8 off with
    | some n => s.savesz core n
    | none => 0

/-! ### BAR0 (R543) -/

/-- A word of a context's descriptor, as a function reads it (R477). -/
def State.descriptorRead (s : State) (fn ctx word : Nat) : W64 :=
  let c := s.ctx ctx
  s.gated (.fn fn) ctx (match word with
    | 0 => c.word0
    | 1 => c.word1
    | 2 => c.word2
    | 3 => c.word3
    | _ => 0)

/-- QBASE, QCTL, QHEAD and QTAIL of a queue, in this order (R478): the function that holds the context reads them. -/
def State.queueRead (s : State) (fn ctx q reg : Nat) : W64 :=
  let x := s.queue ctx q
  if !s.holds fn ctx then 0
  else match reg with
    | 0 => x.qbase
    | 1 => BitVec.ofNat 64 x.log2n
    | 2 => BitVec.ofNat 64 x.head
    | 3 => BitVec.ofNat 64 x.tail
    | _ => 0

/-- A word of the population that POPSEL names (R501). -/
def State.populationRead (s : State) (fn word : Nat) : W64 :=
  let p := s.pop s.popsel.toNat
  if p.valid then s.gated (.fn fn) p.owner (p.word word) else p.word word

/-- The registers of the I/O die that physical function 0 alone reaches: a word of an aperture entry, PEERGRANT and PEERSTAT of a port
(R543, R549, R550, R553). -/
def State.apertureRead (s : State) (fn idx word : Nat) : W64 :=
  let e := Tbl.get s.apertures idx (0, 0)
  if fn ≠ 0 then 0 else if word = 0 then e.1 else if word = 1 then e.2 else 0
def State.grantRead (s : State) (fn port idx : Nat) : W64 := if fn ≠ 0 then 0 else Tbl.get (s.port port).grant idx 0
def State.peerstatRead (s : State) (fn port : Nat) : W64 := if fn ≠ 0 then 0 else (s.port port).peerstat

/-- A BAR0 offset that the spec gives: HWIN, CTXFN, the die control pages (R435, R544, R561). -/
def State.bar0 (s : State) (fn off : Nat) : W64 :=
  if off = 0x1000 then (s.fn fn).hwin
  else if 0x2000 ≤ off ∧ off < 0x2000 + 8 * 256 ∧ off % 8 = 0 then
    if fn ≠ 0 then 0 else (Tbl.get s.ctxfn ((off - 0x2000) / 8) 0).setWidth 64
  else if 0x100000 ≤ off ∧ off < 0x140000 ∧ off % 2 ^ 16 < 4096 then
    s.diePage (.fn fn) ((off - 0x100000) / 2 ^ 16) (off % 2 ^ 16)
  else 0

end Sys2Proof.Machine
end

