-- ==== Sys2Proof/Tests/Slice0.lean ====
section
/-! SUPPORT. Tests: the decoding of words written out from the spec, ill-formed terms that the checks refuse, single steps with
results taken from the spec's worked examples, and for each statement a state and operands that meet its hypotheses. -/

namespace Sys2Proof.Tests

set_option Elab.async false

open Sys2Proof Sys2Proof.Machine

/-- Fields of an S-form word without predicate and lookahead. -/
def fs (d a b c f : Nat) : Fields :=
  { ext := none, la := 0, k := 0, kn := false, d := BitVec.ofNat 8 d, a := BitVec.ofNat 8 a, b := BitVec.ofNat 8 b,
    c := BitVec.ofNat 8 c, f := BitVec.ofNat 14 f }

/-- The word is the encoding of the instruction and decodes to it. -/
def codeOk (x : W64) (i : Instr) : Bool :=
  encode i == [x] && match decode [x] with
    | .ok (j, rest) => i == j && rest == []
    | .error _ => false

def codesOk (l : List (W64 × Instr)) : Bool := l.all fun p => codeOk p.1 p.2

/-- The error that a word gives. -/
def errorOf (l : List W64) : Option DecodeError :=
  match decode l with
  | .ok _ => none
  | .error e => some e

/-! ### Decoding -/

/-- Control words, written out from R82, R106 and their entries. -/
theorem test_decode_control : codesOk [
   (0x0000383838380000, .nop (fs 0xE0 0xE0 0xE0 0xE0 0x0)),
   (0x004038383800C006, .bra (fs 0xE0 0xE0 0xE0 0x03 0x6)),
   (0x0080383838383FFD, .bru (fs 0xE0 0xE0 0xE0 0xE0 0x3FFD)),
   (0x00C0382138380002, .brx (fs 0xE0 0x84 0xE0 0xE0 0x2)),
   (0x0100227838380007, .call (fs 0x89 0xE0 0xE0 0xE0 0x7)),
   (0x0140382278380000, .retn (fs 0xE0 0x89 0xE0 0xE0 0x0)),
   (0x0180383838380000, .exit (fs 0xE0 0xE0 0xE0 0xE0 0x0)),
   (0x01C0383838380123, .trap (fs 0xE0 0xE0 0xE0 0xE0 0x123)),
   (0x0200383838380000, .tret (fs 0xE0 0xE0 0xE0 0xE0 0x0)),
   (0x0200383838380001, .tretSkip (fs 0xE0 0xE0 0xE0 0xE0 0x1)),
   (0x0240383838380000, .yield (fs 0xE0 0xE0 0xE0 0xE0 0x0)),
   (0x0280383A38380000, .sleep (fs 0xE0 0xE8 0xE0 0xE0 0x0)),
   (0x0300207838380000, .cyc (fs 0x81 0xE0 0xE0 0xE0 0x0)),
   (0x034020B838380053, .srrd (fs 0x82 0xE0 0xE0 0xE0 0x53)),
   (0x03803820F8380030, .srwr (fs 0xE0 0x83 0xE0 0xE0 0x30))] = true := by decide +kernel

/-- Integer words, written out from R82, R106 and their entries. -/
theorem test_decode_integer : codesOk [
   (0x04000140B9F800C0, .iadd (fs 0x05 0x02 0xE7 0xE0 0xC0)),
   (0x0440004080F80160, .isub (fs 0x01 0x02 0x03 0xE0 0x160)),
   (0x0480004080F80080, .imul (fs 0x01 0x02 0x03 0xE0 0x80)),
   (0x04C0004080F800C0, .imulh (fs 0x01 0x02 0x03 0xE0 0xC0)),
   (0x05000080C10080C0, .imad (fs 0x02 0x03 0x04 0x02 0xC0)),
   (0x05400080C10181C0, .imadw (fs 0x02 0x03 0x04 0x06 0x1C0)),
   (0x0580004080F800C0, .idiv (fs 0x01 0x02 0x03 0xE0 0xC0)),
   (0x05C0004080F801C0, .irem (fs 0x01 0x02 0x03 0xE0 0x1C0)),
   (0x0600004080F80040, .imin (fs 0x01 0x02 0x03 0xE0 0x40)),
   (0x0640004080F80180, .imax (fs 0x01 0x02 0x03 0xE0 0x180)),
   (0x06800040B83800C0, .iabs (fs 0x01 0x02 0xE0 0xE0 0xC0)),
   (0x06C00040B83800E0, .ineg (fs 0x01 0x02 0xE0 0xE0 0xE0)),
   (0x0700004080C10140, .isad (fs 0x01 0x02 0x03 0x04 0x140)),
   (0x0740004080C10040, .idot4 (fs 0x01 0x02 0x03 0x04 0x40)),
   (0x0780008040F810C0, .icmp (fs 0x02 0x01 0x03 0xE0 0x10C0))] = true := by decide +kernel

/-- Logic words, written out from R82, R106 and their entries. -/
theorem test_decode_logic : codesOk [
   (0x0800004080F80000, .shl (fs 0x01 0x02 0x03 0xE0 0x0)),
   (0x0840008100F80240, .shr (fs 0x02 0x04 0x03 0xE0 0x240)),
   (0x0880004080F80000, .sar (fs 0x01 0x02 0x03 0xE0 0x0)),
   (0x08C00040BC380000, .rot (fs 0x01 0x02 0xF0 0xE0 0x0)),
   (0x0900004080F80000, .and (fs 0x01 0x02 0x03 0xE0 0x0)),
   (0x0940004080F80000, .or (fs 0x01 0x02 0x03 0xE0 0x0)),
   (0x0980008101B80240, .xor (fs 0x02 0x04 0x06 0xE0 0x240)),
   (0x09C00040B8380000, .not (fs 0x01 0x02 0xE0 0xE0 0x0)),
   (0x0A00004080C13280, .lop3 (fs 0x01 0x02 0x03 0x04 0x3280)),
   (0x0A4000A0017800C2, .lea (fs 0x02 0x80 0x05 0xE0 0xC2)),
   (0x0A80004080C14000, .sel (fs 0x01 0x02 0x03 0x05 0x0)),
   (0x0AC0203238380240, .mov (fs 0x80 0xC8 0xE0 0xE0 0x240)),
   (0x0B0000783FCE00C0, .movi (fs 0x01 0xE0 0xFF 0x38 0xC0)),
   (0x0B40004080F80040, .iadds (fs 0x01 0x02 0x03 0xE0 0x40)),
   (0x0B80004080C100C0, .clamp (fs 0x01 0x02 0x03 0x04 0xC0))] = true := by decide +kernel

/-- Predicate words, written out from R82, R106 and their entries. -/
theorem test_decode_predicate : codesOk [
   (0x0C00004080F80007, .kop (fs 0x01 0x02 0x03 0xE0 0x7)),
   (0x0C400040B8380000, .kmov (fs 0x01 0x02 0xE0 0xE0 0x0)),
   (0x0C40016338380001, .kmovFromw (fs 0x05 0x8C 0xE0 0xE0 0x1)),
   (0x0C402040B8780002, .kmovTow (fs 0x81 0x02 0xE1 0xE0 0x2)),
   (0x0C40004278380003, .kmovFromv (fs 0x01 0x09 0xE0 0xE0 0x3)),
   (0x0C40024078380004, .kmovTov (fs 0x09 0x01 0xE0 0xE0 0x4)),
   (0x0C8001F838380000, .ksetAll (fs 0x07 0xE0 0xE0 0xE0 0x0)),
   (0x0C8001F838380001, .ksetNone (fs 0x07 0xE0 0xE0 0xE0 0x1)),
   (0x0C8001F938380002, .ksetBelow (fs 0x07 0xE4 0xE0 0xE0 0x2)),
   (0x0CC02040B8380000, .kcnt (fs 0x81 0x02 0xE0 0xE0 0x0)),
   (0x0D002040B8380000, .kfindFirst (fs 0x81 0x02 0xE0 0xE0 0x0)),
   (0x0D002040B8380001, .kfindLast (fs 0x81 0x02 0xE0 0xE0 0x1))] = true := by decide +kernel

/-- Bits words, written out from R82, R106 and their entries. -/
theorem test_decode_bits : codesOk [
   (0x0E000040B8380000, .popc (fs 0x01 0x02 0xE0 0xE0 0x0)),
   (0x0E400040B8380000, .clz (fs 0x01 0x02 0xE0 0xE0 0x0)),
   (0x0E80008138380240, .ctz (fs 0x02 0x04 0xE0 0xE0 0x240)),
   (0x0EC0004080F80000, .fns (fs 0x01 0x02 0x03 0xE0 0x0)),
   (0x0F000040B8380000, .brev (fs 0x01 0x02 0xE0 0xE0 0x0)),
   (0x0F40004080C100C0, .bfx (fs 0x01 0x02 0x03 0x04 0xC0)),
   (0x0F80004080C10000, .bfi (fs 0x01 0x02 0x03 0x04 0x0)),
   (0x0FC0004080F80000, .bmsk (fs 0x01 0x02 0x03 0xE0 0x0))] = true := by decide +kernel

/-- Float words, written out from R82, R106 and their entries. -/
theorem test_decode_float : codesOk [
   (0x1000004080F80300, .fadd (fs 0x01 0x02 0x03 0xE0 0x300)),
   (0x1040004080F80A80, .fsub (fs 0x01 0x02 0x03 0xE0 0xA80)),
   (0x1080004080F812C0, .fmul (fs 0x01 0x02 0x03 0xE0 0x12C0)),
   (0x10C0004080C11B00, .ffma (fs 0x01 0x02 0x03 0x04 0x1B00)),
   (0x1100004080F80340, .fmin (fs 0x01 0x02 0x03 0xE0 0x340)),
   (0x1140004080F80380, .fmax (fs 0x01 0x02 0x03 0xE0 0x380)),
   (0x1180008040F83B00, .fcmp (fs 0x02 0x01 0x03 0xE0 0x3B00)),
   (0x11C00040B8380280, .fclass (fs 0x01 0x02 0xE0 0xE0 0x280)),
   (0x12000040B8382300, .frnd (fs 0x01 0x02 0xE0 0xE0 0x2300)),
   (0x1240004080F80300, .fdiv (fs 0x01 0x02 0x03 0xE0 0x300)),
   (0x128000C078380300, .fsqrt (fs 0x03 0x01 0xE0 0xE0 0x300)),
   (0x12C00040B8380310, .frcp (fs 0x01 0x02 0xE0 0xE0 0x310)),
   (0x13000040B8380300, .frsq (fs 0x01 0x02 0xE0 0xE0 0x300)),
   (0x13400040B8380300, .fexp2 (fs 0x01 0x02 0xE0 0xE0 0x300)),
   (0x13800040B8380300, .flog2 (fs 0x01 0x02 0xE0 0xE0 0x300)),
   (0x13C00040B8380300, .fsinpi (fs 0x01 0x02 0xE0 0xE0 0x300)),
   (0x14000040B8380300, .fcospi (fs 0x01 0x02 0xE0 0xE0 0x300)),
   (0x1440004080F80300, .fscale (fs 0x01 0x02 0x03 0xE0 0x300)),
   (0x14800040B8380300, .fgetx (fs 0x01 0x02 0xE0 0xE0 0x300)),
   (0x14C00040B8380300, .fgetm (fs 0x01 0x02 0xE0 0xE0 0x300)),
   (0x1500004080C10380, .fdot2 (fs 0x01 0x02 0x03 0x04 0x380)),
   (0x1540008138380300, .sumc (fs 0x02 0x04 0xE0 0xE0 0x300))] = true := by decide +kernel

/-- Conversion words, written out from R82, R106 and their entries. -/
theorem test_decode_conversion : codesOk [
   (0x18000040B83808CC, .cvt (fs 0x01 0x02 0xE0 0xE0 0x8CC)),
   (0x1840004080F803EC, .qnt (fs 0x01 0x02 0x03 0xE0 0x3EC)),
   (0x1880004080F80301, .dqnt (fs 0x01 0x02 0x03 0xE0 0x301)),
   (0x18C0004080F8404C, .pkn (fs 0x01 0x02 0x03 0xE1 0x4C)),
   (0x19000040B838C311, .upkn (fs 0x01 0x02 0xE0 0xE3 0x311)),
   (0x1940018120B80300, .pexp (fs 0x06 0x04 0x82 0xE0 0x300)),
   (0x1980004080F80300, .maxe (fs 0x01 0x02 0x03 0xE0 0x300)),
   (0x19C0013838380000, .rnd (fs 0x04 0xE0 0xE0 0xE0 0x0))] = true := by decide +kernel

/-- Crosslane words, written out from R82, R106 and their entries. -/
theorem test_decode_crosslane : codesOk [
   (0x1A00004080F80003, .shfl (fs 0x01 0x02 0x03 0xE0 0x3)),
   (0x1A400040B8F80000, .bcst (fs 0x01 0x02 0xE3 0xE0 0x0)),
   (0x1A400040B8380001, .bcstFirst (fs 0x01 0x02 0xE0 0xE0 0x1)),
   (0x1A800040B8380002, .vote (fs 0x01 0x02 0xE0 0xE0 0x2)),
   (0x1AC0010078380300, .redx (fs 0x04 0x01 0xE0 0xE0 0x300)),
   (0x1B000100783800C9, .scanx (fs 0x04 0x01 0xE0 0xE0 0xC9)),
   (0x1B40010078380000, .matchEq (fs 0x04 0x01 0xE0 0xE0 0x0)),
   (0x1B80204078380300, .redw (fs 0x81 0x01 0xE0 0xE0 0x300)),
   (0x1BC0207838380000, .elect (fs 0x81 0xE0 0xE0 0xE0 0x0)),
   (0x1BC0007838380001, .electK (fs 0x01 0xE0 0xE0 0xE0 0x1))] = true := by decide +kernel

/-- Memory words, written out from R82, R106 and their entries. -/
theorem test_decode_memory : codesOk [
   (0x1C000060003800C2, .ld (fs 0x01 0x80 0x00 0xE0 0xC2)),
   (0x1C400060383800C0, .st (fs 0x01 0x80 0xE0 0xE0 0xC0)),
   (0x1C8020A0383A0100, .ldu (fs 0x82 0x80 0xE0 0xE8 0x100)),
   (0x1CC020A0383A0100, .stu (fs 0x82 0x80 0xE0 0xE8 0x100)),
   (0x1D00006000380140, .lds (fs 0x01 0x80 0x00 0xE0 0x140)),
   (0x1D40006000380140, .sts (fs 0x01 0x80 0x00 0xE0 0x140)),
   (0x1E00382000380000, .prf (fs 0xE0 0x80 0x00 0xE0 0x0)),
   (0x1D8000A100C158E0, .atom (fs 0x02 0x84 0x03 0x05 0x18E0)),
   (0x1DC03821380158C0, .red (fs 0xE0 0x84 0xE0 0x05 0x18C0)),
   (0x1E4020E13A381800, .pin (fs 0x83 0x84 0xE8 0xE0 0x1800)),
   (0x1E803838B8381800, .unpin (fs 0xE0 0xE2 0xE0 0xE0 0x1800)),
   (0x1EC038383FFEC800, .xbeg (fs 0xE0 0xE0 0xFF 0xFB 0x800)),
   (0x1EC038383FFECC00, .xbegChk (fs 0xE0 0xE0 0xFF 0xFB 0xC00)),
   (0x1F00003838381800, .cmt (fs 0x00 0xE0 0xE0 0xE0 0x1800)),
   (0x1F40383838381000, .abt (fs 0xE0 0xE0 0xE0 0xE0 0x1000)),
   (0x1F80383838382000, .pul (fs 0xE0 0xE0 0xE0 0xE0 0x2000)),
   (0x1FC0207838380800, .xstat (fs 0x81 0xE0 0xE0 0xE0 0x800))] = true := by decide +kernel

/-- Copies words, written out from R82, R106 and their entries. -/
theorem test_decode_copies : codesOk [
   (0x2000222121B80804, .cpy (fs 0x88 0x84 0x86 0xE0 0x804)),
   (0x2040222122B81004, .cpyt (fs 0x88 0x84 0x8A 0xE0 0x1004)),
   (0x2080222122B83808, .cpyx (fs 0x88 0x84 0x8A 0xE0 0x3808)),
   (0x20C0383838382800, .waitk (fs 0xE0 0xE0 0xE0 0xE0 0x2800)),
   (0x2100383838380800, .wprm (fs 0xE0 0xE0 0xE0 0xE0 0x800)),
   (0x210021F838380801, .wprmRead (fs 0x87 0xE0 0xE0 0xE0 0x801)),
   (0x214003E060A18000, .lazy (fs 0x0F 0x81 0x82 0x86 0x0)),
   (0x218003F838380000, .lazyc (fs 0x0F 0xE0 0xE0 0xE0 0x0)),
   (0x2200382060A0C002, .aarm (fs 0xE0 0x81 0x82 0x83 0x2)),
   (0x2240382060B80000, .aexp (fs 0xE0 0x81 0x82 0xE0 0x0)),
   (0x228038207A380000, .aadd (fs 0xE0 0x81 0xE8 0xE0 0x0)),
   (0x22C02261E2228000, .await (fs 0x89 0x87 0x88 0x8A 0x0)),
   (0x230020A078380003, .aread (fs 0x82 0x81 0xE0 0xE0 0x3)),
   (0x2340382078380000, .adis (fs 0xE0 0x81 0xE0 0xE0 0x0))] = true := by decide +kernel

/-- Matrix words, written out from R82, R106 and their entries. -/
theorem test_decode_matrix : codesOk [
   (0x240003E060B80000, .obr (fs 0x0F 0x81 0x82 0xE0 0x0)),
   (0x244003F838380000, .obf (fs 0x0F 0xE0 0xE0 0xE0 0x0)),
   (0x24800140F0380140, .obw (fs 0x05 0x03 0xC0 0xE0 0x140)),
   (0x24C00140C1B80300, .obl (fs 0x05 0x03 0x06 0xE0 0x300)),
   (0x2500382060B803C0, .stb (fs 0xE0 0x81 0x82 0xE0 0x3C0)),
   (0x2540000030380160, .mmq (fs 0x00 0x00 0xC0 0xE0 0x160)),
   (0x25800000822185E0, .mmqs (fs 0x00 0x02 0x08 0x86 0x5E0)),
   (0x25C0020040B80270, .mmqp (fs 0x08 0x01 0x02 0xE0 0x270)),
   (0x2600003838380000, .acz (fs 0x00 0xE0 0xE0 0xE0 0x0)),
   (0x26400100B8204005, .acr (fs 0x04 0x02 0xE0 0x81 0x5)),
   (0x2680204120B803E0, .drn (fs 0x81 0x04 0x82 0xE0 0x3E0)),
   (0x26C0380120F81B00, .drns (fs 0xE0 0x04 0x83 0xE0 0x1B00)),
   (0x2700382078380000, .mmsk (fs 0xE0 0x81 0xE0 0xE0 0x0)),
   (0x27400081F8380000, .acs (fs 0x02 0x07 0xE0 0xE0 0x0)),
   (0x27800120F8381B00, .swr (fs 0x04 0x83 0xE0 0xE0 0x1B00))] = true := by decide +kernel

/-- System words, written out from R82, R106 and their entries. -/
theorem test_decode_system : codesOk [
   (0x2800383838B80000, .barb (fs 0xE0 0xE0 0xE2 0xE0 0x0)),
   (0x284038387A380000, .barc (fs 0xE0 0xE1 0xE8 0xE0 0x0)),
   (0x28802078B8380005, .spawn (fs 0x81 0xE2 0xE0 0xE0 0x5)),
   (0x28C0383838380000, .twinCkpt (fs 0xE0 0xE0 0xE0 0xE0 0x0)),
   (0x28C0383838380001, .twinCmp (fs 0xE0 0xE0 0xE0 0xE0 0x1)),
   (0x2900383838380000, .detf (fs 0xE0 0xE0 0xE0 0xE0 0x0))] = true := by decide +kernel

/-- Engines words, written out from R82, R106 and their entries. -/
theorem test_decode_engines : codesOk [
   (0x2C0001324080C000, .kvt (fs 0x04 0xC9 0x02 0x03 0x0)),
   (0x2C4000B838F80000, .kvaNew (fs 0x02 0xE0 0xE3 0xE0 0x0)),
   (0x2C4000A0B8780001, .kvaApp (fs 0x02 0x82 0xE1 0xE0 0x1)),
   (0x2C800080F8380000, .kvc (fs 0x02 0x03 0xE0 0xE0 0x0)),
   (0x2CC03800F8380000, .kvf (fs 0xE0 0x03 0xE0 0xE0 0x0)),
   (0x2D00382178381000, .wnw (fs 0xE0 0x85 0xE0 0xE0 0x1000)),
   (0x2D4020608120C800, .gmk (fs 0x81 0x82 0x04 0x83 0x800)),
   (0x2D8000A081014001, .gstp (fs 0x02 0x82 0x04 0x05 0x1)),
   (0x2DC002A138380001, .smpl (fs 0x0A 0x84 0xE0 0xE0 0x1)),
   (0x3000383241380000, .pwadd (fs 0xE0 0xC9 0x04 0xE0 0x0)),
   (0x3040380081380000, .pwset (fs 0xE0 0x02 0x04 0xE0 0x0)),
   (0x3080383838380000, .rsb (fs 0xE0 0xE0 0xE0 0xE0 0x0)),
   (0x30C0217278380006, .popr (fs 0x85 0xC9 0xE0 0xE0 0x6)),
   (0x31003800B8380000, .pkill (fs 0xE0 0x02 0xE0 0xE0 0x0))] = true := by decide +kernel
/-- Words that the spec writes out itself: NOP, IADD with a predicate, BRA, FMUL and FSQRT, LD, ATOM, IMAD, XBEG.chk, MMQS, KVT,
SMPL, POPR (R23, R82, R197, R214 and the entries). -/
theorem test_decode_examples : codesOk [
    (0x0000383838380000, .nop (fs 0xE0 0xE0 0xE0 0xE0 0)),
    (0x0401C140B9F800C0, .iadd { fs 5 2 0xE7 0xE0 0xC0 with k := 3, kn := true }),
    (0x0040B8383800C006, .bra { fs 0xE0 0xE0 0xE0 3 6 with k := 1 }),
    (0x128000C078380300, .fsqrt (fs 3 1 0xE0 0xE0 0x300)),
    (0x1C000060003800C2, .ld (fs 1 0x80 0 0xE0 0xC2)),
    (0x1D8000A100C158E0, .atom (fs 2 0x84 3 5 0x18E0)),
    (0x05000080C10080C0, .imad (fs 2 3 4 2 0xC0)),
    (0x1EC038383FFECC00, .xbegChk (fs 0xE0 0xE0 0xFF 0xFB 0xC00)),
    (0x25800000822185E0, .mmqs (fs 0 2 8 0x86 0x5E0)),
    (0x2C0001324080C000, .kvt (fs 4 0xC9 2 3 0)),
    (0x2DC002A1B8010003, .smpl (fs 10 0x86 0xE0 4 3)),
    (0x30C0217278380006, .popr (fs 0x85 0xC9 0xE0 0xE0 6))] = true := by decide +kernel

/-- The E-form word of FMUL.f32 v3, v2, 3.0 and the pair IADD.i32 v1, v2, v3 with FMUL.f32 v4, v5, v6 (R84, R95). -/
theorem test_decode_long_forms :
    (match decode [0x908000C0BFF80300, 0x40400000] with
      | .ok (i, rest) => i == .fmul { fs 3 2 0xFF 0xE0 0x300 with ext := some 0x40400000 } && rest == []
      | .error _ => false) = true ∧
    codeOk 0x4080810194040506 (.pairWord { op7 := 1, d := 1, a := 2, b := 3 } { op7 := 0x14, d := 4, a := 5, b := 6 }) = true := by
  decide +kernel

/-- Words that R81, R84, R89, R97, R98 and R107 refuse. -/
theorem test_decode_refused :
    errorOf [] = some .truncated ∧ errorOf [0x908000C0BFF80300] = some .truncated ∧
    errorOf [0xC040000000000000] = some .header ∧ errorOf [0] = some .illegal ∧
    errorOf [0x02C0383838380000] = some .reserved ∧ errorOf [0x3140383838380000] = some .reserved ∧
    errorOf [0x0000383838380001] = some .illegal ∧ errorOf [0x0000003838380000] = some .illegal ∧
    errorOf [0x5000810194040506] = some .reserved ∧ errorOf [0x4080810194010506] = some .illegalPair ∧
    errorOf [0x40FF810194040506] = some .illegal := by decide +kernel

/-- Header fields and header checks (R99, R101). -/
theorem test_headers :
    (headerOf 0xD040040C00000000).cls = 4 ∧ (headerOf 0xD040040C00000000).count = 2 ∧
    (headerOf 0xD040040C00000000).rcv = true ∧ (headerOf 0xD040040C00000000).rtok = 3 ∧
    headerBad 0xC000000000000000 [nopWord] = false ∧ headerBad 0xD800000000000000 [nopWord] = true ∧
    headerBad 0xC000180000000000 [nopWord] = true ∧ headerBad 0xC000000000000001 [nopWord] = true ∧
    headerBad 0xC000000400000000 [nopWord] = true ∧ headerBad 0xC000000000000000 [0x908000C0BFF80300] = true ∧
    headerBad 0x0000383838380000 [] = true := by decide +kernel

/-- The host's reading of an opcode-table word. -/
theorem test_table_word :
    decodeTableWord 64 0x0401C140B9F800C0 = some (.iadd { fs 5 2 0xE7 0xE0 0xC0 with k := 3, kn := true }) ∧
    decodeTableWord 128 (0x40400000 * 2 ^ 64 + 0x908000C0BFF80300) =
      some (.fmul { fs 3 2 0xFF 0xE0 0x300 with ext := some 0x40400000 }) ∧ decodeTableWord 64 0 = none := by decide +kernel

/-! ### Well-formed and ill-formed terms -/

/-- Words that pass every check, among them an E-form word, a lookahead and a predicate. -/
theorem smoke_wellFormed :
    [Instr.iadd (fs 1 2 3 0xE0 0xC0), .iadd { fs 1 2 0xFF 0xE0 0xC0 with ext := some 7 }, .fdiv { fs 1 2 3 0xE0 0x300 with la := 15 },
     .iadd { fs 1 2 3 0xE0 0xC0 with k := 7, kn := true }, .iadd (fs 127 0 127 0xE0 0xC0), .iadd (fs 126 0 124 0xE0 0x100),
     .pairWord { op7 := 1, d := 1, a := 2, b := 3 } { op7 := 0x14, d := 4, a := 5, b := 6 },
     .dieReset 3, .issueCycle 255, .clauseStart 8191 0, .regionWindowWrite (.fn 63) 3 3 0].all WellFormed = true := by decide +kernel

/-- One ill-formed word for each check on a word: the function field's reserved bits, type, rounding, SAT and N/A bits; a register
past the file, an odd pair, a reserved code, a special or inline code as D, an inline code above 0xEB of a float, an inline code of
a narrow type; an unused field; a mask register out of range; a scalar D of a vector source; a predicate where none is allowed, KN
with k0; a lookahead where none is allowed; a missing and a spare extension word (R83 to R92). -/
theorem smoke_words_refused :
    ([.nop (fs 0xE0 0xE0 0xE0 0xE0 1), .iadd (fs 1 2 3 0xE0 0x300), .iadd (fs 1 2 3 0xE0 0x8C0), .fadd (fs 1 2 3 0xE0 0x3300),
      .idiv (fs 1 2 3 0xE0 0xE0), .fadd (fs 1 2 3 0xE0 0x301), .acr (fs 125 0 0xE0 0xE0 2), .iadd (fs 1 2 4 0xE0 0x100),
      .iadd (fs 1 0xCA 3 0xE0 0xC0), .iadd (fs 0xC0 2 3 0xE0 0xC0), .iadd (fs 0xE0 2 3 0xE0 0xC0), .fadd (fs 1 0xEC 3 0xE0 0x300),
      .cvt (fs 1 0xE1 0xE0 0xE0 0x311), .iadd (fs 1 2 3 0 0xC0), .kmov (fs 0 1 0xE0 0xE0 0), .kmov (fs 1 8 0xE0 0xE0 0),
      .iadd (fs 0x80 2 3 0xE0 0xC0), .bru { fs 0xE0 0xE0 0xE0 0xE0 0 with k := 1 }, .iadd { fs 1 2 3 0xE0 0xC0 with kn := true },
      .iadd { fs 1 2 3 0xE0 0xC0 with la := 1 }, .iadd (fs 1 2 0xFF 0xE0 0xC0), .iadd { fs 1 2 3 0xE0 0xC0 with ext := some 7 },
      .iadd { fs 1 0xFF 0xFF 0xE0 0xC0 with ext := some 7 }] : List Instr).all (fun i => !WellFormed i) = true := by decide +kernel

/-- One ill-formed pair for each rule: a reserved op7, an unused field, the extension code, a scalar D of a vector source; equal banks
of the destinations, a bank read for three registers, a half that reads the other's result, two products (R96 to R98). -/
theorem smoke_pairs_refused :
    ([.pairWord { op7 := 0x20, d := 1, a := 2, b := 3 } { op7 := 0x14, d := 4, a := 5, b := 6 },
      .pairWord { op7 := 0x0E, d := 1, a := 2, b := 3 } { op7 := 0x14, d := 4, a := 5, b := 6 },
      .pairWord { op7 := 1, d := 1, a := 0xFF, b := 3 } { op7 := 0x14, d := 4, a := 5, b := 6 },
      .pairWord { op7 := 1, d := 0x81, a := 2, b := 3 } { op7 := 0x14, d := 4, a := 5, b := 6 },
      .pairWord { op7 := 1, d := 1, a := 2, b := 3 } { op7 := 0x14, d := 5, a := 5, b := 6 },
      .pairWord { op7 := 1, d := 1, a := 2, b := 6 } { op7 := 0x14, d := 4, a := 10, b := 7 },
      .pairWord { op7 := 1, d := 1, a := 2, b := 3 } { op7 := 0x14, d := 4, a := 1, b := 6 },
      .pairWord { op7 := 3, d := 1, a := 2, b := 3 } { op7 := 3, d := 4, a := 5, b := 6 }] : List Instr).all
      (fun i => !WellFormed i) = true := by decide +kernel

/-- One ill-formed event for each range: dies, cores, wave slots, blocks, windows, masters, words, functions, contexts, queues,
entries and ports. -/
theorem smoke_events_refused :
    ([.dieReset 4, .issueCycle 256, .copyComplete 256 0, .slotwr 256 0 0 0 0, .clauseStart 8192 0, .lazyCopyComplete 2048 0,
      .lazyCopyComplete 0 16, .faultAnswer 4 0 false, .scrubStep 4 false 0 .clean, .scrubStep 0 false 64 .clean, .cancfgWrite (.fn 64) 0 0,
      .cancfgWrite (.hart 4) 0 0, .cancfgWrite (.fn 0) 4 0, .regionWindowWrite (.fn 0) 0 4 0, .poolWindowWrite (.fn 0) 0 3 0,
      .populationWindowWrite 0 8 0, .popfixWrite 64 0, .registerWrite (.fn 64) .popsel 0, .ctxfnWrite 0 256 0,
      .contextDescriptorWrite 0 0 4 0, .qtailWrite 0 0 64 0, .crewOffer 0 4, .hostFunctionReset 64, .apertureWrite 0 256 0 0,
      .apertureWrite 0 0 2 0, .peerPortDown 16, .peerstatWrite 0 16 0] : List Instr).all (fun i => !WellFormed i) = true := by
  decide +kernel

/-! ### Placed states -/

/-- The bits of an instruction's words. -/
def codeNat (i : Instr) : Nat :=
  match encode i with
  | [x] => x.toNat
  | x :: e :: _ => x.toNat + 2 ^ 64 * e.toNat
  | [] => 0

/-- The fields of a word. -/
def fieldsOf (i : Instr) : Fields :=
  match opcodeOf i with
  | some (_, w) => w
  | none => fs 0 0 0 0 0

/-- The state of `State.withWord` with the instruction's word about to issue, after a change to its wave. -/
def atWord (i : Instr) (f : Wave → Wave := id) : State :=
  ({ State.reset.withWord 128 (codeNat i) with picked := [], cur := some (0, 0) } : State).modWave 0 f

/-- Vector elements: register, lane, value. -/
def withV (l : List (Nat × Nat × Nat)) (w : Wave) : Wave :=
  l.foldl (fun w p => { w with v := Tbl.put w.v (1024 * p.1 + p.2.1) (BitVec.ofNat 32 p.2.2) }) w

/-- Scalar registers. -/
def withS (l : List (Nat × Nat)) (w : Wave) : Wave :=
  l.foldl (fun w p => { w with s := Tbl.put w.s p.1 (BitVec.ofNat 64 p.2) }) w

/-- Mask registers. -/
def withK (l : List (Nat × Nat)) (w : Wave) : Wave :=
  l.foldl (fun w p => { w with k := Tbl.put w.k p.1 (BitVec.ofNat 1024 p.2) }) w

/-- A change to fragment 0. -/
def onFrag (f : Frag → Frag) (w : Wave) : Wave := w.modFrag 0 f

/-- A readable and writable page of context 0 at 0x1_0000_0000, in core 0's TLB; it lies at 0x10_0000 of device memory. -/
def withPage (s : State) : State :=
  s.tlbFill 0 0 { vbase := 0x100000000, size := 2 ^ 16, pbase := 0x100000, sys := false, x := true, w := true, r := true }

/-- The environment of a word has a property. -/
def seesB (w : Fields) (s : State) (P : Env → Bool) : Bool :=
  match wordEnv w s with
  | some e => decide (s.wave e.wid = some e.wv) && !s.twinned e.wv && P e
  | none => false

theorem sees {w : Fields} {s : State} {P : Env → Bool} (h : seesB w s P = true) : ∃ e, Issues w s e ∧ P e = true := by
  unfold seesB at h
  split at h
  · next e he =>
    simp only [Bool.and_eq_true, Bool.not_eq_true', decide_eq_true_eq] at h
    exact ⟨e, ⟨he, h.1.1, h.1.2⟩, h.2⟩
  · cases h

/-- A word that issues with an environment of a property. -/
theorem meets {Q : Env → Prop} [DecidablePred Q] (i : Instr) (s : State)
    (h : seesB (fieldsOf i) s (fun e => decide (Q e)) = true) : ∃ w s e, Issues w s e ∧ Q e :=
  let ⟨e, he, hq⟩ := sees h
  ⟨fieldsOf i, s, e, he, of_decide_eq_true hq⟩

/-- The same for a property that follows from a decidable one. -/
theorem meetsBy {P Q : Env → Prop} [DecidablePred P] (i : Instr) (s : State)
    (h : seesB (fieldsOf i) s (fun e => decide (P e)) = true) (k : ∀ e, P e → Q e) : ∃ w s e, Issues w s e ∧ Q e :=
  let ⟨e, he, hq⟩ := sees h
  ⟨fieldsOf i, s, e, he, k e (of_decide_eq_true hq)⟩

/-! ### States that meet the hypotheses of the statements

A statement whose only hypothesis is `Issues w s e` has `witness_issues`; the others have their own, clause by clause. -/

theorem witness_issues : ∃ w s e, Issues w s e ∧ e.lanes = List.range 16 :=
  meets (.iadd (fs 1 2 3 0xE0 0xC0)) (atWord (.iadd (fs 1 2 3 0xE0 0xC0))) (by decide +kernel)

theorem witness_IntegerDivision : ∃ w s e, Issues w s e ∧ e.sat = false :=
  meets (.idiv (fs 1 2 3 0xE0 0xC0)) (atWord (.idiv (fs 1 2 3 0xE0 0xC0))) (by decide +kernel)

theorem witness_IntegerCompare : ∃ w s e, Issues w s e ∧ e.f 13 11 ≤ 5 ∧ e.f 13 11 = 5 :=
  meets (.icmp (fs 2 1 3 0xE0 0x28C0)) (atWord (.icmp (fs 2 1 3 0xE0 0x28C0))) (by decide +kernel)

/-- KOP's last code; KFIND with no lane and with a first and a last lane; a word of the mask below W/32, and one at it. -/
theorem witness_MaskWords :
    (∃ w s e, Issues w s e ∧ e.f 3 0 = 7) ∧
    (∃ w s e, Issues w s e ∧ (e.lanes.filter fun l => (e.wv.kget e.frag e.w.a.toNat).getLsbD l) = []) ∧
    (∃ w s e, Issues w s e ∧ let found := e.lanes.filter fun l => (e.wv.kget e.frag e.w.a.toNat).getLsbD l
      2 ∈ found ∧ (∀ m ∈ found, 2 ≤ m) ∧ 15 ∈ found ∧ ∀ m ∈ found, m ≤ 15) ∧
    (∃ w s e, Issues w s e ∧ e.w.d ≠ 0 ∧ e.b .n32 0 < e.wv.maskWords) ∧
    (∃ w s e, Issues w s e ∧ e.wv.maskWords ≤ e.b .n32 0 ∧ e.b .n32 0 = 1) :=
  ⟨meets (.kop (fs 1 2 3 0xE0 7)) (atWord (.kop (fs 1 2 3 0xE0 7))) (by decide +kernel),
   meets (.kfindFirst (fs 0x81 2 0xE0 0xE0 0)) (atWord (.kfindFirst (fs 0x81 2 0xE0 0xE0 0))) (by decide +kernel),
   meets (.kfindFirst (fs 0x81 2 0xE0 0xE0 0)) (atWord (.kfindFirst (fs 0x81 2 0xE0 0xE0 0)) (withK [(2, 0x8004)])) (by decide +kernel),
   meets (.kmovFromw (fs 5 0x8C 0xE0 0xE0 1)) (atWord (.kmovFromw (fs 5 0x8C 0xE0 0xE0 1))) (by decide +kernel),
   meets (.kmovFromw (fs 5 0x8C 0xE1 0xE0 1)) (atWord (.kmovFromw (fs 5 0x8C 0xE1 0xE0 1))) (by decide +kernel)⟩

/-- The last vote; a lane that is the lowest; no lane. -/
theorem witness_CrossLane :
    (∃ w s e, Issues w s e ∧ e.f 3 0 = 2 ∧ 0 < e.wv.cross) ∧ (∃ w s e, Issues w s e ∧ 0 ∈ e.lanes ∧ ∀ m ∈ e.lanes, 0 ≤ m) ∧
    ∃ w s e, Issues w s e ∧ e.lanes = [] :=
  ⟨meets (.vote (fs 1 2 0xE0 0xE0 2)) (atWord (.vote (fs 1 2 0xE0 0xE0 2))) (by decide +kernel),
   meets (.elect (fs 0x81 0xE0 0xE0 0xE0 0)) (atWord (.elect (fs 0x81 0xE0 0xE0 0xE0 0))) (by decide +kernel),
   meets (.elect { fs 0x81 0xE0 0xE0 0xE0 0 with k := 1 }) (atWord (.elect { fs 0x81 0xE0 0xE0 0xE0 0 with k := 1 })) (by decide +kernel)⟩

/-- Without an enabled trap, and in handler mode. -/
theorem witness_Reductions :
    (∃ w s e, Issues w s e ∧ (e.wv.handler.isSome ∨ bits e.wv.fpctl.toNat 12 8 = 0)) ∧
    ∃ w s e, Issues w s e ∧ bits e.wv.fpctl.toNat 12 8 = 31 ∧ e.wv.handler.isSome :=
  ⟨meets (.redx (fs 4 1 0xE0 0xE0 0x300)) (atWord (.redx (fs 4 1 0xE0 0xE0 0x300))) (by decide +kernel),
   meets (.redx (fs 4 1 0xE0 0xE0 0x300)) (atWord (.redx (fs 4 1 0xE0 0xE0 0x300)) fun w => { w with
     fpctl := 0x1F00
     handler := some { frag := 0, stack := [], fault := true, pc := 0, clause := none, resume := none, atHeader := false } })
     (by decide +kernel)⟩

/-- The premise of GivesF and GivesKF: no enabled trap, or handler mode. -/
theorem witness_NoFpTrap : ∃ w s e, Issues w s e ∧ NoFpTrap e (fun l => float2 e.ty e.rm (addVal e.rm) (e.na e.ty l) (e.nb e.ty l)) ∧
    raised e (fun l => float2 e.ty e.rm (addVal e.rm) (e.na e.ty l) (e.nb e.ty l)) ≠ 0 :=
  meetsBy (P := fun e => (∀ l ∈ e.lanes, trappedFlags e.wv.fpctl (float2 e.ty e.rm (addVal e.rm) (e.na e.ty l) (e.nb e.ty l)).2 = 0) ∧
      raised e (fun l => float2 e.ty e.rm (addVal e.rm) (e.na e.ty l) (e.nb e.ty l)) ≠ 0)
    (.fadd (fs 1 2 3 0xE0 0x300)) (atWord (.fadd (fs 1 2 3 0xE0 0x300)) (withV [(2, 0, 0x7F800000), (3, 0, 0xFF800000)]))
    (by decide +kernel) fun _ h => ⟨.inr h.1, h.2⟩

/-- The packed type of FMIN and FMAX, and the types of FCLASS. -/
theorem witness_float_types :
    (∃ w s e, Issues w s e ∧ e.ty ∈ ([.f32, .f16, .bf16, .f16x2, .bf16x2] : List Ty) ∧ e.ty = .bf16x2) ∧
    ∃ w s e, Issues w s e ∧ e.ty ∈ ([.f32, .f16, .bf16] : List Ty) :=
  ⟨meets (.fmin (fs 1 2 3 0xE0 0x380)) (atWord (.fmin (fs 1 2 3 0xE0 0x380))) (by decide +kernel),
   meets (.fclass (fs 1 2 0xE0 0xE0 0x280)) (atWord (.fclass (fs 1 2 0xE0 0xE0 0x280))) (by decide +kernel)⟩

/-- PKN and UPKN with their last inline code. -/
theorem witness_Conversions :
    (∃ w s e, Issues w s e ∧ e.w.c.toNat = 0xE0 + 1) ∧ ∃ w s e, Issues w s e ∧ e.w.c.toNat = 0xE0 + 3 :=
  ⟨meets (.pkn (fs 1 2 3 0xE1 0x4C)) (atWord (.pkn (fs 1 2 3 0xE1 0x4C))) (by decide +kernel),
   meets (.upkn (fs 1 2 0xE0 0xE3 0x311)) (atWord (.upkn (fs 1 2 0xE0 0xE3 0x311))) (by decide +kernel)⟩

/-- A finite code of FP32 at the top of its range, and a denominator. -/
theorem witness_RoundingModes_ExactValues :
    (∃ (n d : Nat), 0 < d ∧ n = 3) ∧ 0x7F7FFFFF < 2 ^ fmtF32.width ∧ fmtF32.decode 0x7F7FFFFF = .num false 0xFFFFFF 1 104 ∧
    (fval .f32 0x7F7FFFFF).isFin = true := by
  refine ⟨⟨3, 1, by decide, rfl⟩, by decide, by decide +kernel, by decide +kernel⟩

/-- FADD raises invalid with its trap enabled and a handler's address set. -/
theorem witness_FpTrapTaken : ∃ w s e, Issues w s e ∧ e.w.la = 0 ∧ e.wv.handler = none ∧ e.wv.tvec ≠ 0 ∧
    ∃ l ∈ e.lanes, (trappedFlags e.wv.fpctl (float2 e.ty e.rm (addVal e.rm) (e.na e.ty l) (e.nb e.ty l)).2 != 0) = true :=
  meets (.fadd (fs 1 2 3 0xE0 0x300)) (atWord (.fadd (fs 1 2 3 0xE0 0x300)) fun w =>
    { withV [(2, 0, 0x7F800000), (3, 0, 0xFF800000)] w with tvec := 0x20000, fpctl := 0x100 }) (by decide +kernel)

/-! #### Control -/

/-- Targets at a multiple of 8 and 4 bytes past one; a BRA whose lanes do not split, and one with no active lane. -/
theorem witness_BranchWords :
    (∃ w s e, Issues w s e ∧ (e.cl.addr + e.w.f.signExtend 64 * 8).toNat % 8 = 0 ∧
      (BitVec.ofNat 64 (e.a .b64 0) + e.w.f.signExtend 64 * 8).toNat % 8 = 0 ∧ (BitVec.ofNat 64 (e.a .b64 0)).toNat % 8 = 0) ∧
    (∃ w s e, Issues w s e ∧ e.frag.mask &&& ~~~e.act = 0 ∧ (e.cl.addr + e.w.f.signExtend 64 * 8).toNat % 8 = 0) ∧
    (∃ w s e, Issues w s e ∧ e.frag.mask &&& ~~~e.act ≠ 0 ∧ e.act = 0 ∧ e.cl.next.toNat % 8 = 0) ∧
    (∃ w s e, Issues w s e ∧ e.wv.handler = none ∧ e.wv.tvec ≠ 0 ∧ (BitVec.ofNat 64 (e.a .b64 0)).toNat % 8 ≠ 0 ∧
      (BitVec.ofNat 64 (e.a .b64 0) + e.w.f.signExtend 64 * 8).toNat % 8 ≠ 0 ∧ e.w.a ≠ 0xE0) ∧
    ∃ w s e, Issues w s e ∧ e.wv.handler = none ∧ e.wv.tvec ≠ 0 ∧ (e.cl.addr + e.w.f.signExtend 64 * 8).toNat % 8 ≠ 0 :=
  ⟨meets (.brx (fs 0xE0 0x84 0xE0 0xE0 2)) (atWord (.brx (fs 0xE0 0x84 0xE0 0xE0 2)) (withS [(4, 0x20000)])) (by decide +kernel),
   meets (.bra (fs 0xE0 0xE0 0xE0 3 6)) (atWord (.bra (fs 0xE0 0xE0 0xE0 3 6))) (by decide +kernel),
   meets (.bra { fs 0xE0 0xE0 0xE0 3 6 with k := 1 }) (atWord (.bra { fs 0xE0 0xE0 0xE0 3 6 with k := 1 })) (by decide +kernel),
   meets (.call (fs 0x89 0x84 0xE0 0xE0 2)) (atWord (.call (fs 0x89 0x84 0xE0 0xE0 2)) fun w =>
     { withS [(4, 0x20004)] w with tvec := 8 }) (by decide +kernel),
   meets (.bru (fs 0xE0 0xE0 0xE0 0xE0 2)) (atWord (.bru (fs 0xE0 0xE0 0xE0 0xE0 2)) fun w =>
     { onFrag (fun f => { f with clause := f.clause.map fun c => { c with addr := 0x10004 } }) w with tvec := 8 }) (by decide +kernel)⟩

/-- A wave with all of its 32 records in use. -/
def fullRecords (w : Wave) : Wave :=
  { w with frags := w.frags ++ (List.range 31).map fun r => (r + 1, Frag.start (BitVec.ofNat 1024 (2 ^ (r + 16))) 0x30000 []) }

/-- A branch that splits: with a record free, with the deferred entry free, and with neither. -/
theorem witness_BranchDivides :
    (∃ w s e, Issues w s e ∧ e.act ≠ 0 ∧ e.frag.mask &&& ~~~e.act ≠ 0 ∧
      1 < 32 ∧ Tbl.find e.wv.frags 1 = none ∧ ∀ q, q < 1 → Tbl.find e.wv.frags q ≠ none) ∧
    (∃ w s e, Issues w s e ∧ e.act ≠ 0 ∧ e.frag.mask &&& ~~~e.act ≠ 0 ∧
      (∀ r, r < 32 → Tbl.find e.wv.frags r ≠ none) ∧ e.frag.deferred = none ∧ e.frag.held = none) ∧
    ∃ w s e, Issues w s e ∧ e.act ≠ 0 ∧ e.frag.mask &&& ~~~e.act ≠ 0 ∧
      (∀ r, r < 32 → Tbl.find e.wv.frags r ≠ none) ∧ (e.frag.deferred ≠ none ∨ e.frag.held ≠ none) :=
  let i : Instr := .bra { fs 0xE0 0xE0 0xE0 3 6 with k := 1 }
  ⟨meets i (atWord i (withK [(1, 15)])) (by decide +kernel), meets i (atWord i fun w => fullRecords (withK [(1, 15)] w)) (by decide +kernel),
   meets i (atWord i fun w => onFrag (fun f => { f with deferred := some { mask := 1, pc := 0, stack := [] } })
     (fullRecords (withK [(1, 15)] w))) (by decide +kernel)⟩

/-- EXIT outside a span, of some lanes and of all; with the span of the highest level open. -/
theorem witness_LanesExit :
    (∃ w s e, Issues w s e ∧ (∀ l, l < 5 → (e.wv.span l).isOpen = false) ∧ e.wv.handler = none ∧ e.frag.mask &&& ~~~e.act ≠ 0) ∧
    (∃ w s e, Issues w s e ∧ (∀ l, l < 5 → (e.wv.span l).isOpen = false) ∧ e.wv.handler = none ∧ e.frag.mask &&& ~~~e.act = 0 ∧
      e.frag.deferred = none ∧ e.frag.held = none ∧ ∀ p ∈ e.wv.frags, p.2.parked = none) ∧
    ∃ w s e, Issues w s e ∧ (e.wv.span 4).isOpen = true ∧ e.wv.handler = none ∧ e.wv.tvec ≠ 0 :=
  let i : Instr := .exit { fs 0xE0 0xE0 0xE0 0xE0 0 with k := 1 }
  let j : Instr := .exit (fs 0xE0 0xE0 0xE0 0xE0 0)
  ⟨meets i (atWord i (withK [(1, 15)])) (by decide +kernel), meets j (atWord j) (by decide +kernel),
   meets j (atWord j fun w => { w.setSpan 4 { Span.closed with isOpen := true } with tvec := 8 }) (by decide +kernel)⟩

/-- A handler of the fragment that issues; `c` is the clause it interrupted. -/
def inHandler (fault : Bool) (pc : W64) (c : Option Clause) (w : Wave) : Wave :=
  { w with trappc := pc, handler := some { frag := 0, stack := [3], fault := fault, pc := pc, clause := c, resume := none, atHeader := false } }

/-- TRAP with a handler's address; with no active lane; in handler mode. -/
theorem witness_SoftTrap :
    (∃ w s e, Issues w s e ∧ e.w.la = 0 ∧ e.act ≠ 0 ∧ e.wv.handler = none ∧ e.wv.tvec ≠ 0) ∧
    (∃ w s e, Issues w s e ∧ e.w.la = 0 ∧ e.act = 0) ∧
    ∃ w s e, Issues w s e ∧ e.w.la = 0 ∧ (e.wv.handler.any fun h => h.frag == e.fr) = true :=
  let i : Instr := .trap (fs 0xE0 0xE0 0xE0 0xE0 0x123)
  let j : Instr := .trap { fs 0xE0 0xE0 0xE0 0xE0 0x123 with k := 1 }
  ⟨meets i (atWord i fun w => { w with tvec := 0x20000 }) (by decide +kernel), meets j (atWord j) (by decide +kernel),
   meets i (atWord i (inHandler true 0x10008 none)) (by decide +kernel)⟩

/-- TVEC 0 outside handler mode, and handler mode. -/
theorem witness_DoubleTrap :
    (∃ w s e, Issues w s e ∧ e.w.la = 0 ∧ e.act ≠ 0 ∧ e.wv.handler = none ∧ e.wv.tvec = 0 ∧ (e.s.launch e.wv.lid).isSome = true) ∧
    ∃ w s e, Issues w s e ∧ e.w.la = 0 ∧ e.act ≠ 0 ∧ (e.wv.handler.any fun h => h.frag == e.fr) = true :=
  let i : Instr := .trap (fs 0xE0 0xE0 0xE0 0xE0 0x123)
  ⟨meets i (atWord i) (by decide +kernel), meets i (atWord i (inHandler true 0x10008 none)) (by decide +kernel)⟩

/-- TRET outside handler mode; in it, with TRAPPC as the trap wrote it and as the handler wrote it; its word the last of its clause. -/
theorem witness_TrapReturn :
    (∃ w s e, Issues w s e ∧ e.wv.handler = none ∧ e.wv.tvec ≠ 0) ∧
    (∃ w s e, Issues w s e ∧ (e.wv.handler.any fun h => (Tbl.find e.wv.frags h.frag).isSome && e.wv.trappc == h.pc && !h.atHeader &&
      h.clause.any fun c => c.idx + c.sizeAt c.idx == c.words.length) = true ∧ e.wv.aborting = none ∧ e.wv.heldTraps = []) ∧
    ∃ w s e, Issues w s e ∧ (e.wv.handler.any fun h => (Tbl.find e.wv.frags h.frag).isSome && e.wv.trappc != h.pc) = true ∧
      e.wv.trappc.toNat % 8 = 0 ∧ e.wv.aborting = none ∧ e.wv.heldTraps = [] :=
  let i : Instr := .tret (fs 0xE0 0xE0 0xE0 0xE0 0)
  ⟨meets i (atWord i fun w => { w with tvec := 8 }) (by decide +kernel),
   meets i (atWord i (inHandler true 0x10008 (some (placedClause 64 0x0000383838380000)))) (by decide +kernel),
   meets i (atWord i fun w => { inHandler true 0x10008 none w with trappc := 0x40000 }) (by decide +kernel)⟩

/-- SLEEP of 0 and of 15 without a grant; with one. -/
theorem witness_TimeWords :
    (∃ w s e, Issues w s e ∧ e.wv.holdsAny = false ∧ e.a .n32 0 = 0) ∧ (∃ w s e, Issues w s e ∧ e.wv.holdsAny = false ∧ e.a .n32 0 ≠ 0) ∧
    ∃ w s e, Issues w s e ∧ e.wv.holdsAny = true ∧ e.wv.handler = none ∧ e.wv.tvec ≠ 0 :=
  let i : Instr := .sleep (fs 0xE0 0xE0 0xE0 0xE0 0)
  let j : Instr := .sleep (fs 0xE0 0xEF 0xE0 0xE0 0)
  ⟨meets i (atWord i) (by decide +kernel), meets j (atWord j) (by decide +kernel),
   meets j (atWord j fun w => { w.setSpan 1 { Span.closed with isOpen := true, checked := true, granted := true, fails := 8 } with
     tvec := 8 }) (by decide +kernel)⟩

/-- The first and last TRAPLANES word of a wave of width 16; the other identifiers; TWINSLACK with a block. -/
theorem witness_SystemRegisters :
    (∃ w s e, Issues w s e ∧ e.w.f.toNat = 0x10 + 0 ∧ 0 < e.wv.maskWords) ∧ (∃ w s e, Issues w s e ∧ e.w.f.toNat = 0x080) ∧
    (∃ w s e, Issues w s e ∧ e.w.f.toNat = 0x062 ∧ (e.s.block (e.wv.bid e.wid)).isSome = true) ∧
    (∃ w s e, Issues w s e ∧ e.w.f.toNat = 0x030) ∧ ∃ w s e, Issues w s e ∧ e.w.f.toNat = 0x070 :=
  let at_ (n : Nat) : Instr := .srwr (fs 0xE0 0x83 0xE0 0xE0 n)
  ⟨meets (at_ 0x10) (atWord (at_ 0x10)) (by decide +kernel), meets (at_ 0x80) (atWord (at_ 0x80)) (by decide +kernel),
   meets (at_ 0x62) (atWord (at_ 0x62)) (by decide +kernel), meets (at_ 0x30) (atWord (at_ 0x30)) (by decide +kernel),
   meets (at_ 0x70) (atWord (at_ 0x70)) (by decide +kernel)⟩

/-- RND with the last registers of the file. -/
theorem witness_RandomDraws : ∃ w s e, Issues w s e ∧ e.s.drawing e.wid = false ∧ e.w.d.toNat + 3 < 0x80 ∧ e.w.d.toNat = 124 :=
  meets (.rnd (fs 124 0xE0 0xE0 0xE0 0)) (atWord (.rnd (fs 124 0xE0 0xE0 0xE0 0))) (by decide +kernel)

/-! #### Memory -/

/-- `homeOk` in decidable form. -/
def homeOkB (s : State) (wid lid : Nat) (ls : List Loc) : Bool :=
  ((s.meetHome ls).homeStop wid lid ls).isNone && (s.meetHome ls).recallRoom ls

theorem homeOk_of {s : State} {wid lid : Nat} {ls : List Loc} (h : homeOkB s wid lid ls = true) : s.homeOk wid lid ls := by
  simp only [homeOkB, Bool.and_eq_true, Option.isNone_iff_eq_none] at h
  exact h

/-- What a load needs, in decidable form. -/
def loadableB (e : Env) (size : Nat) (l : List (Nat × Nat)) : Bool :=
  l.all (fun p => p.2 % size == 0 && (e.place .read p.2).isSome) && homeOkB (e.hits size l) e.wid e.wv.lid (e.loadReads size l) &&
  (findAll (e.looks size l) e.wid e.wv size (accesses e .read l)).all fun x => !x.remote

theorem loadable_of {e : Env} {size : Nat} {l : List (Nat × Nat)} (h : loadableB e size l = true) : Loadable e size l := by
  simp only [loadableB, Bool.and_eq_true, List.all_eq_true, beq_iff_eq, Bool.not_eq_true'] at h
  exact ⟨h.1.1, homeOk_of h.1.2, h.2⟩

/-- The accesses of the lanes, and the one access of LDU and STU. -/
def eachOf (e : Env) : List (Nat × Nat) := e.lanes.map fun i => (i, e.ea (e.f 3 0) true i)
def oneOf (e : Env) : List (Nat × Nat) := [(e.first, e.ea 0 true 0)]

/-- LD of the last word of a page; LDU with lanes and without; LDS at the end of the share; a misaligned LDS of one lane. -/
theorem witness_Loads :
    (∃ w s e, Issues w s e ∧ e.w.d.toNat < 0x80 ∧ Loadable e (elemBytes e.ty) (eachOf e)) ∧
    (∃ w s e, Issues w s e ∧ e.lanes = []) ∧
    (∃ w s e, Issues w s e ∧ e.lanes ≠ [] ∧ Loadable e (elemBytes e.ty) (oneOf e)) ∧
    (∃ w s e, Issues w s e ∧ ∃ b, e.s.block (e.wv.bid e.wid) = some b ∧ e.w.d.toNat < 0x80 ∧
      (∀ p ∈ eachOf e, p.2 % elemBytes e.ty = 0 ∧ p.2 + elemBytes e.ty ≤ b.scratchSize) ∧
      b.absentAt ((eachOf e).map fun p => (p.2, elemBytes e.ty)) = none ∧ e.wv.draining e.fr = false) ∧
    ∃ w s e, Issues w s e ∧ (∃ b, e.s.block (e.wv.bid e.wid) = some b) ∧ e.lanes = [3] ∧
      e.ea (e.f 3 0) true 3 % elemBytes e.ty ≠ 0 ∧ e.wv.handler = none ∧ e.wv.tvec ≠ 0 := by
  let ld : Instr := .ld (fs 1 0x80 0xE0 0xE0 0xC0)
  let ldu : Instr := .ldu (fs 0x82 0x80 0xE0 0xE0 0x100)
  let none_ : Instr := .ldu { fs 0x82 0x80 0xE0 0xE0 0x100 with k := 1 }
  let lds : Instr := .lds (fs 1 0x80 0xE0 0xE0 0xC0)
  let odd : Instr := .lds { fs 1 0x80 0xE0 0xE0 0xC0 with k := 1 }
  refine ⟨meetsBy (P := fun e => e.w.d.toNat < 0x80 ∧ loadableB e (elemBytes e.ty) (eachOf e) = true) ld
      (withPage (atWord ld (withS [(0, 0x10000FFFC)]))) (by decide +kernel) fun _ h => ⟨h.1, loadable_of h.2⟩,
    meets none_ (atWord none_) (by decide +kernel),
    meetsBy (P := fun e => e.lanes ≠ [] ∧ loadableB e (elemBytes e.ty) (oneOf e) = true) ldu
      (withPage (atWord ldu (withS [(0, 0x10000FFF8)]))) (by decide +kernel) fun _ h => ⟨h.1, loadable_of h.2⟩,
    meetsBy (P := fun e => e.w.d.toNat < 0x80 ∧ ((e.s.block (e.wv.bid e.wid)).any fun b =>
        (eachOf e).all (fun p => p.2 % elemBytes e.ty == 0 && decide (p.2 + elemBytes e.ty ≤ b.scratchSize)) &&
        (b.absentAt ((eachOf e).map fun p => (p.2, elemBytes e.ty))).isNone && !e.wv.draining e.fr) = true) lds
      (atWord lds (withS [(0, 0xFFFFC)])) (by decide +kernel) ?_,
    meetsBy (P := fun e => (e.s.block (e.wv.bid e.wid)).isSome = true ∧ e.lanes = [3] ∧ e.ea (e.f 3 0) true 3 % elemBytes e.ty ≠ 0 ∧
        e.wv.handler = none ∧ e.wv.tvec ≠ 0) odd
      (atWord odd fun w => { withK [(1, 8)] (withS [(0, 2)] w) with tvec := 8 }) (by decide +kernel)
      fun _ h => ⟨Option.isSome_iff_exists.1 h.1, h.2⟩⟩
  intro e h
  obtain ⟨b, hb, h2⟩ := (Option.any_eq_true ..).1 h.2
  simp only [Bool.and_eq_true, List.all_eq_true, beq_iff_eq, decide_eq_true_eq, Option.isNone_iff_eq_none, Bool.not_eq_true'] at h2
  exact ⟨b, hb, h.1, h2.1.1, h2.1.2, h2.2⟩

/-- What a store needs, in decidable form: aligned and writable, and never more than 128 lines. -/
def storableB (e : Env) (size : Nat) (l : List (Nat × Nat)) : Bool :=
  l.all (fun p => p.2 % size == 0 && (e.place .write p.2).isSome) &&
  (List.range (l.length + 1)).all fun n => decide (lineCount ((((accesses e .write l).take n).map fun a =>
    storeElem a size (e.src e.w.d.toNat e.ty a.lane)).foldl wsbPut e.wv.wsb) ≤ 128)

theorem storable_of {e : Env} {size : Nat} {l : List (Nat × Nat)} (h : storableB e size l = true) :
    Passes e size .write l ∧ WsbHolds e size l fun i => e.src e.w.d.toNat e.ty i := by
  simp only [storableB, Bool.and_eq_true, List.all_eq_true, beq_iff_eq, decide_eq_true_eq, List.mem_range] at h
  refine ⟨h.1, fun n => ?_⟩
  have hl : (accesses e .write l).length ≤ l.length := List.length_filterMap_le ..
  by_cases hn : n ≤ l.length
  · exact h.2 n (by omega)
  · have h2 := h.2 l.length (by omega)
    rwa [List.take_of_length_le (by omega)] at h2 ⊢

/-- ST and STU of the last element of a page; STU without lanes, and misaligned; STS at the end of the share. -/
theorem witness_Stores :
    (∃ w s e, Issues w s e ∧ Passes e (elemBytes e.ty) .write (eachOf e) ∧
      WsbHolds e (elemBytes e.ty) (eachOf e) fun i => e.src e.w.d.toNat e.ty i) ∧
    (∃ w s e, Issues w s e ∧ e.lanes = []) ∧
    (∃ w s e, Issues w s e ∧ e.lanes ≠ [] ∧ Passes e (elemBytes e.ty) .write (oneOf e) ∧
      WsbHolds e (elemBytes e.ty) (oneOf e) fun i => e.src e.w.d.toNat e.ty i) ∧
    (∃ w s e, Issues w s e ∧ e.lanes ≠ [] ∧ e.ea 0 true 0 % elemBytes e.ty ≠ 0 ∧ lineCount e.wv.wsb ≤ 128 ∧ e.wv.handler = none ∧
      e.wv.tvec ≠ 0) ∧
    (∃ w s e, Issues w s e ∧ ∃ b, e.s.block (e.wv.bid e.wid) = some b ∧
      (∀ p ∈ eachOf e, p.2 % elemBytes e.ty = 0 ∧ p.2 + elemBytes e.ty ≤ b.scratchSize) ∧
      b.absentAt ((eachOf e).map fun p => (p.2, elemBytes e.ty)) = none ∧ e.wv.draining e.fr = false) ∧
    ∃ w s e, Issues w s e ∧ e.f 5 4 = 3 ∧ ∀ p ∈ e.s.cores, p.2.u = [] := by
  let st : Instr := .st (fs 1 0x80 0xE0 0xE0 0xC0)
  let stu : Instr := .stu (fs 0x82 0x80 0xE0 0xE0 0x100)
  let none_ : Instr := .stu { fs 0x82 0x80 0xE0 0xE0 0x100 with k := 1 }
  let sts : Instr := .sts (fs 1 0x80 0xE0 0xE0 0xC0)
  let prf : Instr := .prf (fs 0xE0 0x80 0xE0 0xE0 0x30)
  refine ⟨meetsBy (P := fun e => storableB e (elemBytes e.ty) (eachOf e) = true) st
      (withPage (atWord st (withS [(0, 0x10000FFFC)]))) (by decide +kernel) fun _ h => storable_of h,
    meets none_ (atWord none_) (by decide +kernel),
    meetsBy (P := fun e => e.lanes ≠ [] ∧ storableB e (elemBytes e.ty) (oneOf e) = true) stu
      (withPage (atWord stu (withS [(0, 0x10000FFF8)]))) (by decide +kernel) fun _ h => ⟨h.1, storable_of h.2⟩,
    meets stu (atWord stu fun w => { withS [(0, 0x100000004)] w with tvec := 8 }) (by decide +kernel),
    meetsBy (P := fun e => ((e.s.block (e.wv.bid e.wid)).any fun b =>
        (eachOf e).all (fun p => p.2 % elemBytes e.ty == 0 && decide (p.2 + elemBytes e.ty ≤ b.scratchSize)) &&
        (b.absentAt ((eachOf e).map fun p => (p.2, elemBytes e.ty))).isNone && !e.wv.draining e.fr) = true) sts
      (atWord sts (withS [(0, 0xFFFFC)])) (by decide +kernel) ?_,
    meets prf (atWord prf) (by decide +kernel)⟩
  intro e h
  obtain ⟨b, hb, h2⟩ := (Option.any_eq_true ..).1 h
  simp only [Bool.and_eq_true, List.all_eq_true, beq_iff_eq, decide_eq_true_eq, Option.isNone_iff_eq_none, Bool.not_eq_true'] at h2
  exact ⟨b, hb, h2.1.1, h2.1.2, h2.2⟩

/-- The accesses of an atomic. -/
def atomsOf (e : Env) : List (Nat × Nat) := e.lanes.map fun i => (i, e.ea (e.f 5 4) false i)

/-- What an atomic needs, in decidable form. -/
def atomableB (e : Env) (size level : Nat) (l : List (Nat × Nat)) : Bool :=
  l.all (fun p => p.2 % size == 0 && (e.place .write p.2).isSome) &&
  (accesses e .write l).all (fun a => match a.loc with | .dev _ => true | _ => false) &&
  (accesses e .write l).all (fun a => (accesses e .write l).all fun b => a.lane == b.lane || a.va != b.va) &&
  (e.s.grantOnLines e.wid ((accesses e .write l).map (·.loc))).isNone &&
  homeOkB e.s e.wid e.wv.lid ((accesses e .write l).map (·.loc)) &&
  decide ((scopeLanes { e with s := e.s.atHome ((accesses e .write l).map (·.loc)) } level (accesses e .write l)).2 =
    (accesses e .write l, []))

theorem atomable_of {e : Env} {size level : Nat} {l : List (Nat × Nat)} (h : atomableB e size level l = true) :
    Atomable e size level l := by
  simp only [atomableB, Bool.and_eq_true, List.all_eq_true, beq_iff_eq, Bool.or_eq_true, bne_iff_ne, ne_eq, decide_eq_true_eq,
    Option.isNone_iff_eq_none] at h
  obtain ⟨⟨⟨⟨⟨h1, h2⟩, h3⟩, h4⟩, h5⟩, h6⟩ := h
  refine ⟨⟨h1, fun a ha => ?_, fun a ha b hb hab => ?_, h4⟩, homeOk_of h5, h6⟩
  · have := h2 a ha
    split at this
    · next pa he => exact ⟨pa, he⟩
    · cases this
  · exact (h3 a ha b hb).resolve_left hab

/-- `Separate` in decidable form. -/
def separateB (e : Env) (size : Nat) (l : List Access) : Bool :=
  l.all fun a => match a.loc with
    | .dev pa => (List.range size).all (fun i => Tbl.get e.s.lineKey (lineOf (pa + i)) 0 == e.s.keyOf e.wv.ctx) &&
        l.all fun b => b.lane == a.lane || match b.loc with
          | .dev pb => decide (pa + size ≤ pb) || decide (pb + size ≤ pa)
          | _ => true
    | _ => false

theorem separate_of {e : Env} {size : Nat} {l : List Access} (h : separateB e size l = true) : Separate e size l := by
  intro a ha
  have h := List.all_eq_true.1 h a ha
  split at h
  · next pa hp =>
    simp only [Bool.and_eq_true, List.all_eq_true, List.mem_range, beq_iff_eq, Bool.or_eq_true] at h
    refine ⟨pa, hp, fun i hi => h.1 i hi, fun b hb hab pb hpb => ?_⟩
    have h2 := (h.2 b hb).resolve_left hab
    rw [hpb] at h2
    simpa using h2
  · cases h

theorem redOut_of {o : Option (State × List LaneFault)} (h : (o.any fun x => x.2.isEmpty) = true) : ∃ s1, o = some (s1, []) := by
  obtain ⟨⟨s1, l⟩, h1, h2⟩ := (Option.any_eq_true ..).1 h
  have h2 : l.isEmpty = true := h2
  exact ⟨s1, by rw [h1, List.isEmpty_iff.1 h2]⟩

/-- An atomic of two lanes at each level: what it leaves is there; at device level RED joins the U line, and stages in a DET launch. -/
theorem witness_Atomics :
    (∀ level ∈ [1, 2, 3, 4], ∃ w s e, Issues w s e ∧ e.wv.checkedLevel = none ∧ e.level = level ∧
      Atomable e (elemBytes e.ty) level (atomsOf e) ∧ e.w.d.toNat < 0x80 ∧ e.s.isDet e.wv.lid = false ∧ e.s.isReplay e.wv.lid = false ∧
      (∀ p ∈ e.s.cores, p.2.u = []) ∧ Separate e (elemBytes e.ty) (accesses e .write (atomsOf e)) ∧ e.lanes = [0, 1] ∧
      (∃ b, e.s.block (e.wv.bid e.wid) = some b) ∧ ∃ c, e.s.crew e.wv.ckey = some c) ∧
    (∃ w s e, Issues w s e ∧ e.wv.checkedLevel = none ∧ e.level = 3 ∧ AtomPasses e (elemBytes e.ty) (atomsOf e) ∧
      e.s.homeStop e.wid e.wv.lid ((accesses e .write (atomsOf e)).map (·.loc)) = none ∧ e.s.isDet e.wv.lid = true ∧
      e.s.stagedBytes + 8 * (accesses e .write (atomsOf e)).length ≤ 2 ^ 26 ∧
      (scopeLanes e 3 (accesses e .write (atomsOf e))).2 = (accesses e .write (atomsOf e), []) ∧ e.lanes = [0, 1]) ∧
    ∃ w s e, Issues w s e ∧ e.wv.checkedLevel = none ∧ e.level = 3 ∧ Atomable e (elemBytes e.ty) 3 (atomsOf e) ∧
      e.s.homeStop e.wid e.wv.lid ((accesses e .write (atomsOf e)).map (·.loc)) = none ∧
      ∃ s1, redDev e (e.f 3 0) e.ty (accesses e .write (atomsOf e)) = some (s1, []) := by
  let at_ (l : Nat) : Instr := .atom { fs 2 0x84 3 5 (2048 * l + 0xC0 + 0x20) with k := 1 }
  let red : Instr := .red { fs 0xE0 0x84 3 5 (2048 * 3 + 0xC0 + 0x20) with k := 1 }
  let st (i : Instr) : State := withPage (atWord i fun w => withK [(1, 3)] (withS [(4, 0x10000FFF8)] (withV [(3, 1, 1), (5, 0, 7), (5, 1, 9)] w)))
  have go (l : Nat) (h : seesB (fieldsOf (at_ l)) (st (at_ l)) (fun e => decide (e.wv.checkedLevel = none ∧ e.level = l ∧
      atomableB e (elemBytes e.ty) l (atomsOf e) = true ∧ e.w.d.toNat < 0x80 ∧ e.s.isDet e.wv.lid = false ∧
      e.s.isReplay e.wv.lid = false ∧ (∀ p ∈ e.s.cores, p.2.u = []) ∧
      separateB e (elemBytes e.ty) (accesses e .write (atomsOf e)) = true ∧ e.lanes = [0, 1] ∧
      (e.s.block (e.wv.bid e.wid)).isSome = true ∧ (e.s.crew e.wv.ckey).isSome = true)) = true) := meetsBy (at_ l) (st (at_ l)) h
      (Q := fun e => e.wv.checkedLevel = none ∧ e.level = l ∧ Atomable e (elemBytes e.ty) l (atomsOf e) ∧ e.w.d.toNat < 0x80 ∧
        e.s.isDet e.wv.lid = false ∧ e.s.isReplay e.wv.lid = false ∧ (∀ p ∈ e.s.cores, p.2.u = []) ∧
        Separate e (elemBytes e.ty) (accesses e .write (atomsOf e)) ∧ e.lanes = [0, 1] ∧ (∃ b, e.s.block (e.wv.bid e.wid) = some b) ∧ ∃ c, e.s.crew e.wv.ckey = some c)
      fun _ ⟨h1, h2, h3, h4, h5, h6, h7, hs, h8, h9, h10⟩ =>
        ⟨h1, h2, atomable_of h3, h4, h5, h6, h7, separate_of hs, h8, Option.isSome_iff_exists.1 h9, Option.isSome_iff_exists.1 h10⟩
  let det (s : State) : State := { s with launches := s.launches.map fun p => (p.1, { p.2 with words := p.2.words.set 3 (1 <<< 45) }) }
  refine ⟨?_, meetsBy (P := fun e => e.wv.checkedLevel = none ∧ e.level = 3 ∧ atomableB e (elemBytes e.ty) 3 (atomsOf e) = true ∧
      e.s.homeStop e.wid e.wv.lid ((accesses e .write (atomsOf e)).map (·.loc)) = none ∧ e.s.isDet e.wv.lid = true ∧
      e.s.stagedBytes + 8 * (accesses e .write (atomsOf e)).length ≤ 2 ^ 26 ∧
      (scopeLanes e 3 (accesses e .write (atomsOf e))).2 = (accesses e .write (atomsOf e), []) ∧ e.lanes = [0, 1]) red (det (st red))
      (by decide +kernel) fun e h => ⟨h.1, h.2.1, (atomable_of h.2.2.1).toAtomPasses, h.2.2.2⟩,
    meetsBy (P := fun e => e.wv.checkedLevel = none ∧ e.level = 3 ∧ atomableB e (elemBytes e.ty) 3 (atomsOf e) = true ∧
    e.s.homeStop e.wid e.wv.lid ((accesses e .write (atomsOf e)).map (·.loc)) = none ∧ ((redDev e (e.f 3 0) e.ty (accesses e .write (atomsOf e))).any fun x => x.2.isEmpty) = true) red (st red) (by decide +kernel)
    fun e h => ⟨h.1, h.2.1, atomable_of h.2.2.1, h.2.2.2.1, redOut_of h.2.2.2.2⟩⟩
  intro l hl
  simp only [List.mem_cons, List.not_mem_nil, or_false] at hl
  rcases hl with rfl | rfl | rfl | rfl
  · exact go 1 (by decide +kernel)
  · exact go 2 (by decide +kernel)
  · exact go 3 (by decide +kernel)
  · exact go 4 (by decide +kernel)

/-- XBEG where it opens, with an empty store buffer, after eight failures, and where it may not; the step that empties the buffer. -/
theorem witness_Spans :
    (∃ w s e, Issues w s e ∧ e.wv.whole = true ∧ e.wv.openTo e.level = false ∧ e.wv.checkedLevel = none ∧ wsbBytes e.wv.wsb = [] ∧
      (e.wv.span e.level).fails = 8 ∧ e.s.grantOfOther e.wid e.wv e.level = none) ∧
    (∃ w s e, Issues w s e ∧ e.wv.whole = true ∧ e.wv.openTo e.level = false ∧ e.wv.checkedLevel = none ∧ wsbBytes e.wv.wsb ≠ [] ∧
      e.wv.aborting = none ∧ e.s.grantOfOther e.wid e.wv 1 = none ∧
      ∃ s1, e.s.commitUp (whoOf e.wv e.wid e.fr) (e.wv.bid e.wid) 1 (wsbBytes e.wv.wsb) = .ok s1) ∧
    ∃ w s e, Issues w s e ∧ ¬(e.wv.whole = true ∧ e.wv.openTo e.level = false ∧ e.wv.checkedLevel = none) ∧ e.wv.handler = none ∧
      e.wv.tvec ≠ 0 := by
  let i : Instr := .xbegChk (fs 0xE0 0xE0 0xFF 0xFB 0xC00)
  refine ⟨meets i (atWord i fun w => w.setSpan 1 { Span.closed with fails := 8 }) (by decide +kernel),
    meetsBy (P := fun e => e.wv.whole = true ∧ e.wv.openTo e.level = false ∧ e.wv.checkedLevel = none ∧ wsbBytes e.wv.wsb ≠ [] ∧
      e.wv.aborting = none ∧ e.s.grantOfOther e.wid e.wv 1 = none ∧
      (match e.s.commitUp (whoOf e.wv e.wid e.fr) (e.wv.bid e.wid) 1 (wsbBytes e.wv.wsb) with | .ok _ => true | _ => false) = true) i
      (atWord i fun w => { w with wsb := [(0x100000000, { val := 1, loc := .dev 0x100000, writer := 0, lanes := 1 })] }) (by decide +kernel) ?_,
    meets i (atWord i fun w => { w.setSpan 1 { Span.closed with isOpen := true } with tvec := 8 }) (by decide +kernel)⟩
  rintro e ⟨h1, h2, h3, h4, h5, h6, h8⟩
  refine ⟨h1, h2, h3, h4, h5, h6, ?_⟩
  split at h8
  · next s1 hs => exact ⟨s1, hs⟩
  · cases h8

/-! #### Commits, copies, tokens and counters -/

/-- The commit that moves the wave's bytes has an outcome: it aborts the wave, or it asks nothing of a peer. -/
def movesUp (e : Env) (stops : Bool) (s : State) (bytes : Tbl BufByte) : Bool :=
  match s.commitUp (whoOf e.wv e.wid e.fr) (e.wv.bid e.wid) e.level bytes with
  | .ok t => t.aborted e.wid == stops && (stops || decide (t.peerOps = e.s.peerOps))
  | _ => false

theorem moves_of {e : Env} {stops : Bool} {s : State} {bytes : Tbl BufByte} (h : movesUp e stops s bytes = true) : ∃ s1,
    s.commitUp (whoOf e.wv e.wid e.fr) (e.wv.bid e.wid) e.level bytes = .ok s1 ∧ s1.aborted e.wid = stops ∧
      (stops = false → s1.peerOps = e.s.peerOps) := by
  unfold movesUp at h
  split at h
  · next t ht =>
    simp only [Bool.and_eq_true, beq_iff_eq, Bool.or_eq_true, decide_eq_true_eq] at h
    exact ⟨t, ht, h.1, fun hs => h.2.resolve_left (by simp [hs])⟩
  · cases h

/-- Two bytes at home, of lanes 0 and 1. -/
def twoBytes : Tbl WsbByte := [(0x100000000, { val := 1, loc := .dev 0x100000, writer := 0, lanes := 1 }),
  (0x100000002, { val := 1, loc := .dev 0x100002, writer := 1, lanes := 2 })]

/-- A checked span of level 3 whose lanes 0 and 1 have read and written one byte each; `other` is lane 1's byte. -/
def checkedWave (other : Nat) (old : Nat) (w : Wave) : Wave :=
  { w.setSpan 3 { Span.closed with isOpen := true, checked := true, mask := 3 } with
    wsb := twoBytes
    readLog := [{ lane := 0, va := 0x100000000, loc := .dev 0x100000, val := BitVec.ofNat 8 old },
                { lane := 1, va := 0x100000000 + other, loc := .dev (0x100000 + other), val := BitVec.ofNat 8 old }] }

/-- A block whose commit buffer holds no line (R260). -/
def noWays (s : State) : State := s.modBlock 0 fun b => { b with ways := 0 }

/-- The places of the read log at home. -/
def homeOf (e : Env) : State := e.s.atHome (e.wv.readLog.map (·.loc))

/-- The bytes of the lanes that survive. -/
def kept (e : Env) : Tbl BufByte := wsbBytes (e.wv.wsb.filter fun p =>
  (resolve { e with s := homeOf e } e.level).surv.contains p.2.writer || !e.frag.mask.getLsbD p.2.writer)

/-- No grant or abort holds a commit of the level. -/
def ready (e : Env) : Prop := e.wv.aborting = none ∧ e.s.grantOfOther e.wid e.wv e.level = none

/-- What a checked commit needs, and its decidable form. -/
def checkable (e : Env) : Prop :=
  e.wv.checkedLevel = some e.level ∧ e.wv.whole = true ∧ ready e ∧ e.s.homeOk e.wid e.wv.lid (e.wv.readLog.map (·.loc)) ∧
  ∀ r ∈ e.wv.readLog, ∀ p c a, r.loc ≠ .peer p c a

def checkableB (e : Env) : Bool :=
  decide (e.wv.checkedLevel = some e.level) && e.wv.whole && e.wv.aborting.isNone && (e.s.grantOfOther e.wid e.wv e.level).isNone &&
  homeOkB e.s e.wid e.wv.lid (e.wv.readLog.map (·.loc)) &&
  e.wv.readLog.all fun r => match r.loc with | .peer _ _ _ => false | _ => true

theorem checkable_of {e : Env} (h : checkableB e = true) : checkable e := by
  simp only [checkableB, Bool.and_eq_true, decide_eq_true_eq, Option.isNone_iff_eq_none, List.all_eq_true] at h
  obtain ⟨⟨⟨⟨⟨h1, h2⟩, h3⟩, h4⟩, h5⟩, h6⟩ := h
  refine ⟨h1, h2, ⟨h3, h4⟩, homeOk_of h5, fun r hr p c a hl => ?_⟩
  have := h6 r hr
  rw [hl] at this
  cases this

/-- CMT of bytes at the device level, and at the block level where they do not fit and the wave's own span is open. -/
theorem witness_CommitPlain : ∀ stops, ∃ w s e, Issues w s e ∧ e.wv.checkedLevel = none ∧ e.fbit 10 = false ∧ ready e ∧
    ∃ s1, e.s.commitUp (whoOf e.wv e.wid e.fr) (e.wv.bid e.wid) e.level (wsbBytes e.wv.wsb) = .ok s1 ∧ s1.aborted e.wid = stops ∧
      (stops = false → s1.peerOps = e.s.peerOps) := by
  have go (stops : Bool) (i : Instr) (s : State) (h : seesB (fieldsOf i) s (fun e => decide (e.wv.checkedLevel = none ∧
      e.fbit 10 = false ∧ e.wv.aborting = none ∧ e.s.grantOfOther e.wid e.wv e.level = none ∧
      movesUp e stops e.s (wsbBytes e.wv.wsb) = true)) = true) := meetsBy i s h
    (Q := fun e => e.wv.checkedLevel = none ∧ e.fbit 10 = false ∧ ready e ∧
      ∃ s1, e.s.commitUp (whoOf e.wv e.wid e.fr) (e.wv.bid e.wid) e.level (wsbBytes e.wv.wsb) = .ok s1 ∧ s1.aborted e.wid = stops ∧
        (stops = false → s1.peerOps = e.s.peerOps)) fun _ h => ⟨h.1, h.2.1, ⟨h.2.2.1, h.2.2.2.1⟩, moves_of h.2.2.2.2⟩
  let dev : Instr := .cmt (fs 2 0xE0 0xE0 0xE0 0x1800)
  let blk : Instr := .cmt (fs 2 0xE0 0xE0 0xE0 0x800)
  intro stops
  cases stops
  · exact go false dev (atWord dev fun w => { w with wsb := twoBytes }) (by decide +kernel)
  · exact go true blk (noWays (atWord blk fun w => { w.setSpan 2 { Span.closed with isOpen := true } with wsb := twoBytes }))
      (by decide +kernel)

/-- A checked commit whose lanes all survive, one with a conflict, and one that overflows the block's buffer. -/
theorem witness_CommitChecked : ∀ x ∈ [(2, 0, false), (0, 1, false), (2, 0, true)], ∃ w s e, Issues w s e ∧ checkable e ∧
    e.fbit 10 = false ∧ (resolve { e with s := homeOf e } e.level).cause = x.2.1 ∧
    ∃ s1, (homeOf e).commitUp (whoOf e.wv e.wid e.fr) (e.wv.bid e.wid) e.level (kept e) = .ok s1 ∧ s1.aborted e.wid = x.2.2 ∧
      (x.2.2 = false → s1.peerOps = e.s.peerOps) := by
  let cmt : Instr := .cmt (fs 2 0xE0 0xE0 0xE0 0x1800)
  have go (cause : Nat) (stops : Bool) (s : State) (h : seesB (fieldsOf cmt) s (fun e => decide (checkableB e = true ∧ e.fbit 10 = false ∧
      (resolve { e with s := homeOf e } e.level).cause = cause ∧ movesUp e stops (homeOf e) (kept e) = true)) = true) := meetsBy cmt s h
    (Q := fun e => checkable e ∧ e.fbit 10 = false ∧ (resolve { e with s := homeOf e } e.level).cause = cause ∧
      ∃ s1, (homeOf e).commitUp (whoOf e.wv e.wid e.fr) (e.wv.bid e.wid) e.level (kept e) = .ok s1 ∧ s1.aborted e.wid = stops ∧
        (stops = false → s1.peerOps = e.s.peerOps)) fun _ h => ⟨checkable_of h.1, h.2.1, h.2.2.1, moves_of h.2.2.2⟩
  intro x hx
  simp only [List.mem_cons, List.not_mem_nil, or_false] at hx
  rcases hx with rfl | rfl | rfl
  · exact go 0 false (atWord cmt (checkedWave 2 0)) (by decide +kernel)
  · exact go 1 false (atWord cmt (checkedWave 0 0)) (by decide +kernel)
  · exact go 0 true (noWays (atWord cmt (checkedWave 2 0))) (by decide +kernel)

/-- CMT.all with a byte that changed; CMT at another level than the open checked span; ABT without a span and with one. -/
theorem witness_Commits :
    (∃ w s e, Issues w s e ∧ checkable e ∧ (resolve { e with s := homeOf e } e.level).cause = 2 ∧ e.fbit 10 = true ∧
      e.wv.shadow = false) ∧
    (∃ w s e, Issues w s e ∧ e.wv.checkedLevel ≠ none ∧ e.wv.checkedLevel ≠ some e.level ∧ e.wv.handler = none ∧ e.wv.tvec ≠ 0) ∧
    (∃ w s e, Issues w s e ∧ e.wv.openTo e.level = false ∧ e.wv.handler = none ∧ e.wv.tvec ≠ 0) ∧
    ∃ w s e, Issues w s e ∧ e.wv.openTo e.level = true ∧ e.wv.shadow = false := by
  let cmt : Instr := .cmt (fs 2 0xE0 0xE0 0xE0 0x1800)
  let all : Instr := .cmt (fs 2 0xE0 0xE0 0xE0 0x1C00)
  let abt : Instr := .abt (fs 0xE0 0xE0 0xE0 0xE0 0x1000)
  exact ⟨meetsBy (P := fun e => checkableB e = true ∧ (resolve { e with s := homeOf e } e.level).cause = 2 ∧ e.fbit 10 = true ∧
      e.wv.shadow = false) all (atWord all (checkedWave 2 9)) (by decide +kernel) fun _ h => ⟨checkable_of h.1, h.2⟩,
    meets cmt (atWord cmt fun w => { w.setSpan 2 { Span.closed with isOpen := true, checked := true } with tvec := 8 }) (by decide +kernel),
    meets abt (atWord abt fun w => { w with tvec := 8 }) (by decide +kernel),
    meets abt (atWord abt fun w => w.setSpan 2 { Span.closed with isOpen := true }) (by decide +kernel)⟩

/-- A checked commit in which one lane survives and the other does not. -/
theorem witness_CommitSurvivors : ∃ w s e, Issues w s e ∧ (resolve e e.level).surv ≠ [] ∧
    (resolve e e.level).surv ≠ lanesOf e.wv.width e.frag.mask :=
  let i : Instr := .cmt (fs 2 0xE0 0xE0 0xE0 0x1800)
  meets i (atWord i (checkedWave 0 0)) (by decide +kernel)

/-- What a copy plan needs, in decidable form. -/
def copyGoesB (e : Env) (p : CopyPlan) : Bool :=
  !e.wv.tokSet e.token && decide ((e.s.core (coreOfWave e.wid)).copies.length < 32) &&
  (match e.s.block (e.wv.bid e.wid) with | some b => (b.absentAt p.ranges).isNone | none => true) &&
  (p.ranges.isEmpty || !e.wv.draining e.fr) && homeOkB e.s e.wid e.wv.lid (srcLocs (e.srcMap p) (p.moves.map (·.2))) && p.moves.all fun m => (e.srcByte p m.2).isSome

theorem copyGoes_of {e : Env} {p : CopyPlan} (h : copyGoesB e p = true) : CopyGoes e p := by
  simp only [copyGoesB, Bool.and_eq_true, Bool.not_eq_true', decide_eq_true_eq, Bool.or_eq_true, List.isEmpty_iff, List.all_eq_true] at h
  obtain ⟨⟨⟨⟨⟨h1, h2⟩, h3⟩, h4⟩, h5⟩, h6⟩ := h
  refine ⟨h1, h2, fun b hb => ?_, h4, homeOk_of h5, h6⟩
  rw [hb] at h3
  simpa using h3

/-- CPY of 16 bytes from the page into the scratchpad's last 16 bytes, and CPYX of 64 bytes. -/
def cpyPlan (e : Env) (src dst n : Nat) : CopyPlan := {
  moves := (List.range n).map fun i => (dstAt e.ds (dst + i),
    if e.ss = 0 then .mem ((src + i) % 2 ^ 64) else .byte ((scratchBytes e.s (e.wv.bid e.wid) (src + i) 1).headD 0))
  lat := if e.ss = 0 then 600 else 24, size := n, extra := none
  ranges := (if e.ds = 1 ∧ 0 < n then [(dst, n)] else []) ++ if e.ss = 1 ∧ 0 < n then [(src, n)] else [] }

def cpyxPlan (e : Env) (src dst n : Nat) : CopyPlan := {
  moves := (List.range n).map fun i => (dstAt e.ds (dst + i), .ds6 ((src + 3 * (i / 4)) % 2 ^ 64) (i % 4))
  lat := 600, size := n, extra := none, ranges := if e.ds = 1 ∧ 0 < n then [(dst, n)] else [] }

/-- A copy of no bytes. -/
def aCopy : Copy :=
  { id := 0, wid := 0, lid := 1, tok := 0, promise := 0, writes := [], todo := [], got := [], bad := none, extra := none, unacked := 0, fixed := [] }

/-- Words of eight bytes written into memory. -/
def withMem (l : List (Nat × Nat)) (s : State) : State :=
  { s with mem := l.foldl (fun m p => (leBytes 8 p.2).zipIdx.foldl (fun m x => Memory.write m (p.1 + x.2) x.1) m) s.mem }

/-- Tables of context 0 at its base 0 (R427, R428): the 1 GiB page of 0x1_0000_0000, readable and writable, at 0x4000_0000; the page is
in core 0's TLB. -/
def withTables (s : State) : State :=
  (withMem [(0, 0x1001), (0x1000, 0x2001), (0x2020, 0x4000001F)] s).tlbFill 0 0
    { vbase := 0x100000000, size := 2 ^ 30, pbase := 0x40000000, sys := false, x := true, w := true, r := true }

theorem witness_Copies_plain :
    (∃ w s e, Issues w s e ∧ let dst := e.uni e.w.d.toNat .b64
      let src := e.uni e.w.a.toNat .b64
      let n := e.uni e.w.b.toNat .n32
      dst % 16 = 0 ∧ src % 16 = 0 ∧ n % 16 = 0 ∧ e.ds ≠ 0 ∧ dst + n = spaceSize e e.ds ∧ n = 16 ∧ 0 < n ∧ e.ss = 0 ∧
      CopyGoes e (cpyPlan e src dst n)) ∧
    (∃ w s e, Issues w s e ∧ let dst := e.uni e.w.d.toNat .b64
      let src := e.uni e.w.a.toNat .b64
      let n := e.uni e.w.b.toNat .n32
      dst % 16 = 0 ∧ src % 16 = 0 ∧ n % 64 = 0 ∧ e.ds ≠ 0 ∧ dst + n = spaceSize e e.ds ∧ n = 64 ∧ CopyGoes e (cpyxPlan e src dst n)) ∧
    (∃ w s e, Issues w s e ∧ e.uni e.w.d.toNat .b64 % 16 = 0 ∧ e.uni e.w.a.toNat .b64 % 16 = 0 ∧ e.uni e.w.b.toNat .n32 = 0 ∧
      e.uni e.w.d.toNat .b64 ≤ spaceSize e e.ds ∧ e.ss = 0 ∧ e.wv.tokSet e.token = false ∧
      (e.s.core (coreOfWave e.wid)).copies.length < 32) ∧
    (∃ w s e, Issues w s e ∧ e.wv.tokSet e.token = true) ∧
    ∃ w s e, Issues w s e ∧ e.wv.tokSet e.token = false ∧ (e.s.core (coreOfWave e.wid)).copies.length = 31 ∧
      e.uni e.w.d.toNat .b64 % 16 ≠ 0 ∧ e.wv.handler = none ∧ e.wv.tvec ≠ 0 := by
  let cpy : Instr := .cpy (fs 0x88 0x84 0x86 0xE0 0x804)
  let cpyx : Instr := .cpyx (fs 0x88 0x84 0x8A 0xE0 0x3808)
  let st (i : Instr) (d : Nat) : State := withTables (atWord i (withS [(8, d), (4, 0x100000000), (6, 16), (10, 64)]))
  exact ⟨meetsBy (P := fun e => let dst := e.uni e.w.d.toNat .b64
      let src := e.uni e.w.a.toNat .b64
      let n := e.uni e.w.b.toNat .n32
      dst % 16 = 0 ∧ src % 16 = 0 ∧ n % 16 = 0 ∧ e.ds ≠ 0 ∧ dst + n = spaceSize e e.ds ∧ n = 16 ∧ 0 < n ∧ e.ss = 0 ∧
      copyGoesB e (cpyPlan e src dst n) = true) cpy (st cpy 0xFFFF0) (by decide +kernel)
      fun _ ⟨h1, h2, h3, h4, h5, h6, h7, h8, h9⟩ => ⟨h1, h2, h3, h4, h5, h6, h7, h8, copyGoes_of h9⟩,
    meetsBy (P := fun e => let dst := e.uni e.w.d.toNat .b64
      let src := e.uni e.w.a.toNat .b64
      let n := e.uni e.w.b.toNat .n32
      dst % 16 = 0 ∧ src % 16 = 0 ∧ n % 64 = 0 ∧ e.ds ≠ 0 ∧ dst + n = spaceSize e e.ds ∧ n = 64 ∧
      copyGoesB e (cpyxPlan e src dst n) = true) cpyx (st cpyx 0x3FFC0) (by decide +kernel)
      fun _ ⟨h1, h2, h3, h4, h5, h6, h7⟩ => ⟨h1, h2, h3, h4, h5, h6, copyGoes_of h7⟩,
    meets cpy (atWord cpy) (by decide +kernel), meets cpy (atWord cpy fun w => { w with tok := 0xFF }) (by decide +kernel),
    meets cpy ((atWord cpy fun w => { withS [(8, 8)] w with tvec := 8 }).modCore 0 fun c =>
      { c with copies := List.replicate 31 aCopy }) (by decide +kernel)⟩

/-- The environment and the bytes of a parameter area, where ReadsParams holds of them. -/
def params (e : Env) (va n : Nat) : Option (Env × Bytes) :=
  match e.place .read va with
  | some (.peer _ _ _) => none
  | some loc =>
    let locs := (List.range n).map (locPlus loc)
    if homeOkB e.s e.wid e.wv.lid locs then some ({ e with s := e.s.atHome locs }, locs.map ((e.s.atHome locs).homeByte e.wv.ctx))
    else none
  | none => none

theorem params_of {e g : Env} {va n : Nat} {raw : Bytes} (h : params e va n = some (g, raw)) : ReadsParams e va n g raw := by
  unfold params at h
  split at h
  · cases h
  · next loc hne hl =>
    dsimp only at h
    split at h
    · next hs =>
      simp only [Option.some.injEq, Prod.mk.injEq] at h
      obtain ⟨h1, h2⟩ := h
      subst h1
      exact ⟨loc, hl, fun p c a hp => hne p c a hp, homeOk_of hs, rfl, h2.symm⟩
    · cases h
  · cases h

/-- A descriptor of 16 elements of one byte at 0x1_0000_1000, all of them the box (R317). -/
def tensorWords : List Nat := [0x100001000, 0x10, 0, 0x400000000, 0, 0, 0, 0xF]

/-- Tables, and the descriptor at 0x1_0000_0000. -/
def withTensorAt (s : State) : State :=
  withTables (withMem (tensorWords.zipIdx.map fun p => (0x40000000 + 8 * p.2, p.1)) s)

def loadPlan (e : Env) (t : Tensor) (dst : Nat) : CopyPlan := {
  moves := t.toLocal e.coords e.ds dst, lat := 600, size := t.boxBytes, extra := none
  ranges := if e.ds = 1 then [(dst, t.boxBytes)] else [] }

def storePlan (e g : Env) (t : Tensor) (dst : Nat) : CopyPlan :=
  let out := t.toMem e.coords (scratchBytes g.s (e.wv.bid e.wid) dst t.boxBytes)
  { moves := out.1, lat := 24, size := out.1.length, extra := some (out.2, t.base), ranges := if e.ss = 1 then [(dst, t.boxBytes)] else [] }

/-- What CPYT needs, with the box at the end of its local space. -/
def tensorGoes (load : Bool) (e : Env) : Bool :=
  let dst := e.uni e.w.d.toNat .b64
  let src := e.uni e.w.a.toNat .b64
  dst % 16 == 0 && src % 64 == 0 && !e.wv.tokSet e.token && decide ((e.s.core (coreOfWave e.wid)).copies.length < 32) &&
  match params e src 64 with
  | some (g, raw) =>
    match tensorOf raw with
    | some t => decide (dst + t.boxBytes = spaceSize e 1) &&
        (if load then e.ds == 1 && copyGoesB g (loadPlan e t dst) else e.ds == 0 && e.ss == 1 && copyGoesB g (storePlan e g t dst))
    | none => false
  | none => false

/-- CPYT between the tensor and the last 16 bytes of the scratchpad, each way. -/
theorem witness_Copies_tensor (load : Bool) : ∃ w s e, Issues w s e ∧ ∃ g raw t, let dst := e.uni e.w.d.toNat .b64
    dst % 16 = 0 ∧ e.uni e.w.a.toNat .b64 % 64 = 0 ∧ e.wv.tokSet e.token = false ∧
    (e.s.core (coreOfWave e.wid)).copies.length < 32 ∧ ReadsParams e (e.uni e.w.a.toNat .b64) 64 g raw ∧ tensorOf raw = some t ∧
    dst + t.boxBytes = spaceSize e 1 ∧
    (if load then e.ds = 1 ∧ CopyGoes g (loadPlan e t dst) else e.ds = 0 ∧ e.ss = 1 ∧ CopyGoes g (storePlan e g t dst)) := by
  let i (f : Nat) : Instr := .cpyt (fs 0x88 0x84 0x8A 0xE0 f)
  let st (f : Nat) : State := withTensorAt (atWord (i f) (withS [(8, 0xFFFF0), (4, 0x100000000)]))
  have go (e : Env) (h : tensorGoes load e = true) : ∃ g raw t, let dst := e.uni e.w.d.toNat .b64
      dst % 16 = 0 ∧ e.uni e.w.a.toNat .b64 % 64 = 0 ∧ e.wv.tokSet e.token = false ∧
      (e.s.core (coreOfWave e.wid)).copies.length < 32 ∧ ReadsParams e (e.uni e.w.a.toNat .b64) 64 g raw ∧ tensorOf raw = some t ∧
      dst + t.boxBytes = spaceSize e 1 ∧
      (if load then e.ds = 1 ∧ CopyGoes g (loadPlan e t dst) else e.ds = 0 ∧ e.ss = 1 ∧ CopyGoes g (storePlan e g t dst)) := by
    unfold tensorGoes at h
    simp only [Bool.and_eq_true, beq_iff_eq, Bool.not_eq_true', decide_eq_true_eq] at h
    obtain ⟨⟨⟨⟨h1, h2⟩, h3⟩, h4⟩, h5⟩ := h
    split at h5
    · next g raw hp =>
      split at h5
      · next t ht =>
        rw [Bool.and_eq_true, decide_eq_true_eq] at h5
        refine ⟨g, raw, t, h1, h2, h3, h4, params_of hp, ht, h5.1, ?_⟩
        cases load
        · have := h5.2
          simp only [Bool.false_eq_true, if_false, Bool.and_eq_true, beq_iff_eq] at this ⊢
          exact ⟨this.1.1, this.1.2, copyGoes_of this.2⟩
        · have := h5.2
          simp only [if_true, Bool.and_eq_true, beq_iff_eq] at this ⊢
          exact ⟨this.1, copyGoes_of this.2⟩
      · cases h5
    · cases h5
  cases load
  · exact meetsBy (i 0x1001) (st 0x1001) (by decide +kernel) go
  · exact meetsBy (i 0x1004) (st 0x1004) (by decide +kernel) go

/-- What decides the answer of PIN (R402, R403). -/
structure PinView where
  free : Nat → Bool
  half : Bool
  limit : Bool
  remote : Bool

def pinView (e : Env) : PinView :=
  let base := e.uni e.w.a.toNat .b64
  let pages := (List.range (e.uni e.w.b.toNat .n32)).map fun i => (base + 4096 * i) % 2 ^ 64
  let m := unitMap e.s e.wv.ctx .read pages
  let die := dieOfCore (coreOfWave e.wid)
  let grans := pages.filterMap fun va => match unitLoc m va with
    | .ok (.dev pa) => some (pa / 4096)
    | _ => none
  let mine := grans.filter fun g => dieOfPa (4096 * g) == die
  let pinned := dedup ((e.s.retained die).flatMap (fun p => p.2.pinned) ++ mine)
  let own := (e.s.retained die).filter fun p => p.2.owner == e.wv.ctx
  let quota := (e.s.ctx e.wv.ctx).word2.toNat
  { free := fun i => decide (i < 64) && (Tbl.find e.s.retention (retKey die i)).isNone
    half := (List.range 64).any fun k => decide (llcLines (e.s.die die) < 2 * (64 * (pinned.filter fun g => sliceOf (4096 * g) == k).length))
    limit := decide (bits quota 63 56 ≤ own.length ∨ bits quota 55 32 * 1024 < (own.map fun p => p.2.lines).sum + 64 * mine.length)
    remote := decide (mine.length < grans.length) }

/-- PIN of two granules that translate: with no entry free, past half of a slice, past a limit, and with entry 1 the lowest that
is free; and of a granule of another die. -/
theorem witness_Pin : ∀ n < 5, ∃ w s e, Issues w s e ∧
    (let base := e.uni e.w.a.toNat .b64
     let units := e.uni e.w.b.toNat .n32
     base % 4096 = 0 ∧ 0 < units ∧ units = 2 ∧ ∀ va ∈ (List.range units).map fun i => (base + 4096 * i) % 2 ^ 64,
       ∃ l, unitLoc (unitMap e.s e.wv.ctx .read ((List.range units).map fun i => (base + 4096 * i) % 2 ^ 64)) va = .ok l ∧
         ∀ p c a, l ≠ .peer p c a) ∧
    let v := pinView e
    match n with
    | 0 => ∀ i < 64, v.free i = false
    | 1 => v.free 0 = true ∧ v.half = true
    | 2 => v.free 0 = true ∧ v.half = false ∧ v.limit = true
    | 3 => v.free 0 = false ∧ v.free 1 = true ∧ v.half = false ∧ v.limit = false ∧ v.remote = false
    | _ => v.free 0 = true ∧ v.half = false ∧ v.limit = false ∧ v.remote = true := by
  let pin : Instr := .pin (fs 0x83 0x84 0xE2 0xE0 0x1800)
  let entry : Retained := { owner := 0, vbase := 0, units := 1, remote := false, lines := 64, pinned := [0x50000] }
  let at_ (pa : Nat) : State := (withMem [(0, 0x1001), (0x1000, 0x2001), (0x2020, pa + 0x1F)] (atWord pin (withS [(4, 0x100000000)]))).modCtx 0
    fun c => { c with word2 := 0x0100000100000000 }
  have go (n : Nat) (s : State) (P : Env → Bool) (h : seesB (fieldsOf pin) s (fun e => decide (
      let base := e.uni e.w.a.toNat .b64
      let units := e.uni e.w.b.toNat .n32
      base % 4096 = 0 ∧ 0 < units ∧ units = 2 ∧ (((List.range units).map fun i => (base + 4096 * i) % 2 ^ 64).all fun va =>
        match unitLoc (unitMap e.s e.wv.ctx .read ((List.range units).map fun i => (base + 4096 * i) % 2 ^ 64)) va with
        | .ok (.peer _ _ _) => false
        | .ok _ => true
        | _ => false) = true ∧ P e = true)) = true) := meetsBy pin s h (Q := fun e =>
    (let base := e.uni e.w.a.toNat .b64
     let units := e.uni e.w.b.toNat .n32
     base % 4096 = 0 ∧ 0 < units ∧ units = 2 ∧ ∀ va ∈ (List.range units).map fun i => (base + 4096 * i) % 2 ^ 64,
       ∃ l, unitLoc (unitMap e.s e.wv.ctx .read ((List.range units).map fun i => (base + 4096 * i) % 2 ^ 64)) va = .ok l ∧
         ∀ p c a, l ≠ .peer p c a) ∧ P e = true) fun e h => by
      refine ⟨⟨h.1, h.2.1, h.2.2.1, fun va hva => ?_⟩, h.2.2.2.2⟩
      have h4 := List.all_eq_true.1 h.2.2.2.1 va hva
      split at h4
      · cases h4
      · next l hp hl => exact ⟨l, hl, fun p c a hx => hp p c a hx⟩
      · cases h4
  intro n hn
  match n, hn with
  | 0, _ =>
    obtain ⟨w, s, e, h1, h2, h3⟩ := go 0 { at_ 0x40000000 with retention := (List.range 64).map fun i => (retKey 0 i, entry) }
      (fun e => (List.range 64).all fun i => !(pinView e).free i) (by decide +kernel)
    exact ⟨w, s, e, h1, h2, fun i hi => by simpa using List.all_eq_true.1 h3 i (List.mem_range.2 hi)⟩
  | 1, _ =>
    obtain ⟨w, s, e, h1, h2, h3⟩ := go 1 ((at_ 0x40000000).modDie 0 fun d => { d with cancfg := 0x10F })
      (fun e => (pinView e).free 0 && (pinView e).half) (by decide +kernel)
    exact ⟨w, s, e, h1, h2, by simpa using h3⟩
  | 2, _ =>
    obtain ⟨w, s, e, h1, h2, h3⟩ := go 2 { at_ 0x40000000 with retention := [(retKey 0 5, entry)] }
      (fun e => (pinView e).free 0 && (!(pinView e).half && (pinView e).limit)) (by decide +kernel)
    exact ⟨w, s, e, h1, h2, by simpa using h3⟩
  | 3, _ =>
    obtain ⟨w, s, e, h1, h2, h3⟩ := go 3 { at_ 0x40000000 with retention := [(retKey 0 0, { entry with owner := 1 })] }
      (fun e => !(pinView e).free 0 && ((pinView e).free 1 && (!(pinView e).half && (!(pinView e).limit && !(pinView e).remote))))
      (by decide +kernel)
    exact ⟨w, s, e, h1, h2, by simpa using h3⟩
  | 4, _ =>
    obtain ⟨w, s, e, h1, h2, h3⟩ := go 4 (at_ 0x2000000000)
      (fun e => (pinView e).free 0 && (!(pinView e).half && (!(pinView e).limit && (pinView e).remote))) (by decide +kernel)
    exact ⟨w, s, e, h1, h2, by simpa using h3⟩

/-- WAITK and WPRM: the token clear; set; set before and at its promise; a held grant. LAZY and LAZYC;
UNPIN of an entry of its own and of none. -/
theorem witness_TokensAndWindows :
    (∃ w s e, Issues w s e ∧ e.wv.holdsAny = false ∧ e.wv.tokSet e.token = false ∧ Tbl.find e.wv.heldFaults e.token = none) ∧
    (∃ w s e, Issues w s e ∧ e.wv.holdsAny = false ∧ e.wv.tokSet e.token = true ∧ e.wv.handler = none ∧
      e.s.cycOf e.wid + 1 = Tbl.get e.wv.promise e.token 0) ∧
    (∃ w s e, Issues w s e ∧ e.wv.holdsAny = false ∧ e.wv.tokSet e.token = true ∧ e.wv.handler = none ∧
      Tbl.get e.wv.promise e.token 0 = e.s.cycOf e.wid ∧ Tbl.find e.wv.heldFaults e.token = none ∧ e.w.la = 0 ∧ e.wv.tvec ≠ 0) ∧
    (∃ w s e, Issues w s e ∧ e.wv.holdsAny = true ∧ e.wv.handler = none ∧ e.wv.tvec ≠ 0) ∧
    (∃ w s e, Issues w s e ∧ ∃ b g raw x, e.s.block (e.wv.bid e.wid) = some b ∧ Tbl.mem b.lazyWins e.w.d.toNat = false ∧
      e.uni e.w.c.toNat .b64 % 16 = 0 ∧ e.uni e.w.a.toNat .b64 % 64 = 0 ∧ ReadsParams e (e.uni e.w.a.toNat .b64) 64 g raw ∧
      tensorOf raw = some x ∧ e.uni e.w.c.toNat .b64 + x.boxBytes = b.scratchSize ∧
      (∀ v ∈ b.lazyWins, ¬(v.2.off < e.uni e.w.c.toNat .b64 + x.boxBytes ∧ e.uni e.w.c.toNat .b64 < v.2.off + v.2.len)) ∧
      b.lazyWins ≠ []) ∧
    (∃ w s e, Issues w s e ∧ ∃ b, e.s.block (e.wv.bid e.wid) = some b ∧ Tbl.mem b.lazyWins e.w.d.toNat = true ∧
      ∀ v, Tbl.find b.lazyWins e.w.d.toNat = some v → v.inflight = none) ∧
    ∀ n ∈ [3, 4], ∃ w s e, Issues w s e ∧ e.uni e.w.a.toNat .n32 = n ∧
      ((n < 64 ∧ ∃ x, Tbl.find e.s.retention (retKey (dieOfCore (coreOfWave e.wid)) n) = some x ∧ x.owner = e.wv.ctx) ↔ n = 3) := by
  let waitk : Instr := .waitk (fs 0xE0 0xE0 0xE0 0xE0 0x2800)
  let lazy : Instr := .lazy (fs 0x0F 0x81 0x82 0x86 0)
  let lazyc : Instr := .lazyc (fs 0x0F 0xE0 0xE0 0xE0 0)
  let unpin (n : Nat) : Instr := .unpin (fs 0xE0 (0xE0 + n) 0xE0 0xE0 0x1800)
  let win : LazyWin := { off := 0xFFFE0, len := 16, moves := [], present := false, inflight := none }
  refine ⟨meets waitk (atWord waitk) (by decide +kernel),
    meets waitk (atWord waitk fun w => { w with tok := 0x20, promise := [(5, 1)] }) (by decide +kernel),
    meets waitk (atWord waitk fun w => { w with tok := 0x20, tvec := 8 }) (by decide +kernel),
    meets waitk (atWord waitk fun w => { w.setSpan 1 { Span.closed with isOpen := true, checked := true, granted := true, fails := 8 } with
      tvec := 8 }) (by decide +kernel),
    meetsBy (P := fun e => (match e.s.block (e.wv.bid e.wid), params e (e.uni e.w.a.toNat .b64) 64 with
      | some b, some (_, raw) => match tensorOf raw with
        | some x => !Tbl.mem b.lazyWins e.w.d.toNat && e.uni e.w.c.toNat .b64 % 16 == 0 && e.uni e.w.a.toNat .b64 % 64 == 0 &&
          decide (e.uni e.w.c.toNat .b64 + x.boxBytes = b.scratchSize) && decide (b.lazyWins ≠ []) &&
          b.lazyWins.all fun v => !decide (v.2.off < e.uni e.w.c.toNat .b64 + x.boxBytes ∧ e.uni e.w.c.toNat .b64 < v.2.off + v.2.len)
        | none => false
      | _, _ => false) = true) lazy
      (withTensorAt ((atWord lazy (withS [(1, 0x100000000), (6, 0xFFFF0)])).modBlock 0 fun b => { b with lazyWins := [(3, win)] }))
      (by decide +kernel) ?_,
    meetsBy (P := fun e => ((e.s.block (e.wv.bid e.wid)).any fun b => Tbl.mem b.lazyWins e.w.d.toNat &&
        match Tbl.find b.lazyWins e.w.d.toNat with | some v => v.inflight.isNone | none => false) = true) lazyc
      ((atWord lazyc).modBlock 0 fun b => { b with lazyWins := [(15, win)] }) (by decide +kernel) ?_,
?_⟩
  · rintro e h
    split at h
    · next b g raw hb hp =>
      split at h
      · next x hx =>
        simp only [Bool.and_eq_true, Bool.not_eq_true', beq_iff_eq, decide_eq_true_eq, List.all_eq_true, decide_eq_false_iff_not] at h
        obtain ⟨⟨⟨⟨⟨h1, h2⟩, h3⟩, h4⟩, h5⟩, h6⟩ := h
        exact ⟨b, g, raw, x, hb, h1, h2, h3, params_of hp, hx, h4, h6, h5⟩
      · cases h
    · cases h
  · rintro e h
    obtain ⟨b, hb, h2⟩ := (Option.any_eq_true ..).1 h
    rw [Bool.and_eq_true] at h2
    refine ⟨b, hb, h2.1, fun v hv => ?_⟩
    have := h2.2
    rw [hv] at this
    simpa using this
  · have go (n : Nat) (h : seesB (fieldsOf (unpin n)) { atWord (unpin n) with retention := [(retKey 0 3, { owner := 0, vbase := 0, units := 1, remote := false, lines := 32, pinned := [] })] }
        (fun e => decide (e.uni e.w.a.toNat .n32 = n ∧ ((decide (n < 64) &&
          (Tbl.find e.s.retention (retKey (dieOfCore (coreOfWave e.wid)) n)).any fun x => x.owner == e.wv.ctx) = decide (n = 3)))) = true) :=
        meetsBy (unpin n) _ h (Q := fun e => e.uni e.w.a.toNat .n32 = n ∧
          ((n < 64 ∧ ∃ x, Tbl.find e.s.retention (retKey (dieOfCore (coreOfWave e.wid)) n) = some x ∧ x.owner = e.wv.ctx) ↔ n = 3))
        fun e h => ⟨h.1, by
          have h2 := h.2
          rw [← decide_eq_true_iff (p := n = 3), ← h2, Bool.and_eq_true, decide_eq_true_iff, Option.any_eq_true]
          simp only [beq_iff_eq]⟩
    intro n hn
    simp only [List.mem_cons, List.not_mem_nil, or_false] at hn
    rcases hn with rfl | rfl
    · exact go 3 (by decide +kernel)
    · exact go 4 (by decide +kernel)

/-- A region of context 0. -/
def aRegion : Region := { Region.reset with valid := true }

/-- A state with region 5 of context 0 and its number in s1. -/
def withRegion (i : Instr) (r : Region) (f : Wave → Wave := id) : State :=
  (atWord i fun w => f (withS [(1, 5)] w)).setRegion 5 r

/-- What a counter word finds usable. -/
def usableB (e : Env) : Bool :=
  decide (e.rid < 2 ^ 14) && (e.s.region e.rid).valid && (e.s.region e.rid).owner == e.wv.ctx && match e.frag.wait with
    | some (.region _ _ _) => false
    | _ => true

theorem usable_of {e : Env} (h : usableB e = true) : (e.rid < 2 ^ 14 ∧ (e.s.region e.rid).valid = true ∧
    (e.s.region e.rid).owner = e.wv.ctx) ∧ ∀ q p l, e.frag.wait ≠ some (.region q p l) := by
  simp only [usableB, Bool.and_eq_true, decide_eq_true_eq, beq_iff_eq] at h
  refine ⟨⟨h.1.1.1, h.1.1.2, h.1.2⟩, fun q p l hw => ?_⟩
  have := h.2
  rw [hw] at this
  cases this

/-- A region disarmed, armed, and one that completes; the waits of AWAIT that end at once and the one that stays; a region of
another context. -/
theorem witness_Counters :
    (∀ r ∈ [aRegion, { aRegion with armed := true, expected := 64, arrived := 60 },
        { aRegion with armed := true, expected := 64, arrived := 64, phase := 65535 }],
      ∃ w s e, Issues w s e ∧ e.s.region e.rid = r ∧ (e.rid < 2 ^ 14 ∧ (e.s.region e.rid).valid = true ∧
        (e.s.region e.rid).owner = e.wv.ctx) ∧ (∀ q p l, e.frag.wait ≠ some (.region q p l)) ∧ e.wv.holdsAny = false ∧
        e.frag.awaitAns = none) ∧
    (∃ w s e, Issues w s e ∧ usableB e = true ∧ phasePassed ((e.s.regionStep e.rid).region e.rid).phase (e.n64 e.w.b % 65536) = true ∧
      ((e.s.regionStep e.rid).region e.rid).phase = 0 ∧ e.n64 e.w.b = 65535) ∧
    (∃ w s e, Issues w s e ∧ usableB e = true ∧ phasePassed (e.s.region e.rid).phase (e.n64 e.w.b % 65536) = false ∧
      (e.s.region e.rid).armed = true ∧ e.n64 e.w.c = 0 ∧ (e.s.region e.rid).completes = false) ∧
    (∃ w s e, Issues w s e ∧ usableB e = true ∧ phasePassed (e.s.region e.rid).phase (e.n64 e.w.b % 65536) = false ∧
      (e.s.region e.rid).armed = true ∧ e.n64 e.w.c = 2 ^ 64 - 1 ∧ (e.s.region e.rid).completes = false) ∧
    (∃ w s e, Issues w s e ∧ e.rid < 2 ^ 14 ∧ (e.s.region e.rid).valid = true ∧ (e.s.region e.rid).owner ≠ e.wv.ctx ∧
      e.wv.holdsAny = false ∧ e.frag.awaitAns = none ∧ e.wv.handler = none ∧ e.wv.tvec ≠ 0) ∧
    ∃ w s e, Issues w s e ∧ (∀ q p l, e.frag.wait ≠ some (.region q p l)) ∧ e.frag.awaitAns = some 0x5000000000002 ∧
      (e.s.region e.rid).owner ≠ e.wv.ctx := by
  let i : Instr := .await (fs 0x89 0x81 0x82 0x83 0)
  let armed : Region := { aRegion with armed := true, expected := 64, arrived := 60 }
  have go (r : Region) (h : seesB (fieldsOf i) (withRegion i r) (fun e => decide (e.s.region e.rid = r ∧ usableB e = true ∧
      e.wv.holdsAny = false ∧ e.frag.awaitAns = none)) = true) := meetsBy i (withRegion i r) h
    (Q := fun e => e.s.region e.rid = r ∧ (e.rid < 2 ^ 14 ∧ (e.s.region e.rid).valid = true ∧
        (e.s.region e.rid).owner = e.wv.ctx) ∧ (∀ q p l, e.frag.wait ≠ some (.region q p l)) ∧ e.wv.holdsAny = false ∧
        e.frag.awaitAns = none)
    fun _ h => ⟨h.1, (usable_of h.2.1).1, (usable_of h.2.1).2, h.2.2⟩
  refine ⟨?_, meets i (withRegion i { aRegion with armed := true, expected := 1, arrived := 1, phase := 65535 } (withS [(2, 65535)]))
      (by decide +kernel),
    meets i (withRegion i armed) (by decide +kernel), meets i (withRegion i armed (withS [(3, 2 ^ 64 - 1)])) (by decide +kernel),
    meets i (withRegion i { aRegion with owner := 1 } fun w => { w with tvec := 8 }) (by decide +kernel),
    meetsBy (P := fun e => e.frag.wait = none ∧ e.frag.awaitAns = some 0x5000000000002 ∧ (e.s.region e.rid).owner ≠ e.wv.ctx) i
      (withRegion i { aRegion with owner := 1 } (onFrag fun f => { f with awaitAns := some 0x5000000000002 })) (by decide +kernel)
      fun _ ⟨h1, h2⟩ => ⟨fun q p l hw => (by rw [h1] at hw; cases hw), h2⟩⟩
  intro r hr
  simp only [List.mem_cons, List.not_mem_nil, or_false] at hr
  rcases hr with rfl | rfl | rfl
  · exact go _ (by decide +kernel)
  · exact go _ (by decide +kernel)
  · exact go _ (by decide +kernel)

/-! #### The matrix unit -/

/-- A record of 32 rows of 32 bytes of E4M3 at the end of the operand buffer, without scales. -/
def aRecord : ObRec := { base := 1020, size := 1024, pitch := 2, fmt := 1, blk := 0, bf16Scale := false, aoff := 0, boff := 0 }

/-- A state in which record 3 is `aRecord` and the stand share is 16 KiB. -/
def withRecord (i : Instr) (r : ObRec) (f : Wave → Wave := id) : State :=
  (atWord i f).modBlock 0 fun b => { b with recs := [(3, r)], standSize := 0x4000 }

/-- OBR of a legal record and of a stray bit; OBW and OBL without a record and at the end of one; STB at the end of the stand share;
MMSK of a bitmap. -/
theorem witness_OperandBuffer :
    (∃ w s e, Issues w s e ∧ ∃ b, e.s.block (e.wv.bid e.wid) = some b ∧
      ((recordOf (e.uni e.w.a.toNat .b64) (e.uni e.w.b.toNat .b64) b.obufSize).any
        fun r => decide (r.base * 256 + r.size = b.obufSize)) = true) ∧
    (∃ w s e, Issues w s e ∧ ∃ b, e.s.block (e.wv.bid e.wid) = some b ∧
      bits (e.uni e.w.b.toNat .b64) 15 7 ≠ 0 ∧ e.lanes ≠ [] ∧ e.wv.handler = none ∧ e.wv.tvec ≠ 0) ∧
    (∃ w s e, Issues w s e ∧ ∃ b, e.s.block (e.wv.bid e.wid) = some b ∧ Tbl.find b.recs e.w.a.toNat = none ∧ e.lanes ≠ [] ∧
      e.wv.handler = none ∧ e.wv.tvec ≠ 0) ∧
    (∃ w s e, Issues w s e ∧ ∃ b, e.s.block (e.wv.bid e.wid) = some b ∧ ∃ r, Tbl.find b.recs e.w.a.toNat = some r ∧
      (∀ i ∈ e.lanes, e.src e.w.b.toNat .n32 i % (tyBits e.ty / 8) = 0 ∧ e.src e.w.b.toNat .n32 i + tyBits e.ty / 8 ≤ r.size) ∧
      e.w.d.toNat < 0x80 ∧ e.lanes.length = 16) ∧
    (∃ w s e, Issues w s e ∧ ∃ b, e.s.block (e.wv.bid e.wid) = some b ∧ e.uni e.w.a.toNat .b64 % 1024 = 0 ∧
      e.uni e.w.b.toNat .n32 ≠ 0 ∧ e.uni e.w.b.toNat .n32 % 32 = 0 ∧
      e.uni e.w.a.toNat .b64 + e.uni e.w.b.toNat .n32 * 32 * (tyBits e.ty / 8) = b.standSize) ∧
    ∃ w s e, Issues w s e ∧ ∃ b, e.s.block (e.wv.bid e.wid) = some b ∧ let a := e.uni e.w.a.toNat .b64
      let q (o : Nat) : Nat := ofLE (scratchBytes e.s (e.wv.bid e.wid) (a + o) 4)
      a % 16 = 0 ∧ a + 16 = b.scratchSize ∧ b.absentAt [(a, 16)] = none ∧ q 0 = 2 ∧ q 12 % 16 = 0 ∧ q 12 + 128 ≤ b.scratchSize ∧
      b.absentAt [(q 12, 128)] = none := by
  let obr : Instr := .obr (fs 0x0F 0x81 0x82 0xE0 0)
  let obl : Instr := .obl (fs 5 3 6 0xE0 0x300)
  let stb : Instr := .stb (fs 0xE0 0x81 0x82 0xE0 0x3C0)
  let mmsk : Instr := .mmsk (fs 0xE0 0x81 0xE0 0xE0 0)
  have block {Q : Env → Block → Prop} [∀ e b, Decidable (Q e b)] (i : Instr) (s : State)
      (h : seesB (fieldsOf i) s (fun e => decide ((e.s.block (e.wv.bid e.wid)).any (fun b => decide (Q e b)) = true)) = true) :
      ∃ w s e, Issues w s e ∧ ∃ b, e.s.block (e.wv.bid e.wid) = some b ∧ Q e b :=
    meetsBy i s h fun _ h => let ⟨b, hb, hq⟩ := (Option.any_eq_true ..).1 h; ⟨b, hb, of_decide_eq_true hq⟩
  refine ⟨block obr (atWord obr (withS [(1, 2 * 2 ^ 32 + 3 * 2 ^ 16 + 1020), (2, 0x21)])) (by decide +kernel),
    block obr (atWord obr fun w => { withS [(1, 2 * 2 ^ 32 + 3 * 2 ^ 16 + 1020), (2, 0xA1)] w with tvec := 8 }) (by decide +kernel),
    block obl (atWord obl fun w => { w with tvec := 8 }) (by decide +kernel),
    meetsBy (P := fun e => (e.s.block (e.wv.bid e.wid)).any (fun b => (Tbl.find b.recs e.w.a.toNat).any fun r =>
      decide ((∀ i ∈ e.lanes, e.src e.w.b.toNat .n32 i % (tyBits e.ty / 8) = 0 ∧ e.src e.w.b.toNat .n32 i + tyBits e.ty / 8 ≤ r.size) ∧
      e.w.d.toNat < 0x80 ∧ e.lanes.length = 16)) = true) obl (withRecord obl aRecord (withV [(6, 0, 1020), (6, 1, 4)])) (by decide +kernel)
      fun _ h => let ⟨b, hb, h2⟩ := (Option.any_eq_true ..).1 h
        let ⟨r, hr, h3⟩ := (Option.any_eq_true ..).1 h2
        ⟨b, hb, r, hr, of_decide_eq_true h3⟩,
    block stb (withRecord stb aRecord (withS [(2, 512)])) (by decide +kernel),
    block mmsk ((atWord mmsk (withS [(1, 0xFFFF0)])).modBlock 0 fun b => { b with scratch := [(0xFFFF0, 2), (0xFFFFC, 16)] })
      (by decide +kernel)⟩

/-- Some block and some lanes: a property of the environment and of its block. -/
theorem meetsBlock {Q : Env → Block → Prop} [∀ e b, Decidable (Q e b)] (i : Instr) (s : State)
    (h : seesB (fieldsOf i) s (fun e => decide ((e.s.block (e.wv.bid e.wid)).any (fun b => decide (Q e b)) = true)) = true) :
    ∃ w s e, Issues w s e ∧ ∃ b, e.s.block (e.wv.bid e.wid) = some b ∧ Q e b :=
  meetsBy i s h fun _ h => let ⟨b, hb, hq⟩ := (Option.any_eq_true ..).1 h; ⟨b, hb, of_decide_eq_true hq⟩

/-- Where a block scale has no value, and why (R349). -/
def badScale (e : Env) (b : Block) (r : ObRec) (o reason : Nat) : Prop :=
  let x := ofLE (obufBytes e.s (e.wv.bid e.wid) o r.scaleBytes)
  if b.obufSize < o + r.scaleBytes then reason = 6
  else if r.bf16Scale then reason = 5 ∧ (fval .bf16 x).isFin = false
  else reason = 4 ∧ x = 255

/-- It has one, in decidable form. -/
def scaleFits (e : Env) (b : Block) (r : ObRec) (o : Nat) : Bool :=
  let x := ofLE (obufBytes e.s (e.wv.bid e.wid) o r.scaleBytes)
  decide (o + r.scaleBytes ≤ b.obufSize) && if r.bf16Scale then (fval .bf16 x).isFin else x != 255

theorem fits_of {e : Env} {b : Block} {r : ObRec} {o : Nat} (h : scaleFits e b r o = true) (m : Nat) : ¬badScale e b r o m := by
  simp only [scaleFits, badScale, Bool.and_eq_true, decide_eq_true_eq] at h ⊢
  rw [if_neg (by omega)]
  split
  · next hb => rw [if_pos hb] at h; simp [h.2]
  · next hb => rw [if_neg hb, bne_iff_ne] at h; exact fun hx => h.2 hx.2

/-- The stages of a quarter operation's checks (R348, R349): a word that comes as far as stage `n`, and fails there up to stage 7. -/
def quarterCase (n : Nat) (scaled : Bool) (e : Env) (b : Block) : Bool :=
  let k0 := e.uni e.w.c.toNat .n32
  let kk := 32 * (e.f 13 10 + 1)
  let ty := tyAt (e.f 9 5)
  let row (i : Nat) : Nat := e.src e.w.b.toNat .n32 i
  (e.wv.receives (e.lanes.map (tileOf e.w.d.toNat))).isNone && e.lanes.all (fun i => decide (tileOf e.w.d.toNat i < e.wv.accs)) &&
  (if n = 0 then e.lanes.isEmpty else !e.lanes.isEmpty && e.wv.handler.isNone && e.wv.tvec != 0) && match n, Tbl.find b.recs e.w.a.toNat with
    | 0, _ => true
    | 1, x => x.isNone
    | n, some r => let fits := decide (fmtTy r.fmt = ty) && (r.blk != 0) == scaled
      if n = 2 then !fits else fits && match n, e.wv.tile with
      | 3, x => x.isNone
      | n, some t => let pair := Sys2Proof.Machine.pairOk ty (tyAt t.fmt)
        if n = 4 then !pair else
          let range := decide (k0 % 32 = 0 ∧ k0 + kk ≤ t.kt ∧ (k0 + kk) * fmtBytes r.fmt ≤ r.pitch * 16)
          let past (j : Nat) := decide (r.size < row j * r.pitch * 16 + (k0 + kk) * fmtBytes r.fmt)
          if n = 5 then pair && !range else if n = 6 then pair && (range && e.lanes.all past)
          else pair && (range && ((e.lanes.all fun j => !past j) &&
            ((blocksOf r k0 kk).all (fun x => e.lanes.all fun j => scaleFits e b r (r.aScaleAt (row j) x)) &&
              (decide (n = 8) == (blocksOf r k0 kk).all fun x => (List.range 32).all fun c => scaleFits e b r (r.bScaleAt x c)))))
      | _, none => false
    | _, none => false

/-- A word of each stage: no lane; no record; a record of another format; no stand tile; one of a format that does not fit; a range past
the tile; every row past the record's end; a B scale without a value; none of these. -/
theorem witness_QuarterOperations : ∀ n < 9, ∃ w s e, Issues w s e ∧ ∃ b, e.s.block (e.wv.bid e.wid) = some b ∧
    quarterCase n true e b = true := by
  let i : Instr := .mmqs (fs 62 3 0xC0 0x86 0x1E0)
  let idle : Instr := .mmqs { fs 62 3 0xC0 0x86 0x1E0 with k := 1 }
  let r : ObRec := { aRecord with pitch := 4, blk := 2 }
  let w (kt fmt : Nat) (w : Wave) : Wave := { withS [(6, 32)] w with tvec := 8, tile := some { sb := 0, kt := kt, fmt := fmt } }
  have go (n : Nat) (i : Instr) (s : State) (h : seesB (fieldsOf i) s (fun e => decide ((e.s.block (e.wv.bid e.wid)).any (fun b =>
      decide (quarterCase n true e b = true)) = true)) = true) := meetsBlock (Q := fun e b => quarterCase n true e b = true) i s h
  intro n hn
  match n, hn with
  | 0, _ => exact go 0 idle (withRecord idle r (w 64 16)) (by decide +kernel)
  | 1, _ => exact go 1 i (atWord i (w 64 16)) (by decide +kernel)
  | 2, _ => exact go 2 i (withRecord i { r with blk := 0 } (w 64 16)) (by decide +kernel)
  | 3, _ => exact go 3 i (withRecord i r fun w => { w with tvec := 8 }) (by decide +kernel)
  | 4, _ => exact go 4 i (withRecord i r (w 64 12)) (by decide +kernel)
  | 5, _ => exact go 5 i (withRecord i r (w 32 16)) (by decide +kernel)
  | 6, _ => exact go 6 i (withRecord i { r with size := 63 } (w 64 16)) (by decide +kernel)
  | 7, _ => exact go 7 i (withRecord i { r with boff := 65535 } (w 64 16)) (by decide +kernel)
  | 8, _ => exact go 8 i (withRecord i r (w 64 16)) (by decide +kernel)

/-- Groups of products: with 0 × inf, with opposed infinities, with one infinity and a zero scale, and of numbers. -/
theorem witness_GroupSum :
    let one : Val := .num false 1 1 0
    let zero : Val := .num false 0 1 0
    (let l : List Product := [⟨one, one, one⟩, ⟨zero, .inf true, one⟩]
     (∀ p ∈ l, p.scale.isFin = true) ∧ ∃ p ∈ l.filter fun p => !p.scale.isZero, p.a.isZero = true ∧ p.b.isInf = true) ∧
    (∀ x ∈ [true, false], let l : List Product := [⟨.inf true, .inf false, one⟩, ⟨one, .inf x, one⟩, ⟨.inf false, one, zero⟩]
      (∀ p ∈ l, p.scale.isFin = true) ∧ (∀ p ∈ l.filter fun p => !p.scale.isZero, p.a.isNan = false ∧ p.b.isNan = false ∧
        ¬(p.a.isZero = true ∧ p.b.isInf = true) ∧ ¬(p.a.isInf = true ∧ p.b.isZero = true)) ∧
      ((l.filter fun p => !p.scale.isZero).filter fun p => p.a.isInf || p.b.isInf).map
        (fun p => (p.a.sign != p.b.sign) != p.scale.sign) = [true, x]) ∧
    let l : List Product := [⟨one, .num true 3 1 (-2), one⟩]
    (∀ p ∈ l, p.scale.isFin = true) ∧ (l.filter fun p => !p.scale.isZero) = l ∧ (-2 : Int) ≤ 0 ∧ (-2 : Int) ≤ 0 + -2 + 0 := by
  decide +kernel

/-- A pass of the wave's last rows whose member's scales have values. -/
theorem witness_RunQuarter : ∃ (s : State) (p : ArrayPass) (q : Quarter) (w : Wave),
    s.wave q.wid = some w ∧ p.wrote = [] ∧ (∀ x ∈ q.rows, x.1 < 8) ∧ (q.rows.map (·.1)).Nodup ∧ q.rows = [(7, 1), (0, 0)] ∧
    q.record.blk ≠ 0 ∧ ∀ x ∈ q.rows, ∀ g i j, g < p.col.kk / 32 → i < 32 → j < 32 →
      ∀ off ∈ [q.record.aScaleAt x.2 ((32 * (p.col.k0 / 32 + g) + i) / blkLen q.record.blk),
          q.record.bScaleAt ((32 * (p.col.k0 / 32 + g) + i) / blkLen q.record.blk) j],
        if q.record.bf16Scale then (fval .bf16 (ofLE (obufBytes s p.col.bid off q.record.scaleBytes))).isFin = true
        else ofLE (obufBytes s p.col.bid off q.record.scaleBytes) ≠ 255 := by
  let r : ObRec := { aRecord with pitch := 4, blk := 2 }
  let q : Quarter := { wid := 0, op := 0, tile := 62, q := 1, rows := [(7, 1), (0, 0)], record := r }
  let p : ArrayPass := { until_ := 0, lands := 0, wrote := [], col := {
    kind := 0, atype := 15, tile := { sb := 0, kt := 64, fmt := 16 }, bid := 0, k0 := 32, kk := 32, opened := 0, members := [] } }
  let s : State := atWord (.nop (fs 0 0 0 0 0))
  have hw : (s.wave 0).isSome = true := by decide +kernel
  have h : ∀ x ∈ q.rows, ∀ g < p.col.kk / 32, ∀ i < 32, ∀ j < 32,
      ∀ off ∈ [q.record.aScaleAt x.2 ((32 * (p.col.k0 / 32 + g) + i) / blkLen q.record.blk),
          q.record.bScaleAt ((32 * (p.col.k0 / 32 + g) + i) / blkLen q.record.blk) j],
        if q.record.bf16Scale then (fval .bf16 (ofLE (obufBytes s p.col.bid off q.record.scaleBytes))).isFin = true
        else ofLE (obufBytes s p.col.bid off q.record.scaleBytes) ≠ 255 := by decide +kernel
  obtain ⟨w, hw⟩ := Option.isSome_iff_exists.1 hw
  exact ⟨s, p, q, w, hw, rfl, by decide, by decide, rfl, by decide, fun x hx g i j hg hi hj => h x hx g hg i hi j hj⟩

/-- The rows of the last tiles are ready; DRN of the last rows of the scratchpad; DRNS and SWR join a round; ACR stands
behind a quarter operation. -/
theorem witness_Accumulators :
    (∃ w s e, Issues w s e ∧ (∀ i ∈ e.lanes, tileOf e.w.d.toNat i < e.wv.accs) ∧
      e.wv.receives (e.lanes.map (tileOf e.w.d.toNat)) = none ∧
      e.wv.queued (e.lanes.map (tileOf e.w.d.toNat)) = false ∧ e.lanes.length = 16) ∧
    (∃ w s e, Issues w s e ∧ (∀ i ∈ e.lanes, tileOf e.w.a.toNat i < e.wv.accs) ∧
      e.wv.receives (e.lanes.map (tileOf e.w.a.toNat)) = none ∧
      e.wv.queued (e.lanes.map (tileOf e.w.a.toNat)) = false ∧
      ((e.s.block (e.wv.bid e.wid)).any fun b => let o := e.uni e.w.d.toNat .b64
        let p := e.uni e.w.b.toNat .n32
        let size := tyBits e.ty / 8
        let rows := e.lanes.map fun l => (l, o + l * p)
        decide (o % 16 = 0 ∧ p % 16 = 0 ∧ (∀ x ∈ rows, x.2 + 32 * size ≤ b.scratchSize) ∧
          b.absentAt (rows.map fun x => (x.2, 32 * size)) = none)) = true) ∧
    (∃ w s e, Issues w s e ∧ e.lanes ≠ [] ∧ e.wv.tokSet e.token = false ∧ (∀ i ∈ e.lanes, tileOf e.w.a.toNat i < e.wv.accs) ∧
      e.wv.receives (e.lanes.map (tileOf e.w.a.toNat)) = none ∧
      e.wv.queued (e.lanes.map (tileOf e.w.a.toNat)) = false ∧
      ((handleOf (e.uni e.w.b.toNat .b64)).any fun h => (e.s.joinRound e.wv.lid h true).isSome) = true) ∧
    (∃ w s e, Issues w s e ∧ (∀ i ∈ e.lanes, tileOf e.w.a.toNat i < e.wv.accs) ∧
      e.wv.receives (e.lanes.map (tileOf e.w.a.toNat)) = none ∧ e.wv.queued (e.lanes.map (tileOf e.w.a.toNat)) = true) ∧
    ∃ w s e, Issues w s e ∧ e.lanes ≠ [] ∧ e.wv.tokSet e.token = false ∧ (∀ i ∈ e.lanes, tileOf e.w.d.toNat i < e.wv.accs) ∧
      e.wv.receives (e.lanes.map (tileOf e.w.d.toNat)) = none ∧
      ((handleOf (e.uni e.w.a.toNat .b64)).any fun h => (e.s.joinRound e.wv.lid h false).isSome) = true := by
  let acz : Instr := .acz (fs 62 0xE0 0xE0 0xE0 0)
  let drn : Instr := .drn (fs 0x81 62 0x82 0xE0 0x300)
  let acr : Instr := .acr (fs 4 62 0xE0 0xE0 0)
  let drns : Instr := .drns (fs 0xE0 62 0x83 0xE0 0x1B00)
  let swr : Instr := .swr (fs 62 0x83 0xE0 0xE0 0x1B00)
  exact ⟨meets acz (atWord acz) (by decide +kernel),
    meets drn (atWord drn (withS [(1, 0xFF800), (2, 128)])) (by decide +kernel),
    meets drns (atWord drns (withS [(3, 2 ^ 32 + 2 ^ 8 + 5)])) (by decide +kernel),
    meets acr (atWord acr fun w => { w with arrayQ := [.quarter 0 [62]] }) (by decide +kernel),
    meets swr (atWord swr (withS [(3, 2 ^ 32 + 2 ^ 8 + 5)])) (by decide +kernel)⟩

/-! #### Barriers, engines, particles and pairs -/

/-- A change to block 0. -/
def onBlock (f : Block → Block) (s : State) : State := s.modBlock 0 f

/-- A launch record with more bits at 0x18, and with its word at 0xE8. -/
def withFlags (n e8 : Nat) (s : State) : State :=
  let words := placedRecord.set 3 (placedRecord.getD 3 0 ||| BitVec.ofNat 64 n) ++ List.replicate 18 0 ++ [BitVec.ofNat 64 e8]
  { s with launches := [(1, { placedLaunch with words := words })] }

/-- BARB 15 of 16 waves: before the last, the last, and a count that differs; one behind a queued DRN; BARC of 128; a wave that waits at the barrier; SPAWN
with one of two free slots; DETF with a ticket. -/
theorem witness_BarriersAndSpawn :
    (∀ k ∈ [14, 15], ∃ w s e, Issues w s e ∧ ∃ b, e.s.block (e.wv.bid e.wid) = some b ∧ let a := e.uni e.w.a.toNat .n32
      let n := e.uni e.w.b.toNat .n32
      let bar := Tbl.get b.bars a Barrier.reset
      a ≤ 15 ∧ 1 ≤ n ∧ n ≤ 16 ∧ e.wv.whole = true ∧ e.wv.holdsAny = false ∧ e.wv.arrayQ.any ArrayOp.drains = false ∧ e.frag.wait ≠ some (.barb a) ∧ bar.latched = n ∧
      bar.count = k ∧ (bar.count + 1 < n ↔ k = 14) ∧ ∀ p ∈ e.s.blockWaves (e.wv.bid e.wid), (e.s.wave p.1).any e.s.twinned = false) ∧
    (∃ w s e, Issues w s e ∧ ∃ b, e.s.block (e.wv.bid e.wid) = some b ∧ let a := e.uni e.w.a.toNat .n32
      let n := e.uni e.w.b.toNat .n32
      let bar := Tbl.get b.bars a Barrier.reset
      a = 15 ∧ n = 16 ∧ e.wv.whole = true ∧ e.wv.holdsAny = false ∧ e.wv.arrayQ.any ArrayOp.drains = false ∧ e.frag.wait ≠ some (.barb a) ∧ bar.latched ≠ 0 ∧ bar.latched ≠ n ∧
      e.wv.handler = none ∧ e.wv.tvec ≠ 0) ∧
    (∃ w s e, Issues w s e ∧ e.uni e.w.a.toNat .n32 = 15 ∧ e.uni e.w.b.toNat .n32 = 16 ∧ e.wv.whole = true ∧ e.wv.holdsAny = false ∧
      e.wv.arrayQ.any ArrayOp.drains = true) ∧
    (∃ w s e, Issues w s e ∧ (e.s.crew e.wv.ckey).isSome = true ∧ e.uni e.w.a.toNat .n32 = 15 ∧ e.uni e.w.b.toNat .n32 = 128 ∧
      e.wv.whole = true ∧ e.wv.holdsAny = false ∧ e.frag.wait ≠ some (.barc 15) ∧
      ∀ p ∈ e.s.crewWaves e.wv.lid e.wv.crew, (e.s.wave p.1).any e.s.twinned = false) ∧
    (∃ (t : State) (u : Wave) (fr : Nat) (f : Frag), t.wave 1 = some u ∧
      (t.blockWaves 0).any (fun p => p.1 == 1) = true ∧ (∀ p ∈ t.blockWaves 0, (t.wave p.1).any t.twinned = false) ∧ u.frags = [(fr, f)] ∧ f.wait = some (.barb 15) ∧
      f.clause.isSome = true) ∧
    (∃ w s e, Issues w s e ∧ ∃ b, e.s.block (e.wv.bid e.wid) = some b ∧ e.wv.handler = none ∧
      (b.freePool e.s (coreOfWave e.wid)).length = 2 ∧
      ((e.s.freeIndices (e.wv.bid e.wid)).take (min (e.uni e.w.a.toNat .n32) 2)).length = 1) ∧
    ∃ w s e, Issues w s e ∧ ∃ b, e.s.block (e.wv.bid e.wid) = some b ∧ e.wv.holdsAny = false ∧ e.s.isDet e.wv.lid = true ∧
      e.s.holdsTicket b.lid b.blocklin = true := by
  let barb : Instr := .barb (fs 0xE0 0xEF 0x82 0xE0 0)
  let barc : Instr := .barc (fs 0xE0 0xEF 0x81 0xE0 0)
  let spawn : Instr := .spawn (fs 0x81 0xE1 0xE0 0xE0 5)
  let detf : Instr := .detf (fs 0xE0 0xE0 0xE0 0xE0 0)
  have go (k : Nat) (h : seesB (fieldsOf barb) (onBlock (fun b => { b with bars := [(15, { phase := 0, latched := 16, count := k, arrived := [] })] })
      (atWord barb (withS [(2, 16)]))) (fun e => decide ((e.s.block (e.wv.bid e.wid)).any (fun b => decide (let a := e.uni e.w.a.toNat .n32
      let n := e.uni e.w.b.toNat .n32
      let bar := Tbl.get b.bars a Barrier.reset
      a ≤ 15 ∧ 1 ≤ n ∧ n ≤ 16 ∧ e.wv.whole = true ∧ e.wv.holdsAny = false ∧ e.wv.arrayQ.any ArrayOp.drains = false ∧ e.frag.wait ≠ some (.barb a) ∧ bar.latched = n ∧
      bar.count = k ∧ (bar.count + 1 < n ↔ k = 14) ∧ ∀ p ∈ e.s.blockWaves (e.wv.bid e.wid), (e.s.wave p.1).any e.s.twinned = false)) = true)) = true) := meetsBlock barb _ h
  let waiting : Wave := { placedWave (placedClause 64 0x2800383838B80000) with waveIdx := 1 }
  refine ⟨?_, meetsBlock barb (onBlock (fun b => { b with bars := [(15, { phase := 0, latched := 1, count := 0, arrived := [] })] })
      (atWord barb fun w => { withS [(2, 16)] w with tvec := 8 })) (by decide +kernel),
    meets barb (atWord barb fun w => { withS [(2, 16)] w with arrayQ := [.drain 0 62 12 false [(0, 0)]] }) (by decide +kernel),
    meets barc (atWord barc (withS [(1, 128)])) (by decide +kernel),
    ⟨{ atWord barb with waves := [(1, waiting.modFrag 0 fun f => { f with wait := some (.barb 15) })] }, _, 0, _, rfl,
      by decide +kernel, by decide +kernel, rfl, by decide +kernel, by decide +kernel⟩,
    meetsBlock spawn (onBlock (fun b => { b with pool := [{ slot := 3, vbase := 0, accbase := 0, accs := 0 },
      { slot := 4, vbase := 0, accbase := 0, accs := 0 }] }) (atWord spawn)) (by decide +kernel),
    meetsBlock detf (withFlags (2 ^ 45) 0 (atWord detf)) (by decide +kernel)⟩
  intro k hk
  simp only [List.mem_cons, List.not_mem_nil, or_false] at hk
  rcases hk with rfl | rfl
  · exact go 14 (by decide +kernel)
  · exact go 15 (by decide +kernel)

/-- Lanes that name sequences of all four dies, with room in every engine; records of automata at multiples of 1,024; GMK with a
grammar of 32 tokens and its mask at the end of the scratchpad; SMPL in a PARTICLE launch; WNW's block in the scratchpad; no lane. -/
theorem witness_EngineRequests :
    (∃ w s e, Issues w s e ∧ e.lanes ≠ [] ∧ (∀ d ∈ [0, 1, 2, 3], ∃ i ∈ e.lanes, e.a .n32 i / 2 ^ 30 % 4 = d) ∧
      ∀ n, n < 40 → e.s.engineFull n = false) ∧
    (∃ w s e, Issues w s e ∧ e.lanes = [0, 1] ∧ ∀ i ∈ e.lanes, e.b .b64 i % 1024 = 0 ∧ ∀ j ∈ e.lanes, j ≠ i → e.b .b64 j ≠ e.b .b64 i) ∧
    (∃ w s e, Issues w s e ∧ e.lanes ≠ [] ∧ e.wv.tokSet e.token = false ∧ let o := e.uni e.w.d.toNat .b64
      let c := e.uni e.w.c.toNat .n32
      vocabNow e (e.uni e.w.a.toNat .b64) = some 32 ∧ o % 4 = 0 ∧ c % 4 = 0 ∧ 4 ≤ c ∧
      ∀ i ∈ e.lanes, e.b .b64 i % 1024 = 0 ∧ o + i * c + 4 ≤ spaceSize e 1) ∧
    (∃ w s e, Issues w s e ∧ e.lanes ≠ [] ∧ e.uni e.w.a.toNat .b64 % 16 = 0 ∧ e.fbit 1 = true ∧ e.s.isParticle e.wv.lid = true ∧
      e.fbit 0 = false ∧ e.s.drawing e.wid = false) ∧
    (∃ w s e, Issues w s e ∧ ∃ b, e.s.block (e.wv.bid e.wid) = some b ∧ let n := e.uni e.w.a.toNat .b64
      let q (o k : Nat) : Nat := ofLE (((scratchBytes e.s (e.wv.bid e.wid) n 64).drop o).take k)
      n % 16 = 0 ∧ n + 64 = b.scratchSize ∧ b.absentAt [(n, 64)] = none ∧ e.wv.draining e.fr = false ∧ q 0x18 4 % 16 = 0 ∧ q 0x28 4 % 8 = 0 ∧
      wnwLimits q b.scratchSize = true ∧ e.wv.tokSet e.token = false) ∧
    ∃ w s e, Issues w s e ∧ e.lanes = [] ∧ e.fbit 1 = false := by
  let kvt : Instr := .kvt (fs 4 1 2 3 0)
  let gstp : Instr := .gstp { fs 2 0x82 4 5 1 with k := 1 }
  let gmk : Instr := .gmk (fs 0x81 0x82 4 0xE4 0x800)
  let smpl : Instr := .smpl (fs 10 0x84 0xE0 4 2)
  let wnw : Instr := .wnw (fs 0xE0 0x85 0xE0 0xE0 0x1000)
  let none_ : Instr := .kvt { fs 4 1 2 3 0 with k := 1 }
  let blk : Tbl Byte := [(0xFFFCC, 1), (0xFFFD4, 16), (0xFFFE4, 1)]
  refine ⟨meetsBy (P := fun e => e.lanes ≠ [] ∧ (∀ d ∈ [0, 1, 2, 3], ∃ i ∈ e.lanes, e.a .n32 i / 2 ^ 30 % 4 = d) ∧ e.s.reqs = []) kvt
      (atWord kvt (withV [(1, 1, 2 ^ 30), (1, 2, 2 ^ 31), (1, 3, 3 * 2 ^ 30)])) (by decide +kernel) fun e h => ⟨h.1, h.2.1, fun n hn => by
        unfold State.engineFull
        rw [h.2.2]
        have : ∀ n, n < 40 → decide (engineRoom n ≤ 0) = false := by decide +kernel
        exact this n hn⟩,
    meets gstp (atWord gstp fun w => withK [(1, 3)] (withV [(4, 0, 1024), (4, 1, 2048)] w)) (by decide +kernel),
    meets gmk (withTables (withMem [(0x40000010, 2 ^ 32 + 1), (0x40000018, 32)] (atWord gmk (withS [(1, 0xFFFC0), (2, 0x100000000)]))))
      (by decide +kernel),
    meets smpl (withFlags (2 ^ 48) 0 (atWord smpl)) (by decide +kernel),
    meetsBlock wnw (onBlock (fun b => { b with scratch := blk }) (atWord wnw (withS [(5, 0xFFFC0)]))) (by decide +kernel),
    meets none_ (atWord none_) (by decide +kernel)⟩

/-- A running particle of population 7 on die 3, and its handle. -/
def aParticle : Particle :=
  { w := 0x40400000, pop := 7, st := 2, done := false, parent := 0, seq := 0, gstate := 0, index := 0 }
def aHandle : Nat := 3 * 2 ^ 30 + 7 * 2 ^ 22 + 0xFFFF

/-- A PARTICLE launch of population 7, and the particle. -/
def withParticle (p : Particle) (s : State) : State :=
  { withFlags (2 ^ 48) (7 * 2 ^ 56) s with particles := [(handleKey aHandle, p)] }

/-- A weight operation of the particle of the last number; a handle of no particle, and one that does not run; RSB; POPR of the wave's
own particle; a launch that is not PARTICLE. -/
theorem witness_ParticleWords :
    (∃ w s e, Issues w s e ∧ e.s.isParticle e.wv.lid = true ∧ e.killing = false ∧ e.lanes = [3] ∧
      ∀ l ∈ e.lanes, e.s.handleBad e.wv.lid (e.a .n32 l) true = none) ∧
    (∀ n ∈ [1, 2], ∃ w s e, Issues w s e ∧ e.s.isParticle e.wv.lid = true ∧ e.killing = false ∧ e.lanes = [3] ∧
      e.s.handleBad e.wv.lid (e.a .n32 3) true = some n ∧ e.wv.handler = none ∧ e.wv.tvec ≠ 0) ∧
    (∃ w s e, Issues w s e ∧ e.s.isParticle e.wv.lid = true ∧ e.killing = false ∧ e.wv.whole = true ∧ e.wv.spanOpen = false ∧
      e.wv.handler = none ∧ e.s.detQuorum e.wv.lid = false) ∧
    (∃ w s e, Issues w s e ∧ e.s.isParticle e.wv.lid = true ∧ e.killing = false ∧ e.w.a = 0xE0 ∧
      e.s.handleBad e.wv.lid e.wv.part.toNat false = none) ∧
    (∃ w s e, Issues w s e ∧ e.s.isParticle e.wv.lid = true ∧ e.killing = false ∧ e.w.a = 0xE0 ∧
      e.s.handleBad e.wv.lid e.wv.part.toNat false = some 1 ∧ e.wv.handler = none ∧ e.wv.tvec ≠ 0) ∧
    ∃ w s e, Issues w s e ∧ e.s.isParticle e.wv.lid = false ∧ e.wv.handler = none ∧ e.wv.tvec ≠ 0 := by
  let pwset : Instr := .pwset { fs 0xE0 2 4 0xE0 0 with k := 1 }
  let rsb : Instr := .rsb (fs 0xE0 0xE0 0xE0 0xE0 0)
  let popr : Instr := .popr (fs 0x85 0xE0 0xE0 0xE0 6)
  let lane3 (h : Nat) (w : Wave) : Wave := { withK [(1, 8)] (withV [(2, 3, h)] w) with tvec := 8 }
  have bad (h n st : Nat) (d : seesB (fieldsOf pwset) (withParticle { aParticle with st := st } (atWord pwset (lane3 h))) (fun e => decide (
      e.s.isParticle e.wv.lid = true ∧ e.killing = false ∧ e.lanes = [3] ∧ e.s.handleBad e.wv.lid (e.a .n32 3) true = some n ∧
      e.wv.handler = none ∧ e.wv.tvec ≠ 0)) = true) := meets pwset _ d
  refine ⟨meets pwset (withParticle aParticle (atWord pwset (lane3 aHandle))) (by decide +kernel), ?_,
    meets rsb (withParticle aParticle (atWord rsb)) (by decide +kernel),
    meets popr (withParticle aParticle (atWord popr fun w => { w with part := BitVec.ofNat 32 aHandle })) (by decide +kernel),
    meets popr (withParticle aParticle (atWord popr fun w => { w with tvec := 8 })) (by decide +kernel),
    meets popr (atWord popr fun w => { w with tvec := 8 }) (by decide +kernel)⟩
  intro n hn
  simp only [List.mem_cons, List.not_mem_nil, or_false] at hn
  rcases hn with rfl | rfl
  · exact bad 5 1 2 (by decide +kernel)
  · exact bad aHandle 2 1 (by decide +kernel)

/-- A pair: it issues with the fields that a pair has. -/
theorem witness_PairWords : ∃ s e, Issues { ext := none, la := 0, k := 0, kn := false, d := 0, a := 0, b := 0, c := 0, f := 0 } s e ∧
    ∃ (x y : Half) (sx sy : HalfShape), halfShape x.op7.toNat = some sx ∧ halfShape y.op7.toNat = some sy ∧ sx.usesA = true ∧
      sy.usesA = true ∧ x.d ≠ y.d ∧ x.d.toNat < 0xC0 ∧ y.d.toNat < 0xC0 ∧ e.lanes.length = 16 ∧
      ∀ l ∈ e.lanes, trappedFlags e.wv.fpctl (mergeFlags [(halfVal 1 (e.src 2 sx.st l) (e.src 3 sx.st l) (e.src 1 sx.dt l)).2,
        (halfVal 0x14 (e.src 5 sy.st l) (e.src 6 sy.st l) (e.src 0x84 sy.dt l)).2]) = 0 := by
  let x : Half := { op7 := 0x01, d := 1, a := 2, b := 3 }
  let y : Half := { op7 := 0x14, d := 0x84, a := 5, b := 6 }
  have h : seesB { ext := none, la := 0, k := 0, kn := false, d := 0, a := 0, b := 0, c := 0, f := 0 } (atWord (.pairWord x y))
      (fun e => decide (e.lanes.length = 16) && (halfShape 1).any fun sx => (halfShape 0x14).any fun sy => sx.usesA && sy.usesA &&
        e.lanes.all fun l => decide (trappedFlags e.wv.fpctl (mergeFlags [(halfVal 1 (e.src 2 sx.st l) (e.src 3 sx.st l) (e.src 1 sx.dt l)).2,
          (halfVal 0x14 (e.src 5 sy.st l) (e.src 6 sy.st l) (e.src 0x84 sy.dt l)).2]) = 0)) = true := by decide +kernel
  obtain ⟨e, he, h⟩ := sees h
  rw [Bool.and_eq_true] at h
  obtain ⟨sx, hx, h2⟩ := (Option.any_eq_true ..).1 h.2
  obtain ⟨sy, hy, h3⟩ := (Option.any_eq_true ..).1 h2
  simp only [Bool.and_eq_true, List.all_eq_true, decide_eq_true_eq] at h3
  exact ⟨_, e, he, x, y, sx, sy, hx, hy, h3.1.1, h3.1.2, by decide, by decide, by decide, of_decide_eq_true h.1, h3.2⟩

/-! #### Encodings and steps -/

theorem witness_DecodeEncodeRoundTrip :
    WellFormed (.fmul { fs 3 2 0xFF 0xE0 0x300 with ext := some 0x40400000 }) = true ∧
    encode (.fmul { fs 3 2 0xFF 0xE0 0x300 with ext := some 0x40400000 }) ≠ [] ∧
    ∃ r, decode [0x908000C0BFF80300, 0x40400000, 5] = .ok r := by
  refine ⟨by decide +kernel, by decide +kernel, _, rfl⟩

theorem ok_of {ε α : Type} [DecidableEq α] {x : Except ε α} {a : α}
    (h : (match x with | .ok p => decide (p = a) | .error _ => false) = true) : x = .ok a := by
  cases x with
  | ok p => rw [of_decide_eq_true h]
  | error _ => cases h

theorem error_of {ε α : Type} [DecidableEq ε] {x : Except ε α} {a : ε}
    (h : (match x with | .ok _ => false | .error p => decide (p = a)) = true) : x = .error a := by
  cases x with
  | ok _ => cases h
  | error p => rw [of_decide_eq_true h]

/-- The placed word, one with the lookahead that the clause still holds, a word of a class that does not admit it, one before its
result's window ends, and an event on the agenda. -/
theorem witness_StepRunsDecoded :
    (∃ (s : State) (wid fr : Nat) (rest : List (Nat × Nat)) (w : Wave) (f : Frag) (c : Clause) (i : Instr) (tail : List W64), s.agenda = [] ∧ s.picked = (wid, fr) :: rest ∧ s.fragAt wid fr = some (w, f) ∧ f.clause = some c ∧
      w.frozen = none ∧ w.ending = false ∧ decode (c.words.drop c.idx) = .ok (i, tail) ∧ admitted w.allot i = true ∧ classFits c.hdr i tail.isEmpty = true ∧
      lookahead i ≤ tail.length ∧ lookahead i = 3 ∧ hazard w fr f.mask c i ≠ .violation) ∧
    (∃ (s : State) (wid fr : Nat) (rest : List (Nat × Nat)) (w : Wave) (f : Frag) (c : Clause) (e : Env), s.agenda = [] ∧ s.picked = (wid, fr) :: rest ∧ s.fragAt wid fr = some (w, f) ∧ f.clause = some c ∧
      w.frozen = none ∧ w.ending = false ∧ Issues (unpack c.word c.ext) { s with picked := rest, cur := some (wid, fr) } e ∧ w.handler = none ∧ w.tvec ≠ 0 ∧
      inspect w.allot c = .error cILLEGAL) ∧
    ∃ (s : State) (i : Instr) (rest : List (Option Instr)), s.agenda = some i :: rest := by
  let i : Instr := .ld { fs 1 0x80 0xE0 0xE0 0xC0 with la := 3 }
  let s : State := State.reset.withWord 64 (codeNat i)
  let bad : State := (State.reset.withWord 64 0x02C0383838380000).modWave 0 fun w => { w with tvec := 8 }
  refine ⟨⟨s, 0, 0, [], _, _, _, i, List.replicate 3 nopWord, rfl, rfl, rfl, rfl, by decide +kernel, by decide +kernel, ok_of (by decide +kernel),
      by decide +kernel, by decide +kernel, by decide +kernel, by decide +kernel, by decide +kernel⟩, ?_,
    ⟨{ State.reset with agenda := [some i] }, i, [], rfl⟩⟩
  obtain ⟨e, he, -⟩ := sees (P := fun _ => true) (w := unpack 0x02C0383838380000 none) (s := { bad with picked := [], cur := some (0, 0) })
    (by decide +kernel)
  exact ⟨bad, 0, 0, [], _, _, _, e, rfl, rfl, rfl, rfl, by decide +kernel, by decide +kernel, he, by decide +kernel, by decide +kernel,
    error_of (by decide +kernel)⟩

/-- The step from reset, and one of a store's bytes in memory. -/
theorem witness_StepKeepsMemoryForm : ∃ s t, MemOk s ∧ s.mem ≠ [] ∧ step s = .next t := by
  have h : (match step (withMem [(8, 1)] State.reset) with | .next _ => true | _ => false) = true := by decide +kernel
  split at h
  · next t ht => exact ⟨withMem [(8, 1)] State.reset, t, ⟨by decide +kernel, by decide +kernel⟩, by decide +kernel, ht⟩
  · cases h

/-! #### Windows, the link and services -/

/-- A package that runs: its images verified, dies 0 and 3 out of reset, context 2 with tables. -/
def running : State :=
  { withTables State.reset with
    sec := { State.reset.sec with booted := true, running := [0, 1, 2, 3, 4, 5] }
    dies := [(0, { Die.reset with inReset := false }), (3, { Die.reset with inReset := false })] }

/-- Every master reaches a die: function 0, the last function, the die's own hart; each write of DieWindows does something, and
something that it may not. -/
theorem witness_DieWindows :
    (∀ m ∈ [Master.fn 0, .fn 63, .hart 3], running.reaches m 3) ∧ fullRights (.fn 0) ∧ fullRights (.hart 3) ∧ ¬fullRights (.fn 63) ∧
    (∀ b ∈ running.blocks, b.1 / 8 / 64 ≠ 3) ∧ running.retained 3 = [] ∧ running.mayWrite (.fn 0) 255 ∧ running.mayWrite (.hart 3) 255 ∧
    ¬running.mayWrite (.fn 63) 255 ∧ (running.region (4096 * 3 + (running.die 3).rwsel.toNat)).armed = false ∧
    (running.pool (poolKey 3 0)).valid = false ∧ (running.particle (65536 * 3)).st < 2 := by
  refine ⟨?_, .inl rfl, .inr ⟨3, rfl⟩, fun h => ?_, by decide +kernel, by decide +kernel, .inl rfl, trivial, fun h => ?_, by decide +kernel,
    by decide +kernel, by decide +kernel⟩
  · intro m hm
    simp only [List.mem_cons, List.not_mem_nil, or_false] at hm
    rcases hm with rfl | rfl | rfl
    · exact ⟨by decide, by decide, by decide +kernel⟩
    · exact ⟨by decide, by decide, by decide +kernel⟩
    · exact ⟨by decide, rfl, by decide +kernel⟩
  · rcases h with h | ⟨d, h⟩ <;> cases h
  · rcases h with h | h
    · cases h
    · exact absurd h (by decide +kernel)

/-- Functions that are served; a population without a live launch; a context that is not valid and one that is; an empty queue with
room for its tail; an aperture entry that no live launch uses. -/
theorem witness_FunctionWindows :
    running.served 0 ∧ running.served 63 ∧ running.popLive 0 = false ∧ (running.ctx 255).word0.toNat % 2 = 0 ∧
    (∃ s : State, s.served 0 ∧ (s.ctx 255).word0.toNat % 2 = 1 ∧ s.ctxLive 255 = false) ∧
    (∃ s : State, s.served 0 ∧ s.frontRuns = true ∧ s.holds 0 255 = true ∧ let x := s.queue 255 63
      let n := 2 ^ x.log2n
      n = 1024 ∧ x.head = x.tail ∧ (x.tail + n - x.head) % n + (1023 + n - x.tail) % n < n) ∧
    ¬(bit (Tbl.get running.apertures 255 (0, 0)).1.toNat 55 = true) ∧ bit (2 ^ 48) 48 = true :=
  ⟨⟨by decide, by decide +kernel⟩, ⟨by decide, by decide +kernel⟩, by decide +kernel, by decide +kernel,
   ⟨running.modCtx 255 fun c => { c with word0 := 1 }, ⟨by decide, by decide +kernel⟩, by decide +kernel, by decide +kernel⟩,
   ⟨running.modQueue 255 63 fun q => { q with log2n := 10 }, ⟨by decide, by decide +kernel⟩, by decide +kernel, by decide +kernel,
    by decide +kernel, by decide +kernel, by decide +kernel⟩, by decide +kernel, by decide +kernel⟩

/-- Function 0 with a window on context 0 from 0x1_0000_0000, and a port that grants context 0. -/
def linked : State :=
  { running with fns := [(0, { HostFn.reset with hwin := BitVec.ofNat 64 (2 ^ 23 + 0) })]
                 ports := [(15, { Port.reset with grant := [(0, 1)], up := true })] }

/-- Accesses through the window: none at its end, the last of the mapped page, a line that a DET launch holds open, a poisoned line;
a frozen function; a port that is frozen and one that is not granted; each kind of peer access; each kind of answer. -/
theorem witness_LinkEvents :
    linked.served 0 ∧ linked.windowPlaces 0 (2 ^ 36 - 4) 8 .read = none ∧
    ((linked.windowPlaces 0 0x100000000 4 .write).any fun p => decide (p.2 = (List.range 4).map fun i => Loc.dev (0x40000000 + i))) = true ∧
    linked.grantOnLines noWave [.dev 0x40000000] = none ∧ linked.openTo none (.dev 0x40000000) = false ∧
    linked.poisoned (.dev 0x40000000) = false ∧
    (∃ s : State, s.served 0 ∧ s.poisoned (.dev 0x40000000) = true ∧ s.openTo none (.dev 0x40000000) = false) ∧
    (∃ s : State, s.served 0 ∧ s.openTo none (.dev 0x40000000) = true) ∧
    (∃ s : State, (s.fn 63).frozen = true) ∧ (∃ s : State, (s.port 15).frozen = true) ∧
    (linked.port 15).frozen = false ∧ bit (Tbl.get (linked.port 15).grant (0 / 64) 0).toNat (0 % 64) = true ∧
    ¬(bit (Tbl.get (linked.port 0).grant (255 / 64) 0).toNat (255 % 64) = true) ∧
    (match linked.tablePlaces 0 0x100000000 4 .write with | .ok ls => ls.length == 4 | .error _ => false) = true ∧
    (match linked.unitPlaces [(0, 0x13FFFFFFF, 7)] with | .ok l => l == [(0, .dev 0x7FFFFFFF, 7)] | .error _ => false) = true ∧
    (linked.port 15).grants 0 = true ∧ linked.recallRoom [.dev 0x40000000] = true ∧
    ∀ kind ∈ [PeerKind.read, .stale, .atom 0 7, .red 0 7, .swath, .unit], ∃ (s : State) (x : PeerOp), x.kind = kind ∧ x ∈ s.peerOps ∧
      (∀ y ∈ s.peerOps, y.id = x.id → y = x) ∧ ∃ v, s.wave x.wid = some v ∧ v.lid = x.lid := by
  let group : DetGroup := { commits := [], reds := [{ waveIdx := 0, lane := 0, seq := 0, loc := .dev 0x40000000, op := 0, ty := 0, val := 1 }] }
  refine ⟨⟨by decide, by decide +kernel⟩, by decide +kernel, by decide +kernel, by decide +kernel, by decide +kernel, by decide +kernel,
    ⟨{ linked with poison := [lineOf 0x40000000] }, ⟨by decide, by decide +kernel⟩, by decide +kernel, by decide +kernel⟩,
    ⟨{ linked with det := [(detKey 1 0, { opened := group, closed := [], ended := false, seq := 1 })] }, ⟨by decide, by decide +kernel⟩,
      by decide +kernel⟩,
    ⟨linked.modFn 63 fun f => { f with frozen := true }, by decide +kernel⟩,
    ⟨linked.modPort 15 fun p => { p with frozen := true }, by decide +kernel⟩,
    by decide +kernel, by decide +kernel, by decide +kernel, by decide +kernel, by decide +kernel, by decide +kernel,
    by decide +kernel, fun kind _ => ?_⟩
  let x : PeerOp := { id := 9, grp := 9, port := 0, kind := kind, lid := 1, wid := 0, frag := 0, bytes := [], va := 0 }
  refine ⟨{ atWord (.nop (fs 0xE0 0xE0 0xE0 0xE0 0)) with peerOps := [x] }, x, rfl, List.mem_cons_self .., fun y hy _ => ?_, _, rfl, rfl⟩
  simpa using hy

/-- A die in reset, a part that has not booted, one whose security firmware runs; a walk whose page is mapped and one whose is not; a
fault of each kind of waiter; a U line; a request to borrow from a die that lends and from one that does not. -/
theorem witness_ServiceEvents :
    (State.reset.die 3).inReset = true ∧ State.reset.sec.booted = false ∧ State.reset.sec.running = [] ∧
    running.sec.booted = true ∧ 0 ∈ running.sec.running ∧ (running.die 3).inReset = false ∧
    running.walk 0 0x13FFFFFFF ≠ none ∧ running.walk 0 0x140000000 = none ∧ running.hartRuns 3 = true ∧
    (∀ who ∈ [[], [Waiter.copy 255 1], [.frag 8191 31]], ∃ (s : State) (x : FaultRec), (s.die 3).faults[0]? = some x ∧ x.who = who ∧
      s.hartRuns 3 = true ∧ let t := s.modDie 3 fun d => { d with faults := d.faults.eraseIdx 0 }
      (t.die (dieOfCore (coreOfWave 8191))).waitsFor 8191 31 = false) ∧
    (∃ (s : State) (x : WalkReq), (s.die 3).walks = [x] ∧ (s.die 3).walkCache = []) ∧
    (∃ (s : State) (u : ULine), Tbl.find (s.core 255).u 5 = some u ∧ u.elems ≠ [] ∧
      s.roomFor_ (s.uKeys ((s.core 255).uOf (sbOf (devLineKey u.ctx 5)))) = true) ∧
    ∀ lends : Bool, ∃ s : State, (s.pool (poolKey 3 15)).asking = some [0] ∧ let mine := s.pool (poolKey 3 15)
      let other := s.pool (poolKey 0 15)
      ((other.valid = true ∧ other.borrow = true ∧ other.owner = mine.owner ∧ other.log2ps = mine.log2ps ∧
        other.lowat + 64 ≤ other.freePages) ↔ lends = true) := by
  refine ⟨by decide +kernel, by decide +kernel, by decide +kernel, by decide +kernel, by decide +kernel, by decide +kernel,
    by decide +kernel, by decide +kernel, by decide +kernel, fun who hw => ?_,
    ⟨running.modDie 3 fun d => { d with walks := [{ ctx := 0, va := 0x100000000, need := .read, wid := 0, frag := 0 }] }, _, rfl,
      by decide +kernel⟩,
    ⟨running.modCore 255 fun c => { c with u := [(5, { op := 0, ty := 0, lid := 1, ctx := 0, elems := [(0, 1)] })] }, _, rfl,
      by decide +kernel, by decide +kernel⟩, fun lends => ?_⟩
  · simp only [List.mem_cons, List.not_mem_nil, or_false] at hw
    rcases hw with rfl | rfl | rfl <;> exact ⟨running.modDie 3 fun d => { d with faults := [{ ctx := 0, va := 0, need := .fetch, who := _ }] },
      { ctx := 0, va := 0, need := .fetch, who := _ }, rfl, rfl, by decide +kernel, by decide +kernel⟩
  · refine ⟨(running.modPool (poolKey 3 15) fun p => { p with asking := some [0] }).modPool (poolKey 0 15) fun p =>
      { p with valid := true, borrow := true, lowat := 1, npages := if lends then 65 else 64 }, by cases lends <;> decide +kernel, ?_⟩
    cases lends <;> decide +kernel

/-! #### Launches -/

/-- A placed wave that runs, in a package that runs. -/
def alive (f : Wave → Wave := id) : State :=
  let s := running.withWord 64 0x0000383838380000
  { s.modWave 0 f with picked := [] }

/-- A record that has been read and is ready. -/
def aSlot (at_ : Nat) : LSlot := { words := placedRecord, edges := [], readyAt := some at_, lid := none }

/-- The bind record of the placed wave, the last of its gang. -/
def aBind : BindRec :=
  { core := 0, w0 := 0x0000000100000080, w1 := 0, w2 := BitVec.ofNat 64 (15 * 2 ^ 49 + 64 * 2 ^ 32), w3 := 0 }

/-- Launch 1 with no wave yet, for a context with a quota of 1. -/
def bindable : State :=
  { running.modCtx 0 fun c => { c with word2 := 0x10000 } with
    launches := [(1, { placedLaunch with offered := 1, crewDie := [(0, 0)] })], slots := [(0, { aSlot 0 with lid := some 1 })] }

/-- A PARTICLE launch's round of population 7. -/
def aRound : RoundState :=
  { pop := 7, quorum := false, q := 0, maxRound := 0, unbound := [], sent := [], today := [], arrived := [], members := [], clones := [], toOpen := true
    extinct := false }

/-- Two slots that wait, of which the first was ready first; crews to offer, returned or new, and a particle; a record that passes and
one that does not, and its gang complete; a launch whose block has ended; a slot to pre-empt, whose area is mapped; a crew at rest; a
launch to kill; a round that opens over a ready particle, and one that takes an arrival; a clone that waits. -/
theorem witness_LaunchEvents :
    (∃ (s : State) (x : LSlot), s.frontRuns = true ∧ Tbl.find s.slots 0 = some x ∧ x.waits = some (0, 0) ∧
      ∀ p ∈ s.slots, p ≠ (0, x) → p.2.waits = some (0, 1)) ∧
    (∀ back : List Nat, ∃ (s : State) (l : Launch), s.launch 1 = some l ∧ recField l.words 0x18 43 42 = 0 ∧ (s.die 0).hartFrozen = false ∧
      s.frontRuns = true ∧ l.killReq = none ∧ l.round = none ∧ l.returned = back ∧ l.offered < l.nblocks / crewSizeOf l.words) ∧
    (∃ (s : State) (l : Launch) (r : RoundState), s.launch 1 = some l ∧ l.round = some r ∧
      l.returned ++ r.unbound.map (·.handle) = [2 ^ 30] ++ 5 :: [] ∧ bits 5 31 30 = 0 ∧ Tbl.find l.crewDie 5 = none ∧ bits (2 ^ 30) 31 30 ≠ 0) ∧
    (bindable.hartRuns 0 = true ∧ bindable.refusal aBind = none ∧ running.refusal aBind = some 1) ∧
    (∃ (s : State) (l : Launch) (g : Gang), s.launch 1 = some l ∧
      s.gangs.filter (fun g => g.lid == 1 && s.gangCrew g == 0 && g.glast) = [g] ∧ s.gangReady 1 0 l [g] 0 = true ∧ g.resume = false ∧
      flagOf l.words 46 = false ∧ g.recs = [aBind] ∧ s.lendRoom g.core (waysOn [g] (waysOf l.words) g.core) = true ∧ ∀ p ∈ s.cores, p.2.u = []) ∧
    (∃ (s : State) (l : Launch), s.launch 1 = some l ∧ s.blocksDone 1 l = true ∧ s.carriesDone 1 = true ∧ l.killReq = none) ∧
    (alive.inSlot 0 0 = some (1, 0, 0) ∧ alive.hartRuns 0 = true ∧ (alive.core 0).prBusy.getLsbD 0 = false ∧ alive.areaOk 0 0x100000000 1 = true ∧
      alive.areaOk 0 0x140000000 1 = false ∧ alive.inSlot 0 1 = none) ∧
    (∃ (s : State) (c : Crew), s.crew (crewKey 1 0) = some c ∧ s.crewAtRest 1 0 = true ∧ (s.waves.any fun p => p.2.lid == 1) = true ∧
      (∀ p ∈ s.waves, p.2.holdsAny = false) ∧ s.saveWaits 1 0 c = false) ∧
    (∃ (s : State) (x : LSlot), Tbl.find s.slots 0 = some x ∧ x.lid = none) ∧
    (∃ (s : State) (x : LSlot) (l : Launch), Tbl.find s.slots 0 = some x ∧ x.lid = some 1 ∧ s.launch 1 = some l ∧ s.killWaits 1 = false) ∧
    (∃ (s : State) (x : LSlot) (l : Launch), Tbl.find s.slots 0 = some x ∧ x.lid = some 1 ∧ s.launch 1 = some l ∧ s.killWaits 1 = true ∧
      l.killReq = none) ∧
    (∃ (s : State) (l : Launch) (r : RoundState), s.launch 1 = some l ∧ l.round = some r ∧ r.toOpen = true ∧ l.killReq = none ∧
      (s.isDet 1 = true → s.carriesDone 1 = true) ∧ s.readyParticles l.words r.pop = [65535]) ∧
    (∀ last : Bool, ∃ (s : State) (l : Launch) (r : RoundState), s.launch 1 = some l ∧ l.round = some r ∧ r.isOpen = true ∧ r.sent = [] ∧
      r.today = [9] ∧ s.carried 1 9 = true ∧ s.roundsOver r = false ∧ r.extinct = false ∧
      let k := if r.quorum then min r.q (s.pop r.pop).count else (s.pop r.pop).count
      if last then r.arrived.length + 1 = k else r.arrived.length + 2 = k) ∧
    ∃ (s : State) (r : RoundState), s.round 1 = some r ∧ ∃ j ∈ r.clones, j.waiting = false := by
  let withRound (r : RoundState) (s : State) : State := { s with launches := [(1, { placedLaunch with round := some r })] }
  let gang : Gang := { core := 0, bslot := 0, lid := 1, blocklin := 0, shadow := false, resume := false, glast := true, recs := [aBind] }
  let still : State := (alive fun w => w.modFrag 0 fun f => { f with clause := none }).modBlock 0 fun b => { b with stopping := true }
  let started : LSlot := { aSlot 0 with lid := some 1 }
  refine ⟨⟨{ running with slots := [(0, aSlot 0), (1, aSlot 1)] }, aSlot 0, by decide +kernel, rfl, rfl, by decide +kernel⟩,
    fun back => ⟨{ running with launches := [(1, { placedLaunch with returned := back })] }, { placedLaunch with returned := back }, rfl,
      by show recField placedRecord 0x18 43 42 = 0; decide +kernel, rfl, rfl, rfl, rfl, rfl, by show (0 : Nat) < gridBlocks placedRecord / crewSizeOf placedRecord; decide +kernel⟩,
    ⟨withRound { aRound with unbound := [{ handle := 2 ^ 30, round := 0, nblocks := 1 }, { handle := 5, round := 0, nblocks := 2 }] } running, _, _, rfl, rfl, rfl,
      by decide +kernel, rfl, by decide +kernel⟩,
    ⟨by decide +kernel, by decide +kernel, by decide +kernel⟩,
    ⟨{ bindable with gangs := [gang] }, _, gang, rfl, by decide +kernel, by decide +kernel, rfl, by decide +kernel, rfl,
      by decide +kernel, by decide +kernel⟩,
    ⟨{ running with launches := [(1, { placedLaunch with ended := [0] })] }, _, rfl, by decide +kernel, by decide +kernel, rfl⟩,
    ⟨by decide +kernel, by decide +kernel, by decide +kernel, by decide +kernel, by decide +kernel, by decide +kernel⟩,
    ⟨still, _, rfl, by decide +kernel, by decide +kernel, by decide +kernel, by decide +kernel⟩,
    ⟨{ running with slots := [(0, aSlot 0)] }, aSlot 0, rfl, rfl⟩,
    ⟨{ alive with slots := [(0, started)] }, started, _, rfl, rfl, rfl, by decide +kernel⟩,
    ⟨{ alive.modCore 0 fun c => { c with copies := [aCopy] } with slots := [(0, started)] }, started, _, rfl, rfl, rfl, by decide +kernel, rfl⟩,
    ⟨withRound aRound { running with particles := [(65535, { aParticle with st := 1 })] }, _, _, rfl, rfl, rfl, rfl, by decide +kernel, by decide +kernel⟩,
    fun last => ⟨withRound { aRound with toOpen := false, today := [9] } (running.modPop 7 fun p => { p with count := if last then 1 else 2 }),
      _, _, rfl, rfl, rfl, rfl, rfl, by cases last <;> decide +kernel, by cases last <;> decide +kernel, rfl, by cases last <;> decide +kernel⟩,
    ⟨withRound { aRound with clones := [{ parent := 5, waiting := false, failed := false }] } running, _, rfl, _, List.mem_cons_self .., rfl⟩⟩

/-- Weights with the greatest: +inf and −inf, a difference of 0, of 1, of 40 and of more; a round's masses. -/
theorem witness_Masses :
    let d (m w : Nat) : Val := fval .f32 (deliver fmtF32 .rne (addVal .rne (fval .f32 w) (fval .f32 m).neg)).1
    (∃ e, d 0x3F800000 0x3F800000 = .num false 0 1 e) ∧ (d 0x3F800000 0x7FC00000).isFin = false ∧
    d 0x3F800000 0 = .num true (1 * 2 ^ 23) 1 (-23) ∧ d 0x42200000 0 = .num true (40 * 2 ^ 18) 1 (-18) ∧
    (∃ n, d 0x42200001 0 = .num true n 1 (-18) ∧ 40 * 2 ^ 18 < n) ∧
    ([2 ^ 40, 2 ^ 39] : List Nat).sum = 2 ^ 40 + 2 ^ 39 := by
  refine ⟨⟨-149, by decide +kernel⟩, by decide +kernel, by decide +kernel, by decide +kernel, ⟨10485761, by decide +kernel, by decide⟩, by decide⟩

/-- A round of two particles with weights, and one of a particle of weight −inf; a clone into the lowest free record. -/
theorem witness_Resampling :
    (∀ all : Bool, ∃ (s : State) (l : Launch) (r : RoundState) (keys : List Nat) (m : Nat),
      s.launch 1 = some l ∧ l.round = some r ∧ keys.Pairwise (· < ·) ∧ (∀ k, k ∈ keys ↔ k ∈ r.arrived.map handleKey) ∧
      let nan (k : Nat) : Bool := (fval .f32 (s.particle k).w.toNat).isNan
      let ws := keys.map fun k => if nan k then 0xFF800000 else (s.particle k).w.toNat
      m ∈ 0xFF800000 :: ws ∧ (∀ x ∈ 0xFF800000 :: ws, weightRank x ≤ weightRank m) ∧ ((ws.map (massOf m)).sum = 0 ↔ all = false)) ∧
    ∃ (s : State) (l : Launch) (j : CloneJob), let die := j.parent / 65536
      (s.particle (65536 * die + 1)).free = true ∧ (∀ k, k < 1 → (s.particle (65536 * die + k)).free = false) ∧
      1 ≤ s.particles.length ∧ Tbl.get (s.pop 7).gbase die 0 = 0 ∧ s.liveSeq l.ctx (s.particle j.parent).seq.toNat = none := by
  let p (w : W32) : Particle := { w := w, pop := 7, st := 1, done := false, parent := 0, seq := 0, gstate := 0, index := 0 }
  let at_ (ps : Tbl Particle) (arrived : List Nat) : State :=
    { running with particles := ps, launches := [(1, { placedLaunch with round := some { aRound with arrived := arrived } })] }
  refine ⟨fun all => ?_, at_ [(0, p 0)] [], { placedLaunch with round := some { aRound with arrived := [] } },
    { parent := 0, waiting := false, failed := false }, by decide +kernel, by decide +kernel, by decide +kernel, by decide +kernel, by decide +kernel⟩
  cases all
  · exact ⟨at_ [(5, p 0xFF800000)] [5], _, _, [5], 0xFF800000, rfl, rfl, by decide, fun _ => Iff.rfl, by decide +kernel, by decide +kernel,
      by decide +kernel⟩
  · exact ⟨at_ [(5, p 0x3F800000), (9, p 0x7FC00000)] [9, 5], _, _, [5, 9], 0x3F800000, rfl, rfl, by decide, by
      intro k
      show k ∈ [5, 9] ↔ k ∈ [9, 5]
      simp [or_comm], by decide +kernel, by decide +kernel, by decide +kernel⟩

/-! #### Fragments, waves and units -/

/-- The placed wave's fragment at its header at 0x1_0000_0000, where a word stands; its page is mapped. -/
def atHeader (word : Nat) (f : Frag → Frag := id) : State :=
  withMem [(0x40000000, word), (0x40000008, 0x0000383838380000)] (alive fun w => w.modFrag 0 fun x =>
    f { x with clause := none, pc := 0x100000000 }) |>.tlbFill 0 0
    { vbase := 0x100000000, size := 2 ^ 30, pbase := 0x40000000, sys := false, x := true, w := true, r := true }

/-- Three ready fragments, one of age 256; a header whose clause is one NOP; a word that is no header; an address that is not aligned;
lanes held; a branch that waits for a record; a sleep that ends and a
limit that passes; results that land, with and without a trap; a redirect; a wave that is drained. -/
theorem witness_FragmentEvents :
    (∃ s : State, (s.die (0 / 64)).inReset = false ∧ let a := s.modCore 0 fun c => { c with cyc := c.cyc + 1 }
      a.laneHolders 0 ≤ 2 ∧ ((a.readies 0).map fun x => (x.wid, x.fr, x.age)) = [(0, 0, 0), (1, 0, 256), (2, 0, 7)] ∧
      ((picksOf (a.laneHolders 0) (a.readies 0)).map (·.wid)) = [1, 2]) ∧
    (∀ word ∈ [0xD000000000000000, 0x0000383838380000], ∃ (s : State) (w : Wave) (f : Frag) (hdr : W64), s.fragAt 0 0 = some (w, f) ∧
      f.clause = none ∧ f.parked = none ∧ f.diverge = none ∧ f.free s 0 w = true ∧ w.runs 0 = true ∧ s.twinTurn 0 w (300 + 0) = true ∧
      w.aborting = none ∧ s.heldAtBoundary 0 w = false ∧ (∀ p ∈ w.pending, p.frag = 0 → p.mayTrap = false) ∧
      f.pc.toNat % 8 = 0 ∧ hdr = BitVec.ofNat 64 word ∧ fetchWords s 0 w f.failed f.pc.toNat 1 = .words [hdr] ∧
      (formOf hdr = 3 → ∃ body, fetchWords s 0 w f.failed f.pc.toNat (1 + (headerOf hdr).count) = .words (hdr :: body) ∧
        headerBad hdr body = false ∧ (headerOf hdr).rcv = false ∧ (headerOf hdr).yp ≠ 2 ∧ (headerOf hdr).tw &&& w.tok = 0 ∧
        w.pending = [] ∧ w.heldFaults = [])) ∧
    (∃ (s : State) (w : Wave) (f : Frag), s.fragAt 0 0 = some (w, f) ∧
      f.clause = none ∧ f.parked = none ∧ f.diverge = none ∧ f.free s 0 w = true ∧ w.runs 0 = true ∧ s.twinTurn 0 w (300 + 0) = true ∧
      w.aborting = none ∧ s.heldAtBoundary 0 w = false ∧ w.pending = [] ∧ f.pc.toNat % 8 ≠ 0) ∧
    (∃ (s : State) (w : Wave) (f : Frag), s.fragAt 0 0 = some (w, f) ∧ f.held.isSome = true ∧ f.parked.isSome = true ∧
      w.freeRecord = some 1 ∧ s.twinTurn 0 w (500 + 0) = true) ∧
    (∃ (s : State) (w : Wave) (f : Frag), s.fragAt 0 0 = some (w, f) ∧ f.diverge.isSome = true ∧ f.clause.isSome = true ∧
      w.freeRecord = some 1 ∧ w.runs 0 = true ∧ s.twinTurn 0 w (400 + 0) = true) ∧
    (∃ (s : State) (w : Wave) (f : Frag), s.fragAt 0 0 = some (w, f) ∧ f.wait = some (.sleep 1) ∧ 1 ≤ s.cycOf 0 + 1) ∧
    (∃ (s : State) (w : Wave) (f : Frag), s.fragAt 0 0 = some (w, f) ∧ f.wait = some (.region 5 0 (some 1)) ∧ 1 ≤ s.cycOf 0 + 1 ∧
      (s.region 5).completes = false) ∧
    (∀ trap ∈ [none, some ({ fault := false, cause := 9, info := 0, addr := 0, lanes := 1 } : TrapRec)],
      ∃ (s : State) (w : Wave) (p : Pending), s.wave 0 = some w ∧ w.pending[0]? = some p ∧ p.due = s.cycOf 0 + 1 ∧ p.req = none ∧
        p.trap = trap ∧ (∀ t, p.trap = some t → t.fault = false) ∧ w.heldTraps = [] ∧ w.frozen = none ∧ s.twinTurn 0 w 100 = true) ∧
    (∃ (s : State) (w : Wave), s.wave 0 = some w ∧ w.aborting = some (4, 1) ∧ w.handler = none ∧ w.frozen = none ∧ s.twinned w = false ∧
      (∀ p ∈ w.pending, p.req = none) ∧ (∀ p ∈ w.frags, p.2.clause = none) ∧ (w.span 2).isOpen = true ∧ (w.span 3).isOpen = false ∧
      (w.span 4).isOpen = false) ∧
    ∃ (s : State) (w : Wave), s.wave 0 = some w ∧ s.drained 0 w = true ∧ s.twinned w = false ∧
      s.grantOfOther 0 w 1 = none ∧ ∃ t, s.endMoves 0 w (s.endLevel 0 w) = .go t := by
  let at_ (f : Frag → Frag) : State := alive fun w => w.modFrag 0 f
  let three : State := { alive with waves := ([0, 256, 7] : List Nat).zipIdx.map fun p =>
    (p.2, (placedWave (placedClause 64 0x0000383838380000)).modFrag 0 fun f => { f with age := p.1 }) }
  let group : LaneGroup := { mask := 1, pc := 0x10000, stack := [] }
  let land (t : Option TrapRec) : State := alive fun w => { w with pending :=
    [{ frag := 0, regs := [], lanes := 0, old := [], due := 1, load := false, cl := placedClause 64 0x0000383838380000, winEnd := 0, req := none, trap := t }] }
  refine ⟨⟨three, by decide +kernel, by decide +kernel, by decide +kernel, by decide +kernel⟩, ?_,
    ⟨atHeader 0 fun f => { f with pc := 0x100000004 }, _, _, rfl, rfl, rfl, rfl, by decide +kernel, by decide +kernel, by decide +kernel, rfl,
      by decide +kernel, rfl, by decide +kernel⟩,
    ⟨at_ fun f => { f with held := some group, parked := some 3 }, _, _, rfl, by decide +kernel, by decide +kernel, by decide +kernel,
      by decide +kernel⟩,
    ⟨at_ fun f => { f with diverge := some { taken := group, fall := { group with mask := 6 }, token := 1 } }, _, _, rfl, by decide +kernel,
      by decide +kernel, by decide +kernel, by decide +kernel, by decide +kernel⟩,
    ⟨at_ fun f => { f with wait := some (.sleep 1) }, _, _, rfl, rfl, by decide +kernel⟩,
    ⟨at_ fun f => { f with wait := some (.region 5 0 (some 1)) }, _, _, rfl, rfl, by decide +kernel, by decide +kernel⟩,
    fun t ht => ?_,
    ⟨alive fun w => { (w.modFrag 0 fun f => { f with clause := none }).setSpan 2 { Span.closed with isOpen := true } with aborting := some (4, 1) },
      _, rfl, rfl, rfl, rfl, by decide +kernel, by decide +kernel, by decide +kernel, by decide +kernel, by decide +kernel, by decide +kernel⟩,
    ⟨alive fun w => { w with frags := [] }, _, rfl, by decide +kernel, by decide +kernel, by decide +kernel, _, rfl⟩⟩
  · intro word hw
    simp only [List.mem_cons, List.not_mem_nil, or_false] at hw
    rcases hw with rfl | rfl
    · exact ⟨atHeader 0xD000000000000000, _, _, 0xD000000000000000, rfl, rfl, rfl, rfl, by decide +kernel, by decide +kernel, by decide +kernel,
        rfl, by decide +kernel, by decide +kernel, by decide +kernel, rfl, by decide +kernel,
        fun _ => ⟨[0x0000383838380000], by decide +kernel, by decide +kernel, by decide +kernel, by decide +kernel, by decide +kernel, rfl, rfl⟩⟩
    · exact ⟨atHeader 0x0000383838380000, _, _, 0x0000383838380000, rfl, rfl, rfl, rfl, by decide +kernel, by decide +kernel, by decide +kernel,
        rfl, by decide +kernel, by decide +kernel, by decide +kernel, rfl, by decide +kernel, fun h => absurd h (by decide +kernel)⟩
  · simp only [List.mem_cons, List.not_mem_nil, or_false] at ht
    rcases ht with rfl | rfl
    · exact ⟨land none, _, _, rfl, rfl, rfl, rfl, rfl, (fun t h => nomatch h), rfl, rfl, by decide +kernel⟩
    · exact ⟨land (some { fault := false, cause := 9, info := 0, addr := 0, lanes := 1 }), _, _, rfl, rfl, rfl, rfl, rfl,
        (fun t h => by cases h; rfl), rfl, rfl, by decide +kernel⟩

/-- A sequence of context 0 with one page. -/
def aSeq : Seq := { owner := 0, len := 1, pages := [0] }

/-- A request of the placed wave to the key-value engine of die 0. -/
def aRequest (op : EngOp) : EngReq :=
  { id := 9, engines := [0], wid := 0, frag := 0, ctx := 0, lid := 1, op := op, tok := none, got := [], bad := [], failed := []
    blocked := false }

/-- A TWIN launch whose leader, wave 0, and shadow, on core 1, wait at one compare point. -/
def twins (sig : W64) : State :=
  let s := withFlags (2 ^ 46) 0 alive
  let w := placedWave (placedClause 64 0x0000383838380000)
  let at_ (w : Wave) : Wave := { w with twin := { w.twin with atPoint := some (0, 0x10000, 0) } }
  let shadow : Wave := at_ { w with shadow := true }
  { s with waves := [(0, at_ w), (32, { shadow with twin := { shadow.twin with sig := sig } })]
           blocks := s.blocks ++ s.blocks.map fun p => (8, { p.2 with shadow := true }) }

/-- A copy that is complete once its last byte has been read; one of an open line, and of a poisoned one; one whose destination is not
mapped; a lazy window in flight; a collector of four members, and a closed
one; a request whose turn it is, of each kind; a send, a full round, a result that one wave takes; twins that agree and differ; a phase that
completes; a group of a DET launch. -/
theorem witness_UnitEvents :
    (∃ (s : State) (c : Copy) (w : Wave), s.copyAt 0 7 = some c ∧ s.wave c.wid = some w ∧ s.twinned w = false ∧ w.frozen ≠ some .intrusion ∧
      let reads := s.todoLocs w.ctx c
      let met := s.meetHome reads
      let x := met.readTodo w.ctx c
      let u := x.1.modCopy 0 7 fun _ => x.2
      let locs := u.copyLocs w.ctx x.2.writes
      (∀ l ∈ reads, met.openTo (some c.lid) l = false ∧ met.poisoned l = false) ∧ met.recallRoom reads = true ∧ reads = [.dev 0x40000000] ∧
      x.2.bad = none ∧ x.2.todo = [] ∧ u.copyBad w.ctx x.2 = none ∧ u.sendCopyPieces 0 w.ctx x.2 = none ∧ x.2.unacked = 0 ∧
      u.grantOnLines c.wid (locs.map (·.1)) = none ∧ (∀ l ∈ locs, u.openTo (some c.lid) l.1 = false) ∧
      u.replayRoom c.lid ((devBytes locs).map (·.1)) = true ∧ locs.map (·.1) = [.dev 0x7FFFFFFF, .dev 0x7FFFFFFE]) ∧
    (∀ foul : Bool, ∃ (s : State) (c : Copy) (w : Wave), s.copyAt 0 7 = some c ∧ s.wave c.wid = some w ∧ w.frozen ≠ some .intrusion ∧
      let reads := s.todoLocs w.ctx c
      let met := s.meetHome reads
      (reads.any fun l => met.openTo (some c.lid) l) = !foul ∧ (reads.any fun l => met.poisoned l) = foul) ∧
    (∃ (s : State) (c : Copy) (w : Wave), s.copyAt 0 7 = some c ∧ s.wave c.wid = some w ∧
      let reads := s.todoLocs w.ctx c
      let x := s.readTodo w.ctx c
      (∀ l ∈ reads, s.openTo (some c.lid) l = false ∧ s.poisoned l = false) ∧ s.recallRoom reads = true ∧ x.2.bad = none ∧
      x.1.copyBad w.ctx x.2 = some (7, 0x140000000, true)) ∧
    (∃ (s : State) (b : Block) (v : LazyWin), s.block 0 = some b ∧ Tbl.find b.lazyWins 15 = some v ∧ v.inflight = some [(.sp 0, 7)] ∧
      s.isTwin b.lid = false) ∧
    (∃ (s : State) (x : Collector), (s.core 0).coll = some x ∧ x.members.length = 4 ∧ (s.core 0).cyc = x.opened) ∧
    (∃ (s : State) (x : Collector), (s.core 0).coll = some x ∧ x.members.length = 1 ∧ x.opened + 3 = (s.core 0).cyc) ∧
    (∃ (s : State) (x : Collector), (s.core 0).closed = [x] ∧ (s.core 0).arrayFree ≤ (s.core 0).cyc + 1) ∧
    (∀ op ∈ [EngOp.kvt [(3, 5, 0)] 4 2, .kvc [(3, 5)] 4, .kvf [(3, 5)]], ∃ (s : State) (r : EngReq) (q : Seq), r.op = op ∧
      s.reqs.find? (fun q => q.id == r.id) = some r ∧ s.reqTurn r = true ∧ r.got = [] ∧ r.bad = [] ∧ Tbl.find s.seqs 5 = some q ∧
      q.owner = r.ctx ∧ 0 < q.len ∧ (∃ w, s.wave r.wid = some w) ∧ ((s.cloneSeq 5 q).map (·.1)) = some 0) ∧
    (∃ (s : State) (w : Wave) (x : SwathSend), s.sendAt 9 = some (0, w, x) ∧ s.twinned w = false ∧ s.twinWid 0 w = none ∧
      let sw := s.swath w.lid x.handle.sid
      x.round = sw.round ∧ sw.result = none ∧ sw.awaitPeer = none ∧ sw.contribs.length < x.handle.npart ∧
      s.hubRows (coreOfWave 0 / 8) + x.rows.length = 4096 ∧ s.wave 0 = some w ∧ w.arrayQ = []) ∧
    (∃ (s : State) (h : SwathHandle), let sw := s.swath 1 5
      sw.latch = some h ∧ sw.result = none ∧ sw.awaitPeer = none ∧ sw.contribs.length = h.npart ∧ bit h.peer 7 = false ∧
      (s.launch 1).isSome = true) ∧
    (∃ (s : State) (rows : List SwathRow) (w : Wave) (x : SwathRecv), (s.swath 1 5).result = some rows ∧ s.takers 1 5 = [(0, x)] ∧
      s.wave 0 = some w ∧ s.twinWid 0 w = none ∧ (∀ a ∈ x.targets, a.2.2 < 8) ∧ (x.targets.map (·.2)).Nodup ∧
      x.targets = [(0, 62, 7), (1, 61, 0)] ∧ rows = [{ lane := 1, elems := [5] }] ∧
      (s.swath 1 5).latch.any (fun h => decide (h.nrecv ≤ (s.swath 1 5).taken + 1)) = true) ∧
    (∀ sig : W64, sig = 0 ∨ sig = 1 → ∃ (s : State) (w : Wave) (b : Block) (x : Wave), s.wave 0 = some w ∧ s.block (w.bid 0) = some b ∧
      s.twinWid 0 w = some 32 ∧ s.wave 32 = some x ∧ s.twinned w = true ∧ w.shadow = false ∧ w.frozen = none ∧
      s.ckptReady (w.bid 0) b = false ∧ strays w x = false ∧ b.twin.due = none ∧ bothWait w x = true ∧
      (w.twin.sig = x.twin.sig ↔ sig = 0) ∧ s.blockIdle (w.bid 0) = true) ∧
    (∃ s : State, (s.region 16383).completes = true) ∧
    ∃ (s : State) (l : Launch) (g : DetGroup), s.launch 1 = some l ∧ (s.detBlock 1 l.ticket).closed = [g] ∧ l.killReq = none ∧
      s.grantOnLines noWave g.locs = none ∧ (∀ x ∈ g.locs, s.openTo (some 1) x = false) ∧
      s.replayRoom 1 (g.locs.filterMap fun x => match x with | .dev pa => some pa | _ => none) = true ∧ g.locs ≠ [] := by
  let copying (c : Copy) : State := alive.modCore 0 fun k => { k with copies := [c] }
  let copy : Copy := { aCopy with id := 7, writes := [(.mem 0x13FFFFFFF, 7)], todo := [(.mem 0x13FFFFFFE, .mem 0x100000000)] }
  let bad : Copy := { aCopy with id := 7, writes := [(.mem 0x140000000, 7)] }
  let win : LazyWin := { off := 0, len := 16, moves := [], present := false, inflight := some [(.sp 0, 7)] }
  let member : Quarter × Option MaskState := ({ wid := 0, op := 0, tile := 0, q := 0, rows := [(0, 0)], record := aRecord }, none)
  let coll (n opened : Nat) : Collector :=
    { kind := 0, atype := 15, tile := { sb := 0, kt := 32, fmt := 15 }, bid := 0, k0 := 0, kk := 32, opened := opened
      members := List.replicate n member }
  let handle : SwathHandle := { sid := 5, npart := 1, nrecv := 1, peer := 0 }
  let rows : List SwathRow := List.replicate 4096 { lane := 0, elems := [] }
  let send : SwathSend := { id := 9, handle := handle, round := 0, tok := 3, rows := rows }
  let group : DetGroup :=
    { commits := [], reds := [{ waveIdx := 0, lane := 0, seq := 0, loc := .dev 0x40000000, op := 0, ty := 0, val := 1 }] }
  let taken : Swath := { round := 0, latch := some handle, contribs := [], result := some [{ lane := 1, elems := [5] }], taken := 0
                         awaitPeer := none, fromPeer := [] }
  let recv : SwathRecv := { handle := handle, round := 0, tok := 3, targets := [(0, 62, 7), (1, 61, 0)] }
  refine ⟨⟨copying copy, copy, _, rfl, rfl, by decide +kernel, by decide +kernel, by decide +kernel, by decide +kernel, by decide +kernel,
      by decide +kernel, by decide +kernel, by decide +kernel, by decide +kernel, by decide +kernel, by decide +kernel, by decide +kernel,
      by decide +kernel, by decide +kernel⟩,
    fun foul => ⟨{ copying copy with
        poison := if foul then [lineOf 0x40000000] else []
        det := if foul then [] else [(detKey 2 0, { opened := group, closed := [], ended := false, seq := 1 })] }, copy, _, rfl, rfl,
      by decide +kernel, by cases foul <;> decide +kernel, by cases foul <;> decide +kernel⟩,
    ⟨copying bad, bad, _, rfl, rfl, by decide +kernel, by decide +kernel, by decide +kernel, by decide +kernel⟩,
    ⟨alive.modBlock 0 fun b => { b with lazyWins := [(15, win)] }, _, win, rfl, rfl, rfl, by decide +kernel⟩,
    ⟨running.modCore 0 fun k => { k with coll := some (coll 4 0) }, coll 4 0, by decide +kernel, rfl, by decide +kernel⟩,
    ⟨running.modCore 0 fun k => { k with coll := some (coll 1 0), cyc := 3 }, coll 1 0, by decide +kernel, rfl, by decide +kernel⟩,
    ⟨running.modCore 0 fun k => { k with closed := [coll 4 0], arrayFree := 1 }, coll 4 0, by decide +kernel, by decide +kernel⟩,
    fun op hop => ?_,
    ⟨alive fun w => { w with sends := [send] }, _, send, rfl, by decide +kernel, by decide +kernel, by decide +kernel, by decide +kernel,
      by decide +kernel, by decide +kernel, by decide +kernel, rfl, rfl⟩,
    ⟨{ alive with swaths := [(swathKey 1 5, { round := 0, latch := some handle, contribs := [{ cid := 0, blocklin := 0, waveIdx := 0, rows := [] }]
                                              result := none, taken := 0, awaitPeer := none, fromPeer := [] })] }, handle,
      by decide +kernel, by decide +kernel, by decide +kernel, by decide +kernel, by decide +kernel, by decide +kernel⟩,
    ⟨{ alive fun w => { w with recvs := [recv] } with swaths := [(swathKey 1 5, taken)] }, _, _, recv, rfl, by decide +kernel, rfl,
      by decide +kernel, by decide, by decide, rfl, rfl, by decide +kernel⟩,
    fun sig hs => ?_,
    ⟨running.setRegion 16383 { aRegion with armed := true, expected := 1, arrived := 1 }, by decide +kernel⟩,
    ⟨{ alive with det := [(detKey 1 0, { opened := { commits := [], reds := [] }, closed := [group], ended := false, seq := 1 })] }, _, group,
      rfl, rfl, rfl, by decide +kernel, by decide +kernel, by decide +kernel, by decide +kernel⟩⟩
  · simp only [List.mem_cons, List.not_mem_nil, or_false] at hop
    rcases hop with rfl | rfl | rfl <;>
    exact ⟨{
      (alive.modDie 0 fun d => { d with cancfg := 0x108 }).modPool (poolKey 0 0) fun p => { p with valid := true, npages := 2, fresh := 1 } with
      seqs := [(5, aSeq)], reqs := [aRequest _] },
      aRequest _, aSeq, rfl, rfl, by decide +kernel, rfl, rfl, rfl, rfl, by decide, ⟨_, rfl⟩, by decide +kernel⟩
  · rcases hs with rfl | rfl
    · exact ⟨twins 0, _, _, _, rfl, rfl, by decide +kernel, rfl, by decide +kernel, by decide +kernel, by decide +kernel, by decide +kernel,
        by decide +kernel, by decide +kernel, by decide +kernel, by decide +kernel, by decide +kernel⟩
    · exact ⟨twins 1, _, _, _, rfl, rfl, by decide +kernel, rfl, by decide +kernel, by decide +kernel, by decide +kernel, by decide +kernel,
        by decide +kernel, by decide +kernel, by decide +kernel, by decide +kernel, by decide +kernel⟩

/-! #### Results of the engines -/

/-- What a read of an engine finds, where its pages are at home. -/
def engineReads (s : State) (r : EngReq) (va n : Nat) : Option Bytes :=
  match placesOf s r .read va n with
  | .ok ls => match engineHome s r ls with
    | .ok t => if t = s then some (ls.map (s.homeByte r.ctx)) else none
    | .error _ => none
  | _ => none

theorem reads_of {s : State} {r : EngReq} {va n : Nat} {l : Bytes} (h : engineReads s r va n = some l) :
    ∃ ls, placesOf s r .read va n = .ok ls ∧ engineHome s r ls = .ok s ∧ l = ls.map (s.homeByte r.ctx) := by
  unfold engineReads at h
  split at h
  · next ls hp =>
    split at h
    · next t he =>
      split at h
      · next ht => exact ⟨ls, hp, ht ▸ he, by cases h; rfl⟩
      · cases h
    · cases h
  · cases h

/-- An engine can write there. -/
def engineWrites (s : State) (r : EngReq) (va n : Nat) : Bool :=
  match placesOf s r .write va n with
  | .ok ls => (engineStop s r ls).isNone && (s.grantOnLines r.wid ls).isNone &&
      s.replayRoom r.lid ((devBytes (ls.zip (List.replicate n 0))).map (·.1))
  | _ => false

/-- The placed wave's request alone, with pools and sequences on die 0, a grammar of one symbol and 32 tokens at 0x1_0000_0000 and
a key of 16 bytes at 0x1_0000_0800; its automaton's status is `status`, the mask's address is 0x1_0000_0300 and `off`. -/
def engineState (op : EngOp) (status off len free : Nat) : State :=
  let s := withMem [(0x40000000, 0x100000100), (0x40000008, 0x100000200), (0x40000010, 2 ^ 32 + 1), (0x40000018, 32),
    (0x40000100, 0x100000300 + off), (0x40000108, 2 ^ 32), (0x40000200, 5 * 2 ^ 44), (0x40000300, 0x21), (0x40000400, status * 2 ^ 48),
    (0x40000800, 0x0101010101010101)] alive
  let p : Pool := { (s.pool (poolKey 0 0)) with valid := true, npages := 1 + free, fresh := 1 }
  { (s.modDie 0 fun d => { d with cancfg := 0x108 }).modPool (poolKey 0 0) fun _ => p with
    seqs := [(5, { aSeq with len := len })], reqs := [aRequest op] }

/-- The request is there and has its turn. -/
abbrev itsTurn (s : State) (r : EngReq) : Prop :=
  s.reqs.find? (fun q => q.id == r.id) = some r ∧ s.reqTurn r = true ∧ r.got = [] ∧ r.bad = []

/-- KVA.new of a pool that is none, without a head and with one; KVA.app of no token, past the last page, and of the last page. -/
theorem witness_KvaResults :
    (∃ (s : State) (r : EngReq), itsTurn s r ∧ r.op = .kvaNew [3] 15 4 ∧ (s.pool (poolKey (dieOfCore (coreOfWave r.wid)) 15)).valid = false) ∧
    (∃ (s : State) (r : EngReq), itsTurn s r ∧ r.op = .kvaNew [3] 0 4 ∧ let k := s.pool (poolKey (dieOfCore (coreOfWave r.wid)) 0)
      k.valid = true ∧ k.owner = r.ctx ∧ s.freeHead (dieOfCore (coreOfWave r.wid)) = some 0 ∧ s.mapRoom (dieOfCore (coreOfWave r.wid)) 64 = true) ∧
    (∀ n ∈ [0, 64, 65536], ∃ (s : State) (r : EngReq) (q : Seq), itsTurn s r ∧ r.op = .kvaApp [(3, 5, n)] 4 ∧ Tbl.find s.seqs 5 = some q ∧
      q.owner = r.ctx ∧ q.len = 64 ∧ ((n = 0 ∨ 65535 < n ∨ 2 ^ 24 ≤ q.len + n) ↔ n ≠ 64)) ∧
    ∀ free : Bool, ∃ (s : State) (r : EngReq) (q : Seq), itsTurn s r ∧ r.op = .kvaApp [(3, 5, 64)] 4 ∧ Tbl.find s.seqs 5 = some q ∧
      q.owner = r.ctx ∧ let k := s.pool (poolKey (seqDie 5) (seqPool 5))
      let need := ceilDiv (q.len + 64) 64 - ceilDiv q.len 64
      q.len % 64 = 0 ∧ need = 1 ∧ k.asking = none ∧ (if free then k.freePages = need else k.freePages + 1 = need) ∧
      (∀ x ∈ (Pool.take (seqDie 5) need k []).1, free = true → pageDie x = seqDie 5) ∧
      s.mapRoom (seqDie 5) (2 * (Pool.take (seqDie 5) need k []).1.length +
        256 * (listBlocks (q.pages.length + need) - listBlocks q.pages.length)) = true := by
  refine ⟨⟨engineState (.kvaNew [3] 15 4) 0 0 64 1, aRequest _, by decide +kernel, rfl, by decide +kernel⟩,
    ⟨engineState (.kvaNew [3] 0 4) 0 0 64 1, aRequest _, by decide +kernel, rfl, by decide +kernel, by decide +kernel, by decide +kernel, by decide +kernel⟩,
    fun n hn => ⟨engineState (.kvaApp [(3, 5, n)] 4) 0 0 64 1, aRequest _, { aSeq with len := 64 }, ⟨rfl, ?_, rfl, rfl⟩, rfl, rfl, rfl, rfl, ?_⟩,
    fun free => ⟨engineState (.kvaApp [(3, 5, 64)] 4) 0 0 64 (if free then 1 else 0), aRequest _, { aSeq with len := 64 }, ?_, rfl, rfl, rfl,
      rfl, rfl, ?_, ?_, ?_, ?_⟩⟩
  · simp only [List.mem_cons, List.not_mem_nil, or_false] at hn
    rcases hn with rfl | rfl | rfl <;> decide +kernel
  · simp only [List.mem_cons, List.not_mem_nil, or_false] at hn
    rcases hn with rfl | rfl | rfl <;> decide
  all_goals cases free <;> decide +kernel

/-- What the grammar engine reads for one lane: the descriptor, the record and its pair. -/
structure GrammarView where
  raw : Bytes
  rec_ : Bytes
  pair : Bytes
  g : Grammar

def grammarView (s : State) (r : EngReq) : Option GrammarView := do
  let raw ← engineReads s r 0x100000000 64
  let rec_ ← engineReads s r 0x100000400 0x210
  let g ← grammarOf raw
  let pair ← engineReads s r (g.pairAt (automatonOf rec_)) 16
  pure { raw := raw, rec_ := rec_, pair := pair, g := g }

theorem view_of {s : State} {r : EngReq} {v : GrammarView} (h : grammarView s r = some v) :
    engineReads s r 0x100000000 64 = some v.raw ∧ engineReads s r 0x100000400 0x210 = some v.rec_ ∧ grammarOf v.raw = some v.g ∧
      engineReads s r (v.g.pairAt (automatonOf v.rec_)) 16 = some v.pair := by
  simp only [grammarView, bind, Option.bind_eq_some_iff, pure, Option.some.injEq] at h
  obtain ⟨_, h1, _, h2, _, h3, _, h4, rfl⟩ := h
  exact ⟨h1, h2, h3, h4⟩

/-- WNW of one key that reaches its threshold; GMK and GSTP of an automaton that has ended, of a pitch that is short, of a mask that is
not aligned, and of one that runs, with a token of the transition and with another. -/
theorem witness_GrammarResults :
    (∃ (s : State) (r : EngReq) (bid : Nat) (b : Block) (key : Bytes), itsTurn s r ∧
      r.op = .wnw 0x100000800 16 1 0 8 0xFFF00 (-5) true 1 0xFFFF8 0xFFF40 ∧ s.reqBlock r = some (bid, b) ∧
      b.absentAt [(0xFFF00, 8), (0xFFFF8, 8), (0xFFF40, 64)] = none ∧
      (∃ ls, placesOf s r .read 0x100000800 8 = .ok ls ∧ engineHome s r ls = .ok s ∧ key = ls.map (s.homeByte r.ctx)) ∧
      key = List.replicate 8 1) ∧
    (∀ status off pitch, (status, off, pitch) ∈ [(0, 0, 4), (0, 2, 4), (1, 0, 4), (0, 0, 0)] → ∃ (s : State) (r : EngReq) (bid : Nat)
      (b : Block) (raw rec_ pair : Bytes) (g : Grammar), itsTurn s r ∧ r.op = .gmk 0xFFFFC 0x100000000 pitch [(0, 0x100000400)] ∧
      s.reqBlock r = some (bid, b) ∧ s.block bid = some b ∧ grammarOf raw = some g ∧ g.vocab = 32 ∧
      (∃ ls, placesOf s r .read 0x100000000 64 = .ok ls ∧ engineHome s r ls = .ok s ∧ raw = ls.map (s.homeByte r.ctx)) ∧
      (∃ ls, placesOf s r .read 0x100000400 0x210 = .ok ls ∧ engineHome s r ls = .ok s ∧ rec_ = ls.map (s.homeByte r.ctx)) ∧
      (∃ ls, placesOf s r .read (g.pairAt (automatonOf rec_)) 16 = .ok ls ∧ engineHome s r ls = .ok s ∧ pair = ls.map (s.homeByte r.ctx)) ∧
      (automatonOf rec_).status = status ∧ (automatonOf rec_).invalid g = false ∧ ofLE (pair.take 8) % 4 = off ∧
      b.absentAt [(0xFFFFC, 4)] = none ∧ 0xFFFFC + 4 = b.scratchSize) ∧
    ∀ tok ∈ [5, 6, 32], ∃ (s : State) (r : EngReq) (raw rec_ pair tr : Bytes) (g : Grammar), itsTurn s r ∧
      r.op = .gstp 0x100000000 [(0, 0x100000400, tok)] 4 true ∧ grammarOf raw = some g ∧
      (∃ ls, placesOf s r .read 0x100000000 64 = .ok ls ∧ engineHome s r ls = .ok s ∧ raw = ls.map (s.homeByte r.ctx)) ∧
      (∃ ls, placesOf s r .read 0x100000400 0x210 = .ok ls ∧ engineHome s r ls = .ok s ∧ rec_ = ls.map (s.homeByte r.ctx)) ∧
      (∃ ls, placesOf s r .read (g.pairAt (automatonOf rec_)) 16 = .ok ls ∧ engineHome s r ls = .ok s ∧ pair = ls.map (s.homeByte r.ctx)) ∧
      (∃ ls, placesOf s r .read g.trans 8 = .ok ls ∧ engineHome s r ls = .ok s ∧ tr = ls.map (s.homeByte r.ctx)) ∧
      (automatonOf rec_).status = 0 ∧ (automatonOf rec_).invalid g = false ∧ ofLE ((pair.drop 8).take 4) = 0 ∧
      ofLE ((pair.drop 12).take 4) = 1 ∧ (tToken (ofLE tr) = tok ↔ tok = 5) ∧ (g.vocab ≤ tok ↔ tok = 32) ∧ engineWrites s r 0x100000400 8 = true := by
  refine ⟨?_, fun status off pitch hx => ?_, fun tok ht => ?_⟩
  · let op : EngOp := .wnw 0x100000800 16 1 0 8 0xFFF00 (-5) true 1 0xFFFF8 0xFFF40
    have h : ((engineState op 0 0 64 1).reqBlock (aRequest op)).any (fun x => decide (x.2.absentAt [(0xFFF00, 8), (0xFFFF8, 8), (0xFFF40, 64)] = none)) = true ∧
        engineReads (engineState op 0 0 64 1) (aRequest op) 0x100000800 8 = some (List.replicate 8 1) := by decide +kernel
    obtain ⟨⟨bid, b⟩, hb, hx⟩ := (Option.any_eq_true ..).1 h.1
    exact ⟨engineState op 0 0 64 1, aRequest op, bid, b, _, by decide +kernel, rfl, hb, of_decide_eq_true hx, reads_of h.2, rfl⟩
  · let op : EngOp := .gmk 0xFFFFC 0x100000000 pitch [(0, 0x100000400)]
    let s := engineState op status off 64 1
    have h : ((s.reqBlock (aRequest op)).any (fun x => decide (s.block x.1 = some x.2 ∧ x.2.absentAt [(0xFFFFC, 4)] = none ∧
        0xFFFFC + 4 = x.2.scratchSize))) = true ∧ (grammarView s (aRequest op)).any (fun v => decide (v.g.vocab = 32 ∧
        (automatonOf v.rec_).status = status ∧ (automatonOf v.rec_).invalid v.g = false ∧ ofLE (v.pair.take 8) % 4 = off)) = true ∧
        s.reqTurn (aRequest op) = true := by
      simp only [List.mem_cons, Prod.mk.injEq, List.not_mem_nil, or_false] at hx
      rcases hx with ⟨rfl, rfl, rfl⟩ | ⟨rfl, rfl, rfl⟩ | ⟨rfl, rfl, rfl⟩ | ⟨rfl, rfl, rfl⟩ <;> decide +kernel
    obtain ⟨⟨bid, b⟩, hb, h1⟩ := (Option.any_eq_true ..).1 h.1
    obtain ⟨v, hv, h2⟩ := (Option.any_eq_true ..).1 h.2.1
    have h1 := of_decide_eq_true h1
    have h2 := of_decide_eq_true h2
    have hv := view_of hv
    exact ⟨s, aRequest op, bid, b, v.raw, v.rec_, v.pair, v.g, ⟨rfl, h.2.2, rfl, rfl⟩, rfl, hb, h1.1, hv.2.2.1, h2.1, reads_of hv.1,
      reads_of hv.2.1, reads_of hv.2.2.2, h2.2.1, h2.2.2.1, h2.2.2.2, h1.2.1, h1.2.2⟩
  · let op : EngOp := .gstp 0x100000000 [(0, 0x100000400, tok)] 4 true
    let s := engineState op 0 0 64 1
    have h : (grammarView s (aRequest op)).any (fun v => decide ((automatonOf v.rec_).status = 0 ∧ (automatonOf v.rec_).invalid v.g = false ∧
        ofLE ((v.pair.drop 8).take 4) = 0 ∧ ofLE ((v.pair.drop 12).take 4) = 1 ∧ (v.g.vocab ≤ tok ↔ tok = 32)) &&
        (engineReads s (aRequest op) v.g.trans 8).any fun tr => decide (tToken (ofLE tr) = tok ↔ tok = 5)) = true ∧
        s.reqTurn (aRequest op) = true ∧ engineWrites s (aRequest op) 0x100000400 8 = true := by
      simp only [List.mem_cons, List.not_mem_nil, or_false] at ht
      rcases ht with rfl | rfl | rfl <;> decide +kernel
    obtain ⟨v, hv, h2⟩ := (Option.any_eq_true ..).1 h.1
    rw [Bool.and_eq_true] at h2
    obtain ⟨tr, htr, h3⟩ := (Option.any_eq_true ..).1 h2.2
    have h2 := of_decide_eq_true h2.1
    have h3 := of_decide_eq_true h3
    have hv := view_of hv
    exact ⟨s, aRequest op, v.raw, v.rec_, v.pair, tr, v.g, ⟨rfl, h.2.1, rfl, rfl⟩, rfl, hv.2.2.1, reads_of hv.1, reads_of hv.2.1,
      reads_of hv.2.2.2, reads_of htr, h2.1, h2.2.1, h2.2.2.1, h2.2.2.2.1, h3, h2.2.2.2.2, h.2.2⟩

/-- SMPL of a token of the greatest score, of none that is legal, and with a particle to kill and a handle of none. -/
theorem witness_SampleResults : ∀ mask kill ok, (mask, kill, ok) ∈ [(1, false, true), (0, false, true), (0, true, true), (0, true, false)] →
    ∃ (s : State) (r : EngReq) (bid : Nat) (b : Block) (w : Wave), itsTurn s r ∧
    r.op = .smpl 0xFFFE0 4 [(0, aHandle, 7)] false kill ∧ s.reqBlock r = some (bid, b) ∧ s.wave r.wid = some w ∧ 0xFFFE0 + 32 = b.scratchSize ∧
    let p := sampleBlock (scratchBytes s bid 0xFFFE0 32)
    p = { soff := 4, spitch := 0, moff := 0, mpitch := 0, nv := 1, boff := 0, bpitch := 0, reserved := 0 } ∧
    (scratchBytes s bid 0 1).getD 0 0 = BitVec.ofNat 8 mask ∧ b.absentAt [(0xFFFE0, 32)] = none ∧ b.absentAt [(4, 4), (0, 1)] = none ∧
    (s.handleBad r.lid aHandle true = if ok then none else some 1) := by
  intro mask kill ok hx
  let op : EngOp := .smpl 0xFFFE0 4 [(0, aHandle, 7)] false kill
  let at_ : State := (engineState op 0 0 64 1).modBlock 0 fun b => { b with
    scratch := (if mask = 0 then [] else [(0, 1)]) ++ [(0xFFFE0, 4), (0xFFFF0, 1)] }
  let s : State := { at_ with
    launches := (withFlags (2 ^ 48) (7 * 2 ^ 56) at_).launches, particles := if ok then [(handleKey aHandle, aParticle)] else [] }
  have h : (s.reqBlock (aRequest op)).any (fun x => decide (0xFFFE0 + 32 = x.2.scratchSize ∧
      sampleBlock (scratchBytes s x.1 0xFFFE0 32) = { soff := 4, spitch := 0, moff := 0, mpitch := 0, nv := 1, boff := 0, bpitch := 0, reserved := 0 } ∧
      (scratchBytes s x.1 0 1).getD 0 0 = BitVec.ofNat 8 mask ∧ x.2.absentAt [(0xFFFE0, 32)] = none ∧ x.2.absentAt [(4, 4), (0, 1)] = none)) = true ∧
      s.reqTurn (aRequest op) = true ∧ (s.wave 0).isSome = true ∧ s.handleBad 1 aHandle true = if ok then none else some 1 := by
    simp only [List.mem_cons, Prod.mk.injEq, List.not_mem_nil, or_false] at hx
    rcases hx with ⟨rfl, rfl, rfl⟩ | ⟨rfl, rfl, rfl⟩ | ⟨rfl, rfl, rfl⟩ | ⟨rfl, rfl, rfl⟩ <;> decide +kernel
  obtain ⟨⟨bid, b⟩, hb, h1⟩ := (Option.any_eq_true ..).1 h.1
  obtain ⟨h1, h2, h3, h4, h5⟩ := of_decide_eq_true h1
  obtain ⟨w, hw⟩ := Option.isSome_iff_exists.1 h.2.2.1
  exact ⟨s, aRequest op, bid, b, w, ⟨rfl, h.2.1, rfl, rfl⟩, rfl, hb, hw, h1, h2, h3, h4, h5, h.2.2.2⟩

/-! ### Single steps

Each test runs one step of the placed wave, whose next word is the instruction, and compares one or two fields of the result. The
expected values are those of the rule's own examples and tables, or computed by hand from its text. -/

/-- The state after the step that runs the instruction, after changes to the wave and to the state. -/
def ran (i : Instr) (f : Wave → Wave := id) (g : State → State := id) : Option State :=
  match step (g ((State.reset.withWord 128 (codeNat i)).modWave 0 f)) with
  | .next t => some t
  | _ => none

/-- A vector element, a scalar and a mask register after the step. -/
def vAfter (t : Option State) (n lane : Nat) : Option Nat := t.bind fun t => (t.wave 0).map fun w => (w.velem n lane).toNat
def sAfter (t : Option State) (n : Nat) : Option Nat := t.bind fun t => (t.wave 0).map fun w => (w.selem n).toNat
def kAfter (t : Option State) (n : Nat) : Option Nat := t.bind fun t => (t.wave 0).map fun w => (w.kelem n).toNat
def flagsAfter (t : Option State) : Option Nat := t.bind fun t => (t.wave 0).map fun w => w.fpflags.toNat

/-! #### Integers and bits -/

/-- R141: i8 100 + 100 wraps to −56, which R41 extends; with SAT it is 127. -/
theorem test_iadd_narrow :
    vAfter (ran (.iadd (fs 1 2 3 0xE0 0x40)) (withV [(2, 0, 100), (3, 0, 100)])) 1 0 = some 0xFFFFFFC8 ∧
    vAfter (ran (.iadd (fs 1 2 3 0xE0 0x60)) (withV [(2, 0, 100), (3, 0, 100)])) 1 0 = some 127 := by decide +kernel

/-- R146: the quotient truncates toward zero, and the two cases whose quotient does not fit. -/
theorem test_idiv :
    let t (a b : Nat) : Option Nat := vAfter (ran (.idiv (fs 1 2 3 0xE0 0xC0)) (withV [(2, 0, a), (3, 0, b)])) 1 0
    t 0xFFFFFFF9 2 = some 0xFFFFFFFD ∧ t 5 0 = some 0xFFFFFFFF ∧ t 0x80000000 0xFFFFFFFF = some 0x80000000 := by decide +kernel
theorem test_irem :
    let t (a b : Nat) : Option Nat := vAfter (ran (.irem (fs 1 2 3 0xE0 0xC0)) (withV [(2, 0, a), (3, 0, b)])) 1 0
    t 0xFFFFFFF9 2 = some 0xFFFFFFFF ∧ t 5 0 = some 5 ∧ t 0x80000000 0xFFFFFFFF = some 0 := by decide +kernel

/-- R144: IMULH of n32; the destination is also a source. -/
theorem test_imulh : vAfter (ran (.imulh (fs 2 2 2 0xE0 0x1C0)) (withV [(2, 0, 0xFFFFFFFF)])) 2 0 = some 0xFFFFFFFE := by decide +kernel

/-- R147: −1·1 + 2·2 + 3·3 − 128·−128 + 5. -/
theorem test_idot4 : vAfter (ran (.idot4 (fs 1 2 3 4 0x40)) (withV [(2, 0, 0x800302FF), (3, 0, 0x80030201), (4, 0, 5)])) 1 0 = some 16401 := by
  decide +kernel

/-- R148 and R114: lanes that are not active keep their bits. -/
theorem test_icmp : kAfter (ran (.icmp { fs 2 1 3 0xE0 0x10C0 with k := 1 })
    fun w => withK [(1, 5), (2, 0xFF)] (withV [(1, 0, 0xFFFFFFFF), (3, 0, 1), (1, 2, 1), (3, 2, 0xFFFFFFFF)] w)) 2 = some 0xFB := by
  decide +kernel

/-- R149: counts of the width and more; ROT takes its count modulo the width. -/
theorem test_shifts :
    vAfter (ran (.shl (fs 1 2 0x81 0xE0 0)) fun w => withS [(1, 32)] (withV [(2, 0, 1)] w)) 1 0 = some 0 ∧
    vAfter (ran (.sar (fs 1 2 0x81 0xE0 0)) fun w => withS [(1, 40)] (withV [(2, 0, 0x80000000)] w)) 1 0 = some 0xFFFFFFFF ∧
    vAfter (ran (.rot (fs 1 2 0x81 0xE0 0)) fun w => withS [(1, 33)] (withV [(2, 0, 0x80000001)] w)) 1 0 = some 3 := by decide +kernel

/-- R151: lut 0xCA selects b where a is 1 and c where a is 0. -/
theorem test_lop3 : vAfter (ran (.lop3 (fs 1 2 3 4 (0xCA * 64))) (withV [(2, 0, 0xFF00FF00), (3, 0, 0x12345678), (4, 0, 0x9ABCDEF0)])) 1 0 =
    some 0x12BC56F0 := by decide +kernel

/-- R152: the i32 index −1, shifted by 4, below the base. -/
theorem test_lea : sAfter (ran (.lea (fs 0x81 0x82 0x83 0xE0 0xC4)) (withS [(2, 0x10), (3, 0xFFFFFFFF)])) 1 = some 0 := by decide +kernel

/-- R161: BFX clips its field, and a signed one repeats the top bit. -/
theorem test_bfx :
    vAfter (ran (.bfx (fs 1 2 0x81 0x82 0)) fun w => withS [(1, 28), (2, 8)] (withV [(2, 0, 0xA0000000)] w)) 1 0 = some 0xA ∧
    vAfter (ran (.bfx (fs 1 2 0x81 0x82 0xC0)) fun w => withS [(1, 28), (2, 8)] (withV [(2, 0, 0xA0000000)] w)) 1 0 = some 0xFFFFFFFA := by
  decide +kernel

/-- R160: the third 1 bit of 0b101100, and none. -/
theorem test_fns :
    vAfter (ran (.fns (fs 1 2 0xE2 0xE0 0)) (withV [(2, 0, 0x2C)])) 1 0 = some 5 ∧
    vAfter (ran (.fns (fs 1 2 0xE3 0xE0 0)) (withV [(2, 0, 0x2C)])) 1 0 = some 0xFFFFFFFF := by decide +kernel

/-! #### Floating point and formats -/

/-- R48: 127.6 to i8 under rtz and under rne, and −128.4 under rne. -/
theorem test_cvt_i8 :
    let t (rnd x : Nat) : Option State := ran (.cvt (fs 1 2 0xE0 0xE0 (rnd * 2048 + 1 * 64 + 12))) (withV [(2, 0, x)])
    vAfter (t 1 0x42FF3333) 1 0 = some 127 ∧ flagsAfter (t 1 0x42FF3333) = some 16 ∧
    vAfter (t 0 0x42FF3333) 1 0 = some 127 ∧ flagsAfter (t 0 0x42FF3333) = some 1 ∧
    vAfter (t 0 0xC3006666) 1 0 = some 0xFFFFFF80 := by decide +kernel

/-- R51: its worked conversions. -/
theorem test_cvt_ds8 :
    let t (x : Nat) : Option State := ran (.cvt (fs 1 2 0xE0 0xE0 (17 * 64 + 12))) (withV ((List.range 16).map fun i => (2, i, x)))
    let both (x : Nat) : Option Nat × Option Nat := (vAfter (t x) 1 0, flagsAfter (t x))
    both 0x3F800000 = (some 0x11, some 0) ∧ both 0x3E99999A = (some 0x24, some 16) ∧ both 0x3E980000 = (some 0x25, some 16) ∧
    both 0xBF400000 = (some 0x82, some 0) ∧ both 0x40200000 = (some 0, some 20) ∧ both 0x3B800000 = (some 8, some 24) := by decide +kernel

/-- R67: QNT of 0x4063_FFFF by 3.0 to E4M3 gives 0x39. -/
theorem test_qnt : vAfter (ran (.qnt (fs 1 2 3 0xE0 (15 * 64 + 12))) (withV [(2, 0, 0x4063FFFF), (3, 0, 0x40400000)])) 1 0 = some 0x39 := by
  decide +kernel

/-- R67: FRCP of 3.0 is 0x3EAA_AAAB. -/
theorem test_frcp : vAfter (ran (.frcp (fs 1 2 0xE0 0xE0 0x300)) (withV [(2, 0, 0x40400000)])) 1 0 = some 0x3EAAAAAB := by decide +kernel

/-- R163: a NaN and a number give the number; −0 is less than +0. -/
theorem test_fmin :
    vAfter (ran (.fmin (fs 1 2 3 0xE0 0x300)) (withV [(2, 0, 0x7FC00000), (3, 0, 0x40400000)])) 1 0 = some 0x40400000 ∧
    vAfter (ran (.fmin (fs 1 2 3 0xE0 0x300)) (withV [(2, 0, 0), (3, 0, 0x80000000)])) 1 0 = some 0x80000000 := by decide +kernel

/-- R162: the product 0 × inf raises invalid beside a quiet NaN. -/
theorem test_ffma : flagsAfter (ran (.ffma { fs 1 2 3 4 0x300 with k := 1 })
    fun w => withK [(1, 1)] (withV [(2, 0, 0), (3, 0, 0x7F800000), (4, 0, 0x7FC00000)] w)) = some 1 := by decide +kernel

/-- R168: FDIV of a number by −0, and FSINPI of 3. -/
theorem test_fdiv : (let t := ran (.fdiv { fs 1 2 3 0xE0 0x300 with k := 1 }) fun w => withK [(1, 1)] (withV [(2, 0, 0x3F800000), (3, 0, 0x80000000)] w)
    (vAfter t 1 0, flagsAfter t)) = (some 0xFF800000, some 2) := by decide +kernel
theorem test_fsinpi : vAfter (ran (.fsinpi (fs 1 2 0xE0 0xE0 0x300)) (withV [(2, 0, 0xC0400000)])) 1 0 = some 0x80000000 := by decide +kernel

/-- R169: FGETX of the least subnormal is −149, and of 0 is −2^31. -/
theorem test_fgetx :
    let t (x : Nat) : Option Nat := vAfter (ran (.fgetx (fs 1 2 0xE0 0xE0 0x300)) (withV [(2, 0, x)])) 1 0
    t 1 = some 0xFFFFFF6B ∧ t 0 = some 0x80000000 := by decide +kernel

/-- R187 and R188: 2^24, 1, 1, 1 in lanes 0 to 3. -/
theorem test_redx : vAfter (ran (.redx { fs 4 1 0xE0 0xE0 0x300 with k := 1 })
    fun w => withK [(1, 15)] (withV [(1, 0, 0x4B800000), (1, 1, 0x3F800000), (1, 2, 0x3F800000), (1, 3, 0x3F800000)] w)) 4 0 =
    some 0x4B800001 := by decide +kernel
theorem test_scanx : vAfter (ran (.scanx { fs 4 1 0xE0 0xE0 0x300 with k := 1 })
    fun w => withK [(1, 15)] (withV [(1, 0, 0x4B800000), (1, 1, 0x3F800000), (1, 2, 0x3F800000), (1, 3, 0x3F800000)] w)) 4 3 =
    some 0x4B800000 := by decide +kernel

/-- R192: its worked pair. -/
theorem test_pair :
    let t := ran (.pairWord { op7 := 0x1F, d := 2, a := 2, b := 7 } { op7 := 0x15, d := 5, a := 6, b := 9 })
      (withV [(2, 0, 0x7FFFFFF0), (7, 0, 0x20), (5, 0, 0x3F800000), (6, 0, 0x40400000), (9, 0, 0x3E800000)])
    vAfter t 2 0 = some 0x7FFFFFFF ∧ vAfter t 5 0 = some 0x3FE00000 ∧ flagsAfter t = some 0 := by decide +kernel

/-! #### Lanes and masks -/

/-- R184: up keeps a lane's own value below b; R185: the lowest active lane gives its value. -/
theorem test_shfl :
    let t := ran (.shfl (fs 1 2 0xE2 0xE0 1)) (withV ((List.range 16).map fun i => (2, i, 100 + i)))
    vAfter t 1 1 = some 101 ∧ vAfter t 1 2 = some 100 ∧ vAfter t 1 15 = some 113 := by decide +kernel
theorem test_bcst :
    let t := ran (.bcstFirst { fs 1 2 0xE0 0xE0 1 with k := 1 }) fun w =>
      withK [(1, 0xC)] (withV ((List.range 16).map fun i => (2, i, 100 + i)) w)
    vAfter t 1 3 = some 102 ∧ vAfter t 1 1 = some 0 := by decide +kernel

/-- R189: the active lanes that hold the same bits. -/
theorem test_match :
    let t := ran (.matchEq { fs 1 2 0xE0 0xE0 0 with k := 1 }) fun w =>
      withK [(1, 0xE)] (withV [(2, 0, 7), (2, 1, 7), (2, 3, 7), (2, 2, 8)] w)
    vAfter t 1 3 = some 0xA := by decide +kernel

/-- R159: KCNT and KFIND write their scalar although no lane is active. -/
theorem test_kfind : sAfter (ran (.kfindLast { fs 0x81 2 0xE0 0xE0 1 with k := 1 })) 1 = some 0xFFFFFFFFFFFFFFFF := by decide +kernel
theorem test_kcnt : sAfter (ran (.kcnt (fs 0x81 2 0xE0 0xE0 0)) (withK [(2, 0xF00F)])) 1 = some 8 := by decide +kernel

/-! #### Control and traps -/

/-- Where fragment 0 stands: its next header, while it runs no clause. -/
def pcAfter (t : Option State) : Option Nat := t.bind fun t => (t.fragAt 0 0).bind fun p => if p.2.clause.isNone then some p.2.pc.toNat else none

/-- R197: BRA by −2 words, from the placed header at 0x1_0000. -/
theorem test_bra : pcAfter (ran (.bru (fs 0xE0 0xE0 0xE0 0xE0 0x3FFE))) = some 0xFFF0 := by decide +kernel

/-- R198: CALL writes the address of the header after its clause, of one word. -/
theorem test_call :
    let t := ran (.call (fs 0x85 0x86 0xE0 0xE0 2)) (withS [(6, 0x40000)])
    sAfter t 5 = some 0x10010 ∧ pcAfter t = some 0x40010 := by decide +kernel

/-- R127: fewer lanes take the branch, so they are the new fragment; both hold the token. -/
theorem test_divergence :
    let t := (ran (.bra { fs 0xE0 0xE0 0xE0 0 8 with k := 1 }) (withK [(1, 6)])).bind fun t => t.wave 0
    (t.map fun w => w.frags.map fun p => (p.1, p.2.mask.toNat, p.2.stack)) = some [(0, 0xFFF9, [0]), (1, 6, [0])] := by decide +kernel

/-- R242: TRAP of 0x123, a report trap: TRAPPC is the place after the word, and the handler starts at TVEC. -/
theorem test_trap :
    let t := ran (.trap (fs 0xE0 0xE0 0xE0 0xE0 0x123)) fun w => { w with tvec := 0x20000 }
    pcAfter t = some 0x20000 ∧ (t.bind fun t => (t.wave 0).map fun w => (w.trapcause.toNat, w.trapinfo.toNat, w.trappc.toNat)) =
      some (0x0B, 0x123, 0x10010) := by decide +kernel

/-- R232 and R234: a misaligned LD is a fault trap at its own word, with the lanes that failed; its address is that of the first. -/
theorem test_align :
    let t := ran (.ld (fs 1 0x80 0xE0 0xE0 0xC0)) fun w => { withS [(0, 0x100000002)] w with tvec := 0x20000 }
    (t.bind fun t => (t.wave 0).map fun w => (w.trapcause.toNat, w.trapaddr.toNat, w.trappc.toNat, w.traplanes.toNat)) =
      some (0x106, 0x100000002, 0x10008, 0xFFFF) := by decide +kernel

/-! #### Memory and counters -/

/-- R41 and R298: an i16 is read in little-endian order and extended. -/
theorem test_ld : vAfter (ran (.ld (fs 1 0x80 0xE0 0xE0 0x80)) (withS [(0, 0x100000006)]) fun s => withPage (withMem [(0x100000, 0x80FF000000000000)] s)) 1 0 =
    some 0xFFFF80FF := by decide +kernel

/-- R207 and R208: the bytes of a store stay in the WSB, the highest lane's last. -/
theorem test_st :
    let t := ran (.st (fs 1 0x80 0xE0 0xE0 0xC0)) (fun w => withS [(0, 0x100000000)] (withV [(1, 14, 5), (1, 15, 0x01020304)] w)) withPage
    (t.bind fun t => (t.wave 0).map fun w => w.wsb.map fun p => (p.1, p.2.val.toNat, p.2.writer)) =
      some [(0x100000000, 4, 15), (0x100000001, 3, 15), (0x100000002, 2, 15), (0x100000003, 1, 15)] := by decide +kernel

/-- R304: ATOM of two lanes, each with its own old value and its own place; device level. -/
theorem test_atom :
    let t := ran (.atom { fs 2 0x84 3 5 0x18E0 with k := 1 })
      (fun w => withK [(1, 3)] (withS [(4, 0x100000000)] (withV [(3, 1, 1), (5, 0, 7), (5, 1, 9)] w)))
      fun s => withPage (withMem [(0x100000, 0x0000000200000001)] s)
    vAfter t 2 0 = some 1 ∧ vAfter t 2 1 = some 2 ∧
    (t.map fun t => [Memory.read t.mem 0x100000, Memory.read t.mem 0x100004]) = some [8, 11] := by decide +kernel

/-- R214 to R216: a CMT at device level with a byte in the WSB. -/
theorem test_cmt :
    let t := ran (.cmt (fs 2 0xE0 0xE0 0xE0 0x1800)) fun w => { w with wsb := [(0x100000000, { val := 7, loc := .dev 0x100000, writer := 0, lanes := 1 })] }
    kAfter t 2 = some 0xFFFF ∧ (t.map fun t => Memory.read t.mem 0x100000) = some 7 := by decide +kernel

/-- R218 and R219: of two lanes that wrote what the other read, the first survives: CAUSE 1 at level 3. -/
theorem test_checked_commit :
    let t := ran (.cmt (fs 2 0xE0 0xE0 0xE0 0x1800)) (checkedWave 0 0)
    (t.bind fun t => (t.wave 0).map fun w => w.xcause.toNat) = some 0x31 ∧ (kAfter t 2).map (· % 4) = some 1 := by decide +kernel

/-- R418: 68 of 64 have arrived: phase 6 begins with 4. -/
theorem test_phase :
    (match exec (.regionPhaseComplete 5) (State.reset.setRegion 5 { aRegion with armed := true, phase := 5, expected := 64, arrived := 68 }) with
    | .next t => some ((t.region 5).arrived, (t.region 5).expected, (t.region 5).phase)
    | _ => none) = some (4, 0, 6) := by decide +kernel

/-- R422: an AWAIT of phase 5 at phase 6 is COMPLETE; R423: AREAD of a disarmed region in phase 6. -/
theorem test_await : sAfter (ran (.await (fs 0x89 0x81 0xE5 0x83 0)) (withS [(1, 5)]) fun s => s.setRegion 5 { aRegion with armed := true, phase := 6 }) 9 =
    some 0x0006000000000000 := by decide +kernel
theorem test_aread : sAfter (ran (.aread (fs 0x89 0x81 0xE0 0xE0 0)) (withS [(1, 5)]) fun s => s.setRegion 5 { aRegion with phase := 6, ovf := true }) 9 =
    some 0x0006400000000000 := by decide +kernel

/-- R344: its worked record, of 32 rows of 64 bytes; the scales of the last row and column. -/
theorem test_record :
    ((recordOf 0x0000000400070000 0x0000009000800021 0x10000).map fun r =>
      [r.base, r.size, r.pitch, r.fmt, r.blk, r.nb, r.aScaleAt 31 1, r.bScaleAt 1 31]) = some [0, 2048, 4, 1, 2, 2, 0x83F, 0x93F] := by
  decide +kernel

/-- R319: in the worked box of 16 by 8, 16 elements of two bytes lie inside the tensor. -/
theorem test_box :
    (tensorOf ([0x100001000, 0x32 * 2 ^ 32 + 0x64, 0, 0x900000000, 0x100, 0, 0, 0x70F].flatMap (leBytes 8))).map (fun t =>
      let l := t.toLocal [96, 46, 0, 0, 0] 1 0
      (t.boxBytes, l.length, (l.filter fun m => match m.2 with | .mem _ => true | _ => false).length)) = some (256, 256, 32) := by
  decide +kernel

/-- R396: the worked address lies in slice 15. -/
theorem test_slice : sliceOf 0x3234567000 = 15 := by decide +kernel

/-- R54: row 0x24 of the table, and zero. -/
theorem test_ds6 : [0x24, 0x25, 0x26, 0x27, 0x1D].map ds6ToDs8 = [0x92, 0x93, 0x82, 0x9B, 0x08] := by decide +kernel

/-- R471: the worked draw, in lane 0. -/
theorem test_smpl :
    let words (a : Nat) (l : List Nat) : Tbl Byte := (l.flatMap (leBytes 4)).zipIdx.filterMap fun x => if x.1 = 0 then none else some (a + x.2, x.1)
    let scratch := words 0 [0x40, 0x10, 0x80, 4, 4, 0x60, 0x10, 0] ++ words 0x40 [0x40400000, 0x7FC00000, 0x7F800000, 0x7F800000] ++
      words 0x60 [5, 9, 0, 0xFFFFFF] ++ words 0x80 [0xB]
    let s := alive.modBlock 0 fun b => { b with scratch := scratch }
    (match exec (.engineRequestComplete 9) { s with reqs := [{ aRequest (.smpl 0 10 [(0, 0, 0)] true false) with engines := [4] }] } with
    | .next t => (t.wave 0).map fun w => ((w.velem 10 0).toNat, (w.velem 11 0).toNat)
    | _ => none) = some (3, 6) := by decide +kernel

/-- R508 and R510 with the worked resampling of R513: the masses, the offspring and W̄. -/
theorem test_masses : ([0, 0xBF800000, 0xC0400000, 0xFF800000, 0xC2480000].map (massOf 0)) = [8, 4, 1, 0, 0].map (· * 2 ^ 37) := by
  decide +kernel
theorem test_offspring : offspring 5 (13 * 2 ^ 37) 0x40000000 0 ([8, 4, 1, 0, 0].map (· * 2 ^ 37)) = [3, 1, 1, 0, 0] := by decide +kernel

/-- File 19: masses 2, 1, 4, 0 and 2 in units of 2^38, N = 5, U = 0.5, M = 0. -/
theorem test_mean_weight : meanWeight 0 (9 * 2 ^ 38) 5 = 0xBF9374D6 ∧
    offspring 5 (9 * 2 ^ 38) 0x80000000 0 ([2, 1, 4, 0, 2].map (· * 2 ^ 38)) = [1, 1, 2, 0, 1] := by decide +kernel

/-- R264: the last arrival at BARB starts the next phase, and the wave that waited goes on. -/
theorem test_barb :
    let t := ran (.barb (fs 0xE0 0xE2 0xE1 0xE0 0)) id (onBlock fun b => { b with bars := [(2, { phase := 65535, latched := 0, count := 0, arrived := [] })] })
    (t.bind fun t => (t.block 0).map fun b => (Tbl.get b.bars 2 Barrier.reset).phase) = some 0 := by decide +kernel

/-- R516: PWADD of 1.0 to a weight of 3.0. -/
theorem test_pwadd :
    (match step (withParticle aParticle ((State.reset.withWord 64 (codeNat (.pwadd { fs 0xE0 2 4 0xE0 0 with k := 1 }))).modWave 0
        fun w => withK [(1, 8)] (withV [(2, 3, aHandle), (4, 3, 0x3F800000)] w))) with
    | .next t => some (t.particle (handleKey aHandle)).w.toNat
    | _ => none) = some 0x40800000 := by decide +kernel

/-- R203: a die that leaves reset has its cores' counters at zero; R124: CYC reads the counter. -/
theorem test_cyc : sAfter (ran (.cyc (fs 0x81 0xE0 0xE0 0xE0 0)) id fun s => s.modCore 0 fun c => { c with cyc := 0x123456789A }) 1 =
    some 0x123456789A := by decide +kernel

/-- R62: a write of 7 to FPCTL.RM leaves RM; the trap enables take it. R63: a 1 clears a flag. -/
theorem test_fpctl :
    ((ran (.srwr (fs 0xE0 0x83 0xE0 0xE0 0x30)) fun w => { withS [(3, 0xF1F07)] w with fpctl := 2 }).bind fun t =>
      (t.wave 0).map fun w => w.fpctl.toNat) = some 0x1F02 := by decide +kernel
theorem test_fpflags : flagsAfter (ran (.srwr (fs 0xE0 0x83 0xE0 0xE0 0x31)) fun w => { withS [(3, 0x11)] w with fpflags := 0x1F }) = some 0xE := by
  decide +kernel

/-- R528: an odd value in ERRCLR clears the counts; an even one does not. -/
theorem test_errclr :
    let t (v : W64) : Option Nat := match exec (.errclr (.fn 0) 3 v) (running.modDie 3 fun d => { d with errCorr := 5 }) with
      | .next t => some (t.die 3).errCorr
      | _ => none
    t 1 = some 0 ∧ t 2 = some 5 := by decide +kernel

/-- SHA3-256 of the empty message, as FIPS 202 gives it (log entry 54). -/
theorem test_sha3 : (sha3 []).take 4 = [0xA7, 0xFF, 0xC6, 0xF8] ∧ (sha3 []).getLast? = some 0x4A := by decide +kernel

end Sys2Proof.Tests
end

section
/-! Proofs of family 02: the rounding modes (R61). -/

open Sys2Proof Sys2Proof.Machine
namespace Sys2Proof.Numbers

/-- A multiple `t` of the unit `D` is one that the mode may choose for `N` (R61). -/
def ModeChooses (m : RM) (neg : Bool) (N D t : Int) : Prop :=
  match m with
  | .rne => (2 * (t * D - N)).natAbs ≤ D ∧ ((2 * (t * D - N)).natAbs = D → t % 2 = 0)
  | .rna => (2 * (t * D - N)).natAbs ≤ D ∧ ((2 * (t * D - N)).natAbs = D → N ≤ t * D)
  | .rtz => t * D ≤ N ∧ N < t * D + D
  | .rdn => if neg then N ≤ t * D ∧ t * D < N + D else t * D ≤ N ∧ N < t * D + D
  | .rup => if neg then t * D ≤ N ∧ N < t * D + D else N ≤ t * D ∧ t * D < N + D

/-- `roundsUp` makes of a quotient and its remainder the multiple that the mode chooses. -/
theorem modeChooses_roundsUp (m : RM) (neg : Bool) {N D t r : Nat} (hdiv : N = t * D + r) (hr : r < D) :
    ModeChooses m neg N D ((if roundsUp m neg t r D then t + 1 else t : Nat) : Int) := by
  have hN : (N : Int) = (t : Int) * D + r := by exact_mod_cast hdiv
  have hup : ((t : Int) + 1) * D = (t : Int) * D + D := by ring
  cases h : roundsUp m neg t r D with
  | true => cases m <;> cases neg <;> simp [roundsUp] at h <;> simp [ModeChooses, hup, hN, -Nat.cast_natAbs] <;> omega
  | false => cases m <;> cases neg <;> simp [roundsUp] at h <;> simp [ModeChooses, hN, -Nat.cast_natAbs] <;> omega

/-- Settles O20: `roundAt` rounds the quotient and the remainder of the magnitude by the unit. -/
theorem roundingModes : Obligations.RoundingModes := by
  unfold Obligations.RoundingModes
  intro m neg n d e q hd
  obtain ⟨N, D, t, r, hN, hD, hpos, hdiv, hr, hround⟩ := roundAt_spec m neg n d e q hd
  simp only [hround, ← hN, ← hD]
  refine ⟨?_, modeChooses_roundsUp m neg hdiv hr⟩
  rw [Int.natCast_dvd_natCast, hdiv, Nat.dvd_add_right (Nat.dvd_mul_left D t)]
  have : D ∣ r ↔ r = 0 := ⟨fun h => Nat.eq_zero_of_dvd_of_lt h hr, fun h => h ▸ Nat.dvd_zero D⟩
  simp [this]

end Sys2Proof.Numbers
end

section
/-! Proofs of family 02: values that a format holds, and the parts of a float (R42, R44, R64, R169). -/

open Sys2Proof Sys2Proof.Machine
namespace Sys2Proof.Numbers

/-- A finite encoding of a format is what rounding its value gives back (R42, R64). -/
theorem roundNum_decode {f : Fmt} (hf : f ∈ [fmtF32, fmtF16, fmtBF16, fmtE4M3, fmtE5M2]) (m : RM) (sat : Bool) {x : Nat}
    (hx : x < 2 ^ f.width) {neg : Bool} {n d : Nat} {e : Int} (h : f.decode x = .num neg n d e) :
    roundNum f m sat neg n d e = (x, noFlags) := by
  obtain ⟨E, M, rfl, rfl, rfl, hE, hM, hc, hxe⟩ := decode_num hf hx h
  by_cases h0 : n = 0
  · have hE1 : E = 1 := by
      rcases hM with ⟨hlow, -⟩ | ⟨hE1, -⟩
      · exact absurd (h0 ▸ hlow) (Nat.not_le.2 (Nat.two_pow_pos _))
      · exact hE1
    rw [hxe, h0, hE1]
    simp [roundNum]
  · rw [roundNum_exact m sat neg (Nat.pos_of_ne_zero h0) Nat.one_pos hE hM (mag_one _ _) hc, ← hxe]

/-- The magnitudes of M · 2^e and of M · 2^k · 2^(e − k) are one. -/
theorem mag_shift (M k : Nat) (e : Int) : mag (M * 2 ^ k) 1 (e - k) = mag M 1 e := by
  have h2 : (2 : ℚ) ≠ 0 := by norm_num
  rw [mag_one, mag_one, zpow_sub₀ h2, zpow_natCast]
  push_cast
  field_simp

/-- floor(log2) of an integer times a power of two. -/
theorem log2Floor_one {M : Nat} (hM : 0 < M) (e : Int) : log2Floor M 1 e = M.log2 + e := by
  have h0 : Nat.log2 1 = 0 := rfl
  have hge : ¬ M < 1 <<< M.log2 := by
    rw [Nat.one_shiftLeft]
    exact Nat.not_lt.2 (Nat.log2_self_le hM.ne')
  simp [log2Floor, h0, hge]

/-- The exponents of a binary format of 32 bits or less stay far inside the clamp of FSCALE. -/
theorem exponent_small {f : Fmt} (hf : f ∈ [fmtF32, fmtF16, fmtBF16]) {E M : Nat} (hc : (E - 1) * 2 ^ f.fbits + M < f.infCode) :
    (f.bias : Int) + f.fbits < 1000 ∧ E < 1000 := by
  simp only [List.mem_cons, List.not_mem_nil, or_false] at hf
  rcases hf with rfl | rfl | rfl <;> simp [fmtF32, fmtF16, fmtBF16, Fmt.infCode] at hc ⊢ <;> omega

/-- 1 ≤ significand < 2: FGETM's result of a finite nonzero value, before and after its encoding (R169). -/
theorem fgetm_decode {f : Fmt} (hf : f ∈ [fmtF32, fmtF16, fmtBF16]) {neg : Bool} {M : Nat} {e : Int} (h0 : 0 < M)
    (hM : M < 2 ^ (f.fbits + 1)) :
    ∃ k : Nat, M.log2 + k = f.fbits ∧ (fgetm f (.num neg M 1 e)).1 < 2 ^ f.width ∧
      f.decode (fgetm f (.num neg M 1 e)).1 = .num neg (M * 2 ^ k) 1 (-(f.fbits : Int)) := by
  have hlog : M.log2 < f.fbits + 1 := (Nat.log2_lt h0.ne').2 hM
  obtain ⟨k, hk⟩ : ∃ k, M.log2 + k = f.fbits := ⟨f.fbits - M.log2, by omega⟩
  have hlo : 2 ^ f.fbits ≤ M * 2 ^ k := by
    rw [← hk, Nat.pow_add]
    exact Nat.mul_le_mul_right _ (Nat.log2_self_le h0.ne')
  have hhi : M * 2 ^ k < 2 ^ (f.fbits + 1) := by
    rw [show f.fbits + 1 = M.log2 + 1 + k by omega, Nat.pow_add]
    exact Nat.mul_lt_mul_of_pos_right Nat.lt_log2_self (Nat.two_pow_pos _)
  have hfmt : f.noInf = false ∧ 1 ≤ f.bias ∧ f.bias < 2 ^ f.ebits - 1 ∧ 1 ≤ f.ebits := by
    simp only [List.mem_cons, List.not_mem_nil, or_false] at hf
    rcases hf with rfl | rfl | rfl <;> decide
  obtain ⟨hni, hb1, hb2, heb⟩ := hfmt
  have hcode : (f.bias - 1) * 2 ^ f.fbits + M * 2 ^ k < f.infCode := by
    have : (f.bias + 1) * 2 ^ f.fbits ≤ (2 ^ f.ebits - 1) * 2 ^ f.fbits := Nat.mul_le_mul_right _ hb2
    obtain ⟨b, hb⟩ : ∃ b, f.bias = b + 1 := ⟨f.bias - 1, by omega⟩
    rw [hb] at this ⊢
    rw [Nat.pow_succ] at hhi
    simp only [Fmt.infCode, hni, Bool.false_eq_true, if_false, Nat.add_sub_cancel]
    linarith
  have hround : (fgetm f (.num neg M 1 e)).1 = f.signed neg ((f.bias - 1) * 2 ^ f.fbits + M * 2 ^ k) := by
    have hv : mag M 1 (e - log2Floor M 1 e) = (M * 2 ^ k : Nat) * 2 ^ ((f.bias : Int) - f.bias - f.fbits) := by
      rw [log2Floor_one h0, ← mag_shift M k, mag_one]
      congr 2
      omega
    rw [fgetm, if_neg h0.ne', roundNum_exact .rne false neg h0 Nat.one_pos hb1 (Or.inl ⟨hlo, hhi⟩) hv hcode]
  obtain ⟨hw, hdec⟩ := decode_code hni neg hb1 hb2 hlo hhi heb
  refine ⟨k, hk, hround ▸ hw, ?_⟩
  rw [hround, hdec]
  congr 1
  omega

/-- Taking a finite value apart and putting it together again gives the value (R169). -/
theorem fscale_fgetm_fgetx {f : Fmt} (hf : f ∈ [fmtF32, fmtF16, fmtBF16]) (m : RM) {x : Nat} (hx : x < 2 ^ f.width)
    (hfin : (f.decode x).isFin) :
    (fgetm f (f.decode x)).1 < 2 ^ f.width ∧
    fscale f m (f.decode (fgetm f (f.decode x)).1) (fgetx (f.decode x)).1 = (x, noFlags) := by
  have hf5 : f ∈ [fmtF32, fmtF16, fmtBF16, fmtE4M3, fmtE5M2] := by
    simp only [List.mem_cons, List.not_mem_nil, or_false] at hf ⊢
    tauto
  cases hd : f.decode x with
  | nan s => simp [hd, Val.isFin] at hfin
  | inf s => simp [hd, Val.isFin] at hfin
  | num neg n d e =>
    have hback := roundNum_decode hf5 m false hx hd
    obtain ⟨E, M, rfl, rfl, rfl, hE, hM, hc, hxe⟩ := decode_num hf5 hx hd
    by_cases h0 : n = 0
    · subst h0
      have hx0 : x = f.signed neg 0 := by simpa [roundNum] using (congrArg Prod.fst hback).symm
      have hm : (fgetm f (.num neg 0 1 (E - f.bias - f.fbits))).1 = x := by simp [fgetm, hx0]
      rw [hm, hd]
      exact ⟨hx, by simp [fscale, roundNum, hx0]⟩
    · have hpos := Nat.pos_of_ne_zero h0
      have hM2 : n < 2 ^ (f.fbits + 1) := by
        rw [Nat.pow_succ] at hM ⊢
        omega
      obtain ⟨k, hk, hw, hdec⟩ := fgetm_decode hf (neg := neg) (e := (E : Int) - f.bias - f.fbits) hpos hM2
      obtain ⟨hb, hEs⟩ := exponent_small hf hc
      refine ⟨hw, ?_⟩
      rw [hdec]
      simp only [fgetx, if_neg h0, log2Floor_one hpos, fscale]
      rw [if_neg (by omega), if_neg (by omega)]
      have hv : mag (n * 2 ^ k) 1 (-(f.fbits : Int) + (n.log2 + (E - f.bias - f.fbits))) = n * 2 ^ ((E : Int) - f.bias - f.fbits) := by
        rw [← mag_one, ← mag_shift n k]
        congr 1
        omega
      rw [roundNum_exact m false neg (Nat.mul_pos hpos (Nat.two_pow_pos _)) Nat.one_pos hE hM hv hc, ← hxe]

/-- Settles O21: rounding gives back the significand and the exponent of an encoding, and scaling by FGETX undoes FGETM. -/
theorem exactValues : Obligations.ExactValues := by
  unfold Obligations.ExactValues
  refine ⟨fun f hf m sat x hx neg n d e h => roundNum_decode hf m sat hx h, fun t ht m x hx hfin => ?_⟩
  have hfmt : fmtOf t ∈ [fmtF32, fmtF16, fmtBF16] ∧ tyBits t = (fmtOf t).width := by
    simp only [List.mem_cons, List.not_mem_nil, or_false] at ht
    rcases ht with rfl | rfl | rfl <;> decide
  obtain ⟨hf, hwidth⟩ := hfmt
  rw [hwidth] at hx
  simp only [fval, Nat.mod_eq_of_lt hx] at hfin ⊢
  obtain ⟨hlt, hback⟩ := fscale_fgetm_fgetx hf m hx hfin
  rwa [Nat.mod_eq_of_lt hlt]

end Sys2Proof.Numbers
end

section
/-! Proofs of family 02: reductions and scans (R187, R188, R190). -/

open Sys2Proof Sys2Proof.Machine
namespace Sys2Proof.Numbers

/-- A word that writes elements found again by `look` completes and writes them, where no floating-point trap can be taken. -/
theorem writes_looked {w : Fields} {s : State} {e : Env} (h : Issues w s e)
    (hoff : e.wv.handler.isSome ∨ bits e.wv.fpctl.toNat 12 8 = 0) {i : Instr} {body : Env → WRes} {t : Ty} {lat n : Nat}
    {look f : Nat → Nat} {fl : List (Nat × FFlags)} (hx : exec i s = onWord w s body)
    (hb : body e = .done { s := e.s, ws := e.putD t look, fl := fl, dcode := n, lat := lat })
    (hlook : ∀ l ∈ e.lanes, f l = look l) :
    ∃ s' w', exec i e.s = .next s' ∧ Completes e e.s e.wv s' w' ∧ WritesD e e.wv t f w' := by
  obtain ⟨s', w', hexec, hcomp, hv, hs, hk, -, -⟩ := word_done h hx hb rfl rfl rfl (fpTrap_off hoff _ _) rfl
  exact ⟨s', w', hexec, hcomp, ((writesD_putD h.facts.lane_lt e.wv t look).of_regs hv hs hk).congr hlook⟩

/-- Settles O11: the model's trees and scans are those of R187 and R188, segment by segment. -/
theorem reductions : Obligations.Reductions := by
  unfold Obligations.Reductions
  intro w s e h hoff op leaf c
  refine ⟨?_, ?_, ?_⟩
  · refine writes_looked h hoff rfl rfl fun l hl => ?_
    have hseg : e.segBase l ∈ e.segs := mem_dedup.mpr (List.mem_map.mpr ⟨l, hl, rfl⟩)
    simp only [find_map_key _ _ _ hseg, treeReduce_leaves]
    rfl
  · obtain ⟨s', w', hexec, hcomp, hv, hs, hk, -, -⟩ :=
      word_done h (i := .redw w) rfl rfl rfl rfl rfl (fpTrap_off hoff _ _) rfl
    refine ⟨s', w', hexec, hcomp, ?_⟩
    have hroot := treeReduce_leaves e op e.ty e.rm 0 e.wv.width
    change _ = redNode op e.ty e.rm (leaf 0 e.wv.width) e.wv.width.log2 0 at hroot
    rw [hroot] at hv hs hk
    cases hval : redNode op e.ty e.rm (leaf 0 e.wv.width) e.wv.width.log2 0 with
    | some x =>
      rw [hval] at hv hs hk
      exact (writesS_putS e e.wv _).of_regs hv hs hk
    | none =>
      rw [hval] at hv hs hk
      exact SameRegs.of_regs hv hs hk
  · refine writes_looked h hoff rfl rfl fun l hl => ?_
    obtain ⟨f, hfind⟩ := scan_find e op e.ty e.rm (e.fbit 3) h.facts.lanes_sorted hl
    rw [hfind]
    simp only [Env.segLanes, Env.segBase, List.filter_filter, Bool.and_comm]
    rfl

end Sys2Proof.Numbers
end

section
/-! Proofs of family 02: sums and exponent words (R170, R171, R473, R474). -/

open Sys2Proof Sys2Proof.Machine
namespace Sys2Proof.Numbers

/-- MAXE folds a score's exponent, clamped between the codes of the infinities, into the prior one (R473). -/
theorem maxeVal_eq (a b : Nat) : maxeVal a b =
    (wrap 32 (max (intVal .i32 b) (match fval .f32 a with
        | .nan _ => -(2 ^ 31)
        | .inf neg => if neg then -(2 ^ 31) else 2 ^ 31 - 1
        | .num neg _ _ _ => max (-(2 ^ 31) + 1) (min (2 ^ 31 - 2) (sgn neg (roundInt .rup (scaledScore (fval .f32 a))).1)))),
      flagIf (fval .f32 a).isSnan flagNV) := by
  unfold maxeVal
  cases fval .f32 a <;> rfl

/-- What PEXP gives in a lane, and its exceptions. -/
def pexpLane (e : Env) (l : Nat) : Nat × FFlags := ((pexpVal (e.a .f32 l) (e.b .i32 l)).1, (pexpVal (e.a .f32 l) (e.b .i32 l)).2.1)

/-- The active lanes whose term PEXP drops (R75). -/
def pexpDropped (e : Env) : Nat := (e.lanes.filter fun l => (pexpVal (e.a .f32 l) (e.b .i32 l)).2.2).length

/-- The state in which PEXP has counted the terms that it drops. -/
def pexpCounted (e : Env) : State :=
  e.s.modWave e.wid fun v => { v with pexpuf := pexpufAfter v.pexpuf (pexpDropped e) }

/-- The wave there. -/
def pexpWave (e : Env) : Wave := { e.wv with pexpuf := pexpufAfter e.wv.pexpuf (pexpDropped e) }

/-- PEXP's meaning: it counts the dropped terms and writes the others' powers. -/
theorem execPexp_eq (w : Fields) (s : State) : exec (.pexp w) s = onWord w s fun e =>
    .done { s := pexpCounted e, ws := e.putD .b32 (e.look (pexpLane e)), fl := e.lanes.map fun l => (l, (pexpLane e l).2),
            dcode := e.w.d.toNat, lat := 5 } := by
  have : (fun e : Env => ({ e with s := pexpCounted e } : Env).felems .b32 5 (pexpLane e)) = fun e =>
    .done { s := pexpCounted e, ws := e.putD .b32 (e.look (pexpLane e)), fl := e.lanes.map fun l => (l, (pexpLane e l).2),
            dcode := e.w.d.toNat, lat := 5 } := funext fun e => Env.felems_eq _ _ _ _
  rw [← this]
  rfl

/-- Settles O18: the sums are the model's own values; MAXE and PEXP by their equations. -/
theorem floatSums : Obligations.FloatSums := by
  unfold Obligations.FloatSums
  intro w s e h u
  refine ⟨GivesF.of_felems h rfl rfl, GivesF.of_felems h rfl rfl, ?_, fun hoff => ?_⟩
  · exact (GivesF.of_felems h (i := .maxe w) rfl rfl).congr fun l => (maxeVal_eq _ _).symm
  · have F := h.facts
    have hfp : fpTrap e.wv (e.lanes.map fun l => (l, (pexpLane e l).2)) e.w.d.toNat = none := by
      refine fpTrap_none _ (hoff.imp_right fun hoff p hp => ?_)
      obtain ⟨l, hl, rfl⟩ := List.mem_map.mp hp
      exact hoff l hl
    obtain ⟨s', w', hexec, hcomp, hv, hs, hk, hfl, -⟩ := effect_done h (execPexp_eq w s) rfl h.alone
      (v := pexpWave e) (State.wave_modWave_of h.wave) F.frag rfl rfl hfp rfl
    have hcounted : pexpCounted e = e.s.modWave e.wid fun _ => pexpWave e := State.modWave_congr h.wave rfl
    refine ⟨s', pexpWave e, w', hexec, rfl, hcounted ▸ hcomp, ?_, ?_⟩
    · exact ((writesD_putD F.lane_lt _ .b32 _).of_regs hv hs hk).congr fun l hl => (Env.look_lane (pexpLane e) hl).symm
    · simpa [fpflagsAfter, Function.comp_def, pexpLane, pexpWave] using hfl

end Sys2Proof.Numbers
end

section
/-! Proofs of family 02: conversions (R172 to R177). -/

open Sys2Proof Sys2Proof.Machine
namespace Sys2Proof.Numbers

/-- PKN's word, bit by bit: two fields of converted bits, and the bits that stay (R176). -/
theorem pknVal_bit (t : Ty) (j old x y m : Nat) :
    let n := if tyBits t = 8 then 8 else 16
    let low := if tyBits t = 8 then 16 * j else 0
    (pknVal t j old x y).testBit m = if low ≤ m ∧ m < low + n then x.testBit (m - low)
      else if low + n ≤ m ∧ m < low + 2 * n then y.testBit (m - low - n) else old.testBit m := by
  intro n low
  have hfields : ∀ lo k, (setBits (setBits old (lo + k) lo x) (lo + 2 * k + 1) (lo + k + 1) y).testBit m =
      if lo ≤ m ∧ m < lo + (k + 1) then x.testBit (m - lo)
      else if lo + (k + 1) ≤ m ∧ m < lo + 2 * (k + 1) then y.testBit (m - lo - (k + 1)) else old.testBit m := by
    intro lo k
    rw [setBits_bit _ _ _ _ _ (by omega), setBits_bit _ _ _ _ _ (by omega), Nat.sub_sub]
    by_cases hhigh : lo + k + 1 ≤ m ∧ m ≤ lo + 2 * k + 1
    · rw [if_pos hhigh, if_neg (by omega), if_pos (by omega)]
      rfl
    · rw [if_neg hhigh]
      by_cases hlow : lo ≤ m ∧ m ≤ lo + k
      · rw [if_pos hlow, if_pos (by omega)]
      · rw [if_neg hlow, if_neg (by omega), if_neg (by omega)]
  unfold pknVal
  by_cases h8 : tyBits t = 8
  · simp only [n, low, h8, if_true]
    exact hfields (16 * j) 7
  · simp only [n, low, h8, if_false]
    simpa using hfields 0 15

/-- Settles O19: each conversion word gives the model's conversion of its operands, PKN bit by bit. -/
theorem conversions : Obligations.Conversions := by
  unfold Obligations.Conversions
  intro w s e h
  refine ⟨?_, GivesF.of_felems h rfl rfl, GivesF.of_felems h rfl rfl, fun j hj => ?_, fun j hj => ?_⟩
  · refine (GivesF.of_felems h (i := .cvt w) rfl rfl).congr fun l => ?_
    simp only [cvt, Bool.and_eq_true]
  · refine ⟨_, GivesF.of_felems h (i := .pkn w) rfl rfl, fun l => ⟨rfl, fun m => ?_⟩⟩
    simp only [hj, Nat.add_sub_cancel_left]
    exact pknVal_bit e.ty j _ _ _ m
  · refine (GivesF.of_felems h (i := .upkn w) rfl rfl).congr fun l => ?_
    simp only [upknVal, hj, Nat.add_sub_cancel_left, Nat.shiftRight_eq_div_pow]

end Sys2Proof.Numbers
end

section
/-! Proofs of family 02: the report trap of a floating-point word (R65, R237, R250). -/

open Sys2Proof Sys2Proof.Machine
namespace Sys2Proof.Numbers

/-- A word of floating-point elements without lookahead, some of whose exceptions have their trap enabled: it completes, and then
takes the report trap that names the exceptions, D and the lanes (R65, R237, R250). -/
theorem felems_takes_trap {w : Fields} {s : State} {e : Env} (h : Issues w s e) (hla : e.w.la = 0) (hh : e.wv.handler = none)
    (ht : e.wv.tvec ≠ 0) {i : Instr} {body : Env → WRes} {t : Ty} {lat : Nat} {f : Nat → Nat × FFlags}
    (hx : exec i s = onWord w s body) (hb : body e = e.felems t lat f)
    (hit : ∃ l ∈ e.lanes, (trappedFlags e.wv.fpctl (f l).2 != 0) = true) :
    ∃ s1 w1 s' w', exec i e.s = .next s' ∧ Completes e e.s e.wv s1 w1 ∧ WritesD e e.wv t (fun l => (f l).1) w1 ∧
      w1.fpflags = e.wv.fpflags ||| (raised e f).setWidth 64 ∧
      Traps e s1 w1 s' w' (reportRec cFP (BitVec.ofNat 64 ((raised e f).toNat + 256 * e.w.d.toNat))
        (maskOf (e.lanes.filter fun l => trappedFlags e.wv.fpctl (f l).2 != 0))) e.nextPc := by
  have F := h.facts
  rw [Env.felems_eq] at hb
  obtain ⟨s1, w1, s', w', hexec, hcomp, htrap, hv, hs, hk, hfl, -⟩ := report_traps h hx hb h.alone h.wave F.frag rfl
    (Or.inl (fpTrap_some hh hit)) rfl hla hh ht
  refine ⟨s1, w1, s', w', hexec, hcomp, ?_, ?_, htrap⟩
  · exact ((writesD_putD F.lane_lt e.wv t _).of_regs hv hs hk).congr fun l hl => (Env.look_lane f hl).symm
  · simpa [fpflagsAfter, raised, Function.comp_def] using hfl

/-- Settles O22: each of the four words writes floating-point elements, and such a word takes the trap once it has completed. -/
theorem fpTrapTaken : Obligations.FpTrapTaken := by
  unfold Obligations.FpTrapTaken
  intro w s e h hla hh ht i op hi f hit hsome
  have hword : ∃ body lat, exec i s = onWord w s body ∧ body e = e.felems e.ty lat f := by
    simp only [List.mem_cons, List.not_mem_nil, or_false, Prod.mk.injEq] at hi
    rcases hi with ⟨rfl, rfl⟩ | ⟨rfl, rfl⟩ | ⟨rfl, rfl⟩ | ⟨rfl, rfl⟩ <;> exact ⟨_, _, rfl, rfl⟩
  obtain ⟨body, lat, hx, hb⟩ := hword
  obtain ⟨s1, w1, s', w', hexec, hcomp, hwrites, hflags, htrap⟩ := felems_takes_trap h hla hh ht hx hb hsome
  refine ⟨s1, w1, s', w', _, hexec, hcomp, hwrites, hflags, htrap, rfl, rfl, rfl, rfl, fun l hl => ?_⟩
  simp only [reportRec, getLsbD_maskOf _ _ hl, List.mem_filter]
  rfl

end Sys2Proof.Numbers
end

section
/-! Proofs of family 02: SRWR (R62, R63, R75, R206). -/

open Sys2Proof Sys2Proof.Machine
namespace Sys2Proof.Numbers

/-- The value that SRWR writes. -/
def srwrValue (e : Env) : W64 := BitVec.ofNat 64 (e.a .b64 0)

/-- SRWR's meaning (R206). -/
def srwrBody (e : Env) : WRes :=
  if e.w.f.toNat ≤ 1 ∧ (srwrValue e).toNat % 8 ≠ 0 then e.trapNow cALIGN 0 (srwrValue e) e.frag.mask
  else .done { s := sysWrite e.s e.wid e.wv e.w.f.toNat (srwrValue e) }

theorem exec_srwr (w : Fields) (s : State) : exec (.srwr w) s = onWord w s srwrBody := rfl

theorem srwrBody_misaligned {e : Env} (hid : e.w.f.toNat ≤ 1) (hx : (srwrValue e).toNat % 8 ≠ 0) :
    srwrBody e = e.trapNow cALIGN 0 (srwrValue e) e.frag.mask := if_pos ⟨hid, hx⟩

theorem srwrBody_writes {e : Env} (hx : e.w.f.toNat ≤ 1 → (srwrValue e).toNat % 8 = 0) :
    srwrBody e = .done { s := sysWrite e.s e.wid e.wv e.w.f.toNat (srwrValue e) } := if_neg fun h => h.2 (hx h.1)

/-- A write of a register of the wave: the wave becomes `v`, and SRWR completes. -/
theorem srwr_sets {w : Fields} {s : State} {e : Env} (h : Issues w s e) {f : Wave → Wave} {v : Wave}
    (hx : e.w.f.toNat ≤ 1 → (srwrValue e).toNat % 8 = 0)
    (hs : sysWrite e.s e.wid e.wv e.w.f.toNat (srwrValue e) = e.s.modWave e.wid f) (hf : f e.wv = v)
    (hfr : v.frags = e.wv.frags) :
    ∃ s' w', exec (.srwr w) e.s = .next s' ∧ Completes e (e.s.modWave e.wid fun _ => v) v s' w' ∧ SameRegs v w' ∧
      w'.fpflags = v.fpflags ∧ w'.pending = v.pending := by
  refine effect_wave h (exec_srwr w s) ?_ hf hfr
  rw [srwrBody_writes hx, hs]

/-- FPCTL after a write: the writable bits, and no reserved rounding mode (R62). -/
theorem fpctlWrite_bit (old x : W64) {n : Nat} (hn : n < 64) : (fpctlWrite old x).getLsbD n =
    if 8 ≤ n ∧ n < 13 then x.getLsbD n
    else if n < 3 then (if x.toNat % 8 < 5 then x.getLsbD n else old.getLsbD n) else false := by
  have hrm : ∀ y : W64, bits y.toNat 2 0 = y.toNat % 8 := fun y => by simp [bits]
  have hlow : ∀ y : W64, n < 3 → (y.toNat % 8).testBit n = y.getLsbD n := fun y h3 => by
    rw [show (8 : Nat) = 2 ^ 3 from rfl, Nat.testBit_mod_two_pow, BitVec.getLsbD, decide_eq_true h3, Bool.true_and]
  unfold fpctlWrite
  simp only [hrm]
  rw [BitVec.getLsbD_ofNat, decide_eq_true hn, Bool.true_and]
  generalize hr : (if x.toNat % 8 < 5 then x.toNat % 8 else old.toNat % 8) = r
  have hr8 : r < 2 ^ 8 := by
    rw [← hr]
    split <;> omega
  rw [show (256 : Nat) = 2 ^ 8 from rfl, Nat.mul_comm, Nat.testBit_two_pow_mul_add _ hr8]
  by_cases h8 : n < 8
  · rw [if_pos h8, if_neg (by omega)]
    by_cases h3 : n < 3
    · rw [if_pos h3, ← hr]
      split
      · exact hlow x h3
      · exact hlow old h3
    · rw [if_neg h3]
      refine Nat.testBit_lt_two_pow (Nat.lt_of_lt_of_le ?_ (Nat.pow_le_pow_right (by omega) (Nat.le_of_not_lt h3)))
      rw [← hr]
      split <;> omega
  · rw [if_neg h8]
    simp only [bits, Nat.testBit_mod_two_pow, Nat.testBit_shiftRight, BitVec.testBit_toNat]
    by_cases h13 : n < 13
    · rw [if_pos (by omega), decide_eq_true (by omega), Nat.add_sub_cancel' (by omega)]
      rfl
    · rw [if_neg (by omega), if_neg (by omega), decide_eq_false (by omega), Bool.false_and]

/-- FPFLAGS after a write: each of its five bits is cleared where a 1 is written (R63). -/
theorem fpflagsWrite_bit (old x : W64) {n : Nat} (hn : n < 64) : (fpflagsWrite old x).getLsbD n =
    (old.getLsbD n && !(decide (n < 5) && x.getLsbD n)) := by
  have hmask : (0x1F#64).getLsbD n = decide (n < 5) := by
    rw [show (0x1F#64) = BitVec.ofNat 64 (2 ^ 5 - 1) from rfl, BitVec.getLsbD_ofNat, Nat.testBit_two_pow_sub_one]
    simp [hn]
  simp only [fpflagsWrite, BitVec.getLsbD_and, BitVec.getLsbD_not, decide_eq_true hn, Bool.true_and]
  rw [show (0x1F : W64) = 0x1F#64 from rfl, hmask, Bool.and_comm (x.getLsbD n)]

/-- A TRAPLANES word that the wave has is replaced, below the width. -/
theorem sysWrite_traplanes {s : State} {wid : Nat} {w : Wave} {j : Nat} (hj : j < 32) (hw : j < w.maskWords) (x : W64) :
    sysWrite s wid w (0x10 + j) x =
      s.modWave wid fun w => { w with traplanes := setMaskWord w.traplanes j x.toNat &&& fullMask w.width } := by
  unfold sysWrite
  rw [if_pos (by omega), Nat.add_sub_cancel_left, if_pos hw]

/-- The slack stays between 64 and 1024 (R281). -/
theorem slack_clamped (n : Nat) : (if n < 64 then 64 else if n > 1024 then 1024 else n) = max 64 (min 1024 n) := by
  split
  · omega
  · split <;> omega

/-- Settles O31, register by register: a change of the wave, of the TWIN block, of nothing, or the ALIGN fault. -/
theorem systemWrites : Obligations.SystemWrites := by
  unfold Obligations.SystemWrites
  intro w s e h id x gives
  have aligned : ∀ {n}, 1 < n → id = n → e.w.f.toNat ≤ 1 → (srwrValue e).toNat % 8 = 0 := fun hn hid hle => by
    change e.w.f.toNat = _ at hid
    omega
  refine ⟨fun hid ha => ?_, fun hid ha => ?_, fun hid ha hh ht => ?_, fun hid => ?_, fun hid => ?_, fun hid => ?_,
    fun j hid hj hjw => ?_, fun hid b hb => ?_, fun hid => ?_⟩
  · exact srwr_sets h (fun _ => ha) (congrArg (sysWrite e.s e.wid e.wv · (srwrValue e)) hid) rfl rfl
  · exact srwr_sets h (fun _ => ha) (congrArg (sysWrite e.s e.wid e.wv · (srwrValue e)) hid) rfl rfl
  · exact fault_traps h (exec_srwr w s) (srwrBody_misaligned (by omega) ha) hh ht
  · exact ⟨_, srwr_sets h (aligned (by omega) hid) (congrArg (sysWrite e.s e.wid e.wv · (srwrValue e)) hid) rfl rfl,
      fun n hn => fpctlWrite_bit e.wv.fpctl x hn⟩
  · exact ⟨_, srwr_sets h (aligned (by omega) hid) (congrArg (sysWrite e.s e.wid e.wv · (srwrValue e)) hid) rfl rfl,
      fun n hn => fpflagsWrite_bit e.wv.fpflags x hn⟩
  · exact srwr_sets h (aligned (by omega) hid) (congrArg (sysWrite e.s e.wid e.wv · (srwrValue e)) hid) rfl rfl
  · refine ⟨_, srwr_sets h (aligned (by omega) hid) ((congrArg (sysWrite e.s e.wid e.wv · (srwrValue e)) hid).trans
      (sysWrite_traplanes hj hjw _)) rfl rfl, fun l hl => ?_⟩
    rw [BitVec.getLsbD_and, setMaskWord_bit _ _ _ hl, getLsbD_fullMask _ _ hl]
    rfl
  · have F := h.facts
    have hs : sysWrite e.s e.wid e.wv e.w.f.toNat (srwrValue e) = e.s.modBlock (e.wv.bid e.wid) fun _ =>
        { b with twin := { b.twin with slack := max 64 (min 1024 (bits x.toNat 10 0)) } } := by
      rw [show e.w.f.toNat = 0x062 from hid]
      unfold sysWrite
      rw [if_neg (by omega), leaderBid_single h.alone]
      refine State.modBlock_congr hb ?_
      simp only [slack_clamped]
      rfl
    obtain ⟨s', w', hexec, hcomp, hv, hss, hk, hfl, -⟩ := effect_done h (exec_srwr w s) (srwrBody_writes (aligned (by omega) hid))
      (v := e.wv) (by rw [hs]; exact h.alone) (by rw [hs]; exact h.wave) F.frag rfl rfl (fpTrap_nil _ _) rfl
    rw [hs] at hcomp
    exact ⟨s', w', hexec, hcomp, SameRegs.of_regs hv hss hk, by simpa [fpflagsAfter, mergeFlags, noFlags] using hfl⟩
  · have hs : ∀ n ∈ [0x002, 0x003, 0x004, 0x005, 0x040, 0x041, 0x050, 0x051, 0x052, 0x053, 0x054, 0x055, 0x056, 0x057, 0x058,
        0x059, 0x060, 0x061, 0x070], sysWrite e.s e.wid e.wv n (srwrValue e) = e.s ∧ 1 < n := by
      simp [sysWrite]
    refine GivesNothing.of_done h (exec_srwr w s) ?_
    rw [srwrBody_writes (aligned (hs id hid).2 rfl), (hs id hid).1]

end Sys2Proof.Numbers
end

section
/-! Proofs of family 02: special results of the divisions, roots and elementary functions (R45, R167, R168). -/

open Sys2Proof Sys2Proof.Machine
namespace Sys2Proof.Numbers

section Delivered
variable {f : Fmt} (m : RM) (g : FFlags)

theorem noFlags_or : noFlags ||| g = g := BitVec.zero_or

/-- Delivering the operations' NaN: the canonical NaN, with the exceptions of the operation (R45). -/
theorem deliver_nan : deliver f m (.nan false, g) = (f.nanCode, g) := by simp [deliver, roundVal, flagIf, noFlags_or]

theorem deliver_inf (hf : f.noInf = false) (s : Bool) : deliver f m (.inf s, g) = (f.signed s f.infCode, g) := by
  simp [deliver, roundVal, hf, noFlags_or]

theorem deliver_zero (s : Bool) (d : Nat) (e : Int) : deliver f m (.num s 0 d e, g) = (f.signed s 0, g) := by
  simp [deliver, roundVal, roundNum, noFlags_or]

end Delivered

/-! ### Quotients and roots before they are delivered (R168) -/

theorem divVal_nan {a b : Val} (h : a.isNan ∨ b.isNan) : divVal a b = (.nan false, flagIf (a.isSnan || b.isSnan) flagNV) := by
  simp only [← Bool.or_eq_true] at h
  rw [divVal, if_pos h]

theorem divVal_by_zero (s s' : Bool) {n : Nat} (hn : n ≠ 0) (d d' : Nat) (e e' : Int) :
    divVal (.num s n d e) (.num s' 0 d' e') = (.inf (s != s'), flagDZ) := by
  simp [divVal, Val.isNan, Val.isInf, Val.isZero, Val.sign, hn]

theorem divVal_zero_zero (s s' : Bool) (d d' : Nat) (e e' : Int) : divVal (.num s 0 d e) (.num s' 0 d' e') = (.nan false, flagNV) := by
  simp [divVal, Val.isNan, Val.isInf, Val.isZero]

theorem divVal_inf_inf (s s' : Bool) : divVal (.inf s) (.inf s') = (.nan false, flagNV) := by
  simp [divVal, Val.isNan, Val.isInf]

theorem divVal_by_inf (s s' : Bool) (n d : Nat) (e : Int) : divVal (.num s n d e) (.inf s') = (.num (s != s') 0 1 0, noFlags) := by
  simp [divVal, Val.isNan, Val.isInf, Val.sign]

theorem sqrtVal_zero (s : Bool) (d : Nat) (e : Int) : sqrtVal (.num s 0 d e) = (.num s 0 1 0, noFlags) := by simp [sqrtVal]

theorem sqrtVal_negative {n : Nat} (hn : n ≠ 0) (d : Nat) (e : Int) : sqrtVal (.num true n d e) = (.nan false, flagNV) := by
  simp [sqrtVal, hn]

theorem rsqrtVal_zero (s : Bool) (d : Nat) (e : Int) : rsqrtVal (.num s 0 d e) = (.inf s, flagDZ) := by simp [rsqrtVal]

theorem rsqrtVal_negative {n : Nat} (hn : n ≠ 0) (d : Nat) (e : Int) : rsqrtVal (.num true n d e) = (.nan false, flagNV) := by
  simp [rsqrtVal, hn]

/-! ### Elementary functions at the points where they are exact (R167, R168) -/

/-- 1 is exact in every format with an exponent range around 0. -/
theorem roundNum_one {f : Fmt} (hb : 1 ≤ f.bias) (hinf : f.bias * 2 ^ f.fbits < f.infCode) (m : RM) :
    roundNum f m false false 1 1 0 = (f.bias * 2 ^ f.fbits, noFlags) := by
  have hcode : (f.bias - 1) * 2 ^ f.fbits + 2 ^ f.fbits = f.bias * 2 ^ f.fbits := by
    rw [← Nat.succ_mul, Nat.succ_eq_add_one, Nat.sub_add_cancel hb]
  have hv : mag 1 1 0 = (2 ^ f.fbits : Nat) * 2 ^ ((f.bias : Int) - f.bias - f.fbits) := by
    simp [mag]
  rw [roundNum_exact m false false Nat.one_pos Nat.one_pos hb
    (Or.inl ⟨le_rfl, Nat.pow_lt_pow_right (by omega) (by omega)⟩) hv (hcode ▸ hinf), hcode]
  rfl

theorem fexp2_zero (f : Fmt) (m : RM) (s : Bool) (d : Nat) (e : Int) :
    fexp2 f m (.num s 0 d e) = roundNum f m false false 1 1 0 := by
  have h0 : sgn s 0 = 0 := by cases s <;> rfl
  unfold fexp2 exp2Round
  by_cases he : e ≥ 0 <;> simp [h0, he]

theorem flog2_one (f : Fmt) (m : RM) (k : Nat) : flog2 f m (.num false (2 ^ k) 1 (-k)) = (f.signed false 0, noFlags) := by
  have hlog : log2Floor (2 ^ k) 1 (-k) = 0 := by
    refine log2Floor_unique (Nat.two_pow_pos k) Nat.one_pos ?_ ?_ <;> simp [mag]
  simp [flog2, log2Round, hlog, Nat.shiftLeft_eq, roundNum]

/-- An integer of a half turn: the sine is zero. -/
theorem fsinpi_integer (f : Fmt) (m : RM) (s : Bool) (n k : Nat) :
    fsinpi f m (.num s n 1 k) = (f.signed s 0, noFlags) ∧ fsinpi f m (.num s (n * 2 ^ k) 1 (-k)) = (f.signed s 0, noFlags) := by
  refine ⟨by simp [fsinpi], ?_⟩
  have hmod : n * 2 ^ k % 2 ^ (k + 1) = n % 2 * 2 ^ k := by rw [Nat.pow_succ', Nat.mul_mod_mul_right]
  have hcase : n % 2 * 2 ^ k = 0 ∨ n % 2 * 2 ^ k = 2 ^ k := by
    rcases Nat.mod_two_eq_zero_or_one n with h | h <;> simp [h]
  have hk : (-(-(k : Int))).toNat = k := by simp
  unfold fsinpi
  simp only [hk, hmod, hcase, if_true, ite_self]

/-- An odd multiple of a quarter turn: the cosine is +0. -/
theorem fcospi_half (f : Fmt) (m : RM) (s : Bool) (n k : Nat) :
    fcospi f m (.num s ((2 * n + 1) * 2 ^ k) 1 (-(k : Int) - 1)) = (0, noFlags) := by
  have hmod : (2 * n + 1) * 2 ^ k % 2 ^ (k + 1 + 1) = (2 * n + 1) % 4 * 2 ^ k := by
    rw [show 2 ^ (k + 1 + 1) = 4 * 2 ^ k by rw [Nat.pow_succ, Nat.pow_succ]; omega, Nat.mul_mod_mul_right]
  have hk : (-(-(k : Int) - 1)).toNat = k + 1 := by omega
  have hneg : ¬ (-(k : Int) - 1 > 0) := by omega
  have hpos := Nat.two_pow_pos k
  have hquarter : ∀ x, x = 2 ^ k ∨ x = 3 * 2 ^ k → (if x > 2 ^ (k + 1) then 2 ^ (k + 1 + 1) - x else x) = 2 ^ k := by
    intro x hx
    rw [Nat.pow_succ, Nat.pow_succ]
    split <;> omega
  have hcase : (2 * n + 1) % 4 * 2 ^ k = 2 ^ k ∨ (2 * n + 1) % 4 * 2 ^ k = 3 * 2 ^ k := by
    have : (2 * n + 1) % 4 = 1 ∨ (2 * n + 1) % 4 = 3 := by omega
    rcases this with h | h <;> simp [h]
  have hhalf : 2 * 2 ^ k = 2 ^ (k + 1) := (Nat.pow_succ' ..).symm
  unfold fcospi
  simp only [hk, if_neg hneg, hmod, hquarter _ hcase, hhalf, Nat.lt_irrefl, decide_false, Bool.false_eq_true, if_false, if_true]
  rw [if_neg hpos.ne']

/-- Settles O14, clause by clause from the equations above. -/
theorem floatSpecials : Obligations.FloatSpecials := by
  unfold Obligations.FloatSpecials
  intro t ht m f nan inf zero one
  have hf5 : f ∈ [fmtF32, fmtF16, fmtBF16, fmtE4M3, fmtE5M2] ∧ tyBits t = f.width ∧ f.noInf = false ∧ 1 ≤ f.bias ∧
      f.bias * 2 ^ f.fbits < f.infCode := by
    simp only [List.mem_cons, List.not_mem_nil, or_false] at ht
    rcases ht with rfl | rfl | rfl <;> decide
  obtain ⟨hf, hwidth, hni, hb, hinf⟩ := hf5
  refine ⟨fun x hx hfin => ?_, fun a b hab => ?_, fun s => ?_, fun s s' n d e d' e' hn => ?_, fun s s' d e d' e' => ?_,
    fun d e => ?_, ?_, fun n d e hn => ?_, ?_, ?_, ?_, fun s => ?_, fun s d e => ?_, ?_, ?_, ?_, fun s d e => ?_,
    fun s d e => ?_, fun k => ?_, ?_, fun s => ?_, fun s n k => ?_, fun s n k => ?_⟩
  · rw [hwidth] at hx
    cases hd : f.decode x with
    | nan s => simp [fval, Nat.mod_eq_of_lt hx, f, hd, Val.isFin] at hfin
    | inf s => simp [fval, Nat.mod_eq_of_lt hx, f, hd, Val.isFin] at hfin
    | num s n d e =>
      obtain ⟨E, M, rfl, rfl, rfl, -⟩ := decode_num hf hx hd
      exact ⟨s, n, _, by rw [fval, Nat.mod_eq_of_lt hx, hd]⟩
  · rw [divVal_nan hab, deliver_nan]
  · have hdiv : divVal (.num false 1 1 0) (.nan s) = (.nan false, flagIf s flagNV) := divVal_nan (Or.inr rfl)
    exact ⟨hdiv ▸ deliver_nan m _, deliver_nan m _, deliver_nan m _, rfl, rfl, rfl, rfl⟩
  · rw [divVal_by_zero s s' hn, deliver_inf m _ hni]
  · rw [divVal_zero_zero, divVal_inf_inf]
    exact ⟨deliver_nan m _, deliver_nan m _⟩
  · rw [sqrtVal_zero, deliver_zero]
  · exact deliver_inf m _ hni false
  · rw [sqrtVal_negative hn, rsqrtVal_negative hn]
    exact ⟨deliver_nan m _, deliver_nan m _, by simp [flog2, hn, nan]⟩
  · exact deliver_nan m _
  · exact deliver_nan m _
  · rfl
  · rw [divVal_by_inf, deliver_zero, Bool.false_bne]
  · rw [rsqrtVal_zero, deliver_inf m _ hni]
  · exact deliver_zero m _ false 1 0
  · rfl
  · rfl
  · rw [fexp2_zero, roundNum_one hb hinf]
  · rfl
  · exact flog2_one f m k
  · rfl
  · exact ⟨rfl, rfl⟩
  · exact fsinpi_integer f m s n k
  · exact fcospi_half f m s n k

end Sys2Proof.Numbers
end

section
/-! Proofs of family 02: quarter operations (R68, R69, R349 to R354). -/

open Sys2Proof Sys2Proof.Machine
namespace Sys2Proof.Numbers

/-! ### The checks of a quarter operation (R349, R351) -/

/-- The mask state that a quarter operation hands to its members (R358). -/
def quarterMask (e : Env) : Option MaskState := if e.fbit 4 then some e.wv.maskState else none

/-- The members of one pass of a quarter operation, for the lanes and rows `ok`. -/
def quartersAt (e : Env) (r : ObRec) (ok : List (Nat × Nat)) (m : Nat) : List (Quarter × Option MaskState) :=
  quartersOf e.wid (32 * e.s.fresh.1 + m) e.w.d.toNat r (quarterMask e) ok m

/-- The passes that have members. -/
def quarterPasses (e : Env) (r : ObRec) (ok : List (Nat × Nat)) : List (List (Quarter × Option MaskState)) :=
  (List.range e.wv.maskWords).filterMap fun m => match quartersAt e r ok m with
    | [] => none
    | l => some l

/-- What a pass hands to the core's collector. -/
def quarterMember (e : Env) (kind : Nat) (t : StandTile) (c : Core) (l : List (Quarter × Option MaskState)) : Collector :=
  { kind := kind, atype := e.f 9 5, tile := t, bid := e.wv.bid e.wid, k0 := e.uni e.w.c.toNat .n32, kk := 32 * (e.f 13 10 + 1),
    opened := c.cyc, members := l }

/-- The record, the stand tile and the range of K as R351 checks them for the whole instruction. -/
def quarterReason (e : Env) (scaled : Bool) : Option Nat :=
  wholeReason (e.record e.w.a.toNat) (tyAt (e.f 9 5)) scaled e.wv.tile (e.uni e.w.c.toNat .n32) (32 * (e.f 13 10 + 1))

section Checks
variable {w : Fields} {s : State} {e : Env} {kind : Nat} {scaled : Bool}
  (hrecv : e.wv.receives (e.lanes.map (tileOf e.w.d.toNat)) = none) (htiles : ∀ i ∈ e.lanes, tileOf e.w.d.toNat i < e.wv.accs)
include hrecv htiles

/-- A reason that fails the whole instruction is reported on every lane. -/
theorem quarterOp_fails {x : Nat} (hx : quarterReason e scaled = some x) : quarterOp e kind scaled = e.obAll e.w.a.toNat x := by
  unfold quarterReason at hx
  unfold quarterOp
  simp only [withTiles_ok hrecv htiles, hx]

/-- Past the checks of the whole instruction, its passes go to the collector. -/
theorem quarterOp_passes {r : ObRec} {t : StandTile} {ok : List (Nat × Nat)} {bad : List ObFault} (hx : quarterReason e scaled = none)
    (hr : e.record e.w.a.toNat = some r) (ht : e.wv.tile = some t)
    (hl : quarterLanes e r (e.uni e.w.c.toNat .n32) (32 * (e.f 13 10 + 1)) = (ok, bad)) :
    quarterOp e kind scaled =
      if (quarterPasses e r ok).isEmpty then .done { s := e.s, fault := obTrap e.w.a.toNat bad }
      else .done {
        s := ((quarterPasses e r ok).foldl (fun s l => s.modCore (coreOfWave e.wid) fun c =>
          c.collect (quarterMember e kind t c l)) e.s.fresh.2).modWave e.wid
            fun w => { w with arrayQ := w.arrayQ ++ (quarterPasses e r ok).map arrayPassOf }
        fault := obTrap e.w.a.toNat bad } := by
  rw [quarterReason, hr, ht] at hx
  unfold quarterOp
  simp only [withTiles_ok hrecv htiles, hr, ht, hx, hl]
  rfl

end Checks

/-- OB_RECORD of one reason at one lowest offset on every active lane, with nothing handed over. -/
theorem quarter_traps {w : Fields} {s : State} {e : Env} {kind : Nat} {scaled : Bool} (h : Issues w s e) {i : Instr}
    (hx : exec i s = onWord w s fun e => quarterOp e kind scaled) {reason : Nat}
    {off : Nat → Nat} {j : Nat} (hj : j ∈ e.lanes) (hmin : ∀ l ∈ e.lanes, off j ≤ off l)
    (hop : quarterOp e kind scaled =
      .done { s := e.s, fault := obTrap e.w.a.toNat (e.lanes.map fun l => { lane := l, reason := reason, off := off l }) })
    (hh : e.wv.handler = none) (ht : e.wv.tvec ≠ 0) :
    FaultsWith e i 0x12 (BitVec.ofNat 64 (reason + 256 * e.w.a.toNat)) (BitVec.ofNat 64 (off j)) (maskOf e.lanes) := by
  rw [obTrap_same _ _ off hj hmin] at hop
  exact fault_traps (ld := false) h hx hop hh ht

/-! ### Scales without a value (R349 reasons 4 to 6) -/

/-- The scale at an offset has no value, for a reason. -/
def BadScale (e : Env) (b : Block) (r : ObRec) (o reason : Nat) : Prop :=
  let x := ofLE (obufBytes e.s (e.wv.bid e.wid) o r.scaleBytes)
  if b.obufSize < o + r.scaleBytes then reason = 6
  else if r.bf16Scale then reason = 5 ∧ (fval .bf16 x).isFin = false
  else reason = 4 ∧ x = 255

theorem scaleReason_iff {e : Env} {b : Block} (hb : e.s.block (e.wv.bid e.wid) = some b) (r : ObRec) (o reason : Nat) :
    scaleReason e r o = some reason ↔ BadScale e b r o reason := by
  have hsize : spaceSize e 2 = b.obufSize := by simp [spaceSize, hb]
  unfold scaleReason BadScale
  rw [hsize]
  by_cases h1 : o + r.scaleBytes > b.obufSize
  · simp [h1, eq_comm]
  · by_cases h2 : r.bf16Scale = true
    · cases h3 : (fval .bf16 (ofLE (obufBytes e.s (e.wv.bid e.wid) o r.scaleBytes))).isFin <;> simp [h1, h2, h3, eq_comm]
    · by_cases h3 : ofLE (obufBytes e.s (e.wv.bid e.wid) o r.scaleBytes) = 255 <;> simp [h1, h2, h3, eq_comm]

theorem scaleReason_none {e : Env} {b : Block} (hb : e.s.block (e.wv.bid e.wid) = some b) {r : ObRec} {o : Nat}
    (h : ∀ reason, ¬BadScale e b r o reason) : scaleReason e r o = none :=
  Option.eq_none_iff_forall_ne_some.2 fun reason hreason => h reason ((scaleReason_iff hb r o reason).1 hreason)

/-! ### What a quarter operation does -/

theorem record_of_block {e : Env} {b : Block} (hb : e.s.block (e.wv.bid e.wid) = some b) (n : Nat) :
    e.record n = Tbl.find b.recs n := by rw [Env.record, hb, Option.bind_some]

theorem quarterPasses_nil (e : Env) (r : ObRec) : quarterPasses e r [] = [] := by
  have : ∀ m, quartersAt e r [] m = [] := fun m => by simp [quartersAt, quartersOf]
  simp [quarterPasses, this]

theorem flatten_quarterPasses (e : Env) (r : ObRec) (ok : List (Nat × Nat)) :
    (quarterPasses e r ok).flatten = (List.range e.wv.maskWords).flatMap (quartersAt e r ok) := by
  rw [← flatten_filterMap, quarterPasses]
  congr 2
  funext m
  cases quartersAt e r ok m <;> rfl

/-- Where the checks of the whole instruction pass there are a record and a stand tile. -/
theorem wholeReason_none {r : Option ObRec} {a : Ty} {scaled : Bool} {t : Option StandTile} {k0 kk : Nat}
    (h : wholeReason r a scaled t k0 kk = none) : (∃ r', r = some r') ∧ ∃ t', t = some t' := by
  cases r with
  | none => cases h
  | some r =>
    cases t with
    | none =>
      unfold wholeReason at h
      simp only at h
      split at h <;> cases h
    | some t => exact ⟨⟨r, rfl⟩, t, rfl⟩

/-- The checks of the whole instruction, all passed (R351). -/
theorem wholeReason_passes {r : ObRec} {a : Ty} {scaled : Bool} {t : StandTile} {k0 kk : Nat} (hty : fmtTy r.fmt = a)
    (hsc : (r.blk != 0) = scaled) (hpair : Machine.pairOk a (tyAt t.fmt) = true) (h0 : k0 % 32 = 0) (hkt : k0 + kk ≤ t.kt)
    (hrow : (k0 + kk) * fmtBytes r.fmt ≤ r.pitch * 16) : wholeReason (some r) a scaled (some t) k0 kk = none := by
  simp [wholeReason, hty, hsc, hpair, h0, Nat.not_lt.2 hkt, Nat.not_lt.2 hrow]

theorem wholeReason_format {r : ObRec} {a : Ty} {scaled : Bool} (h : ¬(fmtTy r.fmt = a ∧ (r.blk != 0) = scaled)) (t : Option StandTile)
    (k0 kk : Nat) : wholeReason (some r) a scaled t k0 kk = some 2 := by
  have : (decide (fmtTy r.fmt ≠ a) || (r.blk != 0) != scaled) = true := by
    simp only [Bool.or_eq_true, decide_eq_true_eq, bne_iff_ne]
    exact not_and_or.1 h
  simp only [wholeReason, this, if_true]

section Reasons
variable {r : ObRec} {a : Ty} {scaled : Bool} {t : StandTile} {k0 kk : Nat} (hty : fmtTy r.fmt = a) (hsc : (r.blk != 0) = scaled)
include hty hsc

theorem wholeReason_no_tile : wholeReason (some r) a scaled none k0 kk = some 3 := by simp [wholeReason, hty, hsc]

theorem wholeReason_pair (hpair : Machine.pairOk a (tyAt t.fmt) = false) : wholeReason (some r) a scaled (some t) k0 kk = some 3 := by
  simp [wholeReason, hty, hsc, hpair]

theorem wholeReason_range (hpair : Machine.pairOk a (tyAt t.fmt) = true)
    (hk : ¬(k0 % 32 = 0 ∧ k0 + kk ≤ t.kt ∧ (k0 + kk) * fmtBytes r.fmt ≤ r.pitch * 16)) :
    wholeReason (some r) a scaled (some t) k0 kk = some 8 := by
  simp only [wholeReason, hty, hsc, hpair]
  rw [if_neg (by simp), if_neg (by simp), if_pos]
  simp only [Bool.or_eq_true, decide_eq_true_eq]
  omega

end Reasons

section Operation
variable {w : Fields} {s : State} {e : Env} {kind : Nat} {scaled : Bool}
  (hrecv : e.wv.receives (e.lanes.map (tileOf e.w.d.toNat)) = none) (htiles : ∀ i ∈ e.lanes, tileOf e.w.d.toNat i < e.wv.accs)
include hrecv htiles

/-- Without an active lane nothing happens. -/
theorem quarterOp_idle (hl : e.lanes = []) : quarterOp e kind scaled = .done { s := e.s } := by
  cases hx : quarterReason e scaled with
  | some x =>
    rw [quarterOp_fails hrecv htiles hx, Env.obAll, hl]
    rfl
  | none =>
    obtain ⟨⟨r, hr⟩, t, ht⟩ := wholeReason_none hx
    have hlanes : quarterLanes e r (e.uni e.w.c.toNat .n32) (32 * (e.f 13 10 + 1)) = ([], []) := by simp [quarterLanes, hl]
    rw [quarterOp_passes hrecv htiles hx hr ht hlanes, quarterPasses_nil]
    rfl

/-- Lanes that all fail hand nothing over. -/
theorem quarterOp_all_bad {r : ObRec} {t : StandTile} {bad : List ObFault} (hx : quarterReason e scaled = none)
    (hr : e.record e.w.a.toNat = some r) (ht : e.wv.tile = some t)
    (hl : quarterLanes e r (e.uni e.w.c.toNat .n32) (32 * (e.f 13 10 + 1)) = ([], bad)) :
    quarterOp e kind scaled = .done { s := e.s, fault := obTrap e.w.a.toNat bad } := by
  rw [quarterOp_passes hrecv htiles hx hr ht hl, quarterPasses_nil]
  rfl

/-- Lanes that all pass: their members stand in the collectors and their accesses in the wave's queue (R351 to R354). -/
theorem quarterOp_hands_over (h : Issues w s e) {i : Instr} (hi : exec i s = onWord w s fun e => quarterOp e kind scaled)
    (hne : e.lanes ≠ []) {r : ObRec} {t : StandTile} {row : Nat → Nat} (hx : quarterReason e scaled = none)
    (hr : e.record e.w.a.toNat = some r) (ht : e.wv.tile = some t)
    (hl : quarterLanes e r (e.uni e.w.c.toNat .n32) (32 * (e.f 13 10 + 1)) = (e.lanes.map fun l => (l, row l), [])) :
    ∃ s' w' coll closed,
      let c : Core := { e.s.core (coreOfWave e.wid) with coll := coll, closed := closed }
      let v : Wave := { e.wv with
        arrayQ := e.wv.arrayQ ++ (quarterPasses e r (e.lanes.map fun l => (l, row l))).map arrayPassOf }
      exec i e.s = .next s' ∧
      Completes e ((e.s.fresh.2.modCore (coreOfWave e.wid) fun _ => c).modWave e.wid fun _ => v) v s' w' ∧ SameRegs e.wv w' ∧
      w'.fpflags = e.wv.fpflags ∧ w'.pending = e.wv.pending ∧
      collected c = collected (e.s.core (coreOfWave e.wid)) ++
        (List.range e.wv.maskWords).flatMap (quartersAt e r (e.lanes.map fun l => (l, row l))) := by
  have F := h.facts
  generalize hok : (e.lanes.map fun l => (l, row l)) = ok at hl ⊢
  have hop := quarterOp_passes (kind := kind) hrecv htiles hx hr ht hl
  have hflat := flatten_quarterPasses e r ok
  have hsome : (List.range e.wv.maskWords).flatMap (quartersAt e r ok) ≠ [] :=
    hok ▸ quarters_some (fun m => 32 * e.s.fresh.1 + m) hne fun l hl => (mem_lanesOf.mp (F.lanes ▸ hl)).1
  obtain ⟨l, ls, hls⟩ := List.exists_cons_of_ne_nil (l := quarterPasses e r ok) fun hnil => hsome (by rw [← hflat, hnil]; rfl)
  obtain ⟨coll, closed, hcol, hmem⟩ := collect_passes (coreOfWave e.wid) (quarterMember e kind t) (fun _ _ => rfl) l ls e.s.fresh.2
  rw [← hls, hflat] at hmem
  rw [if_neg (by rw [hls]; exact Bool.false_ne_true), hls, hcol, ← hls] at hop
  generalize hs1 : (e.s.fresh.2.modCore (coreOfWave e.wid) fun _ => _) = s1 at hop
  have hwave : s1.wave e.wid = some e.wv := by rw [← hs1]; exact h.wave
  rw [State.modWave_congr hwave (g := fun _ =>
    { e.wv with arrayQ := e.wv.arrayQ ++ (quarterPasses e r ok).map arrayPassOf }) rfl] at hop
  obtain ⟨s', w', hexec, hcomp, hv, hs, hk, hfl, hp⟩ := effect_done h hi hop (by rw [← hs1]; exact h.alone)
    (State.wave_modWave_of hwave) F.frag rfl rfl (fpTrap_nil _ _) rfl
  refine ⟨s', w', coll, closed, hexec, hs1 ▸ hcomp, SameRegs.of_regs hv hs hk, ?_, ?_, hmem⟩
  · simpa [fpflagsAfter, mergeFlags, noFlags] using hfl
  · simpa [Env.pendingAfter] using hp

end Operation


/-! ### The exact sum of a group (R68, R69) -/

/-- A finite value in units of 2^q. -/
def valUnits (q : Int) : Val → Int
  | .num s n _ e => sgn s n * 2 ^ (e - q).toNat
  | _ => 0

/-- The products that take part in a group: those whose scale is not zero. -/
def liveProducts (l : List Product) : List Product := l.filter fun p => !p.scale.isZero

/-- The signs of the infinite products. -/
def infSigns (l : List Product) : List Bool := ((liveProducts l).filter infFactor).map productSign

theorem liveProducts_cons (p : Product) (l : List Product) :
    liveProducts (p :: l) = if p.scale.isZero = true then liveProducts l else p :: liveProducts l := by
  unfold liveProducts
  cases h : p.scale.isZero <;> simp [h]

theorem mem_liveProducts {p : Product} {l : List Product} : p ∈ liveProducts l ↔ p ∈ l ∧ p.scale.isZero = false := by
  simp [liveProducts]

/-- R69's conditions that make a group NaN. -/
theorem badFactors_iff (p : Product) : badFactors p = true ↔ p.a.isNan = true ∨ p.b.isNan = true ∨
    (p.a.isZero = true ∧ p.b.isInf = true) ∨ (p.a.isInf = true ∧ p.b.isZero = true) := by
  simp [badFactors, or_assoc]

theorem isNan_of_isFin {v : Val} (h : v.isFin = true) : v.isNan = false := by cases v <;> simp_all [Val.isFin, Val.isNan]

theorem infSign_of_isFin {v : Val} (h : v.isFin = true) : infSign v = none := by cases v <;> simp_all [Val.isFin, infSign]

section Group
variable {l : List Product} (hfin : ∀ p ∈ l, p.scale.isFin = true)
include hfin

theorem groupSum_bad (h : ∃ p ∈ liveProducts l, badFactors p = true) : groupSum l = .nan false := by
  obtain ⟨p, hp, hbad⟩ := h
  obtain ⟨hpl, hz⟩ := mem_liveProducts.1 hp
  have hnan : (l.map Product.value).any Val.isNan = true :=
    List.any_eq_true.2 ⟨_, List.mem_map.2 ⟨p, hpl, rfl⟩, by rw [(productValue_cases p (hfin p hpl) hz).1 hbad]; rfl⟩
  simp [groupSum, hnan]

variable (hgood : ∀ p ∈ liveProducts l, badFactors p = false)
include hgood

theorem group_no_nan : (l.map Product.value).any Val.isNan = false := by
  rw [List.any_eq_false]
  intro v hv
  obtain ⟨p, hp, rfl⟩ := List.mem_map.1 hv
  cases hz : p.scale.isZero with
  | true => rw [productValue_zero hz]; exact Bool.false_ne_true
  | false =>
    obtain ⟨-, hinf, hnum⟩ := productValue_cases p (hfin p hp) hz
    have hg := hgood p (mem_liveProducts.2 ⟨hp, hz⟩)
    cases hi : infFactor p with
    | true => rw [hinf hg hi]; exact Bool.false_ne_true
    | false => rw [isNan_of_isFin (hnum hg hi)]; exact Bool.false_ne_true

theorem group_infs : (l.map Product.value).filterMap infSign = infSigns l := by
  induction l with
  | nil => rfl
  | cons p l ih =>
    have ih := ih (fun x hx => hfin x (List.mem_cons_of_mem _ hx)) fun x hx =>
      hgood x (mem_liveProducts.2 ((mem_liveProducts.1 hx).imp_left (List.mem_cons_of_mem _)))
    rw [List.map_cons, List.filterMap_cons, ih]
    unfold infSigns
    rw [liveProducts_cons]
    cases hz : p.scale.isZero with
    | true => simp [productValue_zero hz, infSign]
    | false =>
      obtain ⟨-, hinf, hnum⟩ := productValue_cases p (hfin p List.mem_cons_self) hz
      have hg := hgood p (mem_liveProducts.2 ⟨List.mem_cons_self, hz⟩)
      cases hi : infFactor p with
      | true => simp [hinf hg hi, infSign, hi]
      | false => simp [infSign_of_isFin (hnum hg hi), hi]

/-- A group without a NaN is decided by its infinities. -/
theorem groupSum_good : groupSum l = if (infSigns l).contains true && (infSigns l).contains false then .nan false
    else match infSigns l with
      | s :: _ => .inf s
      | [] => sumFin (l.map Product.value) := by
  have hsum := groupSum_of l (group_no_nan hfin hgood)
  rw [group_infs hfin hgood] at hsum
  exact hsum.trans (by cases infSigns l <;> rfl)

theorem groupSum_opposed (ht : true ∈ infSigns l) (hf : false ∈ infSigns l) : groupSum l = .nan false := by
  rw [groupSum_good hfin hgood, if_pos (by simp [ht, hf])]

theorem groupSum_infinite {x : Bool} (hx : x ∈ infSigns l) (hn : (!x) ∉ infSigns l) : groupSum l = .inf x := by
  rw [groupSum_good hfin hgood, if_neg (by cases x <;> simp_all)]
  cases hl : infSigns l with
  | nil => rw [hl] at hx; cases hx
  | cons y ys =>
    have hy : y ∈ infSigns l := by rw [hl]; exact List.mem_cons_self
    have : y = x := by cases x <;> cases y <;> simp_all
    rw [this]

omit hgood in
theorem units_of_live {q : Int} (units : Product → Int) (hlive : ∀ p ∈ liveProducts l, valUnits q p.value = units p) :
    ((l.map Product.value).map (valUnits q)).sum = ((liveProducts l).map units).sum := by
  induction l with
  | nil => rfl
  | cons p l ih =>
    have ih := ih (fun x hx => hfin x (List.mem_cons_of_mem _ hx)) fun x hx =>
      hlive x (mem_liveProducts.2 ((mem_liveProducts.1 hx).imp_left (List.mem_cons_of_mem _)))
    rw [List.map_cons, List.map_cons, List.sum_cons, ih, liveProducts_cons]
    cases hz : p.scale.isZero with
    | true => simp [productValue_zero hz, valUnits, sgn]
    | false => simp [hlive p (mem_liveProducts.2 ⟨List.mem_cons_self, hz⟩)]

/-- A group of finite products sums exactly, in any unit that none of them lies below. -/
theorem groupSum_finite (hinf : infSigns l = []) {q : Int} (hq : q ≤ 0) (units : Product → Int)
    (hnum : ∀ p ∈ liveProducts l, ∃ s n e, p.value = .num s n 1 e ∧ q ≤ e ∧ valUnits q (.num s n 1 e) = units p) :
    ∃ s n e, groupSum l = .num s n 1 e ∧ q ≤ e ∧ (n = 0 → s = false) ∧
      sgn s n * 2 ^ (e - q).toNat = ((liveProducts l).map units).sum := by
  have hall : ∀ v ∈ l.map Product.value, ∃ s n e, v = .num s n 1 e ∧ q ≤ e := by
    intro v hv
    obtain ⟨p, hp, rfl⟩ := List.mem_map.1 hv
    cases hz : p.scale.isZero with
    | true => exact ⟨false, 0, 0, productValue_zero hz, hq⟩
    | false =>
      obtain ⟨s, n, e, hv, he, -⟩ := hnum p (mem_liveProducts.2 ⟨hp, hz⟩)
      exact ⟨s, n, e, hv, he⟩
  obtain ⟨s, n, e, hsum, he, hzero, hval⟩ := sumFin_units q hq (valUnits q) (fun _ _ _ _ => rfl) _ hall
  refine ⟨s, n, e, ?_, he, hzero, hval.trans (units_of_live hfin units fun p hp => ?_)⟩
  · rw [groupSum_good hfin hgood, hinf, ← hsum]
    rfl
  · obtain ⟨s, n, e, hv, -, hu⟩ := hnum p hp
    rw [hv, hu]

end Group


/-! ### A member of a pass (R352, R358) -/

/-- A scale's code in the operand buffer. -/
def scaleCode (s : State) (p : ArrayPass) (r : ObRec) (off : Nat) : Nat := ofLE (obufBytes s p.col.bid off r.scaleBytes)

/-- The value of a scale's code. -/
def codeScale (r : ObRec) (x : Nat) : Val := if r.bf16Scale then fval .bf16 x else e8Val x

/-- The code of a scale has a value (R58, R59). -/
def ScaleStands (r : ObRec) (x : Nat) : Prop := if r.bf16Scale then (fval .bf16 x).isFin = true else x ≠ 255

theorem scaleAt_stands {p : ArrayPass} (h : p.wrote = []) (s : State) {r : ObRec} {off : Nat}
    (hs : ScaleStands r (scaleCode s p r off)) : scaleAt s p r off = some (codeScale r (scaleCode s p r off)) := by
  unfold ScaleStands scaleCode at hs
  unfold scaleAt codeScale scaleCode
  simp only [obuf_old p h]
  by_cases hb : r.bf16Scale = true
  · simp only [hb, if_true] at hs ⊢
    rw [if_pos hs]
  · simp only [hb, if_false, Bool.false_eq_true] at hs ⊢
    rw [if_neg hs]

/-- Product (k, j) of a row of a record with the pass's stand tile, as the bytes stand. -/
def standingProduct (s : State) (p : ArrayPass) (r : ObRec) (row k j : Nat) : Product :=
  { a := valOf (fmtTy r.fmt) (ofLE (obufBytes s p.col.bid (r.rowAt row + k * fmtBytes r.fmt) (fmtBytes r.fmt))),
    b := valOf (tyAt p.col.tile.fmt) (ofLE (standBytes s p.col.bid
      (p.col.tile.sb + k / 32 * 1024 * (tyBits (tyAt p.col.tile.fmt) / 8) + j * 32 * (tyBits (tyAt p.col.tile.fmt) / 8) +
        k % 32 * (tyBits (tyAt p.col.tile.fmt) / 8)) (tyBits (tyAt p.col.tile.fmt) / 8))),
    scale := if r.blk = 0 then .num false 1 1 0
      else mulNum (codeScale r (scaleCode s p r (r.aScaleAt row (k / blkLen r.blk))))
        (codeScale r (scaleCode s p r (r.bScaleAt (k / blkLen r.blk) j))) }

/-- The scales of a product have values. -/
def ProductStands (s : State) (p : ArrayPass) (r : ObRec) (row k j : Nat) : Prop :=
  r.blk ≠ 0 → ScaleStands r (scaleCode s p r (r.aScaleAt row (k / blkLen r.blk))) ∧
    ScaleStands r (scaleCode s p r (r.bScaleAt (k / blkLen r.blk) j))

theorem pairScale_stands {p : ArrayPass} (h : p.wrote = []) {s : State} {r : ObRec} {row k j : Nat}
    (hs : ProductStands s p r row k j) : pairScale s p r row k j = some (standingProduct s p r row k j).scale := by
  unfold pairScale standingProduct
  by_cases hb : r.blk = 0
  · simp only [hb, if_true]
  · obtain ⟨ha, hb'⟩ := hs hb
    simp only [hb, if_false, scaleAt_stands h s ha, scaleAt_stands h s hb']

/-- A group whose scales have values is summed exactly (R68, R69). -/
theorem groupVal_stands {p : ArrayPass} (h : p.wrote = []) {s : State} {r : ObRec} {row j g : Nat} (use : Nat)
    (hs : ∀ i, i < 32 → ProductStands s p r row (32 * g + i) j) : groupVal s p r row j g use =
      groupSum ((List.range 32).map fun i => standingProduct s p r row (32 * g + i) j) := by
  have hps : (((List.range 32).map fun i => 32 * g + i).map fun k => (pairScale s p r row k j).map fun sc =>
      ({ a := aElem s p r row k, b := bElem s p k j, scale := sc } : Product)) =
      ((List.range 32).map fun i => standingProduct s p r row (32 * g + i) j).map some := by
    rw [List.map_map, List.map_map]
    refine List.map_congr_left fun i hi => ?_
    simp only [Function.comp_apply, pairScale_stands h (hs i (List.mem_range.1 hi)), Option.map_some, aElem_old p h, bElem_old p h]
    rfl
  unfold groupVal
  simp only [hps]
  rw [if_neg (by simp [List.any_map]), List.filterMap_map]
  simp

/-- Rounding to FP32, as the accumulator steps round (R68). -/
def roundF32 (v : Val) : Nat := (roundVal fmtF32 .rne v).1

/-- One group added to an element of a row: the sum is rounded, then the addition (R68). -/
def groupStep (s : State) (p : ArrayPass) (r : ObRec) (row j acc g : Nat) : Nat :=
  roundF32 (addVal .rne (fval .f32 acc) (fval .f32 (roundF32 (groupSum
    ((List.range 32).map fun i => standingProduct s p r row (32 * (p.col.k0 / 32 + g) + i) j))))).1

/-- What a member leaves in an element of its row: each group added in order, or −inf where the mask says so. -/
theorem quarterRow_eq {s : State} {p : ArrayPass} {q : Quarter} (m : Option MaskState) {w : Wave} (hw : s.wave q.wid = some w)
    (h : p.wrote = []) {row ro j : Nat}
    (hs : ∀ g i, g < p.col.kk / 32 → i < 32 → ProductStands s p q.record ro (32 * (p.col.k0 / 32 + g) + i) j) :
    quarterRow s p m q row ro j = if m.any (fun m => m.masks (8 * q.q + row) j) then 0xFF800000
      else (List.range (p.col.kk / 32)).foldl (groupStep s p q.record ro j) (w.aget q.tile row j) := by
  have hfold : ∀ acc, (List.range (p.col.kk / 32)).foldl (fun acc g =>
      accStep acc (groupVal s p q.record ro j (p.col.k0 / 32 + g) (s.free + g))) acc =
      (List.range (p.col.kk / 32)).foldl (groupStep s p q.record ro j) acc := fun acc => by
    refine List.foldl_ext _ _ _ fun acc g hg => ?_
    rw [groupVal_stands h _ fun i hi => hs g i (List.mem_range.1 hg) hi]
    rfl
  unfold quarterRow
  simp only [hw, hfold]
  cases m <;> rfl

/-- A member rewrites the rows of its tile and nothing else of its wave. -/
theorem runQuarter_wave {s : State} {p : ArrayPass} {q : Quarter} (m : Option MaskState) {w : Wave} (hw : s.wave q.wid = some w) :
    (s.runQuarter p (q, m)).wave q.wid =
      some (q.rows.foldl (fun w x => w.rowSet q.tile x.1 fun j => quarterRow s p m q x.1 x.2 j) w) :=
  State.wave_modWave_of hw


/-! ### The obligation -/

/-- The accesses of the passes to their tiles, pass by pass. -/
theorem accesses_eq (e : Env) (r : ObRec) (ok : List (Nat × Nat)) :
    ((List.range e.wv.maskWords).filterMap fun m => match quartersAt e r ok m with
      | [] => none
      | l => some (arrayPassOf l)) = (quarterPasses e r ok).map arrayPassOf := by
  rw [quarterPasses, List.map_filterMap]
  congr 1
  funext m
  cases quartersAt e r ok m <;> rfl

/-- The three words are one operation on three kinds of member. -/
theorem exec_quarter {w : Fields} {i : Instr} {scaled : Bool}
    (h : (i, scaled) ∈ [(Instr.mmq w, false), (.mmqs w, true), (.mmqp w, false)]) (s : State) :
    ∃ kind, exec i s = onWord w s fun e => quarterOp e kind scaled := by
  simp only [List.mem_cons, List.not_mem_nil, or_false, Prod.mk.injEq] at h
  rcases h with ⟨rfl, rfl⟩ | ⟨rfl, rfl⟩ | ⟨rfl, rfl⟩
  · exact ⟨0, rfl⟩
  · exact ⟨1, rfl⟩
  · exact ⟨2, rfl⟩

/-- Settles O43: the checks in their order, the members handed over; the group sum; a member's rows. -/
theorem quarterOperations : Obligations.QuarterOperations := by
  unfold Obligations.QuarterOperations
  refine ⟨?_, ?_, ?_⟩
  · intro w s e b h hb hrecv htiles core n k0 kk ty row mask faults past badScale i scaled hi
    obtain ⟨kind, hx⟩ := exec_quarter hi s
    have hrec := record_of_block hb n
    -- a reason of the whole instruction
    have hwhole : ∀ reason, quarterReason e scaled = some reason → faults i reason 0 := fun reason hreason hl hh ht =>
      faults_obAll h hx (quarterOp_fails hrecv htiles hreason) hl hh ht
    refine ⟨fun hl => GivesNothing.of_done h hx (quarterOp_idle hrecv htiles hl), fun hnone => hwhole 1 ?_, fun r hr => ⟨fun hne => hwhole 2 ?_,
      fun hty hsc => ⟨fun hnone => hwhole 3 ?_, fun t ht => ⟨fun hpair => hwhole 3 ?_, fun hpair => ⟨fun hk => hwhole 8 ?_,
        fun h0 hkt hrow => ?_⟩⟩⟩⟩⟩
    · rw [quarterReason, hrec, hnone]
      rfl
    · rw [quarterReason, hrec, hr]
      exact wholeReason_format hne _ _ _
    · rw [quarterReason, hrec, hr, hnone]
      exact wholeReason_no_tile hty hsc
    · rw [quarterReason, hrec, hr, ht]
      exact wholeReason_pair hty hsc hpair
    · rw [quarterReason, hrec, hr, ht]
      exact wholeReason_range hty hsc hpair hk
    · have hreason : quarterReason e scaled = none := by
        rw [quarterReason, hrec, hr, ht]
        exact wholeReason_passes hty hsc hpair h0 hkt hrow
      have hrecord := hrec.trans hr
      refine ⟨fun hpast j hj hmin _ hh htv => ?_, fun hin ha => ⟨fun m hex hmin => ?_, fun hbs hne => ?_⟩⟩
      · exact quarter_traps h hx (off := fun l => r.rowAt (row l)) hj hmin
          (quarterOp_all_bad hrecv htiles hreason hrecord ht (quarterLanes_past hpast)) hh htv
      · obtain ⟨x0, hx0, c0, hc0, hbad0⟩ := hex
        have hmem : ∀ o, o ∈ (blocksOf r k0 kk).flatMap (fun x => (List.range 32).map (r.bScaleAt x)) ↔
            ∃ x ∈ blocksOf r k0 kk, ∃ c, c < 32 ∧ r.bScaleAt x c = o := by simp
        obtain ⟨o, ho, hbad, hfirst⟩ := firstScale_min (e := e) (r := r) (m := m)
          ⟨_, (hmem _).2 ⟨x0, hx0, c0, hc0, rfl⟩, (scaleReason_iff hb r _ _).2 hbad0⟩ fun o ho m' hm' => by
            obtain ⟨x, hxb, c, hc, rfl⟩ := (hmem o).1 ho
            exact hmin x hxb c hc m' ((scaleReason_iff hb r _ _).1 hm')
        obtain ⟨x, hxb, c, hc, rfl⟩ := (hmem o).1 ho
        refine ⟨x, hxb, c, hc, (scaleReason_iff hb r _ _).1 hbad, fun hl hh htv => ?_⟩
        obtain ⟨j, js, hjs⟩ := List.exists_cons_of_ne_nil hl
        exact quarter_traps h hx (j := j) (hjs ▸ List.mem_cons_self) (fun _ _ => le_rfl)
          (quarterOp_all_bad hrecv htiles hreason hrecord ht (quarterLanes_bscale hl (fun j hj => Nat.not_lt.1 (hin j hj))
            (fun x hx j hj => scaleReason_none hb (ha x hx j hj)) hfirst)) hh htv
      · have hlanes := quarterLanes_ok (e := e) (r := r) (k0 := k0) (kk := kk) (fun j hj => Nat.not_lt.1 (hin j hj))
          fun x hxb => ⟨fun j hj => scaleReason_none hb (ha x hxb j hj), fun c hc => scaleReason_none hb (hbs x hxb c hc)⟩
        obtain ⟨s', w', coll, closed, hdone⟩ := quarterOp_hands_over hrecv htiles h hx hne hreason hrecord ht hlanes
        rw [← accesses_eq] at hdone
        exact ⟨s', w', coll, closed, hdone⟩
  · intro l hfin live bad sign infs
    have hbad : (∀ p ∈ live, ¬bad p) → ∀ p ∈ liveProducts l, badFactors p = false := fun hgood p hp =>
      Bool.eq_false_iff.2 fun h => hgood p hp ((badFactors_iff p).1 h)
    refine ⟨fun ⟨p, hp, hb⟩ => groupSum_bad hfin ⟨p, hp, (badFactors_iff p).2 hb⟩, fun hgood => ⟨?_, ?_, ?_⟩⟩
    · exact groupSum_opposed hfin (hbad hgood)
    · exact fun x => groupSum_infinite hfin (hbad hgood)
    · intro hinf q hq hnum units
      refine groupSum_finite hfin (hbad hgood) hinf hq units fun p hp => ?_
      obtain ⟨sa, na, ea, sb, nb, eb, ss, ns, es, rfl, hle⟩ := hnum p hp
      exact ⟨_, _, _, productValue_num _ sa sb ss na nb ns ea eb es rfl rfl rfl (mem_liveProducts.1 hp).2, hle, rfl⟩
  · intro s p q m w hw hwrote hrows hnodup c r n ty code scale as bs hscales product rounded step
    have hstands : ∀ x ∈ q.rows, ∀ j, j < 32 → ∀ g k, g < c.kk / 32 → k < 32 →
        ProductStands s p r x.2 (32 * (c.k0 / 32 + g) + k) j := fun x hx j hj g k hg hk hblk =>
      ⟨hscales hblk x hx g k j hg hk hj _ List.mem_cons_self,
        hscales hblk x hx g k j hg hk hj _ (List.mem_cons_of_mem _ List.mem_cons_self)⟩
    obtain ⟨⟨acc, hacc⟩, hdoes⟩ := memberRows_does q.tile (fun x j => quarterRow s p m q x.1 x.2 j) q.rows w
    obtain ⟨hwritten, hrest⟩ := hdoes hrows hnodup
    refine ⟨_, runQuarter_wave m hw, by rw [hacc]; exact sameRegs_refl w, by rw [hacc], fun x hx j hj => ?_, hrest⟩
    rw [hwritten x hx j hj, quarterRow_eq m hw hwrote (hstands x hx j hj)]
    rfl

end Sys2Proof.Numbers
end

section
/-! Proofs of family 02: the events of the units (R71, R272 to R276, R354, R386, R387, R416, R456, R522). -/

open Sys2Proof Sys2Proof.Machine
namespace Sys2Proof.Numbers

/-! ### Events that can happen -/

theorem onCore_next {core : Nat} (h : core < 256) {name : String} {o : Option State} {t : State} (ho : o = some t) :
    onCore core (onEvent name o) = .next t := by
  subst ho
  exact if_pos h

theorem onEvent_next {name : String} {o : Option State} {t : State} (ho : o = some t) : onEvent name o = .next t := by
  subst ho
  rfl

/-! ### Lazy windows (R276) -/

/-- A window's copy lands in its block, and the window is present. -/
theorem lazyCopy_completes {bid win : Nat} {s : State} {b : Block} {v : LazyWin} {l : List (CopyDst × Byte)} (hcore : bid / 8 < 256)
    (hb : s.block bid = some b) (hv : Tbl.find b.lazyWins win = some v) (hl : v.inflight = some l) :
    ∃ t b', exec (.lazyCopyComplete bid win) s = .next t ∧ t.block bid = some b' ∧
      b'.scratch = (b.putCopy l).scratch ∧ Tbl.find b'.lazyWins win = some { v with present := true, inflight := none } ∧
      t.waves = s.waves := by
  let put (b : Block) : Block :=
    { b.putCopy l with lazyWins := Tbl.upd b.lazyWins win fun v => { v with present := true, inflight := none } }
  have hfin : s.finishLazy bid win = some ((s.bothSides bid).foldl (fun s k => s.modBlock k put) s) := by
    unfold State.finishLazy
    simp only [hb, Option.bind_some, hv, hl, Option.map_some]
    rfl
  refine ⟨_, put b, onCore_next hcore hfin, block_bothSides s s bid put hb, rfl, ?_, bothSides_waves s s bid put⟩
  show Tbl.find (Tbl.upd b.lazyWins win _) win = _
  rw [Tbl.find_upd_same, hv]
  rfl

/-! ### Matrix collectors and passes (R354, R355) -/

theorem collector_closes {core : Nat} {s : State} (hcore : core < 256) {x : Collector} (hx : (s.core core).coll = some x)
    (hfull : x.members.length = 4 ∨ x.opened + 3 ≤ (s.core core).cyc) :
    exec (.mmqCollectorClose core) s = .next (s.modCore core fun k => { k with coll := none, closed := k.closed ++ [x] }) := by
  refine onCore_next hcore ?_
  have hclose : (s.core core).closeColl = some { s.core core with coll := none, closed := (s.core core).closed ++ [x] } := by
    unfold Core.closeColl
    simp only [hx, if_pos hfull]
  rw [hclose]
  rfl

theorem pass_starts {core : Nat} {s : State} (hcore : core < 256) {x : Collector} {rest : List Collector}
    (hx : (s.core core).closed = x :: rest) (hfree : (s.core core).arrayFree ≤ (s.core core).cyc + 1) :
    let end_ := (s.core core).cyc + 1 + x.kk / 32 * groupCycles (tyAt x.atype)
    exec (.matrixPassStart core) s = .next (s.modCore core fun k => { k with
      closed := rest, passes := k.passes ++ [{ col := x, until_ := end_, lands := end_ + 11, wrote := [] }], arrayFree := end_ }) := by
  refine onCore_next hcore ?_
  unfold State.startPass
  simp only [hx, if_neg (Nat.not_lt.2 hfree)]

/-! ### Key-value requests of one lane (R452, R456) -/

theorem liveSeq_owned {s : State} {ctx sid : Nat} {q : Seq} (hq : Tbl.find s.seqs sid = some q) (ho : q.owner = ctx) :
    s.liveSeq ctx sid = some q := by
  unfold State.liveSeq
  simp [hq, ho]

/-- KVT of one lane gives the address of a position that its sequence holds, and clears the lane's bit. -/
theorem kvt_one {s : State} {r : EngReq} {l sid pos d k : Nat} {q : Seq} {w : Wave} (hop : r.op = .kvt [(l, sid, pos)] d k)
    (hq : Tbl.find s.seqs sid = some q) (ho : q.owner = r.ctx) (hpos : pos < q.len) (hw : s.wave r.wid = some w) :
    s.perform r = .lands s (putAt d .b64 l (s.slotAddr (seqPool sid) (q.pages.getD (pos / 64) 0) (pos % 64)) ++
      [.k k (Tbl.get w.k k 0 &&& ~~~maskOf [l])]) none := by
  unfold State.perform
  simp only [hop]
  unfold kvPerf
  simp only [hop]
  unfold kvtPerf
  simp [liveSeq_owned hq ho, hpos, hw, reasonTrap, maskOf]

/-- KVC of one lane gives the new sequence. -/
theorem kvc_clones {s t : State} {r : EngReq} {l sid d id : Nat} {q : Seq} (hop : r.op = .kvc [(l, sid)] d) (hg : r.got = []) (hb : r.bad = [])
    (hq : Tbl.find s.seqs sid = some q) (ho : q.owner = r.ctx) (hc : s.cloneSeq sid q = some (id, t)) :
    s.perform r = .lands t (putAt d .n32 l id) none := by
  unfold State.perform
  simp only [hop]
  unfold kvPerf
  simp [hop, kvRun, kvcLane, liveSeq_owned hq ho, hc, hg, hb, reasonTrap]

/-- KVC of one lane without room gives all ones. -/
theorem kvc_full {s : State} {r : EngReq} {l sid d : Nat} {q : Seq} (hop : r.op = .kvc [(l, sid)] d) (hg : r.got = []) (hb : r.bad = [])
    (hq : Tbl.find s.seqs sid = some q) (ho : q.owner = r.ctx) (hc : s.cloneSeq sid q = none) :
    s.perform r = .lands s (putAt d .n32 l 0xFFFFFFFF) none := by
  unfold State.perform
  simp only [hop]
  unfold kvPerf
  simp [hop, kvRun, kvcLane, liveSeq_owned hq ho, hc, hg, hb, reasonTrap]

/-- KVF of one lane frees the sequence. -/
theorem kvf_frees {s : State} {r : EngReq} {l sid : Nat} {q : Seq} (hop : r.op = .kvf [(l, sid)]) (hg : r.got = []) (hb : r.bad = [])
    (hq : Tbl.find s.seqs sid = some q) (ho : q.owner = r.ctx) :
    s.perform r = .lands (s.freeSeq sid q) [] none := by
  unfold State.perform
  simp only [hop]
  unfold kvPerf
  simp [hop, kvRun, kvfLane, liveSeq_owned hq ho, hg, hb, reasonTrap]

/-! ### Regions (R416) -/

theorem regionPhase_completes {rid : Nat} {s : State} (h : (s.region rid).completes = true) :
    exec (.regionPhaseComplete rid) s = .next (s.completePhase rid) := onEvent_next (if_pos h)

/-! ### TWIN (R280, R281) -/

section Compare
variable {wid sid : Nat} {s : State} {w x : Wave} {b : Block}

/-- A compare point at which both sides of an idle block wait: the sides agree, or they do not. -/
theorem compareNow_bothWait (hw : s.wave wid = some w) (hb : s.block (w.bid wid) = some b) (hs : s.twinWid wid w = some sid)
    (hx : s.wave sid = some x) (htw : s.twinned w = true) (hsh : w.shadow = false) (hf : w.frozen = none)
    (hck : s.ckptReady (w.bid wid) b = false) (hst : strays w x = false) (hdue : b.twin.due = none ∨ w.holdsAny = true)
    (hboth : bothWait w x = true) :
    s.compareNow wid = if w.twin.sig = x.twin.sig then some (s.release wid sid w)
      else if s.blockIdle (w.bid wid) then some (s.mismatch wid (w.bid wid)) else none := by
  have hgo : (b.twin.due.isSome && !w.holdsAny) = false := by
    rcases hdue with h | h <;> simp [h]
  unfold State.compareNow
  simp only [hw, hb, hs, hx, htw, hsh, hf, hck, hst, hgo, hboth]
  rfl

end Compare

/-! ### DET groups (R522) -/

/-- The oldest closed group of the block with the ticket is applied, where nothing holds its lines. -/
theorem detGroup_applies {lid : Nat} {s : State} {l : Launch} {g : DetGroup} {rest : List DetGroup} (hl : s.launch lid = some l)
    (hg : (s.detBlock lid l.ticket).closed = g :: rest) (hk : l.killReq = none) (hgr : s.grantOnLines noWave g.locs = none)
    (ho : ∀ x ∈ g.locs, s.openTo (some lid) x = false)
    (hr : s.replayRoom lid (g.locs.filterMap fun x => match x with | .dev pa => some pa | _ => none) = true) :
    let d := s.detBlock lid l.ticket
    let applied := ({ s with det := Tbl.put s.det (detKey lid l.ticket) { d with closed := rest } }).applyGroup lid l.ticket l g
    exec (.detGroupApply lid) s = .next ((if rest.isEmpty then applied.passTicket lid l.ticket else applied).moveTicket lid) := by
  refine onEvent_next ?_
  have hopen : (g.locs.any fun x => s.openTo (some lid) x) = false := by
    rw [List.any_eq_false]
    exact fun x hx => Bool.eq_false_iff.1 (ho x hx)
  unfold State.applyNext
  simp only [hl, hg, hk, hgr, hopen]
  erw [hr]
  rfl

/-! ### Swaths (R386 to R389) -/

theorem swath_putSwath (s : State) (lid sid : Nat) (x : Swath) : (s.putSwath lid sid x).swath lid sid = x := by
  show (Tbl.find (Tbl.put s.swaths (swathKey lid sid) x) (swathKey lid sid)).getD Swath.fresh = x
  rw [Tbl.find_put_same]
  rfl

theorem swath_of_swaths {s t : State} (h : t.swaths = s.swaths) (lid sid : Nat) : t.swath lid sid = s.swath lid sid :=
  congrArg (Tbl.get · (swathKey lid sid) Swath.fresh) h

theorem modWaveBack_other (s : State) (wid : Nat) (p : Wave → Bool) (f : Wave → Wave) {k : Nat} (hk : k ≠ wid) :
    (s.modWaveBack wid p f).wave k = s.wave k := by
  unfold State.modWaveBack
  split
  · rfl
  · show (s.modWave wid f).wave k = _
    rw [State.wave_modWave, if_neg hk]

/-- The contribution of a send. -/
def sentBy (wid : Nat) (w : Wave) (x : SwathSend) : Contribution :=
  { cid := coreOfWave wid, blocklin := w.blocklin, waveIdx := w.waveIdx, rows := x.rows }

/-- A swath with one more contribution. -/
def withSend (sw : Swath) (wid : Nat) (w : Wave) (x : SwathSend) : Swath :=
  { sw with latch := sw.latch.orElse fun _ => some x.handle, contribs := sw.contribs ++ [sentBy wid w x] }

/-- A wave whose send has been accepted. -/
def sendDone (id : Nat) (x : SwathSend) (w : Wave) : Wave :=
  { w.clearTok x.tok with sends := w.sends.filter fun y => y.id != id }

/-- An open round with room accepts a contribution. -/
theorem acceptSend_accepts {id wid : Nat} {s : State} {w : Wave} {x : SwathSend} (hat : s.sendAt id = some (wid, w, x))
    (htw : s.twinWid wid w = none) (hround : x.round = (s.swath w.lid x.handle.sid).round)
    (hres : (s.swath w.lid x.handle.sid).result = none) (hpeer : (s.swath w.lid x.handle.sid).awaitPeer = none)
    (hpart : (s.swath w.lid x.handle.sid).contribs.length < x.handle.npart)
    (hroom : s.hubRows (coreOfWave wid / 8) + x.rows.length ≤ 4096) (hq : ∀ o ∈ w.arrayQ, o.fills id = false) :
    s.acceptSend id = some ((s.putSwath w.lid x.handle.sid (withSend (s.swath w.lid x.handle.sid) wid w x)).modWaveBack wid
      (fun w => w.sends.any fun y => y.id == id) (sendDone id x)) := by
  have hfill : w.arrayQ.any (ArrayOp.fills id) = false := by
    rw [List.any_eq_false]
    exact fun o ho => Bool.eq_false_iff.1 (hq o ho)
  unfold State.acceptSend
  simp only [hat]
  rw [if_neg (by simp [hround, hres, hpeer, Nat.not_le.2 hpart, Nat.not_lt.2 hroom, hfill, htw])]
  have hnone : ((s.putSwath w.lid x.handle.sid (withSend (s.swath w.lid x.handle.sid) wid w x)).modWaveBack wid
      (fun w => w.sends.any fun y => y.id == id) (sendDone id x)).twinWid wid w = none :=
    twinWid_other (fun k hk => modWaveBack_other _ _ _ _ hk) htw
  split
  · next k hk => cases hk.symm.trans hnone
  · rfl

/-- A fold over no, or over some participants. -/
theorem foldList_eq (l : List W32) : foldList l = l.head?.map fun x => l.tail.foldl foldAdd x := by
  cases l <;> rfl

theorem foldList_fun : foldList = fun l => l.head?.map fun x => l.tail.foldl foldAdd x := funext foldList_eq

/-- A swath's rows: one for each row that some contribution sends, ascending, of 32 elements. -/
theorem swathResult_rows (det : Bool) (l : List Contribution) :
    (swathResult det l).Pairwise (fun x y => x.lane < y.lane) ∧
    (∀ i, (∃ r ∈ swathResult det l, r.lane = i) ↔ ∃ c ∈ l, ∃ r ∈ c.rows, r.lane = i) ∧
    ∀ r ∈ swathResult det l, r.elems = (List.range 32).map fun j => (swathElem det (inBlockOrder l) r.lane j).getD 0 := by
  obtain ⟨hsorted, hmem⟩ := sortNats_does ((inBlockOrder l).flatMap fun c => c.rows.map (·.lane))
  refine ⟨List.pairwise_map.2 hsorted, fun i => ?_, fun r hr => ?_⟩
  · calc (∃ r ∈ swathResult det l, r.lane = i)
        ↔ i ∈ swathLanes (inBlockOrder l) := by simp [swathResult]
      _ ↔ ∃ c ∈ inBlockOrder l, ∃ r ∈ c.rows, r.lane = i := by simp [swathLanes, hmem]
      _ ↔ ∃ c ∈ l, ∃ r ∈ c.rows, r.lane = i := by simp [(inBlockOrder_sorts l).1.mem_iff]
  · obtain ⟨i, -, rfl⟩ := List.mem_map.1 hr
    rfl

/-- A round without a peer that has its contributions forms its result. -/
theorem swathStep_forms {lid sid : Nat} {s : State} {h : SwathHandle} (hl : (s.swath lid sid).latch = some h)
    (hr : (s.swath lid sid).result = none) (hp : (s.swath lid sid).awaitPeer = none) (hn : (s.swath lid sid).contribs.length = h.npart)
    (hb : bit h.peer 7 = false) :
    s.swathStep lid sid = some (s.putSwath lid sid { s.swath lid sid with
      contribs := [], result := some (swathResult (s.isDet lid) (s.swath lid sid).contribs) }) := by
  unfold State.swathStep State.formResult
  simp only [hl, hr, hp, hn, hb]
  simp

theorem formResult_formed {lid sid : Nat} {s : State} {rows : List SwathRow} (hr : (s.swath lid sid).result = some rows) :
    s.formResult lid sid = none := by
  unfold State.formResult
  cases hl : (s.swath lid sid).latch with
  | none => simp only [hl]
  | some h => simp [hl, hr]

/-- A reception that has taken a result. -/
def received (x : SwathRecv) (rows : List SwathRow) (w : Wave) : Wave :=
  { (w.receive x rows).clearTok x.tok with recvs := w.recvs.filter fun y => y.tok != x.tok }

theorem received_sameRegs (x : SwathRecv) (rows : List SwathRow) (w : Wave) : SameRegs w (received x rows w) := by
  obtain ⟨⟨acc, hacc⟩, -⟩ := receive_does x rows w
  refine SameRegs.of_regs ?_ ?_ ?_ <;> (unfold received; rw [hacc]; rfl)

/-- A result goes to a wave without a twin. -/
theorem deliver_alone {wid : Nat} {s : State} {x : SwathRecv} {rows : List SwathRow} {w : Wave} (hw : s.wave wid = some w)
    (htw : s.twinWid wid w = none) :
    s.deliver wid x rows = s.modWaveBack wid (fun w => w.awaits x) (received x rows) := by
  unfold State.deliver
  simp only [hw]
  exact match_none_eq (twinWid_other (fun k hk => modWaveBack_other _ _ _ _ hk) htw)

/-- A swath one of whose receptions has taken the result: the round ends with the last (R386). -/
def takenOnce (sw : Swath) : Swath :=
  if sw.latch.any (fun h => decide (h.nrecv ≤ sw.taken + 1))
    then { Swath.fresh with round := sw.round + 1, fromPeer := sw.fromPeer } else { sw with taken := sw.taken + 1 }

/-- The only taker of a result takes it. -/
theorem swathStep_gives {lid sid wid : Nat} {s : State} {rows : List SwathRow} {x : SwathRecv} {w : Wave}
    (hr : (s.swath lid sid).result = some rows) (ht : s.takers lid sid = [(wid, x)]) (hw : s.wave wid = some w)
    (htw : s.twinWid wid w = none) :
    s.swathStep lid sid = some ((s.modWaveBack wid (fun w => w.awaits x) (received x rows)).putSwath lid sid
      (takenOnce (s.swath lid sid))) := by
  unfold State.swathStep
  rw [formResult_formed hr]
  unfold State.giveResult
  simp only [hr, ht, List.foldl_cons, List.foldl_nil, deliver_alone hw htw]
  cases hl : (s.swath lid sid).latch <;> simp [takenOnce, hl, hr]

/-- A peer's result that comes while the swath waits for none is kept. -/
theorem peerResult_kept {lid sid : Nat} {rows : List SwathRow} {s : State} (hl : (s.launch lid).isSome = true) (hs : sid < 256)
    (hp : (s.swath lid sid).awaitPeer = none) :
    s.peerResult lid sid rows = some (s.putSwath lid sid { s.swath lid sid with fromPeer := (s.swath lid sid).fromPeer ++ [rows] }) := by
  unfold State.peerResult
  simp only [hp]
  rw [if_neg (by simp [Option.isNone_iff_eq_none, Option.isSome_iff_ne_none.1 hl, hs])]

/-! ### What a copy's bytes leave of the copies that an engine holds -/

theorem modWaves_cores (f : Wave → Wave) (l : List Nat) (s : State) : (l.foldl (fun s k => s.modWave k f) s).cores = s.cores := by
  apply keep_foldl State.cores
  intro _ _; rfl

/-- Without its own copy, a copy's engine holds the others as before. -/
theorem dropCopy_copies (s : State) (core : Nat) (c : Copy) (held : Option HeldFault) :
    ((s.dropCopy core c held).core core).copies = (s.core core).copies.filter fun x => x.id != c.id := by
  unfold State.dropCopy
  simp only
  rw [State.core, modWaves_cores, ← State.core, State.core_modCore, if_pos rfl]

/-! ### Copies that give way to later ones (R315) -/

/-- The places that a copy has written, with the bytes. -/
def laidBy (v : State) (d : Copy) : List (CopyPlace × Byte) := d.writes.filterMap fun p => (v.copyPlace d p.1).map fun x => (x, p.2)

/-- A copy issued before one that has written its bytes takes those bytes where it would write the same places. -/
theorem overtake_older {v : State} {core : Nat} {d x : Copy} (hx : x ∈ (v.core core).copies.takeWhile fun x => x.id != d.id) :
    laterWins v (laidBy v d) x ∈ ((v.overtake core d d.writes).core core).copies := by
  have hne : ((v.core core).copies.takeWhile fun x => x.id != d.id).isEmpty = false := by
    rw [List.isEmpty_eq_false_iff]
    exact List.ne_nil_of_mem hx
  unfold State.overtake
  simp only [hne, Bool.false_eq_true, if_false, State.core_modCore, if_true]
  refine List.mem_map.2 ⟨x, (List.takeWhile_sublist _).subset hx, if_pos ?_⟩
  exact List.any_eq_true.2 ⟨x, hx, beq_self_eq_true _⟩

/-! ### A copy that stops, faults or completes (R272, R275, R433, R525) -/

theorem copyStop_shut {s : State} {core : Nat} {c : Copy} {ls : List Loc} (h : ∃ l ∈ ls, s.openTo (some c.lid) l = true) :
    s.copyStop core c ls = some (s.intrude c.wid) := if_pos (List.any_eq_true.2 h)

theorem any_open_false {s : State} {c : Copy} {ls : List Loc} (h : ¬∃ l ∈ ls, s.openTo (some c.lid) l = true) :
    ¬(ls.any fun l => s.openTo (some c.lid) l) = true := fun ha => h (List.any_eq_true.1 ha)

theorem copyStop_foul {s : State} {core : Nat} {c : Copy} {ls : List Loc} (h : ¬∃ l ∈ ls, s.openTo (some c.lid) l = true)
    (hp : ∃ l ∈ ls, s.poisoned l = true) : s.copyStop core c ls = some ((s.uncorrectable c.wid).dropCopy core c none) :=
  (if_neg (any_open_false h)).trans (if_pos (List.any_eq_true.2 hp))

theorem copyStop_none {s : State} {core : Nat} {c : Copy} {ls : List Loc} (h : ¬∃ l ∈ ls, s.openTo (some c.lid) l = true)
    (hp : ¬∃ l ∈ ls, s.poisoned l = true) : s.copyStop core c ls = none :=
  (if_neg (any_open_false h)).trans (if_neg fun ha => hp (List.any_eq_true.1 ha))

theorem copyStop_isSome (s : State) (core : Nat) (c : Copy) (ls : List Loc) :
    (s.copyStop core c ls).isSome = ls.any fun l => s.openTo (some c.lid) l || s.poisoned l := by
  have hor : (ls.any fun l => s.openTo (some c.lid) l || s.poisoned l) =
      ((ls.any fun l => s.openTo (some c.lid) l) || ls.any s.poisoned) := by
    rw [Bool.eq_iff_iff]
    simp only [Bool.or_eq_true, List.any_eq_true]
    exact ⟨fun ⟨l, hl, h⟩ => h.imp (⟨l, hl, ·⟩) (⟨l, hl, ·⟩),
      fun h => h.elim (fun ⟨l, hl, h⟩ => ⟨l, hl, .inl h⟩) fun ⟨l, hl, h⟩ => ⟨l, hl, .inr h⟩⟩
  rw [hor]
  unfold State.copyStop
  cases ls.any fun l => s.openTo (some c.lid) l
  · cases ls.any s.poisoned <;> rfl
  · rfl

section Copies
variable {core id : Nat} {s : State} {c : Copy} {w : Wave} (hc : s.copyAt core id = some c) (hw : s.wave c.wid = some w)
include hc hw

/-- A copy that may not read its places stops. -/
theorem finishCopy_stops (hf : w.frozen ≠ some .intrusion) {t : State}
    (h : (s.meetHome (s.todoLocs w.ctx c)).copyStop core c (s.todoLocs w.ctx c) = some t) : s.finishCopy core id = some t := by
  have hf' : (w.frozen == some .intrusion) = false := by simpa using hf
  unfold State.finishCopy
  simp only [hc, hw, hf', h]
  rfl

/-- A copy whose pieces have been read and may be written: its bytes are written, the copies before it give way, and it ends. -/
theorem finishCopy_ends (hf : w.frozen ≠ some .intrusion)
    (hgo : (s.meetHome (s.todoLocs w.ctx c)).copyStop core c (s.todoLocs w.ctx c) = none)
    (hroom : (s.meetHome (s.todoLocs w.ctx c)).recallRoom (s.todoLocs w.ctx c) = true) {a : State} {d : Copy}
    (hr : (s.meetHome (s.todoLocs w.ctx c)).readTodo w.ctx c = (a, d)) (hbad : d.bad = none) (htodo : d.todo = [])
    (hgood : (a.modCopy core id fun _ => d).copyBad w.ctx d = none) (hpeer : (a.modCopy core id fun _ => d).sendCopyPieces core w.ctx d = none)
    (hack : d.unacked = 0)
    (hgr : (a.modCopy core id fun _ => d).grantOnLines d.wid (((a.modCopy core id fun _ => d).copyLocs w.ctx d.writes).map (·.1)) = none)
    (ho : ∀ l ∈ (a.modCopy core id fun _ => d).copyLocs w.ctx d.writes, (a.modCopy core id fun _ => d).openTo (some d.lid) l.1 = false)
    (hre : (a.modCopy core id fun _ => d).replayRoom d.lid
      ((devBytes ((a.modCopy core id fun _ => d).copyLocs w.ctx d.writes)).map (·.1)) = true) :
    s.finishCopy core id = some ((((((a.modCopy core id fun _ => d).writeCopy d w d.writes).countBox w.ctx d.extra).overtake core d
      d.writes).dropCopy core d none)) := by
  have hf' : (w.frozen == some .intrusion) = false := by simpa using hf
  have hopen : ((((a.modCopy core id fun _ => d).copyLocs w.ctx d.writes).map (·.1)).any
      fun l => (a.modCopy core id fun _ => d).openTo (some d.lid) l) = false := by
    simpa [List.any_eq_false] using ho
  unfold State.finishCopy
  simp only [hc, hw, hf', hgo, hroom, hr, hbad, htodo, hgood, hpeer, hack, hgr, hopen, hre]
  rfl

/-- The first fault of a copy's pieces is held, and the hart is asked. -/
theorem faultPiece_posts {a : State} {d : Copy} (hr : (if ((s.todoLocs w.ctx c).any fun l => s.openTo (some c.lid) l || s.poisoned l) ||
        !s.recallRoom (s.todoLocs w.ctx c) then (s, c) else s.readTodo w.ctx c) = (a, d)) (hbad : d.bad = none)
    {cause va : Nat} {wr : Bool} (hcb : a.copyBad w.ctx d = some (cause, va, wr)) :
    s.faultPiece core id = some ((a.modCopy core id fun _ => { d with
        bad := some ({ cause := cause, info := BitVec.ofNat 64 (ofBool wr), addr := BitVec.ofNat 64 va }, true) }).postFault (core / 64)
      { ctx := w.ctx, va := va, need := if wr then .write else .read, who := [.copy core id] }) := by
  have hctx : s.copyCtx c = w.ctx := by unfold State.copyCtx; simp only [hw]
  unfold State.faultPiece
  simp only [hc, hctx, copyStop_isSome, hr, hbad, hcb]
  rfl

end Copies

/-- What a copy that has been written leaves: no copy, its token clear, its bytes in its block, and the copies issued before it
without the bytes that it has written. -/
theorem copy_done {u : State} {core : Nat} {d : Copy} {w : Wave} (hw : u.wave d.wid = some w) (htw : u.twinned w = false) :
    let v := (u.writeCopy d w d.writes).countBox w.ctx d.extra
    let t := (v.overtake core d d.writes).dropCopy core d none
    t.copyAt core d.id = none ∧ t.wave d.wid = some (w.clearTok d.tok) ∧
    (∀ b, u.block (w.bid d.wid) = some b → t.block (w.bid d.wid) = some (b.putCopy d.writes)) ∧
    ∀ x ∈ (v.core core).copies.takeWhile fun x => x.id != d.id, laterWins v (laidBy v d) x ∈ (t.core core).copies := by
  intro v t
  obtain ⟨hwrite, hlaunch, hblock⟩ := writeCopy_does u d w d.writes
  obtain ⟨hbox, hboxLaunch, hboxBlock⟩ := countBox_does (u.writeCopy d w d.writes) w.ctx d.extra
  obtain ⟨hover, hoverLaunch, hoverBlock⟩ := overtake_does v core d d.writes
  have hwaves : (v.overtake core d d.writes).waves = u.waves := hover.trans (hbox.trans hwrite)
  have hlaunches : (v.overtake core d d.writes).launches = u.launches := hoverLaunch.trans (hboxLaunch.trans hlaunch)
  have hblocks : (v.overtake core d d.writes).blocks = (u.writeCopy d w d.writes).blocks := hoverBlock.trans hboxBlock
  refine ⟨dropCopy_copyAt _ _ _ _, dropCopy_wave ?_ ?_, fun b hb => ?_, fun x hx => ?_⟩
  · exact (congrArg (Tbl.find · d.wid) hwaves).trans hw
  · rw [← htw]
    exact HomeOnly.of_launches hlaunches w
  · exact (dropCopy_block _ _ _ _ _).trans ((congrArg (Tbl.find · (w.bid d.wid)) hblocks).trans (hblock b hb))
  · have hid : (x.id != d.id) = true := List.mem_takeWhile_imp (p := fun x : Copy => x.id != d.id) hx
    rw [dropCopy_copies]
    exact List.mem_filter.2 ⟨overtake_older hx, hid⟩

/-- A copy whose held pieces have been read is the same copy of the same wave. -/
theorem readTodo_does {core id : Nat} {s a : State} {c d : Copy} {w : Wave} (hc : s.copyAt core id = some c)
    (hr : (s.meetHome (s.todoLocs w.ctx c)).readTodo w.ctx c = (a, d)) :
    (d.id = id ∧ d.wid = c.wid ∧ d.lid = c.lid ∧ d.tok = c.tok) ∧ HomeOnly s a := by
  obtain ⟨hhome, hsame⟩ := readTodo_home (s.meetHome (s.todoLocs w.ctx c)) w.ctx c
  rw [hr] at hhome hsame
  have hid : d.id = id := (congrArg Copy.id hsame).trans (copyAt_id hc)
  have hwid : d.wid = c.wid := (congrArg Copy.wid hsame).trans rfl
  have hlid : d.lid = c.lid := (congrArg Copy.lid hsame).trans rfl
  have htok : d.tok = c.tok := (congrArg Copy.tok hsame).trans rfl
  exact ⟨⟨hid, hwid, hlid, htok⟩, (meetHome_cores s _).1.home.trans hhome⟩

theorem clearTok_sameRegs (w : Wave) (t : Nat) : SameRegs w (w.clearTok t) := SameRegs.of_regs rfl rfl rfl

/-- Settles O60: each unit's step is enabled by its hypotheses and does what its own lemma above says; a copy's bytes, its token and
the copies before it are followed through the writes (`copy_done`), a swath's fold through the order of its contributions
(`inBlockOrder_sorts`). -/
theorem unitEvents : Obligations.UnitEvents := by
  unfold Obligations.UnitEvents
  refine ⟨fun core id s c w hcore hc hw => ⟨fun hf => ⟨fun hshut => ?_, fun hshut hfoul => ?_, ?_⟩, ?_⟩, ?_,
    fun core s hcore => ⟨fun x hx hfull => ?_, fun x rest hx hfree => ?_⟩,
    fun r s hr ht => ⟨fun t ws trap hp => request_lands hr ht hp, ?_, ?_, ?_⟩, ?_, ?_, ?_, ?_, ?_, ?_, ?_, ?_⟩
  · exact onCore_next hcore (finishCopy_stops hc hw hf (copyStop_shut hshut))
  · exact onCore_next hcore (finishCopy_stops hc hw hf (copyStop_foul hshut hfoul))
  · intro hshut hfoul hroom a d hr u locs hbad htodo hgood hpeer hack htw hgr ho hre v laid
    obtain ⟨⟨hid, hwid, hlid, htok⟩, hhome⟩ := readTodo_does hc hr
    have hend := finishCopy_ends hc hw hf (copyStop_none hshut hfoul) hroom hr hbad htodo hgood hpeer hack
      (by rw [hwid]; exact hgr) (by rw [hlid]; exact ho) (by rw [hlid]; exact hre)
    have hwu : u.wave d.wid = some w := by rw [hwid]; exact (hhome.wave c.wid).trans hw
    obtain ⟨hgone, hwave, hblock, holder⟩ := copy_done hwu ((hhome.twinned w).trans htw)
    rw [hid] at hgone holder
    rw [hwid] at hwave hblock
    rw [htok] at hwave
    refine ⟨_, _, onCore_next hcore hend, hgone, hwave, clearTok_clear w c.tok, clearTok_sameRegs w c.tok, fun b hb => ?_, fun x hx => ?_⟩
    · have hbu : u.block (w.bid c.wid) = some b := by
        obtain ⟨_, _, _, _, _, _, _, _, rfl⟩ := hhome
        exact hb
      exact ⟨_, hblock b hbu, rfl, rfl, rfl⟩
    · exact ⟨_, holder x hx, rfl, rfl⟩
  · intro a d hr hbad cause va wr hcb
    exact onCore_next hcore (faultPiece_posts hc hw hr hbad hcb)
  · intro bid win s b v l hcore hb hv hl _
    exact lazyCopy_completes hcore hb hv hl
  · exact collector_closes hcore hx hfull
  · exact pass_starts hcore hx hfree
  · intro l sid pos d k q hop hq ho hpos w hw
    exact request_lands hr ht (kvt_one hop hq ho hpos hw)
  · intro l sid d q hop hg hb hq ho
    exact ⟨fun id t hclone => request_lands hr ht (kvc_clones hop hg hb hq ho hclone),
      fun hclone => request_lands hr ht (kvc_full hop hg hb hq ho hclone)⟩
  · intro l sid q hop hg hb hq ho
    exact request_lands hr ht (kvf_frees hop hg hb hq ho)
  · intro id s wid w x hat _ htw sw hround hres hpeer hpart hroom hw hq
    obtain ⟨hwave, hswaths⟩ := modWaveBack_wave (s := s.putSwath w.lid x.handle.sid (withSend sw wid w x))
      (fun w => w.sends.any fun y => y.id == id) (sendDone id x) hw
    exact ⟨_, _, onEvent_next (acceptSend_accepts hat htw hround hres hpeer hpart hroom hq),
      (swath_of_swaths hswaths _ _).trans (swath_putSwath _ _ _ _), hwave, clearTok_clear w x.tok, clearTok_sameRegs w x.tok⟩
  · intro lid sid s h sw hl hr hp hn hb
    exact onEvent_next (swathStep_forms hl hr hp hn hb)
  · intro det l add fold
    have hfold : fold = foldList := foldList_fun.symm
    obtain ⟨hperm, hsorted⟩ := inBlockOrder_sorts l
    obtain ⟨hlanes, hrows, helems⟩ := swathResult_rows det l
    refine ⟨inBlockOrder l, hperm, hsorted, hlanes, hrows, fun r hr => ?_⟩
    rw [helems r hr, hfold]
    refine ⟨by simp, fun j hj => ?_⟩
    rw [List.getD_eq_getElem _ _ (by simpa using hj), List.getElem_map, List.getElem_range]
    rfl
  · intro lid sid s rows wid x w sw hr ht hw htw
    obtain ⟨hwave, hswaths⟩ := modWaveBack_wave (fun w => w.awaits x) (received x rows) hw
    obtain ⟨-, htakes⟩ := receive_does x rows w
    exact ⟨_, _, onEvent_next (swathStep_gives hr ht hw htw), hwave, clearTok_clear _ x.tok, received_sameRegs x rows w, rfl, htakes,
      swath_putSwath _ _ _ _⟩
  · intro lid sid rows s hl hs hp
    exact onEvent_next (peerResult_kept hl hs hp)
  · intro wid s w b sid x hcore hw hb hs hx htw hsh hf hck hst hdue hboth
    have hnow := compareNow_bothWait hw hb hs hx htw hsh hf hck hst hdue hboth
    refine ⟨fun hsig => onCore_next hcore (hnow.trans (if_pos hsig)), fun hsig hidle => onCore_next hcore (hnow.trans ?_)⟩
    rw [if_neg hsig, if_pos hidle]
  · intro rid s h
    exact ⟨_, regionPhase_completes h, completePhase_region s rid, fun k hk => completePhase_other s hk⟩
  · intro lid s l g rest hl hg hk hgr ho hr
    exact detGroup_applies hl hg hk hgr ho hr

end Sys2Proof.Numbers
end

section
/-! Proofs of family 03: decoding and encoding (R77, R81 to R84, R95, R106). -/

open Sys2Proof Sys2Proof.Machine
namespace Sys2Proof.Encodings

/-- What has code words is a pair or has an opcode. -/
theorem pair_or_opcode {i : Instr} (h : encode i ≠ []) :
    (∃ a b, i = .pairWord a b) ∨ ∃ op w, opcodeOf i = some (op, w) := by
  unfold encode at h
  split at h
  next a b => exact .inl ⟨a, b, rfl⟩
  next =>
    split at h
    next op w ho => exact .inr ⟨op, w, ho⟩
    next => exact absurd rfl h

/-- A word of S or E form, with its extension word, decodes as its opcode, function field and operands say. -/
theorem decode_pack {op : Nat} {w : Fields} {i : Instr} (hi : instrOf op w = some i) (hok : wordOk Allot.top i w = true)
    (rest : List W64) : decode (pack op w :: w.ext.toList ++ rest) = .ok (i, rest) := by
  have hword := decodeWord_pack hi hok
  have hform := formOf_pack op w
  cases hx : w.ext <;> rw [hx] at hword hform <;> simp [decode, hform, hword, Except.map]

/-- A P-form word decodes to its two halves. -/
theorem decode_pair {a b : Half} (h : Sys2Proof.pairOk Allot.top a b = true) (rest : List W64) :
    decode ((1#2 ++ packHalf a ++ packHalf b) :: rest) = .ok (.pairWord a b, rest) := by
  have hform : formOf (1#2 ++ packHalf a ++ packHalf b) = 1 := by
    rw [formOf_eq, (pair_halves (packHalf a) (packHalf b)).1]
    rfl
  simp [decode, hform, decodeWord_pair h, Except.map]

/-- Decoding reads back what encoding writes, whatever words follow (R81 to R84, R95). -/
theorem decode_encode {i : Instr} (hwf : WellFormed i = true) (hne : encode i ≠ []) (rest : List W64) :
    decode (encode i ++ rest) = .ok (i, rest) := by
  rcases pair_or_opcode hne with ⟨a, b, rfl⟩ | ⟨op, w, ho⟩
  · exact decode_pair hwf rest
  · have hok : wordOk Allot.top i w = true := (wellFormed_word ho).symm.trans hwf
    rw [encode_word ho]
    exact decode_pack (instrOf_opcodeOf ho (fieldsOk_word hok)) hok rest

/-- What a run of words decodes to passes its checks and encodes to the words that it took. -/
theorem decode_ok {l : List W64} {i : Instr} {rest : List W64} (h : decode l = .ok (i, rest)) :
    WellFormed i = true ∧ l = encode i ++ rest := by
  have one : ∀ {x : W64} {ext : Option W64} {tail : List W64}, (formOf x = 2 ↔ ext.isSome = true) →
      (decodeWord x ext).map (fun i => (i, tail)) = .ok (i, rest) →
      WellFormed i = true ∧ x :: ext.toList ++ tail = encode i ++ rest := by
    intro x ext tail hform hmap
    cases hword : decodeWord x ext with
    | error _ => rw [hword] at hmap; cases hmap
    | ok j =>
      rw [hword] at hmap
      cases hmap
      obtain ⟨hwf, henc⟩ := decodeWord_ok hform hword
      exact ⟨hwf, by rw [henc]⟩
  unfold decode at h
  split at h
  next => cases h
  next x tail =>
    split at h
    next hform =>
      split at h
      next => cases h
      next e tail => exact one (ext := some e) ⟨fun _ => rfl, fun _ => hform⟩ h
    next hform => exact one (ext := none) ⟨fun hf => absurd hf hform, nofun⟩ h

/-- Settles O49: a word's fields stand where decoding looks for them, and opcode and function field name one instruction. -/
theorem decodeEncodeRoundTrip : Obligations.DecodeEncodeRoundTrip := by
  unfold Obligations.DecodeEncodeRoundTrip
  refine ⟨fun i rest hwf hne => decode_encode hwf hne rest, fun l i rest h => decode_ok h, fun i hwf hne => ?_⟩
  have hdec := decode_encode hwf hne []
  rw [List.append_nil] at hdec
  rw [decodeBytes, encodeBytes, wordsOf_all, hdec]
  rfl

/-- A run of words that begins with an instruction's encoding decodes to the instruction. -/
theorem decode_of_encode {i : Instr} {l rest : List W64} (hwf : WellFormed i = true) (hne : encode i ≠ []) (hl : l = encode i ++ rest) :
    decode l = .ok (i, rest) := by
  rw [hl]
  exact decode_encode hwf hne rest

/-- Settles O50: five of the runs begin with the encoding of a well-formed instruction; the others fail a check of R81, R83, R84 or
R107. -/
theorem decodeWords : Obligations.DecodeWords := by
  unfold Obligations.DecodeWords
  refine ⟨?_, ?_, ?_, ?_, ?_, ?_, ?_, ?_, ?_⟩
  case refine_1 | refine_2 | refine_3 | refine_4 | refine_5 => exact decode_of_encode (by decide) (by decide) (by decide)
  case refine_6 | refine_7 | refine_8 | refine_9 => rfl

end Sys2Proof.Encodings
end

section
/-! Proofs of family 03: the word that a pick runs (R77, R102, R104, R105). -/

open Sys2Proof Sys2Proof.Machine
namespace Sys2Proof.Encodings

/-- What an allotment admits is a pair or has an opcode. -/
theorem pair_or_opcode_of_admitted {al : Allot} {i : Instr} (h : admitted al i = true) :
    (∃ a b, i = .pairWord a b) ∨ ∃ op w, opcodeOf i = some (op, w) := by
  unfold admitted at h
  split at h
  next a b => exact .inl ⟨a, b, rfl⟩
  next =>
    split at h
    next op w ho => exact .inr ⟨op, w, ho⟩
    next => cases h

/-- An instruction that a clause's next words decode to, and that passes the checks of its wave, its class and its window, issues. -/
theorem inspect_of_decode {al : Allot} {c : Clause} {i : Instr} {tail : List W64} (hdec : decode (c.words.drop c.idx) = .ok (i, tail))
    (hal : admitted al i = true) (hcl : classFits c.hdr i tail.isEmpty = true) (hla : lookahead i ≤ tail.length) :
    inspect al c = .ok i := by
  obtain ⟨-, hl⟩ := decode_ok hdec
  rcases pair_or_opcode_of_admitted hal with ⟨a, b, rfl⟩ | ⟨op, w, ho⟩
  · exact inspect_pair hl hal hcl
  · obtain ⟨hadm, hclass, hlook⟩ := admitted_word (al := al) ho
    rw [encode_word ho] at hl
    rw [hadm] at hal
    rw [hclass] at hcl
    rw [hlook] at hla
    exact inspect_word hl (instrOf_opcodeOf ho (fieldsOk_word hal)) hal hcl hla

/-- With no agenda a step runs the first picked fragment's word. -/
theorem step_picked {s : State} {x : Nat × Nat} {rest : List (Nat × Nat)} (ha : s.agenda = []) (hp : s.picked = x :: rest) :
    step s = ({ s with picked := rest } : State).runWord x := by
  simp [step, ha, State.ownStep, hp]

section Pick

variable {s : State} {wid fr : Nat} {w : Wave} {f : Frag} {c : Clause} (hf : s.fragAt wid fr = some (w, f))
  (hc : f.clause = some c) (hfrozen : w.frozen = none) (hend : w.ending = false)
include hf hc hfrozen hend

/-- A word that passes its checks and reads no result of its window runs. -/
theorem pickWord_runs {i : Instr} (hi : inspect w.allot c = .ok i) (hz : hazard w fr f.mask c i ≠ .violation) :
    s.pickWord wid fr = .run i { s with cur := some (wid, fr) } := by
  simp [State.pickWord, hf, hc, hfrozen, hend, hi, hz]

/-- A word that fails a check, or reads a result of its window, traps. -/
theorem pickWord_traps {cause : Nat} (h : inspect w.allot c = .error cause ∨
      ∃ i, inspect w.allot c = .ok i ∧ hazard w fr f.mask c i = .violation ∧ cause = cLA_VIOLATION) :
    s.pickWord wid fr = .trapped { badWord { s with cur := some (wid, fr) } c cause with cur := none } := by
  rcases h with hi | ⟨i, hi, hz, rfl⟩
  · simp [State.pickWord, hf, hc, hfrozen, hend, hi]
  · simp [State.pickWord, hf, hc, hfrozen, hend, hi, hz]

end Pick

/-- The fragment that a word's environment names is the current one. -/
theorem env_of_cur {x : Fields} {s : State} {e : Env} {wid fr : Nat} {w : Wave} {f : Frag} {c : Clause} (h : Issues x s e)
    (hcur : s.cur = some (wid, fr)) (hf : s.fragAt wid fr = some (w, f)) (hc : f.clause = some c) :
    e.s = s ∧ e.wid = wid ∧ e.fr = fr ∧ e.wv = w ∧ e.frag = f ∧ e.cl = c := by
  obtain ⟨hs, -, hc', hw', hf', hcl', -⟩ := h.facts
  obtain ⟨hw, hff⟩ := fragAt_some hf
  obtain ⟨rfl, rfl⟩ := Prod.mk.inj (Option.some.inj (hc'.symm.trans hcur))
  obtain rfl : e.wv = w := Option.some.inj (hw'.symm.trans hw)
  obtain rfl : e.frag = f := Option.some.inj (hf'.symm.trans hff)
  exact ⟨hs, rfl, rfl, rfl, rfl, Option.some.inj (hcl'.symm.trans hc)⟩

/-- The trap of a word that is refused: the word is in TRAPINFO (R105). -/
theorem badWord_traps {s : State} {e : Env} {wid fr : Nat} {w : Wave} {f : Frag} {c : Clause} (h : Issues (unpack c.word c.ext) s e)
    (hcur : s.cur = some (wid, fr)) (hf : s.fragAt wid fr = some (w, f)) (hc : f.clause = some c) (hh : w.handler = none)
    (ht : w.tvec ≠ 0) (cause : Nat) :
    ∃ w', Traps e e.s w (badWord s c cause) w' (faultRec cause c.word 0 f.mask) (c.wordAddr c.idx) := by
  obtain ⟨-, rfl, rfl, rfl, rfl, rfl⟩ := env_of_cur h hcur hf hc
  obtain ⟨t, w', hsettle, htraps⟩ := fault_settles h (t := faultRec cause e.cl.word 0 e.frag.mask) (ld := false) hh ht
  have hbad : badWord s e.cl cause = t := by
    rw [← hsettle, badWord, h.env]
    rfl
  exact ⟨w', hbad ▸ htraps⟩

/-- Settles O51: the checks of a picked word are those of its decoding. -/
theorem stepRunsDecoded : Obligations.StepRunsDecoded := by
  unfold Obligations.StepRunsDecoded
  refine ⟨?_, ?_, ?_⟩
  · intro s wid fr rest w f c i tail ha hp hf hc hfrozen hend hdec hal hcl hla hz
    rw [step_picked ha hp, State.runWord, pickWord_runs (s := { s with picked := rest }) hf hc hfrozen hend (inspect_of_decode hdec hal hcl hla) hz]
  · intro s wid fr rest w f c e ha hp hf hc hfrozen hend hiss hh ht cause hbad
    obtain ⟨w', htraps⟩ := badWord_traps hiss rfl hf hc hh ht cause
    refine ⟨_, w', ?_, htraps⟩
    rw [step_picked ha hp, State.runWord, pickWord_traps (s := { s with picked := rest }) hf hc hfrozen hend hbad]
  · intro i rest s ha
    simp [step, ha]

end Sys2Proof.Encodings
end

section
/-! Proofs of family 03: words that move their fragment (R80, R195 to R199). -/

open Sys2Proof Sys2Proof.Machine
namespace Sys2Proof.Fragments

/-- Settles O23: each word jumps, to its own target. -/
theorem branchWords : Obligations.BranchWords := by
  unfold Obligations.BranchWords
  intro w s e h here off reg base
  refine ⟨.of_done h rfl rfl, movesTo_of_jump h rfl rfl, movesTo_of_jump h rfl rfl, movesTo_of_jump h rfl rfl, ?_, ?_, ?_, ?_⟩
  · intro ha
    obtain ⟨s', w', hx, hl, hv, hs, hk⟩ := leaves_of_jump h (i := .call w) (pc := base + off) rfl rfl ha
    exact ⟨s', w', hx, hl, (writesS_putS e e.wv _).of_regs hv hs hk⟩
  · intro hall
    exact movesTo_of_jump h rfl (if_pos hall)
  · intro hsome hnone
    exact movesTo_of_jump h rfl ((if_neg hsome).trans (if_pos hnone))
  · intro hh ht
    exact ⟨fun ha => faults_of_jump h rfl rfl ha hh ht, fun ha => faults_of_jump h rfl rfl ha hh ht,
      fun ha => faults_of_jump h rfl rfl ha hh ht, fun ha => faults_of_jump h (pc := base + off) rfl rfl ha hh ht⟩

end Sys2Proof.Fragments
end

section
/-! Proofs of family 03: fragments and waves (R100 to R103, R127 to R135, R143, R201, R203, R226, R255, R422). -/

open Sys2Proof Sys2Proof.Machine
namespace Sys2Proof.Fragments

open Sys2Proof.Numbers (onCore_next)

/-! ### A core's cycle (R133 to R135, R255) -/

theorem frag?_eq_some {s : State} {k fr : Nat} {f : Frag} :
    s.frag? k fr = some f ↔ ∃ w, s.wave k = some w ∧ Tbl.find w.frags fr = some f := Option.bind_eq_some_iff

/-- A candidate that does not win over another is younger, or of its age and not before it (R255). -/
theorem wins_false {x y : Cand} (h : x.wins y = false) :
    x.age < y.age ∨ (x.age = y.age ∧ (y.wid < x.wid ∨ (y.wid = x.wid ∧ y.fr ≤ x.fr))) := by
  unfold Cand.wins at h
  split at h
  next hne =>
    have : ¬ y.age < x.age := of_decide_eq_false h
    omega
  next heq =>
    simp only [Bool.or_eq_false_iff, Bool.and_eq_false_iff, decide_eq_false_iff_not, beq_eq_false_iff_ne] at h
    omega

theorem issueCycle_cycles {core : Nat} {s : State} (hcore : core < 256) (h : (s.die (core / 64)).inReset = false) :
    exec (.issueCycle core) s = .next (s.cycle core) := onCore_next hcore (if_neg (by simp [dieOfCore, h]))

/-! ### A fragment at a header (R77, R100, R101) -/

/-- Nothing keeps the fragment from starting a clause (R78, R100, R103, R132). -/
structure Starts (s : State) (wid fr : Nat) (w : Wave) (f : Frag) : Prop where
  live : s.fragAt wid fr = some (w, f)
  clause : f.clause = none
  parked : f.parked = none
  diverge : f.diverge = none
  free : f.free s wid w = true
  runs : w.runs fr = true
  turn : s.twinTurn wid w (300 + fr) = true
  notAborting : w.aborting = none ∨ w.handler.isSome = true
  notHeld : s.heldAtBoundary wid w = false
  noTrap : ∀ p ∈ w.pending, p.frag = fr → p.mayTrap = false

/-- A fragment that may start does what its header says. -/
theorem Starts.exec {s t : State} {wid fr : Nat} {w : Wave} {f : Frag} (h : Starts s wid fr w f) (hcore : coreOfWave wid < 256)
    (hdo : s.atHeader wid fr w f = .go t) : exec (.clauseStart wid fr) s = .next (t.twinStep wid w (300 + fr)) := by
  have hab : (w.aborting.isSome && w.handler.isNone) = false := by
    rcases h.notAborting with ha | ha <;> simp [ha]
  have hpend : (w.pending.any fun p => p.frag == fr && p.mayTrap) = false := any_none fun p hp => by
    by_cases hfr : p.frag = fr <;> simp [hfr, h.noTrap p hp]
  refine onCore_next hcore ?_
  simp only [State.startClause, h.live, h.clause, h.parked, h.diverge, h.runs, h.free, hab, h.notHeld, h.turn, hpend, hdo]
  rfl

section Header

variable {s : State} {wid fr : Nat} {w : Wave} {f : Frag}

/-- No header stands at an address that is not a multiple of 8 (R77). -/
theorem atHeader_unaligned (ha : f.pc.toNat % 8 ≠ 0) :
    s.atHeader wid fr w f = .go (s.headerTrap wid fr f (faultRec cILLEGAL_CLAUSE 0 0 f.mask) f.pc) := if_pos ha

/-- A word of another form is no header (R81, R101). -/
theorem atHeader_noHeader (ha : f.pc.toNat % 8 = 0) {hdr : W64} (hword : fetchWords s wid w f.failed f.pc.toNat 1 = .words [hdr])
    (hform : formOf hdr ≠ 3) :
    s.atHeader wid fr w f = .go (s.headerTrap wid fr f (faultRec cILLEGAL_CLAUSE hdr 0 f.mask) f.pc) := by
  simp [State.atHeader, ha, hword, hform]

/-- A header and its body that have been fetched and pass the checks. -/
theorem atHeader_begins (ha : f.pc.toNat % 8 = 0) {hdr : W64} {body : List W64}
    (hword : fetchWords s wid w f.failed f.pc.toNat 1 = .words [hdr]) (hform : formOf hdr = 3)
    (hbody : fetchWords s wid w f.failed f.pc.toNat (1 + (headerOf hdr).count) = .words (hdr :: body))
    (hok : headerBad hdr body = false) : s.atHeader wid fr w f = s.beginClause wid fr w f hdr body := by
  simp [State.atHeader, ha, hword, hform, hbody, hok]

/-- The fragment in the clause that it begins. -/
def begun (f : Frag) (hdr : W64) (body : List W64) : Frag :=
  { f with clause := some { addr := f.pc, hdr := hdr, words := body, idx := 0, passes := 0 }, wait := none, failed := [], yieldedAt := none }

/-- A clause whose header neither parks nor yields begins when its tokens are clear and its loads have landed (R100). -/
theorem beginClause_begins {hdr : W64} {body : List W64} (hrcv : (headerOf hdr).rcv = true → (headerOf hdr).rtok ∉ f.stack)
    (hyp : (headerOf hdr).yp ≠ 2) (htw : (headerOf hdr).tw &&& w.tok = 0)
    (hwl : (headerOf hdr).wl = true → ∀ p ∈ w.pending, p.load = false)
    (hheld : ∀ p ∈ w.heldFaults, (headerOf hdr).tw.getLsbD p.1 = false) :
    s.beginClause wid fr w f hdr body = .go (s.modWave wid fun w => { w with
      frags := Tbl.put w.frags fr (begun f hdr body),
      pending := w.pending.map fun p => if p.frag = fr then { p with winEnd := 0 } else p }) := by
  have hpark : ((headerOf hdr).rcv && f.stack.contains (headerOf hdr).rtok) = false := by
    cases hr : (headerOf hdr).rcv
    · rfl
    · simpa using hrcv hr
  have hwait : ¬((headerOf hdr).tw &&& w.tok ≠ 0 ∨ ((headerOf hdr).wl = true ∧ w.pending.any (·.load) = true)) := by
    rintro (h | ⟨hl, h⟩)
    · exact h htw
    · rw [any_none (hwl hl)] at h
      cases h
  have hfault : heldAt w (headerOf hdr).tw = none := by
    simpa [heldAt, List.find?_eq_none] using hheld
  simp only [State.beginClause, hpark, hyp, hwait, hfault]
  rfl

end Header

/-! ### Fragments that wait for a record or a time (R127, R129, R203, R422) -/

section Waiting

variable {s : State} {wid fr : Nat} {w : Wave} {f : Frag} (hcore : coreOfWave wid < 256) (hf : s.fragAt wid fr = some (w, f))
include hcore hf

/-- Held lanes take the lowest free record (R129). -/
theorem heldLanes_detach {h : LaneGroup} {r : Nat} (hheld : f.held = some h) (hpark : f.parked.isSome = true)
    (hr : w.freeRecord = some r) (ht : s.twinTurn wid w (500 + fr) = true) :
    exec (.heldLanesDetach wid fr) s = .next ((s.modWave wid fun _ => ({ w with
      frags := Tbl.put (Tbl.put w.frags fr { f with held := none }) r
        { Frag.start h.mask h.pc h.stack with parked := h.stack.head? } }).merge).twinStep wid w (500 + fr)) := by
  obtain ⟨t, hpark⟩ := Option.isSome_iff_exists.1 hpark
  refine onCore_next hcore ?_
  simp only [State.detachHeld, hf, hheld, hpark, hr, ht]
  rfl

/-- A divided branch completes when a record is free (R127). -/
theorem branch_divides {d : Divergence} {c : Clause} {r : Nat} (hd : f.diverge = some d) (hc : f.clause = some c)
    (hr : w.freeRecord = some r) (hrun : w.runs fr = true) (ht : s.twinTurn wid w (400 + fr) = true) :
    exec (.divergeRetry wid fr) s = .next ((s.modWave wid fun _ => { w with
      frags := Tbl.put (Tbl.put w.frags fr (f.divided c.hdr d)) r
        (Frag.start d.minor.mask d.minor.pc (pushToken f.stack d.token)) }).twinStep wid w (400 + fr)) := by
  refine onCore_next hcore ?_
  simp only [State.retryBranch, hf, hd, hc, hr, ht, hrun, diverge_free hr]
  rfl

theorem sleep_expires {n : Nat} (hw : f.wait = some (.sleep n)) (hn : n ≤ s.cycOf wid + 1) :
    exec (.sleepExpire wid fr) s = .next (s.modFrag wid fr fun f => { f with wait := none }) := by
  refine onCore_next hcore ?_
  simp only [State.wakeNow, hf, hw, if_pos hn]

/-- An AWAIT whose phase does not pass in this cycle is answered TIMEOUT (R422). -/
theorem awaitLimit_expires {rid p n : Nat} (hw : f.wait = some (.region rid p (some n))) (hn : n ≤ s.cycOf wid + 1)
    (hr : (s.region rid).completes = false) :
    exec (.awaitLimitExpire wid fr) s = .next (s.modFrag wid fr fun f =>
      { f with wait := none, awaitAns := some (BitVec.ofNat 64 ((s.region rid).phase * 2 ^ 48 + 1)) }) := by
  have hstep : s.regionStep rid = s := by simp [State.regionStep, hr]
  refine onCore_next hcore ?_
  simp only [State.limitNow, hf, hw, if_neg (Nat.not_lt.2 hn), hstep, beq_self_eq_true, if_true]

end Waiting

/-! ### Landings (R143, R237) -/

/-- No engine, peer or array access still makes the result. -/
def NoMaker (s : State) (w : Wave) (p : Pending) : Prop :=
  ∀ id, p.req = some id → (∀ r ∈ s.reqs, r.id ≠ id) ∧ (∀ r ∈ s.peerOps, r.grp ≠ id) ∧ ∀ o ∈ w.arrayQ, o.gives id = false

theorem NoMaker.idle {s : State} {w : Wave} {p : Pending} (h : NoMaker s w p) {id : Nat} (hid : p.req = some id) :
    ((s.reqs.any fun r => r.id == id) || (s.peerOps.any fun r => r.grp == id) || w.arrayQ.any (ArrayOp.gives id)) = false := by
  obtain ⟨hreqs, hpeers, harray⟩ := h id hid
  rw [any_none fun r hr => by simp [hreqs r hr], any_none fun r hr => by simp [hpeers r hr], any_none harray]
  rfl

section Landing

variable {s : State} {wid i : Nat} {w : Wave} {p : Pending} (hcore : coreOfWave wid < 256) (hw : s.wave wid = some w)
  (hp : w.pending[i]? = some p) (hdue : p.due ≤ s.cycOf wid + 1) (hmake : NoMaker s w p)
include hcore hw hp hdue hmake

/-- A result that is due and that nothing still makes lands. -/
theorem result_lands (hnone : p.trap = none) :
    exec (.resultLand wid i) s = .next (s.modWave wid fun w => { w with pending := w.pending.eraseIdx i }) := by
  refine onCore_next hcore ?_
  have hlate : decide (s.cycOf wid + 1 < p.due) = false := decide_eq_false (Nat.not_lt.2 hdue)
  cases hid : p.req with
  | none => simp only [State.land, hw, hp, hid, hlate, hnone]; rfl
  | some id => simp only [State.land, hw, hp, hid, hmake.idle hid, hlate, hnone]; rfl

/-- A landing result takes its report trap where its fragment stands (R237). -/
theorem result_reports {t : TrapRec} (ht : p.trap = some t) (hreport : t.fault = false) (hfrozen : w.frozen = none)
    (hturn : s.twinTurn wid w 100 = true) (hheld : ∀ h ∈ w.heldTraps, h.frag ≠ p.frag) :
    exec (.resultLand wid i) s = .next (((s.modWave wid fun w => { w with pending := w.pending.eraseIdx i }).takeTrapHere wid
      p.frag t).twinStep wid w 100) := by
  refine onCore_next hcore ?_
  have hlate : decide (s.cycOf wid + 1 < p.due) = false := decide_eq_false (Nat.not_lt.2 hdue)
  have htraps : (w.heldTraps.any fun h => h.frag == p.frag) = false := any_none fun h hh => by simp [hheld h hh]
  cases hid : p.req with
  | none => simp only [State.land, State.landTrap, hw, hp, hid, hlate, ht, hreport, hfrozen, hturn, htraps]; rfl
  | some id => simp only [State.land, State.landTrap, hw, hp, hid, hmake.idle hid, hlate, ht, hreport, hfrozen, hturn, htraps]; rfl

end Landing

/-! ### Redirects (R226) -/

/-- The highest of the levels up to `l` that satisfy a condition. -/
theorem find_highest {p : Nat → Bool} {k : Nat} (hk : p k = true) (l : Nat) (hkl : k ≤ l)
    (habove : ∀ m, k < m → m ≤ l → p m = false) : (List.range (l + 1)).reverse.find? p = some k := by
  induction l with
  | zero =>
    obtain rfl := Nat.le_zero.1 hkl
    simp [hk]
  | succ n ih =>
    rw [List.range_succ, List.reverse_append, List.reverse_singleton, List.singleton_append, List.find?_cons]
    by_cases hn : k = n + 1
    · rw [← hn, hk]
    · rw [habove (n + 1) (by omega) (Nat.le_refl _)]
      exact ih (by omega) fun m hm hmn => habove m hm (by omega)

/-- The wave after a redirect for an abort at level `l` to the span `sp` (R226). -/
def redirected (w : Wave) (sp : Span) (l cause : Nat) : Wave :=
  { w.closeSpans l with
    pending := w.pending.filter (fun p => p.req.isSome), wsb := [], readLog := [], aborting := none, heldTraps := [],
    frags := [(0, Frag.start sp.mask sp.target sp.stack)], xcause := BitVec.ofNat 64 (256 + 16 * l + cause) }

theorem redirected_sameRegs (w : Wave) (sp : Span) (l cause : Nat) : SameRegs w (redirected w sp l cause) := by
  obtain ⟨t, ht⟩ := closeSpans_only w l
  unfold redirected
  rw [ht]
  exact SameRegs.of_regs rfl rfl rfl

/-- An affected wave at a clause boundary goes to the target of its highest open span (R226). -/
theorem abort_redirects {s : State} {wid l cause k : Nat} {w : Wave} (hcore : coreOfWave wid < 256) (hw : s.wave wid = some w)
    (hab : w.aborting = some (l, cause)) (hh : w.handler = none) (hfrozen : w.frozen = none) (htw : s.twinned w = false)
    (hreq : ∀ p ∈ w.pending, p.req = none) (hclause : ∀ p ∈ w.frags, p.2.clause = none)
    (hfind : (List.range (l + 1)).reverse.find? (fun i => (w.span i).isOpen) = some k) :
    ∃ t, exec (.abortRedirect wid) s = .next t ∧ t.wave wid = some (redirected w (w.span k) l cause) := by
  have hpend : (w.pending.any fun p => p.req.isSome) = false := any_none fun p hp => by simp [hreq p hp]
  have hbound : (w.frags.all fun p => p.2.clause.isNone) = true := List.all_eq_true.2 fun p hp => by simp [hclause p hp]
  refine ⟨_, onCore_next hcore (?_ : s.redirectNow wid = some (s.redirectTo wid w l cause)), ?_⟩
  · simp only [State.redirectNow, State.redirect, hw, hfrozen, hpend, htw, hab, hh, hbound]
    rfl
  · have htw' : ∀ g, ((s.releaseGrants wid).modWave wid g).twinned w = false := fun _ => htw
    have hw' : (s.releaseGrants wid).wave wid = some w := hw
    rw [State.redirectTo, hfind]
    simp only [twinStep_single (htw' _), State.wave_modWave_of hw']
    rfl

/-! ### The end of a wave (R201) -/

/-- A wave alone is its own twin. -/
theorem bothWaves_alone {s : State} {wid : Nat} {w : Wave} (hw : s.wave wid = some w) (htw : s.twinned w = false) :
    s.bothWaves wid = [wid] := by
  simp [State.bothWaves, hw, htw]

theorem twinned_of_launches {s t : State} {v w : Wave} (h : t.launches = s.launches) (hl : v.lid = w.lid) : t.twinned v = s.twinned w := by
  unfold State.twinned State.isTwin State.flag State.record State.launch
  rw [h, hl]

theorem dueAfterEnd_wave (s : State) (w : Wave) (bid k : Nat) : (s.dueAfterEnd w bid).wave k = s.wave k := by
  unfold State.dueAfterEnd
  split <;> rfl

/-- A drained wave whose bytes can move ends: its slot is free, and no other wave has changed since the move (R201). -/
theorem wave_ends {s t : State} {wid : Nat} {w : Wave} (hcore : coreOfWave wid < 256) (hw : s.wave wid = some w)
    (hd : s.drained wid w = true) (htw : s.twinned w = false) (hg : s.grantOfOther wid w 1 = none)
    (hm : s.endMoves wid w (s.endLevel wid w) = .go t) :
    ∃ u, exec (.waveEnd wid) s = .next u ∧ u.wave wid = none ∧ ∀ k, k ≠ wid → u.wave k = t.wave k := by
  have haff := endMoves_affects hm
  obtain ⟨v, hv, hsame⟩ := haff.wave w hw
  have hboth : t.bothWaves wid = [wid] :=
    bothWaves_alone hv ((twinned_of_launches haff.launches (congrArg Wave.lid hsame)).trans htw)
  have hwave : ∀ last k, ((t.freeWave wid w last).dueAfterEnd w (w.bid wid)).wave k = if k = wid then none else t.wave k := by
    intro last k
    rw [dueAfterEnd_wave, freeWave_wave, hboth]
    simp
  refine ⟨_, onCore_next hcore (?_ : s.tryEnd wid = some ((t.freeWave wid w (decide (2 ≤ s.endLevel wid w))).dueAfterEnd w (w.bid wid))),
    ?_, fun k hk => ?_⟩
  · simp only [State.tryEnd, State.endNow, hw, hd, htw, hg, hm]
    rfl
  · rw [hwave, if_pos rfl]
  · rw [hwave, if_neg hk]

/-! ### The statement -/

/-- Settles O59: each event is done where it can be, and changes the fragment or the wave that it is of. -/
theorem fragmentEvents : Obligations.FragmentEvents := by
  unfold Obligations.FragmentEvents
  refine ⟨fun core s hcore hreset => ⟨?_, ?_, ?_, ?_, ?_, ?_⟩, fun wid fr s w f hcore hf => ⟨?_, ?_, ?_, ?_, ?_⟩,
    fun wid s w hcore hw => ⟨?_, ?_, ?_⟩⟩
  · obtain ⟨hwaves, hmem, hothers, hcyc, ⟨p, hp, hlen⟩, hfrags⟩ := cycle_frame s core
    refine ⟨_, p, issueCycle_cycles hcore hreset, hcyc, hothers, hp, hlen, congrArg Prod.fst hmem, congrArg Prod.snd hmem, fun k u hu => ?_, ?_⟩
    · obtain ⟨u', hu', hrest, htok, -⟩ := hwaves k u hu
      exact ⟨u', hu', hrest, htok⟩
    · intro k fr u f c hu hf hc
      obtain ⟨f', c', hf', hc', hissue, hage⟩ := hfrags k fr f c (frag?_eq_some.2 ⟨u, hu, hf⟩) hc
      obtain ⟨u', hu', hfind⟩ := frag?_eq_some.1 hf'
      exact ⟨u', f', c', hu', hfind, hc', hissue, hage⟩
  · exact mem_readies _ core
  · intro x hx y hy hxh hyh hb
    exact picksOf_ranked hx hy hxh hyh ((Cand.before_iff y x).2 hb)
  · intro hn x hx
    have hheld := readies_hold (s.modCore core fun c => { c with cyc := c.cyc + 1 }) core
    exact ⟨fun hh => picksOf_holder hx hh (Nat.le_trans hheld hn), fun hold hno => picksOf_old hx hold hn hheld hno⟩
  · exact (issuing_of _ core _).1
  · intro x hx hno
    obtain ⟨y, hy, hconf, hwins⟩ := (issuing_of _ core _).2.1 x hx hno
    exact ⟨y, hy, hconf, wins_false hwins⟩
  · intro hc hp hd hfree ⟨hrun, hturn⟩ hab hheld hpend
    have hstart : Starts s wid fr w f := ⟨hf, hc, hp, hd, hfree, hrun, hturn, hab, hheld, hpend⟩
    refine ⟨fun ha => hstart.exec hcore (atHeader_unaligned ha), fun ha => ⟨fun hdr hword hform =>
      hstart.exec hcore (atHeader_noHeader ha hword hform), ?_⟩⟩
    intro hdr body hword hform hbody hok hrcv hyp htw hwl hfault
    exact hstart.exec hcore ((atHeader_begins ha hword hform hbody hok).trans (beginClause_begins hrcv hyp htw hwl hfault))
  · intro h r hh hp hr ht
    exact heldLanes_detach hcore hf hh hp hr ht
  · intro d c r hd hc hr ⟨hrun, hturn⟩
    exact branch_divides hcore hf hd hc hr hrun hturn
  · intro n hwait hn
    exact sleep_expires hcore hf hwait hn
  · intro rid p n hwait hn hr
    exact awaitLimit_expires hcore hf hwait hn hr
  · intro i p hp hdue hmake
    exact ⟨result_lands hcore hw hp hdue hmake, fun t ht hreport hfrozen hturn hheld =>
      result_reports hcore hw hp hdue hmake ht hreport hfrozen hturn hheld⟩
  · intro l cause k hab hh hfrozen htw hreq hclause hkl hopen habove
    obtain ⟨t, hexec, hwave⟩ := abort_redirects hcore hw hab hh hfrozen htw hreq hclause
      (find_highest (p := fun i => (w.span i).isOpen) hopen l hkl habove)
    exact ⟨t, _, hexec, hwave, redirected_sameRegs _ _ _ _, rfl, rfl, rfl, rfl, rfl,
      fun m _ hm => (closeSpans_span w l m).1 hm, fun m hm => closeSpans_above w hm⟩
  · intro hd htw hg t hm
    exact wave_ends hcore hw hd htw hg hm

end Sys2Proof.Fragments
end

section
/-! Proofs of family 04: words that divide or end their fragment (R127, R129, R197, R200). -/

open Sys2Proof Sys2Proof.Machine
namespace Sys2Proof.Waves

/-! ### A word's change of its wave -/

/-- A word whose meaning rewrites its wave and writes no register. -/
theorem exec_placedWave {w : Fields} {s : State} {e : Env} (h : Issues w s e) {i : Instr} {body : Env → WRes} {f : Wave → Wave}
    (hx : exec i s = onWord w s body) (hb : body e = .placed (e.s.modWave e.wid f) []) :
    exec i e.s = .next (e.s.modWave e.wid fun _ => f e.wv) := by
  refine (exec_placed h hx hb h.alone).trans ?_
  rw [State.modWave_congr (g := fun _ => f e.wv) h.wave rfl]
  rfl

/-- A word that replaces its own fragment and nothing else. -/
theorem stands_put {w : Fields} {s : State} {e : Env} (h : Issues w s e) (g : Frag) :
    Stands e (e.s.modWave e.wid fun _ => { e.wv with frags := Tbl.put e.wv.frags e.fr g }) g := by
  rw [State.modWave_congr (g := fun v => { v with frags := Tbl.put v.frags e.fr g }) h.wave rfl]
  exact stands_of h

/-- A word that marks its fragment and waits for a reason that counts as its issue. -/
theorem stands_waiting {w : Fields} {s : State} {e : Env} (h : Issues w s e) {i : Instr} {body : Env → WRes} {f : Frag → Frag}
    {r : Wait} (hx : exec i s = onWord w s body) (hb : body e = .wait (e.s.modFrag e.wid e.fr f) r) :
    ∃ t, exec i e.s = .next t ∧ Stands e t { f e.frag with wait := some r } := by
  have htwin : (e.s.modFrag e.wid e.fr f).isTwin e.wv.lid = false := h.alone
  refine ⟨_, exec_word h hx, ?_⟩
  rw [hb, settleWord, countWait_single htwin, State.modFrag_modFrag]
  exact modFrag_stands h _

/-! ### BRA (R127, R197) -/

/-- The two sides of a BRA whose lanes split. -/
def braSides (e : Env) : Divergence :=
  { taken := { mask := e.act, pc := e.header + e.off, stack := [] },
    fall := { mask := e.frag.mask &&& ~~~e.act, pc := e.cl.next, stack := [] }, token := e.w.c.toNat }

/-- BRA's meaning where its lanes split. -/
def braSplits (e : Env) : WRes :=
  match e.wv.diverge e.fr e.frag e.cl.hdr (braSides e) with
  | some w => .placed (e.s.modWave e.wid fun v => { w with handler := v.handler }) []
  | none => .wait (e.s.modFrag e.wid e.fr fun f => { f with diverge := some (braSides e) }) .record

/-- BRA's meaning. -/
def braBody (e : Env) : WRes :=
  if e.frag.mask &&& ~~~e.act = 0 then e.jump (e.header + e.off) []
  else if e.act = 0 then e.jump e.cl.next []
  else braSplits e

theorem exec_bra (w : Fields) (s : State) : exec (.bra w) s = onWord w s braBody := rfl

section Branch

variable {w : Fields} {s : State} {e : Env} (h : Issues w s e) (ha : e.act ≠ 0) (hn : e.frag.mask &&& ~~~e.act ≠ 0)
include ha hn

theorem braBody_splits : braBody e = braSplits e := (if_neg hn).trans (if_neg ha)

include h

/-- A BRA with a place for its minority goes on with the divided wave. -/
theorem bra_divides {v : Wave} (hv : e.wv.diverge e.fr e.frag e.cl.hdr (braSides e) = some v)
    (hh : v.handler = e.wv.handler) : exec (.bra w) e.s = .next (e.s.modWave e.wid fun _ => v) := by
  have hb : braBody e = .placed (e.s.modWave e.wid fun u => { v with handler := u.handler }) [] := by
    rw [braBody_splits ha hn, braSplits, hv]
  rw [exec_placedWave h (exec_bra w s) hb, ← hh]

/-- A BRA with no place for its minority waits for a record. -/
theorem bra_waits (hv : e.wv.diverge e.fr e.frag e.cl.hdr (braSides e) = none) :
    ∃ t, exec (.bra w) e.s = .next t ∧ Stands e t { e.frag with diverge := some (braSides e), wait := some .record } := by
  refine stands_waiting h (f := fun f => { f with diverge := some (braSides e) }) (exec_bra w s) ?_
  rw [braBody_splits ha hn, braSplits, hv]

end Branch

/-- No record and no deferred entry is free for the minority (R127). -/
theorem diverge_full {v : Wave} {fr : Nat} {f : Frag} {hdr : W64} {d : Divergence} (hr : v.freeRecord = none)
    (hf : f.deferred ≠ none ∨ f.held ≠ none) : v.diverge fr f hdr d = none := by
  have hbusy : (f.deferred.isNone && f.held.isNone) = false := by
    rcases hf with hd | hh
    · rw [Option.isNone_eq_false_iff.2 (Option.isSome_iff_ne_none.2 hd), Bool.false_and]
    · rw [Option.isNone_eq_false_iff.2 (Option.isSome_iff_ne_none.2 hh), Bool.and_false]
  simp [Wave.diverge, hr, hbusy]

/-- The side with fewer lanes, on a tie the fall-through side, is the minority. -/
theorem braSides_minor_major (e : Env) :
    let n := e.frag.mask &&& ~~~e.act
    let small := decide (laneCount e.act < laneCount n)
    let minor : Mask × W64 := if small then (e.act, e.header + e.off) else (n, e.cl.next)
    let major : Mask × W64 := if small then (n, e.cl.next) else (e.act, e.header + e.off)
    (braSides e).minor = { mask := minor.1, pc := minor.2, stack := [] } ∧
      (braSides e).major = { mask := major.1, pc := major.2, stack := [] } := by
  by_cases hlt : laneCount e.act < laneCount (e.frag.mask &&& ~~~e.act)
  · simp [braSides, Divergence.minor, Divergence.major, hlt]
  · simp [braSides, Divergence.minor, Divergence.major, hlt]

/-- The side that goes on, at its header. -/
theorem divided_goes_on (f : Frag) (hdr : W64) {d : Divergence} {m : Mask} {pc : W64} (hd : d.major = { mask := m, pc := pc, stack := [] }) :
    (f.divided hdr d).mask = m ∧ (f.divided hdr d).pc = pc ∧ (f.divided hdr d).stack = pushToken f.stack d.token ∧
      (f.divided hdr d).clause = none := by
  simp only [Frag.divided, Frag.goTo, hd, and_self]

/-- Settles O24: the three places for the minority, in the order in which `Wave.diverge` looks for one. -/
theorem branchDivides : Obligations.BranchDivides := by
  unfold Obligations.BranchDivides
  intro w s e h ha hn n target small minor major stack
  obtain ⟨hminor, hmajor⟩ : (braSides e).minor = { mask := minor.1, pc := minor.2, stack := [] } ∧
    (braSides e).major = { mask := major.1, pc := major.2, stack := [] } := braSides_minor_major e
  have hpush : pushToken e.frag.stack (braSides e).token = stack := rfl
  obtain ⟨hmask, hpc, hstack, hclause⟩ := hpush ▸ divided_goes_on e.frag e.cl.hdr hmajor
  -- The sides are only names from here on: the counts of their lanes are not to be evaluated.
  clear_value minor major stack
  have hx := exec_word h (exec_bra w s)
  have settles : ∀ {t}, exec (.bra w) e.s = .next t → settleWord e (braBody e) = t := fun ht => Host.Outcome.next.inj (hx.symm.trans ht)
  refine ⟨_, hx, fun r hr hnone hlow => ?_, fun hfull hd hh => ?_, fun hfull hbusy => ?_⟩
  · have hne : e.fr ≠ r := by
      rintro rfl
      exact absurd (h.facts.frag.symm.trans hnone) nofun
    rw [settles (bra_divides h ha hn (diverge_free (freeRecord_of hr hnone hlow)) rfl), hminor, hpush]
    refine ⟨_, _, _, State.wave_modWave_of h.wave, rfl, (Tbl.find_put_other _ _ hne).trans (Tbl.find_put_same _ _ _), hmask, hpc, hstack,
      hclause, Tbl.find_put_same _ _ _, rfl, rfl, rfl, rfl, fun q hq hqr => ?_⟩
    exact (Tbl.find_put_other _ _ hqr).trans (Tbl.find_put_other _ _ hq)
  · rw [settles (bra_divides h ha hn (diverge_deferred (freeRecord_none hfull) hd hh) rfl), hminor, hpush]
    refine ⟨_, stands_put h _, ?_⟩
    simp only [hmask, hpc, hstack, hclause, and_self]
  · obtain ⟨t, ht, hstands⟩ := bra_waits h ha hn (diverge_full (freeRecord_none hfull) hbusy)
    rw [settles ht]
    exact ⟨_, hstands⟩

/-! ### EXIT (R129, R200) -/

/-- EXIT's meaning. -/
def exitBody (e : Env) : WRes :=
  if e.wv.spanOpen || e.wv.handler.isSome then e.illegal
  else .placed (e.s.modWave e.wid fun w => w.exitLanes e.fr e.frag e.act e.cl) []

theorem exec_exit (w : Fields) (s : State) : exec (.exit w) s = onWord w s exitBody := rfl

theorem spanOpen_true {v : Wave} {l : Nat} (hl : l < 5) (h : (v.span l).isOpen = true) : v.spanOpen = true :=
  List.any_eq_true.2 ⟨l, List.mem_range.2 hl, h⟩

theorem exitBody_illegal {e : Env} (h : e.wv.spanOpen = true) : exitBody e = e.illegal := by
  simp [exitBody, h]

/-- Outside a span and outside handler mode the active lanes exit. -/
theorem exit_retires {w : Fields} {s : State} {e : Env} (h : Issues w s e) (hspan : e.wv.spanOpen = false)
    (hh : e.wv.handler = none) :
    exec (.exit w) e.s = .next (e.s.modWave e.wid fun _ => e.wv.exitLanes e.fr e.frag e.act e.cl) := by
  refine exec_placedWave h (f := fun v => v.exitLanes e.fr e.frag e.act e.cl) (exec_exit w s) ?_
  simp [exitBody, hspan, hh]

theorem exitLanes_some {v : Wave} {fr : Nat} {f : Frag} {m : Mask} {c : Clause} (h : f.mask &&& ~~~m ≠ 0) :
    v.exitLanes fr f m c = { v with frags := Tbl.put v.frags fr { f.leave c c.next with mask := f.mask &&& ~~~m } } := if_neg h

/-- With all of its lanes gone, and nothing deferred or held, a fragment frees its record; no group merges for it where none has
parked. -/
theorem exitLanes_all {v : Wave} {fr : Nat} {f : Frag} {m : Mask} {c : Clause} (h : f.mask &&& ~~~m = 0)
    (hd : f.deferred = none) (hh : f.held = none) (hp : ∀ p ∈ v.frags, p.2.parked = none) :
    v.exitLanes fr f m c = { v with frags := Tbl.del v.frags fr } := by
  have hdone : v.fragDone fr f = { v with frags := Tbl.del v.frags fr } := by simp only [Wave.fragDone, hd, hh]
  refine (if_pos h).trans ?_
  rw [hdone]
  exact merge_none fun p hmem => hp p (mem_del hmem)

/-- Settles O25: some lanes are left, or none; or the word is illegal. -/
theorem lanesExit : Obligations.LanesExit := by
  unfold Obligations.LanesExit
  intro w s e h rest
  refine ⟨fun hspan hh => ⟨_, exit_retires h (spanOpen_false hspan) hh, fun hrest => ?_, fun hrest hd hheld hp => ?_⟩,
    fun l hl hopen hh ht => ?_⟩
  · rw [exitLanes_some hrest]
    exact stands_put h _
  · rw [exitLanes_all hrest hd hheld hp]
    refine ⟨_, State.wave_modWave_of h.wave, (Tbl.find_del _ _ _).trans (if_pos rfl), rfl, fun q hq => ?_⟩
    exact (Tbl.find_del _ _ _).trans (if_neg hq)
  · exact faults_illegal h (exec_exit w s) (exitBody_illegal (spanOpen_true hl hopen)) hh ht

end Sys2Proof.Waves
end

section
/-! Proofs of family 04: the registers that SRRD reads, and those at reset (R121, R124, R205, R399, R413, R435, R449, R477, R478, R492,
R502, R540, R544, R550, R553, R561). -/

open Sys2Proof Sys2Proof.Machine
namespace Sys2Proof.Waves

/-! ### SRRD (R121, R205) -/

/-- SRRD's meaning. -/
def srrdBody (e : Env) : WRes := .done { s := e.s, ws := e.putS (sysRead e.s e.wid e.wv e.w.f.toNat) }

/-- Outside a TWIN block SRRD reads where it stands, whichever register it names. -/
theorem srrd_reads {w : Fields} {s : State} {e : Env} (h : Issues w s e) :
    GivesS e (.srrd w) (sysRead e.s e.wid e.wv e.w.f.toNat) := by
  by_cases hpass : (0x57 ≤ w.f.toNat ∧ w.f.toNat ≤ 0x59) ∨ w.f.toNat = 0x41
  · exact GivesS.of_putS h (i := .srrd w) (if_pos hpass) (passed_single h.alone srrdBody _)
  · exact GivesS.of_putS h (i := .srrd w) (body := srrdBody) (if_neg hpass) rfl

/-- A TRAPLANES word that the wave has (R205). -/
theorem sysRead_traplanes (s : State) (wid : Nat) {w : Wave} {j : Nat} (hj : j < 32) (hw : j < w.maskWords) :
    sysRead s wid w (0x10 + j) = maskWord w.traplanes j := by
  unfold sysRead
  rw [if_pos (by omega), Nat.add_sub_cancel_left, if_pos hw]

/-- Settles O30, register by register. -/
theorem systemReads : Obligations.SystemReads := by
  unfold Obligations.SystemReads
  intro w s e h id gives
  have names : ∀ {n x : Nat}, sysRead e.s e.wid e.wv n = x → id = n → gives x := fun hx hid => hx ▸ hid ▸ srrd_reads h
  exact ⟨srrd_reads h, names rfl, names rfl, names rfl, names rfl, names rfl, names rfl, names rfl, names rfl, names rfl, names rfl, names rfl,
    names rfl, names rfl, names rfl, names rfl, names rfl, names rfl, fun j hid hw hj => names (sysRead_traplanes _ _ hj hw) hid⟩

/-! ### Reset (R124, R399, R413, R435, R449, R477, R478, R502, R540, R544, R550, R561) -/

theorem region_word_reset (n : Nat) : Region.reset.word n = 0 := by
  match n with
  | 0 | 1 | 2 | 3 => rfl
  | n + 4 => rfl

theorem pop_word_reset (n : Nat) : Pop.reset.word n = 0 := by
  have hbase : (if n ≤ 4 then (Tbl.get Pop.reset.gbase (n - 1) 0).toNat else 0) = 0 := ite_self 0
  unfold Pop.word
  split
  case h_6 => exact congrArg (BitVec.ofNat 64) hbase
  all_goals rfl

theorem scrubper_reset (die : Nat) : (State.reset.die die).scrubper = 0x2225 := rfl

/-- At reset function 0 holds every context. -/
theorem holds_reset {c : Nat} (hc : c < 256) : State.reset.holds 0 c = true := by
  have hholder : State.reset.holder c = 0 := rfl
  simp [State.holds, hholder, hc]

/-- Settles O52: a table that lists nothing gives each unit the value of its own reset definition. -/
theorem resetValues : Obligations.ResetValues := by
  unfold Obligations.ResetValues
  intro s
  refine ⟨⟨rfl, rfl⟩, rfl, rfl, rfl, rfl, rfl, fun d => ⟨rfl, rfl, rfl, by rw [scrubper_reset]; decide, by rw [scrubper_reset]; decide, rfl, rfl, rfl⟩, fun c => ⟨rfl, rfl, rfl, rfl, rfl⟩,
    fun k n => ⟨region_word_reset n, pop_word_reset n⟩, fun k => ⟨rfl, rfl, rfl⟩, fun k => ⟨rfl, rfl, rfl⟩,
    fun c => ⟨rfl, rfl, rfl, rfl, rfl⟩, fun c hc => holds_reset hc, fun c q => ⟨rfl, rfl, rfl, rfl⟩, fun fn => ⟨rfl, rfl⟩,
    fun p => ⟨rfl, rfl, rfl⟩, rfl, rfl⟩

end Sys2Proof.Waves
end

section
/-! Proofs of family 04: boot, walks, faults, scrubbers, evictions and borrowing (R124, R258, R408, R429 to R434, R453, R490,
R529 to R531). -/

open Sys2Proof Sys2Proof.Machine
namespace Sys2Proof.Waves

open Sys2Proof.Numbers (onCore_next onEvent_next)

theorem onDie_next {die : Nat} (h : die < 4) {name : String} {o : Option State} {t : State} (ho : o = some t) :
    onDie die (onEvent name o) = .next t := by
  subst ho
  exact if_pos h

/-! ### The security processor (R490, R529 to R531) -/

theorem mem_load_running {c : Security} {k n : Nat} {x : Image} :
    n ∈ (c.load k x).running ↔ (n ∈ c.running ∧ n ≠ k) ∨ (Config.imageSigned x.bytes x.signature = true ∧ n = k) := by
  rw [load_running, List.mem_append, List.mem_filter, bne_iff_ne]
  refine or_congr Iff.rfl ?_
  by_cases hsig : Config.imageSigned x.bytes x.signature = true
  · simp [hsig]
  · simp [hsig]

theorem load_versions {c : Security} {k : Nat} {x : Image} (h : Config.imageSigned x.bytes x.signature = true) :
    Tbl.get (c.load k x).versions k 0 = x.version := by
  simp [Security.load, h]

/-- Of the six images that boot takes, those run and are measured whose signature holds. -/
theorem boot_loads {c : Security} (hrun : c.running = []) {images : List Image} {n : Nat} {x : Image} (hn : n < 6)
    (hx : images[n]? = some x) :
    (n ∈ (c.boot images).running ↔ Config.imageSigned x.bytes x.signature = true) ∧
      Tbl.get (c.boot images).meas n 0 = if Config.imageSigned x.bytes x.signature = true
        then BitVec.ofNat 256 (ofLE (sha3 (leBytes 32 (Tbl.get c.meas n 0).toNat ++ sha3 x.bytes))) else Tbl.get c.meas n 0 := by
  have hall := (load_all (images.take 6) 0 c (fun m _ => by simp [hrun])).2 n x ((List.getElem?_take_of_lt hn).trans hx)
  rwa [Nat.zero_add] at hall

theorem active_of {c : Security} (hb : c.booted = true) (hr : 0 ∈ c.running) : c.active = true := by
  simp [Security.active, hb, hr]

/-- A hart's image: one whose signature holds runs, and its die binds again; another leaves the hart in reset. -/
theorem hartReload_loads {die : Nat} {image : Image} {s : State} (hd : die < 4) (hact : s.sec.active = true) :
    ∃ t, exec (.dispatchHartReload die image) s = .next t ∧ t.sec.running = (s.sec.load (2 + die) image).running ∧
      if Config.imageSigned image.bytes image.signature = true
      then (t.die die).hartFrozen = false ∧ Tbl.get t.sec.versions (2 + die) 0 = image.version else t.dies = s.dies := by
  refine ⟨_, onDie_next hd (if_pos hact), ?_⟩
  by_cases hsig : Config.imageSigned image.bytes image.signature = true
  · simp only [hsig, if_true]
    exact ⟨rfl, by rw [State.die_modDie, if_pos rfl], load_versions hsig⟩
  · simp only [hsig]
    exact ⟨rfl, rfl⟩

/-! ### Scrubbers (R432 to R434) -/

/-- A scrubber goes on to the next line of its array and counts a corrected error; no byte changes. -/
theorem scrub1_moves (s : State) (die unit : Nat) (canopy : Bool) (found : EccRead) :
    let t := s.scrub1 die canopy unit found
    let key := if canopy then 64 + unit else unit
    Tbl.get (t.die die).scrub key 0 = (Tbl.get (s.die die).scrub key 0 + 1) % arrayLines canopy ∧
      (t.die die).errCorr = (if found = .corrected then min 0xFFFFFFFF ((s.die die).errCorr + 1) else (s.die die).errCorr) ∧
      (t.die die).errUncorr = (if found = .uncorrectable then min 0xFFFFFFFF ((s.die die).errUncorr + 1) else (s.die die).errUncorr) ∧
      SameMemory s t := by
  intro t key
  obtain ⟨pa, -, hdie, hmem, hhost, -⟩ := scrub1_die s die unit canopy found
  obtain ⟨hm, hh, -, hcorr, huncorr⟩ := foundError_rest { s with free := s.free + 1 } die pa found
  refine ⟨?_, (congrArg Die.errCorr hdie).trans hcorr, (congrArg Die.errUncorr hdie).trans huncorr,
    fun a => congrArg (Memory.read · a) (hmem.trans hm), fun a => congrArg (Memory.read · a) (hhost.trans hh)⟩
  exact (congrArg (fun d : Die => Tbl.get d.scrub key 0) hdie).trans (Tbl.get_set_same _ _ _ _)

/-- The scrubber of a channel names the line that it could not correct, and poisons it. -/
theorem scrub1_names (s : State) (die unit : Nat) (found : EccRead) :
    let t := s.scrub1 die false unit found
    let line := channelLine die unit (Tbl.get (s.die die).scrub unit 0)
    (t.die die).errLast = (if found = .uncorrectable then some line else (s.die die).errLast) ∧
      ∀ l, l ∈ t.poison ↔ l ∈ s.poison ∨ (found = .uncorrectable ∧ l = lineOf line) := by
  intro t line
  obtain ⟨pa, hpa, hdie, -, -, hpoison⟩ := scrub1_die s die unit false found
  obtain rfl := hpa rfl
  obtain ⟨hlast, hlines⟩ := foundError_last { s with free := s.free + 1 } die line found
  exact ⟨(congrArg Die.errLast hdie).trans hlast, fun l => hpoison ▸ hlines l⟩

/-! ### Fault answers (R430) -/

/-- A waiter of no other walk or fault: its word is issued again, with the page listed as failed unless the answer is retry. -/
theorem answerOne_frag {s : State} {va wid fr : Nat} (retry : Bool) (h : (s.die (dieOfCore (coreOfWave wid))).waitsFor wid fr = false) :
    s.answerOne va retry (.frag wid fr) = s.modFrag wid fr fun f =>
      if f.wait = some .walk then { f with wait := none, failed := if retry then f.failed else f.failed ++ [pageOf va] } else f := by
  have hend : ∀ g, (s.modFrag wid fr g).endWalk wid fr =
      (s.modFrag wid fr g).modFrag wid fr fun f => { f with wait := if f.wait = some .walk then none else f.wait } := fun g =>
    if_neg (Bool.eq_false_iff.1 h)
  refine (hend _).trans ((State.modFrag_modFrag _ _ _ _ _).trans (congrArg (s.modFrag wid fr) (funext fun f => ?_)))
  by_cases hwait : f.wait = some .walk
  · cases retry <;> simp [hwait]
  · simp [hwait]

/-! ### Update-only lines (R258, R408) -/

/-- The superblock of an update-only line goes home whole, where the replay store has room. -/
theorem uLineEvict_evicts {core line : Nat} {s : State} {u : ULine} (hc : core < 256) (hu : Tbl.find (s.core core).u line = some u)
    (hroom : s.roomFor_ (s.uKeys ((s.core core).uOf (sbOf (devLineKey u.ctx line)))) = true) :
    exec (.uLineEvict core line) s = .next (s.evictSb core (sbOf (devLineKey u.ctx line))) := by
  refine onCore_next hc ?_
  simp only [State.evictU, hu, hroom, if_true]

/-! ### The statement -/

/-- Settles O57: each service is done where it can be, as its own lemma says. -/
theorem serviceEvents : Obligations.ServiceEvents := by
  unfold Obligations.ServiceEvents
  refine ⟨dieReset_does, fun images s hb hrun => ?_, fun s hb hrun => ⟨fun nonce => ?_, fun config => ?_, fun die image hd => ?_⟩,
    fun die unit found s hd hu hreset => ⟨?_, ?_⟩, fun die s x rest hd hw => ?_, fun die idx s x retry hd hx hh => ⟨?_, ?_, ?_⟩,
    invalidation_eq, fun core line s u hc hu => ?_, fun die p d rest s hd hp ha => ⟨?_, ?_⟩⟩
  · exact ⟨_, onEvent_next (if_neg (Bool.eq_false_iff.1 hb)), rfl, rfl, fun n x hn hx => boot_loads hrun hn hx⟩
  · exact onEvent_next (if_pos (active_of hb hrun))
  · exact onEvent_next (if_pos (active_of hb hrun))
  · obtain ⟨t, hexec, hruns, hrest⟩ := hartReload_loads (image := image) hd (active_of hb hrun)
    refine ⟨t, hexec, ?_, fun n hn => ?_⟩
    · rw [hruns, mem_load_running]
      by_cases hsig : Config.imageSigned image.bytes image.signature = true
      · simpa [hsig] using hrest
      · simpa [hsig] using hrest
    · rw [hruns, mem_load_running]
      simp [hn]
  · obtain ⟨hscrub, hcorr, huncorr, hmem⟩ := scrub1_moves s die unit false found
    obtain ⟨hlast, hpoison⟩ := scrub1_names s die unit found
    exact ⟨_, scrubStep_eq hd hu hreset, hscrub, hcorr, huncorr, hlast, hpoison, hmem⟩
  · obtain ⟨hscrub, hcorr, -, hmem⟩ := scrub1_moves s die unit true found
    exact ⟨_, scrubStep_eq hd hu hreset, hscrub, hcorr, hmem⟩
  · obtain ⟨t, hnext, hlen, hgone, hmem, hfaults, hposted⟩ := walkNext_does hw
    obtain ⟨-, hpage, hwalk⟩ := walkOnDie_does s die x.ctx x.va
    exact ⟨t, onDie_next hd hnext, hlen, hgone, hmem, hwalk, fun p hp => ⟨hpage p hp, hfaults p hp⟩, hposted⟩
  · intro hwho
    rw [faultAnswer_eq hd hx hh, hwho]
    rfl
  · intro core id hwho
    rw [faultAnswer_eq hd hx hh, hwho]
    rfl
  · intro wid fr hwho hwaits
    rw [faultAnswer_eq hd hx hh, hwho]
    exact congrArg Host.Outcome.next (answerOne_frag retry hwaits)
  · exact fun hroom => uLineEvict_evicts hc hu hroom
  · intro hlends
    rw [borrow_eq hd hp ha, if_pos ((lends_iff _ _).2 hlends)]
  · intro hlends
    rw [borrow_eq hd hp ha, if_neg fun hl => hlends ((lends_iff _ _).1 hl)]

end Sys2Proof.Waves
end

section
/-! Proofs of family 05: integers, shifts and moves (R141 to R155). -/

open Sys2Proof Sys2Proof.Machine
namespace Sys2Proof.Arithmetic

/-! ### Integers (R141, R144 to R148) -/

/-- Settles O1: each word fits the exact result of its own operation. -/
theorem integerSums : Obligations.IntegerSums := by
  unfold Obligations.IntegerSums
  intro w s e h
  exact ⟨givesInt_of h rfl rfl, givesInt_of h rfl rfl, givesInt_of h rfl rfl, givesInt_of h rfl rfl, givesInt_of h rfl rfl,
    givesInt_of h rfl rfl, givesInt_of h rfl rfl, givesInt_of h rfl rfl, givesInt_of h rfl rfl⟩

/-- The byte products of IDOT4, read by the signedness of the type (R147). -/
theorem dot4_eq (t : Ty) (a b : Nat) : dot4 (t == .i8) a b = ((List.range 4).map fun j =>
    let x := bits a (8 * j + 7) (8 * j)
    let y := bits b (8 * j + 7) (8 * j)
    if t = .i8 then intVal .i8 x * intVal .i8 y else (x : Int) * (y : Int)).sum := by
  unfold dot4
  congr 2
  funext j
  by_cases ht : t = .i8
  · simp [byteVal, ht, intVal, tySigned, tyBits]
  · simp [byteVal, ht]

/-- Settles O2: each word fits its own product form. -/
theorem integerProducts : Obligations.IntegerProducts := by
  unfold Obligations.IntegerProducts
  intro w s e h
  refine ⟨givesInt_of h rfl rfl, fun wide hwide => ?_, fun word hword => ?_⟩
  · subst hwide
    exact givesInt_of h rfl rfl
  · have hword' : word = if e.ty == .i8 then Ty.i32 else .n32 := by simpa using hword
    subst hword'
    simp only [← dot4_eq]
    exact givesInt_of h rfl rfl

/-- Settles O3: the quotient and the remainder of the model satisfy R146's equation and its table. -/
theorem integerDivision : Obligations.IntegerDivision := by
  unfold Obligations.IntegerDivision
  intro w s e h hsat
  refine ⟨fun l => idivVal e.ty (e.ia e.ty l) (e.ib e.ty l), fun l => iremVal e.ty (e.ia e.ty l) (e.ib e.ty l), ?_, ?_, fun l =>
    idiv_spec e.ty (e.ia e.ty l) (e.ib e.ty l)⟩
  · exact hsat ▸ givesInt_of h rfl rfl
  · exact hsat ▸ givesInt_of h rfl rfl

/-- The conditions of ICMP by their codes (R148). -/
theorem icond_eq {c : Nat} (hc : c ≤ 5) (a b : Int) : icond c a b =
    decide ((c = 0 ∧ a = b) ∨ (c = 1 ∧ a ≠ b) ∨ (c = 2 ∧ a < b) ∨ (c = 3 ∧ a ≤ b) ∨ (c = 4 ∧ b < a) ∨ (c = 5 ∧ b ≤ a)) := by
  interval_cases c <;> simp [icond, bne, beq_eq_decide]

/-- Settles O4: the model's condition is that of its code. -/
theorem integerCompare : Obligations.IntegerCompare := by
  unfold Obligations.IntegerCompare
  intro w s e h hc
  exact (GivesK.of_putK h (i := .icmp w) rfl rfl).congr fun l _ => (icond_eq hc _ _).symm

/-! ### Shifts, logic and moves (R149 to R155) -/

/-- Settles O5: the model's shifts are those of bit vectors of the type's width. -/
theorem shifts : Obligations.Shifts := by
  unfold Obligations.Shifts
  intro w s e h
  refine ⟨?_, ?_, ?_, ?_⟩
  · exact (GivesD.of_elems h (i := .shl w) rfl rfl).congr fun l _ => (shl_bv _ _ _ (a_lt e _ l)).symm
  · exact (GivesD.of_elems h (i := .shr w) rfl rfl).congr fun l _ => (shr_bv _ _ _ (a_lt e _ l)).symm
  · exact (GivesD.of_elems h (i := .sar w) rfl rfl).congr fun l _ => (sar_bv _ _ _ (tyBits_pos _)).symm
  · exact (GivesD.of_elems h (i := .rot w) rfl rfl).congr fun l _ => (rot_bv _ _ _ (a_lt e _ l)).symm

/-- The complement in n bits, bit by bit (R150). -/
theorem testBit_complement {n a : Nat} (ha : a < 2 ^ n) (m : Nat) :
    (2 ^ n - 1 - a).testBit m = (decide (m < n) && !a.testBit m) := by
  rw [Nat.sub_sub, Nat.add_comm 1, Nat.testBit_two_pow_sub_succ ha]

/-- Settles O6, bit by bit. -/
theorem logic : Obligations.Logic := by
  unfold Obligations.Logic
  intro w s e h
  refine ⟨⟨_, GivesD.of_elems h rfl rfl, fun l _ m => Nat.testBit_and _ _ _⟩,
    ⟨_, GivesD.of_elems h rfl rfl, fun l _ m => Nat.testBit_or _ _ _⟩,
    ⟨_, GivesD.of_elems h rfl rfl, fun l _ m => Nat.testBit_xor _ _ _⟩,
    ⟨_, GivesD.of_elems h rfl rfl, fun l _ m => ?_⟩, GivesD.of_elems h rfl rfl, fun t ht => ?_⟩
  · exact testBit_complement (a_lt e _ l) m
  · subst ht
    exact ⟨_, GivesD.of_elems h rfl rfl, fun l _ m hm => by rw [lop3_bit, decide_eq_true hm, Bool.true_and]⟩

/-- MOVI's constant: 16 bits, sign-extended in a signed type (R154). -/
theorem moviVal_spec (t : Ty) (b c : Nat) : if tySigned t ∧ 16 ≤ tyBits t
    then intVal t (moviVal t b c) = toSigned 16 (256 * b + c) else tySigned t = false → moviVal t b c = 256 * b + c := by
  split
  · rename_i ht
    obtain ⟨hmin, hmax⟩ := toSigned_16_range ht (256 * b + c)
    simp only [moviVal, ht.1, if_true]
    exact intVal_wrap t hmin hmax
  · intro hu
    simp [moviVal, hu]

/-- Settles O7: SEL by its mask bit, MOVI by its constant, the others by fitting their exact results. -/
theorem moves : Obligations.Moves := by
  unfold Obligations.Moves
  intro w s e h
  exact ⟨GivesD.of_elems h rfl rfl, ⟨_, GivesD.of_elems h rfl rfl, fun _ => moviVal_spec _ _ _⟩, givesInt_of h rfl rfl,
    givesInt_of h rfl rfl, givesInt_of h rfl rfl⟩

end Sys2Proof.Arithmetic
end

section
/-! Proofs of family 05: mask registers and bits (R111, R114, R156 to R161). -/

open Sys2Proof Sys2Proof.Machine
namespace Sys2Proof.Arithmetic

/-! ### Registers -/

theorem velem_of_v {v w : Wave} (h : w.v = v.v) (n i : Nat) : w.velem n i = v.velem n i := by rw [Wave.velem, h, Wave.velem]
theorem selem_of_s {v w : Wave} (h : w.s = v.s) (n : Nat) : w.selem n = v.selem n := by rw [Wave.selem, h, Wave.selem]
theorem kelem_of_k {v w : Wave} (h : w.k = v.k) (n : Nat) : w.kelem n = v.kelem n := by rw [Wave.kelem, h, Wave.kelem]

/-! ### Mask registers (R156 to R159) -/

/-- KOP's functions are given by their truth tables (R157). -/
theorem kopVal_table {c : Nat} (hc : c ≤ 7) (a b : Bool) :
    kopVal c a b = (([8, 14, 6, 4, 13, 7, 1, 9] : List Nat).getD c 0).testBit (2 * ofBool a + ofBool b) := by
  interval_cases c <;> cases a <;> cases b <;> rfl

/-- KMOV.fromw completes and writes at most kD; what it writes there is one word of the mask, where the mask has such a word
(R111, R158). -/
theorem kmovFromw_completes {w : Fields} {s : State} {e : Env} (h : Issues w s e) :
    ∃ s' w', exec (.kmovFromw w) e.s = .next s' ∧ Completes e e.s e.wv s' w' ∧ ∀ n, w'.kelem n =
      if e.b .n32 0 < e.wv.maskWords ∧ e.w.d.toNat ≠ 0 ∧ n = e.w.d.toNat
      then setMaskWord (e.wv.kelem n) (e.b .n32 0) (e.a .b32 0) &&& fullMask e.wv.width else e.wv.kelem n := by
  by_cases hj : e.b .n32 0 < e.wv.maskWords
  · obtain ⟨s', w', hexec, hcomp, -, -, hk, -, -⟩ := word_done h (i := .kmovFromw w) rfl (if_neg (Nat.not_le.2 hj)) rfl rfl rfl
      (fpTrap_nil _ _) rfl
    refine ⟨s', w', hexec, hcomp, fun n => ?_⟩
    have hreg : w'.kelem n = (e.wv.write (.k e.w.d.toNat (setMaskWord (e.wv.kelem e.w.d.toNat) (e.b .n32 0) (e.a .b32 0)))).kelem n :=
      kelem_of_k hk n
    rw [hreg, Wave.kelem_write_k]
    by_cases hn : n = e.w.d.toNat
    · simp [hj, hn]
    · simp [hn]
  · obtain ⟨s', w', hexec, hcomp, -, -, hk, -, -⟩ := word_done h (i := .kmovFromw w) rfl (if_pos (Nat.not_lt.1 hj)) rfl rfl rfl
      (fpTrap_nil _ _) rfl
    refine ⟨s', w', hexec, hcomp, fun n => ?_⟩
    rw [if_neg fun ⟨hlt, _⟩ => hj hlt]
    exact kelem_of_k hk n

/-- Settles O8: the words that write kD by their bits, those that read a mask by the active lanes that it picks. -/
theorem maskWords : Obligations.MaskWords := by
  unfold Obligations.MaskWords
  intro w s e h
  have hsorted : e.picked.Pairwise (· < ·) := h.facts.lanes_sorted.filter _
  refine ⟨fun hc => ?_, GivesK.of_putK h rfl rfl, ?_, GivesK.of_putK h rfl rfl, GivesK.of_putK h rfl rfl, GivesK.of_putK h rfl rfl,
    ⟨GivesD.of_elems h rfl rfl, ?_, GivesS.of_putS h rfl rfl, fun hnone => ?_, fun l hl hleast => ?_, fun l hl hlast => ?_⟩, ?_⟩
  · exact (GivesK.of_putK h (i := .kop w) rfl rfl).congr fun l _ => (kopVal_table hc _ _).symm
  · exact (GivesK.of_putK h (i := .kmovFromv w) rfl rfl).congr fun l _ => by simp [bne, beq_eq_decide]
  · simp only [← Nat.not_le, ite_not]
    exact GivesS.of_putS h rfl rfl
  · have hpicked : e.picked = [] := hnone
    have hfirst := GivesS.of_putS h (i := .kfindFirst w) rfl rfl
    have hlast := GivesS.of_putS h (i := .kfindLast w) rfl rfl
    rw [hpicked] at hfirst hlast
    exact ⟨hfirst, hlast⟩
  · have hfirst := GivesS.of_putS h (i := .kfindFirst w) rfl rfl
    rwa [headD_least hsorted hl hleast] at hfirst
  · have hfound := GivesS.of_putS h (i := .kfindLast w) rfl rfl
    rwa [lastD_greatest hsorted hl hlast] at hfound
  · obtain ⟨s', w', hexec, hcomp, hk⟩ := kmovFromw_completes h
    refine ⟨s', w', hexec, hcomp, fun n hn => ?_, fun hd hj l hl => ?_, fun hj => ?_⟩
    · rw [hk, if_neg fun ⟨_, _, heq⟩ => hn heq]
    · have hd0 : e.w.d.toNat ≠ 0 := fun h0 => hd (BitVec.eq_of_toNat_eq h0)
      rw [hk, if_pos ⟨hj, hd0, rfl⟩, BitVec.getLsbD_and, setMaskWord_bit _ _ _ hl, getLsbD_fullMask _ _ hl]
    · rw [hk, if_neg fun ⟨hlt, _⟩ => Nat.not_le.2 hlt hj]

/-! ### Bits (R160, R161) -/

/-- CTZ counts the zeros below the lowest 1 bit (R160). -/
theorem ctz_spec {n x : Nat} (hx : x < 2 ^ n) : if x = 0 then ctzFrom n 0 x = n
    else x.testBit (ctzFrom n 0 x) ∧ ∀ m, m < ctzFrom n 0 x → x.testBit m = false := by
  have hctz := ctzFrom_spec n 0 x hx
  simp only [Nat.zero_add] at hctz
  split at hctz
  · rename_i h0
    rwa [if_pos h0]
  · rename_i h0
    obtain ⟨p, rfl, hp⟩ := hctz
    rwa [if_neg h0]

/-- FNS finds the 1 bit that has b 1 bits below it, or all ones (R160). -/
theorem fns_spec (n x b : Nat) :
    ((fnsFrom n 0 x b).getD (2 ^ n - 1) = 2 ^ n - 1 ∧ ((List.range n).filter fun m => x.testBit m).length ≤ b) ∨
    ((fnsFrom n 0 x b).getD (2 ^ n - 1) < n ∧ x.testBit ((fnsFrom n 0 x b).getD (2 ^ n - 1)) ∧
      ((List.range ((fnsFrom n 0 x b).getD (2 ^ n - 1))).filter fun m => x.testBit m).length = b) := by
  have hfns := fnsFrom_spec n 0 x b
  cases hr : fnsFrom n 0 x b with
  | none =>
    rw [hr] at hfns
    exact Or.inl ⟨rfl, hfns⟩
  | some r =>
    rw [hr] at hfns
    obtain ⟨p, hrp, hp⟩ := hfns
    obtain rfl : r = p := by omega
    exact Or.inr hp

/-- Settles O9: each word by the law of its value. -/
theorem bitWords : Obligations.BitWords := by
  unfold Obligations.BitWords
  intro w s e h n
  have ha : ∀ l, e.a e.ty l < 2 ^ n := a_lt e e.ty
  exact ⟨⟨_, GivesD.of_elems h rfl rfl, fun _ => popCount_filter _ _⟩,
    ⟨_, GivesD.of_elems h rfl rfl, fun l => clzVal_spec _ _ (ha l)⟩,
    ⟨_, GivesD.of_elems h rfl rfl, fun l => ctz_spec (ha l)⟩,
    ⟨_, GivesD.of_elems h rfl rfl, fun _ => fns_spec _ _ _⟩,
    ⟨_, GivesD.of_elems h rfl rfl, fun _ => ⟨revBits_lt _ _, fun m hm => revBits_bit _ _ m hm⟩⟩,
    ⟨_, GivesD.of_elems h rfl rfl, fun l => ⟨bfxVal_lt _ _ _ _ _, fun m hm => bfxVal_bit _ _ _ _ _ m (ha l) hm⟩⟩,
    ⟨_, GivesD.of_elems h rfl rfl, fun l => ⟨bfiVal_lt _ _ _ _ (ha l), fun m hm => bfiVal_bit _ _ _ _ m hm⟩⟩,
    ⟨_, GivesD.of_elems h rfl rfl, fun _ => ⟨bmskVal_lt _ _ _, fun m hm => bmskVal_bit _ _ _ m hm⟩⟩⟩

end Sys2Proof.Arithmetic
end

section
/-! Proofs of family 05: lanes of a segment (R182 to R191). -/

open Sys2Proof Sys2Proof.Machine
namespace Sys2Proof.Arithmetic

/-- The active lanes of a lane's own segment. -/
def segOf (e : Env) (l : Nat) : List Nat := e.segLanes (e.segBase l)

theorem mem_segOf {e : Env} {l j : Nat} : j ∈ segOf e l ↔ j ∈ e.lanes ∧ e.segBase j = e.segBase l := by
  simp [segOf, Env.segLanes]

theorem self_mem_segOf {e : Env} {l : Nat} (hl : l ∈ e.lanes) : l ∈ segOf e l := mem_segOf.2 ⟨hl, rfl⟩

/-- With no late result of another fragment, SHFL and BCST read A as every word does (R183). -/
theorem held_of_none_late {e : Env} (hown : ∀ p ∈ e.wv.pending, p.frag = e.fr) : e.held e.ty = e.a e.ty := by
  have hlate : (e.wv.pending.filter fun p => p.frag != e.fr) = [] := by
    rw [List.filter_eq_nil_iff]
    intro p hp
    simp [hown p hp]
  funext l
  simp only [Env.held, hlate]
  rfl

/-- A list whose values equal its first has equal values throughout. -/
theorem all_eq_headD_iff (l : List Nat) (d : Nat) : (∀ x ∈ l, x = l.headD d) ↔ ∀ x ∈ l, ∀ y ∈ l, x = y := by
  refine ⟨fun hall x hx y hy => (hall x hx).trans (hall y hy).symm, fun hall x hx => hall x hx _ ?_⟩
  cases l with
  | nil => simp at hx
  | cons a as => simp

/-- VOTE's modes: any, all, uniform (R186). -/
theorem voteVal_eq {mode : Nat} (hmode : mode ≤ 2) (seg : List Nat) (a : Nat → Nat) : voteVal mode (seg.map a) =
    decide ((mode = 0 ∧ ∃ j ∈ seg, a j ≠ 0) ∨ (mode = 1 ∧ ∀ j ∈ seg, a j ≠ 0) ∨
      (mode = 2 ∧ ∀ j ∈ seg, ∀ k ∈ seg, a j = a k)) := by
  rw [Bool.eq_iff_iff]
  obtain rfl | rfl | rfl : mode = 0 ∨ mode = 1 ∨ mode = 2 := by omega
  · simp [voteVal]
  · simp [voteVal]
  · have huniform := all_eq_headD_iff (seg.map a) 0
    simp only [List.forall_mem_map] at huniform
    simpa [voteVal] using huniform

/-- What a segment's vote is found to be in a lane of it. -/
theorem contains_segs_map {e : Env} {l : Nat} (hl : l ∈ e.lanes) (g : Nat → Bool) :
    (e.segs.map fun b => (b, g b)).contains (e.segBase l, true) = g (e.segBase l) := by
  have hseg : e.segBase l ∈ e.segs := mem_dedup.2 (List.mem_map_of_mem hl)
  rw [Bool.eq_iff_iff, List.contains_iff_mem, List.mem_map]
  refine ⟨fun ⟨b, _, hb⟩ => ?_, fun hg => ⟨_, hseg, by rw [hg]⟩⟩
  obtain ⟨rfl, hg⟩ := Prod.mk.inj hb
  exact hg

/-- Position `p` of a segment is one lane. -/
theorem segBase_pos_iff {e : Env} {l j p : Nat} (hc : 0 < e.wv.cross) :
    (e.segBase j = e.segBase l ∧ e.pos j = p) ↔ p < e.wv.cross ∧ j = l / e.wv.cross * e.wv.cross + p := by
  unfold Env.segBase Env.pos
  constructor
  · rintro ⟨hbase, rfl⟩
    exact ⟨Nat.mod_lt _ hc, by rw [← hbase, Nat.mul_comm, Nat.div_add_mod]⟩
  · rintro ⟨hp, rfl⟩
    rw [Nat.add_comm, Nat.add_mul_div_right _ _ hc, Nat.add_mul_mod_self_right, Nat.div_eq_of_lt hp, Nat.zero_add]
    exact ⟨rfl, Nat.mod_eq_of_lt hp⟩

/-- MATCH sets the positions of the lane's segment that hold the lane's value (R189). -/
theorem match_bit {e : Env} (hsorted : e.lanes.Pairwise (· < ·)) (a : Nat → Nat) (l p : Nat) (hc : 0 < e.wv.cross) :
    (((segOf e l).filter fun j => a j == a l).foldl (fun m j => m + 2 ^ e.pos j) 0).testBit p =
      decide (p < e.wv.cross ∧ l / e.wv.cross * e.wv.cross + p ∈ e.lanes ∧ a (l / e.wv.cross * e.wv.cross + p) = a l) := by
  have hdistinct : ((segOf e l).filter fun j => a j == a l).Pairwise fun i j => e.pos i ≠ e.pos j := by
    refine ((hsorted.filter _).filter _).imp_of_mem fun {i j} hi hj hlt hpos => ?_
    have hbi := (mem_segOf.1 (List.mem_filter.1 hi).1).2
    have hbj := (mem_segOf.1 (List.mem_filter.1 hj).1).2
    have h1 := ((segBase_pos_iff hc).1 ⟨hbi, hpos⟩).2
    have h2 := ((segBase_pos_iff hc).1 ⟨hbj, rfl⟩).2
    omega
  rw [foldl_pow_bit e.pos _ 0 p hdistinct fun _ _ => Nat.zero_testBit _, Nat.zero_testBit, Bool.false_or, decide_eq_decide]
  simp only [List.mem_filter, mem_segOf, beq_iff_eq]
  constructor
  · rintro ⟨j, ⟨⟨hj, hbase⟩, hval⟩, hpos⟩
    obtain ⟨hp, rfl⟩ := (segBase_pos_iff hc).1 ⟨hbase, hpos⟩
    exact ⟨hp, hj, hval⟩
  · rintro ⟨hp, hj, hval⟩
    obtain ⟨hbase, hpos⟩ := (segBase_pos_iff (e := e) hc).2 ⟨hp, rfl⟩
    exact ⟨_, ⟨⟨hj, hbase⟩, hval⟩, hpos⟩

/-- The four modes of SHFL (R184). -/
theorem shflPos_eq (mode c p b : Nat) : shflPos mode c p b = if mode = 0 then b % c else if mode = 1 then (if b ≤ p then p - b else p)
    else if mode = 2 then (if p + b < c then p + b else p) else p ^^^ (b % c) := by
  match mode with
  | 0 => rfl
  | 1 => rfl
  | 2 => rfl
  | m + 3 => simp [shflPos]

/-- Settles O10: every word by what it sees of the lane's own segment. -/
theorem crossLane : Obligations.CrossLane := by
  unfold Obligations.CrossLane
  intro w s e h c seg late held
  have hsorted := h.facts.lanes_sorted
  refine ⟨held_of_none_late, ?_, GivesD.of_elems h rfl rfl, GivesD.of_elems h rfl rfl, fun hmode => ?_,
    ⟨_, GivesD.of_elems h rfl rfl, fun l p hc => match_bit hsorted (e.a e.ty) l p hc⟩, fun l hl hleast => ?_, fun hnone => ?_, ?_⟩
  · exact (GivesD.of_elems h (i := .shfl w) rfl rfl).congr fun l _ =>
      congrArg (fun p => held (l / c * c + p)) (shflPos_eq _ _ _ _).symm
  · refine (GivesK.of_putK h (i := .vote w) rfl rfl).congr fun l hl => ?_
    rw [contains_segs_map hl fun b => voteVal (e.f 3 0) ((e.segLanes b).map (e.a e.ty)), voteVal_eq hmode]
    rfl
  · have hactive : e.lanes.isEmpty = false := List.isEmpty_eq_false_iff.2 (List.ne_nil_of_mem hl)
    refine GivesS.of_putS h (i := .elect w) (lat := 6) rfl ?_
    rw [hactive, if_neg Bool.false_ne_true, Env.first, headD_least hsorted hl hleast]
  · refine GivesNothing.of_done' h (i := .elect w) (lat := 6) rfl ?_
    rw [hnone]
    rfl
  · refine (GivesK.of_putK h (i := .electK w) rfl rfl).congr fun l hl => ?_
    have hself : l ∈ segOf e l := self_mem_segOf hl
    change decide ((segOf e l).head? = some l) = ((segOf e l).headD 0 == l)
    cases hseg : segOf e l with
    | nil => simp [hseg] at hself
    | cons j js => simp [beq_eq_decide]

end Sys2Proof.Arithmetic
end

section
/-! Proofs of family 05: floating-point words (R142, R162 to R169). -/

open Sys2Proof Sys2Proof.Machine
namespace Sys2Proof.Arithmetic

/-! ### Arithmetic and functions (R142, R162, R167, R168) -/

/-- A packed type has the format of its elements (R142). -/
theorem fmtOf_elemTy (t : Ty) : fmtOf (elemTy t) = fmtOf t := by cases t <;> rfl

theorem fval_elemTy (t : Ty) : fval (elemTy t) = fval t := by
  funext x
  simp only [fval, fmtOf_elemTy]

/-- Settles O12: each word delivers the exact result of its own operation. -/
theorem floatArithmetic : Obligations.FloatArithmetic := by
  unfold Obligations.FloatArithmetic
  intro w s e h
  refine ⟨GivesF.of_felems h rfl rfl, GivesF.of_felems h rfl rfl, GivesF.of_felems h rfl rfl, ?_⟩
  refine (GivesF.of_felems h (i := .ffma w) rfl rfl).congr fun l => ?_
  simp only [ffmaVal, fmtOf_elemTy, fval_elemTy]

/-- Settles O13: each word delivers the model's own function of its operands. -/
theorem floatFunctions : Obligations.FloatFunctions := by
  unfold Obligations.FloatFunctions
  intro w s e h f a
  exact ⟨GivesF.of_felems h rfl rfl, GivesF.of_felems h rfl rfl, GivesF.of_felems h rfl rfl, GivesF.of_felems h rfl rfl,
    GivesF.of_felems h rfl rfl, GivesF.of_felems h rfl rfl, GivesF.of_felems h rfl rfl, GivesF.of_felems h rfl rfl⟩

/-! ### The lesser and the greater of two values (R163) -/

/-- Of two numbers FMIN and FMAX choose by one test: whether the first stands below the second. -/
theorem minMaxVal_numbers {a b : Val} (ha : ¬a.isNan) (hb : ¬b.isNan) :
    ∃ less : Bool, (∀ isMax, (minMaxVal isMax a b).1 = if less != isMax then a else b) ∧
      (less = true → NotAbove a b) ∧ (less = false → NotAbove b a) := by
  obtain ⟨hswap, hswap0⟩ := cmpVal_swap ha hb
  refine ⟨if cmpVal a b = 0 then a.sign && !b.sign else decide (cmpVal a b < 0), fun isMax => by simp [minMaxVal, ha, hb], ?_, ?_⟩
  · split
    · rename_i h0
      intro hless
      rw [Bool.and_eq_true] at hless
      exact Or.inr ⟨h0, Or.inl hless.1⟩
    · exact fun hless => Or.inl (of_decide_eq_true hless)
  · split
    · rename_i h0
      intro hless
      refine Or.inr ⟨hswap0.2 h0, ?_⟩
      cases hs : a.sign <;> simp [hs] at hless ⊢
      exact hless
    · rename_i h0
      intro hless
      have hle := of_decide_eq_false hless
      exact Or.inl (hswap.2 (by omega))

/-- The value that FMIN or FMAX chooses is the number of one operand where the other is a NaN, and else the first or the last in the
order of the numbers. -/
theorem minMaxVal_chosen (isMax : Bool) (a b : Val) :
    Chosen (fun x y => if isMax then NotAbove y x else NotAbove x y) a b (minMaxVal isMax a b).1 := by
  refine ⟨fun ha hb => by simp only [minMaxVal, ha, hb, if_true]; rfl, fun ha hb => by simp [minMaxVal, ha, hb],
    fun ha hb => by simp [minMaxVal, ha, hb], fun ha hb => ?_⟩
  obtain ⟨less, hval, habove, hbelow⟩ := minMaxVal_numbers ha hb
  have hA := notAbove_self ha
  have hB := notAbove_self hb
  rw [hval]
  cases less with
  | true => cases isMax <;> simp [hA, hB, habove rfl]
  | false => cases isMax <;> simp [hA, hB, hbelow rfl]

/-- FMIN and FMAX raise invalid for a signalling NaN and nothing else (R163). -/
theorem minMaxVal_flags (isMax : Bool) (a b : Val) : (minMaxVal isMax a b).2 = flagIf (a.isSnan || b.isSnan) flagNV := by
  unfold minMaxVal
  split
  · split <;> rfl
  · split <;> rfl

/-- The types of FMIN and FMAX have formats that hold every chosen operand exactly. -/
theorem fmtOf_minMax {t : Ty} (ht : t ∈ ([.f32, .f16, .bf16, .f16x2, .bf16x2] : List Ty)) :
    fmtOf t ∈ [fmtF32, fmtF16, fmtBF16] := by
  simp only [List.mem_cons, List.not_mem_nil, or_false] at ht
  rcases ht with rfl | rfl | rfl | rfl | rfl <;> simp [fmtOf]

/-- FMIN and FMAX deliver the chosen operand of each element, with the invalid exception alone. -/
theorem float2_minMax {t : Ty} (ht : t ∈ ([.f32, .f16, .bf16, .f16x2, .bf16x2] : List Ty)) (isMax : Bool) (x y : Nat) :
    float2 t .rne (minMaxVal isMax) x y = perElem t fun h =>
      ((roundVal (fmtOf t) .rne (minMaxVal isMax (fval t (h x)) (fval t (h y))).1).1,
        flagIf ((fval t (h x)).isSnan || (fval t (h y)).isSnan) flagNV) := by
  simp only [float2, fmtOf_elemTy, fval_elemTy]
  congr 1
  funext h
  have hexact := minMax_exact (fmtOf_minMax ht) isMax (h x) (h y)
  simp only [deliver, minMaxVal_flags]
  rw [← fval, ← fval] at hexact
  simp [hexact, noFlags]

/-- Settles O15 by the model's own choices. -/
theorem floatMinMax : Obligations.FloatMinMax := by
  unfold Obligations.FloatMinMax
  refine ⟨fun a b => (minMaxVal false a b).1, fun a b => (minMaxVal true a b).1, fun a b =>
    ⟨minMaxVal_chosen false a b, minMaxVal_chosen true a b⟩, ?_⟩
  intro w s e h op ht
  constructor
  · exact (GivesF.of_felems h (i := .fmin w) rfl rfl).congr fun l => (float2_minMax ht false _ _).symm
  · exact (GivesF.of_felems h (i := .fmax w) rfl rfl).congr fun l => (float2_minMax ht true _ _).symm

/-! ### Comparison and classes (R164, R165) -/

/-- The same bits and exceptions of another function that agrees. -/
theorem givesKF_congr {e : Env} {i : Instr} {f g : Nat → Bool × FFlags} (h : GivesKF e i f) (hfg : ∀ l, g l = f l) : GivesKF e i g :=
  (funext hfg : g = f) ▸ h

/-- The conditions of FCMP by their codes (R164). -/
theorem fcmp_eq {c : Nat} (hc : c ≤ 7) (a b : Val) :
    let un := a.isNan || b.isNan
    let order := cmpVal a b
    fcmp c a b = (decide ((c = 0 ∧ un = false ∧ order = 0) ∨ (c = 1 ∧ (un = true ∨ order ≠ 0)) ∨
        (c = 2 ∧ un = false ∧ order < 0) ∨ (c = 3 ∧ un = false ∧ order ≤ 0) ∨ (c = 4 ∧ un = false ∧ 0 < order) ∨
        (c = 5 ∧ un = false ∧ 0 ≤ order) ∨ (c = 6 ∧ un = true) ∨ (c = 7 ∧ un = false)),
      flagIf (if 2 ≤ c ∧ c ≤ 5 then un else a.isSnan || b.isSnan) flagNV) := by
  intro un order
  refine Prod.ext ?_ rfl
  change _ = decide _
  rw [Bool.eq_iff_iff]
  interval_cases c <;> simp [fcmp, un, order]

/-- A finite encoding has an exponent field of 0 just when its significand is below 2^fbits (R42). -/
theorem decode_subnormal_iff {f : Fmt} {x : Nat} {neg : Bool} {n d : Nat} {e : Int} (h : f.decode x = .num neg n d e) :
    bits x (f.ebits + f.fbits - 1) f.fbits = 0 ↔ n < 2 ^ f.fbits := by
  have hm : x % 2 ^ f.fbits < 2 ^ f.fbits := Nat.mod_lt _ (Nat.two_pow_pos _)
  unfold Fmt.decode at h
  simp only at h
  split_ifs at h with h1 h2 h3 h4
  · obtain ⟨-, rfl, -⟩ := Val.num.inj h
    simp [h4, hm]
  · obtain ⟨-, rfl, -⟩ := Val.num.inj h
    simp [h4]

/-- FCLASS gives the bit of the class of A (R165). -/
theorem fclass_eq (f : Fmt) (x : Nat) : fclass f x = 2 ^ (match f.decode x with
      | .inf neg => if neg then 0 else 7
      | .num neg n _ _ =>
        if n = 0 then if neg then 3 else 4
        else if n < 2 ^ f.fbits then if neg then 2 else 5
        else if neg then 1 else 6
      | .nan signalling => if signalling then 8 else 9) := by
  unfold fclass
  cases hd : f.decode x with
  | nan signalling => cases signalling <;> rfl
  | inf neg => cases neg <;> rfl
  | num neg n d e =>
    simp only [decode_subnormal_iff hd]
    cases neg <;> split_ifs <;> rfl

/-- Settles O16: FCMP by its code, FCLASS by the class of the value. -/
theorem floatCompare : Obligations.FloatCompare := by
  unfold Obligations.FloatCompare
  intro w s e h a b c
  have hc : c ≤ 7 := Nat.le_of_lt_succ (Nat.mod_lt _ (by decide))
  refine ⟨?_, fun ht => ?_⟩
  · exact givesKF_congr (GivesKF.of_putK h (i := .fcmp w) rfl rfl) fun l => (fcmp_eq hc (a l) (b l)).symm
  · have hwidth : tyBits e.ty = (fmtOf e.ty).width := by
      simp only [List.mem_cons, List.not_mem_nil, or_false] at ht
      rcases ht with ht | ht | ht <;> rw [ht] <;> rfl
    refine (GivesD.of_elems h (i := .fclass w) rfl rfl).congr fun l _ => ?_
    have hval : fval e.ty (e.a e.ty l) = (fmtOf e.ty).decode (e.a e.ty l) := by
      rw [fval, ← hwidth, Nat.mod_eq_of_lt (a_lt e _ l)]
    rw [hval]
    exact (fclass_eq _ _).symm

/-! ### Integral values and the parts of a float (R166, R169) -/

/-- FRND rounds a number to an integral value, and keeps infinities and NaNs (R166). -/
theorem frnd_eq (f : Fmt) (m : RM) (v : Val) : frnd f m v = match v with
    | .nan signalling => (f.nanCode, flagIf signalling flagNV)
    | .inf neg => (f.signed neg f.infCode, noFlags)
    | .num neg n d x => ((roundNum f m false neg (roundAt m neg n d x 0).1 1 0).1, noFlags) := by
  cases v <;> rfl

/-- FGETX's exponent as an i32 encoding (R169). -/
theorem wrap_fgetx (v : Val) : (wrap 32 (fgetx v).1, (fgetx v).2) = match v with
    | .nan _ => (2 ^ 31, flagNV)
    | .inf _ => (2 ^ 31 - 1, noFlags)
    | .num _ n d x => (if n = 0 then 2 ^ 31 else wrap 32 (log2Floor n d x), noFlags) := by
  cases v with
  | nan signalling => rfl
  | inf neg => rfl
  | num neg n d x =>
    by_cases h0 : n = 0
    · have hleast : wrap 32 (-2147483648) = 2 ^ 31 := rfl
      simp only [fgetx, h0, if_true, hleast]
    · simp only [fgetx, h0, if_false]

/-- Settles O17, by the cases of the operand. -/
theorem floatParts : Obligations.FloatParts := by
  unfold Obligations.FloatParts
  intro w s e h f
  refine ⟨?_, GivesF.of_felems h rfl rfl, ?_, GivesF.of_felems h rfl rfl⟩
  · exact (GivesF.of_felems h (i := .frnd w) rfl rfl).congr fun l => (frnd_eq _ _ _).symm
  · exact (GivesF.of_felems h (i := .fgetx w) rfl rfl).congr fun l => (wrap_fgetx _).symm

end Sys2Proof.Arithmetic
end

section
/-! Proofs of family 05: random draws (R178 to R180). -/

open Sys2Proof Sys2Proof.Machine
namespace Sys2Proof.Arithmetic

/-- The words of a draw, as RND writes them: four registers of one lane. -/
def drawWrites (d l : Nat) (x : W32 × W32 × W32 × W32) : List RegWrite :=
  [.v d l x.1, .v (d + 1) l x.2.1, .v (d + 2) l x.2.2.1, .v (d + 3) l x.2.2.2]

/-- Word `j` of a draw. -/
def drawWord (x : W32 × W32 × W32 × W32) (j : Nat) : W32 :=
  if j = 0 then x.1 else if j = 1 then x.2.1 else if j = 2 then x.2.2.1 else x.2.2.2

theorem velem_drawWrites (v : Wave) (d : Nat) (x : W32 × W32 × W32 × W32) {l n i : Nat} (hl : l < 1024) (hi : i < 1024) :
    (v.writes (drawWrites d l x)).velem n i = if i = l ∧ d ≤ n ∧ n < d + 4 then drawWord x (n - d) else v.velem n i := by
  simp only [drawWrites, Wave.writes_cons]
  by_cases hin : d ≤ n ∧ n < d + 4
  · obtain ⟨j, rfl⟩ : ∃ j, n = d + j := ⟨n - d, by omega⟩
    obtain rfl | rfl | rfl | rfl : j = 0 ∨ j = 1 ∨ j = 2 ∨ j = 3 := by omega
    all_goals simp [Wave.writes, Wave.velem_write_v, hl, hi, drawWord]
  · rw [if_neg (by tauto)]
    simp [Wave.writes, Wave.velem_write_v, hl, hi, show n ≠ d by omega, show n ≠ d + 1 by omega, show n ≠ d + 2 by omega,
      show n ≠ d + 3 by omega]

/-- Draws of several lanes: each lane gets the words of its own. -/
theorem velem_writes_draws (v : Wave) (d : Nat) (x : Nat → W32 × W32 × W32 × W32) (lanes : List Nat) {n i : Nat}
    (hl : ∀ l ∈ lanes, l < 1024) (hi : i < 1024) :
    (v.writes (lanes.flatMap fun l => drawWrites d l (x l))).velem n i =
      if i ∈ lanes ∧ d ≤ n ∧ n < d + 4 then drawWord (x i) (n - d) else v.velem n i := by
  induction lanes generalizing v with
  | nil => simp [Wave.writes]
  | cons l ls ih =>
    rw [List.flatMap_cons, Wave.writes_append, ih _ fun a ha => hl a (List.mem_cons_of_mem _ ha),
      velem_drawWrites v d (x l) (hl l List.mem_cons_self) hi]
    by_cases hin : d ≤ n ∧ n < d + 4
    · by_cases hil : i = l
      · simp [hin, hil]
      · simp [hin, hil]
    · simp [hin]

/-- Draws leave scalars and masks alone. -/
theorem writes_draws_rest (v : Wave) (d : Nat) (x : Nat → W32 × W32 × W32 × W32) (lanes : List Nat) (n : Nat) :
    (v.writes (lanes.flatMap fun l => drawWrites d l (x l))).selem n = v.selem n ∧
    (v.writes (lanes.flatMap fun l => drawWrites d l (x l))).kelem n = v.kelem n := by
  induction lanes generalizing v with
  | nil => exact ⟨rfl, rfl⟩
  | cons l ls ih =>
    rw [List.flatMap_cons, Wave.writes_append]
    obtain ⟨hs, hk⟩ := ih (v.writes (drawWrites d l (x l)))
    rw [hs, hk]
    simp [drawWrites, Wave.writes]

/-- The draw counts after a draw of each active lane. -/
def countDraws (t : Tbl W32) (lanes : List Nat) (f : Nat → W32) : Tbl W32 := lanes.foldl (fun t i => Tbl.set 0 t i (f i)) t

theorem get_countDraws (t : Tbl W32) (lanes : List Nat) (f : Nat → W32) (l : Nat) :
    Tbl.get (countDraws t lanes f) l 0 = if l ∈ lanes then f l else Tbl.get t l 0 := by
  unfold countDraws
  induction lanes generalizing t with
  | nil => simp
  | cons i is ih =>
    rw [List.foldl_cons, ih, Tbl.get_set]
    by_cases hli : l = i
    · simp [hli]
    · simp [hli]

/-- The words that RND draws for a lane (R178, R179). -/
def drawOf (e : Env) (l : Nat) : W32 × W32 × W32 × W32 :=
  thresh (drawKey e.s e.wid e.wv).1 (BitVec.ofNat 32 e.wv.lid) (drawKey e.s e.wid e.wv).2
    (BitVec.ofNat 32 (e.wv.waveIdx * 1024 + l)) (Tbl.get e.wv.draw l 0)

/-- RND's meaning: it waits for an SMPL that has still to draw, or counts and writes the draws of the active lanes (R180). -/
theorem execRnd_eq (w : Fields) (s : State) : exec (.rnd w) s = onWord w s fun e =>
    if e.s.drawing e.wid then .wait e.s .allResults else .done {
      s := e.s.modWave e.wid fun v => { v with draw := countDraws v.draw e.lanes fun l => Tbl.get e.wv.draw l 0 + 1 }
      ws := e.lanes.flatMap fun l => drawWrites e.w.d.toNat l (drawOf e l), lat := 8 } := by
  have hexec : exec (.rnd w) s = execRnd w s := rfl
  have hwords : ∀ d l x, drawWrites d l x = match x with
    | (x0, x1, x2, x3) => [.v d l x0, .v (d + 1) l x1, .v (d + 2) l x2, .v (d + 3) l x3] := fun _ _ _ => rfl
  rw [hexec, execRnd]
  refine congrArg (onWord w s) (funext fun e => if_congr Iff.rfl rfl ?_)
  unfold drawOf
  generalize drawKey e.s e.wid e.wv = key
  simp only [hwords]
  rfl

/-- The wave with its draws counted (R180). -/
def drawnWave (e : Env) : Wave := { e.wv with draw := countDraws e.wv.draw e.lanes fun l => Tbl.get e.wv.draw l 0 + 1 }

/-- RND completes: the draws are counted, and four registers of each active lane take its words. -/
theorem rnd_completes {w : Fields} {s : State} {e : Env} (h : Issues w s e) (hready : e.s.drawing e.wid = false) :
    ∃ s' w', exec (.rnd w) e.s = .next s' ∧ Completes e (e.s.modWave e.wid fun _ => drawnWave e) (drawnWave e) s' w' ∧
      w'.fpflags = e.wv.fpflags ∧
      (∀ n l, l < 1024 → w'.velem n l = if l ∈ e.lanes ∧ e.w.d.toNat ≤ n ∧ n < e.w.d.toNat + 4
        then drawWord (drawOf e l) (n - e.w.d.toNat) else e.wv.velem n l) ∧
      ∀ n, w'.selem n = e.wv.selem n ∧ w'.kelem n = e.wv.kelem n := by
  have F := h.facts
  obtain ⟨s', w', hexec, hcomp, hv, hs, hk, hfl, -⟩ := effect_done h (v := drawnWave e) (execRnd_eq w s)
    (if_neg (by simp [hready])) h.alone (State.wave_modWave_of h.wave) F.frag rfl rfl (fpTrap_nil _ _) rfl
  rw [State.modWave_congr (g := fun _ => drawnWave e) h.wave rfl] at hcomp
  refine ⟨s', w', hexec, hcomp, ?_, fun n l hl => ?_, fun n => ?_⟩
  · simpa [fpflagsAfter, mergeFlags, noFlags, drawnWave] using hfl
  · rw [velem_of_v hv, velem_writes_draws _ _ _ _ F.lane_lt hl]
    rfl
  · obtain ⟨hrest_s, hrest_k⟩ := writes_draws_rest (drawnWave e) e.w.d.toNat (drawOf e) e.lanes n
    exact ⟨(selem_of_s hs n).trans hrest_s, (kelem_of_k hk n).trans hrest_k⟩

/-- Settles O32. The draws stay closed: what Thresh computes plays no part in where its words go. -/
theorem randomDraws : Obligations.RandomDraws := by
  unfold Obligations.RandomDraws
  intro w s e h hready hd draw key x part
  have hx : x = drawOf e := rfl
  clear_value x
  subst hx
  obtain ⟨s', w', hexec, hcomp, hfl, hv, hsk⟩ := rnd_completes h hready
  exact ⟨s', drawnWave e, w', hexec, hcomp, rfl, hfl, get_countDraws _ _ _, hv, fun n => (hsk n).1, fun n => (hsk n).2⟩

end Sys2Proof.Arithmetic
end

section
/-! Proofs of family 05: pairs (R95 to R98, R143, R192, R193). -/

open Sys2Proof Sys2Proof.Machine
namespace Sys2Proof.Arithmetic

/-- The fields that a pair word has for its environment. -/
def bareFields : Fields := { ext := none, la := 0, k := 0, kn := false, d := 0, a := 0, b := 0, c := 0, f := 0 }

/-- The halves that compute: all but PNOP. -/
def working (l : List (Half × HalfShape)) : List (Half × HalfShape) := l.filter fun p => p.2.usesA

/-- The register that a half names in D. -/
def halfReg (h : Half) : RegId := if h.d.toNat < 0x80 then .v h.d.toNat else .s (h.d.toNat - 0x80)

/-! ### Exceptions -/

/-- The exceptions of a lane: those of the halves that compute. -/
def pairFlags (e : Env) (l : List (Half × HalfShape)) (i : Nat) : FFlags :=
  mergeFlags ((working l).map fun p => (halfAt e p.1 p.2 i).2)

/-- What a half contributes to a lane's exceptions. -/
theorem filter_half_flags {lanes : List Nat} (hn : lanes.Nodup) {i : Nat} (hi : i ∈ lanes) (u : Bool) (f : Nat → FFlags) :
    (((if u then lanes.map fun j => (j, f j) else []).filter fun p => p.1 == i).map (·.2)) = if u then [f i] else [] := by
  cases u with
  | true => simp only [if_true, filter_lane hn hi, List.map_cons, List.map_nil]
  | false => rfl

/-- The exceptions of a pair, lane by lane: those of the halves that compute (R250). -/
theorem zipFlags_working {e : Env} (hn : e.lanes.Nodup) (x y : Half × HalfShape) :
    zipFlags (if x.2.usesA then e.lanes.map fun i => (i, (halfAt e x.1 x.2 i).2) else [])
      (if y.2.usesA then e.lanes.map fun i => (i, (halfAt e y.1 y.2 i).2) else []) e.lanes =
    e.lanes.map fun i => (i, pairFlags e [x, y] i) := by
  unfold zipFlags
  refine List.map_congr_left fun i hi => ?_
  rw [List.filter_append, List.map_append, filter_half_flags hn hi, filter_half_flags hn hi]
  cases hx : x.2.usesA <;> cases hy : y.2.usesA <;> simp [pairFlags, working, hx, hy]

/-! ### Registers -/

/-- What the writes of a half leave, PNOP among them. -/
theorem halfPuts_does {e : Env} {p : Half × HalfShape} (hs : tyBits p.2.dt = 32) (hl : ∀ i ∈ e.lanes, i < 1024) (v : Wave) :
    (∀ n l, l < 1024 → (v.writes (halfPuts e p)).velem n l =
      if p.2.usesA ∧ n = p.1.d.toNat ∧ p.1.d.toNat < 0x80 ∧ l ∈ e.lanes
      then BitVec.ofNat 32 (halfAt e p.1 p.2 l).1 else v.velem n l) ∧
    (∀ n, (v.writes (halfPuts e p)).selem n = if p.2.usesA ∧ n + 0x80 = p.1.d.toNat ∧ e.lanes ≠ []
      then BitVec.ofNat 64 (place64 p.2.dt (halfAt e p.1 p.2 (e.lanes.headD 0)).1) else v.selem n) ∧
    ∀ n, (v.writes (halfPuts e p)).kelem n = v.kelem n := by
  unfold halfPuts
  cases hu : p.2.usesA with
  | true => simpa using halfSets_does p.1 hs hl v
  | false => simp [Wave.writes]

/-- A register that neither half names, and every mask, keeps its value. -/
theorem pair_keeps {e : Env} {x y : Half × HalfShape} (hx : tyBits x.2.dt = 32) (hy : tyBits y.2.dt = 32)
    (hl : ∀ i ∈ e.lanes, i < 1024) (v : Wave) :
    (∀ n l, l < 1024 → (∀ p ∈ working [x, y], n ≠ p.1.d.toNat) →
      (v.writes (halfPuts e x ++ halfPuts e y)).velem n l = v.velem n l) ∧
    (∀ n, (∀ p ∈ working [x, y], n + 0x80 ≠ p.1.d.toNat) →
      (v.writes (halfPuts e x ++ halfPuts e y)).selem n = v.selem n) ∧
    ∀ n, (v.writes (halfPuts e x ++ halfPuts e y)).kelem n = v.kelem n := by
  have hmem : ∀ p ∈ [x, y], p.2.usesA = true → p ∈ working [x, y] := fun p hp hu => List.mem_filter.2 ⟨hp, hu⟩
  rw [Wave.writes_append]
  obtain ⟨hvx, hsx, hkx⟩ := halfPuts_does hx hl v
  obtain ⟨hvy, hsy, hky⟩ := halfPuts_does hy hl (v.writes (halfPuts e x))
  refine ⟨fun n l hll hno => ?_, fun n hno => ?_, fun n => (hky n).trans (hkx n)⟩
  · rw [hvy n l hll, if_neg fun ⟨hu, heq, _⟩ => hno y (hmem y (by simp) hu) heq, hvx n l hll,
      if_neg fun ⟨hu, heq, _⟩ => hno x (hmem x (by simp) hu) heq]
  · rw [hsy n, if_neg fun ⟨hu, heq, _⟩ => hno y (hmem y (by simp) hu) heq, hsx n,
      if_neg fun ⟨hu, heq, _⟩ => hno x (hmem x (by simp) hu) heq]

/-- Halves with destinations of their own each write it (R98, R192). -/
theorem pair_writes {e : Env} {x y : Half × HalfShape} (hx : tyBits x.2.dt = 32) (hy : tyBits y.2.dt = 32)
    (hl : ∀ i ∈ e.lanes, i < 1024) (hd : x.2.usesA = true → y.2.usesA = true → x.1.d ≠ y.1.d) (v : Wave) :
    ∀ p ∈ working [x, y],
      (p.1.d.toNat < 0x80 → ∀ l, l < 1024 → (v.writes (halfPuts e x ++ halfPuts e y)).velem p.1.d.toNat l =
        if l ∈ e.lanes then BitVec.ofNat 32 (halfAt e p.1 p.2 l).1 else v.velem p.1.d.toNat l) ∧
      (0x80 ≤ p.1.d.toNat → e.lanes ≠ [] → (v.writes (halfPuts e x ++ halfPuts e y)).selem (p.1.d.toNat - 0x80) =
        BitVec.ofNat 64 (place64 p.2.dt (halfAt e p.1 p.2 (e.lanes.headD 0)).1)) := by
  intro p hp
  obtain ⟨hin, hu⟩ := List.mem_filter.1 hp
  rw [Wave.writes_append]
  obtain ⟨hvx, hsx, -⟩ := halfPuts_does hx hl v
  obtain ⟨hvy, hsy, -⟩ := halfPuts_does hy hl (v.writes (halfPuts e x))
  have hcases : p = x ∨ p = y := by simpa using hin
  rcases hcases with rfl | rfl
  · have hne : y.2.usesA = true → p.1.d.toNat ≠ y.1.d.toNat := fun huy heq => hd hu huy (BitVec.eq_of_toNat_eq heq)
    refine ⟨fun hd l hlt => ?_, fun hd hl0 => ?_⟩
    · rw [hvy _ _ hlt, if_neg fun ⟨huy, heq, _⟩ => hne huy heq, hvx _ _ hlt]
      simp [hu, hd]
    · rw [hsy, if_neg fun ⟨huy, heq, _⟩ => hne huy (by omega), hsx, if_pos ⟨hu, by omega, hl0⟩]
  · refine ⟨fun hd l hlt => ?_, fun hd hl0 => ?_⟩
    · rw [hvy _ _ hlt]
      by_cases hin : l ∈ e.lanes
      · simp [hu, hd, hin]
      · simp [hin, hvx _ _ hlt]
    · rw [hsy, if_pos ⟨hu, by omega, hl0⟩]

/-! ### Pending results (R143, R193) -/

/-- A half writes nothing just when it is a PNOP or no lane is active. -/
theorem halfPuts_isEmpty {e : Env} {p : Half × HalfShape} (hs : tyBits p.2.dt = 32) :
    (halfPuts e p).isEmpty = (e.lanes.isEmpty || !p.2.usesA) := by
  unfold halfPuts
  cases hu : p.2.usesA with
  | false => simp
  | true =>
    by_cases hl : e.lanes = []
    · simp [halfSets_none p.1 p.2 hl, hl]
    · simp [List.isEmpty_eq_false_iff.2 (halfSets_regs p.1 hs hl).1, List.isEmpty_eq_false_iff.2 hl]

/-- The registers and latencies of the halves that write: those that compute, where some lane is active. -/
def halfResults (e : Env) (l : List (Half × HalfShape)) : List (List RegId × Nat) :=
  if e.lanes.isEmpty then [] else (working l).map fun p => ([halfReg p.1], halfLat p.1.op7.toNat)

/-- What a half that writes leaves pending: its register, with the latency of its single form. -/
theorem half_result {e : Env} {p : Half × HalfShape} (hs : tyBits p.2.dt = 32) :
    (if (halfPuts e p).isEmpty then none else some (dedup ((halfPuts e p).map RegWrite.reg), halfLat p.1.op7.toNat)) =
      (halfResults e [p]).head? := by
  rw [halfPuts_isEmpty hs]
  by_cases hl : e.lanes = []
  · simp [halfResults, hl]
  · cases hu : p.2.usesA with
    | false => simp [halfResults, working, hu]
    | true => simp [halfResults, working, hu, hl, halfPuts, (halfSets_regs p.1 hs hl).2, halfReg]

/-- A pair word's results are those of its halves that write. -/
theorem pair_results {e : Env} {x y : Half × HalfShape} (hx : tyBits x.2.dt = 32) (hy : tyBits y.2.dt = 32) :
    ([(halfPuts e x, x.1), (halfPuts e y, y.1)].filterMap fun h : List RegWrite × Half =>
      if h.1.isEmpty then none else some (dedup (h.1.map RegWrite.reg), halfLat h.2.op7.toNat)) = halfResults e [x, y] := by
  simp only [List.filterMap_cons, List.filterMap_nil, half_result hx, half_result hy, halfResults, working]
  cases e.lanes.isEmpty <;> cases hux : x.2.usesA <;> cases huy : y.2.usesA <;> simp [hux, huy]

/-- A pair word without results writes nothing. -/
theorem pair_isEmpty {e : Env} {x y : Half × HalfShape} (hx : tyBits x.2.dt = 32) (hy : tyBits y.2.dt = 32) :
    (halfPuts e x ++ halfPuts e y).isEmpty = (halfResults e [x, y]).isEmpty := by
  rw [Bool.eq_iff_iff]
  simp only [List.isEmpty_iff, List.append_eq_nil_iff]
  simp only [← List.isEmpty_iff, halfPuts_isEmpty hx, halfPuts_isEmpty hy, halfResults, working]
  cases e.lanes.isEmpty <;> cases hux : x.2.usesA <;> cases huy : y.2.usesA <;> simp [hux, huy]

/-- What a word leaves pending whose results are listed by halves (R143, R193). -/
theorem pendingAfter_halves (e : Env) (l : List Pending) (d : Done) (hreq : d.req = none) (hlate : d.late = none)
    (hempty : d.ws.isEmpty = d.halves.isEmpty) : ∃ ps, e.pendingAfter l d = l ++ ps ∧
      ps.map (fun p => (p.frag, p.regs, p.due)) = d.halves.map fun h => (e.fr, h.1, e.s.cycOf e.wid + h.2) := by
  unfold Env.pendingAfter pendingsOf
  cases hh : d.halves with
  | nil => exact ⟨[], by simp [hempty, hh, hreq, hlate], rfl⟩
  | cons r rs =>
    refine ⟨_, if_neg (by simp [hempty, hh]), ?_⟩
    simp [pendingOf]

/-! ### The statement -/

/-- What a pair word leaves behind: the writes, exceptions and results of its halves. -/
def pairDone (e : Env) (x y : Half × HalfShape) (n : Nat) : Done :=
  { s := e.s, ws := halfPuts e x ++ halfPuts e y, fl := e.lanes.map fun i => (i, pairFlags e [x, y] i), dcode := n
    halves := halfResults e [x, y] }

/-- A pair word's meaning. -/
theorem pair_meaning {e : Env} (s : State) {x y : Half} {sx sy : HalfShape} (hx : halfShape x.op7.toNat = some sx)
    (hy : halfShape y.op7.toNat = some sy) (hn : e.lanes.Nodup) :
    ∃ body n, exec (.pairWord x y) s = onWord bareFields s body ∧ body e = .done (pairDone e (x, sx) (y, sy) n) := by
  have hresults := pair_results (e := e) (x := (x, sx)) (y := (y, sy)) (halfShape_bits hx) (halfShape_bits hy)
  have hflags := zipFlags_working hn (x, sx) (y, sy)
  refine ⟨_, if (trappedLanes e.wv (halfRun e x).2).1 != 0 then x.d.toNat else y.d.toNat, rfl, ?_⟩
  simp only [halfRun_puts hx, halfRun_puts hy, hflags, hresults, pairDone]

/-- Settles O48: a pair word completes with the writes and results of its halves, and a half's value is that of its single word. -/
theorem pairWords : Obligations.PairWords := by
  unfold Obligations.PairWords
  refine ⟨?_, ?_⟩
  · intro x y s e sx sy h hsx hsy val work flags lat reg hd _ hfree
    have F := h.facts
    have hx := halfShape_bits hsx
    have hy := halfShape_bits hsy
    obtain ⟨body, n, hexec, hbody⟩ := pair_meaning s hsx hsy (F.lanes_sorted.imp Nat.ne_of_lt)
    have hfp : fpTrap e.wv (pairDone e (x, sx) (y, sy) n).fl n = none := by
      refine fpTrap_none _ (Or.inr fun p hp => ?_)
      obtain ⟨i, hi, rfl⟩ := List.mem_map.1 hp
      exact hfree i hi
    obtain ⟨s', w', hnext, hcomp, hv, hs, hk, hfl, hp⟩ := word_done h hexec hbody rfl rfl rfl hfp rfl
    obtain ⟨ps, hpending, hps⟩ := pendingAfter_halves e e.wv.pending (pairDone e (x, sx) (y, sy) n) rfl rfl
      (pair_isEmpty (x := (x, sx)) (y := (y, sy)) hx hy)
    obtain ⟨hkeepv, hkeeps, hkeepk⟩ := pair_keeps (x := (x, sx)) (y := (y, sy)) hx hy F.lane_lt e.wv
    refine ⟨s', w', ps, hnext, hcomp, ?_, fun p hp => ?_, fun n l hl hno => (velem_of_v hv n l).trans (hkeepv n l hl hno),
      fun n hno => (selem_of_s hs n).trans (hkeeps n hno), fun n => (kelem_of_k hk n).trans (hkeepk n), hp.trans hpending, ?_⟩
    · rw [hfl, pairDone, List.map_map]
      rfl
    · obtain ⟨hvec, hscal⟩ := pair_writes (x := (x, sx)) (y := (y, sy)) hx hy F.lane_lt hd e.wv p hp
      exact ⟨fun hlow l hl => (velem_of_v hv _ l).trans (hvec hlow l hl), fun hhigh hl => (selem_of_s hs _).trans (hscal hhigh hl)⟩
    · rw [hps, pairDone]
      by_cases hl : e.lanes = []
      · rw [if_pos hl]
        simp [halfResults, hl]
      · rw [if_neg hl]
        simp only [halfResults, List.isEmpty_eq_false_iff.2 hl, Bool.false_eq_true, if_false, List.map_map]
        rfl
  · intro a b d i
    exact ⟨fits_fitInt _ _ _, fits_fitInt _ _ _, fits_fitInt _ _ _, fits_fitInt _ _ _, fits_fitInt _ _ _, fits_fitInt _ _ _,
      rfl, rfl, rfl, rfl, rfl, rfl, rfl, rfl, rfl, rfl, rfl, rfl, rfl, rfl, rfl, rfl, rfl, rfl, rfl, rfl, rfl, rfl, rfl, rfl, rfl⟩

end Sys2Proof.Arithmetic
end

section
/-! Proofs of family 06: traps and the words of time (R202 to R204, R238 to R242). -/

open Sys2Proof Sys2Proof.Machine
namespace Sys2Proof.Waves

/-- A word that raises no exception leaves FPFLAGS. -/
theorem fpflagsAfter_none (x : W64) : fpflagsAfter x (mergeFlags []) = x := by
  simp [fpflagsAfter, mergeFlags, noFlags]

/-! ### TRAP (R242) -/

/-- TRAP's meaning. -/
def trapBody (e : Env) : WRes :=
  .done { s := e.s, report := if e.act = 0 then none else some (reportRec cSOFT (e.w.f.setWidth 64) e.act) }

theorem exec_trap (w : Fields) (s : State) : exec (.trap w) s = onWord w s trapBody := rfl

/-- What a TRAP with active lanes leaves behind. -/
def softDone (e : Env) : Done := { s := e.s, report := some (reportRec cSOFT (e.w.f.setWidth 64) e.act) }

theorem trapBody_active {e : Env} (ha : e.act ≠ 0) : trapBody e = .done (softDone e) := by
  rw [trapBody, if_neg ha, softDone]

theorem trapBody_none {e : Env} (ha : e.act = 0) : trapBody e = .done { s := e.s } := by
  rw [trapBody, if_pos ha]

/-- In handler mode SOFT is not taken, and the word has completed. -/
theorem trap_ignored {w : Fields} {s : State} {e : Env} (h : Issues w s e) (hla : e.w.la = 0) (ha : e.act ≠ 0) {hd : Handler}
    (hh : e.wv.handler = some hd) (hfr : hd.frag = e.fr) : GivesNothing e (.trap w) := by
  obtain ⟨w', hc, hv, hs, hk, hfl, hp⟩ := completed_spec (e := e) (d := softDone e) h.wave h.facts.frag rfl
  refine ⟨_, w', ?_, hc, SameRegs.of_regs hv hs hk, hfl.trans (fpflagsAfter_none _), hp⟩
  exact report_ignored h (exec_trap w s) (trapBody_active ha) h.alone h.wave h.facts.frag rfl (.inr ⟨fpTrap_nil _ _, rfl⟩) rfl hla
    hh hfr rfl

/-- Settles O26: without lanes nothing is reported, in handler mode the report is dropped, and elsewhere it is taken. -/
theorem softTrap : Obligations.SoftTrap := by
  unfold Obligations.SoftTrap
  intro w s e h hla
  refine ⟨fun hno => ?_, fun ha hh ht => ?_⟩
  · by_cases ha : e.act = 0
    · exact GivesNothing.of_done h (exec_trap w s) (trapBody_none ha)
    · obtain ⟨hd, hh, hfr⟩ := hno.resolve_left ha
      exact trap_ignored h hla ha hh hfr
  · obtain ⟨s1, w1, s', w', hexec, hcomp, htraps, hv, hs, hk, hfl, hp⟩ := report_traps h (exec_trap w s) (trapBody_active ha) h.alone
      h.wave h.facts.frag rfl (.inr ⟨fpTrap_nil _ _, rfl⟩) rfl hla hh ht
    exact ⟨s1, w1, s', w', hexec, hcomp, SameRegs.of_regs hv hs hk, hfl.trans (fpflagsAfter_none _), hp, htraps⟩

/-! ### Double traps (R239, R240) -/

/-- The wave is frozen with cause DOUBLE and its launch is asked to be killed; the trap registers and the handler stay. -/
def Freezes (e : Env) (s' : State) (w' : Wave) : Prop :=
  s'.wave e.wid = some w' ∧ w'.frozen = some .double ∧
    w'.trappc = e.wv.trappc ∧ w'.trapcause = e.wv.trapcause ∧ w'.trapinfo = e.wv.trapinfo ∧ w'.trapaddr = e.wv.trapaddr ∧
    w'.trapfba = e.wv.trapfba ∧ w'.traplanes = e.wv.traplanes ∧ w'.handler = e.wv.handler ∧
    ∀ l, e.s.launch e.wv.lid = some l → ∃ l', s'.launch e.wv.lid = some l' ∧ l'.killReq = some (l.killReq.getD 0x18)

/-- A double trap freezes a wave of which only fragments, registers and pending results have changed. -/
theorem doubleTrap_freezes {e : Env} {t : State} {u : Wave} (hu : t.wave e.wid = some u)
    (hparts : u = { e.wv with v := u.v, s := u.s, k := u.k, fpflags := u.fpflags, pending := u.pending, frags := u.frags })
    (hlaunches : t.launches = e.s.launches) : ∃ w', Freezes e (t.doubleTrap e.wid) w' := by
  obtain ⟨hwave, hkill⟩ := doubleTrap_spec hu
  generalize u.v = v, u.s = s, u.k = k, u.fpflags = fp, u.pending = p, u.frags = fs at hparts
  subst hparts
  exact ⟨_, hwave, rfl, rfl, rfl, rfl, rfl, rfl, rfl, rfl, fun l hl => ⟨_, hkill l ((congrArg (Tbl.find · e.wv.lid) hlaunches).trans hl), rfl⟩⟩

/-- Settles O27: a TRAP without a handler's address, and an EXIT that is illegal in handler mode. -/
theorem doubleTrap : Obligations.DoubleTrap := by
  unfold Obligations.DoubleTrap
  intro w s e h hla ha Fr
  refine ⟨fun ⟨hh, ht⟩ => ?_, fun hd hh hfr => ?_⟩
  · obtain ⟨u, hc, -⟩ := completed_spec (e := e) (d := softDone e) h.wave h.facts.frag rfl
    obtain ⟨w', hfreeze⟩ := doubleTrap_freezes hc.wave (by rw [← hc.parts]) rfl
    refine ⟨_, w', ?_, hfreeze⟩
    exact report_double h (exec_trap w s) (trapBody_active ha) h.alone h.wave h.facts.frag rfl (.inr ⟨fpTrap_nil _ _, rfl⟩) rfl hla hh ht
  · have hb : exitBody e = e.illegal := by simp [exitBody, hh]
    obtain ⟨t, u, hexec, hu, hparts, hrest⟩ := fault_double h (exec_exit w s) hb hh hfr rfl
    have hlaunches : t.launches = e.s.launches := by rw [← hrest]
    obtain ⟨w', hfreeze⟩ := doubleTrap_freezes hu (by rw [← hparts]) hlaunches
    exact ⟨_, w', hexec, hfreeze⟩

/-! ### TRET (R241) -/

theorem exec_tret (w : Fields) (s : State) : exec (.tret w) s = onWord w s fun e => tretOp e false := rfl
theorem exec_tretSkip (w : Fields) (s : State) : exec (.tretSkip w) s = onWord w s fun e => tretOp e true := rfl

theorem tretOp_outside {e : Env} (hh : e.wv.handler = none) (skip : Bool) : tretOp e skip = e.illegal := by
  simp [tretOp, hh]

/-- In handler mode, with a TRAPPC that the trap wrote or that is a code address, the fragment returns. -/
theorem tretOp_returns {w : Fields} {s : State} {e : Env} (h : Issues w s e) {hd : Handler} {f : Frag} (skip : Bool)
    (hh : e.wv.handler = some hd) (hf : Tbl.find e.wv.frags hd.frag = some f) (hab : e.wv.aborting = none)
    (hheld : e.wv.heldTraps = []) (hpc : e.wv.trappc = hd.pc ∨ e.wv.trappc.toNat % 8 = 0) :
    tretOp e skip = .placed (e.s.modWave e.wid fun v => v.leaveHandler hd f skip) [] := by
  have hok : ¬(e.wv.trappc ≠ hd.pc ∧ e.wv.trappc.toNat % 8 ≠ 0) := fun ⟨hne, hodd⟩ => hpc.elim hne hodd
  simp only [tretOp, hh, if_neg hok, trapReturn_eq skip h.wave hh hf hab hheld]

/-- Settles O28: TRET outside handler mode is illegal; in it the fragment goes where `Wave.leaveHandler` says. -/
theorem trapReturn : Obligations.TrapReturn := by
  unfold Obligations.TrapReturn
  intro w s e h
  refine ⟨fun hh ht => ⟨?_, ?_⟩, fun hd f hh hf hab hheld i skip hi hpc => ?_⟩
  · exact faults_illegal h (exec_tret w s) (tretOp_outside hh false) hh ht
  · exact faults_illegal h (exec_tretSkip w s) (tretOp_outside hh true) hh ht
  · have hx : exec i s = onWord w s fun e => tretOp e skip := by
      simp only [List.mem_cons, List.not_mem_nil, or_false, Prod.mk.injEq] at hi
      rcases hi with ⟨rfl, rfl⟩ | ⟨rfl, rfl⟩
      · exact exec_tret w s
      · exact exec_tretSkip w s
    obtain ⟨g, hleave, hmask, hstack, hwritten, hkept⟩ := leaveHandler_spec e.wv hd f skip
    refine ⟨_, { e.wv with handler := none, frags := Tbl.put e.wv.frags hd.frag g }, g,
      exec_placedWave h hx (tretOp_returns h skip hh hf hab hheld hpc), ?_, rfl, ?_, rfl, rfl, ?_, ?_, hmask, hstack, hwritten, hkept⟩
    · rw [State.wave_modWave_of h.wave, hleave]
    · exact fun k hk => by rw [State.wave_modWave, if_neg hk]
    · exact fun r hr => Tbl.find_put_other _ _ hr
    · exact Tbl.find_put_same _ _ _

/-! ### YIELD, SLEEP and CYC (R202 to R204) -/

/-- The fragment after its word, which gives up its turn: at the next word of its clause, or at the next header. -/
def QuietAfter (e : Env) (g : Frag) : Prop :=
  g.mask = e.frag.mask ∧ g.stack = e.frag.stack ∧ g.age = 0 ∧
    if e.next < e.cl.words.length then ∃ c, g.clause = some c ∧ c.addr = e.cl.addr ∧ c.words = e.cl.words ∧ c.idx = e.next ∧
      c.passes = 0 else g.clause = none ∧ g.pc = e.cl.next

/-- The clause with YP = 1 (R100, R202). -/
def yieldClause (e : Env) : Clause := { e.cl with hdr := (e.cl.hdr &&& ~~~(3#64 <<< 43)) ||| (1#64 <<< 43) }

/-- Where a clause that differs in its header alone takes the fragment. -/
theorem advance_quiet (e : Env) (hdr : W64) (r : Option Wait) :
    QuietAfter e { e.frag.advanceTo { e.cl with hdr := hdr } e.next with wait := r, age := 0 } := by
  refine ⟨advanceTo_mask _ _ _, advanceTo_stack _ _ _, rfl, ?_⟩
  by_cases hin : e.next < e.cl.words.length
  · rw [if_pos hin]
    refine ⟨{ e.cl with hdr := hdr, idx := e.next, passes := 0 }, ?_, rfl, rfl, rfl, rfl⟩
    simp [Frag.advanceTo, hin]
  · rw [if_neg hin]
    simp only [Frag.advanceTo, hin, if_false]
    exact ⟨rfl, rfl⟩

/-- The fragment that YIELD leaves. -/
def yielded (e : Env) : Frag := { e.frag.advanceTo (yieldClause e) e.next with age := 0 }

/-- Inside its clause the fragment goes on, and the clause ends with YP = 1; at its end it is not ready for a cycle. -/
theorem yielded_waits (e : Env) : if e.next < e.cl.words.length then
      ∃ c, (yielded e).clause = some c ∧ bits c.hdr.toNat 44 43 = 1 else (yielded e).wait = some (.yielded 0) := by
  have hyp : bits (yieldClause e).hdr.toNat 44 43 = 1 := hdrYield e.cl.hdr
  have hwords : (yieldClause e).words = e.cl.words := rfl
  by_cases hin : e.next < e.cl.words.length
  · rw [if_pos hin]
    refine ⟨{ yieldClause e with idx := e.next, passes := 0 }, ?_, hyp⟩
    simp [yielded, Frag.advanceTo, hwords, hin]
  · rw [if_neg hin]
    simp [yielded, Frag.advanceTo, hwords, hin, Frag.leave, yieldWait, hyp]

/-- A word whose meaning is YIELD's. -/
theorem yield_stands {w : Fields} {s : State} {e : Env} (h : Issues w s e) {i : Instr} {body : Env → WRes}
    (hx : exec i s = onWord w s body) (hb : body e = e.yield) :
    ∃ t g, exec i e.s = .next t ∧ Stands e t g ∧ QuietAfter e g ∧
      if e.next < e.cl.words.length then ∃ c, g.clause = some c ∧ bits c.hdr.toNat 44 43 = 1 else g.wait = some (.yielded 0) := by
  refine ⟨_, yielded e, exec_placed h hx (hb.trans rfl) h.alone, modFrag_stands h _, ?_, yielded_waits e⟩
  exact advance_quiet e (yieldClause e).hdr (e.frag.advanceTo (yieldClause e) e.next).wait

/-- SLEEP's meaning. -/
def sleepBody (e : Env) : WRes :=
  if e.wv.holdsAny then e.illegal
  else if e.a .n32 0 = 0 then e.yield
  else e.pause (.sleep (e.s.cycOf e.wid + e.a .n32 0))

theorem exec_yield (w : Fields) (s : State) : exec (.yield w) s = onWord w s Env.yield := rfl
theorem exec_sleep (w : Fields) (s : State) : exec (.sleep w) s = onWord w s sleepBody := rfl

/-- Settles O29: SLEEP of 0 has the meaning of YIELD, and any other count that of a pause. -/
theorem timeWords : Obligations.TimeWords := by
  unfold Obligations.TimeWords
  intro w s e h quiet yields
  refine ⟨yield_stands h (exec_yield w s) rfl, fun hfree hz => ?_, fun hfree hz => ?_, fun hholds hh ht => ?_, ?_⟩
  · refine yield_stands h (exec_sleep w s) ?_
    rw [sleepBody, hfree, hz]
    rfl
  · have hb : sleepBody e = e.pause (.sleep (e.s.cycOf e.wid + e.a .n32 0)) := by
      rw [sleepBody, hfree, if_neg (by simp), if_neg hz]
    exact ⟨_, _, exec_placed h (exec_sleep w s) (hb.trans rfl) h.alone, modFrag_stands h _, advance_quiet e e.cl.hdr _, rfl⟩
  · refine faults_illegal h (exec_sleep w s) ?_ hh ht
    rw [sleepBody, if_pos hholds]
  · exact GivesS.of_putS h (i := .cyc w) rfl (passed_single h.alone _ _)

end Sys2Proof.Waves
end

section
/-! Proofs of family 06: loads (R209, R256, R295, R298, R300, R301). -/

open Sys2Proof Sys2Proof.Machine
namespace Sys2Proof.Waves

/-- The lanes' addresses of LD, ST, LDS and STS (R294). -/
def laneAddrs (e : Env) : List (Nat × Nat) := e.lanes.map fun i => (i, e.ea (e.f 3 0) true i)

/-- The one address of LDU and STU (R300). -/
def oneAddr (e : Env) : List (Nat × Nat) := [(e.first, e.ea 0 true 0)]

/-! ### LD and LDU (R298, R300) -/

/-- What LD does with the elements that it has found, and with the lanes that failed. -/
def ldTakes (t : Ty) (e : Env) (ok : List Loaded) (bad : List LaneFault) : WRes :=
  let s := e.s.logSpan (whoOf e.wv e.wid e.fr) (e.wv.bid e.wid) e.wv (logOf ok fun x => x.acc.lane)
  .done { s := s.fresh.2, ws := ok.flatMap fun x => putAt e.w.d.toNat t x.acc.lane x.value,
          lat := Config.loadCycles s.fresh.1, load := true, fault := laneTrap bad }

/-- LD's meaning outside a TWIN block. -/
def ldBody (t : Ty) (l : List (Nat × Nat)) (e : Env) : WRes :=
  deviceLoad e (elemBytes t) (e.f 5 4) (checkLanes e (elemBytes t) .read l) (ldTakes t)

theorem exec_ld (w : Fields) (s : State) : exec (.ld w) s =
    onWord w s fun e => passed e (ldBody e.ty (laneAddrs e)) fun g x => shadowLog g (elemBytes e.ty) (laneAddrs e) (doneLanes g x) := rfl

/-- What LDU does with the element that it has found. -/
def lduTakes (t : Ty) (e : Env) (ok : List Loaded) (bad : List LaneFault) : WRes :=
  let s := e.s.logSpan (whoOf e.wv e.wid e.fr) (e.wv.bid e.wid) e.wv (logOf ok fun _ => e.first)
  .done { s := s.fresh.2, ws := ok.flatMap fun x => e.putS (place64 t x.value),
          lat := Config.loadCycles s.fresh.1, load := true, fault := wholeTrap e bad }

/-- LDU's meaning outside a TWIN block, with some lane active. -/
def lduBody (t : Ty) (l : List (Nat × Nat)) (e : Env) : WRes :=
  deviceLoad e (elemBytes t) (e.f 5 4) (checkLanes e (elemBytes t) .read l) (lduTakes t)

theorem exec_ldu (w : Fields) (s : State) : exec (.ldu w) s = onWord w s fun e =>
    if e.lanes.isEmpty then .done { s := e.s }
    else passed e (lduBody e.ty (oneAddr e)) fun g x => shadowLog g (elemBytes e.ty) (oneAddr e) (doneLanes g x) := rfl

/-- What a load finds. -/
def foundBy (e : Env) (l : List (Nat × Nat)) : List Loaded :=
  findAll (e.looks (elemBytes e.ty) l) e.wid e.wv (elemBytes e.ty) (accesses e .read l)

/-- The state of a load that has found its bytes and filled L1 with them. -/
def filledBy (e : Env) (l : List (Nat × Nat)) : State :=
  (e.looks (elemBytes e.ty) l).fillL1 e.wid e.wv (e.f 5 4) ((foundBy e l).flatMap fun x => x.bytes)

/-- An LD that goes on has taken what it has found. -/
theorem ldBody_goes {e : Env} (hl : Loadable e (elemBytes e.ty) (laneAddrs e)) : ∃ n, ldBody e.ty (laneAddrs e) e =
    .done { s := e.loaded (elemBytes e.ty) (e.f 5 4) (laneAddrs e),
            ws := (foundBy e (laneAddrs e)).flatMap fun x => putAt e.w.d.toNat e.ty x.acc.lane x.value, lat := n, load := true } := by
  rw [ldBody, deviceLoad_eq (e.f 5 4) hl]
  exact ⟨_, rfl⟩

/-- The log takes an LDU's bytes by the lane that it has them for. -/
theorem lduTakes_lanes {t : Ty} {e : Env} {l : List Loaded} (h : ∀ x ∈ l, e.first = x.acc.lane) (bad : List LaneFault) :
    lduTakes t e l bad =
      let s := e.s.logSpan (whoOf e.wv e.wid e.fr) (e.wv.bid e.wid) e.wv (logOf l fun x => x.acc.lane)
      .done { s := s.fresh.2, ws := l.flatMap fun x => e.putS (place64 t x.value),
              lat := Config.loadCycles s.fresh.1, load := true, fault := wholeTrap e bad } := by
  have hlog : logOf l (fun _ => e.first) = logOf l fun x => x.acc.lane := List.flatMap_congr fun x hx => by rw [h x hx]
  rw [lduTakes, hlog]

/-- What LDU finds is for its first lane. -/
theorem foundBy_one {e : Env} : ∀ x ∈ foundBy e (oneAddr e), e.first = x.acc.lane := by
  intro x hx
  obtain ⟨a, ha, rfl⟩ := List.mem_map.1 hx
  obtain ⟨p, hp, hloc⟩ := List.mem_filterMap.1 ha
  obtain ⟨loc, -, rfl⟩ := Option.map_eq_some_iff.1 hloc
  rw [List.mem_singleton.1 hp]

/-- An LDU that goes on has taken what it has found. -/
theorem lduBody_goes {e : Env} (hl : Loadable e (elemBytes e.ty) (oneAddr e)) : ∃ n, lduBody e.ty (oneAddr e) e =
    .done { s := e.loaded (elemBytes e.ty) (e.f 5 4) (oneAddr e),
            ws := (foundBy e (oneAddr e)).flatMap fun x => e.putS (place64 e.ty x.value), lat := n, load := true } := by
  rw [lduBody, deviceLoad_eq (e.f 5 4) hl]
  have htakes := lduTakes_lanes (t := e.ty) (e := { e with s := filledBy e (oneAddr e) }) (foundBy_one (e := e)) []
  exact ⟨_, htakes⟩

/-- An LD that goes on gives each lane the value that the search finds. -/
theorem ld_loads {w : Fields} {s : State} {e : Env} (h : Issues w s e) (hd : e.w.d.toNat < 0x80)
    (hl : Loadable e (elemBytes e.ty) (laneAddrs e)) :
    ∃ s' v w' f, exec (.ld w) e.s = .next s' ∧ Completes e (e.loaded (elemBytes e.ty) (e.f 5 4) (laneAddrs e)) v s' w' ∧
      WritesD e v e.ty f w' ∧ w'.fpflags = v.fpflags ∧ LoadFrame e v s' ∧
      ∀ i ∈ e.lanes, ∃ loc, e.place .read (e.ea (e.f 3 0) true i) = some loc ∧
        f i = loadValue (e.looks (elemBytes e.ty) (laneAddrs e)) e (elemBytes e.ty) (e.ea (e.f 3 0) true i) loc := by
  obtain ⟨n, hb⟩ := ldBody_goes hl
  obtain ⟨s', v, w', hexec, hcomp, hv, hs, hk, hfl, hframe⟩ := load_done h (exec_ld w s) ((passed_single h.alone _ _).trans hb)
  obtain ⟨loc, hplace, hacc⟩ := accesses_lanes hl.passes
  have hws : (foundBy e (laneAddrs e)).flatMap (fun x => putAt e.w.d.toNat e.ty x.acc.lane x.value) = e.lanes.flatMap fun i =>
      putAt e.w.d.toNat e.ty i (loadValue (e.looks (elemBytes e.ty) (laneAddrs e)) e (elemBytes e.ty) (e.ea (e.f 3 0) true i) (loc i)) := by
    unfold foundBy
    rw [show accesses e .read (laneAddrs e) = _ from hacc]
    exact loaded_elems _ _ _ _ _ _ _ _
  rw [hws, writes_lanes_putD e v e.ty _ hd] at hv hs hk
  exact ⟨s', v, w', _, hexec, hcomp, (writesD_putD h.facts.lane_lt v e.ty _).of_regs hv hs hk, hfl, hframe,
    fun i hi => ⟨loc i, hplace i hi, rfl⟩⟩

/-- An LDU that goes on gives its scalar the value that the search finds. -/
theorem ldu_loads {w : Fields} {s : State} {e : Env} (h : Issues w s e) (hne : e.lanes ≠ [])
    (hl : Loadable e (elemBytes e.ty) (oneAddr e)) :
    ∃ s' v w' loc, exec (.ldu w) e.s = .next s' ∧ Completes e (e.loaded (elemBytes e.ty) (e.f 5 4) (oneAddr e)) v s' w' ∧
      w'.fpflags = v.fpflags ∧ LoadFrame e v s' ∧ e.place .read (e.ea 0 true 0) = some loc ∧
      WritesS e v (place64 e.ty (loadValue (e.looks (elemBytes e.ty) (oneAddr e)) e (elemBytes e.ty) (e.ea 0 true 0) loc)) w' := by
  obtain ⟨n, hb⟩ := lduBody_goes hl
  obtain ⟨s', v, w', hexec, hcomp, hv, hs, hk, hfl, hframe⟩ := load_done h (exec_ldu w s)
    ((if_neg (by simpa using hne)).trans ((passed_single h.alone _ _).trans hb))
  obtain ⟨loc, hplace⟩ := Option.isSome_iff_exists.mp (hl.passes _ (List.mem_singleton_self _)).2
  have hws : (foundBy e (oneAddr e)).flatMap (fun x => e.putS (place64 e.ty x.value)) =
      e.putS (place64 e.ty (loadValue (e.looks (elemBytes e.ty) (oneAddr e)) e (elemBytes e.ty) (e.ea 0 true 0) loc)) := by
    unfold foundBy
    rw [show accesses e .read (oneAddr e) = [{ lane := e.first, va := e.ea 0 true 0, loc := loc }] from accesses_cons hplace]
    simp only [findAll, List.map_cons, List.map_nil, List.flatMap_cons, List.flatMap_nil, List.append_nil, Loaded.value,
      findAll_bytes, loadValue]
  rw [hws] at hv hs hk
  exact ⟨s', v, w', loc, hexec, hcomp, hfl, hframe, hplace, (writesS_putS e v _).of_regs hv hs hk⟩

/-! ### The scratchpad's checks (R256, R301) -/

/-- Accesses that are aligned and inside the share pass. -/
theorem checkScratch_passes {share size : Nat} {l : List (Nat × Nat)} (h : ∀ p ∈ l, p.2 % size = 0 ∧ p.2 + size ≤ share) :
    checkScratch share size l = (l, []) := by
  refine foldr_keep _ _ fun p hp acc => ?_
  obtain ⟨halign, hin⟩ := h p hp
  simp only [halign, ne_eq, not_true_eq_false, if_false, if_neg (Nat.not_lt.2 hin)]

/-- One access that is not aligned. -/
theorem checkScratch_misaligned {share size : Nat} {p : Nat × Nat} (h : p.2 % size ≠ 0) :
    checkScratch share size [p] = ([], [{ lane := p.1, cause := cALIGN, info := 0, va := p.2 }]) := by
  simp only [checkScratch, List.foldr_cons, List.foldr_nil, if_pos h]

theorem scratchSize_of {e : Env} {b : Block} (hb : e.s.block (e.wv.bid e.wid) = some b) : e.scratchSize = b.scratchSize := by
  simp only [Env.scratchSize, hb]

/-- A scratchpad access whose every lane passes finds its windows present and its fragment's DRNs performed. -/
theorem withScratch_goes {e : Env} {b : Block} {m : Mask} {r : List (Nat × Nat)} {body : Env → WRes}
    (hb : e.s.block (e.wv.bid e.wid) = some b) (habs : b.absentAt r = none) (hd : r = [] ∨ e.wv.draining e.fr = false) :
    withScratch e m r body = body e :=
  withScratch_eq hd fun _ hc => Option.some.inj (hc.symm.trans hb) ▸ habs

/-- No window meets no range. -/
theorem absentAt_nil (b : Block) : b.absentAt [] = none := by
  simp [Block.absentAt]

/-- Nothing that reads no word with an error meets one (R432). -/
theorem meetErrors_nothing (s : State) {reads : SoftAt → Bool} (h : ∀ x, reads x = false) : s.meetErrors reads = s := by
  simp [State.meetErrors, h]

theorem meetScratch_nothing (s : State) (bid : Nat) : s.meetScratch bid [] = s := by
  unfold State.meetScratch
  split
  · rfl
  · refine meetErrors_nothing s fun x => ?_
    cases x <;> simp

/-! ### LDS (R256, R301) -/

/-- LDS once its lanes are checked. -/
def ldsTakes (t : Ty) (ok : List (Nat × Nat)) (bad : List LaneFault) (e : Env) : WRes :=
  .done { s := e.s.meetScratch (e.wv.bid e.wid) (ok.map fun p => (p.2, elemBytes t)),
          ws := ok.flatMap fun p => putAt e.w.d.toNat t p.1 (ofLE (scratchBytes e.s (e.wv.bid e.wid) p.2 (elemBytes t))),
          load := true, fault := laneTrap bad }

/-- LDS's meaning, from the checks of its lanes. -/
def ldsBody (e : Env) (c : List (Nat × Nat) × List LaneFault) : WRes :=
  withScratch e e.act (c.1.map fun p => (p.2, elemBytes e.ty)) (ldsTakes e.ty c.1 c.2)

theorem exec_lds (w : Fields) (s : State) : exec (.lds w) s =
    onWord w s fun e => ldsBody e (checkScratch e.scratchSize (elemBytes e.ty) (laneAddrs e)) := rfl

/-- An LDS whose lanes all pass. -/
theorem lds_loads {w : Fields} {s : State} {e : Env} (h : Issues w s e) {b : Block} (hb : e.s.block (e.wv.bid e.wid) = some b)
    (hd : e.w.d.toNat < 0x80) (hpass : ∀ p ∈ laneAddrs e, p.2 % elemBytes e.ty = 0 ∧ p.2 + elemBytes e.ty ≤ b.scratchSize)
    (habs : b.absentAt ((laneAddrs e).map fun p => (p.2, elemBytes e.ty)) = none)
    (hdr : laneAddrs e = [] ∨ e.wv.draining e.fr = false) :
    ∃ s' w', exec (.lds w) e.s = .next s' ∧
      Completes e (e.s.meetScratch (e.wv.bid e.wid) ((laneAddrs e).map fun p => (p.2, elemBytes e.ty))) e.wv s' w' ∧
      WritesD e e.wv e.ty (fun i => ofLE (scratchBytes e.s (e.wv.bid e.wid) (e.ea (e.f 3 0) true i) (elemBytes e.ty))) w' ∧
      w'.fpflags = e.wv.fpflags := by
  have hbody : ldsBody e (checkScratch e.scratchSize (elemBytes e.ty) (laneAddrs e)) = ldsTakes e.ty (laneAddrs e) [] e := by
    rw [scratchSize_of hb, checkScratch_passes hpass]
    exact withScratch_goes hb habs (hdr.imp_left fun hnil => by rw [hnil]; rfl)
  obtain ⟨s', w', hexec, hcomp, hv, hs, hk, hfl, -⟩ := quiet_done h (exec_lds w s) hbody (meetScratch_cores _ _ _).1.home.noWave
  have hws : ((laneAddrs e).flatMap fun p =>
      putAt e.w.d.toNat e.ty p.1 (ofLE (scratchBytes e.s (e.wv.bid e.wid) p.2 (elemBytes e.ty)))) = e.lanes.flatMap fun i =>
      putAt e.w.d.toNat e.ty i (ofLE (scratchBytes e.s (e.wv.bid e.wid) (e.ea (e.f 3 0) true i) (elemBytes e.ty))) :=
    by rw [laneAddrs, List.flatMap_map]
  rw [hws, writes_lanes_putD e e.wv e.ty _ hd] at hv hs hk
  exact ⟨s', w', hexec, hcomp, (writesD_putD h.facts.lane_lt e.wv e.ty _).of_regs hv hs hk, hfl⟩

/-- An LDS of one lane whose offset is not aligned. -/
theorem lds_misaligned {w : Fields} {s : State} {e : Env} (h : Issues w s e) {b : Block} {i : Nat}
    (hb : e.s.block (e.wv.bid e.wid) = some b) (hi : e.lanes = [i]) (halign : e.ea (e.f 3 0) true i % elemBytes e.ty ≠ 0)
    (hh : e.wv.handler = none) (ht : e.wv.tvec ≠ 0) :
    FaultsWith e (.lds w) 0x06 0 (BitVec.ofNat 64 (e.ea (e.f 3 0) true i)) (maskOf [i]) := by
  have hone : laneAddrs e = [(i, e.ea (e.f 3 0) true i)] := by rw [laneAddrs, hi, List.map_singleton]
  refine fault_traps h (ld := true) (exec_lds w s) ?_ hh ht
  rw [hone, checkScratch_misaligned halign, ldsBody]
  refine (withScratch_goes hb (absentAt_nil b) (.inl rfl)).trans ?_
  rw [ldsTakes, laneTrap_one _ (Env.ea_lt _ _ _ _)]
  simp only [List.map_nil, List.flatMap_nil, meetScratch_nothing]
  rfl

/-- Settles O33: LD by lanes, LDU without lanes and with some, LDS with lanes that pass and with one that is not aligned. -/
theorem loads : Obligations.Loads := by
  unfold Obligations.Loads
  intro w s e h t size hint each one
  refine ⟨fun hd hl => ld_loads h hd hl, fun hnil => ?_, fun hne hl => ldu_loads h hne hl,
    fun b hb hd hpass habs hdr => lds_loads h hb hd hpass habs hdr, fun b i hb hi halign hh ht => lds_misaligned h hb hi halign hh ht⟩
  exact GivesNothing.of_done h (exec_ldu w s) (if_pos (by simpa using hnil))

end Sys2Proof.Waves
end

section
/-! Proofs of family 06: stores and prefetches (R208, R211, R257, R295, R299 to R302). -/

open Sys2Proof Sys2Proof.Machine
namespace Sys2Proof.Waves

/-! ### ST and STU (R299, R300) -/

/-- The value that a store takes from a lane. -/
def storeVal (e : Env) (i : Nat) : Nat := e.src e.w.d.toNat e.ty i

theorem exec_st (w : Fields) (s : State) : exec (.st w) s = onWord w s fun e =>
    deviceStore e (elemBytes e.ty) (checkLanes e (elemBytes e.ty) .write (laneAddrs e)) (storeVal e) laneTrap := rfl

/-- STU's meaning. -/
def stuBody (e : Env) : WRes :=
  if e.lanes.isEmpty then .done { s := e.s }
  else deviceStore e (elemBytes e.ty) (checkLanes e (elemBytes e.ty) .write (oneAddr e)) (storeVal e) (wholeTrap e)

theorem exec_stu (w : Fields) (s : State) : exec (.stu w) s = onWord w s stuBody := rfl

theorem stuBody_none {e : Env} (h : e.lanes = []) : stuBody e = .done { s := e.s } := if_pos (by rw [h]; rfl)

theorem stuBody_some {e : Env} (h : e.lanes ≠ []) : stuBody e =
    deviceStore e (elemBytes e.ty) (checkLanes e (elemBytes e.ty) .write (oneAddr e)) (storeVal e) (wholeTrap e) :=
  if_neg (by simpa using h)

/-- An access that is not aligned fails and nothing else is checked (R295). -/
theorem checkLanes_misaligned (e : Env) {size : Nat} {p : Nat × Nat} (need : Need) (h : p.2 % size ≠ 0) :
    checkLanes e size need [p] = { good := [], bad := [{ lane := p.1, cause := cALIGN, info := 0, va := p.2 }], miss := [] } := by
  simp only [checkLanes, List.foldr_cons, List.foldr_nil, if_pos h]

/-- A store of no lane that finds the WSB within its lines stores nothing and takes the fault of the lanes that failed. -/
theorem deviceStore_nothing {w : Fields} {s : State} {e : Env} (h : Issues w s e) (size : Nat) (bad : List LaneFault)
    (val : Nat → Nat) (trap : List LaneFault → Option TrapRec) (hw : lineCount e.wv.wsb ≤ 128) :
    deviceStore e size { good := [], bad := bad, miss := [] } val trap = .done { s := e.s, fault := trap bad } := by
  have hd : drains e.wv [] = false := by
    have hfits : ¬lineCount e.wv.wsb > 128 := Nat.not_lt.2 hw
    simp only [drains, List.foldl_nil, hfits, decide_false, Bool.and_false]
  have hsig : e.s.foldSig e.wid [] = e.s := by
    simp [State.foldSig, h.wave, h.alone]
  simp only [deviceStore, withMisses, List.isEmpty_nil, if_true, List.map_nil, hd, Bool.not_false, storeNow, List.flatMap_nil, hsig,
    State.storeAll]

/-- An STU whose address is not aligned. -/
theorem stu_misaligned {w : Fields} {s : State} {e : Env} (h : Issues w s e) (hne : e.lanes ≠ [])
    (halign : e.ea 0 true 0 % elemBytes e.ty ≠ 0) (hw : lineCount e.wv.wsb ≤ 128) (hh : e.wv.handler = none) (ht : e.wv.tvec ≠ 0) :
    FaultsWith e (.stu w) 0x06 0 (BitVec.ofNat 64 (e.ea 0 true 0)) e.act := by
  refine fault_traps h (ld := false) (exec_stu w s) ?_ hh ht
  rw [stuBody_some hne, oneAddr, checkLanes_misaligned e .write halign, deviceStore_nothing h _ _ _ _ hw, wholeTrap,
    laneTrap_one _ (Env.ea_lt _ _ _ _)]
  rfl

/-! ### STS (R257, R301) -/

/-- A write fault of the scratchpad has TRAPINFO 1 (R233). -/
def writeFault (x : LaneFault) : LaneFault := if x.cause = cPROT then { x with info := 1 } else x

/-- STS once its lanes are checked. -/
def stsTakes (t : Ty) (ok : List (Nat × Nat)) (bad : List LaneFault) (e : Env) : WRes :=
  .done { s := e.s.writeScratch (e.wv.bid e.wid) (ok.map fun p => (p.2, leBytes (elemBytes t) (e.src e.w.d.toNat t p.1))), fault := laneTrap bad }

/-- STS's meaning, from the checks of its lanes. -/
def stsBody (e : Env) (c : List (Nat × Nat) × List LaneFault) : WRes :=
  withScratch e e.act (c.1.map fun p => (p.2, elemBytes e.ty)) (stsTakes e.ty c.1 (c.2.map writeFault))

theorem exec_sts (w : Fields) (s : State) : exec (.sts w) s =
    onWord w s fun e => stsBody e (checkScratch e.scratchSize (elemBytes e.ty) (laneAddrs e)) := rfl

/-- A state that differs in its cores and the model's counter has the waves that it had. -/
theorem noWave_of_cores {s t : State} (h : { t with cores := s.cores, free := s.free } = s) : NoWave s t :=
  ⟨by rw [← h], by rw [← h]⟩

/-- An STS whose lanes all pass: of two lanes the higher one's byte is kept. -/
theorem sts_stores {w : Fields} {s : State} {e : Env} (h : Issues w s e) {b : Block} (hb : e.s.block (e.wv.bid e.wid) = some b)
    (hpass : ∀ p ∈ laneAddrs e, p.2 % elemBytes e.ty = 0 ∧ p.2 + elemBytes e.ty ≤ b.scratchSize)
    (habs : b.absentAt ((laneAddrs e).map fun p => (p.2, elemBytes e.ty)) = none)
    (hdr : laneAddrs e = [] ∨ e.wv.draining e.fr = false) :
    ∃ s' w' s1 sp, exec (.sts w) e.s = .next s' ∧
      Completes e (s1.modBlock (e.wv.bid e.wid) fun _ => { b with scratch := sp }) e.wv s' w' ∧ SameRegs e.wv w' ∧
      w'.fpflags = e.wv.fpflags ∧ w'.pending = e.wv.pending ∧
      { s1 with cores := e.s.cores, free := e.s.free } = e.s ∧ (flying e.s (e.wv.bid e.wid) = [] → s1 = e.s) ∧
      ∀ a, Memory.read sp a = storedByte (laneAddrs e) (elemBytes e.ty) (storeVal e) (Memory.read b.scratch a) a := by
  obtain ⟨sp, hput, hread⟩ := read_putScratches (elemBytes e.ty) (storeVal e) (laneAddrs e) b
  obtain ⟨s1, hwrite, hcores, hquiet⟩ := writeScratch_does e.s (e.wv.bid e.wid) b { b with scratch := sp } hb
    ((laneAddrs e).map fun p => (p.2, leBytes (elemBytes e.ty) (storeVal e p.1))) (by rw [List.foldl_map]; exact hput)
  have hbody : stsBody e (checkScratch e.scratchSize (elemBytes e.ty) (laneAddrs e)) =
      .done { s := s1.modBlock (e.wv.bid e.wid) fun _ => { b with scratch := sp } } := by
    rw [scratchSize_of hb, checkScratch_passes hpass]
    refine (withScratch_goes hb habs (hdr.imp_left fun hnil => by rw [hnil]; rfl)).trans ?_
    exact congrArg (fun s => WRes.done { s := s }) hwrite
  have hwaves : NoWave e.s (s1.modBlock (e.wv.bid e.wid) fun _ => { b with scratch := sp }) :=
    (noWave_of_cores hcores).trans ⟨rfl, rfl⟩
  obtain ⟨s', w', hexec, hcomp, hregs, hfl, hp⟩ := quiet_of h (exec_sts w s) hbody hwaves
  exact ⟨s', w', s1, sp, hexec, hcomp, hregs, hfl, hp, hcores, hquiet, hread⟩

/-! ### L1 fills without update-only copies (R258, R259) -/

/-- Where no core has an update-only copy, `t` differs from `s` in cores and the model's counter, and has none either. -/
def FillsOnly (s t : State) : Prop := s.noU → (∃ c n, t = { s with cores := c, free := n }) ∧ t.noU

theorem FillsOnly.refl (s : State) : FillsOnly s s := fun h => ⟨⟨s.cores, s.free, rfl⟩, h⟩

theorem FillsOnly.trans {s t u : State} (h : FillsOnly s t) (g : FillsOnly t u) : FillsOnly s u := by
  intro hs
  obtain ⟨⟨c, n, rfl⟩, ht⟩ := h hs
  obtain ⟨⟨d, m, rfl⟩, hu⟩ := g ht
  exact ⟨⟨d, m, rfl⟩, hu⟩

theorem FillsOnly.foldl {α : Type} {f : State → α → State} (h : ∀ s x, FillsOnly s (f s x)) (l : List α) (s : State) :
    FillsOnly s (l.foldl f s) := by
  induction l generalizing s with
  | nil => exact .refl s
  | cons x xs ih => exact (h s x).trans (ih _)

theorem FillsOnly.modCore (s : State) (k : Nat) {f : Core → Core} (hf : ∀ c, (f c).u = c.u) : FillsOnly s (s.modCore k f) :=
  fun h => ⟨⟨_, s.free, rfl⟩, State.noU_modCore h k f (hf _)⟩

theorem FillsOnly.fresh (s : State) : FillsOnly s s.fresh.2 := fun h => ⟨⟨s.cores, _, rfl⟩, h⟩

theorem touchLine_fills (s : State) (k key : Nat) : FillsOnly s (s.touchLine k key) := by
  unfold State.touchLine
  refine .modCore s k fun c => ?_
  dsimp only
  split <;> rfl

theorem evictSb_fills (s : State) (k sb : Nat) : FillsOnly s (s.evictSb k sb) := by
  intro h
  have hnone : (s.core k).uOf sb = [] := by simp [Core.uOf, State.noU_core h k]
  rw [State.evictSb, hnone]
  exact FillsOnly.modCore s k (fun _ => rfl) h

theorem placeLine_fills (s : State) (k key hint : Nat) : FillsOnly s (s.placeLine k key hint) := by
  unfold State.placeLine
  dsimp only
  split
  · exact .modCore s k fun _ => rfl
  · split
    · exact (FillsOnly.fresh s).trans (.modCore _ k fun _ => rfl)
    · split
      · exact .refl s
      · exact (evictSb_fills s k _).trans (.modCore _ k fun _ => rfl)

theorem fillLine_fills (s : State) (k hint key : Nat) (x : L1Line) : FillsOnly s (s.fillLine k hint key x) := by
  unfold State.fillLine
  split
  · exact .refl s
  · exact (placeLine_fills s k key hint).trans (.modCore _ k fun _ => rfl)

theorem fillL1_fills (s : State) (k : Nat) (w : Wave) (hint : Nat) (l : List Found) : FillsOnly s (s.fillL1 k w hint l) := by
  have htouch : ∀ hits : List Nat, FillsOnly s (hits.foldl (fun s n => s.touchLine (coreOfWave k) n) s) := fun hits =>
    FillsOnly.foldl (fun s n => touchLine_fills s _ n) hits s
  unfold State.fillL1
  dsimp only
  split
  · exact htouch _
  · exact ((htouch _).trans (FillsOnly.foldl (fun s n => fillLine_fills s _ _ _ _) _ _)).trans
      (FillsOnly.foldl (fun s n => fillLine_fills s _ _ _ _) _ _)

theorem recallLocs_fills (s : State) (l : List Loc) : FillsOnly s (s.recallLocs l) := by
  intro h
  rw [recallLocs_none h]
  exact FillsOnly.refl s h

/-! ### PRF (R302) -/

/-- The lines' bytes that PRF may fill: those of aligned addresses whose page permits a read, on no open or poisoned line. -/
def prfFinds (e : Env) : List Found :=
  let addrs := (e.lanes.map fun i => e.ea (e.f 3 0) true i).filter fun a => a % elemBytes e.ty == 0
  let found := addrs.filterMap fun a => match e.s.resolveNow e.wv.ctx a .read with
    | .ok (.dev pa) => some (seekCrew e.s (coreOfWave e.wid) e.wv.ctx e.wv.ckey a (.dev pa))
    | _ => none
  found.filter fun f => !(e.s.openTo (some e.wv.lid) f.loc || e.s.poisoned f.loc)

/-- Of those, the places at home. -/
def prfHome (e : Env) : List Loc := (prfFinds e).filterMap fun f => if f.place = 4 then some f.loc else none

/-- The state that PRF leaves. -/
def prfState (e : Env) : State :=
  if e.f 5 4 = 3 || !e.acts then e.s
  else if !e.s.recallRoom (prfHome e) then e.s
  else (e.s.recallLocs (prfHome e)).fillL1 e.wid e.wv (e.f 5 4) (prfFinds e)

/-- PRF's meaning. -/
def prfBody (e : Env) : WRes :=
  if e.f 5 4 = 3 || !e.acts then .done { s := e.s }
  else if !e.s.recallRoom (prfHome e) then .done { s := e.s }
  else .done { s := (e.s.recallLocs (prfHome e)).fillL1 e.wid e.wv (e.f 5 4) (prfFinds e) }

theorem exec_prf (w : Fields) (s : State) : exec (.prf w) s = onWord w s prfBody := rfl

theorem prfBody_done (e : Env) : prfBody e = .done { s := prfState e } := by
  unfold prfBody prfState
  split
  · rfl
  · split <;> rfl

theorem prfState_noWave (e : Env) : NoWave e.s (prfState e) := by
  unfold prfState
  split
  · exact .refl _
  · split
    · exact .refl _
    · exact ((recallLocs_home _ _).trans (fillL1_spec _ _ _ _ _).1).noWave

theorem prfState_fills (e : Env) : FillsOnly e.s (prfState e) := by
  unfold prfState
  split
  · exact .refl _
  · split
    · exact .refl _
    · exact (recallLocs_fills _ _).trans (fillL1_fills _ _ _ _ _)

/-- Settles O34: the WSB takes the elements of ST and STU, the scratchpad those of STS; PRF fills L1 alone. -/
theorem stores : Obligations.Stores := by
  unfold Obligations.Stores
  intro w s e h t size val each one puts
  refine ⟨fun hp hw => store_done h rfl hp hw (exec_st w s) rfl, fun hnil => ?_, fun hne hp hw => ?_,
    fun hne halign hw hh ht => stu_misaligned h hne halign hw hh ht,
    fun b hb hpass habs hdr => sts_stores h hb hpass habs hdr, fun hhint => ?_, ?_⟩
  · exact GivesNothing.of_done h (exec_stu w s) (stuBody_none hnil)
  · exact store_done h rfl hp hw (exec_stu w s) (stuBody_some hne)
  · refine GivesNothing.of_done h (exec_prf w s) ?_
    rw [prfBody, hhint]
    rfl
  · obtain ⟨s', w', hexec, hcomp, hregs, hfl, hp⟩ := quiet_of h (exec_prf w s) (prfBody_done e) (prfState_noWave e)
    exact ⟨s', _, w', hexec, hcomp, hregs, hfl, hp, fun hu => (prfState_fills e hu).1⟩

end Sys2Proof.Waves
end

section
/-! Proofs of family 06: spans, the copies that PUL drops, and the survivors of a checked commit (R212 to R215, R218, R219, R222,
R230, R231). -/

open Sys2Proof Sys2Proof.Machine
namespace Sys2Proof.Waves

/-! ### The survivors of a checked commit (R218, R219) -/

/-- Lane `i` has read or written what lane `j` has written, or written what it has read. -/
def Clash (v : Wave) (i j : Nat) : Prop :=
  ∃ a, (a ∈ readsOf v i ∧ a ∈ writesOf v j) ∨ (a ∈ writesOf v i ∧ a ∈ writesOf v j) ∨ (a ∈ writesOf v i ∧ a ∈ readsOf v j)

/-- Lane `i` has logged a byte that has changed at the level. -/
def Stale (e : Env) (l i : Nat) : Prop := ∃ x ∈ e.wv.readLog, x.lane = i ∧ currentAt e l x ≠ x.val

/-- The model's test of two lanes is the clash of their addresses. -/
theorem overlaps_iff (v : Wave) (i j : Nat) :
    (overlap (readsOf v i) (writesOf v j) || overlap (writesOf v i) (writesOf v j) || overlap (writesOf v i) (readsOf v j)) = true ↔
      Clash v i j := by
  simp only [Bool.or_eq_true, overlap_iff, Clash, or_assoc, exists_or]

theorem lanesOf_ascending (W : Nat) (m : Mask) : (lanesOf W m).Pairwise (· < ·) :=
  List.Pairwise.filter _ List.pairwise_lt_range

/-- A lane that is not valid is stale. -/
theorem stale_of_invalid {e : Env} {l i : Nat} (h : valid e l i = false) : Stale e l i := by
  by_contra hno
  have hvalid : valid e l i = true := (valid_iff e l i).2 fun x hx hi => by
    by_contra hne
    exact hno ⟨x, hx, hi, hne⟩
  rw [h] at hvalid
  cases hvalid

theorem not_stale_of_valid {e : Env} {l i : Nat} (h : valid e l i = true) : ¬Stale e l i :=
  fun ⟨x, hx, hi, hne⟩ => hne ((valid_iff e l i).1 h x hx hi)

/-- A part of a list is the list where it is not shorter. -/
theorem sublist_full_iff {l m : List Nat} (h : l.Sublist m) : ¬l.length < m.length ↔ l = m :=
  ⟨fun hlen => h.eq_of_length_le (Nat.not_lt.1 hlen), fun heq => heq ▸ Nat.lt_irrefl _⟩

/-- CAUSE by its two tests (R219). -/
theorem cause_zero_iff (r : Verdict) : r.cause = 0 ↔ r.invalid = false ∧ r.conflict = false := by
  cases hi : r.invalid <;> cases hc : r.conflict <;> simp [Verdict.cause, hi, hc]

theorem cause_two_iff (r : Verdict) : r.cause = 2 ↔ r.invalid = true := by
  cases hi : r.invalid <;> cases hc : r.conflict <;> simp [Verdict.cause, hi, hc]

/-- Settles O38: step 1 leaves the lanes without an earlier clash, and step 2 those of them that are not stale. -/
theorem commitSurvivors : Obligations.CommitSurvivors := by
  unfold Obligations.CommitSurvivors
  intro w s e h l lanes r clash stale
  obtain ⟨hsub, hapart, hclash⟩ := stepOne_spec e.wv lanes (lanesOf_ascending _ _)
  have hsurv : r.surv = (stepOne e.wv lanes).filter (valid e l) := rfl
  have hmem : ∀ {i}, i ∈ r.surv ↔ i ∈ stepOne e.wv lanes ∧ valid e l i = true := by rw [hsurv]; exact List.mem_filter
  refine ⟨fun i hi => ?_, fun i hi hno => ?_, ?_, ?_⟩
  · obtain ⟨hone, hvalid⟩ := hmem.1 hi
    refine ⟨hsub.subset hone, not_stale_of_valid hvalid, fun j hj hlt hc => ?_⟩
    exact Bool.eq_false_iff.1 (hapart i hone j (hmem.1 hj).1 hlt) ((overlaps_iff e.wv i j).2 hc)
  · by_cases hone : i ∈ stepOne e.wv lanes
    · exact .inl (stale_of_invalid (Bool.eq_false_iff.2 fun hvalid => hno (hmem.2 ⟨hone, hvalid⟩)))
    · obtain ⟨j, hj, hlt, hbad⟩ := hclash i hi hone
      exact .inr ⟨j, hsub.subset hj, hlt, (overlaps_iff e.wv i j).1 hbad⟩
  · have hinvalid : r.invalid = false ↔ r.surv = stepOne e.wv lanes :=
      decide_eq_false_iff_not.trans (sublist_full_iff List.filter_sublist)
    have hconflict : r.conflict = false ↔ stepOne e.wv lanes = lanes := decide_eq_false_iff_not.trans (sublist_full_iff hsub)
    rw [cause_zero_iff, hinvalid, hconflict]
    refine ⟨fun ⟨htwo, hone⟩ => htwo.trans hone, fun hall => ?_⟩
    have hone : stepOne e.wv lanes = lanes :=
      hsub.eq_of_length_le (hall ▸ (hsurv ▸ List.filter_sublist : r.surv.Sublist (stepOne e.wv lanes)).length_le)
    exact ⟨hall.trans hone.symm, hone⟩
  · rw [cause_two_iff, show r.invalid = decide (r.surv.length < (stepOne e.wv lanes).length) from rfl, decide_eq_true_iff, hsurv,
      List.length_filter_lt_length_iff_exists]
    refine exists_congr fun i => and_congr_right fun _ => ⟨fun hv => stale_of_invalid (by simpa using hv), fun hst hv => not_stale_of_valid hv hst⟩

/-! ### XBEG (R213, R214, R222) -/

theorem exec_xbeg (w : Fields) (s : State) : exec (.xbeg w) s = onWord w s fun e => xbegOp e false := rfl
theorem exec_xbegChk (w : Fields) (s : State) : exec (.xbegChk w) s = onWord w s fun e => xbegOp e true := rfl

/-- Where a wave may not open a span, XBEG is illegal. -/
theorem xbegOp_illegal {e : Env} (h : ¬(e.wv.whole = true ∧ e.wv.openTo e.level = false ∧ e.wv.checkedLevel = none)) (chk : Bool) :
    xbegOp e chk = e.illegal := by
  have hbad : (!e.wv.whole || e.wv.openTo e.level || e.wv.checkedLevel.isSome) = true := by
    by_contra hno
    simp only [Bool.or_eq_true, Bool.not_eq_true', not_or, Bool.not_eq_false, Bool.not_eq_true, Option.isSome_eq_false_iff,
      Option.isNone_iff_eq_none] at hno
    exact h ⟨hno.1.1, hno.1.2, hno.2⟩
  simp only [xbegOp, hbad, if_true]

/-- Taking a grant changes no wave. -/
theorem withGrant_noWave (e : Env) (chk : Bool) (s : State) : NoWave s (e.withGrant chk s) := by
  unfold Env.withGrant
  split <;> exact ⟨rfl, rfl⟩

/-- XBEG and XBEG.chk, as the words that have one meaning. -/
theorem exec_xbegOf {w : Fields} {s : State} {i : Instr} {chk : Bool} (h : (i, chk) ∈ [(Instr.xbeg w, false), (.xbegChk w, true)]) :
    exec i s = onWord w s fun e => xbegOp e chk := by
  simp only [List.mem_cons, List.not_mem_nil, or_false, Prod.mk.injEq] at h
  rcases h with ⟨rfl, rfl⟩ | ⟨rfl, rfl⟩
  · exact exec_xbeg w s
  · exact exec_xbegChk w s

/-- What an XBEG that opens its span leaves: in `s1` the wave's bytes have been committed and the grant has been taken. -/
def Opens (e : Env) (i : Instr) (chk : Bool) (s1 : State) : Prop :=
  ∃ s' w' v, exec i e.s = .next s' ∧
    Completes e (s1.modWave e.wid fun _ => v) v s' w' ∧ SameRegs e.wv w' ∧ w'.fpflags = e.wv.fpflags ∧
    { v with spans := e.wv.spans, wsb := e.wv.wsb, readLog := e.wv.readLog, aborting := e.wv.aborting } = e.wv ∧ v.wsb = [] ∧
    (∀ u, s1.wave e.wid = some u → v.aborting = u.aborting) ∧
    v.readLog = (if chk then [] else e.wv.readLog) ∧ (∀ n, n ≠ e.level → v.span n = e.wv.span n) ∧
    v.span e.level = { isOpen := true, checked := chk, target := e.xbegTarget, mask := e.frag.mask, stack := e.frag.stack,
                       fails := (e.wv.span e.level).fails, granted := chk && (e.wv.span e.level).fails == 8 }

/-- XBEG opens its span in the state that the commit of the wave's bytes, which may abort it, has left. -/
theorem xbeg_opensIn {w : Fields} {s : State} {e : Env} (h : Issues w s e) {i : Instr} {chk : Bool} {s1 : State}
    (hx : exec i s = onWord w s fun e => xbegOp e chk) (hs1 : Affects e.wid e.s s1)
    (hb : xbegOp e chk = .done { s := (e.withGrant chk s1).modWave e.wid fun w => w.openSpan e.frag e.level chk e.xbegTarget }) :
    Opens e i chk (e.withGrant chk s1) := by
  obtain ⟨u, hu, hparts⟩ := (hs1.trans ((withGrant_noWave e chk s1).affects e.wid)).wave e.wv h.wave
  have hlaunches : (e.withGrant chk s1).launches = e.s.launches := (withGrant_noWave e chk s1).launches.trans hs1.launches
  obtain ⟨s', w', v, hexec, hcomp, hregs, hfl, hrest, hab, hwsb, hlog, hother, hspan⟩ := span_start h hx hlaunches hu hparts hb
  exact ⟨s', w', v, hexec, hcomp, hregs, hfl, hrest, hwsb, fun u' hu' => hab.trans (by rw [Option.some.inj (hu.symm.trans hu')]), hlog, hother, hspan⟩

/-! ### XSTAT (R231) -/

theorem exec_xstat (w : Fields) (s : State) : exec (.xstat w) s =
    onPassed w s fun e => .done { s := e.s, ws := e.putS (xstatWord e.s e.wid e.wv e.level) } := rfl

theorem mul_ofBool (n : Nat) (b : Bool) : n * ofBool b = if b = true then n else 0 := by
  cases b <;> simp [ofBool]

/-- The fields of XSTAT's word. -/
theorem xstatWord_fields (s : State) (wid : Nat) (v : Wave) (l : Nat) : xstatWord s wid v l =
    (v.span l).fails + (if (v.span l).fails = 8 then 16 else 0) + (if s.holdsGrant wid v l then 32 else 0) +
      (if (v.span l).isOpen then 64 else 0) + (if (v.span l).isOpen ∧ (v.span l).checked then 128 else 0) +
      256 * lineCount v.wsb + 65536 * logLines v.readLog := by
  simp only [xstatWord, mul_ofBool, beq_iff_eq, Bool.and_eq_true, Nat.reducePow]

/-! ### PUL (R230) -/

theorem mem_tblKeep {β : Type} {p : Nat → β → Bool} {k : Nat} {x : β} : ∀ {t : Tbl β}, (k, x) ∈ Tbl.keep p t ↔ (k, x) ∈ t ∧ p k x = true
  | [] => by simp [Tbl.keep]
  | (j, y) :: t => by
    rw [Tbl.keep]
    split
    · rename_i hkeep
      rw [List.mem_cons, List.mem_cons, mem_tblKeep]
      refine ⟨fun h => h.elim (fun heq => ⟨.inl heq, by cases heq; exact hkeep⟩) fun ⟨hmem, hp⟩ => ⟨.inr hmem, hp⟩, ?_⟩
      exact fun ⟨h, hp⟩ => h.imp_right fun hmem => ⟨hmem, hp⟩
    · rename_i hdrop
      rw [List.mem_cons, mem_tblKeep]
      refine ⟨fun ⟨hmem, hp⟩ => ⟨.inr hmem, hp⟩, fun ⟨h, hp⟩ => ⟨h.resolve_left fun heq => hdrop ?_, hp⟩⟩
      cases heq
      exact hp

/-- A byte of the wave's crew buffer. -/
def Holds (s : State) (ck va : Nat) : Prop := ∃ c, s.crew ck = some c ∧ Tbl.mem c.buf va = true

/-- The copies that PUL drops. -/
def Drops (s : State) (v : Wave) (l k : Nat) (x : L1Line) : Prop :=
  if x.crew then k / 2 / 2 ^ 58 = v.ckey ∧ (l ≤ 2 ∨ ∃ b ∈ x.bytes, ¬Holds s v.ckey (64 * (k / 2 % 2 ^ 58) + b.1))
  else k / 2 / 2 ^ 33 = v.ctx

/-- The bytes of a crew's buffer, none where the crew is not there. -/
def crewBuf (s : State) (ck : Nat) : Tbl BufByte :=
  match s.crew ck with
  | some c => c.buf
  | none => []

theorem mem_crewBuf (s : State) (ck va : Nat) : Tbl.mem (crewBuf s ck) va = true ↔ Holds s ck va := by
  unfold crewBuf Holds
  cases s.crew ck with
  | none => simp [Tbl.mem, Tbl.find]
  | some c => simp

/-- What PUL keeps of the L1 lines. -/
def pulKeeps (s : State) (v : Wave) (l k : Nat) (x : L1Line) : Bool :=
  if x.crew then k / 2 / 2 ^ 58 != v.ckey || (decide (l > 2) && x.bytes.all fun b => Tbl.mem (crewBuf s v.ckey) (64 * (k / 2 % 2 ^ 58) + b.1))
  else k / 2 / 2 ^ 33 != v.ctx

theorem pul_eq (s : State) (wid : Nat) (v : Wave) (l : Nat) :
    s.pul wid v l = s.modCore (coreOfWave wid) fun c => { c with l1 := Tbl.keep (pulKeeps s v l) c.l1 } := rfl

theorem pulKeeps_iff (s : State) (v : Wave) (l k : Nat) (x : L1Line) : pulKeeps s v l k x = true ↔ ¬Drops s v l k x := by
  unfold pulKeeps Drops
  cases x.crew with
  | false => simp
  | true =>
    rw [if_pos rfl, if_pos rfl, not_and_or, not_or, not_le]
    simp only [Bool.or_eq_true, bne_iff_ne, ne_eq, Bool.and_eq_true, decide_eq_true_eq, List.all_eq_true, mem_crewBuf, not_exists, not_and,
      not_not, gt_iff_lt]

theorem exec_pul (w : Fields) (s : State) : exec (.pul w) s =
    onWord w s fun e => .done { s := if e.acts then e.s.pul e.wid e.wv e.level else e.s } := rfl

/-- Settles O36: XBEG opens its span or is illegal, XSTAT reads, PUL drops. -/
theorem spans : Obligations.Spans := by
  unfold Obligations.Spans
  intro w s e h l free key bytes opens granted
  refine ⟨fun hfree i chk hi hgrant => ?_, fun hno hh ht i hi => ?_, ?_, fun n hn => ?_, fun k x => ?_, ?_, rfl, ?_⟩
  · have hx := exec_xbegOf (s := s) hi
    obtain ⟨hquiet, hcommits⟩ := xbeg_opens h chk hx hfree hgrant
    refine ⟨fun hb => xbeg_opensIn h hx ((NoWave.refl _).affects _) (hquiet hb), fun s1 hne hab hg hup => ?_⟩
    exact xbeg_opensIn h hx (commitUp_affects hup) (hcommits s1 hne hab hg hup)
  · simp only [List.mem_cons, List.not_mem_nil, or_false] at hi
    rcases hi with rfl | rfl
    · exact faults_illegal h (exec_xbeg w s) (xbegOp_illegal hno false) hh ht
    · exact faults_illegal h (exec_xbegChk w s) (xbegOp_illegal hno true) hh ht
  · exact ⟨_, GivesS.of_putS h (exec_xstat w s) (passed_single h.alone _ _), xstatWord_fields _ _ _ _⟩
  · rw [pul_eq, State.core_modCore, if_neg hn]
  · rw [pul_eq, State.core_modCore, if_pos rfl, mem_tblKeep, pulKeeps_iff]
    rfl
  · rw [pul_eq, State.core_modCore, if_pos rfl]
  · refine quiet_of h (exec_pul w s) ?_ (s1 := e.s.pul e.wid e.wv l) ⟨rfl, rfl⟩
    rw [Env.acts_single h.alone]
    rfl

end Sys2Proof.Waves
end

section
/-! Proofs of family 06: commits and aborts (R216 to R219, R221, R224, R225, R227). -/

open Sys2Proof Sys2Proof.Machine
namespace Sys2Proof.Waves

/-! ### CMT's meaning (R216 to R218) -/

/-- CMT is illegal at another level than the open checked span, as CMT.all outside one, and in one for a part of the wave. -/
def cmtIllegal (e : Env) : Bool :=
  (e.wv.checkedLevel.isSome && e.wv.checkedLevel != some e.level) || (e.fbit 10 && e.wv.checkedLevel != some e.level) ||
    (e.wv.checkedLevel.isSome && !e.wv.whole)

/-- CMT once no compare point, no other side and no abort is in its way. -/
def cmtMoves (l : Nat) (all chk : Bool) (e : Env) : WRes :=
  if e.wv.aborting.isSome then .done { s := e.s }
  else match e.s.grantOfOther e.wid e.wv l with
    | some g => .wait e.s (.grant g)
    | none => if chk then validateFirst e fun e => commitChecked e l all else commitPlain e l

/-- The survivors of step 1 that a compare point folds. -/
def cmtFold (e : Env) : Bytes :=
  if e.wv.checkedLevel.isSome then
    leBytes (e.wv.width / 8) (maskOf (stepOne e.wv (lanesOf e.wv.width e.frag.mask))).toNat
  else []

/-- CMT's meaning. -/
def cmtBody (e : Env) : WRes :=
  if cmtIllegal e then e.illegal
  else atCompare e (cmtFold e) fun g => passedCommit g (cmtMoves e.level (e.fbit 10) e.wv.checkedLevel.isSome)

theorem exec_cmt (w : Fields) (s : State) : exec (.cmt w) s = onWord w s cmtBody := rfl

/-- Outside a TWIN block a CMT that may move does. -/
theorem cmtBody_moves {w : Fields} {s : State} {e : Env} (h : Issues w s e) (hlegal : cmtIllegal e = false)
    (hab : e.wv.aborting = none) (hg : e.s.grantOfOther e.wid e.wv e.level = none) : cmtBody e =
      if e.wv.checkedLevel.isSome then validateFirst e fun e' => commitChecked e' e.level (e.fbit 10) else commitPlain e e.level := by
  rw [cmtBody, hlegal, if_neg Bool.false_ne_true, atCompare_single h.alone, passedCommit_single h.alone, cmtMoves, hab, hg]
  rfl

/-! ### An unchecked CMT (R217) -/

/-- The register write of kD: none for k0. -/
def commitWrites (e : Env) (m : Mask) : List RegWrite := if e.w.d.toNat = 0 then [] else [.k e.w.d.toNat m]

/-- kD has taken lanes; every other register is as in the wave that issues. -/
def Taken (e : Env) (m : Mask) (w' : Wave) : Prop :=
  (∀ n i, w'.velem n i = e.wv.velem n i) ∧ (∀ n, w'.selem n = e.wv.selem n) ∧
    ∀ n, w'.kelem n = if e.w.d.toNat ≠ 0 ∧ n = e.w.d.toNat then m &&& fullMask e.wv.width else e.wv.kelem n

/-- A CMT that an overflow has aborted: nothing is delivered. -/
def Stopped (e : Env) (w : Fields) (t : State) (v : Wave) : Prop :=
  v.aborting.isSome ∧ ∃ s' w', exec (.cmt w) e.s = .next s' ∧ Completes e t v s' w' ∧ SameRegs e.wv w' ∧ w'.fpflags = e.wv.fpflags

theorem cmtIllegal_plain {e : Env} (hc : e.wv.checkedLevel = none) (hall : e.fbit 10 = false) : cmtIllegal e = false := by
  simp [cmtIllegal, hc, hall]

section Plain

variable {w : Fields} {s s1 : State} {e : Env} (h : Issues w s e)
include h

/-- A CMT whose meaning leaves a state in which its own wave differs from the one that issued in spans, buffers and XCAUSE. -/
theorem commit_takes {body : Env → WRes} {t : State} {v : Wave} {m : Mask} (hx : exec (.cmt w) s = onWord w s body)
    (hb : body e = .done { s := t, ws := commitWrites e m }) (ht : t.wave e.wid = some v) (hl : t.launches = e.s.launches)
    (hv : { v with spans := e.wv.spans, wsb := e.wv.wsb, readLog := e.wv.readLog, xcause := e.wv.xcause } = e.wv) :
    ∃ s' w', exec (.cmt w) e.s = .next s' ∧ Completes e t v s' w' ∧ Taken e m w' ∧ w'.fpflags = e.wv.fpflags := by
  obtain ⟨sp, wsb, log, xc, rfl⟩ : ∃ sp wsb log xc, v = { e.wv with spans := sp, wsb := wsb, readLog := log, xcause := xc } :=
    ⟨v.spans, v.wsb, v.readLog, v.xcause, by rw [← hv]⟩
  obtain ⟨s', w', hexec, hcomp, hvr, hsr, hkr, hfl, -⟩ := effect_done h hx hb
    (by rw [HomeOnly.of_launches hl]; exact h.alone) ht h.facts.frag rfl rfl (fpTrap_nil _ _) rfl
  have htaken : Taken e m w' := kelem_writes_k e { e.wv with spans := sp, wsb := wsb, readLog := log, xcause := xc } m
    (SameRegs.of_regs rfl rfl rfl) rfl hvr hsr hkr
  exact ⟨s', w', hexec, hcomp, htaken, hfl.trans (fpflagsAfter_none _)⟩

variable (hc : e.wv.checkedLevel = none) (hall : e.fbit 10 = false) (hab : e.wv.aborting = none)
  (hg : e.s.grantOfOther e.wid e.wv e.level = none)
  (hup : e.s.commitUp (whoOf e.wv e.wid e.fr) (e.wv.bid e.wid) e.level (wsbBytes e.wv.wsb) = .ok s1)
include hc hall hab hg hup

theorem cmtBody_plain : cmtBody e = if s1.aborted e.wid then .done { s := s1 }
    else commitDone e (s1.modWave e.wid fun w => (w.closeSpans e.level).emptied) (commitWrites e e.frag.mask) := by
  rw [cmtBody_moves h (cmtIllegal_plain hc hall) hab hg, hc]
  simp only [Option.isSome_none, Bool.false_eq_true, if_false, commitPlain, hup]
  rfl

/-- An overflow that aborts the wave ends its CMT. -/
theorem cmt_plainStops (hs : s1.aborted e.wid = true) : ∃ v, Stopped e w s1 v ∧ { v with aborting := e.wv.aborting } = e.wv := by
  have hb := cmtBody_plain h hc hall hab hg hup
  rw [if_pos hs] at hb
  obtain ⟨s', v, w', hexec, hcomp, hv, hfl, hvr, hsr, hkr, -⟩ := affect_done h (exec_cmt w s) hb (commitUp_affects hup)
  refine ⟨v, ⟨?_, s', w', hexec, hcomp, SameRegs.of_regs hvr hsr hkr, hfl⟩, hv⟩
  rwa [State.aborted, hcomp.before] at hs

/-- Without an abort the spans close, the WSB is empty and kD takes the fragment's lanes. -/
theorem cmt_plainCommits (hs : s1.aborted e.wid = false) (hpeer : s1.peerOps = e.s.peerOps) :
    ∃ s' w', exec (.cmt w) e.s = .next s' ∧
      Completes e (s1.modWave e.wid fun _ => (e.wv.closeSpans e.level).emptied) (e.wv.closeSpans e.level).emptied s' w' ∧
      Taken e e.frag.mask w' ∧ w'.fpflags = e.wv.fpflags := by
  have hsame : s1.wave e.wid = some e.wv := (commitUp_affects hup).same h.wave hab hs
  have hb := cmtBody_plain h hc hall hab hg hup
  rw [if_neg (Bool.eq_false_iff.1 hs), State.modWave_congr (g := fun _ => (e.wv.closeSpans e.level).emptied) hsame rfl] at hb
  refine commit_takes h (exec_cmt w s) (hb.trans (commitDone_eq _ hpeer)) (State.wave_modWave_of hsame) (commitUp_affects hup).launches ?_
  obtain ⟨sp, hsp⟩ := closeSpans_only e.wv e.level
  rw [hsp]
  rfl

end Plain

/-! ### A checked CMT (R218, R219, R221) -/

/-- The environment in which the log is validated: the update-only copies of its lines have been recalled (R408). -/
def validating (e : Env) : Env := { e with s := e.s.atHome (e.wv.readLog.map (·.loc)) }

/-- The verdict of a checked commit at the word's level. -/
def verdict (e : Env) : Verdict := resolve (validating e) e.level

/-- The bytes that the survivors commit, and those that no lane of the span has written. -/
def keptBytes (e : Env) : Tbl BufByte :=
  wsbBytes (e.wv.wsb.filter fun p => (verdict e).surv.contains p.2.writer || !e.frag.mask.getLsbD p.2.writer)

/-- The failure count and XCAUSE that a checked commit notes. -/
def noted (e : Env) (v : Wave) : Wave := v.noteCommit e.level ((verdict e).failsAfter (e.wv.span e.level)) (verdict e).cause

theorem cmtIllegal_checked {e : Env} (hc : e.wv.checkedLevel = some e.level) (hw : e.wv.whole = true) : cmtIllegal e = false := by
  simp [cmtIllegal, hc, hw]

/-- An open checked span is an open span. -/
theorem openTo_of_checked {v : Wave} {l : Nat} (h : v.checkedLevel = some l) : v.openTo l = true := by
  have hmem := List.mem_of_find?_eq_some h
  have hopen := List.find?_some h
  rw [Bool.and_eq_true] at hopen
  exact List.any_eq_true.2 ⟨l, List.mem_filter.2 ⟨hmem, hopen.1⟩, decide_eq_true (Nat.le_refl l)⟩

/-- A checked CMT of the wave's own level goes on: the wave is whole, no abort or grant is in its way, the validation at home goes
on, and no logged byte is a peer's (R218, R222, R226, R551). -/
structure CheckGoes (e : Env) : Prop where
  level : e.wv.checkedLevel = some e.level
  whole : e.wv.whole = true
  alive : e.wv.aborting = none
  noGrant : e.s.grantOfOther e.wid e.wv e.level = none
  goesOn : e.s.homeOk e.wid e.wv.lid (e.wv.readLog.map (·.loc))
  here : ∀ r ∈ e.wv.readLog, ∀ p c a, r.loc ≠ .peer p c a

theorem validating_home (e : Env) : HomeOnly e.s (validating e).s := atHome_home _ _

/-- No logged byte is a peer's: the log is validated as it stands. -/
theorem CheckGoes.validateFirst_eq {e : Env} (hgo : CheckGoes e) (body : Env → WRes) : validateFirst e body = body (validating e) := by
  unfold validateFirst
  refine (homeFirst_ok hgo.goesOn _).trans ?_
  rw [filter_no fun r hr => ?_]
  · rfl
  · cases hloc : r.loc with
    | peer p c a => exact absurd hloc (hgo.here r hr p c a)
    | dev a => rfl
    | host a => rfl

/-- The bytes of the survivors have been committed to the level, and left `s1`. -/
def MovesUp (e : Env) (s1 : State) : Prop :=
  (validating e).s.commitUp (whoOf e.wv e.wid e.fr) (e.wv.bid e.wid) e.level (keptBytes e) = .ok s1

theorem MovesUp.affects {e : Env} {s1 : State} (hup : MovesUp e s1) : Affects e.wid e.s s1 :=
  ((validating_home e).noWave.affects e.wid).trans (commitUp_affects hup)

section Checked

variable {w : Fields} {s s1 : State} {e : Env} (h : Issues w s e) (hgo : CheckGoes e)
include h hgo

theorem cmtBody_checked : cmtBody e = commitChecked (validating e) e.level (e.fbit 10) := by
  rw [cmtBody_moves h (cmtIllegal_checked hgo.level hgo.whole) hgo.alive hgo.noGrant, hgo.level, Option.isSome_some, if_pos rfl,
    hgo.validateFirst_eq]

theorem cmtBody_survivors (hsome : (verdict e).cause = 0 ∨ e.fbit 10 = false) (hup : MovesUp e s1) :
    cmtBody e = if s1.aborted e.wid then .done { s := s1.modWave e.wid (noted e) }
      else commitDone (validating e) ((s1.modWave e.wid fun v => (noted e (v.closeSpans e.level)).emptied).releaseGrants e.wid)
        (commitWrites e (maskOf (verdict e).surv)) := by
  have hno : ¬((e.fbit 10 && decide ((resolve (validating e) e.level).cause ≠ 0)) = true) := by
    rcases hsome with hz | hz
    · rw [show (resolve (validating e) e.level).cause = 0 from hz]
      simp
    · simp [hz]
  have hup' : (validating e).s.commitUp (whoOf (validating e).wv (validating e).wid (validating e).fr)
      ((validating e).wv.bid (validating e).wid) e.level
      (wsbBytes (List.filter (fun p => (resolve (validating e) e.level).surv.contains p.2.writer ||
        !(validating e).frag.mask.getLsbD p.2.writer) (validating e).wv.wsb)) = .ok s1 := hup
  rw [cmtBody_checked h hgo]
  simp only [commitChecked, if_neg hno, hup']
  rfl

/-- An overflow that aborts the wave ends its CMT; the verdict is noted. -/
theorem cmt_checkedStops (hsome : (verdict e).cause = 0 ∨ e.fbit 10 = false) (hup : MovesUp e s1) (hs : s1.aborted e.wid = true) :
    ∃ v, Stopped e w (s1.modWave e.wid fun _ => v) v ∧ v.xcause = BitVec.ofNat 64 (16 * e.level + (verdict e).cause) ∧
      (v.span e.level).fails = (verdict e).failsAfter (e.wv.span e.level) := by
  obtain ⟨u, hu, hparts⟩ := hup.affects.wave e.wv h.wave
  have hb := cmtBody_survivors h hgo hsome hup
  rw [if_pos hs, State.modWave_congr (g := fun _ => noted e u) hu rfl] at hb
  have hab : u.aborting.isSome := by rwa [State.aborted, hu] at hs
  obtain ⟨ab, rfl⟩ : ∃ ab, u = { e.wv with aborting := ab } := ⟨u.aborting, by rw [← hparts]⟩
  obtain ⟨s', w', hexec, hcomp, hvr, hsr, hkr, hfl, -⟩ := effect_done h (exec_cmt w s) hb
    ((HomeOnly.of_launches hup.affects.launches e.wv).trans h.alone) (State.wave_modWave_of hu) h.facts.frag rfl rfl (fpTrap_nil _ _) rfl
  refine ⟨noted e { e.wv with aborting := ab }, ⟨hab, s', w', hexec, hcomp, SameRegs.of_regs hvr hsr hkr,
    hfl.trans (fpflagsAfter_none _)⟩, rfl, ?_⟩
  exact (congrArg Span.fails (Wave.span_setSpan _ _ _ _)).trans (by rw [if_pos rfl])

/-- Without an abort the spans close, the buffers are empty, the grants go, and kD takes the survivors. -/
theorem cmt_checkedCommits (hsome : (verdict e).cause = 0 ∨ e.fbit 10 = false) (hup : MovesUp e s1) (hs : s1.aborted e.wid = false)
    (hpeer : s1.peerOps = e.s.peerOps) :
    ∃ s' w' v, exec (.cmt w) e.s = .next s' ∧ Completes e ((s1.modWave e.wid fun _ => v).releaseGrants e.wid) v s' w' ∧
      Taken e (maskOf (verdict e).surv) w' ∧ w'.fpflags = e.wv.fpflags ∧
      v.xcause = BitVec.ofNat 64 (16 * e.level + (verdict e).cause) ∧ v.wsb = [] ∧ v.readLog = [] ∧
      ∀ n, n ≤ e.level → (v.span n).isOpen = false := by
  have hsame : s1.wave e.wid = some e.wv := hup.affects.same h.wave hgo.alive hs
  have hb := cmtBody_survivors h hgo hsome hup
  rw [if_neg (Bool.eq_false_iff.1 hs),
    State.modWave_congr (g := fun _ => (noted e (e.wv.closeSpans e.level)).emptied) hsame rfl] at hb
  have hpeer' : s1.peerOps = (validating e).s.peerOps := by
    obtain ⟨_, _, _, _, _, _, _, _, hhome⟩ := validating_home e
    rw [hpeer, hhome]
  obtain ⟨hrest, hcause, hwsb, hlog, hclosed⟩ := noteCommit_spec e.wv e.level ((verdict e).failsAfter (e.wv.span e.level)) (verdict e).cause
  obtain ⟨s', w', hexec, hcomp, htaken, hfl⟩ := commit_takes h (exec_cmt w s) (hb.trans (commitDone_eq _ hpeer'))
    (State.wave_modWave_of hsame) hup.affects.launches hrest
  exact ⟨s', w', _, hexec, hcomp, htaken, hfl, hcause, hwsb, hlog, hclosed⟩

end Checked

/-! ### ABT and CMT.all (R219, R225, R227) -/

/-- A wave that its own word aborts at an open level is marked for the redirect; nothing is delivered. -/
theorem abort_marks {s : State} {wid fr l : Nat} (cause : Nat) {v : Wave} (hv : s.wave wid = some v) (ho : v.openTo l = true)
    (hsh : v.shadow = false) : (s.abortUnit (whoOf v wid fr) (v.bid wid) l cause).wave wid = some (v.affect l cause) :=
  abortUnit_marks (q := whoOf v wid fr) hv ho (fun _ => rfl) fun _ => ⟨rfl, rfl, hsh⟩

theorem affect_none {v : Wave} (h : v.aborting = none) (l cause : Nat) : v.affect l cause = { v with aborting := some (l, cause) } := by
  simp only [Wave.affect, h]

/-- The wave with the XCAUSE of its verdict. -/
def blamed (e : Env) : Wave := { e.wv with xcause := BitVec.ofNat 64 (16 * e.level + (verdict e).cause) }

theorem noted_only (e : Env) (v : Wave) : ∃ sp, noted e v = { v with spans := sp, xcause := (blamed e).xcause } := ⟨_, rfl⟩

/-- The state that CMT.all leaves where some lane does not survive: the failure is noted unless the span holds its grant. -/
def allAborts (e : Env) : State :=
  let t := ((validating e).s.modWave e.wid fun v => { v with xcause := (blamed e).xcause }).abortUnit
    (whoOf e.wv e.wid e.fr) (e.wv.bid e.wid) e.level (verdict e).cause
  if (e.wv.span e.level).holds then t else t.modWave e.wid (noted e)

theorem allAborts_launches (e : Env) : (allAborts e).launches = e.s.launches := by
  have habort : (((validating e).s.modWave e.wid fun v => { v with xcause := (blamed e).xcause }).abortUnit (whoOf e.wv e.wid e.fr)
      (e.wv.bid e.wid) e.level (verdict e).cause).launches = e.s.launches :=
    (abortUnit_affects _ _ _ _ _).launches.trans (validating_home e).noWave.launches
  unfold allAborts
  dsimp only
  split
  · exact habort
  · exact habort

/-- The wave that CMT.all has aborted. -/
theorem allAborts_wave {e : Env} (hw : e.s.wave e.wid = some e.wv) (hgo : CheckGoes e) (hsh : e.wv.shadow = false) :
    ∃ u, (allAborts e).wave e.wid = some u ∧ u.aborting = some (e.level, (verdict e).cause) ∧ u.xcause = (blamed e).xcause ∧
      { u with aborting := e.wv.aborting, xcause := e.wv.xcause, spans := e.wv.spans } = e.wv := by
  have hblamed : ((validating e).s.modWave e.wid fun v => { v with xcause := (blamed e).xcause }).wave e.wid = some (blamed e) :=
    State.wave_modWave_of (((validating_home e).wave e.wid).trans hw)
  have hmarked := abort_marks (fr := e.fr) (verdict e).cause hblamed (openTo_of_checked (v := e.wv) hgo.level) hsh
  rw [affect_none (v := blamed e) hgo.alive] at hmarked
  unfold allAborts
  dsimp only
  split
  · exact ⟨_, hmarked, rfl, rfl, rfl⟩
  · obtain ⟨sp, hnoted⟩ := noted_only e { blamed e with aborting := some (e.level, (verdict e).cause) }
    exact ⟨_, (State.wave_modWave_of hmarked).trans (congrArg some hnoted), rfl, rfl, rfl⟩

theorem cmtBody_allAborts {w : Fields} {s : State} {e : Env} (h : Issues w s e) (hgo : CheckGoes e) (hbad : (verdict e).cause ≠ 0)
    (hall : e.fbit 10 = true) : cmtBody e = .done { s := allAborts e } := by
  have hcond : (e.fbit 10 && decide ((resolve (validating e) e.level).cause ≠ 0)) = true := by
    rw [hall, Bool.true_and]
    exact decide_eq_true hbad
  rw [cmtBody_checked h hgo]
  simp only [commitChecked, if_pos hcond]
  rfl

/-- CMT.all that some lane does not survive aborts: the redirect waits and XCAUSE says why. -/
theorem cmt_allAborts {w : Fields} {s : State} {e : Env} (h : Issues w s e) (hgo : CheckGoes e) (hbad : (verdict e).cause ≠ 0)
    (hall : e.fbit 10 = true) (hsh : e.wv.shadow = false) :
    ∃ s' w', exec (.cmt w) e.s = .next s' ∧ s'.wave e.wid = some w' ∧ w'.aborting = some (e.level, (verdict e).cause) ∧
      w'.xcause = BitVec.ofNat 64 (16 * e.level + (verdict e).cause) ∧ SameRegs e.wv w' := by
  obtain ⟨u, hu, hab, hxc, hparts⟩ := allAborts_wave h.wave hgo hsh
  have hfrags : u.frags = e.wv.frags := by rw [← hparts]
  obtain ⟨s', w', hexec, hcomp, hvr, hsr, hkr, -, -⟩ := effect_done h (exec_cmt w s) (cmtBody_allAborts h hgo hbad hall)
    ((HomeOnly.of_launches (allAborts_launches e) e.wv).trans h.alone) hu (by rw [hfrags]; exact h.facts.frag) rfl rfl
    (fpTrap_nil _ _) rfl
  refine ⟨s', w', hexec, hcomp.wave, (congrArg Wave.aborting hcomp.parts).trans hab, (congrArg Wave.xcause hcomp.parts).trans hxc,
    SameRegs.of_regs (hvr.trans ?_) (hsr.trans ?_) (hkr.trans ?_)⟩
  · rw [← hparts]; rfl
  · rw [← hparts]; rfl
  · rw [← hparts]; rfl

/-- ABT's meaning. -/
def abtBody (e : Env) : WRes :=
  if !e.wv.openTo e.level then e.trapNow cABORT_UNHANDLED (BitVec.ofNat 64 e.level) 0 e.frag.mask
  else if e.acts then .done { s := e.s.abortUnit (whoOf e.wv e.wid e.fr) (e.wv.bid e.wid) e.level 4 }
  else .done { s := e.s }

theorem exec_abt (w : Fields) (s : State) : exec (.abt w) s = onWord w s abtBody := rfl

theorem abtBody_unhandled {e : Env} (ho : e.wv.openTo e.level = false) :
    abtBody e = e.trapNow cABORT_UNHANDLED (BitVec.ofNat 64 e.level) 0 e.frag.mask := by
  simp [abtBody, ho]

theorem abtBody_aborts {w : Fields} {s : State} {e : Env} (h : Issues w s e) (ho : e.wv.openTo e.level = true) :
    abtBody e = .done { s := e.s.abortUnit (whoOf e.wv e.wid e.fr) (e.wv.bid e.wid) e.level 4 } := by
  simp [abtBody, ho, Env.acts_single h.alone]

/-- ABT with a span open at or below its level marks its wave. -/
theorem abt_marks {w : Fields} {s : State} {e : Env} (h : Issues w s e) (ho : e.wv.openTo e.level = true) (hsh : e.wv.shadow = false) :
    ∃ s' w', exec (.abt w) e.s = .next s' ∧
      Completes e (e.s.abortUnit (whoOf e.wv e.wid e.fr) (e.wv.bid e.wid) e.level 4) (e.wv.affect e.level 4) s' w' ∧ SameRegs e.wv w' := by
  have hmarked := abort_marks (fr := e.fr) 4 h.wave ho hsh
  rw [Wave.affect_eq] at hmarked ⊢
  obtain ⟨s', w', hexec, hcomp, hvr, hsr, hkr, -, -⟩ := effect_done h (exec_abt w s) (abtBody_aborts h ho)
    ((HomeOnly.of_launches (abortUnit_affects _ _ _ _ _).launches e.wv).trans h.alone) hmarked h.facts.frag rfl rfl (fpTrap_nil _ _) rfl
  exact ⟨s', w', hexec, hcomp, SameRegs.of_regs hvr hsr hkr⟩

/-! ### CMT where it is illegal (R217, R218) -/

/-- A CMT at another level than the open checked span, of a part of the wave there, or CMT.all elsewhere. -/
theorem cmtIllegal_of {e : Env} (h : (e.wv.checkedLevel ≠ none ∧ (e.wv.checkedLevel ≠ some e.level ∨ e.wv.whole = false)) ∨
    (e.fbit 10 = true ∧ e.wv.checkedLevel ≠ some e.level)) : cmtIllegal e = true := by
  rcases h with ⟨hopen, hlevel | hwhole⟩ | ⟨hall, hlevel⟩
  · simp [cmtIllegal, Option.isSome_iff_ne_none.2 hopen, hlevel]
  · simp [cmtIllegal, Option.isSome_iff_ne_none.2 hopen, hwhole]
  · simp [cmtIllegal, hall, hlevel]

/-- Settles O37: an unchecked CMT, a checked one, an illegal one, and ABT without and with a span. -/
theorem commits : Obligations.Commits := by
  unfold Obligations.Commits
  intro w s e h l q bid d taken ready stopped
  refine ⟨fun hc hall ⟨hab, hg⟩ s1 hup => ?_, fun hc hw ⟨hab, hg⟩ hhome hpeers => ?_, fun hbad hh ht => ?_, fun ho hh ht => ?_,
    fun ho hsh => ?_⟩
  · exact ⟨fun hs => cmt_plainStops h hc hall hab hg hup hs, fun hs hpeer => cmt_plainCommits h hc hall hab hg hup hs hpeer⟩
  · have hgo : CheckGoes e := ⟨hc, hw, hab, hg, hhome, hpeers⟩
    exact ⟨fun hsome s1 hup => ⟨fun hs => cmt_checkedStops h hgo hsome hup hs,
      fun hs hpeer => cmt_checkedCommits h hgo hsome hup hs hpeer⟩, fun hbad hall hsh => cmt_allAborts h hgo hbad hall hsh⟩
  · refine faults_illegal h (exec_cmt w s) ?_ hh ht
    rw [cmtBody, cmtIllegal_of hbad, if_pos rfl]
  · exact fault_traps h (exec_abt w s) (abtBody_unhandled ho) hh ht
  · obtain ⟨s', w', hexec, hcomp, hregs⟩ := abt_marks h ho hsh
    exact ⟨s', w', _, hexec, hcomp, hregs, Wave.affect_eq _ _ _⟩

end Sys2Proof.Waves
end

section
/-! Proofs of family 06: waiting on tokens, lazy windows and pinned ranges (R223, R275, R276, R321 to R325, R401 to R403). -/

open Sys2Proof Sys2Proof.Machine
namespace Sys2Proof.Waves

/-! ### WAITK and WPRM (R223, R321 to R323) -/

/-- WAITK's meaning. -/
def waitkBody (e : Env) : WRes :=
  if e.wv.holdsAny then e.illegal
  else if e.wv.tokSet e.token then .wait e.s (.token e.token)
  else (heldFault e e.token).getD (.done { s := e.s })

theorem exec_waitk (w : Fields) (s : State) : exec (.waitk w) s = onWord w s waitkBody := rfl

/-- WPRM.read's meaning. -/
def wprmReadBody (e : Env) : WRes :=
  if e.wv.holdsAny then e.illegal
  else .done { s := e.s, ws := e.putS (Tbl.get e.wv.promise e.token 0) }

theorem exec_wprmRead (w : Fields) (s : State) : exec (.wprmRead w) s = onWord w s wprmReadBody := rfl

/-- WPRM's meaning. -/
def wprmBody (e : Env) : WRes := passed e wprmOp fun e x =>
  if x.trap.any (·.fault) then e.s.modWave e.wid fun w => { w with heldFaults := Tbl.del w.heldFaults e.token } else e.s

theorem exec_wprm (w : Fields) (s : State) : exec (.wprm w) s = onWord w s wprmBody := rfl

theorem wprmBody_single {w : Fields} {s : State} {e : Env} (h : Issues w s e) : wprmBody e = wprmOp e := passed_single h.alone _ _

theorem heldFault_none {e : Env} {t : Nat} (h : Tbl.find e.wv.heldFaults t = none) : heldFault e t = none := by
  rw [heldFault, h, Option.map_none]

section Free

variable {e : Env} (hfree : e.wv.holdsAny = false)
include hfree

theorem waitkBody_waits (hset : e.wv.tokSet e.token = true) : waitkBody e = .wait e.s (.token e.token) := by
  simp [waitkBody, hfree, hset]

theorem waitkBody_goes (hclear : e.wv.tokSet e.token = false) (hheld : Tbl.find e.wv.heldFaults e.token = none) :
    waitkBody e = .done { s := e.s } := by
  simp [waitkBody, hfree, hclear, heldFault_none hheld]

theorem wprmOp_goes (hclear : e.wv.tokSet e.token = false) (hheld : Tbl.find e.wv.heldFaults e.token = none) :
    wprmOp e = .done { s := e.s } := by
  simp [wprmOp, hfree, hclear, heldFault_none hheld]

/-- Outside handler mode WPRM waits for the promised cycle. -/
theorem wprmOp_waits (hset : e.wv.tokSet e.token = true) (hh : e.wv.handler = none)
    (hearly : e.s.cycOf e.wid < Tbl.get e.wv.promise e.token 0) :
    wprmOp e = .wait e.s (.promise e.token (Tbl.get e.wv.promise e.token 0)) := by
  simp [wprmOp, hfree, hset, hh, hearly]

/-- At the promised cycle WPRM reports the token that is still set. -/
theorem wprmOp_reports (hset : e.wv.tokSet e.token = true) (hh : e.wv.handler = none)
    (hlate : Tbl.get e.wv.promise e.token 0 ≤ e.s.cycOf e.wid) (hheld : Tbl.find e.wv.heldFaults e.token = none) :
    wprmOp e = .done { s := e.s, report := some (reportRec cPROMISE (BitVec.ofNat 64 e.token) e.frag.mask) } := by
  simp [wprmOp, hfree, hset, hh, Nat.not_lt.2 hlate, heldFault_none hheld]

theorem wprmReadBody_reads : wprmReadBody e = .done { s := e.s, ws := e.putS (Tbl.get e.wv.promise e.token 0) } := by
  simp [wprmReadBody, hfree]

end Free

/-- While the wave holds a grant the three words are illegal (R223). -/
theorem tokenWords_illegal {w : Fields} {s : State} {e : Env} (h : Issues w s e) (hholds : e.wv.holdsAny = true)
    (hh : e.wv.handler = none) (ht : e.wv.tvec ≠ 0) {i : Instr} (hi : i ∈ [Instr.waitk w, .wprm w, .wprmRead w]) :
    FaultsWith e i 0x01 (e.cl.words.getD e.cl.idx 0) 0 e.frag.mask := by
  simp only [List.mem_cons, List.not_mem_nil, or_false] at hi
  rcases hi with rfl | rfl | rfl
  · exact faults_illegal h (exec_waitk w s) (if_pos hholds) hh ht
  · exact faults_illegal h (exec_wprm w s) ((wprmBody_single h).trans (if_pos hholds)) hh ht
  · exact faults_illegal h (exec_wprmRead w s) (if_pos hholds) hh ht

/-! ### LAZY and LAZYC (R324, R325) -/

/-- A window over the tile of a tensor, not yet present. -/
def newWindow (e : Env) (off : Nat) (t : Tensor) : LazyWin :=
  { off := off, len := t.boxBytes, moves := t.toLocal e.coords 1 off, present := false, inflight := none }

/-- LAZY's meaning outside a TWIN block, at a scratchpad offset. -/
def lazyBody (win off : Nat) (e : Env) : WRes :=
  match e.s.block (e.wv.bid e.wid) with
  | none => .done { s := e.s }
  | some b =>
    if Tbl.mem b.lazyWins win then e.illegal
    else
      alignFault e [(off, 16)] <|
        withTensor e (e.uni e.w.a.toNat .b64) fun g t =>
          limitFault g [(1, off, t.boxBytes)] <|
            if b.lazyWins.any fun v => meets v.2.off v.2.len off t.boxBytes then g.illegal
            else .done { s := g.s.modBlock (g.wv.bid g.wid) fun b => { b with lazyWins := Tbl.put b.lazyWins win (newWindow g off t) } }

theorem exec_lazy (w : Fields) (s : State) : exec (.lazy w) s = onWord w s fun e =>
    passed e (lazyBody e.w.d.toNat (e.uni e.w.c.toNat .b64)) fun g x => shadowLazy g e.w.d.toNat x := rfl

theorem withTensor_reads {e g : Env} {va : Nat} {raw : Bytes} {t : Tensor} (hva : va % 64 = 0) (hread : ReadsParams e va 64 g raw)
    (ht : tensorOf raw = some t) (body : Env → Tensor → WRes) : withTensor e va body = body g t := by
  have halign : ¬va % 64 ≠ 0 := fun hne => hne hva
  rw [withTensor, if_neg halign, readParams_eq hread]
  simp only [ht]

/-- The parameters are read where the wave stands; nothing but homes and cores has changed. -/
theorem readsParams_home {e g : Env} {va n : Nat} {raw : Bytes} (h : ReadsParams e va n g raw) :
    HomeOnly e.s g.s ∧ g = { e with s := g.s } := by
  obtain ⟨loc, -, -, -, rfl, -⟩ := h
  exact ⟨atHome_home _ _, rfl⟩

theorem homeOnly_blocks {s t : State} (h : HomeOnly s t) : t.blocks = s.blocks := by
  obtain ⟨_, _, _, _, _, _, _, _, rfl⟩ := h
  rfl

/-- A range that no window meets. -/
theorem meets_none {t : Tbl LazyWin} {off n : Nat} (h : ∀ v ∈ t, ¬(v.2.off < off + n ∧ off < v.2.off + v.2.len)) :
    (t.any fun v => meets v.2.off v.2.len off n) = false := by
  refine List.any_eq_false.2 fun v hv => ?_
  simpa [meets] using h v hv

/-- A LAZY whose operands pass binds its window. -/
theorem lazyBody_binds {e g : Env} {b : Block} {win off : Nat} {raw : Bytes} {t : Tensor}
    (hb : e.s.block (e.wv.bid e.wid) = some b) (hwin : Tbl.mem b.lazyWins win = false) (hoff : off % 16 = 0)
    (hva : e.uni e.w.a.toNat .b64 % 64 = 0) (hread : ReadsParams e (e.uni e.w.a.toNat .b64) 64 g raw) (ht : tensorOf raw = some t)
    (hin : off + t.boxBytes ≤ b.scratchSize)
    (hapart : ∀ v ∈ b.lazyWins, ¬(v.2.off < off + t.boxBytes ∧ off < v.2.off + v.2.len)) :
    lazyBody win off e = .done { s := g.s.modBlock (e.wv.bid e.wid) fun _ =>
      { b with lazyWins := Tbl.put b.lazyWins win (newWindow e off t) } } := by
  obtain ⟨hhome, hg⟩ := readsParams_home hread
  have hbg : g.s.block (e.wv.bid e.wid) = some b := (congrArg (Tbl.find · (e.wv.bid e.wid)) (homeOnly_blocks hhome)).trans hb
  have hsize : spaceSize g 1 = b.scratchSize := by
    rw [hg]
    simp [spaceSize, hbg]
  have hnew : newWindow g off t = newWindow e off t := by
    rw [hg]
    rfl
  simp only [lazyBody, hb, hwin, Bool.false_eq_true, if_false]
  rw [alignFault_ok (by simpa using hoff), withTensor_reads hva hread ht, limitFault_ok (by simpa [hsize] using hin),
    meets_none hapart, if_neg Bool.false_ne_true, hnew,
    show g.wv.bid g.wid = e.wv.bid e.wid by rw [hg]]
  exact congrArg (fun s => WRes.done { s := s }) (State.modBlock_congr hbg rfl)

/-- LAZYC's meaning. -/
def lazycBody (e : Env) : WRes :=
  let busy := match (e.s.block (e.wv.bid e.wid)).bind fun b => Tbl.find b.lazyWins e.w.d.toNat with
    | some v => v.inflight.isSome
    | none => false
  if busy then .wait e.s (.lazyWin (e.wv.bid e.wid) e.w.d.toNat)
  else .done { s := e.s.modBlock (e.wv.bid e.wid) fun b => { b with lazyWins := Tbl.del b.lazyWins e.w.d.toNat } }

theorem exec_lazyc (w : Fields) (s : State) : exec (.lazyc w) s = onWord w s lazycBody := rfl

/-- A LAZYC of a window whose copy is not under way releases it. -/
theorem lazycBody_releases {e : Env} {b : Block} (hb : e.s.block (e.wv.bid e.wid) = some b)
    (hidle : ∀ v, Tbl.find b.lazyWins e.w.d.toNat = some v → v.inflight = none) :
    lazycBody e = .done { s := e.s.modBlock (e.wv.bid e.wid) fun _ => { b with lazyWins := Tbl.del b.lazyWins e.w.d.toNat } } := by
  have hset : (e.s.modBlock (e.wv.bid e.wid) fun b => { b with lazyWins := Tbl.del b.lazyWins e.w.d.toNat }) =
      e.s.modBlock (e.wv.bid e.wid) fun _ => { b with lazyWins := Tbl.del b.lazyWins e.w.d.toNat } := State.modBlock_congr hb rfl
  simp only [lazycBody, hb, Option.bind_some, hset]
  cases hw : Tbl.find b.lazyWins e.w.d.toNat with
  | none => rfl
  | some v =>
    simp only [hidle v hw]
    rfl

/-! ### PIN (R401 to R403) -/

/-- The first address of a range of pages. -/
def pinBase (e : Env) : Nat := e.uni e.w.a.toNat .b64

/-- The number of units of 4096 bytes. -/
def pinUnits (e : Env) : Nat := e.uni e.w.b.toNat .n32

/-- The units' addresses. -/
def pinPages (e : Env) : List Nat := (List.range (pinUnits e)).map fun i => (pinBase e + 4096 * i) % 2 ^ 64

/-- Their translations. -/
def pinMap (e : Env) : List (Nat × Resolved) := unitMap e.s e.wv.ctx .read (pinPages e)

/-- The first address that PIN may not pin, with its cause. -/
def pinBad (e : Env) : Option (Nat × Nat) := (pinPages e).findSome? fun va => match unitLoc (pinMap e) va with
  | .ok (.peer _ _ _) => some (va, cPROT)
  | .ok _ => none
  | .error c => some (va, c)

/-- The granules in device memory. -/
def pinGrans (e : Env) : List Nat := (pinPages e).filterMap fun va => match unitLoc (pinMap e) va with
  | .ok (.dev pa) => some (pa / 4096)
  | _ => none

/-- PIN's meaning outside a TWIN block. -/
def pinBody (e : Env) : WRes :=
  if pinBase e % 4096 ≠ 0 then e.trapNow cALIGN 0 (BitVec.ofNat 64 (pinBase e)) e.frag.mask
  else if pinUnits e = 0 ∨ pinUnits e > 262144 then e.illegal
  else match pinBad e with
    | some (va, c) =>
      if c = cPAGE && !e.frag.failed.contains (va % 2 ^ 57 / 2 ^ 16) then waitWalk e .read [va]
      else e.trapNow c 0 (BitVec.ofNat 64 va) e.frag.mask
    | none => pinRange e (pinBase e) (pinUnits e) (pinGrans e)

theorem exec_pin (w : Fields) (s : State) : exec (.pin w) s = onPassed w s pinBody := rfl

/-- A range whose every unit is in this system's memory has no address that PIN may not pin. -/
theorem pinBad_none {e : Env} (h : ∀ va ∈ pinPages e, ∃ l, unitLoc (pinMap e) va = .ok l ∧ ∀ p c a, l ≠ .peer p c a) : pinBad e = none := by
  refine List.findSome?_eq_none_iff.2 fun va hva => ?_
  obtain ⟨l, hl, hlocal⟩ := h va hva
  rw [hl]
  cases l with
  | peer p c a => exact absurd rfl (hlocal p c a)
  | dev a => rfl
  | host a => rfl

theorem pinBody_range {e : Env} (halign : pinBase e % 4096 = 0) (hpos : 0 < pinUnits e) (hmax : pinUnits e ≤ 262144)
    (h : ∀ va ∈ pinPages e, ∃ l, unitLoc (pinMap e) va = .ok l ∧ ∀ p c a, l ≠ .peer p c a) :
    pinBody e = pinRange e (pinBase e) (pinUnits e) (pinGrans e) := by
  have hunits : ¬(pinUnits e = 0 ∨ pinUnits e > 262144) := by omega
  rw [pinBody, if_neg (not_not.2 halign), if_neg hunits, pinBad_none h]

/-! What decides a PIN of some granules (R402, R403). -/

section Range

variable (e : Env) (grans : List Nat)

/-- The wave's die. -/
def pinDie : Nat := dieOfCore (coreOfWave e.wid)

/-- An entry of the die that holds no range. -/
def retFree (i : Nat) : Prop := i < 64 ∧ Tbl.find e.s.retention (retKey (pinDie e) i) = none

/-- The granules that the die is home to. -/
def pinMine : List Nat := grans.filter fun g => dieOfPa (4096 * g) == pinDie e

/-- The lines that PIN would pin. -/
def pinLines : Nat := 64 * (pinMine e grans).length

/-- Some page lies on another die or in host memory. -/
def pinRemote : Bool := decide ((pinMine e grans).length < grans.length)

/-- All granules that the die would hold pinned. -/
def pinnedAfter : List Nat := dedup ((e.s.retained (pinDie e)).flatMap (fun p => p.2.pinned) ++ pinMine e grans)

/-- The entries of the wave's own context. -/
def pinOwn : List (Nat × Retained) := (e.s.retained (pinDie e)).filter fun p => p.2.owner == e.wv.ctx

/-- Some slice would hold more pinned lines than half of its LLC part. -/
def pastHalf : Prop := ∃ k, k < 64 ∧
  llcLines (e.s.die (pinDie e)) < 2 * (64 * ((pinnedAfter e grans).filter fun g => sliceOf (4096 * g) == k).length)

/-- A limit of the context would be passed. -/
def pastLimit : Prop :=
  let quota := (e.s.ctx e.wv.ctx).word2.toNat
  bits quota 63 56 ≤ (pinOwn e).length ∨ bits quota 55 32 * 1024 < ((pinOwn e).map fun p => p.2.lines).sum + pinLines e grans

/-- The entry that PIN writes. -/
def pinEntry (base units : Nat) : Retained :=
  { owner := e.wv.ctx, vbase := base, units := units, remote := pinRemote e grans, lines := pinLines e grans, pinned := pinMine e grans }

/-- The lowest free entry of the die. -/
def lowestFree : Option Nat := (List.range 64).find? fun i => !Tbl.mem e.s.retention (retKey (pinDie e) i)

/-- The answer of PIN, as a word that completes. -/
def pinAnswers (x : Nat) (t : State) : WRes := .done { s := t, ws := e.putS x }

end Range

theorem lowestFree_none {e : Env} (h : ∀ i, ¬retFree e i) : lowestFree e = none := by
  refine List.find?_eq_none.2 fun i hi hmem => h i ⟨List.mem_range.1 hi, ?_⟩
  simpa [Tbl.mem] using hmem

theorem lowestFree_of {e : Env} {i : Nat} (h : retFree e i) (hlow : ∀ j, j < i → ¬retFree e j) : lowestFree e = some i := by
  obtain ⟨hi, hfind⟩ := h
  refine List.find?_range_eq_some.2 ⟨by simp [Tbl.mem, hfind], List.mem_range.2 hi, fun j hj => ?_⟩
  have hused : Tbl.find e.s.retention (retKey (pinDie e) j) ≠ none := fun hnone => hlow j hj ⟨hj.trans hi, hnone⟩
  simpa [Tbl.mem, Option.isSome_iff_ne_none] using hused

theorem overHalf_iff {e : Env} {grans : List Nat} : overHalf (e.s.die (pinDie e)) (pinnedAfter e grans) = true ↔ pastHalf e grans := by
  simp [overHalf, pastHalf]

/-- PIN by the entry that it finds. -/
theorem pinRange_eq (e : Env) (base units : Nat) (grans : List Nat) : pinRange e base units grans =
    match lowestFree e with
    | none => pinAnswers e 1 e.s
    | some i =>
      if overHalf (e.s.die (pinDie e)) (pinnedAfter e grans) then pinAnswers e 2 e.s
      else if (pinOwn e).length ≥ bits (e.s.ctx e.wv.ctx).word2.toNat 63 56 ∨
          ((pinOwn e).map fun p => p.2.lines).sum + pinLines e grans > bits (e.s.ctx e.wv.ctx).word2.toNat 55 32 * 1024 then
        pinAnswers e 3 e.s
      else pinAnswers e (pinStatus 0 i (pinLines e grans) (pinRemote e grans))
        { e.s with retention := Tbl.put e.s.retention (retKey (pinDie e) i) (pinEntry e grans base units) } := rfl

section Answers

variable {e : Env} {base units : Nat} {grans : List Nat}

theorem pinRange_full (h : ∀ i, ¬retFree e i) : pinRange e base units grans = pinAnswers e 1 e.s := by
  rw [pinRange_eq, lowestFree_none h]

variable {i : Nat} (hfree : lowestFree e = some i)
include hfree

theorem pinRange_half (hhalf : pastHalf e grans) : pinRange e base units grans = pinAnswers e 2 e.s := by
  rw [pinRange_eq, hfree]
  exact if_pos (overHalf_iff.2 hhalf)

theorem pinRange_limit (hhalf : ¬pastHalf e grans) (hlimit : pastLimit e grans) : pinRange e base units grans = pinAnswers e 3 e.s := by
  rw [pinRange_eq, hfree]
  exact (if_neg (mt overHalf_iff.1 hhalf)).trans (if_pos hlimit)

theorem pinRange_pins (hhalf : ¬pastHalf e grans) (hlimit : ¬pastLimit e grans) : pinRange e base units grans =
    pinAnswers e (pinStatus 0 i (pinLines e grans) (pinRemote e grans))
      { e.s with retention := Tbl.put e.s.retention (retKey (pinDie e) i) (pinEntry e grans base units) } := by
  rw [pinRange_eq, hfree]
  exact (if_neg (mt overHalf_iff.1 hhalf)).trans (if_neg hlimit)

end Answers

/-- The status word of a range that has been pinned. -/
theorem pinStatus_pinned (i lines : Nat) (remote : Bool) :
    pinStatus 0 i lines remote = i * 256 + (if remote then 16384 else 0) + lines * 65536 := by
  cases remote <;> simp [pinStatus, ofBool]

/-- A PIN that answers writes its word, and no wave changes with the table of entries. -/
theorem pin_answers {w : Fields} {s : State} {e : Env} (h : Issues w s e) {x : Nat} {t : State}
    (hb : pinBody e = pinAnswers e x t) (hn : NoWave e.s t) :
    ∃ s' w', exec (.pin w) e.s = .next s' ∧ Completes e t e.wv s' w' ∧ w'.fpflags = e.wv.fpflags ∧ WritesS e e.wv x w' := by
  obtain ⟨s', w', hexec, hcomp, hv, hs, hk, hfl, -⟩ := quiet_done h (exec_pin w s) ((passed_single h.alone _ _).trans hb) hn
  exact ⟨s', w', hexec, hcomp, hfl, (writesS_putS e e.wv x).of_regs hv hs hk⟩

/-! ### UNPIN (R403) -/

/-- The key of the entry that UNPIN names. -/
def unpinKey (e : Env) : Nat := retKey (dieOfCore (coreOfWave e.wid)) (e.uni e.w.a.toNat .n32)

/-- UNPIN's meaning. -/
def unpinBody (e : Env) : WRes :=
  let mine := match Tbl.find e.s.retention (unpinKey e) with
    | some x => x.owner == e.wv.ctx
    | none => false
  .done { s := if e.acts && decide (e.uni e.w.a.toNat .n32 < 64) && mine then
    { e.s with retention := Tbl.del e.s.retention (unpinKey e) } else e.s }

theorem exec_unpin (w : Fields) (s : State) : exec (.unpin w) s = onWord w s unpinBody := rfl

/-- UNPIN names an entry of the wave's own context. -/
def unpinMine (e : Env) : Prop :=
  e.uni e.w.a.toNat .n32 < 64 ∧ ∃ x, Tbl.find e.s.retention (unpinKey e) = some x ∧ x.owner = e.wv.ctx

theorem unpinBody_mine {e : Env} (ha : e.acts = true) (h : unpinMine e) :
    unpinBody e = .done { s := { e.s with retention := Tbl.del e.s.retention (unpinKey e) } } := by
  obtain ⟨hlt, x, hfind, hown⟩ := h
  simp [unpinBody, ha, hlt, hfind, hown]

theorem unpinBody_other {e : Env} (h : ¬unpinMine e) : unpinBody e = .done { s := e.s } := by
  by_cases hlt : e.uni e.w.a.toNat .n32 < 64
  · cases hfind : Tbl.find e.s.retention (unpinKey e) with
    | none => simp [unpinBody, hfind]
    | some x =>
      have hown : x.owner ≠ e.wv.ctx := fun hown => h ⟨hlt, x, hfind, hown⟩
      simp [unpinBody, hfind, hown]
  · simp [unpinBody, hlt]

/-- Settles O40: each word has one of the meanings above, and none of them touches a wave. -/
theorem tokensAndWindows : Obligations.TokensAndWindows := by
  unfold Obligations.TokensAndWindows
  intro w s e h t promise waits bid win quiet
  refine ⟨fun hfree => ⟨fun hclear hheld => ⟨?_, ?_⟩, fun hset => ?_, fun hset hh hearly => ?_, fun hset hh hlate hheld hla ht => ?_, ?_⟩,
    fun hholds hh ht i hi => tokenWords_illegal h hholds hh ht hi,
    fun b g raw x hb hwin => ?_, fun b hb hidle => ?_, ?_, ?_⟩
  · exact GivesNothing.of_done h (exec_waitk w s) (waitkBody_goes hfree hclear hheld)
  · exact GivesNothing.of_done h (exec_wprm w s) ((wprmBody_single h).trans (wprmOp_goes hfree hclear hheld))
  · exact exec_wait h (exec_waitk w s) (waitkBody_waits hfree hset)
  · exact exec_wait h (exec_wprm w s) ((wprmBody_single h).trans (wprmOp_waits hfree hset hh hearly))
  · obtain ⟨s1, w1, s', w', hexec, hcomp, htraps, hv, hs, hk, -⟩ := report_traps h (exec_wprm w s)
      ((wprmBody_single h).trans (wprmOp_reports hfree hset hh hlate hheld)) h.alone h.wave h.facts.frag rfl (.inr ⟨fpTrap_nil _ _, rfl⟩) rfl hla hh ht
    exact ⟨s1, w1, s', w', hexec, hcomp, SameRegs.of_regs hv hs hk, htraps⟩
  · exact GivesS.of_putS h (exec_wprmRead w s) (wprmReadBody_reads hfree)
  · intro off va hoff hva hread hx hin hapart v
    have hn : NoWave e.s g.s := (readsParams_home hread).1.noWave
    exact quiet_of h (exec_lazy w s) ((passed_single h.alone _ _).trans (lazyBody_binds hb hwin hoff hva hread hx hin hapart))
      (hn.trans ⟨rfl, rfl⟩)
  · exact quiet_of h (exec_lazyc w s) (lazycBody_releases hb hidle) ⟨rfl, rfl⟩
  · intro base units pages m die grans mine lines remote pinned own quota free half limit gives halign hpos hmax hpages
    have hbody : pinBody e = pinRange e base units grans := pinBody_range halign hpos hmax hpages
    refine ⟨fun hfull => pin_answers h (hbody.trans (pinRange_full hfull)) (.refl _), fun i hi hlow => ?_⟩
    have hfree : lowestFree e = some i := lowestFree_of hi hlow
    refine ⟨fun hhalf => pin_answers h (hbody.trans (pinRange_half hfree hhalf)) (.refl _),
      fun hhalf hlimit => pin_answers h (hbody.trans (pinRange_limit hfree hhalf hlimit)) (.refl _), fun hhalf hlimit => ?_⟩
    have hpins := hbody.trans (pinRange_pins hfree hhalf hlimit)
    rw [pinStatus_pinned] at hpins
    exact pin_answers h hpins ⟨rfl, rfl⟩
  · intro key mine
    exact ⟨fun hmine => quiet_of h (exec_unpin w s) (unpinBody_mine (Env.acts_single h.alone) hmine) ⟨rfl, rfl⟩,
      fun hother => quiet_of h (exec_unpin w s) (unpinBody_other hother) (.refl _)⟩

end Sys2Proof.Waves
end

section
/-! Proofs of family 08: copies that a word hands to the engine (R273, R274, R313 to R320). -/

open Sys2Proof Sys2Proof.Machine
namespace Sys2Proof.Waves

/-! ### What each copy word asks of the engine (R316, R318, R320) -/

/-- The bytes of the scratchpad that a copy of `n` bytes at an address of a space touches. -/
def spRange (space a n : Nat) : List (Nat × Nat) := if space = 1 && n > 0 then [(a, n)] else []

theorem spRange_eq (space a n : Nat) : spRange space a n = if space = 1 ∧ 0 < n then [(a, n)] else [] := by simp [spRange]

/-- CPY's copy. -/
def cpyCopy (e : Env) (dst src n : Nat) : CopyPlan := {
  moves := (List.range n).map fun i => (dstAt e.ds (dst + i),
    if e.ss = 0 then .mem ((src + i) % 2 ^ 64) else .byte ((scratchBytes e.s (e.wv.bid e.wid) (src + i) 1).headD 0))
  lat := if e.ss = 0 then 600 else 24, size := n, extra := none, ranges := spRange e.ds dst n ++ spRange e.ss src n }

/-- CPYX's copy. -/
def cpyxCopy (e : Env) (dst src n : Nat) : CopyPlan := {
  moves := (List.range n).map fun i => (dstAt e.ds (dst + i), .ds6 ((src + 3 * (i / 4)) % 2 ^ 64) (i % 4))
  lat := 600, size := n, extra := none, ranges := spRange e.ds dst n }

/-- The local space of a CPYT. -/
def tileSpace (e : Env) : Nat := if e.ds = 0 then e.ss else e.ds

/-- The part of the scratchpad that a CPYT's tile takes. -/
def tileRange (e : Env) (off : Nat) (t : Tensor) : List (Nat × Nat) := if tileSpace e = 1 then [(off, t.boxBytes)] else []

/-- CPYT's copy into a local tile. -/
def tileLoad (e : Env) (off : Nat) (t : Tensor) : CopyPlan := {
  moves := t.toLocal e.coords (tileSpace e) off, lat := 600, size := t.boxBytes, extra := none, ranges := tileRange e off t }

/-- CPYT's copy of a local tile into the tensor. -/
def tileStore (e : Env) (off : Nat) (t : Tensor) : CopyPlan :=
  let out := t.toMem e.coords (scratchBytes e.s (e.wv.bid e.wid) off t.boxBytes)
  { moves := out.1, lat := 24, size := out.1.length, extra := some (out.2, t.base), ranges := tileRange e off t }

/-- CPY's checks, and what it hands over. -/
def cpyAsks (dst src n : Nat) (e : Env) (hand : Env → CopyPlan → WRes) : WRes :=
  alignFault e [(dst, 16), (src, 16), (n, 16)] <| limitFault e [(e.ds, dst, n), (e.ss, src, n)] <|
    if n = 0 then noTransfer e else hand e (cpyCopy e dst src n)

/-- CPYX's checks, and what it hands over. -/
def cpyxAsks (dst src n : Nat) (e : Env) (hand : Env → CopyPlan → WRes) : WRes :=
  alignFault e [(dst, 16), (src, 16), (n, 64)] <| limitFault e [(e.ds, dst, n)] <| hand e (cpyxCopy e dst src n)

/-- CPYT's checks, and what it hands over once its descriptor has been read. -/
def cpytAsks (off desc : Nat) (e : Env) (hand : Env → CopyPlan → WRes) : WRes :=
  alignFault e [(off, 16)] <| withTensor e desc fun e t => limitFault e [(tileSpace e, off, t.boxBytes)] <|
    if e.ds = 0 then hand e (tileStore e off t) else hand e (tileLoad e off t)

/-- The destination that D names. -/
def copyDst (e : Env) : Nat := e.uni e.w.d.toNat .b64

/-- The source that A names; for CPYT the address of its descriptor. -/
def copySrc (e : Env) : Nat := e.uni e.w.a.toNat .b64

/-- The bytes that B counts. -/
def copyLen (e : Env) : Nat := e.uni e.w.b.toNat .n32

theorem exec_cpy (w : Fields) (s : State) : exec (.cpy w) s = onWord w s fun e =>
    copyOp e (copyFold [copyDst e, copySrc e, copyLen e]) (cpyAsks (copyDst e) (copySrc e) (copyLen e)) := rfl

theorem exec_cpyx (w : Fields) (s : State) : exec (.cpyx w) s = onWord w s fun e =>
    copyOp e (copyFold [copyDst e, copySrc e, copyLen e]) (cpyxAsks (copyDst e) (copySrc e) (copyLen e)) := rfl

/-- The registers of a CPYT's signature: its operands and its coordinates. -/
def cpytFold (e : Env) : Bytes :=
  let n := e.w.b.toNat - 0x80
  copyFold [copyDst e, copySrc e, e.wv.sget n, e.wv.sget (n + 1), e.wv.sget (n + 2)]

theorem exec_cpyt (w : Fields) (s : State) : exec (.cpyt w) s = onWord w s fun e =>
    copyOp e (cpytFold e) (cpytAsks (copyDst e) (copySrc e)) := rfl

/-- The three words share one shape: a copy whose first check is that of the destination's alignment. -/
theorem copyWord_checksDst {w : Fields} {i : Instr} (hi : i ∈ [Instr.cpy w, .cpyx w, .cpyt w]) (s : State) :
    ∃ (ops : Env → Bytes) (asks : Env → Env → (Env → CopyPlan → WRes) → WRes),
      (exec i s = onWord w s fun e => copyOp e (ops e) (asks e)) ∧
      ∀ e hand, ∃ l b, asks e e hand = alignFault e ((copyDst e, 16) :: l) b := by
  simp only [List.mem_cons, List.not_mem_nil, or_false] at hi
  rcases hi with rfl | rfl | rfl
  · exact ⟨_, _, exec_cpy w s, fun e hand => ⟨_, _, rfl⟩⟩
  · exact ⟨_, _, exec_cpyx w s, fun e hand => ⟨_, _, rfl⟩⟩
  · exact ⟨_, _, exec_cpyt w s, fun e hand => ⟨_, _, rfl⟩⟩

theorem copyOp_waits {e : Env} (hset : e.wv.tokSet e.token = true) (ops : Bytes) (asks : Env → (Env → CopyPlan → WRes) → WRes) :
    copyOp e ops asks = .wait e.s (.token e.token) := if_pos hset

/-- A space other than memory holds the `n` bytes at `a`. -/
def InSpace (e : Env) (space a n : Nat) : Prop := space ≠ 0 → a + n ≤ spaceSize e space

section Asks

variable {e : Env} {dst src n : Nat} (hdst : dst % 16 = 0)
include hdst

theorem cpyAsks_passes (hsrc : src % 16 = 0) (hn : n % 16 = 0) (hto : InSpace e e.ds dst n) (hfrom : InSpace e e.ss src n)
    (hand : Env → CopyPlan → WRes) :
    cpyAsks dst src n e hand = if n = 0 then noTransfer e else hand e (cpyCopy e dst src n) := by
  rw [cpyAsks, alignFault_ok (by simp [hdst, hsrc, hn]), limitFault_ok (by simpa [InSpace] using ⟨hto, hfrom⟩)]

theorem cpyxAsks_passes (hsrc : src % 16 = 0) (hn : n % 64 = 0) (hto : InSpace e e.ds dst n) (hand : Env → CopyPlan → WRes) :
    cpyxAsks dst src n e hand = hand e (cpyxCopy e dst src n) := by
  rw [cpyxAsks, alignFault_ok (by simp [hdst, hsrc, hn]), limitFault_ok (by simpa [InSpace] using hto)]

/-- CPYT goes on in the environment that its descriptor's read has left. -/
theorem cpytAsks_passes {g : Env} {desc : Nat} {raw : Bytes} {t : Tensor} (hdesc : desc % 64 = 0) (hread : ReadsParams e desc 64 g raw)
    (ht : tensorOf raw = some t) (htile : InSpace g (tileSpace g) dst t.boxBytes) (hand : Env → CopyPlan → WRes) :
    cpytAsks dst desc e hand = if g.ds = 0 then hand g (tileStore g dst t) else hand g (tileLoad g dst t) := by
  rw [cpytAsks, alignFault_ok (by simp [hdst]), withTensor_reads hdesc hread ht, limitFault_ok (by simpa [InSpace] using htile)]

end Asks

/-- Reading parameters changes no core but in its update-only lines. -/
theorem readsParams_cores {e g : Env} {va n : Nat} {raw : Bytes} (h : ReadsParams e va n g raw) : CoreKeeps e.s g.s := by
  obtain ⟨loc, -, -, -, rfl, -⟩ := h
  exact atHome_keeps _ _

/-- Reading parameters leaves every space as large as it was. -/
theorem readsParams_spaceSize {e g : Env} {va n : Nat} {raw : Bytes} (h : ReadsParams e va n g raw) (space : Nat) :
    spaceSize g space = spaceSize e space := by
  obtain ⟨hhome, hg⟩ := readsParams_home h
  have hblock (b : Nat) : g.s.block b = e.s.block b := congrArg (Tbl.find · b) (homeOnly_blocks hhome)
  rw [hg]
  simp only [spaceSize, hblock]

/-- A copy word outside a TWIN block whose checks pass in `g` starts its copy there, where the copy goes. -/
theorem copyWord_starts {w : Fields} {s : State} {e g : Env} (h : Issues w s e) {i : Instr} {ops : Env → Bytes}
    {asks : Env → Env → (Env → CopyPlan → WRes) → WRes} {p : CopyPlan} (hx : exec i s = onWord w s fun e => copyOp e (ops e) (asks e))
    (hclear : e.wv.tokSet e.token = false) (hroom : (e.s.core (coreOfWave e.wid)).copies.length < 32)
    (hg : g = { e with s := g.s }) (hhome : HomeOnly e.s g.s) (hcores : CoreKeeps e.s g.s)
    (hasks : ∀ hand, asks e e hand = hand g p) (hgo : CopyGoes g p) : CopyStarts e g i p := by
  refine copy_starts h hx hg hhome hcores hgo.goesOn hgo.read ?_
  calc copyOp e (ops e) (asks e)
      = asks e e fun e p => withScratch e e.act p.ranges fun e => launchCopy e p := copyOp_eq h.alone hclear hroom _ _
    _ = withScratch g g.act p.ranges fun e => launchCopy e p := hasks _
    _ = launchCopy g p := withScratch_eq hgo.drained hgo.windows

/-- A copy word that reads no descriptor. -/
theorem copyWord_startsHere {w : Fields} {s : State} {e : Env} (h : Issues w s e) {i : Instr} {ops : Env → Bytes}
    {asks : Env → Env → (Env → CopyPlan → WRes) → WRes} {p : CopyPlan} (hx : exec i s = onWord w s fun e => copyOp e (ops e) (asks e))
    (hasks : ∀ hand, asks e e hand = hand e p) (hgo : CopyGoes e p) : CopyStarts e e i p :=
  copyWord_starts h hx hgo.clear hgo.room rfl (.refl _) (.refl _) hasks hgo

/-- Settles O39: each word passes its checks and hands over its plan, CPY of no bytes none; the set token and the misaligned
destination come before everything that the words do apart. A CPYX of no bytes hands over a copy too, by the model's choice (log entry 92). -/
theorem copies : Obligations.Copies := by
  unfold Obligations.Copies
  intro w s e h dst src n inside at_ cpy cpyx
  have hcpy : cpy = cpyCopy e dst src n := by simp only [cpyCopy, spRange_eq]; rfl
  have hcpyx : cpyx = cpyxCopy e dst src n := by simp only [cpyxCopy, spRange_eq]; rfl
  refine ⟨fun hdst hsrc hn hto hfrom => ⟨fun hpos hgo => ?_, fun hzero hclear hroom => ?_⟩, fun hdst hsrc hn hto hgo => ?_,
    fun g raw t hdst hdesc hclear hroom hread ht => ?_, fun hset i hi => ?_, fun hclear hroom hodd hh ht i hi => ?_⟩
  · rw [hcpy] at hgo ⊢
    exact copyWord_startsHere h (exec_cpy w s)
      (fun hand => (cpyAsks_passes hdst hsrc hn hto hfrom hand).trans (if_neg hpos.ne')) hgo
  · exact copy_none h (exec_cpy w s) ((copyOp_eq h.alone hclear hroom _ _).trans
      ((cpyAsks_passes hdst hsrc hn hto hfrom _).trans (if_pos hzero)))
  · rw [hcpyx] at hgo ⊢
    exact copyWord_startsHere h (exec_cpyx w s) (cpyxAsks_passes hdst hsrc hn hto) hgo
  · intro size into sp out load store
    obtain ⟨hhome, hg⟩ := readsParams_home hread
    have hds : g.ds = e.ds := by rw [hg]; rfl
    have hspace : tileSpace g = if e.ds = 0 then e.ss else e.ds := by rw [hg]; rfl
    have hasks (hin : into) := cpytAsks_passes hdst hdesc hread ht
      (show InSpace g (tileSpace g) dst t.boxBytes by rw [InSpace, hspace, readsParams_spaceSize hread]; exact hin)
    have hstarts {p : CopyPlan} := copyWord_starts (p := p) h (exec_cpyt w s) hclear hroom hg hhome (readsParams_cores hread)
    refine ⟨fun hload hin hgo => ?_, fun hstore hin hgo => ?_⟩
    · have hplan : load = tileLoad g dst t := by
        rw [tileLoad, tileRange, hspace, if_neg hload, hg]; rfl
      rw [hplan] at hgo ⊢
      exact hstarts (fun hand => (hasks hin hand).trans (if_neg (hds.trans_ne hload))) hgo
    · have hplan : store = tileStore g dst t := by
        rw [tileStore, tileRange, hspace, if_pos hstore, hg]; rfl
      rw [hplan] at hgo ⊢
      exact hstarts (fun hand => (hasks hin hand).trans (if_pos (hds.trans hstore))) hgo
  · obtain ⟨ops, asks, hx, -⟩ := copyWord_checksDst hi s
    exact exec_wait h hx (copyOp_waits hset _ _)
  · obtain ⟨ops, asks, hx, hchecks⟩ := copyWord_checksDst hi s
    obtain ⟨l, b, hb⟩ := hchecks e fun e p => withScratch e e.act p.ranges fun e => launchCopy e p
    exact alignFault_bad h hx ((copyOp_eq h.alone hclear hroom _ _).trans hb) hodd hh ht

end Sys2Proof.Waves
end

section
/-! Proofs of family 09: atomics and reductions (R304 to R310, R407, R521). -/

open Sys2Proof Sys2Proof.Machine
namespace Sys2Proof.Waves

/-! ### What an atomic reads and writes (R304, R307) -/

/-- The lanes' addresses of ATOM and RED (R304). -/
def atomAddrs (e : Env) : List (Nat × Nat) := e.lanes.map fun i => (i, e.ea (e.f 5 4) false i)

/-- The accesses of an atomic whose lanes all pass. -/
def atomAccs (e : Env) : List Access := accesses e .write (atomAddrs e)

/-- The environment in which the update-only copies of the atomic's lines have been recalled (R408). -/
def atomEnv (e : Env) : Env := { e with s := e.s.atHome ((atomAccs e).map (·.loc)) }

/-- Where the atomic finds its elements. -/
def atomHome (e : Env) : State := e.atomState e.level (atomAddrs e)

/-- The element that an access finds. -/
def atomOld (e : Env) (a : Access) : Nat := currentElem (atomHome e) e.wv e.wid e.level (elemBytes e.ty) a

/-- The element that it leaves: the old one combined with C. -/
def atomNew (e : Env) (a : Access) : Nat := (combine (e.f 3 0) e.ty .rne (atomOld e a) ((atomEnv e).c e.ty a.lane)).1

/-- Every access with its new element. -/
def atomNews (e : Env) : List (Access × Nat) := (atomAccs e).map fun a => (a, atomNew e a)

/-- What becomes of the new elements at the level. -/
def atomDoes (e : Env) : Except Halt State := atomOut e (atomHome e) e.level (elemBytes e.ty) (atomNews e)

/-- The atomic goes on at its level. -/
def AtomGoes (e : Env) : Prop := Atomable e (elemBytes e.ty) e.level (atomAddrs e)

/-- The atomic's lanes pass the checks that do not depend on its level. -/
def AtomChecked (e : Env) : Prop := AtomPasses e (elemBytes e.ty) (atomAddrs e)

theorem AtomGoes.scopes {e : Env} (h : AtomGoes e) : scopeLanes (atomEnv e) e.level (atomAccs e) = (atomHome e, atomAccs e, []) :=
  Prod.ext rfl (Atomable.scopes h)

/-- Launches alone decide whether one is a DET launch. -/
theorem isDet_of_launches {s t : State} (h : t.launches = s.launches) (lid : Nat) : t.isDet lid = s.isDet lid := by
  unfold State.isDet State.flag State.record State.launch
  rw [h]

theorem atomEnv_isDet (e : Env) : (atomEnv e).s.isDet e.wv.lid = e.s.isDet e.wv.lid :=
  isDet_of_launches (atHome_home _ _).noWave.launches _

theorem atomHome_affects {e : Env} {s1 : State} (h : atomDoes e = .ok s1) : Affects e.wid e.s s1 :=
  ((atomState_way e e.level (atomAddrs e)).noWave.affects _).trans (atomOut_affects h)

/-- The atomic is below device level, or its launch is not a DET launch. -/
def OutsideDet (e : Env) : Prop := e.level < 3 ∨ e.s.isDet e.wv.lid = false

theorem OutsideDet.eq {e : Env} (h : OutsideDet e) : (decide (e.level ≥ 3) && e.s.isDet e.wv.lid) = false := by
  rcases h with hl | hd
  · rw [decide_eq_false (Nat.not_le.2 hl), Bool.false_and]
  · rw [hd, Bool.and_false]

/-! ### ATOM (R307) -/

/-- ATOM once its lanes are checked; `o` is the environment in which it issued. -/
def atomTakes (o e : Env) (l : List Access) (bad : List LaneFault) : WRes :=
  let ask := unanswered e l
  if !ask.isEmpty then
    .wait (sendAtomics e e.s (elemBytes o.ty) ask (fun i => e.c o.ty i) (.atom (o.f 3 0) (e.f 10 6))) (.peer e.s.free)
  else
    let (s, ok, badScope) := scopeLanes e o.level l
    let here := ok.filter fun a => !a.isPeer
    let old (a : Access) : Nat := currentElem s e.wv e.wid o.level (elemBytes o.ty) a
    let olds := here.map fun a => (a, old a)
    let news := olds.map fun p => (p.1, (combine (o.f 3 0) o.ty .rne p.2 (e.c o.ty p.1.lane)).1)
    let far := (ok.filter Access.isPeer).map fun a => (a, ofLE (((Tbl.find e.frag.answers a.va).map (·.2)).getD []))
    let ws := (olds ++ far).flatMap fun p => putAt e.w.d.toNat o.ty p.1.lane p.2
    atomWrite e s o.level (elemBytes o.ty) news fun s =>
      let (n, s) := s.fresh
      .done { s := s, ws := ws, lat := Config.loadCycles n, load := true, fault := laneTrap (bad ++ badScope) }

/-- ATOM's meaning. -/
def atomBody (e : Env) : WRes :=
  if e.wv.checkedLevel.isSome then e.illegal
  else if e.level ≥ 3 && e.s.isDet e.wv.lid && !e.lanes.isEmpty then e.trapNow cDET_FORBIDDEN 0 0 e.act
  else leaderOnce e (atomFold e e.ty) fun g => atomChecks g e.level (elemBytes e.ty) true (atomTakes e)

theorem exec_atom (w : Fields) (s : State) : exec (.atom w) s = onWord w s atomBody := rfl

/-- The register writes of ATOM: each lane takes the element that it has found. -/
def atomWrites (e : Env) : List RegWrite := (atomAccs e).flatMap fun a => putAt e.w.d.toNat e.ty a.lane (atomOld e a)

/-- ATOM's lanes, once checked, take their old elements and write the new ones. -/
theorem atomTakes_goes {e : Env} {s1 : State} (hg : AtomGoes e) (hout : atomDoes e = .ok s1) :
    atomTakes e (atomEnv e) (atomAccs e) [] =
      .done { s := s1.fresh.2, ws := atomWrites e, lat := Config.loadCycles s1.fresh.1, load := true } := by
  have hdev : ∀ a ∈ atomAccs e, ∃ pa, a.loc = .dev pa := hg.device
  simp only [atomTakes, unanswered_none hdev, List.isEmpty_nil, Bool.not_true, Bool.false_eq_true, if_false, hg.scopes,
    notPeer_all hdev, peer_none hdev, List.map_nil, List.append_nil, List.map_map, List.flatMap_map]
  exact atomWrite_ok (e := atomEnv e) (l := atomNews e) hout _

/-- Below device level, or outside a DET launch, an ATOM that goes on does what its lanes ask. -/
theorem atomBody_goes {w : Fields} {s : State} {e : Env} {s1 : State} (h : Issues w s e) (hc : e.wv.checkedLevel = none)
    (hg : AtomGoes e) (hout : atomDoes e = .ok s1) (hd : OutsideDet e) :
    atomBody e = .done { s := s1.fresh.2, ws := atomWrites e, lat := Config.loadCycles s1.fresh.1, load := true } := by
  rw [atomBody, hc, hd.eq, Bool.false_and, if_neg (by simp), if_neg Bool.false_ne_true, leaderOnce_single h.alone]
  exact (atomChecks_eq hg _).trans (atomTakes_goes hg hout)

/-- The writes of ATOM are those of D, for the access of each lane. -/
theorem atomWrites_lanes {e : Env} (hg : AtomGoes e) :
    ∃ f : Nat → Nat, (∀ a ∈ atomAccs e, f a.lane = atomOld e a) ∧
      atomWrites e = e.lanes.flatMap fun i => putAt e.w.d.toNat e.ty i (f i) := by
  obtain ⟨loc, -, hacc⟩ := accesses_lanes hg.passes
  have hacc : atomAccs e = e.lanes.map fun i => { lane := i, va := e.ea (e.f 5 4) false i, loc := loc i } := hacc
  refine ⟨fun i => atomOld e { lane := i, va := e.ea (e.f 5 4) false i, loc := loc i }, fun a ha => ?_, ?_⟩
  · rw [hacc] at ha
    obtain ⟨i, -, rfl⟩ := List.mem_map.1 ha
    rfl
  · rw [atomWrites, hacc, List.flatMap_map]

/-- ATOM completes: each lane of D takes the old element of its access. -/
theorem atom_completes {w : Fields} {s : State} {e : Env} {s1 : State} (h : Issues w s e) (hc : e.wv.checkedLevel = none)
    (hg : AtomGoes e) (hout : atomDoes e = .ok s1) (hd : OutsideDet e) (hD : e.w.d.toNat < 0x80) :
    ∃ f, (∃ s' v w', exec (.atom w) e.s = .next s' ∧ Completes e s1.fresh.2 v s' w' ∧
        { v with aborting := e.wv.aborting } = e.wv ∧ w'.fpflags = e.wv.fpflags ∧ WritesD e e.wv e.ty f w') ∧
      ∀ a ∈ atomAccs e, f a.lane = atomOld e a := by
  obtain ⟨f, hold, hws⟩ := atomWrites_lanes hg
  have haffects : Affects e.wid e.s s1.fresh.2 := (atomHome_affects hout).trans ((CoresOnly.fresh s1).home.noWave.affects _)
  obtain ⟨s', v, w', hexec, hcomp, hv, hfl, hvr, hsr, hkr, -⟩ :=
    affect_done h (exec_atom w s) (atomBody_goes h hc hg hout hd) haffects
  rw [hws, writes_lanes_putD e e.wv e.ty f hD] at hvr hsr hkr
  exact ⟨f, ⟨s', v, w', hexec, hcomp, hv, hfl, (writesD_putD h.facts.lane_lt e.wv e.ty f).of_regs hvr hsr hkr⟩, hold⟩

/-! ### RED (R310, R407, R521) -/

/-- RED once its lanes are checked; `o` is the environment in which it issued. -/
def redTakes (o e : Env) (l : List Access) (bad : List LaneFault) : WRes :=
  if o.level ≥ 3 && e.s.isDet e.wv.lid then
    if e.s.stagedBytes + 8 * l.length > 2 ^ 26 then .wait e.s .staging
    else
      let (s, ok, badScope) := scopeLanes e o.level l
      let s := redStage { e with s := s } (o.f 3 0) ok
      .done { s := s, fault := laneTrap (bad ++ badScope) }
  else if o.level = 3 then
    match redDev e (o.f 3 0) o.ty l with
    | some (s, badScope) => .done { s := s, fault := laneTrap (bad ++ badScope) }
    | none => .wait (e.s.starveAt (((e.s.core (coreOfWave e.wid)).u.map fun p => .dev (64 * p.1)) ++ l.map (·.loc))) .replayRoom
  else
    let (s, ok, badScope) := scopeLanes e o.level l
    let here := ok.filter fun a => !a.isPeer
    let news := here.map fun a =>
      (a, (combine (o.f 3 0) o.ty .rne (currentElem s e.wv e.wid o.level (elemBytes o.ty) a) (e.c o.ty a.lane)).1)
    let s := sendAtomics e s (elemBytes o.ty) (ok.filter Access.isPeer) (fun i => e.c o.ty i) (.red (o.f 3 0) (e.f 10 6))
    atomWrite e s o.level (elemBytes o.ty) news fun s => .done { s := s, fault := laneTrap (bad ++ badScope) }

/-- Atomics at home send nothing. -/
theorem sendAtomics_none (e : Env) (s : State) (size : Nat) (data : Nat → Nat) (kind : PeerKind) :
    sendAtomics e s size [] data kind = s := rfl

/-- RED recalls the update-only copies of its lines: not at device level, where it joins them, nor where it is staged. -/
def redRecalls (level : Nat) (det : Bool) : Bool := level != 3 && !(level ≥ 3 && det)

/-- RED's meaning. -/
def redBody (e : Env) : WRes :=
  if e.wv.checkedLevel.isSome then e.illegal
  else leaderOnce e (atomFold e e.ty) fun g =>
    atomChecks g e.level (elemBytes e.ty) (redRecalls e.level (g.s.isDet g.wv.lid)) (redTakes e)

theorem exec_red (w : Fields) (s : State) : exec (.red w) s = onWord w s redBody := rfl

/-- A RED that leaves `s1`, in which no wave has changed, completes. -/
theorem red_leaves {w : Fields} {s s1 : State} {e : Env} (h : Issues w s e) (hb : redBody e = .done { s := s1 }) (hn : NoWave e.s s1) :
    ∃ s' v w', exec (.red w) e.s = .next s' ∧ Completes e s1 v s' w' ∧ { v with aborting := e.wv.aborting } = e.wv ∧
      w'.fpflags = e.wv.fpflags ∧ SameRegs e.wv w' ∧ w'.pending = e.wv.pending := by
  obtain ⟨s', w', hexec, hcomp, hregs, hfl, hp⟩ := quiet_of h (exec_red w s) hb hn
  exact ⟨s', e.wv, w', hexec, hcomp, rfl, hfl, hregs, hp⟩

section Red

variable {w : Fields} {s s1 : State} {e : Env} (h : Issues w s e) (hc : e.wv.checkedLevel = none)
include h hc

/-- Outside a checked span RED checks its lanes. -/
theorem redBody_checks :
    redBody e = atomChecks e e.level (elemBytes e.ty) (redRecalls e.level (e.s.isDet e.wv.lid)) (redTakes e) := by
  rw [redBody, hc, if_neg (by simp), leaderOnce_single h.alone]

/-- A RED that recalls nothing meets its lines as they are. -/
theorem redBody_beside (hp : AtomChecked e) (hstop : e.s.homeStop e.wid e.wv.lid ((atomAccs e).map (·.loc)) = none)
    (hr : redRecalls e.level (e.s.isDet e.wv.lid) = false) : redBody e = redTakes e e (atomAccs e) [] := by
  rw [redBody_checks h hc, hr]
  refine (atomChecks_pass e.level hp false _).trans ?_
  unfold atomAccs atomAddrs at hstop
  simp only [Bool.false_eq_true, if_false, hstop]
  rfl

/-- At a level other than the device's RED writes its new elements, as ATOM does. -/
theorem redBody_writes (hg : AtomGoes e) (hout : atomDoes e = .ok s1) (hd : OutsideDet e) (hl : e.level ≠ 3) :
    redBody e = .done { s := s1 } := by
  have hrecalls : redRecalls e.level (e.s.isDet e.wv.lid) = true := by simp [redRecalls, hd.eq, hl]
  have hdev : ∀ a ∈ atomAccs e, ∃ pa, a.loc = .dev pa := hg.device
  have hstaged : (decide (e.level ≥ 3) && (atomEnv e).s.isDet (atomEnv e).wv.lid) = false :=
    (congrArg _ (atomEnv_isDet e)).trans hd.eq
  rw [redBody_checks h hc, hrecalls]
  refine (atomChecks_eq hg _).trans ?_
  show redTakes e (atomEnv e) (atomAccs e) [] = _
  simp only [redTakes, hstaged, Bool.false_eq_true, if_false, hl, hg.scopes, notPeer_all hdev, peer_none hdev,
    sendAtomics_none]
  exact atomWrite_ok (e := atomEnv e) (l := atomNews e) hout _

/-- RED at a level other than the device's completes and changes no register. -/
theorem red_completes (hg : AtomGoes e) (hout : atomDoes e = .ok s1) (hd : OutsideDet e) (hl : e.level ≠ 3) :
    ∃ s' v w', exec (.red w) e.s = .next s' ∧ Completes e s1 v s' w' ∧
      { v with aborting := e.wv.aborting } = e.wv ∧ w'.fpflags = e.wv.fpflags ∧ SameRegs e.wv w' ∧ w'.pending = e.wv.pending := by
  obtain ⟨s', v, w', hexec, hcomp, hv, hfl, hvr, hsr, hkr, hp⟩ := affect_done (lat := 4) (ld := false) (ws := []) h (exec_red w s)
    (redBody_writes h hc hg hout hd hl) (atomHome_affects hout)
  exact ⟨s', v, w', hexec, hcomp, hv, hfl, SameRegs.of_regs hvr hsr hkr, hp rfl⟩

variable (hp : AtomChecked e) (hstop : e.s.homeStop e.wid e.wv.lid ((atomAccs e).map (·.loc)) = none)
include hp hstop

/-- RED at device level outside a DET launch joins the core's update-only lines. -/
theorem redBody_joins (hl : e.level = 3) (hd : e.s.isDet e.wv.lid = false)
    (hred : redDev e (e.f 3 0) e.ty (atomAccs e) = some (s1, [])) : redBody e = .done { s := s1 } := by
  rw [redBody_beside h hc hp hstop (by simp [redRecalls, hl])]
  simp only [redTakes, hd, Bool.and_false, Bool.false_eq_true, if_false, hl, if_true, hred]
  rfl

/-- RED at or above device level of a DET launch enters its block's open group. -/
theorem redBody_stages (hl : 3 ≤ e.level) (hd : e.s.isDet e.wv.lid = true)
    (hroom : e.s.stagedBytes + 8 * (atomAccs e).length ≤ 2 ^ 26) (hscope : (scopeLanes e e.level (atomAccs e)).2 = (atomAccs e, [])) :
    redBody e = .done { s := redStage { e with s := (scopeLanes e e.level (atomAccs e)).1 } (e.f 3 0) (atomAccs e) } := by
  rw [redBody_beside h hc hp hstop (by simp [redRecalls, hl, hd])]
  have hlanes : scopeLanes e e.level (atomAccs e) = ((scopeLanes e e.level (atomAccs e)).1, atomAccs e, []) := Prod.ext rfl hscope
  rw [redTakes, hd, if_pos (by simpa using hl), if_neg (Nat.not_lt.2 hroom), hlanes]
  rfl

end Red

/-! ### What the buffers take (R307, R308, R405) -/

/-- The way to an atomic's elements leaves every block and every crew. -/
theorem atomHome_buffers (e : Env) : (atomHome e).blocks = e.s.blocks ∧ (atomHome e).crews = e.s.crews := by
  obtain ⟨u, ⟨_, _, _, _, _, _, _, _, rfl⟩, ⟨_, _, _, _, _, _, hway⟩⟩ := atomState_way e e.level (atomAddrs e)
  rw [atomHome, hway]
  exact ⟨rfl, rfl⟩

/-- No grant of another wave is on a line of the bytes. -/
def GrantFree (s : State) (wid : Nat) (l : Tbl BufByte) : Prop := s.grantOnLines wid (l.map fun p => p.2.loc) = none

/-- Bytes that the block buffer has room for enter it (R261). -/
theorem putBlock_fits {s : State} {q : Who} {bid : Nat} {b : Block} {l : Tbl BufByte} (hb : s.block bid = some b)
    (hg : GrantFree s q.wid l) (hroom : lineCount (bufPut b.buf l) ≤ b.ways * 1024) :
    s.putBlock q bid l = .ok (s.modBlock bid fun _ => { b with buf := bufPut b.buf l }) := by
  unfold GrantFree at hg
  simp only [State.putBlock, hb, hg, hroom, if_true]
  exact congrArg Except.ok (State.modBlock_congr hb rfl)

/-- The L1 keys of the crew buffer's lines that hold the bytes. -/
def crewKeys (ck : Nat) (l : Tbl BufByte) : List Nat := dedup (l.map fun p => crewLineKey ck (lineOf p.1))

/-- Bytes that the crew buffer has room for enter it, and the L1 copies of their lines are dropped (R374, R375). -/
theorem putCrew_fits {s : State} {q : Who} {c : Crew} {l : Tbl BufByte} (hcrew : s.crew (crewKey q.lid q.crew) = some c)
    (hg : GrantFree s q.wid l) (hroom : lineCount (bufPut c.buf l) ≤ c.share * 1024) :
    s.putCrew q l =
      .ok ((s.modCrew (crewKey q.lid q.crew) fun _ => { c with buf := bufPut c.buf l }).dropCopies (coreOfWave q.wid)
        (crewKeys (crewKey q.lid q.crew) l)) := by
  unfold GrantFree at hg
  simp only [State.putCrew, hcrew, hg, hroom, if_true]
  exact congrArg (fun t : State => Except.ok (t.dropCopies (coreOfWave q.wid)
    (crewKeys (crewKey q.lid q.crew) l))) (State.modCrew_congr hcrew rfl)

/-- The bytes of the new elements, as they enter a buffer. -/
def atomBytes (e : Env) : Tbl BufByte := newBytes (elemBytes e.ty) (atomNews e)

/-- A buffer takes the new elements. -/
theorem atom_bufTakes {w : Fields} {s : State} {e : Env} (h : Issues w s e) (hg : AtomGoes e) (t : Tbl BufByte) :
    BufTakes (bufPut t (atomBytes e)) t (elemBytes e.ty) (atomAccs e) (atomNew e) :=
  bufTakes_bufPut (accesses_aligned hg.passes) (pairwise_va (h.facts.lanes ▸ lanesOf_nodup _ _) hg) t

section Buffers

variable {w : Fields} {s : State} {e : Env} (h : Issues w s e) (hg : AtomGoes e)
include h hg

/-- At block level the block buffer takes the new elements. -/
theorem atom_block (hl : e.level = 1) {b : Block} (hb : e.s.block (e.wv.bid e.wid) = some b) :
    ∃ buf, BufTakes buf b.buf (elemBytes e.ty) (atomAccs e) (atomNew e) ∧
      (GrantFree (atomHome e) e.wid (atomBytes e) → lineCount buf ≤ b.ways * 1024 →
        atomDoes e = .ok ((atomHome e).modBlock (e.wv.bid e.wid) fun _ => { b with buf := buf })) := by
  refine ⟨bufPut b.buf (atomBytes e), atom_bufTakes h hg b.buf, fun hfree hroom => ?_⟩
  have hhome : (atomHome e).block (e.wv.bid e.wid) = some b := by
    rw [State.block, (atomHome_buffers e).1]
    exact hb
  rw [atomDoes, atomOut, if_pos hl]
  exact congrArg (absorb _ _ _) (putBlock_fits hhome hfree hroom)

/-- At crew level the crew buffer takes the new elements. -/
theorem atom_crew (hl : e.level = 2) {c : Crew} (hcrew : e.s.crew e.wv.ckey = some c) :
    ∃ buf keys, BufTakes buf c.buf (elemBytes e.ty) (atomAccs e) (atomNew e) ∧
      (GrantFree (atomHome e) e.wid (atomBytes e) → lineCount buf ≤ c.share * 1024 →
        atomDoes e = .ok (((atomHome e).modCrew e.wv.ckey fun _ => { c with buf := buf }).dropCopies (coreOfWave e.wid) keys)) := by
  have hhome : (atomHome e).crew e.wv.ckey = some c := by
    rw [State.crew, (atomHome_buffers e).2]
    exact hcrew
  refine ⟨bufPut c.buf (atomBytes e), crewKeys e.wv.ckey (atomBytes e), atom_bufTakes h hg c.buf, fun hfree hroom => ?_⟩
  rw [atomDoes, atomOut, if_neg (by simp [hl]), if_pos hl]
  exact congrArg (absorb _ _ _) (putCrew_fits (q := whoOf e.wv e.wid e.fr) hhome hfree hroom)

end Buffers

/-- Settles O35: ATOM takes the old elements, RED none; the new ones enter the block's or the crew's buffer, or memory; RED at device
level joins update-only lines, and in a DET launch the open group. -/
theorem atomics : Obligations.Atomics := by
  unfold Obligations.Atomics
  intro w s e h hc t size level op l acc home old g new news out free done quiet
  refine ⟨fun hg => ⟨fun s1 hout hd => ⟨fun hD => atom_completes h hc hg hout hd hD, fun hl => red_completes h hc hg hout hd hl⟩,
      fun hl b hb => atom_block h hg hl hb, fun hl c hcrew => atom_crew h hg hl hcrew, fun hl hr hu hsep => ?_⟩,
    fun hp hstop => ⟨fun hl hd s1 hred => ?_, fun hl hd hroom hscope => ?_⟩⟩
  · exact atomOut_memory (h.facts.lanes ▸ lanesOf_nodup _ _) hg hl hr hu hsep
  · exact red_leaves h (redBody_joins h hc hp hstop hl hd hred) (redDev_noWave hred)
  · exact red_leaves h (redBody_stages h hc hp hstop hl hd hroom hscope)
      (NoWave.trans (scopeLanes_scope e level acc).noWave (redStage_noWave { e with s := (scopeLanes e level acc).1 } op acc))

end Sys2Proof.Waves
end

section
/-! Proofs of family 11: the operand buffer, the stand tile and the mask state (R342 to R349, R357). -/

open Sys2Proof Sys2Proof.Machine
namespace Sys2Proof.Matrix

/-! ### How a word of the matrix unit completes -/

/-- The word completes, changes neither its wave nor a register, and leaves `t` otherwise. -/
def Quiet (e : Env) (i : Instr) (t : State) : Prop :=
  ∃ s' w', exec i e.s = .next s' ∧ Completes e t e.wv s' w' ∧ SameRegs e.wv w' ∧ w'.fpflags = e.wv.fpflags ∧
    w'.pending = e.wv.pending

/-- The word completes, makes its wave `v`, and leaves `t` otherwise. -/
def Becomes (e : Env) (i : Instr) (t : State) (v : Wave) : Prop :=
  ∃ s' w', exec i e.s = .next s' ∧ Completes e (t.modWave e.wid fun _ => v) v s' w' ∧ SameRegs v w' ∧
    w'.fpflags = v.fpflags ∧ w'.pending = v.pending

/-- The sizes of the three local spaces are those of the wave's block (R313). -/
theorem spaceSize_block {e : Env} {b : Block} (hb : e.s.block (e.wv.bid e.wid) = some b) :
    spaceSize e 1 = b.scratchSize ∧ spaceSize e 2 = b.obufSize ∧ spaceSize e 3 = b.standSize := by
  simp [spaceSize, hb]

/-- Elements that a write puts into the operand buffer, of two that overlap the later one's bytes last. -/
theorem writeObuf_elems {s : State} {bid : Nat} {b : Block} (hb : s.block bid = some b) (size : Nat) (val : Nat → Nat)
    (l : List (Nat × Nat)) : ∃ s1 buf,
      s.writeObuf bid (l.map fun p => (p.2, leBytes size (val p.1))) = (s1.modBlock bid fun _ => { b with obuf := buf }) ∧
      { s1 with cores := s.cores, free := s.free } = s ∧
      (∀ k, { s1.core k with copies := (s.core k).copies, passes := (s.core k).passes } = s.core k) ∧
      (flying s bid = [] → (∀ p ∈ (s.core (bid / 8)).passes, p.col.bid ≠ bid) → s1 = s) ∧
      ∀ a, Memory.read buf a = storedByte l size val (Memory.read b.obuf a) a := by
  obtain ⟨s1, hwrite, hrest, hcore, hidle⟩ := writeObuf_does s bid b hb (l.map fun p => (p.2, leBytes size (val p.1)))
  rw [List.foldl_map] at hwrite
  exact ⟨s1, _, hwrite, hrest, hcore, hidle, read_obufs size val l b.obuf⟩

/-! ### What the words see -/

/-- A lane's offset in the record. -/
def obOff (e : Env) (i : Nat) : Nat := e.src e.w.b.toNat .n32 i

/-- Bytes of an element of OBW, OBL or STB. -/
def obSize (e : Env) : Nat := tyBits e.ty / 8

/-- The 32-bit word of MMSK's parameter block at a byte offset (R357). -/
def maskParam (e : Env) (o : Nat) : Nat := ofLE (scratchBytes e.s (e.wv.bid e.wid) (e.uni e.w.a.toNat .b64 + o) 4)

/-- The rows of MMSK's bitmap (R357). -/
def maskRows (e : Env) : List W32 :=
  (List.range 32).map fun i => BitVec.ofNat 32 (ofLE (scratchBytes e.s (e.wv.bid e.wid) (maskParam e 12 + 4 * i) 4))

/-- The mask state that MMSK's parameter block names. -/
def maskNamed (e : Env) : MaskState :=
  { mode := maskParam e 0, row0 := toSigned 32 (maskParam e 4), col0 := toSigned 32 (maskParam e 8),
    bitmap := if maskParam e 0 = 2 then maskRows e else [] }

section Words

variable {w : Fields} {s : State} {e : Env} {b : Block} (h : Issues w s e) (hb : e.s.block (e.wv.bid e.wid) = some b)

/-! ### OBR and OBF (R345, R346) -/

section Records
include h hb

/-- A legal pair of words becomes the record. -/
theorem obr_puts {r : ObRec} (hr : recordOf (e.uni e.w.a.toNat .b64) (e.uni e.w.b.toNat .b64) b.obufSize = some r) :
    Quiet e (.obr w) (e.s.modBlock (e.wv.bid e.wid) fun _ => { b with recs := Tbl.put b.recs e.w.d.toNat r }) := by
  refine quiet_of h (i := .obr w) rfl ?_ ⟨rfl, rfl⟩
  simp only [(spaceSize_block hb).2.1, hr]
  exact congrArg (fun t => WRes.done { s := t }) (State.modBlock_congr hb rfl)

/-- Any other pair of words raises OB_RECORD with reason 7. -/
theorem obr_faults (hr : recordOf (e.uni e.w.a.toNat .b64) (e.uni e.w.b.toNat .b64) b.obufSize = none) (hl : e.lanes ≠ [])
    (hh : e.wv.handler = none) (ht : e.wv.tvec ≠ 0) :
    FaultsWith e (.obr w) 0x12 (BitVec.ofNat 64 (7 + 256 * e.w.d.toNat)) 0 (maskOf e.lanes) := by
  refine faults_obAll h (i := .obr w) rfl ?_ hl hh ht
  simp only [(spaceSize_block hb).2.1, hr]

/-- OBF frees its record. -/
theorem obf_frees :
    Quiet e (.obf w) (e.s.modBlock (e.wv.bid e.wid) fun _ => { b with recs := Tbl.del b.recs e.w.d.toNat }) :=
  quiet_of h (i := .obf w) rfl (congrArg (fun t => WRes.done { s := t }) (State.modBlock_congr hb rfl)) ⟨rfl, rfl⟩

end Records

/-! ### OBW and OBL (R347, R348) -/

section Unrecorded
include h hb

/-- Without a record OBW and OBL raise OB_RECORD with reason 1. -/
theorem obw_obl_fault (hr : Tbl.find b.recs e.w.a.toNat = none) (hl : e.lanes ≠ []) (hh : e.wv.handler = none) (ht : e.wv.tvec ≠ 0)
    {i : Instr} (hi : i ∈ [Instr.obw w, .obl w]) :
    FaultsWith e i 0x12 (BitVec.ofNat 64 (1 + 256 * e.w.a.toNat)) 0 (maskOf e.lanes) := by
  have hrec : e.record e.w.a.toNat = none := (Numbers.record_of_block hb _).trans hr
  simp only [List.mem_cons, List.not_mem_nil, or_false] at hi
  rcases hi with rfl | rfl
  · refine faults_obAll h (i := .obw w) rfl ?_ hl hh ht
    simp only [hrec]
  · refine faults_obAll h (i := .obl w) rfl ?_ hl hh ht
    simp only [hrec]

end Unrecorded

section Recorded

variable {r : ObRec} (hr : Tbl.find b.recs e.w.a.toNat = some r)
  (hpass : ∀ i ∈ e.lanes, obOff e i % obSize e = 0 ∧ obOff e i + obSize e ≤ r.size)
include h hb hr hpass

/-- OBW writes the lanes' elements, the higher lane's bytes last; copies and passes under way settle. -/
theorem obw_writes : ∃ s1 buf, Quiet e (.obw w) (s1.modBlock (e.wv.bid e.wid) fun _ => { b with obuf := buf }) ∧
    { s1 with cores := e.s.cores, free := e.s.free } = e.s ∧
    (∀ k, { s1.core k with copies := (e.s.core k).copies, passes := (e.s.core k).passes } = e.s.core k) ∧
    (flying e.s (e.wv.bid e.wid) = [] → (∀ p ∈ (e.s.core (e.wv.bid e.wid / 8)).passes, p.col.bid ≠ e.wv.bid e.wid) → s1 = e.s) ∧
    ∀ a, Memory.read buf a = storedByte (e.lanes.map fun i => (i, r.base * 256 + obOff e i)) (obSize e)
      (fun i => e.src e.w.d.toNat e.ty i) (Memory.read b.obuf a) a := by
  have hrec : e.record e.w.a.toNat = some r := (Numbers.record_of_block hb _).trans hr
  have hlanes : obLanes e r (tyBits e.ty / 8) = (e.lanes.map fun i => (i, r.base * 256 + obOff e i), [], []) := obLanes_ok hpass
  obtain ⟨s1, buf, hwrite, hrest, hcore, hidle, hread⟩ := writeObuf_elems hb (obSize e) (fun i => e.src e.w.d.toNat e.ty i)
    (e.lanes.map fun i => (i, r.base * 256 + obOff e i))
  refine ⟨s1, buf, quiet_of h (i := .obw w) rfl ?_ ((Waves.noWave_of_cores hrest).trans ⟨rfl, rfl⟩), hrest, hcore, hidle, hread⟩
  simp only [hrec, hlanes]
  exact congrArg (fun t => WRes.done { s := t }) hwrite

/-- OBL reads the lanes' elements into D. -/
theorem obl_reads (hd : e.w.d.toNat < 0x80) : GivesD e (.obl w) e.ty fun i =>
    ofLE (obufBytes e.s (e.wv.bid e.wid) (r.base * 256 + obOff e i) (obSize e)) := by
  have hrec : e.record e.w.a.toNat = some r := (Numbers.record_of_block hb _).trans hr
  have hlanes : obLanes e r (tyBits e.ty / 8) = (e.lanes.map fun i => (i, r.base * 256 + obOff e i), [], []) := obLanes_ok hpass
  refine GivesD.of_elems h (i := .obl w) (lat := 6) rfl ?_
  simp only [hrec, hlanes, Env.elems, Env.putD, if_pos hd, List.flatMap_map]
  rfl

end Recorded

/-! ### STB and MMSK (R342, R357) -/

section States
include h hb

/-- STB sets the stand tile, where it is aligned and lies in the block's share. -/
theorem stb_sets (halign : e.uni e.w.a.toNat .b64 % 1024 = 0) (hpos : e.uni e.w.b.toNat .n32 ≠ 0) (hkt : e.uni e.w.b.toNat .n32 % 32 = 0)
    (hin : e.uni e.w.a.toNat .b64 + e.uni e.w.b.toNat .n32 * 32 * obSize e ≤ b.standSize) :
    Becomes e (.stb w) e.s
      { e.wv with tile := some { sb := e.uni e.w.a.toNat .b64, kt := e.uni e.w.b.toNat .n32, fmt := e.f 10 6 } } := by
  refine sets_of h (i := .stb w) (f := fun v => { v with tile := some _ }) rfl ?_ rfl rfl
  have hrange : ¬(e.uni e.w.a.toNat .b64 + e.uni e.w.b.toNat .n32 * 32 * (tyBits e.ty / 8) > b.standSize) := Nat.not_lt.2 hin
  simp [halign, hpos, hkt, (spaceSize_block hb).2.2, hrange]

/-- A parameter block outside the scratchpad raises OB_RECORD with reason 9. -/
theorem mmsk_outside (halign : e.uni e.w.a.toNat .b64 % 16 = 0) (hout : b.scratchSize < e.uni e.w.a.toNat .b64 + 16) (hl : e.lanes ≠ [])
    (hh : e.wv.handler = none) (ht : e.wv.tvec ≠ 0) :
    FaultsWith e (.mmsk w) 0x12 (BitVec.ofNat 64 (9 + 256 * 0)) 0 (maskOf e.lanes) := by
  refine faults_obAll h (i := .mmsk w) rfl ?_ hl hh ht
  simp [halign, (spaceSize_block hb).1, hout]

section Inside

variable (halign : e.uni e.w.a.toNat .b64 % 16 = 0) (hin : e.uni e.w.a.toNat .b64 + 16 ≤ b.scratchSize)
  (habs : b.absentAt [(e.uni e.w.a.toNat .b64, 16)] = none) (hdr : e.wv.draining e.fr = false)
include halign hin habs hdr

/-- A parameter block without a mode raises OB_RECORD with reason 9. -/
theorem mmsk_modeless (hmode : 2 < maskParam e 0) (hl : e.lanes ≠ []) (hh : e.wv.handler = none) (ht : e.wv.tvec ≠ 0) :
    FaultsWith e (.mmsk w) 0x12 (BitVec.ofNat 64 (9 + 256 * 0)) 0 (maskOf e.lanes) := by
  refine faults_obAll h (i := .mmsk w) rfl ?_ hl hh ht
  simp only [halign, (spaceSize_block hb).1, Nat.not_lt.2 hin, Waves.withScratch_goes hb habs (.inr hdr)]
  exact if_pos hmode

/-- MMSK sets the mask state that a parameter block with a mode names. -/
theorem mmsk_sets (hmode : maskParam e 0 ≤ 2)
    (hmap : maskParam e 0 = 2 → maskParam e 12 % 16 = 0 ∧ maskParam e 12 + 128 ≤ b.scratchSize ∧
      b.absentAt [(maskParam e 12, 128)] = none) :
    Becomes e (.mmsk w) e.s { e.wv with maskState := maskNamed e } := by
  refine sets_of h (i := .mmsk w) (f := fun v => { v with maskState := maskNamed e }) rfl ?_ rfl rfl
  have hrange : b.absentAt (if maskParam e 0 = 2 then [(maskParam e 12, 128)] else []) = none := by
    split
    · next h2 => exact (hmap h2).2.2
    · exact Waves.absentAt_nil b
  have hbitmap : ¬(decide (maskParam e 0 = 2) && (maskParam e 12 % 16 != 0 || decide (maskParam e 12 + 128 > b.scratchSize))) = true := by
    simpa using fun h2 => ⟨(hmap h2).1, (hmap h2).2.1⟩
  simp only [halign, (spaceSize_block hb).1, Nat.not_lt.2 hin, Waves.withScratch_goes hb habs (.inr hdr)]
  refine (if_neg (Nat.not_lt.2 hmode)).trans ((if_neg hbitmap).trans ?_)
  exact Waves.withScratch_goes hb hrange (.inr hdr)

end Inside

end States

end Words

/-- Settles O42: each word has one of the meanings above. -/
theorem operandBuffer : Obligations.OperandBuffer := by
  unfold Obligations.OperandBuffer
  intro w s e b h hb bid quiet sets faults size
  refine ⟨?_, obf_frees h hb,
    fun hr => ⟨fun hl hh ht => obw_obl_fault h hb hr hl hh ht (by simp), fun hl hh ht => obw_obl_fault h hb hr hl hh ht (by simp)⟩,
    fun r hr hpass => ⟨obw_writes h hb hr hpass, obl_reads h hb hr hpass⟩,
    fun halign hpos hkt hin => stb_sets h hb halign hpos hkt hin, ?_⟩
  · intro x y r legal
    obtain ⟨hlegal, hillegal⟩ := recordOf_eq x y b.obufSize
    exact ⟨fun hr => obr_puts h hb (hlegal hr), fun hr => obr_faults h hb (hillegal hr)⟩
  · intro a q map halign
    exact ⟨mmsk_outside h hb halign, fun hin habs hdr =>
      ⟨mmsk_modeless h hb halign hin habs hdr, mmsk_sets h hb halign hin habs hdr⟩⟩

end Sys2Proof.Matrix
end

section
/-! Proofs of family 11: the accumulators, drains and the swath at issue (R353, R359 to R364, R386). -/

open Sys2Proof Sys2Proof.Machine
namespace Sys2Proof.Matrix

/-! ### Words in the order of the array (R338, R353, R365) -/

/-- The active lanes' tiles from a base lie in the allotment, and no SWR is to write one of them. -/
def TilesFree (e : Env) (base : Nat) : Prop :=
  (∀ i ∈ e.lanes, tileOf base i < e.wv.accs) ∧ e.wv.receives (e.lanes.map (tileOf base)) = none

/-- The array has reached every access to them. -/
def TilesReady (e : Env) (base : Nat) : Prop := TilesFree e base ∧ e.wv.queued (e.lanes.map (tileOf base)) = false

/-- The array has still to reach an access to one of them. -/
def TilesBehind (e : Env) (base : Nat) : Prop := TilesFree e base ∧ e.wv.queued (e.lanes.map (tileOf base)) = true

/-- The wave with one more access to the array. -/
def waveWith (e : Env) (x : ArrayOp) : Wave := { e.wv with arrayQ := e.wv.arrayQ ++ [x] }

theorem withTiles_free {e : Env} {base : Nat} (hfree : TilesFree e base) (body : Env → WRes) : withTiles e base body = body e :=
  withTiles_ok hfree.2 hfree.1

theorem inOrder_ready {e : Env} {base : Nat} (hready : TilesReady e base) (late body : Env → WRes) :
    inOrder e base late body = body e := by
  obtain ⟨hfree, hqueued⟩ := hready
  rw [inOrder, withTiles_free hfree, hqueued, if_neg Bool.false_ne_true]

theorem inOrder_behind {e : Env} {base : Nat} (hbehind : TilesBehind e base) (late body : Env → WRes) :
    inOrder e base late body = late e := by
  obtain ⟨hfree, hqueued⟩ := hbehind
  rw [inOrder, withTiles_free hfree, hqueued, if_pos rfl]

/-- The element of a lane's row in the tiles from a base. -/
def laneElem (e : Env) (base l j : Nat) : Nat := e.wv.aget (tileOf base l) (rowOf l) j

/-! ### What the words see and do -/

/-- The exponents of ACS by lane. -/
def acsScales (e : Env) : List (Nat × Int) := e.lanes.map fun l => (l, toSigned 32 (e.a .i32 l))

/-- The first column that ACR reads. -/
def acrCol (e : Env) : Nat := e.uni e.w.c.toNat .n32

/-- The registers that ACR writes. -/
def acrCount (e : Env) : Nat := 2 ^ e.f 2 0

/-- The word gives the active lanes' rows in the tiles from base `d` the elements `f`, and changes no other row. -/
def SetsRows (e : Env) (i : Instr) (d : Nat) (f : Nat → Nat → Nat) : Prop :=
  ∃ acc, Becomes e i e.s { e.wv with acc := acc } ∧
    (∀ l ∈ e.lanes, ∀ j, j < 32 → ({ e.wv with acc := acc } : Wave).aget (tileOf d l) (rowOf l) j = f l j % 2 ^ 32) ∧
    ∀ t r j, r < 8 → j < 32 → (∀ l ∈ e.lanes, ¬(tileOf d l = t ∧ rowOf l = r)) →
      ({ e.wv with acc := acc } : Wave).aget t r j = e.wv.aget t r j

section Words

variable {w : Fields} {s : State} {e : Env} (h : Issues w s e)
include h

/-- A word that joins the wave's accesses. -/
theorem joins_of {i : Instr} {body : Env → WRes} {x : ArrayOp} (hx : exec i s = onWord w s body)
    (hb : body e = .done { s := e.enqueue e.s x }) : Becomes e i e.s (waveWith e x) := sets_of h hx hb rfl rfl

/-! ### ACZ and ACS (R359, R360) -/

theorem setsRows_of {i : Instr} {body : Env → WRes} {d : Nat} {f : Nat → Nat → Nat} {g : Wave → Wave}
    (hx : exec i s = onWord w s body) (hb : body e = .done { s := e.s.modWave e.wid g })
    (hg : g e.wv = e.lanes.foldl (fun v l => v.rowSet (tileOf d l) (rowOf l) (f l)) e.wv) : SetsRows e i d f := by
  obtain ⟨acc, hacc⟩ := rowSets_parts d f e.lanes e.wv
  obtain ⟨hset, hkeep⟩ := aget_rowSets d f e.lanes e.wv
  rw [hacc] at hset hkeep
  exact ⟨acc, sets_of h hx hb (hg.trans hacc) rfl, hset, hkeep⟩

theorem acz_clears (hready : TilesReady e e.w.d.toNat) : SetsRows e (.acz w) e.w.d.toNat fun _ _ => 0 :=
  setsRows_of h rfl (inOrder_ready hready _ _) rfl

theorem acz_joins (hbehind : TilesBehind e e.w.d.toNat) : Becomes e (.acz w) e.s (waveWith e (.zero e.w.d.toNat e.lanes)) :=
  joins_of h rfl (inOrder_behind hbehind _ _)

theorem acs_scales (hready : TilesReady e e.w.d.toNat) : SetsRows e (.acs w) e.w.d.toNat fun l j =>
    (fscale fmtF32 .rne (fval .f32 (laneElem e e.w.d.toNat l j)) (toSigned 32 (e.a .i32 l))).1 :=
  setsRows_of h (g := fun v => v.scaleRows e.w.d.toNat (acsScales e)) rfl (inOrder_ready hready _ _) (List.foldl_map ..)

theorem acs_joins (hbehind : TilesBehind e e.w.d.toNat) :
    Becomes e (.acs w) e.s (waveWith e (.scale e.w.d.toNat (acsScales e))) :=
  joins_of h rfl (inOrder_behind hbehind _ _)

/-! ### ACR (R361) -/

/-- ACR takes each column into a register, in the active lanes. -/
theorem acr_reads (hready : TilesReady e e.w.a.toNat) :
    ∃ s' w', exec (.acr w) e.s = .next s' ∧ Completes e e.s e.wv s' w' ∧ w'.fpflags = e.wv.fpflags ∧
      (∀ k, w'.selem k = e.wv.selem k) ∧ (∀ k, w'.kelem k = e.wv.kelem k) ∧
      ∀ k l, l < 1024 → w'.velem k l = if e.w.d.toNat ≤ k ∧ k < e.w.d.toNat + acrCount e ∧ l ∈ e.lanes
        then BitVec.ofNat 32 (laneElem e e.w.a.toNat l ((acrCol e + (k - e.w.d.toNat)) % 32)) else e.wv.velem k l := by
  obtain ⟨s', w', hexec, hcomp, hv, hs, hk, hfl, -⟩ := quiet_done h (i := .acr w) (lat := 8)
    (ws := e.wv.columns e.w.a.toNat e.w.d.toNat (acrCol e) (acrCount e) e.lanes) rfl (inOrder_ready hready _ _) (.refl _)
  obtain ⟨hselem, hkelem, hvelem⟩ := velem_writes_columns e.w.d.toNat
    (fun m l => BitVec.ofNat 32 (laneElem e e.w.a.toNat l ((acrCol e + m) % 32))) e.lanes h.facts.lane_lt (acrCount e) e.wv
  refine ⟨s', w', hexec, hcomp, hfl, fun k => ?_, fun k => ?_, fun k l hl => ?_⟩
  · exact (congrArg (Tbl.get · k 0) hs).trans (hselem k)
  · exact (congrArg (Tbl.get · k 0) hk).trans (hkelem k)
  · exact (congrArg (Tbl.get · (1024 * k + l) 0) hv).trans (hvelem k l hl)

/-- Behind an earlier access ACR joins the wave's accesses, and its registers are pending on the array. -/
theorem acr_joins (hbehind : TilesBehind e e.w.a.toNat) :
    let v := waveWith e (.fetch e.s.fresh.1 e.w.a.toNat e.w.d.toNat (acrCol e) (acrCount e) e.lanes none)
    ∃ s' w' p, exec (.acr w) e.s = .next s' ∧ Completes e (e.s.fresh.2.modWave e.wid fun _ => v) v s' w' ∧ SameRegs e.wv w' ∧
      w'.fpflags = e.wv.fpflags ∧ w'.pending = e.wv.pending ++ [p] ∧ p.frag = e.fr ∧ p.req = some e.s.fresh.1 ∧ p.trap = none ∧
      p.regs = dedup ((List.range (acrCount e)).map fun m => .v (e.w.d.toNat + m)) := by
  intro v
  have hwave : e.s.fresh.2.wave e.wid = some e.wv := h.wave
  have hset : e.enqueue e.s.fresh.2 (.fetch e.s.fresh.1 e.w.a.toNat e.w.d.toNat (acrCol e) (acrCount e) e.lanes none) =
      e.s.fresh.2.modWave e.wid fun _ => v := State.modWave_congr hwave rfl
  obtain ⟨s', w', hexec, hcomp, hv, hs, hk, hfl, hp⟩ := effect_done h (i := .acr w) (v := v)
    (d := { s := e.s.fresh.2.modWave e.wid fun _ => v, req := some e.s.fresh.1,
            later := (List.range (acrCount e)).map fun m => .v (e.w.d.toNat + m), lat := 8 }) rfl
    ((inOrder_behind hbehind _ _).trans (by rw [← hset]; rfl)) h.alone (State.wave_modWave_of hwave) h.facts.frag rfl rfl
    (fpTrap_nil _ _) rfl
  have hflags : w'.fpflags = v.fpflags := by simpa [fpflagsAfter, mergeFlags, noFlags] using hfl
  exact ⟨s', w', _, hexec, hcomp, SameRegs.of_regs hv hs hk, hflags, hp, rfl, rfl, rfl, rfl⟩

/-! ### DRN (R362) -/

theorem drn_idle (hl : e.lanes = []) : GivesNothing e (.drn w) :=
  GivesNothing.of_done h (i := .drn w) rfl (if_pos (by rw [hl]; rfl))

end Words

/-- Bytes of an element of DRN. -/
def drnSize (e : Env) : Nat := tyBits e.ty / 8

/-- The active lanes with the scratchpad offsets of their rows. -/
def drnRows (e : Env) : List (Nat × Nat) := e.lanes.map fun l => (l, e.uni e.w.d.toNat .b64 + l * e.uni e.w.b.toNat .n32)

/-- An element of a lane's row, converted. -/
def drnElem (e : Env) (l j : Nat) : Nat := (convertVal e.ty .rne (e.fbit 5) (fval .f32 (laneElem e e.w.a.toNat l j))).1

/-- The bytes of a lane's row, converted. -/
def drnBytes (e : Env) (l : Nat) : Bytes := (List.range 32).flatMap fun j => leBytes (drnSize e) (drnElem e l j)

/-- The byte that DRN leaves at a scratchpad offset, where `old` is the byte before. -/
def drnByte (e : Env) (old : Byte) (y : Nat) : Byte :=
  match lastOver (drnRows e) (32 * drnSize e) y with
  | some x => BitVec.ofNat 8 (drnElem e x.1 ((y - x.2) / drnSize e) / 2 ^ (8 * ((y - x.2) % drnSize e)))
  | none => old

theorem lastOver_covers {l : List (Nat × Nat)} {size a : Nat} {p : Nat × Nat} (h : lastOver l size a = some p) :
    p.2 ≤ a ∧ a < p.2 + size := by
  simpa using List.find?_some h

theorem drnBytes_length (e : Env) (l : Nat) : (drnBytes e l).length = 32 * drnSize e :=
  length_flatMap_chunks _ _ (fun _ => leBytes_length _ _) _

theorem drnBytes_getD {e : Env} {l k : Nat} (hk : k < 32 * drnSize e) :
    (drnBytes e l).getD k 0 = BitVec.ofNat 8 (drnElem e l (k / drnSize e) / 2 ^ (8 * (k % drnSize e))) := by
  have hpos : 0 < drnSize e := by omega
  rw [drnBytes, getD_flatMap_chunks _ _ (fun _ => leBytes_length _ _) _ _ hk, leBytes_getD _ _ _ (Nat.mod_lt _ hpos)]

/-- A block whose scratchpad has taken the rows of a DRN. -/
theorem drained_scratch (e : Env) (b : Block) :
    ∃ sp, (e.wv.drained e.w.a.toNat (e.f 10 6) (e.fbit 5) (drnRows e)).foldl (fun b x => b.putScratch x.1 x.2) b =
        { b with scratch := sp } ∧
      ∀ y, Memory.read sp y = drnByte e (Memory.read b.scratch y) y := by
  obtain ⟨sp, hput, hread⟩ := read_putRows (32 * drnSize e) (fun l => e.uni e.w.d.toNat .b64 + l * e.uni e.w.b.toNat .n32)
    (drnBytes e) (drnBytes_length e) e.lanes b
  refine ⟨sp, (drained_foldl ..).trans hput, fun y => (hread y).trans ?_⟩
  rw [drnByte, drnRows]
  cases hq : lastOver (e.lanes.map fun l => (l, e.uni e.w.d.toNat .b64 + l * e.uni e.w.b.toNat .n32)) (32 * drnSize e) y with
  | none => rfl
  | some x =>
    obtain ⟨hlow, hhigh⟩ := lastOver_covers hq
    exact drnBytes_getD (by omega)

section Drains

variable {w : Fields} {s : State} {e : Env} {b : Block} (h : Issues w s e) (hb : e.s.block (e.wv.bid e.wid) = some b)
  (hfree : TilesFree e e.w.a.toNat) (hl : e.lanes ≠ []) (ho : e.uni e.w.d.toNat .b64 % 16 = 0) (hp : e.uni e.w.b.toNat .n32 % 16 = 0)
  (hin : ∀ x ∈ drnRows e, x.2 + 32 * drnSize e ≤ b.scratchSize)
  (habs : b.absentAt ((drnRows e).map fun x => (x.2, 32 * drnSize e)) = none)
include h hb hfree hl ho hp hin habs

/-- Behind an earlier access, or behind a DRN of its fragment, DRN joins the wave's accesses. -/
theorem drn_joins (hlate : e.wv.draining e.fr = true ∨ TilesBehind e e.w.a.toNat) :
    Becomes e (.drn w) e.s (waveWith e (.drain e.fr e.w.a.toNat (e.f 10 6) (e.fbit 5) (drnRows e))) := by
  refine joins_of h rfl ((drn_body hb hl hfree.1 hfree.2 ho hp hin habs).trans (if_pos ?_))
  rw [Bool.or_eq_true]
  exact hlate.imp_right And.right

/-- DRN writes its rows; copies under way settle. -/
theorem drn_writes (hdr : e.wv.draining e.fr = false) (hready : TilesReady e e.w.a.toNat) :
    ∃ s' w' s1 sp, exec (.drn w) e.s = .next s' ∧
      Completes e (s1.modBlock (e.wv.bid e.wid) fun _ => { b with scratch := sp }) e.wv s' w' ∧ SameRegs e.wv w' ∧
      w'.fpflags = e.wv.fpflags ∧ w'.pending = e.wv.pending ∧
      { s1 with cores := e.s.cores, free := e.s.free } = e.s ∧ (flying e.s (e.wv.bid e.wid) = [] → s1 = e.s) ∧
      ∀ y, Memory.read sp y = drnByte e (Memory.read b.scratch y) y := by
  obtain ⟨sp, hput, hread⟩ := drained_scratch e b
  obtain ⟨s1, hwrite, hrest, hidle⟩ := writeScratch_does e.s (e.wv.bid e.wid) b { b with scratch := sp } hb _ hput
  have hnow : ¬(e.wv.draining e.fr || e.wv.queued (e.lanes.map (tileOf e.w.a.toNat))) = true := by rw [hdr, hready.2]; exact Bool.false_ne_true
  have hdrains := (drn_body hb hl hfree.1 hfree.2 ho hp hin habs).trans ((if_neg hnow).trans (congrArg (fun t => WRes.done { s := t }) hwrite))
  obtain ⟨s', w', hexec, hcomp, hregs, hfl, hpend⟩ := quiet_of h (i := .drn w) rfl hdrains ((Waves.noWave_of_cores hrest).trans ⟨rfl, rfl⟩)
  exact ⟨s', w', s1, sp, hexec, hcomp, hregs, hfl, hpend, hrest, hidle, hread⟩

end Drains

/-! ### DRNS and SWR (R363, R364, R386) -/

/-- The rows of a DRNS on their way to a round. -/
def sendOf (e : Env) (k : SwathHandle) (r : Nat) (rows : List SwathRow) : SwathSend :=
  { id := e.s.fresh.1, handle := k, round := r, tok := e.token, rows := rows }

/-- The rows that a SWR is to receive of a round. -/
def recvOf (e : Env) (k : SwathHandle) (r : Nat) : SwathRecv :=
  { handle := k, round := r, tok := e.token, targets := e.lanes.map fun l => (l, tileOf e.w.d.toNat l, rowOf l) }

/-- The wave once DRNS has joined a round: the token is set, and the rows wait to be sent. -/
def waveSends (e : Env) (k : SwathHandle) (r : Nat) (rows : List SwathRow) (v : Wave) : Wave :=
  { v.raiseTok e.token with sends := v.sends ++ [sendOf e k r rows] }

/-- The wave once SWR has joined a round: the token is set, and its rows are registered. -/
def waveReceives (e : Env) (k : SwathHandle) (r : Nat) (v : Wave) : Wave :=
  { v.raiseTok e.token with recvs := v.recvs ++ [recvOf e k r] }

section Swath

variable {w : Fields} {s : State} {e : Env} (h : Issues w s e) (hl : e.lanes ≠ []) (htok : e.wv.tokSet e.token = false)
  {k : SwathHandle} {r : Nat}
include h hl htok

section Send

variable (hk : handleOf (e.uni e.w.b.toNat .b64) = some k) (hr : e.s.joinRound e.wv.lid k true = some r)
include hk hr

/-- DRNS sends its rows to the round. -/
theorem drns_sends (hready : TilesReady e e.w.a.toNat) :
    Becomes e (.drns w) e.s.fresh.2 (waveSends e k r (e.wv.swathRows e.w.a.toNat e.lanes) e.wv) := by
  refine ownWave_done h (i := .drns w) (f := waveSends e k r (e.wv.swathRows e.w.a.toNat e.lanes)) rfl ?_ rfl rfl ⟨rfl, rfl⟩
  simp only [hl, List.isEmpty_iff, htok, withTiles_free hready.1, hk, hready.2, atCompare_single h.alone, leaderToken_single h.alone, hr,
    Bool.false_eq_true, if_false, Bool.false_and]
  rfl

/-- Behind an earlier access the array forms the rows. -/
theorem drns_joins (hbehind : TilesBehind e e.w.a.toNat) :
    Becomes e (.drns w) e.s.fresh.2
      { waveSends e k r [] e.wv with arrayQ := e.wv.arrayQ ++ [.send e.s.fresh.1 e.w.a.toNat e.lanes] } := by
  refine ownWave_done h (i := .drns w) (f := fun v =>
    { waveSends e k r [] v with arrayQ := v.arrayQ ++ [.send e.s.fresh.1 e.w.a.toNat e.lanes] }) rfl ?_ rfl rfl ⟨rfl, rfl⟩
  simp only [hl, List.isEmpty_iff, htok, withTiles_free hbehind.1, hk, hbehind.2, h.alone, atCompare_single h.alone,
    leaderToken_single h.alone, hr, Bool.false_eq_true, if_false, if_true, Bool.and_false, Env.enqueue, State.modWave_modWave]
  rfl

end Send

/-- SWR registers its rows for the round. -/
theorem swr_receives (hfree : TilesFree e e.w.d.toNat) (hk : handleOf (e.uni e.w.a.toNat .b64) = some k)
    (hr : e.s.joinRound e.wv.lid k false = some r) : Becomes e (.swr w) e.s (waveReceives e k r e.wv) := by
  refine sets_of h (i := .swr w) (f := waveReceives e k r) rfl ?_ rfl rfl
  have hroom : ∀ x, e.s.lvqFull e.wid e.wv x = false := fun x => by simp [State.lvqFull, h.alone]
  simp only [hl, List.isEmpty_iff, htok, withTiles_free hfree, hk, Env.acts_single h.alone, hroom, hr, Bool.not_true, Bool.false_eq_true,
    if_false]
  exact congrArg (fun t => WRes.done { s := t }) (pushLvq_single (s := e.s.modWave e.wid (waveReceives e k r)) h.alone _ _)

end Swath

/-- Settles O44: each word has one of the meanings above, by whether the array has still to reach its tiles. -/
theorem accumulators : Obligations.Accumulators := by
  unfold Obligations.Accumulators
  intro w s e h free ready behind d a at_ becomes after sets
  refine ⟨acz_clears h, acz_joins h, acs_scales h, acs_joins h, ⟨acr_reads h, acr_joins h⟩, drn_idle h, ?_, ?_⟩
  · intro b hb hfree hl o p size rows ho hp hin habs
    exact ⟨drn_joins h hb hfree hl ho hp hin habs, drn_writes h hb hfree hl ho hp hin habs⟩
  · intro k r hl htok send
    exact ⟨fun hk hr => ⟨drns_sends h hl htok hk hr, drns_joins h hl htok hk hr⟩, swr_receives h hl htok⟩

end Sys2Proof.Matrix
end

section
/-! Proofs of family 13: the memories, the counters and the page of a die (R396, R398, R399, R413 to R423, R435, R449, R491, R502).

O53 holds because every function of the model that makes a state keeps the form of both memories. One lemma says so for each of
them, in the order in which the model defines them: an equivalence where the function writes neither memory, and a lemma with the
premise `MemOk s` where it may write one. The writes themselves are those of `Laws/MemoryForm.lean`. -/

namespace Sys2Proof.Machine

/-! ### What a result holds

The model's functions answer with a state, or with a result that holds one. Each predicate says that every state of the result has
both memories in form. They are irreducible: the lemmas below are all that a proof needs of them. -/

/-- What the option holds has both memories in form. -/
@[irreducible] def OptOk (o : Option State) : Prop := ∀ t, o = some t → MemOk t

/-- The next state, where there is one, has both memories in form. -/
@[irreducible] def OutOk (r : Host.Outcome State Fault Refusal) : Prop := ∀ t, r = .next t → MemOk t

/-- The state of a success has both memories in form. -/
@[irreducible] def ExcOk {ε : Type} (r : Except ε State) : Prop := ∀ t, r = .ok t → MemOk t

theorem OptOk.mem {o : Option State} {t : State} (h : OptOk o) (e : o = some t) : MemOk t := by
  unfold OptOk at h
  exact h t e

theorem OutOk.mem {r : Host.Outcome State Fault Refusal} {t : State} (h : OutOk r) (e : r = .next t) : MemOk t := by
  unfold OutOk at h
  exact h t e

theorem ExcOk.mem {ε : Type} {r : Except ε State} {t : State} (h : ExcOk r) (e : r = .ok t) : MemOk t := by
  unfold ExcOk at h
  exact h t e

@[simp] theorem optOk_none : OptOk none := by simp [OptOk]
@[simp] theorem optOk_some {s} : OptOk (some s) ↔ MemOk s := by simp [OptOk]
@[simp] theorem outOk_next {s} : OutOk (.next s) ↔ MemOk s := by simp [OutOk]
@[simp] theorem outOk_refused {x} : OutOk (.refused x) := by simp [OutOk]
@[simp] theorem outOk_fault {x} : OutOk (.fault x) := by simp [OutOk]
@[simp] theorem excOk_ok {ε : Type} {s} : ExcOk (.ok s : Except ε State) ↔ MemOk s := by simp [ExcOk]
@[simp] theorem excOk_error {ε : Type} {x} : ExcOk (.error x : Except ε State) := by simp [ExcOk]

/-- The states that the result of a word holds. -/
def WRes.states : WRes → List State
  | .done d => [d.s]
  | .wait s _ | .placed s _ | .raw s => [s]

@[irreducible] def WRes.Ok (r : WRes) : Prop := ∀ s ∈ r.states, MemOk s

@[simp] theorem WRes.ok_done {d} : (WRes.done d).Ok ↔ MemOk d.s := by simp [Ok, states]
@[simp] theorem WRes.ok_wait {s r} : (WRes.wait s r).Ok ↔ MemOk s := by simp [Ok, states]
@[simp] theorem WRes.ok_placed {s ws} : (WRes.placed s ws).Ok ↔ MemOk s := by simp [Ok, states]
@[simp] theorem WRes.ok_raw {s} : (WRes.raw s).Ok ↔ MemOk s := by simp [Ok, states]

/-- The states that the result of an engine's request holds. -/
def Perf.states : Perf → List State
  | .lands s _ _ | .held s _ _ _ | .partly s _ _ _ | .stopped s => [s]
  | .page _ _ | .window _ _ | .waits => []

@[irreducible] def Perf.Ok (r : Perf) : Prop := ∀ s ∈ r.states, MemOk s

@[simp] theorem Perf.ok_lands {s ws t} : (Perf.lands s ws t).Ok ↔ MemOk s := by simp [Ok, states]
@[simp] theorem Perf.ok_held {s c i a} : (Perf.held s c i a).Ok ↔ MemOk s := by simp [Ok, states]
@[simp] theorem Perf.ok_partly {s op got bad} : (Perf.partly s op got bad).Ok ↔ MemOk s := by simp [Ok, states]
@[simp] theorem Perf.ok_stopped {s} : (Perf.stopped s).Ok ↔ MemOk s := by simp [Ok, states]
@[simp] theorem Perf.ok_page {va w} : (Perf.page va w).Ok := by simp [Ok, states]
@[simp] theorem Perf.ok_window {n w} : (Perf.window n w).Ok := by simp [Ok, states]
@[simp] theorem Perf.ok_waits : (Perf.waits).Ok := by simp [Ok, states]

/-- The states that the result of a fragment at a clause's header holds. -/
def HeaderDo.states : HeaderDo → List State
  | .pause s | .go s => [s]
  | .waits => []

@[irreducible] def HeaderDo.Ok (r : HeaderDo) : Prop := ∀ s ∈ r.states, MemOk s

@[simp] theorem HeaderDo.ok_pause {s} : (HeaderDo.pause s).Ok ↔ MemOk s := by simp [Ok, states]
@[simp] theorem HeaderDo.ok_go {s} : (HeaderDo.go s).Ok ↔ MemOk s := by simp [Ok, states]
@[simp] theorem HeaderDo.ok_waits : (HeaderDo.waits).Ok := by simp [Ok, states]

/-- The states that the result of a fetch holds. -/
def Fetch.states : Fetch → List State
  | .stop s => [s]
  | .words _ | .miss _ | .bad _ => []

@[irreducible] def Fetch.Ok (r : Fetch) : Prop := ∀ s ∈ r.states, MemOk s

@[simp] theorem Fetch.ok_stop {s} : (Fetch.stop s).Ok ↔ MemOk s := by simp [Ok, states]
@[simp] theorem Fetch.ok_words {l} : (Fetch.words l).Ok := by simp [Ok, states]
@[simp] theorem Fetch.ok_miss {va} : (Fetch.miss va).Ok := by simp [Ok, states]
@[simp] theorem Fetch.ok_bad {i} : (Fetch.bad i).Ok := by simp [Ok, states]

/-- The states that the result of a wave's end holds. -/
def EndDo.states : EndDo → List State
  | .go s | .stop s => [s]
  | .waits => []

@[irreducible] def EndDo.Ok (r : EndDo) : Prop := ∀ s ∈ r.states, MemOk s

@[simp] theorem EndDo.ok_go {s} : (EndDo.go s).Ok ↔ MemOk s := by simp [Ok, states]
@[simp] theorem EndDo.ok_stop {s} : (EndDo.stop s).Ok ↔ MemOk s := by simp [Ok, states]
@[simp] theorem EndDo.ok_waits : (EndDo.waits).Ok := by simp [Ok, states]

/-- The states that the result of a particle's clone holds. -/
def CloneDo.states : CloneDo → List State
  | .made s | .stopped s => [s]
  | .stalls | .page _ _ => []

@[irreducible] def CloneDo.Ok (r : CloneDo) : Prop := ∀ s ∈ r.states, MemOk s

@[simp] theorem CloneDo.ok_made {s} : (CloneDo.made s).Ok ↔ MemOk s := by simp [Ok, states]
@[simp] theorem CloneDo.ok_stopped {s} : (CloneDo.stopped s).Ok ↔ MemOk s := by simp [Ok, states]
@[simp] theorem CloneDo.ok_stalls : (CloneDo.stalls).Ok := by simp [Ok, states]
@[simp] theorem CloneDo.ok_page {va w} : (CloneDo.page va w).Ok := by simp [Ok, states]

/-- The states that the result of a pick holds. -/
def Picked.states : Picked → List State
  | .run _ s | .trapped s => [s]

@[irreducible] def Picked.Ok (r : Picked) : Prop := ∀ s ∈ r.states, MemOk s

@[simp] theorem Picked.ok_run {i s} : (Picked.run i s).Ok ↔ MemOk s := by simp [Ok, states]
@[simp] theorem Picked.ok_trapped {s} : (Picked.trapped s).Ok ↔ MemOk s := by simp [Ok, states]

/-- The states that the result of a lane of a key-value request holds. -/
def KvLane.states : KvLane → List State
  | .ok s _ => [s]
  | .perf p => p.states
  | .bad _ _ | .waits => []

@[irreducible] def KvLane.Ok (r : KvLane) : Prop := ∀ s ∈ r.states, MemOk s

@[simp] theorem KvLane.ok_ok {s x} : (KvLane.ok s x).Ok ↔ MemOk s := by simp [Ok, states]
@[simp] theorem KvLane.ok_perf {p} : (KvLane.perf p).Ok ↔ p.Ok := by simp [Ok, states, Perf.Ok]
@[simp] theorem KvLane.ok_bad {r a} : (KvLane.bad r a).Ok := by simp [Ok, states]
@[simp] theorem KvLane.ok_waits : (KvLane.waits).Ok := by simp [Ok, states]

/-- The states that the result of a lane of a grammar step holds. -/
def StepLane.states : StepLane → List State
  | .ok s _ _ => [s]
  | .perf p => p.states
  | .bad _ _ _ => []

@[irreducible] def StepLane.Ok (r : StepLane) : Prop := ∀ s ∈ r.states, MemOk s

@[simp] theorem StepLane.ok_ok {s a n} : (StepLane.ok s a n).Ok ↔ MemOk s := by simp [Ok, states]
@[simp] theorem StepLane.ok_perf {p} : (StepLane.perf p).Ok ↔ p.Ok := by simp [Ok, states, Perf.Ok]
@[simp] theorem StepLane.ok_bad {c i va} : (StepLane.bad c i va).Ok := by simp [Ok, states]

/-! ### Records, choices, folds and options -/

@[simp] theorem MemOk.dev {s : State} (h : MemOk s) : Memory.wf s.mem = true := h.1
@[simp] theorem MemOk.host {s : State} (h : MemOk s) : Memory.wf s.hostMem = true := h.2

/-- A state written field by field: only its memories matter. -/
@[simp] theorem memOk_mk
    {agenda picked cur free mem lineKey hostMem poison soft linkErrs scope hubScope grants cores dies waves blocks crews
    regions pools batches seqs refs retention particles pops popsel ctxs ctxfn queues slots failedSlots satisfied launches
    gangs saves reqs frozenEngines swaths det replay heldSys fns apertures ports peerOps hostOut sec} :
    MemOk (State.mk
      agenda picked cur free mem lineKey hostMem poison soft linkErrs scope hubScope grants cores dies waves blocks crews
      regions pools batches seqs refs retention particles pops popsel ctxs ctxfn queues slots failedSlots satisfied launches
      gangs saves reqs frozenEngines swaths det replay heldSys fns apertures ports peerOps hostOut sec) ↔
      Memory.wf mem = true ∧ Memory.wf hostMem = true := Iff.rfl

section choice
variable {c : Prop} [Decidable c]

@[simp] theorem memOk_ite {a b} : MemOk (if c then a else b) ↔ if c then MemOk a else MemOk b := by split <;> rfl
@[simp] theorem optOk_ite {a b} : OptOk (if c then a else b) ↔ if c then OptOk a else OptOk b := by split <;> rfl
@[simp] theorem outOk_ite {a b} : OutOk (if c then a else b) ↔ if c then OutOk a else OutOk b := by split <;> rfl
@[simp] theorem WRes.ok_ite {a b} : WRes.Ok (if c then a else b) ↔ if c then WRes.Ok a else WRes.Ok b := by split <;> rfl
@[simp] theorem Perf.ok_ite {a b} : Perf.Ok (if c then a else b) ↔ if c then Perf.Ok a else Perf.Ok b := by split <;> rfl
@[simp] theorem HeaderDo.ok_ite {a b} : HeaderDo.Ok (if c then a else b) ↔ if c then HeaderDo.Ok a else HeaderDo.Ok b := by split <;> rfl
@[simp] theorem EndDo.ok_ite {a b} : EndDo.Ok (if c then a else b) ↔ if c then EndDo.Ok a else EndDo.Ok b := by split <;> rfl
@[simp] theorem KvLane.ok_ite {a b} : KvLane.Ok (if c then a else b) ↔ if c then KvLane.Ok a else KvLane.Ok b := by split <;> rfl
@[simp] theorem StepLane.ok_ite {a b} : StepLane.Ok (if c then a else b) ↔ if c then StepLane.Ok a else StepLane.Ok b := by split <;> rfl
@[simp] theorem Picked.ok_ite {a b} : Picked.Ok (if c then a else b) ↔ if c then Picked.Ok a else Picked.Ok b := by split <;> rfl
@[simp] theorem excOk_ite {ε : Type} {a b : Except ε State} : ExcOk (if c then a else b) ↔ if c then ExcOk a else ExcOk b := by
  split <;> rfl

end choice

@[simp] theorem memOk_foldl {α : Type} {g : State → α → State} (hg : ∀ s x, MemOk (g s x) ↔ MemOk s) (l : List α) (s) :
    MemOk (l.foldl g s) ↔ MemOk s := by
  induction l generalizing s with
  | nil => rfl
  | cons x xs ih => exact (ih _).trans (hg s x)

@[simp] theorem memOk_foldr {α : Type} {g : α → State → State} (hg : ∀ s x, MemOk (g x s) ↔ MemOk s) (l : List α) (s) :
    MemOk (l.foldr g s) ↔ MemOk s := by
  induction l with
  | nil => rfl
  | cons x xs ih => exact (hg _ x).trans ih

@[simp] theorem memOk_foldl_of {α : Type} {g : State → α → State} {l : List α} {s} (h : MemOk s)
    (hg : ∀ s x, MemOk s → MemOk (g s x)) : MemOk (l.foldl g s) :=
  MemOk.foldl hg l h

@[simp] theorem memOk_getD {o : Option State} {s} (h : MemOk s) (ho : OptOk o) : MemOk (o.getD s) := by
  cases o with
  | none => exact h
  | some t => exact optOk_some.1 ho

@[simp] theorem optOk_map {α : Type} {o : Option α} {f : α → State} (h : ∀ x, MemOk (f x)) : OptOk (o.map f) := by
  cases o <;> simp [h]

theorem OptOk.map {o : Option State} {f : State → State} (h : OptOk o) (hf : ∀ s, MemOk s → MemOk (f s)) : OptOk (o.map f) := by
  cases o with
  | none => exact optOk_none
  | some t => exact optOk_some.2 (hf t (optOk_some.1 h))

@[simp] theorem optOk_bind {α : Type} {o : Option α} {f : α → Option State} (h : ∀ x, OptOk (f x)) : OptOk (o.bind f) := by
  cases o <;> simp [h]

@[simp] theorem optOk_findSome {α : Type} {l : List α} {f : α → Option State} (h : ∀ x, OptOk (f x)) : OptOk (l.findSome? f) := by
  unfold OptOk
  intro t ht
  obtain ⟨x, -, hx⟩ := List.exists_of_findSome?_eq_some ht
  exact (h x).mem hx

@[simp] theorem optOk_orElse {o : Option State} {f : Unit → Option State} (h : OptOk o) (hf : OptOk (f ())) : OptOk (o.orElse f) := by
  cases o with
  | none => exact hf
  | some t => exact h

/-! ## The functions of the model, file by file -/

/-! ### Machine/Ops -/

@[simp ↓] theorem memOk_modCore {s : State} {c f} : MemOk (s.modCore c f) ↔ MemOk s := Iff.rfl
@[simp ↓] theorem memOk_modDie {s : State} {d f} : MemOk (s.modDie d f) ↔ MemOk s := Iff.rfl
@[simp ↓] theorem memOk_modWave {s : State} {wid f} : MemOk (s.modWave wid f) ↔ MemOk s := Iff.rfl
@[simp ↓] theorem memOk_modBlock {s : State} {bid f} : MemOk (s.modBlock bid f) ↔ MemOk s := Iff.rfl
@[simp ↓] theorem memOk_modCrew {s : State} {key f} : MemOk (s.modCrew key f) ↔ MemOk s := Iff.rfl
@[simp ↓] theorem memOk_modLaunch {s : State} {lid f} : MemOk (s.modLaunch lid f) ↔ MemOk s := Iff.rfl
@[simp ↓] theorem memOk_setRegion {s : State} {rid r} : MemOk (s.setRegion rid r) ↔ MemOk s := Iff.rfl
@[simp ↓] theorem memOk_modCtx {s : State} {c f} : MemOk (s.modCtx c f) ↔ MemOk s := Iff.rfl
@[simp ↓] theorem memOk_modFrag {s : State} {wid fr f} : MemOk (s.modFrag wid fr f) ↔ MemOk s := Iff.rfl
@[simp ↓] theorem memOk_fresh {s : State} : MemOk s.fresh.2 ↔ MemOk s := Iff.rfl
@[simp ↓] theorem memOk_askKill {s : State} {lid cause} : MemOk (s.askKill lid cause) ↔ MemOk s := Iff.rfl

@[simp ↓] theorem memOk_doubleTrap {s : State} {wid} : MemOk (s.doubleTrap wid) ↔ MemOk s := by
  fun_cases State.doubleTrap <;> simp

@[simp ↓] theorem memOk_takeTrap {s : State} {wid fr t pc fba resume atHeader} :
    MemOk (s.takeTrap wid fr t pc fba resume atHeader) ↔ MemOk s := by
  fun_cases State.takeTrap <;> simp

@[simp ↓] theorem memOk_takeTrapHere {s : State} {wid fr t} : MemOk (s.takeTrapHere wid fr t) ↔ MemOk s := by
  fun_cases State.takeTrapHere <;> simp

@[simp ↓] theorem memOk_takeHeld {s : State} {wid} : MemOk (s.takeHeld wid) ↔ MemOk s := by
  fun_cases State.takeHeld <;> grind [memOk_modWave, memOk_takeTrap]

@[simp ↓] theorem memOk_twinStep {s : State} {wid w code} : MemOk (s.twinStep wid w code) ↔ MemOk s := by simp [State.twinStep]
@[simp ↓] theorem memOk_releaseGrants {s : State} {wid} : MemOk (s.releaseGrants wid) ↔ MemOk s := Iff.rfl

@[simp ↓] theorem memOk_redirectTo {s : State} {wid w l cause} : MemOk (s.redirectTo wid w l cause) ↔ MemOk s := by
  unfold State.redirectTo
  split <;> simp

@[simp ↓] theorem memOk_redirect {s : State} {wid} : MemOk (s.redirect wid) ↔ MemOk s := by
  fun_cases State.redirect <;> simp

@[simp ↓] theorem memOk_trapReturn {s : State} {wid skip} : MemOk (s.trapReturn wid skip) ↔ MemOk s := by
  fun_cases State.trapReturn <;> grind [memOk_modWave, memOk_redirect, memOk_takeHeld]

@[simp ↓] theorem memOk_sysWrite {s : State} {wid w id v} : MemOk (sysWrite s wid w id v) ↔ MemOk s := by
  fun_cases sysWrite <;> grind [memOk_modWave, memOk_modBlock]

/-! ### Machine/Operands -/

@[simp ↓] theorem Env.trapNow_memOk {e : Env} (h : MemOk e.s) (cause info addr lanes) : (e.trapNow cause info addr lanes).Ok := by
  simp [Env.trapNow, h]

@[simp ↓] theorem Env.illegal_memOk {e : Env} (h : MemOk e.s) : (e.illegal).Ok := by simp [Env.illegal, h]
@[simp ↓] theorem memOk_flipReq {s : State} {wid id x} : MemOk (s.flipReq wid id x) ↔ MemOk s := Iff.rfl

@[simp ↓] theorem memOk_twinInject {e : Env} {s : State} {req ws} : MemOk (twinInject e s req ws).1 ↔ MemOk s := by
  fun_cases twinInject <;> grind [memOk_modWave, memOk_modBlock, memOk_flipReq]

@[simp ↓] theorem finish_memOk {e : Env} {d : Done} (h : MemOk d.s) : MemOk (finish e d) := by
  unfold finish
  have ht : MemOk (twinInject e d.s d.req d.ws).1 := by simp [h]
  revert ht
  rcases twinInject e d.s d.req d.ws with ⟨s, ws⟩
  intro ht
  dsimp -zeta only
  extract_lets +onlyGivenNames flags s₁ report late s₂
  have h₂ : MemOk s₂ := by
    dsimp only [s₂]
    split <;> simp [s₁, ht]
  split
  · simp [h₂]
  · extract_lets +onlyGivenNames next s₃
    split
    · simp [s₃, h₂]
    · clear_value report
      split <;> simp [s₃, h₂]

@[simp ↓] theorem wordEnv_memOk {s : State} (h : MemOk s) (w) : OptOk ((wordEnv w s).map Env.s) := by
  fun_cases wordEnv <;> simp [h]

@[simp ↓] theorem memOk_countWait {e : Env} {s : State} {r} : MemOk (countWait e s r) ↔ MemOk s := by simp [countWait]
@[simp ↓] theorem memOk_settlePlaced {e : Env} {s : State} {ws} : MemOk (settlePlaced e s ws) ↔ MemOk s := by simp [settlePlaced]

@[simp ↓] theorem settleWord_memOk {e : Env} {r : WRes} (h : r.Ok) : MemOk (settleWord e r) := by
  fun_cases settleWord <;> simp_all

@[simp ↓] theorem onWord_memOk {s : State} {body : Env → WRes} (h : MemOk s) (hb : ∀ x, MemOk x.s → (body x).Ok) (w) :
    OutOk (onWord w s body) := by
  fun_cases onWord <;> grind [OptOk, OutOk, wordEnv_memOk, settleWord_memOk]

@[simp ↓] theorem Env.elems_memOk {e : Env} (h : MemOk e.s) (t lat f) : (e.elems t lat f).Ok := by simp [Env.elems, h]
@[simp ↓] theorem Env.felems_memOk {e : Env} (h : MemOk e.s) (t lat f) : (e.felems t lat f).Ok := by simp [Env.felems, h]

/-! ### Machine/CrossLane -/

@[simp ↓] theorem execRnd_memOk {s : State} (h : MemOk s) (w) : OutOk (execRnd w s) := by simp [execRnd, h]
@[simp ↓] theorem execShfl_memOk {s : State} (h : MemOk s) (w) : OutOk (execShfl w s) := by simp +contextual [execShfl, h]
@[simp ↓] theorem execBcst_memOk {s : State} (h : MemOk s) (w) : OutOk (execBcst w s) := by simp +contextual [execBcst, h]
@[simp ↓] theorem execBcstFirst_memOk {s : State} (h : MemOk s) (w) : OutOk (execBcstFirst w s) := by simp +contextual [execBcstFirst, h]
@[simp ↓] theorem execVote_memOk {s : State} (h : MemOk s) (w) : OutOk (execVote w s) := by simp [execVote, h]
@[simp ↓] theorem execRedx_memOk {s : State} (h : MemOk s) (w) : OutOk (execRedx w s) := by simp [execRedx, h]
@[simp ↓] theorem execScanx_memOk {s : State} (h : MemOk s) (w) : OutOk (execScanx w s) := by simp [execScanx, h]
@[simp ↓] theorem execMatchEq_memOk {s : State} (h : MemOk s) (w) : OutOk (execMatchEq w s) := by simp +contextual [execMatchEq, h]
@[simp ↓] theorem execRedw_memOk {s : State} (h : MemOk s) (w) : OutOk (execRedw w s) := by simp [execRedw, h]
@[simp ↓] theorem execElect_memOk {s : State} (h : MemOk s) (w) : OutOk (execElect w s) := by simp [execElect, h]
@[simp ↓] theorem execElectK_memOk {s : State} (h : MemOk s) (w) : OutOk (execElectK w s) := by simp [execElectK, h]

/-! ### Machine/Twin -/

@[simp ↓] theorem memOk_foldSig {s : State} {wid l} : MemOk (s.foldSig wid l) ↔ MemOk s := by
  fun_cases State.foldSig <;> simp

@[simp ↓] theorem atCompare_memOk {e : Env} {body : Env → WRes} (h : MemOk e.s) (hb : ∀ x, MemOk x.s → (body x).Ok) (operands) :
    (atCompare e operands body).Ok := by
  simp [atCompare, h, hb]

@[simp ↓] theorem memOk_pushLvq {s : State} {wid w x} : MemOk (s.pushLvq wid w x) ↔ MemOk s := by simp [State.pushLvq]
@[simp ↓] theorem memOk_popLvq {s : State} {wid w x} : MemOk (s.popLvq wid w x) ↔ MemOk s := Iff.rfl

@[simp ↓] theorem passed_memOk {e : Env} {body : Env → WRes} {effect : Env → LvqItem → State} (h : MemOk e.s)
    (hb : ∀ x, MemOk x.s → (body x).Ok) (he : ∀ x a, MemOk x.s → MemOk (effect x a)) :
    (passed e body effect).Ok := by
  fun_cases passed <;> grind [WRes.Ok, WRes.states, memOk_popLvq, memOk_pushLvq]

@[simp ↓] theorem memOk_countLog {e : Env} {s : State} : MemOk (countLog e s) ↔ MemOk s := Iff.rfl
@[simp ↓] theorem memOk_pushLog {e : Env} {s : State} {ws trap req} : MemOk (pushLog e s ws trap req) ↔ MemOk s := by simp [pushLog]

@[simp ↓] theorem onceLogged_memOk {e : Env} {body : Env → WRes} (h : MemOk e.s) (hb : ∀ x, MemOk x.s → (body x).Ok) :
    (onceLogged e body).Ok := by
  fun_cases onceLogged <;> grind [WRes.Ok, WRes.states, memOk_countLog, memOk_pushLog]

@[simp ↓] theorem leaderOnce_memOk {e : Env} {body : Env → WRes} (h : MemOk e.s) (hb : ∀ x : Env, MemOk x.s → (body x).Ok) (operands) :
    (leaderOnce e operands body).Ok :=
  atCompare_memOk h (fun _ h => passed_memOk h (fun _ h => onceLogged_memOk h hb) (fun _ _ h => h)) operands

@[simp ↓] theorem onPassed_memOk {s : State} {body : Env → WRes} (h : MemOk s) (hb : ∀ x : Env, MemOk x.s → (body x).Ok) (w) :
    OutOk (onPassed w s body) :=
  onWord_memOk h (fun _ he => passed_memOk he hb (fun _ _ h => h)) w

/-! ### Machine/Access -/

@[simp ↓] theorem MemOk.starveStep {s : State} (h : MemOk s) (lid) : OptOk (s.starveStep lid) := by simp [State.starveStep, h]
@[simp ↓] theorem MemOk.starve {s : State} (h : MemOk s) (lid) : MemOk (s.starve lid) := by simp [State.starve, h]
@[simp ↓] theorem memOk_unpoison {s : State} {pas} : MemOk (s.unpoison pas) ↔ MemOk s := Iff.rfl

@[simp ↓] theorem combineHome_memOk {s : State} (h : MemOk s) (u pa part) : MemOk (combineHome s u pa part) :=
  MemOk.foldl (fun _ _ hs => hs.putDev ..) _ h

@[simp ↓] theorem MemOk.sendU {s : State} (h : MemOk s) (core line) : MemOk (s.sendU core line) := by
  fun_cases State.sendU <;> grind [MemOk.foldl, combineHome_memOk, memOk_modCore]

@[simp ↓] theorem MemOk.recall {s : State} (h : MemOk s) (line) : MemOk (s.recall line) := by simp +contextual [State.recall, h]
@[simp ↓] theorem MemOk.recallLocs {s : State} (h : MemOk s) (ls) : MemOk (s.recallLocs ls) := by simp +contextual [State.recallLocs, h]
@[simp ↓] theorem MemOk.starveAtStep {s : State} (h : MemOk s) (ls) : OptOk (s.starveAtStep ls) := by simp [State.starveAtStep, h]
@[simp ↓] theorem MemOk.starveAt {s : State} (h : MemOk s) (ls) : MemOk (s.starveAt ls) := by simp [State.starveAt, h]

@[simp ↓] theorem memOk_foundError {s : State} {die pa found} : MemOk (s.foundError die pa found) ↔ MemOk s := by
  fun_cases State.foundError <;> rfl

@[simp ↓] theorem MemOk.meetErrors {s : State} (h : MemOk s) (reads) : MemOk (s.meetErrors reads) := by
  simp +contextual [State.meetErrors, h]

@[simp ↓] theorem MemOk.meetHome {s : State} (h : MemOk s) (ls) : MemOk (s.meetHome ls) := by simp [State.meetHome, h]
@[simp ↓] theorem memOk_notice {s : State} {n} : MemOk (s.notice n) ↔ MemOk s := Iff.rfl

@[simp ↓] theorem memOk_intrude {s : State} {wid} : MemOk (s.intrude wid) ↔ MemOk s := by
  fun_cases State.intrude <;> simp

@[simp ↓] theorem memOk_uncorrectable {s : State} {wid} : MemOk (s.uncorrectable wid) ↔ MemOk s := by
  fun_cases State.uncorrectable <;> simp

@[simp ↓] theorem MemOk.homeStop {s : State} (h : MemOk s) (wid lid ls) : OptOk (s.homeStop wid lid ls) := by simp [State.homeStop, h]

@[simp ↓] theorem memOk_cachedEntry {s : State} {die ctx v l at_} : MemOk (s.cachedEntry die ctx v l at_).1 ↔ MemOk s := by
  fun_cases State.cachedEntry <;> grind [memOk_fresh]

@[simp ↓] theorem walkCached_memOk (ctx v die n) : ∀ {s : State} (_ : MemOk s) (table), MemOk (walkCached ctx v die s n table).1 := by
  induction n with
  | zero => exact fun h _ => h
  | succ n ih =>
    intro s h table
    unfold walkCached
    split
    · exact h
    · simp only
      split <;> simp [h, ih]

@[simp ↓] theorem MemOk.walkOnDie {s : State} (h : MemOk s) (die ctx va) : MemOk (s.walkOnDie die ctx va).1 := by
  simp [State.walkOnDie, h]

@[simp ↓] theorem memOk_tlbFill {s : State} {core ctx p} : MemOk (s.tlbFill core ctx p) ↔ MemOk s := by simp [State.tlbFill]
@[simp ↓] theorem memOk_askWalk {s : State} {wid fr ctx va need} : MemOk (s.askWalk wid fr ctx va need) ↔ MemOk s := Iff.rfl
@[simp ↓] theorem memOk_countArrivals {s : State} {ctx src pas} : MemOk (s.countArrivals ctx src pas) ↔ MemOk s := Iff.rfl
@[simp ↓] theorem memOk_scopeHome {s : State} {line l p} : MemOk (s.scopeHome line l p) ↔ MemOk s := Iff.rfl
@[simp ↓] theorem memOk_scopeHub {s : State} {core line l p} : MemOk (s.scopeHub core line l p) ↔ MemOk s := Iff.rfl

@[simp ↓] theorem MemOk.checkHome {s : State} (h : MemOk s) (line l p) : ExcOk (s.checkHome line l p) := by
  fun_cases State.checkHome <;> simp [h]

@[simp ↓] theorem MemOk.checkHub {s : State} (h : MemOk s) (core line l p) : ExcOk (s.checkHub core line l p) := by
  fun_cases State.checkHub <;> grind [ExcOk, memOk_scopeHub, MemOk.checkHome]

@[simp ↓] theorem MemOk.checkScope {s : State} (h : MemOk s) (core line l p) : ExcOk (s.checkScope core line l p) := by
  simp [State.checkScope, h]

@[simp ↓] theorem memOk_scopeDropCrew {s : State} {lid crew} : MemOk (s.scopeDropCrew lid crew) ↔ MemOk s := Iff.rfl
@[simp ↓] theorem memOk_scopeDropLaunch {s : State} {lid} : MemOk (s.scopeDropLaunch lid) ↔ MemOk s := Iff.rfl
@[simp ↓] theorem memOk_dropCopies {s : State} {core keys} : MemOk (s.dropCopies core keys) ↔ MemOk s := Iff.rfl

@[simp ↓] theorem MemOk.writeDev {s : State} (h : MemOk s) (ctx lid src l) : MemOk (s.writeDev ctx lid src l) := by
  unfold State.writeDev
  extract_lets s₁ s₂ s₃
  have h₁ : MemOk s₁ := MemOk.foldl (fun _ _ hs => hs.recall _) _ h
  have h₂ : MemOk s₂ := MemOk.foldl (fun _ _ hs => hs.putDev ..) _ h₁
  split <;> simp [s₃, h₂]

@[simp ↓] theorem MemOk.sendOps {s : State} (h : MemOk s) (lid wid fr l) : MemOk (s.sendOps lid wid fr l) := by
  simp +contextual [State.sendOps, h]

@[simp ↓] theorem MemOk.sendUnits {s : State} (h : MemOk s) (lid wid fr l) : MemOk (s.sendUnits lid wid fr l) := by
  simp [State.sendUnits, h]

@[simp ↓] theorem MemOk.holdBytes {s : State} (h : MemOk s) (lid crew l) : MemOk (s.holdBytes lid crew l) := by simp [State.holdBytes, h]

@[simp ↓] theorem MemOk.commitHome {s : State} (h : MemOk s) (ctx lid crew wid fr sys l) : MemOk
    (s.commitHome ctx lid crew wid fr sys l) := by
  unfold State.commitHome
  extract_lets s₁ s₂ s₃
  have h₃ : MemOk s₃ := ((h.writeDev ..).holdBytes ..).sendUnits ..
  split
  · exact h₃.releaseWhere _
  · exact h₃

/-! ### Machine/Cache -/

@[simp ↓] theorem MemOk.evictSb {s : State} (h : MemOk s) (core sb) : MemOk (s.evictSb core sb) := by simp +contextual [State.evictSb, h]

@[simp ↓] theorem MemOk.placeLine {s : State} (h : MemOk s) (core key hint) : MemOk (s.placeLine core key hint) := by
  fun_cases State.placeLine <;> grind [memOk_modCore, memOk_fresh, MemOk.evictSb]

@[simp ↓] theorem memOk_touchLine {s : State} {core key} : MemOk (s.touchLine core key) ↔ MemOk s := Iff.rfl
@[simp ↓] theorem MemOk.lendWays {s : State} (h : MemOk s) (core n) : MemOk (s.lendWays core n) := by simp +contextual [State.lendWays, h]

/-! ### Machine/Ladder -/

@[simp ↓] theorem asStop_memOk {r : Except Halt State} (h : ExcOk r) : ExcOk (asStop r) := by
  fun_cases asStop <;> simp_all

@[simp ↓] theorem memOk_stageCommit {s : State} {q sys l} : MemOk (s.stageCommit q sys l) ↔ MemOk s := Iff.rfl

@[simp ↓] theorem MemOk.crewHome {s : State} (h : MemOk s) (q sys) : ExcOk (s.crewHome q sys) := by
  fun_cases State.crewHome <;> grind [ExcOk, MemOk.foldl, memOk_stageCommit, MemOk.commitHome, memOk_modCrew, memOk_dropCopies]

@[simp ↓] theorem MemOk.putCrew {s : State} (h : MemOk s) (q l) : ExcOk (s.putCrew q l) := by
  fun_cases State.putCrew <;> grind [ExcOk, memOk_dropCopies, memOk_modCrew, asStop_memOk, MemOk.crewHome]

@[simp ↓] theorem MemOk.blockUp {s : State} (h : MemOk s) (q bid) : ExcOk (s.blockUp q bid) := by
  fun_cases State.blockUp <;> grind [ExcOk, MemOk.putCrew, memOk_modBlock]

@[simp ↓] theorem MemOk.putBlock {s : State} (h : MemOk s) (q bid l) : ExcOk (s.putBlock q bid l) := by
  fun_cases State.putBlock <;> grind [ExcOk, memOk_modBlock, MemOk.blockUp]

@[simp ↓] theorem MemOk.abortUnit {s : State} (h : MemOk s) (q bid l cause) : MemOk (s.abortUnit q bid l cause) := by
  simp [State.abortUnit, h]

@[simp ↓] theorem MemOk.overAbort {s : State} (h : MemOk s) (q bid ofCrew) : MemOk (s.overAbort q bid ofCrew) := by
  simp [State.overAbort, h]

@[simp ↓] theorem absorb_memOk {s : State} {r : Except Stop State} (h : MemOk s) (hr : ExcOk r) (q bid) : ExcOk (absorb s q bid r) := by
  fun_cases absorb <;> simp_all

@[simp ↓] theorem MemOk.commitUp {s : State} (h : MemOk s) (q bid l bytes) : ExcOk (s.commitUp q bid l bytes) := by
  fun_cases State.commitUp <;> grind [ExcOk.mem, absorb_memOk, MemOk.putBlock, MemOk.blockUp, MemOk.crewHome]

@[simp ↓] theorem haltRes_memOk {e : Env} (h : MemOk e.s) (halt) : (haltRes e halt).Ok := by
  fun_cases haltRes <;> simp [h]

@[simp ↓] theorem MemOk.fillLine {s : State} (h : MemOk s) (core hint key x) : MemOk (s.fillLine core hint key x) := by
  simp [State.fillLine, h]

@[simp ↓] theorem MemOk.fillL1 {s : State} (h : MemOk s) (wid w hint l) : MemOk (s.fillL1 wid w hint l) := by
  fun_cases State.fillL1 <;> grind [MemOk.foldl, memOk_touchLine, MemOk.fillLine]

@[simp ↓] theorem homeFirst_memOk {e : Env} {s : State} {body : State → WRes} (h : MemOk s)
    (hb : ∀ t, MemOk t → (body t).Ok) (ls) : (homeFirst e s ls body).Ok := by
  fun_cases homeFirst <;> grind [OptOk, WRes.Ok, WRes.states, MemOk.meetHome, MemOk.homeStop, MemOk.recallLocs, MemOk.starveAt]

@[simp ↓] theorem MemOk.logSpan {s : State} (h : MemOk s) (q bid w l) : MemOk (s.logSpan q bid w l) := by
  fun_cases State.logSpan <;> simp [h]

@[simp ↓] theorem MemOk.drain {s : State} (h : MemOk s) (q bid w) : ExcOk (s.drain q bid w) := by
  fun_cases State.drain <;> grind [ExcOk, absorb_memOk, MemOk.putBlock, memOk_modWave]

@[simp ↓] theorem storeAll_memOk (q bid l) : ∀ {s : State} (_ : MemOk s), ExcOk (State.storeAll q bid s l) := by
  induction l with
  | nil => intro s h; simpa [State.storeAll] using h
  | cons x xs ih =>
    intro s h
    unfold State.storeAll
    split
    · simpa using h
    · simp only
      split
      · exact ih (by simpa using h)
      · split
        · simp [h]
        · split
          · simp
          · exact ih (by simpa using (h.drain ..).mem ‹_›)

@[simp ↓] theorem memOk_pul {s : State} {wid w l} : MemOk (s.pul wid w l) ↔ MemOk s := Iff.rfl

/-! ### Machine/Local -/

@[simp ↓] theorem memOk_postFault {s : State} {die r} : MemOk (s.postFault die r) ↔ MemOk s := Iff.rfl

@[simp ↓] theorem MemOk.startWindow {s : State} (h : MemOk s) (ctx bid win w) : ExcOk (s.startWindow ctx bid win w) := by
  fun_cases State.startWindow <;> simp [h]

@[simp ↓] theorem windowsFirst_memOk {e : Env} {body : Env → WRes} (h : MemOk e.s) (hb : ∀ x, MemOk x.s → (body x).Ok) (lanes ranges) :
    (windowsFirst e lanes ranges body).Ok := by
  fun_cases windowsFirst <;> grind [ExcOk, WRes.Ok, WRes.states, homeFirst_memOk, MemOk.startWindow, Env.trapNow_memOk, memOk_postFault]

@[simp ↓] theorem withScratch_memOk {e : Env} {body : Env → WRes} (h : MemOk e.s) (hb : ∀ x, MemOk x.s → (body x).Ok) (lanes ranges) :
    (withScratch e lanes ranges body).Ok := by
  simp +contextual [withScratch, h, hb]

@[simp ↓] theorem memOk_settleCopies {s : State} {bid hit} : MemOk (s.settleCopies bid hit) ↔ MemOk s := by simp [State.settleCopies]
@[simp ↓] theorem memOk_writeScratch {s : State} {bid l} : MemOk (s.writeScratch bid l) ↔ MemOk s := by simp [State.writeScratch]

@[simp ↓] theorem memOk_noteOld {s : State} {bid l} : MemOk (s.noteOld bid l) ↔ MemOk s := by
  fun_cases State.noteOld <;> simp

@[simp ↓] theorem memOk_writeObuf {s : State} {bid l} : MemOk (s.writeObuf bid l) ↔ MemOk s := by simp [State.writeObuf]
@[simp ↓] theorem memOk_landCopy {s : State} {bid l} : MemOk (s.landCopy bid l) ↔ MemOk s := by simp [State.landCopy]

/-! ### Machine/Memory -/

@[simp ↓] theorem waitWalk_memOk {e : Env} (h : MemOk e.s) (need vas) : (waitWalk e need vas).Ok := by simp [waitWalk, h]

@[simp ↓] theorem withMisses_memOk {e : Env} {run : Env → Checks → WRes} (h : MemOk e.s) (hr : ∀ x a, MemOk x.s → (run x a).Ok) (need c) :
    (withMisses e need c run).Ok := by
  fun_cases withMisses <;> grind [WRes.Ok, WRes.states, waitWalk_memOk, memOk_modFrag, memOk_modWave]

@[simp ↓] theorem askPeers_memOk {e : Env} {s : State} (h : MemOk s) (l) : (askPeers e s l).Ok := by
  simp [askPeers, h]

@[simp ↓] theorem MemOk.meetCopies {s : State} (h : MemOk s) (core ctx ls) : MemOk (s.meetCopies core ctx ls) := by
  simp [State.meetCopies, h]

@[simp ↓] theorem deviceLoad_memOk {e : Env} {body : Env → List Loaded → List LaneFault → WRes} (h : MemOk e.s)
    (hb : ∀ x a b, MemOk x.s → (body x a b).Ok) (size hint c) :
    (deviceLoad e size hint c body).Ok := by
  fun_cases deviceLoad
  grind [withMisses_memOk, MemOk.meetCopies, homeFirst_memOk, askPeers_memOk, MemOk.fillL1]

@[simp ↓] theorem shadowLog_memOk {e : Env} (h : MemOk e.s) (size l done) : MemOk (shadowLog e size l done) := by simp [shadowLog, h]

@[simp ↓] theorem execLd_memOk {s : State} (h : MemOk s) (w) : OutOk (execLd w s) := by
  refine onWord_memOk h (fun e he => ?_) w
  grind [WRes.Ok, WRes.states, passed_memOk, deviceLoad_memOk, MemOk.logSpan, memOk_fresh, shadowLog_memOk]

@[simp ↓] theorem execLdu_memOk {s : State} (h : MemOk s) (w) : OutOk (execLdu w s) := by
  refine onWord_memOk h (fun e he => ?_) w
  grind [WRes.Ok, WRes.states, passed_memOk, deviceLoad_memOk, MemOk.logSpan, memOk_fresh, shadowLog_memOk]

@[simp ↓] theorem storeNow_memOk {e : Env} (h : MemOk e.s) (size good val) : ExcOk (storeNow e size good val) := by simp [storeNow, h]

@[simp ↓] theorem twinDrain_memOk {e : Env} (h : MemOk e.s) (size good val) : (twinDrain e size good val).Ok := by
  fun_cases twinDrain <;> grind [ExcOk, WRes.Ok, WRes.states, storeNow_memOk, memOk_modFrag, haltRes_memOk, atCompare_memOk, MemOk.drain]

@[simp ↓] theorem deviceStore_memOk {e : Env} (h : MemOk e.s) (size c val trap) : (deviceStore e size c val trap).Ok := by
  fun_cases deviceStore
  grind [ExcOk, WRes.Ok, WRes.states, withMisses_memOk, storeNow_memOk, haltRes_memOk, twinDrain_memOk]

@[simp ↓] theorem execSt_memOk {s : State} (h : MemOk s) (w) : OutOk (execSt w s) := by simp +contextual [execSt, h]
@[simp ↓] theorem execStu_memOk {s : State} (h : MemOk s) (w) : OutOk (execStu w s) := by simp +contextual [execStu, h]

@[simp ↓] theorem MemOk.meetScratch {s : State} (h : MemOk s) (bid ranges) : MemOk (s.meetScratch bid ranges) := by
  simp [State.meetScratch, h]

@[simp ↓] theorem execLds_memOk {s : State} (h : MemOk s) (w) : OutOk (execLds w s) := by
  refine onWord_memOk h (fun e he => ?_) w
  grind [WRes.Ok, WRes.states, withScratch_memOk, MemOk.meetScratch]

@[simp ↓] theorem execSts_memOk {s : State} (h : MemOk s) (w) : OutOk (execSts w s) := by simp +contextual [execSts, h]

@[simp ↓] theorem execPrf_memOk {s : State} (h : MemOk s) (w) : OutOk (execPrf w s) := by
  refine onWord_memOk h (fun e he => ?_) w
  grind [WRes.Ok, WRes.states, MemOk.fillL1, MemOk.recallLocs]

/-! ### Machine/Atomic -/

@[simp ↓] theorem scopeLanes_memOk {e : Env} (h : MemOk e.s) (level l) : MemOk (scopeLanes e level l).1 := by
  refine List.foldlRecOn l _ (motive := fun acc : State × List Access × List LaneFault => MemOk acc.1) h fun acc hacc a _ => ?_
  simp only
  split
  · exact hacc
  · split
    · exact (hacc.checkScope ..).mem ‹_›
    · exact hacc

@[simp ↓] theorem atomOut_memOk {e : Env} {s : State} (h : MemOk s) (level size l) :
    ExcOk (atomOut e s level size l) := by
  simp [atomOut, h]

@[simp ↓] theorem atomWrite_memOk {e : Env} {s : State} {body : State → WRes} (h : MemOk e.s) (hs : MemOk s)
    (hb : ∀ t, MemOk t → (body t).Ok) (level size l) :
    (atomWrite e s level size l body).Ok := by
  fun_cases atomWrite <;> grind [ExcOk.mem, atomOut_memOk, haltRes_memOk]

@[simp ↓] theorem atomChecks_memOk {e : Env} {body : Env → List Access → List LaneFault → WRes} (h : MemOk e.s)
    (hb : ∀ x a b, MemOk x.s → (body x a b).Ok) (level size atHome) :
    (atomChecks e level size atHome body).Ok := by
  fun_cases atomChecks
  grind [OptOk, WRes.Ok, WRes.states, withMisses_memOk, homeFirst_memOk, MemOk.homeStop]

@[simp ↓] theorem sendAtomics_memOk {e : Env} {s : State} (h : MemOk s) (size l data kind) :
    MemOk (sendAtomics e s size l data kind) := by
  simp [sendAtomics, h]

@[simp ↓] theorem execAtom_memOk {s : State} (h : MemOk s) (w) : OutOk (execAtom w s) := by
  refine onWord_memOk h (fun e he => ?_) w
  grind [WRes.Ok, WRes.states, Env.illegal_memOk, Env.trapNow_memOk, leaderOnce_memOk, atomChecks_memOk, sendAtomics_memOk,
      scopeLanes_memOk, atomWrite_memOk, memOk_fresh]

@[simp ↓] theorem memOk_joinU {s : State} {core ctx lid op t ty pa data} : MemOk (joinU s core ctx lid op t ty pa data) ↔ MemOk s :=
  Iff.rfl

@[simp ↓] theorem takeU_memOk {s : State} (h : MemOk s) (core ctx line) : OptOk (takeU s core ctx line) := by
  fun_cases takeU
  grind [OptOk, MemOk.sendU, memOk_dropCopies, MemOk.placeLine]

@[simp ↓] theorem redDev_memOk {e : Env} (h : MemOk e.s) (op t l) : OptOk ((redDev e op t l).map Prod.fst) := by
  refine List.foldlRecOn l _ (motive := fun acc : Option (State × List LaneFault) => OptOk (acc.map Prod.fst)) (by simpa using h)
    fun acc hacc a _ => ?_
  simp only
  split
  · have hs : MemOk _ := optOk_some.1 hacc
    split
    · simpa using hs
    · split
      · have hu := takeU_memOk ((hs.checkHome ..).mem ‹_›) (coreOfWave e.wid) e.wv.ctx (lineOf ‹_›)
        revert hu
        cases takeU _ _ _ _ <;> simp
      · simpa using hs
  · exact hacc

@[simp ↓] theorem redStage_memOk {e : Env} (h : MemOk e.s) (op l) : MemOk (redStage e op l) := by simp +contextual [redStage, h]

@[simp ↓] theorem execRed_memOk {s : State} (h : MemOk s) (w) : OutOk (execRed w s) := by
  refine onWord_memOk h (fun e he => ?_) w
  grind [OptOk, WRes.Ok, WRes.states, Env.illegal_memOk, leaderOnce_memOk, atomChecks_memOk, scopeLanes_memOk, redStage_memOk,
      redDev_memOk, MemOk.starveAt, sendAtomics_memOk, atomWrite_memOk]

/-! ### Machine/Commit -/

@[simp ↓] theorem xbegOp_memOk {e : Env} (h : MemOk e.s) (chk) : (xbegOp e chk).Ok := by
  unfold xbegOp
  dsimp only
  split
  · simp [h]
  · split
    · simp [h]
    · refine atCompare_memOk h (fun e h => ?_) _
      split
      · simp [h]
      · split
        · simp [h]
        · split
          · have hc := (h.commitUp ..).mem ‹_›
            simp [hc]
          · simp [h]

@[simp ↓] theorem execXbeg_memOk {s : State} (h : MemOk s) (w) : OutOk (execXbeg w s) := by simp +contextual [execXbeg, h]
@[simp ↓] theorem execXbegChk_memOk {s : State} (h : MemOk s) (w) : OutOk (execXbegChk w s) := by simp +contextual [execXbegChk, h]

@[simp ↓] theorem commitDone_memOk {e : Env} {s : State} (h : MemOk s) (ws) : (commitDone e s ws).Ok := by
  fun_cases commitDone <;> simp [h]

@[simp ↓] theorem commitPlain_memOk {e : Env} (h : MemOk e.s) (l) : (commitPlain e l).Ok := by
  fun_cases commitPlain <;> grind [ExcOk, WRes.Ok, WRes.states, MemOk.commitUp, haltRes_memOk, commitDone_memOk, memOk_modWave]

@[simp ↓] theorem commitChecked_memOk {e : Env} (h : MemOk e.s) (l all) : (commitChecked e l all).Ok := by
  fun_cases commitChecked <;>
    grind [ExcOk, WRes.Ok, WRes.states, MemOk.abortUnit, memOk_modWave, MemOk.commitUp, haltRes_memOk, commitDone_memOk,
      memOk_releaseGrants]

@[simp ↓] theorem validateFirst_memOk {e : Env} {body : Env → WRes} (h : MemOk e.s) (hb : ∀ x, MemOk x.s → (body x).Ok) :
    (validateFirst e body).Ok := by
  simp +contextual [validateFirst, h, hb]

@[simp ↓] theorem passedCommit_memOk {e : Env} {body : Env → WRes} (h : MemOk e.s) (hb : ∀ x, MemOk x.s → (body x).Ok) :
    (passedCommit e body).Ok := by
  fun_cases passedCommit <;> grind [WRes.Ok, WRes.states, memOk_modWave, memOk_popLvq, memOk_pushLvq]

@[simp ↓] theorem execCmt_memOk {s : State} (h : MemOk s) (w) : OutOk (execCmt w s) := by
  refine onWord_memOk h (fun e he => ?_) w
  grind [WRes.Ok, WRes.states, Env.illegal_memOk, atCompare_memOk, passedCommit_memOk, validateFirst_memOk, commitChecked_memOk,
      commitPlain_memOk]

@[simp ↓] theorem execAbt_memOk {s : State} (h : MemOk s) (w) : OutOk (execAbt w s) := by simp +contextual [execAbt, h]
@[simp ↓] theorem execPul_memOk {s : State} (h : MemOk s) (w) : OutOk (execPul w s) := by simp [execPul, h]
@[simp ↓] theorem execXstat_memOk {s : State} (h : MemOk s) (w) : OutOk (execXstat w s) := by simp [execXstat, h]

/-! ### Machine/Copy -/

@[simp ↓] theorem sendPieces_memOk {s : State} (h : MemOk s) (core wid lid fr id m todo) :
    MemOk (sendPieces s core wid lid fr id m todo).1 := by
  simp [sendPieces, h]

@[simp ↓] theorem launchCopy_memOk {e : Env} (h : MemOk e.s) (p) : (launchCopy e p).Ok := by simp +contextual [launchCopy, h]
@[simp ↓] theorem noTransfer_memOk {e : Env} (h : MemOk e.s) : (noTransfer e).Ok := by simp [noTransfer, h]

@[simp ↓] theorem copyOp_memOk {e : Env} {plan : Env → (Env → CopyPlan → WRes) → WRes} (h : MemOk e.s)
    (hp : ∀ (x : Env) k, MemOk x.s → (∀ (y : Env) p, MemOk y.s → (k y p).Ok) → (plan x k).Ok) (operands) :
    (copyOp e operands plan).Ok := by
  fun_cases copyOp
  · simp [h]
  · simp [h]
  · refine atCompare_memOk h (fun e h => ?_) _
    have hrun := hp e (fun e p => withScratch e e.act p.ranges fun e => launchCopy e p) h
      fun e p h => withScratch_memOk h (fun e h => launchCopy_memOk h p) _ _
    grind [OptOk, WRes.Ok, WRes.states, memOk_popLvq, memOk_modWave, memOk_pushLvq]

@[simp ↓] theorem alignFault_memOk {e : Env} {body : WRes} (h : MemOk e.s) (hb : body.Ok) (l) : (alignFault e l body).Ok := by
  fun_cases alignFault <;> simp [h, hb]

@[simp ↓] theorem limitFault_memOk {e : Env} {body : WRes} (h : MemOk e.s) (hb : body.Ok) (l) : (limitFault e l body).Ok := by
  fun_cases limitFault <;> simp [h, hb]

@[simp ↓] theorem execCpy_memOk {s : State} (h : MemOk s) (w) : OutOk (execCpy w s) := by
  refine onWord_memOk h (fun e he => copyOp_memOk he (fun e k he hk => ?_) _) w
  exact alignFault_memOk he (limitFault_memOk he (by split <;> simp [he, hk]) _) _

@[simp ↓] theorem readParams_memOk {e : Env} {body : Env → Bytes → WRes} (h : MemOk e.s) (hb : ∀ x a, MemOk x.s → (body x a).Ok) (va n) :
    (readParams e va n body).Ok := by
  fun_cases readParams <;> simp +contextual [h, hb]

@[simp ↓] theorem withTensor_memOk {e : Env} {body : Env → Tensor → WRes} (h : MemOk e.s) (hb : ∀ x a, MemOk x.s → (body x a).Ok) (va) :
    (withTensor e va body).Ok := by
  fun_cases withTensor <;> grind [Env.trapNow_memOk, readParams_memOk]

@[simp ↓] theorem execCpyt_memOk {s : State} (h : MemOk s) (w) : OutOk (execCpyt w s) := by
  refine onWord_memOk h (fun e he => copyOp_memOk he (fun e k he hk => ?_) _) w
  refine alignFault_memOk he (withTensor_memOk he (fun e t he => limitFault_memOk he ?_ _) _) _
  dsimp only
  split <;> simp [he, hk]

@[simp ↓] theorem execCpyx_memOk {s : State} (h : MemOk s) (w) : OutOk (execCpyx w s) :=
  onWord_memOk h (fun _ he => copyOp_memOk he
    (fun _ _ he hk => alignFault_memOk he (limitFault_memOk he (hk _ _ he) _) _) _) w

@[simp ↓] theorem heldFault_getD_memOk {e : Env} {r : WRes} (h : MemOk e.s) (hr : r.Ok) (t) : ((heldFault e t).getD r).Ok := by
  unfold heldFault
  cases Tbl.find e.wv.heldFaults t <;> simp [h, hr]

@[simp ↓] theorem execWaitk_memOk {s : State} (h : MemOk s) (w) : OutOk (execWaitk w s) := by
  refine onWord_memOk h (fun e he => ?_) w
  simp [he]

@[simp ↓] theorem wprmOp_memOk {e : Env} (h : MemOk e.s) : (wprmOp e).Ok := by
  fun_cases wprmOp <;> simp [h]

@[simp ↓] theorem execWprm_memOk {s : State} (h : MemOk s) (w) : OutOk (execWprm w s) := by
  refine onWord_memOk h (fun e he => ?_) w
  grind [passed_memOk, wprmOp_memOk, memOk_modWave]

@[simp ↓] theorem execWprmRead_memOk {s : State} (h : MemOk s) (w) : OutOk (execWprmRead w s) := by simp +contextual [execWprmRead, h]

@[simp ↓] theorem shadowLazy_memOk {e : Env} (h : MemOk e.s) (win x) : MemOk (shadowLazy e win x) := by
  fun_cases shadowLazy <;> simp [h]

@[simp ↓] theorem execLazy_memOk {s : State} (h : MemOk s) (w) : OutOk (execLazy w s) := by
  refine onWord_memOk h (fun e he => passed_memOk he (fun e he => ?_) fun e x he => shadowLazy_memOk he _ x) w
  split
  · simp [he]
  · split
    · simp [he]
    · refine alignFault_memOk he (withTensor_memOk he (fun e t he => limitFault_memOk he ?_ _) _) _
      split <;> simp [he]

@[simp ↓] theorem execLazyc_memOk {s : State} (h : MemOk s) (w) : OutOk (execLazyc w s) := by simp [execLazyc, h]

/-! ### Machine/Matrix -/

@[simp ↓] theorem withTiles_memOk {e : Env} {body : Env → WRes} (h : MemOk e.s) (hb : ∀ x, MemOk x.s → (body x).Ok) (b) :
    (withTiles e b body).Ok := by
  fun_cases withTiles <;> simp [h, hb]

@[simp ↓] theorem Env.memOk_enqueue {e : Env} {s : State} {x} : MemOk (e.enqueue s x) ↔ MemOk s := Iff.rfl

@[simp ↓] theorem inOrder_memOk {e : Env} {late : Env → WRes} {body : Env → WRes} (h : MemOk e.s) (hl : ∀ x, MemOk x.s → (late x).Ok)
    (hb : ∀ x, MemOk x.s → (body x).Ok) (b) :
    (inOrder e b late body).Ok := by
  simp +contextual [inOrder, h, hl, hb]

@[simp ↓] theorem Env.obAll_memOk {e : Env} (h : MemOk e.s) (rec1 reason) : (e.obAll rec1 reason).Ok := by simp [Env.obAll, h]

@[simp ↓] theorem execObr_memOk {s : State} (h : MemOk s) (w) : OutOk (execObr w s) := by
  refine onWord_memOk h (fun e he => ?_) w
  grind [WRes.Ok, WRes.states, Env.obAll_memOk, memOk_modBlock]

@[simp ↓] theorem execObf_memOk {s : State} (h : MemOk s) (w) : OutOk (execObf w s) := by simp [execObf, h]

@[simp ↓] theorem execObw_memOk {s : State} (h : MemOk s) (w) : OutOk (execObw w s) := by
  refine onWord_memOk h (fun e he => ?_) w
  grind [WRes.Ok, WRes.states, Env.obAll_memOk, memOk_writeObuf]

@[simp ↓] theorem execObl_memOk {s : State} (h : MemOk s) (w) : OutOk (execObl w s) := by
  refine onWord_memOk h (fun e he => ?_) w
  grind [WRes.Ok, WRes.states, Env.obAll_memOk]

@[simp ↓] theorem execStb_memOk {s : State} (h : MemOk s) (w) : OutOk (execStb w s) := by simp +contextual [execStb, h]

@[simp ↓] theorem execMmsk_memOk {s : State} (h : MemOk s) (w) : OutOk (execMmsk w s) := by
  refine onWord_memOk h (fun e he => ?_) w
  grind [WRes.Ok, WRes.states, Env.trapNow_memOk, Env.obAll_memOk, withScratch_memOk, memOk_modWave]

@[simp ↓] theorem quarterOp_memOk {e : Env} (h : MemOk e.s) (kind scaled) : (quarterOp e kind scaled).Ok := by
  fun_cases quarterOp
  grind [WRes.Ok, WRes.states, MemOk.foldl, withTiles_memOk, memOk_fresh, memOk_modCore, memOk_modWave, Env.obAll_memOk]

@[simp ↓] theorem execMmq_memOk {s : State} (h : MemOk s) (w) : OutOk (execMmq w s) := by simp +contextual [execMmq, h]
@[simp ↓] theorem execMmqs_memOk {s : State} (h : MemOk s) (w) : OutOk (execMmqs w s) := by simp +contextual [execMmqs, h]
@[simp ↓] theorem execMmqp_memOk {s : State} (h : MemOk s) (w) : OutOk (execMmqp w s) := by simp +contextual [execMmqp, h]
@[simp ↓] theorem memOk_runQuarter {s : State} {p m} : MemOk (s.runQuarter p m) ↔ MemOk s := Iff.rfl

@[simp ↓] theorem memOk_reach {s : State} {wid w op} : MemOk (s.reach wid w op) ↔ MemOk s := by
  fun_cases State.reach <;> simp

@[simp ↓] theorem runQueue_memOk (p wid n) {s : State} (h : MemOk s) : MemOk (State.runQueue p wid n s) := by
  fun_induction State.runQueue p wid n s with
  | case1 | case2 | case3 | case4 => exact h
  | case5 n s w hw rest pop op tiles mine hm hq ih => exact ih (by simpa [pop] using h)
  | case6 n s w hw rest pop x hx hq ih => exact ih (by simpa [pop] using h)

@[simp ↓] theorem MemOk.landPass {s : State} (h : MemOk s) (core1) : MemOk (s.landPass core1) := by
  unfold State.landPass
  dsimp only
  split
  · exact h
  · split
    · exact h
    · exact MemOk.foldl (fun _ _ hs => runQueue_memOk _ _ _ hs) _ (by simp [h])

@[simp ↓] theorem MemOk.landPasses {s : State} (h : MemOk s) : MemOk s.landPasses := by simp +contextual [State.landPasses, h]
@[simp ↓] theorem execAcz_memOk {s : State} (h : MemOk s) (w) : OutOk (execAcz w s) := by simp +contextual [execAcz, h]
@[simp ↓] theorem execAcs_memOk {s : State} (h : MemOk s) (w) : OutOk (execAcs w s) := by simp +contextual [execAcs, h]
@[simp ↓] theorem execAcr_memOk {s : State} (h : MemOk s) (w) : OutOk (execAcr w s) := by simp +contextual [execAcr, h]

@[simp ↓] theorem execDrn_memOk {s : State} (h : MemOk s) (w) : OutOk (execDrn w s) := by
  refine onWord_memOk h (fun e he => ?_) w
  grind [WRes.Ok, WRes.states, withTiles_memOk, alignFault_memOk, windowsFirst_memOk, Env.memOk_enqueue, memOk_writeScratch]

@[simp ↓] theorem swathMismatch_memOk {e : Env} (h : MemOk e.s) (sid) : (swathMismatch e sid).Ok := by simp [swathMismatch, h]

@[simp ↓] theorem leaderToken_memOk {e : Env} {run : Env → WRes} {shadow : Env → State} (h : MemOk e.s)
    (hr : ∀ x, MemOk x.s → (run x).Ok) (hs : ∀ x, MemOk x.s → MemOk (shadow x)) :
    (leaderToken e run shadow).Ok := by
  fun_cases leaderToken <;> grind [WRes.Ok, WRes.states, memOk_popLvq, memOk_pushLvq]

@[simp ↓] theorem execDrns_memOk {s : State} (h : MemOk s) (w) : OutOk (execDrns w s) := by
  refine onWord_memOk h (fun e he => ?_) w
  dsimp only
  split
  · simp [he]
  · split
    · simp [he]
    · refine withTiles_memOk he (fun e he => ?_) _
      split
      · simp [he]
      · split
        · simp [he]
        · refine atCompare_memOk he (fun e he => leaderToken_memOk he (fun e he => ?_) fun e he => by simpa using he) _
          split <;> simp [he]

@[simp ↓] theorem shadowSwr_memOk {e : Env} (h : MemOk e.s) (x r) : (shadowSwr e x r).Ok := by
  unfold shadowSwr
  split <;> simp [h]

@[simp ↓] theorem execSwr_memOk {s : State} (h : MemOk s) (w) : OutOk (execSwr w s) := by
  refine onWord_memOk h (fun e he => ?_) w
  grind [WRes.Ok, WRes.states, withTiles_memOk, Env.trapNow_memOk, shadowSwr_memOk, memOk_pushLvq, memOk_modWave]

/-! ### Machine/Front -/

@[simp ↓] theorem MemOk.postOne {s : State} (h : MemOk s) (ctx) : OptOk (s.postOne ctx) := by
  unfold State.postOne
  dsimp only
  split
  · simp
  · split
    · simp
    · refine OptOk.map ?_ fun s hs => by simp [hs]
      split
      · simp [h]
      · simpa using ⟨h.dev, Memory.wf_writes _ _ h.host⟩
      · simp

@[simp ↓] theorem flushFrom_memOk (ctx n) {s : State} (h : MemOk s) : MemOk (State.flushFrom ctx n s) := by
  fun_induction State.flushFrom ctx n s with
  | case1 => exact h
  | case2 n s t ht ih => exact ih ((h.postOne ctx).mem ht)
  | case3 => exact h

@[simp ↓] theorem MemOk.flushEvents {s : State} (h : MemOk s) (ctx) : MemOk (s.flushEvents ctx) := by simp [State.flushEvents, h]
@[simp ↓] theorem MemOk.postEvent {s : State} (h : MemOk s) (ctx w0 w1) : MemOk (s.postEvent ctx w0 w1) := by simp [State.postEvent, h]

@[simp ↓] theorem MemOk.refreshReady {s : State} (h : MemOk s) (sk) : MemOk (s.refreshReady sk) := by
  unfold State.refreshReady
  split <;> simp [h]

@[simp ↓] theorem MemOk.satisfySlot {s : State} (h : MemOk s) (sk) : MemOk (s.satisfySlot sk) := by simp [State.satisfySlot, h]
@[simp ↓] theorem memOk_answerWaiters {s : State} {rid} : MemOk (s.answerWaiters rid) ↔ MemOk s := Iff.rfl
@[simp ↓] theorem MemOk.completePhase {s : State} (h : MemOk s) (rid) : MemOk (s.completePhase rid) := by simp [State.completePhase, h]
@[simp ↓] theorem MemOk.regionStep {s : State} (h : MemOk s) (rid) : MemOk (s.regionStep rid) := by simp [State.regionStep, h]

/-! ### Machine/Control -/

@[simp ↓] theorem Env.jump_memOk {e : Env} (h : MemOk e.s) (target ws) : (e.jump target ws).Ok := by simp [Env.jump, h]
@[simp ↓] theorem execNop_memOk {s : State} (h : MemOk s) (w) : OutOk (execNop w s) := by simp [execNop, h]

@[simp ↓] theorem execBra_memOk {s : State} (h : MemOk s) (w) : OutOk (execBra w s) := by
  refine onWord_memOk h (fun e he => ?_) w
  grind [WRes.Ok, WRes.states, Env.jump_memOk, memOk_modWave, memOk_modFrag]

@[simp ↓] theorem execBru_memOk {s : State} (h : MemOk s) (w) : OutOk (execBru w s) := by simp +contextual [execBru, h]
@[simp ↓] theorem execBrx_memOk {s : State} (h : MemOk s) (w) : OutOk (execBrx w s) := by simp +contextual [execBrx, h]
@[simp ↓] theorem execCall_memOk {s : State} (h : MemOk s) (w) : OutOk (execCall w s) := by simp +contextual [execCall, h]
@[simp ↓] theorem execRetn_memOk {s : State} (h : MemOk s) (w) : OutOk (execRetn w s) := by simp +contextual [execRetn, h]
@[simp ↓] theorem execExit_memOk {s : State} (h : MemOk s) (w) : OutOk (execExit w s) := by simp +contextual [execExit, h]
@[simp ↓] theorem execTrap_memOk {s : State} (h : MemOk s) (w) : OutOk (execTrap w s) := by simp [execTrap, h]

@[simp ↓] theorem tretOp_memOk {e : Env} (h : MemOk e.s) (skip) : (tretOp e skip).Ok := by
  fun_cases tretOp <;> simp [h]

@[simp ↓] theorem execTret_memOk {s : State} (h : MemOk s) (w) : OutOk (execTret w s) := by simp +contextual [execTret, h]
@[simp ↓] theorem execTretSkip_memOk {s : State} (h : MemOk s) (w) : OutOk (execTretSkip w s) := by simp +contextual [execTretSkip, h]
@[simp ↓] theorem Env.pause_memOk {e : Env} (h : MemOk e.s) (r) : (e.pause r).Ok := by simp [Env.pause, h]
@[simp ↓] theorem Env.yield_memOk {e : Env} (h : MemOk e.s) : (e.yield).Ok := by simp [Env.yield, h]
@[simp ↓] theorem execYield_memOk {s : State} (h : MemOk s) (w) : OutOk (execYield w s) := by simp +contextual [execYield, h]
@[simp ↓] theorem execSleep_memOk {s : State} (h : MemOk s) (w) : OutOk (execSleep w s) := by simp +contextual [execSleep, h]
@[simp ↓] theorem execCyc_memOk {s : State} (h : MemOk s) (w) : OutOk (execCyc w s) := by simp [execCyc, h]
@[simp ↓] theorem execSrrd_memOk {s : State} (h : MemOk s) (w) : OutOk (execSrrd w s) := by simp [execSrrd, h]
@[simp ↓] theorem execSrwr_memOk {s : State} (h : MemOk s) (w) : OutOk (execSrwr w s) := by simp +contextual [execSrwr, h]

/-! ### Machine/Counter -/

@[simp ↓] theorem pinRange_memOk {e : Env} (h : MemOk e.s) (base units grans) : (pinRange e base units grans).Ok := by
  unfold pinRange
  dsimp only
  split <;> simp [h]

@[simp ↓] theorem execPin_memOk {s : State} (h : MemOk s) (w) : OutOk (execPin w s) := by
  refine onPassed_memOk h (fun e he => ?_) w
  dsimp only
  split
  · simp [he]
  · split
    · simp [he]
    · split
      · split
        · exact waitWalk_memOk he ..
        · simp [he]
      · exact pinRange_memOk he ..

@[simp ↓] theorem execUnpin_memOk {s : State} (h : MemOk s) (w) : OutOk (execUnpin w s) := by simp +contextual [execUnpin, h]

@[simp ↓] theorem usingRegion_memOk {e : Env} {body : Env → Nat → WRes} (h : MemOk e.s) (hb : ∀ x a, MemOk x.s → (body x a).Ok) :
    (usingRegion e body).Ok := by
  simp [usingRegion, h, hb]

@[simp ↓] theorem onRegion_memOk {e : Env} {body : Env → Nat → WRes} (h : MemOk e.s) (hb : ∀ x a, MemOk x.s → (body x a).Ok) (operands) :
    (onRegion e operands body).Ok := by
  fun_cases onRegion
  grind [leaderOnce_memOk, usingRegion_memOk]

@[simp ↓] theorem execAarm_memOk {s : State} (h : MemOk s) (w) : OutOk (execAarm w s) := by
  refine onWord_memOk h (fun e he => ?_) w
  grind [WRes.Ok, WRes.states, onRegion_memOk, MemOk.regionStep, memOk_setRegion]

@[simp ↓] theorem execAexp_memOk {s : State} (h : MemOk s) (w) : OutOk (execAexp w s) := by
  refine onWord_memOk h (fun e he => ?_) w
  grind [WRes.Ok, WRes.states, onRegion_memOk, MemOk.regionStep, memOk_setRegion]

@[simp ↓] theorem execAadd_memOk {s : State} (h : MemOk s) (w) : OutOk (execAadd w s) := by
  refine onWord_memOk h (fun e he => ?_) w
  grind [WRes.Ok, WRes.states, onRegion_memOk, MemOk.regionStep, memOk_setRegion]

@[simp ↓] theorem execAdis_memOk {s : State} (h : MemOk s) (w) : OutOk (execAdis w s) := by
  refine onWord_memOk h (fun e he => ?_) w
  grind [WRes.Ok, WRes.states, onRegion_memOk, MemOk.regionStep, memOk_setRegion, memOk_answerWaiters]

@[simp ↓] theorem execAread_memOk {s : State} (h : MemOk s) (w) : OutOk (execAread w s) := by
  refine onWord_memOk h (fun e he => ?_) w
  grind [WRes.Ok, WRes.states, onRegion_memOk, MemOk.regionStep]

@[simp ↓] theorem awaitDone_memOk {e : Env} {s : State} (h : MemOk s) (ans) : (awaitDone e s ans).Ok := by
  simp [awaitDone, h]

@[simp ↓] theorem execAwait_memOk {s : State} (h : MemOk s) (w) : OutOk (execAwait w s) := by
  refine onWord_memOk h (fun e he => ?_) w
  dsimp only
  split
  · simp [he]
  · refine leaderOnce_memOk he (fun e he => ?_) _
    split
    · exact awaitDone_memOk he _
    · refine usingRegion_memOk he fun e id he => ?_
      have hs := he.regionStep id
      split
      · exact awaitDone_memOk hs _
      · split
        · exact awaitDone_memOk hs _
        · split
          · exact awaitDone_memOk hs _
          · simp [hs]

/-! ### Machine/Engine -/

@[simp ↓] theorem memOk_putBoth {s : State} {bid off l} : MemOk (s.putBoth bid off l) ↔ MemOk s := by simp [State.putBoth]

@[simp ↓] theorem answerLogged_memOk {e : Env} (h : MemOk e.s) (tok op x fault early) : (answerLogged e tok op x fault early).Ok := by
  simp [answerLogged, h]

@[simp ↓] theorem engineOp_memOk {e : Env} (h : MemOk e.s) (engines tok regs operands op failed) :
    (engineOp e engines tok regs operands op failed).Ok := by
  unfold engineOp
  dsimp only
  split
  · simp [h]
  · refine atCompare_memOk h (fun e h => ?_) _
    split
    · split <;> simp [h]
    · split
      · simp [h]
      · split
        · simp [h]
        · split
          · simp [h]
          · cases tok <;> simp [h]

@[simp ↓] theorem memOk_freezeEngine {s : State} {r} : MemOk (s.freezeEngine r) ↔ MemOk s := Iff.rfl
@[simp ↓] theorem memOk_blockReq {s : State} {id} : MemOk (s.blockReq id) ↔ MemOk s := Iff.rfl
@[simp ↓] theorem engineStop_memOk {s : State} (h : MemOk s) (r ls) : OptOk (engineStop s r ls) := by simp [engineStop, h]

@[simp ↓] theorem starving_memOk {s : Option State} (h : OptOk s) : (starving s).Ok := by
  fun_cases starving <;> simp_all

@[simp ↓] theorem engineHome_memOk {s : State} (h : MemOk s) (r ls) : ExcOk (engineHome s r ls) := by
  unfold engineHome
  dsimp only
  split
  · simp
  · split <;> simp [h]

@[simp ↓] theorem engineHome_error_memOk {s : State} (h : MemOk s) {r ls} {p : Perf} (hp : engineHome s r ls = .error p) : p.Ok := by
  unfold engineHome at hp
  dsimp only at hp
  have hm := h.meetHome ls
  split at hp
  · obtain rfl := Except.error.inj hp
    simpa using (engineStop_memOk hm ..).mem ‹_›
  · split at hp
    · cases hp
    · obtain rfl := Except.error.inj hp
      exact starving_memOk (hm.starveAtStep _)

@[simp ↓] theorem readAt_memOk {s : State} {fail : Nat → Nat → Perf} {body : State → Bytes → Perf} (h : MemOk s)
    (hf : ∀ c v, (fail c v).Ok) (hb : ∀ t l, MemOk t → (body t l).Ok) (r va n) : (readAt s r va n fail body).Ok := by
  unfold readAt
  split
  · simp
  · exact hf _ _
  · split
    · exact engineHome_error_memOk h ‹_›
    · exact hb _ _ ((engineHome_memOk h ..).mem ‹_›)

@[simp ↓] theorem writeAt_memOk {s : State} {fail : Nat → Nat → Perf} {body : State → Perf} (h : MemOk s)
    (hf : ∀ c v, (fail c v).Ok) (hb : ∀ t, MemOk t → (body t).Ok) (r va l) : (writeAt s r va l fail body).Ok := by
  unfold writeAt
  dsimp only
  split
  · simp
  · exact hf _ _
  · split
    · simpa using (engineStop_memOk h ..).mem ‹_›
    · split
      · simp
      · split
        · exact starving_memOk (optOk_orElse (h.starveAtStep _) (h.starveStep _))
        · exact hb _ ((h.writeDev ..).holdBytes ..)

@[simp ↓] theorem touch_memOk {s : State} {body : Nat → Block → Perf} (h : MemOk s) (hb : ∀ a b, (body a b).Ok) (r ranges) :
    (touch s r ranges body).Ok := by
  fun_cases touch <;> simp [h, hb]

@[simp ↓] theorem memOk_modLog {s : State} {bid id f} : MemOk (s.modLog bid id f) ↔ MemOk s := Iff.rfl
@[simp ↓] theorem memOk_putFor {s : State} {r bid off l} : MemOk (s.putFor r bid off l) ↔ MemOk s := by simp [State.putFor]

@[simp ↓] theorem memOk_endReq {s : State} {r ws trap} : MemOk (s.endReq r ws trap) ↔ MemOk s := by
  unfold State.endReq
  dsimp only
  split <;> rfl

@[simp ↓] theorem memOk_endHeld {s : State} {r cause info addr} : MemOk (s.endHeld r cause info addr) ↔ MemOk s := by
  unfold State.endHeld
  dsimp only
  rw [memOk_endReq]
  split <;> simp

@[simp ↓] theorem MemOk.endFault {s : State} (h : MemOk s) (r cause va) : MemOk (s.endFault r cause va) := by
  fun_cases State.endFault <;> simp [h]

@[simp ↓] theorem MemOk.settleReq {s : State} {p : Perf} (h : MemOk s) (hp : p.Ok) (r) : OptOk (s.settleReq r p) := by
  unfold State.settleReq
  split
  · simpa using hp
  · simpa using hp
  · exact optOk_some.2 ((Perf.ok_partly.1 hp).same rfl)
  · simp [h]
  · split
    · simp
    · split
      · exact optOk_some.2 (Perf.ok_stopped.1 (engineHome_error_memOk h ‹_›))
      · simp
      · have ht := (engineHome_memOk h ..).mem ‹_›
        split
        · exact optOk_some.2 ((ht.startWindow ..).mem ‹_›)
        · split <;> simp [ht]
  · simpa using hp
  · simp

/-! ### Machine/Issue -/

@[simp ↓] theorem onEvent_memOk {s : Option State} (h : OptOk s) (name) : OutOk (onEvent name s) := by
  fun_cases onEvent <;> simp_all

@[simp ↓] theorem onCore_memOk {r : Host.Outcome State Fault Refusal} (h : OutOk r) (core) : OutOk (onCore core r) := by simp [onCore, h]
@[simp ↓] theorem onDie_memOk {r : Host.Outcome State Fault Refusal} (h : OutOk r) (die) : OutOk (onDie die r) := by simp [onDie, h]
@[simp ↓] theorem MemOk.cycle {s : State} (h : MemOk s) (core) : MemOk (s.cycle core) := by simp [State.cycle, h]

@[simp ↓] theorem execIssueCycle_memOk {s : State} (h : MemOk s) (core) : OutOk (execIssueCycle core s) := by
  fun_cases execIssueCycle
  grind [OptOk, onCore_memOk, onEvent_memOk, MemOk.cycle]

@[simp ↓] theorem badWord_memOk {s : State} (h : MemOk s) (c cause) : MemOk (badWord s c cause) := by
  fun_cases badWord <;> grind [OptOk.mem, wordEnv_memOk, settleWord_memOk, Env.trapNow_memOk]

@[simp ↓] theorem MemOk.pickWord {s : State} (h : MemOk s) (wid fr) : (s.pickWord wid fr).Ok := by
  have hcur : MemOk { s with cur := some (wid, fr) } := h.same rfl
  unfold State.pickWord
  split
  · simp [h]
  · split
    · simp [h]
    · split
      · simp [h]
      · dsimp only
        split
        · exact Picked.ok_trapped.2 ((badWord_memOk hcur ..).same rfl)
        · split
          · exact Picked.ok_trapped.2 ((badWord_memOk hcur ..).same rfl)
          · exact Picked.ok_run.2 hcur

@[simp ↓] theorem fetchWords_memOk {s : State} (h : MemOk s) (wid w failed pc n) : (fetchWords s wid w failed pc n).Ok := by
  unfold fetchWords
  dsimp only
  split
  · simp
  · simp
  · split
    · simpa using (h.homeStop ..).mem ‹_›
    · simp

@[simp ↓] theorem memOk_headerTrap {s : State} {wid fr f t fba} : MemOk (s.headerTrap wid fr f t fba) ↔ MemOk s := by
  simp [State.headerTrap]

@[simp ↓] theorem MemOk.beginClause {s : State} (h : MemOk s) (wid fr w f hdr body) : (s.beginClause wid fr w f hdr body).Ok := by
  unfold State.beginClause
  dsimp only
  split
  · simp [h]
  · split
    · simp [h]
    · split
      · simp
      · split <;> simp [h]

@[simp ↓] theorem MemOk.atHeader {s : State} (h : MemOk s) (wid fr w f) : (s.atHeader wid fr w f).Ok := by
  have fetched {n l} (hl : fetchWords s wid w f.failed f.pc.toNat n = .stop l) : MemOk l := by
    simpa [hl] using fetchWords_memOk h wid w f.failed f.pc.toNat n
  unfold State.atHeader
  dsimp only
  split
  · simp [h]
  · split
    · simp [h]
    · simpa using fetched ‹_›
    · simp [h]
    · split
      · simp [h]
      · split
        · simp [h]
        · simpa using fetched ‹_›
        · simp [h]
        · split <;> simp [h]

@[simp ↓] theorem MemOk.startClause {s : State} (h : MemOk s) (wid fr) : OptOk (s.startClause wid fr) := by
  unfold State.startClause
  split
  · simp
  · split
    · simp
    · rename_i w f _ _
      have hd := h.atHeader wid fr w f
      revert hd
      cases s.atHeader wid fr w f <;> simp

@[simp ↓] theorem execClauseStart_memOk {s : State} (h : MemOk s) (wid rec1) : OutOk (execClauseStart wid rec1 s) :=
  onCore_memOk (onEvent_memOk (h.startClause ..) _) _

@[simp ↓] theorem MemOk.detachHeld {s : State} (h : MemOk s) (wid fr) : OptOk (s.detachHeld wid fr) := by
  fun_cases State.detachHeld <;> simp [h]

@[simp ↓] theorem execHeldLanesDetach_memOk {s : State} (h : MemOk s) (wid rec1) : OutOk (execHeldLanesDetach wid rec1 s) :=
  onCore_memOk (onEvent_memOk (h.detachHeld ..) _) _

@[simp ↓] theorem MemOk.retryBranch {s : State} (h : MemOk s) (wid fr) : OptOk (s.retryBranch wid fr) := by
  fun_cases State.retryBranch <;> simp [h]

@[simp ↓] theorem execDivergeRetry_memOk {s : State} (h : MemOk s) (wid rec1) : OutOk (execDivergeRetry wid rec1 s) :=
  onCore_memOk (onEvent_memOk (h.retryBranch ..) _) _

@[simp ↓] theorem memOk_landTrap {s : State} {wid p t} : MemOk (s.landTrap wid p t) ↔ MemOk s := by
  fun_cases State.landTrap <;> simp

@[simp ↓] theorem MemOk.land {s : State} (h : MemOk s) (wid i) : OptOk (s.land wid i) := by
  fun_cases State.land <;> grind [OptOk, memOk_modWave, memOk_twinStep, memOk_landTrap]

@[simp ↓] theorem execResultLand_memOk {s : State} (h : MemOk s) (wid idx) : OutOk (execResultLand wid idx s) :=
  onCore_memOk (onEvent_memOk (h.land ..) _) _

@[simp ↓] theorem MemOk.redirectNow {s : State} (h : MemOk s) (wid) : OptOk (s.redirectNow wid) := by
  fun_cases State.redirectNow <;> simp [h]

@[simp ↓] theorem execAbortRedirect_memOk {s : State} (h : MemOk s) (wid) : OutOk (execAbortRedirect wid s) :=
  onCore_memOk (onEvent_memOk (h.redirectNow ..) _) _

@[simp ↓] theorem MemOk.wakeNow {s : State} (h : MemOk s) (wid fr) : OptOk (s.wakeNow wid fr) := by
  fun_cases State.wakeNow <;> simp [h]

@[simp ↓] theorem execSleepExpire_memOk {s : State} (h : MemOk s) (wid rec1) : OutOk (execSleepExpire wid rec1 s) :=
  onCore_memOk (onEvent_memOk (h.wakeNow ..) _) _

@[simp ↓] theorem MemOk.limitNow {s : State} (h : MemOk s) (wid fr) : OptOk (s.limitNow wid fr) := by
  fun_cases State.limitNow <;> grind [OptOk, MemOk.regionStep, memOk_modFrag]

@[simp ↓] theorem execAwaitLimitExpire_memOk {s : State} (h : MemOk s) (wid rec1) : OutOk (execAwaitLimitExpire wid rec1 s) :=
  onCore_memOk (onEvent_memOk (h.limitNow ..) _) _

/-! ### Machine/KeyValue -/

@[simp ↓] theorem memOk_modPool {s : State} {key f} : MemOk (s.modPool key f) ↔ MemOk s := Iff.rfl
@[simp ↓] theorem memOk_askBatch {s : State} {die p} : MemOk (s.askBatch die p) ↔ MemOk s := by simp [State.askBatch]

@[simp ↓] theorem memOk_unref {s : State} {p pid holder} : MemOk (s.unref p pid holder) ↔ MemOk s := by
  unfold State.unref
  dsimp only
  split
  · rfl
  · split <;> rfl

@[simp ↓] theorem MemOk.cloneSeq {s : State} (h : MemOk s) (sid q) : OptOk ((s.cloneSeq sid q).map Prod.snd) := by
  fun_cases State.cloneSeq <;> simp [h]

@[simp ↓] theorem MemOk.freeSeq {s : State} (h : MemOk s) (sid q) : MemOk (s.freeSeq sid q) := by simp +contextual [State.freeSeq, h]

@[simp ↓] theorem copiedOver_memOk {s : State} {fail : Nat → Nat → Perf} (h : MemOk s) (hf : ∀ c v, (fail c v).Ok) (r va n)
    (dst : State → Nat) :
    (readAt s r va n fail fun s l => writeAt s r (dst s) l fail fun s => .lands s [] none).Ok :=
  readAt_memOk h hf (fun _ _ ht => writeAt_memOk ht hf (fun _ hu => Perf.ok_lands.2 hu) ..) ..

@[simp ↓] theorem copyPage_memOk {s : State} {body : State → KvLane} (h : MemOk s) (hb : ∀ t, MemOk t → (body t).Ok)
    (r p old new slots sid) :
    (copyPage s r p old new slots sid body).Ok := by
  unfold copyPage
  extract_lets k n fail
  have hr := copiedOver_memOk h (fail := fail) (fun _ _ => Perf.ok_waits) r (s.slotAddr p old 0) n fun s => s.slotAddr p new 0
  clear_value fail n
  split
  · split
    · rename_i heq
      exact hb _ (Perf.ok_lands.1 (heq ▸ hr))
    · exact KvLane.ok_perf.2 hr
  · simp
  · simp
  · simp

@[simp ↓] theorem kvaAppLane_memOk {s : State} (h : MemOk s) (r sid n) : (kvaAppLane s r sid n).Ok := by
  unfold kvaAppLane
  dsimp only
  split
  · simp
  · split
    · simp
    · split
      · split <;> simp [h]
      · split
        · simp [h]
        · split
          · exact copyPage_memOk h (fun t ht => by simp [ht]) ..
          · simp [h]

@[simp ↓] theorem kvaNewLane_memOk {s : State} (h : MemOk s) (r pool) : (kvaNewLane s r pool).Ok := by
  fun_cases kvaNewLane <;> simp [h]

@[simp ↓] theorem kvcLane_memOk {s : State} (h : MemOk s) (r sid) : (kvcLane s r sid).Ok := by
  unfold kvcLane
  split
  · simp
  · split
    · have hc := h.cloneSeq sid ‹_›
      simpa using (hc.mem (by simp [*]))
    · simp [h]

@[simp ↓] theorem kvfLane_memOk {s : State} (h : MemOk s) (r sid) : (kvfLane s r sid).Ok := by
  fun_cases kvfLane <;> simp [h]

@[simp ↓] theorem kvRun_memOk {r : EngReq} {d : Option Nat} {one : State → Nat × Nat × Nat → KvLane}
    {rest : List (Nat × Nat × Nat) → EngOp} {full}
    (ho : ∀ s x, MemOk s → (one s x).Ok) {s : State} (h : MemOk s) (xs got bad) : (kvRun r d one rest full s xs got bad).Ok := by
  induction xs generalizing s got bad with
  | nil => simp [kvRun, h]
  | cons x xs ih =>
    have hx := ho s x h
    unfold kvRun
    split
    · exact ih (KvLane.ok_ok.1 (‹one s x = _› ▸ hx)) ..
    · exact ih h ..
    · have hp := KvLane.ok_perf.1 (‹one s x = _› ▸ hx)
      split
      · exact hp
      · exact Perf.ok_partly.2 h
    · split
      · simp
      · simp [h]

@[simp ↓] theorem kvtPerf_memOk {s : State} (h : MemOk s) (r items d k) : (kvtPerf s r items d k).Ok := by simp [kvtPerf, h]

@[simp ↓] theorem kvPerf_memOk {s : State} (h : MemOk s) (r) : (kvPerf s r).Ok := by
  fun_cases kvPerf <;> simp +contextual [h]

@[simp ↓] theorem execKvt_memOk {s : State} (h : MemOk s) (w) : OutOk (execKvt w s) := by simp +contextual [execKvt, h]
@[simp ↓] theorem execKvaNew_memOk {s : State} (h : MemOk s) (w) : OutOk (execKvaNew w s) := by simp +contextual [execKvaNew, h]
@[simp ↓] theorem execKvaApp_memOk {s : State} (h : MemOk s) (w) : OutOk (execKvaApp w s) := by simp +contextual [execKvaApp, h]
@[simp ↓] theorem execKvc_memOk {s : State} (h : MemOk s) (w) : OutOk (execKvc w s) := by simp +contextual [execKvc, h]
@[simp ↓] theorem execKvf_memOk {s : State} (h : MemOk s) (w) : OutOk (execKvf w s) := by simp +contextual [execKvf, h]

/-! ### Machine/Particle -/

@[simp ↓] theorem memOk_modParticle {s : State} {key f} : MemOk (s.modParticle key f) ↔ MemOk s := Iff.rfl
@[simp ↓] theorem memOk_modPop {s : State} {p f} : MemOk (s.modPop p f) ↔ MemOk s := Iff.rfl
@[simp ↓] theorem memOk_setWeight {s : State} {p w} : MemOk (s.setWeight p w) ↔ MemOk s := by simp [State.setWeight]
@[simp ↓] theorem weightOp_memOk {e : Env} (h : MemOk e.s) (operands op) : (weightOp e operands op).Ok := by simp [weightOp, h]
@[simp ↓] theorem execPwadd_memOk {s : State} (h : MemOk s) (w) : OutOk (execPwadd w s) := by simp +contextual [execPwadd, h]
@[simp ↓] theorem execPwset_memOk {s : State} (h : MemOk s) (w) : OutOk (execPwset w s) := by simp +contextual [execPwset, h]
@[simp ↓] theorem execPkill_memOk {s : State} (h : MemOk s) (w) : OutOk (execPkill w s) := by simp +contextual [execPkill, h]
@[simp ↓] theorem execRsb_memOk {s : State} (h : MemOk s) (w) : OutOk (execRsb w s) := by simp +contextual [execRsb, h]

@[simp ↓] theorem execPopr_memOk {s : State} (h : MemOk s) (w) : OutOk (execPopr w s) := by
  refine onWord_memOk h (fun e he => ?_) w
  grind [WRes.Ok, WRes.states, Env.illegal_memOk, leaderOnce_memOk, Env.trapNow_memOk]

/-! ### Machine/Launch -/

@[simp ↓] theorem memOk_modFn {s : State} {n f} : MemOk (s.modFn n f) ↔ MemOk s := Iff.rfl

@[simp ↓] theorem onFn_memOk {s : State} {f : State → State} (h : MemOk s) (hf : ∀ t, MemOk t → MemOk (f t)) (fn) :
    OutOk (onFn fn s f) := by
  simp [onFn, h, hf]

@[simp ↓] theorem memOk_modQueue {s : State} {ctx q f} : MemOk (s.modQueue ctx q f) ↔ MemOk s := Iff.rfl

@[simp ↓] theorem execQueueConfigWrite_memOk {s : State} (h : MemOk s) (fn ctx q reg val) :
    OutOk (execQueueConfigWrite fn ctx q reg val s) := by
  simp [execQueueConfigWrite, h]

@[simp ↓] theorem MemOk.cleanRegion {s : State} (h : MemOk s) (ctx rid) : MemOk (s.cleanRegion ctx rid) := by
  unfold State.cleanRegion
  dsimp only
  split
  · exact h
  · exact (MemOk.foldl (fun _ _ hs => hs.recall ..) _ h).same rfl

@[simp ↓] theorem MemOk.cleanAll {s : State} (h : MemOk s) (ctx rids) : MemOk (s.cleanAll ctx rids) := by
  simp +contextual [State.cleanAll, h]

@[simp ↓] theorem memOk_retire {s : State} {sk failed} : MemOk (s.retire sk failed) ↔ MemOk s := Iff.rfl

@[simp ↓] theorem cascade_memOk (n) {s : State} (h : MemOk s) (sks) : MemOk (State.cascade n s sks) := by
  induction n generalizing s sks with
  | zero => exact h
  | succ n ih =>
    refine MemOk.foldl (fun s sk hs => ?_) sks h
    split
    · exact hs
    · exact ih (by simp [hs]) _

@[simp ↓] theorem MemOk.failSlot {s : State} (h : MemOk s) (sk) : MemOk (s.failSlot sk) := by simp [State.failSlot, h]

@[simp ↓] theorem MemOk.fireEdges {s : State} (h : MemOk s) (sk) : MemOk (s.fireEdges sk) := by
  refine MemOk.foldl (fun s k hs => ?_) _ h
  split
  · exact hs
  · simp [(hs.cleanAll ..).same rfl]

@[simp ↓] theorem memOk_dropErrs {s : State} {ls} : MemOk (s.dropErrs ls) ↔ MemOk s := Iff.rfl

@[simp ↓] theorem MemOk.readRecord {s : State} (h : MemOk s) (ctx va) : MemOk (s.readRecord ctx va).1 := by
  fun_cases State.readRecord <;> grind [memOk_dropErrs, MemOk.recallLocs, MemOk.meetHome]

@[simp ↓] theorem MemOk.reject {s : State} (h : MemOk s) (sk code) : MemOk (s.reject sk code) := by simp [State.reject, h]

@[simp ↓] theorem MemOk.accept {s : State} (h : MemOk s) (sk l) : MemOk (s.accept sk l) := by
  unfold State.accept
  extract_lets ctx edges s₁ slot
  have h₁ : MemOk s₁ := h.cleanAll ..
  apply MemOk.refreshReady
  exact h₁.same rfl

@[simp ↓] theorem MemOk.readSlot {s : State} (h : MemOk s) (ctx q slot) : MemOk (s.readSlot ctx q slot) := by
  fun_cases State.readSlot <;> grind [MemOk.readRecord, MemOk.reject, MemOk.accept]

@[simp ↓] theorem MemOk.moveTail {s : State} (h : MemOk s) (ctx q val) : MemOk (s.moveTail ctx q val) := by
  simp +contextual [State.moveTail, h]

@[simp ↓] theorem execQtailWrite_memOk {s : State} (h : MemOk s) (fn ctx q val) : OutOk (execQtailWrite fn ctx q val s) := by
  simp +contextual [execQtailWrite, h]

@[simp ↓] theorem MemOk.begin {s : State} (h : MemOk s) (sk lid words kills) : MemOk (s.begin sk lid words kills) := by
  simp [State.begin, h]

@[simp ↓] theorem MemOk.startLaunch {s : State} (h : MemOk s) (sk) : OptOk (s.startLaunch sk) := by
  fun_cases State.startLaunch <;> simp [h]

@[simp ↓] theorem execLaunchStart_memOk {s : State} (h : MemOk s) (slot) : OutOk (execLaunchStart slot s) := by simp [execLaunchStart, h]

@[simp ↓] theorem MemOk.offer {s : State} (h : MemOk s) (lid die) : OptOk (s.offer lid die) := by
  unfold State.offer
  dsimp only
  split
  · simp
  · split
    · simp
    · split
      · simp [h]
      · split
        · simp [h]
        · split <;> simp [h]

@[simp ↓] theorem execCrewOffer_memOk {s : State} (h : MemOk s) (lid die) : OutOk (execCrewOffer lid die s) :=
  onDie_memOk (onEvent_memOk (h.offer ..) _) _

@[simp ↓] theorem memOk_clearBusy {s : State} {k} : MemOk (s.clearBusy k) ↔ MemOk s := Iff.rfl

@[simp ↓] theorem MemOk.countAction {s : State} (h : MemOk s) (ctx rid n) : MemOk (s.countAction ctx rid n).1 := by
  fun_cases State.countAction <;> simp [h]

@[simp ↓] theorem memOk_dropLaunch {s : State} {lid} : MemOk (s.dropLaunch lid) ↔ MemOk s := Iff.rfl

@[simp ↓] theorem MemOk.completeLaunch {s : State} (h : MemOk s) (lid l) : MemOk (s.completeLaunch lid l) := by
  unfold State.completeLaunch
  extract_lets act s₁ s₂
  have h₂ : MemOk s₂ := (h.releaseWhere _).same rfl
  have hc : MemOk (if 2 ≤ act then s₂.countAction l.ctx (recField l.words 0x58 13 0) (recField l.words 0x58 47 16)
      else (s₂, true)).1 := by
    split
    · exact h₂.countAction ..
    · exact h₂
  split
  rename_i heq
  rw [heq] at hc
  split <;> simp [hc]

@[simp ↓] theorem MemOk.tryComplete {s : State} (h : MemOk s) (lid) : OptOk (s.tryComplete lid) := by
  fun_cases State.tryComplete <;> simp [h]

@[simp ↓] theorem execLaunchComplete_memOk {s : State} (h : MemOk s) (lid) : OutOk (execLaunchComplete lid s) := by
  simp [execLaunchComplete, h]

/-! ### Machine/Round -/

@[simp ↓] theorem memOk_modRound {s : State} {lid f} : MemOk (s.modRound lid f) ↔ MemOk s := Iff.rfl
@[simp ↓] theorem memOk_openRound {s : State} {lid l r} : MemOk (s.openRound lid l r) ↔ MemOk s := by simp [State.openRound]

@[simp ↓] theorem MemOk.tryOpen {s : State} (h : MemOk s) (lid) : OptOk (s.tryOpen lid) := by
  fun_cases State.tryOpen <;> simp [h]

@[simp ↓] theorem execRoundOpen_memOk {s : State} (h : MemOk s) (lid) : OutOk (execRoundOpen lid s) := by simp [execRoundOpen, h]

@[simp ↓] theorem MemOk.retireParticle {s : State} (h : MemOk s) (owner key) : MemOk (s.retireParticle owner key) := by
  fun_cases State.retireParticle
  grind [MemOk.freeSeq, memOk_modParticle]

@[simp ↓] theorem memOk_putClone {s : State} {pop key parentKey w seq g} : MemOk (s.putClone pop key parentKey w seq g) ↔ MemOk s :=
  Iff.rfl

@[simp ↓] theorem cloneStarves_memOk {s : Option State} (h : OptOk s) : (cloneStarves s).Ok := by
  fun_cases cloneStarves <;> simp_all

@[simp ↓] theorem MemOk.copyKilo {s : State} {body : State → CloneDo} (h : MemOk s) (hb : ∀ t, MemOk t → (body t).Ok)
    (lid ctx die src dst) :
    (s.copyKilo lid ctx die src dst body).Ok := by
  unfold State.copyKilo
  dsimp only
  split
  · simp [h]
  · split
    · simp [h]
    · split
      · simp
      · split
        · exact cloneStarves_memOk ((h.meetHome _).starveAtStep _)
        · have hr := (h.meetHome src).recallLocs src
          split
          · exact cloneStarves_memOk (optOk_orElse (hr.starveAtStep _) (hr.starveStep _))
          · exact hb _ ((hr.writeDev ..).holdBytes ..)

@[simp ↓] theorem MemOk.cloneOf {s : State} (h : MemOk s) (owner sid) : OptOk ((s.cloneOf owner sid).map Prod.snd) := by
  unfold State.cloneOf
  split
  · simp [h]
  · split
    · simp [h]
    · rename_i q _ _
      have hc := h.cloneSeq sid q
      revert hc
      cases s.cloneSeq sid q <;> simp

@[simp ↓] theorem MemOk.tryClone {s : State} (h : MemOk s) (lid l pop j) : (s.tryClone lid l pop j).Ok := by
  unfold State.tryClone
  dsimp only
  split
  · simp
  · have hm : ∀ t, MemOk t → ∀ key w g, CloneDo.Ok (match t.cloneOf l.ctx (s.particle j.parent).seq.toNat with
        | none => .stalls
        | some (id, t) => .made (t.putClone pop key j.parent w id g)) := by
      intro t ht key w g
      have hc := ht.cloneOf l.ctx (s.particle j.parent).seq.toNat
      split
      · simp
      · simpa using hc.mem (by simp [*])
    split
    · exact hm s h ..
    · split
      · simp
      · split
        · simp
        · simp
        · exact h.copyKilo (fun t ht => hm t ht ..) ..

@[simp ↓] theorem makeClones_memOk (lid l pop) {s : State} (h : MemOk s) (js held) : MemOk (State.makeClones lid l pop s js held).1 := by
  induction js generalizing s held with
  | nil => exact h
  | cons j js ih =>
    have ht := h.tryClone lid l pop j
    unfold State.makeClones
    dsimp only
    split
    · exact ih h _
    · split
      · exact ih (CloneDo.ok_made.1 (‹s.tryClone _ _ _ _ = _› ▸ ht)) _
      · exact ih h _
      · exact ih (CloneDo.ok_stopped.1 (‹s.tryClone _ _ _ _ = _› ▸ ht)) _
      · exact ih (by simp [h]) _

@[simp ↓] theorem MemOk.secondPass {s : State} (h : MemOk s) (lid jobs) : MemOk (s.secondPass lid jobs) := by
  unfold State.secondPass
  split
  · exact h
  · split
    · exact h
    · simp [makeClones_memOk, h]

@[simp ↓] theorem execCloneRetry_memOk {s : State} (h : MemOk s) (lid) : OutOk (execCloneRetry lid s) := by
  unfold execCloneRetry
  split <;> simp [h]

@[simp ↓] theorem MemOk.extinction {s : State} (h : MemOk s) (lid l r keys m) : MemOk (s.extinction lid l r keys m) := by
  simp +contextual [State.extinction, h]

@[simp ↓] theorem MemOk.resample {s : State} (h : MemOk s) (lid l r) : MemOk (s.resample lid l r) := by
  fun_cases State.resample <;>
    grind [MemOk.foldl, memOk_modPop, MemOk.extinction, MemOk.retireParticle, memOk_modParticle, MemOk.secondPass]

@[simp ↓] theorem MemOk.checkRound {s : State} (h : MemOk s) (lid) : MemOk (s.checkRound lid) := by
  fun_cases State.checkRound <;> simp [h]

@[simp ↓] theorem MemOk.finishParticle {s : State} (h : MemOk s) (lid p) : MemOk (s.finishParticle lid p) := by
  unfold State.finishParticle
  split <;> simp [h]

@[simp ↓] theorem MemOk.particleEnds {s : State} (h : MemOk s) (lid p rsb) : MemOk (s.particleEnds lid p rsb) := by
  fun_cases State.particleEnds <;> simp [h]

@[simp ↓] theorem MemOk.sealArrivals {s : State} (h : MemOk s) : MemOk s.sealArrivals := by simp [State.sealArrivals, h]

@[simp ↓] theorem MemOk.tryArrival {s : State} (h : MemOk s) (lid) : OptOk (s.tryArrival lid) := by
  fun_cases State.tryArrival <;> simp [h]

@[simp ↓] theorem execParticleArrival_memOk {s : State} (h : MemOk s) (lid) : OutOk (execParticleArrival lid s) := by
  simp [execParticleArrival, h]

/-! ### Machine/System -/

@[simp ↓] theorem memOk_passBarrier {s : State} {wid w wait ofCrew} : MemOk (s.passBarrier wid w wait ofCrew) ↔ MemOk s := by
  fun_cases State.passBarrier <;> grind [memOk_modFrag, memOk_pushLvq, memOk_pul, memOk_twinStep]

@[simp ↓] theorem memOk_passOne {s : State} {wid members wait ofCrew} : MemOk (s.passOne wid members wait ofCrew) ↔ MemOk s := by
  fun_cases State.passOne <;> simp

@[simp ↓] theorem memOk_passAll {s : State} {ws members wait ofCrew} : MemOk (s.passAll ws members wait ofCrew) ↔ MemOk s := by
  simp [State.passAll]

@[simp ↓] theorem barMismatch_memOk {e : Env} (h : MemOk e.s) (info) : (barMismatch e info).Ok := by simp [barMismatch, h]

@[simp ↓] theorem execBarb_memOk {s : State} (h : MemOk s) (w) : OutOk (execBarb w s) := by
  refine onWord_memOk h (fun e he => ?_) w
  grind [WRes.Ok, WRes.states, Env.illegal_memOk, memOk_modBlock, barMismatch_memOk, memOk_passAll]

@[simp ↓] theorem execBarc_memOk {s : State} (h : MemOk s) (w) : OutOk (execBarc w s) := by
  refine onWord_memOk h (fun e he => ?_) w
  dsimp only
  split
  · simp [he]
  · refine passed_memOk he (fun e he => ?_) (fun _ _ he => he)
    split
    · simp [he]
    · split
      · simp [he]
      · split <;> simp [he]

@[simp ↓] theorem spawnAll_memOk {e : Env} (core1 b pc arg n l) {s : State} (h : MemOk s) : MemOk (spawnAll e core1 b pc arg n l s) := by
  induction l generalizing n s with
  | nil => exact h
  | cons x xs ih => exact ih _ (h.same rfl)

@[simp ↓] theorem execSpawn_memOk {s : State} (h : MemOk s) (w) : OutOk (execSpawn w s) := by
  refine onWord_memOk h (fun e he => ?_) w
  grind [WRes.Ok, WRes.states, Env.illegal_memOk, memOk_popLvq, spawnAll_memOk, memOk_pushLvq]

@[simp ↓] theorem execTwinCkpt_memOk {s : State} (h : MemOk s) (w) : OutOk (execTwinCkpt w s) := by simp +contextual [execTwinCkpt, h]
@[simp ↓] theorem execTwinCmp_memOk {s : State} (h : MemOk s) (w) : OutOk (execTwinCmp w s) := by simp +contextual [execTwinCmp, h]
@[simp ↓] theorem memOk_closeGroup {s : State} {bid b} : MemOk (s.closeGroup bid b) ↔ MemOk s := Iff.rfl

@[simp ↓] theorem execDetf_memOk {s : State} (h : MemOk s) (w) : OutOk (execDetf w s) := by
  refine onWord_memOk h (fun e he => ?_) w
  grind [WRes.Ok, WRes.states, Env.illegal_memOk, memOk_closeGroup]

/-! ### Machine/Ending -/

@[simp ↓] theorem EndDo.andThen_memOk {r : EndDo} {f : State → EndDo} (h : r.Ok) (hf : ∀ t, MemOk t → (f t).Ok) : (r.andThen f).Ok := by
  fun_cases EndDo.andThen <;> simp_all

@[simp ↓] theorem endMove_memOk {s : State} {r : Except Halt State} (h : MemOk s) (hr : ExcOk r) (q) : (endMove s q r).Ok := by
  unfold endMove
  split
  · simpa using hr
  · simp
  · simp
  · split
    · simpa using (h.starveStep _).mem ‹_›
    · simp
  · simp [h]

@[simp ↓] theorem MemOk.endMoves {s : State} (h : MemOk s) (wid w l) : (s.endMoves wid w l).Ok := by
  unfold State.endMoves
  refine EndDo.andThen_memOk (endMove_memOk h (h.commitUp ..) _) fun s hs => ?_
  split
  · simp [hs]
  · refine EndDo.andThen_memOk (endMove_memOk hs (absorb_memOk hs (hs.blockUp ..) ..) _) fun s hs => ?_
    split
    · simp [hs]
    · exact endMove_memOk hs (hs.crewHome ..) _

@[simp ↓] theorem memOk_ticketOn (lid n) {s : State} : MemOk (State.ticketOn lid n s) ↔ MemOk s := by
  fun_induction State.ticketOn lid n s with
  | case1 | case2 | case4 => rfl
  | case3 n s l hl d hd ih => simpa using ih

@[simp ↓] theorem MemOk.moveTicket {s : State} (h : MemOk s) (lid) : MemOk (s.moveTicket lid) := by simp [State.moveTicket, h]
@[simp ↓] theorem MemOk.endStream {s : State} (h : MemOk s) (bid b) : MemOk (s.endStream bid b) := by simp [State.endStream, h]
@[simp ↓] theorem memOk_dropCrewCopies {s : State} {ck} : MemOk (s.dropCrewCopies ck) ↔ MemOk s := Iff.rfl
@[simp ↓] theorem memOk_endCrew {s : State} {lid crew} : MemOk (s.endCrew lid crew) ↔ MemOk s := Iff.rfl

@[simp ↓] theorem memOk_passArea {s : State} {bid b} : MemOk (s.passArea bid b) ↔ MemOk s := by
  fun_cases State.passArea <;> simp

@[simp ↓] theorem MemOk.endBlock {s : State} (h : MemOk s) (bid b) : MemOk (s.endBlock bid b) := by
  unfold State.endBlock
  extract_lets s₁ shadow s₂ s₃ s₄ s₅ s₆
  have h₆ : MemOk s₆ := by simp [s₆, s₅, s₄, s₃, s₂, s₁, h]
  split
  · split <;> simp [h₆]
  · exact h₆

@[simp ↓] theorem MemOk.freeWave {s : State} (h : MemOk s) (wid w last) : MemOk (s.freeWave wid w last) := by
  unfold State.freeWave
  extract_lets bid both s₁ keep s₂ s₃ s₄
  have h₃ : MemOk s₃ := by
    refine MemOk.same (s := s₂) (MemOk.foldl (fun s k hs => ?_) both ?_) rfl
    · dsimp only [keep]
      split
      · split <;> simp [hs]
      · exact hs
    · simp [s₁, h]
  have h₄ : MemOk s₄ := by
    dsimp only [s₄]
    split <;> simp [h₃]
  split
  · exact h₃
  · split <;> simp [h₄]

@[simp ↓] theorem memOk_dueAfterEnd {s : State} {w bid} : MemOk (s.dueAfterEnd w bid) ↔ MemOk s := by simp [State.dueAfterEnd]

@[simp ↓] theorem MemOk.endNow {s : State} (h : MemOk s) (wid w) : OptOk (s.endNow wid w) := by
  unfold State.endNow
  extract_lets l
  have he := h.endMoves wid w l
  split
  · simp
  · revert he
    cases s.endMoves wid w l <;> simp +contextual

@[simp ↓] theorem MemOk.tryEnd {s : State} (h : MemOk s) (wid) : OptOk (s.tryEnd wid) := by
  fun_cases State.tryEnd <;> simp [h]

@[simp ↓] theorem execWaveEnd_memOk {s : State} (h : MemOk s) (wid) : OutOk (execWaveEnd wid s) :=
  onCore_memOk (onEvent_memOk (h.tryEnd ..) _) _

/-! ### Machine/Compare -/

@[simp ↓] theorem memOk_recordSide {s : State} {bid} : MemOk (s.recordSide bid) ↔ MemOk s := by simp [State.recordSide]
@[simp ↓] theorem memOk_checkpoint {s : State} {bid} : MemOk (s.checkpoint bid) ↔ MemOk s := by simp [State.checkpoint]

@[simp ↓] theorem MemOk.fixBarriers {s : State} (h : MemOk s) (p) : MemOk (s.fixBarriers p) := by
  fun_cases State.fixBarriers
  grind [MemOk.foldl, memOk_modFrag, memOk_modCrew]

@[simp ↓] theorem memOk_dropReads {s : State} {wids} : MemOk (s.dropReads wids) ↔ MemOk s := Iff.rfl

@[simp ↓] theorem memOk_restoreSide {s : State} {bid} : MemOk (s.restoreSide bid) ↔ MemOk s := by
  unfold State.restoreSide
  split
  · rfl
  · split
    · rfl
    · extract_lets now s₁ applied waves back waves' s₂
      calc MemOk (s₂.modBlock bid _)
        _ ↔ MemOk s₂ := memOk_modBlock
        _ ↔ MemOk s₁ := .rfl
        _ ↔ MemOk s := by simp [s₁]

@[simp ↓] theorem MemOk.rollback {s : State} (h : MemOk s) (bid) : MemOk (s.rollback bid) :=
  MemOk.foldl (fun _ _ hs => hs.fixBarriers _) _ (MemOk.foldl (fun _ _ hs => memOk_restoreSide.2 hs) _ h)

@[simp ↓] theorem MemOk.mismatch {s : State} (h : MemOk s) (wid bid) : MemOk (s.mismatch wid bid) := by simp [State.mismatch, h]
@[simp ↓] theorem memOk_release {s : State} {wid sid w} : MemOk (s.release wid sid w) ↔ MemOk s := Iff.rfl

@[simp ↓] theorem MemOk.compareNow {s : State} (h : MemOk s) (wid) : OptOk (s.compareNow wid) := by
  fun_cases State.compareNow <;> simp [h]

@[simp ↓] theorem execTwinCompare_memOk {s : State} (h : MemOk s) (wid) : OutOk (execTwinCompare wid s) :=
  onCore_memOk (onEvent_memOk (h.compareNow ..) _) _

/-! ### Machine/Grammar -/

@[simp ↓] theorem execGmk_memOk {s : State} (h : MemOk s) (w) : OutOk (execGmk w s) := by
  refine onWord_memOk h (fun e he => ?_) w
  grind [WRes.Ok, WRes.states, Env.trapNow_memOk, engineOp_memOk]

@[simp ↓] theorem gmkLane_memOk {s : State} {body : State → Bytes → Perf} (h : MemOk s) (hb : ∀ t a, MemOk t → (body t a).Ok) (r g va) :
    (gmkLane s r g va body).Ok := by
  fun_cases gmkLane
  grind [Perf.Ok, Perf.states, readAt_memOk]

@[simp ↓] theorem gmkRun_memOk (r g off pitch bid l) {s : State} (h : MemOk s) : (gmkRun r g off pitch bid s l).Ok := by
  induction l generalizing s with
  | nil => simp [gmkRun, h]
  | cons x xs ih =>
    exact gmkLane_memOk h (fun s l hs => by simp [hs, ih]) ..

@[simp ↓] theorem gmkPerf_memOk {s : State} (h : MemOk s) (r) : (gmkPerf s r).Ok := by
  fun_cases gmkPerf <;> grind [Perf.Ok, Perf.states, readAt_memOk, touch_memOk, gmkRun_memOk]

@[simp ↓] theorem execGstp_memOk {s : State} (h : MemOk s) (w) : OutOk (execGstp w s) := by
  refine onWord_memOk h (fun e he => ?_) w
  dsimp only
  split
  · simp [he]
  · split
    · simp [he]
    · exact engineOp_memOk he ..

@[simp ↓] theorem stepRead_memOk {s : State} {body : State → Bytes → StepLane} (h : MemOk s) (hb : ∀ t l, MemOk t → (body t l).Ok)
    (r va n) :
    (stepRead s r va n body).Ok := by
  unfold stepRead
  split
  · simp
  · simp
  · split
    · exact StepLane.ok_perf.2 (engineHome_error_memOk h ‹_›)
    · exact hb _ _ ((engineHome_memOk h ..).mem ‹_›)

@[simp ↓] theorem stepSearch_memOk {r g t} {body : State → Nat → StepLane} (hb : ∀ s n, MemOk s → (body s n).Ok) (n) {s : State}
    (h : MemOk s) (lo hi) :
    (stepSearch r g t body n s lo hi).Ok := by
  induction n generalizing s lo hi with
  | zero => exact hb s lo h
  | succ n ih =>
    unfold stepSearch
    split
    · exact hb s lo h
    · refine stepRead_memOk h (fun s l hs => ?_) ..
      split
      · exact ih hs ..
      · exact ih hs ..

@[simp ↓] theorem stepWrite_memOk {s : State} (h : MemOk s) (r va a entry entered) : (stepWrite s r va a entry entered).Ok := by
  unfold stepWrite
  extract_lets put
  have hput {s : State} {body : State → StepLane} (h : MemOk s) (hb : ∀ t, MemOk t → (body t).Ok) (va l) : (put s va l body).Ok := by
    have hw := writeAt_memOk h (fail := fun _ _ => .waits) (body := fun s => .lands s [] none)
      (fun _ _ => Perf.ok_waits) (fun _ hs => Perf.ok_lands.2 hs) r va l
    dsimp only [put]
    split
    · simp
    · simp
    · split
      · rename_i heq
        exact hb _ (Perf.ok_lands.1 (heq ▸ hw))
      · exact StepLane.ok_perf.2 hw
  refine hput h (fun s hs => ?_) ..
  split
  · exact hput hs (fun s hs => StepLane.ok_ok.2 hs) ..
  · simp [hs]

@[simp ↓] theorem stepLane_memOk {s : State} (h : MemOk s) (r g va t) : (stepLane s r g va t).Ok := by
  refine stepRead_memOk h (fun s raw hs => ?_) ..
  dsimp only
  split
  · simp [hs]
  · split
    · exact stepWrite_memOk hs ..
    · refine stepRead_memOk hs (fun s p hs => stepSearch_memOk (fun s lo hs => ?_) _ hs _ _) ..
      split
      · exact stepWrite_memOk hs ..
      · refine stepRead_memOk hs (fun s x hs => ?_) ..
        split
        · exact stepWrite_memOk hs ..
        · exact stepWrite_memOk hs ..

@[simp ↓] theorem stepRun_memOk {one : State → Nat → Nat → StepLane} {d trp} (ho : ∀ s va t, MemOk s → (one s va t).Ok) (l) {s : State}
    (h : MemOk s) (ws bad errs) :
    (stepRun one d trp s l ws bad errs).Ok := by
  induction l generalizing s ws bad errs with
  | nil => simp [stepRun, h]
  | cons x xs ih =>
    have hx := ho s x.2.1 x.2.2 h
    unfold stepRun
    split <;> rename_i heq <;> rw [heq] at hx
    · exact ih (StepLane.ok_ok.1 hx) ..
    · exact ih h ..
    · exact StepLane.ok_perf.1 hx

@[simp ↓] theorem gstpPerf_memOk {s : State} (h : MemOk s) (r) : (gstpPerf s r).Ok := by
  fun_cases gstpPerf <;> grind [Perf.Ok, Perf.states, readAt_memOk, stepRun_memOk, stepLane_memOk]

/-! ### Machine/Sample -/

@[simp ↓] theorem smplRun_memOk (r bid p d given kill outs l) {s : State} (h : MemOk s) (ws bad) :
    (smplRun r bid p d given kill outs s l ws bad).Ok := by
  induction l generalizing s ws bad with
  | nil => simp [smplRun, h]
  | cons x xs ih =>
    unfold smplRun
    dsimp only
    split
    · split
      · exact ih h ..
      · exact ih (by simp [h]) ..
    · exact ih h ..

@[simp ↓] theorem smplPerf_memOk {s : State} (h : MemOk s) (r) : (smplPerf s r).Ok := by
  fun_cases smplPerf <;> grind [Perf.Ok, Perf.states, touch_memOk, smplRun_memOk]

@[simp ↓] theorem execSmpl_memOk {s : State} (h : MemOk s) (w) : OutOk (execSmpl w s) := by simp +contextual [execSmpl, h]
@[simp ↓] theorem execMaxe_memOk {s : State} (h : MemOk s) (w) : OutOk (execMaxe w s) := by simp +contextual [execMaxe, h]
@[simp ↓] theorem execPexp_memOk {s : State} (h : MemOk s) (w) : OutOk (execPexp w s) := by simp +contextual [execPexp, h]

/-! ### Machine/Winnow -/

@[simp ↓] theorem execWnw_memOk {s : State} (h : MemOk s) (w) : OutOk (execWnw w s) := by
  refine onWord_memOk h (fun e he => ?_) w
  grind [WRes.Ok, WRes.states, Env.trapNow_memOk, withScratch_memOk, engineOp_memOk]

@[simp ↓] theorem wnwRows_memOk {body : State → List (Nat × Int) → Perf} (hb : ∀ s l, MemOk s → (body s l).Ok)
    (r keys pitch dim query n i l)
    {s : State} (h : MemOk s) : (wnwRows r keys pitch dim query body s n i l).Ok := by
  induction n generalizing s i l with
  | zero => exact hb s l h
  | succ n ih => exact readAt_memOk h (fun _ _ => Perf.ok_held.2 h) (fun s b hs => ih _ _ hs) ..

@[simp ↓] theorem wnwPerf_memOk {s : State} (h : MemOk s) (r) : (wnwPerf s r).Ok := by
  fun_cases wnwPerf <;> simp [h]

/-! ### Machine/Complete -/

@[simp ↓] theorem memOk_modCopy {s : State} {core id f} : MemOk (s.modCopy core id f) ↔ MemOk s := Iff.rfl

@[simp ↓] theorem MemOk.readTodo {s : State} (h : MemOk s) (ctx c) : MemOk (s.readTodo ctx c).1 := by
  unfold State.readTodo
  split <;> simp [h]

@[simp ↓] theorem MemOk.countBox {s : State} (h : MemOk s) (ctx extra) : MemOk (s.countBox ctx extra) := by
  fun_cases State.countBox <;> simp [h]

@[simp ↓] theorem memOk_overtake {s : State} {core c l} : MemOk (s.overtake core c l) ↔ MemOk s := by simp [State.overtake]
@[simp ↓] theorem MemOk.writeCopy {s : State} (h : MemOk s) (c w l) : MemOk (s.writeCopy c w l) := by simp [State.writeCopy, h]
@[simp ↓] theorem memOk_dropCopy {s : State} {core c held} : MemOk (s.dropCopy core c held) ↔ MemOk s := by simp [State.dropCopy]

@[simp ↓] theorem MemOk.sendCopyPieces {s : State} (h : MemOk s) (core ctx c) : OptOk (s.sendCopyPieces core ctx c) := by
  simp [State.sendCopyPieces, h]

@[simp ↓] theorem MemOk.copyStop {s : State} (h : MemOk s) (core c ls) : OptOk (s.copyStop core c ls) := by simp [State.copyStop, h]

@[simp ↓] theorem MemOk.finishCopy {s : State} (h : MemOk s) (core id) : OptOk (s.finishCopy core id) := by
  unfold State.finishCopy
  split
  · simp
  · rename_i c _
    split
    · simp
    · rename_i w _
      split
      · simp
      · extract_lets +onlyGivenNames reads s₁
        have h₁ : MemOk s₁ := h.meetHome reads
        clear_value s₁
        split
        · exact optOk_some.2 ((h₁.copyStop ..).mem ‹_›)
        · split
          · simp
          · have h₂ := h₁.readTodo w.ctx c
            generalize s₁.readTodo w.ctx c = r at h₂ ⊢
            obtain ⟨s₂, c₂⟩ := r
            dsimp -zeta only
            extract_lets +onlyGivenNames s₃
            have h₃ : MemOk s₃ := memOk_modCopy.2 h₂
            clear_value s₃
            split
            · simp
            · split
              · exact optOk_some.2 ((h₃.sendCopyPieces ..).mem ‹_›)
              · dsimp only
                split
                · simp
                · split
                  · simp [h₃]
                  · split
                    · exact h₃.starveStep _
                    · simp [h₃]

@[simp ↓] theorem execCopyComplete_memOk {s : State} (h : MemOk s) (core id) : OutOk (execCopyComplete core id s) :=
  onCore_memOk (onEvent_memOk (h.finishCopy ..) _) _

@[simp ↓] theorem MemOk.faultPiece {s : State} (h : MemOk s) (core1 id) : OptOk (s.faultPiece core1 id) := by
  unfold State.faultPiece
  split
  · simp
  · rename_i c _
    extract_lets ctx reads
    have hr : MemOk (if (s.copyStop core1 c reads).isSome || !s.recallRoom reads then (s, c) else s.readTodo ctx c).1 := by
      split
      · exact h
      · exact h.readTodo ..
    split
    rename_i heq
    rw [heq] at hr
    split
    · simp
    · exact optOk_map fun x => by simp [hr]

@[simp ↓] theorem execCopyPieceFault_memOk {s : State} (h : MemOk s) (core id) : OutOk (execCopyPieceFault core id s) :=
  onCore_memOk (onEvent_memOk (h.faultPiece ..) _) _

@[simp ↓] theorem MemOk.failCopy {s : State} (h : MemOk s) (core id) : MemOk (s.failCopy core id) := by
  fun_cases State.failCopy <;> grind [memOk_fresh, memOk_dropCopy, memOk_overtake, MemOk.writeCopy]

@[simp ↓] theorem MemOk.finishLazy {s : State} (h : MemOk s) (bid win) : OptOk (s.finishLazy bid win) := by
  unfold State.finishLazy
  exact optOk_bind fun v => optOk_map fun l => by simp [h]

@[simp ↓] theorem execLazyCopyComplete_memOk {s : State} (h : MemOk s) (blk win) : OutOk (execLazyCopyComplete blk win s) :=
  onCore_memOk (onEvent_memOk (h.finishLazy ..) _) _

@[simp ↓] theorem execMmqCollectorClose_memOk {s : State} (h : MemOk s) (core0) : OutOk (execMmqCollectorClose core0 s) :=
  onCore_memOk (onEvent_memOk (optOk_map fun _ => memOk_modCore.2 h) _) _

@[simp ↓] theorem MemOk.startPass {s : State} (h : MemOk s) (core) : OptOk (s.startPass core) := by
  fun_cases State.startPass <;> simp [h]

@[simp ↓] theorem execMatrixPassStart_memOk {s : State} (h : MemOk s) (core) : OutOk (execMatrixPassStart core s) :=
  onCore_memOk (onEvent_memOk (h.startPass ..) _) _

@[simp ↓] theorem MemOk.perform {s : State} (h : MemOk s) (r) : (s.perform r).Ok := by
  fun_cases State.perform <;> simp [h]

@[simp ↓] theorem MemOk.finishReq {s : State} (h : MemOk s) (id) : OptOk (s.finishReq id) := by
  fun_cases State.finishReq <;> simp [h]

@[simp ↓] theorem execEngineRequestComplete_memOk {s : State} (h : MemOk s) (id) : OutOk (execEngineRequestComplete id s) := by
  simp [execEngineRequestComplete, h]

@[simp ↓] theorem MemOk.evictU {s : State} (h : MemOk s) (core line) : OptOk (s.evictU core line) := by
  fun_cases State.evictU <;> simp [h]

@[simp ↓] theorem execULineEvict_memOk {s : State} (h : MemOk s) (core line) : OutOk (execULineEvict core line s) :=
  onCore_memOk (onEvent_memOk (h.evictU ..) _) _

@[simp ↓] theorem memOk_modWaveBack {s : State} {wid p f} : MemOk (s.modWaveBack wid p f) ↔ MemOk s := by
  fun_cases State.modWaveBack <;> simp

@[simp ↓] theorem memOk_putSwath {s : State} {lid sid x} : MemOk (s.putSwath lid sid x) ↔ MemOk s := Iff.rfl

@[simp ↓] theorem MemOk.acceptSend {s : State} (h : MemOk s) (id) : OptOk (s.acceptSend id) := by
  unfold State.acceptSend
  grind [OptOk, memOk_putSwath, memOk_modWaveBack]

@[simp ↓] theorem execSwathContributionAccept_memOk {s : State} (h : MemOk s) (id) : OutOk (execSwathContributionAccept id s) := by
  simp [execSwathContributionAccept, h]

@[simp ↓] theorem memOk_sendResult {s : State} {lid dst rows} : MemOk (s.sendResult lid dst rows) ↔ MemOk s := Iff.rfl

@[simp ↓] theorem MemOk.formResult {s : State} (h : MemOk s) (lid sid) : OptOk (s.formResult lid sid) := by
  fun_cases State.formResult <;> simp [h]

@[simp ↓] theorem memOk_deliver {s : State} {wid x rows} : MemOk (s.deliver wid x rows) ↔ MemOk s := by
  fun_cases State.deliver <;> grind [memOk_modWaveBack, memOk_modBlock]

@[simp ↓] theorem MemOk.giveResult {s : State} (h : MemOk s) (lid sid) : OptOk (s.giveResult lid sid) := by
  fun_cases State.giveResult <;> grind [OptOk, MemOk.foldl, memOk_deliver, memOk_putSwath]

@[simp ↓] theorem MemOk.swathStep {s : State} (h : MemOk s) (lid sid) : OptOk (s.swathStep lid sid) :=
  optOk_orElse (h.formResult ..) (h.giveResult ..)

@[simp ↓] theorem execSwathRoundComplete_memOk {s : State} (h : MemOk s) (lid sid) : OutOk (execSwathRoundComplete lid sid s) := by
  simp [execSwathRoundComplete, h]

@[simp ↓] theorem MemOk.peerResult {s : State} (h : MemOk s) (lid sid rows) : OptOk (s.peerResult lid sid rows) := by
  fun_cases State.peerResult <;> simp [h]

@[simp ↓] theorem execPeerSwathResult_memOk {s : State} (h : MemOk s) (lid sid rows) : OutOk (execPeerSwathResult lid sid rows s) := by
  simp [execPeerSwathResult, h]

/-! ### Machine/Bind -/

@[simp ↓] theorem MemOk.refuseRec {s : State} (h : MemOk s) (r cause) : MemOk (s.refuseRec r cause) := by simp [State.refuseRec, h]
@[simp ↓] theorem MemOk.acceptRec {s : State} (h : MemOk s) (r) : MemOk (s.acceptRec r) := by simp [State.acceptRec, h]

@[simp ↓] theorem execSlotwr_memOk {s : State} (h : MemOk s) (core w0 w1 w2 w3) : OutOk (execSlotwr core w0 w1 w2 w3 s) := by
  fun_cases execSlotwr
  grind [OptOk, onCore_memOk, onEvent_memOk, MemOk.refuseRec, MemOk.acceptRec]

@[simp ↓] theorem MemOk.bindFresh {s : State} (h : MemOk s) (l crew nblocks round g) : MemOk (s.bindFresh l crew nblocks round g) := by
  simp +contextual [State.bindFresh, h]

@[simp ↓] theorem memOk_placeWaves (g cyc ws taken) {s : State} : MemOk (State.placeWaves g cyc ws taken s) ↔ MemOk s := by
  fun_induction State.placeWaves g cyc ws taken s with
  | case1 => rfl
  | case2 _ _ _ _ _ ih => exact ih
  | case3 _ _ _ _ _ _ _ ih => exact ih

@[simp ↓] theorem MemOk.bindSaved {s : State} (h : MemOk s) (x leader g) : MemOk (s.bindSaved x leader g) := by
  fun_cases State.bindSaved <;> simp [h]

@[simp ↓] theorem memOk_rejoinSwath {s : State} {wid} : MemOk (s.rejoinSwath wid) ↔ MemOk s := by
  unfold State.rejoinSwath
  split <;> simp

@[simp ↓] theorem memOk_rejoinRegions {s : State} {wid} : MemOk (s.rejoinRegions wid) ↔ MemOk s := by
  fun_cases State.rejoinRegions <;> simp

@[simp ↓] theorem MemOk.restoreHub {s : State} (h : MemOk s) (gs hub l) : MemOk (s.restoreHub gs hub l) := by
  simp +contextual [State.restoreHub, h]

@[simp ↓] theorem MemOk.bindCrewSaved {s : State} (h : MemOk s) (ck x gs core4) : MemOk (s.bindCrewSaved ck x gs core4) := by
  unfold State.bindCrewSaved
  extract_lets old crew s₁ leader s₂ s₃ wids
  have h₂ : MemOk s₂ := MemOk.foldl (fun _ _ hs => hs.bindSaved ..) gs (h.same rfl)
  exact MemOk.foldl (fun s w hs => by simpa using hs) wids (h₂.restoreHub ..)

@[simp ↓] theorem MemOk.bindCrewFresh {s : State} (h : MemOk s) (lid crew l gs core) : MemOk (s.bindCrewFresh lid crew l gs core) := by
  simp +contextual [State.bindCrewFresh, h]

@[simp ↓] theorem memOk_settleSlots {s : State} {gs} : MemOk (s.settleSlots gs) ↔ MemOk s := by simp [State.settleSlots]

@[simp ↓] theorem MemOk.startGang {s : State} (h : MemOk s) (lid crew) : OptOk (s.startGang lid crew) := by
  unfold State.startGang
  split
  · simp
  · extract_lets +onlyGivenNames gs
    clear_value gs
    split
    · simp
    · split
      · simp
      · split
        · exact h.starveAtStep _
        · extract_lets ways s₁ s₂ s₃ s₄ leaders
          have h₂ : MemOk s₂ :=
            memOk_modLaunch.2 (MemOk.foldl (fun _ _ hs => hs.lendWays ..) _ (h.same rfl))
          have h₃ : MemOk s₃ := by
            dsimp only [s₃]
            split
            · exact h₂.bindCrewSaved ..
            · exact h₂.bindCrewFresh ..
          split <;> simp [s₄, h₃]

@[simp ↓] theorem execGangStart_memOk {s : State} (h : MemOk s) (lid crew) : OutOk (execGangStart lid crew s) := by
  simp [execGangStart, h]

/-! ### Machine/BitGroup -/

@[simp ↓] theorem bitUnary_memOk {e : Env} (h : MemOk e.s) (f) : (bitUnary e f).Ok := by simp [bitUnary, h]
@[simp ↓] theorem execPopc_memOk {s : State} (h : MemOk s) (w) : OutOk (execPopc w s) := by simp +contextual [execPopc, h]
@[simp ↓] theorem execClz_memOk {s : State} (h : MemOk s) (w) : OutOk (execClz w s) := by simp +contextual [execClz, h]
@[simp ↓] theorem execCtz_memOk {s : State} (h : MemOk s) (w) : OutOk (execCtz w s) := by simp +contextual [execCtz, h]
@[simp ↓] theorem execFns_memOk {s : State} (h : MemOk s) (w) : OutOk (execFns w s) := by simp +contextual [execFns, h]
@[simp ↓] theorem execBrev_memOk {s : State} (h : MemOk s) (w) : OutOk (execBrev w s) := by simp +contextual [execBrev, h]
@[simp ↓] theorem execBfx_memOk {s : State} (h : MemOk s) (w) : OutOk (execBfx w s) := by simp +contextual [execBfx, h]
@[simp ↓] theorem execBfi_memOk {s : State} (h : MemOk s) (w) : OutOk (execBfi w s) := by simp +contextual [execBfi, h]
@[simp ↓] theorem execBmsk_memOk {s : State} (h : MemOk s) (w) : OutOk (execBmsk w s) := by simp +contextual [execBmsk, h]

/-! ### Machine/Context -/

@[simp ↓] theorem execCtxfnWrite_memOk {s : State} (h : MemOk s) (fn ctx val) : OutOk (execCtxfnWrite fn ctx val s) := by
  simp +contextual [execCtxfnWrite, h]

@[simp ↓] theorem memOk_drawKey {s : State} {ctx} : MemOk (s.drawKey ctx) ↔ MemOk s := Iff.rfl
@[simp ↓] theorem memOk_tearDown {s : State} {ctx} : MemOk (s.tearDown ctx) ↔ MemOk s := Iff.rfl
@[simp ↓] theorem memOk_writeWord0 {s : State} {ctx val} : MemOk (s.writeWord0 ctx val) ↔ MemOk s := by simp [State.writeWord0]
@[simp ↓] theorem MemOk.writeWord3 {s : State} (h : MemOk s) (ctx val) : MemOk (s.writeWord3 ctx val) := by simp [State.writeWord3, h]

@[simp ↓] theorem MemOk.writeDescriptor {s : State} (h : MemOk s) (fn ctx word val) : MemOk (s.writeDescriptor fn ctx word val) := by
  fun_cases State.writeDescriptor <;> simp [h]

@[simp ↓] theorem execContextCreate_memOk {s : State} (h : MemOk s) (fn ctx val) : OutOk (execContextCreate fn ctx val s) := by
  simp +contextual [execContextCreate, h]

@[simp ↓] theorem execContextTeardown_memOk {s : State} (h : MemOk s) (fn ctx val) : OutOk (execContextTeardown fn ctx val s) := by
  simp +contextual [execContextTeardown, h]

@[simp ↓] theorem execContextDescriptorWrite_memOk {s : State} (h : MemOk s) (fn ctx word val) :
    OutOk (execContextDescriptorWrite fn ctx word val s) := by
  simp +contextual [execContextDescriptorWrite, h]

@[simp ↓] theorem execEvheadWrite_memOk {s : State} (h : MemOk s) (fn ctx val) : OutOk (execEvheadWrite fn ctx val s) := by
  simp +contextual [execEvheadWrite, h]

@[simp ↓] theorem memOk_endWalk {s : State} {wid fr} : MemOk (s.endWalk wid fr) ↔ MemOk s := by simp [State.endWalk]

@[simp ↓] theorem MemOk.walkNext {s : State} (h : MemOk s) (die) : OptOk (s.walkNext die) := by
  fun_cases State.walkNext <;> grind [OptOk, MemOk.foldl, MemOk.walkOnDie, memOk_modDie, memOk_tlbFill, memOk_endWalk, memOk_postFault]

@[simp ↓] theorem execTlbMissWalk_memOk {s : State} (h : MemOk s) (die) : OutOk (execTlbMissWalk die s) :=
  onDie_memOk (onEvent_memOk (h.walkNext ..) _) _

@[simp ↓] theorem MemOk.answerOne {s : State} (h : MemOk s) (va retry w) : MemOk (s.answerOne va retry w) := by
  fun_cases State.answerOne <;> simp [h]

@[simp ↓] theorem MemOk.answerFault {s : State} (h : MemOk s) (die idx retry) : OptOk (s.answerFault die idx retry) := by
  fun_cases State.answerFault <;> grind [OptOk, MemOk.foldl, memOk_modDie, MemOk.answerOne]

@[simp ↓] theorem execFaultAnswer_memOk {s : State} (h : MemOk s) (die idx retry) : OutOk (execFaultAnswer die idx retry s) :=
  onDie_memOk (onEvent_memOk (h.answerFault ..) _) _

@[simp ↓] theorem execInvalidation_memOk {s : State} (h : MemOk s) (ctx lo hi) : OutOk (execInvalidation ctx lo hi s) := by
  simp +contextual [execInvalidation, h]

@[simp ↓] theorem execRegionPhaseComplete_memOk {s : State} (h : MemOk s) (rid) : OutOk (execRegionPhaseComplete rid s) := by
  simp [execRegionPhaseComplete, h]

@[simp ↓] theorem MemOk.scrub1 {s : State} (h : MemOk s) (die canopy unit found) : MemOk (s.scrub1 die canopy unit found) := by
  simp [State.scrub1, h]

@[simp ↓] theorem execScrubStep_memOk {s : State} (h : MemOk s) (die canopy unit found) :
    OutOk (execScrubStep die canopy unit found s) := by
  fun_cases execScrubStep
  grind [OptOk, onDie_memOk, onEvent_memOk, MemOk.scrub1]

/-! ### Machine/Convert -/

@[simp ↓] theorem execCvt_memOk {s : State} (h : MemOk s) (w) : OutOk (execCvt w s) := by simp +contextual [execCvt, h]
@[simp ↓] theorem execQnt_memOk {s : State} (h : MemOk s) (w) : OutOk (execQnt w s) := by simp +contextual [execQnt, h]
@[simp ↓] theorem execDqnt_memOk {s : State} (h : MemOk s) (w) : OutOk (execDqnt w s) := by simp +contextual [execDqnt, h]
@[simp ↓] theorem execPkn_memOk {s : State} (h : MemOk s) (w) : OutOk (execPkn w s) := by simp +contextual [execPkn, h]
@[simp ↓] theorem execUpkn_memOk {s : State} (h : MemOk s) (w) : OutOk (execUpkn w s) := by simp +contextual [execUpkn, h]

/-! ### Machine/FloatArith -/

@[simp ↓] theorem floatOp2_memOk {e : Env} (h : MemOk e.s) (lat m op) : (floatOp2 e lat m op).Ok := by simp [floatOp2, h]
@[simp ↓] theorem floatOp1_memOk {e : Env} (h : MemOk e.s) (lat op) : (floatOp1 e lat op).Ok := by simp [floatOp1, h]
@[simp ↓] theorem execFadd_memOk {s : State} (h : MemOk s) (w) : OutOk (execFadd w s) := by simp +contextual [execFadd, h]
@[simp ↓] theorem execFsub_memOk {s : State} (h : MemOk s) (w) : OutOk (execFsub w s) := by simp +contextual [execFsub, h]
@[simp ↓] theorem execFmul_memOk {s : State} (h : MemOk s) (w) : OutOk (execFmul w s) := by simp +contextual [execFmul, h]
@[simp ↓] theorem execFfma_memOk {s : State} (h : MemOk s) (w) : OutOk (execFfma w s) := by simp +contextual [execFfma, h]
@[simp ↓] theorem execFmin_memOk {s : State} (h : MemOk s) (w) : OutOk (execFmin w s) := by simp +contextual [execFmin, h]
@[simp ↓] theorem execFmax_memOk {s : State} (h : MemOk s) (w) : OutOk (execFmax w s) := by simp +contextual [execFmax, h]
@[simp ↓] theorem execFcmp_memOk {s : State} (h : MemOk s) (w) : OutOk (execFcmp w s) := by simp [execFcmp, h]
@[simp ↓] theorem execFclass_memOk {s : State} (h : MemOk s) (w) : OutOk (execFclass w s) := by simp +contextual [execFclass, h]
@[simp ↓] theorem execFrnd_memOk {s : State} (h : MemOk s) (w) : OutOk (execFrnd w s) := by simp +contextual [execFrnd, h]
@[simp ↓] theorem execFdiv_memOk {s : State} (h : MemOk s) (w) : OutOk (execFdiv w s) := by simp +contextual [execFdiv, h]
@[simp ↓] theorem execFsqrt_memOk {s : State} (h : MemOk s) (w) : OutOk (execFsqrt w s) := by simp +contextual [execFsqrt, h]
@[simp ↓] theorem execFrcp_memOk {s : State} (h : MemOk s) (w) : OutOk (execFrcp w s) := by simp +contextual [execFrcp, h]
@[simp ↓] theorem execFrsq_memOk {s : State} (h : MemOk s) (w) : OutOk (execFrsq w s) := by simp +contextual [execFrsq, h]
@[simp ↓] theorem execFexp2_memOk {s : State} (h : MemOk s) (w) : OutOk (execFexp2 w s) := by simp +contextual [execFexp2, h]
@[simp ↓] theorem execFlog2_memOk {s : State} (h : MemOk s) (w) : OutOk (execFlog2 w s) := by simp +contextual [execFlog2, h]
@[simp ↓] theorem execFsinpi_memOk {s : State} (h : MemOk s) (w) : OutOk (execFsinpi w s) := by simp +contextual [execFsinpi, h]
@[simp ↓] theorem execFcospi_memOk {s : State} (h : MemOk s) (w) : OutOk (execFcospi w s) := by simp +contextual [execFcospi, h]
@[simp ↓] theorem execFscale_memOk {s : State} (h : MemOk s) (w) : OutOk (execFscale w s) := by simp +contextual [execFscale, h]
@[simp ↓] theorem execFgetx_memOk {s : State} (h : MemOk s) (w) : OutOk (execFgetx w s) := by simp +contextual [execFgetx, h]
@[simp ↓] theorem execFgetm_memOk {s : State} (h : MemOk s) (w) : OutOk (execFgetm w s) := by simp +contextual [execFgetm, h]
@[simp ↓] theorem execFdot2_memOk {s : State} (h : MemOk s) (w) : OutOk (execFdot2 w s) := by simp +contextual [execFdot2, h]
@[simp ↓] theorem execSumc_memOk {s : State} (h : MemOk s) (w) : OutOk (execSumc w s) := by simp +contextual [execSumc, h]

/-! ### Machine/Preempt -/

@[simp ↓] theorem memOk_stopCrew {s : State} {lid crew} : MemOk (s.stopCrew lid crew) ↔ MemOk s := by simp [State.stopCrew]

@[simp ↓] theorem memOk_preemptNow {s : State} {core val} : MemOk (s.preemptNow core val) ↔ MemOk s := by
  fun_cases State.preemptNow <;> grind [memOk_modCore, memOk_stopCrew]

@[simp ↓] theorem execPreempt_memOk {s : State} (h : MemOk s) (core val) : OutOk (execPreempt core val s) := by simp [execPreempt, h]
@[simp ↓] theorem memOk_dropWalks {s : State} {gone} : MemOk (s.dropWalks gone) ↔ MemOk s := Iff.rfl
@[simp ↓] theorem memOk_dropWaves {s : State} {gone} : MemOk (s.dropWaves gone) ↔ MemOk s := Iff.rfl
@[simp ↓] theorem MemOk.giveUpGrant {s : State} (h : MemOk s) (wid w) : MemOk (s.giveUpGrant wid w) := by simp [State.giveUpGrant, h]

@[simp ↓] theorem MemOk.writeImage {s : State} (h : MemOk s) (lid crew ctx area) : MemOk (s.writeImage lid crew ctx area) := by
  unfold State.writeImage
  refine MemOk.foldl (fun s p hs => ?_) _ ((memOk_fresh.2 h).writeDev ..)
  exact ⟨hs.dev, Memory.wf_write _ _ hs.host⟩

@[simp ↓] theorem MemOk.saveCrew {s : State} (h : MemOk s) (lid crew c) : MemOk (s.saveCrew lid crew c) := by simp [State.saveCrew, h]

@[simp ↓] theorem MemOk.saveNow {s : State} (h : MemOk s) (lid crew) : OptOk (s.saveNow lid crew) := by
  fun_cases State.saveNow <;> simp +contextual [h]

@[simp ↓] theorem execPreemptSaveComplete_memOk {s : State} (h : MemOk s) (lid crew) : OutOk (execPreemptSaveComplete lid crew s) := by
  simp [execPreemptSaveComplete, h]

@[simp ↓] theorem memOk_stopLaunch {s : State} {lid} : MemOk (s.stopLaunch lid) ↔ MemOk s := Iff.rfl

@[simp ↓] theorem MemOk.undoLaunch {s : State} (h : MemOk s) (lid) : MemOk (s.undoLaunch lid) := by
  unfold State.undoLaunch
  extract_lets s₁ s₂
  have h₁ : MemOk s₁ := MemOk.foldl (fun _ _ hs => MemOk.foldl (fun _ _ hs => hs.sendU ..) _ hs) _ h
  exact (MemOk.foldl (fun _ _ hs => hs.restoreGranule ..) _ h₁).same rfl

@[simp ↓] theorem MemOk.clearLaunch {s : State} (h : MemOk s) (lid) : MemOk (s.clearLaunch lid) := by simp [State.clearLaunch, h]

@[simp ↓] theorem MemOk.finishKill {s : State} (h : MemOk s) (lid l) : MemOk (s.finishKill lid l) := by
  unfold State.finishKill
  extract_lets replays s₁ s₂ s₃
  have h₂ : MemOk s₂ := by
    have h₁ : MemOk s₁ := by simp [s₁, h]
    dsimp only [s₂]
    split
    · exact h₁.undoLaunch _
    · exact h₁.releaseWhere _
  split <;> simp [s₃, h₂]

@[simp ↓] theorem MemOk.killSlot {s : State} (h : MemOk s) (sk) : OptOk (s.killSlot sk) := by
  fun_cases State.killSlot <;> simp [h]

@[simp ↓] theorem execLaunchKill_memOk {s : State} (h : MemOk s) (slot) : OutOk (execLaunchKill slot s) := by simp [execLaunchKill, h]

@[simp ↓] theorem MemOk.applyGroup {s : State} (h : MemOk s) (lid b l g) : MemOk (s.applyGroup lid b l g) := by
  fun_cases State.applyGroup
  grind [MemOk.foldl, MemOk.commitHome, MemOk.recallLocs, combineHome_memOk, MemOk.sendOps, memOk_dropCopies, memOk_modCrew]

@[simp ↓] theorem memOk_passTicket {s : State} {lid b} : MemOk (s.passTicket lid b) ↔ MemOk s := Iff.rfl

@[simp ↓] theorem MemOk.applyNext {s : State} (h : MemOk s) (lid) : OptOk (s.applyNext lid) := by
  unfold State.applyNext
  split
  · simp
  · extract_lets +onlyGivenNames b d
    split
    · simp
    · extract_lets +onlyGivenNames pas
      split
      · simp
      · split
        · exact optOk_map fun w => by simp [h]
        · split
          · exact h.starveStep lid
          · extract_lets s₁ s₂ s₃
            have h₂ : MemOk s₂ := (show MemOk s₁ from h.same rfl).applyGroup ..
            have h₃ : MemOk s₃ := by
              dsimp only [s₃]
              split <;> simp [h₂]
            exact optOk_some.2 (h₃.moveTicket lid)

@[simp ↓] theorem execDetGroupApply_memOk {s : State} (h : MemOk s) (lid) : OutOk (execDetGroupApply lid s) := by
  simp [execDetGroupApply, h]

/-! ### Machine/HostLink -/

@[simp ↓] theorem execHwinWrite_memOk {s : State} (h : MemOk s) (fn val) : OutOk (execHwinWrite fn val s) := by simp [execHwinWrite, h]
@[simp ↓] theorem memOk_show {s : State} {x} : MemOk (s.show x) ↔ MemOk s := Iff.rfl
@[simp ↓] theorem memOk_abortRead {s : State} {fn} : MemOk (s.abortRead fn) ↔ MemOk s := Iff.rfl
@[simp ↓] theorem memOk_freezeFn {s : State} {fn ctx} : MemOk (s.freezeFn fn ctx) ↔ MemOk s := Iff.rfl

@[simp ↓] theorem hostRequest_memOk {s : State} {f : State → Option State} (h : MemOk s) (hf : ∀ t, MemOk t → OptOk (f t)) (name fn) :
    OutOk (hostRequest name fn s f) := by
  simp [hostRequest, h, hf]

@[simp ↓] theorem execHostWindowRead_memOk {s : State} (h : MemOk s) (fn off len) : OutOk (execHostWindowRead fn off len s) := by
  fun_cases execHostWindowRead
  grind [OptOk, hostRequest_memOk, memOk_abortRead, MemOk.meetHome, memOk_freezeFn, memOk_show, MemOk.recallLocs]

@[simp ↓] theorem MemOk.writeOutside {s : State} (h : MemOk s) (ctx src l) : MemOk (s.writeOutside ctx src l) :=
  (h.writeDev ..).writeHost _

@[simp ↓] theorem execHostWindowWrite_memOk {s : State} (h : MemOk s) (fn off data) : OutOk (execHostWindowWrite fn off data s) := by
  fun_cases execHostWindowWrite <;> grind [OptOk, OutOk, onEvent_memOk, memOk_modFn, memOk_freezeFn, MemOk.writeOutside]

@[simp ↓] theorem MemOk.outsideAtomic {s : State} (h : MemOk s) (ctx ls f) : MemOk (s.outsideAtomic ctx ls f).2 := by
  unfold State.outsideAtomic
  split <;> simp [h]

@[simp ↓] theorem execHostAtomic_memOk {s : State} (h : MemOk s) (fn off op wide val) : OutOk (execHostAtomic fn off op wide val s) := by
  fun_cases execHostAtomic
  grind [OptOk, hostRequest_memOk, memOk_abortRead, memOk_freezeFn, MemOk.meetHome, memOk_show, MemOk.outsideAtomic]

@[simp ↓] theorem execHostCasRequest_memOk {s : State} (h : MemOk s) (fn _off) : OutOk (execHostCasRequest fn _off s) := by
  simp [execHostCasRequest, h]

@[simp ↓] theorem execHostFunctionReset_memOk {s : State} (h : MemOk s) (fn) : OutOk (execHostFunctionReset fn s) := by
  simp [execHostFunctionReset, h]

/-! ### Machine/Integer -/

@[simp ↓] theorem intOp_memOk {e : Env} (h : MemOk e.s) (lat f) : (intOp e lat f).Ok := by simp [intOp, h]
@[simp ↓] theorem execIadd_memOk {s : State} (h : MemOk s) (w) : OutOk (execIadd w s) := by simp +contextual [execIadd, h]
@[simp ↓] theorem execIsub_memOk {s : State} (h : MemOk s) (w) : OutOk (execIsub w s) := by simp +contextual [execIsub, h]
@[simp ↓] theorem execImul_memOk {s : State} (h : MemOk s) (w) : OutOk (execImul w s) := by simp +contextual [execImul, h]
@[simp ↓] theorem execImulh_memOk {s : State} (h : MemOk s) (w) : OutOk (execImulh w s) := by simp +contextual [execImulh, h]
@[simp ↓] theorem execImad_memOk {s : State} (h : MemOk s) (w) : OutOk (execImad w s) := by simp +contextual [execImad, h]
@[simp ↓] theorem execImadw_memOk {s : State} (h : MemOk s) (w) : OutOk (execImadw w s) := by simp +contextual [execImadw, h]
@[simp ↓] theorem execIdiv_memOk {s : State} (h : MemOk s) (w) : OutOk (execIdiv w s) := by simp +contextual [execIdiv, h]
@[simp ↓] theorem execIrem_memOk {s : State} (h : MemOk s) (w) : OutOk (execIrem w s) := by simp +contextual [execIrem, h]
@[simp ↓] theorem execImin_memOk {s : State} (h : MemOk s) (w) : OutOk (execImin w s) := by simp +contextual [execImin, h]
@[simp ↓] theorem execImax_memOk {s : State} (h : MemOk s) (w) : OutOk (execImax w s) := by simp +contextual [execImax, h]
@[simp ↓] theorem execIabs_memOk {s : State} (h : MemOk s) (w) : OutOk (execIabs w s) := by simp +contextual [execIabs, h]
@[simp ↓] theorem execIneg_memOk {s : State} (h : MemOk s) (w) : OutOk (execIneg w s) := by simp +contextual [execIneg, h]
@[simp ↓] theorem execIsad_memOk {s : State} (h : MemOk s) (w) : OutOk (execIsad w s) := by simp +contextual [execIsad, h]
@[simp ↓] theorem execIdot4_memOk {s : State} (h : MemOk s) (w) : OutOk (execIdot4 w s) := by simp +contextual [execIdot4, h]
@[simp ↓] theorem execIcmp_memOk {s : State} (h : MemOk s) (w) : OutOk (execIcmp w s) := by simp [execIcmp, h]

/-! ### Machine/Logic -/

@[simp ↓] theorem shiftOp_memOk {e : Env} (h : MemOk e.s) (f) : (shiftOp e f).Ok := by simp [shiftOp, h]
@[simp ↓] theorem execShl_memOk {s : State} (h : MemOk s) (w) : OutOk (execShl w s) := by simp +contextual [execShl, h]
@[simp ↓] theorem execShr_memOk {s : State} (h : MemOk s) (w) : OutOk (execShr w s) := by simp +contextual [execShr, h]
@[simp ↓] theorem execSar_memOk {s : State} (h : MemOk s) (w) : OutOk (execSar w s) := by simp +contextual [execSar, h]
@[simp ↓] theorem execRot_memOk {s : State} (h : MemOk s) (w) : OutOk (execRot w s) := by simp +contextual [execRot, h]
@[simp ↓] theorem bitOp_memOk {e : Env} (h : MemOk e.s) (f) : (bitOp e f).Ok := by simp [bitOp, h]
@[simp ↓] theorem execAnd_memOk {s : State} (h : MemOk s) (w) : OutOk (execAnd w s) := by simp +contextual [execAnd, h]
@[simp ↓] theorem execOr_memOk {s : State} (h : MemOk s) (w) : OutOk (execOr w s) := by simp +contextual [execOr, h]
@[simp ↓] theorem execXor_memOk {s : State} (h : MemOk s) (w) : OutOk (execXor w s) := by simp +contextual [execXor, h]
@[simp ↓] theorem execNot_memOk {s : State} (h : MemOk s) (w) : OutOk (execNot w s) := by simp +contextual [execNot, h]
@[simp ↓] theorem execLop3_memOk {s : State} (h : MemOk s) (w) : OutOk (execLop3 w s) := by simp +contextual [execLop3, h]
@[simp ↓] theorem execLea_memOk {s : State} (h : MemOk s) (w) : OutOk (execLea w s) := by simp +contextual [execLea, h]
@[simp ↓] theorem execSel_memOk {s : State} (h : MemOk s) (w) : OutOk (execSel w s) := by simp +contextual [execSel, h]
@[simp ↓] theorem execMov_memOk {s : State} (h : MemOk s) (w) : OutOk (execMov w s) := by simp +contextual [execMov, h]
@[simp ↓] theorem execMovi_memOk {s : State} (h : MemOk s) (w) : OutOk (execMovi w s) := by simp +contextual [execMovi, h]
@[simp ↓] theorem execIadds_memOk {s : State} (h : MemOk s) (w) : OutOk (execIadds w s) := by simp +contextual [execIadds, h]
@[simp ↓] theorem execClamp_memOk {s : State} (h : MemOk s) (w) : OutOk (execClamp w s) := by simp +contextual [execClamp, h]

/-! ### Machine/Pair -/

@[simp ↓] theorem execPairWord_memOk {s : State} (h : MemOk s) (a b) : OutOk (execPairWord a b s) := by simp [execPairWord, h]

/-! ### Machine/Peer -/

@[simp ↓] theorem execApertureWrite_memOk {s : State} (h : MemOk s) (fn idx word val) : OutOk (execApertureWrite fn idx word val s) := by
  refine onFn_memOk h (fun s hs => ?_) fn
  dsimp only
  split
  · exact hs
  · split
    · exact hs.same rfl
    · exact hs.same rfl
    · exact hs

@[simp ↓] theorem memOk_modPort {s : State} {n f} : MemOk (s.modPort n f) ↔ MemOk s := Iff.rfl
@[simp ↓] theorem onPort_memOk {r : Host.Outcome State Fault Refusal} (h : OutOk r) (port) : OutOk (onPort port r) := by simp [onPort, h]

@[simp ↓] theorem execPeerstatWrite_memOk {s : State} (h : MemOk s) (fn port val) : OutOk (execPeerstatWrite fn port val s) := by
  simp [execPeerstatWrite, h]

@[simp ↓] theorem execPeerLinkUp_memOk {s : State} (h : MemOk s) (port serial) : OutOk (execPeerLinkUp port serial s) := by
  simp [execPeerLinkUp, h]

@[simp ↓] theorem execPeerFlitReplay_memOk {s : State} (h : MemOk s) (port) : OutOk (execPeerFlitReplay port s) := by
  simp [execPeerFlitReplay, h]

@[simp ↓] theorem memOk_reply {s : State} {port ok data} : MemOk (s.reply port ok data) ↔ MemOk s := Iff.rfl
@[simp ↓] theorem memOk_replyBad {s : State} {port cause} : MemOk (s.replyBad port cause) ↔ MemOk s := Iff.rfl
@[simp ↓] theorem memOk_freezePort {s : State} {port cause ctx} : MemOk (s.freezePort port cause ctx) ↔ MemOk s := Iff.rfl

@[simp ↓] theorem MemOk.peerAccess {s : State} {body : List Loc → Option State} (h : MemOk s)
    (hb : ∀ a, OptOk (body a)) (port rctx va n need) :
    OptOk (s.peerAccess port rctx va n need body) := by
  fun_cases State.peerAccess <;> simp [h, hb]

@[simp ↓] theorem MemOk.peerServe {s : State} (h : MemOk s) (port req) : OptOk (s.peerServe port req) := by
  fun_cases State.peerServe <;> simp [h]

@[simp ↓] theorem execPeerRequest_memOk {s : State} (h : MemOk s) (port req) : OutOk (execPeerRequest port req s) :=
  onPort_memOk (onEvent_memOk (h.peerServe ..) _) _

@[simp ↓] theorem MemOk.writeUnit {s : State} (h : MemOk s) (l) : MemOk (s.writeUnit l) := by simp +contextual [State.writeUnit, h]

@[simp ↓] theorem MemOk.peerUnit {s : State} (h : MemOk s) (port bytes) : OptOk (s.peerUnit port bytes) := by
  fun_cases State.peerUnit <;> simp [h]

@[simp ↓] theorem execPeerCommitUnit_memOk {s : State} (h : MemOk s) (port first rest) :
    OutOk (execPeerCommitUnit port first rest s) :=
  onPort_memOk (onEvent_memOk (h.peerUnit ..) _) _

@[simp ↓] theorem memOk_giveAnswer {s : State} {op ok data} : MemOk (s.giveAnswer op ok data) ↔ MemOk s := Iff.rfl

@[simp ↓] theorem memOk_failOp {s : State} {op} : MemOk (s.failOp op) ↔ MemOk s := by
  unfold State.failOp
  split <;> simp

@[simp ↓] theorem memOk_fillPiece {s : State} {op core id data} : MemOk (s.fillPiece op core id data) ↔ MemOk s := by
  fun_cases State.fillPiece <;> simp

@[simp ↓] theorem memOk_answerOp {s : State} {op ok data} : MemOk (s.answerOp op ok data) ↔ MemOk s := by
  unfold State.answerOp
  extract_lets +onlyGivenNames s₁
  have h₁ : MemOk s₁ ↔ MemOk s := .rfl
  clear_value s₁
  rw [← h₁]
  split
  · exact memOk_giveAnswer
  · rfl
  · split <;> simp
  · split <;> simp
  · split <;> simp
  · split
    · exact memOk_fillPiece
    · split <;> simp
  · rfl

@[simp ↓] theorem execPeerAck_memOk {s : State} (h : MemOk s) (id ok data) : OutOk (execPeerAck id ok data s) :=
  onEvent_memOk (optOk_map fun _ => memOk_answerOp.2 h) _

@[simp ↓] theorem execPeerPortDown_memOk {s : State} (h : MemOk s) (port) : OutOk (execPeerPortDown port s) :=
  onPort_memOk (by simp [h]) _

/-! ### Machine/Predicate -/

@[simp ↓] theorem kOp_memOk {e : Env} (h : MemOk e.s) (f) : (kOp e f).Ok := by simp [kOp, h]
@[simp ↓] theorem execKop_memOk {s : State} (h : MemOk s) (w) : OutOk (execKop w s) := by simp +contextual [execKop, h]
@[simp ↓] theorem execKmov_memOk {s : State} (h : MemOk s) (w) : OutOk (execKmov w s) := by simp +contextual [execKmov, h]
@[simp ↓] theorem execKmovFromw_memOk {s : State} (h : MemOk s) (w) : OutOk (execKmovFromw w s) := by simp [execKmovFromw, h]
@[simp ↓] theorem execKmovTow_memOk {s : State} (h : MemOk s) (w) : OutOk (execKmovTow w s) := by simp [execKmovTow, h]
@[simp ↓] theorem execKmovFromv_memOk {s : State} (h : MemOk s) (w) : OutOk (execKmovFromv w s) := by simp +contextual [execKmovFromv, h]
@[simp ↓] theorem execKmovTov_memOk {s : State} (h : MemOk s) (w) : OutOk (execKmovTov w s) := by simp +contextual [execKmovTov, h]
@[simp ↓] theorem execKsetAll_memOk {s : State} (h : MemOk s) (w) : OutOk (execKsetAll w s) := by simp +contextual [execKsetAll, h]
@[simp ↓] theorem execKsetNone_memOk {s : State} (h : MemOk s) (w) : OutOk (execKsetNone w s) := by simp +contextual [execKsetNone, h]
@[simp ↓] theorem execKsetBelow_memOk {s : State} (h : MemOk s) (w) : OutOk (execKsetBelow w s) := by simp +contextual [execKsetBelow, h]
@[simp ↓] theorem execKcnt_memOk {s : State} (h : MemOk s) (w) : OutOk (execKcnt w s) := by simp [execKcnt, h]
@[simp ↓] theorem execKfindFirst_memOk {s : State} (h : MemOk s) (w) : OutOk (execKfindFirst w s) := by simp [execKfindFirst, h]
@[simp ↓] theorem execKfindLast_memOk {s : State} (h : MemOk s) (w) : OutOk (execKfindLast w s) := by simp [execKfindLast, h]

/-! ### Machine/Security -/

@[simp ↓] theorem execSecureBoot_memOk {s : State} (h : MemOk s) (images) : OutOk (execSecureBoot images s) := by simp [execSecureBoot, h]

@[simp ↓] theorem execAttestationRequest_memOk {s : State} (h : MemOk s) (nonce) : OutOk (execAttestationRequest nonce s) := by
  simp [execAttestationRequest, h]

@[simp ↓] theorem execDispatchHartReload_memOk {s : State} (h : MemOk s) (die image) : OutOk (execDispatchHartReload die image s) := by
  refine onDie_memOk (onEvent_memOk ?_ _) _
  split
  · extract_lets ok sec sec' s₁
    have h₁ : MemOk s₁ := h.same rfl
    split <;> simp [h₁]
  · simp

@[simp ↓] theorem execPolicyConfigurationWrite_memOk {s : State} (h : MemOk s) (config) :
    OutOk (execPolicyConfigurationWrite config s) := by
  simp [execPolicyConfigurationWrite, h]

@[simp ↓] theorem execDieReset_memOk {s : State} (h : MemOk s) (die) : OutOk (execDieReset die s) := by
  fun_cases execDieReset
  grind [OptOk, MemOk.foldl, onDie_memOk, onEvent_memOk, memOk_modCore, memOk_modDie]

/-! ### Machine/Windows -/

@[simp ↓] theorem onMaster_memOk {s : State} {f : State → State} (h : MemOk s) (hf : ∀ t, MemOk t → MemOk (f t)) (name m die) :
    OutOk (onMaster name m die s f) := by
  fun_cases onMaster <;> grind [OptOk, onDie_memOk, onFn_memOk, onEvent_memOk]

@[simp ↓] theorem execCancfgWrite_memOk {s : State} (h : MemOk s) (m die val) : OutOk (execCancfgWrite m die val s) := by
  simp [execCancfgWrite, h]

@[simp ↓] theorem execScrubperWrite_memOk {s : State} (h : MemOk s) (m die val) : OutOk (execScrubperWrite m die val s) := by
  simp [execScrubperWrite, h]

@[simp ↓] theorem execErrclr_memOk {s : State} (h : MemOk s) (m die val) : OutOk (execErrclr m die val s) := by simp [execErrclr, h]

@[simp ↓] theorem execRegionWindowWrite_memOk {s : State} (h : MemOk s) (m die word val) :
    OutOk (execRegionWindowWrite m die word val s) := by
  simp [execRegionWindowWrite, h]

@[simp ↓] theorem execPoolWindowWrite_memOk {s : State} (h : MemOk s) (m die word val) :
    OutOk (execPoolWindowWrite m die word val s) := by
  simp [execPoolWindowWrite, h]

@[simp ↓] theorem MemOk.askLender {s : State} (h : MemOk s) (die p) : OptOk (s.askLender die p) := by
  unfold State.askLender
  extract_lets +onlyGivenNames key
  split
  · simp
  · simp [h]
  · split
    · simp [h]
    · simp [h]

@[simp ↓] theorem execBorrowGrant_memOk {s : State} (h : MemOk s) (die pool) : OutOk (execBorrowGrant die pool s) := by
  fun_cases execBorrowGrant
  grind [OptOk, onDie_memOk, onEvent_memOk, MemOk.askLender]

@[simp ↓] theorem execParticleWindowWrite_memOk {s : State} (h : MemOk s) (m die word val) :
    OutOk (execParticleWindowWrite m die word val s) := by
  unfold execParticleWindowWrite
  split <;> simp [h]

@[simp ↓] theorem memOk_writePopfix {s : State} {fn val} : MemOk (s.writePopfix fn val) ↔ MemOk s := by simp [State.writePopfix]

@[simp ↓] theorem execPopulationWindowWrite_memOk {s : State} (h : MemOk s) (fn word val) :
    OutOk (execPopulationWindowWrite fn word val s) := by
  simp [execPopulationWindowWrite, h]

@[simp ↓] theorem execPopfixWrite_memOk {s : State} (h : MemOk s) (fn val) : OutOk (execPopfixWrite fn val s) := by
  simp [execPopfixWrite, h]

@[simp ↓] theorem MemOk.writePlain {s : State} (h : MemOk s) (m reg val) : MemOk (s.writePlain m reg val) := by
  fun_cases State.writePlain <;> simp [h]

@[simp ↓] theorem execRegisterWrite_memOk {s : State} (h : MemOk s) (m reg val) : OutOk (execRegisterWrite m reg val s) := by
  fun_cases execRegisterWrite <;> simp +contextual [h]

/-! ### Machine/Dispatch -/

@[simp ↓] theorem exec_memOk {s : State} (h : MemOk s) (i) : OutOk (exec i s) := by
  cases i with
  | dieReset => exact execDieReset_memOk h ..
  | secureBoot => exact execSecureBoot_memOk h ..
  | attestationRequest => exact execAttestationRequest_memOk h ..
  | issueCycle => exact execIssueCycle_memOk h ..
  | clauseStart => exact execClauseStart_memOk h ..
  | heldLanesDetach => exact execHeldLanesDetach_memOk h ..
  | divergeRetry => exact execDivergeRetry_memOk h ..
  | resultLand => exact execResultLand_memOk h ..
  | abortRedirect => exact execAbortRedirect_memOk h ..
  | waveEnd => exact execWaveEnd_memOk h ..
  | sleepExpire => exact execSleepExpire_memOk h ..
  | copyComplete => exact execCopyComplete_memOk h ..
  | copyPieceFault => exact execCopyPieceFault_memOk h ..
  | lazyCopyComplete => exact execLazyCopyComplete_memOk h ..
  | twinCompare => exact execTwinCompare_memOk h ..
  | mmqCollectorClose => exact execMmqCollectorClose_memOk h ..
  | matrixPassStart => exact execMatrixPassStart_memOk h ..
  | swathContributionAccept => exact execSwathContributionAccept_memOk h ..
  | swathRoundComplete => exact execSwathRoundComplete_memOk h ..
  | peerSwathResult => exact execPeerSwathResult_memOk h ..
  | engineRequestComplete => exact execEngineRequestComplete_memOk h ..
  | uLineEvict => exact execULineEvict_memOk h ..
  | regionPhaseComplete => exact execRegionPhaseComplete_memOk h ..
  | awaitLimitExpire => exact execAwaitLimitExpire_memOk h ..
  | tlbMissWalk => exact execTlbMissWalk_memOk h ..
  | faultAnswer => exact execFaultAnswer_memOk h ..
  | invalidation => exact execInvalidation_memOk h ..
  | scrubStep => exact execScrubStep_memOk h ..
  | cancfgWrite => exact execCancfgWrite_memOk h ..
  | scrubperWrite => exact execScrubperWrite_memOk h ..
  | errclr => exact execErrclr_memOk h ..
  | regionWindowWrite => exact execRegionWindowWrite_memOk h ..
  | poolWindowWrite => exact execPoolWindowWrite_memOk h ..
  | particleWindowWrite => exact execParticleWindowWrite_memOk h ..
  | populationWindowWrite => exact execPopulationWindowWrite_memOk h ..
  | popfixWrite => exact execPopfixWrite_memOk h ..
  | registerWrite => exact execRegisterWrite_memOk h ..
  | ctxfnWrite => exact execCtxfnWrite_memOk h ..
  | contextCreate => exact execContextCreate_memOk h ..
  | contextTeardown => exact execContextTeardown_memOk h ..
  | contextDescriptorWrite => exact execContextDescriptorWrite_memOk h ..
  | evheadWrite => exact execEvheadWrite_memOk h ..
  | queueConfigWrite => exact execQueueConfigWrite_memOk h ..
  | qtailWrite => exact execQtailWrite_memOk h ..
  | launchStart => exact execLaunchStart_memOk h ..
  | crewOffer => exact execCrewOffer_memOk h ..
  | launchComplete => exact execLaunchComplete_memOk h ..
  | slotwr => exact execSlotwr_memOk h ..
  | gangStart => exact execGangStart_memOk h ..
  | preempt => exact execPreempt_memOk h ..
  | preemptSaveComplete => exact execPreemptSaveComplete_memOk h ..
  | launchKill => exact execLaunchKill_memOk h ..
  | detGroupApply => exact execDetGroupApply_memOk h ..
  | roundOpen => exact execRoundOpen_memOk h ..
  | particleArrival => exact execParticleArrival_memOk h ..
  | cloneRetry => exact execCloneRetry_memOk h ..
  | borrowGrant => exact execBorrowGrant_memOk h ..
  | hwinWrite => exact execHwinWrite_memOk h ..
  | hostWindowRead => exact execHostWindowRead_memOk h ..
  | hostWindowWrite => exact execHostWindowWrite_memOk h ..
  | hostAtomic => exact execHostAtomic_memOk h ..
  | hostCasRequest fn off => exact execHostCasRequest_memOk h fn off
  | apertureWrite => exact execApertureWrite_memOk h ..
  | peerRequest => exact execPeerRequest_memOk h ..
  | peerCommitUnit => exact execPeerCommitUnit_memOk h ..
  | peerAck => exact execPeerAck_memOk h ..
  | peerPortDown => exact execPeerPortDown_memOk h ..
  | peerstatWrite => exact execPeerstatWrite_memOk h ..
  | pairWord => exact execPairWord_memOk h ..
  | nop => exact execNop_memOk h ..
  | bra => exact execBra_memOk h ..
  | bru => exact execBru_memOk h ..
  | brx => exact execBrx_memOk h ..
  | call => exact execCall_memOk h ..
  | retn => exact execRetn_memOk h ..
  | exit => exact execExit_memOk h ..
  | trap => exact execTrap_memOk h ..
  | tret => exact execTret_memOk h ..
  | tretSkip => exact execTretSkip_memOk h ..
  | yield => exact execYield_memOk h ..
  | sleep => exact execSleep_memOk h ..
  | cyc => exact execCyc_memOk h ..
  | srrd => exact execSrrd_memOk h ..
  | srwr => exact execSrwr_memOk h ..
  | iadd => exact execIadd_memOk h ..
  | isub => exact execIsub_memOk h ..
  | imul => exact execImul_memOk h ..
  | imulh => exact execImulh_memOk h ..
  | imad => exact execImad_memOk h ..
  | imadw => exact execImadw_memOk h ..
  | idiv => exact execIdiv_memOk h ..
  | irem => exact execIrem_memOk h ..
  | imin => exact execImin_memOk h ..
  | imax => exact execImax_memOk h ..
  | iabs => exact execIabs_memOk h ..
  | ineg => exact execIneg_memOk h ..
  | isad => exact execIsad_memOk h ..
  | idot4 => exact execIdot4_memOk h ..
  | icmp => exact execIcmp_memOk h ..
  | shl => exact execShl_memOk h ..
  | shr => exact execShr_memOk h ..
  | sar => exact execSar_memOk h ..
  | rot => exact execRot_memOk h ..
  | and => exact execAnd_memOk h ..
  | or => exact execOr_memOk h ..
  | xor => exact execXor_memOk h ..
  | not => exact execNot_memOk h ..
  | lop3 => exact execLop3_memOk h ..
  | lea => exact execLea_memOk h ..
  | sel => exact execSel_memOk h ..
  | mov => exact execMov_memOk h ..
  | movi => exact execMovi_memOk h ..
  | iadds => exact execIadds_memOk h ..
  | clamp => exact execClamp_memOk h ..
  | kop => exact execKop_memOk h ..
  | kmov => exact execKmov_memOk h ..
  | kmovFromw => exact execKmovFromw_memOk h ..
  | kmovTow => exact execKmovTow_memOk h ..
  | kmovFromv => exact execKmovFromv_memOk h ..
  | kmovTov => exact execKmovTov_memOk h ..
  | ksetAll => exact execKsetAll_memOk h ..
  | ksetNone => exact execKsetNone_memOk h ..
  | ksetBelow => exact execKsetBelow_memOk h ..
  | kcnt => exact execKcnt_memOk h ..
  | kfindFirst => exact execKfindFirst_memOk h ..
  | kfindLast => exact execKfindLast_memOk h ..
  | popc => exact execPopc_memOk h ..
  | clz => exact execClz_memOk h ..
  | ctz => exact execCtz_memOk h ..
  | fns => exact execFns_memOk h ..
  | brev => exact execBrev_memOk h ..
  | bfx => exact execBfx_memOk h ..
  | bfi => exact execBfi_memOk h ..
  | bmsk => exact execBmsk_memOk h ..
  | fadd => exact execFadd_memOk h ..
  | fsub => exact execFsub_memOk h ..
  | fmul => exact execFmul_memOk h ..
  | ffma => exact execFfma_memOk h ..
  | fmin => exact execFmin_memOk h ..
  | fmax => exact execFmax_memOk h ..
  | fcmp => exact execFcmp_memOk h ..
  | fclass => exact execFclass_memOk h ..
  | frnd => exact execFrnd_memOk h ..
  | fdiv => exact execFdiv_memOk h ..
  | fsqrt => exact execFsqrt_memOk h ..
  | frcp => exact execFrcp_memOk h ..
  | frsq => exact execFrsq_memOk h ..
  | fexp2 => exact execFexp2_memOk h ..
  | flog2 => exact execFlog2_memOk h ..
  | fsinpi => exact execFsinpi_memOk h ..
  | fcospi => exact execFcospi_memOk h ..
  | fscale => exact execFscale_memOk h ..
  | fgetx => exact execFgetx_memOk h ..
  | fgetm => exact execFgetm_memOk h ..
  | fdot2 => exact execFdot2_memOk h ..
  | sumc => exact execSumc_memOk h ..
  | cvt => exact execCvt_memOk h ..
  | qnt => exact execQnt_memOk h ..
  | dqnt => exact execDqnt_memOk h ..
  | pkn => exact execPkn_memOk h ..
  | upkn => exact execUpkn_memOk h ..
  | pexp => exact execPexp_memOk h ..
  | maxe => exact execMaxe_memOk h ..
  | rnd => exact execRnd_memOk h ..
  | shfl => exact execShfl_memOk h ..
  | bcst => exact execBcst_memOk h ..
  | bcstFirst => exact execBcstFirst_memOk h ..
  | vote => exact execVote_memOk h ..
  | redx => exact execRedx_memOk h ..
  | scanx => exact execScanx_memOk h ..
  | matchEq => exact execMatchEq_memOk h ..
  | redw => exact execRedw_memOk h ..
  | elect => exact execElect_memOk h ..
  | electK => exact execElectK_memOk h ..
  | ld => exact execLd_memOk h ..
  | st => exact execSt_memOk h ..
  | ldu => exact execLdu_memOk h ..
  | stu => exact execStu_memOk h ..
  | lds => exact execLds_memOk h ..
  | sts => exact execSts_memOk h ..
  | atom => exact execAtom_memOk h ..
  | red => exact execRed_memOk h ..
  | prf => exact execPrf_memOk h ..
  | pin => exact execPin_memOk h ..
  | unpin => exact execUnpin_memOk h ..
  | xbeg => exact execXbeg_memOk h ..
  | xbegChk => exact execXbegChk_memOk h ..
  | cmt => exact execCmt_memOk h ..
  | abt => exact execAbt_memOk h ..
  | pul => exact execPul_memOk h ..
  | xstat => exact execXstat_memOk h ..
  | cpy => exact execCpy_memOk h ..
  | cpyt => exact execCpyt_memOk h ..
  | cpyx => exact execCpyx_memOk h ..
  | waitk => exact execWaitk_memOk h ..
  | wprm => exact execWprm_memOk h ..
  | wprmRead => exact execWprmRead_memOk h ..
  | lazy => exact execLazy_memOk h ..
  | lazyc => exact execLazyc_memOk h ..
  | aarm => exact execAarm_memOk h ..
  | aexp => exact execAexp_memOk h ..
  | aadd => exact execAadd_memOk h ..
  | await => exact execAwait_memOk h ..
  | aread => exact execAread_memOk h ..
  | adis => exact execAdis_memOk h ..
  | obr => exact execObr_memOk h ..
  | obf => exact execObf_memOk h ..
  | obw => exact execObw_memOk h ..
  | obl => exact execObl_memOk h ..
  | stb => exact execStb_memOk h ..
  | mmq => exact execMmq_memOk h ..
  | mmqs => exact execMmqs_memOk h ..
  | mmqp => exact execMmqp_memOk h ..
  | acz => exact execAcz_memOk h ..
  | acr => exact execAcr_memOk h ..
  | drn => exact execDrn_memOk h ..
  | drns => exact execDrns_memOk h ..
  | mmsk => exact execMmsk_memOk h ..
  | acs => exact execAcs_memOk h ..
  | swr => exact execSwr_memOk h ..
  | barb => exact execBarb_memOk h ..
  | barc => exact execBarc_memOk h ..
  | spawn => exact execSpawn_memOk h ..
  | twinCkpt => exact execTwinCkpt_memOk h ..
  | twinCmp => exact execTwinCmp_memOk h ..
  | detf => exact execDetf_memOk h ..
  | kvt => exact execKvt_memOk h ..
  | kvaNew => exact execKvaNew_memOk h ..
  | kvaApp => exact execKvaApp_memOk h ..
  | kvc => exact execKvc_memOk h ..
  | kvf => exact execKvf_memOk h ..
  | wnw => exact execWnw_memOk h ..
  | gmk => exact execGmk_memOk h ..
  | gstp => exact execGstp_memOk h ..
  | smpl => exact execSmpl_memOk h ..
  | pwadd => exact execPwadd_memOk h ..
  | pwset => exact execPwset_memOk h ..
  | rsb => exact execRsb_memOk h ..
  | popr => exact execPopr_memOk h ..
  | pkill => exact execPkill_memOk h ..
  | peerLinkUp => exact execPeerLinkUp_memOk h ..
  | peerFlitReplay => exact execPeerFlitReplay_memOk h ..
  | hostFunctionReset => exact execHostFunctionReset_memOk h ..
  | dispatchHartReload => exact execDispatchHartReload_memOk h ..
  | policyConfigurationWrite => exact execPolicyConfigurationWrite_memOk h ..

/-! ### Machine/Events -/

@[simp ↓] theorem firstNext_memOk {s : State} (h : MemOk s) (l) : OptOk (firstNext s l) := by
  induction l with
  | nil => simp [firstNext]
  | cons i rest ih =>
    unfold firstNext
    split
    · exact optOk_some.2 ((exec_memOk h i).mem ‹_›)
    · exact ih

@[simp ↓] theorem MemOk.ownEvent {s : State} (h : MemOk s) : OptOk s.ownEvent :=
  optOk_orElse (optOk_orElse (firstNext_memOk h _) (firstNext_memOk h _)) (firstNext_memOk h _)

@[simp ↓] theorem settled_memOk {r : Host.Outcome State Fault Refusal} (h : OutOk r) : OutOk (settled r) := by
  fun_cases settled <;> simp_all

@[simp ↓] theorem MemOk.nextCycle {s : State} (h : MemOk s) : MemOk s.nextCycle := by
  unfold State.nextCycle
  extract_lets t
  have ht : MemOk t := MemOk.foldl (fun _ _ hs => hs.cycle _) _ h.landPasses
  exact ht.sealArrivals.same rfl

@[simp ↓] theorem MemOk.runWord {s : State} (h : MemOk s) (x) : OutOk (s.runWord x) := by
  have hp := h.pickWord x.1 x.2
  unfold State.runWord
  split <;> rename_i heq <;> rw [heq] at hp
  · exact settled_memOk (exec_memOk (Picked.ok_run.1 hp) _)
  · exact outOk_next.2 (Picked.ok_trapped.1 hp)

@[simp ↓] theorem MemOk.ownStep {s : State} (h : MemOk s) : OutOk s.ownStep := by
  unfold State.ownStep
  split
  · have hs (rest) : MemOk { s with picked := rest } := h.same rfl
    exact (hs _).runWord _
  · split
    · exact h.runWord _
    · split
      · exact outOk_next.2 (h.ownEvent.mem ‹_›)
      · exact outOk_next.2 h.nextCycle

/-! ### Machine/Step -/

@[simp ↓] theorem step_memOk {s : State} (h : MemOk s) : OutOk (step s) := by
  have hs (rest) : MemOk { s with agenda := rest } := h.same rfl
  unfold step
  split
  · exact settled_memOk (exec_memOk (hs _) _)
  · exact (hs _).ownStep
  · exact h.ownStep

/-- Settles O53: both memories keep their form in every function that a step is made of. -/
theorem stepKeepsMemoryForm : Obligations.StepKeepsMemoryForm := by
  unfold Obligations.StepKeepsMemoryForm
  exact fun s t h hstep => (step_memOk h).mem hstep

end Sys2Proof.Machine
end

section
/-! The counter words (R413 to R425). A word on a region completes in the state that its meaning leaves: the home of the region may
answer fragments that wait on it, and nothing else of a wave changes but the word's own result. -/

namespace Sys2Proof.Counters

open Sys2Proof.Machine

/-! ### What a counter word does -/

/-- The wave may use the region that the word names (R420). -/
def Usable (e : Env) : Prop := e.rid < 2 ^ 14 ∧ (e.s.region e.rid).valid = true ∧ (e.s.region e.rid).owner = e.wv.ctx

/-- The fragment waits on no region. -/
def Free (e : Env) : Prop := ∀ q p l, e.frag.wait ≠ some (.region q p l)

/-- The word completes in `t`, in which only fragments of its wave may have changed, and its wave ends as `ok` says. -/
def Does (e : Env) (i : Instr) (t : State) (ok : Wave → Prop) : Prop := ∃ v s' w', exec i e.s = .next s' ∧ Completes e t v s' w' ∧
  { v with frags := e.wv.frags } = e.wv ∧ ok w' ∧ w'.fpflags = e.wv.fpflags

/-- Nothing of the wave but its fragments has changed. -/
def Quiet (e : Env) (w' : Wave) : Prop := SameRegs e.wv w' ∧ w'.pending = e.wv.pending

/-- The region's home as the word finds it, once a phase that has come to its end has completed (R416). -/
def home (e : Env) : State := e.s.regionStep e.rid

/-- The region there. -/
def reg (e : Env) : Region := (home e).region e.rid

theorem home_answers (e : Env) : HomeAnswers e.rid e.s (home e) := regionStep_answers e.s e.rid

theorem home_idle {e : Env} (h : (e.s.region e.rid).completes = false) : home e = e.s := if_neg (by simp [h])

theorem reg_completes {e : Env} (h : (e.s.region e.rid).completes = true) : reg e = (e.s.region e.rid).nextPhase := by
  rw [reg, home, State.regionStep, if_pos h, completePhase_region]

section Words

variable {w : Fields} {s : State} {e : Env} (h : Issues w s e) {i : Instr} {body : Env → WRes} {t : State}
  (hx : exec i s = onWord w s body)
include h hx

theorem does_quiet (hw : Free e) (ha : HomeAnswers e.rid e.s t) (hb : body e = .done { s := t }) : Does e i t (Quiet e) := by
  obtain ⟨v, s', w', hexec, hcomp, hv, hvr, hsr, hkr, hfl, hpend⟩ := home_done h hx hb ha hw
  exact ⟨v, s', w', hexec, hcomp, hv, ⟨SameRegs.of_regs hvr hsr hkr, hpend rfl⟩, hfl⟩

theorem does_writes {x : Nat} (hw : Free e) (ha : HomeAnswers e.rid e.s t) (hb : body e = .done { s := t, ws := e.putS x }) :
    Does e i t (WritesS e e.wv x) := by
  obtain ⟨v, s', w', hexec, hcomp, hv, hvr, hsr, hkr, hfl, -⟩ := home_done h hx hb ha hw
  exact ⟨v, s', w', hexec, hcomp, hv, (writesS_putS e e.wv x).of_regs hvr hsr hkr, hfl⟩

end Words

/-! ### The words' meanings

A word takes its operands from the environment `e` in which it issues; the leader of a TWIN pair acts in `x`. -/

/-- AARM on a region (R421). -/
def aarmOn (e x : Env) (id : Nat) : WRes :=
  let (total, o1) := satBytes (e.n64 e.w.b)
  let (rearm, o2) := satBytes (e.n64 e.w.c)
  let s := x.s.regionStep id
  let r := s.region id
  let r := { r with expected := total, rearm := rearm, act := x.f 1 0, task := x.n64 x.w.d % 65536, ovf := r.ovf || o1 || o2 }
  .done { s := s.setRegion id (if r.armed then r else { r with arrived := 0, armed := true }) }

/-- AEXP on a region (R421). -/
def aexpOn (e x : Env) (id : Nat) : WRes :=
  let (n, o) := satBytes (e.n64 e.w.b)
  let s := x.s.regionStep id
  let r := s.region id
  .done { s := if r.armed then s.setRegion id { r with
    expected := min satMax (r.expected + n), ovf := r.ovf || o || decide (r.expected + n > satMax) } else s }

/-- AADD on a region (R421). -/
def aaddOn (e x : Env) (id : Nat) : WRes :=
  let (n, o) := satBytes (e.n64 e.w.b)
  let r := x.s.region id
  .done { s := if r.armed then (x.s.setRegion id { r.arrive n with ovf := (r.arrive n).ovf || o }).regionStep id else x.s }

/-- ADIS on a region (R421). -/
def adisOn (x : Env) (id : Nat) : WRes :=
  let s := x.s.regionStep id
  .done { s := (s.setRegion id { s.region id with armed := false, expected := 0, arrived := 0 }).answerWaiters id }

/-- The field of a region that AREAD gives by SUB (R423). -/
def fieldOf (r : Region) (sub : Nat) : Nat :=
  match sub with
  | 0 => r.phase * 2 ^ 48 + ofBool r.armed * 2 ^ 47 + ofBool r.ovf * 2 ^ 46 + r.act * 2 ^ 44
  | 1 => r.expected
  | 2 => r.arrived
  | _ => r.rearm

/-- AREAD on a region (R423). -/
def areadOn (x : Env) (id : Nat) : WRes :=
  let s := x.s.regionStep id
  .done { s := s, ws := x.putS (fieldOf (s.region id) (x.f 1 0)) }

/-- AWAIT on a region (R422), for phase `p` and within `limit` cycles. -/
def awaitOn (p limit : Nat) (x : Env) (id : Nat) : WRes :=
  let s := x.s.regionStep id
  let r := s.region id
  if phasePassed r.phase p then awaitDone x s (r.phase * 2 ^ 48)
  else if !r.armed then awaitDone x s (r.phase * 2 ^ 48 + 2)
  else if limit = 0 then awaitDone x s (r.phase * 2 ^ 48 + 1)
  else .wait s (.region id p (if limit = 2 ^ 64 - 1 then none else some (x.s.cycOf x.wid + limit)))

/-- AWAIT (R422): an answer that has been given stands. -/
def awaitBody (e : Env) : WRes :=
  if e.wv.holdsAny && e.frag.awaitAns.isNone then e.illegal
  else leaderOnce e (copyFold [e.rid, e.n64 e.w.b, e.n64 e.w.c]) fun x =>
    match x.frag.awaitAns with
    | some ans => awaitDone x x.s ans.toNat
    | none => usingRegion x (awaitOn (e.n64 e.w.b % 65536) (e.n64 e.w.c))

theorem exec_aarm (w : Fields) (s : State) :
    exec (.aarm w) s = onWord w s fun e => onRegion e [e.n64 e.w.b, e.n64 e.w.c, e.n64 e.w.d] (aarmOn e) := rfl

theorem exec_aexp (w : Fields) (s : State) : exec (.aexp w) s = onWord w s fun e => onRegion e [e.n64 e.w.b] (aexpOn e) := rfl

theorem exec_aadd (w : Fields) (s : State) : exec (.aadd w) s = onWord w s fun e => onRegion e [e.n64 e.w.b] (aaddOn e) := rfl

theorem exec_adis (w : Fields) (s : State) : exec (.adis w) s = onWord w s fun e => onRegion e [] adisOn := rfl

theorem exec_aread (w : Fields) (s : State) : exec (.aread w) s = onWord w s fun e => onRegion e [] areadOn := rfl

theorem exec_await (w : Fields) (s : State) : exec (.await w) s = onWord w s awaitBody := rfl

/-- A region that AARM has armed or replaced: a region that is armed keeps its arrivals (R421). -/
theorem arm_or_replace (r : Region) (total rearm act task : Nat) (o : Bool) :
    (if r.armed then { r with expected := total, rearm := rearm, act := act, task := task, ovf := o }
      else { r with expected := total, rearm := rearm, act := act, task := task, ovf := o, arrived := 0, armed := true }) =
    { r with arrived := if r.armed then r.arrived else 0, expected := total, rearm := rearm, act := act, task := task, armed := true
             ovf := o } := by
  split
  · next hr => rw [hr]
  · rfl

/-- A region that ADIS has disarmed (R421). -/
def disarm (r : Region) : Region := { r with armed := false, expected := 0, arrived := 0 }

/-- The home once ADIS has disarmed the region and answered who waits on it. -/
def disarmed (e : Env) : State := ((home e).setRegion e.rid (disarm (reg e))).answerWaiters e.rid

/-- An arrival of `n` bytes by AADD, as the word writes it out (R416, R421). -/
theorem arrive_adds (r : Region) (n : Nat) (o : Bool) : { r.arrive n with ovf := (r.arrive n).ovf || o } = { r with
    arrived := if n = 0 then r.arrived else min satMax (r.arrived + n)
    ovf := r.ovf || (decide (n ≠ 0) && decide (satMax < r.arrived + n)) || o } := by
  by_cases hn : n = 0 <;> simp [Region.arrive, hn]

/-! ### The words on a region that the wave may use -/

section Usable

variable {w : Fields} {s : State} {e : Env} (h : Issues w s e) (hu : Usable e) (hw : Free e)
include h hu hw

/-- A word that completes on its region. -/
theorem does_on {i : Instr} {ops : Env → List Nat} {on : Env → Env → Nat → WRes} {t : State}
    (hx : exec i s = onWord w s fun e => onRegion e (ops e) (on e)) (ha : HomeAnswers e.rid e.s t)
    (hb : on e e e.rid = .done { s := t }) : Does e i t (Quiet e) :=
  does_quiet h hx hw ha ((onRegion_ok h.alone hu _ _).trans hb)

theorem aarm_does : Does e (.aarm w) ((home e).setRegion e.rid { reg e with
    arrived := if (reg e).armed then (reg e).arrived else 0, expected := min satMax (e.n64 e.w.b), rearm := min satMax (e.n64 e.w.c)
    act := e.f 1 0, task := e.n64 e.w.d % 65536, armed := true
    ovf := (reg e).ovf || decide (satMax < e.n64 e.w.b) || decide (satMax < e.n64 e.w.c) }) (Quiet e) := by
  rw [← arm_or_replace]
  exact does_on h hu hw (exec_aarm w s) (setRegion_answers (home_answers e) _ _) rfl

theorem aexp_adds (hr : (reg e).armed = true) : Does e (.aexp w) ((home e).setRegion e.rid { reg e with
    expected := min satMax ((reg e).expected + min satMax (e.n64 e.w.b))
    ovf := (reg e).ovf || decide (satMax < e.n64 e.w.b) || decide (satMax < (reg e).expected + min satMax (e.n64 e.w.b)) }) (Quiet e) :=
  does_on h hu hw (exec_aexp w s) (setRegion_answers (home_answers e) _ _)
    (congrArg (fun t => WRes.done { s := t }) (if_pos hr))

theorem aexp_ignores (hr : (reg e).armed = false) : Does e (.aexp w) (home e) (Quiet e) :=
  does_on h hu hw (exec_aexp w s) (home_answers e) (congrArg (fun t => WRes.done { s := t }) (if_neg (Bool.eq_false_iff.1 hr)))

theorem aadd_adds (hr : (e.s.region e.rid).armed = true) : Does e (.aadd w) ((e.s.setRegion e.rid { e.s.region e.rid with
    arrived := if min satMax (e.n64 e.w.b) = 0 then (e.s.region e.rid).arrived
      else min satMax ((e.s.region e.rid).arrived + min satMax (e.n64 e.w.b))
    ovf := (e.s.region e.rid).ovf || (decide (min satMax (e.n64 e.w.b) ≠ 0) &&
      decide (satMax < (e.s.region e.rid).arrived + min satMax (e.n64 e.w.b))) || decide (satMax < e.n64 e.w.b) }).regionStep e.rid)
    (Quiet e) := by
  rw [← arrive_adds]
  exact does_on h hu hw (exec_aadd w s) ((setRegion_answers ((NoWave.refl e.s).answers _) _ _).trans (regionStep_answers _ _))
    (congrArg (fun t => WRes.done { s := t }) (if_pos hr))

theorem aadd_ignores (hr : (e.s.region e.rid).armed = false) : Does e (.aadd w) e.s (Quiet e) :=
  does_on h hu hw (exec_aadd w s) ((NoWave.refl e.s).answers _) (congrArg (fun t => WRes.done { s := t }) (if_neg (Bool.eq_false_iff.1 hr)))


theorem adis_does : Does e (.adis w) (disarmed e) (Quiet e) :=
  does_on h hu hw (on := fun _ => adisOn) (exec_adis w s) ((setRegion_answers (home_answers e) _ _).trans (answerWaiters_answers _ _)) rfl

theorem aread_gives : Does e (.aread w) (home e) (WritesS e e.wv (fieldOf (reg e) (e.f 1 0))) :=
  does_writes h (exec_aread w s) hw (home_answers e) (onRegion_ok h.alone hu _ _)

end Usable

/-- A region that is not armed answers each waiter: COMPLETE where its phase has passed, else DISARMED (R422). -/
theorem answerWaiters_answer {s : State} {rid k : Nat} {u : Wave} {fr : Nat} {f : Frag} {p : Nat} {l : Option Nat}
    (harm : (s.region rid).armed = false) (hk : Tbl.find s.waves k = some u) (hf : Tbl.find u.frags fr = some f)
    (hwait : f.wait = some (.region rid p l)) :
    ∃ u', (s.answerWaiters rid).wave k = some u' ∧ Tbl.find u'.frags fr = some { f with
      wait := none
      awaitAns := some (BitVec.ofNat 64 ((s.region rid).phase * 2 ^ 48 + if phasePassed (s.region rid).phase p then 0 else 2)) } := by
  simp only [State.answerWaiters, State.wave, Tbl.find_mapv, hk, Option.map_some]
  refine ⟨_, rfl, ?_⟩
  simp only [Tbl.find_mapv, hf, Option.map_some, hwait]
  by_cases hp : phasePassed (s.region rid).phase p = true
  · simp [hp]
  · simp [hp, harm]

/-- ADIS answers every waiter of its region. -/
theorem disarmed_answers {e : Env} {k : Nat} {u : Wave} {fr : Nat} {f : Frag} {p : Nat} {l : Option Nat} (hk : (home e).wave k = some u)
    (hf : Tbl.find u.frags fr = some f) (hwait : f.wait = some (.region e.rid p l)) :
    ∃ u', (disarmed e).wave k = some u' ∧ Tbl.find u'.frags fr = some { f with
      wait := none
      awaitAns := some (BitVec.ofNat 64 ((reg e).phase * 2 ^ 48 + if phasePassed (reg e).phase p then 0 else 2)) } := by
  have hreg : ((home e).setRegion e.rid (disarm (reg e))).region e.rid = disarm (reg e) := by
    rw [State.region_setRegion, if_pos rfl]
  have hans := answerWaiters_answer (s := (home e).setRegion e.rid (disarm (reg e))) (congrArg Region.armed hreg) hk hf hwait
  rw [hreg] at hans
  exact hans

/-! ### AWAIT (R422) -/

theorem usingRegion_eq {e : Env} (h : e.s.twinned e.wv = false) (on : Env → Nat → WRes) : usingRegion e on = onRegion e [] on :=
  (leaderOnce_single h _ fun e => usingRegion e on).symm

theorem awaitBody_asks {e : Env} (h : e.s.twinned e.wv = false) (hh : e.wv.holdsAny = false) (hn : e.frag.awaitAns = none) :
    awaitBody e = onRegion e [] (awaitOn (e.n64 e.w.b % 65536) (e.n64 e.w.c)) := by
  rw [awaitBody, if_neg (by simp [hh]), leaderOnce_single h, hn, usingRegion_eq h]

theorem awaitBody_answered {e : Env} (h : e.s.twinned e.wv = false) {x : W64} (hx : e.frag.awaitAns = some x) :
    awaitBody e = awaitDone e e.s x.toNat := by
  rw [awaitBody, if_neg (by simp [hx]), leaderOnce_single h, hx]

/-- An AWAIT that ends gives its answer, after a PUL.dev where that is COMPLETE. -/
theorem await_answers {w : Fields} {s : State} {e : Env} (h : Issues w s e) (hw : Free e) {t : State} {x : Nat}
    (ha : HomeAnswers e.rid e.s t) (hb : awaitBody e = awaitDone e t x) :
    Does e (.await w) (if x % 4 = 0 then t.pul e.wid e.wv 3 else t) (WritesS e e.wv x) := by
  refine does_writes h (exec_await w s) hw ?_ hb
  split
  · exact pul_answers ha _ _ _
  · exact ha

/-- The wait of an AWAIT that has no answer yet: it ends at its limit, if it has one. -/
def waitOf (e : Env) : Wait :=
  .region e.rid (e.n64 e.w.b % 65536) (if e.n64 e.w.c = 2 ^ 64 - 1 then none else some (e.s.cycOf e.wid + e.n64 e.w.c))

section Asks

variable {w : Fields} {s : State} {e : Env} (h : Issues w s e) (hu : Usable e) (hh : e.wv.holdsAny = false)
  (hn : e.frag.awaitAns = none)
include h hu hh hn

/-- An AWAIT that has no answer yet asks its region. -/
theorem awaitBody_on : awaitBody e = awaitOn (e.n64 e.w.b % 65536) (e.n64 e.w.c) e e.rid :=
  (awaitBody_asks h.alone hh hn).trans (onRegion_ok h.alone hu _ _)

theorem await_passed (hw : Free e) (hp : phasePassed (reg e).phase (e.n64 e.w.b % 65536) = true) :
    Does e (.await w) ((home e).pul e.wid e.wv 3) (WritesS e e.wv ((reg e).phase * 2 ^ 48 + 0)) := by
  have hans := await_answers h hw (home_answers e) ((awaitBody_on h hu hh hn).trans (if_pos hp))
  rw [Nat.add_zero]
  rwa [if_pos (by omega)] at hans

variable (hp : phasePassed (reg e).phase (e.n64 e.w.b % 65536) = false)
include hp

theorem awaitBody_early : awaitBody e = if !(reg e).armed then awaitDone e (home e) ((reg e).phase * 2 ^ 48 + 2)
    else if e.n64 e.w.c = 0 then awaitDone e (home e) ((reg e).phase * 2 ^ 48 + 1)
    else .wait (home e) (waitOf e) :=
  (awaitBody_on h hu hh hn).trans (if_neg (Bool.eq_false_iff.1 hp))

theorem await_disarmed (hw : Free e) (hr : (reg e).armed = false) :
    Does e (.await w) (home e) (WritesS e e.wv ((reg e).phase * 2 ^ 48 + 2)) := by
  have hans := await_answers h hw (home_answers e) ((awaitBody_early h hu hh hn hp).trans (if_pos (by rw [hr]; rfl)))
  rwa [if_neg (by omega)] at hans

variable (hr : (reg e).armed = true)
include hr

theorem awaitBody_armed : awaitBody e = if e.n64 e.w.c = 0 then awaitDone e (home e) ((reg e).phase * 2 ^ 48 + 1)
    else .wait (home e) (waitOf e) :=
  (awaitBody_early h hu hh hn hp).trans (if_neg (by rw [hr]; exact Bool.false_ne_true))

theorem await_timeout (hw : Free e) (hl : e.n64 e.w.c = 0) : Does e (.await w) (home e) (WritesS e e.wv ((reg e).phase * 2 ^ 48 + 1)) := by
  have hans := await_answers h hw (home_answers e) ((awaitBody_armed h hu hh hn hp hr).trans (if_pos hl))
  rwa [if_neg (by omega)] at hans

theorem await_waits (hl : e.n64 e.w.c ≠ 0) (hc : (e.s.region e.rid).completes = false) :
    ∃ s', exec (.await w) e.s = .next s' ∧ Stands e s' { e.frag with wait := some (waitOf e) } := by
  refine exec_wait h (exec_await w s) ((awaitBody_armed h hu hh hn hp hr).trans ?_)
  rw [if_neg hl, home_idle hc]

end Asks

/-! ### Regions that the wave may not use (R420) -/

theorem counter_prot {w : Fields} {s : State} {e : Env} (h : Issues w s e) (hu : ¬Usable e) (hh : e.wv.handler = none) (ht : e.wv.tvec ≠ 0)
    {i : Instr} {body : Env → WRes} {ops : List Nat} {on : Env → Nat → WRes} (hx : exec i s = onWord w s body)
    (hb : body e = onRegion e ops on) : FaultsWith e i 0x08 2 (BitVec.ofNat 64 e.rid) e.frag.mask :=
  fault_traps (ld := false) h hx (hb.trans (onRegion_bad h.alone hu _ _)) hh ht

/-- Settles O41: the meaning of each word on a region that its wave may use, an answered AWAIT, and PROT on any other region. -/
theorem counters : Obligations.Counters := by
  unfold Obligations.Counters
  intro w s e h id r home' h' usable n beyond does quiet
  refine ⟨home_idle, reg_completes, fun hu hw => ?_, fun hw x hx => ?_, fun hu hh hn hh' ht => ?_⟩
  · refine ⟨aarm_does h hu hw, aexp_adds h hu hw, aexp_ignores h hu hw, aadd_adds h hu hw, aadd_ignores h hu hw,
      ⟨adis_does h hu hw, fun k u fr f p l hk hf hwait => disarmed_answers hk hf hwait⟩, aread_gives h hu hw, fun hh hn => ?_⟩
    exact ⟨await_passed h hu hh hn hw, fun hp hr => await_disarmed h hu hh hn hp hw hr,
      fun hp hr hl => await_timeout h hu hh hn hp hr hw hl, fun hp hr hl hc => await_waits h hu hh hn hp hr hl hc⟩
  · exact await_answers h hw ((NoWave.refl e.s).answers _) (awaitBody_answered h.alone hx)
  · have prot {i : Instr} {body : Env → WRes} {ops on} (hx : exec i s = onWord w s body) (hb : body e = onRegion e ops on) :=
      counter_prot h hu hh' ht hx hb
    simp only [List.mem_cons, List.not_mem_nil, or_false]
    rintro i (rfl | rfl | rfl | rfl | rfl | rfl)
    · exact prot (exec_aarm w s) rfl
    · exact prot (exec_aexp w s) rfl
    · exact prot (exec_aadd w s) rfl
    · exact prot (exec_await w s) (awaitBody_asks h.alone hh hn)
    · exact prot (exec_aread w s) rfl
    · exact prot (exec_adis w s) rfl

end Sys2Proof.Counters
end

section
/-! The page of a die (R399, R413, R414, R435, R449, R491, R502). A master that reaches the page has its write performed, so each
write is the choice that its register makes: its effect where the register's conditions hold, and nothing elsewhere. -/

namespace Sys2Proof.DieWindows

open Sys2Proof.Machine

/-- A handler that first looks whether its entry is closed, and then acts by a choice. -/
theorem acts_open {s t : State} {i : Instr} {closed : Bool} {P Q : Prop} [Decidable Q]
    (h : exec i s = .next (if closed then s else if Q then t else s)) (hq : Q ↔ P) : Acts s i (closed = false ∧ P) t := by
  cases closed with
  | true => exact ⟨fun p => Bool.noConfusion p.1, fun _ => h⟩
  | false =>
    obtain ⟨hyes, hno⟩ := acts_of h hq
    exact ⟨fun p => hyes p.2, fun p => hno fun hp => p ⟨rfl, hp⟩⟩

/-! ### The entries that the selectors name (R435) -/

/-- The region entry that the die's window shows. -/
def regionKey (s : State) (die : Nat) : Nat := 4096 * die + (s.die die).rwsel.toNat

/-- The pool entry that the die's window shows. -/
def poolEntry (s : State) (die : Nat) : Nat := poolKey die (s.die die).pwsel.toNat

/-- The particle record that the die's window shows. -/
def particleKey (s : State) (die : Nat) : Nat := 65536 * die + (s.die die).ptsel.toNat

section Page

variable {s : State} {m : Master} {die : Nat} (h : s.reaches m die) (val : W64)

/-! ### CANCFG, SCRUBPER and ERRCLR (R399, R435) -/

theorem cancfg_heeded (v : Nat) : s.cancfgIgnored die v = false ↔
    (∀ b ∈ s.blocks, b.1 / 8 / 64 ≠ die) ∧ s.retained die = [] ∧ bits v 3 0 ≤ 8 ∧ bits v 11 8 ≤ 4 := by
  simp [State.cancfgIgnored, and_assoc]

include h

theorem cancfg_acts : Acts s (.cancfgWrite m die val)
    (fullRights m ∧ (∀ b ∈ s.blocks, b.1 / 8 / 64 ≠ die) ∧ s.retained die = [] ∧ bits val.toNat 3 0 ≤ 8 ∧ bits val.toNat 11 8 ≤ 4)
    (s.modDie die fun d => { d with cancfg := BitVec.ofNat 64 (bits val.toNat 11 8 * 2 ^ 8 + bits val.toNat 3 0) }) := by
  refine acts_not (onMaster_eq h _) ?_
  rw [← fullMaster_iff, ← cancfg_heeded]
  cases fullMaster m <;> simp

theorem scrubper_acts : Acts s (.scrubperWrite m die val) (fullRights m)
    (s.modDie die fun d => { d with scrubper := BitVec.ofNat 64 (scrubperWritten d.scrubper.toNat val.toNat) }) :=
  acts_of (onMaster_eq h _) (fullMaster_iff m)

theorem errclr_acts : Acts s (.errclr m die val) (fullRights m ∧ val.toNat % 2 = 1)
    (s.modDie die fun d => { d with errCorr := 0, errUncorr := 0, errLast := none }) := by
  refine acts_of (onMaster_eq h _) ?_
  rw [← fullMaster_iff, Bool.and_eq_true, bit, Nat.testBit_zero, decide_eq_true_iff]

/-! ### A region entry (R413, R414) -/

theorem region_acts (word : Nat) :
    let r := s.region (regionKey s die)
    Acts s (.regionWindowWrite m die word val)
      (word = 0 ∧ r.armed = false ∧ s.mayWrite m (if r.valid then r.owner else bits val.toNat 63 56))
      (s.setRegion (regionKey s die) (r.written val.toNat)) := by
  intro r
  refine acts_not (onMaster_eq h _) ?_
  rw [← owns_iff]
  simp only [Bool.or_eq_true, decide_eq_true_eq, Bool.not_eq_true', not_and_or, Bool.not_eq_true, Bool.not_eq_false, ne_eq, or_assoc]
  rfl

/-! ### A pool entry (R449) -/

theorem pool_word0_acts : Acts s (.poolWindowWrite m die 0 val)
    ((s.pool (poolEntry s die)).valid = false ∧ s.mayWrite m (bits val.toNat 63 56) ∧ bits val.toNat 31 0 ≤ 2 ^ 30)
    (s.modPool (poolEntry s die) fun p => p.written val.toNat) := by
  refine acts_open (onMaster_eq h _) ?_
  rw [Bool.and_eq_true, decide_eq_true_iff, owns_iff]
  rfl

theorem pool_word1_acts : Acts s (.poolWindowWrite m die 1 val)
    ((s.pool (poolEntry s die)).valid = false ∧ s.mayWrite m (s.pool (poolEntry s die)).owner)
    (s.modPool (poolEntry s die) fun p => { p with vbase := val }) :=
  acts_open (onMaster_eq h _) (owns_iff s m true _ _)

theorem pool_word_ignored {word : Nat} (hw : 2 ≤ word) : exec (.poolWindowWrite m die word val) s = .next s := by
  refine (onMaster_eq h _).trans (congrArg _ ?_)
  dsimp only
  rw [if_neg (by omega : word ≠ 0), if_neg (by omega : word ≠ 1), ite_self]

/-! ### A particle record (R502) -/

omit h in
/-- Word 0 of a record, as the window writes it: only a hart keeps DONE, and a created particle is its own parent. -/
theorem particle_written {p : Particle} {done : Bool} (hd : done = true ↔ p.done = true ∧ ¬∃ n, m = .fn n) (rec v : Nat) :
    p.written (hostMaster m) die rec v = { p with
      w := BitVec.ofNat 32 (bits v 63 32), pop := bits v 31 24, st := bits v 23 22, done := done
      parent := if bits v 23 22 = 1 then BitVec.ofNat 32 (die * 2 ^ 30 + bits v 31 24 * 2 ^ 22 + rec) else p.parent } := by
  have hdone : (p.done && !hostMaster m) = done := by
    rw [Bool.eq_iff_iff, hd, ← hostMaster_iff, Bool.and_eq_true, Bool.not_eq_true', Bool.not_eq_true]
  simp only [Particle.written, hdone]
  split <;> rfl

/-- What each word of the window does to the record. -/
def particleTakes (s : State) (m : Master) (die : Nat) (val : W64) : Nat → State
  | 0 => s.modParticle (particleKey s die) fun p => p.written (hostMaster m) die (s.die die).ptsel.toNat val.toNat
  | 1 => s.modParticle (particleKey s die) fun p => { p with seq := BitVec.ofNat 32 val.toNat }
  | 2 => s.modParticle (particleKey s die) fun p => { p with gstate := val }
  | _ => s

/-- The population by which the write is allowed: of a free record, the one that word 0 names. -/
def particlePop (s : State) (die : Nat) (val : W64) (word : Nat) : Nat :=
  let p := s.particle (particleKey s die)
  if (p.st = 0 ∧ !p.done) ∧ word = 0 then bits val.toNat 31 24 else p.pop

theorem particle_acts (word : Nat) : Acts s (.particleWindowWrite m die word val)
    ((s.particle (particleKey s die)).st < 2 ∧ s.mayWrite m (s.pop (particlePop s die val word)).owner)
    (particleTakes s m die val word) := by
  have howns : s.owns m true (s.pop (particlePop s die val word)).owner 0 = true ↔ _ := owns_iff s m true _ 0
  refine acts_not (onMaster_eq h _) ?_
  rw [Bool.or_eq_true, decide_eq_true_iff, Bool.not_eq_true', not_and_or, Nat.not_lt, ← Bool.not_eq_true]
  exact or_congr_right (not_congr howns)

theorem particle_word0_acts {done : Bool} (hd : done = true ↔ (s.particle (particleKey s die)).done = true ∧ ¬∃ n, m = .fn n) :
    let p := s.particle (particleKey s die)
    Acts s (.particleWindowWrite m die 0 val)
      (p.st < 2 ∧ s.mayWrite m (s.pop (if p.st = 0 ∧ p.done = false then bits val.toNat 31 24 else p.pop)).owner)
      (s.modParticle (particleKey s die) fun p => { p with
        w := BitVec.ofNat 32 (bits val.toNat 63 32), pop := bits val.toNat 31 24, st := bits val.toNat 23 22, done := done
        parent := if bits val.toNat 23 22 = 1 then
          BitVec.ofNat 32 (die * 2 ^ 30 + bits val.toNat 31 24 * 2 ^ 22 + (s.die die).ptsel.toNat) else p.parent }) := by
  intro p
  have hacts := particle_acts h val 0
  have hpop : particlePop s die val 0 = if p.st = 0 ∧ p.done = false then bits val.toNat 31 24 else p.pop := by
    simp [particlePop, p]
  rw [hpop, particleTakes, State.modParticle, particle_written hd] at hacts
  exact hacts

theorem particle_word_acts {word : Nat} (hw : word ≠ 0) : Acts s (.particleWindowWrite m die word val)
    ((s.particle (particleKey s die)).st < 2 ∧ s.mayWrite m (s.pop (s.particle (particleKey s die)).pop).owner)
    (particleTakes s m die val word) := by
  have hacts := particle_acts h val word
  rwa [particlePop, if_neg fun hp => hw hp.2] at hacts

theorem particle_word_ignored {word : Nat} (hw : 3 ≤ word) : exec (.particleWindowWrite m die word val) s = .next s := by
  obtain ⟨n, rfl⟩ := Nat.exists_eq_add_of_le' hw
  obtain ⟨hyes, hno⟩ := particle_acts h val (n + 3)
  exact (em _).elim hyes hno

/-! ### Plain registers (R435, R491, R502) -/

/-- A register on the die's own page. -/
theorem register_next {reg : PlainReg} (hreg : regDie reg = die)
    (hpage : (∃ d, reg = .rwsel d ∨ reg = .pwsel d ∨ reg = .ptsel d) ∨ ∃ c, reg = .saveaddr c) :
    exec (.registerWrite m reg val) s = .next (s.writePlain m reg val) := by
  subst hreg
  refine Eq.trans ?_ (onMaster_eq (name := "REGISTER_WRITE") h fun s => s.writePlain m reg val)
  rcases hpage with ⟨d, rfl | rfl | rfl⟩ | ⟨c, rfl⟩ <;> cases m <;> rfl

/-- A register that every page shows, for a host function alone. -/
theorem shared_next {reg : PlainReg} (hreg : reg = .popsel ∨ (∃ port idx, reg = .peergrant port idx) ∨ reg = .readOnly)  :
    exec (.registerWrite m reg val) s = .next (if hostMaster m then s.writePlain m reg val else s) := by
  obtain ⟨hdie, hm⟩ := h
  cases m with
  | fn n =>
    have hzero : s.reaches (.fn n) 0 := ⟨by decide, hm⟩
    have hnext := onMaster_eq (name := "REGISTER_WRITE") hzero fun s => s.writePlain (.fn n) reg val
    rcases hreg with rfl | ⟨port, idx, rfl⟩ | rfl <;> exact hnext
  | hart d =>
    have hown : s.reaches (.hart d) d := ⟨hm.1 ▸ hdie, rfl, hm.2⟩
    have hnext := onMaster_eq (name := "REGISTER_WRITE") hown fun s => s
    rcases hreg with rfl | ⟨port, idx, rfl⟩ | rfl <;> exact hnext

theorem saveaddr_acts {c : Nat} (hc : c / 64 = die) : Acts s (.registerWrite m (.saveaddr c) val) (¬∃ n, m = .fn n)
    (s.modCore c fun x => { x with saveaddr := val &&& 0xFFFFFFFFFFFFF000 }) :=
  acts_not (register_next h val hc (.inr ⟨c, rfl⟩)) (by rw [hostMaster_iff, not_not])

theorem popsel_acts : Acts s (.registerWrite m .popsel val) (∃ n, m = .fn n) { s with popsel := val.setWidth 8 } := by
  have hnext := shared_next h val (reg := .popsel) (.inl rfl)
  refine acts_of (Q := hostMaster m = true) (hnext.trans (congrArg _ ?_)) (hostMaster_iff m)
  cases m <;> rfl

theorem peergrant_acts (port idx : Nat) : Acts s (.registerWrite m (.peergrant port idx) val) (m = .fn 0 ∧ port < 16 ∧ idx < 4)
    (s.modPort port fun p => { p with grant := Tbl.set 0 p.grant idx val }) := by
  have hnext := shared_next h val (reg := .peergrant port idx) (.inr (.inl ⟨port, idx, rfl⟩))
  refine acts_of (Q := m = .fn 0 ∧ port < 16 ∧ idx < 4) (hnext.trans (congrArg _ ?_)) .rfl
  cases m with
  | fn n => rfl
  | hart d => exact (if_neg fun hp => Master.noConfusion hp.1).symm

theorem readOnly_ignored : exec (.registerWrite m .readOnly val) s = .next s :=
  (shared_next h val (.inr (.inr rfl))).trans (congrArg _ (ite_self _))

end Page

/-- Settles O54: each register of the page, by the choice that its handler makes. -/
theorem dieWindows : Obligations.DieWindows := by
  unfold Obligations.DieWindows
  intro m die val s h v d host
  refine ⟨cancfg_acts h val, scrubper_acts h val, errclr_acts h val, region_acts h val,
    ⟨pool_word0_acts h val, pool_word1_acts h val, fun word => pool_word_ignored h val⟩, ?_, ?_⟩
  · intro key p self done hd
    exact ⟨particle_word0_acts h val hd, particle_word_acts h val (word := 1) (by decide), particle_word_acts h val (word := 2) (by decide),
      fun word => particle_word_ignored h val⟩
  · have page {reg : PlainReg} := register_next h val (reg := reg)
    exact ⟨page rfl (.inl ⟨die, .inl rfl⟩), page rfl (.inl ⟨die, .inr (.inl rfl)⟩), page rfl (.inl ⟨die, .inr (.inr rfl)⟩),
      fun c => saveaddr_acts h val, popsel_acts h val, peergrant_acts h val, readOnly_ignored h val⟩

end Sys2Proof.DieWindows
end

section
/-! How the engine words send their requests (R443, R444, R455, R459, R465, R468). A word whose checks all pass is its one call of
`engineOp`, and `sends_of` says once what that call does. -/

open Sys2Proof Sys2Proof.Machine
namespace Sys2Proof.EngineWords

/-- The operands of the active lanes, as requests carry them. -/
def twoOps (e : Env) : List (Nat × Nat × Nat) := e.lanes.map fun i => (i, e.a .n32 i, e.b .n32 i)
def oneOp (e : Env) : List (Nat × Nat) := e.lanes.map fun i => (i, e.a .n32 i)

/-- No lane has failed at issue: every lane is in the request. -/
theorem passing_lanes (l : List Nat) : (l.filter fun i => !([] : List LaneFault).any fun x => x.lane == i) = l := by
  simp

section Sends

variable {w : Fields} {s : State} {e : Env} (h : Issues w s e)
include h

/-! ### No lane -/

/-- Words without a lane do nothing; GMK raises no token (log entry 47). -/
theorem idle_words (hl : e.lanes = []) (hkill : e.fbit 1 = false) :
    ∀ i ∈ [Instr.kvt w, .kvaNew w, .kvaApp w, .kvc w, .kvf w, .gmk w, .gstp w, .smpl w], GivesNothing e i := by
  have hidle : e.lanes.isEmpty = true := List.isEmpty_iff.2 hl
  have idle {i : Instr} {run : Env → WRes} (hx : exec i s = onWord w s fun e => if e.lanes.isEmpty then .done { s := e.s } else run e) :
      GivesNothing e i := GivesNothing.of_done h hx (if_pos hidle)
  have hsmpl : GivesNothing e (.smpl w) := by
    refine GivesNothing.of_done h (i := .smpl w) rfl ?_
    simp only [hkill, hidle, Bool.false_and, Bool.false_eq_true, if_false, if_true]
  simp only [List.mem_cons, List.not_mem_nil, or_false]
  rintro i (rfl | rfl | rfl | rfl | rfl | rfl | rfl | rfl)
  exacts [idle rfl, idle rfl, idle rfl, idle rfl, idle rfl, idle rfl, idle rfl, hsmpl]

/-! ### Key-value words (R455) -/

section Lanes

variable (hl : e.lanes.isEmpty ≠ true)
include hl

theorem kvt_sends : SendsReq e (.kvt w) (kvEngines ((twoOps e).map (·.2.1))) none (.kvt (twoOps e) e.w.d.toNat e.w.c.toNat)
    [.v (e.w.d.toNat + 0), .v (e.w.d.toNat + 1), .k e.w.c.toNat] :=
  sends_of h (i := .kvt w) rfl fun _ => if_neg hl

theorem kvaNew_sends : SendsReq e (.kvaNew w) [dieOfCore (coreOfWave e.wid)] none
    (.kvaNew e.lanes (e.uni e.w.b.toNat .n32) e.w.d.toNat) [.v (e.w.d.toNat + 0)] :=
  sends_of h (i := .kvaNew w) rfl fun _ => if_neg hl

theorem kvaApp_sends : SendsReq e (.kvaApp w) (kvEngines ((twoOps e).map (·.2.1))) none (.kvaApp (twoOps e) e.w.d.toNat)
    [.v (e.w.d.toNat + 0)] :=
  sends_of h (i := .kvaApp w) rfl fun _ => if_neg hl

theorem kvc_sends : SendsReq e (.kvc w) (kvEngines ((oneOp e).map (·.2))) none (.kvc (oneOp e) e.w.d.toNat) [.v (e.w.d.toNat + 0)] :=
  sends_of h (i := .kvc w) rfl fun _ => if_neg hl

theorem kvf_sends : SendsReq e (.kvf w) (kvEngines ((oneOp e).map (·.2))) none (.kvf (oneOp e)) [] :=
  sends_of h (i := .kvf w) rfl fun _ => if_neg hl

/-! ### GSTP, GMK and SMPL (R465, R468) -/

/-- GSTP of records that are aligned and differ. -/
theorem gstp_sends (hrec : ∀ i ∈ e.lanes, e.b .b64 i % 1024 = 0 ∧ ∀ j ∈ e.lanes, j ≠ i → e.b .b64 j ≠ e.b .b64 i) :
    SendsReq e (.gstp w) [4 + dieOfCore (coreOfWave e.wid)] none
      (.gstp (e.uni e.w.a.toNat .b64) (e.lanes.map fun i => (i, e.b .b64 i, e.c .n32 i)) e.w.d.toNat (e.fbit 0))
      [.v (e.w.d.toNat + 0), .v (e.w.d.toNat + 1)] := by
  apply sends_of h (i := .gstp w) rfl
  refine fun _ => (if_neg hl).trans ?_
  dsimp only
  rw [List.filterMap_eq_nil_iff.2, passing_lanes, if_neg hl]
  · rfl
  · intro i hi
    obtain ⟨halign, hdiff⟩ := hrec i hi
    have hsame : (e.lanes.any fun j => j != i && e.b .b64 j == e.b .b64 i) = false := by
      simpa [List.any_eq_false] using hdiff
    rw [if_neg (not_not.2 halign), hsame]
    rfl

/-- The bytes of a mask, where the vocabulary is known at issue. -/
def maskNeed (e : Env) : Nat := match vocabNow e (e.uni e.w.a.toNat .b64) with | some v => v / 8 | none => 0

/-- GMK of aligned records whose masks lie in the scratchpad (log entry 51). -/
theorem gmk_sends (ho : e.uni e.w.d.toNat .b64 % 4 = 0) (hc : e.uni e.w.c.toNat .n32 % 4 = 0)
    (hneed : maskNeed e ≤ e.uni e.w.c.toNat .n32)
    (hrec : ∀ i ∈ e.lanes, e.b .b64 i % 1024 = 0 ∧
      e.uni e.w.d.toNat .b64 + i * e.uni e.w.c.toNat .n32 + maskNeed e ≤ spaceSize e 1) :
    SendsReq e (.gmk w) [4 + dieOfCore (coreOfWave e.wid)] (some e.token)
      (.gmk (e.uni e.w.d.toNat .b64) (e.uni e.w.a.toNat .b64) (e.uni e.w.c.toNat .n32) (e.lanes.map fun i => (i, e.b .b64 i))) [] := by
  apply sends_of h (i := .gmk w) rfl
  refine fun htok => (if_neg hl).trans ((if_neg (by simp [htok _ rfl])).trans ?_)
  have hfind : ([(e.uni e.w.d.toNat .b64, 4), (e.uni e.w.c.toNat .n32, 4)].find? fun p => p.1 % p.2 != 0) = none := by
    simp [ho, hc]
  dsimp only
  rw [hfind]
  refine (if_neg (Nat.not_lt.2 hneed)).trans ?_
  rw [List.filterMap_eq_nil_iff.2, passing_lanes, if_neg hl]
  · rfl
  · intro i hi
    obtain ⟨halign, hin⟩ := hrec i hi
    rw [if_neg (not_not.2 halign)]
    exact if_neg (Nat.not_lt.2 hin)

/-- SMPL with an aligned block; with a kill, of a particle; without given bits, once the earlier draws are counted. -/
theorem smpl_sends (ha : e.uni e.w.a.toNat .b64 % 16 = 0) (hkill : e.fbit 1 = true → e.s.isParticle e.wv.lid = true)
    (hdraw : e.fbit 0 = true ∨ e.s.drawing e.wid = false) :
    SendsReq e (.smpl w) [4 + dieOfCore (coreOfWave e.wid)] none (.smpl (e.uni e.w.a.toNat .b64) e.w.d.toNat
      (e.lanes.map fun i => (i, if e.fbit 1 then e.c .n32 i else 0, (Tbl.get e.wv.draw i 0).toNat)) (e.fbit 0) (e.fbit 1))
      [.v (e.w.d.toNat + 0), .v (e.w.d.toNat + 1)] := by
  have hlegal : ¬(e.fbit 1 && !e.s.isParticle e.wv.lid) = true := by simpa using hkill
  have hcounted : ¬(!e.fbit 0 && e.s.drawing e.wid) = true := by
    rcases hdraw with hgiven | hidle
    · simp [hgiven]
    · simp [hidle]
  exact sends_of h (i := .smpl w) rfl fun _ =>
    (if_neg hlegal).trans ((if_neg hl).trans ((if_neg (not_not.2 ha)).trans (if_neg hcounted)))

end Lanes

/-! ### WNW (R459) -/

/-- A field of WNW's parameter block. -/
def wnwParam (e : Env) (o k : Nat) : Nat :=
  ofLE (((scratchBytes e.s (e.wv.bid e.wid) (e.uni e.w.a.toNat .b64) 64).drop o).take k)

/-- WNW of a block in the scratchpad that keeps its limits. -/
theorem wnw_sends {b : Block} (hb : e.s.block (e.wv.bid e.wid) = some b) (ha : e.uni e.w.a.toNat .b64 % 16 = 0)
    (hin : e.uni e.w.a.toNat .b64 + 64 ≤ b.scratchSize) (habs : b.absentAt [(e.uni e.w.a.toNat .b64, 64)] = none)
    (hdr : e.wv.draining e.fr = false) (hq : wnwParam e 0x18 4 % 16 = 0) (hout : wnwParam e 0x28 4 % 8 = 0)
    (hlim : wnwLimits (wnwParam e) b.scratchSize = true) :
    let q := wnwParam e
    SendsReq e (.wnw w) [8 + coreOfWave e.wid / 8] (some e.token)
      (.wnw (q 0 8) (q 8 4) (q 0xC 4) (q 0x10 4) (q 0x14 4) (q 0x18 4) (toSigned 32 (q 0x1C 4)) (q 0x20 4 == 1)
        (q 0x24 4) (q 0x28 4) (e.uni e.w.a.toNat .b64)) [] := by
  have hshare : spaceSize e 1 = b.scratchSize := (Matrix.spaceSize_block hb).1
  apply sends_of h (i := .wnw w) rfl
  refine fun htok => (if_neg (by simp [htok _ rfl])).trans ((if_neg (not_not.2 ha)).trans
    ((if_neg (Nat.not_lt.2 (hshare ▸ hin))).trans ((Waves.withScratch_goes hb habs (.inr hdr)).trans ?_)))
  have hfind : ([(wnwParam e 0x18 4, 16), (wnwParam e 0x28 4, 8)].find? fun p => p.1 % p.2 != 0) = none := by
    simp [hq, hout]
  have hkeeps : ¬(!wnwLimits (wnwParam e) (spaceSize e 1)) = true := by simp [hshare, hlim]
  unfold wnwParam at hfind hkeeps
  dsimp only
  rw [hfind]
  exact if_neg hkeeps

end Sends
end Sys2Proof.EngineWords
end

section
/-! Key-value requests of one lane (R450 to R456): KVA.new and KVA.app, by what their lane finds. -/

open Sys2Proof Sys2Proof.Machine
namespace Sys2Proof.EngineWords

/-! ### One lane (R452) -/

section Lane

variable {s : State} {r : EngReq} {d : Nat} {one : State → Nat × Nat × Nat → KvLane} {rest : List (Nat × Nat × Nat) → EngOp}
  {full : List (Nat × Nat × Nat)} {x : Nat × Nat × Nat}

theorem kvRun_gives {t : State} {y : Nat} (hx : one s x = .ok t (some y)) :
    kvRun r (some d) one rest full s [x] [] [] = .lands t (putAt d .n32 x.1 y) none := by
  simp only [kvRun, hx, List.nil_append]
  rfl

theorem kvRun_fails {reason addr : Nat} (hx : one s x = .bad reason addr) :
    kvRun r (some d) one rest full s [x] [] [] =
      .lands s [] (some (faultRec cKV (BitVec.ofNat 64 reason) (BitVec.ofNat 64 addr) (maskOf [x.1]))) := by
  simp only [kvRun, hx, List.nil_append, reasonTrap_one]

end Lane

section Requests

variable {s : State} {r : EngReq} {l d : Nat} (hgot : r.got = []) (hbad : r.bad = [])
include hgot hbad

/-! ### KVA.new -/

section New

variable {pool : Nat} (hop : r.op = .kvaNew [l] pool d)
include hop

theorem kvaNew_perform : s.perform r = kvRun r (some d) (fun s x => kvaNewLane s r x.2.1) (fun l => .kvaNew (l.map (·.1)) pool d)
    [(l, pool, 0)] s [(l, pool, 0)] [] [] := by
  unfold State.perform
  simp only [hop]
  unfold kvPerf
  simp only [hop, hgot, hbad]
  rfl

theorem kvaNew_gives {t : State} {y : Nat} (hx : kvaNewLane s r pool = .ok t (some y)) :
    s.perform r = .lands t (putAt d .n32 l y) none :=
  (kvaNew_perform hgot hbad hop).trans (kvRun_gives hx)

theorem kvaNew_fails {reason addr : Nat} (hx : kvaNewLane s r pool = .bad reason addr) :
    s.perform r = .lands s [] (some (faultRec cKV (BitVec.ofNat 64 reason) (BitVec.ofNat 64 addr) (maskOf [l]))) :=
  (kvaNew_perform hgot hbad hop).trans (kvRun_fails hx)

end New

/-! ### KVA.app -/

section App

variable {sid n : Nat} (hop : r.op = .kvaApp [(l, sid, n)] d)
include hop

theorem kvaApp_perform : s.perform r = kvRun r (some d) (fun s x => kvaAppLane s r x.2.1 x.2.2) (fun l => .kvaApp l d)
    [(l, sid, n)] s [(l, sid, n)] [] [] := by
  unfold State.perform
  simp only [hop]
  unfold kvPerf
  simp only [hop, hgot, hbad]

theorem kvaApp_gives {t : State} {y : Nat} (hx : kvaAppLane s r sid n = .ok t (some y)) :
    s.perform r = .lands t (putAt d .n32 l y) none :=
  (kvaApp_perform hgot hbad hop).trans (kvRun_gives hx)

theorem kvaApp_fails {reason addr : Nat} (hx : kvaAppLane s r sid n = .bad reason addr) :
    s.perform r = .lands s [] (some (faultRec cKV (BitVec.ofNat 64 reason) (BitVec.ofNat 64 addr) (maskOf [l]))) :=
  (kvaApp_perform hgot hbad hop).trans (kvRun_fails hx)

end App
end Requests

/-! ### What a lane of KVA.new finds (R450, R456) -/

section NewLane

variable {s : State} {r : EngReq} {pool : Nat}

/-- The die that KVA.new allocates on: the issuing wave's. -/
abbrev homeDie (r : EngReq) : Nat := dieOfCore (coreOfWave r.wid)

/-- The sequence that head n of the pool names. -/
def newId (r : EngReq) (pool n : Nat) : Nat := homeDie r * 2 ^ 30 + pool * 2 ^ 26 + n

/-- A new sequence stands empty, and the pool may ask for a batch (R453, log entry 50). -/
def created (s : State) (r : EngReq) (pool n : Nat) : State :=
  State.askBatch { s with seqs := Tbl.put s.seqs (newId r pool n) { owner := r.ctx, len := 0, pages := [] } } (homeDie r) pool

theorem kvaNewLane_noPool (h : 16 ≤ pool ∨ (s.pool (poolKey (homeDie r) pool)).valid = false ∨
    (s.pool (poolKey (homeDie r) pool)).owner ≠ r.ctx) : kvaNewLane s r pool = .bad 2 pool := by
  refine if_pos ?_
  simpa using h

variable (hpool : pool < 16) (hvalid : (s.pool (poolKey (homeDie r) pool)).valid = true)
  (howner : (s.pool (poolKey (homeDie r) pool)).owner = r.ctx)
include hpool hvalid howner

theorem kvaNewLane_owned : kvaNewLane s r pool = match s.freeHead (homeDie r) with
    | none => .ok s (some 0xFFFFFFFF)
    | some n => if !s.mapRoom (homeDie r) 64 then .ok s (some 0xFFFFFFFF) else .ok (created s r pool n) (some (newId r pool n)) := by
  refine (if_neg ?_).trans rfl
  simp [hvalid, howner, hpool]

theorem kvaNewLane_headless (hhead : s.freeHead (homeDie r) = none) : kvaNewLane s r pool = .ok s (some 0xFFFFFFFF) := by
  rw [kvaNewLane_owned hpool hvalid howner, hhead]

theorem kvaNewLane_creates {n : Nat} (hhead : s.freeHead (homeDie r) = some n) (hroom : s.mapRoom (homeDie r) 64 = true) :
    kvaNewLane s r pool = .ok (created s r pool n) (some (newId r pool n)) := by
  rw [kvaNewLane_owned hpool hvalid howner, hhead, hroom]
  rfl

end NewLane

/-! ### What a lane of KVA.app finds (R453, R456) -/

section AppLane

variable {s : State} {r : EngReq} {sid n : Nat} {q : Seq}

/-- The pages that n more positions need. -/
abbrev pagesNeeded (q : Seq) (n : Nat) : Nat := ceilDiv (q.len + n) 64 - ceilDiv q.len 64

/-- The last page is part-filled and shared, so that an append copies it (R456). -/
abbrev copiesLast (s : State) (sid : Nat) (q : Seq) : Prop :=
  q.len % 64 ≠ 0 ∧ 1 < Tbl.get s.refs (refKey (seqPool sid) (q.pages.getLastD 0)) 0

/-- The pool that the sequence takes its pages from. -/
abbrev seqPoolOf (s : State) (sid : Nat) : Pool := s.pool (poolKey (seqDie sid) (seqPool sid))

/-- The pages that stand on a die. -/
def pagesOn (pages : List Nat) (d : Nat) : Nat := (pages.filter fun x => pageDie x == d).length

/-- The map of every die has room for what it takes on: counts of its pages and, on the sequence's die, list blocks (R450). -/
def mapTakes (s : State) (die : Nat) (pages : List Nat) (blocks : Nat) : Bool :=
  (List.range 4).all fun d => (pagesOn pages d == 0 && d != die) ||
    s.mapRoom d (2 * pagesOn pages d + (if d = die then 256 * blocks else 0))

/-- Where the pages all stand on the sequence's die, only its map takes more. -/
theorem mapTakes_home {pages : List Nat} {die blocks : Nat} (hhere : ∀ x ∈ pages, pageDie x = die)
    (hroom : s.mapRoom die (2 * pages.length + 256 * blocks) = true) : mapTakes s die pages blocks = true := by
  unfold mapTakes
  rw [List.all_eq_true]
  intro d _
  by_cases hd : d = die
  · have hall : pagesOn pages d = pages.length := by
      rw [pagesOn, List.filter_eq_self.2 fun x hx => by simp [hhere x hx, hd]]
    rw [hall, hd, if_pos rfl, hroom, Bool.or_true]
  · have hnone : pagesOn pages d = 0 := by
      rw [pagesOn, List.filter_eq_nil_iff.2 fun x hx => by simpa [hhere x hx] using Ne.symm hd, List.length_nil]
    simp [hnone, hd]

/-- The sequence is n positions longer, its new pages have one reference each, and its pool may ask for a batch (R453, log entry 50). -/
def appended (s : State) (sid n : Nat) (q : Seq) (pages : List Nat) (k' : Pool) : State :=
  State.askBatch { s.modPool (poolKey (seqDie sid) (seqPool sid)) (fun _ => k') with
    refs := pages.foldl (fun t x => Tbl.put t (refKey (seqPool sid) x) 1) s.refs,
    seqs := Tbl.put s.seqs sid { q with len := q.len + n, pages := q.pages ++ pages } } (seqDie sid) (seqPool sid)

variable (hq : Tbl.find s.seqs sid = some q) (ho : q.owner = r.ctx)
include hq ho

theorem kvaAppLane_badCount (h : n = 0 ∨ 65535 < n ∨ 2 ^ 24 ≤ q.len + n) : kvaAppLane s r sid n = .bad 3 sid := by
  unfold kvaAppLane
  simp only [Numbers.liveSeq_owned hq ho]
  exact if_pos h

variable (hpos : n ≠ 0) (hmax : n ≤ 65535) (hlen : q.len + n < 2 ^ 24) (hcow : ¬copiesLast s sid q)
include hpos hmax hlen hcow

/-- An append that copies no page: it needs free pages, and room in the map. -/
theorem kvaAppLane_plain {pages : List Nat} {k' : Pool}
    (htake : Pool.take (seqDie sid) (pagesNeeded q n) (seqPoolOf s sid) [] = (pages, k')) : kvaAppLane s r sid n =
    if (seqPoolOf s sid).freePages < pagesNeeded q n then (if (seqPoolOf s sid).asking.isSome then .waits else .ok s (some 0xFFFFFFFF))
    else if !mapTakes s (seqDie sid) pages (listBlocks (q.pages.length + pagesNeeded q n) - listBlocks q.pages.length) then
      .ok s (some 0xFFFFFFFF)
    else .ok (appended s sid n q pages k') (some (q.len + n)) := by
  have hcount : ¬(n = 0 ∨ 65535 < n ∨ 2 ^ 24 ≤ q.len + n) := by omega
  have hcow : (decide (q.len % 64 ≠ 0) && decide (1 < Tbl.get s.refs (refKey (seqPool sid) (q.pages.getLastD 0)) 0)) = false := by
    simpa using hcow
  unfold kvaAppLane
  simp only [Numbers.liveSeq_owned hq ho, if_neg hcount, hcow, ofBool, Bool.false_eq_true, if_false, Nat.add_zero, htake]
  rfl

/-- Too few pages, and no batch asked for: the append fails (log entry 50). -/
theorem kvaAppLane_short (hfree : (seqPoolOf s sid).freePages < pagesNeeded q n) (hask : (seqPoolOf s sid).asking = none) :
    kvaAppLane s r sid n = .ok s (some 0xFFFFFFFF) :=
  (kvaAppLane_plain hq ho hpos hmax hlen hcow rfl).trans ((if_pos hfree).trans (if_neg (by simp [hask])))

theorem kvaAppLane_takes {pages : List Nat} {k' : Pool} (hfree : pagesNeeded q n ≤ (seqPoolOf s sid).freePages)
    (htake : Pool.take (seqDie sid) (pagesNeeded q n) (seqPoolOf s sid) [] = (pages, k')) (hhere : ∀ x ∈ pages, pageDie x = seqDie sid)
    (hroom : s.mapRoom (seqDie sid)
      (2 * pages.length + 256 * (listBlocks (q.pages.length + pagesNeeded q n) - listBlocks q.pages.length)) = true) :
    kvaAppLane s r sid n = .ok (appended s sid n q pages k') (some (q.len + n)) :=
  (kvaAppLane_plain hq ho hpos hmax hlen hcow htake).trans ((if_neg (Nat.not_lt.2 hfree)).trans
    (if_neg (by rw [mapTakes_home hhere hroom]; decide)))

end AppLane

end Sys2Proof.EngineWords
end

section
/-! WNW at its engine (R460): the rows that it writes. -/

open Sys2Proof Sys2Proof.Machine
namespace Sys2Proof.EngineWords

/-- Nothing stops the engine's read at the address, and it finds the bytes. -/
abbrev Finds (s : State) (r : EngReq) (va n : Nat) (l : Bytes) : Prop :=
  ∃ ls, placesOf s r .read va n = .ok ls ∧ engineHome s r ls = .ok s ∧ l = ls.map (s.homeByte r.ctx)

section Rows

variable (score : Nat → Int) (n : Nat) (thr : Int)

/-- The rows with their scores. -/
def scored (l : List Nat) : List (Nat × Int) := l.map fun i => (i, score i)

/-- The rows that reach the threshold. -/
def reaching : List Nat := (List.range n).filter fun i => decide (thr ≤ score i)

/-- Row j comes before row i in the order of top-k (R460). -/
abbrev comesBefore (j i : Nat) : Prop := score i < score j ∨ (score j = score i ∧ j < i)

theorem wnwBefore_scored (i j : Nat) : wnwBefore (j, score j) (i, score i) = decide (comesBefore score j i) := by
  simp [wnwBefore, beq_eq_decide]

/-- The rows that have fewer than k rows before them. -/
def topRows (l : List Nat) (k : Nat) : List Nat :=
  l.filter fun i => decide ((l.filter fun j => decide (comesBefore score j i)).length < k)

/-- The rows that are written: all that reach the threshold, or kcap of them. -/
def writtenRows (topk : Bool) (kcap : Nat) : List Nat :=
  if (reaching score n thr).length ≤ kcap then reaching score n thr
  else if topk then topRows score (reaching score n thr) kcap else (reaching score n thr).take kcap

theorem wnwOut_scored (topk : Bool) (kcap : Nat) : wnwOut (scored score (List.range n)) thr topk kcap =
    (scored score (writtenRows score n thr topk kcap), decide (kcap < (reaching score n thr).length)) := by
  have hreach : (scored score (List.range n)).filter (fun x => decide (thr ≤ x.2)) = scored score (reaching score n thr) := by
    rw [scored, List.filter_map]
    rfl
  have hlen : (scored score (reaching score n thr)).length = (reaching score n thr).length := List.length_map _
  unfold wnwOut writtenRows
  simp only [hreach, hlen]
  by_cases hfit : (reaching score n thr).length ≤ kcap
  · simp [hfit, Nat.not_lt.2 hfit]
  · rw [if_neg (by simpa using hfit), if_neg hfit]
    cases topk with
    | false => simp [scored, List.map_take]
    | true =>
      simp only [scored, topRows, List.filter_map, List.length_map, Function.comp_def, if_true, wnwBefore_scored]

/-- What R460 says of the written rows determines them. -/
theorem writtenRows_eq {topk : Bool} {kcap : Nat} {out : List Nat} (hsorted : out.Pairwise (· < ·))
    (hout : if (reaching score n thr).length ≤ kcap then out = reaching score n thr
      else if topk then ∀ i, i ∈ out ↔ i ∈ reaching score n thr ∧
        ((reaching score n thr).filter fun j => decide (comesBefore score j i)).length < kcap
      else out = (reaching score n thr).take kcap) :
    writtenRows score n thr topk kcap = out := by
  unfold writtenRows
  split at hout
  · next hfit => rw [if_pos hfit, hout]
  · next hfit =>
    rw [if_neg hfit]
    cases topk with
    | false => exact hout.symm
    | true =>
      refine eq_of_sorted ((List.pairwise_lt_range.filter _).filter _) hsorted fun i => (hout i).trans ?_
      rw [if_pos rfl, topRows, List.mem_filter, decide_eq_true_iff]

end Rows

/-- WNW whose block and rows are at home writes the chosen rows with their scores, then their number and OVER. -/
theorem wnw_writes {s : State} {r : EngReq} {keys pitch nkeys pos0 dim qoff : Nat} {thr : Int} {topk : Bool}
    {kcap outoff blk bid : Nat} {b : Block} {key : Nat → Bytes}
    (hop : r.op = .wnw keys pitch nkeys pos0 dim qoff thr topk kcap outoff blk) (hb : s.reqBlock r = some (bid, b))
    (habs : b.absentAt [(qoff, dim), (outoff, 8 * kcap), (blk, 64)] = none)
    (hkey : ∀ i, i < nkeys → Finds s r ((keys + i * pitch) % 2 ^ 64) dim (key i)) :
    let score (i : Nat) : Int := wnwScore (scratchBytes s bid qoff dim) (key i)
    let S := reaching score nkeys thr
    ∀ out : List Nat, out.Pairwise (· < ·) →
      (if S.length ≤ kcap then out = S
       else if topk then ∀ i, i ∈ out ↔ i ∈ S ∧ (S.filter fun j => decide (comesBefore score j i)).length < kcap
       else out = S.take kcap) →
      s.perform r = .lands ((s.putFor r bid outoff (out.flatMap fun i => leBytes 4 (pos0 + i) ++ leBytes 4 (wrap 32 (score i)))).putFor r
        bid (blk + 0x2C) (leBytes 4 out.length ++ leBytes 4 (if S.length ≤ kcap then 0 else 1))) [] none := by
  intro score S out hsorted hout
  have hrows : wnwOut ([] ++ (List.range nkeys).map fun j => (0 + j, wnwScore (scratchBytes s bid qoff dim) (key (0 + j)))) thr topk kcap =
      (scored score out, decide (kcap < S.length)) := by
    simp only [List.nil_append, Nat.zero_add]
    exact (wnwOut_scored score nkeys thr topk kcap).trans (by rw [writtenRows_eq score nkeys thr hsorted hout])
  have hover : ofBool (decide (kcap < S.length)) = if S.length ≤ kcap then 0 else 1 := by
    by_cases hfit : S.length ≤ kcap
    · simp [ofBool, hfit, Nat.not_lt.2 hfit]
    · simp [ofBool, hfit, Nat.not_le.1 hfit]
  unfold State.perform
  simp only [hop]
  unfold wnwPerf
  simp only [hop]
  rw [touch_present hb habs, wnwRows_does r keys pitch dim _ _ s key nkeys 0 [] fun j _ hj => hkey j (by omega), hrows]
  simp only [hover, scored, List.flatMap_map, List.length_map]

end Sys2Proof.EngineWords
end

section
/-! GMK and GSTP of one lane (R463 to R467). -/

open Sys2Proof Sys2Proof.Machine
namespace Sys2Proof.EngineWords

/-! ### GMK: the mask of one lane (R466) -/

section Lane

variable {s : State} {r : EngReq} {g : Grammar} {va : Nat} {rec_ : Bytes} (hrec : Finds s r va autoBytes rec_)
  (body : State → Bytes → Perf)
include hrec

/-- An automaton that has ended, or an invalid one, allows no token. -/
theorem gmkLane_ended (hend : (automatonOf rec_).status ≠ 0 ∨ (automatonOf rec_).invalid g = true) :
    gmkLane s r g va body = body s (List.replicate (g.vocab / 8) 0) := by
  unfold gmkLane
  rw [readAt_reads hrec]
  exact if_pos (by simpa using hend)

variable (hrun : (automatonOf rec_).status = 0) (hval : (automatonOf rec_).invalid g = false)
  {pair : Bytes} (hpair : Finds s r (g.pairAt (automatonOf rec_)) 16 pair)
include hrun hval hpair

theorem gmkLane_runs : gmkLane s r g va body =
    if ofLE (pair.take 8) % 4 ≠ 0 then .held s cPROT 2 (g.pairAt (automatonOf rec_))
    else readAt s r (ofLE (pair.take 8)) (g.vocab / 8) (fun c v => .held s c 0 v) body := by
  unfold gmkLane
  rw [readAt_reads hrec]
  exact (if_neg (by simp [hrun, hval])).trans (readAt_reads hpair)

theorem gmkLane_misaligned (hmask : ofLE (pair.take 8) % 4 ≠ 0) :
    gmkLane s r g va body = .held s cPROT 2 (g.pairAt (automatonOf rec_)) :=
  (gmkLane_runs hrec body hrun hval hpair).trans (if_pos hmask)

/-- The mask of a running automaton is copied from the table. -/
theorem gmkLane_copies {bits : Bytes} (hmask : ofLE (pair.take 8) % 4 = 0)
    (hbits : Finds s r (ofLE (pair.take 8)) (g.vocab / 8) bits) : gmkLane s r g va body = body s bits :=
  (gmkLane_runs hrec body hrun hval hpair).trans ((if_neg (not_not.2 hmask)).trans (readAt_reads hbits))

end Lane

section Masks

variable {s : State} {r : EngReq} {off desc pitch l va bid : Nat} {b : Block} {raw : Bytes} {g : Grammar}
  (hop : r.op = .gmk off desc pitch [(l, va)]) (halign : desc % 64 = 0) (hraw : Finds s r desc 64 raw) (hg : grammarOf raw = some g)
include hop halign hraw hg

theorem gmk_perform : s.perform r = if pitch < g.vocab / 8 then .held s cALIGN 0 pitch
    else touch s r [(off + l * pitch, g.vocab / 8)] fun bid _ => gmkRun r g off pitch bid s [(l, va)] := by
  unfold State.perform
  simp only [hop]
  unfold gmkPerf
  simp only [hop]
  rw [if_neg (not_not.2 halign), readAt_reads hraw]
  simp only [hg]
  rfl

theorem gmk_short (hpitch : pitch < g.vocab / 8) : s.perform r = .held s cALIGN 0 pitch :=
  (gmk_perform hop halign hraw hg).trans (if_pos hpitch)

variable (hpitch : g.vocab / 8 ≤ pitch) (hb : s.reqBlock r = some (bid, b)) (habs : b.absentAt [(off + l * pitch, g.vocab / 8)] = none)
include hpitch hb habs

theorem gmk_runs : s.perform r = gmkRun r g off pitch bid s [(l, va)] :=
  (gmk_perform hop halign hraw hg).trans ((if_neg (Nat.not_lt.2 hpitch)).trans (touch_present hb habs))

/-- A lane that ends its request. -/
theorem gmk_fails {p : Perf} (hlane : ∀ body, gmkLane s r g va body = p) : s.perform r = p := by
  refine (gmk_runs hop halign hraw hg hpitch hb habs).trans ?_
  unfold gmkRun
  exact hlane _

/-- A lane whose mask is known has it written into its area. -/
theorem gmk_masks {mask : Bytes} (hblock : s.block bid = some b) (hin : off + l * pitch + g.vocab / 8 ≤ b.scratchSize)
    (hlane : ∀ body, gmkLane s r g va body = body s mask) :
    s.perform r = .lands (s.putFor r bid (off + l * pitch) mask) [] none := by
  refine (gmk_runs hop halign hraw hg hpitch hb habs).trans ?_
  unfold gmkRun
  rw [hlane, hblock]
  exact if_neg (Nat.not_lt.2 hin)

end Masks

/-! ### GSTP: what a transition makes of a record (R466) -/

section Take

variable {a : Automaton} {g : Grammar} {x : Nat}

/-- The transition writes a stack symbol. -/
abbrev writesSym (x : Nat) : Prop := tAct x = 1 ∨ tAct x = 3

theorem malformed_iff : g.malformed x = true ↔ bit x 41 = true ∨ g.nstate ≤ tNext x ∨ (writesSym x ∧ g.nsym ≤ tSym x) := by
  simp [Grammar.malformed, or_assoc]

/-- The depth at which the transition works. -/
def workDepth (a : Automaton) (x : Nat) : Nat := if tAct x = 1 then a.depth else a.depth - 1

/-- The record after a transition that is allowed. -/
def stepped (a : Automaton) (x : Nat) : Automaton := { a with
  state := tNext x, status := if bit x 40 then 1 else 0
  depth := if tAct x = 1 then a.depth + 1 else if tAct x = 2 then a.depth - 1 else a.depth
  stack := if writesSym x then a.stack.set (workDepth a x) (tSym x) else a.stack }

theorem tAct_lt (x : Nat) : tAct x < 4 := by
  unfold tAct bits
  omega

theorem take_malformed (h : g.malformed x = true) : a.take g x = (a.err 5, none) := if_pos h

variable (hform : g.malformed x = false)
include hform

theorem take_overflow (hpush : tAct x = 1) (hfull : a.depth = 256) : a.take g x = (a.err 2, none) := by
  unfold Automaton.take
  rw [if_neg (by simp [hform]), if_pos ⟨hpush, hfull⟩]

theorem take_underflow (hact : 2 ≤ tAct x) (hempty : a.depth = 0) : a.take g x = (a.err 3, none) := by
  unfold Automaton.take
  rw [if_neg (by simp [hform]), if_neg (by omega), if_pos ⟨hact, hempty⟩]

theorem take_steps (hstatus : a.status = 0) (hpush : ¬(tAct x = 1 ∧ a.depth = 256)) (hpop : ¬(2 ≤ tAct x ∧ a.depth = 0)) :
    a.take g x = (stepped a x, if writesSym x then some (workDepth a x) else none) := by
  unfold Automaton.take
  rw [if_neg (by simp [hform]), if_neg hpush, if_neg hpop]
  have hlt := tAct_lt x
  unfold stepped workDepth writesSym
  rw [hstatus]
  interval_cases tAct x <;> rfl

end Take

/-- Writing back such a record: its head, and the stack entry that has changed. -/
theorem stepWrite_stepped {s u v : State} {r : EngReq} {va : Nat} {a : Automaton} {x : Nat} (hu : goesHome r s va (stepped a x).headBytes u)
    (hv : if writesSym x then goesHome r u (va + 0x10 + 2 * workDepth a x) (leBytes 2 ((stepped a x).stack.getD (workDepth a x) 0)) v
      else v = u) :
    stepWrite s r va (stepped a x) (if writesSym x then some (workDepth a x) else none) ((stepped a x).status == 2) =
      .ok v (stepped a x) false := by
  have hstatus : ((stepped a x).status == 2) = false := by
    change ((if bit x 40 then 1 else 0 : Nat) == 2) = false
    cases bit x 40 <;> rfl
  rw [hstatus]
  by_cases hsym : writesSym x
  · rw [if_pos hsym] at hv ⊢
    exact stepWrite_goes2 hu hv
  · rw [if_neg hsym] at hv ⊢
    exact hv ▸ stepWrite_goes hu

/-! ### GSTP: one lane -/

section Step

variable {s : State} {r : EngReq} {g : Grammar} {va tok : Nat} {rec_ : Bytes} (hrec : Finds s r va autoBytes rec_)
include hrec

theorem stepLane_ended (hend : (automatonOf rec_).status ≠ 0) : stepLane s r g va tok = .ok s (automatonOf rec_) false := by
  unfold stepLane
  rw [stepRead_reads hrec]
  exact if_pos hend

variable (hrun : (automatonOf rec_).status = 0)
include hrun

theorem stepLane_invalid (hinv : (automatonOf rec_).invalid g = true) :
    stepLane s r g va tok = stepWrite s r va ((automatonOf rec_).err 4) none true := by
  unfold stepLane
  rw [stepRead_reads hrec]
  exact (if_neg (not_not.2 hrun)).trans (if_pos hinv)

variable (hval : (automatonOf rec_).invalid g = false) {pair : Bytes} (hpair : Finds s r (g.pairAt (automatonOf rec_)) 16 pair)
include hval hpair

/-- The transitions of a pair. -/
abbrev firstOf (pair : Bytes) : Nat := ofLE ((pair.drop 8).take 4)
abbrev lastOf (pair : Bytes) : Nat := firstOf pair + ofLE ((pair.drop 12).take 4)

/-- The end of the search: the lane at the first transition that is not below the token. -/
def stepFound (s : State) (r : EngReq) (g : Grammar) (va tok : Nat) (a : Automaton) (last k : Nat) : StepLane :=
  if g.vocab ≤ tok || k == last then stepWrite s r va (a.err 1) none true
  else stepRead s r ((g.trans + 8 * k) % 2 ^ 64) 8 fun s raw =>
    if tToken (ofLE raw) ≠ tok then stepWrite s r va (a.err 1) none true
    else stepWrite s r va (a.take g (ofLE raw)).1 (a.take g (ofLE raw)).2 ((a.take g (ofLE raw)).1.status == 2)

theorem stepLane_runs : stepLane s r g va tok =
    stepSearch r g tok (fun s k => stepFound s r g va tok (automatonOf rec_) (lastOf pair) k) 33 s (firstOf pair) (lastOf pair) := by
  unfold stepLane
  rw [stepRead_reads hrec]
  refine (if_neg (not_not.2 hrun)).trans ((if_neg (by simp [hval])).trans ?_)
  rw [stepRead_reads hpair]
  rfl

variable {tr : Nat → Nat}
  (htr : ∀ m, firstOf pair ≤ m → m < lastOf pair → ∃ b, Finds s r ((g.trans + 8 * m) % 2 ^ 64) 8 b ∧ ofLE b = tr m)
  (hsorted : ∀ m m', firstOf pair ≤ m → m ≤ m' → m' < lastOf pair → tToken (tr m) ≤ tToken (tr m'))
include htr hsorted

theorem stepLane_searches : ∃ k, firstOf pair ≤ k ∧ k ≤ lastOf pair ∧ (∀ m, firstOf pair ≤ m → m < k → tToken (tr m) < tok) ∧
    (∀ m, k ≤ m → m < lastOf pair → tok ≤ tToken (tr m)) ∧
    stepLane s r g va tok = stepFound s r g va tok (automatonOf rec_) (lastOf pair) k := by
  have hspan : lastOf pair - firstOf pair = ofLE ((pair.drop 12).take 4) := Nat.add_sub_cancel_left ..
  have hcount : ofLE ((pair.drop 12).take 4) < 2 ^ 32 :=
    (ofLE_lt _).trans_le (Nat.pow_le_pow_right (by decide) (List.length_take_le 4 _) : _ ≤ 256 ^ 4)
  obtain ⟨k, hfirst, hlast, hbelow, habove, hsearch⟩ := stepSearch_does s r g tok
    (fun s k => stepFound s r g va tok (automatonOf rec_) (lastOf pair) k) tr 33 (firstOf pair) (lastOf pair)
    (Nat.le_add_right ..) (by omega) (fun m h1 h2 => htr m h1 h2) hsorted
  exact ⟨k, hfirst, hlast, hbelow, habove, (stepLane_runs hrec hrun hval hpair).trans hsearch⟩

/-- A token outside the vocabulary, or without a transition. -/
theorem stepLane_unmatched (hno : g.vocab ≤ tok ∨ ∀ m, firstOf pair ≤ m → m < lastOf pair → tToken (tr m) ≠ tok) :
    stepLane s r g va tok = stepWrite s r va ((automatonOf rec_).err 1) none true := by
  obtain ⟨k, hfirst, hlast, -, -, hstep⟩ := stepLane_searches (tok := tok) hrec hrun hval hpair htr hsorted
  refine hstep.trans ?_
  unfold stepFound
  by_cases hout : g.vocab ≤ tok ∨ k = lastOf pair
  · exact if_pos (by simpa using hout)
  · obtain ⟨hvocab, hk⟩ := not_or.1 hout
    obtain ⟨b, hb, hword⟩ := htr k hfirst (by omega)
    rw [if_neg (by simpa using hout), stepRead_reads hb, hword]
    exact if_pos (hno.resolve_left hvocab k hfirst (by omega))

/-- The first transition of the token is taken. -/
theorem stepLane_matched {m : Nat} (hvocab : tok < g.vocab) (hfirst : firstOf pair ≤ m) (hlast : m < lastOf pair)
    (hm : tToken (tr m) = tok) (hmin : ∀ m', firstOf pair ≤ m' → m' < m → tToken (tr m') ≠ tok) :
    stepLane s r g va tok = stepWrite s r va ((automatonOf rec_).take g (tr m)).1 ((automatonOf rec_).take g (tr m)).2
      (((automatonOf rec_).take g (tr m)).1.status == 2) := by
  obtain ⟨k, hk, -, hbelow, habove, hstep⟩ := stepLane_searches (tok := tok) hrec hrun hval hpair htr hsorted
  have hle : k ≤ m := by
    by_contra hlt
    exact absurd hm (hbelow m hfirst (by omega)).ne
  have heq : k = m := by
    by_contra hne
    have hlow := habove k (Nat.le_refl k) (by omega)
    have hup := hsorted k m hk hle hlast
    exact hmin k hk (by omega) (by omega)
  subst heq
  obtain ⟨b, hb, hword⟩ := htr k hk hlast
  refine hstep.trans ?_
  unfold stepFound
  rw [if_neg (by simp; omega), stepRead_reads hb, hword]
  exact if_neg (not_not.2 hm)

end Step

end Sys2Proof.EngineWords
end

section
/-! SMPL of one lane (R468 to R470, R515). -/

open Sys2Proof Sys2Proof.Machine
namespace Sys2Proof.EngineWords

/-! ### The lane's arrays and bits -/

section Token

variable {s : State} {r : EngReq} {bid : Nat} {p : SampleBlock} {given : Bool} {l : Nat}

/-- The bytes of an array. -/
abbrev arrayAt (s : State) (bid : Nat) (x : Nat × Nat) : Bytes := scratchBytes s bid x.1 x.2

abbrev scoresOf (p : SampleBlock) (l : Nat) : Nat × Nat := (p.soff + l * p.spitch, 4 * p.nv)
abbrev masksOf (p : SampleBlock) (l : Nat) : Nat × Nat := (p.moff + l * p.mpitch, ceilDiv p.nv 8)
abbrev bitsOf (p : SampleBlock) (l : Nat) : Nat × Nat := (p.boff + l * p.bpitch, 4 * p.nv)

theorem arrays_eq : p.arrays given l = if given then [scoresOf p l, masksOf p l, bitsOf p l] else [scoresOf p l, masksOf p l] := by
  cases given <;> rfl

/-- The 24 bits of a token: given, or drawn by the wave's key (R470). -/
def tokenBits (s : State) (r : EngReq) (w : Wave) (bid : Nat) (p : SampleBlock) (given : Bool) (l draw t : Nat) : Nat :=
  if given then ofLE (((arrayAt s bid (bitsOf p l)).drop (4 * t)).take 4) % 2 ^ 24
  else randBits (drawKey s r.wid w).1 (BitVec.ofNat 32 w.lid) (drawKey s r.wid w).2 w.waveIdx l (BitVec.ofNat 32 draw) t

/-- The lane's token is chosen from its arrays. -/
theorem laneToken_eq {w : Wave} (hw : s.wave r.wid = some w) (draw : Nat) : laneToken s r bid p given l (BitVec.ofNat 32 draw) =
    pickToken p.nv (arrayAt s bid (scoresOf p l)) (arrayAt s bid (masksOf p l)) (tokenBits s r w bid p given l draw) := by
  unfold laneToken tokenBits
  simp only [hw]
  cases given <;> rfl

end Token

/-! ### The lane's result (R469) -/

section Run

variable {s : State} {r : EngReq} {bid : Nat} {p : SampleBlock} {d l handle draw : Nat} {given kill : Bool}

/-- The lane's choice. -/
abbrev choice (s : State) (r : EngReq) (bid : Nat) (p : SampleBlock) (given : Bool) (l draw : Nat) : Pick :=
  laneToken s r bid p given l (BitVec.ofNat 32 draw)

/-- The registers that a lane of SMPL writes. -/
def tokenWrites (d l : Nat) (nan : Bool) (token status : Nat) : List RegWrite :=
  [.v d l (BitVec.ofNat 32 token), .v (d + 1) l (BitVec.ofNat 32 ((if nan then 2 else 0) + status))]

theorem smplRun_picks {t : Nat} {f : Bool} {y : Val} (hbest : (choice s r bid p given l draw).best = some (t, f, y)) :
    smplRun r bid p d given kill [] s [(l, handle, draw)] [] [] =
      .lands s (tokenWrites d l (choice s r bid p given l draw).nan t (if f then 4 else 0)) none := by
  simp only [smplRun, hbest, Option.isNone_some, Bool.and_false, Bool.false_eq_true, if_false, Pick.result]
  cases (choice s r bid p given l draw).nan <;> cases f <;> rfl

variable (hbest : (choice s r bid p given l draw).best = none)
include hbest

theorem smplRun_none : smplRun r bid p d given false [] s [(l, handle, draw)] [] [] =
    .lands s (tokenWrites d l (choice s r bid p given l draw).nan 0xFFFFFFFF 1) none := by
  simp only [smplRun, hbest, Bool.false_and, Bool.false_eq_true, if_false, Pick.result]
  cases (choice s r bid p given l draw).nan <;> rfl

theorem smplRun_kills (hgood : s.handleBad r.lid handle true = none) :
    smplRun r bid p d given true [] s [(l, handle, draw)] [] [] =
      .lands (s.setWeight handle 0xFF800000) (tokenWrites d l (choice s r bid p given l draw).nan 0xFFFFFFFF 9) none := by
  simp only [smplRun, hbest, hgood, Option.isNone_none, Bool.and_self, if_true, Pick.result]
  cases (choice s r bid p given l draw).nan <;> rfl

theorem smplRun_badHandle {n : Nat} (hbad : s.handleBad r.lid handle true = some n) :
    smplRun r bid p d given true [] s [(l, handle, draw)] [] [] =
      .lands s [] (some (faultRec cPOP (BitVec.ofNat 64 n) (BitVec.ofNat 64 handle) (maskOf [l]))) := by
  simp only [smplRun, hbest, hbad, Option.isNone_none, Bool.and_self, if_true, List.nil_append]
  exact congrArg _ (reasonTrap_one ..)

end Run

/-! ### The choice as a fold over the tokens (R469) -/

/-- The lane's choice, from no token, step by step. -/
theorem choice_steps {s : State} {r : EngReq} {bid : Nat} {p : SampleBlock} {given : Bool} {l draw : Nat} {w : Wave}
    (hw : s.wave r.wid = some w) :
    let legal (t : Nat) : Bool := bit ((arrayAt s bid (masksOf p l)).getD (t / 8) 0).toNat (t % 8)
    let score (t : Nat) : Nat := ofLE (((arrayAt s bid (scoresOf p l)).drop (4 * t)).take 4)
    choice s r bid p given l draw = (List.range p.nv).foldl
      (fun q t => if legal t then q.step t (score t) (tokenBits s r w bid p given l draw t) else q) { best := none, nan := false } :=
  laneToken_eq hw draw

/-! ### The request -/

/-- SMPL of a block and arrays that keep their limits runs its lane. -/
theorem smpl_runs {s : State} {r : EngReq} {off d l handle draw bid : Nat} {given kill : Bool} {b : Block} {p : SampleBlock}
    (hop : r.op = .smpl off d [(l, handle, draw)] given kill) (hb : s.reqBlock r = some (bid, b)) (hin : off + 32 ≤ b.scratchSize)
    (habs : b.absentAt [(off, 32)] = none) (hp : sampleBlock (scratchBytes s bid off 32) = p)
    (halign : p.soff % 4 = 0 ∧ p.spitch % 4 = 0 ∧ p.boff % 4 = 0 ∧ p.bpitch % 4 = 0)
    (hnv : 1 ≤ p.nv) (hmax : p.nv ≤ 524288) (hres : p.reserved = 0) (hshare : ∀ x ∈ p.arrays given l, x.1 + x.2 ≤ b.scratchSize)
    (harr : b.absentAt (p.arrays given l) = none) :
    s.perform r = smplRun r bid p d given kill [] s [(l, handle, draw)] [] [] := by
  have hfind : ([p.soff, p.spitch, p.boff, p.bpitch].find? fun x => x % 4 != 0) = none := by
    simpa using halign
  have hpast : ((p.arrays given l).find? fun a => decide (a.1 + a.2 > b.scratchSize)) = none := by
    simpa [List.find?_eq_none] using hshare
  unfold State.perform
  simp only [hop]
  unfold smplPerf
  simp only [hop, hb]
  rw [if_neg (Nat.not_lt.2 hin), touch_present hb habs, hp]
  simp only [hfind]
  rw [if_neg (by omega)]
  simp only [hpast, List.filterMap_cons, List.filterMap_nil, Option.map_none, Option.isNone_none, List.filter_cons, List.filter_nil,
    if_true, List.flatMap_cons, List.flatMap_nil, List.append_nil]
  exact touch_present hb harr

end Sys2Proof.EngineWords
end

section
/-! The engine words and the requests that they send. -/

open Sys2Proof Sys2Proof.Machine
namespace Sys2Proof.EngineWords

/-! ### The outcomes of a lane of GSTP (R466) -/

section Outcomes

variable {s u : State} {r : EngReq} {desc l va tok d : Nat} {trp : Bool} {raw : Bytes} {g : Grammar}
  (hop : r.op = .gstp desc [(l, va, tok)] d trp) (hd : desc % 64 = 0) (hraw : Finds s r desc 64 raw) (hg : grammarOf raw = some g)
include hop hd hraw hg

/-- A lane that enters ERROR, once its record is written. -/
theorem gstp_errs {a : Automaton} {n : Nat} (hl : stepLane s r g va tok = stepWrite s r va (a.err n) none true)
    (hu : goesHome r s va (a.err n).headBytes u) :
    s.perform r = .lands u (putAt d .b64 l (a.err n).words)
      (if trp && true then some (reportRec 0x14 (BitVec.ofNat 64 (a.err n).reason) (maskOf [l])) else none) :=
  gstp_one hop hd hraw hg (hl.trans (stepWrite_goes hu))

end Outcomes

/-- Settles O46: a word whose checks pass is one request, and a request whose pages are at home lands with what its lane finds. -/
theorem engineRequests : Obligations.EngineRequests := by
  unfold Obligations.EngineRequests
  refine ⟨fun w s e h => ?_, fun r s hr ht => ?_⟩
  · intro core die d kv gr two one n
    have engines (l : List Nat) : kv l = kvEngines l := (kvEngines_eq l).symm
    refine ⟨fun hl => ?_, ?_, idle_words h⟩
    · have hl : e.lanes.isEmpty ≠ true := by simpa using hl
      rw [engines, engines]
      exact ⟨kvt_sends h hl, kvaNew_sends h hl, kvaApp_sends h hl, kvc_sends h hl, kvf_sends h hl, gstp_sends h hl, gmk_sends h hl,
        smpl_sends h hl⟩
    · intro b hb ha hin habs hdr q hq hout hlim
      exact wnw_sends h hb ha hin habs hdr hq hout hlim
  · intro done reads
    have lands {t : State} {ws : List RegWrite} {trap : Option TrapRec} (hp : s.perform r = .lands t ws trap) : done t ws trap :=
      request_lands hr ht hp
    refine ⟨?_, ?_, ?_, ?_, ?_, ?_⟩
    -- KVA.new
    · intro l pool d hop hgot hbad die k
      refine ⟨fun hno => lands (kvaNew_fails hgot hbad hop (kvaNewLane_noPool hno)), fun hpool hvalid howner => ⟨fun hhead => ?_,
        fun n hhead hroom => ?_⟩⟩
      · exact lands (kvaNew_gives hgot hbad hop (kvaNewLane_headless hpool hvalid howner hhead))
      · exact lands (kvaNew_gives hgot hbad hop (kvaNewLane_creates hpool hvalid howner hhead hroom))
    -- KVA.app
    · intro l sid n d q hop hgot hbad hq ho die p k need cow
      refine ⟨fun hcount => lands (kvaApp_fails hgot hbad hop (kvaAppLane_badCount hq ho hcount)), fun hpos hmax hlen hcow => ⟨?_, ?_⟩⟩
      · exact fun hfree hask => lands (kvaApp_gives hgot hbad hop (kvaAppLane_short hq ho hpos hmax hlen hcow hfree hask))
      · exact fun pages k' hfree htake hhere hroom _ =>
          lands (kvaApp_gives hgot hbad hop (kvaAppLane_takes hq ho hpos hmax hlen hcow hfree htake hhere hroom))
    -- WNW
    · intro keys pitch nkeys pos0 dim qoff thr topk kcap outoff blk bid b key hop hb habs hkey score S before out hsorted hout
      exact lands (wnw_writes hop hb habs hkey out hsorted hout)
    -- GMK
    · intro off desc pitch l va bid b raw g rec_ hop hb hblock halign hraw hg hrec habs hin a writes
      refine ⟨fun hpitch => request_held hr ht (gmk_short hop halign hraw hg hpitch), fun hpitch => ?_⟩
      have masks {mask : Bytes} (hlane : ∀ body, gmkLane s r g va body = body s mask) : writes mask :=
        lands (gmk_masks hop halign hraw hg hpitch hb habs hblock hin hlane)
      refine ⟨fun hend => masks fun body => gmkLane_ended hrec body hend, fun hrun hval pair hpair => ⟨fun hmask => ?_,
        fun hmask bits hbits => masks fun body => gmkLane_copies hrec body hrun hval hpair hmask hbits⟩⟩
      exact request_held hr ht (gmk_fails hop halign hraw hg hpitch hb habs fun body => gmkLane_misaligned hrec body hrun hval hpair hmask)
    -- GSTP
    · intro writes desc l va tok d trp raw g rec_ hop halign hraw hg hrec a word ends err
      have errs {n : Nat} (hl : stepLane s r g va tok = stepWrite s r va (a.err n) none true) : err n :=
        fun u hu => lands (gstp_errs hop halign hraw hg hl hu)
      refine ⟨fun hend => lands (gstp_one hop halign hraw hg (stepLane_ended hrec hend)),
        fun hrun hinv => errs (stepLane_invalid hrec hrun hinv), fun hrun hval pair hpair => ?_⟩
      intro first last tr htr hsorted
      refine ⟨fun hno => errs (stepLane_unmatched hrec hrun hval hpair htr hsorted hno), ?_⟩
      intro m hvocab hfirst hlast hm hmin x push sym malformed
      have hstep := stepLane_matched hrec hrun hval hpair htr hsorted hvocab hfirst hlast hm hmin
      have fails {n : Nat} (htake : a.take g x = (a.err n, none)) : err n := errs (hstep.trans (by rw [htake]; rfl))
      have hform (hno : ¬malformed) : g.malformed x = false := Bool.eq_false_iff.2 fun hbad => hno (malformed_iff.1 hbad)
      refine ⟨fun hbad => fails (take_malformed (malformed_iff.2 hbad)), fun hno hpush hfull => fails (take_overflow (hform hno) hpush hfull),
        fun hno hact hempty => fails (take_underflow (hform hno) hact hempty), fun hno hover hunder => ?_⟩
      intro n b u v hu hv
      refine lands (gstp_one hop halign hraw hg (hstep.trans ?_))
      rw [take_steps (hform hno) hrun hover hunder]
      exact stepWrite_stepped hu hv
    -- SMPL
    · intro off d l handle draw given kill bid b w hop hb hw hin habs p scores masks bits_ arrays hsoff hspitch hboff hbpitch hnv hmax hres
        hshare harr at_ legal rand c result
      have hruns := smpl_runs (p := p) hop hb hin habs rfl ⟨hsoff, hspitch, hboff, hbpitch⟩ hnv hmax hres
        (by rw [arrays_eq]; exact hshare) (by rw [arrays_eq]; exact harr)
      have hc : ((choice s r bid p given l draw).best, (choice s r bid p given l draw).nan) = c := by
        rw [choice_steps hw]
        exact choose_eq legal _ rand (List.range p.nv) _
      have hbest : (choice s r bid p given l draw).best = c.1 := congrArg Prod.fst hc
      have hnan : (choice s r bid p given l draw).nan = c.2 := congrArg Prod.snd hc
      have written (token status : Nat) : tokenWrites d l (choice s r bid p given l draw).nan token status = result token status :=
        congrArg (fun nan => tokenWrites d l nan token status) hnan
      refine ⟨fun t f y hpick => ?_, fun hnone hkill => ?_, fun hnone hkill hgood => ?_, fun n hnone hkill hbad => ?_⟩
      · exact lands (written t _ ▸ hruns.trans (smplRun_picks (hbest.trans hpick)))
      · subst hkill
        exact lands (written .. ▸ hruns.trans (smplRun_none (hbest.trans hnone)))
      · subst hkill
        exact lands (written .. ▸ hruns.trans (smplRun_kills (hbest.trans hnone) hgood))
      · subst hkill
        exact lands (hruns.trans (smplRun_badHandle (hbest.trans hnone) hbad))

end Sys2Proof.EngineWords
end

section
/-! Proofs of family 16: the windows of a host function (R477, R478, R501, R540, R543, R544, R549, R553, R561). A function that is
served has its write performed, so each write is the choice that its register makes. -/

open Sys2Proof Sys2Proof.Machine
namespace Sys2Proof.HostWindows

/-- A write whose outcome is `t` where `P` holds, and the same state elsewhere. -/
theorem acts_by {s t u : State} {i : Instr} {P : Prop} (h : exec i s = .next u) (hyes : P → u = t) (hno : ¬P → u = s) : Acts s i P t :=
  ⟨fun p => h.trans (congrArg _ (hyes p)), fun p => h.trans (congrArg _ (hno p))⟩

/-! ### VALID of a descriptor's word 0, set or cleared by force (R561) -/

section Words

variable (val : W64)

theorem or_one_bits : bits (val ||| 1).toNat 63 12 = bits val.toNat 63 12 ∧ (val ||| 1).toNat % 2 = 1 := by
  constructor
  · simp [bits, Nat.shiftRight_or_distrib]
  · simp [Nat.or_mod_two_eq_one]

theorem or_one_odd (h : val.toNat % 2 = 1) : val ||| 1 = val := by
  refine BitVec.eq_of_getLsbD_eq fun i hi => ?_
  by_cases h0 : i = 0
  · subst h0
    simp [BitVec.getLsbD, h]
  · simp [h0]

theorem evenMask_bit {i : Nat} (hi : i < 64) : (0xFFFFFFFFFFFFFFFE : W64).getLsbD i = !decide (i = 0) := by
  rw [show (0xFFFFFFFFFFFFFFFE : W64) = ~~~1 by decide, BitVec.getLsbD_not]
  simp [hi]

theorem evenMask_bits : bits (val &&& 0xFFFFFFFFFFFFFFFE).toNat 63 12 = bits val.toNat 63 12 ∧
    (val &&& 0xFFFFFFFFFFFFFFFE).toNat % 2 = 0 := by
  constructor
  · have hmask : (0xFFFFFFFFFFFFFFFE : W64).toNat >>> 12 = 2 ^ 52 - 1 := by decide
    rw [bits, BitVec.toNat_and, Nat.shiftRight_and_distrib, hmask, Nat.and_two_pow_sub_one_eq_mod]
    exact Nat.mod_mod _ _
  · rw [BitVec.toNat_and, ← Nat.and_one_is_mod, Nat.and_assoc]
    exact Nat.and_zero _

theorem evenMask_even (h : val.toNat % 2 = 0) : val &&& 0xFFFFFFFFFFFFFFFE = val := by
  refine BitVec.eq_of_getLsbD_eq fun i hi => ?_
  rw [BitVec.getLsbD_and, evenMask_bit hi]
  by_cases h0 : i = 0
  · subst h0
    simp [BitVec.getLsbD, h]
  · simp [h0]

end Words

/-! ### Who may write -/

section Rights

variable {s : State} {fn : Nat}

/-- The function may write words of the selected population, of which the write names `owner` (R501). -/
abbrev Populates (s : State) (fn owner : Nat) : Prop :=
  s.popLive s.popsel.toNat = false ∧
    (fn = 0 ∨ s.holds fn (if (s.pop s.popsel.toNat).valid then (s.pop s.popsel.toNat).owner else owner) = true)

theorem popOpen_iff {owner : Nat} : s.popOpen fn s.popsel.toNat owner = true ↔ Populates s fn owner := by
  simp [State.popOpen, State.owns]

/-- The function may write the context's descriptor (R477). -/
abbrev Describes (s : State) (fn ctx : Nat) : Prop := ctx < 256 ∧ (fn = 0 ∨ s.holder ctx = fn)

theorem mayDescribe_iff {ctx : Nat} : s.mayDescribe fn ctx = true ↔ Describes s fn ctx := by simp [State.mayDescribe]

theorem ctxValid_iff {ctx : Nat} : s.ctxValid ctx = true ↔ (s.ctx ctx).word0.toNat % 2 = 1 := by
  rw [State.ctxValid, bit, Nat.testBit_zero, decide_eq_true_iff]

/-- The function reaches the launch queue (R478). -/
abbrev Queues (s : State) (fn ctx q : Nat) : Prop := s.holds fn ctx = true ∧ q < 64

theorem takes_qbase {x : Queue} {val : W64} : x.takes .qbase val = true ↔ x.head = x.tail := by simp [Queue.takes]

theorem takes_qctl {x : Queue} {val : W64} : x.takes .qctl val = true ↔ x.head = x.tail ∧ bits val.toNat 3 0 ≤ 10 := by
  simp [Queue.takes]

end Rights

/-! ### What word 0 of a descriptor does (R477, R533) -/

section Word0

variable {s : State} {ctx v : Nat} {val : W64}

/-- Word 0 written, with `x` in VALID. -/
abbrev withWord0 (val : W64) (ctx x : Nat) (t : State) : State :=
  t.modCtx ctx fun c => { c with word0 := BitVec.ofNat 64 (bits val.toNat 63 12 * 4096 + x) }

theorem writeWord0_live (h : s.ctxLive ctx = true) : s.writeWord0 ctx v = s := if_pos h

theorem writeWord0_sets (h : s.ctxLive ctx = false) (hv : bits v 63 12 = bits val.toNat 63 12) (h1 : v % 2 = 1) :
    s.writeWord0 ctx v = if s.ctxValid ctx then withWord0 val ctx 1 s else (withWord0 val ctx 1 s).drawKey ctx := by
  have hbit : bit v 0 = true := by simp [bit, h1]
  have hbits : bits v 0 0 = 1 := by simpa [bits] using h1
  unfold State.writeWord0
  simp only [h, hv, hbit, hbits]
  cases s.ctxValid ctx <;> rfl

theorem writeWord0_clears (h : s.ctxLive ctx = false) (hv : bits v 63 12 = bits val.toNat 63 12) (h0 : v % 2 = 0) :
    s.writeWord0 ctx v = if s.ctxValid ctx then (withWord0 val ctx 0 s).tearDown ctx else withWord0 val ctx 0 s := by
  have hbit : bit v 0 = false := by simp [bit, h0]
  have hbits : bits v 0 0 = 0 := by simpa [bits] using h0
  unfold State.writeWord0
  simp only [h, hv, hbit, hbits]
  cases s.ctxValid ctx <;> rfl

/-- The L1 lines that stay are those of crews and of other contexts. -/
theorem tearDown_eq (t : State) (ctx : Nat) : t.tearDown ctx = { t.modCtx ctx fun c => { c with key := none } with
    cores := Tbl.mapv (fun _ c => { c with l1 := Tbl.keep (fun k x => x.crew || k / 2 / 2 ^ 33 != ctx) c.l1 }) t.cores
    retention := Tbl.keep (fun _ r => r.owner != ctx) t.retention } := by
  unfold State.tearDown
  simp only [Bool.not_and, Bool.not_not]
  rfl

end Word0

/-! What follows is about a function that is served: `onFn_eq` performs its write, where the handler's name (`execHwinWrite` and the
like) says of which register. -/

section Function

variable {s : State} {fn : Nat} (h : s.served fn) (val : W64)
include h

/-! ### The population window (R501, R540) -/

theorem population_word0_acts : Acts s (.populationWindowWrite fn 0 val) (Populates s fn (bits val.toNat 63 56))
    (s.modPop s.popsel.toNat fun p => { p with owner := bits val.toNat 63 56, valid := bit val.toNat 55 }) :=
  acts_of (Eq.trans (b := execPopulationWindowWrite fn 0 val s) rfl (onFn_eq h _)) popOpen_iff

theorem population_base_acts {word : Nat} (hpos : 1 ≤ word) (hmax : word ≤ 4) :
    Acts s (.populationWindowWrite fn word val) (Populates s fn (s.pop s.popsel.toNat).owner)
      (s.modPop s.popsel.toNat fun p => { p with gbase := Tbl.set 0 p.gbase (word - 1) val }) := by
  refine acts_of ((Eq.trans (b := execPopulationWindowWrite fn word val s) rfl (onFn_eq h _)).trans (congrArg _ ?_)) popOpen_iff
  dsimp only
  rw [if_neg (by omega), if_pos hmax]

theorem population_fix_acts : Acts s (.populationWindowWrite fn 8 val) (Populates s fn (s.pop s.popsel.toNat).owner)
    (s.modPop s.popsel.toNat fun p => { p with popfix := val &&& 0x80000000FFFFFFFF }) :=
  acts_of (Eq.trans (b := execPopulationWindowWrite fn 8 val s) rfl (onFn_eq h _)) popOpen_iff

theorem popfix_acts : Acts s (.popfixWrite fn val) (Populates s fn (s.pop s.popsel.toNat).owner)
    (s.modPop s.popsel.toNat fun p => { p with popfix := val &&& 0x80000000FFFFFFFF }) :=
  acts_of (Eq.trans (b := execPopfixWrite fn val s) rfl (onFn_eq h _)) popOpen_iff

theorem population_word_ignored {word : Nat} (hw : 5 ≤ word) (h8 : word ≠ 8) : exec (.populationWindowWrite fn word val) s = .next s := by
  refine (Eq.trans (b := execPopulationWindowWrite fn word val s) rfl (onFn_eq h _)).trans (congrArg _ ?_)
  dsimp only
  rw [if_neg (by omega), if_neg (by omega), if_neg h8]

/-! ### CTXFN and the context descriptors (R477, R533, R561) -/

theorem ctxfn_acts (ctx : Nat) : Acts s (.ctxfnWrite fn ctx val) (fn = 0 ∧ ctx < 256 ∧ ¬(s.ctx ctx).word0.toNat % 2 = 1)
    { s with ctxfn := Tbl.set 0 s.ctxfn ctx (val.setWidth 6) } := by
  refine acts_not (Eq.trans (b := execCtxfnWrite fn ctx val s) rfl (onFn_eq h _)) ?_
  rw [← ctxValid_iff, Bool.or_eq_true, Bool.or_eq_true, decide_eq_true_iff, decide_eq_true_iff]
  simp only [not_and_or, not_lt, not_not, or_assoc, ne_eq]

omit h in
/-- A word that any descriptor takes from a function that may write it. -/
theorem descriptor_acts {i : Instr} {ctx : Nat} {t : State} (hx : exec i s = .next (if !s.mayDescribe fn ctx then s else t)) :
    Acts s i (Describes s fn ctx) t := by
  refine acts_not hx ?_
  rw [← mayDescribe_iff, Bool.not_eq_true', Bool.not_eq_true]

omit h in
/-- A word that only the descriptor of a context without a live launch takes. -/
theorem idle_acts {i : Instr} {ctx : Nat} {t u : State} (hx : exec i s = .next (if !s.mayDescribe fn ctx then s else u))
    (hidle : s.ctxLive ctx = false → u = t) (hlive : s.ctxLive ctx = true → u = s) :
    Acts s i (Describes s fn ctx ∧ s.ctxLive ctx = false) t := by
  obtain ⟨hyes, hno⟩ := descriptor_acts hx
  refine ⟨fun p => (hyes p.1).trans (congrArg _ (hidle p.2)), fun p => ?_⟩
  by_cases hmine : Describes s fn ctx
  · exact (hyes hmine).trans (congrArg _ (hlive (by simpa [hmine] using p)))
  · exact hno hmine

theorem descriptor_next (ctx word : Nat) :
    exec (.contextDescriptorWrite fn ctx word val) s = .next (s.writeDescriptor fn ctx word val.toNat) :=
  onFn_eq h fun s => s.writeDescriptor fn ctx word val.toNat

theorem create_next (ctx : Nat) : exec (.contextCreate fn ctx val) s = .next (s.writeDescriptor fn ctx 0 (val ||| 1).toNat) :=
  onFn_eq h fun s => s.writeDescriptor fn ctx 0 (val ||| 1).toNat

theorem teardown_next (ctx : Nat) :
    exec (.contextTeardown fn ctx val) s = .next (s.writeDescriptor fn ctx 0 (val &&& 0xFFFFFFFFFFFFFFFE).toNat) :=
  onFn_eq h fun s => s.writeDescriptor fn ctx 0 (val &&& 0xFFFFFFFFFFFFFFFE).toNat

theorem create_acts {ctx : Nat} {t : State}
    (ht : (if s.ctxValid ctx then withWord0 val ctx 1 s else (withWord0 val ctx 1 s).drawKey ctx) = t) :
    Acts s (.contextCreate fn ctx val) (Describes s fn ctx ∧ s.ctxLive ctx = false) t :=
  idle_acts (u := s.writeWord0 ctx _) (create_next h val ctx)
    (fun hl => (writeWord0_sets hl (or_one_bits val).1 (or_one_bits val).2).trans ht) writeWord0_live

theorem teardown_acts {ctx : Nat} {t : State}
    (ht : (if s.ctxValid ctx then (withWord0 val ctx 0 s).tearDown ctx else withWord0 val ctx 0 s) = t) :
    Acts s (.contextTeardown fn ctx val) (Describes s fn ctx ∧ s.ctxLive ctx = false) t :=
  idle_acts (u := s.writeWord0 ctx _) (teardown_next h val ctx)
    (fun hl => (writeWord0_clears hl (evenMask_bits val).1 (evenMask_bits val).2).trans ht) writeWord0_live

/-- A write of word 0 with VALID is the creation of the context. -/
theorem descriptor_creates (ctx : Nat) (hv : val.toNat % 2 = 1) :
    exec (.contextDescriptorWrite fn ctx 0 val) s = exec (.contextCreate fn ctx val) s := by
  rw [descriptor_next h, create_next h, or_one_odd val hv]

/-- A write of word 0 without VALID is its teardown. -/
theorem descriptor_tearsDown (ctx : Nat) (hv : val.toNat % 2 = 0) :
    exec (.contextDescriptorWrite fn ctx 0 val) s = exec (.contextTeardown fn ctx val) s := by
  rw [descriptor_next h, teardown_next h, evenMask_even val hv]

theorem descriptor_word1_acts (ctx : Nat) : Acts s (.contextDescriptorWrite fn ctx 1 val) (Describes s fn ctx ∧ s.ctxLive ctx = false)
    (s.modCtx ctx fun c => { c with word1 := val }) := by
  refine idle_acts (u := if s.ctxLive ctx then s else s.modCtx ctx fun c => { c with word1 := BitVec.ofNat 64 val.toNat })
    (descriptor_next h val ctx 1) (fun hl => (if_neg (Bool.eq_false_iff.1 hl)).trans ?_) fun hl => if_pos hl
  rw [BitVec.ofNat_toNat, BitVec.setWidth_eq]

theorem descriptor_word2_acts (ctx : Nat) : Acts s (.contextDescriptorWrite fn ctx 2 val) (Describes s fn ctx)
    (s.modCtx ctx fun c => { c with word2 := BitVec.ofNat 64 (bits val.toNat 63 32 * 2 ^ 32 + bits val.toNat 27 16 * 2 ^ 16) }) :=
  descriptor_acts (descriptor_next h val ctx 2)

theorem descriptor_word3_acts (ctx : Nat) : Acts s (.contextDescriptorWrite fn ctx 3 val) (Describes s fn ctx)
    (s.writeWord3 ctx val.toNat) :=
  descriptor_acts (descriptor_next h val ctx 3)

theorem evhead_acts (ctx : Nat) : Acts s (.evheadWrite fn ctx val) (Describes s fn ctx) (s.writeWord3 ctx val.toNat) :=
  descriptor_acts (onFn_eq h fun s => s.writeDescriptor fn ctx 3 val.toNat)

/-! ### The launch queues (R478) -/

theorem queueConfig_acts (ctx q : Nat) (reg : QueueReg) {P : Prop} (hp : (s.queue ctx q).takes reg val = true ↔ P) :
    Acts s (.queueConfigWrite fn ctx q reg val) (Queues s fn ctx q ∧ P) (s.modQueue ctx q fun x => x.config reg val) := by
  refine acts_of (onFn_eq h _) ?_
  rw [Bool.and_eq_true, Bool.and_eq_true, decide_eq_true_iff, hp]

theorem qtail_acts (ctx q : Nat) (hfront : s.frontRuns = true) :
    let x := s.queue ctx q
    let n := 2 ^ x.log2n
    let new := val.toNat % 1024 % n
    let more := (new + n - x.tail) % n
    Acts s (.qtailWrite fn ctx q val) (Queues s fn ctx q ∧ (x.tail + n - x.head) % n + more < n)
      ((List.range more).foldl (fun t k => t.readSlot ctx q ((x.tail + k) % n)) (s.modQueue ctx q fun x => { x with tail := new })) := by
  intro x n new more
  have hx : exec (.qtailWrite fn ctx q val) s =
      .next (if s.holds fn ctx && decide (q < 64) then s.moveTail ctx q val.toNat else s) := by
    refine Eq.trans ?_ (onFn_eq h _)
    exact if_neg (by simp [hfront])
  have hq : (s.holds fn ctx && decide (q < 64)) = true ↔ Queues s fn ctx q := by rw [Bool.and_eq_true, decide_eq_true_iff]
  refine acts_by hx (fun p => (if_pos (hq.2 p.1)).trans (if_neg (Nat.not_le.2 p.2))) fun p => ?_
  by_cases hheld : Queues s fn ctx q
  · exact (if_pos (hq.2 hheld)).trans (if_pos (Nat.not_lt.1 fun hroom => p ⟨hheld, hroom⟩))
  · exact if_neg fun hp => hheld (hq.1 hp)

/-! ### HWIN, the apertures and PEERSTAT (R544, R549, R553) -/

theorem hwin_acts : Acts s (.hwinWrite fn val) (s.holds fn (bits val.toNat 63 56) = true) (s.modFn fn fun f =>
    { f with hwin := BitVec.ofNat 64 (bits val.toNat 63 56 * 2 ^ 56 + bits val.toNat 23 23 * 2 ^ 23 + bits val.toNat 20 0) }) :=
  acts_of (Eq.trans (b := execHwinWrite fn val s) rfl (onFn_eq h _)) .rfl

/-- The entry may be written: it is not that of a context with a live launch. -/
theorem aperture_acts {i : Instr} {idx : Nat} {t : State} (e : W64 × W64)
    (hx : exec i s = onFn fn s fun s => if fn ≠ 0 || 256 ≤ idx || (bit e.1.toNat 55 && s.ctxLive (bits e.1.toNat 63 56)) then s else t) :
    Acts s i (fn = 0 ∧ idx < 256 ∧ ¬(bit e.1.toNat 55 = true ∧ s.ctxLive (bits e.1.toNat 63 56) = true)) t := by
  refine acts_not (fn_next h hx) ?_
  rw [Bool.or_eq_true, Bool.or_eq_true, decide_eq_true_iff, decide_eq_true_iff, Bool.and_eq_true]
  rw [or_assoc, Decidable.not_and_iff_not_or_not, Decidable.not_and_iff_not_or_not, not_not, not_lt]

theorem peerstat_acts {port : Nat} (hport : port < 16) : Acts s (.peerstatWrite fn port val) (fn = 0 ∧ bit val.toNat 48 = true)
    (s.modPort port fun p => { p with frozen := false }) :=
  acts_of ((if_pos hport).trans (onFn_eq h _)) .rfl

end Function

/-- Settles O55: each register, by the choice that its handler makes. That a teardown leaves the TLBs alone is the model's reading of
log entry 64. -/
theorem functionWindows : Obligations.FunctionWindows := by
  unfold Obligations.FunctionWindows
  intro fn val s h v
  refine ⟨?_, fun ctx => ?_, hwin_acts h val, fun idx => ⟨?_, ?_⟩, fun port hport => peerstat_acts h val hport⟩
  · exact ⟨population_word0_acts h val, fun word => population_base_acts h val, population_fix_acts h val, popfix_acts h val,
      fun word => population_word_ignored h val⟩
  · intro valid mine idle word0 opened closed torn third
    refine ⟨ctxfn_acts h val ctx, fun hv => ⟨create_acts h val (if_pos (ctxValid_iff.2 hv)), teardown_acts h val ?_⟩,
      fun hv => ⟨create_acts h val (if_neg fun h => hv (ctxValid_iff.1 h)), teardown_acts h val (if_neg fun h => hv (ctxValid_iff.1 h))⟩,
      descriptor_creates h val ctx, descriptor_tearsDown h val ctx, descriptor_word1_acts h val ctx,
      descriptor_word2_acts h val ctx, descriptor_word3_acts h val ctx, evhead_acts h val ctx,
      fun q => ⟨queueConfig_acts h val ctx q .qbase takes_qbase, queueConfig_acts h val ctx q .qctl takes_qctl, qtail_acts h val ctx q⟩⟩
    exact (if_pos (ctxValid_iff.2 hv)).trans (tearDown_eq _ ctx)
  · exact aperture_acts h _ rfl
  · exact aperture_acts h _ rfl

end Sys2Proof.HostWindows
end

section
/-! Proofs of family 16: launches start, bind, complete, are pre-empted and killed (R485 to R496). -/

open Sys2Proof Sys2Proof.Machine
open Sys2Proof.Numbers (onCore_next onEvent_next)
namespace Sys2Proof.Launches

/-! ### Starting (R485) -/

/-- The slot that ranks first starts. -/
theorem launchStart_starts {s : State} {sk prio at_ : Nat} {x : LSlot} (hfront : s.frontRuns = true) (hx : Tbl.find s.slots sk = some x)
    (hw : x.waits = some (prio, at_))
    (hbest : ∀ k y p n, (k, y) ∈ s.slots → (k, y) ≠ (sk, x) → y.waits = some (p, n) → p < prio ∨ (p = prio ∧ at_ < n)) :
    exec (.launchStart sk) s =
      .next (State.begin { s with slots := Tbl.put s.slots sk { x with lid := some s.freeLid } } sk s.freeLid x.words 0) := by
  refine onEvent_next ?_
  simp only [State.startLaunch, hx, nextStart_eq hx hw hbest, hfront]
  exact if_neg (by simp)

/-! ### Offering crews (R486) -/

section Offer

/-- The launch may have a crew offered to the die. -/
structure Offers (s : State) (lid die : Nat) (l : Launch) : Prop where
  launch : s.launch lid = some l
  scope : flagOf l.words 44 = true ∨ recField l.words 0x18 43 42 = die
  hart : (s.die die).hartFrozen = false
  front : s.frontRuns = true
  alive : l.killReq = none

/-- The die claims a crew. -/
def claimed (s : State) (lid die crew : Nat) (f : Launch → Launch) : State :=
  s.modLaunch lid fun l => f { l with crewDie := Tbl.put l.crewDie crew die }

variable {s : State} {lid die : Nat} {l : Launch} (h : Offers s lid die l)
include h

theorem Offers.closed : (!inScope l.words die || (s.die die).hartFrozen || !s.frontRuns || l.killReq.isSome) = false := by
  have hscope : inScope l.words die = true := by simpa [inScope] using h.scope
  simp [hscope, h.hart, h.front, h.alive]

theorem offer_returned (hr : l.round = none) {c : Nat} {rest : List Nat} (hc : l.returned = c :: rest) :
    s.offer lid die = some (claimed s lid die c fun l => { l with returned := rest }) := by
  simp only [State.offer, h.launch, h.closed, hr, hc]
  rfl

theorem offer_next (hr : l.round = none) (hc : l.returned = []) (hmore : l.offered < l.nblocks / crewSizeOf l.words) :
    s.offer lid die = some (claimed s lid die l.offered fun l => { l with offered := l.offered + 1 }) := by
  simp only [State.offer, h.launch, h.closed, hr, hc, hmore]
  rfl

theorem offer_particle {r : RoundState} {c : Nat} {pre rest : List Nat} (hr : l.round = some r)
    (hc : l.returned ++ r.unbound.map (·.handle) = pre ++ c :: rest) (hdie : bits c 31 30 = die) (hfree : Tbl.find l.crewDie c = none)
    (hpre : ∀ x ∈ pre, bits x 31 30 ≠ die ∨ Tbl.mem l.crewDie x = true) :
    s.offer lid die = some (claimed s lid die c fun l => { l with returned := l.returned.erase c }) := by
  have hfind : (l.returned ++ r.unbound.map (·.handle)).find? (fun x => bits x 31 30 == die && !Tbl.mem l.crewDie x) = some c := by
    rw [hc, List.find?_eq_some_iff_append]
    refine ⟨by simp [hdie, Tbl.mem, hfree], pre, rest, rfl, fun x hx => ?_⟩
    simpa [imp_iff_not_or] using hpre x hx
  simp only [State.offer, h.launch, h.closed, hr, hfind]
  rfl

end Offer

/-! ### Binding (R487 to R490) -/

section Bind

variable {s : State} (r : BindRec) (hc : r.core < 256) (hh : s.hartRuns (r.core / 64) = true)
include hc hh

theorem slotwr_accepts (h : s.refusal r = none) : exec (.slotwr r.core r.w0 r.w1 r.w2 r.w3) s = .next (s.acceptRec r) := by
  refine onCore_next hc ?_
  simp only [dieOfCore, hh, h]
  rfl

theorem slotwr_refuses {cause : Nat} (h : s.refusal r = some cause) :
    exec (.slotwr r.core r.w0 r.w1 r.w2 r.w3) s = .next (s.refuseRec r cause) := by
  refine onCore_next hc ?_
  simp only [dieOfCore, hh, h]
  rfl

end Bind

/-! ### Completing (R485) -/

theorem launchComplete_completes {s : State} {lid : Nat} {l : Launch} (hl : s.launch lid = some l) (hb : s.blocksDone lid l = true)
    (hcar : s.carriesDone lid = true) (hk : l.killReq = none) : exec (.launchComplete lid) s = .next (s.completeLaunch lid l) := by
  refine onEvent_next ?_
  simp only [State.tryComplete, hl, hb, hcar, hk]
  rfl

/-! ### Pre-emption (R492, R493) -/

section Preempt

variable {s : State} {core : Nat} {val : W64} (hc : core < 256) (hh : s.hartRuns (core / 64) = true)

/-- DONE and REFUSED of a slot are cleared by a pre-emption that begins. -/
def cleared (b : Nat) (x : Core) : Core := { x with prDone := x.prDone &&& ~~~(1#8 <<< b), prRefused := x.prRefused &&& ~~~(1#8 <<< b) }

/-- The save area that SAVEADDR names. -/
def areaNamed (s : State) (core : Nat) : Nat := bits (s.core core).saveaddr.toNat 63 12 * 4096

include hc hh in
theorem preempt_next : exec (.preempt core val) s = .next (s.preemptNow core val.toNat) := onCore_next hc (if_pos hh)

theorem preemptNow_ignored {v : Nat} (h : bit v 3 = false ∨ (s.core core).prBusy.getLsbD (bits v 2 0) = true) :
    s.preemptNow core v = s := by
  refine if_pos ?_
  rcases h with h | h <;> simp [h]

variable {v : Nat} (hstart : bit v 3 = true) (hidle : (s.core core).prBusy.getLsbD (bits v 2 0) = false)

/-- The core whose slot is asked for, with REFUSED set. -/
def refusedAt (s : State) (core b : Nat) : State :=
  (s.modCore core (cleared b)).modCore core fun x => { x with prRefused := x.prRefused ||| 1#8 <<< b }

/-- A pre-emption that begins: BUSY is set, the area is kept, and the blocks of the crew stop. -/
def begun (s : State) (core b lid crew : Nat) : State :=
  ((s.modCore core (cleared b)).modCore core fun c =>
    { c with prBusy := c.prBusy ||| 1#8 <<< b, saveArea := Tbl.put c.saveArea b (areaNamed s core) }).stopCrew lid crew

include hstart hidle

theorem preemptNow_empty (hin : s.inSlot core (bits v 2 0) = none) : s.preemptNow core v = refusedAt s core (bits v 2 0) := by
  have hin' : (s.modCore core (cleared (bits v 2 0))).inSlot core (bits v 2 0) = none := hin
  unfold cleared at hin'
  simp only [State.preemptNow, hstart, hidle, hin']
  rfl

theorem preemptNow_held {lid crew ctx : Nat} (hin : s.inSlot core (bits v 2 0) = some (lid, crew, ctx)) : s.preemptNow core v =
    if s.areaOk ctx (areaNamed s core) (saveUnitsOf lid crew) then begun s core (bits v 2 0) lid crew else refusedAt s core (bits v 2 0) := by
  have hin' : (s.modCore core (cleared (bits v 2 0))).inSlot core (bits v 2 0) = some (lid, crew, ctx) := hin
  have harea : areaNamed (s.modCore core (cleared (bits v 2 0))) core = areaNamed s core := by
    rw [areaNamed, State.core_modCore, if_pos rfl]
    rfl
  unfold cleared at hin' harea
  unfold areaNamed at harea ⊢
  simp only [State.preemptNow, hstart, hidle, hin', harea, areaOk_modCore]
  cases s.areaOk ctx (bits (s.core core).saveaddr.toNat 63 12 * 4096) (saveUnitsOf lid crew) <;> rfl

omit hstart hidle in
theorem begun_does {b lid crew : Nat} (hb : b < 8) : ((begun s core b lid crew).core core).prBusy.getLsbD b = true ∧
    (∀ k u, (begun s core b lid crew).block k = some u → u.lid = lid → u.crew = crew → u.stopping = true) ∧
    (begun s core b lid crew).waves = s.waves := by
  obtain ⟨hwaves, hbusy, hstop⟩ := stopCrew_does ((s.modCore core (cleared b)).modCore core fun c =>
    { c with prBusy := c.prBusy ||| 1#8 <<< b, saveArea := Tbl.put c.saveArea b (areaNamed s core) }) lid crew
  refine ⟨hbusy core b ?_, hstop, hwaves⟩
  rw [State.core_modCore, if_pos rfl]
  simp [hb]

end Preempt

/-- A crew at rest without a grant is saved. -/
theorem preemptSave_saves {s : State} {lid crew : Nat} {c : Crew} (hc : s.crew (crewKey lid crew) = some c)
    (hrest : s.crewAtRest lid crew = true) (hfree : ∀ p ∈ s.waves, p.2.lid = lid → p.2.crew = crew → p.2.holdsAny = false)
    (hwait : s.saveWaits lid crew c = false) : exec (.preemptSaveComplete lid crew) s = .next (s.saveCrew lid crew c) := by
  have hnone : (s.waves.filter fun w => w.2.lid == lid && w.2.crew == crew && !w.2.shadow && w.2.holdsAny) = [] := by
    rw [List.filter_eq_nil_iff]
    intro p hp
    simp only [Bool.and_eq_true, beq_iff_eq, not_and, Bool.not_eq_true]
    exact fun h => hfree p hp h.1.1 h.1.2
  refine onEvent_next ?_
  simp only [State.saveNow, hc, hrest, hnone, hwait]
  rfl

/-! ### Killing (R496) -/

section Kill

variable {s : State} {sk : Nat} {x : LSlot} (hx : Tbl.find s.slots sk = some x)
include hx

theorem launchKill_waiting (hlid : x.lid = none) : exec (.launchKill sk) s =
    .next ((s.postEvent (ctxOfSlot sk) (launchEvent 4 sk 0 0) 0).failSlot sk) := by
  refine onEvent_next ?_
  simp only [State.killSlot, hx, hlid]

variable {lid : Nat} {l : Launch} (hlid : x.lid = some lid) (hl : s.launch lid = some l)
include hlid hl

theorem launchKill_finishes (hw : s.killWaits lid = false) : exec (.launchKill sk) s = .next ((s.stopLaunch lid).finishKill lid l) := by
  refine onEvent_next ?_
  simp only [State.killSlot, hx, hlid, hl, hw]
  rfl

theorem launchKill_stops (hw : s.killWaits lid = true) (hk : l.killReq = none) : exec (.launchKill sk) s = .next (s.stopLaunch lid) := by
  refine onEvent_next ?_
  simp only [State.killSlot, hx, hlid, hl, hw, hk]
  rfl

end Kill

end Sys2Proof.Launches
end

section
/-! Proofs of family 16: the rounds of a PARTICLE launch (R505 to R511, R513, R540). -/

open Sys2Proof Sys2Proof.Machine
open Sys2Proof.Numbers (onEvent_next)
namespace Sys2Proof.Launches

theorem round_modRound {s : State} {lid : Nat} {l : Launch} {r : RoundState} (hl : s.launch lid = some l) (hr : l.round = some r)
    (f : RoundState → RoundState) : (s.modRound lid f).round lid = some (f r) := by
  rw [State.round, State.launch_modRound s lid f hl, Option.bind_some, hr, Option.map_some]

/-! ### Opening (R505, R507) -/

theorem roundOpen_opens {s : State} {lid : Nat} {l : Launch} {r : RoundState} (hl : s.launch lid = some l) (hr : l.round = some r)
    (hopen : r.toOpen = true) (hk : l.killReq = none) (hdet : s.isDet lid = true → s.carriesDone lid = true) :
    exec (.roundOpen lid) s = .next (s.openRound lid l r) := by
  have hgo : (!s.isDet lid || s.carriesDone lid) = true := by
    cases hd : s.isDet lid
    · rfl
    · exact hdet hd
  refine onEvent_next ?_
  simp only [State.tryOpen, hl, hr, hopen, hk, hgo]
  rfl

/-- The round's particles, in the order in which it launches them. -/
theorem openRound_does {s : State} {lid : Nat} {l : Launch} (r : RoundState) (hl : s.launch lid = some l) :
    let keys := s.readyParticles l.words r.pop
    let t := s.openRound lid l r
    (∃ l', t.launch lid = some l' ∧ l'.nblocks = keys.length ∧ l'.ended = []) ∧
    (∀ i k, keys[i]? = some k → (∀ j, i < j → keys[j]? ≠ some k) → t.particle k = { s.particle k with st := 2, index := i }) ∧
    (∀ k, k ∉ keys → t.particle k = s.particle k) ∧
    t.pop r.pop = { s.pop r.pop with count := keys.length + r.members.length, arrived := 0, strag := r.members.length } := by
  intro keys t
  obtain ⟨hbound, hrest, hpops, hlaunches⟩ := bindParticles keys 0 s
  refine ⟨?_, fun i k hi hlast => ?_, hrest, ?_⟩
  · have hlaunch : State.launch _ lid = some l := (congrArg (Tbl.find · lid) hlaunches).trans hl
    exact ⟨_, (State.launch_modLaunch _ lid lid _).trans ((if_pos rfl).trans (congrArg (Option.map _) hlaunch)), rfl, rfl⟩
  · rw [show i = 0 + i by omega]
    exact hbound i k hi hlast
  · have hpop : State.pop _ r.pop = s.pop r.pop := congrArg (Tbl.get · r.pop Pop.reset) hpops
    refine (State.pop_modLaunch _ lid r.pop _).trans ((State.pop_modPop _ _ _ _).trans ((if_pos rfl).trans ?_))
    rw [hpop]

/-! ### Arrivals (R507) -/

section Arrival

/-- The round that has taken the arrival. -/
def withArrival (r : RoundState) (h : Nat) : RoundState :=
  { r with sent := r.sent.erase h, today := r.today.erase h, arrived := r.arrived ++ [h], members := r.members.erase h }

/-- The state once the combiner has taken the arrival, before the round may close. -/
def taken (s : State) (lid pop h : Nat) : State :=
  ((s.modRound lid fun r => { r with sent := r.sent.erase h, today := r.today.erase h }).modRound lid fun r =>
    { r with arrived := r.arrived ++ [h], members := r.members.erase h }).modPop pop fun p => { p with arrived := p.arrived + 1 }

variable {s : State} {lid h : Nat} {l : Launch} {r : RoundState} (hl : s.launch lid = some l) (hr : l.round = some r)
include hl hr

theorem taken_launch (pop : Nat) : (taken s lid pop h).launch lid = some { l with round := some (withArrival r h) } := by
  refine (State.launch_modRound _ _ _ (State.launch_modRound _ _ _ hl)).trans ?_
  rw [hr]
  rfl

omit hl hr in
theorem taken_pop (pop : Nat) : (taken s lid pop h).pop pop = { s.pop pop with arrived := (s.pop pop).arrived + 1 } :=
  (State.pop_modPop _ _ _ _).trans (if_pos rfl)

/-- The arrivals that the round waits for (R507). -/
abbrev awaited (s : State) (r : RoundState) : Nat := if r.quorum then min r.q (s.pop r.pop).count else (s.pop r.pop).count

omit hl hr in
theorem taken_awaited : awaited (taken s lid r.pop h) (withArrival r h) = awaited s r := by
  have hcount : ((taken s lid r.pop h).pop (withArrival r h).pop).count = (s.pop r.pop).count :=
    (congrArg Pop.count (taken_pop (s := s) (lid := lid) (h := h) r.pop)).trans rfl
  simp only [awaited, hcount]
  rfl

omit hl hr in
theorem withArrival_length : (withArrival r h).arrived.length = r.arrived.length + 1 := List.length_append

variable {pre rest : List Nat} (hopen : r.isOpen = true) (hlist : r.sent ++ r.today = pre ++ h :: rest)
  (hh : s.carried lid h = true) (hpre : ∀ x ∈ pre, s.carried lid x = false) (hover : s.roundsOver r = false)
include hopen hlist hh hpre hover

/-- The first arrival whose carries have been applied is taken. -/
theorem particleArrival_takes : exec (.particleArrival lid) s = .next ((taken s lid r.pop h).checkRound lid) := by
  have hround : s.round lid = some r := by rw [State.round, hl, Option.bind_some, hr]
  have hfind : (r.sent ++ r.today).find? (fun x => s.carried lid x) = some h := by
    rw [hlist, List.find?_eq_some_iff_append]
    exact ⟨hh, pre, rest, rfl, fun x hx => by rw [hpre x hx]; rfl⟩
  have hover' : (s.modRound lid fun r => { r with sent := r.sent.erase h, today := r.today.erase h }).roundsOver r = false := hover
  refine onEvent_next ?_
  simp only [State.tryArrival, hround, hopen, hfind, Option.map_some, hover']
  rfl

theorem particleArrival_waits (hshort : r.arrived.length + 1 < awaited s r) :
    exec (.particleArrival lid) s = .next (taken s lid r.pop h) := by
  refine (particleArrival_takes hl hr hopen hlist hh hpre hover).trans (congrArg _ (checkRound_short (taken_launch hl hr _) rfl ?_))
  rw [withArrival_length]
  exact hshort.trans_eq taken_awaited.symm

/-- The last arrival that the round waits for closes it. -/
theorem particleArrival_closes (hlast : awaited s r ≤ r.arrived.length + 1) (hext : r.extinct = false) :
    exec (.particleArrival lid) s =
      .next ((taken s lid r.pop h).resample lid { l with round := some (withArrival r h) } (withArrival r h)) := by
  refine (particleArrival_takes hl hr hopen hlist hh hpre hover).trans
    (congrArg _ (checkRound_full (taken_launch hl hr _) rfl hopen hext ?_ ?_)) <;> rw [withArrival_length]
  · exact taken_awaited.trans_le hlast
  · exact Nat.le_add_left 1 _

end Arrival

/-! ### Masses (R508) -/

section Mass

variable {m w : Nat}

theorem massOf_infinite : massOf 0x7F800000 w = if w = 0x7F800000 then 2 ^ 40 else 0 := if_pos rfl

theorem massOf_none : massOf 0xFF800000 w = 0 := (if_neg (by decide)).trans (if_pos rfl)

theorem massOfVal_notFinite {d : Val} (h : d.isFin = false) : massOfVal d = 0 := by
  cases d with
  | num => cases h
  | _ => rfl

/-- 2^(40 + d) for a whole d. -/
theorem floorPow_whole {n j : Nat} {e : Int} (he : e < 0) (hn : n = j * 2 ^ (-e).toNat) (hj : j ≤ 40) : floorPow n e = 2 ^ (40 - j) := by
  have hpos : (0 : Int) < ((2 ^ (-e).toNat : Nat) : Int) := by exact_mod_cast Nat.two_pow_pos _
  have hx : -(n : Int) = -(j : Int) * ((2 ^ (-e).toNat : Nat) : Int) := by rw [hn]; push_cast; ring
  have hip : (40 + -(n : Int) / ((2 ^ (-e).toNat : Nat) : Int)).toNat = 40 - j := by
    rw [hx, Int.mul_ediv_cancel _ hpos.ne']
    omega
  have hfr : (-(n : Int) % ((2 ^ (-e).toNat : Nat) : Int)).toNat = 0 := by
    rw [hx, Int.mul_emod_left]
    rfl
  unfold floorPow
  rw [if_neg (by omega)]
  simp only [hfr, hip, if_true]

theorem massOfVal_equal (neg : Bool) (e : Int) : massOfVal (.num neg 0 1 e) = 2 ^ 40 := massOfVal_num ..

theorem massOfVal_small {neg : Bool} {n : Nat} {e : Int} (hn : n ≠ 0) (h : 40 * 2 ^ (-e).toNat < n * 2 ^ e.toNat) :
    massOfVal (.num neg n 1 e) = 0 := by rw [massOfVal_num, if_neg hn, if_pos h]

theorem massOfVal_whole {neg : Bool} {n j : Nat} {e : Int} (he : e < 0) (hn : n = j * 2 ^ (-e).toNat) (h0 : 0 < j) (hj : j ≤ 40) :
    massOfVal (.num neg n 1 e) = 2 ^ (40 - j) := by
  have hpos : 0 < 2 ^ (-e).toNat := Nat.two_pow_pos _
  have hle : j * 2 ^ (-e).toNat ≤ 40 * 2 ^ (-e).toNat := Nat.mul_le_mul_right _ hj
  have hzero : e.toNat = 0 := by omega
  rw [massOfVal_num, if_neg (by rw [hn]; positivity), if_neg (by rw [hzero, hn]; omega), floorPow_whole he hn hj]

end Mass

/-! ### Offspring (R510) -/

theorem offspring_length (n t u : Nat) (masses : List Nat) : (offspring n t u 0 masses).length = masses.length :=
  (differences_does (offspringAt n t u) (offspring n t u) (fun a b => offspringAt_mono n t u a b) (fun _ => rfl) (fun _ _ _ => rfl)
    masses 0).1

/-- The counts are the steps of F along the running sum of the masses, from 0 to N. -/
theorem offspring_does {n u : Nat} {masses : List Nat} (h0 : 0 < masses.sum) (hu : u < 2 ^ 32) :
    let F := offspringAt n masses.sum u
    let counts := offspring n masses.sum u 0 masses
    counts.length = masses.length ∧ counts.sum = n ∧
    ∀ i, i < masses.length → counts.getD i 0 = F (masses.take (i + 1)).sum - F (masses.take i).sum := by
  intro F counts
  obtain ⟨-, hsum, hget⟩ := differences_does F (offspring n masses.sum u) (fun a b => offspringAt_mono n masses.sum u a b)
    (fun _ => rfl) (fun _ _ _ => rfl) masses 0
  refine ⟨offspring_length .., ?_, fun i hi => ?_⟩
  · simpa only [F, offspringAt_zero h0 hu, Nat.zero_add, offspringAt_total h0 hu] using hsum
  · simpa only [Nat.zero_add] using hget i hi

/-! ### The second pass, and clones (R511, R513) -/

theorem secondPass_nothing {v : State} {lid : Nat} {l : Launch} {r : RoundState} (hl : v.launch lid = some l) (hr : l.round = some r) :
    (v.secondPass lid []).round lid = some { r with clones := [], toOpen := true } ∧ (v.secondPass lid []).particles = v.particles := by
  simp only [State.secondPass, hl, hr]
  exact ⟨round_modRound (s := State.modPop _ _ _) hl hr _, rfl⟩

theorem freeParticle_lowest {s : State} {die i : Nat} (hi : i < 65536) (hfree : (s.particle (65536 * die + i)).free = true)
    (hlow : ∀ k, k < i → (s.particle (65536 * die + k)).free = false) (hlen : i ≤ s.particles.length) :
    s.freeParticle die = some (65536 * die + i) := by
  have hfind : ((List.range (s.particles.length + 1)).map fun k => 65536 * die + k).find? (fun k => (s.particle k).free) =
      some (65536 * die + i) := by
    rw [List.find?_map, List.find?_range_eq_some.2 ⟨hfree, List.mem_range.2 (Nat.lt_succ_of_le hlen), fun k hk => by simp [hlow k hk]⟩]
    rfl
  rw [State.freeParticle, hfind]
  exact if_pos (by simp; omega)

theorem cloneOf_none {s : State} {owner sid : Nat} (h : s.liveSeq owner sid = none) : s.cloneOf owner sid = some (0xFFFFFFFF, s) := by
  simp only [State.cloneOf, h]

/-- A clone that needs no copy and no sequence takes the lowest free record of its parent's die. -/
theorem tryClone_makes {s : State} {lid : Nat} {l : Launch} {pop key : Nat} {j : CloneJob}
    (hkey : s.freeParticle (j.parent / 65536) = some key)
    (hcopy : Tbl.get (s.pop pop).gbase (j.parent / 65536) 0 = 0 ∨ (s.particle j.parent).gstate = 0 ∨ j.failed = true)
    (hseq : s.liveSeq l.ctx (s.particle j.parent).seq.toNat = none) :
    s.tryClone lid l pop j = .made (s.putClone pop key j.parent (s.pop pop).meanw 0xFFFFFFFF 0) := by
  simp only [State.tryClone, hkey, cloneOf_none hseq]
  exact if_pos hcopy

theorem cloneRetry_retries {s : State} {lid : Nat} {r : RoundState} (hr : s.round lid = some r) (h : ∃ j ∈ r.clones, j.waiting = false) :
    exec (.cloneRetry lid) s = .next (s.secondPass lid r.clones) := by
  have hany : (r.clones.any fun j => !j.waiting) = true := by simpa using h
  refine onEvent_next ?_
  simp only [hr, hany]
  rfl

end Sys2Proof.Launches
end

section
/-! Proofs of family 16: the resampling of a round (R508 to R511, R540). -/

open Sys2Proof Sys2Proof.Machine
namespace Sys2Proof.Launches

section Resample

/-- The weights of the arrivals, as a resampling takes them. -/
def weights (s : State) (keys : List Nat) : List Nat := keys.map fun k => takenWeight (s.particle k).w.toNat

/-- The arrival's weight is a NaN. -/
abbrev isNanAt (s : State) (k : Nat) : Bool := (fval .f32 (s.particle k).w.toNat).isNan

/-- NANSEEN is set for arrivals with a NaN. -/
def nanSeen (s : State) (pop : Nat) (keys : List Nat) : State :=
  if keys.any (isNanAt s) then s.modPop pop fun p => { p with status := p.status ||| 2 } else s

/-- The draw of a round: POPFIX, or the launch's own (R510, R540). -/
def roundDraw (words : List W64) (pop : Nat) (p : Pop) : Nat :=
  if bit p.popfix.toNat 63 then p.popfix.toNat % 2 ^ 32
  else (thresh (BitVec.ofNat 64 (recWord words 0x10)) 0xFFFFFFFF (BitVec.ofNat 32 pop) (BitVec.ofNat 32 p.round) 0).1.toNat

/-- The registers of a population after a resampling. -/
def rescored (m : Nat) (mean : W32) (ess : Nat) (p : Pop) : Pop :=
  { p with status := p.status ||| (if m = 0x7F800000 then 4 else 0), round := p.round + 1, maxw := BitVec.ofNat 32 m, meanw := mean,
           ess := BitVec.ofNat 32 ess, popfix := p.popfix &&& 0x7FFFFFFFFFFFFFFF }

/-- The first pass: particles without offspring are retired, the others take the mean weight. -/
def firstPass (s : State) (owner : Nat) (mean : W32) (pairs : List (Nat × Nat)) : State :=
  (pairs.filter fun p => p.2 != 0).foldl (fun s p => s.modParticle p.1 fun x => { x with w := mean, st := 1 })
    ((pairs.filter fun p => p.2 == 0).foldl (fun s p => s.retireParticle owner p.1) s)

/-- ESS of some masses. -/
def essOf (masses : List Nat) : Nat := (roundNum fmtF32 .rne false false (masses.sum * masses.sum) (masses.map fun x => x * x).sum 0).1

variable {s : State} {lid : Nat} {l : Launch} {r : RoundState} {keys : List Nat} {m : Nat}

theorem nanSeen_pop (s : State) (pop : Nat) (keys : List Nat) : (nanSeen s pop keys).pop pop =
    { s.pop pop with status := if keys.any (isNanAt s) then (s.pop pop).status ||| 2 else (s.pop pop).status } := by
  unfold nanSeen
  cases keys.any (isNanAt s)
  · rfl
  · simp only [if_true, State.pop_modPop]

theorem nanSeen_rest (s : State) (pop : Nat) (keys : List Nat) :
    (nanSeen s pop keys).particles = s.particles ∧ (nanSeen s pop keys).launches = s.launches := by
  unfold nanSeen
  cases keys.any (isNanAt s) <;> exact ⟨rfl, rfl⟩

theorem nanSeen_particle (s : State) (pop : Nat) (keys : List Nat) (k : Nat) : (nanSeen s pop keys).particle k = s.particle k :=
  congrArg (Tbl.get · k Particle.reset) (nanSeen_rest s pop keys).1

/-! ### What a resampling does, by the sum of its masses -/

section Steps

variable (hkeys : sortNats (r.arrived.map handleKey) = keys) (hm : maxWeight (weights s keys) = m)
include hkeys hm

theorem resample_extinct (ht : ((weights s keys).map (massOf m)).sum = 0) :
    s.resample lid l r = (nanSeen s r.pop keys).extinction lid l r keys m := by
  simp only [weights, List.map_map, Function.comp_def] at hm ht
  simp only [State.resample, hkeys, List.map_map, List.any_map, Function.comp_def, hm]
  exact if_pos ht

/-- A resampling with some mass: its draw, the offspring counts and the first pass. -/
theorem resample_passes (ht : ((weights s keys).map (massOf m)).sum ≠ 0) :
    let masses := (weights s keys).map (massOf m)
    let mean := BitVec.ofNat 32 (meanWeight m masses.sum keys.length)
    let counts := offspring keys.length masses.sum (roundDraw l.words r.pop (s.pop r.pop)) 0 masses
    s.resample lid l r = (firstPass ((nanSeen s r.pop keys).modPop r.pop (rescored m mean (essOf masses))) l.ctx mean
      (keys.zip counts)).secondPass lid ((keys.zip counts).flatMap fun x =>
        List.replicate (x.2 - 1) { parent := x.1, waiting := false, failed := false }) := by
  have hdraw : roundDraw l.words r.pop (s.pop r.pop) = roundDraw l.words r.pop ((nanSeen s r.pop keys).pop r.pop) := by
    rw [nanSeen_pop]
    rfl
  rw [hdraw]
  simp only [weights, List.map_map, Function.comp_def] at hm ht ⊢
  rw [← cloneJobs_all]
  simp only [State.resample, hkeys, List.map_map, List.any_map, Function.comp_def, hm]
  rw [if_neg ht]
  simp only [firstPass, nanSeen, essOf, List.map_map, Function.comp_def]
  rfl

end Steps

theorem extinction_does (u : State) (hl : u.launch lid = some l) (hr : l.round = some r) (keys : List Nat) (m : Nat) :
    (u.extinction lid l r keys m).pop r.pop = { u.pop r.pop with
      status := (u.pop r.pop).status ||| 1, round := (u.pop r.pop).round + 1, maxw := BitVec.ofNat 32 m, meanw := 0xFF800000, ess := 0
      count := r.members.length, arrived := 0, strag := r.members.length } ∧
    (u.extinction lid l r keys m).round lid = some { r with extinct := true, arrived := [] } ∧
    ∀ k, (u.extinction lid l r keys m).particle k = if k ∈ keys then { u.particle k with st := 0, done := false } else u.particle k := by
  obtain ⟨hparticle, hpops, hlaunches⟩ := retireAll_does l.ctx keys u
  have hlaunch : State.launch (keys.foldl (fun s k => s.retireParticle l.ctx k) u) lid = some l :=
    (congrArg (Tbl.find · lid) hlaunches).trans hl
  have hpop : State.pop (keys.foldl (fun s k => s.retireParticle l.ctx k) u) r.pop = u.pop r.pop :=
    congrArg (Tbl.get · r.pop Pop.reset) hpops
  unfold State.extinction
  refine ⟨?_, round_modRound (s := State.modPop _ _ _) hlaunch hr _, hparticle⟩
  rw [← hpop]
  exact (State.pop_modLaunch _ _ _ _).trans ((State.pop_modPop _ _ _ _).trans (if_pos rfl))

theorem meanWeight_word (m t n : Nat) : BitVec.ofNat 32 (meanWeight m t n) = if m = 0x7F800000 then (0 : W32) else
    BitVec.ofNat 32 (deliver fmtF32 .rne (addVal .rne (fval .f32 m) (fval .f32 (log2Round fmtF32 .rne t (n * 2 ^ 40) 0).1))).1 := by
  unfold meanWeight
  split <;> rfl

theorem firstPass_does (u : State) (owner : Nat) (mean : W32) {counts : List Nat} (hk : keys.Pairwise (· < ·))
    (hlen : counts.length = keys.length) :
    let v := firstPass u owner mean (keys.zip counts)
    v.launches = u.launches ∧ (∀ p, v.pop p = u.pop p) ∧
      (∀ x ∈ keys.zip counts, v.particle x.1 = if x.2 = 0 then { u.particle x.1 with st := 0, done := false }
        else { u.particle x.1 with w := mean, st := 1 }) ∧
      ∀ k, k ∉ keys → v.particle k = u.particle k := by
  have hzip := zip_keys keys counts hlen
  obtain ⟨hpops, hlaunches, hin, hout⟩ := resamplePasses_does owner mean (keys.zip counts) u (by rw [hzip]; exact hk.imp Nat.ne_of_lt)
  exact ⟨hlaunches, fun p => congrArg (Tbl.get · p Pop.reset) hpops, hin, by rwa [hzip] at hout⟩

/-- The registers after a resampling that sets NANSEEN first. -/
theorem rescored_pop (s : State) (pop : Nat) (keys : List Nat) (m : Nat) (mean : W32) (ess : Nat) :
    ((nanSeen s pop keys).modPop pop (rescored m mean ess)).pop pop = rescored m mean ess
      { s.pop pop with status := if keys.any (isNanAt s) then (s.pop pop).status ||| 2 else (s.pop pop).status } := by
  rw [State.pop_modPop, if_pos rfl, nanSeen_pop]

/-- The particles of a round with some mass: what the first pass leaves, and the clones that the second pass is to make. -/
theorem resample_survives (hsorted : keys.Pairwise (· < ·)) (hkeys : sortNats (r.arrived.map handleKey) = keys)
    (hm : maxWeight (weights s keys) = m) (ht : ((weights s keys).map (massOf m)).sum ≠ 0) :
    let masses := (weights s keys).map (massOf m)
    let mean := BitVec.ofNat 32 (meanWeight m masses.sum keys.length)
    let counts := offspring keys.length masses.sum (roundDraw l.words r.pop (s.pop r.pop)) 0 masses
    ∃ v : State, s.resample lid l r = v.secondPass lid ((keys.zip counts).flatMap fun x =>
        List.replicate (x.2 - 1) { parent := x.1, waiting := false, failed := false }) ∧
      v.launches = s.launches ∧
      v.pop r.pop = rescored m mean (essOf masses)
        { s.pop r.pop with status := if keys.any (isNanAt s) then (s.pop r.pop).status ||| 2 else (s.pop r.pop).status } ∧
      (∀ x ∈ keys.zip counts, v.particle x.1 = if x.2 = 0 then { s.particle x.1 with st := 0, done := false }
        else { s.particle x.1 with w := mean, st := 1 }) ∧
      ∀ k, k ∉ keys → v.particle k = s.particle k := by
  intro masses mean counts
  have hlen : counts.length = keys.length := (offspring_length ..).trans (by simp [masses, weights])
  obtain ⟨hlaunches, hpop, hin, hout⟩ :=
    firstPass_does ((nanSeen s r.pop keys).modPop r.pop (rescored m mean (essOf masses))) l.ctx mean hsorted hlen
  refine ⟨_, resample_passes hkeys hm ht, hlaunches.trans (nanSeen_rest s r.pop keys).2, (hpop r.pop).trans (rescored_pop ..),
    fun x hx => ?_, fun k hk => (hout k hk).trans (nanSeen_particle s r.pop keys k)⟩
  rw [← nanSeen_particle s r.pop keys]
  exact hin x hx

end Resample

end Sys2Proof.Launches
end

section
/-! Launches, their rounds and their particles: the statement. -/

open Sys2Proof Sys2Proof.Machine
namespace Sys2Proof.Launches

/-- Settles O58: each event is done where it can be, and does what its own lemma says. Where the model chose among readings of the
spec: a freed record keeps its other fields (log entry 39), and of two zeros the negative one is the lesser weight (log entry 97). -/
theorem launchEvents : Obligations.LaunchEvents := by
  unfold Obligations.LaunchEvents
  refine ⟨?_, ?_, ?_, ?_, ?_, ?_, ?_, ?_, ?_, ?_, ?_, ?_, ?_, ?_, ?_, ?_⟩
  -- Starting
  · intro s sk x prio at_ hfront hx hw hbest lid
    obtain ⟨l, hlaunch, hsk, hctx, hwords, hoffered, hkill, hslots, hwaves, hrest⟩ :=
      begin_launch { s with slots := Tbl.put s.slots sk { x with lid := some lid } } sk lid x.words 0
    exact ⟨_, l, launchStart_starts hfront hx hw hbest, freeLid_least s, hlaunch, hsk, hctx, hwords, hoffered, hkill,
      (congrArg (Tbl.find · sk) hslots).trans (Tbl.find_put_same ..), hrest, hwaves⟩
  -- Offering
  · intro s lid die l hdie hl hscope hhart hfront hkill claim
    have h : Offers s lid die l := ⟨hl, hscope, hhart, hfront, hkill⟩
    refine ⟨fun hr => ⟨fun c rest hc => ?_, fun hc hmore => ?_⟩, fun r c rest pre hr hlist hon hfree hpre => ?_⟩
    · exact crewOffer_eq hdie (offer_returned h hr hc)
    · exact crewOffer_eq hdie (offer_next h hr hc hmore)
    · exact crewOffer_eq hdie (offer_particle h hr hlist hon hfree hpre)
  -- Binding
  · intro s core w0 w1 w2 w3 hcore hhart r
    refine ⟨fun h => ?_, fun cause h => ?_⟩
    · obtain ⟨hslot, hgang, hrest⟩ := acceptRec_does s r
      exact ⟨_, slotwr_accepts r hcore hhart h, hslot, hgang, hrest⟩
    · obtain ⟨hslot, hfrozen, hmail, hwaves, hblocks, hgangs⟩ := refuseRec_does s r cause
      exact ⟨_, slotwr_refuses r hcore hhart h, hslot, hfrozen, hwaves, hblocks, hmail, hgangs⟩
  -- The start of a gang
  · intro s lid crew l g0 gs hl hgs hready hres htwin hlend
    exact gangStart_does hl hgs hready hres htwin hlend
  -- Completing
  · intro s lid l hl hblocks hcarries hkill
    exact ⟨_, launchComplete_completes hl hblocks hcarries hkill, completeLaunch_gone s lid l⟩
  -- Pre-emption
  · intro s core val hcore hhart b m cleared refused area
    have hnext := preempt_next (val := val) hcore hhart
    refine ⟨fun h => hnext.trans (congrArg _ (preemptNow_ignored h)), fun hstart hidle =>
      ⟨fun hin => ?_, fun lid crew ctx hin => ⟨fun harea => ?_, fun harea => ?_⟩⟩⟩
    · exact hnext.trans (congrArg _ (preemptNow_empty hstart hidle hin))
    · exact hnext.trans (congrArg _ ((preemptNow_held hstart hidle hin).trans (if_neg (Bool.eq_false_iff.1 harea))))
    · have hb : b < 8 := Nat.mod_lt _ (by decide)
      exact ⟨_, hnext.trans (congrArg _ ((preemptNow_held hstart hidle hin).trans (if_pos harea))), begun_does hb⟩
  -- Saving
  · intro s lid crew c hc hrest hfree hwait
    exact ⟨_, preemptSave_saves hc hrest hfree hwait, saveCrew_does s lid crew c⟩
  -- Killing
  · intro s sk x hx
    refine ⟨launchKill_waiting hx, fun lid l hlid hl hor => ?_⟩
    cases hw : s.killWaits lid with
    | false => exact ⟨_, launchKill_finishes hx hlid hl hw, fun _ => finishKill_waves _ lid l, nofun⟩
    | true =>
      have hkill : l.killReq = none := hor.resolve_left (by simp [hw])
      exact ⟨_, launchKill_stops hx hlid hl hw hkill, nofun, fun _ => stopLaunch_does s lid hl hkill⟩
  -- The opening of a round
  · intro s lid l r hl hr hopen hkill hdet keys
    obtain ⟨⟨l', hlaunch, hblocks, hended⟩, hbound, hrest, hpop⟩ := openRound_does r hl
    exact ⟨_, l', roundOpen_opens hl hr hopen hkill hdet, hlaunch, hblocks, hended, hbound, hrest, hpop⟩
  -- Arrivals
  · intro s lid l r h pre rest hl hr hopen hlist hcar hpre hover
    exact ⟨taken s lid r.pop h, _, withArrival r h, taken_launch hl hr r.pop, rfl, rfl, rfl, rfl, taken_pop r.pop, rfl,
      particleArrival_waits hl hr hopen hlist hcar hpre hover, particleArrival_closes hl hr hopen hlist hcar hpre hover⟩
  -- Masses
  · intro m w
    refine ⟨massOf_infinite, massOf_none, ?_⟩
    intro hinf hnone d
    have hmass : massOf m w = massOfVal d := massOf_eq hinf hnone
    rw [hmass]
    refine ⟨massOfVal_notFinite, fun neg n e hd => ?_⟩
    rw [hd]
    refine ⟨fun hn => ?_, massOfVal_small, fun j he hn h0 hj => massOfVal_whole he hn h0 hj⟩
    rw [hn, massOfVal_equal]
  -- Offspring
  · intro n t u masses ht h0 hu
    subst ht
    exact offspring_does h0 hu
  -- Resampling
  · intro s lid l r keys m hl hr hsorted hmem nan ws hm hmax masses t n p seen
    have hkeys : sortNats (r.arrived.map handleKey) = keys := sortNats_unique hsorted hmem (sortNats_does _)
    have hgreatest : maxWeight (weights s keys) = m := maxWeight_max hm hmax
    refine ⟨fun ht => ?_, fun ht => ?_⟩
    · have hlaunch : (nanSeen s r.pop keys).launch lid = some l := (congrArg (Tbl.find · lid) (nanSeen_rest s r.pop keys).2).trans hl
      obtain ⟨hpop, hround, hpart⟩ := extinction_does (nanSeen s r.pop keys) hlaunch hr keys m
      rw [resample_extinct hkeys hgreatest ht]
      refine ⟨?_, hround, fun k => ?_⟩
      · rw [hpop, nanSeen_pop]
      · rw [hpart, nanSeen_particle]
    · intro u counts ratio mean ess
      obtain ⟨v, hv, hlaunches, hpop, hin, hout⟩ := resample_survives (lid := lid) (l := l) hsorted hkeys hgreatest ht
      rw [meanWeight_word] at hpop hin
      exact ⟨v, hv, hlaunches, hpop, hin, hout⟩
  -- The second pass
  · intro v lid l r hl hr
    exact secondPass_nothing hl hr
  -- Clones
  · intro s lid l pop j i die key par hi hfree hlow hlen hcopy hseq
    exact tryClone_makes (freeParticle_lowest hi hfree hlow hlen) hcopy hseq
  · intro s lid r hr hj
    exact cloneRetry_retries hr hj

end Sys2Proof.Launches
end

section
/-! Particles: the words of a PARTICLE launch (R514 to R519). -/

open Sys2Proof Sys2Proof.Machine
namespace Sys2Proof.Particles

/-! ### Weight operations (R515, R516) -/

section Weights

/-- The new weights of a weight operation, from its lane and the old weight. -/
abbrev Reweigh := Nat → Nat → Nat

/-- The word `i` is a weight operation: it gives the particle that lane `l` names the weight `op l old`. -/
def WeightWord (w : Fields) (s : State) (e : Env) (i : Instr) (op : Reweigh) : Prop :=
  ∃ body operands, exec i s = onWord w s body ∧ body e = weightOp e operands fun l old => op l old.toNat

theorem pwadd_weightWord (w : Fields) (s : State) (e : Env) : WeightWord w s e (.pwadd w) fun l old =>
    (deliver fmtF32 .rne (addVal .rne (fval .f32 old) (fval .f32 (e.b .f32 l)))).1 := ⟨_, _, rfl, rfl⟩

theorem pwset_weightWord (w : Fields) (s : State) (e : Env) : WeightWord w s e (.pwset w) fun l _ => e.b .f32 l := ⟨_, _, rfl, rfl⟩

theorem pkill_weightWord (w : Fields) (s : State) (e : Env) : WeightWord w s e (.pkill w) fun _ _ => 0xFF800000 := ⟨_, _, rfl, rfl⟩

/-- The state after the lanes' weights, one after the other. -/
def weighed (e : Env) (op : Reweigh) : State :=
  e.lanes.foldl (fun s l => s.setWeight (e.a .n32 l) (op l (s.particle (handleKey (e.a .n32 l))).w.toNat)) e.s

theorem weighed_rest (e : Env) (op : Reweigh) : { weighed e op with particles := e.s.particles, pops := e.s.pops } = e.s :=
  (setWeights_do (e.a .n32) op e.lanes e.s).1

theorem weighed_noWave (e : Env) (op : Reweigh) : NoWave e.s (weighed e op) :=
  have hrest := weighed_rest e op
  ⟨(congrArg State.waves hrest :), (congrArg State.launches hrest :)⟩

/-- One lane's NaN marks the population of its particle. -/
theorem weighed_status {e : Env} {l : Nat} (hl : e.lanes = [l]) (op : Reweigh) (p : Nat) : ((weighed e op).pop p).status =
    if p = (e.s.particle (handleKey (e.a .n32 l))).pop ∧ (fval .f32 (op l (e.s.particle (handleKey (e.a .n32 l))).w.toNat)).isNan
    then (e.s.pop p).status ||| 2 else (e.s.pop p).status := by
  rw [weighed, hl, List.foldl_cons, List.foldl_nil]
  exact congrArg Pop.status ((setWeight_does ..).2.2 p)

variable {w : Fields} {s : State} {e : Env} {i : Instr} {op : Reweigh}

theorem weightOp_passes (hp : e.s.isParticle e.wv.lid = true) (hk : e.killing = false) (halone : e.s.twinned e.wv = false)
    (hgood : ∀ l ∈ e.lanes, e.s.handleBad e.wv.lid (e.a .n32 l) true = none) (operands : Bytes) :
    weightOp e operands (fun l old => op l old.toNat) = .done { s := weighed e op } := by
  have hbad : (e.lanes.filterMap fun l => (e.s.handleBad e.wv.lid (e.a .n32 l) true).map fun n => (l, n, e.a .n32 l)) = [] :=
    List.filterMap_eq_nil_iff.2 fun l hl => by rw [hgood l hl]; rfl
  rw [weightOp_eq hp hk halone, hbad]
  simp [weighed, reasonTrap]

theorem weightOp_fails (hp : e.s.isParticle e.wv.lid = true) (hk : e.killing = false) (halone : e.s.twinned e.wv = false)
    {l n : Nat} (hl : e.lanes = [l]) (hbad : e.s.handleBad e.wv.lid (e.a .n32 l) true = some n) (operands : Bytes) :
    weightOp e operands (fun l old => op l old.toNat) = e.trapNow cPOP (BitVec.ofNat 64 n) (BitVec.ofNat 64 (e.a .n32 l)) (maskOf [l]) := by
  rw [weightOp_eq hp hk halone]
  simp [hl, hbad, reasonTrap_one, Env.trapNow]

theorem weights_written (h : Issues w s e) (hw : WeightWord w s e i op) (hp : e.s.isParticle e.wv.lid = true) (hk : e.killing = false)
    (hgood : ∀ l ∈ e.lanes, e.s.handleBad e.wv.lid (e.a .n32 l) true = none) :
    ∃ s' w', exec i e.s = .next s' ∧ Completes e (weighed e op) e.wv s' w' ∧ SameRegs e.wv w' ∧ w'.fpflags = e.wv.fpflags ∧
      w'.pending = e.wv.pending := by
  obtain ⟨body, operands, hexec, hbody⟩ := hw
  exact quiet_of h hexec (hbody.trans (weightOp_passes hp hk h.alone hgood operands)) (weighed_noWave e op)

theorem weight_faults (h : Issues w s e) (hw : WeightWord w s e i op) (hp : e.s.isParticle e.wv.lid = true) (hk : e.killing = false)
    {l n : Nat} (hl : e.lanes = [l]) (hbad : e.s.handleBad e.wv.lid (e.a .n32 l) true = some n) (hh : e.wv.handler = none)
    (ht : e.wv.tvec ≠ 0) : FaultsWith e i cPOP (BitVec.ofNat 64 n) (BitVec.ofNat 64 (e.a .n32 l)) (maskOf [l]) := by
  obtain ⟨body, operands, hexec, hbody⟩ := hw
  exact fault_traps (ld := false) h hexec (hbody.trans (weightOp_fails hp hk h.alone hl hbad operands)) hh ht

theorem weightWord_illegal (h : Issues w s e) (hw : WeightWord w s e i op) (hp : e.s.isParticle e.wv.lid = false)
    (hh : e.wv.handler = none) (ht : e.wv.tvec ≠ 0) : FaultsWith e i cILLEGAL (e.cl.words.getD e.cl.idx 0) 0 e.frag.mask := by
  obtain ⟨body, operands, hexec, hbody⟩ := hw
  refine faults_illegal h hexec (hbody.trans ?_) hh ht
  rw [weightOp, hp]
  rfl

end Weights

/-! ### RSB (R517) -/

/-- RSB's meaning. -/
def rsbBody (e : Env) : WRes :=
  if !e.s.isParticle e.wv.lid || !e.wv.whole || e.wv.spanOpen || e.wv.handler.isSome then e.illegal
  else if e.s.detQuorum e.wv.lid then e.trapNow cDET_FORBIDDEN 0 0 e.frag.mask
  else if e.killing then .wait e.s .allResults
  else atCompare e [] fun e =>
    .placed (e.s.modWave e.wid fun w => { w.exitLanes e.fr e.frag e.frag.mask e.cl with rsb := true }) []

theorem exec_rsb (w : Fields) (s : State) : exec (.rsb w) s = onWord w s rsbBody := rfl

theorem rsbBody_illegal {e : Env} (hp : e.s.isParticle e.wv.lid = false) : rsbBody e = e.illegal := by
  rw [rsbBody, hp]
  rfl

/-- A whole fragment that exits with all of its lanes leaves its wave without fragments. -/
theorem exitLanes_whole {w : Fields} {s : State} {e : Env} (F : WordFacts w s e) (hw : e.wv.whole = true) :
    e.wv.exitLanes e.fr e.frag e.frag.mask e.cl = { e.wv with frags := [] } := by
  have hfrags := whole_frags F hw
  obtain ⟨hdef, hheld⟩ : e.frag.deferred = none ∧ e.frag.held = none := by simpa [Wave.whole, hfrags] using hw
  have hdone : e.wv.fragDone e.fr e.frag = { e.wv with frags := [] } := by
    simp [Wave.fragDone, hdef, hheld, hfrags, Tbl.del]
  rw [Wave.exitLanes, if_pos (BitVec.and_not_self _), hdone]
  exact merge_none (by simp)

theorem rsb_retires {w : Fields} {s : State} {e : Env} (h : Issues w s e) (hp : e.s.isParticle e.wv.lid = true)
    (hk : e.killing = false) (hw : e.wv.whole = true) (hspan : e.wv.spanOpen = false) (hh : e.wv.handler = none)
    (hdet : e.s.detQuorum e.wv.lid = false) :
    exec (.rsb w) e.s = .next (e.s.modWave e.wid fun _ => { e.wv with frags := [], rsb := true }) := by
  rw [Waves.exec_placedWave h (f := fun v => { v.exitLanes e.fr e.frag e.frag.mask e.cl with rsb := true }) (exec_rsb w s),
    exitLanes_whole h.facts hw]
  simp [rsbBody, hp, hk, hw, hspan, hh, hdet, atCompare_single h.alone]

/-! ### POPR (R513, R518) -/

/-- The handle that POPR names: an operand, or the wave's own particle. -/
def namedHandle (e : Env) : Nat := if e.w.a = 0xE0 then e.wv.part.toNat else e.uni e.w.a.toNat .n32

/-- POPR's meaning. -/
def poprBody (e : Env) : WRes :=
  if !e.s.isParticle e.wv.lid then e.illegal
  else if e.killing then .wait e.s .allResults
  else leaderOnce e (leBytes 8 (namedHandle e)) fun g =>
    match g.s.handleBad g.wv.lid (namedHandle e) false with
    | some n => g.trapNow cPOP (BitVec.ofNat 64 n) (BitVec.ofNat 64 (namedHandle e)) g.frag.mask
    | none => .done { s := g.s, ws := g.putS (popReg g.s (namedHandle e) (g.f 3 0)) }

theorem exec_popr (w : Fields) (s : State) : exec (.popr w) s = onWord w s poprBody := rfl

theorem poprBody_illegal {e : Env} (hp : e.s.isParticle e.wv.lid = false) : poprBody e = e.illegal := by
  rw [poprBody, hp]
  rfl

section Popr
variable {e : Env} (hp : e.s.isParticle e.wv.lid = true) (hk : e.killing = false) (halone : e.s.twinned e.wv = false)
include hp hk halone

theorem poprBody_reads (hgood : e.s.handleBad e.wv.lid (namedHandle e) false = none) :
    poprBody e = .done { s := e.s, ws := e.putS (popReg e.s (namedHandle e) (e.f 3 0)) } := by
  rw [poprBody, hp, hk, leaderOnce_single halone, hgood]
  rfl

theorem poprBody_traps {n : Nat} (hbad : e.s.handleBad e.wv.lid (namedHandle e) false = some n) :
    poprBody e = e.trapNow cPOP (BitVec.ofNat 64 n) (BitVec.ofNat 64 (namedHandle e)) e.frag.mask := by
  rw [poprBody, hp, hk, leaderOnce_single halone, hbad]
  rfl

end Popr

/-! ### The statement -/

/-- Settles O47: a weight operation whose handles pass gives its weights, one of a single bad handle traps; RSB empties its wave, and
POPR reads or traps; each is illegal outside a PARTICLE launch. -/
theorem particleWords : Obligations.ParticleWords := by
  unfold Obligations.ParticleWords
  intro w s e h handle norm words
  have hwords : ∀ i op, (i, op) ∈ words → WeightWord w s e i op := by
    intro i op hmem
    simp only [words, List.mem_cons, List.not_mem_nil, or_false, Prod.mk.injEq] at hmem
    obtain ⟨rfl, rfl⟩ | ⟨rfl, rfl⟩ | ⟨rfl, rfl⟩ := hmem
    · exact pwadd_weightWord w s e
    · exact pwset_weightWord w s e
    · exact pkill_weightWord w s e
  refine ⟨fun hp hk => ⟨fun i op hmem hgood => ?_, fun i op l n hmem hl hbad hh ht => ?_, fun hw hspan hh hdet => ?_,
    fun hgood => ?_, fun n hbad hh ht => ?_⟩, fun hp hh ht i hi => ?_⟩
  · obtain ⟨s', w', hexec, hcomp, hregs, hflags, hpending⟩ := weights_written h (hwords i op hmem) hp hk hgood
    obtain ⟨hrest, hpart, hpop⟩ := setWeights_do handle op e.lanes e.s
    exact ⟨s', weighed e op, w', hexec, hcomp, hregs, hflags, hpending, hrest, hpart, hpop, fun l hl => weighed_status hl op⟩
  · exact weight_faults h (hwords i op hmem) hp hk hl hbad hh ht
  · exact ⟨_, _, rsb_retires h hp hk hw hspan hh hdet, State.wave_modWave_of h.wave, rfl, rfl, rfl, rfl,
      fun k hk => (State.wave_modWave ..).trans (if_neg hk)⟩
  · exact .of_putS h (exec_popr w s) (poprBody_reads hp hk h.alone hgood)
  · exact fault_traps h (exec_popr w s) (poprBody_traps hp hk h.alone hbad) hh ht
  · simp only [List.mem_cons, List.not_mem_nil, or_false] at hi
    obtain rfl | rfl | rfl | rfl | rfl := hi
    · exact weightWord_illegal h (pwadd_weightWord w s e) hp hh ht
    · exact weightWord_illegal h (pwset_weightWord w s e) hp hh ht
    · exact weightWord_illegal h (pkill_weightWord w s e) hp hh ht
    · exact faults_illegal h (exec_rsb w s) (rsbBody_illegal hp) hh ht
    · exact faults_illegal h (exec_popr w s) (poprBody_illegal hp) hh ht

end Sys2Proof.Particles
end

section
/-! The host link: accesses through a function's window (R525, R532, R542 to R546). -/

open Sys2Proof Sys2Proof.Machine
open Sys2Proof.Numbers (onEvent_next)
namespace Sys2Proof.Links

/-! ### Places that an access from outside meets -/

/-- Some place lies on a line that a DET launch holds open (R525). -/
def Intrudes (s : State) (ls : List Loc) : Prop := ∃ l ∈ ls, s.openTo none l = true

/-- No place lies on a poisoned line. -/
def Clean (s : State) (ls : List Loc) : Prop := ∀ l ∈ ls, s.poisoned l = false

/-- Nothing makes a write from outside to the places wait (R222, R408, R528). -/
def Ready (s : State) (ls : List Loc) : Prop := s.grantOnLines noWave ls = none ∧ s.recallRoom ls = true

section Places
variable {s : State} {ls : List Loc}

theorem Clean.any (h : Clean s ls) : ls.any s.poisoned = false :=
  any_false fun ⟨l, hl, hpoison⟩ => Bool.false_ne_true ((h l hl).symm.trans hpoison)

theorem any_poisoned (h : ¬Clean s ls) : ls.any s.poisoned = true := by
  rw [List.any_eq_true]
  simpa [Clean] using h

theorem Ready.outsideWaits (h : Ready s ls) : s.outsideWaits ls = false := by
  rw [State.outsideWaits, h.1, h.2]
  rfl

/-- An atomic on device memory returns the bytes at home and records the scope entry of its first byte (R408, R410, R546). -/
theorem outsideAtomic_dev {pa : Nat} (hhead : ls.head? = some (.dev pa)) (ctx : Nat) (f : Nat → Nat) :
    s.outsideAtomic ctx ls f =
      let t := s.recallLocs ls
      let old := ofLE (ls.map (t.homeByte ctx))
      (old, (t.writeDev ctx 0 none (devBytes (ls.zip (leBytes ls.length (f old))))).scopeHome (lineOf pa) 4 .outside) := by
  simp only [State.outsideAtomic, hhead]

end Places

/-! ### Requests of a function (R532) -/

section Requests
variable {s : State} {fn : Nat} {i : Instr} {name : String} {f : State → Option State} (hi : exec i s = hostRequest name fn s f)
include hi

theorem request_next (h : s.served fn) {t : State} (ht : f s = some t) : exec i s = .next t :=
  hi.trans ((hostRequest_served h f).trans (onEvent_next ht))

theorem request_aborts (hfn : fn < 64) (hfrozen : (s.fn fn).frozen = true) : exec i s = .next (s.abortRead fn) :=
  hi.trans (hostRequest_frozen hfn hfrozen f)

end Requests

/-! ### Reads (R545) -/

/-- A read of places, once the errors of their lines have been met. -/
def readPlaces (s : State) (fn ctx : Nat) (ls : List Loc) : Option State :=
  if ls.any fun l => s.openTo none l then some ((s.freezeFn fn ctx).abortRead fn)
  else if ls.any s.poisoned then some (s.show (.poisoned fn))
  else if !s.recallRoom ls then none
  else some ((s.recallLocs ls).show (.completion fn true (ls.map ((s.recallLocs ls).hostView ctx))))

/-- A read through the window. -/
def readWindow (fn off len : Nat) (s : State) : Option State :=
  match s.windowPlaces fn off len .read with
  | none => some (s.abortRead fn)
  | some (ctx, ls) => readPlaces (s.meetHome ls) fn ctx ls

theorem exec_hostWindowRead (fn off len : Nat) (s : State) :
    exec (.hostWindowRead fn off len) s = hostRequest "HOST_WINDOW_READ" fn s (readWindow fn off len) := rfl

section Reads
variable {s : State} {fn off len ctx : Nat} {ls : List Loc}

theorem readWindow_unplaced (hp : s.windowPlaces fn off len .read = none) : readWindow fn off len s = some (s.abortRead fn) := by
  rw [readWindow, hp]

theorem readWindow_placed (hp : s.windowPlaces fn off len .read = some (ctx, ls)) :
    readWindow fn off len s = readPlaces (s.meetHome ls) fn ctx ls := by
  rw [readWindow, hp]

theorem readPlaces_intrudes (ho : Intrudes s ls) : readPlaces s fn ctx ls = some ((s.freezeFn fn ctx).abortRead fn) :=
  if_pos (any_true ho)

theorem readPlaces_poisoned (ho : ¬Intrudes s ls) (hc : ¬Clean s ls) : readPlaces s fn ctx ls = some (s.show (.poisoned fn)) := by
  rw [readPlaces, any_false ho, any_poisoned hc]
  rfl

theorem readPlaces_completes (ho : ¬Intrudes s ls) (hc : Clean s ls) (hr : s.recallRoom ls = true) :
    readPlaces s fn ctx ls = some ((s.recallLocs ls).show (.completion fn true (ls.map ((s.recallLocs ls).hostView ctx)))) := by
  rw [readPlaces, any_false ho, hc.any, hr]
  rfl

end Reads

/-! ### Writes (R545) -/

/-- A write through the window. -/
def writeWindow (fn off : Nat) (data : Bytes) (s : State) : Option State :=
  match s.windowPlaces fn off data.length .write with
  | none => some (s.modFn fn fun f => { f with errors := f.errors + 1 })
  | some (ctx, ls) =>
    if s.outsideWaits ls then none
    else if ls.any fun l => s.openTo none l then some (s.freezeFn fn ctx)
    else some (s.writeOutside ctx .host (ls.zip data))

theorem exec_hostWindowWrite (fn off : Nat) (data : Bytes) (s : State) : exec (.hostWindowWrite fn off data) s =
    if 64 ≤ fn then .fault .noSuchUnit
    else if (s.fn fn).frozen then .next s
    else onEvent "HOST_WINDOW_WRITE" (writeWindow fn off data s) := rfl

section Writes
variable {s : State} {fn off ctx : Nat} {data : Bytes} {ls : List Loc}

theorem windowWrite_next (h : s.served fn) {t : State} (ht : writeWindow fn off data s = some t) :
    exec (.hostWindowWrite fn off data) s = .next t := by
  rw [exec_hostWindowWrite, if_neg (Nat.not_le.2 h.1), h.2]
  exact onEvent_next ht

theorem windowWrite_frozen (hfn : fn < 64) (hfrozen : (s.fn fn).frozen = true) : exec (.hostWindowWrite fn off data) s = .next s := by
  rw [exec_hostWindowWrite, if_neg (Nat.not_le.2 hfn), if_pos hfrozen]

theorem writeWindow_unplaced (hp : s.windowPlaces fn off data.length .write = none) :
    writeWindow fn off data s = some (s.modFn fn fun f => { f with errors := f.errors + 1 }) := by
  rw [writeWindow, hp]

variable (hp : s.windowPlaces fn off data.length .write = some (ctx, ls)) (hr : Ready s ls)
include hp hr

theorem writeWindow_intrudes (ho : Intrudes s ls) : writeWindow fn off data s = some (s.freezeFn fn ctx) := by
  simp only [writeWindow, hp, hr.outsideWaits, any_true ho]
  rfl

theorem writeWindow_writes (ho : ¬Intrudes s ls) : writeWindow fn off data s = some (s.writeOutside ctx .host (ls.zip data)) := by
  simp only [writeWindow, hp, hr.outsideWaits, any_false ho]
  rfl

end Writes

/-! ### Atomics (R406, R546) -/

/-- The bytes of an atomic's element. -/
def elemSize (wide : Bool) : Nat := if wide then 8 else 4

/-- An atomic through the window. -/
def atomicWindow (fn off : Nat) (op : HostAtom) (wide : Bool) (val : W64) (s : State) : Option State :=
  match s.windowPlaces fn off (elemSize wide) .write with
  | none => some (s.abortRead fn)
  | some (ctx, ls) =>
    if off % elemSize wide ≠ 0 || !allDev ls then some (s.abortRead fn)
    else if s.outsideWaits ls then none
    else if ls.any fun l => s.openTo none l then some ((s.freezeFn fn ctx).abortRead fn)
    else if ls.any (s.meetHome ls).poisoned then some ((s.meetHome ls).show (.poisoned fn))
    else
      let x := (s.meetHome ls).outsideAtomic ctx ls fun old => HostAtom.apply op (elemSize wide) old val.toNat
      some (x.2.show (.completion fn true (leBytes (elemSize wide) x.1)))

theorem exec_hostAtomic (fn off : Nat) (op : HostAtom) (wide : Bool) (val : W64) (s : State) :
    exec (.hostAtomic fn off op wide val) s = hostRequest "HOST_ATOMIC" fn s (atomicWindow fn off op wide val) := rfl

/-- The window serves an atomic on the places: its element is aligned and lies in device memory. -/
def Servable (off n : Nat) (ls : List Loc) : Prop := off % n = 0 ∧ ∀ l ∈ ls, ∃ pa, l = .dev pa

theorem servable_iff {off n : Nat} {ls : List Loc} : (off % n ≠ 0 || !allDev ls) = false ↔ Servable off n ls := by
  rw [Servable, ← allDev_iff]
  simp

section Atomics
variable {s : State} {fn off ctx : Nat} {op : HostAtom} {wide : Bool} {val : W64} {ls : List Loc}

theorem atomicWindow_unplaced (hp : s.windowPlaces fn off (elemSize wide) .write = none) :
    atomicWindow fn off op wide val s = some (s.abortRead fn) := by
  rw [atomicWindow, hp]

variable (hp : s.windowPlaces fn off (elemSize wide) .write = some (ctx, ls))
include hp

theorem atomicWindow_unserved (hs : ¬Servable off (elemSize wide) ls) : atomicWindow fn off op wide val s = some (s.abortRead fn) := by
  simp only [atomicWindow, hp]
  exact if_pos (Bool.eq_true_of_not_eq_false (mt servable_iff.1 hs))

variable (hs : Servable off (elemSize wide) ls) (hr : Ready s ls) (ho : ¬Intrudes s ls)
include hs hr ho

theorem atomicWindow_poisoned (hc : ¬Clean (s.meetHome ls) ls) :
    atomicWindow fn off op wide val s = some ((s.meetHome ls).show (.poisoned fn)) := by
  simp only [atomicWindow, hp, servable_iff.2 hs, hr.outsideWaits, any_false ho, any_poisoned hc]
  rfl

theorem atomicWindow_updates (hc : Clean (s.meetHome ls) ls) {pa : Nat} (hhead : ls.head? = some (.dev pa)) :
    atomicWindow fn off op wide val s =
      let t := (s.meetHome ls).recallLocs ls
      let old := ofLE (ls.map (t.homeByte ctx))
      some (((t.writeDev ctx 0 none (devBytes (ls.zip (leBytes ls.length (HostAtom.apply op (elemSize wide) old val.toNat))))).scopeHome
        (lineOf pa) 4 .outside).show (.completion fn true (leBytes (elemSize wide) old))) := by
  simp only [atomicWindow, hp, servable_iff.2 hs, hr.outsideWaits, any_false ho, hc.any, outsideAtomic_dev hhead]
  rfl

end Atomics

theorem exec_hostCasRequest (fn off : Nat) (s : State) : exec (.hostCasRequest fn off) s =
    hostRequest "HOST_CAS_REQUEST" fn s fun s => some (s.show (.unsupported fn)) := rfl

/-- A function that is reset is served again (R532). -/
theorem functionReset_thaws {fn : Nat} (hfn : fn < 64) (s : State) :
    exec (.hostFunctionReset fn) s = .next (s.modFn fn fun f => { f with frozen := false }) := if_neg (Nat.not_le.2 hfn)

end Sys2Proof.Links
end

section
/-! The peer ports: a peer's requests, and answers to the package's own (R525, R532, R548 to R553). -/

open Sys2Proof Sys2Proof.Machine
open Sys2Proof.Numbers (onEvent_next)
namespace Sys2Proof.Links

theorem onPort_on {port : Nat} (hport : port < 16) (r : Host.Outcome State Fault Refusal) : onPort port r = r := if_pos hport

/-! ### Requests (R550, R551) -/

/-- The context that a peer's request names. -/
def reqContext : PeerReq → Nat
  | .read rctx _ _ => rctx
  | .copyWrite rctx _ _ => rctx
  | .atomic rctx _ _ _ _ _ => rctx

/-- The port freezes and refuses (R532, R550). -/
def refused (s : State) (port : Nat) : State := (s.freezePort port Config.grantCause.toNat 0xFF).replyBad port cPROT

section Requests
variable {s : State} {port : Nat}

theorem peerRequest_next (hport : port < 16) {req : PeerReq} {t : State} (ht : s.peerServe port req = some t) :
    exec (.peerRequest port req) s = .next t := (onPort_on hport _).trans (onEvent_next ht)

theorem peerCommitUnit_next (hport : port < 16) {first : Nat × Nat × Byte} {rest : List (Nat × Nat × Byte)} {t : State}
    (ht : s.peerUnit port (first :: rest) = some t) : exec (.peerCommitUnit port first rest) s = .next t :=
  (onPort_on hport _).trans (onEvent_next ht)

theorem peerServe_frozen (hf : (s.port port).frozen = true) (req : PeerReq) : s.peerServe port req = some (s.replyBad port cPROT) := by
  cases req <;> exact peerAccess_frozen hf

theorem peerUnit_frozen (hf : (s.port port).frozen = true) (bytes : List (Nat × Nat × Byte)) :
    s.peerUnit port bytes = some (s.replyBad port cPROT) := if_pos hf

variable (hf : (s.port port).frozen = false)
include hf

theorem peerServe_ungranted {req : PeerReq} (hg : (s.port port).grants (reqContext req) = false) :
    s.peerServe port req = some (refused s port) := by
  cases req <;> exact peerAccess_ungranted hf hg

/-- One context without a grant refuses the whole unit (R550). -/
theorem peerUnit_ungranted {bytes : List (Nat × Nat × Byte)} (hg : ∃ x ∈ bytes, (s.port port).grants x.1 = false) :
    s.peerUnit port bytes = some (refused s port) := by
  have hany : (bytes.any fun p => !(s.port port).grants p.1) = true := any_true (by simpa using hg)
  rw [State.peerUnit, hf, if_neg Bool.false_ne_true, if_pos hany]
  rfl

/-- The bytes of a unit are written once for each of its contexts. -/
theorem peerUnit_writes {bytes : List (Nat × Nat × Byte)} {l : List (Nat × Loc × Byte)}
    (hg : ∀ x ∈ bytes, (s.port port).grants x.1 = true) (hp : s.unitPlaces bytes = .ok l) (ho : ¬Intrudes s (l.map (·.2.1)))
    (hr : Ready s (l.map (·.2.1))) : s.peerUnit port bytes = some ((s.writeUnit l).reply port true []) := by
  have hany : (bytes.any fun p => !(s.port port).grants p.1) = false :=
    any_false fun ⟨x, hx, hbad⟩ => by simp [hg x hx] at hbad
  simp only [State.peerUnit, hf, hany, hp, any_false ho, hr.outsideWaits]
  rfl

variable {rctx : Nat} (hg : (s.port port).grants rctx = true) {va : Nat} {ls : List Loc} (ho : ¬Intrudes s ls)
include hg ho

/-! #### Reads -/

theorem peerRead_poisoned {len : Nat} (hp : s.tablePlaces rctx va len .read = .ok ls) (hc : ¬Clean (s.meetHome ls) ls) :
    s.peerServe port (.read rctx va len) = some ((s.meetHome ls).replyBad port cUNCORRECTABLE) := by
  refine (peerAccess_ok hf hg hp ho).trans ?_
  simp only [any_poisoned hc, if_true]

theorem peerRead_answers {len : Nat} (hp : s.tablePlaces rctx va len .read = .ok ls) (hc : Clean (s.meetHome ls) ls)
    (hr : (s.meetHome ls).recallRoom ls = true) : s.peerServe port (.read rctx va len) =
      some (((s.meetHome ls).recallLocs ls).reply port true (ls.map (((s.meetHome ls).recallLocs ls).homeByte rctx))) := by
  refine (peerAccess_ok hf hg hp ho).trans ?_
  simp only [hc.any, hr]
  rfl

/-! #### Writes and atomics -/

theorem peerWrite_writes {data : Bytes} (hp : s.tablePlaces rctx va data.length .write = .ok ls) (hr : Ready s ls) :
    s.peerServe port (.copyWrite rctx va data) = some ((s.writeOutside rctx .peer (ls.zip data)).reply port true []) := by
  refine (peerAccess_ok hf hg hp ho).trans ?_
  rw [hr.outsideWaits]
  rfl

theorem peerAtomic_updates {op ty : Nat} {t : Ty} {val : W64} {ret : Bool} (hty : tyOf ty = some t)
    (hp : s.tablePlaces rctx va (elemBytes t) .write = .ok ls) (hs : Servable va (elemBytes t) ls) (hr : Ready s ls)
    (hc : Clean (s.meetHome ls) ls) {pa : Nat} (hhead : ls.head? = some (.dev pa)) :
    s.peerServe port (.atomic rctx va op ty val ret) =
      let u := (s.meetHome ls).recallLocs ls
      let old := ofLE (ls.map (u.homeByte rctx))
      some (((u.writeDev rctx 0 none (devBytes (ls.zip (leBytes ls.length (combine op t .rne old val.toNat).1)))).scopeHome
        (lineOf pa) 4 .outside).reply port true (if ret then leBytes (elemBytes t) old else [])) := by
  simp only [State.peerServe, hty, Option.getD_some]
  rw [peerAccess_ok hf hg hp ho]
  simp only [servable_iff.2 hs, hr.outsideWaits, hc.any, outsideAtomic_dev hhead]
  rfl

end Requests

/-! ### The port itself (R552, R553) -/

/-- No operation of a port that goes down is in flight any more, and none has begun. -/
theorem portDown_does {port : Nat} (hport : port < 16) (s : State) :
    ∃ t, exec (.peerPortDown port) s = .next t ∧ (t.port port).up = false ∧ ∀ x ∈ t.peerOps, x ∈ s.peerOps ∧ x.port ≠ port := by
  obtain ⟨hports, hops⟩ := answers_peers (s.peerOps.filter fun x => x.port == port) false [BitVec.ofNat 8 cPROT]
    (s.modPort port fun p => { p with up := false })
  refine ⟨_, onPort_on hport _, ?_, fun x hx => ?_⟩
  · rw [State.port, hports, ← State.port, State.port_modPort, if_pos rfl]
  · obtain ⟨hmem, hgone⟩ := hops x hx
    exact ⟨hmem, fun hon => hgone x (List.mem_filter.2 ⟨hmem, beq_iff_eq.2 hon⟩) rfl⟩

/-! ### Answers (R551, R552) -/

/-- The operation is in flight no more. -/
def answered (s : State) (x : PeerOp) : State := { s with peerOps := s.peerOps.filter fun y => y.id != x.id }

section Answers
variable {s : State} {x : PeerOp}

theorem peerAck_answers (hx : x ∈ s.peerOps) (honly : ∀ y ∈ s.peerOps, y.id = x.id → y = x) (ok : Bool) (data : Bytes) :
    exec (.peerAck x.id ok data) s = .next (s.answerOp x ok data) := by
  have hfind : (s.peerOps.find? fun y => y.id == x.id) = some x := by
    obtain ⟨y, hy⟩ : ∃ y, (s.peerOps.find? fun y => y.id == x.id) = some y :=
      Option.isSome_iff_exists.1 (List.find?_isSome.2 ⟨x, hx, beq_self_eq_true x.id⟩)
    have hid : y.id = x.id := by simpa using List.find?_some hy
    rw [hy, honly y (List.mem_of_find?_eq_some hy) hid]
  refine onEvent_next ?_
  rw [hfind]
  rfl

theorem answerOp_gone (s : State) (x : PeerOp) (ok : Bool) (data : Bytes) :
    (s.answerOp x ok data).peerOps.filter (fun y => y.id == x.id) = [] := by
  have hops : (s.answerOp x ok data).peerOps = s.peerOps.filter fun y => y.id != x.id := congrArg Prod.fst (answerOp_peers s x ok data)
  rw [hops]
  simp [List.filter_eq_nil_iff]

variable {ok : Bool} {data : Bytes}

theorem answerOp_gives (h : x.kind = .read ∨ ((∃ op ty, x.kind = .atom op ty) ∧ ok = true)) :
    s.answerOp x ok data = (answered s x).giveAnswer x ok data := by
  obtain hk | ⟨⟨op, ty, hk⟩, rfl⟩ := h <;> simp only [State.answerOp, hk] <;> rfl

theorem answerOp_done (h : x.kind = .swath ∨ x.kind = .stale ∨ ((x.kind = .unit ∨ ∃ op ty, x.kind = .red op ty) ∧ ok = true)) :
    s.answerOp x ok data = answered s x := by
  obtain hk | hk | ⟨hk | ⟨op, ty, hk⟩, rfl⟩ := h <;> simp only [State.answerOp, hk] <;> rfl

theorem answerOp_fails (h : x.kind = .unit ∨ ∃ op ty, x.kind = .red op ty ∨ x.kind = .atom op ty) :
    s.answerOp x false data = (answered s x).failOp x := by
  obtain hk | ⟨op, ty, hk | hk⟩ := h <;> simp only [State.answerOp, hk] <;> rfl

end Answers

end Sys2Proof.Links
end

section
/-! The host link and the peer ports: the statement. -/

open Sys2Proof Sys2Proof.Machine
namespace Sys2Proof.Links

/-- Settles O56: each access is placed, checked and performed as its own lemma says. The model's choices among readings of the spec
are log entries 66 (the host's accesses), 67 (a peer's requests) and 68 (operations that fail over a port). -/
theorem linkEvents : Obligations.LinkEvents := by
  unfold Obligations.LinkEvents
  intro s shown open_ clean ready
  refine ⟨?_, fun fn hfn => functionReset_thaws hfn s, ?_, ?_, ?_⟩
  -- Requests of a function that is served
  · intro fn off h aborted frozen
    refine ⟨fun len hp => request_next (exec_hostWindowRead ..) h (readWindow_unplaced hp), ?_,
      fun data hp => windowWrite_next h (writeWindow_unplaced hp), fun data ctx ls hp hr => ⟨fun ho => ?_, fun ho => ?_⟩, ?_,
      request_next (exec_hostCasRequest ..) h rfl⟩
    · intro len ctx ls hp met t
      have hnext {u : State} (hu : readPlaces met fn ctx ls = some u) : exec (.hostWindowRead fn off len) s = .next u :=
        request_next (exec_hostWindowRead ..) h ((readWindow_placed hp).trans hu)
      exact ⟨fun ho hc hr => hnext (readPlaces_completes ho hc hr), fun ho hc => hnext (readPlaces_poisoned ho hc),
        fun ho => hnext (readPlaces_intrudes ho)⟩
    · exact windowWrite_next h (writeWindow_writes hp hr ho)
    · exact windowWrite_next h (writeWindow_intrudes hp hr ho)
    · intro op wide val n
      have hnext {u : State} (hu : atomicWindow fn off op wide val s = some u) : exec (.hostAtomic fn off op wide val) s = .next u :=
        request_next (exec_hostAtomic ..) h hu
      refine ⟨fun hp => hnext (atomicWindow_unplaced hp), ?_⟩
      intro ctx ls hp at_ met t old new
      refine ⟨fun hs => hnext (atomicWindow_unserved hp hs), fun hs hr ho hc => hnext (atomicWindow_poisoned hp hs hr ho hc),
        fun hs hr ho hc pa hhead => (hnext (atomicWindow_updates hp hs hr ho hc hhead)).trans ?_⟩
      cases op <;> rfl
  -- Requests of a frozen function
  · intro fn off len data op wide val hfn hfrozen
    refine ⟨windowWrite_frozen hfn hfrozen, fun i hi => ?_⟩
    simp only [List.mem_cons, List.not_mem_nil, or_false] at hi
    obtain rfl | rfl | rfl := hi
    · exact request_aborts (exec_hostWindowRead ..) hfn hfrozen
    · exact request_aborts (exec_hostAtomic ..) hfn hfrozen
    · exact request_aborts (exec_hostCasRequest ..) hfn hfrozen
  -- Requests of a peer
  · intro port rctx hport p reply granted
    have hgrant : p.frozen = false → (granted ↔ p.grants rctx = true) := fun hf => by simp [granted, hf, Port.grants]
    refine ⟨fun va len data op ty val ret i hi => ?_, fun hgranted => ?_, fun first rest l hf hg hp ho hr => ?_, portDown_does hport s,
      fun serial => onPort_on hport _, onPort_on hport _⟩
    · simp only [List.mem_cons, List.not_mem_nil, or_false] at hi
      refine ⟨fun hf => ?_, fun hf hno => ?_⟩
      · obtain rfl | rfl | rfl | rfl := hi
        · exact peerRequest_next hport (peerServe_frozen hf _)
        · exact peerRequest_next hport (peerServe_frozen hf _)
        · exact peerRequest_next hport (peerServe_frozen hf _)
        · exact peerCommitUnit_next hport (peerUnit_frozen hf _)
      · have hg : p.grants rctx = false := by simpa using mt (hgrant hf).2 hno
        obtain rfl | rfl | rfl | rfl := hi
        · exact peerRequest_next hport (peerServe_ungranted hf hg)
        · exact peerRequest_next hport (peerServe_ungranted hf hg)
        · exact peerRequest_next hport (peerServe_ungranted hf hg)
        · exact peerCommitUnit_next hport (peerUnit_ungranted hf ⟨_, List.mem_cons_self, hg⟩)
    · have hf : p.frozen = false := hgranted.1
      have hg : p.grants rctx = true := (hgrant hf).1 hgranted
      refine ⟨?_, fun va data ls hp ho hr => ?_, ?_⟩
      · intro va len ls hp ho met
        exact ⟨fun hc => peerRequest_next hport (peerRead_poisoned hf hg ho hp hc),
          fun hc hr => peerRequest_next hport (peerRead_answers hf hg ho hp hc hr)⟩
      · exact peerRequest_next hport (peerWrite_writes hf hg ho hp hr)
      · intro va op ty t val ret ls hty hp hal hdev ho hr hc u old pa hhead
        exact peerRequest_next hport (peerAtomic_updates hf hg ho hty hp ⟨hal, hdev⟩ hr hc hhead)
    · exact peerCommitUnit_next hport (peerUnit_writes hf hg hp ho hr)
  -- Answers
  · intro x hx honly ok data rest
    refine ⟨_, peerAck_answers hx honly ok data, answerOp_gone s x ok data, answerOp_gives, answerOp_done, ?_⟩
    rintro hk rfl v hv hlid
    rw [answerOp_fails hk]
    exact failOp_frozen hv hlid

end Sys2Proof.Links
end
